-- ==== Sys2Proof/Word.lean ====
section
/-!
DEFINITION. The word types of the AXL-9600 and the shape of sparse data.
A line is 128 bytes, a word is 4 bytes (R4), a row is 2,048 bits (R75).
-/

namespace Sys2Proof

/-- A byte. -/
abbrev Byte := BitVec 8

/-- A halfword. -/
abbrev HWord := BitVec 16

/-- A word of 4 bytes (R4). -/
abbrev Word := BitVec 32

/-- A doubleword: a scalar register (R93) or a virtual address. -/
abbrev DWord := BitVec 64

/-- The bits of one frame row (R75): cell c holds bits 32c+31 to 32c. -/
abbrev RowBits := BitVec 2048

/-- Sparse data by a number: pairs with strictly rising keys, where an unlisted key holds a value
that the reader of the table names. -/
abbrev Tab (α : Type) := List (Nat × α)

end Sys2Proof
end

