-- ==== Sys2Proof/Syntax.lean ====
section
/-!
DEFINITION. The instruction set as syntax: operand kinds, the closed sets of suffixes, and one
constructor of `Instr` for each row of the opcode table. A row with an encoding carries its fields in
the order of its assembly form; a row without one is an event of the package, and carries what picks
out the event (a core, a line, a launch, a command's argument).
-/

namespace Sys2Proof

/-- The index of a core, c = x + 48y (R187); 0 to 3,071 are cores. -/
abbrev CoreId := BitVec 12

/-- An 8-bit frame operand field (R12): one constructor for each kind that the byte can name. The byte
0xF0 + n is `in`n as a source and `out`n as a destination. -/
inductive Opd where
  | row (n : BitVec 6)
  | col (n : BitVec 6)
  | dia (n : BitVec 6)
  | sreg (n : BitVec 5)
  | que (n : BitVec 4)
  | chan (n : BitVec 3)
  | mask (n : BitVec 3)
  deriving DecidableEq, Repr

/-- A V field that must name a row, a column or a diagonal (R55). -/
inductive Place where
  | row (n : BitVec 6)
  | col (n : BitVec 6)
  | dia (n : BitVec 6)
  deriving DecidableEq, Repr

/-- The format codes 0 to 13 (R75). -/
inductive Fmt where
  | none | fp64 | fp32 | bf16 | fp16 | e4m3 | int32 | int16 | int8 | int6 | int4 | b32 | uint8 | idx32
  deriving DecidableEq, Repr

/-- The scopes (R4), narrowest first. -/
inductive Scope where
  | task | clu | die | pkg | sys
  deriving DecidableEq, Repr

/-- The order codes (R56). -/
inductive Order where
  | rlx | acq | rel | ar | sc
  deriving DecidableEq, Repr

/-- The SO field of a scalar atomic: 5 × scope + order code (R64). -/
structure ScopeOrder where
  scope : Scope
  order : Order
  deriving DecidableEq, Repr

/-- The format selector of scalar floating point (R59). -/
inductive FpFmt where
  | fp64 | fp32
  deriving DecidableEq, Repr

/-- The kinds of `fcvt` (R59). -/
inductive FcvtKind where
  | toi | tou | fri | fru | frf
  deriving DecidableEq, Repr

/-- The conditions of `fcmp` (R59). -/
inductive FcmpCond where
  | eq | lt | le | un
  deriving DecidableEq, Repr

/-- The special registers 0 to 32 (R60). -/
inductive Spr where
  | vl | ksel | rnd | prot | pmask | egdone | coord | foot | group | taskid | budget | cycle | time
  | instret | rbase | tvec | epc | ecause | einfo | tdies | tenant | asid | ptroot | lease1 | lease2
  | bnda | bndb | bndc | emerg | mtvec | mepc | mcause | minfo
  deriving DecidableEq, Repr

/-- The memories a drain waits for (R65). -/
inductive DrainKind where
  | sp | peer | mem
  deriving DecidableEq, Repr

/-- The direction of a hoop access by `hmov` (R67). -/
inductive HDir where
  | row | col | dia
  deriving DecidableEq, Repr

/-- The two-operand operations of the scalar atomics (R64), also those a peer or the host may ask for. -/
inductive AtomOp where
  | add | min | max | minu | maxu | and | or | xor | swp | cas
  deriving DecidableEq, Repr

/-- Where a line with an uncorrectable error was found (R369). -/
inductive LineSite where
  | l2 | l1 (c : CoreId) | clusterHome (c : CoreId) | scratchpad (c : CoreId)
  deriving DecidableEq, Repr

/-- Where an uncorrectable error is found (R369). A block is 32 bytes, named by PA bits 51:5. `lane` is a wrong result of the next
protected computation of a cell, and with `again` of its recomputation (R130, R372). -/
inductive ErrSite where
  | hbm (block : BitVec 47)
  | line (site : LineSite) (block : BitVec 47)
  | frameCell (c : CoreId) (row cell : BitVec 6)
  | hoopElement (c : CoreId) (h : BitVec 2) (i : BitVec 6) (j : BitVec 7)
  | latchWord (c : CoreId) (l : BitVec 1) (w : BitVec 12)
  | scaleReg (c : CoreId) (n : BitVec 8)
  | control (c : CoreId)
  | flit
  | lane (c : CoreId) (cell : BitVec 5) (again : Bool)
  deriving DecidableEq, Repr

/-- Where a corrected error is found (R369): the unit as R382 numbers it, and the core whose pool, hoop or latch it is. -/
structure CorrectedSite where
  unit : BitVec 2
  core : CoreId
  deriving DecidableEq, Repr

/-- A step of a group's abort across the fabric (R284): the abort itself, the acknowledgement toward the top, and the top's word that every
entry is freed. -/
inductive AbortStep where
  | start | ack | freed
  deriving DecidableEq, Repr

/-- An access that the host or a peer package makes to this package's HBM (R205, R386, R387, R390), by the address `a` that it
gives: the host's own, or for a peer the HBM address. A read or a write covers the bytes that `n` counts, 1 to 8; `hold` takes the
line of `a` into the host's caches and, with a byte given, makes that byte of the host's copy dirty. `own` is a change that the host or
a peer makes in its own memory, by its physical address in this package (R182, R187). `rows` are rows of a collective's wave that a peer
sends through a fabric port, each with its 64 poison bits (R272, R368, R390), and `abort` a step of a group's abort that comes through one (R284). -/
inductive OutsideAccess where
  | read (a : DWord) (n : BitVec 4)
  | write (a : DWord) (n : BitVec 4) (v : DWord)
  | atomic (op : AtomOp) (dw : Bool) (a v expect : DWord)
  | hold (a : DWord) (byte : Option (BitVec 7 × Byte))
  | own (pa : BitVec 52) (n : BitVec 4) (v : DWord)
  | rows (port : BitVec 6) (gid : BitVec 12) (ctx tenant : BitVec 16) (wave : BitVec 16) (kind op fmt : BitVec 4) (rows : List (BitVec 2048 × BitVec 64))
  | abort (port : BitVec 6) (gid : BitVec 12) (ctx tenant : BitVec 16) (step : AbortStep)
  deriving DecidableEq, Repr

/-- A firmware image as the root of trust judges it (R392). -/
structure FwImage where
  wellFormed : Bool
  signed : Bool
  keyFused : Bool
  version : Word
  newMinimum : Option Word
  deriving DecidableEq, Repr

/-- A bit of the READY registers (R384). -/
inductive ReadyBit where
  | hub
  | md (m : BitVec 3)
  | hbm (t : BitVec 5)
  | clu (n : BitVec 6)
  | fab (n : BitVec 6)
  | host (n : BitVec 1)
  deriving DecidableEq, Repr

/-- The instructions and events: one constructor for each row of the opcode table. -/
inductive Instr where
  | vaddC2 (dcol : Bool) (d : BitVec 5) (bcol : Bool) (b : BitVec 4)
  | vsubC2 (dcol : Bool) (d : BitVec 5) (bcol : Bool) (b : BitVec 4)
  | vmulC2 (dcol : Bool) (d : BitVec 5) (bcol : Bool) (b : BitVec 4)
  | vfmaC2 (dcol : Bool) (d : BitVec 5) (bcol : Bool) (b : BitVec 4)
  | vminC2 (dcol : Bool) (d : BitVec 5) (bcol : Bool) (b : BitVec 4)
  | vmaxC2 (dcol : Bool) (d : BitVec 5) (bcol : Bool) (b : BitVec 4)
  | vandC2 (dcol : Bool) (d : BitVec 5) (bcol : Bool) (b : BitVec 4)
  | vorC2 (dcol : Bool) (d : BitVec 5) (bcol : Bool) (b : BitVec 4)
  | vxorC2 (dcol : Bool) (d : BitVec 5) (bcol : Bool) (b : BitVec 4)
  | vshlC2 (dcol : Bool) (d : BitVec 5) (bcol : Bool) (b : BitVec 4)
  | vshrC2 (dcol : Bool) (d : BitVec 5) (bcol : Bool) (b : BitVec 4)
  | vsraC2 (dcol : Bool) (d : BitVec 5) (bcol : Bool) (b : BitVec 4)
  | vmovC2 (dcol : Bool) (d : BitVec 5) (bcol : Bool) (b : BitVec 4)
  | vabsC2 (dcol : Bool) (d : BitVec 5) (bcol : Bool) (b : BitVec 4)
  | vnegC2 (dcol : Bool) (d : BitVec 5) (bcol : Bool) (b : BitVec 4)
  | vpopcC2 (dcol : Bool) (d : BitVec 5) (bcol : Bool) (b : BitVec 4)
  | vaddV3 (d a b : Opd)
  | vsubV3 (d a b : Opd)
  | vmulV3 (d a b : Opd)
  | vfmaV3 (d a b : Opd)
  | vminV3 (d a b : Opd)
  | vmaxV3 (d a b : Opd)
  | vandV3 (d a b : Opd)
  | vorV3 (d a b : Opd)
  | vxorV3 (d a b : Opd)
  | vshlV3 (d a b : Opd)
  | vshrV3 (d a b : Opd)
  | vsraV3 (d a b : Opd)
  | vmovV3 (d a : Opd)
  | vabsV3 (d a : Opd)
  | vnegV3 (d a : Opd)
  | vpopcV3 (d a : Opd)
  | vdiv (d a b : Opd)
  | vsqrt (d a : Opd)
  | vclz (d a : Opd)
  | vnot (d a : Opd)
  | vcvt (d a : Opd) (fmt : Fmt) (rz sat : Bool)
  | vfmt (d : Opd) (a : BitVec 5)
  | vclr (d : Opd)
  | vsel (d a b : Opd)
  | vceq (k : BitVec 3) (a b : Opd)
  | vcne (k : BitVec 3) (a b : Opd)
  | vclt (k : BitVec 3) (a b : Opd)
  | vcle (k : BitVec 3) (a b : Opd)
  | vid (d : Opd)
  | vredsum (d a : Opd)
  | vredmin (d a : Opd)
  | vredmax (d a : Opd)
  | vredminx (d a : Opd)
  | vredand (d a : Opd)
  | vredor (d a : Opd)
  | vredxor (d a : Opd)
  | vslup (d a b : Opd)
  | vsldn (d a b : Opd)
  | vperm (d a b : Opd)
  | vpack (d a b : Opd)
  | vunpk (d a : Opd) (p : BitVec 3)
  | vdot (d a b : Opd)
  | vqnt (d a : Opd) (sc : BitVec 8)
  | vdq (d a : Opd)
  | vaddSat (d a b : Opd)
  | vsubSat (d a b : Opd)
  | vmulSat (d a b : Opd)
  | add (rd rs1 rs2 : BitVec 5)
  | sub (rd rs1 rs2 : BitVec 5)
  | mul (rd rs1 rs2 : BitVec 5)
  | mulh (rd rs1 rs2 : BitVec 5)
  | mulhu (rd rs1 rs2 : BitVec 5)
  | div (rd rs1 rs2 : BitVec 5)
  | divu (rd rs1 rs2 : BitVec 5)
  | rem (rd rs1 rs2 : BitVec 5)
  | remu (rd rs1 rs2 : BitVec 5)
  | and (rd rs1 rs2 : BitVec 5)
  | or (rd rs1 rs2 : BitVec 5)
  | xor (rd rs1 rs2 : BitVec 5)
  | andn (rd rs1 rs2 : BitVec 5)
  | shl (rd rs1 rs2 : BitVec 5)
  | shr (rd rs1 rs2 : BitVec 5)
  | sra (rd rs1 rs2 : BitVec 5)
  | min (rd rs1 rs2 : BitVec 5)
  | max (rd rs1 rs2 : BitVec 5)
  | minu (rd rs1 rs2 : BitVec 5)
  | maxu (rd rs1 rs2 : BitVec 5)
  | slt (rd rs1 rs2 : BitVec 5)
  | sltu (rd rs1 rs2 : BitVec 5)
  | clz (rd rs1 : BitVec 5)
  | ctz (rd rs1 : BitVec 5)
  | popc (rd rs1 : BitVec 5)
  | csel (rd rs1 rs2 rs3 : BitVec 5)
  | addi (rd rs1 : BitVec 5) (imm : BitVec 12)
  | andi (rd rs1 : BitVec 5) (imm : BitVec 12)
  | ori (rd rs1 : BitVec 5) (imm : BitVec 12)
  | xori (rd rs1 : BitVec 5) (imm : BitVec 12)
  | shli (rd rs1 : BitVec 5) (cnt : BitVec 6)
  | shri (rd rs1 : BitVec 5) (cnt : BitVec 6)
  | srai (rd rs1 : BitVec 5) (cnt : BitVec 6)
  | slti (rd rs1 : BitVec 5) (imm : BitVec 12)
  | lim (rd : BitVec 5) (imm : BitVec 19)
  | apc (rd : BitVec 5) (imm : BitVec 19)
  | beq (rs1 rs2 : BitVec 5) (off : BitVec 12)
  | bne (rs1 rs2 : BitVec 5) (off : BitVec 12)
  | blt (rs1 rs2 : BitVec 5) (off : BitVec 12)
  | bge (rs1 rs2 : BitVec 5) (off : BitVec 12)
  | bltu (rs1 rs2 : BitVec 5) (off : BitVec 12)
  | bgeu (rs1 rs2 : BitVec 5) (off : BitVec 12)
  | jmp (rd : BitVec 5) (off : BitVec 20)
  | jind (rd rs1 : BitVec 5) (imm : BitVec 12)
  | fadd (f : FpFmt) (rd rs1 rs2 : BitVec 5)
  | fsub (f : FpFmt) (rd rs1 rs2 : BitVec 5)
  | fmul (f : FpFmt) (rd rs1 rs2 : BitVec 5)
  | fdiv (f : FpFmt) (rd rs1 rs2 : BitVec 5)
  | fsqrt (f : FpFmt) (rd rs1 : BitVec 5)
  | fma (f : FpFmt) (rd rs1 rs2 rs3 : BitVec 5)
  | fmin (f : FpFmt) (rd rs1 rs2 : BitVec 5)
  | fmax (f : FpFmt) (rd rs1 rs2 : BitVec 5)
  | fcvt (f : FpFmt) (kind : FcvtKind) (rd rs1 : BitVec 5)
  | fcmp (f : FpFmt) (cond : FcmpCond) (rd rs1 rs2 : BitVec 5)
  | sget (rd : BitVec 5) (sel : Spr)
  | sset (sel : Spr) (rs1 : BitVec 5)
  | trap (code : BitVec 10)
  | sysc (code : BitVec 10)
  | eret
  | isync
  | tdone
  | nop
  | ldb (rt rs1 : BitVec 5) (imm : BitVec 12)
  | ldbu (rt rs1 : BitVec 5) (imm : BitVec 12)
  | ldh (rt rs1 : BitVec 5) (imm : BitVec 12)
  | ldhu (rt rs1 : BitVec 5) (imm : BitVec 12)
  | ldw (rt rs1 : BitVec 5) (imm : BitVec 12)
  | ldwu (rt rs1 : BitVec 5) (imm : BitVec 12)
  | ldd (rt rs1 : BitVec 5) (imm : BitVec 12)
  | stb (rt rs1 : BitVec 5) (imm : BitVec 12)
  | sth (rt rs1 : BitVec 5) (imm : BitVec 12)
  | stw (rt rs1 : BitVec 5) (imm : BitVec 12)
  | std (rt rs1 : BitVec 5) (imm : BitVec 12)
  | vld (fmt : Fmt) (v : Place) (rs1 : BitVec 5) (off : BitVec 7)
  | vldInt6 (v : Place) (rs1 : BitVec 5) (off : BitVec 4) (bit : BitVec 3)
  | vlds (fmt : Fmt) (v : Place) (rs1 rs2 : BitVec 5)
  | vst (fmt : Fmt) (v : Place) (rs1 : BitVec 5) (off : BitVec 7)
  | vstInt6 (v : Place) (rs1 : BitVec 5) (off : BitVec 4) (bit : BitVec 3)
  | vsts (fmt : Fmt) (v : Place) (rs1 rs2 : BitVec 5)
  | vldx (fmt : Fmt) (v : Place) (rs1 : BitVec 5) (ix : BitVec 6)
  | vstx (fmt : Fmt) (v : Place) (rs1 : BitVec 5) (ix : BitVec 6)
  | vaadd (sc : Scope) (v : Place) (rs1 : BitVec 5) (ix : BitVec 6)
  | aadd (so : ScopeOrder) (rd : BitVec 5) (rs1 off : BitVec 3) (rs2 : BitVec 5)
  | amin (so : ScopeOrder) (rd : BitVec 5) (rs1 off : BitVec 3) (rs2 : BitVec 5)
  | amax (so : ScopeOrder) (rd : BitVec 5) (rs1 off : BitVec 3) (rs2 : BitVec 5)
  | aminu (so : ScopeOrder) (rd : BitVec 5) (rs1 off : BitVec 3) (rs2 : BitVec 5)
  | amaxu (so : ScopeOrder) (rd : BitVec 5) (rs1 off : BitVec 3) (rs2 : BitVec 5)
  | aand (so : ScopeOrder) (rd : BitVec 5) (rs1 off : BitVec 3) (rs2 : BitVec 5)
  | aor (so : ScopeOrder) (rd : BitVec 5) (rs1 off : BitVec 3) (rs2 : BitVec 5)
  | axor (so : ScopeOrder) (rd : BitVec 5) (rs1 off : BitVec 3) (rs2 : BitVec 5)
  | aswp (so : ScopeOrder) (rd : BitVec 5) (rs1 off : BitVec 3) (rs2 : BitVec 5)
  | acas (so : ScopeOrder) (rd : BitVec 5) (rs1 off : BitVec 3) (rs2 : BitVec 5)
  | aswpDw (so : ScopeOrder) (rd : BitVec 5) (rs1 off : BitVec 3) (rs2 : BitVec 5)
  | acasDw (so : ScopeOrder) (rd : BitVec 5) (rs1 off : BitVec 3) (rs2 : BitVec 5)
  | aaddDw (so : ScopeOrder) (rd : BitVec 5) (rs1 off : BitVec 3) (rs2 : BitVec 5)
  | acq (sc : Scope) (all : Bool) (g : BitVec 8)
  | rel (sc : Scope) (all : Bool) (g : BitVec 8)
  | fence (sc : Scope) (ord : Order)
  | own (sc : Scope) (rs1 rs2 : BitVec 5)
  | disown (sc : Scope) (rs1 rs2 : BitVec 5)
  | drain (kind : DrainKind)
  | pref (l2 : Bool) (rs1 : BitVec 5)
  | qlock (sc : Scope) (rs1 : BitVec 5)
  | qunlock (sc : Scope) (rs1 : BitVec 5)
  | xbeg (rs1 : BitVec 5)
  | xcmp (rs1 rs2 : BitVec 5)
  | xend (rd : BitVec 5)
  | mmaOvw (h : BitVec 2) (rs1 : BitVec 5) (l : BitVec 1) (rs2 : BitVec 5)
  | mmaAcc (h : BitVec 2) (rs1 : BitVec 5) (l : BitVec 1) (rs2 : BitVec 5)
  | mmaRing (h : BitVec 2) (rs1 : BitVec 5) (l : BitVec 1) (rs2 : BitVec 5)
  | mmaArr (h : BitVec 2) (rs1 : BitVec 5) (l : BitVec 1) (rs2 : BitVec 5)
  | mdarn (h : BitVec 2) (rs1 : BitVec 5) (l : BitVec 1) (d : BitVec 4)
  | hmov (v : Place) (h : BitVec 2) (dir : HDir) (i : BitVec 7)
  | hmovPeek (v : Place) (h : BitVec 2) (dir : HDir) (i : BitVec 7)
  | hclr (h : BitVec 2)
  | hld (h : BitVec 2) (rs1 : BitVec 5)
  | hst (h : BitVec 2) (rs1 : BitVec 5)
  | hdrain (h : BitVec 2) (rs1 rs2 : BitVec 5)
  | mqpop (h : BitVec 2) (i : BitVec 7) (q : BitVec 4)
  | mqpopAcc (h : BitVec 2) (i : BitVec 7) (q : BitVec 4)
  | mqpush (h : BitVec 2) (i : BitVec 7) (q : BitVec 4)
  | mld (l : BitVec 1) (rs1 : BitVec 5)
  | mpass (l : BitVec 1)
  | mwait (l : BitVec 1)
  | qpeek (rd : BitVec 5) (q : BitVec 4)
  | qpeekPop (rd : BitVec 5) (q : BitVec 4)
  | qcount (rd : BitVec 5) (q : BitVec 4)
  | send (rs1 rs2 : BitVec 5)
  | sendv (rs1 : BitVec 5) (v : Place)
  | spush (c : BitVec 2) (v : Place)
  | spop (c : BitVec 2) (v : Place)
  | sflush (c : BitVec 2)
  | lbuf (rs1 rs2 : BitVec 5)
  | lcfg (lv : BitVec 3) (rs1 rs2 : BitVec 5)
  | lrun
  | lstop
  | cpost (sc : Scope) (rd rs1 : BitVec 5)
  | cpop (rd : BitVec 5)
  | launch (rd rs1 : BitVec 5)
  | cstore (sc : Scope) (rs1 rs2 : BitVec 5)
  | cwait (rd rs1 : BitVec 5)
  | cabort (rs1 : BitVec 5)
  | pdef (e rs1 : BitVec 5)
  | pin (n : BitVec 6) (e : BitVec 5)
  | unpick (n : BitVec 6)
  | pdrop (e : BitVec 5)
  | lopen (d : BitVec 4) (rs1 : BitVec 5)
  | lset (d : BitVec 5) (f : BitVec 3) (rs1 : BitVec 5)
  | lclose (d : BitVec 5)
  | linval (d : BitVec 5)
  | lstat (rd d : BitVec 5)
  | bind (rs1 rs2 : BitVec 5)
  | unbind (rs1 : BitVec 5)
  | gtset (rs1 rs2 : BitVec 5)
  | gtclr (rs1 : BitVec 5)
  | tlbinv (sc : Scope) (rs1 : BitVec 5)
  | bset (n : BitVec 8) (rs1 rs2 : BitVec 5)
  | barr (n : BitVec 8) (rs1 : BitVec 5)
  | barw (n : BitVec 8) (rs1 : BitVec 5)
  | bdrop (n : BitVec 8) (rs1 : BitVec 5)
  | bwait (n : BitVec 8) (rs1 : BitVec 5)
  | bquery (rd : BitVec 5) (n : BitVec 8) (rs1 : BitVec 5)
  | vfb (n : BitVec 5) (off : BitVec 15)
  | vpb (k : BitVec 3) (off : BitVec 15)
  | vpend
  | kbool (kd ka kb : BitVec 3) (f : BitVec 4)
  | kpop (rd : BitVec 5) (ka : BitVec 3)
  | kfirst (rd : BitVec 5) (ka : BitVec 3)
  | kset (kd : BitVec 3) (rs1 : BitVec 5)
  | kget (rd : BitVec 5) (ka : BitVec 3)
  | kuse (ka : BitVec 3)
  | vsetvl (rd rs1 : BitVec 5)
  | lpush (v : DWord)
  | conciergeReadBlock
  | placeLaunch
  | priorityPreempt
  | postClaim (lid : Word) (plot : BitVec 12)
  | gangStart (lid : Word) (plot : BitVec 12)
  | handlerStart (c : CoreId)
  | agingPeriod (c : CoreId)
  | budgetExpiry (c : CoreId)
  | taskEnd (c : CoreId)
  | idleSample (lid : Word)
  | latchLoadComplete (c : CoreId) (l : BitVec 1)
  | handOn (c : CoreId) (l : BitVec 1)
  | drainReceive (k : Nat)
  | registerCacheEvict (c : CoreId) (item : BitVec 7)
  | l1Evict (c : CoreId) (line : BitVec 45)
  | clusterHomeEvict (c : CoreId) (line : BitVec 45)
  | lease1Expiry (c : CoreId) (line : BitVec 45)
  | lease2Expiry (line : BitVec 45)
  | recallOwner (line : BitVec 45)
  | partialPush (c : CoreId) (w : BitVec 50)
  | versionBump (c : CoreId) (g : Byte)
  | regionTableWrite (g : Byte) (v : DWord)
  | eventCounterWrite (n : BitVec 12) (v : Word)
  | requestTimeout (c : CoreId)
  | duplicateRecordExpiry
  | qlockRetry (c : CoreId)
  | qlockGrant (w : BitVec 50)
  | relayRow (k : Nat)
  | downWaveDelivery (k : Nat)
  | groupAbort (c : CoreId) (e : BitVec 6)
  | carrierCopy (k : Nat)
  | outChannelDrain (c : CoreId) (n : BitVec 3)
  | packetArrival (k : Nat)
  | channelDelivery (c : CoreId)
  | repeatSequencerPost (c : CoreId)
  | trapEntry (c : CoreId)
  | machineTrapEntry (c : CoreId)
  | uncorrectableError (site : ErrSite)
  | coreFence (c : CoreId)
  | dieLoss (die : BitVec 5)
  | regctx (arg : DWord)
  | unregctx (ctx : HWord)
  | kill (ctx : HWord)
  | preempt (lid : Word)
  | migrate (arg : DWord)
  | hostMemAccess (acc : OutsideAccess)
  | peerAccess (acc : OutsideAccess)
  | linkFlit (c : Option CoreId) (good : Bool)
  | firmwareImage (img : FwImage)
  | spdmRequest (req : DWord)
  | powerUp
  | functionReady (f : ReadyBit)
  | powerCap (watts : HWord) (tmax : BitVec 8)
  | thermalTrip (tmax : BitVec 8)
  | coreReset (c : CoreId)
  | timebaseHalt
  | registerWrite (off : BitVec 25) (v : DWord)
  | l2Evict (line : BitVec 45)
  | tlbEvict (c : CoreId) (k : Nat)
  | timebaseResume
  | correctedError (unit : CorrectedSite)
  | packageReset
  deriving DecidableEq, Repr

end Sys2Proof
end

