-- ==== Sys2Proof/WellFormed.lean ====
section
/-!
DEFINITION. Which terms of `Instr` are instructions: the operand rules of R55 and of the instructions' own
descriptions, and the limits of the events' parameters. The decoder answers only well-formed terms.
-/

namespace Sys2Proof

/-- A source of the vector stream (R55): a row, column, diagonal, scalar or channel, or a queue that the
vector stream pops, q0 to q3, q14 and q15 (R97). -/
def Opd.isSource : Opd → Bool
  | .row _ | .col _ | .dia _ | .sreg _ | .chan _ => true
  | .que n => n.toNat < 4 || 13 < n.toNat
  | .mask _ => false

/-- A destination of the vector stream (R55): a row, column, diagonal or channel, or a row queue that
the vector stream pushes, q12 and q13 (R97). -/
def Opd.isDest : Opd → Bool
  | .row _ | .col _ | .dia _ | .chan _ => true
  | .que n => n.toNat == 12 || n.toNat == 13
  | .sreg _ | .mask _ => false

/-- A destination of a reduction: also a scalar queue that the vector stream pushes, q4 to q7 (R127). -/
def Opd.isReductionDest : Opd → Bool
  | .que n => (4 ≤ n.toNat && n.toNat < 8) || n.toNat == 12 || n.toNat == 13
  | o => o.isDest

/-- A row operand. -/
def Opd.isRow : Opd → Bool
  | .row _ => true
  | _ => false

/-- A row, column or diagonal. -/
def Opd.isPlace : Opd → Bool
  | .row _ | .col _ | .dia _ => true
  | _ => false

/-- The distance of a slide: a scalar register or a scalar queue that the vector stream pops (R141). -/
def Opd.isDistance : Opd → Bool
  | .sreg _ => true
  | .que n => n.toNat < 4
  | _ => false

/-- A core of the package (R1). -/
def isCore (c : CoreId) : Bool := c.toNat < 3072

/-- A format that a load may name (R56). -/
def Fmt.isLoadable (f : Fmt) : Bool := f ≠ .none

/-- A scope at which an L2 home is acted on (R65). -/
def Scope.isWide : Scope → Bool
  | .task | .clu => false
  | .die | .pkg | .sys => true

/-- The core that an uncorrectable error names, if any, is a core. -/
def ErrSite.ok : ErrSite → Bool
  | .line (.l1 c) _ | .line (.clusterHome c) _ | .line (.scratchpad c) _ => isCore c
  | .frameCell c _ _ | .hoopElement c _ _ _ | .latchWord c _ _ | .scaleReg c _ | .control c | .lane c _ _ => isCore c
  | .hbm _ | .line .l2 _ | .flit => true

/-- An outside access covers 1 to 8 bytes; an atomic is aligned; host and peer memory stand in apertures 0x3 and 0x8 to 0xF; there are
48 fabric ports. -/
def OutsideAccess.ok : OutsideAccess → Bool
  | .read _ n | .write _ n _ => 1 ≤ n.toNat && n.toNat ≤ 8
  | .atomic _ dw a _ _ => a.toNat % (if dw then 8 else 4) == 0
  | .hold _ _ => true
  | .rows port .. | .abort port .. => port.toNat < 48
  | .own pa n _ => 1 ≤ n.toNat && n.toNat ≤ 8 && (pa.toNat / 2 ^ 48 == 3 || 8 ≤ pa.toNat / 2 ^ 48)

/-- The well-formed instructions (R55 and the rules named above). -/
def Instr.wellFormed : Instr → Bool
  | .vaddC2 .. => true
  | .vsubC2 .. => true
  | .vmulC2 .. => true
  | .vfmaC2 .. => true
  | .vminC2 .. => true
  | .vmaxC2 .. => true
  | .vandC2 .. => true
  | .vorC2 .. => true
  | .vxorC2 .. => true
  | .vshlC2 .. => true
  | .vshrC2 .. => true
  | .vsraC2 .. => true
  | .vmovC2 .. => true
  | .vabsC2 .. => true
  | .vnegC2 .. => true
  | .vpopcC2 .. => true
  | .vaddV3 d a b => d.isDest && a.isSource && b.isSource
  | .vsubV3 d a b => d.isDest && a.isSource && b.isSource
  | .vmulV3 d a b => d.isDest && a.isSource && b.isSource
  | .vfmaV3 d a b => d.isPlace && a.isSource && b.isSource
  | .vminV3 d a b => d.isDest && a.isSource && b.isSource
  | .vmaxV3 d a b => d.isDest && a.isSource && b.isSource
  | .vandV3 d a b => d.isDest && a.isSource && b.isSource
  | .vorV3 d a b => d.isDest && a.isSource && b.isSource
  | .vxorV3 d a b => d.isDest && a.isSource && b.isSource
  | .vshlV3 d a b => d.isDest && a.isSource && b.isSource
  | .vshrV3 d a b => d.isDest && a.isSource && b.isSource
  | .vsraV3 d a b => d.isDest && a.isSource && b.isSource
  | .vmovV3 d a => d.isDest && a.isSource
  | .vabsV3 d a => d.isDest && a.isSource
  | .vnegV3 d a => d.isDest && a.isSource
  | .vpopcV3 d a => d.isDest && a.isSource
  | .vdiv d a b => d.isDest && a.isSource && b.isSource
  | .vsqrt d a => d.isDest && a.isSource
  | .vclz d a => d.isDest && a.isSource
  | .vnot d a => d.isDest && a.isSource
  | .vcvt d a fmt _ _ => d.isDest && a.isSource && fmt != .none
  | .vfmt d _ => d.isRow
  | .vclr d => d.isRow
  | .vsel d a b => d.isDest && a.isSource && b.isSource
  | .vceq k a b => k != 0 && a.isSource && b.isSource
  | .vcne k a b => k != 0 && a.isSource && b.isSource
  | .vclt k a b => k != 0 && a.isSource && b.isSource
  | .vcle k a b => k != 0 && a.isSource && b.isSource
  -- R136 speaks of a row, a column and a diagonal; a queue or an out-channel takes a row image (DESIGN CHOICE, log 53)
  | .vid d => d.isDest
  | .vredsum d a => d.isReductionDest && a.isSource
  | .vredmin d a => d.isReductionDest && a.isSource
  | .vredmax d a => d.isReductionDest && a.isSource
  | .vredminx d a => (d.isRow || !d.isPlace) && d.isReductionDest && a.isSource
  | .vredand d a => d.isReductionDest && a.isSource
  | .vredor d a => d.isReductionDest && a.isSource
  | .vredxor d a => d.isReductionDest && a.isSource
  | .vslup d a b => d.isDest && a.isSource && b.isDistance
  | .vsldn d a b => d.isDest && a.isSource && b.isDistance
  | .vperm d a b => d.isDest && a.isSource && b.isSource
  | .vpack d a b => d.isRow && a.isSource && b.isSource
  | .vunpk d a _ => d.isDest && a.isSource
  | .vdot d a b => d.isPlace && a.isSource && b.isSource
  | .vqnt d a _ => d.isRow && a.isRow
  | .vdq d a => d.isRow && a.isSource
  | .vaddSat d a b => d.isDest && a.isSource && b.isSource
  | .vsubSat d a b => d.isDest && a.isSource && b.isSource
  | .vmulSat d a b => d.isDest && a.isSource && b.isSource
  | .add .. => true
  | .sub .. => true
  | .mul .. => true
  | .mulh .. => true
  | .mulhu .. => true
  | .div .. => true
  | .divu .. => true
  | .rem .. => true
  | .remu .. => true
  | .and .. => true
  | .or .. => true
  | .xor .. => true
  | .andn .. => true
  | .shl .. => true
  | .shr .. => true
  | .sra .. => true
  | .min .. => true
  | .max .. => true
  | .minu .. => true
  | .maxu .. => true
  | .slt .. => true
  | .sltu .. => true
  | .clz .. => true
  | .ctz .. => true
  | .popc .. => true
  | .csel .. => true
  | .addi .. => true
  | .andi .. => true
  | .ori .. => true
  | .xori .. => true
  | .shli .. => true
  | .shri .. => true
  | .srai .. => true
  | .slti .. => true
  | .lim .. => true
  | .apc .. => true
  | .beq .. => true
  | .bne .. => true
  | .blt .. => true
  | .bge .. => true
  | .bltu .. => true
  | .bgeu .. => true
  | .jmp .. => true
  | .jind .. => true
  | .fadd .. => true
  | .fsub .. => true
  | .fmul .. => true
  | .fdiv .. => true
  | .fsqrt .. => true
  | .fma .. => true
  | .fmin .. => true
  | .fmax .. => true
  | .fcvt .. => true
  | .fcmp .. => true
  | .sget .. => true
  | .sset .. => true
  | .trap .. => true
  | .sysc .. => true
  | .eret => true
  | .isync => true
  | .tdone => true
  | .nop => true
  | .ldb .. => true
  | .ldbu .. => true
  | .ldh .. => true
  | .ldhu .. => true
  | .ldw .. => true
  | .ldwu .. => true
  | .ldd .. => true
  | .stb .. => true
  | .sth .. => true
  | .stw .. => true
  | .std .. => true
  | .vld fmt _ _ _ => fmt.isLoadable && fmt != .int6
  | .vldInt6 .. => true
  | .vlds fmt _ _ _ => fmt.isLoadable
  | .vst fmt _ _ _ => fmt != .int6
  | .vstInt6 .. => true
  | .vsts .. => true
  | .vldx fmt _ _ _ => fmt.isLoadable
  | .vstx .. => true
  | .vaadd .. => true
  | .aadd .. => true
  | .amin .. => true
  | .amax .. => true
  | .aminu .. => true
  | .amaxu .. => true
  | .aand .. => true
  | .aor .. => true
  | .axor .. => true
  | .aswp .. => true
  | .acas .. => true
  | .aswpDw .. => true
  | .acasDw .. => true
  | .aaddDw .. => true
  | .acq _ all g => !all || g == 0
  | .rel _ all g => !all || g == 0
  | .fence _ ord => ord != .rlx
  | .own sc _ _ => sc.isWide
  | .disown sc _ _ => sc.isWide
  | .drain .. => true
  | .pref .. => true
  | .qlock sc _ => sc.isWide
  | .qunlock sc _ => sc.isWide
  | .xbeg .. => true
  | .xcmp .. => true
  | .xend .. => true
  | .mmaOvw .. => true
  | .mmaAcc .. => true
  | .mmaRing .. => true
  | .mmaArr .. => true
  | .mdarn .. => true
  | .hmov .. => true
  | .hmovPeek .. => true
  | .hclr .. => true
  | .hld .. => true
  | .hst .. => true
  | .hdrain .. => true
  | .mqpop _ _ q => q == 8 || q == 9 || q == 12 || q == 13
  | .mqpopAcc _ _ q => q == 8 || q == 9 || q == 12 || q == 13
  | .mqpush _ _ q => q == 10 || q == 11 || q == 14 || q == 15
  | .mld .. => true
  | .mpass .. => true
  | .mwait .. => true
  | .qpeek _ q => q == 4 || q == 5 || q == 6 || q == 7 || q == 10 || q == 11
  | .qpeekPop _ q => q == 4 || q == 5 || q == 6 || q == 7 || q == 10 || q == 11
  | .qcount .. => true
  | .send .. => true
  | .sendv .. => true
  | .spush .. => true
  | .spop .. => true
  | .sflush .. => true
  | .lbuf .. => true
  | .lcfg lv _ _ => lv.toNat < 6
  | .lrun => true
  | .lstop => true
  | .cpost .. => true
  | .cpop .. => true
  | .launch .. => true
  | .cstore sc _ _ => sc != .task
  | .cwait .. => true
  | .cabort .. => true
  | .pdef .. => true
  | .pin .. => true
  | .unpick .. => true
  | .pdrop .. => true
  | .lopen .. => true
  | .lset .. => true
  | .lclose .. => true
  | .linval .. => true
  | .lstat .. => true
  | .bind .. => true
  | .unbind .. => true
  | .gtset .. => true
  | .gtclr .. => true
  | .tlbinv .. => true
  | .bset .. => true
  | .barr .. => true
  | .barw .. => true
  | .bdrop .. => true
  | .bwait .. => true
  | .bquery .. => true
  | .vfb .. => true
  | .vpb .. => true
  | .vpend => true
  | .kbool kd _ _ _ => kd != 0
  | .kpop .. => true
  | .kfirst .. => true
  | .kset kd _ => kd != 0
  | .kget .. => true
  | .kuse .. => true
  | .vsetvl .. => true
  | .lpush .. => true
  | .conciergeReadBlock => true
  | .placeLaunch => true
  | .priorityPreempt => true
  | .postClaim .. => true
  | .gangStart .. => true
  | .handlerStart c => isCore c
  | .agingPeriod c => isCore c
  | .budgetExpiry c => isCore c
  | .taskEnd c => isCore c
  | .idleSample .. => true
  | .latchLoadComplete c _ => isCore c
  | .handOn c _ => isCore c
  | .drainReceive .. => true
  | .registerCacheEvict c _ => isCore c
  | .l1Evict c _ => isCore c
  | .clusterHomeEvict c _ => isCore c
  | .lease1Expiry c _ => isCore c
  | .lease2Expiry .. => true
  | .recallOwner .. => true
  | .partialPush c _ => isCore c
  | .versionBump c _ => isCore c
  | .regionTableWrite .. => true
  | .eventCounterWrite .. => true
  | .requestTimeout c => isCore c
  | .duplicateRecordExpiry => true
  | .qlockRetry c => isCore c
  | .qlockGrant .. => true
  | .relayRow .. => true
  | .downWaveDelivery .. => true
  | .groupAbort c _ => isCore c
  | .carrierCopy .. => true
  | .outChannelDrain c _ => isCore c
  | .packetArrival .. => true
  | .channelDelivery c => isCore c
  | .repeatSequencerPost c => isCore c
  | .trapEntry c => isCore c
  | .machineTrapEntry c => isCore c
  | .uncorrectableError site => site.ok
  | .coreFence c => isCore c
  | .dieLoss die => die.toNat < 24
  | .regctx .. => true
  | .unregctx .. => true
  | .kill .. => true
  | .preempt .. => true
  | .migrate .. => true
  | .hostMemAccess acc => acc.ok
  | .peerAccess acc => acc.ok
  | .linkFlit c _ => (match c with | some c => isCore c | none => true)
  | .firmwareImage .. => true
  | .spdmRequest .. => true
  | .powerUp => true
  | .functionReady .. => true
  | .powerCap .. => true
  | .thermalTrip .. => true
  | .coreReset c => isCore c
  | .timebaseHalt => true
  | .registerWrite .. => true
  | .l2Evict .. => true
  | .tlbEvict c _ => isCore c
  | .timebaseResume => true
  | .correctedError u => isCore u.core
  | .packageReset => true

end Sys2Proof
end

