-- ==== Sys2Proof/Decode.lean ====
section
/-!
DEFINITION. The decoder, total on any bytes, which refuses by name what is no instruction (R50 to R73), and
after it the encoder, written from the same layouts.
-/

namespace Sys2Proof

/-- Why bytes are no instruction (R73). -/
inductive DecodeError where
  /-- Fewer bytes than the length that bit 0 gives (R50). -/
  | truncated
  /-- Majors 24 to 31 (R56). -/
  | reservedMajor
  /-- A reserved minor code or V3 op (R54, R58 to R72). -/
  | reservedCode
  /-- A non-zero bit in a field that must be zero (R57). -/
  | nonZeroField
  /-- A format, scope, SO or other sub-code that its field does not allow (R56, R59, R60, R64). -/
  | badCode
  /-- An operand that R55 or the instruction's own description does not allow. -/
  | badOperand
  deriving DecidableEq, Repr

/-! ### Fields of a word -/

/-- The field of `len` bits from bit `lo` of a word, as a number. -/
def fld (w lo len : Nat) : Nat := w / 2 ^ lo % 2 ^ len

/-- The same field as a bit vector. -/
def fbv (w lo len : Nat) : BitVec len := BitVec.ofNat len (fld w lo len)

/-- One bit of a word as a truth value. -/
def flag (w lo : Nat) : Bool := fld w lo 1 == 1

/-- A field that must be zero (R57). -/
def zeroField (n : Nat) : Except DecodeError Unit := if n = 0 then .ok () else .error .nonZeroField

/-! ### Sub-codes and their numbers -/

/-- R75. -/
def Fmt.code : Fmt → Nat
  | .none => 0 | .fp64 => 1 | .fp32 => 2 | .bf16 => 3 | .fp16 => 4 | .e4m3 => 5 | .int32 => 6
  | .int16 => 7 | .int8 => 8 | .int6 => 9 | .int4 => 10 | .b32 => 11 | .uint8 => 12 | .idx32 => 13

/-- R75, R56: codes 14 and 15 are no format. -/
def Fmt.ofCode : Nat → Option Fmt
  | 0 => some .none | 1 => some .fp64 | 2 => some .fp32 | 3 => some .bf16 | 4 => some .fp16
  | 5 => some .e4m3 | 6 => some .int32 | 7 => some .int16 | 8 => some .int8 | 9 => some .int6
  | 10 => some .int4 | 11 => some .b32 | 12 => some .uint8 | 13 => some .idx32
  | _ => Option.none

/-- R56. -/
def Scope.code : Scope → Nat
  | .task => 0 | .clu => 1 | .die => 2 | .pkg => 3 | .sys => 4

/-- R56: values 5 to 7 are no scope. -/
def Scope.ofCode : Nat → Option Scope
  | 0 => some .task | 1 => some .clu | 2 => some .die | 3 => some .pkg | 4 => some .sys | _ => none

/-- R56. -/
def Order.code : Order → Nat
  | .rlx => 0 | .acq => 1 | .rel => 2 | .ar => 3 | .sc => 4

/-- R56. -/
def Order.ofCode : Nat → Option Order
  | 0 => some .rlx | 1 => some .acq | 2 => some .rel | 3 => some .ar | 4 => some .sc | _ => none

/-- R64. -/
def ScopeOrder.code (so : ScopeOrder) : Nat := 5 * so.scope.code + so.order.code

/-- R64: values 25 to 31 are no SO. -/
def ScopeOrder.ofCode (n : Nat) : Option ScopeOrder :=
  match Scope.ofCode (n / 5), Order.ofCode (n % 5) with
  | some s, some o => some { scope := s, order := o }
  | _, _ => none

/-- R59: F is 1 for `.fp32`. -/
def FpFmt.code : FpFmt → Nat
  | .fp64 => 0 | .fp32 => 1

/-- R59. -/
def FpFmt.ofCode : Nat → Option FpFmt
  | 0 => some .fp64 | 1 => some .fp32 | _ => none

/-- R59. -/
def FcvtKind.code : FcvtKind → Nat
  | .toi => 0 | .tou => 1 | .fri => 2 | .fru => 3 | .frf => 4

/-- R59: kinds 5 to 31 are reserved. -/
def FcvtKind.ofCode : Nat → Option FcvtKind
  | 0 => some .toi | 1 => some .tou | 2 => some .fri | 3 => some .fru | 4 => some .frf | _ => none

/-- R59. -/
def FcmpCond.code : FcmpCond → Nat
  | .eq => 0 | .lt => 1 | .le => 2 | .un => 3

/-- R59: conditions 4 to 31 are reserved. -/
def FcmpCond.ofCode : Nat → Option FcmpCond
  | 0 => some .eq | 1 => some .lt | 2 => some .le | 3 => some .un | _ => none

/-- R65. -/
def DrainKind.code : DrainKind → Nat
  | .sp => 0 | .peer => 1 | .mem => 2

/-- R65: kind 3 is reserved. -/
def DrainKind.ofCode : Nat → Option DrainKind
  | 0 => some .sp | 1 => some .peer | 2 => some .mem | _ => none

/-- R67. -/
def HDir.code : HDir → Nat
  | .row => 0 | .col => 1 | .dia => 2

/-- R67: direction 3 is reserved. -/
def HDir.ofCode : Nat → Option HDir
  | 0 => some .row | 1 => some .col | 2 => some .dia | _ => none

/-- R60. -/
def Spr.code : Spr → Nat
  | .vl => 0 | .ksel => 1 | .rnd => 2 | .prot => 3 | .pmask => 4 | .egdone => 5 | .coord => 6
  | .foot => 7 | .group => 8 | .taskid => 9 | .budget => 10 | .cycle => 11 | .time => 12
  | .instret => 13 | .rbase => 14 | .tvec => 15 | .epc => 16 | .ecause => 17 | .einfo => 18
  | .tdies => 19 | .tenant => 20 | .asid => 21 | .ptroot => 22 | .lease1 => 23 | .lease2 => 24
  | .bnda => 25 | .bndb => 26 | .bndc => 27 | .emerg => 28 | .mtvec => 29 | .mepc => 30
  | .mcause => 31 | .minfo => 32

/-- R60: numbers 33 to 1,023 name no register. -/
def Spr.ofCode : Nat → Option Spr
  | 0 => some .vl | 1 => some .ksel | 2 => some .rnd | 3 => some .prot | 4 => some .pmask
  | 5 => some .egdone | 6 => some .coord | 7 => some .foot | 8 => some .group | 9 => some .taskid
  | 10 => some .budget | 11 => some .cycle | 12 => some .time | 13 => some .instret
  | 14 => some .rbase | 15 => some .tvec | 16 => some .epc | 17 => some .ecause | 18 => some .einfo
  | 19 => some .tdies | 20 => some .tenant | 21 => some .asid | 22 => some .ptroot
  | 23 => some .lease1 | 24 => some .lease2 | 25 => some .bnda | 26 => some .bndb | 27 => some .bndc
  | 28 => some .emerg | 29 => some .mtvec | 30 => some .mepc | 31 => some .mcause | 32 => some .minfo
  | _ => none

/-- The operand byte of R12. -/
def Opd.code : Opd → Nat
  | .row n => n.toNat
  | .col n => 64 + n.toNat
  | .dia n => 128 + n.toNat
  | .sreg n => 192 + n.toNat
  | .que n => 224 + n.toNat
  | .chan n => 240 + n.toNat
  | .mask n => 248 + n.toNat

/-- The operand that a byte names (R12); every byte names one. -/
def Opd.ofCode (b : Nat) : Opd :=
  if b < 64 then .row (BitVec.ofNat 6 b)
  else if b < 128 then .col (BitVec.ofNat 6 (b - 64))
  else if b < 192 then .dia (BitVec.ofNat 6 (b - 128))
  else if b < 224 then .sreg (BitVec.ofNat 5 (b - 192))
  else if b < 240 then .que (BitVec.ofNat 4 (b - 224))
  else if b < 248 then .chan (BitVec.ofNat 3 (b - 240))
  else .mask (BitVec.ofNat 3 (b - 248))

/-- The V byte of a row, column or diagonal (R12). -/
def Place.code : Place → Nat
  | .row n => n.toNat
  | .col n => 64 + n.toNat
  | .dia n => 128 + n.toNat

/-- The place that a V byte names; bytes from 0xC0 name none (R55). -/
def Place.ofCode (b : Nat) : Option Place :=
  if b < 64 then some (.row (BitVec.ofNat 6 b))
  else if b < 128 then some (.col (BitVec.ofNat 6 (b - 64)))
  else if b < 192 then some (.dia (BitVec.ofNat 6 (b - 128)))
  else none

/-- A sub-code, or the refusal that its field gives. -/
def need {α : Type} (e : DecodeError) : Option α → Except DecodeError α
  | some a => .ok a
  | none => .error e

/-! ### The decoder -/

/-- Form C2 (R53): every halfword with bit 0 clear. -/
def decodeC2 (w : Nat) : Instr :=
  let dcol := flag w 5
  let d := fbv w 6 5
  let bcol := flag w 11
  let b := fbv w 12 4
  match fld w 1 4 with
  | 0 => .vaddC2 dcol d bcol b
  | 1 => .vsubC2 dcol d bcol b
  | 2 => .vmulC2 dcol d bcol b
  | 3 => .vfmaC2 dcol d bcol b
  | 4 => .vminC2 dcol d bcol b
  | 5 => .vmaxC2 dcol d bcol b
  | 6 => .vandC2 dcol d bcol b
  | 7 => .vorC2 dcol d bcol b
  | 8 => .vxorC2 dcol d bcol b
  | 9 => .vshlC2 dcol d bcol b
  | 10 => .vshrC2 dcol d bcol b
  | 11 => .vsraC2 dcol d bcol b
  | 12 => .vmovC2 dcol d bcol b
  | 13 => .vabsC2 dcol d bcol b
  | 14 => .vnegC2 dcol d bcol b
  | _ => .vpopcC2 dcol d bcol b

/-- Form V3 (R54). -/
def decodeV3 (w : Nat) : Except DecodeError Instr :=
  match fld w 2 6 with
  | 0 => .ok (.vaddV3 (Opd.ofCode (fld w 8 8)) (Opd.ofCode (fld w 16 8)) (Opd.ofCode (fld w 24 8)))
  | 1 => .ok (.vsubV3 (Opd.ofCode (fld w 8 8)) (Opd.ofCode (fld w 16 8)) (Opd.ofCode (fld w 24 8)))
  | 2 => .ok (.vmulV3 (Opd.ofCode (fld w 8 8)) (Opd.ofCode (fld w 16 8)) (Opd.ofCode (fld w 24 8)))
  | 3 => .ok (.vfmaV3 (Opd.ofCode (fld w 8 8)) (Opd.ofCode (fld w 16 8)) (Opd.ofCode (fld w 24 8)))
  | 4 => .ok (.vminV3 (Opd.ofCode (fld w 8 8)) (Opd.ofCode (fld w 16 8)) (Opd.ofCode (fld w 24 8)))
  | 5 => .ok (.vmaxV3 (Opd.ofCode (fld w 8 8)) (Opd.ofCode (fld w 16 8)) (Opd.ofCode (fld w 24 8)))
  | 6 => .ok (.vandV3 (Opd.ofCode (fld w 8 8)) (Opd.ofCode (fld w 16 8)) (Opd.ofCode (fld w 24 8)))
  | 7 => .ok (.vorV3 (Opd.ofCode (fld w 8 8)) (Opd.ofCode (fld w 16 8)) (Opd.ofCode (fld w 24 8)))
  | 8 => .ok (.vxorV3 (Opd.ofCode (fld w 8 8)) (Opd.ofCode (fld w 16 8)) (Opd.ofCode (fld w 24 8)))
  | 9 => .ok (.vshlV3 (Opd.ofCode (fld w 8 8)) (Opd.ofCode (fld w 16 8)) (Opd.ofCode (fld w 24 8)))
  | 10 => .ok (.vshrV3 (Opd.ofCode (fld w 8 8)) (Opd.ofCode (fld w 16 8)) (Opd.ofCode (fld w 24 8)))
  | 11 => .ok (.vsraV3 (Opd.ofCode (fld w 8 8)) (Opd.ofCode (fld w 16 8)) (Opd.ofCode (fld w 24 8)))
  | 12 => do
    zeroField (fld w 24 8)
    .ok (.vmovV3 (Opd.ofCode (fld w 8 8)) (Opd.ofCode (fld w 16 8)))
  | 13 => do
    zeroField (fld w 24 8)
    .ok (.vabsV3 (Opd.ofCode (fld w 8 8)) (Opd.ofCode (fld w 16 8)))
  | 14 => do
    zeroField (fld w 24 8)
    .ok (.vnegV3 (Opd.ofCode (fld w 8 8)) (Opd.ofCode (fld w 16 8)))
  | 15 => do
    zeroField (fld w 24 8)
    .ok (.vpopcV3 (Opd.ofCode (fld w 8 8)) (Opd.ofCode (fld w 16 8)))
  | 16 => .ok (.vdiv (Opd.ofCode (fld w 8 8)) (Opd.ofCode (fld w 16 8)) (Opd.ofCode (fld w 24 8)))
  | 17 => do
    zeroField (fld w 24 8)
    .ok (.vsqrt (Opd.ofCode (fld w 8 8)) (Opd.ofCode (fld w 16 8)))
  | 18 => do
    zeroField (fld w 24 8)
    .ok (.vclz (Opd.ofCode (fld w 8 8)) (Opd.ofCode (fld w 16 8)))
  | 19 => do
    zeroField (fld w 24 8)
    .ok (.vnot (Opd.ofCode (fld w 8 8)) (Opd.ofCode (fld w 16 8)))
  | 20 => do
    zeroField (fld w 30 2)
    let fmt ← need .badCode (Fmt.ofCode (fld w 24 4))
    .ok (.vcvt (Opd.ofCode (fld w 8 8)) (Opd.ofCode (fld w 16 8)) fmt (flag w 28) (flag w 29))
  | 21 => if fld w 21 3 = 6 then do
    zeroField (fld w 24 8)
    .ok (.vfmt (Opd.ofCode (fld w 8 8)) (fbv w 16 5)) else .error .badOperand
  | 22 => do
    zeroField (fld w 16 16)
    .ok (.vclr (Opd.ofCode (fld w 8 8)))
  | 23 => .ok (.vsel (Opd.ofCode (fld w 8 8)) (Opd.ofCode (fld w 16 8)) (Opd.ofCode (fld w 24 8)))
  | 24 => if fld w 11 5 = 31 then .ok (.vceq (fbv w 8 3) (Opd.ofCode (fld w 16 8)) (Opd.ofCode (fld w 24 8))) else .error .badOperand
  | 25 => if fld w 11 5 = 31 then .ok (.vcne (fbv w 8 3) (Opd.ofCode (fld w 16 8)) (Opd.ofCode (fld w 24 8))) else .error .badOperand
  | 26 => if fld w 11 5 = 31 then .ok (.vclt (fbv w 8 3) (Opd.ofCode (fld w 16 8)) (Opd.ofCode (fld w 24 8))) else .error .badOperand
  | 27 => if fld w 11 5 = 31 then .ok (.vcle (fbv w 8 3) (Opd.ofCode (fld w 16 8)) (Opd.ofCode (fld w 24 8))) else .error .badOperand
  | 28 => do
    zeroField (fld w 16 16)
    .ok (.vid (Opd.ofCode (fld w 8 8)))
  | 29 => do
    zeroField (fld w 24 8)
    .ok (.vredsum (Opd.ofCode (fld w 8 8)) (Opd.ofCode (fld w 16 8)))
  | 30 => do
    zeroField (fld w 24 8)
    .ok (.vredmin (Opd.ofCode (fld w 8 8)) (Opd.ofCode (fld w 16 8)))
  | 31 => do
    zeroField (fld w 24 8)
    .ok (.vredmax (Opd.ofCode (fld w 8 8)) (Opd.ofCode (fld w 16 8)))
  | 32 => do
    zeroField (fld w 24 8)
    .ok (.vredminx (Opd.ofCode (fld w 8 8)) (Opd.ofCode (fld w 16 8)))
  | 33 => do
    zeroField (fld w 24 8)
    .ok (.vredand (Opd.ofCode (fld w 8 8)) (Opd.ofCode (fld w 16 8)))
  | 34 => do
    zeroField (fld w 24 8)
    .ok (.vredor (Opd.ofCode (fld w 8 8)) (Opd.ofCode (fld w 16 8)))
  | 35 => do
    zeroField (fld w 24 8)
    .ok (.vredxor (Opd.ofCode (fld w 8 8)) (Opd.ofCode (fld w 16 8)))
  | 36 => .ok (.vslup (Opd.ofCode (fld w 8 8)) (Opd.ofCode (fld w 16 8)) (Opd.ofCode (fld w 24 8)))
  | 37 => .ok (.vsldn (Opd.ofCode (fld w 8 8)) (Opd.ofCode (fld w 16 8)) (Opd.ofCode (fld w 24 8)))
  | 38 => .ok (.vperm (Opd.ofCode (fld w 8 8)) (Opd.ofCode (fld w 16 8)) (Opd.ofCode (fld w 24 8)))
  | 39 => .ok (.vpack (Opd.ofCode (fld w 8 8)) (Opd.ofCode (fld w 16 8)) (Opd.ofCode (fld w 24 8)))
  | 40 => do
    zeroField (fld w 27 5)
    .ok (.vunpk (Opd.ofCode (fld w 8 8)) (Opd.ofCode (fld w 16 8)) (fbv w 24 3))
  | 41 => .ok (.vdot (Opd.ofCode (fld w 8 8)) (Opd.ofCode (fld w 16 8)) (Opd.ofCode (fld w 24 8)))
  | 42 => .ok (.vqnt (Opd.ofCode (fld w 8 8)) (Opd.ofCode (fld w 16 8)) (fbv w 24 8))
  | 43 => do
    zeroField (fld w 24 8)
    .ok (.vdq (Opd.ofCode (fld w 8 8)) (Opd.ofCode (fld w 16 8)))
  | 44 => .ok (.vaddSat (Opd.ofCode (fld w 8 8)) (Opd.ofCode (fld w 16 8)) (Opd.ofCode (fld w 24 8)))
  | 45 => .ok (.vsubSat (Opd.ofCode (fld w 8 8)) (Opd.ofCode (fld w 16 8)) (Opd.ofCode (fld w 24 8)))
  | 46 => .ok (.vmulSat (Opd.ofCode (fld w 8 8)) (Opd.ofCode (fld w 16 8)) (Opd.ofCode (fld w 24 8)))
  | _ => .error .reservedCode

/-- Major 0 (R58 to R72). -/
def decodeMajor0 (w : Nat) : Except DecodeError Instr :=
  match fld w 22 5 with
  | 0 => do
    zeroField (fld w 27 5)
    .ok (.add (fbv w 7 5) (fbv w 12 5) (fbv w 17 5))
  | 1 => do
    zeroField (fld w 27 5)
    .ok (.sub (fbv w 7 5) (fbv w 12 5) (fbv w 17 5))
  | 2 => do
    zeroField (fld w 27 5)
    .ok (.mul (fbv w 7 5) (fbv w 12 5) (fbv w 17 5))
  | 3 => do
    zeroField (fld w 27 5)
    .ok (.mulh (fbv w 7 5) (fbv w 12 5) (fbv w 17 5))
  | 4 => do
    zeroField (fld w 27 5)
    .ok (.mulhu (fbv w 7 5) (fbv w 12 5) (fbv w 17 5))
  | 5 => do
    zeroField (fld w 27 5)
    .ok (.div (fbv w 7 5) (fbv w 12 5) (fbv w 17 5))
  | 6 => do
    zeroField (fld w 27 5)
    .ok (.divu (fbv w 7 5) (fbv w 12 5) (fbv w 17 5))
  | 7 => do
    zeroField (fld w 27 5)
    .ok (.rem (fbv w 7 5) (fbv w 12 5) (fbv w 17 5))
  | 8 => do
    zeroField (fld w 27 5)
    .ok (.remu (fbv w 7 5) (fbv w 12 5) (fbv w 17 5))
  | 9 => do
    zeroField (fld w 27 5)
    .ok (.and (fbv w 7 5) (fbv w 12 5) (fbv w 17 5))
  | 10 => do
    zeroField (fld w 27 5)
    .ok (.or (fbv w 7 5) (fbv w 12 5) (fbv w 17 5))
  | 11 => do
    zeroField (fld w 27 5)
    .ok (.xor (fbv w 7 5) (fbv w 12 5) (fbv w 17 5))
  | 12 => do
    zeroField (fld w 27 5)
    .ok (.andn (fbv w 7 5) (fbv w 12 5) (fbv w 17 5))
  | 13 => do
    zeroField (fld w 27 5)
    .ok (.shl (fbv w 7 5) (fbv w 12 5) (fbv w 17 5))
  | 14 => do
    zeroField (fld w 27 5)
    .ok (.shr (fbv w 7 5) (fbv w 12 5) (fbv w 17 5))
  | 15 => do
    zeroField (fld w 27 5)
    .ok (.sra (fbv w 7 5) (fbv w 12 5) (fbv w 17 5))
  | 16 => do
    zeroField (fld w 27 5)
    .ok (.min (fbv w 7 5) (fbv w 12 5) (fbv w 17 5))
  | 17 => do
    zeroField (fld w 27 5)
    .ok (.max (fbv w 7 5) (fbv w 12 5) (fbv w 17 5))
  | 18 => do
    zeroField (fld w 27 5)
    .ok (.minu (fbv w 7 5) (fbv w 12 5) (fbv w 17 5))
  | 19 => do
    zeroField (fld w 27 5)
    .ok (.maxu (fbv w 7 5) (fbv w 12 5) (fbv w 17 5))
  | 20 => do
    zeroField (fld w 27 5)
    .ok (.slt (fbv w 7 5) (fbv w 12 5) (fbv w 17 5))
  | 21 => do
    zeroField (fld w 27 5)
    .ok (.sltu (fbv w 7 5) (fbv w 12 5) (fbv w 17 5))
  | 22 => do
    zeroField (fld w 17 5)
    zeroField (fld w 27 5)
    .ok (.clz (fbv w 7 5) (fbv w 12 5))
  | 23 => do
    zeroField (fld w 17 5)
    zeroField (fld w 27 5)
    .ok (.ctz (fbv w 7 5) (fbv w 12 5))
  | 24 => do
    zeroField (fld w 17 5)
    zeroField (fld w 27 5)
    .ok (.popc (fbv w 7 5) (fbv w 12 5))
  | 25 => .ok (.csel (fbv w 7 5) (fbv w 12 5) (fbv w 17 5) (fbv w 27 5))
  | _ => .error .reservedCode

/-- Major 1 (R58 to R72). -/
def decodeMajor1 (w : Nat) : Except DecodeError Instr :=
  match fld w 17 3 with
  | 0 => .ok (.addi (fbv w 7 5) (fbv w 12 5) (fbv w 20 12))
  | 1 => .ok (.andi (fbv w 7 5) (fbv w 12 5) (fbv w 20 12))
  | 2 => .ok (.ori (fbv w 7 5) (fbv w 12 5) (fbv w 20 12))
  | 3 => .ok (.xori (fbv w 7 5) (fbv w 12 5) (fbv w 20 12))
  | 4 => do
    zeroField (fld w 26 6)
    .ok (.shli (fbv w 7 5) (fbv w 12 5) (fbv w 20 6))
  | 5 => do
    zeroField (fld w 26 6)
    .ok (.shri (fbv w 7 5) (fbv w 12 5) (fbv w 20 6))
  | 6 => do
    zeroField (fld w 26 6)
    .ok (.srai (fbv w 7 5) (fbv w 12 5) (fbv w 20 6))
  | _ => .ok (.slti (fbv w 7 5) (fbv w 12 5) (fbv w 20 12))

/-- Major 2 (R58 to R72). -/
def decodeMajor2 (w : Nat) : Except DecodeError Instr :=
  match fld w 12 1 with
  | 0 => .ok (.lim (fbv w 7 5) (fbv w 13 19))
  | _ => .ok (.apc (fbv w 7 5) (fbv w 13 19))

/-- Major 3 (R58 to R72). -/
def decodeMajor3 (w : Nat) : Except DecodeError Instr :=
  match fld w 7 3 with
  | 0 => .ok (.beq (fbv w 10 5) (fbv w 15 5) (fbv w 20 12))
  | 1 => .ok (.bne (fbv w 10 5) (fbv w 15 5) (fbv w 20 12))
  | 2 => .ok (.blt (fbv w 10 5) (fbv w 15 5) (fbv w 20 12))
  | 3 => .ok (.bge (fbv w 10 5) (fbv w 15 5) (fbv w 20 12))
  | 4 => .ok (.bltu (fbv w 10 5) (fbv w 15 5) (fbv w 20 12))
  | 5 => .ok (.bgeu (fbv w 10 5) (fbv w 15 5) (fbv w 20 12))
  | _ => .error .reservedCode

/-- Major 4 (R58 to R72). -/
def decodeMajor4 (w : Nat) : Except DecodeError Instr :=
  .ok (.jmp (fbv w 7 5) (fbv w 12 20))

/-- Major 5 (R58 to R72). -/
def decodeMajor5 (w : Nat) : Except DecodeError Instr :=
  do
    zeroField (fld w 17 3)
    .ok (.jind (fbv w 7 5) (fbv w 12 5) (fbv w 20 12))

/-- Major 6 (R58 to R72). -/
def decodeMajor6 (w : Nat) : Except DecodeError Instr :=
  match fld w 22 4 with
  | 0 => do
    zeroField (fld w 27 5)
    let f ← need .badCode (FpFmt.ofCode (fld w 26 1))
    .ok (.fadd f (fbv w 7 5) (fbv w 12 5) (fbv w 17 5))
  | 1 => do
    zeroField (fld w 27 5)
    let f ← need .badCode (FpFmt.ofCode (fld w 26 1))
    .ok (.fsub f (fbv w 7 5) (fbv w 12 5) (fbv w 17 5))
  | 2 => do
    zeroField (fld w 27 5)
    let f ← need .badCode (FpFmt.ofCode (fld w 26 1))
    .ok (.fmul f (fbv w 7 5) (fbv w 12 5) (fbv w 17 5))
  | 3 => do
    zeroField (fld w 27 5)
    let f ← need .badCode (FpFmt.ofCode (fld w 26 1))
    .ok (.fdiv f (fbv w 7 5) (fbv w 12 5) (fbv w 17 5))
  | 4 => do
    zeroField (fld w 17 5)
    zeroField (fld w 27 5)
    let f ← need .badCode (FpFmt.ofCode (fld w 26 1))
    .ok (.fsqrt f (fbv w 7 5) (fbv w 12 5))
  | 5 => do
    let f ← need .badCode (FpFmt.ofCode (fld w 26 1))
    .ok (.fma f (fbv w 7 5) (fbv w 12 5) (fbv w 17 5) (fbv w 27 5))
  | 6 => do
    zeroField (fld w 27 5)
    let f ← need .badCode (FpFmt.ofCode (fld w 26 1))
    .ok (.fmin f (fbv w 7 5) (fbv w 12 5) (fbv w 17 5))
  | 7 => do
    zeroField (fld w 27 5)
    let f ← need .badCode (FpFmt.ofCode (fld w 26 1))
    .ok (.fmax f (fbv w 7 5) (fbv w 12 5) (fbv w 17 5))
  | 8 => do
    zeroField (fld w 27 5)
    let f ← need .badCode (FpFmt.ofCode (fld w 26 1))
    let kind ← need .badCode (FcvtKind.ofCode (fld w 17 5))
    .ok (.fcvt f kind (fbv w 7 5) (fbv w 12 5))
  | 9 => do
    let f ← need .badCode (FpFmt.ofCode (fld w 26 1))
    let cond ← need .badCode (FcmpCond.ofCode (fld w 27 5))
    .ok (.fcmp f cond (fbv w 7 5) (fbv w 12 5) (fbv w 17 5))
  | _ => .error .reservedCode

/-- Major 7 (R58 to R72). -/
def decodeMajor7 (w : Nat) : Except DecodeError Instr :=
  match fld w 7 5 with
  | 0 => do
    zeroField (fld w 17 5)
    let sel ← need .badCode (Spr.ofCode (fld w 22 10))
    .ok (.sget (fbv w 12 5) sel)
  | 1 => do
    zeroField (fld w 12 5)
    let sel ← need .badCode (Spr.ofCode (fld w 22 10))
    .ok (.sset sel (fbv w 17 5))
  | 2 => do
    zeroField (fld w 12 10)
    .ok (.trap (fbv w 22 10))
  | 3 => do
    zeroField (fld w 12 10)
    .ok (.sysc (fbv w 22 10))
  | 4 => do
    zeroField (fld w 12 20)
    .ok (.eret)
  | 5 => do
    zeroField (fld w 12 20)
    .ok (.isync)
  | 6 => do
    zeroField (fld w 12 20)
    .ok (.tdone)
  | 7 => do
    zeroField (fld w 12 20)
    .ok (.nop)
  | _ => .error .reservedCode

/-- Major 8 (R58 to R72). -/
def decodeMajor8 (w : Nat) : Except DecodeError Instr :=
  match fld w 17 3 with
  | 0 => .ok (.ldb (fbv w 7 5) (fbv w 12 5) (fbv w 20 12))
  | 1 => .ok (.ldbu (fbv w 7 5) (fbv w 12 5) (fbv w 20 12))
  | 2 => .ok (.ldh (fbv w 7 5) (fbv w 12 5) (fbv w 20 12))
  | 3 => .ok (.ldhu (fbv w 7 5) (fbv w 12 5) (fbv w 20 12))
  | 4 => .ok (.ldw (fbv w 7 5) (fbv w 12 5) (fbv w 20 12))
  | 5 => .ok (.ldwu (fbv w 7 5) (fbv w 12 5) (fbv w 20 12))
  | 6 => .ok (.ldd (fbv w 7 5) (fbv w 12 5) (fbv w 20 12))
  | _ => .error .reservedCode

/-- Major 9 (R58 to R72). -/
def decodeMajor9 (w : Nat) : Except DecodeError Instr :=
  match fld w 17 3 with
  | 0 => .ok (.stb (fbv w 7 5) (fbv w 12 5) (fbv w 20 12))
  | 1 => .ok (.sth (fbv w 7 5) (fbv w 12 5) (fbv w 20 12))
  | 2 => .ok (.stw (fbv w 7 5) (fbv w 12 5) (fbv w 20 12))
  | 3 => .ok (.std (fbv w 7 5) (fbv w 12 5) (fbv w 20 12))
  | _ => .error .reservedCode

/-- Major 10 (R58 to R72). -/
def decodeMajor10 (w : Nat) : Except DecodeError Instr :=
  match fld w 20 1 with
  | 0 => if fld w 21 4 = 9 then do
      let v ← need .badOperand (Place.ofCode (fld w 7 8))
      .ok (.vldInt6 v (fbv w 15 5) (fbv w 28 4) (fbv w 25 3)) else do
      let fmt ← need .badCode (Fmt.ofCode (fld w 21 4))
      let v ← need .badOperand (Place.ofCode (fld w 7 8))
      .ok (.vld fmt v (fbv w 15 5) (fbv w 25 7))
  | _ => do
    zeroField (fld w 30 2)
    let fmt ← need .badCode (Fmt.ofCode (fld w 21 4))
    let v ← need .badOperand (Place.ofCode (fld w 7 8))
    .ok (.vlds fmt v (fbv w 15 5) (fbv w 25 5))

/-- Major 11 (R58 to R72). -/
def decodeMajor11 (w : Nat) : Except DecodeError Instr :=
  match fld w 20 1 with
  | 0 => if fld w 21 4 = 9 then do
      let v ← need .badOperand (Place.ofCode (fld w 7 8))
      .ok (.vstInt6 v (fbv w 15 5) (fbv w 28 4) (fbv w 25 3)) else do
      let fmt ← need .badCode (Fmt.ofCode (fld w 21 4))
      let v ← need .badOperand (Place.ofCode (fld w 7 8))
      .ok (.vst fmt v (fbv w 15 5) (fbv w 25 7))
  | _ => do
    zeroField (fld w 30 2)
    let fmt ← need .badCode (Fmt.ofCode (fld w 21 4))
    let v ← need .badOperand (Place.ofCode (fld w 7 8))
    .ok (.vsts fmt v (fbv w 15 5) (fbv w 25 5))

/-- Major 12 (R58 to R72). -/
def decodeMajor12 (w : Nat) : Except DecodeError Instr :=
  match fld w 20 2 with
  | 0 => do
    let fmt ← need .badCode (Fmt.ofCode (fld w 22 4))
    let v ← need .badOperand (Place.ofCode (fld w 7 8))
    .ok (.vldx fmt v (fbv w 15 5) (fbv w 26 6))
  | 1 => do
    let fmt ← need .badCode (Fmt.ofCode (fld w 22 4))
    let v ← need .badOperand (Place.ofCode (fld w 7 8))
    .ok (.vstx fmt v (fbv w 15 5) (fbv w 26 6))
  | 2 => do
    zeroField (fld w 25 1)
    let sc ← need .badCode (Scope.ofCode (fld w 22 3))
    let v ← need .badOperand (Place.ofCode (fld w 7 8))
    .ok (.vaadd sc v (fbv w 15 5) (fbv w 26 6))
  | _ => .error .reservedCode

/-- Major 13 (R58 to R72). -/
def decodeMajor13 (w : Nat) : Except DecodeError Instr :=
  match fld w 20 4 with
  | 0 => do
    let so ← need .badCode (ScopeOrder.ofCode (fld w 24 5))
    .ok (.aadd so (fbv w 7 5) (fbv w 12 3) (fbv w 29 3) (fbv w 15 5))
  | 1 => do
    let so ← need .badCode (ScopeOrder.ofCode (fld w 24 5))
    .ok (.amin so (fbv w 7 5) (fbv w 12 3) (fbv w 29 3) (fbv w 15 5))
  | 2 => do
    let so ← need .badCode (ScopeOrder.ofCode (fld w 24 5))
    .ok (.amax so (fbv w 7 5) (fbv w 12 3) (fbv w 29 3) (fbv w 15 5))
  | 3 => do
    let so ← need .badCode (ScopeOrder.ofCode (fld w 24 5))
    .ok (.aminu so (fbv w 7 5) (fbv w 12 3) (fbv w 29 3) (fbv w 15 5))
  | 4 => do
    let so ← need .badCode (ScopeOrder.ofCode (fld w 24 5))
    .ok (.amaxu so (fbv w 7 5) (fbv w 12 3) (fbv w 29 3) (fbv w 15 5))
  | 5 => do
    let so ← need .badCode (ScopeOrder.ofCode (fld w 24 5))
    .ok (.aand so (fbv w 7 5) (fbv w 12 3) (fbv w 29 3) (fbv w 15 5))
  | 6 => do
    let so ← need .badCode (ScopeOrder.ofCode (fld w 24 5))
    .ok (.aor so (fbv w 7 5) (fbv w 12 3) (fbv w 29 3) (fbv w 15 5))
  | 7 => do
    let so ← need .badCode (ScopeOrder.ofCode (fld w 24 5))
    .ok (.axor so (fbv w 7 5) (fbv w 12 3) (fbv w 29 3) (fbv w 15 5))
  | 8 => do
    let so ← need .badCode (ScopeOrder.ofCode (fld w 24 5))
    .ok (.aswp so (fbv w 7 5) (fbv w 12 3) (fbv w 29 3) (fbv w 15 5))
  | 9 => do
    let so ← need .badCode (ScopeOrder.ofCode (fld w 24 5))
    .ok (.acas so (fbv w 7 5) (fbv w 12 3) (fbv w 29 3) (fbv w 15 5))
  | 10 => do
    let so ← need .badCode (ScopeOrder.ofCode (fld w 24 5))
    .ok (.aswpDw so (fbv w 7 5) (fbv w 12 3) (fbv w 29 3) (fbv w 15 5))
  | 11 => do
    let so ← need .badCode (ScopeOrder.ofCode (fld w 24 5))
    .ok (.acasDw so (fbv w 7 5) (fbv w 12 3) (fbv w 29 3) (fbv w 15 5))
  | 12 => do
    let so ← need .badCode (ScopeOrder.ofCode (fld w 24 5))
    .ok (.aaddDw so (fbv w 7 5) (fbv w 12 3) (fbv w 29 3) (fbv w 15 5))
  | _ => .error .reservedCode

/-- Major 14 (R58 to R72). -/
def decodeMajor14 (w : Nat) : Except DecodeError Instr :=
  match fld w 7 4 with
  | 0 => do
    zeroField (fld w 15 9)
    let sc ← need .badCode (Scope.ofCode (fld w 11 3))
    .ok (.acq sc (flag w 14) (fbv w 24 8))
  | 1 => do
    zeroField (fld w 15 9)
    let sc ← need .badCode (Scope.ofCode (fld w 11 3))
    .ok (.rel sc (flag w 14) (fbv w 24 8))
  | 2 => do
    zeroField (fld w 17 15)
    let sc ← need .badCode (Scope.ofCode (fld w 11 3))
    let ord ← need .badCode (Order.ofCode (fld w 14 3))
    .ok (.fence sc ord)
  | 3 => do
    zeroField (fld w 24 8)
    let sc ← need .badCode (Scope.ofCode (fld w 11 3))
    .ok (.own sc (fbv w 14 5) (fbv w 19 5))
  | 4 => do
    zeroField (fld w 24 8)
    let sc ← need .badCode (Scope.ofCode (fld w 11 3))
    .ok (.disown sc (fbv w 14 5) (fbv w 19 5))
  | 5 => do
    zeroField (fld w 11 3)
    zeroField (fld w 16 16)
    let kind ← need .badCode (DrainKind.ofCode (fld w 14 2))
    .ok (.drain kind)
  | 6 => do
    zeroField (fld w 11 3)
    zeroField (fld w 20 12)
    .ok (.pref (flag w 19) (fbv w 14 5))
  | 7 => do
    zeroField (fld w 19 13)
    let sc ← need .badCode (Scope.ofCode (fld w 11 3))
    .ok (.qlock sc (fbv w 14 5))
  | 8 => do
    zeroField (fld w 19 13)
    let sc ← need .badCode (Scope.ofCode (fld w 11 3))
    .ok (.qunlock sc (fbv w 14 5))
  | 9 => do
    zeroField (fld w 11 3)
    zeroField (fld w 19 13)
    .ok (.xbeg (fbv w 14 5))
  | 10 => do
    zeroField (fld w 11 3)
    zeroField (fld w 24 8)
    .ok (.xcmp (fbv w 14 5) (fbv w 19 5))
  | 11 => do
    zeroField (fld w 11 8)
    zeroField (fld w 24 8)
    .ok (.xend (fbv w 19 5))
  | _ => .error .reservedCode

/-- Major 15 (R58 to R72). -/
def decodeMajor15 (w : Nat) : Except DecodeError Instr :=
  match fld w 7 3 with
  | 0 => match fld w 13 2 with
    | 0 => do
      zeroField (fld w 15 1)
      zeroField (fld w 26 6)
      .ok (.mmaOvw (fbv w 10 2) (fbv w 16 5) (fbv w 12 1) (fbv w 21 5))
    | 1 => do
      zeroField (fld w 15 1)
      zeroField (fld w 26 6)
      .ok (.mmaAcc (fbv w 10 2) (fbv w 16 5) (fbv w 12 1) (fbv w 21 5))
    | 2 => do
      zeroField (fld w 15 1)
      zeroField (fld w 26 6)
      .ok (.mmaRing (fbv w 10 2) (fbv w 16 5) (fbv w 12 1) (fbv w 21 5))
    | _ => do
      zeroField (fld w 15 1)
      zeroField (fld w 26 6)
      .ok (.mmaArr (fbv w 10 2) (fbv w 16 5) (fbv w 12 1) (fbv w 21 5))
  | 1 => do
    zeroField (fld w 13 3)
    zeroField (fld w 21 5)
    zeroField (fld w 30 2)
    .ok (.mdarn (fbv w 10 2) (fbv w 16 5) (fbv w 12 1) (fbv w 26 4))
  | _ => .error .reservedCode

/-- Major 16 (R58 to R72). -/
def decodeMajor16 (w : Nat) : Except DecodeError Instr :=
  match fld w 7 3 with
  | 0 => if flag w 29 then do
      zeroField (fld w 30 2)
      let v ← need .badOperand (Place.ofCode (fld w 10 8))
      let dir ← need .badCode (HDir.ofCode (fld w 20 2))
      .ok (.hmovPeek v (fbv w 18 2) dir (fbv w 22 7))
    else do
      zeroField (fld w 30 2)
      let v ← need .badOperand (Place.ofCode (fld w 10 8))
      let dir ← need .badCode (HDir.ofCode (fld w 20 2))
      .ok (.hmov v (fbv w 18 2) dir (fbv w 22 7))
  | 1 => do
    zeroField (fld w 10 8)
    zeroField (fld w 20 12)
    .ok (.hclr (fbv w 18 2))
  | 2 => do
    zeroField (fld w 15 3)
    zeroField (fld w 20 12)
    .ok (.hld (fbv w 18 2) (fbv w 10 5))
  | 3 => do
    zeroField (fld w 15 3)
    zeroField (fld w 20 12)
    .ok (.hst (fbv w 18 2) (fbv w 10 5))
  | 4 => do
    zeroField (fld w 15 3)
    zeroField (fld w 25 7)
    .ok (.hdrain (fbv w 18 2) (fbv w 10 5) (fbv w 20 5))
  | 5 => if flag w 29 then do
      zeroField (fld w 14 4)
      zeroField (fld w 20 2)
      zeroField (fld w 30 2)
      .ok (.mqpopAcc (fbv w 18 2) (fbv w 22 7) (fbv w 10 4))
    else do
      zeroField (fld w 14 4)
      zeroField (fld w 20 2)
      zeroField (fld w 30 2)
      .ok (.mqpop (fbv w 18 2) (fbv w 22 7) (fbv w 10 4))
  | 6 => do
    zeroField (fld w 14 4)
    zeroField (fld w 20 2)
    zeroField (fld w 29 3)
    .ok (.mqpush (fbv w 18 2) (fbv w 22 7) (fbv w 10 4))
  | _ => .error .reservedCode

/-- Major 17 (R58 to R72). -/
def decodeMajor17 (w : Nat) : Except DecodeError Instr :=
  match fld w 7 3 with
  | 0 => do
    zeroField (fld w 16 16)
    .ok (.mld (fbv w 10 1) (fbv w 11 5))
  | 1 => do
    zeroField (fld w 11 21)
    .ok (.mpass (fbv w 10 1))
  | 2 => do
    zeroField (fld w 11 21)
    .ok (.mwait (fbv w 10 1))
  | _ => .error .reservedCode

/-- Major 18 (R58 to R72). -/
def decodeMajor18 (w : Nat) : Except DecodeError Instr :=
  match fld w 7 3 with
  | 0 => if flag w 19 then do
      zeroField (fld w 20 12)
      .ok (.qpeekPop (fbv w 10 5) (fbv w 15 4))
    else do
      zeroField (fld w 20 12)
      .ok (.qpeek (fbv w 10 5) (fbv w 15 4))
  | 1 => do
    zeroField (fld w 19 13)
    .ok (.qcount (fbv w 10 5) (fbv w 15 4))
  | 2 => do
    zeroField (fld w 20 12)
    .ok (.send (fbv w 10 5) (fbv w 15 5))
  | 3 => do
    zeroField (fld w 15 5)
    zeroField (fld w 28 4)
    let v ← need .badOperand (Place.ofCode (fld w 20 8))
    .ok (.sendv (fbv w 10 5) v)
  | _ => .error .reservedCode

/-- Major 19 (R58 to R72). -/
def decodeMajor19 (w : Nat) : Except DecodeError Instr :=
  match fld w 7 3 with
  | 0 => do
    zeroField (fld w 20 12)
    let v ← need .badOperand (Place.ofCode (fld w 12 8))
    .ok (.spush (fbv w 10 2) v)
  | 1 => do
    zeroField (fld w 20 12)
    let v ← need .badOperand (Place.ofCode (fld w 12 8))
    .ok (.spop (fbv w 10 2) v)
  | 2 => do
    zeroField (fld w 12 20)
    .ok (.sflush (fbv w 10 2))
  | 3 => do
    zeroField (fld w 10 10)
    zeroField (fld w 30 2)
    .ok (.lbuf (fbv w 20 5) (fbv w 25 5))
  | 4 => do
    zeroField (fld w 10 2)
    zeroField (fld w 15 5)
    zeroField (fld w 30 2)
    .ok (.lcfg (fbv w 12 3) (fbv w 20 5) (fbv w 25 5))
  | 5 => do
    zeroField (fld w 10 22)
    .ok (.lrun)
  | 6 => do
    zeroField (fld w 10 22)
    .ok (.lstop)
  | _ => .error .reservedCode

/-- Major 20 (R58 to R72). -/
def decodeMajor20 (w : Nat) : Except DecodeError Instr :=
  match fld w 7 3 with
  | 0 => do
    zeroField (fld w 20 5)
    zeroField (fld w 28 4)
    let sc ← need .badCode (Scope.ofCode (fld w 25 3))
    .ok (.cpost sc (fbv w 10 5) (fbv w 15 5))
  | 1 => do
    zeroField (fld w 15 17)
    .ok (.cpop (fbv w 10 5))
  | 2 => do
    zeroField (fld w 20 12)
    .ok (.launch (fbv w 10 5) (fbv w 15 5))
  | 3 => do
    zeroField (fld w 10 5)
    zeroField (fld w 28 4)
    let sc ← need .badCode (Scope.ofCode (fld w 25 3))
    .ok (.cstore sc (fbv w 15 5) (fbv w 20 5))
  | 4 => do
    zeroField (fld w 20 12)
    .ok (.cwait (fbv w 10 5) (fbv w 15 5))
  | 5 => do
    zeroField (fld w 10 5)
    zeroField (fld w 20 12)
    .ok (.cabort (fbv w 15 5))
  | _ => .error .reservedCode

/-- Major 21 (R58 to R72). R70 has bit 16 zero for `lopen` alone: that A5 of `lset`, `lclose`, `linval` and `lstat` takes 16 to 31, and that
these numbers read as CLOSED descriptors, is a DESIGN CHOICE (log 55). -/
def decodeMajor21 (w : Nat) : Except DecodeError Instr :=
  match fld w 7 5 with
  | 0 => do
    zeroField (fld w 22 10)
    .ok (.pdef (fbv w 12 5) (fbv w 17 5))
  | 1 => do
    zeroField (fld w 17 5)
    zeroField (fld w 28 4)
    .ok (.pin (fbv w 22 6) (fbv w 12 5))
  | 2 => do
    zeroField (fld w 12 10)
    zeroField (fld w 28 4)
    .ok (.unpick (fbv w 22 6))
  | 3 => do
    zeroField (fld w 17 15)
    .ok (.pdrop (fbv w 12 5))
  | 4 => do
    zeroField (fld w 16 1)
    zeroField (fld w 22 10)
    .ok (.lopen (fbv w 12 4) (fbv w 17 5))
  | 5 => do
    zeroField (fld w 25 7)
    .ok (.lset (fbv w 12 5) (fbv w 22 3) (fbv w 17 5))
  | 6 => do
    zeroField (fld w 17 15)
    .ok (.lclose (fbv w 12 5))
  | 7 => do
    zeroField (fld w 17 15)
    .ok (.linval (fbv w 12 5))
  | 8 => do
    zeroField (fld w 22 10)
    .ok (.lstat (fbv w 17 5) (fbv w 12 5))
  | 9 => do
    zeroField (fld w 22 10)
    .ok (.bind (fbv w 12 5) (fbv w 17 5))
  | 10 => do
    zeroField (fld w 17 15)
    .ok (.unbind (fbv w 12 5))
  | 11 => do
    zeroField (fld w 22 10)
    .ok (.gtset (fbv w 12 5) (fbv w 17 5))
  | 12 => do
    zeroField (fld w 17 15)
    .ok (.gtclr (fbv w 12 5))
  | 13 => do
    zeroField (fld w 17 11)
    zeroField (fld w 31 1)
    let sc ← need .badCode (Scope.ofCode (fld w 28 3))
    .ok (.tlbinv sc (fbv w 12 5))
  | _ => .error .reservedCode

/-- Major 22 (R58 to R72). -/
def decodeMajor22 (w : Nat) : Except DecodeError Instr :=
  match fld w 7 3 with
  | 0 => do
    zeroField (fld w 28 4)
    .ok (.bset (fbv w 20 8) (fbv w 15 5) (fbv w 10 5))
  | 1 => do
    zeroField (fld w 10 5)
    zeroField (fld w 28 4)
    .ok (.barr (fbv w 20 8) (fbv w 15 5))
  | 2 => do
    zeroField (fld w 10 5)
    zeroField (fld w 28 4)
    .ok (.barw (fbv w 20 8) (fbv w 15 5))
  | 3 => do
    zeroField (fld w 10 5)
    zeroField (fld w 28 4)
    .ok (.bdrop (fbv w 20 8) (fbv w 15 5))
  | 4 => do
    zeroField (fld w 10 5)
    zeroField (fld w 28 4)
    .ok (.bwait (fbv w 20 8) (fbv w 15 5))
  | 5 => do
    zeroField (fld w 28 4)
    .ok (.bquery (fbv w 10 5) (fbv w 20 8) (fbv w 15 5))
  | _ => .error .reservedCode

/-- Major 23 (R58 to R72). -/
def decodeMajor23 (w : Nat) : Except DecodeError Instr :=
  match fld w 7 5 with
  | 0 => .ok (.vfb (fbv w 12 5) (fbv w 17 15))
  | 1 => do
    zeroField (fld w 15 2)
    .ok (.vpb (fbv w 12 3) (fbv w 17 15))
  | 2 => do
    zeroField (fld w 12 20)
    .ok (.vpend)
  | 3 => do
    zeroField (fld w 15 2)
    zeroField (fld w 20 2)
    zeroField (fld w 25 2)
    zeroField (fld w 31 1)
    .ok (.kbool (fbv w 12 3) (fbv w 17 3) (fbv w 22 3) (fbv w 27 4))
  | 7 => do
    zeroField (fld w 20 12)
    .ok (.kpop (fbv w 12 5) (fbv w 17 3))
  | 8 => do
    zeroField (fld w 20 12)
    .ok (.kfirst (fbv w 12 5) (fbv w 17 3))
  | 9 => do
    zeroField (fld w 15 2)
    zeroField (fld w 22 10)
    .ok (.kset (fbv w 12 3) (fbv w 17 5))
  | 10 => do
    zeroField (fld w 20 12)
    .ok (.kget (fbv w 12 5) (fbv w 17 3))
  | 11 => do
    zeroField (fld w 12 5)
    zeroField (fld w 20 12)
    .ok (.kuse (fbv w 17 3))
  | 12 => do
    zeroField (fld w 22 10)
    .ok (.vsetvl (fbv w 12 5) (fbv w 17 5))
  | _ => .error .reservedCode

/-- A 32-bit word (R50, R54, R56). -/
def decodeWord (w : Nat) : Except DecodeError Instr :=
  if fld w 0 2 = 3 then decodeV3 w
  else
    match fld w 2 5 with
    | 0 => decodeMajor0 w
    | 1 => decodeMajor1 w
    | 2 => decodeMajor2 w
    | 3 => decodeMajor3 w
    | 4 => decodeMajor4 w
    | 5 => decodeMajor5 w
    | 6 => decodeMajor6 w
    | 7 => decodeMajor7 w
    | 8 => decodeMajor8 w
    | 9 => decodeMajor9 w
    | 10 => decodeMajor10 w
    | 11 => decodeMajor11 w
    | 12 => decodeMajor12 w
    | 13 => decodeMajor13 w
    | 14 => decodeMajor14 w
    | 15 => decodeMajor15 w
    | 16 => decodeMajor16 w
    | 17 => decodeMajor17 w
    | 18 => decodeMajor18 w
    | 19 => decodeMajor19 w
    | 20 => decodeMajor20 w
    | 21 => decodeMajor21 w
    | 22 => decodeMajor22 w
    | 23 => decodeMajor23 w
    | _ => .error .reservedMajor

/-- The operand rules of R55 and of the instructions' descriptions, which R73 makes part of decoding. -/
def checkOperands (i : Instr) : Except DecodeError Instr :=
  if i.wellFormed then .ok i else .error .badOperand

/-- A number as `n` bytes, the lowest first. -/
def leBytes : Nat → Nat → List Byte
  | 0, _ => []
  | n + 1, v => BitVec.ofNat 8 v :: leBytes n (v / 256)

/-- The number that bytes hold, the lowest first. -/
def leNat : List Byte → Nat
  | [] => 0
  | b :: bs => b.toNat + 256 * leNat bs

/-- R50: the first instruction of a sequence of bytes, and the bytes after it. -/
def decode : List Byte → Except DecodeError (Instr × List Byte)
  | b0 :: b1 :: rest =>
    if b0.toNat % 2 = 0 then
      .ok (decodeC2 (leNat [b0, b1]), rest)
    else
      match rest with
      | b2 :: b3 :: rest' => do
        let i ← decodeWord (leNat [b0, b1, b2, b3])
        let i ← checkOperands i
        .ok (i, rest')
      | _ => .error .truncated
  | _ => .error .truncated

/-- The instruction whose bits the opcode table numbers as `w`: the first halfword is bits 15 to 0, stored
little-endian (R50), and the bits above `nbits` are zero up to the longest instruction, 4 bytes. -/
def decodeTableWord (nbits w : Nat) : Option Instr :=
  match decode (leBytes 4 (w % 2 ^ nbits)) with
  | .ok (i, _) => some i
  | .error _ => none

/-! ### The encoder -/

/-- A truth value as a bit. -/
def bit (b : Bool) : Nat := if b then 1 else 0

/-- The encoding of an instruction (R53 to R72): how many bytes, and their value. An event of the package
has none. -/
def encode : Instr → Option (Nat × Nat)
  | .vaddC2 dcol d bcol b => some (2, 0 + 32 * bit dcol + 64 * d.toNat + 2048 * bit bcol + 4096 * b.toNat)
  | .vsubC2 dcol d bcol b => some (2, 2 + 32 * bit dcol + 64 * d.toNat + 2048 * bit bcol + 4096 * b.toNat)
  | .vmulC2 dcol d bcol b => some (2, 4 + 32 * bit dcol + 64 * d.toNat + 2048 * bit bcol + 4096 * b.toNat)
  | .vfmaC2 dcol d bcol b => some (2, 6 + 32 * bit dcol + 64 * d.toNat + 2048 * bit bcol + 4096 * b.toNat)
  | .vminC2 dcol d bcol b => some (2, 8 + 32 * bit dcol + 64 * d.toNat + 2048 * bit bcol + 4096 * b.toNat)
  | .vmaxC2 dcol d bcol b => some (2, 10 + 32 * bit dcol + 64 * d.toNat + 2048 * bit bcol + 4096 * b.toNat)
  | .vandC2 dcol d bcol b => some (2, 12 + 32 * bit dcol + 64 * d.toNat + 2048 * bit bcol + 4096 * b.toNat)
  | .vorC2 dcol d bcol b => some (2, 14 + 32 * bit dcol + 64 * d.toNat + 2048 * bit bcol + 4096 * b.toNat)
  | .vxorC2 dcol d bcol b => some (2, 16 + 32 * bit dcol + 64 * d.toNat + 2048 * bit bcol + 4096 * b.toNat)
  | .vshlC2 dcol d bcol b => some (2, 18 + 32 * bit dcol + 64 * d.toNat + 2048 * bit bcol + 4096 * b.toNat)
  | .vshrC2 dcol d bcol b => some (2, 20 + 32 * bit dcol + 64 * d.toNat + 2048 * bit bcol + 4096 * b.toNat)
  | .vsraC2 dcol d bcol b => some (2, 22 + 32 * bit dcol + 64 * d.toNat + 2048 * bit bcol + 4096 * b.toNat)
  | .vmovC2 dcol d bcol b => some (2, 24 + 32 * bit dcol + 64 * d.toNat + 2048 * bit bcol + 4096 * b.toNat)
  | .vabsC2 dcol d bcol b => some (2, 26 + 32 * bit dcol + 64 * d.toNat + 2048 * bit bcol + 4096 * b.toNat)
  | .vnegC2 dcol d bcol b => some (2, 28 + 32 * bit dcol + 64 * d.toNat + 2048 * bit bcol + 4096 * b.toNat)
  | .vpopcC2 dcol d bcol b => some (2, 30 + 32 * bit dcol + 64 * d.toNat + 2048 * bit bcol + 4096 * b.toNat)
  | .vaddV3 d a b => some (4, 3 + 256 * d.code + 65536 * a.code + 16777216 * b.code)
  | .vsubV3 d a b => some (4, 7 + 256 * d.code + 65536 * a.code + 16777216 * b.code)
  | .vmulV3 d a b => some (4, 11 + 256 * d.code + 65536 * a.code + 16777216 * b.code)
  | .vfmaV3 d a b => some (4, 15 + 256 * d.code + 65536 * a.code + 16777216 * b.code)
  | .vminV3 d a b => some (4, 19 + 256 * d.code + 65536 * a.code + 16777216 * b.code)
  | .vmaxV3 d a b => some (4, 23 + 256 * d.code + 65536 * a.code + 16777216 * b.code)
  | .vandV3 d a b => some (4, 27 + 256 * d.code + 65536 * a.code + 16777216 * b.code)
  | .vorV3 d a b => some (4, 31 + 256 * d.code + 65536 * a.code + 16777216 * b.code)
  | .vxorV3 d a b => some (4, 35 + 256 * d.code + 65536 * a.code + 16777216 * b.code)
  | .vshlV3 d a b => some (4, 39 + 256 * d.code + 65536 * a.code + 16777216 * b.code)
  | .vshrV3 d a b => some (4, 43 + 256 * d.code + 65536 * a.code + 16777216 * b.code)
  | .vsraV3 d a b => some (4, 47 + 256 * d.code + 65536 * a.code + 16777216 * b.code)
  | .vmovV3 d a => some (4, 51 + 256 * d.code + 65536 * a.code)
  | .vabsV3 d a => some (4, 55 + 256 * d.code + 65536 * a.code)
  | .vnegV3 d a => some (4, 59 + 256 * d.code + 65536 * a.code)
  | .vpopcV3 d a => some (4, 63 + 256 * d.code + 65536 * a.code)
  | .vdiv d a b => some (4, 67 + 256 * d.code + 65536 * a.code + 16777216 * b.code)
  | .vsqrt d a => some (4, 71 + 256 * d.code + 65536 * a.code)
  | .vclz d a => some (4, 75 + 256 * d.code + 65536 * a.code)
  | .vnot d a => some (4, 79 + 256 * d.code + 65536 * a.code)
  | .vcvt d a fmt rz sat => some (4, 83 + 256 * d.code + 65536 * a.code + 16777216 * fmt.code + 268435456 * bit rz + 536870912 * bit sat)
  | .vfmt d a => some (4, 12582999 + 256 * d.code + 65536 * a.toNat)
  | .vclr d => some (4, 91 + 256 * d.code)
  | .vsel d a b => some (4, 95 + 256 * d.code + 65536 * a.code + 16777216 * b.code)
  | .vceq k a b => some (4, 63587 + 256 * k.toNat + 65536 * a.code + 16777216 * b.code)
  | .vcne k a b => some (4, 63591 + 256 * k.toNat + 65536 * a.code + 16777216 * b.code)
  | .vclt k a b => some (4, 63595 + 256 * k.toNat + 65536 * a.code + 16777216 * b.code)
  | .vcle k a b => some (4, 63599 + 256 * k.toNat + 65536 * a.code + 16777216 * b.code)
  | .vid d => some (4, 115 + 256 * d.code)
  | .vredsum d a => some (4, 119 + 256 * d.code + 65536 * a.code)
  | .vredmin d a => some (4, 123 + 256 * d.code + 65536 * a.code)
  | .vredmax d a => some (4, 127 + 256 * d.code + 65536 * a.code)
  | .vredminx d a => some (4, 131 + 256 * d.code + 65536 * a.code)
  | .vredand d a => some (4, 135 + 256 * d.code + 65536 * a.code)
  | .vredor d a => some (4, 139 + 256 * d.code + 65536 * a.code)
  | .vredxor d a => some (4, 143 + 256 * d.code + 65536 * a.code)
  | .vslup d a b => some (4, 147 + 256 * d.code + 65536 * a.code + 16777216 * b.code)
  | .vsldn d a b => some (4, 151 + 256 * d.code + 65536 * a.code + 16777216 * b.code)
  | .vperm d a b => some (4, 155 + 256 * d.code + 65536 * a.code + 16777216 * b.code)
  | .vpack d a b => some (4, 159 + 256 * d.code + 65536 * a.code + 16777216 * b.code)
  | .vunpk d a p => some (4, 163 + 256 * d.code + 65536 * a.code + 16777216 * p.toNat)
  | .vdot d a b => some (4, 167 + 256 * d.code + 65536 * a.code + 16777216 * b.code)
  | .vqnt d a s => some (4, 171 + 256 * d.code + 65536 * a.code + 16777216 * s.toNat)
  | .vdq d a => some (4, 175 + 256 * d.code + 65536 * a.code)
  | .vaddSat d a b => some (4, 179 + 256 * d.code + 65536 * a.code + 16777216 * b.code)
  | .vsubSat d a b => some (4, 183 + 256 * d.code + 65536 * a.code + 16777216 * b.code)
  | .vmulSat d a b => some (4, 187 + 256 * d.code + 65536 * a.code + 16777216 * b.code)
  | .add rd rs1 rs2 => some (4, 1 + 128 * rd.toNat + 4096 * rs1.toNat + 131072 * rs2.toNat)
  | .sub rd rs1 rs2 => some (4, 4194305 + 128 * rd.toNat + 4096 * rs1.toNat + 131072 * rs2.toNat)
  | .mul rd rs1 rs2 => some (4, 8388609 + 128 * rd.toNat + 4096 * rs1.toNat + 131072 * rs2.toNat)
  | .mulh rd rs1 rs2 => some (4, 12582913 + 128 * rd.toNat + 4096 * rs1.toNat + 131072 * rs2.toNat)
  | .mulhu rd rs1 rs2 => some (4, 16777217 + 128 * rd.toNat + 4096 * rs1.toNat + 131072 * rs2.toNat)
  | .div rd rs1 rs2 => some (4, 20971521 + 128 * rd.toNat + 4096 * rs1.toNat + 131072 * rs2.toNat)
  | .divu rd rs1 rs2 => some (4, 25165825 + 128 * rd.toNat + 4096 * rs1.toNat + 131072 * rs2.toNat)
  | .rem rd rs1 rs2 => some (4, 29360129 + 128 * rd.toNat + 4096 * rs1.toNat + 131072 * rs2.toNat)
  | .remu rd rs1 rs2 => some (4, 33554433 + 128 * rd.toNat + 4096 * rs1.toNat + 131072 * rs2.toNat)
  | .and rd rs1 rs2 => some (4, 37748737 + 128 * rd.toNat + 4096 * rs1.toNat + 131072 * rs2.toNat)
  | .or rd rs1 rs2 => some (4, 41943041 + 128 * rd.toNat + 4096 * rs1.toNat + 131072 * rs2.toNat)
  | .xor rd rs1 rs2 => some (4, 46137345 + 128 * rd.toNat + 4096 * rs1.toNat + 131072 * rs2.toNat)
  | .andn rd rs1 rs2 => some (4, 50331649 + 128 * rd.toNat + 4096 * rs1.toNat + 131072 * rs2.toNat)
  | .shl rd rs1 rs2 => some (4, 54525953 + 128 * rd.toNat + 4096 * rs1.toNat + 131072 * rs2.toNat)
  | .shr rd rs1 rs2 => some (4, 58720257 + 128 * rd.toNat + 4096 * rs1.toNat + 131072 * rs2.toNat)
  | .sra rd rs1 rs2 => some (4, 62914561 + 128 * rd.toNat + 4096 * rs1.toNat + 131072 * rs2.toNat)
  | .min rd rs1 rs2 => some (4, 67108865 + 128 * rd.toNat + 4096 * rs1.toNat + 131072 * rs2.toNat)
  | .max rd rs1 rs2 => some (4, 71303169 + 128 * rd.toNat + 4096 * rs1.toNat + 131072 * rs2.toNat)
  | .minu rd rs1 rs2 => some (4, 75497473 + 128 * rd.toNat + 4096 * rs1.toNat + 131072 * rs2.toNat)
  | .maxu rd rs1 rs2 => some (4, 79691777 + 128 * rd.toNat + 4096 * rs1.toNat + 131072 * rs2.toNat)
  | .slt rd rs1 rs2 => some (4, 83886081 + 128 * rd.toNat + 4096 * rs1.toNat + 131072 * rs2.toNat)
  | .sltu rd rs1 rs2 => some (4, 88080385 + 128 * rd.toNat + 4096 * rs1.toNat + 131072 * rs2.toNat)
  | .clz rd rs1 => some (4, 92274689 + 128 * rd.toNat + 4096 * rs1.toNat)
  | .ctz rd rs1 => some (4, 96468993 + 128 * rd.toNat + 4096 * rs1.toNat)
  | .popc rd rs1 => some (4, 100663297 + 128 * rd.toNat + 4096 * rs1.toNat)
  | .csel rd rs1 rs2 rs3 => some (4, 104857601 + 128 * rd.toNat + 4096 * rs1.toNat + 131072 * rs2.toNat + 134217728 * rs3.toNat)
  | .addi rd rs1 imm => some (4, 5 + 128 * rd.toNat + 4096 * rs1.toNat + 1048576 * imm.toNat)
  | .andi rd rs1 imm => some (4, 131077 + 128 * rd.toNat + 4096 * rs1.toNat + 1048576 * imm.toNat)
  | .ori rd rs1 imm => some (4, 262149 + 128 * rd.toNat + 4096 * rs1.toNat + 1048576 * imm.toNat)
  | .xori rd rs1 imm => some (4, 393221 + 128 * rd.toNat + 4096 * rs1.toNat + 1048576 * imm.toNat)
  | .shli rd rs1 cnt => some (4, 524293 + 128 * rd.toNat + 4096 * rs1.toNat + 1048576 * cnt.toNat)
  | .shri rd rs1 cnt => some (4, 655365 + 128 * rd.toNat + 4096 * rs1.toNat + 1048576 * cnt.toNat)
  | .srai rd rs1 cnt => some (4, 786437 + 128 * rd.toNat + 4096 * rs1.toNat + 1048576 * cnt.toNat)
  | .slti rd rs1 imm => some (4, 917509 + 128 * rd.toNat + 4096 * rs1.toNat + 1048576 * imm.toNat)
  | .lim rd imm => some (4, 9 + 128 * rd.toNat + 8192 * imm.toNat)
  | .apc rd imm => some (4, 4105 + 128 * rd.toNat + 8192 * imm.toNat)
  | .beq rs1 rs2 off => some (4, 13 + 1024 * rs1.toNat + 32768 * rs2.toNat + 1048576 * off.toNat)
  | .bne rs1 rs2 off => some (4, 141 + 1024 * rs1.toNat + 32768 * rs2.toNat + 1048576 * off.toNat)
  | .blt rs1 rs2 off => some (4, 269 + 1024 * rs1.toNat + 32768 * rs2.toNat + 1048576 * off.toNat)
  | .bge rs1 rs2 off => some (4, 397 + 1024 * rs1.toNat + 32768 * rs2.toNat + 1048576 * off.toNat)
  | .bltu rs1 rs2 off => some (4, 525 + 1024 * rs1.toNat + 32768 * rs2.toNat + 1048576 * off.toNat)
  | .bgeu rs1 rs2 off => some (4, 653 + 1024 * rs1.toNat + 32768 * rs2.toNat + 1048576 * off.toNat)
  | .jmp rd off => some (4, 17 + 128 * rd.toNat + 4096 * off.toNat)
  | .jind rd rs1 imm => some (4, 21 + 128 * rd.toNat + 4096 * rs1.toNat + 1048576 * imm.toNat)
  | .fadd f rd rs1 rs2 => some (4, 25 + 128 * rd.toNat + 4096 * rs1.toNat + 131072 * rs2.toNat + 67108864 * f.code)
  | .fsub f rd rs1 rs2 => some (4, 4194329 + 128 * rd.toNat + 4096 * rs1.toNat + 131072 * rs2.toNat + 67108864 * f.code)
  | .fmul f rd rs1 rs2 => some (4, 8388633 + 128 * rd.toNat + 4096 * rs1.toNat + 131072 * rs2.toNat + 67108864 * f.code)
  | .fdiv f rd rs1 rs2 => some (4, 12582937 + 128 * rd.toNat + 4096 * rs1.toNat + 131072 * rs2.toNat + 67108864 * f.code)
  | .fsqrt f rd rs1 => some (4, 16777241 + 128 * rd.toNat + 4096 * rs1.toNat + 67108864 * f.code)
  | .fma f rd rs1 rs2 rs3 => some (4, 20971545 + 128 * rd.toNat + 4096 * rs1.toNat + 131072 * rs2.toNat + 67108864 * f.code + 134217728 * rs3.toNat)
  | .fmin f rd rs1 rs2 => some (4, 25165849 + 128 * rd.toNat + 4096 * rs1.toNat + 131072 * rs2.toNat + 67108864 * f.code)
  | .fmax f rd rs1 rs2 => some (4, 29360153 + 128 * rd.toNat + 4096 * rs1.toNat + 131072 * rs2.toNat + 67108864 * f.code)
  | .fcvt f kind rd rs1 => some (4, 33554457 + 128 * rd.toNat + 4096 * rs1.toNat + 131072 * kind.code + 67108864 * f.code)
  | .fcmp f cond rd rs1 rs2 => some (4, 37748761 + 128 * rd.toNat + 4096 * rs1.toNat + 131072 * rs2.toNat + 67108864 * f.code + 134217728 * cond.code)
  | .sget rd sel => some (4, 29 + 4096 * rd.toNat + 4194304 * sel.code)
  | .sset sel rs1 => some (4, 157 + 131072 * rs1.toNat + 4194304 * sel.code)
  | .trap code => some (4, 285 + 4194304 * code.toNat)
  | .sysc code => some (4, 413 + 4194304 * code.toNat)
  | .eret => some (4, 541)
  | .isync => some (4, 669)
  | .tdone => some (4, 797)
  | .nop => some (4, 925)
  | .ldb rt rs1 imm => some (4, 33 + 128 * rt.toNat + 4096 * rs1.toNat + 1048576 * imm.toNat)
  | .ldbu rt rs1 imm => some (4, 131105 + 128 * rt.toNat + 4096 * rs1.toNat + 1048576 * imm.toNat)
  | .ldh rt rs1 imm => some (4, 262177 + 128 * rt.toNat + 4096 * rs1.toNat + 1048576 * imm.toNat)
  | .ldhu rt rs1 imm => some (4, 393249 + 128 * rt.toNat + 4096 * rs1.toNat + 1048576 * imm.toNat)
  | .ldw rt rs1 imm => some (4, 524321 + 128 * rt.toNat + 4096 * rs1.toNat + 1048576 * imm.toNat)
  | .ldwu rt rs1 imm => some (4, 655393 + 128 * rt.toNat + 4096 * rs1.toNat + 1048576 * imm.toNat)
  | .ldd rt rs1 imm => some (4, 786465 + 128 * rt.toNat + 4096 * rs1.toNat + 1048576 * imm.toNat)
  | .stb rt rs1 imm => some (4, 37 + 128 * rt.toNat + 4096 * rs1.toNat + 1048576 * imm.toNat)
  | .sth rt rs1 imm => some (4, 131109 + 128 * rt.toNat + 4096 * rs1.toNat + 1048576 * imm.toNat)
  | .stw rt rs1 imm => some (4, 262181 + 128 * rt.toNat + 4096 * rs1.toNat + 1048576 * imm.toNat)
  | .std rt rs1 imm => some (4, 393253 + 128 * rt.toNat + 4096 * rs1.toNat + 1048576 * imm.toNat)
  | .vld fmt v rs1 off => some (4, 41 + 128 * v.code + 32768 * rs1.toNat + 2097152 * fmt.code + 33554432 * off.toNat)
  | .vldInt6 v rs1 off bit => some (4, 18874409 + 128 * v.code + 32768 * rs1.toNat + 33554432 * bit.toNat + 268435456 * off.toNat)
  | .vlds fmt v rs1 rs2 => some (4, 1048617 + 128 * v.code + 32768 * rs1.toNat + 2097152 * fmt.code + 33554432 * rs2.toNat)
  | .vst fmt v rs1 off => some (4, 45 + 128 * v.code + 32768 * rs1.toNat + 2097152 * fmt.code + 33554432 * off.toNat)
  | .vstInt6 v rs1 off bit => some (4, 18874413 + 128 * v.code + 32768 * rs1.toNat + 33554432 * bit.toNat + 268435456 * off.toNat)
  | .vsts fmt v rs1 rs2 => some (4, 1048621 + 128 * v.code + 32768 * rs1.toNat + 2097152 * fmt.code + 33554432 * rs2.toNat)
  | .vldx fmt v rs1 ix => some (4, 49 + 128 * v.code + 32768 * rs1.toNat + 4194304 * fmt.code + 67108864 * ix.toNat)
  | .vstx fmt v rs1 ix => some (4, 1048625 + 128 * v.code + 32768 * rs1.toNat + 4194304 * fmt.code + 67108864 * ix.toNat)
  | .vaadd sc v rs1 ix => some (4, 2097201 + 128 * v.code + 32768 * rs1.toNat + 4194304 * sc.code + 67108864 * ix.toNat)
  | .aadd so rd rs1 off rs2 => some (4, 53 + 128 * rd.toNat + 4096 * rs1.toNat + 32768 * rs2.toNat + 16777216 * so.code + 536870912 * off.toNat)
  | .amin so rd rs1 off rs2 => some (4, 1048629 + 128 * rd.toNat + 4096 * rs1.toNat + 32768 * rs2.toNat + 16777216 * so.code + 536870912 * off.toNat)
  | .amax so rd rs1 off rs2 => some (4, 2097205 + 128 * rd.toNat + 4096 * rs1.toNat + 32768 * rs2.toNat + 16777216 * so.code + 536870912 * off.toNat)
  | .aminu so rd rs1 off rs2 => some (4, 3145781 + 128 * rd.toNat + 4096 * rs1.toNat + 32768 * rs2.toNat + 16777216 * so.code + 536870912 * off.toNat)
  | .amaxu so rd rs1 off rs2 => some (4, 4194357 + 128 * rd.toNat + 4096 * rs1.toNat + 32768 * rs2.toNat + 16777216 * so.code + 536870912 * off.toNat)
  | .aand so rd rs1 off rs2 => some (4, 5242933 + 128 * rd.toNat + 4096 * rs1.toNat + 32768 * rs2.toNat + 16777216 * so.code + 536870912 * off.toNat)
  | .aor so rd rs1 off rs2 => some (4, 6291509 + 128 * rd.toNat + 4096 * rs1.toNat + 32768 * rs2.toNat + 16777216 * so.code + 536870912 * off.toNat)
  | .axor so rd rs1 off rs2 => some (4, 7340085 + 128 * rd.toNat + 4096 * rs1.toNat + 32768 * rs2.toNat + 16777216 * so.code + 536870912 * off.toNat)
  | .aswp so rd rs1 off rs2 => some (4, 8388661 + 128 * rd.toNat + 4096 * rs1.toNat + 32768 * rs2.toNat + 16777216 * so.code + 536870912 * off.toNat)
  | .acas so rd rs1 off rs2 => some (4, 9437237 + 128 * rd.toNat + 4096 * rs1.toNat + 32768 * rs2.toNat + 16777216 * so.code + 536870912 * off.toNat)
  | .aswpDw so rd rs1 off rs2 => some (4, 10485813 + 128 * rd.toNat + 4096 * rs1.toNat + 32768 * rs2.toNat + 16777216 * so.code + 536870912 * off.toNat)
  | .acasDw so rd rs1 off rs2 => some (4, 11534389 + 128 * rd.toNat + 4096 * rs1.toNat + 32768 * rs2.toNat + 16777216 * so.code + 536870912 * off.toNat)
  | .aaddDw so rd rs1 off rs2 => some (4, 12582965 + 128 * rd.toNat + 4096 * rs1.toNat + 32768 * rs2.toNat + 16777216 * so.code + 536870912 * off.toNat)
  | .acq sc all g => some (4, 57 + 2048 * sc.code + 16384 * bit all + 16777216 * g.toNat)
  | .rel sc all g => some (4, 185 + 2048 * sc.code + 16384 * bit all + 16777216 * g.toNat)
  | .fence sc ord => some (4, 313 + 2048 * sc.code + 16384 * ord.code)
  | .own sc rs1 rs2 => some (4, 441 + 2048 * sc.code + 16384 * rs1.toNat + 524288 * rs2.toNat)
  | .disown sc rs1 rs2 => some (4, 569 + 2048 * sc.code + 16384 * rs1.toNat + 524288 * rs2.toNat)
  | .drain kind => some (4, 697 + 16384 * kind.code)
  | .pref l2 rs1 => some (4, 825 + 16384 * rs1.toNat + 524288 * bit l2)
  | .qlock sc rs1 => some (4, 953 + 2048 * sc.code + 16384 * rs1.toNat)
  | .qunlock sc rs1 => some (4, 1081 + 2048 * sc.code + 16384 * rs1.toNat)
  | .xbeg rs1 => some (4, 1209 + 16384 * rs1.toNat)
  | .xcmp rs1 rs2 => some (4, 1337 + 16384 * rs1.toNat + 524288 * rs2.toNat)
  | .xend rd => some (4, 1465 + 524288 * rd.toNat)
  | .mmaOvw h rs1 l rs2 => some (4, 61 + 1024 * h.toNat + 4096 * l.toNat + 65536 * rs1.toNat + 2097152 * rs2.toNat)
  | .mmaAcc h rs1 l rs2 => some (4, 8253 + 1024 * h.toNat + 4096 * l.toNat + 65536 * rs1.toNat + 2097152 * rs2.toNat)
  | .mmaRing h rs1 l rs2 => some (4, 16445 + 1024 * h.toNat + 4096 * l.toNat + 65536 * rs1.toNat + 2097152 * rs2.toNat)
  | .mmaArr h rs1 l rs2 => some (4, 24637 + 1024 * h.toNat + 4096 * l.toNat + 65536 * rs1.toNat + 2097152 * rs2.toNat)
  | .mdarn h rs1 l d => some (4, 189 + 1024 * h.toNat + 4096 * l.toNat + 65536 * rs1.toNat + 67108864 * d.toNat)
  | .hmov v h dir i => some (4, 65 + 1024 * v.code + 262144 * h.toNat + 1048576 * dir.code + 4194304 * i.toNat)
  | .hmovPeek v h dir i => some (4, 536870977 + 1024 * v.code + 262144 * h.toNat + 1048576 * dir.code + 4194304 * i.toNat)
  | .hclr h => some (4, 193 + 262144 * h.toNat)
  | .hld h rs1 => some (4, 321 + 1024 * rs1.toNat + 262144 * h.toNat)
  | .hst h rs1 => some (4, 449 + 1024 * rs1.toNat + 262144 * h.toNat)
  | .hdrain h rs1 rs2 => some (4, 577 + 1024 * rs1.toNat + 262144 * h.toNat + 1048576 * rs2.toNat)
  | .mqpop h i q => some (4, 705 + 1024 * q.toNat + 262144 * h.toNat + 4194304 * i.toNat)
  | .mqpopAcc h i q => some (4, 536871617 + 1024 * q.toNat + 262144 * h.toNat + 4194304 * i.toNat)
  | .mqpush h i q => some (4, 833 + 1024 * q.toNat + 262144 * h.toNat + 4194304 * i.toNat)
  | .mld l rs1 => some (4, 69 + 1024 * l.toNat + 2048 * rs1.toNat)
  | .mpass l => some (4, 197 + 1024 * l.toNat)
  | .mwait l => some (4, 325 + 1024 * l.toNat)
  | .qpeek rd q => some (4, 73 + 1024 * rd.toNat + 32768 * q.toNat)
  | .qpeekPop rd q => some (4, 524361 + 1024 * rd.toNat + 32768 * q.toNat)
  | .qcount rd q => some (4, 201 + 1024 * rd.toNat + 32768 * q.toNat)
  | .send rs1 rs2 => some (4, 329 + 1024 * rs1.toNat + 32768 * rs2.toNat)
  | .sendv rs1 v => some (4, 457 + 1024 * rs1.toNat + 1048576 * v.code)
  | .spush c v => some (4, 77 + 1024 * c.toNat + 4096 * v.code)
  | .spop c v => some (4, 205 + 1024 * c.toNat + 4096 * v.code)
  | .sflush c => some (4, 333 + 1024 * c.toNat)
  | .lbuf rs1 rs2 => some (4, 461 + 1048576 * rs1.toNat + 33554432 * rs2.toNat)
  | .lcfg lv rs1 rs2 => some (4, 589 + 4096 * lv.toNat + 1048576 * rs1.toNat + 33554432 * rs2.toNat)
  | .lrun => some (4, 717)
  | .lstop => some (4, 845)
  | .cpost sc rd rs1 => some (4, 81 + 1024 * rd.toNat + 32768 * rs1.toNat + 33554432 * sc.code)
  | .cpop rd => some (4, 209 + 1024 * rd.toNat)
  | .launch rd rs1 => some (4, 337 + 1024 * rd.toNat + 32768 * rs1.toNat)
  | .cstore sc rs1 rs2 => some (4, 465 + 32768 * rs1.toNat + 1048576 * rs2.toNat + 33554432 * sc.code)
  | .cwait rd rs1 => some (4, 593 + 1024 * rd.toNat + 32768 * rs1.toNat)
  | .cabort rs1 => some (4, 721 + 32768 * rs1.toNat)
  | .pdef e rs1 => some (4, 85 + 4096 * e.toNat + 131072 * rs1.toNat)
  | .pin n e => some (4, 213 + 4096 * e.toNat + 4194304 * n.toNat)
  | .unpick n => some (4, 341 + 4194304 * n.toNat)
  | .pdrop e => some (4, 469 + 4096 * e.toNat)
  | .lopen d rs1 => some (4, 597 + 4096 * d.toNat + 131072 * rs1.toNat)
  | .lset d f rs1 => some (4, 725 + 4096 * d.toNat + 131072 * rs1.toNat + 4194304 * f.toNat)
  | .lclose d => some (4, 853 + 4096 * d.toNat)
  | .linval d => some (4, 981 + 4096 * d.toNat)
  | .lstat rd d => some (4, 1109 + 4096 * d.toNat + 131072 * rd.toNat)
  | .bind rs1 rs2 => some (4, 1237 + 4096 * rs1.toNat + 131072 * rs2.toNat)
  | .unbind rs1 => some (4, 1365 + 4096 * rs1.toNat)
  | .gtset rs1 rs2 => some (4, 1493 + 4096 * rs1.toNat + 131072 * rs2.toNat)
  | .gtclr rs1 => some (4, 1621 + 4096 * rs1.toNat)
  | .tlbinv sc rs1 => some (4, 1749 + 4096 * rs1.toNat + 268435456 * sc.code)
  | .bset n rs1 rs2 => some (4, 89 + 1024 * rs2.toNat + 32768 * rs1.toNat + 1048576 * n.toNat)
  | .barr n rs1 => some (4, 217 + 32768 * rs1.toNat + 1048576 * n.toNat)
  | .barw n rs1 => some (4, 345 + 32768 * rs1.toNat + 1048576 * n.toNat)
  | .bdrop n rs1 => some (4, 473 + 32768 * rs1.toNat + 1048576 * n.toNat)
  | .bwait n rs1 => some (4, 601 + 32768 * rs1.toNat + 1048576 * n.toNat)
  | .bquery rd n rs1 => some (4, 729 + 1024 * rd.toNat + 32768 * rs1.toNat + 1048576 * n.toNat)
  | .vfb n off => some (4, 93 + 4096 * n.toNat + 131072 * off.toNat)
  | .vpb k off => some (4, 221 + 4096 * k.toNat + 131072 * off.toNat)
  | .vpend => some (4, 349)
  | .kbool kd ka kb f => some (4, 477 + 4096 * kd.toNat + 131072 * ka.toNat + 4194304 * kb.toNat + 134217728 * f.toNat)
  | .kpop rd ka => some (4, 989 + 4096 * rd.toNat + 131072 * ka.toNat)
  | .kfirst rd ka => some (4, 1117 + 4096 * rd.toNat + 131072 * ka.toNat)
  | .kset kd rs1 => some (4, 1245 + 4096 * kd.toNat + 131072 * rs1.toNat)
  | .kget rd ka => some (4, 1373 + 4096 * rd.toNat + 131072 * ka.toNat)
  | .kuse ka => some (4, 1501 + 131072 * ka.toNat)
  | .vsetvl rd rs1 => some (4, 1629 + 4096 * rd.toNat + 131072 * rs1.toNat)
  | .lpush .. => none
  | .conciergeReadBlock => none
  | .placeLaunch => none
  | .priorityPreempt => none
  | .postClaim .. => none
  | .gangStart .. => none
  | .handlerStart .. => none
  | .agingPeriod .. => none
  | .budgetExpiry .. => none
  | .taskEnd .. => none
  | .idleSample .. => none
  | .latchLoadComplete .. => none
  | .handOn .. => none
  | .drainReceive .. => none
  | .registerCacheEvict .. => none
  | .l1Evict .. => none
  | .clusterHomeEvict .. => none
  | .lease1Expiry .. => none
  | .lease2Expiry .. => none
  | .recallOwner .. => none
  | .partialPush .. => none
  | .versionBump .. => none
  | .regionTableWrite .. => none
  | .eventCounterWrite .. => none
  | .requestTimeout .. => none
  | .duplicateRecordExpiry => none
  | .qlockRetry .. => none
  | .qlockGrant .. => none
  | .relayRow .. => none
  | .downWaveDelivery .. => none
  | .groupAbort .. => none
  | .carrierCopy .. => none
  | .outChannelDrain .. => none
  | .packetArrival .. => none
  | .channelDelivery .. => none
  | .repeatSequencerPost .. => none
  | .trapEntry .. => none
  | .machineTrapEntry .. => none
  | .uncorrectableError .. => none
  | .coreFence .. => none
  | .dieLoss .. => none
  | .regctx .. => none
  | .unregctx .. => none
  | .kill .. => none
  | .preempt .. => none
  | .migrate .. => none
  | .hostMemAccess .. => none
  | .peerAccess .. => none
  | .linkFlit .. => none
  | .firmwareImage .. => none
  | .spdmRequest .. => none
  | .powerUp => none
  | .functionReady .. => none
  | .powerCap .. => none
  | .thermalTrip .. => none
  | .coreReset .. => none
  | .timebaseHalt => none
  | .registerWrite .. => none
  | .l2Evict .. => none
  | .tlbEvict .. => none
  | .timebaseResume => none
  | .correctedError .. => none
  | .packageReset => none

/-- The bytes of an instruction as they are stored (R50). -/
def encodeBytes (i : Instr) : Option (List Byte) :=
  (encode i).map fun p => leBytes p.1 p.2

end Sys2Proof
end

