-- ==== Sys2Proof/Machine/Tab.lean ====
section
/-!
DEFINITION. Sparse tables, and fields of wide bit vectors.
-/

namespace Sys2Proof

/-- What a table lists at a key. -/
def Tab.find {α : Type} : Tab α → Nat → Option α
  | [], _ => none
  | (j, a) :: r, k => if j = k then some a else Tab.find r k

/-- A table with the value at one key replaced or added, keys rising. -/
def Tab.put {α : Type} : Tab α → Nat → α → Tab α
  | [], k, a => [(k, a)]
  | (j, b) :: r, k, a =>
    if k < j then (k, a) :: (j, b) :: r
    else if k = j then (k, a) :: r
    else (j, b) :: Tab.put r k a

/-- A table without one key. -/
def Tab.del {α : Type} (t : Tab α) (k : Nat) : Tab α := t.filter fun p => p.1 != k

/-- A table without the keys that a test names. -/
def Tab.drop {α : Type} (t : Tab α) (p : Nat → α → Bool) : Tab α := t.filter fun e => !p e.1 e.2

/-- A table with every value changed by a function of its key. -/
def Tab.mapVals {α : Type} (t : Tab α) (f : Nat → α → α) : Tab α := t.map fun e => (e.1, f e.1 e.2)

namespace Machine

/-- The field of `len` bits from bit `lo`. -/
def slice {n : Nat} (v : BitVec n) (lo len : Nat) : BitVec len := v.extractLsb' lo len

/-- A bit vector with the field of `len` bits from bit `lo` replaced. -/
def splice {n len : Nat} (v : BitVec n) (lo : Nat) (x : BitVec len) : BitVec n :=
  (v &&& ~~~((BitVec.allOnes len).setWidth n <<< lo)) ||| (x.setWidth n <<< lo)

/-- One bit set or cleared. -/
def putBit {n : Nat} (v : BitVec n) (i : Nat) (b : Bool) : BitVec n :=
  splice v i (BitVec.ofBool b)

/-- Bit i as a truth value. -/
def bitAt {n : Nat} (v : BitVec n) (i : Nat) : Bool := v.toNat.testBit i

/-- The field high:low of a number, as the spec writes bit ranges (R5). -/
def fieldOf (v hi lo : Nat) : Nat := (v >>> lo) % 2 ^ (hi + 1 - lo)

/-- Values of `w` bits side by side, the first lowest. -/
def pack (w : Nat) : List Nat → Nat
  | [] => 0
  | x :: r => x % 2 ^ w + 2 ^ w * pack w r

/-- Sign extension of an `n`-bit number to 64 bits. -/
def sext64 {n : Nat} (v : BitVec n) : DWord := v.signExtend 64

/-- The mask of `n` bits that a mask with one bit for every `k` of them stands for. -/
def spread (k : Nat) : Nat → Nat → Nat
  | 0, _ => 0
  | n + 1, m => spread k n m ||| (if m.testBit n then ((2 ^ k - 1) <<< (k * n)) else 0)

/-- The bits of a line that a byte mask selects. -/
def lineMask (m : BitVec 128) : BitVec 1024 := BitVec.ofNat 1024 (spread 8 128 m.toNat)

/-- Number of set bits among the lowest `n`. -/
def popCount : Nat → Nat → Nat
  | 0, _ => 0
  | n + 1, m => popCount n m + (if m.testBit n then 1 else 0)

/-- The lowest set bit at or above `i`, looking at `n` bits. -/
def lowestFrom : Nat → Nat → Nat → Option Nat
  | 0, _, _ => none
  | n + 1, i, m => if m.testBit i then some i else lowestFrom n (i + 1) m

/-- The n-th element of a list replaced. -/
def setNth {α : Type} : List α → Nat → α → List α
  | [], _, _ => []
  | _ :: r, 0, a => a :: r
  | b :: r, n + 1, a => b :: setNth r n a

/-- A list without its n-th element. -/
def dropNth {α : Type} : List α → Nat → List α
  | [], _ => []
  | _ :: r, 0 => r
  | b :: r, n + 1 => b :: dropNth r n

/-- A number as a 16-bit value that saturates at its top. -/
def satInc16 (v : HWord) : HWord := if v = 0xFFFF then v else v + 1

/-- A 32-bit counter that saturates at its top. -/
def satInc32 (v : Word) : Word := if v = 0xFFFFFFFF then v else v + 1

end Machine

end Sys2Proof
end

