-- ==== Sys2Proof/Machine/Fp.lean ====
section
/-!
DEFINITION. Number formats and exact arithmetic with one rounding at the end (R75 to R87): a value is a NaN, an infinity
or a signed dyadic number; operations are exact, and `encode` rounds once.
-/

namespace Sys2Proof.Machine

/-- The real value of an element, with the sign of a zero kept: (−1)^neg × m × 2^e. -/
inductive Val where
  | nan
  | inf (neg : Bool)
  | fin (neg : Bool) (m : Nat) (e : Int)
  deriving DecidableEq, Repr

/-- The rounding modes (R86), with the codes of RND.MODE. -/
inductive Rnd where
  | rne | rtz | rdn | rup
  deriving DecidableEq, Repr

/-- RND.MODE (R102). -/
def Rnd.ofBits (b : BitVec 2) : Rnd :=
  match b.toNat with
  | 0 => .rne | 1 => .rtz | 2 => .rdn | _ => .rup

/-- An integer as a value. -/
def Val.ofInt (i : Int) : Val := .fin (i < 0) i.natAbs 0

/-- +0. -/
def Val.zero : Val := .fin false 0 0

/-- Whether a value is a zero of either sign. -/
def Val.isZero : Val → Bool
  | .fin _ 0 _ => true
  | _ => false

/-- A value with its sign reversed. -/
def Val.neg : Val → Val
  | .nan => .nan
  | .inf n => .inf (!n)
  | .fin n m e => .fin (!n) m e

/-- The magnitude of a value. -/
def Val.abs : Val → Val
  | .nan => .nan
  | .inf _ => .inf false
  | .fin _ m e => .fin false m e

/-! ### Binary formats -/

/-- A binary format of `eb` exponent bits and `mb` mantissa bits with IEEE infinities and NaNs. -/
structure BinFmt where
  eb : Nat
  mb : Nat
  deriving DecidableEq, Repr

/-- binary64 (R75). -/
def fp64 : BinFmt := ⟨11, 52⟩
/-- binary32 (R75). -/
def fp32 : BinFmt := ⟨8, 23⟩
/-- BF16 (R75). -/
def bf16 : BinFmt := ⟨8, 7⟩
/-- binary16 (R75). -/
def fp16 : BinFmt := ⟨5, 10⟩
/-- E4M3's fields (R83). -/
def e4m3 : BinFmt := ⟨4, 3⟩

/-- The exponent of the last bit of a subnormal. -/
def BinFmt.emin (f : BinFmt) : Int := 2 - (2 ^ (f.eb - 1) : Nat) - f.mb

/-- The value that a format's bits have. -/
def BinFmt.decode (f : BinFmt) (x : Nat) : Val :=
  let m := x % 2 ^ f.mb
  let e := x / 2 ^ f.mb % 2 ^ f.eb
  let n := x / 2 ^ (f.mb + f.eb) % 2 == 1
  if e = 2 ^ f.eb - 1 then (if m = 0 then .inf n else .nan)
  else if e = 0 then .fin n m f.emin
  else .fin n (2 ^ f.mb + m) (f.emin + e - 1)

/-- R83. -/
def decodeE4m3 (x : Nat) : Val :=
  let m := x % 8
  let e := x / 8 % 16
  let n := x / 128 % 2 == 1
  if e = 15 ∧ m = 7 then .nan
  else if e = 0 then .fin n m (-9)
  else .fin n (8 + m) (e - 10)

/-- The number of significant bits. -/
def bitLen (m : Nat) : Nat := if m = 0 then 0 else m.log2 + 1

/-- Whether a magnitude of `kept` last places and a remainder rounds up (R86). -/
def roundsUp (r : Rnd) (neg : Bool) (kept rem half : Nat) (sticky : Bool) : Bool :=
  match r with
  | .rne => half < rem || (rem = half && half ≠ 0 && (sticky || kept % 2 = 1))
  | .rtz => false
  | .rdn => neg && (rem ≠ 0 || sticky)
  | .rup => !neg && (rem ≠ 0 || sticky)

/-- The magnitude m × 2^e, with a sticky part below its last place, as a multiple of 2^q rounded. -/
def roundAt (r : Rnd) (neg : Bool) (m : Nat) (e q : Int) (sticky : Bool) : Nat :=
  if e < q then
    let sh := (q - e).toNat
    let kept := m >>> sh
    let rem := m % 2 ^ sh
    if roundsUp r neg kept rem (2 ^ (sh - 1)) sticky then kept + 1 else kept
  else
    let kept := m <<< (e - q).toNat
    if roundsUp r neg kept 0 0 sticky then kept + 1 else kept

/-- A magnitude rounded to `mb + 1` significant bits or to the subnormal spacing: its last-place exponent and its number
of last places. -/
def BinFmt.fit (f : BinFmt) (r : Rnd) (neg : Bool) (m : Nat) (e : Int) (sticky : Bool) : Int × Nat :=
  let q := max (e + bitLen m - (f.mb + 1)) f.emin
  let k := roundAt r neg m e q sticky
  if k = 2 ^ (f.mb + 1) then (q + 1, 2 ^ f.mb) else (q, k)

/-- The exponent field of a fitted magnitude. -/
def BinFmt.expField (f : BinFmt) (q : Int) (k : Nat) : Nat :=
  if k < 2 ^ f.mb then 0 else (q - f.emin + 1).toNat

/-- The sign bit. -/
def BinFmt.sign (f : BinFmt) (neg : Bool) : Nat := if neg then 2 ^ (f.mb + f.eb) else 0

/-- The canonical quiet NaN (R84). -/
def BinFmt.qnan (f : BinFmt) : Nat := (2 ^ f.eb - 1) * 2 ^ f.mb + 2 ^ (f.mb - 1)

/-- An infinity. -/
def BinFmt.infBits (f : BinFmt) (neg : Bool) : Nat := f.sign neg + (2 ^ f.eb - 1) * 2 ^ f.mb

/-- The largest finite value of a sign. -/
def BinFmt.maxBits (f : BinFmt) (neg : Bool) : Nat := f.sign neg + (2 ^ f.eb - 1) * 2 ^ f.mb - 1

/-- What an overflow gives (R84): the largest finite value where the direction rounds the sign toward zero. -/
def BinFmt.overflow (f : BinFmt) (r : Rnd) (neg : Bool) : Nat :=
  match r with
  | .rne => f.infBits neg
  | .rtz => f.maxBits neg
  | .rdn => if neg then f.infBits neg else f.maxBits neg
  | .rup => if neg then f.maxBits neg else f.infBits neg

/-- A value rounded once to a format (R86), with a sticky part that the exact value has below m × 2^e. -/
def BinFmt.encodeS (f : BinFmt) (r : Rnd) (v : Val) (sticky : Bool) : Nat :=
  match v with
  | .nan => f.qnan
  | .inf n => f.infBits n
  | .fin n m e =>
    let (q, k) := f.fit r n m e sticky
    let x := f.expField q k
    if 2 ^ f.eb - 1 ≤ x then f.overflow r n
    else f.sign n + x * 2 ^ f.mb + k % 2 ^ f.mb

/-- A value rounded once to a format (R86). -/
def BinFmt.encode (f : BinFmt) (r : Rnd) (v : Val) : Nat := f.encodeS r v false

/-- A value rounded to E4M3 and saturated to ±448 (R86). -/
def encodeE4m3 (r : Rnd) (v : Val) : Nat :=
  match v with
  | .nan => 0x7F
  | .inf n => (if n then 128 else 0) + 0x7E
  | .fin n m e =>
    let (q, k) := e4m3.fit r n m e false
    let x := e4m3.expField q k
    let s := if n then 128 else 0
    if 15 < x ∨ (x = 15 ∧ k % 8 = 7) then s + 0x7E else s + x * 8 + k % 8

/-! ### Exact operations -/

/-- A finite value as an integer multiple of 2^q, for q at or below its exponent. -/
def scaledTo (q : Int) (neg : Bool) (m : Nat) (e : Int) : Int :=
  let k : Int := (m <<< (e - q).toNat : Nat)
  if neg then -k else k

/-- The exact sum; a zero sum has the sign that IEEE 754-2019 gives (R116). -/
def Val.add (r : Rnd) (a b : Val) : Val :=
  match a, b with
  | .nan, _ => .nan
  | _, .nan => .nan
  | .inf n, .inf p => if n = p then .inf n else .nan
  | .inf n, _ => .inf n
  | _, .inf n => .inf n
  | .fin n m e, .fin p k g =>
    let q := min e g
    let t := scaledTo q n m e + scaledTo q p k g
    if t = 0 then .fin (if m = 0 ∧ k = 0 ∧ n = p then n else r = .rdn) 0 q
    else .fin (t < 0) t.natAbs q

/-- The exact product. -/
def Val.mul (a b : Val) : Val :=
  match a, b with
  | .nan, _ => .nan
  | _, .nan => .nan
  | .inf n, .inf p => .inf (n != p)
  | .inf n, .fin p k _ => if k = 0 then .nan else .inf (n != p)
  | .fin n m _, .inf p => if m = 0 then .nan else .inf (n != p)
  | .fin n m e, .fin p k g => .fin (n != p) (m * k) (e + g)

/-- The quotient to more bits than any format keeps, and whether a remainder is left. -/
def Val.div (a b : Val) : Val × Bool :=
  match a, b with
  | .nan, _ => (.nan, false)
  | _, .nan => (.nan, false)
  | .inf _, .inf _ => (.nan, false)
  | .inf n, .fin p _ _ => (.inf (n != p), false)
  | .fin n _ _, .inf p => (.fin (n != p) 0 0, false)
  | .fin n m e, .fin p k g =>
    if k = 0 then (if m = 0 then (.nan, false) else (.inf (n != p), false))
    else
      let s := 130 + k.log2
      (.fin (n != p) ((m <<< s) / k) (e - g - s), (m <<< s) % k != 0)

/-- The integer square root, looking at `2n` bits. -/
def isqrt : Nat → Nat → Nat
  | 0, _ => 0
  | n + 1, x =>
    let r := 2 * isqrt n (x / 4)
    if (r + 1) * (r + 1) ≤ x then r + 1 else r

/-- The square root to more bits than any format keeps, and whether a remainder is left (R116). -/
def Val.sqrt (a : Val) : Val × Bool :=
  match a with
  | .nan => (.nan, false)
  | .inf n => if n then (.nan, false) else (.inf false, false)
  | .fin n m e =>
    if m = 0 then (.fin n 0 0, false)
    else if n then (.nan, false)
    else
      let sh : Nat := if e % 2 = 0 then 128 else 129
      let x := m <<< sh
      let q := isqrt 120 x
      (.fin false q ((e - sh) / 2), q * q != x)

/-- Whether a < b, for values that are no NaN. -/
def Val.lt (a b : Val) : Bool :=
  match a, b with
  | .nan, _ => false
  | _, .nan => false
  | .inf n, .inf p => n && !p
  | .inf n, _ => n
  | _, .inf p => !p
  | .fin n m e, .fin p k g => scaledTo (min e g) n m e < scaledTo (min e g) p k g

/-- Whether a = b; −0 equals +0. -/
def Val.eq (a b : Val) : Bool :=
  match a, b with
  | .inf n, .inf p => n = p
  | .fin n m e, .fin p k g => scaledTo (min e g) n m e = scaledTo (min e g) p k g
  | _, _ => false

/-- The sign of a value. -/
def Val.isNeg : Val → Bool
  | .nan => false
  | .inf n => n
  | .fin n _ _ => n

/-- The smaller value (R84): the other operand where one is a NaN, −0 below +0. -/
def Val.min (a b : Val) : Val :=
  match a, b with
  | .nan, b => b
  | a, .nan => a
  | a, b => if Val.lt a b then a else if Val.lt b a then b else if a.isNeg then a else b

/-- The larger value (R84). -/
def Val.max (a b : Val) : Val :=
  match a, b with
  | .nan, b => b
  | a, .nan => a
  | a, b => if Val.lt b a then a else if Val.lt a b then b else if a.isNeg then b else a

/-- A finite value rounded to an integer. -/
def Val.toInt (r : Rnd) (neg : Bool) (m : Nat) (e : Int) : Int :=
  let k : Int := roundAt r neg m e 0 false
  if neg then -k else k

/-- An integer limited to a range. -/
def clampInt (lo hi i : Int) : Int := if i < lo then lo else if hi < i then hi else i

/-- A value converted to an integer range: rounded, then saturated; a NaN gives 0 (R86). -/
def Val.toRange (r : Rnd) (lo hi : Int) : Val → Int
  | .nan => 0
  | .inf n => if n then lo else hi
  | .fin n m e => clampInt lo hi (Val.toInt r n m e)

/-- An integer modulo 2^w. -/
def wrap (w : Nat) (i : Int) : Nat := (i % (2 ^ w : Nat)).toNat

/-- The signed value of w bits. -/
def signedOf (w x : Nat) : Int := if x < 2 ^ (w - 1) then x else (x : Int) - (2 ^ w : Nat)

/-! ### Formats of rows (R75) -/

/-- The element width in bits (R75); NONE has no elements. -/
def fmtWidth : Fmt → Nat
  | .none => 0
  | .fp64 => 64
  | .fp32 | .int32 | .b32 | .idx32 => 32
  | .bf16 | .fp16 | .int16 => 16
  | .e4m3 | .int8 | .uint8 => 8
  | .int6 => 6
  | .int4 => 4

/-- R75: a 32-bit format. -/
def fmtIs32 : Fmt → Bool
  | .fp32 | .int32 | .b32 | .idx32 => true
  | _ => false

/-- A floating-point format. -/
def fmtIsFloat : Fmt → Bool
  | .fp64 | .fp32 | .bf16 | .fp16 | .e4m3 => true
  | _ => false

/-- An integer format, with a range. -/
def fmtIsInt : Fmt → Bool
  | .int32 | .int16 | .int8 | .int6 | .int4 | .uint8 | .idx32 => true
  | _ => false

/-- An unsigned integer format. -/
def fmtIsUnsigned : Fmt → Bool
  | .uint8 | .idx32 => true
  | _ => false

/-- The range of an integer format (R75). -/
def fmtRange (f : Fmt) : Int × Int :=
  if fmtIsUnsigned f then (0, (2 ^ fmtWidth f : Nat) - 1)
  else (-(2 ^ (fmtWidth f - 1) : Nat), (2 ^ (fmtWidth f - 1) : Nat) - 1)

/-- The value of an element's bits (R75, R83). -/
def fmtVal (f : Fmt) (x : Nat) : Val :=
  match f with
  | .fp64 => fp64.decode x
  | .fp32 => fp32.decode x
  | .bf16 => bf16.decode x
  | .fp16 => fp16.decode x
  | .e4m3 => decodeE4m3 x
  | .int32 | .int16 | .int8 | .int6 | .int4 => Val.ofInt (signedOf (fmtWidth f) x)
  | .uint8 | .idx32 => Val.ofInt x
  | .b32 | .none => Val.zero

/-- The integer that an integer format's bits are. -/
def fmtInt (f : Fmt) (x : Nat) : Int := if fmtIsUnsigned f then x else signedOf (fmtWidth f) x

/-- A value rounded to a floating-point format (R86). -/
def fmtRound (f : Fmt) (r : Rnd) (v : Val) : Nat :=
  match f with
  | .fp64 => fp64.encode r v
  | .fp32 => fp32.encode r v
  | .bf16 => bf16.encode r v
  | .fp16 => fp16.encode r v
  | .e4m3 => encodeE4m3 r v
  | _ => 0

/-- The canonical NaN of a floating-point format (R84). -/
def fmtNaN (f : Fmt) : Nat := fmtRound f .rne .nan

/-- RNE32 (R88): a value rounded to FP32 by nearest even. -/
def rne32 (v : Val) : Nat := fp32.encode .rne v

/-- An integer result in an integer format: wrapped, or saturated (R87). -/
def fmtPutInt (f : Fmt) (sat : Bool) (i : Int) : Nat :=
  let (lo, hi) := fmtRange f
  wrap (fmtWidth f) (if sat then clampInt lo hi i else i)

/-! ### The operations of reductions, relays and commutative regions (R139, R203, R276) -/

/-- Operator codes 0 to 5 of R274 and R294. -/
inductive FoldOp where
  | add | min | max | and | or | xor
  deriving DecidableEq, Repr

/-- R294. -/
def FoldOp.ofCode : Nat → Option FoldOp
  | 0 => some .add | 1 => some .min | 2 => some .max | 3 => some .and | 4 => some .or | 5 => some .xor | _ => none

/-- One step of a fold in a format: floating point rounds RNE, integers wrap, the bit operations take the bits. -/
def foldStep (op : FoldOp) (f : Fmt) (a b : Nat) : Nat :=
  match op with
  | .and => a &&& b
  | .or => a ||| b
  | .xor => a ^^^ b
  | .add =>
    if fmtIsFloat f then fmtRound f .rne ((fmtVal f a).add .rne (fmtVal f b))
    else wrap (fmtWidth f) (fmtInt f a + fmtInt f b)
  | .min =>
    if fmtIsFloat f then fmtRound f .rne ((fmtVal f a).min (fmtVal f b))
    else if fmtInt f b < fmtInt f a then b else a
  | .max =>
    if fmtIsFloat f then fmtRound f .rne ((fmtVal f a).max (fmtVal f b))
    else if fmtInt f a < fmtInt f b then b else a

/-- The identity of a fold (R139): −0.0 for a floating-point add. -/
def foldIdentity (op : FoldOp) (f : Fmt) : Nat :=
  match op with
  | .add => if fmtIsFloat f then fmtRound f .rne (.fin true 0 0) else 0
  | .or | .xor => 0
  | .and => 2 ^ fmtWidth f - 1
  | .min => if fmtIsFloat f then fmtRound f .rne (.inf false) else wrap (fmtWidth f) (fmtRange f).2
  | .max => if fmtIsFloat f then fmtRound f .rne (.inf true) else wrap (fmtWidth f) (fmtRange f).1

end Sys2Proof.Machine
end

