-- ==== Sys2Proof/Config.lean ====
section
/-!
DEFINITION. What one implementation fixes and what the spec leaves open. An opaque constant has no body: nothing
can be proved about its values, so a claim that holds of the model holds whatever they are. Each names the
log entry that declares it.
-/

namespace Sys2Proof.Config

/-- The number of cores, 48 × 64 (R1). -/
def cores : Nat := 3072

/-- The stepping that STEP reads (R384); the spec gives no number (log 5). -/
opaque stepping : BitVec 8

/-- The value of a word that the spec leaves undefined after an instruction or an event, fresh at each use of
the state's counter (log 9). -/
opaque freeWord : Nat → Word

/-- The same for a byte (log 9). -/
opaque freeByte : Nat → Byte

/-- Whether a thing that the spec leaves undefined happened, as for an operation that timed out (log 10). -/
opaque freeBool : Nat → Bool

/-- The public key of the device's identity, made at manufacture (R392, log 6). -/
opaque deviceKey : BitVec 521

/-- The answer of the root of trust to an SPDM request, by the device's identity and what it measures: the version of the firmware, the
fused minimum, and the region, peer and power registers. The spec fixes the algorithms and no message (R392, log 6). -/
opaque spdmAnswer : DWord → BitVec 521 → Word → Word → List (Nat × DWord) → List (Nat × DWord) → List Nat → DWord

/-- The 64-byte form in which an issue-queue entry is saved, by its posting number, which no rule lays out
(R354, log 11). -/
opaque savedEntry : Word → DWord → BitVec 512

end Sys2Proof.Config
end

