-- ==== Sys2Proof/Machine/State.lean ====
section
/-!
DEFINITION. The state of the package as plain data: 3,072 cores, the hub, the memories with their copies, and what
is in flight between them; the reasons a step can stop; and the state after reset.
-/

namespace Sys2Proof.Machine

/-! ### Small kinds -/

/-- The privilege levels (R7). -/
inductive Level where
  | task | steward | machine
  deriving DecidableEq, Repr

/-- The streams of a task, with the codes 0, 1 and 2 of ECAUSE.STREAM (R102). -/
inductive Stream where
  | control | vector | matrix
  deriving DecidableEq, Repr

/-- The trap causes 1 to 18 (R344). -/
inductive Cause where
  | illegalOp | format | misalign | pageMiss | protect | scratchRange | priv | syscall | brk | budget
  | barrierOver | poison | remoteTimeout | gangBroken | dieLost | collAborted | queueFault | protMismatch
  deriving DecidableEq, Repr

/-- What a trap reports beside its cause: EINFO, and the fields of the fault record that only some causes set
(R352). `final` ends the posted entry that raises it: the entry is not resumed (R226). -/
structure TrapInfo where
  cause : Cause
  einfo : DWord
  malf : Bool
  pages : List DWord
  ovf : Bool
  replay : Bool
  final : Bool
  deriving DecidableEq, Repr

/-- Where a register-cache item stands (R105): at its reset value and never written, resident and equal to the
backing area, resident and dirty, or not resident. -/
inductive Residency where
  | zero | clean | dirty | gone
  deriving DecidableEq, Repr

/-! ### Registers of a core -/

/-- A row image with its tag (R76, R79) and one poison bit for each cell (R129). -/
structure Row where
  bits : RowBits
  psn : DWord
  tag : HWord
  deriving DecidableEq, Repr

/-- The row that a task starts with (R29): zero, tag NONE, clean. -/
def Row.blank : Row := { bits := 0, psn := 0, tag := 0 }

/-- A frame row in the register cache (R105). -/
structure FrameRow where
  row : Row
  res : Residency
  deriving DecidableEq, Repr

/-- A hoop: 64 rows of 128 FP32 elements (R96), element j at bits 32j+31 to 32j, and their poison bits (R169). -/
structure Hoop where
  rows : Vector (BitVec 4096) 64
  psn : Vector (BitVec 128) 64
  deriving DecidableEq, Repr

/-- The states of a latch (R96). -/
inductive LatchState where
  | empty | loading | full
  deriving DecidableEq, Repr

/-- A latch (R157): SCALE, the header word, the tile with byte b at bits 8b+7 to 8b, a poison bit for each word of
the tile, and the tick at which it became FULL (R168). -/
structure Latch where
  state : LatchState
  scale : Word
  hdr : Word
  tile : BitVec 131072
  psn : BitVec 4096
  stamp : Nat
  deriving DecidableEq, Repr

/-- The special registers that belong to the task's context (R98). -/
structure TaskRegs where
  vl : BitVec 7
  ksel : BitVec 3
  rnd : BitVec 2
  prot : BitVec 1
  pmask : DWord
  egdone : Byte
  foot : BitVec 48
  group : BitVec 48
  taskid : DWord
  budget : BitVec 33
  instret : DWord
  rbase : DWord
  epc : DWord
  ecause : BitVec 12
  einfo : DWord
  tdies : BitVec 24
  tenant : HWord
  asid : HWord
  ptroot : DWord
  bnda : Byte
  bndb : Byte
  bndc : Byte
  deriving DecidableEq, Repr

/-- The special registers that R98 marks per core, COORD and TIME apart: COORD is the core's own index, and TIME
is the package timebase. -/
structure CoreRegs where
  cycle : DWord
  tvec : DWord
  lease1 : Word
  lease2 : Word
  emerg : DWord
  mtvec : DWord
  mepc : DWord
  mcause : BitVec 14
  minfo : DWord
  deriving DecidableEq, Repr

/-- The register files that instructions name: scalar, frame, scale, mask, hoop, latch (R92), and the pin records of
the frame rows (R299) as 64-byte images, with the tag that each pinned row had when its pin began to run (R303). -/
structure Files where
  s : Vector DWord 32
  x : Vector FrameRow 64
  sc : Vector Word 256
  scPsn : BitVec 256
  scRes : Vector Residency 4
  k : Vector DWord 8
  h : Vector Hoop 4
  l : Vector Latch 2
  pins : Vector (BitVec 512) 64
  pinTags : Vector HWord 64
  deriving DecidableEq, Repr

/-! ### The task and its streams -/

/-- The task that holds a core (R28 to R31): its context, its launch, plot and group, FIXK (R36), and for a handler
task the tag of its route entry. -/
structure Task where
  ctx : HWord
  lid : Word
  plot : Nat
  group : Nat
  fixk : Bool
  handler : Option (BitVec 12)
  deriving DecidableEq, Repr

/-- The values that a posted entry captures at its commit (R32, R109). -/
structure Env where
  vl : BitVec 7
  ksel : BitVec 3
  rnd : BitVec 2
  prot : BitVec 1
  s : Vector DWord 32
  deriving DecidableEq, Repr

/-- The state of a VP block (R35, R153): the address and bytes of the block that is fetched, each VP's PC, the VPs
that have reached `vpend`, and the VP in the middle of an instruction, if there is one. -/
structure VpState where
  base : DWord
  image : List Byte
  pcs : Vector DWord 64
  done : DWord
  busy : Option Nat
  deriving DecidableEq, Repr

/-- How far a started matrix entry has come (R167, R168, R179): the ring step, whether its tile is already applied, the
mask of applied blocks, whether it waits for its hand-on or its drain, and whether the rows of its hand-on move (R159). -/
structure Progress where
  step : Nat
  applied : Bool
  mask : Byte
  waiting : Bool
  moving : Bool
  deriving DecidableEq, Repr

/-- The place of a replay entry in the repeat buffer (R260). -/
structure ReplayAt where
  j : Nat
  iter : Vector Word 6
  deriving DecidableEq, Repr

/-- A posted entry (R32, R349): the instruction, its capture, the address offset of a replay (R260), the address that posted
it, its posting number, the groups done (R128), the queue entries popped (R126), the pattern image that a `pin` took, VP state,
and progress; `began` holds the hoop as an `mma.arr` found it and the tiles that it has taken (R170). -/
structure Entry where
  instr : Instr
  env : Env
  adj : DWord
  ipc : DWord
  seq : Word
  egdone : Byte
  popped : List Row
  image : BitVec 512
  vp : Option VpState
  prog : Progress
  replay : Option ReplayAt
  started : Bool
  began : Option (Hoop × List (BitVec 1 × Latch))
  deriving DecidableEq, Repr

/-- An instruction of the repeat buffer (R257): its flag byte, its length in bytes, its encoding and its meaning. -/
structure RepeatInstr where
  flags : Byte
  len : Nat
  word : Word
  instr : Instr
  deriving DecidableEq, Repr

/-- A level of the repeat buffer (R259). -/
structure RepeatLevel where
  count : Word
  os : BitVec 6
  as : Word
  deriving DecidableEq, Repr

/-- A replay in progress (R260): the iteration vector, the body index, the capture of `lrun`, its address, and whether
`lstop` has asked it to stop (R261). -/
structure RepeatRun where
  iter : Vector Word 6
  j : Nat
  env : Env
  ipc : DWord
  stop : Bool
  deriving DecidableEq, Repr

/-- The repeat buffer (R257 to R261). -/
structure RepeatBuf where
  body : List RepeatInstr
  levels : Vector RepeatLevel 6
  run : Option RepeatRun
  deriving DecidableEq, Repr

/-- A conditional stream (R262). -/
structure CondStream where
  head : HWord
  count : HWord
  tag : HWord
  deriving DecidableEq, Repr

/-! ### Pages and places -/

/-- The attributes of a leaf (R184): `ac` is the page's size in bits where it counts accesses, else 0 (R337); `lodge` marks the accesses of
`mdarn` to its area (R311). -/
structure Page where
  r : Bool
  w : Bool
  x : Bool
  u : Bool
  home : Nat
  mtype : Nat
  region : Byte
  ac : Nat
  mig : Bool
  lodge : Bool
  deriving DecidableEq, Repr

/-- Where an access goes: a scratchpad, by a page or by a window, or a physical address with its page's attributes. -/
inductive Loc where
  | sram (t : CoreId) (off : Nat) (region : Byte) (page : Option Page)
  | mem (pa : Nat) (pg : Page)
  deriving DecidableEq, Repr

/-- What `xend` has sent to the homes (R237): its words with their places, what the first of them are compared with, and what is written to the
others. -/
structure TxRequest where
  words : List (DWord × Loc)
  expected : List Word
  values : List Nat
  deriving DecidableEq, Repr

/-- The transaction state (R237), with the request of its `xend`, which a reissue carries unchanged (R377). -/
structure Transaction where
  isOpen : Bool
  desc : DWord
  pairs : List (DWord × Word)
  bad : Bool
  request : Option TxRequest
  deriving DecidableEq, Repr

/-- How often a message between two nodes has been sent again, and when it was last sent (R376, R377). -/
structure Transit where
  sent : DWord
  tries : Nat
  deriving DecidableEq, Repr

/-- A message on its first way. -/
def Transit.first (now : DWord) : Transit := { sent := now, tries := 0 }

/-- A packet (R252): tag, sender, its context and tenant, destination, whether it is a scalar, and its row image; whether it is the
wake-up of an `hdrain` (R179) or of a copy (R266); its number among the packets of its source (R378), and its way. -/
structure Packet where
  tag : BitVec 12
  src : CoreId
  ctx : HWord
  tenant : HWord
  dst : CoreId
  scalar : Bool
  row : Row
  drain : Bool
  carrier : Bool
  seq : HWord
  way : Transit
  deriving DecidableEq, Repr

/-- A packet in a receive buffer (R252), with its arrival tick. -/
structure Received where
  pkt : Packet
  tick : DWord
  deriving DecidableEq, Repr

/-- The queues of a core (R249). `outPending` holds the out-channel rows in the order of their pushes, each with its
channel (R256); `popped` holds the packets that a running handler has popped since it started (R361). -/
structure Queues where
  sq : Vector (List DWord) 8
  rq : Vector (List Row) 8
  inq : Vector (List Received) 8
  outPending : List (BitVec 3 × Row)
  recv : List Received
  send : List Packet
  popped : List Received
  results : List DWord
  deriving DecidableEq, Repr

/-- What a release, an acquire or a fence does once it may start (R230, R231). -/
inductive SyncOp where
  | rel (sc : Scope) (regions : BitVec 256)
  | acq (sc : Scope) (regions : BitVec 256)
  | fence (sc : Scope) (ord : Order)
  deriving DecidableEq, Repr

/-- A committed release, acquire or fence that still waits for earlier accesses (R230), with the posting number that the next
entry took at its commit. -/
structure Deferred where
  op : SyncOp
  seq : Word
  deriving DecidableEq, Repr

/-- How a wait in `barw` or `bwait` stands (R327 to R329, R331): none, waiting for a phase of a home's entry, ended by the phase,
or ended by the entry's break with its EINFO. -/
inductive BarWait where
  | idle
  | waiting (home : CoreId) (b : Byte)
  | released
  | broken (einfo : DWord)
  deriving DecidableEq, Repr

/-- A request of `qlock` as a core keeps it (R235): whether it is queued, whether it has been granted, and its word. -/
structure LockWait where
  queued : Bool
  granted : Bool
  word : Nat
  deriving DecidableEq, Repr

/-- What a core keeps of a stopped task beside what the save area holds (log 55): the address of its last `lrun` and the length of its
repeat body (R260), the tags that its pinned rows had at their pins (R303), its lock request (R235), and the register-cache items that an
emergency save could not read (R358). -/
structure Parked where
  lrunPc : DWord
  bufLen : Nat
  pinTags : Vector HWord 64
  lock : LockWait
  gone : BitVec 68
  deriving DecidableEq, Repr

/-- The streams of the task on a core: the issue queues with the next posting number (R349), whether a stream waits
for the schedule to run it (log 7), the queues of a task that its steward serves and of a steward that machine level
serves (log 11), with the request of an `lstop` that a stopped task's sequencer still has to serve (R261), the address of the task's last `lrun` and the length of the body it last loaded (R260), the repeat buffer, the conditional streams, the transaction, the
last copy ID (R265), the recorded parts of `barw`, with the address of the `barw` that has arrived, and of `qlock` (R328, R356), the wait of a barrier instruction, the tick at which a `qlock` was last refused (R235), and the releases, acquires and fences that wait, of the
running level, of a stopped task and of a steward under machine level (R230). -/
structure Streams where
  vq : List Entry
  mq : List Entry
  nextSeq : Word
  lazyV : Bool
  lazyM : Bool
  parkedV : List Entry
  parkedM : List Entry
  stewardV : List Entry
  stewardM : List Entry
  stewardRun : Option RepeatRun
  parkedStop : Bool
  lrunPc : DWord
  bufLen : Nat
  rep : RepeatBuf
  cs : Vector CondStream 4
  tx : Transaction
  copyId : DWord
  arrived : Option DWord
  barWait : BarWait
  qlockQueued : Bool
  qlockGranted : Bool
  qlockRefused : Option DWord
  qlockWord : Nat
  parked : Parked
  stewardLock : LockWait
  deferred : List Deferred
  parkedSync : List Deferred
  stewardSync : List Deferred
  deriving DecidableEq, Repr

/-! ### Tables of a core -/

/-- A TLB entry (R291): the ASID of the walk and the tenant for which it was made (R318), the page's base and size in bits, and the leaf as it
was read. -/
structure TlbEntry where
  asid : HWord
  tenant : HWord
  base : DWord
  bits : Nat
  leaf : DWord
  deriving DecidableEq, Repr

/-- The key of a route-table entry (R314). -/
inductive RouteKey where
  | tag (t : BitVec 12)
  | out (ctx : HWord) (chan : BitVec 3)
  deriving DecidableEq, Repr

/-- A route-table entry (R313), with the tenant of its `bind`. -/
structure RouteEntry where
  key : RouteKey
  entry : DWord
  ctx : HWord
  chan : BitVec 3
  pri : BitVec 2
  budget : BitVec 33
  route : DWord
  tenant : HWord
  deriving DecidableEq, Repr

/-- A spanning-tree entry of a router or of the hub (R272, R276, R316): its image, the wave that it combines, the
sources received with their rows, the number of the member's next wave, and whether it is aborting (R284); for an entry of the hub, whether
the peers at its fabric ports have been told of the abort, the ports whose peers have acknowledged it, and whether the hub has. -/
structure TreeEntry where
  gid : BitVec 12
  ctx : HWord
  tenant : HWord
  parent : BitVec 6
  top : Bool
  member : Bool
  ext : BitVec 3
  rank : HWord
  nmem : HWord
  child : DWord
  cur : HWord
  got : List (Nat × List Row)
  nextWave : Word
  aborting : Bool
  told : Bool
  acks : DWord
  acked : Bool
  deriving DecidableEq, Repr

/-- A collective slot (R273). `timedOut` tells an abort by a failed reissue from the others (R284); `got` names the pieces of the
down-wave received (R277); `orphan` marks a slot whose task has ended. -/
structure CollSlot where
  gid : BitVec 12
  desc : DWord
  wave : Word
  kind : BitVec 4
  dst : BitVec 42
  root : HWord
  rows : BitVec 7
  scope : Scope
  ctx : HWord
  sent : Bool
  combined : Bool
  delivered : Bool
  aborted : Bool
  timedOut : Bool
  got : List Nat
  orphan : Bool
  deriving DecidableEq, Repr

/-- The states of a named barrier (R324). -/
inductive BarrierState where
  | free | active | broken
  deriving DecidableEq, Repr

/-- A named barrier (R324); `lost` is the core that broke it (R331). -/
structure Barrier where
  state : BarrierState
  ctx : HWord
  tenant : HWord
  setn : Nat
  expect : Nat
  arrived : Nat
  phase : Word
  doneSet : List CoreId
  gone : List CoreId
  waiters : List CoreId
  lost : CoreId
  deriving DecidableEq, Repr

/-- A FREE barrier reads as all zero (R326). -/
def Barrier.blank : Barrier :=
  { state := .free, ctx := 0, tenant := 0, setn := 0, expect := 0, arrived := 0, phase := 0, doneSet := [], gone := [],
    waiters := [], lost := 0 }

/-- A lodge descriptor (R306) that a core holds (R307). -/
structure Lodge where
  ctx : HWord
  d : BitVec 4
  name : DWord
  area : DWord
  waddr : DWord
  m : BitVec 7
  k : BitVec 11
  wreg : Byte
  rlim : BitVec 7
  state : BitVec 2
  last : Bool
  wver : Word
  count : BitVec 7
  dthr : Word
  drift : Word
  tenant : HWord
  deriving DecidableEq, Repr

/-- What an entry of a core's ready queue starts (R44): a claim for a plot's group, or the handler of a tag. -/
inductive ReadyKind where
  | claim (lid : Word) (plot : Nat)
  | handler (tag : BitVec 12)
  deriving DecidableEq, Repr

/-- An entry of a ready queue (R44). -/
structure ReadyEntry where
  kind : ReadyKind
  ctx : HWord
  pri : BitVec 2
  age : DWord
  deriving DecidableEq, Repr

/-- A commutative partial (R203): operator and format codes and the value, in a core's L1 or at the word's L2 home under
its contributor; with its page's region and access counting (R184), and the context and tenant that formed it (R373). -/
structure Partial where
  op : BitVec 3
  fmt : BitVec 4
  val : DWord
  region : Byte
  ac : Nat
  writer : Word
  deriving DecidableEq, Repr

/-- The tables of a core (R289), its lodge copies, collective slots, barriers and ready queue; `versions` lists the core's copies of
region versions that differ from the hub's. -/
structure Tables where
  book : Vector (Option (BitVec 512)) 32
  lodges : List Lodge
  tlb : List TlbEntry
  route : List RouteEntry
  trees : List TreeEntry
  slots : List CollSlot
  barriers : Tab Barrier
  ready : List ReadyEntry
  decls : Tab (BitVec 3 × BitVec 4)
  marks : BitVec 256
  versions : Tab Word
  deriving DecidableEq, Repr

/-! ### Copies of lines -/

/-- An L1 line (R194): byte b at bits 8b+7 to 8b, dirty bytes, poisoned words (R368), region, OWNED, STALE,
the tick of the last fill with the smallest lease since (R200), whether `mdarn` has used it for its area (R311), whether its
page is pinned in L2 (HOME 11, R188), the size in bits of a page that counts accesses, or 0 (R184), the context (bits 15:0) and tenant of the last writer (R373), and the 32-byte blocks in
which an uncorrectable error stands (R369, log 24). -/
structure L1Line where
  data : BitVec 1024
  dirty : BitVec 128
  psn : BitVec 32
  region : Byte
  owned : Bool
  stale : Bool
  filled : DWord
  lease : Word
  lodge : Bool
  pinned : Bool
  ac : Nat
  writer : Word
  bad : BitVec 4
  deriving DecidableEq, Repr

/-- A copy in a cluster home (R195). -/
structure HomeLine where
  data : BitVec 1024
  dirty : BitVec 128
  psn : BitVec 32
  region : Byte
  ac : Nat
  writer : Word
  bad : BitVec 4
  deriving DecidableEq, Repr

/-- A copy in an L2 slice (R182): with LEASE2's bound for host and peer lines (R200) and the pin of HOME 11 (R198). -/
structure L2Line where
  data : BitVec 1024
  dirty : BitVec 128
  psn : BitVec 32
  region : Byte
  filled : DWord
  filler : Option CoreId
  lease : Word
  pinned : Bool
  writer : Word
  bad : BitVec 4
  deriving DecidableEq, Repr

/-! ### Pushes that await their reply (R376 to R378) -/

/-- A push of a core's copies (R194, R195, R199, R202, R203, R295, R312): a partial of a word, an L1 line to its home or to its cluster
home, a line that is evicted with its push, an owner's line that is recalled, a copy in a cluster home, the write-back of an L2 copy of
host or peer memory, or the bump of a region; the last three say whether a copy is dropped, or which region. -/
inductive Push where
  | fold (w : Nat)
  | line (line : Nat)
  | cluster (line : Nat)
  | evict (line : Nat)
  | recall (line : Nat)
  | home (line : Nat) (drop : Bool)
  | foreign (line : Nat) (drop : Bool)
  | bump (g : Nat)
  deriving DecidableEq, Repr

/-- What a push or a write-back carries, as it stood at the first issue: a reissue carries it unchanged (R377). For a line: its bytes, those
of them that are dirty, its poison marks, the blocks with an error (R373), and what its page and its last writer give the copy; for a fold:
the partial. -/
structure Payload where
  data : BitVec 1024
  dirty : BitVec 128
  psn : BitVec 32
  bad : BitVec 4
  region : Byte
  ac : Nat
  pinned : Bool
  writer : Word
  part : Option Partial
  deriving DecidableEq, Repr

/-- A push whose reply its sender still awaits (R376, R377): the sender and the core for which it is made, what it carries, its sequence
number, its way, whether it has been performed, whether its home holds it (R378, R389), and whether its third reissue has timed out. -/
structure PushMsg where
  core : CoreId
  cause : CoreId
  push : Push
  load : Payload
  seq : HWord
  way : Transit
  applied : Bool
  held : Bool
  failed : Bool
  deriving DecidableEq, Repr

/-- A write-back of an L2 copy of host or peer memory, by an eviction or at the end of its lease, whose reply the slice still awaits (R182,
R200, R376): what it carries, whether the copy goes with it, its way, and whether it has been performed. -/
structure Spill where
  line : Nat
  load : Payload
  drop : Bool
  way : Transit
  applied : Bool
  deriving DecidableEq, Repr

/-! ### Reliability and counters of a core -/

/-- A remote operation that waits for its reply (R377): what it was issued for, with its physical address; whether it is idempotent;
its sequence number, tick of the last issue, reissues made, the reply that the home has recorded, whether a reissue is due or the last
has timed out, whether its home holds it for want of a record (R378), and what a device read whose reply was lost has been
answered (R189). -/
structure Remote where
  key : DWord
  pa : Nat
  idem : Bool
  seq : HWord
  issued : DWord
  reissues : Nat
  reply : Option DWord
  due : Bool
  failed : Bool
  long : Bool
  held : Bool
  got : Option (Nat × Bool)
  deriving DecidableEq, Repr

/-- What a part of an instruction, a device read (R189) or one of the writes of a store (R221, R378), has done for good before the instruction
had to wait: which part, and what it read. -/
structure Answer where
  key : Nat
  val : Nat
  bad : Bool
  deriving DecidableEq, Repr

/-- A performance counter (R339). -/
structure PerfCounter where
  evt : BitVec 11
  count : BitVec 48
  ovf : Bool
  deriving DecidableEq, Repr

/-- A ring of records that the device appends to (R353, R379, R388). -/
structure Ring where
  base : DWord
  size : HWord
  ovf : Bool
  head : Word
  tail : Word
  lost : Word
  deriving DecidableEq, Repr

/-- The counter block of a core (R338, R339, R353, R370). -/
structure CounterBlock where
  dupup : Word
  dupdn : Word
  bardup : Word
  pktdrop : Word
  pmen : Byte
  perf : Vector PerfCounter 8
  fq : Ring
  ptrap : Bool
  deriving DecidableEq, Repr

/-- The asynchronous causes that are pending (R345), each with its EINFO; POISON with the stream that met it (R131). -/
structure Pending where
  dieLost : Option DWord
  gangBroken : Option DWord
  protMismatch : Option DWord
  poison : Option (Stream × DWord)
  budget : Bool
  deriving DecidableEq, Repr

/-- What a stream's entry has consumed (R370, R371, R381): the PMASK bits that it has set, those of them that stand in no CONSUMED record
yet, the physical and the virtual address of the first poisoned word of memory that it has met since its last record, and whether the pending
POISON is its own. -/
structure Consumed where
  all : DWord
  new : DWord
  word : Option (Nat × DWord)
  pends : Bool
  deriving DecidableEq, Repr

/-- An entry that has consumed nothing. -/
def Consumed.none : Consumed := { all := 0, new := 0, word := .none, pends := false }

/-- A core. `hasRun` and `prevTenant` describe the core's previous task (R29, R192); `ending` says that `tdone` has
committed (R30); `handlerAborted` that the trap which the steward serves was a handler's, and `returned` counts the packets
at the head of the receive buffer that the abort put back (R361); `lost` is the task that a fenced core has lost (R363, R374); `activity` holds the contexts whose activity bit is set
(R47); `doing` the stream and the address of the posted entry that executes; `poisoned`, by stream, what the head entry
has consumed (R370, R371). `remote` and `posted` hold the outstanding operations of
the control thread and of the posted streams, and `answered` and `replays`, by stream, what an instruction that waits has done once and for
all, the last first, and what of it the instruction has still to take up again (R189, R221, R378); `pktSeq` and `pktSeen` number packets by source (R378); `evictFault` is the fault of
a write-back that an instruction has still to meet (R106); `laneErrors` the protected cells whose next computation mismatches, with
whether the recomputation does too (R372); `unbound` says that the running handler's entry has been removed (R315); `waited`
that an instruction has waited on a queue in the cycle that runs (R339). -/
structure Core where
  pc : DWord
  level : Level
  halted : Bool
  fenced : Bool
  task : Option Task
  lost : Option Task
  ending : Bool
  handlerAborted : Bool
  returned : Nat
  hasRun : Bool
  prevTenant : HWord
  activity : List HWord
  tregs : TaskRegs
  cregs : CoreRegs
  files : Files
  queues : Queues
  streams : Streams
  tables : Tables
  l1 : Tab L1Line
  homes : Tab HomeLine
  partials : Tab Partial
  seq : HWord
  remote : Option Remote
  posted : Tab Remote
  answered : Tab (List Answer)
  replays : Tab (List Answer)
  flits : List Bool
  pktSeq : HWord
  pktSeen : Tab HWord
  evictFault : Option TrapInfo
  laneErrors : List (BitVec 5 × Bool)
  unbound : Bool
  waited : Bool
  doing : Option (Stream × DWord)
  poisoned : Tab Consumed
  ctrs : CounterBlock
  pend : Pending
  deriving DecidableEq, Repr

/-! ### The hub and the package -/

/-- The states of an accepted launch (R37, R43). -/
inductive LaunchState where
  | held | placed | suspending
  deriving DecidableEq, Repr

/-- An accepted launch (R36 to R48): its block as it was read and the block's address, LID, order of acceptance, the
waits found satisfied, since when it is pending (R42), its placed footprint, for each plot its next group and its
running tasks, whether its first gang has started, and the tick of the last clear sample (R47). -/
structure Launch where
  pa : DWord
  block : BitVec 1024
  lid : Word
  accepted : Nat
  state : LaunchState
  satisfied : BitVec 4
  pendingSince : Option DWord
  x0 : Nat
  y0 : Nat
  placedAt : Nat
  nextGroup : Tab Nat
  claimed : Tab Nat
  running : Tab Nat
  started : Bool
  everPlaced : Bool
  clearAt : Option DWord
  deriving DecidableEq, Repr

/-- A registered context (R385), with the mask of dies it has touched (R101). -/
structure Context where
  ctx : HWord
  tenant : HWord
  asid : HWord
  ptroot : DWord
  area : DWord
  rarea : DWord
  dies : BitVec 24
  deriving DecidableEq, Repr

/-- A copy that a carrier has taken (R264 to R268): `serial` tells the copies of the package apart, `level` is the level that posted it (R266),
`ipc` is the address of its `cpost`, `way` its requests' way; `pos` counts the bytes copied so far, `started` says that its claim has been
made (R282), `marks` holds the watched regions written (R295), and `done` that it has ended while its slot is still held (R268)
or a drain may still act on it (R213). -/
structure Copy where
  serial : Nat
  id : DWord
  core : CoreId
  ctx : HWord
  tenant : HWord
  asid : HWord
  ptroot : DWord
  level : Level
  src : DWord
  dst : DWord
  len : Word
  wake : Bool
  claim : Bool
  wroute : DWord
  claimw : DWord
  ticket : DWord
  scope : Scope
  orphan : Bool
  taskid : DWord
  ipc : DWord
  way : Transit
  pos : Nat
  started : Bool
  marks : BitVec 256
  done : Bool
  deriving DecidableEq, Repr

/-- Rows of a wave that travel up a tree to a node (R276): `none` is the hub; `port` is the port of arrival. With `out` set they
leave the hub through fabric port `port` (R390). -/
structure RelayMsg where
  gid : BitVec 12
  ctx : HWord
  tenant : HWord
  wave : HWord
  node : Option CoreId
  port : Nat
  out : Bool
  kind : BitVec 4
  op : BitVec 4
  fmt : BitVec 4
  rows : List Row
  way : Transit
  deriving DecidableEq, Repr

/-- A step of a group's abort on its way out through a fabric port (R284). -/
structure AbortMsg where
  gid : BitVec 12
  ctx : HWord
  tenant : HWord
  port : Nat
  step : AbortStep
  way : Transit
  deriving DecidableEq, Repr

/-- A row or a latch image of a completed wave on its way down to a member (R278). -/
structure DownMsg where
  gid : BitVec 12
  ctx : HWord
  tenant : HWord
  wave : HWord
  dst : CoreId
  index : Nat
  total : Nat
  kind : BitVec 4
  row : Row
  image : BitVec 132096
  imgPsn : BitVec 4096
  way : Transit
  deriving DecidableEq, Repr

/-- What the sender of a drain learns (R179). -/
inductive DrainReply where
  | done | refused | timedOut
  deriving DecidableEq, Repr

/-- A drain on its way to its target (R179). -/
structure DrainMsg where
  src : CoreId
  dst : CoreId
  tag : BitVec 12
  off : DWord
  h : BitVec 2
  ctx : HWord
  tenant : HWord
  hoop : Hoop
  seq : HWord
  reply : Option DrainReply
  way : Transit
  deriving DecidableEq, Repr

/-- What a served operation answered: a value, or the fault that refused it (R333, R378). -/
inductive HomeReply where
  | value (v : DWord)
  | refused (cause : Cause) (einfo : DWord)
  deriving DecidableEq, Repr

/-- A record of a duplicate filter: requester, sequence number and reply, with the tick of the last copy (R378), and the L2 slice that
keeps it, 128 for the hub, or none for a barrier home or a node (R333). -/
structure DupRecord where
  core : CoreId
  home : Option Nat
  seq : HWord
  reply : HomeReply
  tick : DWord
  deriving DecidableEq, Repr

/-- A page access record (R337), with the order in which its slice made it and the page's size in bits. -/
structure PageRecord where
  dev : HWord
  host : HWord
  lastc : HWord
  order : Nat
  bits : Nat
  deriving DecidableEq, Repr

/-- A line that the host holds in its caches (R387), with the bytes it has made dirty, the poison indications that came with it
(R368), the order in which the directory took it, and the size in bits of a page that counts accesses, or 0 (R184). -/
structure HostLine where
  data : BitVec 1024
  dirty : BitVec 128
  psn : BitVec 32
  order : Nat
  ac : Nat
  deriving DecidableEq, Repr

/-- How far a command has come (R385, R389): not served yet; a kill that waits for the cores named; a pre-emption that waits for a
launch; a migration from one page to another, by its next step. -/
inductive JobPhase where
  | queued
  | killing (ctx : HWord) (left : List CoreId)
  | preempting (lid : Word)
  | migrating (src dst step : Nat)
  deriving DecidableEq, Repr

/-- A command in its order of arrival (R384), with its pair, its OP and its argument. -/
structure Job where
  machine : Bool
  op : BitVec 4
  arg : DWord
  phase : JobPhase
  deriving DecidableEq, Repr

/-- A command pair (R384). -/
structure CmdPair where
  arg : DWord
  op : BitVec 4
  busy : Bool
  result : BitVec 4
  deriving DecidableEq, Repr

/-- The READY registers (R384). -/
structure Ready where
  hub : Bool
  md : Byte
  hbm : Word
  clu : DWord
  fab : BitVec 48
  host : BitVec 2
  deriving DecidableEq, Repr

/-- The power registers (R394) and whether the package has power. -/
structure Power where
  on : Bool
  plim : HWord
  pnow : HWord
  clk : BitVec 12
  tmax : Byte
  deriving DecidableEq, Repr

/-- The port by which a request left the package (R386, R391). -/
inductive Port where
  | host (n : Nat)
  | fabric (n : Nat)
  deriving DecidableEq, Repr

/-- The registers of the hub (R384, R388, R391, R392, R394) and its tables and counters (R289, R294, R323, R336). -/
structure HubRegs where
  ready : Ready
  cmdHost : CmdPair
  cmdMach : CmdPair
  er : Ring
  cerec : Bool
  corrected : Vector Word 4
  mn : Ring
  dthr : HWord
  hthr : HWord
  mnEn : Bool
  hdmbase : DWord
  peers : Tab DWord
  power : Power
  regions : Tab DWord
  events : Tab Word
  hubTicket : DWord
  dieTickets : Tab DWord
  lcount : DWord
  fwVersion : Word
  fwMinimum : Word
  spdm : List DWord
  deriving DecidableEq, Repr

/-- The concierge, the engines and what is in flight between the cores. `notices` and `errQueue` hold the notices and the error
records that homes have made and the hub has not yet appended (R380, R388); `hbmErrors` the 32-byte blocks of HBM whose error no
request has met (R369); `msix` counts the signals of each MSI-X vector (R386); `port` is the port of the last request that left the
package; `outsideRead` is the line, with its poison indications, that the last read of the host or a peer was given (R368). `outRows` are the rows of collectives that have left through a fabric port (R390), `aborts` the steps of aborts that are to leave through one and `outAborts` those that have (R284). `lockWaits` are the requests of locks,
by word, that wait at a slice for a queue (R197). `jobs` are the
commands in service and in wait (R384), `moving` the page that a migration moves with whether a request has come late, and
`heldAccesses` the outside accesses that it holds (R389); `tlb` is the translation cache of the hub's engines (R291); `flits` the
fates of the next flits of what the network carries, and `fifoWay` the way of the concierge's read (R376). -/
structure Hub where
  regs : HubRegs
  fifo : List DWord
  fifoHeld : List DWord
  lastLid : Word
  accepts : Nat
  places : Nat
  launches : List Launch
  contexts : List Context
  trees : List TreeEntry
  copies : List Copy
  net : List Packet
  pushes : List PushMsg
  spills : List Spill
  relay : List RelayMsg
  down : List DownMsg
  drains : List DrainMsg
  qlocks : Tab (List (CoreId × Byte))
  lockWaits : List (Nat × CoreId)
  owners : List (Nat × CoreId)
  dups : List DupRecord
  partials : List (Nat × CoreId × Partial)
  pages : Tab PageRecord
  notices : List (BitVec 256)
  errQueue : List (BitVec 512)
  hbmErrors : List Nat
  hostLines : Tab HostLine
  lostDies : BitVec 24
  msix : Vector Nat 4
  port : Option Port
  outsideRead : Option (BitVec 1024 × BitVec 32)
  jobs : List Job
  outRows : List RelayMsg
  aborts : List AbortMsg
  outAborts : List AbortMsg
  moving : Option (Nat × Bool)
  heldAccesses : List (Bool × OutsideAccess)
  tlb : List TlbEntry
  flits : List Bool
  fifoWay : Transit
  deriving DecidableEq, Repr

/-- The backing stores by 52-bit physical address (R187): the bytes of HBM, core SRAM, host and peer memory in
canonical form, the poisoned words of HBM and scratchpads (R368) as rising word numbers, and by line the words of HBM that have been
written in full since power-up (R397). -/
structure Store where
  bytes : List Host.Cell
  psn : List Nat
  defs : Tab Word
  deriving DecidableEq, Repr

/-- What the next step does when the schedule names it (log 4): a core's control thread, the head of a core's
vector or matrix queue, or an event of the opcode table. -/
inductive Slot where
  | core (c : CoreId)
  | vector (c : CoreId)
  | matrix (c : CoreId)
  | event (i : Instr)
  deriving DecidableEq, Repr

/-- The package. `time` is the timebase (R98) and `phase` what has passed of the next tick, in units of 1 / CLK ns (log 3); `cur` is the core
that steps when `agenda`, the schedule and the outside world's inputs, is empty (log 4); `free` counts the uses of
open values (log 9); `stamp` orders the records of homes (R337, R387). -/
structure State where
  cores : Tab Core
  hub : Hub
  l2 : Tab L2Line
  store : Store
  time : DWord
  phase : Nat
  timeHalted : Bool
  cur : CoreId
  agenda : List Slot
  free : Nat
  stamp : Nat
  deriving DecidableEq, Repr

/-! ### Why a step stops -/

/-- The faults of the model. -/
inductive Fault where
  /-- An event names a core, a die, a place or a size that the package does not have; raised by the events' meanings. Safe: nothing
  is there to act. -/
  | badEvent
  deriving DecidableEq, Repr

/-- The refusals of the model. -/
inductive Refusal where
  /-- An instruction that has no meaning yet, by its mnemonic; raised by the dispatch alone. Safe. -/
  | notModelled (mnemonic : String)
  deriving DecidableEq, Repr

/-! ### Reset -/

/-- A hoop after reset: every element +0.0 (R92). -/
def Hoop.zero : Hoop := { rows := Vector.replicate 64 0, psn := Vector.replicate 64 0 }

/-- A latch after reset: EMPTY and zero (R92). -/
def Latch.blank : Latch := { state := .empty, scale := 0, hdr := 0, tile := 0, psn := 0, stamp := 0 }

/-- R98; TENANT 0 also stands for a core that has run no task (R192). -/
def TaskRegs.reset : TaskRegs :=
  { vl := 64, ksel := 0, rnd := 0, prot := 0, pmask := 0, egdone := 0, foot := 0, group := 0, taskid := 0, budget := 0,
    instret := 0, rbase := 0, epc := 0, ecause := 0, einfo := 0, tdies := 0, tenant := 0, asid := 0, ptroot := 0,
    bnda := 16, bndb := 32, bndc := 192 }

/-- R98. -/
def CoreRegs.reset : CoreRegs :=
  { cycle := 0, tvec := 0, lease1 := 65536, lease2 := 1048576, emerg := 0, mtvec := 0, mepc := 0, mcause := 0, minfo := 0 }

/-- R92: scalars 0, cells 0 with tag NONE, scales 1.0, k0 all ones and the other masks 0, hoops +0.0, latches EMPTY. -/
def Files.reset : Files :=
  { s := Vector.replicate 32 0
    x := Vector.replicate 64 { row := Row.blank, res := .zero }
    sc := Vector.replicate 256 0x3F800000
    scPsn := 0
    scRes := Vector.replicate 4 .zero
    k := (Vector.replicate 8 0).set 0 (BitVec.allOnes 64)
    h := Vector.replicate 4 Hoop.zero
    l := Vector.replicate 2 Latch.blank
    pins := Vector.replicate 64 0
    pinTags := Vector.replicate 64 0 }

/-- R249: every queue empty. -/
def Queues.reset : Queues :=
  { sq := Vector.replicate 8 [], rq := Vector.replicate 8 [], inq := Vector.replicate 8 [], outPending := [], recv := [],
    send := [], popped := [], results := [] }

/-- No lock request. -/
def LockWait.none : LockWait := { queued := false, granted := false, word := 0 }

/-- Nothing kept. -/
def Parked.none : Parked := { lrunPc := 0, bufLen := 0, pinTags := Vector.replicate 64 0, lock := LockWait.none, gone := 0 }

/-- No entry posted; the first posting number is 1 (R349). -/
def Streams.reset : Streams :=
  { vq := [], mq := [], nextSeq := 1, lazyV := false, lazyM := false, parkedV := [], parkedM := [], stewardV := [], stewardM := [], stewardRun := none, parkedStop := false, lrunPc := 0, bufLen := 0
    rep := { body := [], levels := Vector.replicate 6 { count := 0, os := 0, as := 0 }, run := none }
    cs := Vector.replicate 4 { head := 0, count := 0, tag := 0 }
    tx := { isOpen := false, desc := 0, pairs := [], bad := false, request := none }
    copyId := 0, arrived := none, barWait := .idle, qlockQueued := false, qlockGranted := false, qlockRefused := none
    qlockWord := 0, parked := Parked.none, stewardLock := LockWait.none
    deferred := [], parkedSync := [], stewardSync := [] }

/-- R289, R324: tables empty, barriers FREE. -/
def Tables.reset : Tables :=
  { book := Vector.replicate 32 none, lodges := [], tlb := [], route := [], trees := [], slots := [], barriers := [],
    ready := [], decls := [], marks := 0, versions := [] }

/-- A ring that software has not set up (R353, R379). -/
def Ring.reset : Ring := { base := 0, size := 0, ovf := false, head := 0, tail := 0, lost := 0 }

/-- R338, R339, R353, R370. -/
def CounterBlock.reset : CounterBlock :=
  { dupup := 0, dupdn := 0, bardup := 0, pktdrop := 0, pmen := 0
    perf := Vector.replicate 8 { evt := 0, count := 0, ovf := false }, fq := Ring.reset, ptrap := false }

/-- No cause pending. -/
def Pending.none : Pending :=
  { dieLost := Option.none, gangBroken := Option.none, protMismatch := Option.none, poison := Option.none, budget := false }

/-- A core after reset (R92, R98): no task, at machine level with PC 0 (log 2). -/
def Core.reset : Core :=
  { pc := 0, level := .machine, halted := false, fenced := false, task := none, lost := none, ending := false, handlerAborted := false, returned := 0
    hasRun := false, prevTenant := 0, activity := [], tregs := TaskRegs.reset, cregs := CoreRegs.reset, files := Files.reset
    queues := Queues.reset, streams := Streams.reset, tables := Tables.reset, l1 := [], homes := [], partials := [], seq := 0
    remote := none, posted := [], answered := [], replays := [], flits := [], pktSeq := 0, pktSeen := [], evictFault := none, laneErrors := [], unbound := false, waited := false
    doing := none, poisoned := [], ctrs := CounterBlock.reset, pend := Pending.none }

/-- R384, R379, R388, R391, R394, R323: the hub's registers after reset. -/
def HubRegs.reset : HubRegs :=
  { ready := { hub := false, md := 0, hbm := 0, clu := 0, fab := 0, host := 0 }
    cmdHost := { arg := 0, op := 0, busy := false, result := 0 }
    cmdMach := { arg := 0, op := 0, busy := false, result := 0 }
    er := Ring.reset, cerec := false, corrected := Vector.replicate 4 0, mn := Ring.reset, dthr := 0, hthr := 0, mnEn := false
    hdmbase := 0, peers := [], power := { on := true, plim := 15000, pnow := 0, clk := 2000, tmax := 0 }
    regions := [], events := [], hubTicket := 0, dieTickets := [], lcount := 0, fwVersion := 0, fwMinimum := 0, spdm := [] }

/-- The hub after reset: nothing launched, registered or in flight. -/
def Hub.reset : Hub :=
  { regs := HubRegs.reset, fifo := [], fifoHeld := [], lastLid := 0, accepts := 0, places := 0, launches := [], contexts := []
    trees := [], copies := [], net := [], pushes := [], spills := [], relay := [], down := [], drains := [], qlocks := [], lockWaits := [], owners := [], dups := []
    partials := [], pages := [], notices := [], errQueue := [], hbmErrors := [], hostLines := [], lostDies := 0, msix := Vector.replicate 4 0, port := none, outsideRead := none
    outRows := [], aborts := [], outAborts := [], jobs := [], moving := none, heldAccesses := [], tlb := [], flits := [], fifoWay := Transit.first 0 }

/-- The package right after reset: every core and the hub at their reset values, no copy of any line, memory with nothing
listed, no schedule. -/
def State.reset : State :=
  { cores := [], hub := Hub.reset, l2 := [], store := { bytes := [], psn := [], defs := [] }, time := 0, phase := 0
    timeHalted := false, cur := 0, agenda := [], free := 0, stamp := 0 }

end Sys2Proof.Machine
end

