-- ==== Sys2Proof/Machine/Memory.lean ====
section
/-!
DEFINITION. The stores behind the copies, and the copies of lines: byte memory in canonical form, the L2 homes, what the engines
of the hub wait for, pinned lines, commutative partials, locks at their homes, and what a home serves (R182, R187, R196 to R205, R235,
R368, R373).
-/

namespace Sys2Proof.Machine

/-! ### Byte memory -/

/-- What a byte that nothing has written reads as (log 1). -/
def unlisted : Byte := 0

/-- The canonical form: addresses rise strictly and no entry equals what an unlisted address reads as. -/
def Memory.wf : List Host.Cell → Bool
  | [] => true
  | [p] => p.2 != unlisted
  | p :: q :: r => p.2 != unlisted && p.1 < q.1 && Memory.wf (q :: r)

/-- The value of `n` bytes from `a`, little-endian. -/
def memLoad (m : List Host.Cell) (a n : Nat) : Nat :=
  m.foldl (fun acc p => if a ≤ p.1 ∧ p.1 < a + n then acc ||| (p.2.toNat <<< (8 * (p.1 - a))) else acc) 0

/-- The cells of `n` bytes of a number from `a`. -/
def cellsOf : Nat → Nat → Nat → List Host.Cell
  | _, 0, _ => []
  | a, n + 1, v =>
    let b : Byte := BitVec.ofNat 8 v
    if b = unlisted then cellsOf (a + 1) n (v / 256) else (a, b) :: cellsOf (a + 1) n (v / 256)

/-- Memory with `n` bytes from `a` replaced by a number, little-endian. -/
def memStore (m : List Host.Cell) (a n v : Nat) : List Host.Cell :=
  m.filter (fun p => p.1 < a) ++ cellsOf a n v ++ m.filter (fun p => a + n ≤ p.1)

/-- One byte. -/
def memByte (m : List Host.Cell) (a : Nat) : Byte := BitVec.ofNat 8 (memLoad m a 1)

/-- Poison marks with the words of a range set as the bits of a number say (R368). -/
def psnStore (m : List Nat) (w n bits : Nat) : List Nat :=
  m.filter (fun p => p < w) ++ (List.range n).filterMap (fun i => if bits.testBit i then some (w + i) else none)
    ++ m.filter (fun p => w + n ≤ p)

/-- The marks of a range of words, as the bits of a number. -/
def psnLoad (m : List Nat) (w n : Nat) : Nat :=
  m.foldl (fun acc p => if w ≤ p ∧ p < w + n then acc ||| (1 <<< (p - w)) else acc) 0

/-! ### Apertures and places of lines (R187, R196) -/

/-- PA[51:48] (R187). -/
def aperture (pa : Nat) : Nat := fieldOf pa 51 48

/-- The line of a physical address; a line is 128 bytes (R4). -/
def lineOf (pa : Nat) : Nat := pa / 128

/-- Whether a line belongs to host or peer memory (R205). -/
def isForeign (line : Nat) : Bool := aperture (128 * line) == 3 || 8 ≤ aperture (128 * line)

/-- The stack t of a line (R196). -/
def stackOf (line : Nat) : Nat :=
  let pa := 128 * line
  fieldOf pa 16 12 ^^^ fieldOf pa 21 17

/-- The home slice of a line (R196). -/
def sliceOf (line : Nat) : Nat :=
  let t := stackOf line
  16 * (t / 4) + 4 * (t % 4) + fieldOf (128 * line) 9 8

/-- The memory die of a line's slice (R196). -/
def mdOf (line : Nat) : Nat := sliceOf line / 16

/-- X and Y of a core (R187). -/
def coreX (c : CoreId) : Nat := c.toNat % 48
/-- Y of a core (R187). -/
def coreY (c : CoreId) : Nat := c.toNat / 48
/-- The core at (x, y) (R187). -/
def coreAt (x y : Nat) : CoreId := BitVec.ofNat 12 (x + 48 * y)
/-- The compute die of a core (R3). -/
def dieOf (c : CoreId) : Nat := 4 * (coreY c / 16) + coreX c / 12
/-- R3: the compute dies that traffic between two cores passes: those of the sender's row, then those of the receiver's column (log 37). -/
def wayDies (a b : CoreId) : List Nat :=
  let on (p q n : Nat) : Bool := min p q ≤ n && n ≤ max p q
  ((List.range 4).filter (on (coreX a / 12) (coreX b / 12))).map (fun x => 4 * (coreY a / 16) + x) ++
    ((List.range 4).filter (on (coreY a / 16) (coreY b / 16))).map fun y => 4 * y + coreX b / 12
/-- The cluster of a core, numbered (x/6) + 8(y/8) as in the READY register (R3, R384). -/
def clusterOf (c : CoreId) : Nat := coreX c / 6 + 8 * (coreY c / 8)
/-- The rank of a core in its cluster (R191). -/
def clusterRank (c : CoreId) : Nat := coreX c % 6 + 6 * (coreY c % 8)
/-- The core of cluster rank `r` in the cluster of `c` (R191, R195). -/
def clusterMember (c : CoreId) (r : Nat) : CoreId :=
  coreAt (6 * (coreX c / 6) + r % 6) (8 * (coreY c / 8) + r / 6)
/-- The cluster home of a line for a requester (R195). -/
def clusterHome (c : CoreId) (line : Nat) : CoreId := clusterMember c (line % 48)

/-! ### Cores -/

/-- A core of the package; an unlisted core is as reset left it. -/
def getCore (s : State) (c : CoreId) : Core := (s.cores.find c.toNat).getD Core.reset

/-- The package with one core replaced. -/
def setCore (s : State) (c : CoreId) (k : Core) : State := { s with cores := s.cores.put c.toNat k }

/-- The package with one core changed. -/
def updCore (s : State) (c : CoreId) (f : Core → Core) : State := setCore s c (f (getCore s c))

/-! ### The store by lines -/

/-- New bytes over old ones under a byte mask. -/
def mergeBytes (old new : BitVec 1024) (mask : BitVec 128) : BitVec 1024 :=
  let m := lineMask mask
  (old &&& ~~~m) ||| (new &&& m)

/-- R397: the words of a line that have a defined value: of HBM only those that a write has covered in full since power-up. -/
def definedWords (s : State) (line : Nat) : Word :=
  if aperture (128 * line) = 0 then (s.store.defs.find line).getD 0 else BitVec.allOnes 32

/-- R397: a line with free values of this moment (log 9) in the words outside `keep`. -/
def blurWords (s : State) (keep : Word) (d : BitVec 1024) : BitVec 1024 :=
  if keep = BitVec.allOnes 32 then d
  else
    mergeBytes (BitVec.ofNat 1024 (pack 32 ((List.range 32).map fun i => (Config.freeWord (s.free + i)).toNat))) d
      (BitVec.ofNat 128 (spread 4 32 keep.toNat))

/-- The bytes and marks that the memory behind the homes holds of a line. -/
def storeLine (s : State) (line : Nat) : BitVec 1024 × BitVec 32 :=
  (blurWords s (definedWords s line) (BitVec.ofNat 1024 (memLoad s.store.bytes (128 * line) 128)),
    BitVec.ofNat 32 (psnLoad s.store.psn (32 * line) 32))

/-- The words of a line that a byte mask covers in full. -/
def fullWords (mask : BitVec 128) : BitVec 32 :=
  BitVec.ofNat 32 ((List.range 32).foldl (fun a i => if fieldOf mask.toNat (4 * i + 3) (4 * i) = 15 then a ||| (1 <<< i) else a) 0)

/-- The words of a line that a byte mask touches. -/
def touchedWords (mask : BitVec 128) : BitVec 32 :=
  BitVec.ofNat 32 ((List.range 32).foldl (fun a i => if fieldOf mask.toNat (4 * i + 3) (4 * i) = 0 then a else a ||| (1 <<< i)) 0)

/-- The store with a line's bytes under a mask, and its marks, replaced; the words that the mask covers in full are defined from now
(R397). -/
def putStoreLine (s : State) (line : Nat) (d : BitVec 1024) (mask : BitVec 128) (p : BitVec 32) : State :=
  let old := BitVec.ofNat 1024 (memLoad s.store.bytes (128 * line) 128)
  let defs := if aperture (128 * line) = 0 ∧ fullWords mask ≠ 0 then s.store.defs.put line (definedWords s line ||| fullWords mask) else s.store.defs
  { s with store := { bytes := memStore s.store.bytes (128 * line) 128 (mergeBytes old d mask).toNat
                      psn := psnStore s.store.psn (32 * line) 32 p.toNat
                      defs := defs } }

/-- Marks after a write (R368): a poisoned write sets, a clean write of all four bytes clears. -/
def mergePsn (old new : BitVec 32) (mask : BitVec 128) : BitVec 32 :=
  (old &&& ~~~(fullWords mask)) ||| (new &&& touchedWords mask)

/-! ### Messages between nodes (R376, R377) -/

/-- R376: the time-out of a request in ticks. -/
def timeoutTicks (long : Bool) : Nat := if long then 1048576 else 16384

/-- What a message's turn is: it waits for its time-out; its third reissue has timed out; or it is sent. -/
inductive Passage where
  | waits | failed | goes
  deriving DecidableEq, Repr

/-- R376, R377: the turn of a message on its way. -/
def Transit.passage (w : Transit) (now : DWord) (long : Bool) : Passage :=
  if w.tries = 0 then .goes
  else if (now - w.sent).toNat < timeoutTicks long then .waits
  else if 3 < w.tries then .failed
  else .goes

/-- A message that was sent now and has had no answer. -/
def Transit.lost (w : Transit) (now : DWord) : Transit := { sent := now, tries := w.tries + 1 }

/-- The fate of the next flit that the network carries: good unless the outside has dropped it (R376). -/
def hubFlit (s : State) : State × Bool :=
  match s.hub.flits with
  | [] => (s, true)
  | f :: r => ({ s with hub := { s.hub with flits := r } }, f)

/-! ### Counting and homes -/

/-- Who accesses a home (R206, R337): a core; an engine of the hub, with the context (bits 15:0) and tenant that it acts for and the
address of the instruction that posted its work; the host or a peer. -/
inductive Who where
  | core (c : CoreId)
  | engine (owner : Word) (ipc : DWord)
  | outside
  deriving DecidableEq, Repr

/-- An engine that acts for no context. -/
def Who.hub : Who := .engine 0 0

/-! ### Error records (R373, R380 to R382) -/

/-- The (x, y) word of a core: X in bits 7:0, Y in bits 15:8. -/
def coordBits (c : CoreId) : Nat := coreX c + 256 * coreY c

/-- The fields of an error record (R381). -/
structure ErrRec where
  type : Nat
  uc : Bool
  coord : Nat
  ctx : HWord
  tenant : HWord
  pa : Nat
  va : DWord
  det0 : Nat
  det1 : Nat

/-- An error record with nothing but its type and its detail fields. -/
def plainErr (type : Nat) (uc : Bool) (coord : Nat) (det0 det1 : Nat) : ErrRec :=
  { type := type, uc := uc, coord := coord, ctx := 0, tenant := 0, pa := 0, va := 0, det0 := det0, det1 := det1 }

/-- R381: a record's 64 bytes as a number. -/
def ErrRec.image (e : ErrRec) (time : DWord) : Nat :=
  e.type + (if e.uc then 256 else 0) + e.coord * 2 ^ 32 + (e.ctx.toNat + e.tenant.toNat * 2 ^ 16) * 2 ^ 64
    + e.pa % 2 ^ 52 * 2 ^ 128 + e.va.toNat * 2 ^ 192 + time.toNat * 2 ^ 256 + e.det0 % 2 ^ 64 * 2 ^ 320
    + e.det1 % 2 ^ 64 * 2 ^ 384

/-- The context that is charged for what a core does, and its tenant (R381). -/
def ctxOf (k : Core) : HWord := match k.task with | some t => t.ctx | none => 0

/-- The context and tenant that what a core does is charged to, in bits 15:0 and 31:16 (R373, R381). -/
def ownerOf (k : Core) : Word := if k.task.isSome then k.tregs.tenant ++ ctxOf k else 0

/-- A record of a core that is charged to a context and tenant. -/
def ownedErr (owner : Word) (type : Nat) (uc : Bool) (coord pa : Nat) (va : DWord) (det0 det1 : Nat) : ErrRec :=
  { type := type, uc := uc, coord := coord, ctx := owner.setWidth 16, tenant := slice owner 16 16, pa := pa, va := va, det0 := det0, det1 := det1 }

/-- A record charged to a core's task (R371, R377). -/
def coreErr (s : State) (c : CoreId) (type : Nat) (uc : Bool) (pa : Nat) (va : DWord) (det0 det1 : Nat) : ErrRec :=
  ownedErr (ownerOf (getCore s c)) type uc (coordBits c) pa va det0 det1

/-- The address of the instruction that a core executes: of the posted entry that runs, or of the control thread. -/
def whereAt (k : Core) : DWord := match k.doing with | some (_, a) => a | none => k.pc

/-- An error record that a home has made, which the hub appends next (R380). -/
def queueErr (s : State) (e : ErrRec) : State :=
  { s with hub := { s.hub with errQueue := s.hub.errQueue ++ [BitVec.ofNat 512 (e.image s.time)] } }

/-- The words of the 32-byte blocks of a line. -/
def blockWords (b : BitVec 4) : BitVec 32 := BitVec.ofNat 32 (spread 8 4 b.toNat)

/-- The bytes of the 32-byte blocks of a line. -/
def blockBytes (b : BitVec 4) : BitVec 128 := BitVec.ofNat 128 (spread 32 4 b.toNat)

/-- The blocks of a line that a byte mask touches. -/
def touchedBlocks (mask : BitVec 128) : BitVec 4 :=
  BitVec.ofNat 4 (pack 1 ((List.range 4).map fun i => if (slice mask (32 * i) 32 : Word) = 0 then 0 else 1))

/-- The blocks of a line that a byte mask covers in full. -/
def fullBlocks (mask : BitVec 128) : BitVec 4 :=
  BitVec.ofNat 4 (pack 1 ((List.range 4).map fun i => if (slice mask (32 * i) 32 : Word) = BitVec.allOnes 32 then 1 else 0))

/-- The bytes that a copy's push carries: its dirty bytes, and every byte of a dirty block with an error (R373). -/
def pushMask (dirty : BitVec 128) (bad : BitVec 4) : BitVec 128 := dirty ||| blockBytes (bad &&& touchedBlocks dirty)

/-- The poison marks that a copy's push carries (R373). -/
def pushPsn (psn : BitVec 32) (dirty : BitVec 128) (bad : BitVec 4) : BitVec 32 := psn ||| blockWords (bad &&& touchedBlocks dirty)

/-- The bytes of the words of a line that a mask names. -/
def wordBytes (w : BitVec 32) : BitVec 128 := BitVec.ofNat 128 (spread 4 32 w.toNat)

/-- The bytes at which two lines are equal. -/
def sameBytes (a b : BitVec 1024) : BitVec 128 :=
  if a = b then BitVec.allOnes 128
  else BitVec.ofNat 128 (pack 1 ((List.range 128).map fun i => if (slice a (8 * i) 8 : Byte) = slice b (8 * i) 8 then 1 else 0))

/-- Nothing carried. -/
def Payload.none : Payload :=
  { data := 0, dirty := 0, psn := 0, bad := 0, region := 0, ac := 0, pinned := false, writer := 0, part := Option.none }

/-- The dirty bytes that a copy still has once what a push of it carried has been performed: those written since (R377). -/
def Payload.since (p : Payload) (data : BitVec 1024) (dirty : BitVec 128) (psn : BitVec 32) : BitVec 128 :=
  dirty &&& ~~~(p.dirty &&& sameBytes data p.data &&& wordBytes (~~~(psn ^^^ p.psn)))

/-- The byte mask and the poison marks with which what a push carries is written. -/
def Payload.mask (p : Payload) : BitVec 128 := pushMask p.dirty p.bad
/-- The poison marks that go with it. -/
def Payload.marks (p : Payload) : BitVec 32 := pushPsn p.psn p.dirty p.bad

/-- R373: the EVICT records of the blocks of a copy in which a write-back or push finds an error. -/
def evictErrors (s : State) (coord line : Nat) (bad : BitVec 4) (dirty : BitVec 128) (writer : Word) : State :=
  if bad = 0 then s
  else
    (List.range 4).foldl (fun s i =>
      let m := (slice dirty (32 * i) 32 : Word).toNat
      if bitAt bad i then queueErr s (ownedErr (if m = 0 then 0 else writer) 2 (m ≠ 0) coord (128 * line + 32 * i) 0 m 0) else s) s

/-! ### Ports (R386, R391) -/

/-- The set bits of a number below a bound, in ascending order. -/
def setBits (n v : Nat) : List Nat := (List.range n).filter fun i => v.testBit i

/-- R391: the fabric port of a request to a peer line: the k-th of the entry's ports, k = (L / 128) mod their number, where L is the
address in its peer, PA[41:0] (R187). -/
def peerPort (ports line : Nat) : Option Nat :=
  let l := setBits 48 ports
  if l.isEmpty then none else l[line % 2 ^ 35 % l.length]?

/-- R386: the host port of a request for host memory: PA[8]. -/
def hostPort (line : Nat) : Nat := fieldOf (128 * line) 8 8

/-- The entry of the peer that a line belongs to. -/
def peerEntry (s : State) (line : Nat) : DWord := (s.hub.regs.peers.find (fieldOf (128 * line) 50 42)).getD 0

/-- R391: whether a peer's entry is valid and one of its ports is ready; other apertures pass. -/
def peerReady (s : State) (line : Nat) : Bool :=
  if 8 ≤ aperture (128 * line) then bitAt (peerEntry s line) 63 && ((peerEntry s line).toNat &&& s.hub.regs.ready.fab.toNat) != 0 else true

/-- R386, R391: a request that leaves the package, by the port that it takes: host port n, or fabric port n. -/
def notePort (s : State) (line : Nat) : State :=
  if aperture (128 * line) = 3 then { s with hub := { s.hub with port := some (.host (hostPort line)) } }
  else if 8 ≤ aperture (128 * line) then
    { s with hub := { s.hub with port := (peerPort (fieldOf (peerEntry s line).toNat 47 0) line).map .fabric } }
  else s

/-! ### L2 homes and page records -/

/-- The first byte of the page of 2^`bits` bytes that a line lies in. -/
def pageBase (bits line : Nat) : Nat := 128 * line / 2 ^ bits * 2 ^ bits

/-- The key of a page access record: the slice and the page, by the size in bits that its leaf gives it (R183, R337). -/
def pageKey (bits line : Nat) : Nat := pageBase bits line / 65536 * 128 + sliceOf line

/-- A migration notice of a page's record (R388): kind, page, counts and tick. -/
def noticeImage (kind pa : Nat) (r : PageRecord) (time : DWord) : BitVec 256 :=
  BitVec.ofNat 256 (kind + pa * 2 ^ 64 + (r.dev.toNat + r.host.toNat * 2 ^ 16 + r.lastc.toNat * 2 ^ 32) * 2 ^ 128 + time.toNat * 2 ^ 192)

/-- R388: the kind of notice that a record calls for: 1 where a host page's DEV reaches DTHR, 2 where an HBM page's HOST
reaches HTHR. -/
def noticeKind (h : HubRegs) (line : Nat) (r : PageRecord) : Option Nat :=
  if !h.mnEn then none
  else if aperture (128 * line) == 3 && h.dthr != 0 && h.dthr.toNat ≤ r.dev.toNat then some 1
  else if aperture (128 * line) == 0 && h.hthr != 0 && h.hthr.toNat ≤ r.host.toNat then some 2
  else none

/-- The oldest of a list of page records. -/
def oldestRecord : List (Nat × PageRecord) → Option (Nat × PageRecord)
  | [] => none
  | e :: r => match oldestRecord r with
    | some f => if f.2.order < e.2.order then some f else some e
    | none => some e

/-- R337: the records that a slice holds at most. -/
def recordQuota : Nat := 8192

/-- R337: a slice whose records are full reports its oldest and gives up its place. The report is a notice, where notices are on, of
the kind that the record's page calls for (log 47). -/
def roomForRecord (s : State) (bits line : Nat) : State :=
  if s.hub.pages.length < recordQuota || (s.hub.pages.find (pageKey bits line)).isSome then s
  else
    let mine := s.hub.pages.filter fun e => e.1 % 128 == sliceOf line
    if mine.length < recordQuota then s
    else match oldestRecord mine with
      | some e =>
        let page := e.1 / 128 * 65536
        { s with hub := { s.hub with
            pages := s.hub.pages.del e.1
            notices := if s.hub.regs.mnEn then s.hub.notices ++ [noticeImage (if aperture page = 3 then 1 else 2) page e.2 s.time] else s.hub.notices } }
      | none => s

/-- R337: an access at a home to a page with AC, of 2^`ac` bytes, advances the page's record there; at a threshold a notice is due and
the counts restart (R388). A page without AC has `ac` 0. -/
def countPage (s : State) (who : Who) (ac line : Nat) : State :=
  if ac = 0 then s
  else
    let s := roomForRecord s ac line
    let (s, r) := match s.hub.pages.find (pageKey ac line) with
      | some r => (s, r)
      | none => ({ s with stamp := s.stamp + 1 }, { dev := 0, host := 0, lastc := 0, order := s.stamp, bits := ac })
    let r := match who with
      | .core c => { r with dev := satInc16 r.dev, lastc := c.setWidth 16 }
      | .engine _ _ => { r with dev := satInc16 r.dev, lastc := 0xFFFF }
      | .outside => { r with host := satInc16 r.host }
    match noticeKind s.hub.regs line r with
    | some kind =>
      { s with hub := { s.hub with
          pages := s.hub.pages.put (pageKey ac line) { r with dev := 0, host := 0 }
          notices := s.hub.notices ++ [noticeImage kind (pageBase ac line) r s.time] } }
    | none => { s with hub := { s.hub with pages := s.hub.pages.put (pageKey ac line) r } }

/-- The copy that a home serves: the L2 copy if there is one, else the memory behind it. -/
def homeLine (s : State) (line : Nat) : BitVec 1024 × BitVec 32 :=
  match s.l2.find line with
  | some l => (blurWords s (definedWords s line ||| fullWords l.dirty) l.data, l.psn)
  | none => storeLine s line

/-- The L2 copy of a line as a home makes it at a fill (R200 bounds its age by LEASE2 of the filler). -/
def newL2 (s : State) (who : Who) (line : Nat) (region : Byte) : L2Line :=
  let (d, p) := storeLine s line
  { data := d, dirty := 0, psn := p, region := region, filled := s.time
    filler := match who with | .core c => some c | _ => none
    lease := match who with | .core c => (getCore s c).cregs.lease2 | _ => 1048576
    pinned := false, writer := 0, bad := 0 }

/-- What a write-back of an L2 copy carries. -/
def L2Line.load (l : L2Line) : Payload :=
  { data := l.data, dirty := l.dirty, psn := l.psn, bad := l.bad, region := l.region, ac := 0, pinned := l.pinned, writer := l.writer
    part := Option.none }

/-- What a write-back carries reaches the memory behind its line, by the port of the line; the L2 copy keeps as dirty what has been written
since. A block with an error is read from the memory again (R373). -/
def applyBack (s : State) (line : Nat) (p : Payload) : State :=
  let s := if p.dirty = 0 then s else notePort s line
  let (d, q) := storeLine s line
  let d := mergeBytes d p.data p.mask
  let q := mergePsn q p.marks p.mask
  let s := putStoreLine (evictErrors s 0xFFFF line p.bad p.dirty p.writer) line d p.mask q
  match s.l2.find line with
  | some l =>
    let k := p.since l.data l.dirty l.psn
    let l' : L2Line := if p.bad = 0 then { l with dirty := k } else { l with data := mergeBytes d l.data k, psn := mergePsn q l.psn k, dirty := k, bad := 0 }
    { s with l2 := s.l2.put line l' }
  | none => s

/-- A clean L2 copy given up. -/
def dropL2 (s : State) (line : Nat) : State :=
  match s.l2.find line with
  | some l => if l.dirty = 0 then { s with l2 := s.l2.del line } else s
  | none => s

/-- An L2 copy's dirty bytes written back to the memory behind it, which no link loses (log 10); a write-back of the line that awaits its
reply has nothing more to perform. A peer that is not ready takes none, and the bytes stay (R391). -/
def writeBackL2 (s : State) (line : Nat) : State :=
  match s.l2.find line with
  | some l =>
    if l.dirty ≠ 0 ∧ !peerReady s line then s
    else
      applyBack { s with hub := { s.hub with spills := s.hub.spills.map fun m => if m.line = line then { m with applied := true } else m } }
        line l.load
  | none => s

/-- The same, and the copy is discarded. -/
def evictL2 (s : State) (line : Nat) : State := dropL2 (writeBackL2 s line) line

/-- Whether a write-back of an L2 copy has been sent and has not reached its memory. -/
def spillOut (s : State) (line : Nat) : Bool := s.hub.spills.any fun m => m.line == line && !m.applied

/-- The reply of a write-back that has been performed crosses, or is lost. -/
def replySpill (s : State) (m : Spill) : State :=
  let (s, ok) := hubFlit s
  if ok then s else { s with hub := { s.hub with spills := s.hub.spills ++ [{ m with applied := true, way := m.way.lost s.time }] } }

/-- One issue of a write-back of an L2 copy (R376): its request crosses, and it is performed once, or is lost. -/
def issueSpill (s : State) (m : Spill) : State :=
  let (s, ok) := hubFlit s
  if !ok then { s with hub := { s.hub with spills := s.hub.spills ++ [{ m with way := m.way.lost s.time }] } }
  else if m.applied then replySpill s m
  else
    let s := applyBack s m.line m.load
    replySpill (if m.drop then dropL2 s m.line else s) m

/-- R376, R377: a write-back that awaits its reply moved on; one whose third reissue has timed out leaves a TIMEOUT record, and its bytes stay
dirty in L2 (log 10). -/
def moveSpill (s : State) (m : Spill) : State :=
  match m.way.passage s.time true with
  | .waits => s
  | p =>
    let s := { s with hub := { s.hub with spills := s.hub.spills.filter fun x => x != m } }
    if p = .failed then queueErr s { plainErr 9 true 0xFFFF 0 1 with pa := 128 * m.line }
    else if !(m.applied || peerReady s m.line) then { s with hub := { s.hub with spills := s.hub.spills ++ [m] } }
    else issueSpill s m

/-- Every write-back of an L2 copy that awaits its reply moved on. -/
def moveSpills (s : State) : State := s.hub.spills.foldl moveSpill s

/-- The dirty bytes of an L2 copy sent to the memory behind it; `drop` gives the copy up with them (R182, R200). A write-back to host or peer
memory can be lost on its way, and the copy stands until it has been performed; a slice keeps one outstanding for a line (R376, R377). -/
def sendL2 (s : State) (line : Nat) (drop : Bool) : State :=
  match s.l2.find line with
  | some l =>
    if l.dirty = 0 || !isForeign line then (if drop then evictL2 s line else writeBackL2 s line)
    else if !peerReady s line || s.hub.spills.any (fun m => m.line == line) then s
    else issueSpill s { line := line, load := l.load, drop := drop, way := Transit.first 0, applied := false }
  | none => s

/-- An L2 copy given up by its slice, its dirty bytes written back first (R182, R200). -/
def spillL2 (s : State) (line : Nat) : State := sendL2 s line true

/-- Whether the L2 copy of a line, where there is one, has no dirty bytes. -/
def cleanL2 (s : State) (line : Nat) : Bool := match s.l2.find line with | some l => l.dirty == 0 | none => true

/-- An L2 copy whose clean bytes are read from the memory again. -/
def renewL2 (s : State) (line : Nat) : State :=
  match s.l2.find line with
  | some l =>
    let (d, p) := storeLine s line
    { s with l2 := s.l2.put line { l with data := mergeBytes d l.data l.dirty, psn := mergePsn p l.psn l.dirty } }
  | none => s

/-- R200: a host or peer line in L2 is discarded no later than its bound. Where its write-back has not been performed, its dirty bytes alone
stand on (log 10). -/
def expireL2 (s : State) (line : Nat) : State :=
  match s.l2.find line with
  | some l =>
    if isForeign line && !l.pinned && l.lease.toNat ≤ (s.time - l.filled).toNat then renewL2 (spillL2 s line) line else s
  | none => s

/-- The lines that an L2 slice holds: 4 MiB (R182). -/
def sliceLines : Nat := 32768

/-- Whether a slice has a place for a line: it holds it, or is not full. -/
def l2Place (s : State) (line : Nat) : Bool :=
  s.l2.length < sliceLines || (s.l2.find line).isSome || (s.l2.filter fun e => sliceOf e.1 == sliceOf line).length < sliceLines

/-- R182: a full slice evicts a copy before it takes another line; which one is not architectural. A pinned copy stays, and so does one that
its peer does not take. -/
def roomL2 (s : State) (line : Nat) : State :=
  if l2Place s line then s
  else match s.l2.find? fun e => sliceOf e.1 == sliceOf line && !e.2.pinned && (e.2.dirty = 0 || (peerReady s e.1 && !spillOut s e.1)) with
    | some e => spillL2 s e.1
    | none => s

/-- R369: a request is the first to meet the errors of a line's blocks in HBM, which no copy in L2 hides: a CONSUMED record for each
block that is still poisoned. -/
def meetErrors (s : State) (who : Who) (line : Nat) : State :=
  let mine := s.hub.hbmErrors.filter fun b => b / 4 == line
  if mine.isEmpty || (s.l2.find line).isSome then s
  else
    let s := { s with hub := { s.hub with hbmErrors := s.hub.hbmErrors.filter fun b => b / 4 != line } }
    let p := (storeLine s line).2
    mine.foldl (fun s b =>
      let e : ErrRec := match who with
        | .core c => coreErr s c 1 true 0 0 (whereAt (getCore s c)).toNat 0
        | .engine owner ipc => ownedErr owner 1 true 0xFFFF 0 0 ipc.toNat 0
        | .outside => plainErr 1 true 0xFFFF 0 0
      if p &&& blockWords (BitVec.ofNat 4 (1 <<< (b % 4))) = 0 then s else queueErr s { e with coord := 0xFFFF, pa := 32 * b }) s

/-- A slice about to hold a copy of a line: one that it does not hold yet needs room, and is filled from the memory behind the home. -/
def takeL2 (s : State) (line : Nat) : State := if (s.l2.find line).isSome then s else notePort (roomL2 s line) line

/-- Bytes written into the L2 copy of a line, which is made if it is absent; a slice that can make no room writes them to the memory behind it
(log 53). -/
def writeL2 (s : State) (who : Who) (line : Nat) (d : BitVec 1024) (mask : BitVec 128) (p : BitVec 32) (region : Byte)
    (writer : Word) : State :=
  let s := takeL2 s line
  if !l2Place s line then putStoreLine s line d mask (mergePsn (storeLine s line).2 p mask)
  else
    let l := (s.l2.find line).getD (newL2 s who line region)
    let l' := { l with data := mergeBytes l.data d mask, dirty := l.dirty ||| mask, psn := mergePsn l.psn p mask
                       writer := writer, region := region, bad := l.bad &&& ~~~(fullBlocks mask) }
    { s with l2 := s.l2.put line l' }

/-- R387: the host's dirty bytes of a line reach the home, where a copy past its bound has gone (R200), as an access of the host's that counts
(R337); `drop` also takes the line from the host. -/
def syncHost (s : State) (line : Nat) (drop : Bool) : State :=
  match s.hub.hostLines.find line with
  | some h =>
    let s := expireL2 s line
    let s := if h.dirty = 0 then s else writeL2 (countPage s .outside h.ac line) .outside line h.data h.dirty (h.psn &&& touchedWords h.dirty) 0 0
    let hl := if drop then s.hub.hostLines.del line else s.hub.hostLines.put line { h with dirty := 0 }
    { s with hub := { s.hub with hostLines := hl } }
  | none => s

/-- The word of a line's data. -/
def lineWord (d : BitVec 1024) (i : Nat) : Word := slice d (32 * i) 32

/-! ### Commutative partials at their homes (R203, R204) -/

/-- One partial folded into its word at the home (R204); a poisoned word is folded by its bits and written clean (DESIGN CHOICE, log 55). -/
def foldOne (s : State) (line : Nat) (e : Nat × CoreId × Partial) : State :=
  match FoldOp.ofCode e.2.2.op.toNat, Fmt.ofCode e.2.2.fmt.toNat with
  | some op, some f =>
    let i := e.1 % 32
    let n := fmtWidth f / 8
    let old := fieldOf (homeLine s line).1.toNat (32 * i + 8 * n - 1) (32 * i)
    let new := foldStep op f old (e.2.2.val.toNat % 2 ^ fmtWidth f)
    writeL2 s (.core e.2.1) line (BitVec.ofNat 1024 (new <<< (32 * i))) (BitVec.ofNat 128 ((2 ^ n - 1) <<< (4 * i))) 0
      e.2.2.region e.2.2.writer
  | _, _ => s

/-- Partials in ascending contributor index (R204). -/
def sortPartials : List (Nat × CoreId × Partial) → List (Nat × CoreId × Partial)
  | [] => []
  | e :: r => insertPartial e (sortPartials r)
where
  insertPartial (e : Nat × CoreId × Partial) : List (Nat × CoreId × Partial) → List (Nat × CoreId × Partial)
    | [] => [e]
    | f :: r => if e.2.1.toNat ≤ f.2.1.toNat then e :: f :: r else f :: insertPartial e r

/-- Whether a partial covers one of the words of its line that a mask names: an FP64 partial covers two (R203). -/
def partialIn (words : Word) (e : Nat × CoreId × Partial) : Bool :=
  bitAt words (e.1 % 32) || (e.2.2.fmt.toNat == Fmt.fp64.code && bitAt words (e.1 % 32 + 1))

/-- R204: the pending partials of some words of a line folded into them before the home serves those words; a fold is a device
write, before which a copy past its bound goes (R200) and the host gives the line up (R387). -/
def foldWords (s : State) (line : Nat) (words : Word) : State :=
  let (mine, rest) := s.hub.partials.partition fun e => e.1 / 32 == line && partialIn words e
  if mine.isEmpty then s
  else
    let s := syncHost (expireL2 { s with hub := { s.hub with partials := rest } } line) line true
    (sortPartials mine).foldl (fun s e => foldOne s line e) s

/-- R204: the pending partials of every word of a line folded. -/
def foldLine (s : State) (line : Nat) : State := foldWords s line (BitVec.allOnes 32)

/-- R197: the partials that a slice keeps at most. -/
def partialQuota : Nat := 1024

/-- R197: a slice whose partials are full folds those of its oldest pending line. -/
def roomForPartial (s : State) (line : Nat) : State :=
  if s.hub.partials.length < partialQuota then s
  else
    let mine := s.hub.partials.filter fun e => sliceOf (e.1 / 32) == sliceOf line
    if mine.length < partialQuota then s
    else match mine with
      | e :: _ => foldLine s (e.1 / 32)
      | [] => s

/-! ### Locks at their homes (R235) -/

/-- R295: a write to a watched region marks it in the writing core. -/
def markWatched (s : State) (c : CoreId) (g : Byte) : State :=
  match s.hub.regs.regions.find g.toNat with
  | some r =>
    if bitAt r 32 then updCore s c fun k => { k with tables := { k.tables with marks := putBit k.tables.marks g.toNat true } }
    else s
  | none => s

/-- R235: a grant of a word reaches the request for it that a core has queued: that of what it runs, or of what is set aside while its
steward or machine level runs. -/
def grantLock (k : Core) (w : Nat) : Core :=
  let z := k.streams
  if z.qlockQueued && z.qlockWord == w then { k with streams := { z with qlockGranted := true } }
  else if z.parked.lock.queued && z.parked.lock.word == w then
    { k with streams := { z with parked := { z.parked with lock := { z.parked.lock with granted := true } } } }
  else if z.stewardLock.queued && z.stewardLock.word == w then { k with streams := { z with stewardLock := { z.stewardLock with granted := true } } }
  else k

/-- R235: a write of 0 to a lock word that has waiters grants the head waiter, which writes the word of its page's region (R295). The
word stands in the L2 copy, or at the host or peer memory, whose L2 copy is written back first. -/
def grantAt (s : State) (w : Nat) : State :=
  match s.hub.qlocks.find w with
  | some ((h, g) :: rest) =>
    let line := w / 32
    let d : BitVec 1024 := splice (0 : BitVec 1024) (32 * (w % 32)) (BitVec.ofNat 32 (1 + h.toNat))
    let s := syncHost (foldWords (expireL2 s line) line (touchedWords (BitVec.ofNat 128 (15 <<< (4 * (w % 32)))))) line true
    let s := writeL2 s (.core h) line d (BitVec.ofNat 128 (15 <<< (4 * (w % 32)))) 0 0 (ownerOf (getCore s h))
    let s := if isForeign line then evictL2 s line else s
    let s := updCore (markWatched s h g) h fun k => grantLock k w
    { s with hub := { s.hub with qlocks := if rest.isEmpty then s.hub.qlocks.del w else s.hub.qlocks.put w rest } }
  | _ => s

/-- R235: the lock words of a line that a write has left at 0 grant their head waiters. -/
def grantZeros (s : State) (line : Nat) (mask : BitVec 128) : State :=
  (s.hub.qlocks.filter fun e => e.1 / 32 == line).foldl (fun s e =>
    let i := e.1 % 32
    if fieldOf mask.toNat (4 * i + 3) (4 * i) = 0 then s
    else if lineWord (homeLine s line).1 i = 0 then grantAt s e.1 else s) s

/-! ### Pushes that reach a home (R201, R202, R205, R387) -/

/-- R389: a request that reaches a line of a page that a migration moves is late. -/
def noteLate (s : State) (line : Nat) : State :=
  match s.hub.moving with
  | some (page, _) => if line / 512 = page then { s with hub := { s.hub with moving := some (page, true) } } else s
  | none => s

/-- Bytes applied at the home of a line: the host's copy is taken back (R387), a copy past its bound goes (R200), the partials of
the words written are folded (R204), then the bytes are written. `met` is charged for an error that the request meets (R382). -/
def applyPush (s : State) (who met : Who) (ac : Nat) (line : Nat) (d : BitVec 1024) (mask : BitVec 128) (p : BitVec 32)
    (region : Byte) (writer : Word) : State :=
  if mask = 0 then s
  else
    let s := meetErrors (expireL2 (noteLate s line) line) met line
    let s := foldWords (syncHost s line true) line (touchedWords mask)
    let s := countPage s who ac line
    grantZeros (writeL2 s who line d mask p region writer) line mask

/-- R211, R213, R215: bytes that a core pushes past its cluster home reach the home's copy of the line too, and are no longer dirty
there: what that copy serves and pushes later is never older (log 46). -/
def passHome (s : State) (c : CoreId) (line : Nat) (d : BitVec 1024) (mask : BitVec 128) (p : BitVec 32) : State :=
  let hc := clusterHome c line
  match (getCore s hc).homes.find line with
  | some h =>
    let h' := { h with data := mergeBytes h.data d mask, dirty := h.dirty &&& ~~~mask, psn := mergePsn h.psn p mask
                       bad := h.bad &&& ~~~(fullBlocks mask) }
    updCore s hc fun k => { k with homes := k.homes.put line h' }
  | none => s

/-- R203: a core's partial reaches the home of its word, which keeps it under the contributor; it counts (R337). -/
def homePartial (s : State) (c : CoreId) (w : Nat) (p : Partial) : State :=
  let line := w / 32
  let s := countPage (roomForPartial s line) (.core c) p.ac line
  { s with hub := { s.hub with partials := s.hub.partials ++ [(w, c, p)] } }

/-- A number's bytes placed in a line from byte `off`. -/
def placeBytes (off : Nat) (v : Nat) : BitVec 1024 := BitVec.ofNat 1024 (v <<< (8 * off))

/-- The byte mask of `n` bytes from byte `off` of a line. -/
def byteMask (off n : Nat) : BitVec 128 := BitVec.ofNat 128 ((2 ^ n - 1) <<< off)

/-- A line filled into its L2 home (R182), where it is not there yet. -/
def fillL2 (s : State) (who : Who) (line : Nat) (region : Byte) : State :=
  if (s.l2.find line).isSome then s
  else
    let s := takeL2 (meetErrors s who line) line
    if l2Place s line then { s with l2 := s.l2.put line (newL2 s who line region) } else s

/-- R397: the free values that a read of a line has used are used up. -/
def useFree (s : State) (line : Nat) : State := if definedWords s line = BitVec.allOnes 32 then s else { s with free := s.free + 32 }

/-- What a home serves for a read of some words (R204, R387): the copy after the host's dirty bytes and the words' partials; a
foreign line is filled into L2 under LEASE2. -/
def serveWords (s : State) (who : Who) (ac : Nat) (line : Nat) (region : Byte) (words : Word) : State × (BitVec 1024 × BitVec 32) :=
  let s := meetErrors (expireL2 (noteLate s line) line) who line
  let s := foldWords (syncHost s line false) line words
  let s := countPage s who ac line
  let s := if isForeign line then fillL2 s who line region else s
  (useFree s line, homeLine s line)

/-- What a home serves for a read of a whole line. -/
def homeServe (s : State) (who : Who) (ac : Nat) (line : Nat) (region : Byte) : State × (BitVec 1024 × BitVec 32) :=
  serveWords s who ac line region (BitVec.allOnes 32)

end Sys2Proof.Machine
end

