-- ==== Sys2Proof/Machine/Pushes.lean ====
section
/-!
DEFINITION. The pushes of the cores' copies: what they carry, how a home takes them, how links carry them (R376 to R378), the recall of
owners, what the engines of the hub read and write and the records that the device appends to its rings (R353, R379 to R382), room in the
partitions, and what releases and acquires do to copies (R182, R194 to R205, R295, R368, R373).
-/

namespace Sys2Proof.Machine

/-- A set of regions: bit g is region g. -/
abbrev Regions := BitVec 256

/-- Every region. -/
def allRegions : Regions := BitVec.allOnes 256

/-- One region. -/
def oneRegion (g : Byte) : Regions := BitVec.ofNat 256 (1 <<< g.toNat)

/-- Whether a set names a region. -/
def Regions.has (r : Regions) (g : Byte) : Bool := bitAt r g.toNat

/-! ### Pinned lines (R198) -/

/-- R198: the lines that a slice may pin: 2 MiB. -/
def pinQuota : Nat := 16384

/-- Whether a slice's quota of pins is used up. -/
def pinsFull (s : State) (slice : Nat) : Bool :=
  pinQuota ≤ (s.l2.filter fun e => e.2.pinned && sliceOf e.1 == slice).length

/-- R198: a line of a HOME = 11 page is about to be held in its home slice, which pins it; a fill beyond the slice's quota
caches it normally and leaves a PINOVF record. -/
def pinLine (s : State) (who : Who) (line : Nat) (region : Byte) : State :=
  let full := pinsFull s (sliceOf line)
  match s.l2.find line with
  | some l => if l.pinned || full then s else { s with l2 := s.l2.put line { l with pinned := true } }
  | none =>
    let s := takeL2 (meetErrors s who line) line
    let s := if l2Place s line then { s with l2 := s.l2.put line { newL2 s who line region with pinned := !full } } else s
    if full then queueErr s { plainErr 8 false 0xFFFF (sliceOf line) 0 with pa := 128 * line } else s

/-! ### Whether a home answers (R101, R375, R391, R393) -/

/-- R101: a bit of TDIES set in the task's view and in the hub's mask of its context. -/
def markDie (s : State) (c : CoreId) (b : Nat) : State :=
  let k := getCore s c
  match k.task with
  | some t =>
    if bitAt k.tregs.tdies b then s
    else
      let s := updCore s c fun k => { k with tregs := { k.tregs with tdies := putBit k.tregs.tdies b true } }
      { s with hub := { s.hub with contexts := s.hub.contexts.map fun x =>
          if x.ctx = t.ctx then { x with dies := putBit x.dies b true } else x } }
  | none => s

/-- Whether a line's home answers (R393): its die is ready, and for HBM its stack. -/
def homeReady (s : State) (line : Nat) : Bool :=
  bitAt s.hub.regs.ready.md (mdOf line) &&
    (aperture (128 * line) != 0 || bitAt s.hub.regs.ready.hbm (stackOf line))

/-- Why a home does not take a request: its die is lost; it or the peer's entry is not ready; a migration holds the line (R389); or a
cluster home's core is fenced (R374). -/
inductive Refused where
  | die (d : Nat)
  | notReady
  | held
  | fenced (t : CoreId)
  deriving DecidableEq, Repr

/-- R389: whether a migration holds the requests to a line. -/
def lineMoving (s : State) (line : Nat) : Bool := match s.hub.moving with | some (page, _) => line / 512 == page | none => false

/-- R375, R389, R391, R393: whether the home of a line takes no request. -/
def homeRefuses (s : State) (line : Nat) : Option Refused :=
  if bitAt s.hub.lostDies (16 + mdOf line) then some (.die (16 + mdOf line))
  else if !(homeReady s line && peerReady s line) then some .notReady
  else if lineMoving s line then some .held
  else none

/-- R374, R375, R393: whether a core's push of a line to its cluster home is refused: the home core is fenced or stands on a lost die, or
the copy must be filled from an L2 home that refuses. -/
def clusterRefuses (s : State) (c : CoreId) (line : Nat) : Option Refused :=
  let hc := clusterHome c line
  if bitAt s.hub.lostDies (dieOf hc) then some (.die (dieOf hc))
  else if (getCore s hc).fenced then some (.fenced hc)
  else if ((getCore s hc).homes.find line).isSome then none
  else homeRefuses s line

/-! ### Records of the homes (R378) -/

/-- R378: how long a record of an L2 home lasts after the last copy of its request. -/
def recordTicks : Nat := 262144

/-- Whether a record still stands: at an L2 home by its age, at a barrier home or a node until its number comes again (R333). -/
def DupRecord.stands (d : DupRecord) (now : DWord) : Bool := d.home.isNone || decide ((now - d.tick).toNat < recordTicks)

/-- R378: the records that a slice keeps at most. -/
def dupQuota : Nat := 16384

/-- R378: whether a home has a place for one more record. -/
def dupRoom (s : State) (home : Option Nat) : Bool :=
  home.isNone || s.hub.dups.length < dupQuota || decide ((s.hub.dups.filter fun d => d.home == home && d.stands s.time).length < dupQuota)

/-- R377: whether a sequence number of a core is still recorded at an L2 home. -/
def seqBusy (s : State) (c : CoreId) (seq : HWord) : Bool :=
  s.hub.dups.any fun d => d.core == c && d.seq == seq && d.home.isSome && d.stands s.time

/-! ### Pushes and their way (R194, R195, R199, R376 to R378) -/

/-- The number of the line of a push; a bump, which goes to the hub, has a number of its own (R295). -/
def Push.at : Push → Nat
  | .fold w => w / 32
  | .line l | .cluster l | .evict l | .recall l | .home l _ | .foreign l _ => l
  | .bump g => 2 ^ 45 + g

/-- Whether a push has anything to send. -/
def Push.sends (s : State) (c : CoreId) : Push → Bool
  | .fold w => ((getCore s c).partials.find w).isSome
  | .line l | .cluster l | .evict l | .recall l => match (getCore s c).l1.find l with | some x => x.dirty != 0 | none => false
  | .home l _ => match (getCore s c).homes.find l with | some x => x.dirty != 0 | none => false
  | .foreign l _ => match s.l2.find l with | some x => x.dirty != 0 | none => false
  | .bump _ => true

/-- Whether a push goes to the L2 home of its line, which recalls another owner of it first (R202). -/
def Push.recalls : Push → Bool
  | .fold _ | .line _ | .evict _ | .home _ _ => true
  | .cluster _ | .recall _ | .foreign _ _ | .bump _ => false

/-- The number under which the hub keeps the records of the bumps that it has taken (R378). -/
def hubHome : Nat := 128

/-- The slice that records a push, or the hub for a bump (R378). -/
def Push.slice (p : Push) : Option Nat :=
  match p with
  | .fold _ | .line _ | .evict _ | .home _ _ | .recall _ | .foreign _ _ => some (sliceOf p.at)
  | .bump _ => some hubHome
  | .cluster _ => none

/-- Whether a push leaves the package (R376). -/
def Push.outside : Push → Bool
  | .bump _ | .cluster _ => false
  | p => isForeign p.at

/-- Why the home of a push of a core takes none, if it does not (R374, R375, R393). -/
def Push.refused (s : State) (c : CoreId) : Push → Option Refused
  | .cluster l => clusterRefuses s c l
  | .foreign l _ => if peerReady s l then none else some .notReady
  | .bump _ => none
  | p => homeRefuses s p.at

/-- Whether a request of a core that is performed once awaits its reply at a line: it keeps at most one there (R377). -/
def lineBusy (s : State) (c : CoreId) (line : Nat) : Bool :=
  let here (r : Remote) : Bool := !r.idem && r.pa < 2 ^ 52 && lineOf r.pa == line
  let k := getCore s c
  s.hub.pushes.any (fun m => m.core == c && m.push.at == line && !m.failed) || k.remote.any here || k.posted.any fun e => here e.2

/-- Whether a push that a core has sent, or that is made for it, awaits its reply. -/
def pushPending (s : State) (c : CoreId) : Bool := s.hub.pushes.any fun m => (m.core == c || m.cause == c) && !m.failed

/-- A push refused (R375, R389): the dirty bytes stay; a lost die is a pending DIE_LOST of the core's task, whose own bytes they are, and
a migration has a late request. -/
def pushRefused (s : State) (c : CoreId) (p : Push) : Refused → State
  | .die d =>
    match p with
    | .home .. | .foreign .. | .recall _ => s
    | _ => updCore s c fun k => if k.task.isSome then { k with pend := { k.pend with dieLost := some (BitVec.ofNat 64 d) } } else k
  | .notReady | .fenced _ => s
  | .held => noteLate s p.at

/-- What a push of an L1 line carries. -/
def L1Line.load (l : L1Line) : Payload :=
  { data := l.data, dirty := l.dirty, psn := l.psn, bad := l.bad, region := l.region, ac := l.ac, pinned := l.pinned, writer := l.writer
    part := Option.none }

/-- What a push of a cluster-home copy carries. -/
def HomeLine.load (l : HomeLine) : Payload :=
  { data := l.data, dirty := l.dirty, psn := l.psn, bad := l.bad, region := l.region, ac := l.ac, pinned := false, writer := l.writer
    part := Option.none }

/-- What a push of a core carries, as its copy stands now. A write-back that a core asks for and a bump carry no bytes of the core. -/
def Push.load (s : State) (c : CoreId) : Push → Payload
  | .fold w => { Payload.none with part := (getCore s c).partials.find w }
  | .line l | .cluster l | .evict l | .recall l => match (getCore s c).l1.find l with | some x => x.load | none => Payload.none
  | .home l _ => match (getCore s c).homes.find l with | some x => x.load | none => Payload.none
  | .foreign _ _ | .bump _ => Payload.none

/-- An L1 line after a push of it: what has been written since is dirty; a block with an error is not kept (R373). -/
def L1Line.pushed (l : L1Line) (p : Payload) : L1Line :=
  let k := p.since l.data l.dirty l.psn
  { l with dirty := k, stale := l.stale || p.bad != 0, bad := l.bad &&& (~~~p.bad ||| touchedBlocks k) }

/-- A core's L1 line after a push of it. -/
def cleanL1 (k : Core) (line : Nat) (p : Payload) : Core :=
  match k.l1.find line with
  | some l => { k with l1 := k.l1.put line (l.pushed p) }
  | none => k

/-- What a core's push of an L1 line carries reaches the line's L2 home, with what an error in it leaves (R373); `cause` is the core for
whose access it is pushed. -/
def applyL1 (s : State) (cause c : CoreId) (line : Nat) (p : Payload) : State :=
  let s := evictErrors s (coordBits c) line p.bad p.dirty p.writer
  if p.dirty = 0 then s
  else
    let s := if p.pinned then pinLine s (.core c) line p.region else s
    passHome (applyPush s (.core c) (.core cause) p.ac line p.data p.mask p.marks p.region p.writer) c line p.data p.mask p.marks

/-- A clean L1 line given up, which ends the core's registration of it (R194, R201). -/
def dropL1 (s : State) (c : CoreId) (line : Nat) : State :=
  match (getCore s c).l1.find line with
  | some l =>
    if l.dirty ≠ 0 then s
    else
      let s := { s with hub := { s.hub with owners := s.hub.owners.filter fun e => !(e.1 == line && e.2 == c) } }
      updCore s c fun k => { k with l1 := k.l1.del line }
  | none => s

/-- R202: a core's registration of a line goes, and its copy becomes an ordinary stale line. -/
def endOwn (s : State) (o : CoreId) (line : Nat) : State :=
  let s := { s with hub := { s.hub with owners := s.hub.owners.filter fun e => e.1 != line } }
  updCore s o fun k => match k.l1.find line with
    | some l => { k with l1 := k.l1.put line { l with owned := false, stale := true } }
    | none => k

/-- What a push of a cluster-home copy carries reaches L2; `drop` discards the copy where nothing has been written since (R199). -/
def applyHome (s : State) (cause hc : CoreId) (line : Nat) (drop : Bool) (p : Payload) : State :=
  let s := evictErrors s (coordBits hc) line p.bad p.dirty p.writer
  let s := applyPush s (.core hc) (.core cause) p.ac line p.data p.mask p.marks p.region p.writer
  updCore s hc fun k => match k.homes.find line with
    | some h =>
      let n := p.since h.data h.dirty h.psn
      { k with homes := if n = 0 && (drop || p.bad != 0) then k.homes.del line
                        else k.homes.put line { h with dirty := n, bad := h.bad &&& (~~~p.bad ||| touchedBlocks n) } }
    | none => k

/-! #### Regions (R294, R295) -/

/-- R289, R294: the hub broadcasts a region's version, which every core's copy takes (log 13). -/
def broadcastVersion (s : State) (g : Nat) : State :=
  { s with cores := s.cores.mapVals fun _ k =>
      if (k.tables.versions.find g).isSome then { k with tables := { k.tables with versions := k.tables.versions.del g } } else k }

/-- R295: one bump of a region's version at the hub, which broadcasts it. -/
def bumpRegion (s : State) (g : Nat) : State :=
  match s.hub.regs.regions.find g with
  | some r =>
    let v : Word := BitVec.setWidth 32 r + 1
    broadcastVersion { s with hub := { s.hub with regs := { s.hub.regs with regions := s.hub.regs.regions.put g (splice r 0 v) } } } g
  | none => s

/-! #### Room in a pool's partitions (R38, R182) -/

/-- The lines that the L1 partition of a core holds, its cluster-home copies among them: units BNDC to 255 of the pool, 32 lines each
(R38, R182, R195). -/
def l1Capacity (k : Core) : Nat := 32 * (256 - k.tregs.bndc.toNat)

/-- The lines that the lodge partition holds: units BNDA to BNDB - 1 (R38, R311). -/
def lodgeCapacity (k : Core) : Nat := 32 * (k.tregs.bndb.toNat - k.tregs.bnda.toNat)

/-- R311: whether a line stands in the lodge partition: an access of `mdarn` to its area has used it, and the partition is not empty. -/
def inLodge (k : Core) (lodge : Bool) : Bool := lodge && lodgeCapacity k != 0

/-- The lines of a core's lodge partition, or those of its L1 partition that are no cluster-home copies. -/
def partLines (k : Core) (lodge : Bool) : List (Nat × L1Line) := k.l1.filter fun e => inLodge k e.2.lodge == lodge

/-- Whether a line of L1 can be evicted now: it is clean, or its home takes its bytes. -/
def canEvict (s : State) (c : CoreId) (e : Nat × L1Line) : Bool :=
  e.2.dirty == 0 || ((homeRefuses s e.1).isNone && !lineBusy s c e.1)

/-- Whether the L1 partition of a core has room for one more line or cluster-home copy (R38, R182, R195). -/
def l1Room (k : Core) : Bool := (partLines k false).length + k.homes.length < l1Capacity k

/-- Whether a cluster-home copy can be evicted now. -/
def canEvictHome (s : State) (c : CoreId) (e : Nat × HomeLine) : Bool :=
  e.2.dirty == 0 || ((homeRefuses s e.1).isNone && !lineBusy s c e.1)

/-- The push with which a full L1 partition that is to take a line evicts another, or a cluster-home copy; which one is not architectural
(R182, R194). -/
def l1Victim (s : State) (c : CoreId) (line : Nat) : Option Push :=
  let k := getCore s c
  match (partLines k false).find? fun e => e.1 != line && canEvict s c e with
  | some e => some (.evict e.1)
  | none => (k.homes.find? fun e => e.1 != line && canEvictHome s c e).map fun e => .home e.1 true

/-- R38, R182, R194: a full L1 partition evicts a line, or a cluster-home copy, before it takes another. `push` makes the eviction's push. -/
def makeRoomBy (push : State → CoreId → Push → State) (s : State) (c : CoreId) (line : Nat) : State :=
  if l1Room (getCore s c) then s else match l1Victim s c line with | some p => push s c p | none => s

/-! #### Performing a push -/

/-- A copy of a line in a cluster home, made from L2 if it is absent (R195), in a partition that has room for it. -/
def fillHome (s : State) (hc : CoreId) (line : Nat) (region : Byte) (ac : Nat) : State :=
  match (getCore s hc).homes.find line with
  | some _ => s
  | none =>
    let (s, d, p) := homeServe s (.core hc) ac line region
    updCore s hc fun k => { k with homes := k.homes.put line { data := d, dirty := 0, psn := p, region := region, ac := ac, writer := 0, bad := 0 } }

/-- What a push carries reaches the cluster home of its line (R199). -/
def applyCluster (s : State) (c : CoreId) (line : Nat) (p : Payload) : State :=
  let hc := clusterHome c line
  let s := fillHome (evictErrors s (coordBits c) line p.bad p.dirty p.writer) hc line p.region p.ac
  updCore s hc fun k => match k.homes.find line with
    | some h =>
      let h' := { h with data := mergeBytes h.data p.data p.mask, dirty := h.dirty ||| p.mask, psn := mergePsn h.psn p.marks p.mask
                         writer := p.writer, bad := h.bad &&& ~~~(fullBlocks p.mask) }
      { k with homes := k.homes.put line h' }
    | none => k

/-- A push performed at its destination, with what it carries (R377). -/
def PushMsg.perform (s : State) (m : PushMsg) : State :=
  let clean (s : State) (l : Nat) : State := updCore s m.core fun k => cleanL1 k l m.load
  match m.push with
  | .fold w => match m.load.part with | some p => homePartial s m.core w p | none => s
  | .line l => clean (applyL1 s m.cause m.core l m.load) l
  | .cluster l => clean (applyCluster s m.core l m.load) l
  | .evict l => dropL1 (clean (applyL1 s m.cause m.core l m.load) l) m.core l
  | .recall l => endOwn (clean (applyL1 s m.cause m.core l m.load) l) m.core l
  | .home l drop => applyHome s m.cause m.core l drop m.load
  | .foreign l drop => if drop then evictL2 s l else writeBackL2 s l
  | .bump g => bumpRegion s g

/-- R203: a partial leaves its core with the push that carries it. -/
def takePart (s : State) (c : CoreId) : Push → State
  | .fold w => updCore s c fun k => { k with partials := k.partials.del w }
  | _ => s

/-- R203: a partial whose push has failed without being performed is the core's again, before what the core has added since. -/
def returnPart (s : State) (m : PushMsg) : State :=
  match m.push, m.load.part with
  | .fold w, some p =>
    if m.applied then s
    else updCore s m.core fun k =>
      let q : Partial := match k.partials.find w, FoldOp.ofCode p.op.toNat, Fmt.ofCode p.fmt.toNat with
        | some q, some op, some f => { q with val := BitVec.ofNat 64 (foldStep op f p.val.toNat q.val.toNat) }
        | _, _, _ => p
      { k with partials := k.partials.put w q }
  | _, _ => s

/-- R378: the slice of a push keeps its record, whose tick is that of the last copy. -/
def recordPush (s : State) (m : PushMsg) : State :=
  match m.push.slice with
  | none => s
  | some h =>
    let d : DupRecord := { core := m.core, home := some h, seq := m.seq, reply := .value 0, tick := s.time }
    { s with hub := { s.hub with dups := d :: s.hub.dups.filter fun e => !(e.core == m.core && e.seq == m.seq) } }

/-- The pushes of a line that a core has sent and that have not been performed are performed, where no link may lose the core's next one
(log 10). -/
def settleLine (s : State) (c : CoreId) (line : Nat) : State :=
  (s.hub.pushes.filter fun m => m.core == c && m.push.at == line && !m.applied && !m.failed).foldl (fun s m =>
    let s := recordPush (m.perform s) m
    { s with hub := { s.hub with pushes := s.hub.pushes.map fun x => if x = m then { m with applied := true, held := false } else x } }) s

/-- A push performed at once, with no message. -/
def performNow (s : State) (cause c : CoreId) (p : Push) : State :=
  let s := settleLine s c p.at
  PushMsg.perform (takePart s c p)
    { core := c, cause := cause, push := p, load := p.load s c, seq := 0, way := Transit.first 0, applied := false, held := false, failed := false }

/-! #### Owners, engines and rings (R201, R202, R353, R379 to R382) -/

/-- R202: the owner of a line pushes its dirty bytes, its copy becomes an ordinary stale line, and the registration goes; no link loses the
push (log 10). -/
def recallNow (s : State) (cause o : CoreId) (line : Nat) : State := performNow s cause o (.recall line)

/-- The core that has registered a line, if it is not `keep` (R201). -/
def otherOwner (s : State) (keep : Option CoreId) (line : Nat) : Option CoreId :=
  match s.hub.owners.find? (fun e => e.1 == line) with
  | some (_, o) => if keep = some o then none else some o
  | none => none

/-- Bytes that reach the home of a line (R201, R202, R387): another owner is recalled first. -/
def homePush (s : State) (who : Who) (ac line : Nat) (d : BitVec 1024) (mask : BitVec 128) (p : BitVec 32) (region : Byte) (writer : Word)
    (met : Who := who) : State :=
  if mask = 0 then s
  else
    let keep := match who with | .core c => some c | _ => none
    let s := match otherOwner s keep line with
      | some o => recallNow s (match met with | .core c => c | _ => o) o line
      | none => s
    applyPush s who met ac line d mask p region writer

/-! ### Writes and reads of the hub's engines -/

/-- Whether the home of every line of `n` bytes answers (R393). -/
def rangeReady (s : State) (pa n : Nat) : Bool :=
  (List.range (lineOf (pa + n - 1) + 1 - lineOf pa)).all fun i => homeReady s (lineOf pa + i)

/-- A write by an engine of the hub, in pieces of lines, released at system scope; `marks` are the words from the first on that are
poisoned. A home that is not ready refuses its piece, which is lost (R393, log 55). -/
def engineWrite : Nat → State → Nat → Nat → Nat → Nat → State
  | 0, s, _, _, _, _ => s
  | fuel + 1, s, pa, n, v, marks =>
    if n = 0 then s
    else
      let off := pa % 128
      let k := min n (128 - off)
      let line := lineOf pa
      let p : BitVec 32 := BitVec.ofNat 32 (marks % 2 ^ (k / 4) <<< (off / 4))
      let s :=
        if !homeReady s line then s
        else
          let s := homePush s .hub 0 line (placeBytes off (v % 2 ^ (8 * k))) (byteMask off k) p 0 0
          if isForeign line then writeBackL2 s line else s
      engineWrite fuel s (pa + k) (n - k) (v / 2 ^ (8 * k)) (marks / 2 ^ (k / 4))

/-- `n` bytes written by an engine at a physical address. -/
def hubStore (s : State) (pa n v : Nat) : State := engineWrite (n / 128 + 2) s pa n v 0

/-- The same with the marks of its words (R368). -/
def hubStoreMarked (s : State) (pa n v marks : Nat) : State := engineWrite (n / 128 + 2) s pa n v marks

/-- A read by an engine of the hub, in pieces of lines, with whether a word is poisoned. -/
def engineRead (who : Who) : Nat → State → Nat → Nat → State × (Nat × Bool)
  | 0, s, _, _ => (s, 0, false)
  | fuel + 1, s, pa, n =>
    if n = 0 then (s, 0, false)
    else
      let off := pa % 128
      let k := min n (128 - off)
      let line := lineOf pa
      let (s, d, p) := serveWords s who 0 line 0 (touchedWords (byteMask off k))
      let v := (d.toNat >>> (8 * off)) % 2 ^ (8 * k)
      let bad := p.toNat &&& (touchedWords (byteMask off k)).toNat != 0
      let (s, w, bad') := engineRead who fuel s (pa + k) (n - k)
      (s, v + w * 2 ^ (8 * k), bad || bad')

/-- `n` bytes read by an engine at a physical address. -/
def hubLoad (s : State) (pa n : Nat) : State × (Nat × Bool) := engineRead .hub (n / 128 + 2) s pa n

/-! ### Rings and records (R353, R379 to R382) -/

/-- A ring with no room (R353, R380). -/
def Ring.full (r : Ring) : Bool := r.size = 0 || (r.tail - r.head).toNat == r.size.toNat

/-- The L2 copies of host and peer lines of named regions written back, and dropped if asked (R199). -/
def flushForeign (s : State) (r : Regions) (drop : Bool) : State :=
  ((s.l2.filter fun e => isForeign e.1 && Regions.has r e.2.region).map Prod.fst).foldl
    (fun s line => if drop then evictL2 s line else writeBackL2 s line) s

/-- R386: an MSI-X vector is signalled to the host: 0 a fault-queue append, 1 an error-ring append, 2 a notice, 3 the end of a
command. -/
def signalHost (s : State) (v : Nat) : State :=
  { s with hub := { s.hub with msix := s.hub.msix.setIfInBounds v ((s.hub.msix[v]?.getD 0) + 1) } }

/-- A record appended to a ring in the order write, release at `.sys`, tail, and the host's vector; or the ring's marks of a lost
record (R353, R380, R386), as also where the home of its slot refuses it (R393, log 55). -/
def ringAppend (s : State) (r : Ring) (vector bytes rec : Nat) : State × Ring :=
  let slot := r.base.toNat + bytes * (r.tail.toNat % r.size.toNat)
  if r.full || !rangeReady s slot bytes then (s, { r with ovf := true, lost := satInc32 r.lost })
  else
    let s := flushForeign (hubStore s slot bytes rec) allRegions false
    (signalHost s vector, { r with tail := r.tail + 1 })

/-- R380: an error record appended to the error ring. -/
def report (s : State) (e : ErrRec) : State :=
  let (s, r) := ringAppend s s.hub.regs.er 1 64 (e.image s.time)
  { s with hub := { s.hub with regs := { s.hub.regs with er := r } } }

/-! #### Messages of pushes -/

/-- The fate of the next flit of a core's requests and replies (R376): good unless the outside has dropped it. -/
def coreFlit (s : State) (c : CoreId) : State × Bool :=
  match (getCore s c).flits with
  | [] => (s, true)
  | f :: r => (updCore s c fun k => { k with flits := r }, f)

/-- A push that awaits its reply. -/
def awaitPush (s : State) (m : PushMsg) : State := { s with hub := { s.hub with pushes := s.hub.pushes ++ [m] } }

/-- The reply of a push that has been performed crosses, or is lost. -/
def replyPush (s : State) (m : PushMsg) : State :=
  let (s, ok) := coreFlit s m.core
  if ok then s else awaitPush s { m with applied := true, held := false, way := m.way.lost s.time }

/-- Whether a push that a cluster home has sent of a line has not been performed yet: what a core pushes past that home comes after it (R211,
log 46). -/
def homeOut (s : State) (c : CoreId) (line : Nat) : Bool :=
  let hc := clusterHome c line
  s.hub.pushes.any fun m => m.core == hc && !m.applied && !m.failed && (m.push == .home line true || m.push == .home line false)

/-- Whether a push must follow another at its line: that of the cluster home that it passes, or a write-back of the L2 copy (R377). -/
def followsPush (s : State) (m : PushMsg) : Bool :=
  match m.push with
  | .line l | .evict l | .recall l => homeOut s m.core l
  | .foreign l _ => spillOut s l
  | _ => false

/-- Whether the cluster home of a line holds its copy or has room for it. -/
def homePlace (s : State) (c : CoreId) (line : Nat) : Bool :=
  let k := getCore s (clusterHome c line)
  (k.homes.find line).isSome || l1Room k

/-- Whether the copy that a push to a cluster home makes has a place there (R182, R195). -/
def clusterPlace (s : State) (m : PushMsg) : Bool :=
  match m.push with
  | .cluster l => homePlace s m.core l
  | _ => true

/-- A push at its home: it is held there while a migration holds its line (R389), the slice has no place for its record (R378), its cluster
home has none for its copy (R182), another owner of the line has not been recalled, or a push that it follows has not been performed; else it
is performed and recorded. -/
def landPush (s : State) (m : PushMsg) : State :=
  let blocked := (m.push.recalls && (otherOwner s (some m.core) m.push.at).isSome) || !dupRoom s m.push.slice
    || lineMoving s m.push.at || followsPush s m || !clusterPlace s m
  if blocked then awaitPush (noteLate s m.push.at) { m with held := true }
  else replyPush (recordPush (m.perform s) m) m

/-- One issue of a push (R376): its request crosses or is lost. -/
def issuePush (land : State → PushMsg → State) (s : State) (m : PushMsg) : State :=
  let (s, ok) := coreFlit s m.core
  if ok then land s m else awaitPush s { m with way := m.way.lost s.time }

/-- R377: a push takes a number of its own; while the number is not free it is not made, and its bytes stay where they are. -/
def startPush (land : State → PushMsg → State) (s : State) (cause c : CoreId) (p : Push) : State :=
  let q := (getCore s c).seq
  if seqBusy s c q then s
  else issuePush land (takePart (updCore s c fun k => { k with seq := q + 1 }) c p)
    { core := c, cause := cause, push := p, load := p.load s c, seq := q, way := Transit.first s.time, applied := false, held := false, failed := false }

/-- R202: the home of a line recalls an owner other than `keep`. The access waits for the owner's push, which links can lose. -/
def recallLine (s : State) (keep : Option CoreId) (line : Nat) : State :=
  match otherOwner s keep line with
  | none => s
  | some o => if lineBusy s o line then s else startPush landPush s (keep.getD o) o (.recall line)

/-- The eviction with which a full partition makes room for a copy that another core brings. -/
def evictPush (s : State) (c : CoreId) (p : Push) : State :=
  if !p.sends s c then performNow s c c p
  else startPush landPush (match p with | .home .. => s | _ => markDie s c (16 + mdOf p.at)) c c p

/-- A push at its home, which recalls another owner first, or for which its cluster home makes room. -/
def arrivePush (s : State) (m : PushMsg) : State :=
  let s := if m.push.recalls then recallLine s (some m.core) m.push.at else s
  landPush (match m.push with | .cluster l => if clusterPlace s m then s else makeRoomBy evictPush s (clusterHome m.core l) l | _ => s) m

/-- A push of a core, made for `cause` (R101, R194, R199, R376 to R378). One with nothing to send only gives up what it drops; one whose
home refuses leaves its bytes where they are; and one at a line where another awaits its reply is not made yet. -/
def sendPush (s : State) (cause c : CoreId) (p : Push) : State :=
  if !p.sends s c then performNow s cause c p
  else if lineBusy s c p.at then s
  else
    let s := match p with | .fold _ | .line _ | .evict _ | .cluster _ => markDie s c (16 + mdOf p.at) | _ => s
    match p.refused s c with
    | some .held => startPush arrivePush s cause c p
    | some r => pushRefused s c p r
    | none => startPush arrivePush s cause c p

/-- R377: a push that awaits its reply moved on: one that its home holds is tried there again; one without a reply is issued again at its
time-out, and after the third reissue it has failed, with a TIMEOUT record (R382). -/
def movePush (s : State) (m : PushMsg) : State :=
  let s := { s with hub := { s.hub with pushes := s.hub.pushes.filter fun x => x != m } }
  if m.failed then awaitPush s m
  else if m.held then arrivePush s m
  else match m.way.passage s.time m.push.outside with
    | .waits => awaitPush s m
    | .failed =>
      awaitPush (returnPart (report s (coreErr s m.core 9 true (if m.push.at < 2 ^ 45 then 128 * m.push.at else 0) 0 m.seq.toNat 1)) m)
        { m with failed := true }
    | .goes =>
      let (s, ok) := coreFlit s m.core
      if !ok then awaitPush s { m with way := m.way.lost s.time }
      else if m.applied then replyPush (recordPush s m) m
      else arrivePush s m

/-- Every push that awaits its reply moved on. -/
def movePushes (s : State) : State := s.hub.pushes.foldl movePush s

/-! ### The pushes of a core's copies by name (R194, R195, R199, R203) -/

/-- The dirty bytes of an L1 line pushed to its L2 home; the line stays, clean. -/
def pushL1 (s : State) (c : CoreId) (line : Nat) : State := sendPush s c c (.line line)

/-- The dirty bytes of a cluster-home copy pushed to L2; `drop` discards the copy (R199). -/
def pushHome (s : State) (hc : CoreId) (line : Nat) (drop : Bool) : State := sendPush s hc hc (.home line drop)

/-- R194, R201: a core's L1 line pushed and evicted, which ends the core's registration of it. -/
def evictL1 (s : State) (c : CoreId) (line : Nat) : State := sendPush s c c (.evict line)

/-- R203: a core's partial of a word pushed to its home, unless the home refuses. -/
def pushPartial (s : State) (c : CoreId) (w : Nat) : State := sendPush s c c (.fold w)

/-- Room in the L1 partition of a core. -/
def makeRoomL1 (s : State) (c : CoreId) (line : Nat) : State := makeRoomBy (fun s c p => sendPush s c c p) s c line

/-- Whether the lodge partition of a core has room for one more line (R38, R311). -/
def lodgeRoom (k : Core) : Bool := (partLines k true).length < lodgeCapacity k

/-- R38, R311: a full lodge partition evicts a line before it takes another. -/
def makeRoomLodge (s : State) (c : CoreId) (line : Nat) : State :=
  let k := getCore s c
  if lodgeRoom k then s
  else match (partLines k true).find? fun e => e.1 != line && canEvict s c e with
    | some e => evictL1 s c e.1
    | none => s

/-- Whether the partition of a core to which a line belongs holds it or has room for it. -/
def l1Place (k : Core) (line : Nat) (lodge : Bool) : Bool :=
  (match k.l1.find line with | some l => inLodge k l.lodge == inLodge k lodge | none => false)
    || (if inLodge k lodge then lodgeRoom k else l1Room k)

/-- Room for a line in the L1 partition, or in the lodge partition, of a core that does not hold it there. -/
def roomL1 (s : State) (c : CoreId) (line : Nat) (lodge : Bool) : State :=
  if l1Place (getCore s c) line lodge then s
  else if inLodge (getCore s c) lodge then makeRoomLodge s c line else makeRoomL1 s c line

/-- Why the home of a line that stands in the way of another in a full partition takes no eviction of it, where none can be evicted
(R375, R393). -/
def roomRefused (s : State) (c : CoreId) (lodge : Bool) : Option (Nat × Refused) :=
  let k := getCore s c
  let lines := (partLines k (inLodge k lodge)).map Prod.fst ++ if inLodge k lodge then [] else k.homes.map Prod.fst
  if lines.any fun l => lineBusy s c l then none
  else lines.findSome? fun l => (homeRefuses s l).map fun r => (l, r)

/-- Room in the partition of a line's cluster home for its copy (R182, R195). -/
def roomHome (s : State) (c : CoreId) (line : Nat) : State :=
  let hc := clusterHome c line
  if ((getCore s hc).homes.find line).isSome then s else makeRoomBy evictPush s hc line

/-- The cores of a core's cluster (R3). -/
def clusterCores (c : CoreId) : List CoreId := (List.range 48).map (clusterMember c)

/-- The listed cores whose index satisfies a test. -/
def listedCores (s : State) (p : CoreId → Bool) : List CoreId :=
  (s.cores.map fun e => BitVec.ofNat 12 e.1).filter p

/-- The copies of named regions that the cluster homes of a core's cluster hold, each pushed by its core, and dropped if asked (R199). -/
def homePushes (s : State) (c : CoreId) (r : Regions) (drop : Bool) : List (CoreId × Push) :=
  (listedCores s fun d => clusterOf d == clusterOf c).flatMap fun d =>
    ((getCore s d).homes.filter fun e => Regions.has r e.2.region && (drop || e.2.dirty != 0)).map fun e => (d, .home e.1 drop)

/-- The write-backs of the L2 copies of host and peer lines of named regions that a core asks for, each drops its copy if asked (R199). -/
def foreignPushes (s : State) (c : CoreId) (r : Regions) (drop : Bool) : List (CoreId × Push) :=
  (s.l2.filter fun e => isForeign e.1 && Regions.has r e.2.region && (drop || e.2.dirty != 0)).map fun e => (c, .foreign e.1 drop)

/-- The pushes of a core's copies that a release of it makes (R199). -/
def releasePushes (s : State) (c : CoreId) (sc : Scope) (r : Regions) : List (CoreId × Push) :=
  let k := getCore s c
  let folds := (k.partials.filter fun e => Regions.has r e.2.region).map fun e => (c, Push.fold e.1)
  let mine := k.l1.filter fun e => Regions.has r e.2.region && e.2.dirty != 0
  match sc with
  | .task => folds
  | .clu => folds ++ mine.map fun e => (c, if e.2.pinned then .line e.1 else .cluster e.1)
  | .die | .pkg | .sys => folds ++ homePushes s c r (sc != .die) ++ mine.map fun e => (c, .line e.1)

/-- Pushes made for a core, each by its sender. -/
def sendPushes (s : State) (cause : CoreId) (l : List (CoreId × Push)) : State := l.foldl (fun s p => sendPush s cause p.1 p.2) s

/-- Where a scope is at least another. -/
def Scope.covers (a b : Scope) : Bool := b.code ≤ a.code

/-- What a release does to copies (R199), the version bumps of R295 apart. -/
def releaseCopies (s : State) (c : CoreId) (sc : Scope) (r : Regions) : State :=
  let s := sendPushes s c (releasePushes s c sc r)
  if sc = .sys then sendPushes s c (foreignPushes s c r false) else s

/-- The pushes that an acquire makes: the cluster homes' copies, which it drops, and at `.sys` the L2 copies of host and peer lines
(R199). -/
def acquirePushes (s : State) (c : CoreId) (sc : Scope) (r : Regions) : List (CoreId × Push) :=
  let r := r ||| oneRegion 0
  match sc with
  | .task | .clu => []
  | .die | .pkg => homePushes s c r true
  | .sys => homePushes s c r true ++ foreignPushes s c r true

/-- What an acquire does to copies (R199). Every acquire names region 0. -/
def acquireCopies (s : State) (c : CoreId) (sc : Scope) (r : Regions) : State :=
  let r := r ||| oneRegion 0
  match sc with
  | .task => s
  | .clu | .die | .pkg | .sys =>
    let s := updCore s c fun k =>
      { k with l1 := k.l1.mapVals fun _ l => if Regions.has r l.region && !l.owned then { l with stale := true } else l }
    let s := if sc = .clu then s else sendPushes s c (homePushes s c r true)
    if sc = .sys then sendPushes s c (foreignPushes s c r true) else s

end Sys2Proof.Machine
end

