-- ==== Sys2Proof/Machine/Translate.lean ====
section
/-!
DEFINITION. How a meaning runs and stops, the requests of a core that links carry (R376 to R378), the translation of virtual
addresses (R183 to R193, R291), and reads and writes of memory through the copies (R188, R189, R194, R217).
-/

namespace Sys2Proof.Machine

/-! ### Meanings that may stop -/

/-- Why an instruction does not complete: it waits, it traps, or the model stops. -/
inductive Stop where
  | wait
  | trap (t : TrapInfo)
  | fault (f : Fault)
  | refuse (r : Refusal)
  deriving DecidableEq, Repr

/-- A computation over the package that may stop. -/
abbrev M (α : Type) := EStateM Stop State α

/-- A trap with its EINFO and nothing else to report. -/
def trapInfo (cause : Cause) (einfo : DWord) : TrapInfo :=
  { cause := cause, einfo := einfo, malf := false, pages := [], ovf := false, replay := false, final := false }

/-- Raise a trap. -/
def raise {α : Type} (cause : Cause) (einfo : DWord) : M α := throw (.trap (trapInfo cause einfo))

/-- Wait: the instruction runs again from its start. -/
def waitHere {α : Type} : M α := throw .wait

/-- Raise a trap unless a condition holds. -/
def require (b : Bool) (cause : Cause) (einfo : DWord) : M Unit := if b then pure () else raise cause einfo

/-- Wait unless a condition holds. -/
def awaitThat (b : Bool) : M Unit := if b then pure () else waitHere

/-- A core. -/
def theCore (c : CoreId) : M Core := do return getCore (← get) c

/-- Change a core. -/
def modCore (c : CoreId) (f : Core → Core) : M Unit := modify fun s => updCore s c f

/-- Change the hub. -/
def modHub (f : Hub → Hub) : M Unit := modify fun s => { s with hub := f s.hub }

/-- Run a state function that also answers. -/
def answer {α : Type} (f : State → State × α) : M α := modifyGet fun s => let (s, a) := f s; (a, s)

/-- A fresh use of the open values' counter (log 9). -/
def freshUse : M Nat := modifyGet fun s => (s.free, { s with free := s.free + 1 })

/-- An undefined word (log 9). -/
def freshWord : M Word := do return Config.freeWord (← freshUse)

/-- An undefined doubleword (log 9). -/
def freshDWord : M DWord := do
  let lo ← freshWord
  let hi ← freshWord
  return hi ++ lo

/-- Run a computation on each element of a list, in order. -/
def eachOf {α : Type} : List α → (α → M Unit) → M Unit
  | [], _ => pure ()
  | a :: r, f => do f a; eachOf r f

/-- Run a computation on each element of a list and collect the answers. -/
def collect {α β : Type} : List α → (α → M β) → M (List β)
  | [], _ => pure []
  | a :: r, f => do
    let b ← f a
    let bs ← collect r f
    return b :: bs

/-! ### Dies and readiness (R101, R364, R375, R393) -/

/-- Before a request of a core to the home of a line (R101, R375, R391, R393). -/
def reachHome (c : CoreId) (line : Nat) (va : DWord) : M Unit := do
  modify fun s => markDie s c (16 + mdOf line)
  match homeRefuses (← get) line with
  | some (.die d) => raise .dieLost (BitVec.ofNat 64 d)
  | some .notReady => raise .protect va
  | some .held => do
    modify fun s => noteLate s line
    waitHere
  | _ => pure ()

/-- R202: before an access that recalls another owner of a line: the access waits until the owner's push has been performed. -/
def recallFor (c : CoreId) (line : Nat) : M Unit := do
  modify fun s => recallLine s (some c) line
  awaitThat (otherOwner (← get) (some c) line).isNone

/-- Before an access at the memory behind a host or peer line: a write-back of its L2 copy that awaits its reply has been performed (R377). -/
def spillFor (line : Nat) : M Unit := do awaitThat (!spillOut (← get) line)

/-- Whether two cores run tasks of one gang (R28). -/
def sameGang (a b : Core) : Bool :=
  match a.task, b.task with
  | some t, some u => t.lid == u.lid && t.plot == u.plot && t.group == u.group && t.handler.isNone && u.handler.isNone
  | _, _ => false

/-- R374: what the requester raises whose request a fenced core has refused. -/
def fencedCause (s : State) (c t : CoreId) : Cause :=
  if sameGang (getCore s c) { getCore s t with task := (getCore s t).lost } then .gangBroken else .protect

/-- R375: the first lost die that a request between two cores is addressed to or crosses. -/
def lostWay (s : State) (a b : CoreId) : Option Nat := (dieOf b :: wayDies a b).find? fun d => bitAt s.hub.lostDies d

/-- R374, R375: before a request of a core to another core: no die on its way is lost, nor is the core fenced. -/
def reachCore (c t : CoreId) (va : DWord) : M Unit := do
  let s ← get
  match lostWay s c t with
  | some d => raise .dieLost (BitVec.ofNat 64 d)
  | none => pure ()
  if (getCore s t).fenced then
    match fencedCause s c t with
    | .gangBroken => raise .gangBroken (BitVec.ofNat 64 (coordBits t))
    | _ => raise .protect va
  else return ()

/-! ### Requests that links carry (R229, R376 to R378) -/

/-- R102: the codes of the streams. -/
def Stream.code : Stream → Nat
  | .control => 0 | .vector => 1 | .matrix => 2

/-- The stream of a core that executes, by its code. -/
def streamKey (k : Core) : Nat := match k.doing with | none => 0 | some (st, _) => st.code

/-- The outstanding operation of the stream that executes. -/
def remoteOf (k : Core) : Option Remote := if streamKey k = 0 then k.remote else k.posted.find (streamKey k)

/-- A core with the outstanding operation of the stream that executes set. -/
def putRemote (k : Core) (r : Option Remote) : Core :=
  if streamKey k = 0 then { k with remote := r }
  else { k with posted := match r with | some r => k.posted.put (streamKey k) r | none => k.posted.del (streamKey k) }

/-- The outstanding operation set. -/
def setRemote (c : CoreId) (r : Option Remote) : M Unit := modCore c fun k => putRemote k r

/-- The fate of the next flit of a core's request or reply (R376). -/
def nextFlit (c : CoreId) : M Bool := answer fun s => coreFlit s c

/-- A request that has not been issued. -/
def Remote.new (key : DWord) (pa : Nat) (idem long : Bool) (seq : HWord) : Remote :=
  { key := key, pa := pa, idem := idem, seq := seq, issued := 0, reissues := 0, reply := none, due := false, failed := false, long := long
    held := false, got := none }

/-- What stands for the physical address of a request that has none (R381): no address of 52 bits. -/
def noAddress : Nat := 2 ^ 52

/-- R377: a request whose third reissue has timed out: REMOTE_TIMEOUT with a TIMEOUT record of kind `det` (R382). The word that names a
barrier or a node is no address of memory (R381). -/
def remoteFails {α : Type} (c : CoreId) (r : Remote) (va : DWord) (det : Nat) : M α := do
  setRemote c none
  modify fun s => report s (coreErr s c 9 true r.pa (if r.pa = noAddress then 0 else va) r.seq.toNat det)
  raise .remoteTimeout va

/-- One issue of a read, or of a write that is performed once: request and reply cross, or one is lost. -/
def tryRequest {α : Type} (c : CoreId) (r : Remote) (m : M α) : M α := do
  let r := { r with issued := (← get).time, due := false }
  if ← nextFlit c then do
    setRemote c none
    let a ← m
    if ← nextFlit c then return a
    else do
      setRemote c (some { r with reply := some 0 })
      waitHere
  else do
    setRemote c (some r)
    waitHere

/-- R376, R377: a read of a core at a place, which a reissue performs anew; `pre` makes the checks that come before an issue. While a later
read of the instruction awaits its reply, those before it, which have been answered, are performed with no new request. -/
def readRequest {α : Type} (c : CoreId) (pa : Nat) (long : Bool) (va : DWord) (pre : M Unit) (m : M α) : M α := do
  let k ← theCore c
  let key : DWord := BitVec.ofNat 64 pa
  match remoteOf k with
  | none => do
    pre
    if k.flits.isEmpty then m else tryRequest c (Remote.new key pa true long k.seq) m
  | some r =>
    if !r.idem || r.key ≠ key then do
      pre
      m
    else if r.failed then remoteFails c r va 1
    else if r.due then do
      pre
      tryRequest c { r with reissues := r.reissues + 1 } m
    else waitHere

/-! #### What an instruction does once (R189, R221, R378) -/

/-- What an instruction of a stream that begins again has done of a part: taken up from what it did before it waited. -/
def takeAnswer (k : Core) (n key : Nat) : Option (Answer × Core) :=
  let l := (k.replays.find n).getD []
  (l.find? fun a => a.key == key).map fun a =>
    let rest := l.eraseP fun a => a.key == key
    (a, { k with replays := if rest.isEmpty then k.replays.del n else k.replays.put n rest
                 answered := k.answered.put n (a :: (k.answered.find n).getD []) })

/-- A part of an instruction that is done once, whatever the instruction has to wait for after it. -/
def once (c : CoreId) (key : Nat) (m : M (Nat × Bool)) : M (Nat × Bool) := do
  let k ← theCore c
  let n := streamKey k
  match takeAnswer k n key with
  | some (a, k') => do
    modCore c fun _ => k'
    return (a.val, a.bad)
  | none => do
    let a ← m
    modCore c fun k => { k with answered := k.answered.put n ({ key := key, val := a.1, bad := a.2 } :: (k.answered.find n).getD []) }
    return a

/-- The part of an instruction that writes at a place. -/
def onceAt (c : CoreId) (pa : Nat) (m : M Unit) : M Unit := do
  let _ ← once c (2 ^ 64 + pa) do
    m
    return (0, false)

/-- An instruction of a stream begins again: what it did before it waited comes first. -/
def rewindReads (k : Core) (n : Nat) : Core :=
  match k.answered.find n with
  | some l => { k with answered := k.answered.del n, replays := k.replays.put n (l.reverse ++ (k.replays.find n).getD []) }
  | none => k

/-- What an instruction of a stream has done so far is not done again. -/
def dropAnswers (k : Core) (n : Nat) : Core := { k with answered := k.answered.del n, replays := k.replays.del n }

/-- An instruction of a stream has ended: what it did is over, and a read that it has not waited for is no one's any more. -/
def dropReads (k : Core) (n : Nat) : Core :=
  let k := dropAnswers k n
  if n = 0 then { k with remote := k.remote.filter fun r => !r.idem }
  else { k with posted := k.posted.filter fun e => !(e.1 == n && e.2.idem) }

/-- One issue of a device read: its answer is kept where the reply is lost, and a reissue is given it (R189). -/
def tryDevice (c : CoreId) (r : Remote) (m : M (Nat × Bool)) : M (Nat × Bool) := do
  let r := { r with issued := (← get).time, due := false }
  if ← nextFlit c then
    setRemote c none
    let a ← match r.got with | some a => pure a | none => m
    if ← nextFlit c then return a
    else do
      setRemote c (some { r with got := some a })
      waitHere
  else do
    setRemote c (some r)
    waitHere

/-- R189: a device read of an instruction, which is performed once. -/
def deviceRead (c : CoreId) (pa : Nat) (long : Bool) (va : DWord) (pre : M Unit) (m : M (Nat × Bool)) : M (Nat × Bool) := do
  let k ← theCore c
  let key : DWord := BitVec.ofNat 64 pa
  match (remoteOf k).filter fun r => !r.idem && r.key == key with
  | none => do
    pre
    if k.flits.isEmpty then m else tryDevice c (Remote.new key pa false long k.seq) m
  | some r =>
    if r.failed then remoteFails c r va 1
    else if r.due then do
      pre
      tryDevice c { r with reissues := r.reissues + 1 } m
    else waitHere

/-! ### Requests that are performed once (R229, R333, R376 to R378) -/

/-- The record of a requester's number. -/
def dupOf (s : State) (c : CoreId) (seq : HWord) : Option DupRecord :=
  s.hub.dups.find? fun d => d.core == c && d.seq == seq && d.stands s.time

/-- A record kept at a home. -/
def keepReply (c : CoreId) (seq : HWord) (home : Option Nat) (r : HomeReply) : M Unit := do
  let t := (← get).time
  modHub fun h => { h with dups := { core := c, home := home, seq := seq, reply := r, tick := t } :: h.dups }

/-- The answer of a recorded reply. -/
def HomeReply.answer : HomeReply → M DWord
  | .value v => return v
  | .refused cause einfo => raise cause einfo

/-- The home applies an operation once for a sequence number, and answers a duplicate from its record, with what it does at a
duplicate (R378, R333). A slice without a place for the record holds the operation (R378). -/
def applyOnce (c : CoreId) (seq : HWord) (home : Option Nat) (dup : M Unit) (apply : M DWord) : M DWord := do
  match dupOf (← get) c seq with
  | some d => do
    let t := (← get).time
    modHub fun h => { h with dups := h.dups.map fun e => if e.core = c ∧ e.seq = seq then { e with tick := t } else e }
    dup
    d.reply.answer
  | none => do
    awaitThat (dupRoom (← get) home)
    let v ← apply
    keepReply c seq home (.value v)
    return v

/-- What a stop of the home means for the requester: an operation that waits is held there; a refusal is a reply, which can be lost
and which a barrier home or a node records (R333). -/
def homeStops (c : CoreId) (r : Remote) (home : Option Nat) (lossy : Bool) (e : Stop) : M DWord := do
  match e with
  | .wait => do
    let t := (← get).time
    setRemote c (some { r with held := true, issued := t })
    waitHere
  | .trap t =>
    if !lossy then throw e
    else if ← nextFlit c then do
      setRemote c none
      throw e
    else do
      if home.isNone && (dupOf (← get) c r.seq).isNone then keepReply c r.seq home (.refused t.cause t.einfo) else pure ()
      setRemote c (some r)
      waitHere
  | e => throw e

/-- A request that has reached its home: it is applied there, and its reply crosses or is lost. -/
def reachedHome (c : CoreId) (r : Remote) (home : Option Nat) (dup : M Unit) (apply : M DWord) : M DWord := do
  let r := { r with held := false }
  let lossy := !(← theCore c).flits.isEmpty
  setRemote c (if lossy then some r else none)
  let v ← tryCatch (applyOnce c r.seq home dup apply) (homeStops c r home lossy)
  if !lossy then return v
  else if ← nextFlit c then do
    setRemote c none
    return v
  else do
    setRemote c (some { r with reply := some v })
    waitHere

/-- One issue of a remote operation: the request crosses or is lost. -/
def issue (c : CoreId) (r : Remote) (home : Option Nat) (dup : M Unit) (apply : M DWord) : M DWord := do
  let r := { r with issued := (← get).time, due := false }
  if ← nextFlit c then reachedHome c r home dup apply
  else do
    setRemote c (some r)
    waitHere

/-- R377: a sequence number is taken again once no record of it can still stand at an L2 home; a record elsewhere goes. -/
def freeSeq (c : CoreId) (seq : HWord) : M Unit := do
  let s ← get
  awaitThat (!seqBusy s c seq)
  modHub fun h => { h with dups := h.dups.filter fun d => !(d.core == c && d.seq == seq) }

/-- R229, R377: a remote operation, which `einfo` names. `home` is the slice that serves it, or none for a barrier home, a node or a
scratchpad, and `pa` its physical address, if it has one. `prep` makes the checks that come before the first issue and says whether
the destination is outside the package, `reach` those that come before every issue (R374, R375); `apply` is the home's work, and `dup` what it does at a duplicate. A request without a reply is
reissued up to three times, then REMOTE_TIMEOUT is raised with the given EINFO and a TIMEOUT record of kind `det` (R382). The operation
takes its number, and does what `start` does once, as its first issue goes. -/
def remoteWith (c : CoreId) (einfo : DWord) (det : Nat) (home : Option Nat) (pa : Nat) (prep : M Bool) (start reach dup : M Unit)
    (apply : M DWord) : M DWord := do
  let k ← theCore c
  match (remoteOf k).filter fun r => !r.idem && r.key == einfo with
  | none => do
    let long ← prep
    reach
    awaitThat (noAddress ≤ pa || !lineBusy (← get) c (lineOf pa))
    let q := (← theCore c).seq
    freeSeq c q
    start
    modCore c fun k => { k with seq := q + 1 }
    issue c (Remote.new einfo pa false long q) home dup apply
  | some r =>
    if r.failed then remoteFails c r einfo det
    else if r.due then do
      reach
      issue c { r with reissues := r.reissues + 1 } home dup apply
    else if r.held then reachedHome c r home dup apply
    else waitHere

/-- One issue of a write at a place outside the copies: its home performs it once and records it, and its reply crosses or is lost. -/
def tryWrite (c : CoreId) (r : Remote) (home : Option Nat) (m : M Unit) : M Unit := do
  let r := { r with issued := (← get).time, due := false }
  if r.held || (← nextFlit c) then do
    let held : M Unit := do
      setRemote c (some { r with held := true })
      waitHere
    if r.reply.isSome then pure ()
    else if !dupRoom (← get) home then held
    else do
      setRemote c none
      tryCatch m fun e => match e with | .wait => held | e => throw e
    if home.isSome then do
      modHub fun h => { h with dups := h.dups.filter fun d => !(d.core == c && d.seq == r.seq) }
      keepReply c r.seq home (.value 0)
    else pure ()
    if ← nextFlit c then setRemote c none
    else do
      setRemote c (some { r with reply := some 0, held := false })
      waitHere
  else do
    setRemote c (some r)
    waitHere

/-- R376 to R378: a write of a core at a place outside its copies, under a number of its own; a duplicate changes nothing. -/
def writeRequest (c : CoreId) (pa : Nat) (home : Option Nat) (long : Bool) (va : DWord) (pre m : M Unit) : M Unit := do
  let k ← theCore c
  let key : DWord := BitVec.ofNat 64 pa
  match (remoteOf k).filter fun r => !r.idem with
  | none => do
    pre
    awaitThat (!lineBusy (← get) c (lineOf pa))
    freeSeq c k.seq
    modCore c fun k => { k with seq := k.seq + 1 }
    tryWrite c (Remote.new key pa false long k.seq) home m
  | some r =>
    if r.key ≠ key then do
      pre
      m
    else if r.failed then remoteFails c r va 1
    else if r.held then tryWrite c r home m
    else if r.due then do
      pre
      tryWrite c { r with reissues := r.reissues + 1 } home m
    else waitHere

/-! ### Translation (R183 to R191, R291) -/

/-- The kinds of access that R186 tells apart. -/
inductive Access where
  | read | write | both | fetch
  deriving DecidableEq, Repr

/-- R184, for a page of 2^`bits` bytes. -/
def pageOf (leaf : DWord) (bits : Nat) : Page :=
  { r := bitAt leaf 1, w := bitAt leaf 2, x := bitAt leaf 3, u := bitAt leaf 4, home := (slice leaf 5 2).toNat
    mtype := (slice leaf 7 2).toNat, region := slice leaf 12 8, ac := if bitAt leaf 9 then bits else 0
    mig := bitAt leaf 10, lodge := false }

/-- The physical base that an entry holds: PA[51:16] × 65,536 (R183). -/
def leafBase (leaf : DWord) : Nat := (slice leaf 20 36).toNat * 65536

/-- The page size in bits of a leaf at a level (R183). -/
def levelBits : Nat → Nat
  | 0 => 52 | 1 => 40 | 2 => 28 | _ => 16

/-- R187: an address in a reserved aperture, or beyond its aperture's range. -/
def badTarget (pa : Nat) : Bool :=
  match aperture pa with
  | 0 => fieldOf pa 47 41 != 0
  | 1 => fieldOf pa 47 32 != 0 || 3072 ≤ fieldOf pa 31 20
  | 2 => fieldOf pa 47 25 != 0
  | 3 => false
  | n => n < 8

/-- R185, R188, R189: a leaf that is malformed at its level. -/
def badLeaf (level : Nat) (e : DWord) : Bool :=
  let pg := pageOf e (levelBits level)
  let pa := leafBase e
  level = 0
    || pa % 2 ^ levelBits level != 0
    || (pg.w && !pg.r)
    || badTarget pa
    || (aperture pa == 2 && pg.mtype < 2)
    || (aperture pa == 1 && pg.home != 2)
    || (pg.home == 2 && (aperture pa != 1 || level != 3 || pg.mtype != 0))
    || (pg.home == 3 && aperture pa != 0)

/-- A malformed walk (R185): PROTECT with MALF in the record. -/
def malformed {α : Type} (va : DWord) : M α := throw (.trap { trapInfo .protect va with malf := true })

/-- The index of a level (R183). -/
def walkIndex (va : DWord) : Nat → Nat
  | 0 => fieldOf va.toNat 63 52
  | 1 => fieldOf va.toNat 51 40
  | 2 => fieldOf va.toNat 39 28
  | _ => fieldOf va.toNat 27 16

/-- The 8-byte entry of a node, read at its home (R190). The L2 copy of a host line that the walk fills belongs to region 0 (DESIGN CHOICE,
log 55). -/
def readEntry (c : CoreId) (pa : Nat) (va : DWord) : M DWord := do
  let line := lineOf pa
  readRequest c pa (isForeign line) va (reachHome c line va) do
    let (d, _) ← answer fun s => serveWords s (.core c) 0 line 0 (touchedWords (byteMask (pa % 128) 8))
    return slice d (8 * (pa % 128)) 64

/-- R183, R185: the walk from a node at a level, with fuel for the levels left. -/
def walkFrom (c : CoreId) (va : DWord) : Nat → Nat → Nat → M (DWord × Nat)
  | 0, _, _ => malformed va
  | fuel + 1, level, node => do
    let e ← readEntry c (node + 8 * walkIndex va level) va
    if !bitAt e 0 then throw (.trap { trapInfo .pageMiss va with pages := [va &&& ~~~(0xFFFF : DWord)] })
    else if bitAt e 11 then
      if badLeaf level e then malformed va else return (e, levelBits level)
    else if level = 3 || !(aperture (leafBase e) == 0 || aperture (leafBase e) == 3) || badTarget (leafBase e) then malformed va
    else walkFrom c va fuel (level + 1) (leafBase e)

/-- Whether a TLB entry serves an address under an ASID (R291). -/
def TlbEntry.covers (t : TlbEntry) (asid : HWord) (va : DWord) : Bool :=
  t.asid == asid && va.toNat / 2 ^ t.bits == t.base.toNat / 2 ^ t.bits

/-- The leaf of an address and its page size: from the TLB, or by a walk that fills it (R291). -/
def findLeaf (c : CoreId) (va : DWord) : M (DWord × Nat) := do
  let k ← theCore c
  match k.tables.tlb.find? (fun t => t.covers k.tregs.asid va) with
  | some t => return (t.leaf, t.bits)
  | none =>
    let (e, b) ← walkFrom c va 4 0 (k.tregs.ptroot.toNat % 2 ^ 52)
    let t : TlbEntry := { asid := k.tregs.asid, tenant := k.tregs.tenant, base := BitVec.ofNat 64 (va.toNat / 2 ^ b * 2 ^ b), bits := b, leaf := e }
    modCore c fun k => { k with tables := { k.tables with tlb := t :: k.tables.tlb } }
    return (e, b)

/-- The leaf of an address and its page size as a walk would find them now, none where it would fault; nothing is changed. -/
def peekLeaf (s : State) (c : CoreId) (va : DWord) : Option (DWord × Nat) :=
  match findLeaf c va (updCore s c fun k => { k with flits := [], remote := none, posted := [] }) with
  | .ok e _ => some e
  | .error _ _ => none

/-- The physical address of a virtual one and its page, as `peekLeaf` finds them. -/
def peekPlace (s : State) (c : CoreId) (va : DWord) : Option (Nat × Page) :=
  (peekLeaf s c va).map fun e => (leafBase e.1 + va.toNat % 2 ^ e.2, pageOf e.1 e.2)

/-- The scratchpad partition's size in bytes (R191). -/
def scratchSize (k : Core) : Nat := 4096 * (k.tregs.bndc.toNat - k.tregs.bndb.toNat)

/-- R192: the tenant that a core holds: its task's, or the last task's. -/
def heldTenant (k : Core) : HWord := if k.task.isSome then k.tregs.tenant else k.prevTenant

/-- R192, R374: the target's checks of an access to its scratchpad. -/
def checkScratch (c t : CoreId) (off n : Nat) (va : DWord) : M Unit := do
  reachCore c t va
  let k ← theCore c
  let d ← theCore t
  require (off + n ≤ scratchSize d) .scratchRange va
  require (t == c || heldTenant d == k.tregs.tenant) .protect va

/-- The permission check of R186. -/
def pageAllows (lv : Level) (acc : Access) (pg : Page) (pa : Nat) : Bool :=
  (lv != .task || pg.u) &&
    match acc with
    | .read => pg.r
    | .write => pg.w
    | .both => pg.r && pg.w && pg.mtype == 0 && pg.home != 2
    | .fetch => pg.x && pg.mtype < 2 && aperture pa != 2

/-- R183 to R192: where an access of `n` bytes at a virtual address goes, once its checks have passed. -/
def translate (c : CoreId) (va : DWord) (n : Nat) (acc : Access) : M Loc := do
  let k ← theCore c
  if slice va 48 16 = 0xFFFE then
    let f := (slice va 42 6).toNat
    require (acc != .fetch) .protect va
    require (f < 48 || f = 63) .scratchRange va
    let t := if f = 63 then c else clusterMember c f
    let off := (slice va 0 42).toNat
    checkScratch c t off n va
    return .sram t off 0 none
  else
    let (e, b) ← findLeaf c va
    let pg := pageOf e b
    let pa := leafBase e + va.toNat % 2 ^ b
    require (pageAllows k.level acc pg pa) .protect va
    if aperture pa = 1 then
      let t : CoreId := BitVec.ofNat 12 (fieldOf pa 31 20)
      let off := pa % 2 ^ 20
      checkScratch c t off n va
      return .sram t off pg.region (some pg)
    else return .mem pa pg

/-- The region that an access belongs to (R193). -/
def Loc.region : Loc → Byte
  | .sram _ _ g _ => g
  | .mem _ pg => pg.region

/-! ### Reads and writes through the copies -/

/-- Whether a place is held in L1 (R188, R189, R194): HOME 00 and 11 pages of MTYPE normal. -/
def cachedIn (pa : Nat) (pg : Page) : Bool := pg.mtype == 0 && (pg.home == 0 || pg.home == 3) && aperture pa != 2

/-- Whether a place is a device register or a page of MTYPE device or strongly ordered (R189). -/
def isDevice (pa : Nat) (pg : Page) : Bool := 2 ≤ pg.mtype || aperture pa == 2

/-- Whether an L1 line serves a read (R194, R200). -/
def L1Line.fresh (l : L1Line) (now : DWord) : Bool := !l.stale && (l.owned || (now - l.filled).toNat < l.lease.toNat)

/-- A line of a page that is not in L1 yet, before its fill: nothing valid, STALE. -/
def L1Line.absent (pg : Page) (lease : Word) (lodge : Bool) : L1Line :=
  { data := 0, dirty := 0, psn := 0, region := pg.region, owned := false, stale := true, filled := 0, lease := lease, lodge := lodge
    pinned := pg.home == 3, ac := pg.ac, writer := 0, bad := 0 }

/-- R339: a performance counter event, counted by the counters that name it at the executing level. -/
def countPerf (k : Core) (evt n : Nat) : Core :=
  let lvl := match k.level with | .task => 8 | .steward => 9 | .machine => 10
  if k.ctrs.pmen = 0 then k
  else
    let step (i : Nat) (p : PerfCounter) : PerfCounter :=
      if bitAt k.ctrs.pmen i && p.evt.toNat % 256 == evt && bitAt p.evt lvl then
        { p with count := p.count + BitVec.ofNat 48 n, ovf := p.ovf || 2 ^ 48 ≤ p.count.toNat + n }
      else p
    { k with ctrs := { k.ctrs with perf := k.ctrs.perf.mapFinIdx fun i p _ => step i p } }

/-- R198: a line about to be served at its home for a core, of a page that pins it there. -/
def pinFor (c : CoreId) (line : Nat) (pg : Page) : M Unit :=
  if pg.home = 3 then modify fun s => pinLine s (.core c) line pg.region else pure ()

/-- A line that an access of `mdarn` finds in the L1 partition moves to the lodge partition, once that has room for it (R311). -/
def lodgeLine (s : State) (c : CoreId) (line : Nat) (pg : Page) : State :=
  match pg.lodge, (getCore s c).l1.find line with
  | true, some l =>
    if l.lodge then s
    else
      let s := if inLodge (getCore s c) true then makeRoomLodge s c line else s
      if inLodge (getCore s c) true && !lodgeRoom (getCore s c) then s
      else updCore s c fun k => match k.l1.find line with
        | some l => { k with l1 := k.l1.put line { l with lodge := true } }
        | none => k
  | _, _ => s

/-- R182: an access that takes a line into L1 waits until its partition has room for it. Where no line can be evicted, it ends as a request to
the home that takes none (R375, R393, log 53). -/
def roomFor (c : CoreId) (line : Nat) (pg : Page) (va : DWord) : M Unit := do
  modify fun s => lodgeLine s c line pg
  let s ← get
  let lodge := match (getCore s c).l1.find line with | some l => l.lodge | none => pg.lodge
  if l1Place (getCore s c) line lodge then pure ()
  else do
    modify fun s => roomL1 s c line lodge
    let s ← get
    if l1Place (getCore s c) line lodge then pure ()
    else match roomRefused s c lodge with
      | some (_, .die d) => raise .dieLost (BitVec.ofNat 64 d)
      | some (_, .notReady) => raise .protect va
      | _ => waitHere

/-- R194, R195: the clean bytes of a line from the cluster home's copy or from the L2 home. A copy in another core's partition is a request
to that core (R376). -/
def fetchLine (c : CoreId) (line : Nat) (pg : Page) (va : DWord) : M (BitVec 1024 × BitVec 32) := do
  let hc := clusterHome c line
  let copy (k : Core) := if pg.home = 0 then k.homes.find line else none
  match copy (← theCore hc) with
  | some h =>
    if hc = c then return (h.data, h.psn)
    else readRequest c (128 * line) false va (reachCore c hc va) do
      return ((copy (← theCore hc)).map fun h => (h.data, h.psn)).getD (h.data, h.psn)
  | none =>
    readRequest c (128 * line) (isForeign line) va (reachHome c line va) do
      pinFor c line pg
      answer fun s => homeServe s (.core c) pg.ac line pg.region

/-- R194, R195: a line of L1 that serves a read: one that is not fresh is filled. -/
def fillL1 (c : CoreId) (line : Nat) (pg : Page) (va : DWord) : M L1Line := do
  modify fun s => lodgeLine s c line pg
  let k ← theCore c
  let l := (k.l1.find line).getD (L1Line.absent pg k.cregs.lease1 pg.lodge)
  if l.fresh (← get).time then return l
  else
    roomFor c line pg va
    let (d, p) ← fetchLine c line pg va
    let s ← get
    let l := ((← theCore c).l1.find line).getD l
    let l := { l with data := mergeBytes d l.data l.dirty, psn := mergePsn p l.psn l.dirty, stale := false, filled := s.time
                      lease := k.cregs.lease1, region := pg.region, ac := pg.ac, pinned := pg.home == 3
                      bad := l.bad &&& touchedBlocks l.dirty }
    modCore c fun k => countPerf { k with l1 := k.l1.put line l } 4 1
    return l

/-- The bytes and the poison of a field of a line. -/
def lineField (d : BitVec 1024) (p : BitVec 32) (off n : Nat) : Nat × Bool :=
  ((d.toNat >>> (8 * off)) % 2 ^ (8 * n), p.toNat &&& (touchedWords (byteMask off n)).toNat != 0)

/-- The key of a scratchpad byte in the store (R187). -/
def sramKey (t : CoreId) (off : Nat) : Nat := 2 ^ 48 + t.toNat * 2 ^ 20 + off

/-- A field read from the store behind the homes. -/
def storeField (s : State) (pa n : Nat) : Nat × Bool :=
  (memLoad s.store.bytes pa n, psnLoad s.store.psn (pa / 4) ((pa + n + 3) / 4 - pa / 4) != 0)

/-- A field written to the store behind the homes, with its poison (R368). -/
def storePut (s : State) (pa n v : Nat) (bad : Bool) : State :=
  let w := pa / 4
  let k := (pa + n + 3) / 4 - w
  let marks := if bad then 2 ^ k - 1
    else psnLoad s.store.psn w k &&& ((if pa % 4 = 0 then 0 else 1) ||| (if (pa + n) % 4 = 0 then 0 else 2 ^ (k - 1)))
  { s with store := { s.store with bytes := memStore s.store.bytes pa n v, psn := psnStore s.store.psn w k marks } }

/-- Whether an access to a host or peer line is performed at its memory and not at its L2 home: on HOME 01 pages (R188) and on
device pages (R189). -/
def atMemory (pg : Page) (line : Nat) : Bool := isForeign line && (pg.home == 1 || 2 ≤ pg.mtype)

/-- R200, R204: before an access at the memory behind a host or peer line: a copy past its bound goes, and the partials of the words
are folded and written back, which no link loses (log 10). -/
def settleOutside (line : Nat) (words : Word) : M Unit := do
  modify fun s => expireL2 (noteLate s line) line
  spillFor line
  modify fun s =>
    let s := notePort s line
    if s.hub.partials.any fun e => e.1 / 32 == line && partialIn words e then writeBackL2 (foldWords s line words) line else s

/-- The slice that is the home of a place, if an L2 home serves it. -/
def Loc.home : Loc → Option Nat
  | .mem pa _ => some (sliceOf (lineOf pa))
  | .sram .. => none

/-- A read of up to 128 bytes within one line, outside the register block: the bytes, and whether a word of them is poisoned
(R217). One of a device page is performed once (R189). -/
def readLoc (c : CoreId) (loc : Loc) (n : Nat) (va : DWord) : M (Nat × Bool) := do
  match loc with
  | .sram t off _ _ =>
    if t = c then return storeField (← get) (sramKey t off) n
    else readRequest c (sramKey t off) false va (reachCore c t va) do return storeField (← get) (sramKey t off) n
  | .mem pa pg =>
    let line := lineOf pa
    let words := touchedWords (byteMask (pa % 128) n)
    if cachedIn pa pg then
      let l ← fillL1 c line pg va
      return lineField l.data l.psn (pa % 128) n
    else (if isDevice pa pg then deviceRead c pa (isForeign line) va (reachHome c line va) else readRequest c pa (isForeign line) va (reachHome c line va)) do
      if atMemory pg line then
        settleOutside line words
        return ((storeField (← get) pa n).1, false)
      else
        pinFor c line pg
        let (d, p) ← answer fun s => serveWords s (.core c) pg.ac line pg.region words
        return lineField d p (pa % 128) n

/-- The physical address of a place. -/
def Loc.pa : Loc → Nat
  | .mem pa _ => pa
  | .sram t off _ _ => sramKey t off

/-- The poison marks of the line or of the scratchpad words that hold a place, from the word of the place on (R368). -/
def marksAt (s : State) (c : CoreId) : Loc → Nat
  | .sram t off _ _ => psnLoad s.store.psn (sramKey t off / 4) 33
  | .mem pa pg =>
    let line := lineOf pa
    let p := match (if cachedIn pa pg then (getCore s c).l1.find line else none) with
      | some l => l.psn
      | none => (homeLine s line).2
    p.toNat >>> (pa % 128 / 4)

/-- The physical address of the first word of `n` bytes from an address that the marks from its word on name (R381). -/
def firstMarked (pa n marks : Nat) : Nat :=
  let w := pa / 4 * 4
  match setBits ((pa + n - w + 3) / 4) marks with
  | i :: _ => w + 4 * i
  | [] => pa

/-- The physical address of the first poisoned word of `n` bytes at a place (R381). -/
def poisonedWord (s : State) (c : CoreId) (loc : Loc) (n : Nat) : Nat := firstMarked loc.pa n (marksAt s c loc)

/-- The context and tenant of the task that writes (R373). -/
def writerOf (s : State) (c : CoreId) : Word := ownerOf (getCore s c)

/-- Bytes written into a core's L1 line (R194): dirty bytes, with marks under R368. A line that is held keeps the region and the
attributes of its page. Its partition has room for it. -/
def writeL1 (s : State) (c : CoreId) (line : Nat) (pg : Page) (d : BitVec 1024) (mask : BitVec 128) (p : BitVec 32) : State :=
  let k := getCore s c
  let l := (k.l1.find line).getD (L1Line.absent pg k.cregs.lease1 pg.lodge)
  let l := { l with data := mergeBytes l.data d mask, dirty := l.dirty ||| mask, psn := mergePsn l.psn p mask, writer := ownerOf k
                    bad := l.bad &&& ~~~(fullBlocks mask) }
  setCore s c { k with l1 := k.l1.put line l }

/-- The words of a line that a field touches, all poisoned or none. -/
def fieldMarks (off n : Nat) (bad : Bool) : BitVec 32 := if bad then touchedWords (byteMask off n) else 0

/-- A write of up to 128 bytes within one line, outside the register block (R217, R189): into L1, or at the home, the host, the
peer or the scratchpad. It marks its region as it is performed (R295). -/
def writeLoc (c : CoreId) (loc : Loc) (n v : Nat) (bad : Bool) (va : DWord) : M Unit := do
  match loc with
  | .sram t off _ _ =>
    let put : M Unit := modify fun s => markWatched (storePut s (sramKey t off) n v bad) c loc.region
    if t = c then put else writeRequest c (sramKey t off) none false va (reachCore c t va) put
  | .mem pa pg =>
    let line := lineOf pa
    let off := pa % 128
    if cachedIn pa pg then
      roomFor c line pg va
      modify fun s => markWatched (writeL1 s c line pg (placeBytes off v) (byteMask off n) (fieldMarks off n bad)) c loc.region
    else writeRequest c pa loc.home (isForeign line) va (reachHome c line va) do
      let mask := byteMask off n
      if atMemory pg line then
        settleOutside line (touchedWords mask)
        modify fun s => markWatched (grantZeros (storePut s pa n v false) line mask) c loc.region
      else
        recallFor c line
        awaitThat (!homeOut (← get) c line)
        pinFor c line pg
        modify fun s =>
          let p := fieldMarks off n bad
          markWatched
            (passHome (homePush s (.core c) pg.ac line (placeBytes off v) mask p pg.region (writerOf s c)) c line (placeBytes off v) mask p)
            c loc.region

end Sys2Proof.Machine
end

