-- ==== Sys2Proof/Machine/Regs.lean ====
section
/-!
DEFINITION. Access to the registers of a core: scalars (R93), masks (R96), special registers (R98, R99), and the register
cache with its backing area (R103 to R106); the step of the program counter; and the shape of a control-thread
instruction.
-/

namespace Sys2Proof.Machine

/-! ### Scalars and masks -/

/-- A scalar register; `s0` reads 0 (R93). -/
def getS (k : Core) (r : BitVec 5) : DWord := if r = 0 then 0 else k.files.s[r.toNat]

/-- A core with a scalar register written; a write to `s0` is discarded (R58). -/
def setS (k : Core) (r : BitVec 5) (v : DWord) : Core :=
  if r = 0 then k else { k with files := { k.files with s := k.files.s.set r.toNat v } }

/-- A captured scalar (R109). -/
def envS (e : Env) (r : BitVec 5) : DWord := if r = 0 then 0 else e.s[r.toNat]

/-- A mask; `k0` reads as all ones (R96). -/
def getK (k : Core) (n : BitVec 3) : DWord := if n = 0 then BitVec.allOnes 64 else k.files.k[n.toNat]

/-- A core with a mask written; `k0` never changes (R92). -/
def setK (k : Core) (n : BitVec 3) (v : DWord) : Core :=
  if n = 0 then k else { k with files := { k.files with k := k.files.k.set n.toNat v } }

/-! ### The program counter -/

/-- A core whose control thread has committed an instruction and goes on at an address. INSTRET counts task-level
commits (R102). -/
def retireTo (k : Core) (pc : DWord) : Core :=
  let k := dropReads (countPerf k 2 1) 0
  if k.level = .task then { k with pc := pc, tregs := { k.tregs with instret := k.tregs.instret + 1 } } else { k with pc := pc }

/-- A core past an instruction of `len` bytes. -/
def retire (k : Core) (len : Nat) : Core := retireTo k (k.pc + BitVec.ofNat 64 len)

/-- A write of one scalar register by an instruction of 4 bytes that reads the current core. -/
def writeScalar (s : State) (rd : BitVec 5) (v : DWord) : State :=
  updCore s s.cur fun k => retire (setS k rd v) 4

/-- The encoding of an instruction, zero-extended (R344). -/
def encodingOf (i : Instr) : DWord := BitVec.ofNat 64 (((encode i).map Prod.snd).getD 0)

/-! ### Special registers (R98, R99, R102) -/

/-- COORD (R102). -/
def coordOf (c : CoreId) : DWord := BitVec.ofNat 64 (coordBits c)

/-- Access of a level to a special register (R98): 0 none, 1 read, 2 read and write, 3 read and clear. -/
def sprAccess (lv : Level) : Spr → Nat
  | .vl | .ksel | .rnd | .pmask => 2
  | .prot | .egdone | .budget | .instret | .rbase | .lease1 | .lease2 => if lv = .task then 1 else 2
  | .coord | .foot | .group | .taskid | .time | .bnda | .bndb | .bndc => 1
  | .cycle => if lv = .machine then 2 else 1
  | .tvec | .epc | .ecause | .einfo => if lv = .task then 0 else 2
  | .tdies => match lv with | .task => 0 | .steward => 1 | .machine => 3
  | .tenant | .asid | .ptroot | .emerg => match lv with | .task => 0 | .steward => 1 | .machine => 2
  | .mtvec | .mepc | .mcause | .minfo => if lv = .machine then 2 else 0

/-- A special register, zero-extended (R99). -/
def getSpr (s : State) (c : CoreId) (r : Spr) : DWord :=
  let k := getCore s c
  let t := k.tregs
  let g := k.cregs
  match r with
  | .vl => t.vl.setWidth 64 | .ksel => t.ksel.setWidth 64 | .rnd => t.rnd.setWidth 64 | .prot => t.prot.setWidth 64
  | .pmask => t.pmask | .egdone => t.egdone.setWidth 64 | .coord => coordOf c | .foot => t.foot.setWidth 64
  | .group => t.group.setWidth 64 | .taskid => t.taskid | .budget => t.budget.setWidth 64 | .cycle => g.cycle
  | .time => s.time | .instret => t.instret | .rbase => t.rbase | .tvec => g.tvec | .epc => t.epc
  | .ecause => t.ecause.setWidth 64 | .einfo => t.einfo | .tdies => t.tdies.setWidth 64 | .tenant => t.tenant.setWidth 64
  | .asid => t.asid.setWidth 64 | .ptroot => t.ptroot | .lease1 => g.lease1.setWidth 64 | .lease2 => g.lease2.setWidth 64
  | .bnda => t.bnda.setWidth 64 | .bndb => t.bndb.setWidth 64 | .bndc => t.bndc.setWidth 64 | .emerg => g.emerg
  | .mtvec => g.mtvec | .mepc => g.mepc | .mcause => g.mcause.setWidth 64 | .minfo => g.minfo

/-- Clamp(v, 1, cap) with cap 32 under PROT and 64 otherwise (R99). -/
def clampVl (prot : BitVec 1) (v : DWord) : BitVec 7 :=
  BitVec.ofNat 7 (max 1 (min v.toNat (if prot = 1 then 32 else 64)))

/-- R200: lowering LEASE1 shortens the life of the copies already held. -/
def lowerLeases (k : Core) (v : Word) : Core :=
  { k with cregs := { k.cregs with lease1 := v }, l1 := k.l1.mapVals fun _ l => if v < l.lease then { l with lease := v } else l }

/-- A core with a special register written (R99); read-only registers do not change, TDIES clears the bits given. -/
def setSpr (k : Core) (r : Spr) (v : DWord) : Core :=
  let t := k.tregs
  let g := k.cregs
  match r with
  | .vl => { k with tregs := { t with vl := clampVl t.prot v } }
  | .ksel => { k with tregs := { t with ksel := v.setWidth 3 } }
  | .rnd => { k with tregs := { t with rnd := v.setWidth 2 } }
  | .prot =>
    if bitAt v 0 then { k with tregs := { t with prot := 1, vl := if 32 < t.vl.toNat then 32 else t.vl } }
    else { k with tregs := { t with prot := 0 } }
  | .pmask => { k with tregs := { t with pmask := v } }
  | .egdone => { k with tregs := { t with egdone := v.setWidth 8 } }
  | .coord | .foot | .group | .taskid | .time | .bnda | .bndb | .bndc => k
  | .budget => { k with tregs := { t with budget := v.setWidth 33 }, pend := { k.pend with budget := v.setWidth 33 == (0 : BitVec 33) } }
  | .cycle => { k with cregs := { g with cycle := v } }
  | .instret => { k with tregs := { t with instret := v } }
  | .rbase => { k with tregs := { t with rbase := v } }
  | .tvec => { k with cregs := { g with tvec := v } }
  | .epc => { k with tregs := { t with epc := v } }
  | .ecause => { k with tregs := { t with ecause := v.setWidth 12 } }
  | .einfo => { k with tregs := { t with einfo := v } }
  | .tdies => { k with tregs := { t with tdies := t.tdies &&& ~~~(v.setWidth 24) } }
  | .tenant => { k with tregs := { t with tenant := v.setWidth 16 } }
  | .asid => { k with tregs := { t with asid := v.setWidth 16 } }
  | .ptroot => { k with tregs := { t with ptroot := v } }
  | .lease1 => lowerLeases k (v.setWidth 32)
  | .lease2 => { k with cregs := { g with lease2 := v.setWidth 32 } }
  | .emerg => { k with cregs := { g with emerg := v } }
  | .mtvec => { k with cregs := { g with mtvec := v } }
  | .mepc => { k with cregs := { g with mepc := v } }
  | .mcause => { k with cregs := { g with mcause := v.setWidth 14 } }
  | .minfo => { k with cregs := { g with minfo := v } }

/-! ### The backing area (R103, R104) -/

/-- R104: whether a page may hold the backing area: R and W, U clear, MTYPE normal. -/
def areaPage (pg : Page) : Bool := pg.r && pg.w && !pg.u && pg.mtype == 0

/-- The place of `n` bytes of the backing or save area within a page; a page mapped otherwise raises PROTECT (R104). A page that is not
there raises PAGE_MISS (R183, log 48). -/
def areaLoc (c : CoreId) (va : DWord) (n : Nat) : M Loc := do
  let (e, b) ← findLeaf c va
  let pg := pageOf e b
  let pa := leafBase e + va.toNat % 2 ^ b
  require (areaPage pg) .protect va
  if aperture pa = 1 then
    let t : CoreId := BitVec.ofNat 12 (fieldOf pa 31 20)
    checkScratch c t (pa % 2 ^ 20) n va
    return .sram t (pa % 2 ^ 20) pg.region (some pg)
  else return .mem pa pg

/-- `n` bytes of the area, in pieces of lines, with the marks of their words (R368). -/
def areaRead (c : CoreId) : Nat → DWord → Nat → M (Nat × Nat)
  | 0, _, _ => return (0, 0)
  | fuel + 1, va, n => do
    if n = 0 then return (0, 0)
    let k := min n (128 - va.toNat % 128)
    let loc ← areaLoc c va k
    let (v, bad) ← readLoc c loc k va
    let s ← get
    let m := if bad then marksAt s c loc % 2 ^ (k / 4) else 0
    let (w, m') ← areaRead c fuel (va + BitVec.ofNat 64 k) (n - k)
    return (v + w * 2 ^ (8 * k), m + m' * 2 ^ (k / 4))

/-- The words of a piece of the area that are poisoned written again with their marks (R368). -/
def markWords (c : CoreId) (loc : Loc) (k v marks : Nat) (va : DWord) : M Unit :=
  if marks % 2 ^ (k / 4) = 0 then pure ()
  else eachOf (setBits (k / 4) marks) fun i =>
    let at' : Loc := match loc with | .mem pa pg => .mem (pa + 4 * i) pg | .sram t off g pg => .sram t (off + 4 * i) g pg
    writeLoc c at' 4 (v / 2 ^ (32 * i) % 2 ^ 32) true (va + BitVec.ofNat 64 (4 * i))

/-- `n` bytes written to the area, in pieces of lines; `marks` says which words are poisoned. -/
def areaWrite (c : CoreId) : Nat → DWord → Nat → Nat → Nat → M Unit
  | 0, _, _, _, _ => return ()
  | fuel + 1, va, n, v, marks => do
    if n = 0 then return ()
    let k := min n (128 - va.toNat % 128)
    let loc ← areaLoc c va k
    writeLoc c loc k (v % 2 ^ (8 * k)) false va
    markWords c loc k v marks va
    areaWrite c fuel (va + BitVec.ofNat 64 k) (n - k) (v / 2 ^ (8 * k)) (marks / 2 ^ (k / 4))

/-- The pages of an area probed before anything of it is written (R106). -/
def areaProbe (c : CoreId) (va : DWord) (n : Nat) : M Unit :=
  eachOf (List.range ((va.toNat % 65536 + n + 65535) / 65536)) fun i => do
    let a : DWord := if i = 0 then va else BitVec.ofNat 64 ((va.toNat / 65536 + i) * 65536)
    let _ ← areaLoc c a (min (65536 - a.toNat % 65536) (n - (a - va).toNat))

/-- The address of a frame row in the backing area (R103). -/
def rowAddr (k : Core) (n : Nat) : DWord := k.tregs.rbase + BitVec.ofNat 64 (256 * n)

/-- The address of a quarter of the scale file (R103, R105). -/
def scaleAddr (k : Core) (q : Nat) : DWord := k.tregs.rbase + BitVec.ofNat 64 (0x4000 + 256 * q)

/-- A core with a frame row replaced. -/
def setRow (k : Core) (n : BitVec 6) (r : FrameRow) : Core := { k with files := { k.files with x := k.files.x.set n.toNat r } }

/-- A frame row as the register cache holds it. -/
def getRow (k : Core) (n : BitVec 6) : FrameRow := k.files.x[n.toNat]

/-- R106: an instruction takes a block of the register cache; where the write-back that was to free one has faulted, that is its
fault. -/
def takeBlock (c : CoreId) : M Unit := do
  match (← theCore c).evictFault with
  | none => return ()
  | some t => do
    modCore c fun k => { k with evictFault := none }
    throw (.trap t)

/-- A frame row that an eviction has taken is filled from the backing area (R105, R106). Tag and poison stay in the core:
the core's fills use only the row's 256 bytes (R103); a word that is poisoned there poisons its cell too (R368). -/
def fillRow (c : CoreId) (n : BitVec 6) : M Unit := do
  let k ← theCore c
  let r := getRow k n
  if r.res = .gone then
    takeBlock c
    let (v, m) ← areaRead c 4 (rowAddr k n.toNat) 256
    modCore c fun k =>
      countPerf (setRow k n { row := { r.row with bits := BitVec.ofNat 2048 v, psn := r.row.psn ||| BitVec.ofNat 64 m }, res := .clean }) 6 1
  else return ()

/-- A dirty row written back to the backing area (R105). -/
def writeBackRow (c : CoreId) (n : BitVec 6) : M Unit := do
  let k ← theCore c
  let r := getRow k n
  if r.res = .dirty then
    areaProbe c (rowAddr k n.toNat) 256
    areaWrite c 4 (rowAddr k n.toNat) 256 r.row.bits.toNat 0
    modCore c fun k => countPerf (setRow k n { r with res := .clean }) 6 1
  else return ()

/-- The four quarters of the scale file (R105). -/
def scaleQuarter (k : Core) (q : Nat) : Nat :=
  (List.range 64).foldl (fun a i => a + (k.files.sc[64 * q + i]?.getD 0).toNat * 2 ^ (32 * i)) 0

/-- The residency of a quarter of the scale file. -/
def scaleRes (k : Core) (q : Nat) : Residency := k.files.scRes[q]?.getD .zero

/-- The residency of a quarter of the scale file set. -/
def setScaleRes (k : Core) (q : Nat) (r : Residency) : Core :=
  { k with files := { k.files with scRes := k.files.scRes.setIfInBounds q r } }

/-- The poison bits of a quarter of the scale file (R369). -/
def scaleMarks (k : Core) (q : Nat) : Nat := (slice k.files.scPsn (64 * q) 64 : BitVec 64).toNat

/-- A quarter of the scale file that an eviction has taken is filled from the backing area, with the marks of its words (R105, R368,
R369). -/
def fillScales (c : CoreId) (q : Nat) : M Unit := do
  let k ← theCore c
  if scaleRes k q = .gone then
    takeBlock c
    let (v, m) ← areaRead c 4 (scaleAddr k q) 256
    modCore c fun k =>
      let sc := (List.range 64).foldl (fun f i => f.setIfInBounds (64 * q + i) (BitVec.ofNat 32 (v >>> (32 * i)))) k.files.sc
      let psn := splice k.files.scPsn (64 * q) (BitVec.ofNat 64 m)
      countPerf (setScaleRes { k with files := { k.files with sc := sc, scPsn := psn } } q .clean) 6 1
  else return ()

/-- A dirty quarter of the scale file written back (R105). -/
def writeBackScales (c : CoreId) (q : Nat) : M Unit := do
  let k ← theCore c
  if scaleRes k q = .dirty then
    areaProbe c (scaleAddr k q) 256
    areaWrite c 4 (scaleAddr k q) 256 (scaleQuarter k q) (scaleMarks k q)
    modCore c fun k => countPerf (setScaleRes k q .clean) 6 1
  else return ()

/-- A scale register, once its quarter is resident. -/
def getScale (k : Core) (n : Nat) : Word := k.files.sc[n]?.getD 0

/-- A scale register written; its quarter must be resident. -/
def setScale (k : Core) (n : Nat) (v : Word) : Core :=
  setScaleRes { k with files := { k.files with sc := k.files.sc.setIfInBounds n v, scPsn := putBit k.files.scPsn n false } } (n / 64) .dirty

/-- Every register-cache item of the task written back (R100, R355); pinned rows are left out. -/
def writeBackAll (c : CoreId) : M Unit := do
  eachOf (List.range 64) fun i => do
    let k ← theCore c
    if bitAt (k.files.pins[i]?.getD 0) 287 then return () else writeBackRow c (BitVec.ofNat 6 i)
  eachOf (List.range 4) fun q => writeBackScales c q

end Sys2Proof.Machine
end

