-- ==== Sys2Proof/Machine/Context.lean ====
section
/-!
DEFINITION. The images of a task's context in memory, and their save and restore (R103, R354 to R360).
-/

namespace Sys2Proof.Machine

/-! ### Packing fields -/

/-- The `n` values of `w` bits that a number holds side by side. -/
def unpack (w : Nat) : Nat → Nat → List Nat
  | 0, _ => []
  | n + 1, v => v % 2 ^ w :: unpack w n (v / 2 ^ w)

/-- Fields placed at bit offsets. -/
def packAt : List (Nat × Nat) → Nat
  | [] => 0
  | (o, v) :: r => v * 2 ^ o + packAt r

/-- Whether a number has a bit set outside the named fields, each given by its lowest bit and its width. -/
def strayBits (fields : List (Nat × Nat)) (v : Nat) : Bool :=
  v &&& packAt (fields.map fun f => (f.1, 2 ^ f.2 - 1)) != v

/-- A piece of an image: byte offset, length in bytes, value. -/
abbrev Chunk := Nat × Nat × Nat

/-! ### Conditional streams' capacity (R262) -/

/-- The cells of a conditional stream: 64 × Min(512, S / 1,024). -/
def streamCells (k : Core) : Nat := 64 * min 512 (scratchSize k / 1024)

/-! ### Images (R103, R354, R356, R357) -/

/-- Bits 31:0 of a tag list and so on: a core's frame rows and scale quarters in the layout of R103. -/
def rowChunks (k : Core) : List Chunk :=
  (List.range 64).map (fun n => (256 * n, 256, (getRow k (BitVec.ofNat 6 n)).row.bits.toNat))
    ++ (List.range 4).map (fun q => (0x4000 + 256 * q, 256, scaleQuarter k q))

/-- The VP blocks of a queue, in order: each takes the next VP-block record (R354). -/
def vpChunks (vq : List Entry) : List Chunk :=
  let bs := vq.filterMap fun e => e.vp.map fun v => (v, e.env)
  ((List.range bs.length).zip bs).flatMap fun p =>
    let b := p.1
    let v := p.2.1
    let env := p.2.2
    [(0x6000 + 512 * b, 128, pack 8 (v.image.map BitVec.toNat)),
      (0x6000 + 512 * b + 128, 256, pack 64 (env.s.toList.map BitVec.toNat)),
      (0x6000 + 512 * b + 384, 128, 0)]

/-- The rest of the backing area (R103): tags, masks, scalars, pin records and VP-block records. -/
def backingChunks (k : Core) : List Chunk :=
  [(0x4400, 128, pack 16 (k.files.x.toList.map fun r => r.row.tag.toNat)),
    (0x4480, 64, pack 64 ((2 ^ 64 - 1) :: (k.files.k.toList.drop 1).map BitVec.toNat)),
    (0x44C0, 256, pack 64 (0 :: (k.files.s.toList.drop 1).map BitVec.toNat))]
    ++ (List.range 64).map (fun n => (0x5000 + 64 * n, 64, (k.files.pins[n]?.getD 0).toNat))
    ++ vpChunks k.streams.vq

/-- The state of a latch as it is saved (R354). -/
def LatchState.saved : LatchState → Nat
  | .full => 2
  | _ => 0

/-- The control block (R356). -/
def controlBlock (k : Core) : Nat :=
  let t := k.tregs
  let q := k.queues
  let z := k.streams
  packAt
    [(0, t.vl.toNat), (8, t.ksel.toNat), (16, t.rnd.toNat), (24, t.prot.toNat), (32, t.egdone.toNat), (64, t.pmask.toNat),
      (128, t.budget.toNat), (192, t.instret.toNat),
      (8 * 0x20, pack 8 (q.sq.toList.map List.length)), (8 * 0x28, pack 8 (q.rq.toList.map List.length)),
      (8 * 0x30, pack 64 (q.rq.toList.map fun l => pack 16 (l.map fun r => r.tag.toNat))),
      (8 * 0x70, pack 256 (q.rq.toList.map fun l => pack 64 (l.map fun r => r.psn.toNat))),
      (8 * 0x170, z.vq.length), (8 * 0x170 + 8, z.mq.length), (8 * 0x170 + 16, if z.vq.isEmpty then 0 else 1),
      (8 * 0x178, pack 64 (z.cs.toList.map fun c => packAt [(0, c.head.toNat), (16, c.count.toNat), (32, c.tag.toNat)])),
      (8 * 0x198, packAt [(0, if z.tx.isOpen then 1 else 0), (1, if z.tx.bad then 1 else 0), (4, z.tx.pairs.length)]),
      (8 * 0x1A0, z.tx.desc.toNat), (8 * 0x1A8, pack 128 (z.tx.pairs.map fun p => packAt [(0, p.1.toNat), (64, p.2.toNat)])),
      (8 * 0x228, z.copyId.toNat), (8 * 0x230, z.nextSeq.toNat),
      (8 * 0x238, packAt [(0, if z.arrived = some k.pc then 1 else 0), (1, if z.qlockQueued then 1 else 0)]),
      (8 * 0x240, pack 64 (k.files.x.toList.map fun r => r.row.psn.toNat))]

/-- The fields of the control block (R356), each with its lowest bit and its width. -/
def controlFields : List (Nat × Nat) :=
  [(0, 7), (8, 3), (16, 2), (24, 1), (32, 8), (64, 64), (128, 33), (192, 64), (8 * 0x20, 64), (8 * 0x28, 64), (8 * 0x30, 512),
    (8 * 0x70, 2048), (8 * 0x170, 18), (8 * 0x178, 48), (8 * 0x180, 48), (8 * 0x188, 48), (8 * 0x190, 48), (8 * 0x198, 2),
    (8 * 0x198 + 4, 4), (8 * 0x1A0, 64), (8 * 0x1A8, 1024), (8 * 0x228, 64), (8 * 0x230, 32), (8 * 0x238, 2), (8 * 0x240, 4096)]

/-- The VP-block record number of the interrupted entry: it is the oldest `vfb`, so 0 (R354). -/
def popImage (l : List Row) : List Chunk :=
  [(0x2F400, 512, pack 2048 (l.map fun r => r.bits.toNat)),
    (0x2F600, 8, pack 16 (l.map fun r => r.tag.toNat)),
    (0x2F608, 16, pack 64 (l.map fun r => r.psn.toNat))]

/-- The interrupted entry's state (R357). -/
def interruptedChunks (k : Core) : List Chunk :=
  match k.streams.vq with
  | [] => []
  | e :: _ => popImage e.popped ++
    match e.vp with
    | none => []
    | some v =>
      [(0x2F700, 256, 0), (0x2F800, 512, pack 64 (v.pcs.toList.map BitVec.toNat)), (0x2FA00, 8, v.done.toNat)]

/-- The packed instructions of the repeat buffer (R257), in bytes of their encodings. -/
def bodyBytes (b : List RepeatInstr) : Nat :=
  match b with
  | [] => 0
  | i :: r => i.word.toNat % 2 ^ (8 * i.len) + 2 ^ (8 * i.len) * bodyBytes r

/-- VL, KSEL, RND and PROT as they are packed at +0x000 of the control block. -/
def modeWord (e : Env) : Nat := packAt [(0, e.vl.toNat), (8, e.ksel.toNat), (16, e.rnd.toNat), (24, e.prot.toNat)]

/-- The repeat buffer and the sequencer (R357). -/
def repeatChunks (k : Core) : List Chunk :=
  let r := k.streams.rep
  [(0x2FB00, 64, pack 8 (r.body.map fun i => i.flags.toNat)), (0x2FB40, 256, bodyBytes r.body)]
    ++ (List.range 6).map (fun l =>
      let v := r.levels[l]?.getD { count := 0, os := 0, as := 0 }
      (0x2FC40 + 16 * l, 16, packAt [(0, v.count.toNat), (32, v.os.toNat), (64, v.as.toNat)]))
    ++ (match r.run with
      | some q =>
        [(0x2FCA0, 32, packAt [(0, pack 32 (q.iter.toList.map BitVec.toNat)), (192, q.j), (224, 1)]),
          (0x2FCC0, 256, pack 64 (q.env.s.toList.map BitVec.toNat)), (0x2FDC0, 8, modeWord q.env)]
      | none => [(0x2FCA0, 32, 0)])

/-- The save area (R354), at offsets from its own start. -/
def saveChunks (k : Core) : List Chunk :=
  let q := k.queues
  let z := k.streams
  (List.range 4).flatMap (fun n =>
    let h := k.files.h[n]?.getD Hoop.zero
    (List.range 64).map (fun i => (0x8000 * n + 512 * i, 512, (h.rows[i]?.getD 0).toNat))
      ++ [(0x20000 + 1024 * n, 1024, pack 128 (h.psn.toList.map BitVec.toNat))])
    ++ (List.range 2).flatMap (fun n =>
      let l := k.files.l[n]?.getD Latch.blank
      let o := 0x21000 + 0x4400 * n
      [(o, 128, packAt [(0, l.scale.toNat), (32, l.hdr.toNat)]), (o + 128, 16384, l.tile.toNat), (o + 0x4080, 1, l.state.saved),
        (o + 0x4100, 512, l.psn.toNat)])
    ++ (List.range 8).map (fun n =>
      let l := q.sq[n]?.getD []
      (0x29800 + 128 * n, 8 * l.length, pack 64 (l.map BitVec.toNat)))
    ++ (List.range 8).map (fun m =>
      let l := q.rq[m]?.getD []
      (0x29C00 + 1024 * m, 256 * l.length, pack 2048 (l.map fun r => r.bits.toNat)))
    ++ [(0x2BC00, 2048, controlBlock k)]
    ++ ((List.range z.vq.length).zip z.vq).map (fun p => (0x2C400 + 64 * p.1, 64, (Config.savedEntry p.2.seq p.2.ipc).toNat))
    ++ ((List.range z.mq.length).zip z.mq).map (fun p => (0x2E400 + 64 * p.1, 64, (Config.savedEntry p.2.seq p.2.ipc).toNat))
    ++ interruptedChunks k ++ repeatChunks k

/-- Both areas after the rows and scales, at offsets from RBASE. -/
def contextChunks (k : Core) : List Chunk :=
  backingChunks k ++ (saveChunks k).map fun e => (e.1 + 0x8000, e.2)

/-! ### Saving (R355, R358) -/

/-- A computation whose fault is reported with the address that it was about (R358). -/
def faultingAt {α : Type} (va : DWord) (m : M α) : M α :=
  tryCatch m fun e => match e with
    | .trap t => throw (.trap { t with einfo := va })
    | e => throw e

/-- A write of the save: each line's bytes are pushed to the L2 home (R355 step 4). -/
def saveWrite (c : CoreId) : Nat → DWord → Nat → Nat → Nat → M Unit
  | 0, _, _, _, _ => return ()
  | fuel + 1, va, n, v, marks => do
    if n = 0 then return ()
    let k := min n (128 - va.toNat % 128)
    faultingAt va do
      let loc ← areaLoc c va k
      writeLoc c loc k (v % 2 ^ (8 * k)) false va
      markWords c loc k v marks va
      match loc with
      | .mem pa _ => do
        reachHome c (lineOf pa) va
        modify fun s => pushL1 s c (lineOf pa)
        let s ← get
        awaitThat (!(Push.line (lineOf pa)).sends s c || lineBusy s c (lineOf pa))
      | .sram .. => pure ()
    saveWrite c fuel (va + BitVec.ofNat 64 k) (n - k) (v / 2 ^ (8 * k)) (marks / 2 ^ (k / 4))

/-- Whether an item's value is not in the backing area: it is dirty, or has never been written since the task's start (R105). -/
def Residency.unsaved : Residency → Bool
  | .dirty | .zero => true
  | .clean | .gone => false

/-- The rows and scales that the save writes back, those that no pattern binds: the dirty ones (R105, R355), and those that were never
written, so that they read the same when they are filled again (R92). -/
def dirtyChunks (k : Core) : List Chunk :=
  (rowChunks k).filter fun e =>
    let n := e.1 / 256
    if n < 64 then (getRow k (BitVec.ofNat 6 n)).res.unsaved && !bitAt (k.files.pins[n]?.getD 0) 287
    else (scaleRes k (n - 64)).unsaved

/-- The marks that the words of a chunk carry: those of the scale registers, whose poison the images hold in no other way (R368, R369). -/
def chunkMarks (k : Core) (e : Chunk) : Nat := if 0x4000 ≤ e.1 ∧ e.1 < 0x4400 then scaleMarks k ((e.1 - 0x4000) / 256) else 0

/-- Chunks written from RBASE. -/
def saveAt (c : CoreId) (base : DWord) (l : List Chunk) : M Unit := do
  let k ← theCore c
  eachOf l fun e => saveWrite c (e.2.1 / 128 + 2) (base + BitVec.ofNat 64 e.1) e.2.1 e.2.2 (chunkMarks k e)

/-- Every item of the register cache that a save has written is clean, and pinned rows are unpicked (R105). -/
def settleRows (k : Core) : Core :=
  let x := k.files.x.mapFinIdx fun i r _ =>
    if bitAt (k.files.pins[i]?.getD 0) 287 then { r with res := Residency.gone }
    else if r.res.unsaved then { r with res := Residency.clean } else r
  let sc := k.files.scRes.map fun r => if r.unsaved then Residency.clean else r
  { k with files := { k.files with x := x, scRes := sc } }

/-- R358, R377: a push of a save that has timed out is a fault of the save, at the address of its line. -/
def saveTimedOut (c : CoreId) : M Unit := do
  let s ← get
  let base := (getCore s c).tregs.rbase
  let areas := (List.range 4).filterMap fun i =>
    let va := base + BitVec.ofNat 64 (65536 * i)
    (peekPlace s c va).map fun p => (p.1, va)
  let at? (m : PushMsg) : Option DWord :=
    if m.failed && m.core == c then
      areas.findSome? fun a => if m.push.at / 512 = a.1 / 65536 then some (a.2 + BitVec.ofNat 64 (128 * m.push.at - a.1)) else none
    else none
  match s.hub.pushes.findSome? at? with
  | some va => do
    modHub fun h => { h with pushes := h.pushes.filter fun m => (at? m).isNone }
    raise .remoteTimeout va
  | none => pure ()

/-- The save into the task's own areas, which is complete once its pushes have been performed (R355). -/
def saveContext (c : CoreId) : M Unit := do
  saveTimedOut c
  let k ← theCore c
  let l := dirtyChunks k
  saveAt c k.tregs.rbase (l ++ contextChunks k)
  awaitThat (!pushPending (← get) c)
  modCore c fun k => countPerf (settleRows k) 6 l.length

/-- R358: the rows and scales that are not resident as the backing area holds them. One whose fill faults stays there. -/
def areaItems (c : CoreId) : M Unit := do
  let skipTraps : Stop → M Unit := fun e => match e with | .trap _ => return () | e => throw e
  eachOf (List.range 64) fun i => do
    let k ← theCore c
    if bitAt (k.files.pins[i]?.getD 0) 287 then return ()
    else tryCatch (fillRow c (BitVec.ofNat 6 i)) skipTraps
  eachOf (List.range 4) fun q => tryCatch (fillScales c q) skipTraps

/-- The items that stand in the backing area alone, pinned rows apart. -/
def goneItems (k : Core) : BitVec 68 :=
  let rows := (List.range 64).map fun i => (getRow k (BitVec.ofNat 6 i)).res == .gone && !bitAt (k.files.pins[i]?.getD 0) 287
  BitVec.ofNat 68 (pack 1 ((rows ++ (List.range 4).map fun q => scaleRes k q == .gone).map fun b => if b then 1 else 0))

/-- R393: whether the homes of the emergency area's flags and images take requests. -/
def emergencyReady (s : State) (e : Nat) : Bool := rangeReady s e 0x39000

/-- The save into the emergency area (R358): both images whole, HELD, SFADDR and SFCODE. What could not be read from the backing area has
an undefined image, and stands there still (DESIGN CHOICE, log 55). -/
def saveEmergency (s : State) (c : CoreId) (addr : DWord) (code : Nat) : State :=
  let k := getCore s c
  let gone := goneItems k
  let e := k.cregs.emerg.toNat
  let undefined (n : Nat) : Nat := pack 32 ((List.range 64).map fun i => (Config.freeWord (s.free + 64 * n + i)).toNat)
  let item (p : Chunk) : Chunk :=
    let n := p.1 / 256
    if bitAt gone (if n < 64 then n else n - 0x4000 / 256 + 64) then (p.1, p.2.1, undefined n) else p
  let s := (rowChunks k).foldl (fun s p => hubStoreMarked s (e + 0x1000 + p.1) p.2.1 (item p).2.2 (chunkMarks k p)) s
  let s := (contextChunks k).foldl (fun s p => hubStore s (e + 0x1000 + p.1) p.2.1 p.2.2) s
  let s := hubStore s (e + 0x100) 24 (packAt [(0, 1), (64, addr.toNat), (128, code)])
  let s := if gone = 0 then s else { s with free := s.free + 64 * 68 }
  updCore s c fun k => settleRows { k with streams := { k.streams with parked := { k.streams.parked with gone := gone } } }

/-! ### What a repeat buffer and a latch may hold (R157, R258) -/

/-- R157: whether a header word is legal. -/
def headerOk (hdr : Nat) : Bool :=
  (hdr % 16 == 3 || hdr % 16 == 4 || hdr % 16 == 5) && !strayBits [(0, 4), (8, 3)] hdr

/-- R155: whether the task's plot is 6 × 8. -/
def ringPlot (k : Core) : Bool := slice k.tregs.foot 32 8 == (6 : BitVec 8) && slice k.tregs.foot 40 8 == (8 : BitVec 8)

/-- MIN of a word of majors 16, 17 and 19 (R67 to R69): bits 9:7. -/
def minor3 (w : Nat) : Nat := w / 128 % 8

/-- Whether an instruction has a frame operand field (R258). -/
def hasFrameField (w : Nat) : Bool :=
  w % 2 = 0 || w % 4 = 3 || (match w / 4 % 32 with
    | 10 | 11 | 12 => true
    | 16 => minor3 w == 0
    | 19 => minor3 w < 2
    | _ => false)

/-- Whether an instruction has a base register (R258): the addresses of majors 10, 11 and 12, of `mma` and `mdarn`, of `hld` and
`hst`, and of `mld`. -/
def hasBase (w : Nat) : Bool :=
  w % 4 = 1 && (match w / 4 % 32 with
    | 10 | 11 | 12 | 15 => true
    | 16 => minor3 w == 2 || minor3 w == 3
    | 17 => minor3 w == 0
    | _ => false)

/-- R258: whether `lbuf` takes an instruction, by its word. -/
def repeatable (w : Nat) : Bool :=
  w % 2 = 0 || w % 4 = 3 || (match w / 4 % 32 with
    | 10 | 11 | 12 | 15 | 16 | 17 => true
    | 19 => minor3 w < 3
    | 23 => w / 128 % 32 == 3 || w / 128 % 32 == 9
    | _ => false)

/-- LV of a flag byte (R257). -/
def flagLevel (f : Byte) : Nat := (slice f 0 3).toNat

/-- Whether an instruction may not stand outside a 6 × 8 plot (R155). -/
def needsPlot : Instr → Bool
  | .mmaRing .. | .mpass _ => true
  | _ => false

/-- R258: an instruction of an image with its flag byte, the flag byte and the instruction at the given addresses; the offender's
address where one breaks a rule. -/
def repeatInstr (k : Core) (flags : Byte) (w n : Nat) (fva iva : DWord) : Except DWord RepeatInstr :=
  if bitAt flags 7 || 5 < flagLevel flags then .error fva
  else
    match decode (leBytes n w) with
    | .error _ => .error iva
    | .ok (i, _) =>
      if !repeatable w || (needsPlot i && !ringPlot k) then .error iva
      else if (bitAt flags 6 && !hasBase w) || (bitAt flags 5 && !hasFrameField w) then .error fva
      else .ok { flags := flags, len := n, word := BitVec.ofNat 32 w, instr := i }

/-! ### Restoring (R360) -/

/-- The way in which a restore reads `n` bytes at an offset from RBASE. -/
abbrev Source := Nat → Nat → M Nat

/-- From the task's areas. -/
def fromArea (c : CoreId) (base : DWord) : Source := fun o n => do
  return (← areaRead c (n / 128 + 2) (base + BitVec.ofNat 64 o) n).1

/-- From the emergency area. -/
def fromEmergency (e : Nat) : Source := fun o n => do
  return (← answer fun s => let (s, v) := hubLoad s (e + 0x1000 + o) n; (s, v.1))

/-- The marks of the scale registers in the emergency area (R368). -/
def emergencyMarks (s : State) (e : Nat) : BitVec 256 :=
  BitVec.ofNat 256 (pack 1 ((List.range 256).map fun i => if (hubLoad s (e + 0x5000 + 4 * i) 4).2.2 then 1 else 0))

/-- Whether a tag is well formed (R79). -/
def tagOk (t : HWord) : Bool :=
  let v := t.toNat
  let code := v % 16
  let base := v / 256
  code ≤ 13 && v / 32 % 8 == 0 &&
    (if v / 16 % 2 = 1 then (code == 5 && base + 1 ≤ 255) || (code == 10 && base + 3 ≤ 255) else base == 0)

/-- A value of the save area that breaks a rule of its item (R360). -/
def keepRule (b : Bool) : M Unit := require b .format 0

/-- The scalar queues, the row queues and the streams of a control block. -/
def restoreQueues (c : CoreId) (src : Source) (v : Nat) : M Unit := do
  let sqn := unpack 8 8 (v >>> (8 * 0x20))
  let rqn := unpack 8 8 (v >>> (8 * 0x28))
  keepRule (sqn.all (· ≤ 16) && rqn.all (· ≤ 4))
  let sq ← collect (List.range 8) fun n => do
    let m := sqn.getD n 0
    let w ← src (0x8000 + 0x29800 + 128 * n) (8 * m)
    return (unpack 64 m w).map (BitVec.ofNat 64)
  let rq ← collect (List.range 8) fun n => do
    let m := rqn.getD n 0
    let w ← src (0x8000 + 0x29C00 + 1024 * n) (256 * m)
    let tags := unpack 16 4 (v >>> (8 * (0x30 + 8 * n)))
    let psn := unpack 64 4 (v >>> (8 * (0x70 + 32 * n)))
    keepRule ((tags.take m).all fun t => tagOk (BitVec.ofNat 16 t))
    return (List.range m).map fun j =>
      ({ bits := BitVec.ofNat 2048 (w >>> (2048 * j)), psn := BitVec.ofNat 64 (psn.getD j 0), tag := BitVec.ofNat 16 (tags.getD j 0) } : Row)
  modCore c fun k => { k with queues := { k.queues with sq := Vector.ofFn fun i => sq.getD i.val [], rq := Vector.ofFn fun i => rq.getD i.val [] } }

/-- The mode registers, the streams, the transaction and the flags of a control block; an ARRIVED flag is the `barw`'s at the address
where the task resumes (R328, R360). -/
def restoreControl (c : CoreId) (pc : DWord) (v : Nat) : M Unit := do
  let k ← theCore c
  let cells := streamCells k
  let vl := fieldOf v 6 0
  let ncmp := fieldOf v (8 * 0x198 + 7) (8 * 0x198 + 4)
  keepRule (1 ≤ vl && vl ≤ (if v.testBit 24 then 32 else 64) && ncmp ≤ 8)
  let cs := unpack 64 4 (v >>> (8 * 0x178))
  keepRule (cs.all fun w => (w % 65536 < cells || w % 65536 == 0) && w / 65536 % 65536 ≤ cells && tagOk (BitVec.ofNat 16 (w >>> 32)))
  let pairs := (unpack 128 8 (v >>> (8 * 0x1A8))).take ncmp
  modCore c fun k =>
    let t := { k.tregs with
      vl := BitVec.ofNat 7 vl, ksel := BitVec.ofNat 3 (v >>> 8), rnd := BitVec.ofNat 2 (v >>> 16), prot := BitVec.ofNat 1 (v >>> 24)
      egdone := BitVec.ofNat 8 (v >>> 32), pmask := BitVec.ofNat 64 (v >>> 64), instret := BitVec.ofNat 64 (v >>> 192) }
    let cs' : Vector CondStream 4 := Vector.ofFn fun i =>
      let w := cs.getD i.val 0
      { head := BitVec.ofNat 16 w, count := BitVec.ofNat 16 (w >>> 16), tag := BitVec.ofNat 16 (w >>> 32) }
    let tx : Transaction :=
      { isOpen := v.testBit (8 * 0x198), desc := BitVec.ofNat 64 (v >>> (8 * 0x1A0)), bad := v.testBit (8 * 0x198 + 1)
        pairs := pairs.map fun w => (BitVec.ofNat 64 w, BitVec.ofNat 32 (w >>> 64)), request := none }
    let z := { k.streams with
      cs := cs', tx := tx, copyId := BitVec.ofNat 64 (v >>> (8 * 0x228)), nextSeq := BitVec.ofNat 32 (v >>> (8 * 0x230))
      arrived := if v.testBit (8 * 0x238) then some pc else none, qlockRefused := none
      qlockQueued := v.testBit (8 * 0x238 + 1), qlockGranted := k.streams.parked.lock.granted && v.testBit (8 * 0x238 + 1)
      qlockWord := k.streams.parked.lock.word }
    { k with tregs := t, streams := z }

/-- Hoops and latches. The area holds no order of two FULL latches: both become FULL at one moment, so l0 is taken first (R168, DESIGN CHOICE, log 55). -/
def restoreTiles (c : CoreId) (src : Source) : M Unit := do
  let hs ← collect (List.range 4) fun n => do
    let rows ← collect (List.range 64) fun i => src (0x8000 + 0x8000 * n + 512 * i) 512
    let p ← src (0x8000 + 0x20000 + 1024 * n) 1024
    return ({ rows := Vector.ofFn fun i => BitVec.ofNat 4096 (rows.getD i.val 0)
              psn := Vector.ofFn fun i => BitVec.ofNat 128 (p >>> (128 * i.val)) } : Hoop)
  let ls ← collect (List.range 2) fun n => do
    let o := 0x8000 + 0x21000 + 0x4400 * n
    let h ← src o 8
    let tile ← src (o + 128) 16384
    let st ← src (o + 0x4080) 1
    let p ← src (o + 0x4100) 512
    keepRule (st == 0 || (st == 2 && headerOk (h >>> 32)))
    return ({ state := if st = 2 then .full else .empty, scale := BitVec.ofNat 32 h, hdr := BitVec.ofNat 32 (h >>> 32)
              tile := BitVec.ofNat 131072 tile, psn := BitVec.ofNat 4096 p, stamp := 0 } : Latch)
  modCore c fun k => { k with files := { k.files with h := Vector.ofFn fun i => hs.getD i.val Hoop.zero, l := Vector.ofFn fun i => ls.getD i.val Latch.blank } }

/-- Whether a pin record of row `n` keeps its rules (R299). -/
def pinOk (n w : Nat) : Bool :=
  if w.testBit 287 then
    fieldOf w 265 260 == n && 1 ≤ fieldOf w 259 256 && fieldOf w 259 256 ≤ 8 && 1 ≤ fieldOf w 272 266 && fieldOf w 272 266 ≤ 64
      && 1 ≤ fieldOf w 275 274 && fieldOf w 275 274 ≤ 2 && fieldOf w 286 276 == 0 && fieldOf w 319 303 == 0
      && fieldOf w (32 * 8 - 1) 0 >>> (32 * fieldOf w 259 256) == 0
  else true

/-- Tags, masks, scalars, pin records, and rows and scales that are not resident; `held` takes rows and scales from the
emergency image as dirty items (log 12), but for those that stand in the backing area alone, and `marks` are the poisoned scales there. -/
def restoreFiles (c : CoreId) (src : Source) (v : Nat) (held : Bool) (marks : BitVec 256) : M Unit := do
  let tags := unpack 16 64 (← src 0x4400 128)
  let ks := unpack 64 8 (← src 0x4480 64)
  let ss := unpack 64 32 (← src 0x44C0 256)
  let pins ← collect (List.range 64) fun n => src (0x5000 + 64 * n) 64
  keepRule (tags.all (fun t => tagOk (BitVec.ofNat 16 t)) && (List.range 64).all (fun n => pinOk n (pins.getD n 0)))
  let psn := unpack 64 64 (v >>> (8 * 0x240))
  let rows ← if held then collect (List.range 64) fun n => src (256 * n) 256 else pure []
  let scs ← if held then collect (List.range 4) fun q => src (0x4000 + 256 * q) 256 else pure []
  modCore c fun k =>
    let x := k.files.x.mapFinIdx fun i r _ =>
      let bits := if held then BitVec.ofNat 2048 (rows.getD i 0) else r.row.bits
      let pinned := (pins.getD i 0).testBit 287
      { row := { bits := bits, psn := BitVec.ofNat 64 (psn.getD i 0), tag := BitVec.ofNat 16 (tags.getD i 0) }
        res := if held && !pinned && !bitAt k.streams.parked.gone i then Residency.dirty else .gone : FrameRow }
    let sc := if held then k.files.sc.mapFinIdx fun i _ _ => BitVec.ofNat 32 ((scs.getD (i / 64) 0) >>> (32 * (i % 64))) else k.files.sc
    { k with files := { k.files with
        x := x, sc := sc, scPsn := marks, pinTags := k.streams.parked.pinTags
        scRes := Vector.ofFn fun q => if held && !bitAt k.streams.parked.gone (64 + q.val) then Residency.dirty else .gone
        k := Vector.ofFn fun i => if i.val = 0 then BitVec.allOnes 64 else BitVec.ofNat 64 (ks.getD i.val 0)
        s := Vector.ofFn fun i => if i.val = 0 then 0 else BitVec.ofNat 64 (ss.getD i.val 0)
        pins := Vector.ofFn fun i => BitVec.ofNat 512 (pins.getD i.val 0) } }

/-- The instructions that a byte list holds, one for each flag byte, each of which `lbuf` takes (R258). -/
def decodeBody (k : Core) : List Nat → List Byte → Option (List RepeatInstr)
  | [], _ => some []
  | f :: fs, bs =>
    let w := leNat (bs.take 2)
    let n := if w % 2 = 0 then 2 else 4
    match repeatInstr k (BitVec.ofNat 8 f) (leNat (bs.take n)) n 0 0, decodeBody k fs (bs.drop n) with
    | .ok i, some r => some (i :: r)
    | _, _ => none

/-- The repeat buffer keeps its number of instructions, which the area does not hold (log 12). -/
def restoreRepeat (c : CoreId) (src : Source) : M Unit := do
  let k ← theCore c
  let n := k.streams.parked.bufLen
  let flags := unpack 8 64 (← src (0x8000 + 0x2FB00) 64)
  let code ← src (0x8000 + 0x2FB40) 256
  let levels ← collect (List.range 6) fun l => src (0x8000 + 0x2FC40 + 16 * l) 16
  let pos ← src (0x8000 + 0x2FCA0) 32
  let caps ← src (0x8000 + 0x2FCC0) 256
  let mode ← src (0x8000 + 0x2FDC0) 8
  keepRule ((flags.take n).all fun f => f < 128 && f % 8 ≤ 5)
  keepRule (levels.all fun w => !strayBits [(0, 32), (32, 6), (64, 32)] w)
  keepRule (!strayBits [(0, 208), (224, 1)] pos)
  match decodeBody k (flags.take n) (leBytes 256 code) with
  | none => raise .format 0
  | some body =>
    let j := fieldOf pos 207 192
    let running := pos.testBit 224
    keepRule (!running || (j ≤ n && !strayBits [(0, 7), (8, 3), (16, 2), (24, 1)] mode && 1 ≤ mode % 128
      && mode % 128 ≤ (if mode.testBit 24 then 32 else 64)))
    modCore c fun k =>
      let env : Env := { vl := BitVec.ofNat 7 mode, ksel := BitVec.ofNat 3 (mode >>> 8), rnd := BitVec.ofNat 2 (mode >>> 16)
                         prot := BitVec.ofNat 1 (mode >>> 24), s := Vector.ofFn fun i => BitVec.ofNat 64 (caps >>> (64 * i.val)) }
      let run : RepeatRun := { iter := Vector.ofFn fun i => BitVec.ofNat 32 (pos >>> (32 * i.val)), j := j, env := env
                               ipc := k.streams.parked.lrunPc, stop := k.streams.parkedStop }
      let lv : Vector RepeatLevel 6 := Vector.ofFn fun i =>
        let w := levels.getD i.val 0
        { count := BitVec.ofNat 32 w, os := BitVec.ofNat 6 (w >>> 32), as := BitVec.ofNat 32 (w >>> 64) }
      { k with streams := { k.streams with
          parkedStop := false, lrunPc := k.streams.parked.lrunPc, bufLen := n, rep := { body := body, levels := lv, run := if running then some run else none } } }

/-- The block image and the capture of a `vfb` entry restored from VP-block record `b` (R103, R354). -/
def restoreBlock (src : Source) (b : Nat) (e : Entry) : M Entry := do
  match e.vp with
  | none => return e
  | some v =>
    let image ← src (0x6000 + 512 * b) 128
    let caps ← src (0x6000 + 512 * b + 128) 256
    return { e with vp := some { v with image := leBytes v.image.length image }
                    env := { e.env with s := Vector.ofFn fun i => BitVec.ofNat 64 (caps >>> (64 * i.val)) } }

/-- The entries of a queue with their VP blocks restored, each from the next record. -/
def restoreBlocks (src : Source) : Nat → List Entry → M (List Entry)
  | _, [] => return []
  | b, e :: r => do
    let e' ← restoreBlock src b e
    let r' ← restoreBlocks src (if e.vp.isSome then b + 1 else b) r
    return e' :: r'

/-- The state of an interrupted entry restored (R357): popped rows, the groups done, and a `vfb`'s VP PCs, finished VPs and record. -/
def restoreHead (src : Source) (eg : Byte) (e : Entry) : M Entry := do
  let img ← src (0x8000 + 0x2F400) 512
  let tags := unpack 16 2 (← src (0x8000 + 0x2F600) 8)
  let psn := unpack 64 2 (← src (0x8000 + 0x2F608) 16)
  let n := e.popped.length
  keepRule ((tags.take n).all fun t => tagOk (BitVec.ofNat 16 t))
  let popped := (List.range n).map fun j =>
    ({ bits := BitVec.ofNat 2048 (img >>> (2048 * j)), psn := BitVec.ofNat 64 (psn.getD j 0), tag := BitVec.ofNat 16 (tags.getD j 0) } : Row)
  match e.vp with
  | none => return { e with popped := popped, egdone := eg }
  | some v =>
    let b ← src (0x8000 + 0x2F700) 256
    keepRule (b < 16)
    let pcs ← src (0x8000 + 0x2F800) 512
    let done ← src (0x8000 + 0x2FA00) 8
    let v' : VpState := { v with pcs := Vector.ofFn fun i => BitVec.ofNat 64 (pcs >>> (64 * i.val)), done := BitVec.ofNat 64 done }
    restoreBlock src b { e with popped := popped, egdone := eg, vp := some v' }

/-- The issue queues restored from the parked entries under the counts of the control block (R360, log 11). -/
def restoreIssue (c : CoreId) (src : Source) (v : Nat) : M Unit := do
  let k ← theCore c
  let z := k.streams
  let vqn := fieldOf v (8 * 0x170 + 7) (8 * 0x170)
  let mqn := fieldOf v (8 * 0x170 + 15) (8 * 0x170 + 8)
  let drop := v.testBit (8 * 0x170 + 17)
  keepRule (vqn ≤ z.parkedV.length && mqn ≤ z.parkedM.length)
  let vq ← match ← restoreBlocks src 0 (z.parkedV.take vqn) with
    | [] => pure []
    | e :: r =>
      if drop then pure r
      else if v.testBit (8 * 0x170 + 16) then do
        let e ← restoreHead src (BitVec.ofNat 8 (v >>> 32)) e
        pure (e :: r)
      else pure (e :: r)
  modCore c fun k => { k with streams := { k.streams with vq := vq, mq := z.parkedM.take mqn, parkedV := [], parkedM := []
                                                          deferred := z.parkedSync, parkedSync := [] } }

/-- R360: every item but the PC, `pc`, and BUDGET restored from the save area, or from EMERG when HELD is set. A home of the emergency area
that is not ready raises PROTECT (R393), with EINFO 0, since no virtual address names it (log 30). -/
def restoreContext (c : CoreId) (pc : DWord) : M Unit := do
  let k ← theCore c
  let e := k.cregs.emerg.toNat
  let held ← if e = 0 then pure false else do
    require (homeReady (← get) (lineOf (e + 0x100))) .protect 0
    let v ← answer fun s => let (s, v) := hubLoad s (e + 0x100) 8; (s, v.1)
    pure (v.testBit 0)
  require (!held || emergencyReady (← get) e) .protect 0
  let src := if held then fromEmergency e else fromArea c k.tregs.rbase
  let v ← src (0x8000 + 0x2BC00) 2048
  keepRule (!strayBits controlFields v)
  let s ← get
  let marks := if held then emergencyMarks s e else 0
  restoreFiles c src v held marks
  restoreTiles c src
  restoreQueues c src v
  restoreControl c pc v
  restoreRepeat c src
  restoreIssue c src v
  modCore c fun k => { k with streams := { k.streams with parked := Parked.none } }
  if held then modify fun s => hubStore s (e + 0x100) 8 0 else pure ()

end Sys2Proof.Machine
end

