-- ==== Sys2Proof/Machine/Ops.lean ====
section
/-!
DEFINITION. The shared operations of a core: how a control-thread instruction ends, releases with their version bumps
(R199, R295), packets on their way out (R252, R255, R256), the end of a task (R30, R214), taking a trap (R345 to R361) and
returning from one (R360, R362).
-/

namespace Sys2Proof.Machine

/-- The outcome of a step of this machine. -/
abbrev Out := Host.Outcome State Fault Refusal

/-! ### Version bumps and releases (R199, R294, R295) -/

/-- R295: a core's marks of the regions that a release covers are sent as bumps and cleared. -/
def bumpMarks (s : State) (c : CoreId) (r : Regions) : State :=
  let m := (getCore s c).tables.marks &&& r
  if m = 0 then s
  else
    (List.range 256).foldl (fun s g =>
      if bitAt m g && !lineBusy s c (Push.bump g).at && !seqBusy s c (getCore s c).seq then
        sendPush (updCore s c fun k => { k with tables := { k.tables with marks := putBit k.tables.marks g false } }) c c (.bump g)
      else s) s

/-- A release (R199, R230): copies are pushed, then at `.clu` and wider the marked regions are bumped. -/
def release (s : State) (c : CoreId) (sc : Scope) (r : Regions) : State :=
  let s := releaseCopies s c sc r
  if sc = .task || pushPending s c then s else bumpMarks s c r

/-- Whether a push is still to come: its bytes stand in the core, and its home takes them or will once a migration has ended (R389). -/
def stillToCome (s : State) (p : CoreId × Push) : Bool :=
  p.2.sends s p.1 && (match p.2.refused s p.1 with | none | some .held => true | _ => false)

/-- Whether a core still has bumps of some regions to send, or a push or a bump of it awaits its reply (R295, R377). -/
def bumpsLeft (s : State) (c : CoreId) (r : Regions) : Bool := pushPending s c || (getCore s c).tables.marks &&& r != 0

/-- Whether some pushes made for a core are not over: one is still to come, or awaits its reply (R377). -/
def pushesLeft (s : State) (c : CoreId) (l : List (CoreId × Push)) : Bool := pushPending s c || l.any (stillToCome s)

/-- The lines of pushes that have something to send, each with why its home takes none, if it does not (R199, R374, R375, R393). -/
def pushTargets (s : State) (l : List (CoreId × Push)) : List (Nat × Option Refused) :=
  (l.filter fun p => p.2.sends s p.1).map fun p => (p.2.at, p.2.refused s p.1)

/-- The pushes that a release of a core makes, with the write-backs that it asks for (R199). -/
def allPushes (s : State) (c : CoreId) (sc : Scope) (r : Regions) : List (CoreId × Push) :=
  releasePushes s c sc r ++ if sc = .sys then foreignPushes s c r false else []

/-- The lines that a release of a core pushes. -/
def releaseTargets (s : State) (c : CoreId) (sc : Scope) (r : Regions) : List (Nat × Option Refused) := pushTargets s (allPushes s c sc r)

/-- Whether a release of a core is not over: one of its pushes is not, or one of the bumps that it makes at `.clu` and wider (R199, R295,
R377). -/
def releaseLeft (s : State) (c : CoreId) (sc : Scope) (r : Regions) : Bool :=
  pushesLeft s c (allPushes s c sc r) || (sc != .task && bumpsLeft s c r)

/-- Whether no push awaits a reply and no flit of a core is to be lost: each push is then performed as it is made. -/
def linksQuiet (s : State) : Bool := s.hub.pushes.isEmpty && s.cores.all fun e => e.2.flits.isEmpty

/-- Before pushes of an instruction: one whose third reissue has timed out ends it with REMOTE_TIMEOUT (R377). The first one that its home
does not take ends it with DIE_LOST, GANG_BROKEN or PROTECT (R101, R374, R375, R391, R393), or it waits for the migration that holds the
line (R389). Where links can lose flits it waits for every reply (R376). EINFO is a free value where no rule names one (log 49). -/
def pushReady (c : CoreId) (l : List (CoreId × Push)) : M Unit := do
  let s ← get
  match s.hub.pushes.find? fun m => m.failed && (m.core == c || m.cause == c) with
  | some m => do
    modHub fun h => { h with pushes := h.pushes.filter fun x => x != m }
    raise .remoteTimeout (← freshDWord)
  | none =>
    match (pushTargets s l).find? fun e => e.2.isSome with
    | some (line, some (.die d)) => do
      modify fun s => markDie s c (16 + mdOf line)
      raise .dieLost (BitVec.ofNat 64 d)
    | some (_, some .notReady) => raise .protect (← freshDWord)
    | some (_, some (.fenced t)) =>
      match fencedCause s c t with
      | .gangBroken => raise .gangBroken (BitVec.ofNat 64 (coordBits t))
      | _ => raise .protect (← freshDWord)
    | some (line, some .held) => do
      modify fun s => noteLate s line
      waitHere
    | _ =>
      if linksQuiet s then pure ()
      else do
        modify fun s => sendPushes s c l
        let s ← get
        awaitThat (!pushPending s c && !l.any fun p => p.2.sends s p.1)

/-- Pushes that an instruction makes and waits for (R377). -/
def pushAll (c : CoreId) (l : List (CoreId × Push)) : M Unit := do
  pushReady c l
  modify fun s => sendPushes s c l
  awaitThat (!pushesLeft (← get) c l)

/-- Before a release of an instruction. -/
def releaseReady (c : CoreId) (sc : Scope) (r : Regions) : M Unit := do pushReady c (allPushes (← get) c sc r)

/-- A release of an instruction: it completes once every push and bump that it makes has been performed (R199, R295, R377). -/
def releaseNow (c : CoreId) (sc : Scope) (r : Regions) : M Unit := do
  releaseReady c sc r
  modify fun s => release s c sc r
  awaitThat (!releaseLeft (← get) c sc r)

/-- R339, R199: an acquire, with the lines that it makes stale counted. -/
def acquire (s : State) (c : CoreId) (sc : Scope) (r : Regions) : State :=
  let n (s : State) := ((getCore s c).l1.filter fun e => e.2.stale).length
  let s' := acquireCopies s c sc r
  updCore s' c fun k => countPerf k 5 (n s' - n s)

/-! ### Activity and ready queues (R44, R47, R254) -/

/-- R47: an activity bit of a context is set at a core. -/
def noteActivity (k : Core) (ctx : HWord) : Core :=
  if k.activity.contains ctx then k else { k with activity := ctx :: k.activity }

/-- The route entry of a tag at a core (R252). -/
def routeOf (k : Core) (tag : BitVec 12) : Option RouteEntry := k.tables.route.find? fun e => e.key == .tag tag

/-- The tag whose handler runs on a core. -/
def runningTag (k : Core) : Option (BitVec 12) := k.task.bind Task.handler

/-- The tag whose entry the running handler serves; none once that entry has been removed (R315). -/
def servedTag (k : Core) : Option (BitVec 12) := if k.unbound then none else runningTag k

/-- R254: a wake-up of an entry is placed if the entry holds packets and none stands yet; its age is the arrival tick of the
packet at the head of the entry. -/
def wakeUp (k : Core) (tag : BitVec 12) : Core :=
  match routeOf k tag, k.queues.recv.find? fun r => r.pkt.tag == tag with
  | some e, some r =>
    if e.entry = 0 || servedTag k == some tag || k.tables.ready.any (fun x => x.kind == .handler tag) then k
    else
      let w : ReadyEntry := { kind := .handler tag, ctx := e.ctx, pri := e.pri, age := r.tick }
      noteActivity { k with tables := { k.tables with ready := k.tables.ready ++ [w] } } e.ctx
  | _, _ => k

/-! ### Discarded packets (R252, R315, R338, R362, R382) -/

/-- A PKTDISC record of a core. -/
def pktDisc (s : State) (c : CoreId) (p : Packet) (reason : Nat) : State :=
  let s := updCore s c fun k => { k with ctrs := { k.ctrs with pktdrop := satInc32 k.ctrs.pktdrop } }
  report s { type := 7, uc := false, coord := coordBits c, ctx := p.ctx, tenant := p.tenant, pa := 0, va := 0
             det0 := p.tag.toNat + coreX p.src * 2 ^ 16 + coreY p.src * 2 ^ 24, det1 := reason }

/-- Packets discarded, each with its record. -/
def discardAll (s : State) (c : CoreId) (l : List Received) (reason : Nat) : State :=
  l.foldl (fun s r => pktDisc s c r.pkt reason) s

/-! ### Packets on their way out (R255, R256) -/

/-- The depth of the send buffer (R249). -/
def sendDepth : Nat := 16

/-- The core that a route word names (R255). -/
def routeDest (w : DWord) : CoreId := coreAt (slice w 0 8).toNat (slice w 8 8).toNat

/-- Whether a word is a route word (R255). -/
def isRouteWord (w : DWord) : Bool := (slice w 0 8).toNat < 48 && (slice w 8 8).toNat < 64 && w.toNat >>> 28 == 0

/-- A packet of the running task toward a route word. -/
def packetTo (k : Core) (c : CoreId) (w : DWord) (scalar : Bool) (row : Row) : Packet :=
  { tag := slice w 16 12, src := c, ctx := ctxOf k, tenant := k.tregs.tenant, dst := routeDest w, scalar := scalar, row := row
    drain := false, carrier := false, seq := 0, way := Transit.first 0 }

/-- R252: the row image of a scalar packet. -/
def scalarRow (v : DWord) : Row := { bits := v.setWidth 2048, psn := 0, tag := 11 }

/-- Whether the core runs a handler task. -/
def inHandler (k : Core) : Bool := (runningTag k).isSome

/-- A packet enters the send buffer in program order (R256): an ordinary task waits for room and for the out-channel rows
before it; a handler's 17th raises QUEUE_FAULT. A core that is fenced or lost takes none (R374, R375). -/
def placeSend (c : CoreId) (w : DWord) (p : Packet) : M Unit := do
  reachCore c p.dst w
  let k ← theCore c
  if inHandler k then require (k.queues.send.length + k.queues.outPending.length < sendDepth) .queueFault 0
  else awaitThat (k.queues.outPending.isEmpty && k.queues.send.length < sendDepth)
  modCore c fun k => { k with queues := { k.queues with send := k.queues.send ++ [p] } }

/-- The out-binding of a channel for the running task (R314). -/
def outRoute (k : Core) (n : BitVec 3) : Option DWord :=
  (k.tables.route.find? fun e => e.key == .out (ctxOf k) n).map RouteEntry.route

/-- R256: the oldest out-channel row enters the send buffer if there is room and its binding stands. -/
def drainOne (k : Core) (c : CoreId) : Option Core :=
  match k.queues.outPending with
  | [] => none
  | (n, row) :: rest =>
    match outRoute k n with
    | none => none
    | some w =>
      if k.queues.send.length < sendDepth then
        some { k with queues := { k.queues with outPending := rest, send := k.queues.send ++ [packetTo k c w false row] } }
      else none

/-- Every out-channel row that can enter the send buffer does. -/
def drainOut : Nat → Core → CoreId → Core
  | 0, k, _ => k
  | n + 1, k, c => match drainOne k c with | some k => drainOut n k c | none => k

/-- Packets numbered one after another, on their first way (R323, R378). -/
def numberPackets (now : DWord) : HWord → List Packet → List Packet
  | _, [] => []
  | n, p :: r => { p with seq := n + 1, way := Transit.first now } :: numberPackets now (n + 1) r

/-- Packets of an ordinary task, or of a handler that has ended, leave the send buffer in order (R30, R256). -/
def releaseSends (s : State) (c : CoreId) : State :=
  let k := getCore s c
  if inHandler k || k.queues.send.isEmpty then s
  else
    let out := numberPackets s.time k.pktSeq k.queues.send
    let s := setCore s c { k with pktSeq := k.pktSeq + BitVec.ofNat 16 out.length, queues := { k.queues with send := [] } }
    { s with hub := { s.hub with net := s.hub.net ++ out } }

/-- The out-channels and the send buffer of a core moved on as far as they go. -/
def pumpSends (s : State) (c : CoreId) : State :=
  let k := getCore s c
  if k.queues.outPending.isEmpty then releaseSends s c
  else
    let s := releaseSends (updCore s c fun k => drainOut 16 k c) c
    releaseSends (updCore s c fun k => drainOut 16 k c) c

/-! ### Launches seen from a task's end (R27, R37, R43) -/

/-- A launch changed. -/
def modLaunch (s : State) (lid : Word) (f : Launch → Launch) : State :=
  { s with hub := { s.hub with launches := s.hub.launches.map fun l => if l.lid = lid then f l else l } }

/-- R37: STATUS stored by the concierge. -/
def putStatus (s : State) (pa : DWord) (code : Nat) : State := hubStore s (pa.toNat + 56) 4 code

/-- R336: an event counter signalled. -/
def signalEvent (s : State) (n : Nat) : State :=
  let v := satInc32 ((s.hub.regs.events.find n).getD 0)
  { s with hub := { s.hub with regs := { s.hub.regs with events := s.hub.regs.events.put n v } } }

/-- The number that a table of counts lists at a key, 0 where it lists nothing. -/
def countAt (t : Tab Nat) (k : Nat) : Nat := (t.find k).getD 0

/-- R43: a suspending launch whose last running task has ended gives up its cores and is held again, pending. -/
def settleSuspend (s : State) (lid : Word) : State :=
  match s.hub.launches.find? fun l => l.lid == lid with
  | some l =>
    if l.state = .suspending && l.running.all (fun e => e.2 == 0) then
      let s := modLaunch s lid fun l => { l with state := .held, pendingSince := some s.time, claimed := [], clearAt := none }
      putStatus s l.pa 3
    else s
  | none => s

/-- The end of an ordinary task as its launch sees it. -/
def launchTaskEnded (s : State) (t : Task) : State :=
  if t.handler.isSome then s
  else
    settleSuspend (modLaunch s t.lid fun l => { l with running := l.running.put t.plot (countAt l.running t.plot - 1) }) t.lid

/-! ### Lodge descriptors at a task's end (R306, R307) -/

/-- The context table area's record of a lodge descriptor (R290), as a physical address: 0 where no context is registered. -/
def lodgeAddr (s : State) (ctx : HWord) (d : BitVec 4) : Nat :=
  match s.hub.contexts.find? fun x => x.ctx == ctx with
  | some x => x.area.toNat + 0x800 + 64 * d.toNat
  | none => 0

/-- The 64-byte image of a descriptor (R306). -/
def Lodge.image (g : Lodge) (holder : Nat) : Nat :=
  packAt [(0, g.name.toNat), (64, g.area.toNat), (128, g.waddr.toNat), (192, g.m.toNat), (208, g.k.toNat), (224, g.wreg.toNat),
    (232, g.rlim.toNat), (240, g.state.toNat), (242, if g.last then 1 else 0), (256, g.wver.toNat), (288, g.count.toNat),
    (320, g.dthr.toNat), (352, g.drift.toNat), (384, g.tenant.toNat), (400, holder)]

/-- 1 + (x + 48y) of a core, as HOLDER gives it (R306). -/
def holderOf (c : CoreId) : Nat := 1 + c.toNat

/-- The addresses of the records of a core's descriptors. -/
def lodgeHomes (s : State) (c : CoreId) : List Nat :=
  ((getCore s c).tables.lodges.map fun g => lodgeAddr s g.ctx g.d).filter (· != 0)

/-- A descriptor's record written where its home is ready; one whose home is not stays as it is (R393, log 55). -/
def writeRecordOf (s : State) (g : Lodge) (v : Nat) : State :=
  let a := lodgeAddr s g.ctx g.d
  if a = 0 || !homeReady s (lineOf a) then s else hubStore s a 64 v

/-- R307: a core's descriptors written back to the table area at a task's end and at a tenant change. -/
def writeBackLodges (s : State) (c : CoreId) : State :=
  (getCore s c).tables.lodges.foldl (fun s g => writeRecordOf s g (g.image (holderOf c))) s

/-! ### The end of a task (R30, R122, R214, R254) -/

/-- The rows that stand in in-channels go back, in order, to the head of the receive buffer (R254, R355), also where it has filled meanwhile:
it then holds more than 64 rows, and takes no packet until it holds fewer (DESIGN CHOICE, log 55). -/
def returnChannels (k : Core) : Core :=
  { k with queues := { k.queues with recv := k.queues.inq.toList.flatten ++ k.queues.recv, inq := Vector.replicate 8 [] } }

/-- The result queue and the slots of a task that ends (R268, R273): completions are dropped, copies and collectives go on. -/
def orphanWork (s : State) (c : CoreId) : State :=
  let s := updCore s c fun k =>
    { k with
      queues := { k.queues with results := [] }
      tables := { k.tables with
        slots := (k.tables.slots.filter fun x => !(x.delivered || x.aborted)).map fun x => { x with orphan := true } } }
  { s with hub := { s.hub with copies := s.hub.copies.map fun x => if x.core = c then { x with orphan := true } else x } }

/-- R328: a core withdraws from every barrier's waiters. -/
def leaveBarriers (s : State) (c : CoreId) : State :=
  { s with cores := s.cores.mapVals fun _ k =>
      if k.tables.barriers.any (fun e => e.2.waiters.contains c) then
        { k with tables := { k.tables with barriers := k.tables.barriers.mapVals fun _ b => { b with waiters := b.waiters.filter (· != c) } } }
      else k }

/-- R235: a core leaves every queue of a lock word. -/
def leaveLocks (s : State) (c : CoreId) : State :=
  { s with hub := { s.hub with
      qlocks := (s.hub.qlocks.mapVals fun _ l => l.filter fun e => e.1 != c).filter fun e => !e.2.isEmpty
      lockWaits := s.hub.lockWaits.filter fun e => e.2 != c } }

/-- R304: the end of a task cuts every pin. -/
def cutAll (k : Core) : Core :=
  { k with files := { k.files with pins := k.files.pins.map fun p => putBit p 287 false } }

/-- R315: the rows in the channels of a handler whose entry has been removed are discarded. -/
def dropChannels (s : State) (c : CoreId) : State :=
  let k := getCore s c
  if k.unbound then discardAll (setCore s c { k with queues := { k.queues with inq := Vector.replicate 8 [] } }) c k.queues.inq.toList.flatten 3
  else s

/-- R315: packets in the receive buffer whose entry has been removed are discarded, those among them that an abort returned too. -/
def dropUnbound (s : State) (c : CoreId) : State :=
  let k := getCore s c
  let bound (r : Received) : Bool := (routeOf k r.pkt.tag).isSome
  let (held, gone) := k.queues.recv.partition bound
  if gone.isEmpty then s
  else
    let k' := { k with returned := ((k.queues.recv.take k.returned).filter bound).length, queues := { k.queues with recv := held } }
    discardAll (setCore s c k') c gone 3

/-- R365: what a core waits for from others is abandoned. -/
def abandonWaits (s : State) (c : CoreId) : State :=
  let s := leaveLocks (leaveBarriers s c) c
  let s := updCore s c fun k => { k with remote := none, posted := [], answered := [], replays := [] }
  { s with hub := { s.hub with
      drains := s.hub.drains.filter fun m => m.src != c
      pushes := s.hub.pushes.filter fun m => !(m.failed && (m.core == c || m.cause == c)) } }

/-- The task of a core ends (R30): its release at `.sys` (R214), its queues discarded, a handler's channel rows returned and
its next wake-up placed; the core is free. -/
def endTask (s : State) (c : CoreId) : State :=
  let s := release (writeBackLodges s c) c .sys allRegions
  let s := dropChannels (abandonWaits (orphanWork s c) c) c
  let k := getCore s c
  match k.task with
  | none => s
  | some t =>
    let k := cutAll (returnChannels (noteActivity k t.ctx))
    let k := { k with
      task := none, ending := false, handlerAborted := false, returned := 0, hasRun := true, prevTenant := k.tregs.tenant
      unbound := false, evictFault := none, poisoned := [], pend := Pending.none
      queues := { k.queues with sq := Vector.replicate 8 [], rq := Vector.replicate 8 [], outPending := [], popped := [] }
      streams := { Streams.reset with lazyV := k.streams.lazyV, lazyM := k.streams.lazyM } }
    let k := match t.handler with | some tag => wakeUp k tag | none => k
    launchTaskEnded (releaseSends (dropUnbound (setCore s c k) c) c) t

/-- R122 at steward level, R365: the task ends where it stands. The packets that an abort returned are discarded with
records, and so are entries, queues and a handler's buffered sends. R122 speaks of the task's entries: that those which the steward itself
has posted, and its replay, go with them is a DESIGN CHOICE (log 55). -/
def discardTask (s : State) (c : CoreId) : State :=
  let k := getCore s c
  let gone := k.queues.recv.take k.returned
  let k := { k with
    returned := 0
    queues := { k.queues with recv := k.queues.recv.drop k.returned, outPending := [], send := if inHandler k then [] else k.queues.send }
    streams := { k.streams with vq := [], mq := [], parkedV := [], parkedM := [], deferred := [], parkedSync := [] } }
  endTask (discardAll (setCore s c k) c gone 4) c

/-- R30: whether the task of a core has ended its work. -/
def taskDone (k : Core) : Bool :=
  k.ending && k.level == .task && k.streams.vq.isEmpty && k.streams.mq.isEmpty && k.streams.rep.run.isNone
    && k.streams.deferred.isEmpty && (inHandler k || (k.queues.outPending.isEmpty && k.queues.send.isEmpty))

/-- R214: the release at a task's end as far as it has come, with whether it is over. -/
def sentAll (s : State) (c : CoreId) : State × Bool :=
  let s := release s c .sys allRegions
  (s, !releaseLeft s c .sys allRegions)

/-- A task that has ended its work ends, once every push of its release has been performed (R214). -/
def finishTask (s : State) (c : CoreId) : State :=
  if !taskDone (getCore s c) then s
  else
    let r := sentAll s c
    if r.2 then endTask r.1 c else r.1

/-! ### Taking a trap (R345 to R361) -/

/-- A trap as it reaches the core: what it reports, where it arose, where the stopped code resumes, and for a replay entry its place in the
repeat buffer (R260). -/
structure TrapAt where
  info : TrapInfo
  stream : Stream
  async : Bool
  epc : DWord
  ipc : DWord
  seq : Word
  replay : Option ReplayAt
  deriving DecidableEq, Repr

/-- R344: the codes of the causes. -/
def Cause.code : Cause → Nat
  | .illegalOp => 1 | .format => 2 | .misalign => 3 | .pageMiss => 4 | .protect => 5 | .scratchRange => 6 | .priv => 7
  | .syscall => 8 | .brk => 9 | .budget => 10 | .barrierOver => 11 | .poison => 12 | .remoteTimeout => 13
  | .gangBroken => 14 | .dieLost => 15 | .collAborted => 16 | .queueFault => 17 | .protMismatch => 18

/-- ECAUSE (R102). -/
def ecauseOf (t : TrapAt) (handler : Bool) : BitVec 12 :=
  BitVec.ofNat 12 (t.info.cause.code + 256 * t.stream.code + (if t.info.replay then 1024 else 0) + (if handler then 2048 else 0))

/-- R345: the core halts and the management controller reports a machine check (R382). -/
def haltCore (s : State) (c : CoreId) (pc : DWord) (cause : Cause) : State :=
  report (updCore s c fun k => { k with halted := true }) (plainErr 11 true (coordBits c) pc.toNat cause.code)

/-- R346 steps 2 and 3: the entry to machine level from a level `plev`, or the halt of a core whose MTVEC is 0 (R345). An MTVEC with
bit 0 set, for which the spec says nothing, becomes the PC as it is (DESIGN CHOICE, log 53). -/
def machineEntry (s : State) (c : CoreId) (t : TrapAt) (plev : Nat) (handler : Bool) : State :=
  let k := getCore s c
  if k.cregs.mtvec = 0 then haltCore s c t.epc t.info.cause
  else
    setCore s c { dropReads k 0 with
      level := .machine, pc := k.cregs.mtvec
      cregs := { k.cregs with mepc := t.epc, mcause := BitVec.ofNat 14 ((ecauseOf t handler).toNat + 4096 * plev), minfo := t.info.einfo } }

/-- R350 steps 4 and 5: the entry to the steward. -/
def stewardEntry (s : State) (c : CoreId) (t : TrapAt) (handler : Bool) : State :=
  updCore s c fun k => { dropReads k 0 with
    level := .steward, pc := k.cregs.tvec
    tregs := { k.tregs with epc := t.epc, ecause := ecauseOf t handler, einfo := t.info.einfo } }

/-- R260: the buffer index and the iteration vector of a replay entry that has faulted. The layout of R352 has no field for them: they stand
in its last 28 bytes, where no PAGE is valid (DESIGN CHOICE, log 55). -/
def replayFields (t : TrapAt) (pages : Nat) : Nat :=
  match t.replay with
  | some r => if 20 < pages then 0 else packAt [(8 * 228, r.j), (8 * 232, pack 32 (r.iter.toList.map BitVec.toNat))]
  | none => 0

/-- R352: the fault record of a trap. -/
def faultRecord (s : State) (c : CoreId) (t : TrapAt) (first : Option Received) (esave : Bool) : Nat :=
  let k := getCore s c
  let pages := t.info.pages.take 24
  packAt
    [(0, (ecauseOf t (inHandler k)).toNat), (12, if t.info.malf then 1 else 0), (13, if t.info.ovf then 1 else 0), (14, pages.length),
      (19, if esave then 1 else 0), (20, if t.async then 1 else 0), (32, coordBits c),
      (64, (ctxOf k).toNat), (80, k.tregs.tenant.toNat), (96, k.tregs.asid.toNat), (128, t.epc.toNat), (192, t.info.einfo.toNat),
      (256, t.ipc.toNat), (320, t.seq.toNat), (352, s.time.toNat % 2 ^ 32), (384, k.tregs.taskid.toNat),
      (448, match first with
        | some r => packAt [(0, r.pkt.tag.toNat), (16, coreX r.pkt.src), (24, coreY r.pkt.src), (32, r.tick.toNat % 2 ^ 32)]
        | none => 0),
      (512, pack 64 (pages.map BitVec.toNat))] + replayFields t pages.length

/-- R353: a record appended to a core's fault queue. -/
def appendFault (s : State) (c : CoreId) (rec : Nat) : State :=
  let (s, r) := ringAppend s (getCore s c).ctrs.fq 0 256 rec
  updCore s c fun k => { k with ctrs := { k.ctrs with fq := r } }

/-- R350 step 3: the record goes to the emergency area's slot, where there is one, and to the fault queue (R352). -/
def writeRecord (s : State) (c : CoreId) (rec : Nat) : State :=
  let e := (getCore s c).cregs.emerg.toNat
  appendFault (if e = 0 then s else hubStore s e 256 rec) c rec

/-- R361: the abort of a handler task: posted entries, queue registers, streams and buffered sends are discarded, and the
packets popped since its start go back, before those in its channels. -/
def abortHandler (k : Core) : Core :=
  let n := k.queues.inq.toList.flatten.length
  let k := returnChannels k
  { k with
    handlerAborted := true, returned := k.queues.popped.length + n, remote := none, posted := [], evictFault := none
    queues := { k.queues with
      sq := Vector.replicate 8 [], rq := Vector.replicate 8 [], outPending := [], send := [], recv := k.queues.popped ++ k.queues.recv
      popped := [] }
    streams := { k.streams with
      vq := [], mq := [], rep := { k.streams.rep with run := none }, cs := Streams.reset.cs, deferred := [], barWait := .idle, arrived := none
      qlockQueued := false, qlockGranted := false } }

/-- Whether an outstanding operation must be answered before the task stops: a reissue of an idempotent one is performed anew (R377), and
one that its home holds has had no effect yet. -/
def Remote.binds (r : Remote) : Bool := !r.idem && !r.held

/-- R347, R180, R355: whether the streams can be brought to a stopping point now: no matrix entry is executing, no remote
operation is outstanding, no device read of an entry that must end has been answered (R189), and for an ordinary task no latch is LOADING and
every out-channel row can leave. A started entry that waits for ever keeps the task from its stopping point also where BUDGET is due, as R180
says; R159, R168 and R170 let it wait until BUDGET (DESIGN CHOICE, log 55). -/
def canStop (k : Core) : Bool :=
  !(k.streams.mq.any Entry.started) && !(k.remote.any Remote.binds) && !(k.posted.any fun e => e.2.binds)
    && (k.answered.all fun e => e.1 == 0) &&
    (inHandler k || (k.files.l.all (fun l => l.state != .loading) && k.queues.outPending.isEmpty))

/-- R347: the oldest incomplete vector entry becomes the interrupted one, whose groups EGDONE shows. -/
def markInterrupted (k : Core) : Core :=
  match k.streams.vq with
  | e :: _ => { k with tregs := { k.tregs with egdone := e.egdone } }
  | [] => k

/-- The issue queues of a stopped task set aside while its steward runs (R355), with the request of an `lstop` (R261), its lock request
(R235), and what no image holds (log 55). -/
def parkTask (k : Core) : Core :=
  let z := k.streams
  let stop := match z.rep.run with | some r => r.stop | none => false
  { k with
    remote := none, posted := [], evictFault := none
    streams := { k.streams with
      parked := { z.parked with
        lrunPc := z.lrunPc, bufLen := z.bufLen, pinTags := k.files.pinTags
        lock := { queued := z.qlockQueued, granted := z.qlockGranted, word := z.qlockWord } }
      qlockQueued := false, qlockGranted := false, qlockRefused := none
      parkedV := k.streams.vq, parkedM := k.streams.mq, vq := [], mq := [], rep := { k.streams.rep with run := none }
      parkedStop := stop, parkedSync := k.streams.deferred, deferred := [], barWait := .idle, arrived := none } }

/-- A stopped task set aside: its channel rows return, and a request of a lock that has no place yet is withdrawn. -/
def parkAt (s : State) (c : CoreId) : State :=
  let s := { s with hub := { s.hub with lockWaits := s.hub.lockWaits.filter fun e => e.2 != c } }
  updCore s c fun k => parkTask (returnChannels k)

/-- The address and cause with which a save stopped (R358). -/
def stopTrap : Stop → TrapInfo
  | .trap t => t
  | _ => trapInfo .protect 0

/-- How the stop of a task has ended: its save has still to wait for a home; the core halts, because no save is possible; or the
task is stopped, with whether its context went to the emergency area and the first packet that an abort returned. -/
inductive Stopped where
  | waits
  | halts
  | saved (emergency : Bool) (first : Option Received)
  deriving DecidableEq, Repr

/-- R361, R315: the packets that the abort of a handler returned are discarded where its entry has been removed. -/
def discardReturned (s : State) (c : CoreId) : State :=
  let k := getCore s c
  if k.unbound then
    discardAll (setCore s c { k with returned := 0, queues := { k.queues with recv := k.queues.recv.drop k.returned } }) c (k.queues.recv.take k.returned) 3
  else s

/-- R347 to R355, R358, R361: the task is stopped and its context saved, or its handler aborted. -/
def stopTask (s : State) (c : CoreId) : State × Stopped :=
  let k := getCore s c
  if inHandler k then
    let first := (k.queues.popped ++ k.queues.inq.toList.flatten).head?
    (discardReturned (setCore s c (abortHandler k)) c, .saved false first)
  else
    match saveContext c (setCore s c (markInterrupted k)) with
    | .ok _ s => (parkAt s c, .saved false none)
    | .error .wait s => (s, .waits)
    | .error stop s =>
      let e := (getCore s c).cregs.emerg.toNat
      if e = 0 || !emergencyReady s e then (s, .halts)
      else
        let t := stopTrap stop
        match areaItems c s with
        | .error .wait s => (s, .waits)
        | .ok _ s | .error _ s => (parkAt (saveEmergency s c t.einfo t.cause.code) c, .saved true none)

/-- The steward's own entries and lock request set aside while machine level runs (log 11). -/
def parkSteward (k : Core) : Core :=
  { k with streams := { k.streams with
      stewardLock := { queued := k.streams.qlockQueued, granted := k.streams.qlockGranted, word := k.streams.qlockWord }
      qlockQueued := false, qlockGranted := false, qlockRefused := none
      stewardV := k.streams.vq, stewardM := k.streams.mq, stewardRun := k.streams.rep.run, vq := [], mq := []
      rep := { k.streams.rep with run := none }, stewardSync := k.streams.deferred, deferred := [], barWait := .idle } }

/-- R371, R381: the CONSUMED record of the PMASK bits that a stream's head has set and that no record names yet, at an instruction's address,
with the first poisoned word of memory that it has met. -/
def recordPoison (s : State) (c : CoreId) (n : Nat) (ipc : DWord) : State :=
  match (getCore s c).poisoned.find n with
  | some p =>
    let w := p.word.getD (0, 0)
    if p.new = 0 then s
    else report (updCore s c fun k => { k with poisoned := k.poisoned.put n { p with new := 0, word := none } })
      (coreErr s c 1 false w.1 w.2 ipc.toNat p.new.toNat)
  | none => s

/-- R129, R370, R371: what a stream's head has consumed so far makes POISON pending under PTRAP, with its own bits, unless another entry's
POISON is pending. -/
def pendPoison (k : Core) (st : Stream) : Core :=
  match k.poisoned.find st.code with
  | some p =>
    if !k.ctrs.ptrap ∨ p.all = 0 ∨ k.pend.poison.isSome ≠ p.pends then k
    else { k with pend := { k.pend with poison := some (st, p.all) }, poisoned := k.poisoned.put st.code { p with pends := true } }
  | none => k

/-- R370, R371: what a stream's entry consumed, as it ends or stops: its record, and under PTRAP the pending POISON. -/
def settlePoison (s : State) (c : CoreId) (st : Stream) (ipc : DWord) : State :=
  if ((getCore s c).poisoned.find st.code).isSome then
    updCore (recordPoison s c st.code ipc) c fun k =>
      let k := pendPoison k st
      { k with poisoned := k.poisoned.del st.code }
  else s

/-- R371: what the heads of a stopped task's queues have consumed so far is settled. -/
def settleHeads (s : State) (c : CoreId) (z : Streams) : State :=
  let settle (s : State) (st : Stream) (l : List Entry) : State := match l with | e :: _ => settlePoison s c st e.ipc | [] => s
  settle (settle s .vector z.vq) .matrix z.mq

/-- R345, R346, R350: a trap is taken one level up. At task level the task is first brought to its stopping point; while it
cannot stop yet, nothing happens and the cause is met again. A trap at machine level halts the core. -/
def takeTrap (s : State) (c : CoreId) (t : TrapAt) : State :=
  let k := getCore s c
  match k.level with
  | .machine => haltCore s c k.pc t.info.cause
  | .steward =>
    if k.cregs.mtvec = 0 then haltCore s c t.epc t.info.cause
    else machineEntry (updCore s c parkSteward) c t 1 (inHandler k)
  | .task =>
    let s := pumpSends s c
    let k := getCore s c
    if !canStop k then s
    else
      let toMachine := k.cregs.tvec = 0 || bitAt k.cregs.tvec 0
      if toMachine && k.cregs.mtvec = 0 then haltCore s c t.epc t.info.cause
      else
        let h := inHandler k
        match stopTask s c with
        | (s, .waits) => s
        | (s, .halts) => haltCore s c t.epc t.info.cause
        | (s, .saved esave first) =>
          let s := settleHeads s c k.streams
          let s := writeRecord s c (faultRecord s c t first esave)
          if toMachine then machineEntry s c t 0 h else stewardEntry s c t h

/-- A trap of the control thread at an instruction, with the address at which the level resumes: synchronous, but for DIE_LOST (R344,
R375). -/
def controlTrap (info : TrapInfo) (epc : DWord) : TrapAt :=
  { info := info, stream := .control, async := info.cause == .dieLost, epc := epc, ipc := 0, seq := 0, replay := none }

/-! ### How a control-thread instruction ends -/

/-- R347: the task of a core as it stands in `s`, with what a save that has to wait has done in `s'` so far: its pushes and fills, and what
they await. -/
def backOut (s s' : State) (c : CoreId) : State :=
  let k' := getCore s' c
  setCore s' c { getCore s c with
    l1 := k'.l1, homes := k'.homes, partials := k'.partials, seq := k'.seq, remote := k'.remote, posted := k'.posted, flits := k'.flits
    tables := { (getCore s c).tables with tlb := k'.tables.tlb } }

/-- R347: a trap that an instruction raises, from the state `s` in which it began and the state `s'` in which it raised it. While
the task cannot be stopped yet, or its save has to wait for a home, the instruction is as if it had not begun, and runs again. -/
def stopAt (s s' : State) (c : CoreId) (t : TrapAt) : State :=
  if (getCore s' c).level = .task ∧ !canStop (getCore (pumpSends s' c) c) then pumpSends s c
  else
    let r := takeTrap s' c t
    if (getCore s' c).level = .task ∧ (getCore r c).level = .task ∧ !(getCore r c).halted then
      backOut (pumpSends s c) (stopTask (pumpSends s c) c).1 c
    else r

/-- The end of a control-thread instruction that began in `s`: it commits and goes on as `done` says; it waits, and runs again;
it takes its trap, with EPC its own address; or the model stops. -/
def finish (s : State) (done : Core → Core) (r : EStateM.Result Stop State Unit) : Out :=
  match r with
  | .ok _ s' => .next (updCore s' s'.cur done)
  | .error .wait s' => .next s'
  | .error (.trap t) s' => .next (stopAt s s' s.cur (controlTrap t (getCore s s.cur).pc))
  | .error (.fault f) _ => .fault f
  | .error (.refuse r) _ => .refused r

/-- A control-thread instruction of 4 bytes that goes on to the next instruction. -/
def control (m : CoreId → M Unit) (s : State) : Out := finish s (fun k => retire k 4) (m s.cur s)

/-- A control-thread instruction that writes a scalar register. -/
def controlTo (rd : BitVec 5) (m : CoreId → M DWord) (s : State) : Out :=
  control (fun c => do
    let v ← m c
    modCore c fun k => setS k rd v) s

/-- A trap that an instruction takes in place of its effect. -/
def trapNow (s : State) (cause : Cause) (einfo : DWord) : Out :=
  .next (stopAt s s s.cur (controlTrap (trapInfo cause einfo) (getCore s s.cur).pc))

/-! ### Returning from a trap (R121, R360, R362) -/

/-- R362: a core leaves an aborted handler: the wake-up of its entry is placed again and the core is free. -/
def leaveHandler (s : State) (c : CoreId) : State := endTask s c

/-- A restore that faults, or that must begin again, leaves the core's registers, queues and streams as they were (R360). -/
def restoreWhole (c : CoreId) (pc : DWord) : M Unit := do
  let k0 ← theCore c
  tryCatch (restoreContext c pc) fun e => do
    modCore c fun k => { k with
      files := k0.files, queues := k0.queues, streams := k0.streams
      tregs := { k0.tregs with tdies := k.tregs.tdies } }
    throw e

/-- The return to task level at an address (R360, R362): an aborted handler leaves the core; otherwise the context is
restored; a core without a task only changes level. -/
def resumeTask (c : CoreId) (pc : DWord) : M Unit := do
  let k ← theCore c
  match k.task with
  | none => modCore c fun k => { k with level := .task, pc := pc }
  | some _ =>
    if k.handlerAborted then do
      awaitThat (← answer fun s => sentAll s c)
      modify fun s => leaveHandler s c
    else do
      restoreWhole c pc
      modCore c fun k => { k with level := .task, pc := pc }

/-- The return from machine level to a steward at an address: its entries stand before those of machine level. -/
def resumeSteward (k : Core) (pc : DWord) : Core :=
  let l := k.streams.stewardLock
  { k with
    level := .steward, pc := pc
    streams := { k.streams with
      qlockQueued := l.queued, qlockGranted := l.granted, qlockWord := l.word, qlockRefused := none, stewardLock := LockWait.none
      vq := k.streams.stewardV ++ k.streams.vq, mq := k.streams.stewardM ++ k.streams.mq
      rep := { k.streams.rep with run := k.streams.stewardRun }, stewardV := [], stewardM := [], stewardRun := none
      deferred := k.streams.stewardSync ++ k.streams.deferred, stewardSync := [] } }

/-- The level to which `eret` returns from a level, and the address (R121); PLEV 2 and 3 name no level, so a free value picks
one (log 9). -/
def eretTarget (k : Core) (free : Nat) : Level × DWord :=
  match k.level with
  | .machine =>
    let plev := (slice k.cregs.mcause 12 2).toNat
    (if plev = 0 then .task else if plev = 1 then .steward else if Config.freeBool free then .task else .steward, k.cregs.mepc)
  | _ => (.task, k.tregs.epc)

/-- R121, R360: the return from a trap. It waits until the entries that its own level posted have completed (log 12). A
return that faults changes nothing. -/
def returnFromTrap (c : CoreId) : M Unit := do
  let k ← theCore c
  let (lv, pc) := eretTarget k (← get).free
  require (!bitAt pc 0) .misalign pc
  awaitThat (k.streams.vq.isEmpty && k.streams.mq.isEmpty && k.streams.rep.run.isNone && k.streams.deferred.isEmpty)
  match lv with
  | .task => resumeTask c pc
  | _ => modCore c fun k => resumeSteward k pc

end Sys2Proof.Machine
end

