-- ==== Sys2Proof/Machine/Operands.lean ====
section
/-!
DEFINITION. Frame operands (R12, R93 to R95, R125 to R131): what a source supplies, the operating format, coverage and
activity of elements (R77), poison (R129), scales (R80, R81), and how a destination is written.
-/

namespace Sys2Proof

/-! ### Places of operands (R12, R95, R126) -/

/-- The cell that element i of a row, column or diagonal is (R12): its row and its place in the row. -/
def Opd.cell (o : Opd) (i : Nat) : Nat × Nat :=
  match o with
  | .row n => (n.toNat, i)
  | .col n => (i, n.toNat)
  | .dia n => (i, (i + n.toNat) % 64)
  | _ => (0, i)

/-- The rows that an operand touches under a VL (R95). -/
def Opd.rows (o : Opd) (vl : Nat) : List (BitVec 6) :=
  match o with
  | .row n => [n]
  | .col _ | .dia _ => (List.range vl).map (BitVec.ofNat 6)
  | _ => []

/-- The rows of an operand that hold the elements of a group (R128): a row whole, of a column or diagonal the rows of its elements. -/
def Opd.groupRows (o : Opd) (vl g : Nat) : List (BitVec 6) :=
  match o with
  | .row n => [n]
  | .col _ | .dia _ => (((List.range 8).map fun i : Nat => 8 * g + i).filter (· < vl)).map (BitVec.ofNat 6)
  | _ => []

/-- Whether an operand is a column or a diagonal. -/
def Opd.isLine : Opd → Bool
  | .col _ | .dia _ => true
  | _ => false

/-- Whether a source pops a queue or a channel. -/
def Opd.isPop : Opd → Bool
  | .que _ | .chan _ => true
  | _ => false

namespace Machine

/-! ### Elements of a row image (R76) -/

/-- Element e of a row image in a format of width `w`. -/
def elemOf (img w e : Nat) : Nat := (img >>> (w * e)) % 2 ^ w

/-- The row image whose first `n` elements of width `w` a function gives. -/
def buildRow (w : Nat) (g : Nat → Nat) : Nat → Nat
  | 0 => 0
  | n + 1 => buildRow w g n + g n % 2 ^ w * 2 ^ (w * n)

/-- The elements of a row of width `w` (R75). -/
def elemCount (w : Nat) : Nat := if w = 0 then 0 else 2048 / w

/-- The cell that holds an element's bit 0 (R128). -/
def cell0 (w e : Nat) : Nat := w * e / 32

/-- Whether an element lies in a poisoned cell. -/
def elemPsn (psn w e : Nat) : Bool := psn.testBit (w * e / 32) || psn.testBit ((w * e + w - 1) / 32)

/-- R77: whether VL covers an element of a row. -/
def covered (vl w e : Nat) : Bool := w * (e + 1) ≤ 32 * vl

/-- R77: whether a governing mask holds the VP that owns an element. -/
def active (mask : Nat) (w e : Nat) : Bool := mask.testBit (cell0 w e)

/-! ### The executing vector instruction -/

/-- What a vector instruction executes with: its core, its capture, the address offset of a replay (R260), the queue entries that it popped, the groups that it
has done, its posting address, how a row is made resident (R105, R303), what happens before a row is written (R304), whether
its loads must fall on read-only pages (R301), and, inside a VP block, the VP that executes it (R151). -/
structure Vx where
  c : CoreId
  env : Env
  adj : DWord
  popped : List Row
  egdone : Byte
  ipc : DWord
  ens : BitVec 6 → M Unit
  cut : BitVec 6 → M Unit
  ro : Bool
  only : Option Nat

/-- A captured base address, with the offset of a replay (R109, R260). -/
def Vx.base (x : Vx) (r : BitVec 5) : DWord := envS x.env r + x.adj

/-- The VL that an instruction executes under. -/
def Vx.vl (x : Vx) : Nat := x.env.vl.toNat

/-- The governing mask as it stands when the instruction executes (R77, R96). -/
def Vx.gov (x : Vx) : M Nat := do return (getK (← theCore x.c) x.env.ksel).toNat

/-- The VPs that act: those of the governing mask, or the one VP of a block that executes the instruction (R150). -/
def Vx.mask (x : Vx) : M Nat :=
  match x.only with
  | some i => return 1 <<< i
  | none => x.gov

/-- Whether an element belongs to the VP that executes the instruction, outside a block every element. -/
def Vx.picks (x : Vx) (e : Nat) : Bool := match x.only with | some i => e == i | none => true

/-- A mask as an instruction leaves it: whole, or inside a block only the VP's bit (R151). -/
def Vx.newMask (x : Vx) (old new : DWord) : DWord :=
  match x.only with
  | some i => putBit old i (bitAt new i)
  | none => new

/-! ### Tags (R79, R94, R95, R125) -/

/-- The format code of a tag. -/
def tagFmt (t : HWord) : Fmt := (Fmt.ofCode (t.toNat % 16)).getD .none

/-- Whether a tag is scaled (R79). -/
def tagScaled (t : HWord) : Bool := bitAt t 4

/-- The scale base of a tag (R79). -/
def tagBase (t : HWord) : Nat := (slice t 8 8).toNat

/-- The unscaled tag of a format. -/
def plainTag (f : Fmt) : HWord := BitVec.ofNat 16 f.code

/-- Whether a tag is an unscaled 32-bit format. -/
def tagIs32 (t : HWord) : Bool := t.toNat < 16 && fmtIs32 (tagFmt t)

/-- FORMAT with EINFO 0 unless a condition holds. -/
def formatUnless (b : Bool) : M Unit := require b .format 0

/-- The tag of a row. -/
def tagOfRow (k : Core) (n : Nat) : HWord := (getRow k (BitVec.ofNat 6 n)).row.tag

/-- The tag that a source carries, `none` for an untagged one: R94 for rows, R95 for columns and diagonals. -/
def sourceTag (k : Core) (vl : Nat) (popped : Option Row) (o : Opd) : M (Option HWord) :=
  match o with
  | .row n => return some (getRow k n).row.tag
  | .col _ | .dia _ => do
    let t := tagOfRow k 0
    formatUnless (tagIs32 t && (List.range vl).all fun i => tagOfRow k i == t)
    return some t
  | .que n => return if n.toNat < 4 then none else popped.map Row.tag
  | .chan _ => return popped.map Row.tag
  | _ => return none

/-- R125: the operating tag of sources and a destination. -/
def operatingTag (k : Core) (a b : Option HWord) (d : Opd) : M HWord :=
  match a, b with
  | some t, some u => do
    formatUnless (t != 0 && t == u)
    return t
  | some t, none | none, some t => do
    formatUnless (t != 0)
    return t
  | none, none =>
    match d with
    | .row n => return if (getRow k n).row.tag = 0 then plainTag .b32 else (getRow k n).row.tag
    | _ => return plainTag .b32

/-! ### Pops (R97, R126) -/

/-- One entry popped by the vector stream, or `none` where the queue is empty. A packet that a handler pops is recorded
(R361). -/
def popOne (k : Core) (o : Opd) : Option (Row × Core) :=
  let q := k.queues
  match o with
  | .que n =>
    if n.toNat < 8 then
      match q.sq[n.toNat % 8]?.getD [] with
      | v :: r => some ({ bits := v.setWidth 2048, psn := 0, tag := 0 }, { k with queues := { q with sq := q.sq.setIfInBounds (n.toNat % 8) r } })
      | [] => none
    else
      match q.rq[n.toNat - 8]?.getD [] with
      | v :: r => some (v, { k with queues := { q with rq := q.rq.setIfInBounds (n.toNat - 8) r } })
      | [] => none
  | .chan n =>
    match q.inq[n.toNat]?.getD [] with
    | v :: r =>
      let popped := if inHandler k then q.popped ++ [v] else q.popped
      some (v.pkt.row, { k with queues := { q with inq := q.inq.setIfInBounds n.toNat r, popped := popped } })
    | [] => none
  | _ => none

/-- Every queue source of an instruction popped once, in field order; `none` where one is empty. -/
def popAll : List Opd → Core → Option (List Row × Core)
  | [], k => some ([], k)
  | o :: r, k =>
    if o.isPop then
      match popOne k o with
      | none => none
      | some (v, k) => (popAll r k).map fun p => (v :: p.1, p.2)
    else popAll r k

/-- R126: the entries that the head of the vector queue pops when it starts; they stay with it until it completes. -/
def takePops (c : CoreId) (srcs : List Opd) (e : Entry) : M (List Row) := do
  let srcs := srcs.filter Opd.isPop
  if srcs.isEmpty || !e.popped.isEmpty then return e.popped
  else
    match popAll srcs (← theCore c) with
    | none => waitHere
    | some (rows, k) =>
      modify fun s => setCore s c { k with streams := { k.streams with vq := match k.streams.vq with
        | h :: r => { h with popped := rows } :: r
        | [] => [] } }
      return rows

/-- The popped entries of sources A and B. -/
def poppedOf (a b : Opd) (l : List Row) : Option Row × Option Row :=
  if a.isPop then (l.head?, if b.isPop then (l.drop 1).head? else none) else (none, if b.isPop then l.head? else none)

/-! ### Sources as row images (R93, R126) -/

/-- A source as a row image: its bits, the poison of its cells, and whether it is tagged. -/
structure Src where
  img : Nat
  psn : Nat

/-- A 32-bit value in every cell (R126). -/
def broadcast (v : Nat) : Nat := buildRow 32 (fun _ => v) 64

/-- The cells of a column or a diagonal as a row image (R12). Its elements from VL on are not read (R95). -/
def gatherLine (k : Core) (vl : Nat) (o : Opd) : Src :=
  { img := buildRow 32 (fun i => let p := o.cell i; elemOf (getRow k (BitVec.ofNat 6 p.1)).row.bits.toNat 32 p.2) vl
    psn := (List.range vl).foldl (fun a i =>
      let p := o.cell i
      if bitAt (getRow k (BitVec.ofNat 6 p.1)).row.psn p.2 then a ||| (1 <<< i) else a) 0 }

/-- What a source supplies; the rows it touches must be resident. -/
def sourceOf (k : Core) (x : Vx) (popped : Option Row) (o : Opd) : Src :=
  match o with
  | .row n => { img := (getRow k n).row.bits.toNat, psn := (getRow k n).row.psn.toNat }
  | .col _ | .dia _ => gatherLine k x.vl o
  | .sreg n => { img := broadcast ((envS x.env n).toNat % 2 ^ 32), psn := 0 }
  | .que n =>
    match popped with
    | some r => if n.toNat < 4 then { img := broadcast (r.bits.toNat % 2 ^ 32), psn := 0 } else { img := r.bits.toNat, psn := r.psn.toNat }
    | none => { img := 0, psn := 0 }
  | .chan _ => match popped with | some r => { img := r.bits.toNat, psn := r.psn.toNat } | none => { img := 0, psn := 0 }
  | .mask _ => { img := 0, psn := 0 }

/-- Rows made resident, in order. -/
def Vx.ensure (x : Vx) (o : Opd) : M Unit := eachOf (o.rows x.vl) x.ens

/-- What `vpack` and `vunpk` read of a source. Of a column or a diagonal they can select elements from VL on, in rows that R95 does not touch:
for these the spec gives no value, and they are free values without poison (DESIGN CHOICE, log 53). -/
def Vx.wholeSource (x : Vx) (popped : Option Row) (o : Opd) : M Src := do
  let v := sourceOf (← theCore x.c) x popped o
  let beyond (u : Nat) : Nat := buildRow 32 (fun i => if x.vl ≤ i then (Config.freeWord (u + i)).toNat else 0) 64
  match o with
  | .col _ | .dia _ => do
    let u := (← get).free
    modify fun s => { s with free := s.free + 64 }
    return { v with img := v.img + beyond u }
  | _ => return v

/-! ### Scales (R80, R81) -/

/-- R81: a legal scale is finite and greater than zero. -/
def scaleLegal (v : Word) : Bool := v != 0 && !bitAt v 31 && (slice v 23 8).toNat != 255

/-- The scale register of an element of a scaled row (R80). -/
def scaleIndex (tag : HWord) (e : Nat) : Nat := tagBase tag + e / 128

/-- The quarters of the scale file that a tag binds made resident. -/
def ensureScales (x : Vx) (tag : HWord) : M Unit :=
  if tagScaled tag then
    let b := tagBase tag
    let n := if tagFmt tag = .int4 then 4 else 2
    eachOf ((List.range 4).filter fun q => b / 64 ≤ q && q ≤ (b + n - 1) / 64) fun q => fillScales x.c q
  else return ()

/-- R81: the scales of the elements that are read are legal; a poisoned register is no legal or illegal value. -/
def checkScales (k : Core) (tag : HWord) (es : List Nat) : M Unit :=
  if tagScaled tag then
    formatUnless (es.all fun e =>
      let n := scaleIndex tag e
      bitAt k.files.scPsn n || scaleLegal (getScale k n))
  else return ()

/-- The real value of an element under its tag (R80). -/
def tagVal (k : Core) (tag : HWord) (img e : Nat) : Val :=
  let f := tagFmt tag
  let w := fmtWidth f
  let v := fmtVal f (elemOf img w e)
  if tagScaled tag then v.mul (fp32.decode (getScale k (scaleIndex tag e)).toNat) else v

/-- Whether an element is poisoned, by its cell or by its scale (R129, R369). -/
def tagPsn (k : Core) (tag : HWord) (psn e : Nat) : Bool :=
  let w := fmtWidth (tagFmt tag)
  elemPsn psn w e || (tagScaled tag && bitAt k.files.scPsn (scaleIndex tag e))

/-! ### Results (R94, R95, R127, R129) -/

/-- A result element: its bits, and whether it is poisoned. -/
structure Res where
  val : Nat
  bad : Bool

/-- What a poisoned element of a format holds (R129). -/
def poisonBits (f : Fmt) : Nat := if fmtIsFloat f then fmtNaN f else 0

/-- A result, or the poisoned element of its format. -/
def resOf (f : Fmt) (bad : Bool) (v : Nat) : Res := if bad then { val := poisonBits f, bad := true } else { val := v, bad := false }

/-- A row image with the elements that a function gives written over it. -/
def putElems (w n : Nat) (old : Nat) (g : Nat → Option Res) : Nat :=
  buildRow w (fun e => match g e with | some r => r.val | none => elemOf old w e) n

/-- Poison after elements are written: a cell that an element touches takes the poison of the elements written in it
(R129). -/
def putPsn (w n : Nat) (old : Nat) (g : Nat → Option Res) : Nat :=
  let touched (bad : Bool) := (List.range n).foldl (fun a e =>
    match g e with
    | some r => if bad && !r.bad then a else a ||| (1 <<< (w * e / 32)) ||| (1 <<< ((w * e + w - 1) / 32))
    | none => a) 0
  (old &&& (touched false ^^^ (2 ^ 64 - 1))) ||| touched true

/-- The PMASK bits of the poisoned elements (R129). -/
def poisonMask (w n : Nat) (g : Nat → Option Res) : Nat :=
  (List.range n).foldl (fun a e => match g e with | some r => if r.bad then a ||| (1 <<< cell0 w e) else a | none => a) 0

/-- R381: a poisoned word of memory that an instruction's operand has met, at its physical and its virtual address. -/
def noteWord (c : CoreId) (pa : Nat) (va : DWord) : M Unit := modCore c fun k =>
  let p := (k.poisoned.find (streamKey k)).getD Consumed.none
  { k with poisoned := k.poisoned.put (streamKey k) { p with word := some (p.word.getD (pa, va)) } }

/-- R129, R370, R371: poisoned elements set PMASK bits; those of a posted entry are recorded as it ends, those of the control thread at
once. -/
def notePoison (c : CoreId) (ipc : DWord) (bits : Nat) : M Unit :=
  if bits = 0 then return ()
  else modify fun s =>
    let b : DWord := BitVec.ofNat 64 bits
    let s := updCore s c fun k =>
      let p := (k.poisoned.find (streamKey k)).getD Consumed.none
      { k with tregs := { k.tregs with pmask := k.tregs.pmask ||| b }
               poisoned := k.poisoned.put (streamKey k) { p with all := p.all ||| b, new := p.new ||| b } }
    if (getCore s c).doing.isSome then s else settlePoison s c .control ipc

/-- A row written with its tag; the row becomes dirty (R94, R105). -/
def storeRow (k : Core) (n : BitVec 6) (bits psn : Nat) (tag : HWord) : Core :=
  setRow k n { row := { bits := BitVec.ofNat 2048 bits, psn := BitVec.ofNat 64 psn, tag := tag }, res := .dirty }

/-- R95: the checks of a column or diagonal destination for a result tag. -/
def checkLine (k : Core) (vl : Nat) (tag : HWord) : M Unit :=
  formatUnless (tagIs32 tag && (List.range vl).all fun i => tagOfRow k i == 0 || tagOfRow k i == tag)

/-- The checks of a destination before anything is written: R95, room in a queue or an out-channel, and an out-binding
(R97, R127, R256) to a core that takes packets (R374, R375). -/
def checkDest (k : Core) (x : Vx) (d : Opd) (tag : HWord) : M Unit :=
  match d with
  | .col _ | .dia _ => checkLine k x.vl tag
  | .que n =>
    if n.toNat < 8 then awaitThat ((k.queues.sq[n.toNat]?.getD []).length < 16)
    else awaitThat ((k.queues.rq[n.toNat - 8]?.getD []).length < 4)
  | .chan n => do
    match outRoute k n with
    | some w => reachCore x.c (routeDest w) w
    | none => raise .queueFault 0
    if inHandler k then require (k.queues.send.length + k.queues.outPending.length < sendDepth) .queueFault 0
    else awaitThat ((k.queues.outPending.filter fun e => e.1 == n).length < 4)
  | _ => return ()

/-- A row image pushed to a row queue (R97). -/
def pushRow (k : Core) (n : Nat) (r : Row) : Core :=
  { k with queues := { k.queues with rq := k.queues.rq.setIfInBounds (n - 8) ((k.queues.rq[n - 8]?.getD []) ++ [r]) } }

/-- A value pushed to a scalar queue (R97). -/
def pushScalar (k : Core) (n : Nat) (v : DWord) : Core :=
  { k with queues := { k.queues with sq := k.queues.sq.setIfInBounds n ((k.queues.sq[n]?.getD []) ++ [v]) } }

/-- A row pushed to an out-channel; it enters the send buffer at once where there is room (R256). -/
def pushOut (c : CoreId) (n : BitVec 3) (r : Row) : M Unit :=
  modify fun s => pumpSends (updCore s c fun k => { k with queues := { k.queues with outPending := k.queues.outPending ++ [(n, r)] } }) c

/-- Pins that a write of rows ends are cut before anything is written (R304, R305). -/
def Vx.cutRows (x : Vx) (l : List (BitVec 6)) : M Unit := eachOf l x.cut

/-- Rows made resident and cut before they are written (R105, R304); a row that was never written takes a block (R106). -/
def openRows (x : Vx) (l : List (BitVec 6)) : M Unit :=
  eachOf l fun n => do
    x.cut n
    if (getRow (← theCore x.c) n).res = .zero then takeBlock x.c else pure ()
    x.ens n

/-- A destination's rows made ready for a write. -/
def openDest (x : Vx) (d : Opd) : M Unit := openRows x (d.rows x.vl)

/-- One cell of a frame row written. -/
def putCell (k : Core) (p : Nat × Nat) (r : Res) : Core :=
  let n : BitVec 6 := BitVec.ofNat 6 p.1
  let old := getRow k n
  setRow k n { row := { old.row with bits := splice old.row.bits (32 * p.2) (BitVec.ofNat 32 r.val), psn := putBit old.row.psn p.2 r.bad }, res := .dirty }

/-- The touched rows of a column or diagonal take the result tag where they have none (R95); their cells stay where they are. -/
def tagLine (k : Core) (vl : Nat) (tag : HWord) : Core :=
  (List.range vl).foldl (fun k i =>
    let n : BitVec 6 := BitVec.ofNat 6 i
    let old := getRow k n
    setRow k n { old with row := { old.row with tag := tag } }) k

/-- A result written to its destination: `g e` is the new value of element e, or `none` where the element keeps its bits. -/
def writeDest (x : Vx) (d : Opd) (tag : HWord) (g : Nat → Option Res) : M Unit := do
  let w := fmtWidth (tagFmt tag)
  let n := elemCount w
  match d with
  | .row r =>
    modCore x.c fun k =>
      let old := (getRow k r).row
      storeRow k r (putElems w n old.bits.toNat g) (putPsn w n old.psn.toNat g) tag
  | .col _ | .dia _ =>
    modCore x.c fun k =>
      (List.range x.vl).foldl (fun k i => match g i with | some v => putCell k (d.cell i) v | none => k) (tagLine k x.vl tag)
  | .que q =>
    modCore x.c fun k => pushRow k q.toNat
      { bits := BitVec.ofNat 2048 (putElems w n 0 g), psn := BitVec.ofNat 64 (putPsn w n 0 g), tag := tag }
  | .chan q =>
    pushOut x.c q { bits := BitVec.ofNat 2048 (putElems w n 0 g), psn := BitVec.ofNat 64 (putPsn w n 0 g), tag := tag }
  | _ => pure ()

/-! ### Protected mode (R130, R372) -/

/-- The first element that a result writes with bits in a cell. -/
def firstIn (w n : Nat) (g : Nat → Option Res) (cell : Nat) : Option Nat :=
  (List.range n).find? fun e => (g e).isSome && cell0 w e ≤ cell && cell ≤ (w * e + w - 1) / 32

/-- R372: the record of a mismatch in a cell, and PROT_MISMATCH where the second computation mismatches too. -/
def noteMismatch (c : CoreId) (m : BitVec 5 × Bool) : M Unit := modify fun s =>
  let k := getCore s c
  let seq := match k.streams.vq with | e :: _ => e.seq.toNat | [] => 0
  let s := report s (coreErr s c 4 m.2 0 0 m.1.toNat seq)
  if m.2 then updCore s c fun k => { k with pend := { k.pend with protMismatch := some (k.pend.protMismatch.getD (m.1.setWidth 64)) } } else s

/-- R130, R372: the computed elements of a format under PROT, as they are after both computations have been compared: an element
whose second computation mismatches too is poisoned. Which computations mismatch is the outside's to say (R369). -/
def protect (x : Vx) (f : Fmt) (g : Nat → Option Res) : M (Nat → Option Res) := do
  let k ← theCore x.c
  if x.env.prot = 0 ∨ k.laneErrors.isEmpty then return g
  else
    let w := fmtWidth f
    let hit (m : BitVec 5 × Bool) : Option Nat := firstIn w (elemCount w) g m.1.toNat
    let (met, rest) := k.laneErrors.partition fun m => (hit m).isSome
    modCore x.c fun k => { k with laneErrors := rest }
    eachOf met (noteMismatch x.c)
    let bad := (met.filter Prod.snd).filterMap hit
    return fun e => if bad.contains e then some (resOf f true 0) else g e

/-! ### Element groups (R128) -/

/-- The group of an element: by cell for a row, by number for a column or diagonal. -/
def groupOf (d : Opd) (w e : Nat) : Nat := if d.isLine then e / 8 else cell0 w e / 8

/-- R128: an instruction runs whole where a destination cell of one group is a source cell of another; that takes two
operands of different direction. -/
def crosses (vl : Nat) (d : Opd) (srcs : List Opd) : Bool :=
  srcs.any fun a => a.isPlace && d.isPlace &&
    (List.range vl).any fun i => (List.range vl).any fun j => i / 8 != j / 8 && d.cell i == a.cell j

/-- Whether a group of an element-wise instruction is done already (R128). -/
def groupDone (x : Vx) (d : Opd) (srcs : List Opd) (w e : Nat) : Bool :=
  x.egdone != 0 && bitAt x.egdone (groupOf d w e) && !crosses x.vl d srcs

/-- The head entry of the vector queue changed. -/
def modHead (k : Core) (f : Entry → Entry) : Core :=
  { k with streams := { k.streams with vq := match k.streams.vq with | e :: r => f e :: r | [] => [] } }

/-- R128, R347: whether faults can fall between the groups of an instruction: some operand is a column or a diagonal, whose groups lie in
different rows. An instruction that retags the rows that it reads runs whole, so that its groups are all read under one tag. -/
def splits (x : Vx) (d : Opd) (srcs : List Opd) (retags : Bool) : Bool :=
  (d.isLine || srcs.any Opd.isLine) && d.isPlace && x.only.isNone && !x.ro && !retags && !crosses x.vl d srcs

/-- A group of the head of the vector queue is over: what its elements consumed makes POISON pending (R129), and what they did is not
done again. -/
def partOver (k : Core) : Core := dropAnswers (pendPoison k .vector) Stream.vector.code

/-- A group is done (R128, R339). -/
def groupEnds (x : Vx) (g : Nat) : M Unit :=
  modCore x.c fun k => partOver (countPerf (modHead k fun e => { e with egdone := putBit e.egdone g true }) 3 1)

/-- R339: the groups of a computation that has run at once; those of a VP block are counted by the block. -/
def countGroups (x : Vx) : M Unit :=
  if x.only.isSome then pure () else modCore x.c fun k => countPerf k 3 ((List.range 8).filter fun g => !bitAt x.egdone g).length

/-- R128: a computation by element groups in ascending order: for each that is not done, the rows of its operands are made resident and
`act` writes the elements that a test names; or at once, where no fault can fall between groups. The pins that the destination cuts are cut
before the first group (R305). -/
def byGroups (x : Vx) (d : Opd) (srcs : List Opd) (w : Nat) (retags : Bool) (act : (Nat → Bool) → M Unit) : M Unit :=
  if splits x d srcs retags then do
    x.cutRows (d.rows x.vl)
    eachOf ((List.range 8).filter fun g => !bitAt x.egdone g) fun g => do
      eachOf srcs fun o => eachOf (o.groupRows x.vl g) x.ens
      openRows x (d.groupRows x.vl g)
      act fun e => groupOf d w e == g
      groupEnds x g
  else do
    eachOf srcs x.ensure
    openDest x d
    act fun _ => true
    countGroups x

end Machine

end Sys2Proof
end

