-- ==== Sys2Proof/Machine/Flags.lean ====
section
/-!
DEFINITION. Conditions. The machine has no condition flags: branches compare scalars (R113), `fcmp` answers 0 or 1
(R118), compares of the vector stream write masks (R137), and masks combine through truth tables (R148). PMASK, EGDONE and
the pending causes are set where they arise (R129, R347, R345).
-/

namespace Sys2Proof.Machine

/-- 1 for true, 0 for false. -/
def boolWord (b : Bool) : DWord := if b then 1 else 0

/-- R118: the conditions of `fcmp`. -/
def fcmpHolds (c : FcmpCond) (a b : Val) : Bool :=
  match c with
  | .eq => Val.eq a b
  | .lt => Val.lt a b
  | .le => Val.lt a b || Val.eq a b
  | .un => a == .nan || b == .nan

/-- The four compares of the vector stream (R137). -/
inductive CmpOp where
  | ceq | cne | clt | cle
  deriving DecidableEq, Repr

/-- R137: the formats that a compare accepts. -/
def CmpOp.accepts (o : CmpOp) (f : Fmt) : Bool :=
  match f with
  | .fp64 | .fp32 | .int32 | .idx32 => true
  | .b32 => o == .ceq || o == .cne
  | _ => false

/-- R137: one comparison in a format: floating point by value with a NaN unequal to all, INT32 signed, others unsigned. -/
def CmpOp.holds (o : CmpOp) (f : Fmt) (a b : Nat) : Bool :=
  let eq := if fmtIsFloat f then Val.eq (fmtVal f a) (fmtVal f b) else a == b
  let lt :=
    if fmtIsFloat f then Val.lt (fmtVal f a) (fmtVal f b)
    else if f = .int32 then decide (signedOf 32 a < signedOf 32 b) else decide (a < b)
  match o with
  | .ceq => eq
  | .cne => !eq
  | .clt => lt
  | .cle => lt || eq

/-- R148: two masks combined bit by bit through a truth table f. -/
def maskTable (f : BitVec 4) (a b : DWord) : DWord :=
  let pick (i : Nat) (x y : DWord) : DWord := if bitAt f i then x &&& y else 0
  pick 0 (~~~a) (~~~b) ||| pick 1 (~~~a) b ||| pick 2 a (~~~b) ||| pick 3 a b

/-- R149: the index of the lowest set bit, or 64. -/
def maskFirst (m : DWord) : Nat := (lowestFrom 64 0 m.toNat).getD 64

end Sys2Proof.Machine
end

