-- ==== Sys2Proof/Machine/Frame.lean ====
section
/-!
DEFINITION. What the vector stream does for the frame instructions of chapter 07 (R132 to R148), each as a computation
under an executing instruction's `Vx`. The control thread's side, posting them, stands in `FramePost.lean`.
-/

namespace Sys2Proof.Machine

/-! ### Lane operations (R132, R133) -/

/-- The lane operations, V3 op 0 to 19 and 44 to 46. -/
inductive LaneOp where
  | add | sub | mul | fma | min | max | and | or | xor | shl | shr | sra | mov | abs | neg | popc
  | div | sqrt | clz | not | addSat | subSat | mulSat
  deriving DecidableEq, Repr

/-- The class Num (R132). -/
def fmtNum : Fmt → Bool
  | .fp64 | .fp32 | .bf16 | .fp16 | .int32 | .int16 | .int8 | .uint8 | .idx32 => true
  | _ => false

/-- The class Flt. -/
def fmtFlt : Fmt → Bool
  | .fp64 | .fp32 | .bf16 | .fp16 => true
  | _ => false

/-- The class Sgn. -/
def fmtSgn : Fmt → Bool
  | .int32 | .int16 | .int8 => true
  | f => fmtFlt f

/-- The class Bits. -/
def fmtBits : Fmt → Bool
  | .int32 | .int16 | .int8 | .int6 | .int4 | .uint8 | .idx32 | .b32 => true
  | _ => false

/-- The class Int. -/
def fmtInts : Fmt → Bool
  | .int32 | .int16 | .int8 | .uint8 | .idx32 => true
  | _ => false

/-- R132: the formats that a lane operation accepts. -/
def LaneOp.accepts (o : LaneOp) (f : Fmt) : Bool :=
  match o with
  | .add | .sub | .mul | .fma | .min | .max | .div => fmtNum f
  | .and | .or | .xor | .mov | .not => f != .none
  | .shl | .shr | .sra | .popc | .clz => fmtBits f
  | .abs | .neg => fmtSgn f
  | .sqrt => fmtFlt f
  | .addSat | .subSat | .mulSat => fmtInts f

/-- R133: where F is B32, `vpopc` and `vclz` give IDX32. -/
def LaneOp.resultTag (o : LaneOp) (t : HWord) : HWord :=
  if (o = .popc ∨ o = .clz) ∧ t = plainTag .b32 then plainTag .idx32 else t

/-- Whether an operation has a source B. -/
def LaneOp.binary : LaneOp → Bool
  | .mov | .abs | .neg | .popc | .sqrt | .clz | .not => false
  | _ => true

/-- R133: the bits of a shift count by width. -/
def shiftBits (w : Nat) : Nat := if w = 32 then 5 else if w = 16 then 4 else if w = 4 then 2 else 3

/-- A signed quotient truncated toward zero, with the corners of R111. -/
def divInt (w : Nat) (signed : Bool) (a b : Int) : Int :=
  if b = 0 then (if signed then -1 else (2 ^ w : Nat) - 1) else Int.tdiv a b

/-- Leading zeros of a `w`-bit value. -/
def leadZeros (w x : Nat) : Nat := w - bitLen x

/-- A floating-point lane operation: exact, then rounded RNE in the format (R132). -/
def laneFloat (o : LaneOp) (f : Fmt) (a b d : Nat) : Nat :=
  let va := fmtVal f a
  let vb := fmtVal f b
  let put := fmtRound f .rne
  let putS (p : Val × Bool) : Nat :=
    match f with
    | .fp64 => fp64.encodeS .rne p.1 p.2
    | .fp32 => fp32.encodeS .rne p.1 p.2
    | .bf16 => bf16.encodeS .rne p.1 p.2
    | _ => fp16.encodeS .rne p.1 p.2
  let sign := 2 ^ (fmtWidth f - 1)
  match o with
  | .add => put (va.add .rne vb)
  | .sub => put (va.add .rne vb.neg)
  | .mul => put (va.mul vb)
  | .fma => put ((va.mul vb).add .rne (fmtVal f d))
  | .min => put (va.min vb)
  | .max => put (va.max vb)
  | .div => putS (va.div vb)
  | .sqrt => putS va.sqrt
  | .abs => if va = .nan then fmtNaN f else a % sign
  | .neg => if va = .nan then fmtNaN f else a ^^^ sign
  | _ => a

/-- An integer lane operation at the format's width, wrapping or saturating (R132, R87). -/
def laneInt (o : LaneOp) (f : Fmt) (a b d : Nat) : Nat :=
  let ia := fmtInt f a
  let ib := fmtInt f b
  let put (i : Int) : Nat := fmtPutInt f false i
  match o with
  | .add => put (ia + ib)
  | .sub => put (ia - ib)
  | .mul => put (ia * ib)
  | .fma => put (ia * ib + fmtInt f d)
  | .min => if ib < ia then b else a
  | .max => if ia < ib then b else a
  | .div => put (divInt (fmtWidth f) (!fmtIsUnsigned f) ia ib)
  | .abs => put (ia.natAbs : Int)
  | .neg => put (0 - ia)
  | .addSat => fmtPutInt f true (ia + ib)
  | .subSat => fmtPutInt f true (ia - ib)
  | .mulSat => fmtPutInt f true (ia * ib)
  | _ => a

/-- R132: one element of a lane operation in a format; `d` is the old element of D. -/
def laneOp (o : LaneOp) (f : Fmt) (a b d : Nat) : Nat :=
  let w := fmtWidth f
  let c := b % 2 ^ shiftBits w
  match o with
  | .and => a &&& b
  | .or => a ||| b
  | .xor => a ^^^ b
  | .not => 2 ^ w - 1 - a % 2 ^ w
  | .mov => a
  | .shl => (a <<< c) % 2 ^ w
  | .shr => a >>> c
  | .sra => wrap w (Int.shiftRight (signedOf w a) c)
  | .popc => popCount w a
  | .clz => leadZeros w a
  | _ => if fmtIsFloat f then laneFloat o f a b d else laneInt o f a b d

/-- The tag that D must carry where the instruction also reads D as F (R133): F in every row it touches. -/
def checkOldTag (k : Core) (vl : Nat) (d : Opd) (t : HWord) : M Unit :=
  formatUnless ((d.rows vl).all fun n => (getRow k n).row.tag == t)

/-- The elements that an instruction writes: covered, active, and in a group not done yet. -/
def writes (x : Vx) (mask : Nat) (d : Opd) (srcs : List Opd) (w e : Nat) : Bool :=
  covered x.vl w e && active mask w e && !groupDone x d srcs w e

/-- The end of a vector instruction: the result is written and its poison noted. -/
def commitResult (x : Vx) (d : Opd) (tag : HWord) (g : Nat → Option Res) : M Unit := do
  let w := fmtWidth (tagFmt tag)
  writeDest x d tag g
  notePoison x.c x.ipc (poisonMask w (elemCount w) g)

/-- The end of a computation, which PROT protects (R130). -/
def commitComputed (x : Vx) (d : Opd) (tag : HWord) (g : Nat → Option Res) : M Unit := do
  commitResult x d tag (← protect x (tagFmt tag) g)

/-- R128, R132: a lane operation on its operands. -/
def runLane (x : Vx) (o : LaneOp) (d a b : Opd) : M Unit := do
  let k ← theCore x.c
  let (pa, pb) := poppedOf a b x.popped
  let ta ← sourceTag k x.vl pa a
  let tb ← if o.binary then sourceTag k x.vl pb b else pure none
  let t ← operatingTag k ta tb d
  formatUnless (o.accepts (tagFmt t))
  if o = .fma then checkOldTag k x.vl d t else pure ()
  let rt := o.resultTag t
  checkDest k x d rt
  let f := tagFmt t
  let w := fmtWidth f
  let srcs := if o.binary then [a, b] else [a]
  byGroups x d srcs w (rt != t) fun on => do
    let k ← theCore x.c
    let mask ← x.mask
    let sa := sourceOf k x pa a
    let sb := if o.binary then sourceOf k x pb b else { img := 0, psn := 0 }
    let sd := sourceOf k x none d
    commitComputed x d rt fun e =>
      if on e && writes x mask d srcs w e then
        let bad := elemPsn sa.psn w e || elemPsn sb.psn w e || (o == .fma && elemPsn sd.psn w e)
        some (resOf (tagFmt rt) bad (laneOp o f (elemOf sa.img w e) (elemOf sb.img w e) (elemOf sd.img w e)))
      else none

/-! ### Conversions (R86, R134) -/

/-- R86: a value converted to a format; `exact` is the integer of an integer source, `none` for a real value. -/
def convertVal (t : Fmt) (r : Rnd) (sat : Bool) (v : Val) (exact : Option Int) : Nat :=
  if t = .e4m3 then encodeE4m3 r v
  else if fmtIsFloat t then
    let x := fmtRound t r v
    match v with
    | .fin n _ _ => if sat && (fmtVal t x == .inf n) then fmtRound t .rtz v else x
    | _ => x
  else
    match exact with
    | some i => fmtPutInt t sat i
    | none => wrap (fmtWidth t) (v.toRange r (fmtRange t).1 (fmtRange t).2)

/-- One element converted from a tag to a format (R86): B32 copies bits, a scaled source converts its real value. R86's table names no row for
the real value of a scaled INT4 source to an integer format: it is rounded and saturated as a floating-point source is, with and without
`.sat` (DESIGN CHOICE, log 53). -/
def convertElem (k : Core) (tag : HWord) (t : Fmt) (r : Rnd) (sat : Bool) (img e : Nat) : Nat :=
  let f := tagFmt tag
  let raw := elemOf img (fmtWidth f) e
  if f = .b32 ∨ t = .b32 then raw
  else convertVal t r sat (tagVal k tag img e) (if fmtIsInt f && !tagScaled tag then some (fmtInt f raw) else none)

/-- R134: `vcvt`. -/
def runCvt (x : Vx) (d a : Opd) (t : Fmt) (rz sat : Bool) : M Unit := do
  let k ← theCore x.c
  let (pa, _) := poppedOf a a x.popped
  let tag ← operatingTag k (← sourceTag k x.vl pa a) none d
  let f := tagFmt tag
  formatUnless (f != .none && (f != .b32 || fmtIs32 t) && (t != .b32 || fmtIs32 f))
  checkDest k x d (plainTag t)
  ensureScales x tag
  let mask ← x.mask
  let wf := fmtWidth f
  let wt := fmtWidth t
  let srcs := if wf = wt then [a] else []
  let ws := fun e => covered x.vl wf e && covered x.vl wt e && active mask wt e && !(wf == wt && groupDone x d srcs wt e)
  checkScales (← theCore x.c) tag ((List.range (elemCount wf)).filter ws)
  let r := if rz then Rnd.rtz else .rne
  let act := fun on : Nat → Bool => do
    let k ← theCore x.c
    let sa := sourceOf k x pa a
    commitComputed x d (plainTag t) fun e =>
      if on e && ws e then some (resOf t (tagPsn k tag sa.psn e) (convertElem k tag t r sat sa.img e)) else none
  if wf = wt then byGroups x d [a] wt (tag != plainTag t) act
  else do
    x.ensure a
    openDest x d
    act fun _ => true

/-! ### Tags and scales (R135, R136) -/

/-- R135 mode 0: a row takes a tag, and nothing else of it changes. -/
def retag (x : Vx) (n : BitVec 6) (tag : HWord) : M Unit := do
  formatUnless (tagOk tag)
  x.cut n
  modCore x.c fun k => let r := getRow k n; setRow k n { r with row := { r.row with tag := tag }, res := if r.res = .zero then .dirty else r.res }

/-- R135 mode 1: cells of an FP32 row into a quarter of the scale file, compared under PROT (R130). -/
def loadScales (x : Vx) (n : BitVec 6) (q : Nat) : M Unit := do
  formatUnless ((getRow (← theCore x.c) n).row.tag == plainTag .fp32)
  fillScales x.c q
  x.ens n
  let k ← theCore x.c
  let mask ← x.mask
  let r := (getRow k n).row
  let g ← protect x .fp32 fun i =>
    if covered x.vl 32 i && active mask 32 i then some (resOf .fp32 (bitAt r.psn i) (elemOf r.bits.toNat 32 i)) else none
  modCore x.c fun k => (List.range 64).foldl (fun k i =>
    match g i with
    | some v =>
      let k := setScale k (64 * q + i) (BitVec.ofNat 32 v.val)
      if v.bad then { k with files := { k.files with scPsn := putBit k.files.scPsn (64 * q + i) true } } else k
    | none => k) k
  notePoison x.c x.ipc (poisonMask 32 64 g)

/-- R135 mode 2: a quarter of the scale file into the cells of a row. -/
def readScales (x : Vx) (n : BitVec 6) (q : Nat) : M Unit := do
  fillScales x.c q
  openDest x (.row n)
  let k ← theCore x.c
  let mask ← x.mask
  commitComputed x (.row n) (plainTag .fp32) fun i =>
    if covered x.vl 32 i && active mask 32 i then
      some (resOf .fp32 (bitAt k.files.scPsn (64 * q + i)) (getScale k (64 * q + i)).toNat)
    else none

/-- R135: `vfmt`. -/
def runFmt (x : Vx) (n : BitVec 6) (a : BitVec 5) : M Unit := do
  let v := (envS x.env a).toNat
  let tag : HWord := BitVec.ofNat 16 v
  let mode := fieldOf v 17 16
  let q := fieldOf v 19 18
  formatUnless (fieldOf v 31 20 == 0 && mode != 3 && (mode == 0 || tag == 0))
  if mode = 0 then retag x n tag
  else if mode = 1 then loadScales x n q
  else readScales x n q

/-- R136: `vclr` leaves a zero row without a tag, zero-resident. -/
def runClr (x : Vx) (n : BitVec 6) : M Unit := do
  x.cut n
  modCore x.c fun k => setRow k n { row := Row.blank, res := .zero }

/-- R136: `vid`. -/
def runId (x : Vx) (d : Opd) : M Unit := do
  let tag := plainTag .idx32
  checkDest (← theCore x.c) x d tag
  let mask ← x.mask
  byGroups x d [] 32 false fun on =>
    commitComputed x d tag fun e => if on e && writes x mask d [] 32 e then some { val := e, bad := false } else none

/-! ### Compares, selection and masks (R137, R138, R148) -/

/-- R137: a compare writes a whole mask; a poisoned element gives 0 and its PMASK bit (log 18). -/
def runCmp (x : Vx) (o : CmpOp) (kd : BitVec 3) (a b : Opd) : M Unit := do
  let k ← theCore x.c
  let (pa, pb) := poppedOf a b x.popped
  let t ← operatingTag k (← sourceTag k x.vl pa a) (← sourceTag k x.vl pb b) (.sreg 0)
  let f := tagFmt t
  formatUnless (o.accepts f && !tagScaled t)
  x.ensure a
  x.ensure b
  let k ← theCore x.c
  let mask ← x.mask
  let w := fmtWidth f
  let sa := sourceOf k x pa a
  let sb := sourceOf k x pb b
  let g ← protect x f fun e =>
    if covered x.vl w e && active mask w e then
      let bad := elemPsn sa.psn w e || elemPsn sb.psn w e
      some { val := if !bad && o.holds f (elemOf sa.img w e) (elemOf sb.img w e) then 1 else 0, bad := bad }
    else none
  let holds := fun e => match g e with | some r => !r.bad && r.val == 1 | none => false
  let m := (List.range (elemCount w)).foldl (fun m e => if holds e then m ||| ((2 ^ (w / 32) - 1) <<< cell0 w e) else m) 0
  modCore x.c fun k => setK k kd (x.newMask (getK k kd) (BitVec.ofNat 64 m))
  notePoison x.c x.ipc (poisonMask w (elemCount w) g)

/-- R138: `vsel` writes every covered element from A or B by the governing mask. -/
def runSel (x : Vx) (d a b : Opd) : M Unit := do
  let k ← theCore x.c
  let (pa, pb) := poppedOf a b x.popped
  let t ← operatingTag k (← sourceTag k x.vl pa a) (← sourceTag k x.vl pb b) d
  checkDest k x d t
  let mask ← x.gov
  let w := fmtWidth (tagFmt t)
  byGroups x d [a, b] w false fun on => do
    let k ← theCore x.c
    let sa := sourceOf k x pa a
    let sb := sourceOf k x pb b
    commitComputed x d t fun e =>
      if on e && covered x.vl w e && x.picks e && !groupDone x d [a, b] w e then
        let s := if active mask w e then sa else sb
        some (resOf (tagFmt t) (elemPsn s.psn w e) (elemOf s.img w e))
      else none

/-- R148: `kbool`. -/
def runBool (x : Vx) (kd ka kb : BitVec 3) (f : BitVec 4) : M Unit :=
  modCore x.c fun k => setK k kd (x.newMask (getK k kd) (maskTable f (getK k ka) (getK k kb)))

/-- R148: `kset`. -/
def runKset (x : Vx) (kd : BitVec 3) (rs1 : BitVec 5) : M Unit := modCore x.c fun k => setK k kd (envS x.env rs1)

/-! ### Reductions (R139, R140) -/

/-- The reductions that fold one value. -/
inductive RedOp where
  | sum | min | max | and | or | xor
  deriving DecidableEq, Repr

/-- The fold of a reduction. -/
def RedOp.fold : RedOp → FoldOp
  | .sum => .add | .min => .min | .max => .max | .and => .and | .or => .or | .xor => .xor

/-- R139: the formats that a reduction accepts. -/
def RedOp.accepts (o : RedOp) (f : Fmt) : Bool :=
  match o with
  | .sum | .min | .max => f == .fp64 || f == .fp32 || f == .int32 || f == .idx32
  | .and | .or | .xor => f == .int32 || f == .idx32 || f == .b32

/-- Neighbours combined: one level of the tree. -/
def pairUp {α : Type} (f : α → α → α) : List α → List α
  | a :: b :: r => f a b :: pairUp f r
  | l => l

/-- R139: the tree of positions, by levels. -/
def treeFold {α : Type} (f : α → α → α) : Nat → List α → List α
  | 0, l => l
  | n + 1, l => treeFold f n (pairUp f l)

/-- The value of a tree over 64 or 32 positions. -/
def treeOf {α : Type} (f : α → α → α) (z : α) (l : List α) : α := ((treeFold f 6 l).head?).getD z

/-- A reduction's results, its element 0 and those after it, written to their destination (R139); PROT compares them (R372). -/
def writeReduced (x : Vx) (d : Opd) (t : HWord) (l : List Res) : M Unit := do
  let w := fmtWidth (tagFmt t)
  let g ← protect x (tagFmt t) fun e => l[e]?
  let l := (List.range l.length).filterMap g
  match d with
  | .que n =>
    if n.toNat < 8 then modCore x.c fun k => pushScalar k n.toNat (BitVec.ofNat 64 (pack w (l.map Res.val)))
    else writeDest x d t g
  | _ => writeDest x d t g
  notePoison x.c x.ipc (if l.any Res.bad then 1 else 0)

/-- R139: a tree's value; a minimum or maximum of elements that are all NaN is the identity, as the rule's sentence says (log 50). -/
def reduced (o : RedOp) (f : Fmt) (l : List Nat) : Nat :=
  let z := foldIdentity o.fold f
  let v := treeOf (foldStep o.fold f) z l
  if (o = .min ∨ o = .max) ∧ fmtIsFloat f ∧ fmtVal f v = .nan then z else v

/-- R139: a reduction. -/
def runRed (x : Vx) (o : RedOp) (d a : Opd) : M Unit := do
  let k ← theCore x.c
  let (pa, _) := poppedOf a a x.popped
  let t ← operatingTag k (← sourceTag k x.vl pa a) none d
  let f := tagFmt t
  formatUnless (o.accepts f)
  checkDest k x d t
  x.ensure a
  openDest x d
  let k ← theCore x.c
  let mask ← x.mask
  let w := fmtWidth f
  let sa := sourceOf k x pa a
  let on := fun e => covered x.vl w e && active mask w e
  let z := foldIdentity o.fold f
  let bad := (List.range (2048 / w)).any fun e => on e && elemPsn sa.psn w e
  let v := reduced o f ((List.range (2048 / w)).map fun e => if on e then elemOf sa.img w e else z)
  writeReduced x d t [resOf f bad v]

/-- R140: the value that a position without an element holds. -/
def minxIdentity (f : Fmt) : Nat := if f = .fp32 then 0x7F800000 else if f = .int32 then 0x7FFFFFFF else 0xFFFFFFFF

/-- R140, R84: whether a value is the smaller in a minimum, where −0 is below +0. -/
def minBelow (f : Fmt) (a b : Nat) : Bool :=
  CmpOp.holds .clt f a b || (f == .fp32 && CmpOp.holds .ceq f a b && a.testBit 31 && !b.testBit 31)

/-- R140: of two pairs the one with the smaller value, and of equal values the smaller index. -/
def minxStep (f : Fmt) (p q : Nat × Nat) : Nat × Nat :=
  if minBelow f p.1 q.1 then p
  else if minBelow f q.1 p.1 then q
  else if q.2 < p.2 then q else p

/-- R140: `vredminx`. -/
def runRedMinx (x : Vx) (d a : Opd) : M Unit := do
  let k ← theCore x.c
  let (pa, _) := poppedOf a a x.popped
  let t ← operatingTag k (← sourceTag k x.vl pa a) none d
  let f := tagFmt t
  formatUnless (f == .fp32 || f == .int32 || f == .idx32)
  checkDest k x d (plainTag .b32)
  x.ensure a
  openDest x d
  let k ← theCore x.c
  let mask ← x.mask
  let sa := sourceOf k x pa a
  let on := fun e => covered x.vl 32 e && active mask 32 e
  let z := (minxIdentity f, 0xFFFFFFFF)
  let pair := fun e =>
    let v := elemOf sa.img 32 e
    if on e && !(f == .fp32 && fmtVal f v == .nan) then (v, e) else z
  let bad := (List.range 64).any fun e => on e && elemPsn sa.psn 32 e
  let p := treeOf (minxStep f) z ((List.range 64).map pair)
  writeReduced x d (plainTag .b32) [resOf .b32 bad p.1, resOf .b32 bad p.2]

/-! ### Moving elements (R141 to R144) -/

/-- R141: a slide; `up` moves elements to higher positions. -/
def runSlide (x : Vx) (up : Bool) (d a b : Opd) : M Unit := do
  let k ← theCore x.c
  let (pa, pb) := poppedOf a b x.popped
  let t ← operatingTag k (← sourceTag k x.vl pa a) none d
  formatUnless (t != 0)
  checkDest k x d t
  x.ensure a
  openDest x d
  let k ← theCore x.c
  let mask ← x.mask
  let f := tagFmt t
  let w := fmtWidth f
  let sa := sourceOf k x pa a
  let dist := elemOf (sourceOf k x pb b).img 32 0
  let n := 32 * x.vl / w
  commitComputed x d t fun e =>
    if covered x.vl w e && active mask w e then
      let src := if up then (if dist ≤ e then some (e - dist) else none) else (if e + dist < n then some (e + dist) else none)
      match src with
      | some j => some (resOf f (elemPsn sa.psn w j) (elemOf sa.img w j))
      | none => some { val := 0, bad := false }
    else none

/-- R142: `vperm`. -/
def runPerm (x : Vx) (d a b : Opd) : M Unit := do
  let k ← theCore x.c
  let (pa, pb) := poppedOf a b x.popped
  let t ← operatingTag k (← sourceTag k x.vl pa a) none d
  formatUnless (tagIs32 t)
  let tb ← sourceTag k x.vl pb b
  formatUnless (match tb with | some u => u == plainTag .idx32 || u == plainTag .int32 | none => true)
  checkDest k x d t
  x.ensure a
  x.ensure b
  openDest x d
  let k ← theCore x.c
  let mask ← x.mask
  let sa := sourceOf k x pa a
  let sb := sourceOf k x pb b
  commitComputed x d t fun e =>
    if covered x.vl 32 e && active mask 32 e then
      let i := elemOf sb.img 32 e
      let inside := i < x.vl
      let bad := elemPsn sb.psn 32 e || (inside && elemPsn sa.psn 32 i)
      some (resOf (tagFmt t) bad (if inside then elemOf sa.img 32 i else 0))
    else none

/-- R143: the pairs of formats that `vpack` narrows. -/
def packs (f t : Fmt) : Bool :=
  match f, t with
  | .fp64, .fp32 | .fp32, .bf16 | .fp32, .fp16 | .bf16, .e4m3 | .fp16, .e4m3 | .int32, .int16 | .int16, .int8 | .int16, .uint8
  | .int8, .int4 => true
  | _, _ => false

/-- R143: `vpack`. -/
def runPack (x : Vx) (n : BitVec 6) (a b : Opd) : M Unit := do
  let k ← theCore x.c
  let (pa, pb) := poppedOf a b x.popped
  let t := (getRow k n).row.tag
  let tag ← operatingTag k (← sourceTag k x.vl pa a) (← sourceTag k x.vl pb b) (.row n)
  let f := tagFmt tag
  formatUnless (!tagScaled t && !tagScaled tag && packs f (tagFmt t))
  x.ensure a
  x.ensure b
  openDest x (.row n)
  let k ← theCore x.c
  let mask ← x.mask
  let w := fmtWidth (tagFmt t)
  let m := elemCount (fmtWidth f)
  let sa ← x.wholeSource pa a
  let sb ← x.wholeSource pb b
  commitComputed x (.row n) t fun e =>
    if covered x.vl w e && active mask w e then
      let s := if e < m then sa else sb
      let j := if e < m then e else e - m
      some (resOf (tagFmt t) (elemPsn s.psn (fmtWidth f) j) (convertElem k tag (tagFmt t) .rne true s.img j))
    else none

/-- R144: the target of `vunpk`, its elements per part, and its parts. -/
def unpackTo : Fmt → Option (Fmt × Nat × Nat)
  | .int4 => some (.int32, 64, 8)
  | .int6 => some (.int32, 64, 6)
  | .int8 => some (.int32, 64, 4)
  | .int16 => some (.int32, 64, 2)
  | .uint8 => some (.idx32, 64, 4)
  | .e4m3 => some (.fp32, 64, 4)
  | .bf16 | .fp16 => some (.fp32, 64, 2)
  | .fp32 => some (.fp64, 32, 2)
  | _ => none

/-- R144: the target of `vunpk` under a tag: a scaled source gives FP32 (log 19). -/
def unpackTarget (tag : HWord) : Option (Fmt × Nat × Nat) :=
  (unpackTo (tagFmt tag)).map fun p => if tagScaled tag then (.fp32, p.2) else p

/-- R144: `vunpk`. -/
def runUnpk (x : Vx) (d a : Opd) (p : Nat) : M Unit := do
  let k ← theCore x.c
  let (pa, _) := poppedOf a a x.popped
  let tag ← operatingTag k (← sourceTag k x.vl pa a) none d
  match unpackTarget tag with
  | none => formatUnless false
  | some (t, per, parts) =>
    formatUnless (p < parts)
    checkDest k x d (plainTag t)
    ensureScales x tag
    let mask ← x.mask
    let wf := fmtWidth (tagFmt tag)
    let wt := fmtWidth t
    let on := fun i => i < per && covered x.vl wt i && active mask wt i
    let src := fun i => per * p + i
    let inside := fun i => src i < elemCount wf
    checkScales (← theCore x.c) tag (((List.range per).filter fun i => on i && inside i).map src)
    x.ensure a
    openDest x d
    let k ← theCore x.c
    let sa ← x.wholeSource pa a
    commitComputed x d (plainTag t) fun i =>
      if on i then
        if inside i then some (resOf t (tagPsn k tag sa.psn (src i)) (convertElem k tag t .rne false sa.img (src i)))
        else some { val := 0, bad := false }
      else none

/-! ### Dot products and quantisation (R145 to R147) -/

/-- R145: the result format of `vdot`. -/
def dotResult : Fmt → Option Fmt
  | .int8 | .int16 => some .int32
  | .uint8 => some .idx32
  | .bf16 | .fp16 | .e4m3 => some .fp32
  | _ => none

/-- The tag under which each source of `vdot` is read: its own, or the other's where it has none. -/
def dotTags (k : Core) (a b : Option HWord) (d : Opd) : HWord × HWord :=
  let other := match d with | .row n => (getRow k n).row.tag | _ => 0
  match a, b with
  | some t, some u => (t, u)
  | some t, none => (t, t)
  | none, some u => (u, u)
  | none, none => (other, other)

/-- The elements of one cell (R145). -/
def cellElems (w i : Nat) : List Nat := (List.range (32 / w)).map fun j => 32 / w * i + j

/-- R145: one cell of `vdot`. -/
def dotCell (k : Core) (ta tb : HWord) (r : Fmt) (ia ib old i : Nat) : Nat :=
  let es := cellElems (fmtWidth (tagFmt ta)) i
  if r = .fp32 then
    let s := es.foldl (fun s e => s.add .rne ((tagVal k ta ia e).mul (tagVal k tb ib e))) Val.zero
    rne32 ((fp32.decode old).add .rne s)
  else
    let f := tagFmt ta
    let w := fmtWidth f
    let s := es.foldl (fun s e => s + fmtInt f (elemOf ia w e) * fmtInt f (elemOf ib w e)) (0 : Int)
    wrap 32 (fmtInt r old + s)

/-- R145: `vdot`. -/
def runDot (x : Vx) (d a b : Opd) : M Unit := do
  let k ← theCore x.c
  let (pa, pb) := poppedOf a b x.popped
  let (ta, tb) := dotTags k (← sourceTag k x.vl pa a) (← sourceTag k x.vl pb b) d
  formatUnless (tagFmt ta == tagFmt tb)
  match dotResult (tagFmt ta) with
  | none => formatUnless false
  | some r =>
    formatUnless ((d.rows x.vl).all fun n => (getRow k n).row.tag == 0 || (getRow k n).row.tag == plainTag r)
    ensureScales x ta
    ensureScales x tb
    let mask ← x.mask
    let w := fmtWidth (tagFmt ta)
    let on := fun i => writes x mask d [a, b] 32 i
    let es := ((List.range 64).filter on).flatMap (cellElems w)
    checkScales (← theCore x.c) ta es
    checkScales (← theCore x.c) tb es
    let old := (List.range 64).map fun i : Nat => (getRow k (BitVec.ofNat 6 (d.cell i).1)).row.tag
    let fresh := fun i => old.getD i 0 == 0
    byGroups x d [a, b] 32 ((d.rows x.vl).any fun n => (getRow k n).row.tag == 0) fun sel => do
      let k ← theCore x.c
      let sa := sourceOf k x pa a
      let sb := sourceOf k x pb b
      let sd := sourceOf k x none d
      commitComputed x d (plainTag r) fun i =>
        if sel i && on i then
          let es := cellElems w i
          let bad := es.any (fun e => tagPsn k ta sa.psn e || tagPsn k tb sb.psn e) || (!fresh i && elemPsn sd.psn 32 i)
          some (resOf r bad (dotCell k ta tb r sa.img sb.img (if fresh i then 0 else elemOf sd.img 32 i) i))
        else none

/-- R82: the exponent p of the smallest power of two with m × 2^e ≤ top × 2^p, for top 448 or 7 given as 7 × 2^z. -/
def ceilLog (m : Nat) (e z : Int) : Int :=
  let l := bitLen (8 * m)
  let t := if 8 * m ≤ 7 * 2 ^ (l - 3) then l - 3 else l - 2
  (t : Int) - 3 + e - z

/-- The FP32 bits of 2^p, p from −149 to 127. -/
def pow2Bits (p : Int) : Nat := if p < -126 then 2 ^ (p + 149).toNat else (p + 127).toNat * 2 ^ 23

/-- The larger of two magnitudes. -/
def maxMag (a b : Val) : Val := if Val.lt a b then b else a

/-- R82: the exponent of a block's scale: 0 for a block with no finite non-zero element. -/
def quantExp (amax : Val) : Int :=
  match amax with
  | .fin _ m e => if m = 0 then 0 else min 127 (max (-149) (ceilLog m e 6))
  | _ => 0

/-- A value divided by 2^p, exactly. -/
def scaleDown (p : Int) : Val → Val
  | .fin n m e => .fin n m (e - p)
  | v => v

/-- R146: `vqnt`. -/
def runQnt (x : Vx) (n a : BitVec 6) (s : BitVec 8) : M Unit := do
  let k ← theCore x.c
  formatUnless (a.toNat ≤ 60 && s.toNat ≤ 254)
  let rows := (List.range 4).map fun j : Nat => (BitVec.ofNat 6 (a.toNat + j))
  formatUnless (rows.all fun r => (getRow k r).row.tag == plainTag .fp32)
  fillScales x.c (s.toNat / 64)
  fillScales x.c ((s.toNat + 1) / 64)
  eachOf rows x.ens
  openDest x (.row n)
  let k ← theCore x.c
  let mask ← x.mask
  let rowOf := fun e : Nat => (getRow k (BitVec.ofNat 6 (a.toNat + e / 64))).row
  let on := fun e => e < 4 * x.vl && mask.testBit (e / 4)
  let bad := fun e => bitAt (rowOf e).psn (e % 64)
  let val := fun e => fp32.decode (elemOf (rowOf e).bits.toNat 32 (e % 64))
  let block := fun v => (List.range 128).map fun j : Nat => 128 * v + j
  let amax := fun v => (block v).foldl (fun m e =>
    if on e && !bad e then (match val e with | .fin _ q g => maxMag m (.fin false q g) | _ => m) else m) Val.zero
  let p0 := quantExp (amax 0)
  let p1 := quantExp (amax 1)
  modCore x.c fun k =>
    let k := if (block 0).any on then setScale k s.toNat (BitVec.ofNat 32 (pow2Bits p0)) else k
    if (block 1).any on then setScale k (s.toNat + 1) (BitVec.ofNat 32 (pow2Bits p1)) else k
  commitComputed x (.row n) (BitVec.ofNat 16 (0x15 + 256 * s.toNat)) fun e =>
    if on e then some (resOf .e4m3 (bad e) (encodeE4m3 .rne (scaleDown (if e < 128 then p0 else p1) (val e)))) else none

/-- R147: `vdq`. -/
def runDq (x : Vx) (n : BitVec 6) (a : Opd) : M Unit := do
  let k ← theCore x.c
  let (pa, _) := poppedOf a a x.popped
  let tag ← operatingTag k (← sourceTag k x.vl pa a) none (.row n)
  let f := tagFmt tag
  formatUnless (f == .e4m3 || f == .int4)
  let m := if f = .e4m3 then 4 else 8
  formatUnless (n.toNat + m ≤ 64)
  ensureScales x tag
  let mask ← x.mask
  let on := fun i => covered x.vl 32 i && active mask 32 i
  checkScales (← theCore x.c) tag ((List.range m).flatMap fun r => ((List.range 64).filter on).map fun i : Nat => 64 * r + i)
  x.ensure a
  eachOf (List.range m) fun r => openDest x (.row (BitVec.ofNat 6 (n.toNat + r)))
  let k ← theCore x.c
  let sa := sourceOf k x pa a
  let res := fun r i => resOf .fp32 (tagPsn k tag sa.psn (64 * r + i)) (rne32 (tagVal k tag sa.img (64 * r + i)))
  let gs ← collect (List.range m) fun r => do
    let g ← protect x .fp32 fun i => if on i then some (res r i) else none
    writeDest x (.row (BitVec.ofNat 6 (n.toNat + r))) (plainTag .fp32) g
    return poisonMask 32 64 g
  notePoison x.c x.ipc (gs.foldl (· ||| ·) 0)

end Sys2Proof.Machine
end

