-- ==== Sys2Proof/Machine/Collect.lean ====
section
/-!
DEFINITION. Collective groups in the routers and the hub: relay rows, down-waves and aborts (R272 to R284).
-/

namespace Sys2Proof.Machine

/-- The nodes of a tree: the router of a core, or the hub (R272). -/
abbrev Node := Option CoreId

/-- The tree entries of a node. -/
def treesAt (s : State) (n : Node) : List TreeEntry :=
  match n with
  | some c => (getCore s c).tables.trees
  | none => s.hub.trees

/-- A node's tree entries replaced. -/
def setTrees (s : State) (n : Node) (l : List TreeEntry) : State :=
  match n with
  | some c => updCore s c fun k => { k with tables := { k.tables with trees := l } }
  | none => { s with hub := { s.hub with trees := l } }

/-- A node's entry for a GID. -/
def treeAt (s : State) (n : Node) (gid : BitVec 12) : Option TreeEntry := (treesAt s n).find? fun e => e.gid == gid

/-- A node's entry for a GID changed. -/
def modTree (s : State) (n : Node) (gid : BitVec 12) (f : TreeEntry → TreeEntry) : State :=
  setTrees s n ((treesAt s n).map fun e => if e.gid = gid then f e else e)

/-- Every node that holds an entry. -/
def allNodes (s : State) : List Node := none :: (listedCores s fun _ => true).map some

/-- Whether an entry belongs to a group: its GID and context. -/
def TreeEntry.inGroup (e : TreeEntry) (gid : BitVec 12) (ctx : HWord) : Bool := e.gid == gid && e.ctx == ctx

/-! ### Aborts (R284) -/

/-- The slots of a group at a core that an abort marks: the open ones that are not aborted yet. -/
def abortedSlots (k : Core) (gid : BitVec 12) (ctx : HWord) : List CollSlot :=
  k.tables.slots.filter fun x => x.gid == gid && x.ctx == ctx && !x.aborted

/-- The open slots of a group at a core marked ABORTED; a slot that its task has left is closed. -/
def abortSlots (k : Core) (gid : BitVec 12) (ctx : HWord) (timedOut : Bool) : Core :=
  let mark (x : CollSlot) : CollSlot :=
    if x.gid = gid ∧ x.ctx = ctx then { x with aborted := true, timedOut := x.timedOut || (timedOut && !x.aborted) } else x
  { k with tables := { k.tables with slots := (k.tables.slots.map mark).filter fun x => !(x.orphan && (x.aborted || x.delivered)) } }

/-- R284: the bytes at DST of a slot that an abort closes are undefined (log 9). -/
def blurDst (s : State) (c : CoreId) (x : CollSlot) : State :=
  let n := if x.kind = 3 then 0 else 64 * x.rows.toNat
  let s' := (List.range n).foldl (fun s' i => storePut s' (sramKey c (x.dst.toNat + 4 * i)) 4 (Config.freeWord (s.free + i)).toNat false) s
  { s' with free := s.free + n }

/-- The tree entries of a group changed at every node. -/
def modGroup (s : State) (gid : BitVec 12) (ctx : HWord) (f : TreeEntry → Option TreeEntry) : State :=
  let step (l : List TreeEntry) : List TreeEntry := l.filterMap fun e => if e.inGroup gid ctx then f e else some e
  { s with
    hub := { s.hub with trees := step s.hub.trees }
    cores := s.cores.mapVals fun _ k =>
      if k.tables.trees.any fun e => e.inGroup gid ctx then { k with tables := { k.tables with trees := step k.tables.trees } } else k }

/-- The fabric ports below the hub in a group's tree (R272). -/
def TreeEntry.fabricBelow (e : TreeEntry) : List Nat := (List.range 48).filter fun p => bitAt e.child (16 + p)

/-- The fabric port toward the top of a group's tree, where the hub's parent is one (R272). -/
def TreeEntry.fabricAbove (e : TreeEntry) : Option Nat := if !e.top && 16 ≤ e.parent.toNat then some (e.parent.toNat - 16) else none

/-- A step of a group's abort sent through fabric ports (R284). -/
def sendSteps (s : State) (e : TreeEntry) (ports : List Nat) (step : AbortStep) : State :=
  { s with hub := { s.hub with aborts := s.hub.aborts ++ ports.map fun p =>
      { gid := e.gid, ctx := e.ctx, tenant := e.tenant, port := p, step := step, way := Transit.first s.time } } }

/-- R284: an abort that has reached the hub goes on through the fabric ports of the group's tree, once. -/
def tellPeers (s : State) (gid : BitVec 12) (ctx : HWord) : State :=
  match treeAt s none gid with
  | some e =>
    if e.ctx != ctx || e.told then s
    else modTree (sendSteps s e (e.fabricBelow ++ e.fabricAbove.toList) .start) none gid fun e => { e with told := true }
  | none => s

/-- R284: the abort of a group has reached every router of the package: each entry is ABORTING, every open slot is ABORTED, the rows in
flight are dropped, and the bytes at DST are undefined; it goes on to the peers of the tree. -/
def spreadAbort (s : State) (gid : BitVec 12) (ctx : HWord) (timedOut : Bool) : State :=
  let s := (listedCores s fun _ => true).foldl (fun s c => (abortedSlots (getCore s c) gid ctx).foldl (fun s x => blurDst s c x) s) s
  let s := { s with hub := { s.hub with
    relay := s.hub.relay.filter fun m => !(m.gid == gid && m.ctx == ctx)
    down := s.hub.down.filter fun m => !(m.gid == gid && m.ctx == ctx) } }
  let s := modGroup s gid ctx fun e => some { e with aborting := true }
  tellPeers { s with cores := s.cores.mapVals fun _ k =>
      if (abortedSlots k gid ctx).isEmpty then k else abortSlots k gid ctx timedOut } gid ctx

/-- R284: every entry of a group in the package is freed. -/
def freeGroup (s : State) (gid : BitVec 12) (ctx : HWord) : State := modGroup s gid ctx fun _ => none

/-- R284: every router of the package is ABORTING. Where the peers below have acknowledged too, the top frees every entry and tells them;
a hub whose parent is a peer acknowledges to it, and waits for its word. -/
def settleAbort (s : State) (gid : BitVec 12) (ctx : HWord) : State :=
  match treeAt s none gid with
  | none => freeGroup s gid ctx
  | some e =>
    if e.ctx != ctx then freeGroup s gid ctx
    else if !e.fabricBelow.all fun p => bitAt e.acks (16 + p) then s
    else match e.fabricAbove with
      | none => freeGroup (sendSteps s e e.fabricBelow .freed) gid ctx
      | some p => if e.acked then s else modTree (sendSteps s e [p] .ack) none gid fun e => { e with acked := true }

/-- R284: the abort of a group from its start to its end in the package. -/
def abortGroup (s : State) (gid : BitVec 12) (ctx : HWord) : State := settleAbort (spreadAbort s gid ctx false) gid ctx

/-- An abort starts at a node: its entry is ABORTING (R283, R284). -/
def startAbort (s : State) (n : Node) (gid : BitVec 12) : State := modTree s n gid fun e => { e with aborting := true }

/-- The entries of a group at every node. -/
def groupEntries (s : State) (gid : BitVec 12) (ctx : HWord) : List TreeEntry :=
  (allNodes s).flatMap fun n => (treesAt s n).filter fun e => e.inGroup gid ctx

/-- Whether some entry of a group is ABORTING. -/
def groupAborting (s : State) (gid : BitVec 12) (ctx : HWord) : Bool := (groupEntries s gid ctx).any TreeEntry.aborting

/-- Whether a group has entries left. -/
def groupStands (s : State) (gid : BitVec 12) (ctx : HWord) : Bool := !(groupEntries s gid ctx).isEmpty

/-- R284: an abort that has started travels to the top and down to every router; once each is ABORTING, the acknowledgements free the
entries. -/
def travelGroup (s : State) (gid : BitVec 12) (ctx : HWord) : State :=
  if !groupAborting s gid ctx then s
  else if (groupEntries s gid ctx).all TreeEntry.aborting then abortGroup s gid ctx
  else spreadAbort s gid ctx false

/-- R284: a step of an abort that comes from a peer through a fabric port of the group's tree. -/
def fabricAbort (s : State) (port : Nat) (gid : BitVec 12) (ctx tenant : HWord) (step : AbortStep) : State :=
  match treeAt s none gid with
  | none => s
  | some e =>
    if e.ctx != ctx || e.tenant != tenant || !(e.fabricBelow ++ e.fabricAbove.toList).contains port then s
    else match step with
      | .start => abortGroup s gid ctx
      | .ack => if e.aborting then settleAbort (modTree s none gid fun e => { e with acks := putBit e.acks (16 + port) true }) gid ctx else s
      | .freed => if e.fabricAbove == some port then freeGroup (sendSteps s e e.fabricBelow .freed) gid ctx else s

/-- R377: a turn of a step on its way out: it waits for its time-out, it is lost, or it reaches the peer and is acknowledged. After the third
reissue it is given up, with a record. -/
def moveStep (s : State) (m : AbortMsg) : State :=
  let keep (s : State) (w : Transit) : State := { s with hub := { s.hub with aborts := s.hub.aborts ++ [{ m with way := w }] } }
  match m.way.passage s.time true with
  | .waits => keep s m.way
  | .failed => report s { plainErr 9 true 0xFFFF 0 1 with ctx := m.ctx, tenant := m.tenant }
  | .goes =>
    let (s, there) := hubFlit s
    if !there then keep s (m.way.lost s.time)
    else
      let (s, back) := hubFlit { s with hub := { s.hub with outAborts := s.hub.outAborts ++ [m] } }
      if back then s else keep s (m.way.lost s.time)

/-- Every step of an abort that is to leave the package moved on. -/
def moveSteps (s : State) : State := s.hub.aborts.foldl moveStep { s with hub := { s.hub with aborts := [] } }

/-- Every group of a context aborted (R284, R365). -/
def abortContextGroups (s : State) (ctx : HWord) : State :=
  let gids := (allNodes s).flatMap fun n => ((treesAt s n).filter fun e => e.ctx == ctx).map TreeEntry.gid
  gids.foldl (fun s g => abortGroup s g ctx) s

/-- R284: every group whose tree contains a core that is lost starts its abort and completes it. -/
def abortCoreGroups (s : State) (c : CoreId) : State :=
  (getCore s c).tables.trees.foldl (fun s e => abortGroup s e.gid e.ctx) s

/-! ### Folds (R276) -/

/-- The operators of R274. -/
def collFmt (code : Nat) : Fmt := (Fmt.ofCode code).getD .b32

/-- R276: two rows folded element by element in a format; a poisoned word poisons the result word. -/
def foldRow (op : FoldOp) (f : Fmt) (a b : Row) : Row :=
  let w := fmtWidth f
  { bits := BitVec.ofNat 2048 (buildRow w (fun e => foldStep op f (elemOf a.bits.toNat w e) (elemOf b.bits.toNat w e)) (elemCount w))
    psn := a.psn ||| b.psn, tag := a.tag }

/-- Rows of two sources folded in order. -/
def foldRows (op : FoldOp) (f : Fmt) : List Row → List Row → List Row
  | a :: r, b :: q => foldRow op f a b :: foldRows op f r q
  | r, [] => r
  | [], q => q

/-- The sources of a wave in ascending port number. -/
def insertSource (e : Nat × List Row) : List (Nat × List Row) → List (Nat × List Row)
  | [] => [e]
  | f :: r => if e.1 ≤ f.1 then e :: f :: r else f :: insertSource e r

/-- R276: the sources combined: folded for REDUCE and ALLRED, collected for BCAST and SHARD. -/
def combineSources (m : RelayMsg) (got : List (Nat × List Row)) : List Row :=
  if m.kind.toNat ≤ 1 then
    match FoldOp.ofCode m.op.toNat with
    | some op =>
      match got with
      | [] => []
      | (_, r) :: rest => rest.foldl (fun acc e => foldRows op (collFmt m.fmt.toNat) acc e.2) r
    | none => []
  else got.flatMap Prod.snd

/-! ### Ports (R272) -/

/-- The node at a router's port and the port at which it receives: 1 −x, 2 +x, 3 −y, 4 +y, 5 hub. The mesh ports at the edge of a die reach
nothing: mesh routers relay within a die. -/
def neighbour (c : CoreId) (port : Nat) : Option (Node × Nat) :=
  let x := coreX c
  let y := coreY c
  match port with
  | 1 => if x % 12 = 0 then none else some (some (coreAt (x - 1) y), 2)
  | 2 => if x % 12 = 11 then none else some (some (coreAt (x + 1) y), 1)
  | 3 => if y % 16 = 0 then none else some (some (coreAt x (y - 1)), 4)
  | 4 => if y % 16 = 15 then none else some (some (coreAt x (y + 1)), 3)
  | 5 => some (none, dieOf c)
  | _ => none

/-- The router of a die that has the hub as a child of a group: where the hub's rows go when its parent is that die's spoke. -/
def spokeRouter (s : State) (die : Nat) (gid : BitVec 12) : Option CoreId :=
  (listedCores s fun c => dieOf c == die).find? fun c =>
    match treeAt s (some c) gid with
    | some e => bitAt e.child 5
    | none => false

/-- Where a node's result goes: to a node at a port, or out of the package through a fabric port (R272, R390). -/
inductive Upward where
  | node (n : Node) (port : Nat)
  | fabric (port : Nat)
  deriving DecidableEq, Repr

/-- R272: hub ports 16 to 63 are the fabric ports 0 to 47. -/
def parentOf (s : State) (n : Node) (e : TreeEntry) : Option Upward :=
  match n with
  | some c => (neighbour c e.parent.toNat).map fun p => .node p.1 p.2
  | none =>
    if 16 ≤ e.parent.toNat then some (.fabric (e.parent.toNat - 16))
    else (spokeRouter s e.parent.toNat e.gid).map fun c => .node (some c) 5

/-- The router that sends rows of a wave to a node: the member's own, a neighbour, or for the hub's spokes the router of the die whose parent
is the hub (R272). -/
def rowSender (s : State) (m : RelayMsg) : Option CoreId :=
  match m.node with
  | some c => if m.port = 0 then some c else (neighbour c m.port).bind Prod.fst
  | none =>
    if m.out then none
    else (listedCores s fun c => dieOf c == m.port).find? fun c => match treeAt s (some c) m.gid with | some e => e.parent == 5 && !e.top | none => false

/-- The routers of a group from a member up to the top of its tree, which send the member's part of a down-wave on (R272, R278). -/
def pathUp (s : State) (gid : BitVec 12) : Nat → CoreId → List CoreId
  | 0, c => [c]
  | n + 1, c =>
    match treeAt s (some c) gid with
    | none => [c]
    | some e =>
      if e.top then [c]
      else match parentOf s (some c) e with
        | some (.node (some d) _) => c :: pathUp s gid n d
        | some (.node none _) => c :: (match (treeAt s none gid).bind fun h => if h.top then none else parentOf s none h with
          | some (.node (some d) _) => pathUp s gid n d
          | _ => [])
        | _ => [c]

/-- The routers that a piece of a down-wave passes. -/
def DownMsg.path (s : State) (m : DownMsg) : List CoreId := pathUp s m.gid s.cores.length m.dst

/-- R47: something of a context that passes through routers sets their activity bits. -/
def passThrough (s : State) (ctx : HWord) (l : List CoreId) : State := l.foldl (fun s c => updCore s c fun k => noteActivity k ctx) s

/-- The sources that a node's RECV must cover: the local member, then the child ports. -/
def expectedPorts (e : TreeEntry) (n : Node) : List Nat :=
  (if e.member && n.isSome then [0] else []) ++ (List.range 64).filter fun p => bitAt e.child p && !(n.isSome && p == 0)

/-! ### Down-waves (R278) -/

/-- Rows of 256 bytes joined, the first lowest. -/
def joinRows : List Row → Nat
  | [] => 0
  | r :: q => r.bits.toNat + 2 ^ 2048 * joinRows q

/-- Poison of joined rows, by word. -/
def joinPsn : List Row → Nat
  | [] => 0
  | r :: q => r.psn.toNat + 2 ^ 64 * joinPsn q

/-- The rows that carry one latch image: 16,512 bytes in 65 rows. -/
def imageRows : Nat := 65

/-- One message of a completed wave to a member, on its first way. -/
def downMsg (now : DWord) (m : RelayMsg) (c : CoreId) (index total : Nat) : DownMsg :=
  { gid := m.gid, ctx := m.ctx, tenant := m.tenant, wave := m.wave, dst := c, index := index, total := total, kind := m.kind, row := Row.blank
    image := 0, imgPsn := 0, way := Transit.first now }

/-- The messages that carry a completed wave to one member. -/
def downTo (now : DWord) (m : RelayMsg) (rows : List Row) (c : CoreId) : List DownMsg :=
  if m.kind = 3 then
    let n := rows.length / imageRows
    (List.range n).map fun i =>
      let r := (rows.drop (imageRows * i)).take imageRows
      { downMsg now m c i n with image := BitVec.ofNat 132096 (joinRows r), imgPsn := BitVec.ofNat 4096 (joinPsn r >>> 32) }
  else (List.range rows.length).map fun i => { downMsg now m c i rows.length with row := rows.getD i Row.blank }

/-- Whether a slot takes the results of a wave: it is open for it, not aborted, and not delivered yet. -/
def CollSlot.takes (x : CollSlot) (gid : BitVec 12) (ctx wave : HWord) : Bool :=
  x.gid == gid && x.ctx == ctx && x.wave.setWidth 16 == wave && !x.aborted && !x.delivered

/-- Whether a member takes the rows of a wave (R278): all but a REDUCE's other members. -/
def takesRows (k : Core) (m : RelayMsg) (e : TreeEntry) : Bool :=
  m.kind != 0 || k.tables.slots.any fun x => x.takes m.gid m.ctx m.wave && x.root == e.rank

/-- The slot that takes a wave's results changed, and closed where its task has left it (R273). -/
def modSlot (k : Core) (gid : BitVec 12) (ctx wave : HWord) (f : CollSlot → CollSlot) : Core :=
  let l := k.tables.slots.map fun x => if x.takes gid ctx wave then f x else x
  { k with tables := { k.tables with slots := l.filter fun x => !(x.orphan && (x.delivered || x.aborted)) } }

/-- R272, R390: the results of a wave leave the package through the fabric ports below the hub. -/
def downFabric (s : State) (m : RelayMsg) (rows : List Row) : State :=
  match treeAt s none m.gid with
  | some e =>
    if e.ctx = m.ctx then
      let out := e.fabricBelow.map fun p => { m with node := none, port := p, out := true, rows := rows, way := Transit.first s.time }
      { s with hub := { s.hub with relay := s.hub.relay ++ out } }
    else s
  | none => s

/-- R276, R278: a wave is complete: every member's COMBINED is set and its rows are on their way. -/
def completeWave (s : State) (m : RelayMsg) (rows : List Row) : State :=
  let members := listedCores s fun c =>
    match treeAt s (some c) m.gid with
    | some e => e.member && e.ctx == m.ctx
    | none => false
  members.foldl (fun s c =>
    match treeAt s (some c) m.gid with
    | none => s
    | some e =>
      if e.tenant != m.tenant then startAbort s (some c) m.gid
      else
        let takes := takesRows (getCore s c) m e && !rows.isEmpty
        let s := updCore s c fun k => modSlot k m.gid m.ctx m.wave fun x => { x with combined := true, delivered := x.delivered || !takes }
        if takes then { s with hub := { s.hub with down := s.hub.down ++ downTo s.time m rows c } } else s) (downFabric s m rows)

/-! ### Relay rows (R276, R277) -/

/-- What a node does with a source's rows of a wave. Where the descriptors of its sources differ in KIND, OP or FMT, those of the last to
arrive decide (DESIGN CHOICE, log 55). -/
def relayAt (s : State) (m : RelayMsg) (e : TreeEntry) : State :=
  let got := insertSource (m.port, m.rows) e.got
  if (expectedPorts e m.node).all fun p => got.any fun g => g.1 == p then
    let rows := combineSources m got
    let s := modTree s m.node m.gid fun e => { e with cur := e.cur + 1, got := [] }
    if e.top then completeWave s m rows
    else
      match parentOf s m.node e with
      | some (.node n p) =>
        { s with hub := { s.hub with relay := s.hub.relay ++ [{ m with node := n, port := p, rows := rows, way := Transit.first s.time }] } }
      | some (.fabric p) =>
        { s with hub := { s.hub with relay := s.hub.relay ++ [{ m with node := none, port := p, out := true, rows := rows, way := Transit.first s.time }] } }
      | none => s
  else modTree s m.node m.gid fun e => { e with got := got }

/-- A counter advanced by a number of rows, at least one (R338). -/
def satAdd32 (v : Word) (rows : Nat) : Word := BitVec.ofNat 32 (min 0xFFFFFFFF (v.toNat + max 1 rows))

/-- A dropped row counted by a router (R277, R338). -/
def dropRow (s : State) (n : Node) (rows : Nat) : State :=
  match n with
  | some c => updCore s c fun k => { k with ctrs := { k.ctrs with dupup := satAdd32 k.ctrs.dupup rows } }
  | none => s

/-- R277, R284, R377: a row whose third reissue has failed leaves a TIMEOUT record and aborts its group. -/
def rowFails (s : State) (gid : BitVec 12) (ctx : HWord) (tenant : HWord) (coord : Nat) (wave : HWord) : State :=
  let e := { plainErr 9 true coord wave.toNat 1 with ctx := ctx, tenant := tenant }
  spreadAbort (report s e) gid ctx true

/-- R276 to R278, R284: rows that reach their node: kept, dropped as duplicates, or refused by an entry of another tenant, which starts
the abort of the group, as rows do that find no entry of their group (DESIGN CHOICE, log 55). -/
def receiveRow (s : State) (m : RelayMsg) : State :=
  let s := passThrough s m.ctx (m.node.toList ++ (rowSender s m).toList)
  match treeAt s m.node m.gid with
  | none => abortGroup s m.gid m.ctx
  | some e =>
    if e.tenant != m.tenant || e.ctx != m.ctx then spreadAbort s m.gid m.ctx false
    else if e.aborting then s
    else if m.wave = e.cur then
      if e.got.any fun g => g.1 == m.port then dropRow s m.node m.rows.length else relayAt s m e
    else dropRow s m.node m.rows.length

/-- R276: whether rows are held at their input port, because their wave is not yet the one that the relay combines. -/
def heldRow (s : State) (m : RelayMsg) : Bool :=
  match treeAt s m.node m.gid with
  | some e => e.ctx == m.ctx && e.tenant == m.tenant && !e.aborting && decide (0 < (m.wave - e.cur).toNat ∧ (m.wave - e.cur).toNat < 2 ^ 15)
  | none => false

/-- Where a message came from, as an error record names it (R381). -/
def nodeCoord : Node → Nat
  | some c => coordBits c
  | none => 0xFFFF

/-- A row of the k-th place that has been sent without an answer. -/
def keepRow (s : State) (k : Nat) (w : Transit) : State :=
  { s with hub := { s.hub with relay := s.hub.relay.modify k fun m => { m with way := w.lost s.time } } }

/-- R276, R277: a turn of the k-th rows in flight: they wait for their time-out or their wave, they are lost, or they reach their node; where
the acknowledgement is lost, they are sent again and found to be a duplicate. Rows for a fabric port reach the peer there, under the longer
time-out; rows from one stand at the hub already. -/
def relayRow (s : State) (k : Nat) : State :=
  match s.hub.relay[k]? with
  | none => s
  | some m =>
    match m.way.passage s.time m.out with
    | .waits => s
    | .failed => rowFails { s with hub := { s.hub with relay := dropNth s.hub.relay k } } m.gid m.ctx m.tenant (nodeCoord m.node) m.wave
    | .goes =>
      let gone (s : State) : State := { s with hub := { s.hub with relay := dropNth s.hub.relay k } }
      let land (s : State) : State := if m.out then { s with hub := { s.hub with outRows := s.hub.outRows ++ [m] } } else receiveRow s m
      if !m.out && heldRow s m then s
      else if !m.out && m.node.isNone && 16 ≤ m.port then land (gone s)
      else
        let (s, there) := hubFlit s
        if !there then keepRow s k m.way
        else
          let (s, back) := hubFlit s
          land (if back then gone s else keepRow s k m.way)

/-! ### Deliveries (R277, R278, R281) -/

/-- One more piece of a wave has reached a member (R278). -/
def countPiece (k : Core) (m : DownMsg) : Core :=
  modSlot k m.gid m.ctx m.wave fun x =>
    { x with got := m.index :: x.got, delivered := x.delivered || x.got.length + 1 == m.total }

/-- R277: a piece that a member has already, or that no slot of it takes, is dropped and counted. -/
def dropPiece (k : Core) : Core := { k with ctrs := { k.ctrs with dupdn := satAdd32 k.ctrs.dupdn 1 } }

/-- An EMPTY latch for an image: l0 if both are (R278). -/
def emptyLatch (k : Core) : Option Nat := (List.range 2).find? fun i => (k.files.l[i]?.getD Latch.blank).state == .empty

/-- R278: a piece reaches its member: a row in its scratchpad, or an image in an EMPTY latch; an image for a task that has ended is
discarded. -/
def receivePiece (s : State) (m : DownMsg) : State :=
  let s := passThrough s m.ctx (m.path s)
  let k := getCore s m.dst
  match k.tables.slots.find? fun x => x.takes m.gid m.ctx m.wave with
  | none => updCore s m.dst dropPiece
  | some x =>
    if x.got.contains m.index then updCore s m.dst dropPiece
    else if m.kind = 3 then
      match (if x.orphan then none else emptyLatch k) with
      | none => updCore s m.dst fun c => countPiece c m
      | some i =>
        let img := m.image.toNat
        let l : Latch := { state := .full, scale := BitVec.ofNat 32 img, hdr := BitVec.ofNat 32 (img >>> 32)
                           tile := BitVec.ofNat 131072 (img >>> 1024), psn := m.imgPsn, stamp := s.time.toNat }
        updCore s m.dst fun c => countPiece { c with files := { c.files with l := c.files.l.setIfInBounds i l } } m
    else
      let key := sramKey m.dst (x.dst.toNat + 256 * m.index)
      let s := (List.range 64).foldl (fun s i => storePut s (key + 4 * i) 4 (elemOf m.row.bits.toNat 32 i) (bitAt m.row.psn i)) s
      updCore s m.dst fun c => countPiece c m

/-- R278, R281: whether an image waits: both latches of its member are full, or an earlier image of its wave has not reached every
member. -/
def heldPiece (s : State) (m : DownMsg) : Bool :=
  m.kind == 3 &&
    ((s.hub.down.any fun d => d.gid == m.gid && d.ctx == m.ctx && d.wave == m.wave && decide (d.index < m.index) && d.way.tries == 0)
      || ((getCore s m.dst).tables.slots.any fun x => x.takes m.gid m.ctx m.wave && !x.orphan && !x.got.contains m.index)
        && (emptyLatch (getCore s m.dst)).isNone)

/-- A piece of the k-th place that has been sent without an answer. -/
def keepPiece (s : State) (k : Nat) (w : Transit) : State :=
  { s with hub := { s.hub with down := s.hub.down.modify k fun m => { m with way := w.lost s.time } } }

/-- R277, R278: a turn of the k-th piece of a down-wave. -/
def deliverDown (s : State) (k : Nat) : State :=
  match s.hub.down[k]? with
  | none => s
  | some m =>
    match m.way.passage s.time false with
    | .waits => s
    | .failed => rowFails { s with hub := { s.hub with down := dropNth s.hub.down k } } m.gid m.ctx m.tenant (coordBits m.dst) m.wave
    | .goes =>
      if heldPiece s m then s
      else
        let (s, there) := hubFlit s
        if !there then keepPiece s k m.way
        else
          let (s, back) := hubFlit s
          if back then receivePiece { s with hub := { s.hub with down := dropNth s.hub.down k } } m
          else receivePiece (keepPiece s k m.way) m

/-! ### Rows from the fabric (R272, R390) -/

/-- R272, R390: rows that a peer sends through a fabric port to the hub: a child's rows of a wave, or from above the results of one. An entry
of another tenant refuses them, which aborts the group (R278). -/
def fabricRows (s : State) (port : Nat) (m : RelayMsg) : State :=
  match treeAt s none m.gid with
  | none => s
  | some e =>
    if e.ctx ≠ m.ctx then s
    else if e.tenant ≠ m.tenant then spreadAbort s m.gid m.ctx false
    else if bitAt e.child (16 + port) then
      { s with hub := { s.hub with relay := s.hub.relay ++ [{ m with node := none, port := 16 + port, way := Transit.first s.time }] } }
    else if !e.top && e.parent.toNat == 16 + port && !e.aborting then completeWave s m m.rows
    else s

end Sys2Proof.Machine
end

