-- ==== Sys2Proof/Machine/Hub.lean ====
section
/-!
DEFINITION. The hub register block (R383, R384, R388, R391, R394, R294, R336, R338, R339, R353, R370, R379), the launch
FIFO, and the commands with their service one at a time (R384, R385, R365, R389).
-/

namespace Sys2Proof.Machine

/-- Who reaches the register block: the host or the board through its interface, a core, or a carrier for a copy that a level has posted
(R266, R383). -/
inductive Asker where
  | host
  | core (c : CoreId)
  | carrier (lv : Level)
  deriving DecidableEq, Repr

/-- Whether a party reaches PRIV fields: the host and machine level (R383). -/
def Asker.privileged (s : State) : Asker → Bool
  | .host => true
  | .core c => (getCore s c).level == .machine
  | .carrier lv => lv == .machine

/-! ### The launch FIFO (R249, R269, R384) -/

/-- The hub's registers changed. -/
def modRegs (s : State) (f : HubRegs → HubRegs) : State := { s with hub := { s.hub with regs := f s.hub.regs } }

/-- A block address pushed into the launch FIFO, which has room. -/
def pushFifo (s : State) (pa : DWord) : State :=
  modRegs { s with hub := { s.hub with fifo := s.hub.fifo ++ [pa] } } fun r => { r with lcount := r.lcount + 1 }

/-- Whether the launch FIFO has room: 1,024 addresses. -/
def fifoRoom (s : State) : Bool := s.hub.fifo.length < 1024

/-- R384: a held LPUSH write enters as soon as a place frees. -/
def refillFifo (s : State) : State :=
  match s.hub.fifoHeld with
  | pa :: rest => if fifoRoom s then pushFifo { s with hub := { s.hub with fifoHeld := rest } } pa else s
  | [] => s

/-- R384: a write of LPUSH. -/
def launchPush (s : State) (v : DWord) : State :=
  if v.toNat % 128 ≠ 0 then report s (plainErr 13 false 0xFFFF v.toNat 1)
  else if fifoRoom s && s.hub.fifoHeld.isEmpty then pushFifo s v
  else { s with hub := { s.hub with fifoHeld := s.hub.fifoHeld ++ [v] } }

/-! ### Notices (R388) -/

/-- The notices that are due appended to the notice ring. -/
def drainNotices (s : State) : State :=
  s.hub.notices.foldl (fun s n =>
    let (s, r) := ringAppend s s.hub.regs.mn 2 32 n.toNat
    modRegs s fun h => { h with mn := r }) { s with hub := { s.hub with notices := [] } }

/-- R380: the error records that homes have made appended to the error ring. -/
def drainErrors (s : State) : State :=
  s.hub.errQueue.foldl (fun s e =>
    let (s, r) := ringAppend s s.hub.regs.er 1 64 e.toNat
    modRegs s fun h => { h with er := r }) { s with hub := { s.hub with errQueue := [] } }

/-! ### Commands (R385) -/

/-- The results of a command. -/
inductive CmdResult where
  | ok | badArg | notFound | inUse
  deriving DecidableEq, Repr

/-- R384. -/
def CmdResult.code : CmdResult → BitVec 4
  | .ok => 0 | .badArg => 1 | .notFound => 2 | .inUse => 3

/-- A registered context. -/
def findContext (s : State) (ctx : HWord) : Option Context := s.hub.contexts.find? fun x => x.ctx == ctx

/-- Whether an engine can read an address: an aperture of memory, in range, on memory that is ready (R187, R393). -/
def engineReach (s : State) (pa : DWord) : Bool :=
  pa.toNat < 2 ^ 52 && (aperture pa.toNat == 0 || aperture pa.toNat == 3) && !badTarget pa.toNat && homeReady s (lineOf pa.toNat)

/-- Whether an engine can read every line of `n` bytes. -/
def engineCovers (s : State) (pa : DWord) (n : Nat) : Bool :=
  (List.range (lineOf (pa.toNat + n - 1) + 1 - lineOf pa.toNat)).all fun i => engineReach s (pa + BitVec.ofNat 64 (128 * i))

/-- R385: REGCTX. A descriptor that the hub cannot read gives BADARG (log 20). -/
def regCtx (s : State) (arg : DWord) : State × CmdResult :=
  if !engineCovers s arg 32 then (s, .badArg)
  else
    let (s, v, _) := hubLoad s arg.toNat 32
    let ctx : HWord := BitVec.ofNat 16 (v >>> 128)
    let area := fieldOf v 127 64
    let rarea := fieldOf v 255 192
    if (findContext s ctx).isSome || area % 4096 ≠ 0 || aperture area ≠ 0 || 2 ^ 52 ≤ area || rarea % 262144 ≠ 0 then (s, .badArg)
    else
      let x : Context :=
        { ctx := ctx, tenant := BitVec.ofNat 16 (v >>> 144), asid := BitVec.ofNat 16 (v >>> 160), ptroot := BitVec.ofNat 64 v
          area := BitVec.ofNat 64 area, rarea := BitVec.ofNat 64 rarea, dies := 0 }
      ({ s with hub := { s.hub with contexts := s.hub.contexts ++ [x] } }, .ok)

/-- The cores that run a task of a context. -/
def coresOf (s : State) (ctx : HWord) : List CoreId := listedCores s fun c =>
  match (getCore s c).task with | some t => t.ctx == ctx | none => false

/-- A context forgotten. -/
def dropContext (s : State) (ctx : HWord) : State :=
  { s with hub := { s.hub with contexts := s.hub.contexts.filter fun x => x.ctx != ctx } }

/-- R385: UNREGCTX. -/
def unregCtx (s : State) (ctx : HWord) : State × CmdResult :=
  if (findContext s ctx).isNone then (s, .notFound)
  else if s.hub.launches.any (fun l => (slice l.block 128 16) == ctx) || !(coresOf s ctx).isEmpty then (s, .inUse)
  else (dropContext s ctx, .ok)

/-- A copy changed. -/
def modCopy (s : State) (x : Copy) (f : Copy → Copy) : State :=
  { s with hub := { s.hub with copies := s.hub.copies.map fun y => if y.serial = x.serial then f y else y } }

/-- A completion that a copy returns enters its core's result queue, or is discarded with an ended task (R268); the regions that
it wrote are bumped first (R295). -/
def completeCopy (s : State) (x : Copy) (status : Nat) : State :=
  let s := (List.range 256).foldl (fun s g => if bitAt x.marks g then bumpRegion s g else s) s
  let s := modCopy s x fun y => { y with done := true }
  if x.orphan then s
  else updCore s x.core fun k => { k with queues := { k.queues with results := k.queues.results ++ [x.id ||| BitVec.ofNat 64 (status <<< 32)] } }

/-- The packet of WROUTE (R264, R266); it stands in no order with the posting core's own packets. -/
def wakePacket (now : DWord) (x : Copy) : Packet :=
  { tag := slice x.wroute 16 12, src := x.core, ctx := x.ctx, tenant := x.tenant, dst := routeDest x.wroute, scalar := true
    row := scalarRow x.id, drain := false, carrier := true, seq := x.id.setWidth 16, way := Transit.first now }

/-- R47: a copy that moves or ends sets the activity bit of the carriers for its context, which the posting core's stands for. -/
def copyActive (s : State) (x : Copy) : State := updCore s x.core fun k => noteActivity k x.ctx

/-- A copy ends with a status; WAKE sends its packet (R264, R266). -/
def endCopy (s : State) (x : Copy) (status : Nat) : State :=
  let s := copyActive (completeCopy s x status) x
  if x.wake then { s with hub := { s.hub with net := s.hub.net ++ [wakePacket s.time x] } } else s

/-- A launch ended: TEND, then STATUS, and the launch is gone (R37, R48). R36 writes TEND at completion and refusal; that an ABORTED launch
has it too is a DESIGN CHOICE (log 53). -/
def endLaunch (s : State) (l : Launch) (code : Nat) : State :=
  let s := hubStore s (l.pa.toNat + 72) 8 s.time.toNat
  let s := putStatus s l.pa code
  { s with hub := { s.hub with launches := s.hub.launches.filter fun x => x.lid != l.lid } }

/-- Every claim of a launch withdrawn from the ready queues (R43). -/
def withdrawClaims (s : State) (lid : Word) : State :=
  let isClaim (e : ReadyEntry) : Bool := match e.kind with | .claim l _ => l == lid | .handler _ => false
  let s := { s with cores := s.cores.mapVals fun _ k =>
    if k.tables.ready.any isClaim then { k with tables := { k.tables with ready := k.tables.ready.filter fun e => !isClaim e } } else k }
  modLaunch s lid fun l => { l with claimed := [] }

/-- R365: the emergency slot of a killed task is cleared. -/
def clearEmergency (s : State) (c : CoreId) : State :=
  let e := (getCore s c).cregs.emerg.toNat
  if e = 0 then s else hubStore s e 512 0

/-- R331, R365: every barrier of a context becomes FREE. -/
def freeBarriers (s : State) (ctx : HWord) : State :=
  { s with cores := s.cores.mapVals fun _ k =>
      { k with tables := { k.tables with barriers := k.tables.barriers.mapVals fun _ b => if b.state != .free && b.ctx == ctx then Barrier.blank else b } } }

/-- R43: a launch is asked to give up its cores: no further claims, unstarted claims withdrawn. -/
def preemptLaunch (s : State) (lid : Word) : State :=
  settleSuspend (modLaunch (withdrawClaims s lid) lid fun l => { l with state := .suspending }) lid

/-! ### The service of commands (R384, R385) -/

/-- The command that is served changed. -/
def modJob (s : State) (f : Job → Job) : State :=
  { s with hub := { s.hub with jobs := match s.hub.jobs with | j :: r => f j :: r | [] => [] } }

/-- The phase of the command that is served. -/
def setPhase (s : State) (p : JobPhase) : State := modJob s fun j => { j with phase := p }

/-- R384, R386: the effect of the command that is served is complete: its pair holds the result, BUSY clears, and the host is told. -/
def finishJob (s : State) (r : CmdResult) : State :=
  match s.hub.jobs with
  | [] => s
  | j :: rest =>
    let done (p : CmdPair) : CmdPair := { p with busy := false, result := r.code }
    let s := { s with hub := { s.hub with jobs := rest } }
    signalHost (modRegs s fun h => if j.machine then { h with cmdMach := done h.cmdMach } else { h with cmdHost := done h.cmdHost }) 3

/-- Whether a KILL of a context is in service: nothing of the context is accepted, placed, claimed or started any more (R385). -/
def beingKilled (s : State) (ctx : HWord) : Bool :=
  s.hub.jobs.any fun j => match j.phase with | .killing x _ => x == ctx | _ => false

/-- The entries of a context taken out of every ready queue. -/
def purgeReady (s : State) (ctx : HWord) : State :=
  { s with cores := s.cores.mapVals fun _ k =>
      { k with tables := { k.tables with ready := k.tables.ready.filter fun e => e.ctx != ctx } } }

/-- R365, R385: KILL begins: the context's claims and wake-ups go, and the cores of its tasks are told. -/
def startKill (s : State) (ctx : HWord) : State :=
  if (findContext s ctx).isNone then finishJob s .notFound
  else
    let s := (s.hub.launches.filter fun l => slice l.block 128 16 == ctx).foldl (fun s l => withdrawClaims s l.lid) s
    setPhase (purgeReady s ctx) (.killing ctx (coresOf s ctx))

/-- R365: a core acknowledges: its task of the context has ended. -/
def killAt (s : State) (ctx : HWord) (c : CoreId) : State :=
  if (coresOf s ctx).contains c then discardTask (clearEmergency s c) c else s

/-- R365, R385: every core has acknowledged, and the context's copies have ended: what the context has left in the package goes, and the
context with it. -/
def endKill (s : State) (ctx : HWord) : State :=
  let s := freeBarriers (abortContextGroups (purgeReady s ctx) ctx) ctx
  let s := (s.hub.launches.filter fun l => slice l.block 128 16 == ctx).foldl (fun s l => endLaunch s l 5) s
  finishJob (dropContext s ctx) .ok

/-- R43, R385: PREEMPT by LID begins. A launch that is giving up its cores already is RUNNING until its last task ends (R37), and the command
waits for that. -/
def startPreempt (s : State) (lid : Word) : State :=
  if s.hub.launches.any fun l => l.lid == lid && l.state == .suspending then setPhase s (.preempting lid)
  else if s.hub.launches.any fun l => l.lid == lid && l.state == .placed then setPhase (preemptLaunch s lid) (.preempting lid)
  else finishJob s .notFound

/-- R389 step 1 for one core: its dirty bytes and partials of a page are pushed and its lines of it dropped. The links lose none of these
pushes (log 10). -/
def flushPageAt (s : State) (c : CoreId) (page : Nat) : State :=
  let k := getCore s c
  let lines := (k.l1.filter fun e => e.1 / 512 == page).map fun e => Push.evict e.1
  let homes := (k.homes.filter fun e => e.1 / 512 == page).map fun e => Push.home e.1 true
  let folds := (k.partials.filter fun e => e.1 / 16384 == page).map fun e => Push.fold e.1
  (lines ++ homes ++ folds).foldl (fun s p => performNow s c c p) s

/-- R389 step 1: the cores give up a page, its owners first. -/
def flushPage (s : State) (page : Nat) : State :=
  let s := (s.hub.owners.filter fun e => e.1 / 512 == page).foldl (fun s e => recallNow s e.2 e.2 e.1) s
  (listedCores s fun _ => true).foldl (fun s c => flushPageAt s c page) s

/-- R389 steps 2 and 3 for one line: its home writes it back and drops it, the host gives it up, and its bytes are copied with their
marks; the copy keeps the last writer's context (R373). -/
def moveLine (s : State) (src dst : Nat) : State :=
  let s := foldLine (syncHost s src true) src
  let s := notePort s src
  let writer := match s.l2.find src with | some l => l.writer | none => 0
  let s := evictL2 s src
  let (d, p) := homeLine s src
  let s := homePush (useFree s src) .hub 0 dst d (BitVec.allOnes 128) p 0 writer
  if isForeign dst then evictL2 s dst else s

/-- R389 steps 1 to 3. From now until the notice, a request to the page is held. -/
def movePage (s : State) (src dst : Nat) : State :=
  let s := flushPage s (src / 65536)
  let s := (List.range 512).foldl (fun s i => moveLine s (lineOf src + i) (lineOf dst + i)) s
  { s with hub := { s.hub with moving := some (src / 65536, false) } }

/-- R385, R389: MIGRATE begins. A descriptor or an address outside its limits, or a page of which a home
refuses a line, gives BADARG (log 20). -/
def startMigrate (s : State) (arg : DWord) : State :=
  if !engineCovers s arg 16 then finishJob s .badArg
  else
    let (s, v, _) := hubLoad s arg.toNat 16
    let src : DWord := BitVec.ofNat 64 v
    let dst : DWord := BitVec.ofNat 64 (v >>> 64)
    if src.toNat % 65536 ≠ 0 || dst.toNat % 65536 ≠ 0 || !engineCovers s src 65536 || !engineCovers s dst 65536 then finishJob s .badArg
    else setPhase (movePage s src.toNat dst.toNat) (.migrating src.toNat dst.toNat 0)

/-- R388, R389 step 4: the notice, MOVED_LATE where a request has come meanwhile, and the end of the command. -/
def endMigrate (s : State) (src : Nat) : State :=
  let kind := match s.hub.moving with | some (_, true) => 4 | _ => 3
  let s := { s with hub := { s.hub with moving := none } }
  let (s, r) := ringAppend s s.hub.regs.mn 2 32 (noticeImage kind src { dev := 0, host := 0, lastc := 0, order := 0, bits := 16 } s.time).toNat
  finishJob (modRegs s fun h => { h with mn := r }) .ok

/-- How many turns of the hub a migration's copying takes (log 34). -/
def moveTurns : Nat := 3

/-- R385: the command that is served begins. -/
def startJob (s : State) (j : Job) : State :=
  match j.op.toNat with
  | 1 => let (s, r) := regCtx s j.arg; finishJob s r
  | 2 => let (s, r) := unregCtx s (j.arg.setWidth 16); finishJob s r
  | 3 => startKill s (j.arg.setWidth 16)
  | 4 => startPreempt s (j.arg.setWidth 32)
  | 5 => startMigrate s j.arg
  | _ => finishJob s .badArg

/-- R384, R385: a turn of the command that is served; the next one waits until it is complete. -/
def serveJob (s : State) : State :=
  match s.hub.jobs with
  | [] => s
  | j :: _ =>
    match j.phase with
    | .queued => startJob s j
    | .killing ctx [] => if s.hub.copies.any fun x => x.ctx == ctx && !x.done then s else endKill s ctx
    | .killing ctx (c :: rest) =>
      let r := if (coresOf s ctx).contains c then sentAll s c else (s, true)
      if r.2 then setPhase (killAt r.1 ctx c) (.killing ctx rest) else r.1
    | .preempting lid =>
      if s.hub.launches.any fun l => l.lid == lid && l.state == .suspending then s else finishJob s .ok
    | .migrating src dst n => if n + 1 < moveTurns then setPhase s (.migrating src dst (n + 1)) else endMigrate s src

/-- R384: a write of OP in a command pair, ignored while BUSY; the command is served after those that came before it. -/
def startCommand (s : State) (machine : Bool) (op : BitVec 4) : State :=
  let pair := if machine then s.hub.regs.cmdMach else s.hub.regs.cmdHost
  if pair.busy then s
  else
    let mark (p : CmdPair) : CmdPair := { p with op := op, busy := true }
    let s := modRegs s fun h => if machine then { h with cmdMach := mark h.cmdMach } else { h with cmdHost := mark h.cmdHost }
    let first := s.hub.jobs.isEmpty
    let s := { s with hub := { s.hub with jobs := s.hub.jobs ++ [{ machine := machine, op := op, arg := pair.arg, phase := .queued }] } }
    if first then serveJob s else s

/-- The argument register of a command pair written. -/
def putArg (s : State) (machine : Bool) (arg : DWord) : State :=
  modRegs s fun h => if machine then { h with cmdMach := { h.cmdMach with arg := arg } } else { h with cmdHost := { h.cmdHost with arg := arg } }

/-! ### The registers (R383) -/

/-- A register of the block, by its 8-byte offset. -/
inductive Reg where
  | part | readyA | readyB | readyC | lpush | lcount
  | cmdArg (machine : Bool) | cmdOp (machine : Bool)
  | thresholds | mn (i : Nat) | hdmbase
  | peer (n : Nat)
  | plim | pnow | clk | tmax
  | region (g : Nat)
  | event (n : Nat)
  | er (i : Nat)
  | pmen (c : CoreId) | perfEvt (c : CoreId) (n : Nat) | perfCount (c : CoreId) (n : Nat)
  | dupup (c : CoreId) | dupdn (c : CoreId) | bardup (c : CoreId) | pktdrop (c : CoreId)
  | fq (c : CoreId) (i : Nat) | errctl (c : CoreId)
  deriving DecidableEq, Repr

/-- The register of a core's counter block at an offset (R338, R339, R353, R370). -/
def coreReg (c : CoreId) (o : Nat) : Option Reg :=
  if o = 0 then some (.pmen c)
  else if o < 0x48 then some (.perfEvt c (o / 8 - 1))
  else if 0x80 ≤ o ∧ o < 0xC0 then some (.perfCount c ((o - 0x80) / 8))
  else if o = 0x100 then some (.dupup c)
  else if o = 0x108 then some (.dupdn c)
  else if o = 0x110 then some (.bardup c)
  else if o = 0x118 then some (.pktdrop c)
  else if 0x200 ≤ o ∧ o < 0x220 then some (.fq c ((o - 0x200) / 8))
  else if o = 0x300 then some (.errctl c)
  else none

/-- The register at an 8-byte-aligned offset of the block (R383); `none` where the map names nothing. -/
def regAt (o : Nat) : Option Reg :=
  if 0x1000000 ≤ o then
    let c := (o - 0x1000000) / 4096
    if c < 3072 then coreReg (BitVec.ofNat 12 c) (o % 4096) else none
  else if 0x30000 ≤ o ∧ o < 0x30028 then some (.er ((o - 0x30000) / 8))
  else if 0x20000 ≤ o ∧ o < 0x28000 then some (.event ((o - 0x20000) / 8))
  else if 0x10000 ≤ o ∧ o < 0x10800 then some (.region ((o - 0x10000) / 8))
  else if 0x2000 ≤ o ∧ o < 0x3000 then some (.peer ((o - 0x2000) / 8))
  else if 0x1008 ≤ o ∧ o < 0x1030 then some (.mn ((o - 0x1008) / 8))
  else match o with
    | 0 => some .part
    | 0x10 => some .readyA
    | 0x18 => some .readyB
    | 0x20 => some .readyC
    | 0x40 => some .lpush
    | 0x48 => some .lcount
    | 0x80 => some (.cmdArg false)
    | 0x88 => some (.cmdOp false)
    | 0xC0 => some (.cmdArg true)
    | 0xC8 => some (.cmdOp true)
    | 0x1000 => some .thresholds
    | 0x1040 => some .hdmbase
    | 0x3000 => some .plim
    | 0x3008 => some .pnow
    | 0x3010 => some .clk
    | 0x3018 => some .tmax
    | _ => none

/-- A ring's register (R353, R379): base, size with OVF and CEREC, head, tail, lost. -/
def ringRead (r : Ring) (cerec : Bool) (i : Nat) : Nat :=
  match i with
  | 0 => r.base.toNat
  | 1 => packAt [(0, r.size.toNat), (16, if r.ovf then 1 else 0), (17, if cerec then 1 else 0)]
  | 2 => r.head.toNat
  | 3 => r.tail.toNat
  | _ => r.lost.toNat

/-- A ring's register written: `new` is the merged value, `ones` the bits that the write gives as 1. -/
def ringWrite (r : Ring) (i : Nat) (new ones : DWord) : Ring :=
  match i with
  | 0 => { r with base := new &&& ~~~(0xFFF : DWord) }
  | 1 => { r with size := new.setWidth 16, ovf := r.ovf && !bitAt ones 16 }
  | 2 => { r with head := new.setWidth 32 }
  | 3 => r
  | _ => { r with lost := r.lost &&& ~~~(ones.setWidth 32) }

/-- The value of a register as a party reads it; PRIV fields read 0 below machine level (log 21). -/
def regRead (s : State) (who : Asker) (r : Reg) : DWord :=
  let h := s.hub.regs
  let p := who.privileged s
  let priv (n : Nat) : Nat := if p then n else 0
  BitVec.ofNat 64 <| match r with
    | .part => packAt [(0, 0x9600), (16, Config.stepping.toNat)]
    | .readyA => packAt [(0, if h.ready.hub then 1 else 0), (1, h.ready.md.toNat), (32, h.ready.hbm.toNat)]
    | .readyB => h.ready.clu.toNat
    | .readyC => packAt [(0, h.ready.fab.toNat), (48, h.ready.host.toNat)]
    | .lpush => 0
    | .lcount => h.lcount.toNat
    | .cmdArg m => priv (if m then h.cmdMach.arg else h.cmdHost.arg).toNat
    | .cmdOp m =>
      let c := if m then h.cmdMach else h.cmdHost
      packAt [(0, priv c.op.toNat), (8, if c.busy then 1 else 0), (12, c.result.toNat)]
    | .thresholds => priv (packAt [(0, h.dthr.toNat), (16, h.hthr.toNat), (32, if h.mnEn then 1 else 0)])
    | .mn i => ringRead h.mn false i
    | .hdmbase => priv h.hdmbase.toNat
    | .peer n => priv ((h.peers.find n).getD 0).toNat
    | .plim => priv h.power.plim.toNat
    | .pnow => h.power.pnow.toNat
    | .clk => h.power.clk.toNat
    | .tmax => h.power.tmax.toNat
    | .region g => priv ((h.regions.find g).getD 0).toNat
    | .event n => ((h.events.find n).getD 0).toNat
    | .er i => ringRead h.er h.cerec i
    | .pmen c => (getCore s c).ctrs.pmen.toNat
    | .perfEvt c n => ((getCore s c).ctrs.perf[n]?.map fun p => p.evt.toNat).getD 0
    | .perfCount c n => ((getCore s c).ctrs.perf[n]?.map fun p => p.count.toNat + if p.ovf then 2 ^ 63 else 0).getD 0
    | .dupup c => (getCore s c).ctrs.dupup.toNat
    | .dupdn c => (getCore s c).ctrs.dupdn.toNat
    | .bardup c => (getCore s c).ctrs.bardup.toNat
    | .pktdrop c => (getCore s c).ctrs.pktdrop.toNat
    | .fq c i => ringRead (getCore s c).ctrs.fq false i
    | .errctl c => if (getCore s c).ctrs.ptrap then 1 else 0

/-- R294, R203: whether the hub accepts a region table write: OP and FMT not reserved, and with COMM a listed pair. -/
def regionOk (v : DWord) : Bool :=
  let op := (slice v 34 3).toNat
  let f := (slice v 37 4).toNat
  op ≤ 5 && f ≤ 13 &&
    (!bitAt v 33 || (match op with
      | 0 => f == 6 || f == 13 || f == 2 || f == 1
      | 1 | 2 => f == 6 || f == 13 || f == 2
      | _ => f == 11 || f == 6))

/-- R294: a region table entry written; a refused write leaves a REGTAB record. -/
def regionWrite (s : State) (g : Nat) (v : DWord) : State :=
  if !regionOk v then report s (plainErr 10 false 0xFFFF g v.toNat)
  else
    let v := v &&& (0x1FFFFFFFFFF : DWord)
    let v := if g = 0 then putBit v 32 false else v
    broadcastVersion (modRegs s fun h => { h with regions := h.regions.put g v }) g

/-- The counter block of a core changed. -/
def modCtrs (s : State) (c : CoreId) (f : CounterBlock → CounterBlock) : State := updCore s c fun k => { k with ctrs := f k.ctrs }

/-- A register written by a party: `new` is the register with the written bytes replaced, `ones` the bits that the write gives
as 1, for registers that clear on write and for LPUSH; `low` says whether its byte 0 is written. -/
def regWrite (s : State) (who : Asker) (r : Reg) (new ones : DWord) (low : Bool) : State :=
  let p := who.privileged s
  match r with
  | .part | .readyA | .readyB | .readyC | .lcount | .pnow | .clk | .tmax => s
  | .lpush => launchPush s ones
  | .cmdArg m => if p then putArg s m new else s
  | .cmdOp m => if p && low then startCommand s m (new.setWidth 4) else s
  | .thresholds => if p then modRegs s fun h => { h with dthr := new.setWidth 16, hthr := slice new 16 16, mnEn := bitAt new 32 } else s
  | .mn i => modRegs s fun h => { h with mn := ringWrite h.mn i new ones }
  | .hdmbase => if p then modRegs s fun h => { h with hdmbase := new } else s
  | .peer n => if p then modRegs s fun h => { h with peers := h.peers.put n (new &&& 0x8000FFFFFFFFFFFF) } else s
  | .plim => if p then modRegs s fun h => { h with power := { h.power with plim := if 15000 < (new.setWidth 16 : HWord).toNat then 15000 else new.setWidth 16 } } else s
  | .region g => if p then regionWrite s g new else s
  | .event n => modRegs s fun h => { h with events := h.events.put n (new.setWidth 32) }
  | .er i => modRegs s fun h => { h with er := ringWrite h.er i new ones, cerec := if i = 1 then bitAt new 17 else h.cerec }
  | .pmen c => modCtrs s c fun b => { b with pmen := new.setWidth 8 }
  | .perfEvt c n => modCtrs s c fun b => { b with perf := b.perf.mapFinIdx fun i q _ => if i = n then { q with evt := new.setWidth 11 } else q }
  | .perfCount c n => modCtrs s c fun b => { b with perf := b.perf.mapFinIdx fun i q _ => if i = n then { q with count := new.setWidth 48, ovf := q.ovf && !bitAt ones 63 } else q }
  | .dupup c => modCtrs s c fun b => { b with dupup := b.dupup &&& ~~~(ones.setWidth 32) }
  | .dupdn c => modCtrs s c fun b => { b with dupdn := b.dupdn &&& ~~~(ones.setWidth 32) }
  | .bardup c => modCtrs s c fun b => { b with bardup := b.bardup &&& ~~~(ones.setWidth 32) }
  | .pktdrop c => modCtrs s c fun b => { b with pktdrop := b.pktdrop &&& ~~~(ones.setWidth 32) }
  | .fq c i => modCtrs s c fun b => { b with fq := ringWrite b.fq i new ones }
  | .errctl c => modCtrs s c fun b => { b with ptrap := bitAt new 0 }

/-- `n` bytes read at an offset of the block, within one register. -/
def blockRead (s : State) (who : Asker) (off n : Nat) : Nat :=
  match regAt (off / 8 * 8) with
  | some r => ((regRead s who r).toNat >>> (8 * (off % 8))) % 2 ^ (8 * n)
  | none => 0

/-- `n` bytes written at an offset of the block, within one register. -/
def blockWrite (s : State) (who : Asker) (off n v : Nat) : State :=
  match regAt (off / 8 * 8) with
  | some r =>
    let o := off % 8
    let mask := (2 ^ (8 * n) - 1) <<< (8 * o)
    let put := (v % 2 ^ (8 * n)) <<< (8 * o)
    let old := (regRead s who r).toNat
    regWrite s who r (BitVec.ofNat 64 (old - (old &&& mask) + put)) (BitVec.ofNat 64 put) (o = 0)
  | none => s

end Sys2Proof.Machine
end

