-- ==== Sys2Proof/Machine/Access.lean ====
section
/-!
DEFINITION. Accesses of a task: reads and writes of every kind of page (R189, R216 to R219), remote operations with their
time-outs (R229, R376 to R378), and read-modify-writes at the place that a scope selects (R203, R227, R228).
-/

namespace Sys2Proof.Machine

/-! ### Reads and writes (R189, R217) -/

/-- The offset in the register block of an address of aperture 0x2. -/
def blockOff (pa : Nat) : Nat := pa % 2 ^ 25

/-- R189, R209: a strongly ordered access is `.sc` at `.sys`: a release and a ticket before it and an acquire after it. A reissue keeps the
ticket. The accesses before it have been performed when it begins (R230). -/
def strong {α : Type} (c : CoreId) (pa : Nat) (pg : Page) (m : M α) : M α := do
  if pg.mtype = 3 then do
    releaseNow c .sys allRegions
    let s ← get
    let k ← theCore c
    if (remoteOf k).isSome then pure ()
    else do
      awaitThat (!lineBusy s c (lineOf pa) && !seqBusy s c k.seq)
      modify fun s => modRegs s fun h => { h with hubTicket := h.hubTicket + 1 }
    let a ← m
    modify fun s => acquire s c .sys allRegions
    return a
  else m

/-- `n` bytes within a line read at a place. A device read that has been answered is not performed again (R189). -/
def readAt (c : CoreId) (loc : Loc) (n : Nat) (va : DWord) : M (Nat × Bool) :=
  match loc with
  | .mem pa pg =>
    let m : M (Nat × Bool) := strong c pa pg <|
      if aperture pa = 2 then deviceRead c pa false va (pure ()) do return (blockRead (← get) (.core c) (blockOff pa) n, false)
      else readLoc c loc n va
    if isDevice pa pg then once c pa m else m
  | .sram .. => readLoc c loc n va

/-- Whether an offset of the register block is an event counter's COUNT (R336). -/
def isCount (off : Nat) : Bool := match regAt (off / 8 * 8) with | some (.event _) => true | _ => false

/-- `n` bytes within a line written at a place. A write of a COUNT is a release of all regions at `.sys` (R336), and a write of a page
marks its region, if that is watched (R295). -/
def writeAt (c : CoreId) (loc : Loc) (n v : Nat) (bad : Bool) (va : DWord) : M Unit :=
  match loc with
  | .mem pa pg => strong c pa pg <|
    if aperture pa = 2 then do
      let first := !(remoteOf (← theCore c)).any fun r => !r.idem
      if first && isCount (blockOff pa) then releaseNow c .sys allRegions else pure ()
      writeRequest c pa none false va (pure ()) (modify fun s => markWatched (blockWrite s (.core c) (blockOff pa) n v) c loc.region)
    else writeLoc c loc n v bad va
  | .sram .. => writeLoc c loc n v bad va

/-- R371: a consumption by a control-thread access at a physical and a virtual address leaves a CONSUMED record of the poisoned word; the
access then raises POISON (R218). -/
def raisePoison {α : Type} (c : CoreId) (pa : Nat) (va : DWord) : M α := do
  modify fun s => report s (coreErr s c 1 true pa va (whereAt (getCore s c)).toNat 0)
  raise .poison va

/-- R219: a scalar load of `n` bytes. -/
def loadScalar (c : CoreId) (va : DWord) (n : Nat) : M Nat := do
  require (va.toNat % n == 0) .misalign va
  let loc ← translate c va n .read
  let (v, bad) ← readAt c loc n va
  if bad then raisePoison c (poisonedWord (← get) c loc n) va else return v

/-- R219: a scalar store of the low `n` bytes of a value. -/
def storeScalar (c : CoreId) (va : DWord) (n : Nat) (v : DWord) : M Unit := do
  require (va.toNat % n == 0) .misalign va
  let loc ← translate c va n .write
  writeAt c loc n (v.toNat % 2 ^ (8 * n)) false va

/-- Pieces of a range, each within a line, as addresses and lengths. -/
def pieces : Nat → DWord → Nat → List (DWord × Nat)
  | 0, _, _ => []
  | fuel + 1, va, n =>
    if n = 0 then []
    else
      let k := min n (128 - va.toNat % 128)
      (va, k) :: pieces fuel (va + BitVec.ofNat 64 k) (n - k)

/-- The pieces of `n` bytes from an address. -/
def rangePieces (va : DWord) (n : Nat) : List (DWord × Nat) := pieces (n / 128 + 2) va n

/-- Every byte of a range checked for an access, with the places of its pieces (R216). -/
def probeRange (c : CoreId) (va : DWord) (n : Nat) (acc : Access) : M (List (Loc × DWord × Nat)) :=
  collect (rangePieces va n) fun p => do
    let loc ← translate c p.1 p.2 acc
    return (loc, p)

/-- One piece read; a device page is read in units of its registers. -/
def readPiece (c : CoreId) (p : Loc × DWord × Nat) : M (Nat × Bool) :=
  match p.1 with
  | .mem pa pg =>
    if aperture pa = 2 then do
      let vs ← collect (List.range p.2.2) fun i => readAt c (.mem (pa + i) pg) 1 (p.2.1 + BitVec.ofNat 64 i)
      return (pack 8 (vs.map Prod.fst), false)
    else readAt c p.1 p.2.2 p.2.1
  | .sram .. => readAt c p.1 p.2.2 p.2.1

/-- The pieces of a range read as one number, with the physical address of the first poisoned word. -/
def readPieces (c : CoreId) : List (Loc × DWord × Nat) → M (Nat × Option Nat)
  | [] => return (0, none)
  | p :: r => do
    let (v, bad) ← readPiece c p
    let s ← get
    let (w, bad') ← readPieces c r
    return (v + w * 2 ^ (8 * p.2.2), if bad then some (poisonedWord s c p.1 p.2.2) else bad')

/-- An image of `n` bytes that an instruction reads under the checks of R216; a poisoned word raises POISON. -/
def readImage (c : CoreId) (va : DWord) (n : Nat) : M Nat := do
  let ps ← probeRange c va n .read
  match ← readPieces c ps with
  | (_, some pa) => raisePoison c pa va
  | (v, none) => return v

/-! ### Remote operations (R229, R333, R376 to R378) -/

/-- Whether an access leaves the package (R376). -/
def Loc.outside : Loc → Bool
  | .mem pa _ => isForeign (lineOf pa)
  | .sram .. => false

/-- Before an issue to the home of a place (R374, R375, R393). -/
def Loc.reach (c : CoreId) (va : DWord) : Loc → M Unit
  | .mem pa _ => reachHome c (lineOf pa) va
  | .sram t .. => if t = c then pure () else reachCore c t va

/-- A remote operation of a place of memory. -/
def remoteOp (c : CoreId) (einfo : DWord) (loc : Loc) (prep start : M Unit) (apply : M DWord) : M DWord :=
  remoteWith c einfo 1 loc.home loc.pa (do prep; return loc.outside) start (loc.reach c einfo) (pure ()) apply

/-- A remote operation of a router or of the hub; `reach` checks the way to it before every issue. -/
def nodeOp (c : CoreId) (einfo : DWord) (reach : M Unit) (apply : M DWord) : M DWord :=
  remoteWith c einfo 1 none noAddress (return false) (pure ()) reach (pure ()) apply

/-! ### Commutative partials (R203, R228) -/

/-- The partial key of a word. -/
def partialKey (pa : Nat) : Nat := pa / 4

/-- A value folded into the core's partial of a word; answers the partial before. -/
def addPartial (c : CoreId) (op : FoldOp) (opc : BitVec 3) (f : Fmt) (pa : Nat) (pg : Page) (v : Nat) : M Nat := do
  let k ← theCore c
  let w := fmtWidth f
  let old := match k.partials.find (partialKey pa) with | some p => p.val.toNat | none => foldIdentity op f
  let new := foldStep op f old (v % 2 ^ w)
  let p : Partial := { op := opc, fmt := BitVec.ofNat 4 f.code, val := BitVec.ofNat 64 new, region := pg.region, ac := pg.ac, writer := ownerOf k }
  modCore c fun k => { k with partials := k.partials.put (partialKey pa) p }
  return old

/-! ### Read-modify-writes (R227) -/

/-- The place at which an atomic acts on a page (R227). -/
inductive RmwPlace where
  | l1 | cluster | home | outside
  deriving DecidableEq, Repr

/-- R227: the place of an atomic by page, line and scope. -/
def rmwPlace (pa : Nat) (pg : Page) (sc : Scope) : RmwPlace :=
  let wide := if isForeign (lineOf pa) then RmwPlace.outside else .home
  if pg.home = 1 then wide
  else match sc with
    | .task => .l1
    | .clu => if pg.home = 3 then wide else .cluster
    | .die | .pkg | .sys => wide

/-- The core's own dirty bytes of a field as its push carries them (R227 step 2), with what an error in them leaves (R373), taken from its L1
copy, which becomes stale. -/
def takeDirty (s : State) (c : CoreId) (pa n : Nat) : State × Payload :=
  let line := lineOf pa
  match (getCore s c).l1.find line with
  | none => (s, Payload.none)
  | some l =>
    let m := l.dirty &&& byteMask (pa % 128) n
    let p : Payload := { l.load with dirty := m, bad := l.bad &&& touchedBlocks m }
    let l' := { l with dirty := l.dirty &&& ~~~p.mask, bad := l.bad &&& ~~~p.bad, stale := true }
    (updCore (evictErrors s (coordBits c) line p.bad l.dirty l.writer) c fun k => { k with l1 := k.l1.put line l' }, p)

/-- The copy of a line that the core's cluster home holds is pushed to L2 and dropped, and the access waits until that has been performed
(R227 step 1, R232). -/
def dropHome (c : CoreId) (line : Nat) : M Unit := do
  let hc := clusterHome c line
  modify fun s => if ((getCore s hc).homes.find line).isSome then sendPush s c hc (.home line true) else s
  awaitThat ((← theCore hc).homes.find line).isNone

/-- R227 steps 1 and 2 for an atomic at an L2 home. -/
def readyHome (c : CoreId) (pa n : Nat) (pg : Page) : M Unit := do
  dropHome c (lineOf pa)
  let p ← answer fun s => takeDirty s c pa n
  modify fun s => homePush s (.core c) pg.ac (lineOf pa) p.data p.mask p.marks p.region p.writer

/-- The home of a line about to serve a wide atomic, other owners of which have been recalled: the host's copy is taken back, and the
partials of the atomic's words are folded (R204, R387). -/
def openHome (s : State) (line : Nat) (words : Word) : State := foldWords (syncHost s line true) line words

/-- What an atomic does to the value that its place holds, which may be poisoned (R218, R129): it writes nothing, or a value
with its mark. -/
abbrev Rmw := Nat → Bool → Option (Nat × Bool)

/-- The atomics of the control thread write nothing to a poisoned word (R218). -/
def cleanRmw (f : Nat → Nat) : Rmw := fun old bad => if bad then none else some (f old, false)

/-- An atomic's read and write at an L2 home. -/
def rmwHome (c : CoreId) (pa n : Nat) (pg : Page) (va : DWord) (f : Rmw) : M (Nat × Bool) := do
  let line := lineOf pa
  let mask := byteMask (pa % 128) n
  reachHome c line va
  recallFor c line
  modify fun s => meetErrors s (.core c) line
  pinFor c line pg
  readyHome c pa n pg
  modify fun s => openHome s line (touchedWords mask)
  let (d, p) ← answer fun s => serveWords s (.core c) pg.ac line pg.region (touchedWords mask)
  let (old, bad) := lineField d p (pa % 128) n
  match f old bad with
  | none => return (old, bad)
  | some (v, m) => do
    modify fun s =>
      grantZeros (writeL2 s (.core c) line (placeBytes (pa % 128) v) mask (fieldMarks (pa % 128) n m) pg.region (writerOf s c)) line mask
    return (old, bad)

/-- An atomic at host or peer memory: the package's copies of the word reach it first. -/
def rmwOutside (c : CoreId) (pa n : Nat) (pg : Page) (va : DWord) (f : Rmw) : M (Nat × Bool) := do
  let line := lineOf pa
  let mask := byteMask (pa % 128) n
  reachHome c line va
  recallFor c line
  modify fun s => expireL2 s line
  readyHome c pa n pg
  modify fun s => spillL2 (openHome s line (touchedWords mask)) line
  awaitThat (cleanL2 (← get) line)
  modify fun s => notePort (dropL2 s line) line
  let (old, bad) := storeField (← get) pa n
  match f old bad with
  | none => return (old, bad)
  | some (v, m) => do
    modify fun s => grantZeros (storePut s pa n v m) line mask
    return (old, bad)

/-- An atomic at the line's cluster home (R195, R227), whose core must be reachable (R374, R375). -/
def rmwCluster (c : CoreId) (pa n : Nat) (pg : Page) (va : DWord) (f : Rmw) : M (Nat × Bool) := do
  let line := lineOf pa
  let hc := clusterHome c line
  reachCore c hc va
  if ((← theCore hc).homes.find line).isNone then reachHome c line va else pure ()
  modify fun s => roomHome s c line
  awaitThat (homePlace (← get) c line)
  modify fun s => fillHome s hc line pg.region pg.ac
  let p ← answer fun s => takeDirty s c pa n
  modify fun s => if p.mask = 0 then s else updCore s hc fun k => match k.homes.find line with
    | some h =>
      let h' := { h with data := mergeBytes h.data p.data p.mask, dirty := h.dirty ||| p.mask, psn := mergePsn h.psn p.marks p.mask
                         writer := p.writer, bad := h.bad &&& ~~~(fullBlocks p.mask) }
      { k with homes := k.homes.put line h' }
    | none => k
  match (← theCore hc).homes.find line with
  | none => return (0, false)
  | some h =>
    let (old, bad) := lineField h.data h.psn (pa % 128) n
    match f old bad with
    | none => return (old, bad)
    | some (v, b) => do
      modify fun s => updCore s hc fun k =>
        let m := byteMask (pa % 128) n
        { k with homes := k.homes.put line { h with data := mergeBytes h.data (placeBytes (pa % 128) v) m, dirty := h.dirty ||| m
                                                    psn := mergePsn h.psn (fieldMarks (pa % 128) n b) m, writer := writerOf s c } }
      return (old, bad)

/-- An atomic in the core's L1 (R227). -/
def rmwL1 (c : CoreId) (pa n : Nat) (pg : Page) (va : DWord) (f : Rmw) : M (Nat × Bool) := do
  let l ← fillL1 c (lineOf pa) pg va
  let (old, bad) := lineField l.data l.psn (pa % 128) n
  match f old bad with
  | none => return (old, bad)
  | some (v, m) => do
    modify fun s => writeL1 s c (lineOf pa) pg (placeBytes (pa % 128) v) (byteMask (pa % 128) n) (fieldMarks (pa % 128) n m)
    return (old, bad)

/-- An atomic at a scratchpad (R227). -/
def rmwSram (t : CoreId) (off n : Nat) (f : Rmw) : M (Nat × Bool) := do
  let (old, bad) := storeField (← get) (sramKey t off) n
  match f old bad with
  | none => return (old, bad)
  | some (v, m) => do
    modify fun s => storePut s (sramKey t off) n v m
    return (old, bad)

/-- The declaration of an access's region as it stood at the task's start (R296). -/
def declared (k : Core) (loc : Loc) : Option (FoldOp × BitVec 3 × Fmt) :=
  match loc with
  | .sram .. => none
  | .mem _ pg =>
    match k.tables.decls.find pg.region.toNat with
    | some (op, f) => (FoldOp.ofCode op.toNat).bind fun o => (Fmt.ofCode f.toNat).map fun g => (o, op, g)
    | none => none

/-- The scope that selects an atomic's place: in a declared region an atomic that forms no partial is performed at the home, after its
fold, whatever its scope (R203, R228). -/
def placeScope (k : Core) (loc : Loc) (sc : Scope) : Scope := if (declared k loc).isSome then .sys else sc

/-- R227: a read-modify-write of `n` bytes at a place; answers the old value and its mark. A write to a watched region marks it
(R295). -/
def rmwAt (c : CoreId) (loc : Loc) (sc : Scope) (n : Nat) (va : DWord) (f : Rmw) : M (Nat × Bool) := do
  let k ← theCore c
  let r ← match loc with
    | .sram t off _ _ => rmwSram t off n f
    | .mem pa pg =>
      match rmwPlace pa pg (placeScope k loc sc) with
      | .l1 => rmwL1 c pa n pg va f
      | .cluster => rmwCluster c pa n pg va f
      | .home => rmwHome c pa n pg va f
      | .outside => rmwOutside c pa n pg va f
  if (f r.1 r.2).isSome then modify fun s => markWatched s c loc.region else pure ()
  return r

/-- Whether a scope carries a sequence number (R229). -/
def scopeRemote : Scope → Bool
  | .die | .pkg | .sys => true
  | _ => false

/-- The place at which an atomic of a scope acts (R227). -/
def placeOf (k : Core) (pa : Nat) (pg : Page) (sc : Scope) : RmwPlace := rmwPlace pa pg (placeScope k (.mem pa pg) sc)

/-- Whether another node performs an atomic of a scope at a place, which is then a request to that node (R229, R376 to R378). -/
def rmwRemote (k : Core) (c : CoreId) (loc : Loc) (sc : Scope) : Bool :=
  scopeRemote sc ||
    match loc with
    | .sram t .. => t != c
    | .mem pa pg => match placeOf k pa pg sc with
      | .l1 => false
      | .cluster => clusterHome c (lineOf pa) != c
      | .home | .outside => true

/-- R227 step 4: when the reply of an atomic arrives, the core's L1 copy of its line is stale; an owned line stays owned. An atomic in L1, or
at a scratchpad, acts on no other copy. -/
def staleReply (s : State) (c : CoreId) (loc : Loc) (sc : Scope) : State :=
  match loc with
  | .mem pa pg =>
    if placeOf (getCore s c) pa pg sc = .l1 then s
    else updCore s c fun k => match k.l1.find (lineOf pa) with
      | some l => { k with l1 := k.l1.put (lineOf pa) { l with stale := true } }
      | none => k
  | .sram .. => s

/-- The request of an atomic of a scope at a place (R229, R376 to R378): under a number of its own, where another node performs it. What
`start` does is done once. -/
def rmwSend (c : CoreId) (va : DWord) (loc : Loc) (sc : Scope) (prep start : M Unit) (apply : M DWord) : M DWord := do
  let k ← theCore c
  if !rmwRemote k c loc sc then do
    prep
    start
    apply
  else match loc with
    | .mem pa pg =>
      if placeOf k pa pg sc = .cluster then
        remoteWith c va 1 none pa (do prep; return false) start (reachCore c (clusterHome c (lineOf pa)) va) (pure ())
          apply
      else remoteOp c va loc prep start apply
    | .sram .. => remoteOp c va loc prep start apply

/-- An atomic of a scope at a place, from its request to its reply (R227). -/
def rmwOp (c : CoreId) (va : DWord) (loc : Loc) (sc : Scope) (prep start : M Unit) (apply : M DWord) : M DWord := do
  let v ← rmwSend c va loc sc prep start apply
  modify fun s => staleReply s c loc sc
  return v

/-- The physical address of the poisoned word that an atomic of `n` bytes has met (R381). -/
def rmwPoisoned (s : State) (c : CoreId) (loc : Loc) (sc : Scope) (n : Nat) : Nat :=
  match loc with
  | .sram .. => poisonedWord s c loc n
  | .mem pa pg =>
    match placeOf (getCore s c) pa pg sc with
    | .l1 => poisonedWord s c loc n
    | .cluster => match (getCore s (clusterHome c (lineOf pa))).homes.find (lineOf pa) with
      | some h => firstMarked pa n (h.psn.toNat >>> (pa % 128 / 4))
      | none => pa
    | .home | .outside => firstMarked pa n ((homeLine s (lineOf pa)).2.toNat >>> (pa % 128 / 4))

/-- A place whose access counts no more: it is part of an access that has been counted (R337). -/
def Loc.uncounted : Loc → Loc
  | .mem pa pg => .mem pa { pg with ac := 0 }
  | l => l

end Sys2Proof.Machine
end

