-- ==== Sys2Proof/Machine/Carrier.lean ====
section
/-!
DEFINITION. The carriers of the hub: the translation that they make for themselves, claims of rows, the bytes that they copy, and
the completions that they return (R213, R264 to R268, R282).
-/

namespace Sys2Proof.Machine

/-! ### Translation by an engine (R183 to R192, R266, R291) -/

/-- Where an engine finds an address of a context: a place, why it goes no further, or the line that a migration holds (R389). -/
inductive Walked where
  | mem (pa : Nat) (pg : Page)
  | sram (t : CoreId) (off : Nat) (region : Byte)
  | stop (cause : Cause) (malf : Bool)
  | held (line : Nat)
  deriving DecidableEq, Repr

/-- R101: a memory die that a context's copy touches. -/
def markContextDie (s : State) (ctx : HWord) (b : Nat) : State :=
  { s with hub := { s.hub with contexts := s.hub.contexts.map fun x => if x.ctx = ctx then { x with dies := putBit x.dies b true } else x } }

/-- Why an engine does not reach the home of a line (R375, R389, R391, R393). -/
def engineStop (s : State) (line : Nat) : Option Walked :=
  match homeRefuses s line with
  | some (.die _) => some (.stop .dieLost false)
  | some .notReady | some (.fenced _) => some (.stop .protect false)
  | some .held => some (.held line)
  | none => none

/-- The context and tenant of a copy. -/
def Copy.owner (x : Copy) : Word := x.tenant ++ x.ctx

/-- The carrier that acts for a copy. -/
def Copy.who (x : Copy) : Who := .engine x.owner x.ipc

/-- Whether L2 holds a line that is not past its bound (R200). -/
def heldL2 (s : State) (line : Nat) : State × Bool :=
  let s := expireL2 s line
  (s, (s.l2.find line).isSome)

/-- R200: a copy of a host or peer line that a carrier has just filled counts as filled by the posting core. -/
def fillFor (s : State) (c : CoreId) (had : Bool) (line : Nat) : State :=
  match s.l2.find line with
  | some l =>
    if had || !isForeign line then s
    else { s with l2 := s.l2.put line { l with filler := some c, lease := (getCore s c).cregs.lease2 } }
  | none => s

/-- R183, R185: a carrier's walk from a node: a leaf and its page size, or why there is none. -/
def engineWalk (x : Copy) (va : DWord) : Nat → State → Nat → Nat → State × (Walked ⊕ DWord × Nat)
  | 0, s, _, _ => (s, .inl (.stop .protect true))
  | fuel + 1, s, level, node =>
    let pa := node + 8 * walkIndex va level
    match engineStop s (lineOf pa) with
    | some w => (s, .inl w)
    | none =>
      let (s, had) := heldL2 s (lineOf pa)
      let (s, v, _) := engineRead x.who 2 s pa 8
      let s := fillFor s x.core had (lineOf pa)
      let e : DWord := BitVec.ofNat 64 v
      if !bitAt e 0 then (s, .inl (.stop .pageMiss false))
      else if bitAt e 11 then
        if badLeaf level e then (s, .inl (.stop .protect true)) else (s, .inr (e, levelBits level))
      else if level = 3 || !(aperture (leafBase e) == 0 || aperture (leafBase e) == 3) || badTarget (leafBase e) then (s, .inl (.stop .protect true))
      else engineWalk x va fuel s (level + 1) (leafBase e)

/-- R291: a leaf from the carriers' translation cache, or from a walk that fills it. -/
def engineLeaf (s : State) (x : Copy) (va : DWord) : State × (Walked ⊕ DWord × Nat) :=
  match s.hub.tlb.find? fun t => t.covers x.asid va with
  | some t => (s, .inr (t.leaf, t.bits))
  | none =>
    match engineWalk x va 4 s 0 (x.ptroot.toNat % 2 ^ 52) with
    | (s, .inr (e, b)) =>
      let t : TlbEntry := { asid := x.asid, tenant := x.tenant, base := BitVec.ofNat 64 (va.toNat / 2 ^ b * 2 ^ b), bits := b, leaf := e }
      ({ s with hub := { s.hub with tlb := t :: s.hub.tlb } }, .inr (e, b))
    | r => r

/-- Whether a page allows a copy's access, which needs R and W as given (R186). -/
def carrierAllows (x : Copy) (pg : Page) (w rmw : Bool) : Bool :=
  (x.level != .task || pg.u) && (if w then pg.w else pg.r) && (!rmw || (pg.r && pg.mtype == 0 && pg.home != 2))

/-- Where an address of a copy's context goes, for an access that needs R and W as given. -/
def carrierFind (s : State) (x : Copy) (va : DWord) (w : Bool) (rmw : Bool) : State × Walked :=
  if slice va 48 16 = (0xFFFE : HWord) then
    let f := (slice va 42 6).toNat
    if rmw then (s, .stop .protect false)
    else if f < 48 ∨ f = 63 then (s, .sram (if f = 63 then x.core else clusterMember x.core f) (slice va 0 42).toNat 0)
    else (s, .stop .scratchRange false)
  else
    match engineLeaf s x va with
    | (s, .inl r) => (s, r)
    | (s, .inr (e, b)) =>
      let pg := pageOf e b
      let pa := leafBase e + va.toNat % 2 ^ b
      if !carrierAllows x pg w rmw then (s, .stop .protect false)
      else if aperture pa = 1 then (s, .sram (BitVec.ofNat 12 (fieldOf pa 31 20)) (pa % 2 ^ 20) pg.region)
      else if aperture pa = 2 then (s, .mem pa pg)
      else match engineStop s (lineOf pa) with
        | some r => (s, r)
        | none => (markContextDie s x.ctx (16 + mdOf (lineOf pa)), .mem pa pg)

/-- R192, R374, R375: the target's checks of `n` bytes of a scratchpad: `none` where they pass, else the cause and whether the tenant was
refused. The posting core's own scratchpad is checked too once its task has ended. -/
def carrierScratch (s : State) (x : Copy) (t : CoreId) (off n : Nat) : Option (Cause × Bool) :=
  let d := getCore s t
  if bitAt s.hub.lostDies (dieOf t) then some (.dieLost, false)
  else if d.fenced then some (if !x.orphan && sameGang (getCore s x.core) { d with task := d.lost } then .gangBroken else .protect, false)
  else if scratchSize d < off + n then some (.scratchRange, false)
  else if (t != x.core || x.orphan) && heldTenant d != x.tenant then some (.protect, true)
  else none

/-! ### Bytes with their poison (R368) -/

/-- The poison of `n` bytes from a store key, one bit a byte. -/
def byteMarks (s : State) (key n : Nat) : Nat :=
  let w := key / 4
  let m := psnLoad s.store.psn w ((key + n + 3) / 4 - w)
  (List.range n).foldl (fun a i => if m.testBit ((key + i) / 4 - w) then a ||| (1 <<< i) else a) 0

/-- `n` bytes of a line with one poison bit a byte. -/
def lineBytes (d : BitVec 1024) (p : BitVec 32) (off n : Nat) : Nat × Nat :=
  ((d.toNat >>> (8 * off)) % 2 ^ (8 * n), (List.range n).foldl (fun a i => if bitAt p ((off + i) / 4) then a ||| (1 <<< i) else a) 0)

/-- The words of a line that poisoned bytes touch. -/
def wordsOfMarks (off n marks : Nat) : BitVec 32 :=
  BitVec.ofNat 32 ((List.range n).foldl (fun a i => if marks.testBit i then a ||| (1 <<< ((off + i) / 4)) else a) 0)

/-- Whether a place is in the register block of the hub. -/
def Walked.inBlock : Walked → Bool
  | .mem pa _ => aperture pa == 2
  | _ => false

/-- R377: what a carrier's access to a place has to wait for at its home: the recall of an owner for a write (R202), the write-back of an L2
copy that has not reached its memory, or a place for the record of a write (R378). -/
def carrierBlocked (s : State) (p : Walked) (write : Bool) : State × Bool :=
  match p with
  | .mem pa pg =>
    if p.inBlock then (s, false)
    else
      let line := lineOf pa
      let s := expireL2 s line
      if atMemory pg line then (s, spillOut s line || (write && !dupRoom s (some (sliceOf line))))
      else if !write then (s, false)
      else
        let s := recallLine s none line
        (s, (otherOwner s none line).isSome || !dupRoom s (some (sliceOf line)))
  | _ => (s, false)

/-- R204: before a carrier's access at the memory behind a line: the partials of the words are folded and written back. -/
def carrierSettle (s : State) (line : Nat) (words : Word) : State :=
  let s := notePort (noteLate s line) line
  if s.hub.partials.any fun e => e.1 / 32 == line && partialIn words e then writeBackL2 (foldWords s line words) line else s

/-- R189: a carrier's access to a strongly ordered page takes a ticket; its own accesses need no release and no acquire. -/
def carrierTicket (s : State) (pg : Page) : State :=
  if pg.mtype = 3 then modRegs s fun h => { h with hubTicket := h.hubTicket + 1 } else s

/-- `n` bytes within a line read by a carrier (R188, R189). -/
def carrierRead (s : State) (x : Copy) (p : Walked) (n : Nat) : State × (Nat × Nat) :=
  match p with
  | .mem pa pg =>
    let s := carrierTicket s pg
    let line := lineOf pa
    let words := touchedWords (byteMask (pa % 128) n)
    if aperture pa = 2 then (s, blockRead s (.carrier x.level) (blockOff pa) n, 0)
    else if atMemory pg line then
      let s := carrierSettle s line words
      (s, memLoad s.store.bytes pa n, 0)
    else
      let (s, had) := heldL2 s line
      let s := if pg.home = 3 then pinLine s x.who line pg.region else s
      let (s, d, m) := serveWords s x.who pg.ac line pg.region words
      (fillFor s x.core had line, lineBytes d m (pa % 128) n)
  | .sram t off _ => (updCore s t fun k => noteActivity k x.ctx, memLoad s.store.bytes (sramKey t off) n, byteMarks s (sramKey t off) n)
  | .stop .. | .held _ => (s, 0, 0)

/-- `n` bytes of a scratchpad written, word by word. -/
def sramWrite (s : State) (key n v marks : Nat) : State :=
  (List.range (n / 4 + 2)).foldl (fun s j =>
    let a := max key (4 * (key / 4 + j))
    let b := min (key + n) (4 * (key / 4 + j + 1))
    if a < b then storePut s a (b - a) ((v >>> (8 * (a - key))) % 2 ^ (8 * (b - a))) ((marks >>> (a - key)) % 2 ^ (b - a) != 0) else s) s

/-- `n` bytes within a line written by a carrier (R188, R189); a host or peer line is written on to its memory (R266). -/
def carrierWrite (s : State) (x : Copy) (p : Walked) (n v marks : Nat) : State :=
  match p with
  | .mem pa pg =>
    let s := carrierTicket s pg
    let line := lineOf pa
    let mask := byteMask (pa % 128) n
    if aperture pa = 2 then blockWrite s (.carrier x.level) (blockOff pa) n v
    else if atMemory pg line then grantZeros (storePut (carrierSettle s line (touchedWords mask)) pa n v false) line mask
    else
      let (s, had) := heldL2 s line
      let s := if pg.home = 3 then pinLine s x.who line pg.region else s
      let s := homePush s x.who pg.ac line (placeBytes (pa % 128) v) mask (wordsOfMarks (pa % 128) n marks) pg.region x.owner
      let s := fillFor s x.core had line
      if isForeign line then writeBackL2 s line else s
  | .sram t off _ => updCore (sramWrite s (sramKey t off) n v marks) t fun k => noteActivity k x.ctx
  | .stop .. | .held _ => s

/-- The region of a place. -/
def Walked.region : Walked → Byte
  | .mem _ pg => pg.region
  | .sram _ _ g => g
  | .stop .. | .held _ => 0

/-- R376: whether an access to a place leaves the package. -/
def Walked.outside : Walked → Bool
  | .mem pa _ => isForeign (lineOf pa)
  | _ => false

/-- A copy with a watched region marked as written (R295). -/
def Copy.mark (x : Copy) (s : State) (g : Byte) : Copy :=
  match s.hub.regs.regions.find g.toNat with
  | some r => if bitAt r 32 then { x with marks := putBit x.marks g.toNat true } else x
  | none => x

/-! ### How a copy ends (R266, R268, R352) -/

/-- R266: the bytes that a copy has written become undefined (log 9). -/
def blurWritten (s : State) (x : Copy) : State :=
  (rangePieces x.dst x.pos).foldl (fun s p =>
    let (s, q) := carrierFind s x p.1 true false
    carrierWrite { s with free := s.free + p.2 } x q p.2 (pack 8 ((List.range p.2).map fun i => (Config.freeByte (s.free + i)).toNat)) 0) s

/-- R266, R377: a copy whose third reissue has timed out ends with TIMEOUT and a TIMEOUT record of its request. -/
def timeoutCopy (s : State) (x : Copy) (p : Walked) (va : DWord) : State :=
  let pa := match p with | .mem pa _ => pa | .sram t off _ => sramKey t off | .stop .. | .held _ => 0
  endCopy (blurWritten (report s (ownedErr x.owner 9 true 0xFFFF pa va (x.id.toNat % 65536) 1)) x) x 6

/-- R365: the copies of a killed context end, and the bytes that they have written are undefined. -/
def abortCopies (s : State) (ctx : HWord) : State :=
  (s.hub.copies.filter fun x => x.ctx == ctx && !x.done).foldl (fun s x => endCopy (blurWritten s x) x 5) s

/-- R266, R352: a copy that ends with FAULT, with its record in the fault queue of the posting core. -/
def faultCopy (s : State) (x : Copy) (cause : Cause) (malf : Bool) (va : DWord) : State :=
  let record := packAt
    [(0, cause.code), (8, 3), (12, if malf then 1 else 0), (14, if cause = .pageMiss then 1 else 0), (32, coordBits x.core),
      (64, x.ctx.toNat), (80, x.tenant.toNat), (96, x.asid.toNat), (192, va.toNat), (320, x.id.toNat % 2 ^ 32),
      (352, s.time.toNat % 2 ^ 32), (512, if cause = .pageMiss then va.toNat / 65536 * 65536 else 0)]
  endCopy (appendFault s x.core record) x 3

/-! ### One turn of a copy (R266, R282) -/

/-- R376 to R378: the turn of a copy's request to places: it waits for its time-out, its last reissue has timed out, it is lost, or `act` is
done. Where the reply is lost, what was done is not done again: the copy goes on once its reissue has been answered (log 10). -/
def sendCopy (s : State) (x : Copy) (p q : Walked) (va : DWord) (act : State → Copy → State) : State :=
  match x.way.passage s.time (p.outside || q.outside) with
  | .waits => s
  | .failed => timeoutCopy s x q va
  | .goes =>
    let (s, good) := hubFlit s
    if !good then modCopy s x fun y => { y with way := y.way.lost s.time }
    else
      let (s, back) := hubFlit (act s { x with way := Transit.first s.time })
      if back then s else modCopy s x fun y => { y with way := y.way.lost s.time }

/-- The number that stands for the carriers where a home keeps a requester's record: no core's. -/
def carrierId : CoreId := 0xFFF

/-- R378: the record that a claim or a write of a copy leaves at its line's slice. -/
def recordClaim (s : State) (x : Copy) (line : Nat) : State :=
  let d : DupRecord := { core := carrierId, home := some (sliceOf line), seq := x.id.setWidth 16, reply := .value 0, tick := s.time }
  { s with hub := { s.hub with dups := d :: s.hub.dups } }

/-- The record of a copy's write at a place; a scratchpad and the register block keep none. -/
def recordWrite (s : State) (x : Copy) (p : Walked) : State :=
  match p with
  | .mem pa _ => if p.inBlock then s else recordClaim s x (lineOf pa)
  | _ => s

/-- R282: the claim at its home: the copy goes on with a new destination, or ends. -/
def claimAt (s : State) (x : Copy) (pa : Nat) (pg : Page) : State :=
  let k := x.len.toNat / 256
  let s := modRegs s fun h => { h with hubTicket := h.hubTicket + 1 }
  let s := syncHost s (lineOf pa) true
  let (s, v, m) := carrierRead s x (.mem pa pg) 4
  if m ≠ 0 then faultCopy (report s (ownedErr x.owner 1 true 0xFFFF pa x.claimw x.ipc.toNat 0)) x .poison false x.claimw
  else
    let next := v % 65536
    if next + k ≤ v / 65536 then
      let s := carrierWrite s x (.mem pa pg) 4 (v + k) 0
      let x' := { x.mark s pg.region with started := true, ticket := s.hub.regs.hubTicket, dst := x.dst + BitVec.ofNat 64 (256 * next) }
      modCopy (recordClaim s x (lineOf pa)) x fun _ => x'
    else endCopy (recordClaim s x (lineOf pa)) x 2

/-- R282: a copy claims its rows: a ticket, then the claim word at its home. -/
def claimRows (s : State) (x : Copy) : State :=
  if x.len.toNat = 0 ∨ x.len.toNat % 256 ≠ 0 then faultCopy s x .format false 0
  else if x.claimw.toNat % 4 ≠ 0 then faultCopy s x .misalign false x.claimw
  else
    match carrierFind s x x.claimw true true with
    | (s, .mem pa pg) =>
      match carrierBlocked s (.mem pa pg) true with
      | (s, true) => s
      | (s, false) => sendCopy s x (.mem pa pg) (.mem pa pg) x.claimw fun s x => claimAt s x pa pg
    | (s, .stop cause malf) => faultCopy s x cause malf x.claimw
    | (s, .sram ..) => faultCopy s x .protect false x.claimw
    | (s, .held line) => noteLate s line

/-- R266: destination bytes inside the source range are undefined (log 9). -/
def blurOverlap (s : State) (x : Copy) (va : DWord) (n v : Nat) : State × Nat :=
  let hit (i : Nat) : Bool := decide ((va + BitVec.ofNat 64 i - x.src).toNat < x.len.toNat)
  ({ s with free := s.free + n },
    pack 8 ((List.range n).map fun i => if hit i then (Config.freeByte (s.free + i)).toNat else (v >>> (8 * i)) % 256))

/-- The bytes that a copy moves next: up to the end of a line of either side, and of a register of the hub's block (R383). -/
def chunkOf (x : Copy) : Nat :=
  let a := (x.src + BitVec.ofNat 64 x.pos).toNat
  let b := (x.dst + BitVec.ofNat 64 x.pos).toNat
  min (x.len.toNat - x.pos) (min (128 - a % 128) (128 - b % 128))

/-- The same where a side lies in the register block, whose registers have 8 bytes each. -/
def blockChunk (x : Copy) (p q : Walked) (n : Nat) : Nat :=
  let room (w : Walked) (va : DWord) : Nat := if w.inBlock then 8 - (va + BitVec.ofNat 64 x.pos).toNat % 8 else n
  min n (min (room p x.src) (room q x.dst))

/-- What keeps a copy from a place: a fault with its cause, a refused tenant (R192), or a migration. -/
inductive Hindrance where
  | fault (cause : Cause) (malf : Bool)
  | refused
  | held (line : Nat)
  deriving DecidableEq, Repr

/-- Why `n` bytes of a place cannot be accessed by a copy now. -/
def placeStop (s : State) (x : Copy) (p : Walked) (n : Nat) : Option Hindrance :=
  match p with
  | .mem _ _ => none
  | .sram t off _ => (carrierScratch s x t off n).map fun e => if e.2 then .refused else .fault e.1 false
  | .stop cause malf => some (.fault cause malf)
  | .held line => some (.held line)

/-- What a hindrance at an address does to a copy. -/
def hinder (s : State) (x : Copy) (va : DWord) : Hindrance → State
  | .fault cause malf => faultCopy s x cause malf va
  | .refused => endCopy s x 4
  | .held line => noteLate s line

/-- The bytes of a chunk moved from one place to another. -/
def moveChunk (s : State) (x : Copy) (p q : Walked) (n : Nat) (va : DWord) : State :=
  let (s, v, m) := carrierRead s x p n
  let (s, v) := blurOverlap s x va n v
  let s := recordWrite (carrierWrite s x q n v m) x q
  let x' := { x.mark s q.region with pos := x.pos + n }
  let s := copyActive (modCopy s x fun _ => x') x
  if x.len.toNat ≤ x.pos + n then endCopy s x' 1 else s

/-- A chunk copied. -/
def copyChunk (s : State) (x : Copy) : State :=
  let n := chunkOf x
  let a := x.src + BitVec.ofNat 64 x.pos
  let b := x.dst + BitVec.ofNat 64 x.pos
  let (s, p) := carrierFind s x a false false
  match placeStop s x p n with
  | some h => hinder s x a h
  | none =>
    let (s, q) := carrierFind s x b true false
    match placeStop s x q n with
    | some h => hinder s x b h
    | none =>
      let (s, w) := carrierBlocked s p false
      let (s, u) := carrierBlocked s q true
      if w || u then s else sendCopy s x p q b fun s x => moveChunk s x p q (blockChunk x p q n) b

/-- R266, R282: a turn of the k-th copy in flight: its claim, its next bytes, or its end. -/
def carrierTurn (s : State) (k : Nat) : State :=
  match s.hub.copies[k]? with
  | none => s
  | some x =>
    if x.done then s
    else if x.claim && !x.started then claimRows s x
    else if x.len.toNat ≤ x.pos then endCopy s x 1
    else copyChunk s x

/-! ### What a completion does to the posting core's copies (R213) -/

/-- The lines that a copy's destination may hold, by its pages. -/
def destLines (s : State) (x : Copy) : State × List (Nat × Nat) :=
  let first := x.dst.toNat / 65536
  let pages := if x.len = 0 then 0 else (x.dst.toNat + x.len.toNat - 1) / 65536 - first + 1
  (List.range pages).foldl (fun acc i =>
    let va : DWord := if i = 0 then x.dst else BitVec.ofNat 64 (65536 * (first + i))
    let n := min (65536 - va.toNat % 65536) ((x.dst + BitVec.ofNat 64 x.len.toNat - va).toNat)
    match carrierFind acc.1 x va true false with
    | (s, .mem pa _) => (s, acc.2 ++ [(pa, n)])
    | (s, _) => (s, acc.2)) (s, [])

/-- Whether a line shares a byte with one of some runs. -/
def lineHit (runs : List (Nat × Nat)) (line : Nat) : Bool :=
  runs.any fun r => decide (r.1 < 128 * line + 128) && decide (128 * line < r.1 + r.2)

/-- The copies of lines that runs overlap in the cluster homes of a core's cluster, each pushed and dropped by its core. -/
def homesHit (s : State) (c : CoreId) (runs : List (Nat × Nat)) : List (CoreId × Push) :=
  (listedCores s fun d => clusterOf d == clusterOf c).flatMap fun d =>
    ((getCore s d).homes.filter fun e => lineHit runs e.1).map fun e => (d, .home e.1 true)

/-- The pushes that the end of a copy makes for its core (R213). -/
def destPushes (s : State) (x : Copy) : List (CoreId × Push) :=
  let (s, runs) := destLines s x
  homesHit s x.core runs

/-- R213: the core's L1 lines that overlap a copy's destination become stale; owned lines do not (R199). A copy of such a line in the core's
cluster home is pushed and dropped, so that the next fill comes from the L2 home. -/
def staleDest (s : State) (x : Copy) : State :=
  let (s, runs) := destLines s x
  let s := sendPushes s x.core (homesHit s x.core runs)
  updCore s x.core fun k => { k with l1 := k.l1.mapVals fun line l => if lineHit runs line && !l.owned then { l with stale := true } else l }

/-- The memories that a copy's destination lies in (R233). -/
def destMemories (s : State) (x : Copy) : List DrainKind :=
  let window := slice x.dst 48 16 == (0xFFFE : HWord)
  let first := x.dst.toNat / 65536
  let pages := if x.len = 0 then 0 else (x.dst.toNat + x.len.toNat - 1) / 65536 - first + 1
  if window then [.sp]
  else (List.range pages).map fun i =>
    match (carrierFind s x (if i = 0 then x.dst else BitVec.ofNat 64 (65536 * (first + i))) true false).2 with
    | .sram .. => .sp
    | .mem pa _ => if 8 ≤ aperture pa then .peer else .mem
    | .stop .. | .held _ => .mem

/-- A core's copies with a destination in a memory. -/
def copiesInto (s : State) (c : CoreId) (kind : DrainKind) : List Copy :=
  s.hub.copies.filter fun x => x.core == c && (destMemories s x).contains kind

end Sys2Proof.Machine
end

