-- ==== Sys2Proof/Machine/VecMem.lean ====
section
/-!
DEFINITION. Vector accesses to memory (R220 to R226): the addresses of elements, the checks of R216 for all of them, and the
reads, writes and atomic adds that follow.
-/

namespace Sys2Proof.Machine

/-! ### Addresses of elements (R220, R223) -/

/-- Where an element lies in memory: the address of the byte that holds its bit 0, that bit's place in the byte, and the number
of bytes that hold bits of it. -/
structure Elem where
  e : Nat
  va : DWord
  sh : Nat
  n : Nat

/-- R220: an element of a unit-stride access; `bit` is the bit offset of an INT6 access. -/
def unitElem (base : DWord) (w bit e : Nat) : Elem :=
  if 8 ≤ w then { e := e, va := base + BitVec.ofNat 64 (w / 8 * e), sh := 0, n := w / 8 }
  else
    let p := bit + w * e
    { e := e, va := base + BitVec.ofNat 64 (p / 8), sh := p % 8, n := (p % 8 + w + 7) / 8 }

/-- R220: an element of a strided access. -/
def strideElem (base step : DWord) (w e : Nat) : Elem :=
  { e := e, va := base + BitVec.ofNat 64 e * step, sh := 0, n := w / 8 }

/-- R223: an element of a gather or a scatter, by the index cell and whether it is signed. -/
def indexElem (base : DWord) (signed : Bool) (w : Nat) (ix : Nat → Nat) (e : Nat) : Elem :=
  let i : Word := BitVec.ofNat 32 (ix e)
  let off : DWord := if signed then sext64 i else i.setWidth 64
  { e := e, va := base + off * BitVec.ofNat 64 (w / 8), sh := 0, n := w / 8 }

/-- The pieces of an element that are accessed: an element narrower than a byte is accessed by bytes. -/
def Elem.parts (a : Elem) (w : Nat) : List (DWord × Nat) :=
  if w < 8 then (List.range a.n).map fun i : Nat => (a.va + BitVec.ofNat 64 i, 1) else [(a.va, a.n)]

/-! ### Checks (R216, R221, R225) -/

/-- R301: a recipe's load falls on a page with W = 0. -/
def readOnlyLoc : Loc → Bool
  | .mem _ pg => !pg.w
  | .sram _ _ _ pg => pg.any fun p => !p.w

/-- One address probed: a missing page is answered, every other fault is raised. -/
def probePage (x : Vx) (acc : Access) (va : DWord) (n : Nat) : M (Option DWord) :=
  tryCatch
    (do
      let loc ← translate x.c va n acc
      require (!x.ro || readOnlyLoc loc) .protect va
      return none)
    fun e => match e with
      | .trap t => if t.cause = .pageMiss then return some (va &&& ~~~(0xFFFF : DWord)) else throw e
      | _ => throw e

/-- The missing pages of a list of elements, each with the address of its element, in the order in which they are met. -/
def missingPages (x : Vx) (acc : Access) (w : Nat) (l : List Elem) : M (List (DWord × DWord)) := do
  let ms ← collect l fun a => collect (a.parts w) fun p => do
    return ((← probePage x acc p.1 p.2).map fun page => (a.va, page)).toList
  return (ms.map List.flatten).flatten

/-- Pages without repeats, in the order in which they are first met. -/
def distinctPages : List DWord → List DWord → List DWord
  | seen, [] => seen
  | seen, p :: r => if seen.contains p then distinctPages seen r else distinctPages (seen ++ [p]) r

/-- R216, R225: every element checked, in the order MISALIGN, refusals, missing pages. -/
def checkElems (x : Vx) (acc : Access) (w : Nat) (l : List Elem) : M Unit := do
  match l.find? fun a => 8 ≤ w && a.va.toNat % a.n != 0 with
  | some a => raise .misalign a.va
  | none => pure ()
  match ← missingPages x acc w l with
  | [] => return ()
  | m :: r =>
    let pages := distinctPages [] ((m :: r).map Prod.snd)
    throw (.trap { trapInfo .pageMiss m.1 with pages := pages.take 24, ovf := decide (24 < pages.length) })

/-! ### Reading elements -/

/-- Pieces read and joined, with whether a word is poisoned. -/
def readParts (c : CoreId) : List (DWord × Nat) → M (Nat × Bool)
  | [] => return (0, false)
  | p :: r => do
    let loc ← translate c p.1 p.2 .read
    let (v, bad) ← readAt c loc p.2 p.1
    let s ← get
    if bad then noteWord c (poisonedWord s c loc p.2) p.1 else pure ()
    let (u, bad') ← readParts c r
    return (v + u * 2 ^ (8 * p.2), bad || bad')

/-- One element read: its bits and its poison. -/
def readElem (c : CoreId) (w : Nat) (a : Elem) : M Res := do
  let (v, bad) ← readParts c (a.parts w)
  return { val := (v >>> a.sh) % 2 ^ w, bad := bad }

/-- What a list of results holds for an element. -/
def resFor : List (Nat × Res) → Nat → Option Res
  | [], _ => none
  | (j, r) :: l, e => if j = e then some r else resFor l e

/-- The elements of V that an access moves: covered and active (R220). -/
def movedElems (x : Vx) (mask w : Nat) : List Nat := (List.range (elemCount w)).filter fun e => covered x.vl w e && active mask w e

/-- R220, R223: the end of a load whose checks have passed: elements read, poisoned ones replaced, V written. -/
def finishLoad (x : Vx) (f : Fmt) (v : Opd) (l : List Elem) (lost : List Nat) : M Unit := do
  let w := fmtWidth f
  byGroups x v [] w false fun on => do
    let rs ← collect (l.filter fun a => on a.e && !groupDone x v [] w a.e) fun a => do
      let r ← readElem x.c w a
      return (a.e, resOf f r.bad r.val)
    let bad := (lost.filter fun e => on e && !groupDone x v [] w e).map fun e => (e, resOf f true 0)
    commitResult x v (plainTag f) (resFor (rs ++ bad))

/-- The FORMAT checks of a load into V (R220, R95). -/
def checkLoad (x : Vx) (f : Fmt) (v : Opd) : M Unit := do
  formatUnless (f != .none && (!v.isLine || fmtIs32 f))
  if v.isLine then checkLine (← theCore x.c) x.vl (plainTag f) else pure ()

/-- R220: `vld` and `vlds`, by the address of each element. -/
def runLoad (x : Vx) (f : Fmt) (v : Opd) (addr : Nat → Elem) : M Unit := do
  checkLoad x f v
  let w := fmtWidth f
  let l := (movedElems x (← x.mask) w).map addr
  checkElems x .read w l
  finishLoad x f v l []

/-! ### Writing elements -/

/-- A word that a store has bits for: an address of it, which bits, their values, and whether a poisoned element is among them. -/
structure WordBits where
  va : DWord
  mask : Nat
  val : Nat
  bad : Bool

/-- `n` bits from bit `o` of a byte at a physical and a virtual address laid over the words of a store, which are told apart by where they
stand; later ones win (R221). -/
def layBits (t : Tab WordBits) (pa : Nat) (va : DWord) (o n v : Nat) (bad : Bool) : Tab WordBits :=
  let old := (t.find (pa / 4)).getD { va := 0, mask := 0, val := 0, bad := false }
  let o := 8 * (pa % 4) + o
  let m := (2 ^ n - 1) <<< o
  t.put (pa / 4) { va := va - BitVec.ofNat 64 (pa % 4), mask := old.mask ||| m, val := (old.val - (old.val &&& m)) + (v % 2 ^ n) <<< o
                   bad := old.bad || bad }

/-- The bits of an element that its i-th byte holds: the first bit in the byte, how many, and the first bit of the element. -/
def byteBits (w sh i : Nat) : Nat × Nat × Nat := if i = 0 then (sh, min w (8 - sh), 0) else (0, min (w - (8 * i - sh)) 8, 8 * i - sh)

/-- An element narrower than a word laid over the words of a store: in one piece, or below 8 bits byte by byte. -/
def layElem (c : CoreId) (w : Nat) (a : Elem) (r : Res) (t : Tab WordBits) : Nat → M (Tab WordBits)
  | 0 => return t
  | n + 1 => do
    let t ← layElem c w a r t n
    if 8 ≤ w then do
      let loc ← translate c a.va a.n .write
      return layBits t loc.pa a.va 0 w r.val r.bad
    else do
      let va := a.va + BitVec.ofNat 64 n
      let loc ← translate c va 1 .write
      let (o, k, first) := byteBits w a.sh n
      return layBits t loc.pa va o k (r.val >>> first) r.bad

/-- The bytes of a word that a store has bits for, as runs of bytes: first byte and length. -/
def byteRuns (mask : Nat) : List (Nat × Nat) :=
  let on := fun i => fieldOf mask (8 * i + 7) (8 * i) != 0
  ((List.range 4).filter fun i => on i && !(0 < i && on (i - 1))).map fun i =>
    (i, ((List.range (4 - i)).takeWhile fun j => on (i + j)).length)

/-- R222: one run of bytes written, once (R221); a byte that is not covered whole keeps its other bits. A run of a whole word that merges
such a byte with a word in error is written clean (DESIGN CHOICE, log 55). -/
def writeRun (c : CoreId) (b : WordBits) (r : Nat × Nat) : M Unit := do
  let va : DWord := b.va + BitVec.ofNat 64 r.1
  let m := fieldOf b.mask (8 * (r.1 + r.2) - 1) (8 * r.1)
  let v := fieldOf b.val (8 * (r.1 + r.2) - 1) (8 * r.1)
  let loc ← translate c va r.2 .write
  onceAt c loc.pa do
    if m = 2 ^ (8 * r.2) - 1 then writeAt c loc r.2 v b.bad va
    else do
      let (old, _) ← readAt c loc r.2 va
      writeAt c loc r.2 ((old - (old &&& m)) + v) b.bad va

/-- The words of a store written, each by its runs. -/
def writeWords (c : CoreId) (t : Tab WordBits) : M Unit :=
  eachOf t fun e => eachOf (byteRuns e.2.mask) fun r => writeRun c e.2 r

/-- Whether an element is written by itself: a whole word or more, or an access to a device page, which never merges (R189). -/
def writtenAlone (w : Nat) : Loc → Bool
  | .mem pa pg => 32 ≤ w || (8 ≤ w && isDevice pa pg)
  | .sram .. => 32 ≤ w

/-- The groups of the head of the vector queue that are done. -/
def headGroups (k : Core) : Byte := match k.streams.vq with | e :: _ => e.egdone | [] => 0

/-- How many elements of a posted access have been performed for good (R376). -/
def headStep (k : Core) : Nat := match k.streams.vq with | e :: _ => e.prog.step | [] => 0

/-- The elements of a store written: alone, in ascending order, each once (R189), or gathered by words. -/
def writeElems (c : CoreId) (w : Nat) : Tab WordBits → List (Elem × Res) → M Unit
  | t, [] => writeWords c t
  | t, (a, r) :: l => do
    let loc ← translate c a.va (if w < 8 then 1 else a.n) .write
    if writtenAlone w loc then do
      onceAt c loc.pa (writeAt c loc a.n r.val r.bad a.va)
      writeElems c w t l
    else writeElems c w (← layElem c w a r t (if w < 8 then a.n else 1)) l

/-- The format of a store (R220): the tag of V, which a non-zero field must equal. -/
def storeFmt (x : Vx) (f : Fmt) (v : Opd) : M Fmt := do
  let t ← sourceTag (← theCore x.c) x.vl none v
  let g := tagFmt (t.getD 0)
  formatUnless (g != .none && (f == .none || f == g))
  return g

/-- What V holds for a list of elements; poisoned elements go as they stand (R220). -/
def storedElems (x : Vx) (f : Fmt) (v : Opd) (l : List Elem) : M (List (Elem × Res)) := do
  let sv := sourceOf (← theCore x.c) x none v
  let w := fmtWidth f
  return l.map fun a => (a, { val := elemOf sv.img w a.e, bad := elemPsn sv.psn w a.e })

/-- R221: elements of V stored by element groups; V itself is only read. -/
def finishStore (x : Vx) (f : Fmt) (v : Opd) (l : List Elem) : M Unit := do
  let w := fmtWidth f
  let part := fun on : Nat → Bool => do
    writeElems x.c w [] (← storedElems x f v (l.filter fun a => on a.e && !groupDone x v [] w a.e))
  if v.isLine && x.only.isNone then
    eachOf ((List.range 8).filter fun g => !bitAt x.egdone g) fun g => do
      eachOf (v.groupRows x.vl g) x.ens
      part fun e => groupOf v w e == g
      groupEnds x g
  else do
    x.ensure v
    part fun _ => true
    countGroups x

/-- R220: `vst` and `vsts`, by the address of each element under the format. -/
def runStore (x : Vx) (f : Fmt) (v : Opd) (strided : Bool) (addr : Nat → Nat → Elem) : M Unit := do
  let g ← storeFmt x f v
  formatUnless (!strided || (g != .int4 && g != .int6))
  let w := fmtWidth g
  let l := (movedElems x (← x.mask) w).map (addr w)
  checkElems x .write w l
  finishStore x g v l

/-! ### Gathers and scatters (R223) -/

/-- The index row: its cells, their poison, and whether they are signed. -/
def indexRow (x : Vx) (ix : BitVec 6) : M (Src × Bool) := do
  let t := (getRow (← theCore x.c) ix).row.tag
  formatUnless (t == plainTag .idx32 || t == plainTag .int32)
  x.ens ix
  return (sourceOf (← theCore x.c) x none (.row ix), t == plainTag .int32)

/-- The formats of R223. -/
def gatherFmt (f : Fmt) : Bool := fmtIs32 f || f == .fp64

/-- R223: `vldx`. -/
def runGather (x : Vx) (f : Fmt) (v : Opd) (base : DWord) (ix : BitVec 6) : M Unit := do
  formatUnless (gatherFmt f)
  checkLoad x f v
  let (si, signed) ← indexRow x ix
  let w := fmtWidth f
  let es := movedElems x (← x.mask) w
  let (lost, es) := es.partition fun e => elemPsn si.psn 32 e
  let l := es.map (indexElem base signed w (elemOf si.img 32))
  checkElems x .read w l
  finishLoad x f v l lost

/-- R223: the PMASK bits of elements whose index is poisoned. -/
def noteLost (x : Vx) (w : Nat) (lost : List Nat) : M Unit :=
  notePoison x.c x.ipc (lost.foldl (fun a e => a ||| (1 <<< cell0 w e)) 0)

/-- R223: `vstx`. -/
def runScatter (x : Vx) (f : Fmt) (v : Opd) (base : DWord) (ix : BitVec 6) : M Unit := do
  let g ← storeFmt x f v
  formatUnless (gatherFmt g)
  let (si, signed) ← indexRow x ix
  let w := fmtWidth g
  let es := movedElems x (← x.mask) w
  let (lost, es) := es.partition fun e => elemPsn si.psn 32 e
  let l := es.map (indexElem base signed w (elemOf si.img 32))
  checkElems x .write w l
  finishStore x g v l
  noteLost x w (lost.filter fun e => !groupDone x v [] w e)

/-! ### Vector atomic add (R224, R226, R228) -/

/-- The sum that a `vaadd` element leaves, or the poisoned word that a poisoned element leaves; a poisoned word stays (R129). -/
def addRmw (f : Fmt) (v : Res) : Rmw := fun old bad =>
  if bad then none else if v.bad then some (poisonBits f, true) else some (foldStep .add f old v.val, false)

/-- R226: an element of `vaadd` that has timed out ends its entry. -/
def timedOutAdd (e : Stop) : M DWord :=
  match e with
  | .trap t => throw (.trap { t with final := t.final || t.cause == .remoteTimeout })
  | e => throw e

/-- One element of a `vaadd` at its place; answers whether the word or the element is poisoned. A word of a commutative region
that is declared add in the format takes a partial (R203, R228). -/
def addElem (c : CoreId) (sc : Scope) (f : Fmt) (a : Elem) (v : Res) : M Bool := do
  let loc ← translate c a.va 4 .both
  let k ← theCore c
  let word? := match loc with
    | .mem pa pg => if declared k loc == some (.add, 0, f) && !v.bad then some (pa, pg) else none
    | .sram .. => none
  match word? with
  | some (pa, pg) => do
    modify fun s => markWatched s c loc.region
    let _ ← addPartial c .add 0 f pa pg v.val
    return false
  | none =>
    let add : M DWord := rmwOp c a.va loc sc (pure ()) (pure ()) do
      let (_, bad) ← rmwAt c loc sc 4 a.va (addRmw f v)
      let s ← get
      if bad then noteWord c (rmwPoisoned s c loc sc 4) a.va else pure ()
      return boolWord bad
    let r ← if scopeRemote sc then tryCatch add timedOutAdd else add
    return r != 0 || v.bad

/-- The groups below one that are done (R128). -/
def groupsBelow (g : Nat) (eg : Byte) : Byte := eg ||| BitVec.ofNat 8 (2 ^ g - 1)

/-- R128, R339: the groups of a `vaadd` below one are over, and each is counted as it is; in a VP block the block counts them. -/
def groupsOver (x : Vx) (g : Nat) : M Unit :=
  if x.only.isSome then pure ()
  else modCore x.c fun k =>
    let old := headGroups k
    let new := groupsBelow g old
    pendPoison (countPerf (modHead k fun e => { e with egdone := new }) 3 (popCount 8 new.toNat - popCount 8 old.toNat)) .vector

/-- The elements of a `vaadd` applied in ascending order, each once its row is resident. One that is applied is not applied again when
the entry runs on, and its groups that are over are done (R128, R221). -/
def addElems (x : Vx) (sc : Scope) (f : Fmt) (v : Opd) : List Elem → M Unit
  | [] => return ()
  | a :: l => do
    let k ← theCore x.c
    if a.e < headStep k || groupDone x v [] 32 a.e then addElems x sc f v l
    else do
      groupsOver x (groupOf v 32 a.e)
      eachOf ((v.groupRows x.vl (a.e / 8))) x.ens
      eachOf (← storedElems x f v [a]) fun p => do
        let bad ← addElem x.c sc f p.1 p.2
        modCore x.c fun k => dropAnswers (modHead k fun e => { e with prog := { e.prog with step := a.e + 1 } }) (streamKey k)
        notePoison x.c x.ipc (if bad then 1 <<< a.e else 0)
      addElems x sc f v l

/-- R224: `vaadd`. -/
def runVaadd (x : Vx) (sc : Scope) (v : Opd) (base : DWord) (ix : BitVec 6) : M Unit := do
  let g ← storeFmt x .none v
  formatUnless (g == .int32 || g == .idx32 || g == .fp32)
  let (si, signed) ← indexRow x ix
  let es := movedElems x (← x.mask) 32
  let (lost, es) := es.partition fun e => elemPsn si.psn 32 e
  let l := es.map (indexElem base signed 32 (elemOf si.img 32))
  checkElems x .both 32 l
  addElems x sc g v l
  notePoison x.c x.ipc (lost.foldl (fun a e => a ||| (1 <<< e)) 0)
  groupsOver x 8

end Sys2Proof.Machine
end

