-- ==== Sys2Proof/Machine/Vector.lean ====
section
/-!
DEFINITION. What an entry of the vector queue does when it executes, for the frame instructions of chapter 07 and the vector
accesses of chapter 11: one computation by the entry's instruction.
-/

namespace Sys2Proof.Machine

/-- A V field as an operand. -/
def placeOpd : Place → Opd
  | .row n => .row n
  | .col n => .col n
  | .dia n => .dia n

/-- The row that an operand names; the encodings of chapter 03 allow no other operand there. -/
def opdRow : Opd → BitVec 6
  | .row n | .col n | .dia n => n
  | _ => 0

/-- An offset in units of 8 bytes (R62). -/
def off8 {n : Nat} (off : BitVec n) : DWord := sext64 off * 8

/-- The sources of an instruction, in field order; those that name queues pop (R126). -/
def popSources (i : Instr) : List Opd :=
  match i with
  | .vaddV3 _ a b | .vsubV3 _ a b | .vmulV3 _ a b | .vfmaV3 _ a b | .vminV3 _ a b | .vmaxV3 _ a b | .vandV3 _ a b | .vorV3 _ a b
  | .vxorV3 _ a b | .vshlV3 _ a b | .vshrV3 _ a b | .vsraV3 _ a b | .vdiv _ a b | .vsel _ a b | .vceq _ a b | .vcne _ a b
  | .vclt _ a b | .vcle _ a b | .vslup _ a b | .vsldn _ a b | .vperm _ a b | .vpack _ a b | .vdot _ a b | .vaddSat _ a b
  | .vsubSat _ a b | .vmulSat _ a b => [a, b]
  | .vmovV3 _ a | .vabsV3 _ a | .vnegV3 _ a | .vpopcV3 _ a | .vsqrt _ a | .vclz _ a | .vnot _ a | .vcvt _ a _ _ _ | .vredsum _ a
  | .vredmin _ a | .vredmax _ a | .vredminx _ a | .vredand _ a | .vredor _ a | .vredxor _ a | .vunpk _ a _ | .vdq _ a => [a]
  | _ => []

/-- A frame instruction executed (R125 to R148). -/
def runFrame (x : Vx) (i : Instr) : Option (M Unit) :=
  match i with
  | .vaddV3 d a b => some (runLane x .add d a b)
  | .vsubV3 d a b => some (runLane x .sub d a b)
  | .vmulV3 d a b => some (runLane x .mul d a b)
  | .vfmaV3 d a b => some (runLane x .fma d a b)
  | .vminV3 d a b => some (runLane x .min d a b)
  | .vmaxV3 d a b => some (runLane x .max d a b)
  | .vandV3 d a b => some (runLane x .and d a b)
  | .vorV3 d a b => some (runLane x .or d a b)
  | .vxorV3 d a b => some (runLane x .xor d a b)
  | .vshlV3 d a b => some (runLane x .shl d a b)
  | .vshrV3 d a b => some (runLane x .shr d a b)
  | .vsraV3 d a b => some (runLane x .sra d a b)
  | .vmovV3 d a => some (runLane x .mov d a a)
  | .vabsV3 d a => some (runLane x .abs d a a)
  | .vnegV3 d a => some (runLane x .neg d a a)
  | .vpopcV3 d a => some (runLane x .popc d a a)
  | .vdiv d a b => some (runLane x .div d a b)
  | .vsqrt d a => some (runLane x .sqrt d a a)
  | .vclz d a => some (runLane x .clz d a a)
  | .vnot d a => some (runLane x .not d a a)
  | .vaddSat d a b => some (runLane x .addSat d a b)
  | .vsubSat d a b => some (runLane x .subSat d a b)
  | .vmulSat d a b => some (runLane x .mulSat d a b)
  | .vcvt d a t rz sat => some (runCvt x d a t rz sat)
  | .vfmt d a => some (runFmt x (opdRow d) a)
  | .vclr d => some (runClr x (opdRow d))
  | .vsel d a b => some (runSel x d a b)
  | .vceq kd a b => some (runCmp x .ceq kd a b)
  | .vcne kd a b => some (runCmp x .cne kd a b)
  | .vclt kd a b => some (runCmp x .clt kd a b)
  | .vcle kd a b => some (runCmp x .cle kd a b)
  | .vid d => some (runId x d)
  | .vredsum d a => some (runRed x .sum d a)
  | .vredmin d a => some (runRed x .min d a)
  | .vredmax d a => some (runRed x .max d a)
  | .vredminx d a => some (runRedMinx x d a)
  | .vredand d a => some (runRed x .and d a)
  | .vredor d a => some (runRed x .or d a)
  | .vredxor d a => some (runRed x .xor d a)
  | .vslup d a b => some (runSlide x true d a b)
  | .vsldn d a b => some (runSlide x false d a b)
  | .vperm d a b => some (runPerm x d a b)
  | .vpack d a b => some (runPack x (opdRow d) a b)
  | .vunpk d a p => some (runUnpk x d a p.toNat)
  | .vdot d a b => some (runDot x d a b)
  | .vqnt d a s => some (runQnt x (opdRow d) (opdRow a) s)
  | .vdq d a => some (runDq x (opdRow d) a)
  | .kbool kd ka kb f => some (runBool x kd ka kb f)
  | .kset kd rs1 => some (runKset x kd rs1)
  | _ => none

/-- A vector access executed (R220 to R224); base and stride are captured (R109). -/
def runVecMem (x : Vx) (i : Instr) : Option (M Unit) :=
  match i with
  | .vld f v rs1 off => some (runLoad x f (placeOpd v) (unitElem (x.base rs1 + off8 off) (fmtWidth f) 0))
  | .vldInt6 v rs1 off bit => some (runLoad x .int6 (placeOpd v) (unitElem (x.base rs1 + off8 off) 6 bit.toNat))
  | .vlds f v rs1 rs2 => some (do
      formatUnless (f != .int4 && f != .int6)
      runLoad x f (placeOpd v) (strideElem (x.base rs1) (envS x.env rs2) (fmtWidth f)))
  | .vst f v rs1 off => some (runStore x f (placeOpd v) false fun w => unitElem (x.base rs1 + off8 off) w 0)
  | .vstInt6 v rs1 off bit => some (runStore x .int6 (placeOpd v) false fun w => unitElem (x.base rs1 + off8 off) w bit.toNat)
  | .vsts f v rs1 rs2 => some (runStore x f (placeOpd v) true fun w => strideElem (x.base rs1) (envS x.env rs2) w)
  | .vldx f v rs1 ix => some (runGather x f (placeOpd v) (x.base rs1) ix)
  | .vstx f v rs1 ix => some (runScatter x f (placeOpd v) (x.base rs1) ix)
  | .vaadd sc v rs1 ix => some (runVaadd x sc (placeOpd v) (x.base rs1) ix)
  | _ => none

/-- A frame instruction or a vector access executed. -/
def runVec (x : Vx) (i : Instr) : Option (M Unit) :=
  match runFrame x i with
  | some m => some m
  | none => runVecMem x i

end Sys2Proof.Machine
end

