-- ==== Sys2Proof/Machine/Restitch.lean ====
section
/-!
DEFINITION. Pinned rows: recipes and their runs, restitching, cuts, `pin` and `unpick` (R297 to R305).
-/

namespace Sys2Proof.Machine

/-- The pin record of a row (R299). -/
def pinOf (k : Core) (n : BitVec 6) : BitVec 512 := k.files.pins[n.toNat]

/-- Whether a record's VALID bit is set. -/
def pinValid (p : BitVec 512) : Bool := bitAt p 287

/-- DEPTH of a record. -/
def pinDepth (p : BitVec 512) : Nat := (slice p 274 2).toNat

/-- RES of a record or an image. -/
def pinRes (p : BitVec 512) : BitVec 6 := slice p 260 6

/-- A core with a row's record replaced. -/
def setPin (k : Core) (n : BitVec 6) (p : BitVec 512) : Core := { k with files := { k.files with pins := k.files.pins.set n.toNat p } }

/-- The scalar slots of an image (R297). -/
def pinSlots (p : BitVec 512) : List (BitVec 5) := [slice p 288 5, slice p 293 5, slice p 298 5]

/-- The instructions of a recipe; words that do not decode stand for none, since `pdef` has checked them (R298). -/
def recipeOf (p : BitVec 512) : List Instr :=
  (List.range (slice p 256 4 : BitVec 4).toNat).filterMap fun j =>
    match decode (leBytes 4 (slice p (32 * j) 32 : Word).toNat) with
    | .ok (i, _) => some i
    | .error _ => none

/-- The capture of a record as an environment (R301): the recorded scalars, VL and PROT, with KSEL 0 and RNE. -/
def recipeEnv (p : BitVec 512) : Env :=
  let caps := ((List.range 3).zip (pinSlots p)).foldl (fun (v : Vector DWord 32) e =>
    if e.2 = 0 then v else v.set e.2.toNat (slice p (320 + 64 * e.1) 64)) (Vector.replicate 32 0)
  { vl := slice p 266 7, ksel := 0, rnd := 0, prot := slice p 273 1, s := caps }

/-- The rows that operands name. -/
def rowsNamed (l : List Opd) : List (BitVec 6) := l.filterMap fun o => match o with | .row n => some n | _ => none

/-- The rows that an instruction of a recipe reads (R298): its sources, the D of `vfma`, the index row of `vldx`. -/
def recipeReads (i : Instr) : List (BitVec 6) :=
  match i with
  | .vfmaV3 d a b => rowsNamed [d, a, b]
  | .vldx _ _ _ ix => [ix]
  | i => rowsNamed (popSources i)

/-- The rows other than its own that a recipe reads. -/
def recipeSources (p : BitVec 512) : List (BitVec 6) := ((recipeOf p).flatMap recipeReads).filter (· != pinRes p)

/-- A stop inside a run, with ECAUSE.REPLAY set for a restitch (R305). -/
def replayStop (replay : Bool) : Stop → Stop
  | .trap t => .trap { t with replay := t.replay || replay }
  | e => e

/-- R301: a run of a recipe on a row with the tag `tag`. A fault leaves the row, PMASK and the pending POISON as they were. -/
def runRecipe (c : CoreId) (ens : BitVec 6 → M Unit) (p : BitVec 512) (tag : HWord) (ipc : DWord) (replay : Bool) : M Unit := do
  let n := pinRes p
  let k0 ← theCore c
  let x : Vx := { c := c, env := recipeEnv p, adj := 0, popped := [], egdone := 0, ipc := ipc, ens := fun r => if r = n then pure () else ens r
                  cut := fun _ => pure (), ro := true, only := none }
  tryCatch
    (do
      modCore c fun k => setRow k n { row := { bits := 0, psn := 0, tag := tag }, res := .dirty }
      eachOf (recipeOf p) fun i => (runVec x i).getD (pure ())
      modCore c fun k =>
        { countPerf (setRow k n { getRow k n with res := .clean }) 7 (if replay then 1 else 0) with answered := k0.answered })
    fun e => do
      modCore c fun k =>
        { setRow k n (getRow k0 n) with
          tregs := { k.tregs with pmask := k0.tregs.pmask }, pend := { k.pend with poison := k0.pend.poison }, poisoned := k0.poisoned }
      throw (replayStop replay e)

/-- R105, R303: a row made resident: filled, or restitched where it is pinned and unpicked, at most `depth` deep. A restitch starts from
the tag that the row had at its `pin`, so that untagged sources give the pin's bits again. -/
def residentRow (c : CoreId) (ipc : DWord) : Nat → BitVec 6 → M Unit
  | 0, n => fillRow c n
  | depth + 1, n => do
    let k ← theCore c
    if (getRow k n).res = .gone ∧ pinValid (pinOf k n) then
      tryCatch (takeBlock c) fun e => throw (replayStop true e)
      runRecipe c (residentRow c ipc depth) (pinOf k n) (k.files.pinTags[n.toNat]) ipc true
    else fillRow c n

/-- A row as an instruction makes it resident: restitches nest at most two deep (R303). -/
def makeResident (c : CoreId) (ipc : DWord) (n : BitVec 6) : M Unit := residentRow c ipc 2 n

/-- R304: a pinned row made resident and cut: it becomes an ordinary dirty row. -/
def cutPin (c : CoreId) (ipc : DWord) (p : BitVec 6) : M Unit := do
  makeResident c ipc p
  modCore c fun k => setRow (setPin k p (putBit (pinOf k p) 287 false)) p { getRow k p with res := .dirty }

/-- The pinned rows whose recipes read a row. -/
def dependants (k : Core) (r : BitVec 6) : List (BitVec 6) :=
  ((List.range 64).map (BitVec.ofNat 6)).filter fun p => pinValid (pinOf k p) && (recipeSources (pinOf k p)).contains r

/-- R304: what happens before a row is written or retagged: its dependants are cut, then the row itself. -/
def cutRow (c : CoreId) (ipc : DWord) (r : BitVec 6) : M Unit := do
  eachOf (dependants (← theCore c) r) (cutPin c ipc)
  if pinValid (pinOf (← theCore c) r) then cutPin c ipc r else pure ()

/-- R304: every pin cut, as `sset RBASE` does first. -/
def cutEvery (c : CoreId) (ipc : DWord) : M Unit := do
  let k ← theCore c
  eachOf (((List.range 64).map (BitVec.ofNat 6)).filter fun p => pinValid (pinOf k p)) (cutPin c ipc)

/-- What an entry of the vector queue executes with. -/
def vxOf (c : CoreId) (e : Entry) (popped : List Row) : Vx :=
  { c := c, env := e.env, adj := e.adj, popped := popped, egdone := e.egdone, ipc := e.ipc, ens := makeResident c e.ipc, cut := cutRow c e.ipc, ro := false
    only := none }

/-- R300: `pin` in the vector stream, from the image and captures that the control thread took. -/
def runPin (c : CoreId) (n : BitVec 6) (e : Entry) : M Unit := do
  cutRow c e.ipc n
  let k ← theCore c
  let srcs := recipeSources e.image
  formatUnless (srcs.all fun r => !tagScaled (getRow k r).row.tag && !(pinValid (pinOf k r) && pinDepth (pinOf k r) == 2))
  let tag := (getRow k n).row.tag
  runRecipe c (makeResident c e.ipc) e.image tag e.ipc false
  let depth := srcs.foldl (fun d r => if pinValid (pinOf k r) then max d (pinDepth (pinOf k r)) else d) 0
  modCore c fun k =>
    let k := setPin k n (putBit (splice e.image 274 (BitVec.ofNat 2 (1 + depth))) 287 true)
    { k with files := { k.files with pinTags := k.files.pinTags.set n.toNat tag } }

/-- R302: `unpick`, and the eviction of a pinned row (R105). -/
def runUnpick (k : Core) (n : BitVec 6) : Core :=
  if pinValid (pinOf k n) && (getRow k n).res != .gone then setRow k n { getRow k n with res := .gone } else k

end Sys2Proof.Machine
end

