-- ==== Sys2Proof/Machine/CondStreams.lean ====
section
/-!
DEFINITION. Conditional streams (R262, R263).
-/

namespace Sys2Proof.Machine

/-- A conditional stream. -/
def condOf (k : Core) (n : BitVec 2) : CondStream := k.streams.cs[n.toNat]

/-- A core with a conditional stream replaced. -/
def setCond (k : Core) (n : BitVec 2) (v : CondStream) : Core := { k with streams := { k.streams with cs := k.streams.cs.set n.toNat v } }

/-- R262: the store key of a cell of stream n. -/
def condKey (c : CoreId) (k : Core) (n : BitVec 2) (cell : Nat) : Nat :=
  let cells := streamCells k
  sramKey c (scratchSize k - 4 * cells * (n.toNat + 1) + 4 * (cell % cells))

/-- R263: the cells of V appended in ascending order. -/
def appendCells (s : State) (c : CoreId) (n : BitVec 2) : List Res → State
  | [] => s
  | r :: l =>
    let k := getCore s c
    let v := condOf k n
    let s := storePut s (condKey c k n (v.head.toNat + v.count.toNat)) 4 r.val r.bad
    appendCells (updCore s c fun k => setCond k n { v with count := v.count + 1 }) c n l

/-- R263: `spush`. -/
def runSpush (x : Vx) (n : BitVec 2) (d : Opd) : M Unit := do
  let k ← theCore x.c
  let t := (← sourceTag k x.vl none d).getD 0
  formatUnless (tagIs32 t)
  let v := condOf k n
  formatUnless (v.count == 0 || t == v.tag)
  let mask ← x.mask
  let on := (List.range x.vl).filter fun i => active mask 32 i
  require (v.count.toNat + on.length ≤ streamCells k) .queueFault 0
  x.ensure d
  let src := sourceOf (← theCore x.c) x none d
  modify fun s => appendCells s x.c n (on.map fun i => { val := elemOf src.img 32 i, bad := elemPsn src.psn 32 i })
  if on.isEmpty then return () else modCore x.c fun k => setCond k n { condOf k n with tag := t }

/-- R263: `spop`; the mask is not consulted. -/
def runSpop (x : Vx) (n : BitVec 2) (d : Opd) : M Unit := do
  let k ← theCore x.c
  let v := condOf k n
  let t : HWord := if v.tag = 0 then plainTag .b32 else v.tag
  checkDest k x d t
  openDest x d
  let k ← theCore x.c
  let s ← get
  let m := min x.vl v.count.toNat
  let cell := fun i => storeField s (condKey x.c k n (v.head.toNat + i)) 4
  modCore x.c fun k =>
    let cells := streamCells k
    setCond k n { v with head := BitVec.ofNat 16 ((v.head.toNat + m) % max 1 cells), count := v.count - BitVec.ofNat 16 m }
  commitResult x d t fun i =>
    if i < x.vl then
      if i < m then
        let (b, bad) := cell i
        some (resOf (tagFmt t) bad b)
      else some { val := 0, bad := false }
    else none

/-- R263: `sflush`. -/
def runSflush (k : Core) (n : BitVec 2) : Core := setCond k n { head := 0, count := 0, tag := 0 }

end Sys2Proof.Machine
end

