-- ==== Sys2Proof/Machine/Matrix.lean ====
section
/-!
DEFINITION. Entries of the matrix queue (R155 to R180), and `hmov`, which runs in the vector stream.
-/

namespace Sys2Proof.Machine

/-! ### Hoops and latches -/

/-- A hoop. -/
def hoopOf (k : Core) (h : BitVec 2) : Hoop := k.files.h[h.toNat]

/-- A core with a hoop replaced. -/
def setHoop (k : Core) (h : BitVec 2) (v : Hoop) : Core := { k with files := { k.files with h := k.files.h.set h.toNat v } }

/-- A latch. -/
def latchOf (k : Core) (l : BitVec 1) : Latch := k.files.l[l.toNat]

/-- A core with a latch replaced. -/
def setLatch (k : Core) (l : BitVec 1) (v : Latch) : Core := { k with files := { k.files with l := k.files.l.set l.toNat v } }

/-- Element (i, j) of a hoop (R96). -/
def Hoop.elem (v : Hoop) (i j : Nat) : Nat := elemOf (v.rows[i]?.getD 0).toNat 32 j

/-- Whether element (i, j) of a hoop is poisoned. -/
def Hoop.bad (v : Hoop) (i j : Nat) : Bool := bitAt (v.psn[i]?.getD 0) j

/-- Columns `lo` to `lo + n - 1` of row i of a hoop replaced. -/
def Hoop.putRow (v : Hoop) (i lo n : Nat) (g : Nat → Res) : Hoop :=
  let rs := (List.range n).map fun j => g (lo + j)
  let at' (j : Nat) : Option Res := if lo ≤ j ∧ j < lo + n then rs[j - lo]? else none
  let bits := buildRow 32 (fun j => match at' j with | some r => r.val | none => v.elem i j) 128
  let psn := (List.range 128).foldl (fun a j => if (match at' j with | some r => r.bad | none => v.bad i j) then a ||| (1 <<< j) else a) 0
  { rows := v.rows.setIfInBounds i (BitVec.ofNat 4096 bits), psn := v.psn.setIfInBounds i (BitVec.ofNat 128 psn) }

/-- Rows 0 to m − 1, columns 0 to n − 1 of a hoop replaced. -/
def Hoop.putBlock (v : Hoop) (m n : Nat) (g : Nat → Nat → Res) : Hoop :=
  (List.range m).foldl (fun v i => v.putRow i 0 n (g i)) v

/-- The PMASK bits of the poisoned elements of a block (R169): bit j mod 64. -/
def Hoop.pmask (v : Hoop) (m n : Nat) : Nat :=
  (List.range m).foldl (fun a i => (List.range n).foldl (fun a j => if v.bad i j then a ||| (1 <<< (j % 64)) else a) a) 0

/-- The head entry of the matrix queue changed. -/
def modMatrix (k : Core) (f : Entry → Entry) : Core :=
  { k with streams := { k.streams with mq := match k.streams.mq with | e :: r => f e :: r | [] => [] } }

/-- A fault of a started entry that stays at the head: it counts as not started, so that its task can stop. -/
def faultHeld {α : Type} (c : CoreId) (cause : Cause) (einfo : DWord) : M α := do
  modCore c fun k => modMatrix k fun e => { e with started := false }
  raise cause einfo

/-- A fault that ends the entry at the head (R180). -/
def faultEnds {α : Type} (c : CoreId) (cause : Cause) (einfo : DWord) : M α := do
  modCore c fun k => { k with streams := { k.streams with mq := k.streams.mq.drop 1 } }
  raise cause einfo

/-! ### Words of memory with their poison -/

/-- A place as an access of `mdarn` to its lodge area reaches it (R311). -/
def Loc.ofArea (area : Bool) : Loc → Loc
  | .mem pa pg => .mem pa { pg with lodge := area }
  | .sram t off g pg => .sram t off g pg

/-- `n` words from an address, each with its poison; `area` says that they are read of a lodge area (R311), whose words an invocation has read
before it writes the first of them (R173). -/
def readWords (c : CoreId) (va : DWord) (n : Nat) (area : Bool := false) : M (List Res) :=
  collect (List.range n) fun i => do
    let a := va + BitVec.ofNat 64 (4 * i)
    let loc ← translate c a 4 .read
    let m := readAt c (loc.ofArea area) 4 a
    let (v, bad) ← if area then once c loc.pa m else m
    let s ← get
    if bad then noteWord c (poisonedWord s c loc 4) a else pure ()
    return { val := v, bad := bad }

/-- Words written from an address, each once (R221) and with its poison. -/
def writeWordsAt (c : CoreId) (va : DWord) (l : List Res) (area : Bool := false) : M Unit :=
  eachOf ((List.range l.length).zip l) fun p => do
    let a := va + BitVec.ofNat 64 (4 * p.1)
    let loc ← translate c a 4 .write
    onceAt c loc.pa (writeAt c (loc.ofArea area) 4 p.2.val p.2.bad a)

/-- Results as an image of words. -/
def packWords (l : List Res) : Nat := pack 32 (l.map Res.val)

/-- The poison bits of words. -/
def wordMarks (l : List Res) : Nat := pack 1 (l.map fun r => if r.bad then 1 else 0)

/-! ### Latches (R157, R158, R160) -/

/-- A latch image read from memory: SCALE, header and tile with its poison. A latch has no place for the poison of its SCALE and its
header: they are used as they were read (DESIGN CHOICE, log 52). -/
def readTile (c : CoreId) (va : DWord) : M Latch := do
  let h ← readWords c va 2
  let t ← readWords c (va + 128) 4096
  return { state := .full, scale := BitVec.ofNat 32 (packWords h), hdr := BitVec.ofNat 32 (packWords h >>> 32)
           tile := BitVec.ofNat 131072 (packWords t), psn := BitVec.ofNat 4096 (wordMarks t), stamp := 0 }

/-- The checks of a latch image before it is loaded (R158). -/
def probeTile (c : CoreId) (va : DWord) : M Nat := do
  require (va.toNat % 128 == 0) .misalign va
  let _ ← probeRange c va 16512 .read
  let h ← readWords c (va + 4) 1
  let hdr := packWords h
  formatUnless (headerOk hdr)
  return hdr

/-- R158: `mld` reads its tile; the latch is LOADING until the last row has arrived. -/
def runMld (c : CoreId) (l : BitVec 1) (va : DWord) : M Unit := do
  awaitThat ((latchOf (← theCore c) l).state != .loading)
  let _ ← probeTile c va
  let t ← readTile c va
  modCore c fun k => setLatch k l { t with state := .loading }

/-- The core `n` places after a core in its column of a 6 × 8 plot, from FOOT's Y0 (R159). -/
def ringCore (k : Core) (c : CoreId) (n : Nat) : CoreId :=
  let y0 := (slice k.tregs.foot 8 8).toNat
  let o := y0 + (coreY c - y0) / 8 * 8
  coreAt (coreX c) (o + (coreY c - o + n) % 8)

/-- R159: the ring neighbour of a core. -/
def ringNeighbour (k : Core) (c : CoreId) : CoreId := ringCore k c 1

/-- R159, R160, R167: the latch that the head of a matrix queue hands on, and the latch of the neighbour that takes it. -/
def handOnOf (k : Core) : Option (BitVec 1 × BitVec 1) :=
  match k.streams.mq.head? with
  | some e =>
    match e.instr with
    | .mpass l => if e.prog.step = 0 && (latchOf k l).state == .full then some (l, l) else none
    | .mmaRing _ _ l _ =>
      if e.prog.waiting then some (l ^^^ BitVec.ofNat 1 e.prog.step, l ^^^ BitVec.ofNat 1 (e.prog.step + 1)) else none
    | _ => none
  | none => none

/-- Whether the head of a matrix queue moves the rows of a hand-on. -/
def handsOn (k : Core) : Bool := match k.streams.mq.head? with | some e => e.prog.moving | none => false

/-- R159: whether the rows of a hand-on move into a latch of a core. -/
def movingInto (s : State) (c : CoreId) (l : BitVec 1) : Bool :=
  let k := getCore s (ringCore (getCore s c) c 7)
  handsOn k && !k.fenced && (match handOnOf k with | some (_, j) => j == l | none => false)

/-- R158: the last tile row of a load arrives; a hand-on ends by itself. The rows of a hand-on whose sender is lost count as arrived
(log 52). -/
def loadComplete (s : State) (c : CoreId) (l : BitVec 1) : State :=
  if (latchOf (getCore s c) l).state = .loading ∧ !movingInto s c l then
    updCore s c fun k => setLatch k l { latchOf k l with state := .full, stamp := s.time.toNat }
  else s

/-- GANG_BROKEN's EINFO for a lost core (R344). -/
def lostCore (c : CoreId) : DWord := BitVec.ofNat 64 (coordBits c)

/-- Whether a core of the ring of `c` is lost (R363). -/
def ringBroken (s : State) (c : CoreId) : Bool := (List.range 8).any fun n => (getCore s (ringCore (getCore s c) c n)).fenced

/-- The first entry of a core's matrix stream that hands a tile on, also where its steward serves the task (R180). -/
def ringEntry (k : Core) : Option Entry :=
  (k.streams.mq ++ k.streams.parkedM).find? fun e => match e.instr with | .mpass _ | .mmaRing .. => true | _ => false

/-- Whether the latch that an entry hands on next holds its tile, or takes it. -/
def tileHeld (k : Core) (e : Entry) : Bool :=
  match e.instr with
  | .mpass l => (latchOf k l).state != .empty
  | .mmaRing _ _ l _ => (latchOf k (l ^^^ BitVec.ofNat 1 e.prog.step)).state != .empty
  | _ => false

/-- R159, R167: whether the core before `c` in the ring of `k` may still hand a tile on to it: it has the tile, or it may still come there. -/
def tileComes (s : State) (k : Core) : Nat → CoreId → Bool
  | 0, _ => false
  | n + 1, c =>
    let p := ringCore k c 7
    let d := getCore s p
    !d.fenced && match ringEntry d with
      | some e => !e.started || tileHeld d e || tileComes s k n p
      | none => false

/-- R159, R167: whether the hand-on of core `c` of the ring of `k` may still end: its rows move, or the core after it has room for them or may
still hand its own tile on. -/
def roomComes (s : State) (k : Core) : Nat → CoreId → Bool
  | 0, _ => false
  | n + 1, c =>
    let d := getCore s c
    let q := ringCore k c 1
    !d.fenced && match ringEntry d with
      | some e => !e.started || e.prog.moving || !e.prog.waiting ||
          (match handOnOf d with
            | some (_, j) =>
              !(getCore s q).fenced && sameGang d (getCore s q) && ((latchOf (getCore s q) j).state == .empty || roomComes s k n q)
            | none => true)
      | none => false

/-- R363: whether a core's entry waits for a tile that the loss of a core of its ring keeps from it. -/
def tileLost (s : State) (c : CoreId) : Bool := ringBroken s c && !tileComes s (getCore s c) 8 c

/-- R363: whether a core's hand-on waits for room that the loss of a core of its ring keeps from it. -/
def roomLost (s : State) (c : CoreId) : Bool := ringBroken s c && !roomComes s (getCore s c) 8 c

/-- R168, R363: whether no tile comes any more for the `mma.arr` of a core: neither of its latches loads, the core before it hands none on
because a core of the ring is lost, or its SHARD waves have all been aborted. -/
def arrivalLost (s : State) (c : CoreId) : Bool :=
  let k := getCore s c
  let waves := k.tables.slots.filter fun x => x.kind == 3
  !(k.files.l.any fun l => l.state == .loading) && waves.all (fun x => x.aborted) &&
    (tileLost s c || (!waves.isEmpty && !tileComes s k 1 c))

/-- R180, R363, R364: a started entry waits. Where what it waits for is lost, a DIE_LOST or a GANG_BROKEN that is pending ends it as `ends`
says; another can still complete. An entry that has not started waits, and can be stopped. -/
def waitStarted {α : Type} (c : CoreId) (e : Entry) (lost : State → CoreId → Bool) (ends : Cause → DWord → M α) : M α := do
  let p := (← theCore c).pend
  let lost := e.started && lost (← get) c
  match if lost then p.dieLost else none, if lost then p.gangBroken else none with
  | some d, _ => do
    modCore c fun k => { k with pend := { k.pend with dieLost := none } }
    ends .dieLost d
  | none, some d => do
    modCore c fun k => { k with pend := { k.pend with gangBroken := none } }
    ends .gangBroken d
  | none, none => waitHere

/-- R160: `mpass` completes when its hand-on has ended. -/
def runMpass (c : CoreId) (e : Entry) : M Unit := do
  if e.prog.step = 1 then return ()
  else
    let n := ringNeighbour (← theCore c) c
    if !(← theCore n).fenced then waitHere
    else if e.started then faultEnds c .gangBroken (lostCore n)
    else raise .gangBroken (lostCore n)

/-- R160: `mwait`. -/
def runMwait (c : CoreId) (l : BitVec 1) : M Unit := do awaitThat ((latchOf (← theCore c) l).state == .full)

/-! ### `mma`: sizes and activations (R162, R163) -/

/-- The forms of `mma`. -/
inductive MmaForm where
  | ovw | acc | ring | arr
  deriving DecidableEq, Repr

/-- The size word (R162). -/
structure MmaSize where
  m : Nat
  n : Nat
  kb : Nat
  fmt : Fmt
  acc : Bool

/-- R162: whether a form takes a number of K blocks. -/
def MmaForm.takes (f : MmaForm) (kb : Nat) : Bool :=
  match f with
  | .ovw | .acc => kb ≤ 1
  | .ring => kb == 0 || kb == 8
  | .arr => kb ≤ 8

/-- The format of a tile (R157). -/
def tileFmt (code : Nat) : Option Fmt :=
  match code with
  | 5 => some .e4m3 | 3 => some .bf16 | 4 => some .fp16 | _ => none

/-- R162: the size word of a form; `none` where it breaks a limit. -/
def mmaSize (f : MmaForm) (v : Nat) : Option MmaSize :=
  match tileFmt (fieldOf v 27 24) with
  | none => none
  | some t =>
    let z : MmaSize := { m := fieldOf v 6 0, n := fieldOf v 15 8, kb := fieldOf v 19 16, fmt := t, acc := v.testBit 28 }
    if !strayBits [(0, 7), (8, 8), (16, 4), (24, 4), (28, 1)] v && z.m ≤ 64 && z.n ≤ (if t = .e4m3 then 128 else 64) && f.takes z.kb
      && !(z.acc && (f == .ovw || f == .acc)) then some z else none

/-- The row stride of A (R163). -/
def aStride (t : Fmt) : Nat := if t = .e4m3 then 128 else 256

/-- The bytes of A and its scales that an instruction reads (R163). -/
def aBytes (t : Fmt) (m kb : Nat) : Nat :=
  if kb = 0 ∨ m = 0 then 0 else
  if t = .e4m3 then 8192 * kb + 256 * (kb - 1) + 4 * m else 16384 * (kb - 1) + 256 * m

/-- R163: the checks of the A address; answers its offset in the scratchpad. EINFO of SCRATCH_RANGE is the address of A, also where that lies
in the partition and a later byte does not (DESIGN CHOICE, log 55). -/
def checkA (c : CoreId) (va : DWord) (t : Fmt) (m kb : Nat) : M Nat := do
  let f := (slice va 42 6).toNat
  require (slice va 48 16 == (0xFFFE : HWord) && (f == 63 || f == clusterRank c)) .protect va
  require (va.toNat % 128 == 0) .misalign va
  let off := (slice va 0 42).toNat
  require (off + aBytes t m kb ≤ scratchSize (← theCore c)) .scratchRange va
  return off

/-- Row i of block k of A: its elements' bits, and whether a word of it is poisoned. -/
def aRow (s : State) (c : CoreId) (off : Nat) (t : Fmt) (k i : Nat) : Nat × Bool :=
  storeField s (sramKey c (off + 64 * aStride t * k + aStride t * i)) (aStride t)

/-- The scale word of row i in block k of A, with its poison (R163). -/
def aScale (s : State) (c : CoreId) (off kb k i : Nat) : Nat × Bool :=
  storeField s (sramKey c (off + 8192 * kb + 256 * k + 4 * i)) 4

/-- The address of A of the entry that the matrix stream runs (R163, R171). -/
def baseA (k : Core) : DWord :=
  match k.streams.mq with
  | [] => 0
  | e :: _ => match e.instr with
    | .mmaOvw _ rs1 _ _ | .mmaAcc _ rs1 _ _ | .mmaRing _ rs1 _ _ | .mmaArr _ rs1 _ _ | .mdarn _ rs1 _ _ => envS e.env rs1 + e.adj
    | _ => 0

/-- R381: the first poisoned word of the first `m` rows of block k of A and of their scales is the one that its consumption names. -/
def noteA (c : CoreId) (off : Nat) (t : Fmt) (m kb k : Nat) : M Unit := do
  let s ← get
  let first (o n : Nat) : Option Nat :=
    let p := psnLoad s.store.psn (sramKey c o / 4) (n / 4)
    if p = 0 then none else some (firstMarked (sramKey c o) n p)
  let row (i : Nat) : Option Nat :=
    (first (off + 64 * aStride t * k + aStride t * i) (aStride t)).or
      (if t = .e4m3 then first (off + 8192 * kb + 256 * k + 4 * i) 4 else none)
  match (List.range m).findSome? row with
  | some pa => noteWord c pa (baseA (getCore s c) + BitVec.ofNat 64 (pa - sramKey c off))
  | none => pure ()

/-- R81: a scale word that is poisoned or legal. -/
def scaleFine (v : Nat) (bad : Bool) : Bool := bad || scaleLegal (BitVec.ofNat 32 v)

/-! ### One block (R88, R169) -/

/-- Element B[e, j] of a tile (R157). -/
def tileElem (t : Fmt) (tile : Nat) (e j : Nat) : Val := fmtVal t (elemOf tile (fmtWidth t) (1024 / fmtWidth t * e + j))

/-- Whether a word of column j of a tile is poisoned. -/
def columnBad (t : Fmt) (psn : BitVec 4096) (j : Nat) : Bool :=
  (List.range 128).any fun e => bitAt psn (32 * e + fmtWidth t * j / 32)

/-- R88: the exact sum of the products of a row of values and column j of a tile. -/
def blockSum (row : List Val) (col : Nat → Val) : Val :=
  ((List.range 128).zip row).foldl (fun s p => s.add .rne (p.2.mul (col p.1))) Val.zero

/-- R88: what one block adds to an accumulator; `f` is the block's scale factor, `none` for BF16 and FP16. -/
def addBlock (acc : Nat) (sum : Val) (f : Option Nat) : Nat :=
  let dst := match f with
    | some f => rne32 (sum.mul (fp32.decode f))
    | none => rne32 sum
  rne32 ((fp32.decode acc).add .rne (fp32.decode dst))

/-- A row of A as values. -/
def aVals (t : Fmt) (bits : Nat) : List Val := (List.range 128).map fun e => fmtVal t (elemOf bits (fmtWidth t) e)

/-- R88: the scale factor of a row. -/
def blockFactor (sa sb : Nat) : Nat := rne32 ((fp32.decode sa).mul (fp32.decode sb))

/-- One element after a block: a poisoned operand or a poisoned accumulator gives the canonical NaN with its mark (R169, R178). That an `mma`
block with clean operands leaves a poisoned element poisoned is a DESIGN CHOICE (log 55). -/
def stepElem (bad : Bool) (acc : Res) (v : Nat) : Res := if bad || acc.bad then { val := fmtNaN .fp32, bad := true } else { val := v, bad := false }

/-- The accumulator that element (i, j) has before a block: +0.0 at a fresh start, else the hoop's element (R164). -/
def accOf (v : Hoop) (fresh : Bool) (i j : Nat) : Res := if fresh then { val := 0, bad := false } else { val := v.elem i j, bad := v.bad i j }

/-- R88, R164, R169: a hoop after block k of A and a tile. -/
def hoopBlock (s : State) (c : CoreId) (v : Hoop) (z : MmaSize) (off : Nat) (t : Latch) (k : Nat) (fresh : Bool) : Hoop :=
  v.putBlock z.m z.n fun i =>
    let (bits, bad) := aRow s c off z.fmt k i
    let (sa, bad') := if z.fmt = .e4m3 then aScale s c off z.kb k i else (0, false)
    let row := aVals z.fmt bits
    let f := if z.fmt = .e4m3 then some (blockFactor sa t.scale.toNat) else none
    fun j =>
      let a := accOf v fresh i j
      let col := fun e => tileElem z.fmt t.tile.toNat e j
      stepElem (bad || bad' || columnBad z.fmt t.psn j) a (addBlock a.val (blockSum row col) f)

/-- R81, R170: the scales of a block are legal. -/
def blockScalesOk (s : State) (c : CoreId) (z : MmaSize) (off : Nat) (t : Latch) (k : Nat) : Bool :=
  z.fmt != .e4m3 || (scaleLegal t.scale && (List.range z.m).all fun i =>
    let (v, bad) := aScale s c off z.kb k i
    scaleFine v bad)

/-- A block applied to the hoop, and counted (R339). -/
def applyBlock (c : CoreId) (h : BitVec 2) (z : MmaSize) (off : Nat) (t : Latch) (k : Nat) (fresh : Bool) : M Unit := do
  noteA c off z.fmt z.m z.kb k
  modify fun s => updCore s c fun q => countPerf (setHoop q h (hoopBlock s c (hoopOf q h) z off t k fresh)) 8 1

/-- R169, R371: an entry's PMASK bits once it has written the hoop. -/
def noteHoop (c : CoreId) (h : BitVec 2) (e : Entry) (z : MmaSize) : M Unit := do
  notePoison c e.ipc ((hoopOf (← theCore c) h).pmask z.m z.n)

/-- KIDX of a latch. -/
def kidxOf (t : Latch) : Nat := (slice t.hdr 8 3).toNat

/-- Whether a latch's tile has the format of a size word (R164). -/
def tileFits (t : Latch) (z : MmaSize) : Bool := tileFmt (t.hdr.toNat % 16) == some z.fmt

/-! ### The forms of `mma` (R164 to R170) -/

/-- A FORMAT of an entry that stays at the head; one that has started counts as not started again (R170). -/
def tileFormat (c : CoreId) (e : Entry) (b : Bool) : M Unit :=
  if b then pure () else if e.started then faultHeld c .format 0 else raise .format 0

/-- R165: the latch of a block: FULL, it is read; LOADING, the block starts on it, so that its entry is started (R180), and reads each row as
it arrives; EMPTY, the entry waits. `ok` is checked before anything is read. -/
def readLatch (c : CoreId) (e : Entry) (t : Latch) (ok : M Unit) (ends : Cause → DWord → M Unit) : M Unit := do
  match t.state with
  | .full => ok
  | .loading => do
    ok
    modCore c fun k => modMatrix k fun e => { e with started := true }
    waitHere
  | .empty => waitStarted c e tileLost ends

/-- `.ovw` and `.acc`: one block from a latch (R165). -/
def runMmaOne (c : CoreId) (e : Entry) (h : BitVec 2) (l : BitVec 1) (z : MmaSize) (off : Nat) (fresh : Bool) : M Unit := do
  let t := latchOf (← theCore c) l
  readLatch c e t (tileFormat c e (tileFits t z && blockScalesOk (← get) c z off t 0)) (faultEnds c)
  applyBlock c h z off t 0 fresh
  noteHoop c h e z

/-- R167: the hoop elements of a ring that has stopped are undefined (log 9). -/
def scrambleHoop (c : CoreId) (h : BitVec 2) (z : MmaSize) : M Unit := do
  let u ← freshUse
  modify fun s => { s with free := s.free + 8192 }
  modCore c fun k => setHoop k h ((hoopOf k h).putBlock z.m z.n fun i j => { val := (Config.freeWord (u + 128 * i + j)).toNat, bad := false })

/-- R167: a ring that cannot go on. -/
def ringStops (c : CoreId) (h : BitVec 2) (z : MmaSize) (e : Entry) (cause : Cause) (einfo : DWord) : M Unit := do
  scrambleHoop c h z
  if e.started then faultEnds c cause einfo else raise cause einfo

/-- R167: one step of `.ring`: the block of the tile in latch L XOR (t mod 2), then its hand-on. A tile of another format met after step 0 ends
the ring as an illegal scale does (DESIGN CHOICE, log 55). -/
def runMmaRing (c : CoreId) (e : Entry) (h : BitVec 2) (l : BitVec 1) (z : MmaSize) (off : Nat) (fresh : Bool) : M Unit := do
  let n := ringNeighbour (← theCore c) c
  if e.prog.step = 8 then noteHoop c h e z
  else if (← theCore n).fenced then ringStops c h z e .gangBroken (lostCore n)
  else if e.prog.waiting then waitStarted c e roomLost (ringStops c h z e)
  else
    let t := latchOf (← theCore c) (l ^^^ BitVec.ofNat 1 e.prog.step)
    readLatch c e t (if e.prog.step = 0 then tileFormat c e (tileFits t z) else pure ()) (ringStops c h z e)
    if !tileFits t z || !blockScalesOk (← get) c z off t (kidxOf t) then ringStops c h z e .format 0
    else do
      applyBlock c h z off t (kidxOf t) (fresh && e.prog.step == 0)
      modCore c fun k => modMatrix k fun e => { e with started := true, prog := { e.prog with applied := true, waiting := true } }
      waitHere

/-- R168: the latch that `.arr` takes next: by KIDX under FIXK, else the one that became FULL earlier, l0 on a tie. It takes FULL latches alone,
and has not started before it has taken one: it does not chain on a LOADING latch (DESIGN CHOICE, log 55). -/
def nextTile (k : Core) (l : BitVec 1) (fixk : Bool) (done : Nat) : Option (BitVec 1) :=
  let full := [l, ~~~l].filter fun i => (latchOf k i).state == .full
  if fixk then full.find? fun i => kidxOf (latchOf k i) == done
  else match full with
    | [a, b] =>
      let sa := (latchOf k a).stamp
      let sb := (latchOf k b).stamp
      some (if sa < sb then a else if sb < sa then b else 0)
    | l => l.head?

/-- R170: a fault of `.arr` before its tile is applied leaves the hoop and the latches as the entry found them, and the entry runs again from
its start: the tiles that it has taken are back in their latches, but where another has come meanwhile (log 52). -/
def arrUndone (c : CoreId) (h : BitVec 2) (e : Entry) : M Unit := do
  modCore c fun k =>
    let k := match e.began with
      | none => k
      | some (v, tiles) => tiles.foldl (fun k p => if (latchOf k p.1).state = .empty then setLatch k p.1 p.2 else k) (setHoop k h v)
    modMatrix k fun e => { e with prog := { e.prog with mask := 0 }, began := none }
  faultHeld c .format 0

/-- What an entry found, with one more tile taken from a latch. -/
def beganWith (k : Core) (h : BitVec 2) (e : Entry) (i : BitVec 1) : Hoop × List (BitVec 1 × Latch) :=
  let (v, tiles) := e.began.getD (hoopOf k h, [])
  (v, tiles ++ [(i, latchOf k i)])

/-- R168: `.arr` consumes tiles until KB blocks are applied; the mask of blocks stands in the entry. -/
def runMmaArr (c : CoreId) (h : BitVec 2) (l : BitVec 1) (z : MmaSize) (off : Nat) (fresh fixk : Bool) : Nat → M Unit
  | 0 => return ()
  | fuel + 1 => do
    let k ← theCore c
    let e := k.streams.mq.head?
    let mask := match e with | some e => e.prog.mask.toNat | none => 0
    let done := popCount 8 mask
    if z.kb ≤ done then return ()
    else
      match nextTile k l fixk done, e with
      | none, some e => waitStarted c e arrivalLost (faultEnds c)
      | some i, some e => do
        let t := latchOf k i
        let b := kidxOf t
        if z.kb ≤ b || mask.testBit b then faultHeld c .format (BitVec.ofNat 64 mask)
        else if !tileFits t z || !blockScalesOk (← get) c z off t b then arrUndone c h e
        else do
          applyBlock c h z off t b (fresh && mask == 0)
          modCore c fun q =>
            let taken (e : Entry) : Entry :=
              { e with started := true, prog := { e.prog with mask := putBit e.prog.mask b true }, began := some (beganWith k h e i) }
            setLatch (modMatrix q taken) i { t with state := .empty }
          runMmaArr c h l z off fresh fixk fuel
      | _, none => waitHere

/-- FIXK of the task: 0 in a handler (R168). -/
def fixkOf (k : Core) : Bool := match k.task with | some t => t.fixk && t.handler.isNone | none => false

/-- R164, R166: an `mma`. Where M, N or KB is 0 it reads nothing, and the address of A is not checked (DESIGN CHOICE, log 55). -/
def runMma (c : CoreId) (e : Entry) (f : MmaForm) (h : BitVec 2) (rs1 : BitVec 5) (l : BitVec 1) (rs2 : BitVec 5) : M Unit := do
  match mmaSize f (envS e.env rs2).toNat with
  | none => formatUnless false
  | some z =>
    let fresh := f == .ovw || (f != .acc && !z.acc)
    if z.m = 0 ∨ z.n = 0 then return ()
    else if z.kb = 0 then
      if fresh then modCore c fun k => setHoop k h ((hoopOf k h).putBlock z.m z.n fun _ _ => { val := 0, bad := false })
      else return ()
    else do
      let off ← checkA c (envS e.env rs1 + e.adj) z.fmt z.m z.kb
      match f with
      | .ovw | .acc => runMmaOne c e h l z off fresh
      | .ring => runMmaRing c e h l z off fresh
      | .arr => do
        runMmaArr c h l z off fresh (fixkOf (← theCore c)) 9
        noteHoop c h e z

/-- R159: a turn of the hand-on from a latch of a core. It starts where its entry waits for it, the neighbour runs a task of the gang and
the receiving latch is EMPTY, which is LOADING from then on; at the next turn the last row arrives. A core whose task its steward serves takes
the tile too, and the return then loads the saved latch over it (DESIGN CHOICE, log 55). -/
def handOn (s : State) (c : CoreId) (l : BitVec 1) : State :=
  let k := getCore s c
  match handOnOf k with
  | some (i, j) =>
    let n := ringNeighbour k c
    let d := getCore s n
    let t := latchOf k i
    if i ≠ l ∨ !sameGang k d ∨ d.fenced then s
    else if handsOn k then
      let land (v : Latch) : Latch := if v.state = .loading then { v with state := .full, stamp := s.time.toNat } else v
      updCore (updCore s n fun d => setLatch d j (land (latchOf d j))) c fun k =>
        modMatrix (setLatch k i { t with state := .empty }) fun e =>
          { e with prog := { e.prog with step := e.prog.step + 1, applied := false, waiting := false, moving := false } }
    else if (latchOf d j).state = .empty then
      updCore (updCore s n fun d => setLatch d j { t with state := .loading }) c fun k =>
        modMatrix k fun e => { e with started := true, prog := { e.prog with moving := true } }
    else s
  | none => s

/-! ### Hoops and memory (R175 to R177) -/

/-- R177: `hclr`. -/
def runHclr (c : CoreId) (h : BitVec 2) : M Unit := modCore c fun k => setHoop k h Hoop.zero

/-- R177: `hld`. -/
def runHld (c : CoreId) (h : BitVec 2) (va : DWord) : M Unit := do
  require (va.toNat % 128 == 0) .misalign va
  let _ ← probeRange c va 32768 .read
  let rows ← collect (List.range 64) fun i => readWords c (va + BitVec.ofNat 64 (512 * i)) 128
  modCore c fun k => setHoop k h
    { rows := Vector.ofFn fun i => BitVec.ofNat 4096 (packWords (rows.getD i.val []))
      psn := Vector.ofFn fun i => BitVec.ofNat 128 (wordMarks (rows.getD i.val [])) }

/-- R177: `hst`. -/
def runHst (c : CoreId) (h : BitVec 2) (va : DWord) : M Unit := do
  require (va.toNat % 128 == 0) .misalign va
  let _ ← probeRange c va 32768 .write
  let v := hoopOf (← theCore c) h
  eachOf (List.range 64) fun i =>
    writeWordsAt c (va + BitVec.ofNat 64 (512 * i)) ((List.range 128).map fun j => { val := v.elem i j, bad := v.bad i j })

/-- R175: whether an entry of the matrix queue writes a hoop. -/
def writesHoop (h : BitVec 2) (i : Instr) : Bool :=
  match i with
  | .mmaOvw g _ _ _ | .mmaAcc g _ _ _ | .mmaRing g _ _ _ | .mmaArr g _ _ _ | .mdarn g _ _ _ | .hclr g | .hld g _ | .mqpop g _ _
  | .mqpopAcc g _ _ => g == h
  | _ => false

/-- Whether a posting number stands before another (R349). -/
def postedBefore (a b : Word) : Bool := decide ((a - b).toNat ≥ 2 ^ 31)

/-- R175: the hoop element that `hmov` copies into element i. -/
def hmovElem (v : Hoop) (dir : HDir) (ix i : Nat) : Res :=
  let p := match dir with
    | .row => (ix % 64, 64 * (ix / 64) + i)
    | .col => (i, ix)
    | .dia => (i, (i + ix) % 128)
  { val := v.elem p.1 p.2, bad := v.bad p.1 p.2 }

/-- R175, R176: `hmov`; the plain form waits for the matrix entries before it that write the hoop. A peek reads every band of the hoop after one
and the same prefix of the matrix stream's writes (DESIGN CHOICE, log 55). -/
def runHmov (x : Vx) (seq : Word) (peek : Bool) (d : Opd) (h : BitVec 2) (dir : HDir) (ix : BitVec 7) : M Unit := do
  let k ← theCore x.c
  awaitThat (peek || !(k.streams.mq.any fun e => writesHoop h e.instr && postedBefore e.seq seq))
  let tag := plainTag .fp32
  checkDest k x d tag
  openDest x d
  let v := hoopOf (← theCore x.c) h
  let mask ← x.mask
  commitResult x d tag fun i =>
    if covered x.vl 32 i && active mask 32 i then
      let r := hmovElem v dir ix.toNat i
      some (resOf .fp32 r.bad r.val)
    else none

/-! ### Row queues (R178) -/

/-- R178: `mqpop` and `mqpop.acc`. -/
def runMqpop (c : CoreId) (e : Entry) (acc : Bool) (h : BitVec 2) (ix : BitVec 7) (q : BitVec 4) : M Unit := do
  let k ← theCore c
  let m := q.toNat - 8
  match k.queues.rq[m]?.getD [] with
  | [] => waitHere
  | r :: rest => do
    formatUnless (r.tag == plainTag .fp32)
    let i := ix.toNat % 64
    let lo := 64 * (ix.toNat / 64)
    let v := hoopOf k h
    let put (j : Nat) : Res :=
      let cell := elemOf r.bits.toNat 32 (j - lo)
      let bad := bitAt r.psn (j - lo)
      if acc then stepElem bad { val := 0, bad := v.bad i j } (rne32 ((fp32.decode (v.elem i j)).add .rne (fp32.decode cell)))
      else { val := cell, bad := bad }
    modCore c fun k => setHoop { k with queues := { k.queues with rq := k.queues.rq.setIfInBounds m rest } } h (v.putRow i lo 64 put)
    notePoison c e.ipc ((List.range 64).foldl (fun a j => if (put (lo + j)).bad then a ||| (1 <<< j) else a) 0)

/-- R178: `mqpush`. -/
def runMqpush (c : CoreId) (h : BitVec 2) (ix : BitVec 7) (q : BitVec 4) : M Unit := do
  let k ← theCore c
  awaitThat ((k.queues.rq[q.toNat - 8]?.getD []).length < 4)
  let i := ix.toNat % 64
  let lo := 64 * (ix.toNat / 64)
  let v := hoopOf k h
  let row : Row :=
    { bits := BitVec.ofNat 2048 (buildRow 32 (fun j => v.elem i (lo + j)) 64)
      psn := slice (v.psn[i]?.getD 0) lo 64, tag := plainTag .fp32 }
  modCore c fun k => pushRow k q.toNat row

/-! ### Drains (R179) -/

/-- R179: `hdrain` sends the hoop once, then waits for the target's acknowledgement. -/
def runHdrain (c : CoreId) (e : Entry) (h : BitVec 2) (rs1 rs2 : BitVec 5) : M Unit := do
  let w := envS e.env rs1
  let off := envS e.env rs2
  formatUnless (isRouteWord w)
  require (off.toNat % 128 == 0) .misalign off
  let k ← theCore c
  if e.prog.waiting then
    match (← get).hub.drains.find? fun d => d.src == c with
    | none => waitHere
    | some d =>
      match d.reply with
      | none => waitHere
      | some r => do
        modHub fun g => { g with drains := g.drains.filter fun d => d.src != c }
        if r = .done then return ()
        else do
          modCore c fun k => modMatrix k fun e => { e with started := false, prog := { e.prog with waiting := false } }
          reachCore c (routeDest w) w
          if r = .timedOut then modify fun s => report s (coreErr s c 9 true 0 0 d.seq.toNat 2) else pure ()
          raise (if r = .timedOut then .remoteTimeout else .protect) w
  else do
    reachCore c (routeDest w) w
    let d : DrainMsg := { src := c, dst := routeDest w, tag := slice w 16 12, off := off, h := h, ctx := ctxOf k, tenant := k.tregs.tenant
                          hoop := hoopOf k h, seq := k.pktSeq + 1, reply := none, way := Transit.first (← get).time }
    modHub fun g => { g with drains := g.drains ++ [d] }
    modCore c fun k =>
      modMatrix { k with pktSeq := k.pktSeq + 1 } fun e => { e with started := true, prog := { e.prog with waiting := true } }
    waitHere

end Sys2Proof.Machine
end

