-- ==== Sys2Proof/Machine/Lodge.lean ====
section
/-!
DEFINITION. Lodges: their descriptors and instructions (R306 to R312), and `mdarn` (R90, R91, R171 to R174).
-/

namespace Sys2Proof.Machine

/-! ### Descriptors (R306, R307) -/

/-- A core's copy of a descriptor of its task's context. -/
def lodgeOf (k : Core) (d : BitVec 4) : Option Lodge := k.tables.lodges.find? fun g => g.d == d && g.ctx == ctxOf k

/-- A core with a descriptor copy replaced. -/
def putLodge (k : Core) (g : Lodge) : Core :=
  { k with tables := { k.tables with lodges := g :: k.tables.lodges.filter fun x => !(x.d == g.d && x.ctx == g.ctx) } }

/-- A core without a descriptor copy. -/
def dropLodge (k : Core) (g : Lodge) : Core :=
  { k with tables := { k.tables with lodges := k.tables.lodges.filter fun x => !(x.d == g.d && x.ctx == g.ctx) } }

/-- The state of a descriptor as the core reads it (R307): CLOSED where it is not held. -/
def heldState (k : Core) (d : BitVec 4) : Nat := match lodgeOf k d with | some g => g.state.toNat | none => 0

/-- R306: an FP32 threshold that is finite and not negative. -/
def thresholdOk (v : Word) : Bool := !bitAt v 31 && (slice v 23 8).toNat != 255

/-- R306: the limits of the fields that software sets. -/
def lodgeLimits (g : Lodge) (k : Nat) : Bool :=
  g.area.toNat % 4096 == 0 && g.waddr.toNat % 128 == 0 && g.m.toNat ≤ 64 && k ≤ 1024 && k % 128 == 0
    && 1 ≤ g.rlim.toNat && g.rlim.toNat ≤ 64 && thresholdOk g.dthr

/-- A descriptor from an image, with the fields that `lopen` sets itself cleared (R308). -/
def lodgeFrom (c : HWord) (tenant : HWord) (d : BitVec 4) (v : Nat) : Lodge :=
  { ctx := c, d := d, name := BitVec.ofNat 64 v, area := BitVec.ofNat 64 (v >>> 64), waddr := BitVec.ofNat 64 (v >>> 128)
    m := BitVec.ofNat 7 (v >>> 192), k := BitVec.ofNat 11 (v >>> 208), wreg := BitVec.ofNat 8 (v >>> 224), rlim := BitVec.ofNat 7 (v >>> 232)
    state := 1, last := false, wver := 0, count := 0, dthr := BitVec.ofNat 32 (v >>> 320), drift := 0, tenant := tenant }

/-- The bits of an image that `lopen` accepts (R308). -/
def lodgeFields : List (Nat × Nat) := [(0, 64), (64, 64), (128, 64), (192, 7), (208, 11), (224, 8), (232, 7), (320, 32)]

/-! ### `lopen`, `lset`, `lclose`, `linval`, `lstat` (R308, R309) -/

/-- HOLDER of a descriptor's record in the table area. -/
def readHolder (s : State) (a : Nat) : State × Nat :=
  let (s, v, _) := hubLoad s (a + 48) 4
  (s, fieldOf v 27 16)

/-- R308: `lopen`. -/
def runLopen (c : CoreId) (d : BitVec 4) (va : DWord) : M Unit := do
  require (va.toNat % 64 == 0) .misalign va
  let v ← readImage c va 64
  let k ← theCore c
  let g := lodgeFrom (ctxOf k) k.tregs.tenant d v
  formatUnless (!strayBits lodgeFields v && lodgeLimits g g.k.toNat)
  let a := lodgeAddr (← get) (ctxOf k) d
  if a = 0 then modCore c fun k => putLodge k g
  else do
    reachHome c (lineOf a) va
    let h ← answer fun s => readHolder s a
    require (h == 0 || h == holderOf c) .queueFault 0
    modify fun s => hubStore s a 64 (g.image (holderOf c))
    modCore c fun k => putLodge k g

/-- R309: a field of a descriptor set from a value; `none` where the value or the whole breaks a limit. -/
def setLodgeField (g : Lodge) (f : BitVec 3) (v : DWord) : Option Lodge :=
  let n := v.toNat
  let fit (b : Bool) (g : Lodge) : Option Lodge := if b && lodgeLimits g g.k.toNat then some g else none
  match f.toNat with
  | 0 => fit true { g with name := v, state := 1 }
  | 1 => fit true { g with area := v, state := 1 }
  | 2 => fit true { g with waddr := v, state := 1 }
  | 3 => fit (n ≤ 64) { g with m := BitVec.ofNat 7 n, state := 1 }
  | 4 => fit (n ≤ 1024) { g with k := BitVec.ofNat 11 n, state := 1 }
  | 5 => fit (n < 256) { g with wreg := BitVec.ofNat 8 n, state := 1 }
  | 6 => fit (n ≤ 64) { g with rlim := BitVec.ofNat 7 n }
  | _ => fit (n < 2 ^ 32) { g with dthr := BitVec.ofNat 32 n }

/-- The descriptor that an instruction acts on; FORMAT where it reads as CLOSED (R309), as the numbers 16 to 31 do
(DESIGN CHOICE, log 55). -/
def needLodge (c : CoreId) (d : BitVec 5) : M Lodge := do
  let k ← theCore c
  match if d.toNat < 16 then lodgeOf k (d.setWidth 4) else none with
  | some g => if g.state = 0 then raise .format 0 else return g
  | none => raise .format 0

/-- R309: `lset`. -/
def runLset (c : CoreId) (d : BitVec 5) (f : BitVec 3) (v : DWord) : M Unit := do
  let g ← needLodge c d
  match setLodgeField g f v with
  | some g => modCore c fun k => putLodge k g
  | none => formatUnless false

/-- R309: `linval`. -/
def runLinval (c : CoreId) (d : BitVec 5) : M Unit := do
  let g ← needLodge c d
  modCore c fun k => putLodge k { g with state := 1 }

/-- The size of a lodge area (R310). -/
def lodgeBytes : Nat := 296960

/-- The lines of an area on the pages that are mapped. -/
def areaLines (s : State) (c : CoreId) (va : DWord) : List Nat :=
  let first := va.toNat / 65536
  let last := (va.toNat + lodgeBytes - 1) / 65536
  (List.range (last - first + 1)).flatMap fun i =>
    let p : DWord := if i = 0 then va else BitVec.ofNat 64 (65536 * (first + i))
    match peekPlace s c p with
    | some (pa, _) =>
      let n := min (65536 - p.toNat % 65536) (va.toNat + lodgeBytes - p.toNat)
      if aperture pa = 1 then [] else (List.range ((n + 127) / 128)).map fun j => lineOf pa + j
    | none => []

/-- R311, R312: whether a line that a core holds may hold bytes of a descriptor's area: it stands on a page of it, or `mdarn` has used it and
it stands on no page of another held descriptor's area, as where its page has been unmapped since. -/
def ofArea (s : State) (c : CoreId) (g : Lodge) (e : Nat × L1Line) : Bool :=
  (areaLines s c g.area).contains e.1 ||
    (e.2.lodge && !((getCore s c).tables.lodges.filter fun x => x.d != g.d || x.ctx != g.ctx).any fun x => (areaLines s c x.area).contains e.1)

/-- R312: the lines of an area pushed to their homes, which must take them (R375, R393), and those of the lodge partition dropped from it. It
completes when every push has been performed. -/
def pushArea (c : CoreId) (g : Lodge) : M Unit := do
  let s ← get
  let pushes := ((getCore s c).l1.filter (ofArea s c g)).map fun e => (c, if e.2.lodge then Push.evict e.1 else .line e.1)
  pushAll c pushes

/-- The record of a descriptor in the table area written, at a home that must take it (R393). -/
def writeLodge (c : CoreId) (g : Lodge) (image : Nat) (va : DWord) : M Unit := do
  let a := lodgeAddr (← get) g.ctx g.d
  if a = 0 then pure ()
  else do
    reachHome c (lineOf a) va
    modify fun s => hubStore s a 64 image

/-- R309, R312: `lclose`. EINFO of a record's home that is not ready is AREA, the one address that the instruction names. -/
def runLclose (c : CoreId) (d : BitVec 5) : M Unit := do
  let g ← needLodge c d
  pushArea c g
  writeLodge c g ({ g with state := 0 : Lodge }.image 0) g.area
  modCore c fun k => dropLodge k g

/-- R309: what `lstat` reads. -/
def lodgeStatus (k : Core) (d : BitVec 5) : DWord :=
  match if d.toNat < 16 then lodgeOf k (d.setWidth 4) else none with
  | some g => BitVec.ofNat 64 (packAt [(0, g.state.toNat), (2, if g.last then 1 else 0), (3, 1), (8, g.count.toNat), (32, g.drift.toNat)])
  | none => 0

/-! ### Darning arithmetic (R90, R91) -/

/-- What a block of a row gives on the darning path: the step's exponent, the quantised differences, and the largest residual. -/
structure DarnRow where
  sd : Val
  q : List Int
  res : Val

/-- A value with its sign removed from a difference of two finite values. -/
def Val.sub (a b : Val) : Val := a.add .rne b.neg

/-- R90: the power-of-two step of a block. -/
def darnStep (amax : Val) : Int :=
  match amax with
  | .fin _ m e => if m = 0 then 0 else max (-149) (ceilLog m e 0)
  | _ => 0

/-- R90: one block of a row, from the new values and the recorded ones. -/
def darnRow (new old : List Val) : DarnRow :=
  let d := (new.zip old).map fun p => Val.sub p.1 p.2
  let amax := d.foldl (fun a x => maxMag a x.abs) Val.zero
  let p := darnStep amax
  let q := d.map fun x => Val.toRange .rne (-7) 7 (scaleDown p x)
  let sd : Val := .fin false 1 p
  let res := (d.zip q).foldl (fun r x => maxMag r (Val.sub x.1 ((Val.ofInt x.2).mul sd)).abs) Val.zero
  { sd := sd, q := q, res := res }

/-- R91: the update of one element by a darned block. -/
def darnElem (acc : Nat) (r : DarnRow) (sb : Nat) (col : Nat → Val) : Nat :=
  if r.q.all (· == 0) then acc
  else addBlock acc (blockSum (r.q.map Val.ofInt) col) (some (rne32 (r.sd.mul (fp32.decode sb))))

/-! ### `mdarn` (R171 to R174) -/

/-- What `mdarn` reads before it decides: for each row i < M and block k, the elements of A_new, their scale and real values,
the recorded values, the bound D(i, k), and whether a word of A_new's block or its scale is poisoned, or one of A_ref's. -/
structure DarnBlock where
  raw : List Val
  scale : Nat
  new : List Val
  nan : Bool
  ref : List Res
  bound : Res
  badNew : Bool
  badRef : Bool

/-- R169, R174: whether a block counts as poisoned: a refresh does not read A_ref. -/
def DarnBlock.bad (b : DarnBlock) (refresh : Bool) : Bool := b.badNew || (!refresh && b.badRef)

/-- The address of A_ref (i, 128k) in an area (R310). -/
def refAddr (g : Lodge) (i k : Nat) : DWord := g.area + BitVec.ofNat 64 (4096 * i + 512 * k)

/-- The address of C_prev (i, 0). -/
def prevAddr (g : Lodge) (i : Nat) : DWord := g.area + BitVec.ofNat 64 (262144 + 512 * i)

/-- The address of D(i, k). -/
def boundAddr (g : Lodge) (i k : Nat) : DWord := g.area + BitVec.ofNat 64 (294912 + 32 * i + 4 * k)

/-- R310: whether a page may hold a lodge area. -/
def lodgePage (pg : Page) : Bool := pg.r && pg.w && pg.u && pg.mtype == 0 && pg.home == 0

/-- R174, R310: every page of the area probed. -/
def probeArea (c : CoreId) (g : Lodge) : M Unit :=
  eachOf (List.range ((g.area.toNat % 65536 + lodgeBytes + 65535) / 65536)) fun i => do
    let va : DWord := if i = 0 then g.area else BitVec.ofNat 64 ((g.area.toNat / 65536 + i) * 65536)
    match ← translate c va 1 .both with
    | .mem _ pg => require (lodgePage pg) .protect va
    | .sram .. => raise .protect va

/-- The block (i, k) of the new input and of the area. -/
def readDarnBlock (c : CoreId) (g : Lodge) (off i k : Nat) : M DarnBlock := do
  let s ← get
  let kb := g.k.toNat / 128
  let (bits, bad) := aRow s c off .e4m3 k i
  let (sa, bad') := aScale s c off kb k i
  let vs := aVals .e4m3 bits
  let ref ← readWords c (refAddr g i k) 128 true
  let bound ← readWords c (boundAddr g i k) 1 true
  return { raw := vs, scale := sa, new := vs.map fun v => v.mul (fp32.decode sa), nan := vs.any (· == .nan), ref := ref
           bound := bound.headD { val := 0, bad := false }, badNew := bad || bad', badRef := ref.any Res.bad }

/-- Whether a block's differences are all finite (R90). -/
def darnFinite (b : DarnBlock) : Bool :=
  ((b.new.zip b.ref).map fun p => Val.sub p.1 (fp32.decode p.2.val)).all fun v => match v with | .fin _ _ _ => true | _ => false

/-- R172: whether an invocation takes the refresh path, by the version V and the blocks. -/
def darnRefreshes (g : Lodge) (v : Word) (bs : List (List DarnBlock)) : Bool :=
  g.state == 1 || g.wver != v || g.rlim.toNat ≤ g.count.toNat || Val.lt (fp32.decode g.dthr.toNat) (fp32.decode g.drift.toNat)
    || bs.any fun r => r.any fun b => b.nan || !darnFinite b

/-- The darn of every block. -/
def darnRows (bs : List (List DarnBlock)) : List (List DarnRow) :=
  bs.map fun r => r.map fun b => darnRow b.new (b.ref.map fun x => fp32.decode x.val)

/-- R90, R173: A_ref of a block after an invocation; a poisoned block leaves canonical NaNs (R174; for one that only A_ref poisons, log 52). -/
def newRef (refresh : Bool) (b : DarnBlock) (r : DarnRow) : List Res :=
  if b.bad refresh then b.new.map fun _ => { val := fmtNaN .fp32, bad := false }
  else if refresh then b.new.map fun v => { val := rne32 v, bad := false }
  else ((b.ref.zip r.q).map fun p => { val := rne32 ((fp32.decode p.1.val).add .rne ((Val.ofInt p.2).mul r.sd)), bad := false })

/-- R90, R173: D(i, k) after an invocation. The poison of the word that held it, of a word of A_new or of a scale is not taken up: on the
darning path the bound is computed from their bits and written clean, and so is DRIFT (DESIGN CHOICE, log 55). -/
def newBound (refresh : Bool) (b : DarnBlock) (r : DarnRow) : Nat :=
  if refresh then 0 else fp32.encode .rup ((fp32.decode b.bound.val).add .rup r.res)

/-- R88, R91: one element after one block of an invocation. A darned block with a poisoned operand poisons the element also where its
differences are all zero (R169, R174), for which R91 leaves the element unchanged (DESIGN CHOICE, log 55). -/
def darnBlockElem (refresh : Bool) (t : Latch) (b : DarnBlock) (r : DarnRow) (j : Nat) (a : Res) : Res :=
  let col := fun e => tileElem .e4m3 t.tile.toNat e j
  let v := if refresh then addBlock a.val (blockSum b.raw col) (some (blockFactor b.scale t.scale.toNat)) else darnElem a.val r t.scale.toNat col
  stepElem (b.bad refresh || columnBad .e4m3 t.psn j) a v

/-- R173: element (i, j) after every block of an invocation, from its start value. -/
def darnAcc (refresh : Bool) (tiles : List Latch) (row : List DarnBlock) (dr : List DarnRow) (start : Res) (j : Nat) : Res :=
  (tiles.zip (row.zip dr)).foldl (fun a p => darnBlockElem refresh p.1 p.2.1 p.2.2 j a) start

/-- R307, R172: the descriptor that `mdarn` invokes. The PROTECT of another tenant's has no failing address: its EINFO is 0 (DESIGN CHOICE,
log 30). -/
def darnLodge (c : CoreId) (d : BitVec 4) : M Lodge := do
  let k ← theCore c
  match lodgeOf k d with
  | none => raise .format 0
  | some g => do
    require (g.state != 0) .format 0
    require (g.tenant == k.tregs.tenant) .protect 0
    formatUnless (g.m.toNat ≤ 64 && g.k.toNat ≤ 1024 && g.k.toNat % 128 == 0)
    return g

/-- The largest bound of a lodge (R90). -/
def largestBound (l : List Nat) : Word :=
  BitVec.ofNat 32 (l.foldl (fun a x => if Val.lt (fp32.decode a) (fp32.decode x) then x else a) 0)

/-- The core's copy of a region's version (R289, R294, log 13). -/
def versionOf (s : State) (c : CoreId) (g : Byte) : Word :=
  match (getCore s c).tables.versions.find g.toNat with
  | some v => v
  | none => ((s.hub.regs.regions.find g.toNat).map fun r => r.setWidth 32).getD 0

/-- R339: the blocks that an invocation applies, and the 16-element groups of the darned ones whose differences are all zero. -/
def darnCounts (refresh : Bool) (drs : List (List DarnRow)) : Nat × Nat :=
  let l := drs.flatten
  if refresh then (l.length, 0)
  else
    let applied := l.filter fun r => r.q.any (· != 0)
    (applied.length, (applied.map fun r => ((List.range 8).filter fun i => ((r.q.drop (16 * i)).take 16).all (· == 0)).length).sum)

/-- R173, R174: the writes of an invocation: the area, the hoop, the latch and the descriptor. -/
def commitDarn (c : CoreId) (e : Entry) (h : BitVec 2) (l : BitVec 1) (g : Lodge) (ver : Word) (refresh : Bool) (tiles : List Latch)
    (bs : List (List DarnBlock)) (prev : List (List Res)) : M Unit := do
  let drs := darnRows bs
  let rows := (prev.zip (bs.zip drs)).map fun p =>
    (List.range 128).map fun j => darnAcc refresh tiles p.2.1 p.2.2 (if refresh then { val := 0, bad := false } else p.1.getD j { val := 0, bad := false }) j
  let bounds := (bs.zip drs).map fun p => (p.1.zip p.2).map fun q => newBound refresh q.1 q.2
  eachOf ((List.range rows.length).zip rows) fun p => do
    writeWordsAt c (prevAddr g p.1) p.2 true
    eachOf ((List.range (g.k.toNat / 128)).zip ((bs.getD p.1 []).zip (drs.getD p.1 []))) fun q => do
      writeWordsAt c (refAddr g p.1 q.1) (newRef refresh q.2.1 q.2.2) true
      writeWordsAt c (boundAddr g p.1 q.1) [{ val := newBound refresh q.2.1 q.2.2, bad := false }] true
  let g' : Lodge :=
    if refresh then { g with drift := 0, count := 0, wver := ver, state := 2, last := true }
    else { g with drift := largestBound bounds.flatten, count := g.count + 1, last := false }
  modCore c fun k =>
    let k := setHoop k h ((hoopOf k h).putBlock g.m.toNat 128 fun i j => (rows.getD i []).getD j { val := 0, bad := false })
    let n := darnCounts refresh drs
    countPerf (countPerf (putLodge k g') 8 n.1) 9 n.2
  match tiles.getLast? with
  | some t => modify fun s => updCore s c fun k => setLatch k l { t with stamp := s.time.toNat }
  | none => pure ()
  notePoison c e.ipc ((hoopOf (← theCore c) h).pmask g.m.toNat 128)

/-- R171 to R174: `mdarn`. -/
def runMdarn (c : CoreId) (e : Entry) (h : BitVec 2) (rs1 : BitVec 5) (l : BitVec 1) (d : BitVec 4) : M Unit := do
  let g ← darnLodge c d
  if g.m = 0 then return ()
  else do
    let kb := g.k.toNat / 128
    let va := envS e.env rs1 + e.adj
    let off ← checkA c va .e4m3 g.m.toNat kb
    let s ← get
    formatUnless ((List.range g.m.toNat).all fun i => (List.range kb).all fun k =>
      let (v, bad) := aScale s c off kb k i
      scaleFine v bad)
    probeArea c g
    awaitThat (kb == 0 || (latchOf (← theCore c) l).state != .loading)
    let tileAddr := fun k : Nat => g.waddr + BitVec.ofNat 64 (16512 * k)
    eachOf (List.range kb) fun k => do
      let hdr ← probeTile c (tileAddr k)
      formatUnless (hdr % 16 == 5)
    let tiles ← collect (List.range kb) fun k => readTile c (tileAddr k)
    formatUnless (tiles.all fun t => scaleLegal t.scale)
    eachOf (List.range kb) (noteA c off .e4m3 g.m.toNat kb)
    let bs ← collect (List.range g.m.toNat) fun i => collect (List.range kb) fun k => readDarnBlock c g off i k
    let prev ← collect (List.range g.m.toNat) fun i => readWords c (prevAddr g i) 128 true
    let ver := versionOf (← get) c g.wreg
    commitDarn c e h l g ver (darnRefreshes g ver bs) tiles bs prev

end Sys2Proof.Machine
end

