-- ==== Sys2Proof/Machine/Fetch.lean ====
section
/-!
DEFINITION. Instruction fetch (R50 to R52): the halfwords at an address, read with the checks of R51, and what they decode to.
-/

namespace Sys2Proof.Machine

/-- One halfword fetched; a fault names its address (R51). -/
def fetchHalf (c : CoreId) (va : DWord) : M Nat := do
  require (slice va 48 16 != (0xFFFE : HWord)) .protect va
  let loc ← translate c va 2 .fetch
  return (← readLoc c loc 2 va).1

/-- The instruction word at an address and its length in bytes (R50). -/
def fetchWord (c : CoreId) (va : DWord) : M (Nat × Nat) := do
  let lo ← fetchHalf c va
  if lo % 2 = 0 then return (lo, 2)
  else
    let hi ← fetchHalf c (va + 2)
    return (lo + 65536 * hi, 4)

/-- The instruction at an address with its length and its word; `none` where the encoding is illegal (R73). -/
def fetchInstr (c : CoreId) (va : DWord) : M (Option Instr × Nat × Nat) := do
  let (w, n) ← fetchWord c va
  match decode (leBytes n w) with
  | .ok (i, _) => return (some i, n, w)
  | .error _ => return (none, n, w)

/-- R51, R150: `n` instructions in sequence from an address: their bytes. -/
def fetchBlock (c : CoreId) : Nat → DWord → M (List Byte)
  | 0, _ => return []
  | n + 1, va => do
    let (w, len) ← fetchWord c va
    let r ← fetchBlock c n (va + BitVec.ofNat 64 len)
    return leBytes len w ++ r

end Sys2Proof.Machine
end

