-- ==== Sys2Proof/Machine/VpBlock.lean ====
section
/-!
DEFINITION. VP blocks (R35, R74, R150 to R153).
-/

namespace Sys2Proof.Machine

/-! ### What a block allows (R151) -/

/-- An operand that a block allows: a row or a captured scalar. -/
def vpOperand : Opd → Bool
  | .row _ | .sreg _ => true
  | _ => false

/-- A V field that a block allows. -/
def vpPlace : Place → Bool
  | .row _ => true
  | _ => false

/-- R151: whether a block allows an instruction with its operands. -/
def vpAllows (i : Instr) : Bool :=
  match i with
  | .vaddV3 d a b | .vsubV3 d a b | .vmulV3 d a b | .vfmaV3 d a b | .vminV3 d a b | .vmaxV3 d a b | .vandV3 d a b | .vorV3 d a b
  | .vxorV3 d a b | .vshlV3 d a b | .vshrV3 d a b | .vsraV3 d a b | .vdiv d a b | .vsel d a b | .vaddSat d a b | .vsubSat d a b
  | .vmulSat d a b => vpOperand d && vpOperand a && vpOperand b
  | .vmovV3 d a | .vabsV3 d a | .vnegV3 d a | .vpopcV3 d a | .vsqrt d a | .vclz d a | .vnot d a => vpOperand d && vpOperand a
  | .vcvt d a t _ _ => vpOperand d && vpOperand a && fmtIs32 t
  | .vceq _ a b | .vcne _ a b | .vclt _ a b | .vcle _ a b => vpOperand a && vpOperand b
  | .vid d => vpOperand d
  | .vldx _ v _ _ | .vstx _ v _ _ | .vaadd _ v _ _ => vpPlace v
  | .kbool .. => true
  | _ => false

/-- The row that an instruction of a block writes, and the tag of its result where the sources decide it. -/
def vpWrites (k : Core) (i : Instr) : Option (BitVec 6 × HWord) :=
  let first (d : Opd) : HWord :=
    match rowsNamed (popSources i) with
    | r :: _ => (getRow k r).row.tag
    | [] => match d with
      | .row n => if (getRow k n).row.tag = 0 then plainTag .b32 else (getRow k n).row.tag
      | _ => plainTag .b32
  match i with
  | .vpopcV3 (.row n) _ => some (n, LaneOp.popc.resultTag (first (.row n)))
  | .vclz (.row n) _ => some (n, LaneOp.clz.resultTag (first (.row n)))
  | .vcvt (.row n) _ t _ _ => some (n, plainTag t)
  | .vid (.row n) => some (n, plainTag .idx32)
  | .vldx f (.row n) _ _ => some (n, plainTag f)
  | .vaddV3 (.row n) _ _ | .vsubV3 (.row n) _ _ | .vmulV3 (.row n) _ _ | .vfmaV3 (.row n) _ _ | .vminV3 (.row n) _ _
  | .vmaxV3 (.row n) _ _ | .vandV3 (.row n) _ _ | .vorV3 (.row n) _ _ | .vxorV3 (.row n) _ _ | .vshlV3 (.row n) _ _
  | .vshrV3 (.row n) _ _ | .vsraV3 (.row n) _ _ | .vdiv (.row n) _ _ | .vsel (.row n) _ _ | .vaddSat (.row n) _ _
  | .vsubSat (.row n) _ _ | .vmulSat (.row n) _ _ | .vmovV3 (.row n) _ | .vabsV3 (.row n) _ | .vnegV3 (.row n) _
  | .vsqrt (.row n) _ | .vnot (.row n) _ => some (n, first (.row n))
  | _ => none

/-- The rows whose cells an instruction of a block reads as data. -/
def vpReads (i : Instr) : List (BitVec 6) :=
  match i with
  | .vstx _ v _ _ | .vaadd _ v _ _ => rowsNamed [placeOpd v]
  | i => recipeReads i

/-- R151: the tag rules of a block. A `vldx` of FP64, for which no rule gives a VP's part, raises FORMAT also where its row carries FP64 or
NONE (DESIGN CHOICE, log 55). -/
def vpTagsOk (k : Core) (i : Instr) : Bool :=
  (vpReads i).all (fun r => tagIs32 (getRow k r).row.tag) &&
    match vpWrites k i with
    | some (n, t) => tagIs32 t && ((getRow k n).row.tag == 0 || (getRow k n).row.tag == t)
    | none => true

/-! ### Running a block (R150, R152, R153) -/

/-- A VP's instruction other than `vpb` and `vpend`. -/
def runVpInstr (c : CoreId) (e : Entry) (vp : Nat) (pc : DWord) (i : Instr) : M Unit := do
  formatUnless (vpTagsOk (← theCore c) i)
  let x : Vx := { vxOf c e [] with env := { e.env with vl := 64 }, ipc := pc, egdone := 0, only := some vp }
  (runVec x i).getD (pure ())
  modCore c fun k => modHead k fun e => { e with prog := { e.prog with step := 0 } }

/-- The block state of the head entry changed. -/
def modVp (k : Core) (f : VpState → VpState) : Core := modHead k fun e => { e with vp := e.vp.map f }

/-- A VP goes on at an address. -/
def setVpPc (c : CoreId) (vp : Nat) (pc : DWord) : M Unit :=
  modCore c fun k => modVp k fun v => { v with pcs := v.pcs.setIfInBounds vp pc }

/-- R339: whether an instruction of a block completes element groups: all but branches, compares and mask operations. -/
def groupWise (i : Instr) : Bool :=
  match i with
  | .vpb .. | .vpend | .kbool .. | .vceq .. | .vcne .. | .vclt .. | .vcle .. => false
  | _ => true

/-- One VP executes the instruction at its PC (R151, R152). -/
def stepVp (c : CoreId) (e : Entry) (pc : DWord) (i : Instr) (len : Nat) (vp : Nat) : M Unit := do
  let next := pc + BitVec.ofNat 64 len
  match i with
  | .vpend => modCore c fun k => modVp k fun v => { v with done := putBit v.done vp true }
  | .vpb kn off => do
    let k ← theCore c
    setVpPc c vp (if bitAt (getK k kn) vp then pc + sext64 off * 2 else next)
  | i => do
    require (vpAllows i) .illegalOp pc
    modCore c fun k => modVp k fun v => { v with busy := some vp }
    runVpInstr c e vp pc i
    modCore c fun k => dropAnswers k (streamKey k)
    setVpPc c vp next

/-- The instruction at a VP's PC: from the block image, or fetched from memory (R150); an illegal encoding raises ILLEGAL_OP
with EINFO its address (R74). One that starts at the image's last halfword and goes on past it is fetched whole from memory: the spec does
not say where its first halfword comes from (DESIGN CHOICE, log 51). -/
def vpFetch (c : CoreId) (v : VpState) (pc : DWord) : M (Instr × Nat) := do
  let off := (pc - v.base).toNat
  let own := v.image.drop off
  match if off < v.image.length then decode own else .error .truncated with
  | .ok (i, rest) => return (i, own.length - rest.length)
  | .error .truncated => do
    let (i, n, _) ← fetchInstr c pc
    match i with
    | some i => return (i, n)
    | none => raise .illegalOp pc
  | .error _ => raise .illegalOp pc

/-- The C2 form of a frame instruction as its V3 equivalent (R53). -/
def asV3 (i : Instr) : Instr :=
  let dOf (col : Bool) (n : BitVec 5) : Opd := if col then .col (n.setWidth 6) else .row (n.setWidth 6)
  let bOf (col : Bool) (n : BitVec 4) : Opd := if col then .col (n.setWidth 6) else .row (n.setWidth 6)
  match i with
  | .vaddC2 dc d bc b => .vaddV3 (dOf dc d) (dOf dc d) (bOf bc b)
  | .vsubC2 dc d bc b => .vsubV3 (dOf dc d) (dOf dc d) (bOf bc b)
  | .vmulC2 dc d bc b => .vmulV3 (dOf dc d) (dOf dc d) (bOf bc b)
  | .vfmaC2 dc d bc b => .vfmaV3 (dOf dc d) (dOf dc d) (bOf bc b)
  | .vminC2 dc d bc b => .vminV3 (dOf dc d) (dOf dc d) (bOf bc b)
  | .vmaxC2 dc d bc b => .vmaxV3 (dOf dc d) (dOf dc d) (bOf bc b)
  | .vandC2 dc d bc b => .vandV3 (dOf dc d) (dOf dc d) (bOf bc b)
  | .vorC2 dc d bc b => .vorV3 (dOf dc d) (dOf dc d) (bOf bc b)
  | .vxorC2 dc d bc b => .vxorV3 (dOf dc d) (dOf dc d) (bOf bc b)
  | .vshlC2 dc d bc b => .vshlV3 (dOf dc d) (dOf dc d) (bOf bc b)
  | .vshrC2 dc d bc b => .vshrV3 (dOf dc d) (dOf dc d) (bOf bc b)
  | .vsraC2 dc d bc b => .vsraV3 (dOf dc d) (dOf dc d) (bOf bc b)
  | .vmovC2 dc d bc b => .vmovV3 (dOf dc d) (bOf bc b)
  | .vabsC2 dc d bc b => .vabsV3 (dOf dc d) (bOf bc b)
  | .vnegC2 dc d bc b => .vnegV3 (dOf dc d) (bOf bc b)
  | .vpopcC2 dc d bc b => .vpopcV3 (dOf dc d) (bOf bc b)
  | i => i

/-- The VPs that have not finished. -/
def liveVps (v : VpState) : List Nat := (List.range 64).filter fun i => !bitAt v.done i

/-- The PC of a VP. -/
def vpPc (v : VpState) (i : Nat) : DWord := v.pcs[i]?.getD v.base

/-- R150: at its start a block marks the VPs that do not take part as finished. -/
def startBlock (c : CoreId) (e : Entry) : M Unit :=
  if e.started then return ()
  else modCore c fun k =>
    let on := (getK k e.env.ksel).toNat % 2 ^ e.env.vl.toNat
    modVp (modHead k fun e => { e with started := true }) fun v => { v with done := ~~~(BitVec.ofNat 64 on) }

/-- The VPs that execute next: those that share the PC of the lowest live VP (R35, R150), or where one of them has had to wait, that VP and
those after it (R224). -/
def nextVps (v : VpState) : List Nat :=
  match v.busy with
  | some j => (liveVps v).filter fun i => j ≤ i && vpPc v i == vpPc v j
  | none => match liveVps v with
    | [] => []
    | i :: r => (i :: r).filter fun j => vpPc v j == vpPc v i

/-- R35, R150: VPs execute one instruction; the entry waits for its next turn until every VP has finished. What they consume is recorded
with the instruction's address (R371), and makes POISON pending after it (R129). -/
def runBlock (c : CoreId) (e : Entry) : M Unit := do
  startBlock c e
  let some e := (← theCore c).streams.vq.head? | return ()
  let some v := e.vp | return ()
  match nextVps v with
  | [] => return ()
  | i :: r => do
    let pc := vpPc v i
    let (ins, len) ← vpFetch c v pc
    eachOf (i :: r) (stepVp c e pc (asV3 ins) len)
    modCore c fun k => modVp k fun v => { v with busy := none }
    if groupWise ins then modCore c fun k => countPerf k 3 ((List.range 8).filter fun g => (i :: r).any fun j => j / 8 == g).length else pure ()
    modify fun s => updCore (recordPoison s c Stream.vector.code pc) c fun k => pendPoison k .vector
    match (← theCore c).streams.vq.head? with
    | some e => awaitThat (match e.vp with | some v => (liveVps v).isEmpty | none => true)
    | none => return ()

end Sys2Proof.Machine
end

