-- ==== Sys2Proof/Machine/Streams.lean ====
section
/-!
DEFINITION. The vector and matrix streams (R32, R33): how an entry is posted, what the entry at the head of a queue does, the
order of a task's accesses across its streams (R156, R217, R230), releases and acquires that wait (R230, R231), and the repeat
sequencer (R260, R261).
-/

namespace Sys2Proof.Machine

/-! ### The bytes that posted entries access (R156, R217) -/

/-- Bytes that an entry may access: a run of bytes, a run of some core's scratchpad, or bytes that are not known before the entry
executes. -/
inductive Span where
  | any
  | bytes (va : DWord) (n : Nat)
  | sram (t : CoreId) (off : DWord) (n : Nat)
  deriving DecidableEq, Repr

/-- An address with the core's own scratchpad window under one name (R191). -/
def ownWindow (c : CoreId) (va : DWord) : DWord :=
  if slice va 48 16 = (0xFFFE : HWord) ∧ slice va 42 6 = (63 : BitVec 6) then splice va 42 (BitVec.ofNat 6 (clusterRank c)) else va

/-- The window of a core of the own cluster (R191). -/
def clusterWindow (t : CoreId) : DWord := (0xFFFE : BitVec 64) <<< 48 ||| BitVec.ofNat 64 (clusterRank t) <<< 42

/-- A span as the addresses that core `c` gives it: no window reaches another cluster, so such a run may stand anywhere (R191). -/
def Span.seenFrom (c : CoreId) : Span → Span
  | .any => .any
  | .bytes a n => .bytes (ownWindow c a) n
  | .sram t off n => if clusterOf t = clusterOf c then .bytes (clusterWindow t + off) n else .any

/-- Whether two spans share a byte. -/
def Span.meets (c : CoreId) (x y : Span) : Bool :=
  match x.seenFrom c, y.seenFrom c with
  | .bytes a n, .bytes b m => decide ((b - a).toNat < n) && decide (0 < m) || decide ((a - b).toNat < m) && decide (0 < n)
  | _, _ => true

/-- Whether two lists of spans share a byte. -/
def spansMeet (c : CoreId) (l r : List Span) : Bool := l.any fun a => r.any fun b => a.meets c b

/-! ### Where the bytes stand (R33, R189) -/

/-- Where bytes stand: a run of physical addresses of a memory type, or anywhere. -/
inductive Extent where
  | any
  | run (pa n mtype : Nat)
  deriving DecidableEq, Repr

/-- The memory type of an access as its order in the task goes by it (R189): a register of the hub's block counts as device, and an event
counter's COUNT, whose write releases every access before it (R336), as strongly ordered. -/
def accessType (pa : Nat) (pg : Page) : Nat :=
  if aperture pa = 2 then (if isCount (blockOff pa) then 3 else max 2 pg.mtype) else pg.mtype

/-- The pieces of a run of bytes, each within a page of 64 KiB. -/
def pagePieces : Nat → DWord → Nat → List (DWord × Nat)
  | 0, _, _ => []
  | fuel + 1, va, n =>
    if n = 0 then []
    else
      let k := min n (65536 - va.toNat % 65536)
      (va, k) :: pagePieces fuel (va + BitVec.ofNat 64 k) (n - k)

/-- Where a piece of a task's memory stands now; anywhere, where no translation says. -/
def pieceExtent (s : State) (c : CoreId) (p : DWord × Nat) : Extent :=
  if slice p.1 48 16 = (0xFFFE : HWord) then
    let f := (slice p.1 42 6).toNat
    .run (sramKey (if f = 63 then c else clusterMember c f) (slice p.1 0 42).toNat) p.2 0
  else
    match peekPlace s c p.1 with
    | some (pa, pg) => .run pa p.2 (accessType pa pg)
    | none => .any

/-- Where the bytes of a span stand. -/
def Span.extents (s : State) (c : CoreId) : Span → List Extent
  | .any => [.any]
  | .bytes va n => (pagePieces (n / 65536 + 2) va n).map (pieceExtent s c)
  | .sram t off n => [.run (sramKey t off.toNat) n 0]

/-- Whether two extents share a byte. -/
def Extent.meets : Extent → Extent → Bool
  | .run a n _, .run b m _ => decide (a < b + m) && decide (b < a + n)
  | _, _ => true

/-- R189, R209: whether an access keeps its place after an earlier one whatever their bytes are: two device accesses, and any access and
a strongly ordered one. An access whose place is not known may be one of these. -/
def Extent.follows : Extent → Extent → Bool
  | .run _ _ a, .run _ _ b => a == 3 || b == 3 || (decide (2 ≤ a) && decide (2 ≤ b))
  | .any, _ | .run .., .any => true

/-- Whether some two of two lists are related. -/
def anyTwo (r : Extent → Extent → Bool) (l m : List Extent) : Bool := l.any fun a => m.any fun b => r a b

/-- The covered elements of a strided access (R220); a store of format 0 takes its format from the tag when it executes. -/
def strideSpans (base step : DWord) (f : Fmt) (vl : Nat) : List Span :=
  let w := if f = .none then 8 else fmtWidth f
  let n := if f = .none then 8 else w / 8
  (List.range (32 * vl / w)).map fun e => .bytes (base + BitVec.ofNat 64 e * step) n

/-- The elements of a gather or a scatter by the index row as it stands, where it is resident and the format is known. -/
def indexSpans (k : Core) (base : DWord) (f : Fmt) (vl : Nat) (ix : BitVec 6) : List Span :=
  let r := getRow k ix
  if r.res = .gone ∨ f = .none then [.any]
  else
    (List.range vl).map fun e =>
      let a := indexElem base (r.row.tag == plainTag .int32) (fmtWidth f) (elemOf r.row.bits.toNat 32) e
      .bytes a.va (fmtWidth f / 8)

/-- The bytes of the conditional streams at the top of the scratchpad (R262). -/
def condSpan (k : Core) : Span :=
  let n := 16 * streamCells k
  .bytes ((0xFFFE : BitVec 64) <<< 48 ||| (63 : BitVec 64) <<< 42 ||| BitVec.ofNat 64 (scratchSize k - n)) n

/-- The bytes of A that an `mma` reads (R163). -/
def mmaSpan (f : MmaForm) (e : Entry) (rs1 rs2 : BitVec 5) : List Span :=
  match mmaSize f (envS e.env rs2).toNat with
  | some z => [.bytes (envS e.env rs1 + e.adj) (aBytes z.fmt z.m z.kb)]
  | none => []

/-- The format of a scatter (R220, R223): its field, or for the head of its queue the tag of V, where it is resident. -/
def scatterFmt (k : Core) (f : Fmt) (v : Place) : Fmt :=
  if f != .none then f
  else match placeOpd v with
    | .row n => if (getRow k n).res = .gone then .none else tagFmt (getRow k n).row.tag
    | _ => .b32

/-- The frame operands of an instruction of the vector queue: those that it reads, and those that it writes. -/
def frameOperands (i : Instr) : List Opd :=
  let p := placeOpd
  match i with
  | .vaddV3 d a b | .vsubV3 d a b | .vmulV3 d a b | .vfmaV3 d a b | .vminV3 d a b | .vmaxV3 d a b | .vandV3 d a b | .vorV3 d a b
  | .vxorV3 d a b | .vshlV3 d a b | .vshrV3 d a b | .vsraV3 d a b | .vdiv d a b | .vsel d a b | .vperm d a b | .vpack d a b | .vdot d a b
  | .vaddSat d a b | .vsubSat d a b | .vmulSat d a b | .vslup d a b | .vsldn d a b => [d, a, b]
  | .vceq _ a b | .vcne _ a b | .vclt _ a b | .vcle _ a b => [a, b]
  | .vmovV3 d a | .vabsV3 d a | .vnegV3 d a | .vpopcV3 d a | .vsqrt d a | .vclz d a | .vnot d a | .vcvt d a _ _ _ | .vredsum d a
  | .vredmin d a | .vredmax d a | .vredminx d a | .vredand d a | .vredor d a | .vredxor d a | .vunpk d a _ | .vqnt d a _ | .vdq d a => [d, a]
  | .vfmt d _ | .vclr d | .vid d => [d]
  | .vld _ v _ _ | .vldInt6 v _ _ _ | .vlds _ v _ _ | .vst _ v _ _ | .vstInt6 v _ _ _ | .vsts _ v _ _ | .hmov v _ _ _ | .hmovPeek v _ _ _
  | .spush _ v | .spop _ v => [p v]
  | .vldx _ v _ ix | .vstx _ v _ ix | .vaadd _ v _ ix => [p v, .row ix]
  | _ => []

/-- What the loads of a recipe read, and of those that its sources' pins run (R301, R303); an index row counts as unknown. -/
def recipeSpans (k : Core) : Nat → BitVec 512 → List Span
  | 0, _ => []
  | n + 1, p =>
    let e := recipeEnv p
    let b (r : BitVec 5) : DWord := envS e r
    ((recipeOf p).flatMap fun i => match i with
      | .vld _ _ rs1 off => [Span.bytes (b rs1 + off8 off) (4 * e.vl.toNat)]
      | .vldInt6 _ rs1 off _ => [.bytes (b rs1 + off8 off) (4 * e.vl.toNat + 1)]
      | .vlds f _ rs1 rs2 => strideSpans (b rs1) (envS e rs2) f e.vl.toNat
      | .vldx .. => [.any]
      | _ => [])
      ++ (recipeSources p).flatMap fun r => if pinValid (pinOf k r) then recipeSpans k n (pinOf k r) else []

/-- R303, R304: what the restitches of rows read, and of the pinned rows that a write of them cuts: for the head of its queue those that are
unpicked now, for others those that may be. -/
def restitchSpans (k : Core) (rows : List (BitVec 6)) (head : Bool) : List Span :=
  if k.files.pins.all fun p => !pinValid p then []
  else
    let rows := rows ++ rows.flatMap (dependants k)
    (rows.filter fun r => pinValid (pinOf k r) && (!head || (getRow k r).res == .gone)).flatMap fun r => recipeSpans k 3 (pinOf k r)

/-- What an entry reads and writes in memory by its own accesses; `head` says that it stands at the head of its queue, so that its index row
is settled. -/
def ownSpans (k : Core) (e : Entry) (head : Bool) : List Span × List Span :=
  let b (r : BitVec 5) : DWord := envS e.env r + e.adj
  let vl := e.env.vl.toNat
  let ixs (f : Fmt) (r : BitVec 5) (ix : BitVec 6) : List Span := if head then indexSpans k (b r) f vl ix else [.any]
  match e.instr with
  | .vld _ _ rs1 off => ([.bytes (b rs1 + off8 off) (4 * vl)], [])
  | .vldInt6 _ rs1 off _ => ([.bytes (b rs1 + off8 off) (4 * vl + 1)], [])
  | .vlds f _ rs1 rs2 => (strideSpans (b rs1) (envS e.env rs2) f vl, [])
  | .vst _ _ rs1 off => ([], [.bytes (b rs1 + off8 off) (4 * vl)])
  | .vstInt6 _ rs1 off _ => ([], [.bytes (b rs1 + off8 off) (4 * vl + 1)])
  | .vsts f _ rs1 rs2 => ([], strideSpans (b rs1) (envS e.env rs2) f vl)
  | .vldx f _ rs1 ix => (ixs f rs1 ix, [])
  | .vstx f v rs1 ix => ([], ixs (scatterFmt k f v) rs1 ix)
  | .vaadd _ _ rs1 ix => (ixs .fp32 rs1 ix, ixs .fp32 rs1 ix)
  | .vfb _ _ => ([.any], [.any])
  | .spush _ _ => ([], [condSpan k])
  | .spop _ _ => ([condSpan k], [])
  | .mmaOvw _ rs1 _ rs2 => (mmaSpan .ovw e rs1 rs2, [])
  | .mmaAcc _ rs1 _ rs2 => (mmaSpan .acc e rs1 rs2, [])
  | .mmaRing _ rs1 _ rs2 => (mmaSpan .ring e rs1 rs2, [])
  | .mmaArr _ rs1 _ rs2 => (mmaSpan .arr e rs1 rs2, [])
  | .mdarn .. => ([.any], [.any])
  | .hld _ rs1 => ([.bytes (b rs1) 32768], [])
  | .hst _ rs1 => ([], [.bytes (b rs1) 32768])
  | .hdrain _ rs1 rs2 => ([], [.sram (routeDest (envS e.env rs1)) (envS e.env rs2) 32768])
  | .mld _ rs1 => ([.bytes (b rs1) 16512], [])
  | .lopen _ rs1 => ([.bytes (b rs1) 64], [])
  | .pin .. => ([.any], [])
  | _ => ([], [])

/-- What an entry reads and writes in memory, the loads of restitches at their places in program order among the rest (R303). -/
def spansOf (k : Core) (e : Entry) (head : Bool) : List Span × List Span :=
  let t := ownSpans k e head
  (t.1 ++ restitchSpans k ((frameOperands e.instr).flatMap fun o => o.rows e.env.vl.toNat) head, t.2)

/-- Whether an entry reads memory, by a recipe's loads among the rest (R301). -/
def readsMemory (k : Core) (e : Entry) : Bool := !(spansOf k e false).1.isEmpty

/-- Whether an entry accesses memory. -/
def touchesMemory (k : Core) (e : Entry) : Bool := readsMemory k e || !(spansOf k e false).2.isEmpty

/-- The entries of both queues. -/
def queued (k : Core) : List Entry := k.streams.vq ++ k.streams.mq

/-- Whether an access must wait for an earlier entry: the entry writes, or for a write also reads, some of its bytes, under the same
addresses or others (R33, R217), or the memory types of the two keep them in order (R189). -/
def mustFollow (s : State) (c : CoreId) (reads writes : List Span) (e : Entry) : Bool :=
  let t := spansOf (getCore s c) e false
  spansMeet c reads t.2 || spansMeet c writes (t.1 ++ t.2) ||
    (let at' (l : List Span) := l.flatMap (Span.extents s c)
     let w := at' t.2
     let rw := at' t.1 ++ w
     anyTwo Extent.meets (at' reads) w || anyTwo Extent.meets (at' writes) rw || anyTwo Extent.follows (at' (reads ++ writes)) rw)

/-- Whether an access must wait for a queued entry that satisfies a test. -/
def conflicts (s : State) (c : CoreId) (p : Entry → Bool) (reads writes : List Span) : Bool :=
  ((queued (getCore s c)).filter p).any (mustFollow s c reads writes)

/-! ### Accesses of the control thread (R217, R230, R261) -/

/-- R261: an instruction that waits while the sequencer posts. -/
def notPosting (c : CoreId) : M Unit := do awaitThat (← theCore c).streams.rep.run.isNone

/-- R230, R261: an access of the control thread waits for the sequencer and for releases and acquires before it. -/
def memGate (c : CoreId) : M Unit := do
  notPosting c
  awaitThat (← theCore c).streams.deferred.isEmpty

/-- R217: control-thread reads wait for posted writes of their bytes. -/
def gateSpans (c : CoreId) (l : List Span) : M Unit := do
  memGate c
  awaitThat (!conflicts (← get) c (fun _ => true) l [])

/-- R217: a control-thread read waits for posted writes of its bytes. -/
def gateRead (c : CoreId) (va : DWord) (n : Nat) : M Unit := gateSpans c [.bytes va n]

/-- R156, R207: a control-thread write waits for posted reads and writes of its bytes. -/
def gateWrite (c : CoreId) (va : DWord) (n : Nat) : M Unit := do
  memGate c
  awaitThat (!conflicts (← get) c (fun _ => true) [] [.bytes va n])

/-- R230: every access that was posted is performed. -/
def gateAll (c : CoreId) : M Unit := do
  memGate c
  let k ← theCore c
  awaitThat (!(queued k).any (touchesMemory k))

/-- Every posted entry has completed (R100). -/
def gateIdle (c : CoreId) : M Unit := do
  notPosting c
  let k ← theCore c
  awaitThat (k.streams.vq.isEmpty && k.streams.mq.isEmpty)

/-! ### Releases, acquires and fences that wait (R230, R231) -/

/-- R231: a ticket of a wide `.sc` event: from the die's sub-sequencer, or from the hub (R323). -/
def takeTicket (s : State) (c : CoreId) (sc : Scope) : State :=
  match sc with
  | .task | .clu => s
  | .die =>
    let d := dieOf c
    modRegs s fun h => { h with dieTickets := h.dieTickets.put d ((h.dieTickets.find d).getD 0 + 1) }
  | .pkg | .sys => modRegs s fun h => { h with hubTicket := h.hubTicket + 1 }

/-- Whether an acquire of a core is not over: a push of the copies that it drops is not (R199, R377). -/
def acquireLeft (s : State) (c : CoreId) (sc : Scope) (r : Regions) : Bool := pushesLeft s c (acquirePushes s c sc r)

/-- A turn of a release, with what is left of it. -/
def releaseTurn (s : State) (c : CoreId) (sc : Scope) (r : Regions) (op : SyncOp) : State × Option SyncOp :=
  let t := release s c sc r
  (t, if releaseLeft t c sc r then some op else none)

/-- A turn of an acquire, with what is left of it. -/
def acquireTurn (s : State) (c : CoreId) (sc : Scope) (r : Regions) : State × Option SyncOp :=
  let t := acquire s c sc r
  (t, if acquireLeft t c sc r then some (.acq sc r) else none)

/-- A turn of a release, an acquire or a fence, with what is left of it (R199, R209, R230, R231): a fence takes its ticket, and acquires, once its
release is over. -/
def syncTurn (s : State) (c : CoreId) (op : SyncOp) : State × Option SyncOp :=
  match op with
  | .rel sc r => releaseTurn s c sc r op
  | .acq sc r => acquireTurn s c sc r
  | .fence sc .acq => acquireTurn s c sc allRegions
  | .fence sc .rel => releaseTurn s c sc allRegions op
  | .fence sc .ar =>
    match releaseTurn s c sc allRegions op with
    | (t, none) => acquireTurn t c sc allRegions
    | r => r
  | .fence sc .sc =>
    match releaseTurn s c sc allRegions op with
    | (t, none) => acquireTurn (takeTicket t c sc) c sc allRegions
    | r => r
  | .fence _ .rlx => (s, none)

/-- Whether an operation waits for the accesses before it. -/
def SyncOp.releases : SyncOp → Bool
  | .rel .. => true
  | .acq .. => false
  | .fence _ o => o != .acq

/-- Whether the oldest waiting operation may start: a release after every earlier access, an acquire after the earlier reads, which it
follows in program order (R211, R230). -/
def syncReady (k : Core) (d : Deferred) : Bool :=
  !(queued k).any fun e => postedBefore e.seq d.seq && (if d.op.releases then touchesMemory k e else readsMemory k e)

/-- The pushes that an operation makes (R199). -/
def SyncOp.pushes (s : State) (c : CoreId) : SyncOp → List (CoreId × Push)
  | .rel sc r => allPushes s c sc r
  | .acq sc r => acquirePushes s c sc r
  | .fence sc o =>
    (if o = .acq || o = .rlx then [] else allPushes s c sc allRegions) ++ if o = .rel || o = .rlx then [] else acquirePushes s c sc allRegions

/-- R389: the lines that a migration keeps an operation from pushing. -/
def syncHeld (s : State) (c : CoreId) (op : SyncOp) : List Nat :=
  ((pushTargets s (op.pushes s c)).filter fun e => e.2 == some .held).map Prod.fst

/-- A core with the operations that wait. -/
def setDeferred (s : State) (c : CoreId) (l : List Deferred) : State :=
  updCore s c fun k => { k with streams := { k.streams with deferred := l } }

/-- The waiting operations of a core that may start, in order; one of which something is left is not over (R376, R377). -/
def runDeferred : Nat → State → CoreId → State
  | 0, s, _ => s
  | n + 1, s, c =>
    let k := getCore s c
    match k.streams.deferred with
    | [] => s
    | d :: r =>
      if !syncReady k d then s
      else
        let held := syncHeld s c d.op
        if !held.isEmpty then held.foldl (fun s line => noteLate s line) s
        else
          match syncTurn s c d.op with
          | (s, some op) => setDeferred s c ({ d with op := op } :: r)
          | (s, none) => runDeferred n (setDeferred s c r) c

/-- A core with an operation behind those that wait. -/
def enqueueSync (k : Core) (op : SyncOp) : Core :=
  { k with streams := { k.streams with deferred := k.streams.deferred ++ [{ op := op, seq := k.streams.nextSeq }] } }

/-- An operation joins those that wait, or is performed at once where none waits and it may be; it waits on where a push of it does
(R376, R378). -/
def joinSync (s : State) (c : CoreId) (op : SyncOp) : State :=
  let k := getCore s c
  if k.streams.deferred.isEmpty && syncReady k { op := op, seq := k.streams.nextSeq } && (syncHeld s c op).isEmpty then
    match syncTurn s c op with
    | (t, none) => t
    | (t, some op) => updCore t c fun k => enqueueSync k op
  else
    let s := updCore s c fun k => enqueueSync k op
    runDeferred (getCore s c).streams.deferred.length s c

/-- R230: a release, an acquire or a fence commits; it is performed at once where it may be. Homes that take no push end it before that
(R375, R393); those of an operation that waits keep the bytes in the core, and a lost die is a cause of the task's. -/
def commitSync (c : CoreId) (op : SyncOp) : M Unit := do
  notPosting c
  let k ← theCore c
  if k.streams.deferred.isEmpty && syncReady k { op := op, seq := k.streams.nextSeq } then pushReady c (op.pushes (← get) c) else pure ()
  modify fun s => joinSync s c op

/-- R211: before an access that an acquire follows: its pushes find their homes ready (R375, R393). -/
def acquireReady (c : CoreId) (sc : Scope) (r : Regions) : M Unit := do pushReady c (acquirePushes (← get) c sc r)

/-- R209, R211: the acquire that follows an access of the control thread: it comes after the reads that were posted before it, and the task's
later accesses come after it. -/
def acquireAfter (c : CoreId) (sc : Scope) (r : Regions) : M Unit := modify fun s => joinSync s c (.acq sc r)

/-! ### What the head of a queue does -/

/-- R126, R32: an entry of the vector queue executes. -/
def vecBody (c : CoreId) (e : Entry) : M Unit := do
  let popped ← takePops c (popSources e.instr) e
  let x := vxOf c e popped
  match e.instr with
  | .vfb _ _ => runBlock c e
  | .pin n _ => runPin c n e
  | .unpick n => modCore c fun k => runUnpick k n
  | .hmov v h d ix => runHmov x e.seq false (placeOpd v) h d ix
  | .hmovPeek v h d ix => runHmov x e.seq true (placeOpd v) h d ix
  | .spush n v => runSpush x n (placeOpd v)
  | .spop n v => runSpop x n (placeOpd v)
  | .sflush n => modCore c fun k => runSflush k n
  | i => (runVec x i).getD (pure ())

/-- An entry of the matrix queue executes. -/
def matBody (c : CoreId) (e : Entry) : M Unit :=
  match e.instr with
  | .mmaOvw h rs1 l rs2 => runMma c e .ovw h rs1 l rs2
  | .mmaAcc h rs1 l rs2 => runMma c e .acc h rs1 l rs2
  | .mmaRing h rs1 l rs2 => runMma c e .ring h rs1 l rs2
  | .mmaArr h rs1 l rs2 => runMma c e .arr h rs1 l rs2
  | .mdarn h rs1 l d => runMdarn c e h rs1 l d
  | .hclr h => runHclr c h
  | .hld h rs1 => runHld c h (envS e.env rs1 + e.adj)
  | .hst h rs1 => runHst c h (envS e.env rs1 + e.adj)
  | .hdrain h rs1 rs2 => runHdrain c e h rs1 rs2
  | .mqpop h i q => runMqpop c e false h i q
  | .mqpopAcc h i q => runMqpop c e true h i q
  | .mqpush h i q => runMqpush c h i q
  | .mld l rs1 => runMld c l (envS e.env rs1 + e.adj)
  | .mpass _ => runMpass c e
  | .mwait l => runMwait c l
  | .lopen d rs1 => runLopen c d (envS e.env rs1)
  | .lset d f rs1 => runLset c d f (envS e.env rs1)
  | .lclose d => runLclose c d
  | .linval d => runLinval c d
  | _ => pure ()

/-- R175, R176: whether a queued `hmov` that was posted before an entry reads a hoop that the entry writes (log 43). -/
def hoopStillRead (k : Core) (e : Entry) : Bool :=
  k.streams.vq.any fun f =>
    match f.instr with
    | .hmov _ h _ _ | .hmovPeek _ h _ _ => writesHoop h e.instr && postedBefore f.seq e.seq
    | _ => false

/-- R156, R217, R230: an entry that accesses memory waits for conflicting entries that were posted before it to the other queue,
and for releases and acquires that committed before it. A matrix entry also leaves a hoop as it is until an earlier `hmov` has
read it. -/
def headMayRun (s : State) (c : CoreId) (e : Entry) : Bool :=
  let k := getCore s c
  let t := spansOf k e true
  !(touchesMemory k e && k.streams.deferred.any fun d => !postedBefore e.seq d.seq)
    && !conflicts s c (fun f => postedBefore f.seq e.seq) t.1 t.2
    && !hoopStillRead k e

/-- A trap of a stream at an entry: EPC is the control thread's stopping point (R349). DIE_LOST is asynchronous and names no entry (R344,
R352). -/
def streamTrap (k : Core) (st : Stream) (info : TrapInfo) (e : Entry) : TrapAt :=
  let async := info.cause == .dieLost
  { info := info, stream := st, async := async, epc := k.pc, ipc := if async then 0 else e.ipc, seq := if async then 0 else e.seq
    replay := if async then none else e.replay }

/-- The head of the vector queue leaves it. -/
def dropVector (k : Core) : Core := { k with streams := { k.streams with vq := k.streams.vq.drop 1 } }

/-- The head of the matrix queue leaves it. -/
def dropMatrix (k : Core) : Core := { k with streams := { k.streams with mq := k.streams.mq.drop 1 } }

/-- A core whose posted entry has had its turn. -/
def turnOver (k : Core) : Core := { k with doing := none }

/-- A posted entry ends, or stops at a trap: what it consumed is settled (R371), and no answer of a device read is kept for it. -/
def entryEnds (s : State) (c : CoreId) (st : Stream) (e : Entry) : State :=
  updCore (settlePoison s c st e.ipc) c fun k => dropReads (turnOver k) st.code

/-- The end of a turn of a queue's head: it completes, waits, or faults. One that ends by its trap leaves its queue (R226). -/
def endTurn (s : State) (c : CoreId) (st : Stream) (e : Entry) (drop : Core → Core) (r : EStateM.Result Stop State Unit) : State :=
  match r with
  | .ok _ s' => updCore (entryEnds s' c st e) c drop
  | .error (.trap t) s' =>
    let s' := updCore (entryEnds s' c st e) c fun k => if t.final then drop k else k
    stopAt s s' c (streamTrap (getCore s c) st t e)
  | .error _ s' => updCore s' c turnOver

/-- A core whose posted entry has its turn. -/
def turnOf (s : State) (c : CoreId) (st : Stream) (e : Entry) : State :=
  updCore s c fun k => { rewindReads k st.code with doing := some (st, e.ipc) }

/-- The entry at the head of the vector queue executes, where it may. -/
def runVectorHead (s : State) (c : CoreId) : State :=
  let k := getCore s c
  match k.streams.vq with
  | [] => s
  | e :: _ => if headMayRun s c e then endTurn s c .vector e dropVector (vecBody c e (turnOf s c .vector e)) else s

/-- The entry at the head of the matrix queue executes, where it may. -/
def runMatrixHead (s : State) (c : CoreId) : State :=
  let k := getCore s c
  match k.streams.mq with
  | [] => s
  | e :: _ => if headMayRun s c e then endTurn s c .matrix e dropMatrix (matBody c e (turnOf s c .matrix e)) else s

/-! ### Posting (R32, R109, R349) -/

/-- What the control thread captures now. -/
def captureOf (k : Core) : Env :=
  { vl := k.tregs.vl, ksel := k.tregs.ksel, rnd := k.tregs.rnd, prot := k.tregs.prot, s := k.files.s }

/-- No progress. -/
def Progress.none : Progress := { step := 0, applied := false, mask := 0, waiting := false, moving := false }

/-- A new entry of the control thread. -/
def newEntry (k : Core) (i : Instr) : Entry :=
  { instr := i, env := captureOf k, adj := 0, ipc := k.pc, seq := k.streams.nextSeq, egdone := 0, popped := [], image := 0, vp := none
    prog := Progress.none, replay := none, started := false, began := none }

/-- The depths of the issue queues (R32). -/
def vectorDepth : Nat := 128
/-- The depth of the matrix queue (R32). -/
def matrixDepth : Nat := 64

/-- An entry put into the vector queue. -/
def enqueueVector (k : Core) (e : Entry) : Core :=
  { k with streams := { k.streams with vq := k.streams.vq ++ [e], nextSeq := k.streams.nextSeq + 1 } }

/-- An entry put into the matrix queue. -/
def enqueueMatrix (k : Core) (e : Entry) : Core :=
  { k with streams := { k.streams with mq := k.streams.mq ++ [e], nextSeq := k.streams.nextSeq + 1 } }

/-- A posted entry that finds its queue empty executes at once, unless the stream is lazy (log 7). -/
def eagerVector (s : State) (c : CoreId) : State :=
  let z := (getCore s c).streams
  if z.vq.length = 1 ∧ !z.lazyV then runVectorHead s c else s

/-- The same for the matrix queue. -/
def eagerMatrix (s : State) (c : CoreId) : State :=
  let z := (getCore s c).streams
  if z.mq.length = 1 ∧ !z.lazyM then runMatrixHead s c else s

/-- What follows the commit of a control-thread instruction. -/
def andThen (o : Out) (f : State → State) : Out :=
  match o with
  | .next s => .next (f s)
  | o => o

/-- The end of a posting instruction: on commit the stream may run its entry. -/
def finishPost (s : State) (len : Nat) (eager : State → CoreId → State) (r : EStateM.Result Stop State Unit) : Out :=
  match r with
  | .ok _ s' => .next (eager (updCore s' s'.cur fun k => retire k len) s'.cur)
  | r => finish s (fun k => k) r

/-- R32: an instruction of `len` bytes posted to the vector queue; `entry` checks it and makes its entry. An operand that the
decoder would not give raises ILLEGAL_OP (R55, R73). -/
def postVector (i : Instr) (len : Nat) (entry : CoreId → M Entry) (s : State) : Out :=
  if !i.wellFormed then trapNow s .illegalOp (encodingOf i)
  else
    finishPost s len eagerVector <| (do
      let c := s.cur
      notPosting c
      let e ← entry c
      awaitThat ((← theCore c).streams.vq.length < vectorDepth)
      modCore c fun k => enqueueVector k e : M Unit) s

/-- R32: an instruction of 4 bytes posted to the matrix queue, after its own checks. -/
def postMatrix (i : Instr) (check : CoreId → M Unit) (s : State) : Out :=
  if !i.wellFormed then trapNow s .illegalOp (encodingOf i)
  else
    finishPost s 4 eagerMatrix <| (do
      let c := s.cur
      notPosting c
      check c
      awaitThat ((← theCore c).streams.mq.length < matrixDepth)
      modCore c fun k => enqueueMatrix k (newEntry k i) : M Unit) s

/-- R32: a frame instruction or a vector access of 4 bytes. -/
def post4 (i : Instr) (s : State) : Out := postVector i 4 (fun c => return newEntry (← theCore c) i) s

/-- R53: a C2 instruction, posted as its V3 equivalent. -/
def post2 (i : Instr) (s : State) : Out := postVector (asV3 i) 2 (fun c => return newEntry (← theCore c) (asV3 i)) s

/-- A matrix instruction that has no check of its own. -/
def postM (i : Instr) (s : State) : Out := postMatrix i (fun _ => pure ()) s

/-! ### The repeat sequencer (R260, R261) -/

/-- An operand with its index moved, modulo 64 (R260). -/
def Opd.stagger (o : BitVec 6) : Opd → Opd
  | .row n => .row (n + o)
  | .col n => .col (n + o)
  | .dia n => .dia (n + o)
  | p => p

/-- A V field with its index moved. -/
def Place.stagger (o : BitVec 6) : Place → Place
  | .row n => .row (n + o)
  | .col n => .col (n + o)
  | .dia n => .dia (n + o)

/-- R260: an instruction of the buffer with every operand field that names a row, a column or a diagonal moved. -/
def stagger (o : BitVec 6) (i : Instr) : Instr :=
  let f := Opd.stagger o
  let p := Place.stagger o
  match i with
  | .vaddV3 d a b => .vaddV3 (f d) (f a) (f b)
  | .vsubV3 d a b => .vsubV3 (f d) (f a) (f b)
  | .vmulV3 d a b => .vmulV3 (f d) (f a) (f b)
  | .vfmaV3 d a b => .vfmaV3 (f d) (f a) (f b)
  | .vminV3 d a b => .vminV3 (f d) (f a) (f b)
  | .vmaxV3 d a b => .vmaxV3 (f d) (f a) (f b)
  | .vandV3 d a b => .vandV3 (f d) (f a) (f b)
  | .vorV3 d a b => .vorV3 (f d) (f a) (f b)
  | .vxorV3 d a b => .vxorV3 (f d) (f a) (f b)
  | .vshlV3 d a b => .vshlV3 (f d) (f a) (f b)
  | .vshrV3 d a b => .vshrV3 (f d) (f a) (f b)
  | .vsraV3 d a b => .vsraV3 (f d) (f a) (f b)
  | .vmovV3 d a => .vmovV3 (f d) (f a)
  | .vabsV3 d a => .vabsV3 (f d) (f a)
  | .vnegV3 d a => .vnegV3 (f d) (f a)
  | .vpopcV3 d a => .vpopcV3 (f d) (f a)
  | .vdiv d a b => .vdiv (f d) (f a) (f b)
  | .vsqrt d a => .vsqrt (f d) (f a)
  | .vclz d a => .vclz (f d) (f a)
  | .vnot d a => .vnot (f d) (f a)
  | .vcvt d a t rz sat => .vcvt (f d) (f a) t rz sat
  | .vfmt d a => .vfmt (f d) a
  | .vclr d => .vclr (f d)
  | .vsel d a b => .vsel (f d) (f a) (f b)
  | .vceq k a b => .vceq k (f a) (f b)
  | .vcne k a b => .vcne k (f a) (f b)
  | .vclt k a b => .vclt k (f a) (f b)
  | .vcle k a b => .vcle k (f a) (f b)
  | .vid d => .vid (f d)
  | .vredsum d a => .vredsum (f d) (f a)
  | .vredmin d a => .vredmin (f d) (f a)
  | .vredmax d a => .vredmax (f d) (f a)
  | .vredminx d a => .vredminx (f d) (f a)
  | .vredand d a => .vredand (f d) (f a)
  | .vredor d a => .vredor (f d) (f a)
  | .vredxor d a => .vredxor (f d) (f a)
  | .vslup d a b => .vslup (f d) (f a) b
  | .vsldn d a b => .vsldn (f d) (f a) b
  | .vperm d a b => .vperm (f d) (f a) (f b)
  | .vpack d a b => .vpack (f d) (f a) (f b)
  | .vunpk d a q => .vunpk (f d) (f a) q
  | .vdot d a b => .vdot (f d) (f a) (f b)
  | .vqnt d a s => .vqnt (f d) (f a) s
  | .vdq d a => .vdq (f d) (f a)
  | .vaddSat d a b => .vaddSat (f d) (f a) (f b)
  | .vsubSat d a b => .vsubSat (f d) (f a) (f b)
  | .vmulSat d a b => .vmulSat (f d) (f a) (f b)
  | .vld t v rs1 off => .vld t (p v) rs1 off
  | .vldInt6 v rs1 off b => .vldInt6 (p v) rs1 off b
  | .vlds t v rs1 rs2 => .vlds t (p v) rs1 rs2
  | .vst t v rs1 off => .vst t (p v) rs1 off
  | .vstInt6 v rs1 off b => .vstInt6 (p v) rs1 off b
  | .vsts t v rs1 rs2 => .vsts t (p v) rs1 rs2
  | .vldx t v rs1 ix => .vldx t (p v) rs1 (ix + o)
  | .vstx t v rs1 ix => .vstx t (p v) rs1 (ix + o)
  | .vaadd sc v rs1 ix => .vaadd sc (p v) rs1 (ix + o)
  | .hmov v h d ix => .hmov (p v) h d ix
  | .hmovPeek v h d ix => .hmovPeek (p v) h d ix
  | .spush n v => .spush n (p v)
  | .spop n v => .spop n (p v)
  | i => i

/-- Whether an instruction of the buffer goes to the matrix queue. -/
def goesToMatrix (w : Nat) : Bool :=
  w % 4 = 1 && (match w / 4 % 32 with
    | 15 | 17 => true
    | 16 => minor3 w != 0
    | _ => false)

/-- The iteration of a level. -/
def iterAt (r : RepeatRun) (l : Nat) : Nat := (r.iter[l]?.getD 0).toNat

/-- COUNT of a level. -/
def levelCount (b : RepeatBuf) (l : Nat) : Nat := (b.levels[l]?.map fun v => v.count.toNat).getD 0

/-- R260: whether FIRST or LAST leaves an instruction out of a pass. -/
def skipped (b : RepeatBuf) (r : RepeatRun) (f : Byte) : Bool :=
  let l := flagLevel f
  (bitAt f 3 && iterAt r l != 0) || (bitAt f 4 && iterAt r l != max (levelCount b l) 1 - 1)

/-- o of R260, modulo 64. -/
def operandOffset (b : RepeatBuf) (r : RepeatRun) : BitVec 6 :=
  (List.range 6).foldl (fun a l => a + (b.levels[l]?.map RepeatLevel.os).getD 0 * BitVec.ofNat 6 (iterAt r l)) 0

/-- a of R260. -/
def addressOffset (b : RepeatBuf) (r : RepeatRun) : DWord :=
  (List.range 6).foldl (fun a l => a + sext64 ((b.levels[l]?.map RepeatLevel.as).getD 0) * BitVec.ofNat 64 (iterAt r l)) 0

/-- The next iteration vector, level 0 innermost; `none` after the last. -/
def nextIter (b : RepeatBuf) (iter : Vector Word 6) : Nat → Nat → Option (Vector Word 6)
  | 0, _ => none
  | n + 1, l =>
    let i := (iter[l]?.getD 0).toNat
    if i + 1 < levelCount b l then some (iter.setIfInBounds l (BitVec.ofNat 32 (i + 1)))
    else nextIter b (iter.setIfInBounds l 0) n (l + 1)

/-- The replay entry of a position. -/
def replayEntry (k : Core) (b : RepeatBuf) (r : RepeatRun) (i : RepeatInstr) : Entry :=
  let ins := asV3 i.instr
  { newEntry k (if bitAt i.flags 5 then stagger (operandOffset b r) ins else ins) with
    env := r.env, adj := if bitAt i.flags 6 then addressOffset b r else 0, ipc := r.ipc, replay := some { j := r.j, iter := r.iter } }

/-- The sequencer's state replaced. -/
def setRun (k : Core) (r : Option RepeatRun) : Core := { k with streams := { k.streams with rep := { k.streams.rep with run := r } } }

/-- The pass is over: the next one starts, unless it was the last or `lstop` has asked for an end (R261). -/
def nextPass (k : Core) (r : RepeatRun) : Core :=
  if r.stop then setRun k none
  else match nextIter k.streams.rep r.iter 6 0 with
    | some v => setRun k (some { r with iter := v, j := 0 })
    | none => setRun k none

/-- The position after one that was posted or left out. -/
def nextPosition (k : Core) (r : RepeatRun) : Core :=
  let r := { r with j := r.j + 1 }
  if k.streams.rep.body.length ≤ r.j then nextPass k r else setRun k (some r)

/-- R260: one position of the sequencer of a core: its instruction is posted where there is room, or left out. -/
def sequencerStep (s : State) (c : CoreId) : State :=
  let k := getCore s c
  let b := k.streams.rep
  match b.run with
  | none => s
  | some r =>
    match b.body[r.j]? with
    | none => setCore s c (nextPass k r)
    | some i =>
      if skipped b r i.flags then setCore s c (nextPosition k r)
      else
        let e := replayEntry k b r i
        if goesToMatrix i.word.toNat then
          if k.streams.mq.length < matrixDepth then eagerMatrix (setCore s c (nextPosition (enqueueMatrix k e) r)) c else s
        else if k.streams.vq.length < vectorDepth then eagerVector (setCore s c (nextPosition (enqueueVector k e) r)) c
        else s

end Sys2Proof.Machine
end

