-- ==== Sys2Proof/Machine/MemInstr.lean ====
section
/-!
DEFINITION. The memory instructions of the control thread (R216 to R219, R227 to R237): scalar loads and stores, atomics,
acquires, releases and fences, ownership, drains, prefetches, locks and transactions.
-/

namespace Sys2Proof.Machine

/-- ILLEGAL_OP for operands that no encoding gives (R73), else the meaning. -/
def checked (i : Instr) (m : State → Out) (s : State) : Out := if i.wellFormed then m s else trapNow s .illegalOp (encodingOf i)

/-! ### Scalar loads and stores (R219) -/

/-- The effective address of a scalar access. -/
def eaOf (k : Core) (rs1 : BitVec 5) (imm : BitVec 12) : DWord := getS k rs1 + sext64 imm

/-- A value of `n` bytes extended to a register. -/
def extendTo (signed : Bool) (n v : Nat) : DWord := if signed then BitVec.ofInt 64 (signedOf (8 * n) v) else BitVec.ofNat 64 v

/-- A scalar load. -/
def load (n : Nat) (signed : Bool) (rt rs1 : BitVec 5) (imm : BitVec 12) (s : State) : Out :=
  controlTo rt (fun c => do
    let va := eaOf (← theCore c) rs1 imm
    gateRead c va n
    return extendTo signed n (← loadScalar c va n)) s

/-- A scalar store. -/
def store (n : Nat) (rt rs1 : BitVec 5) (imm : BitVec 12) (s : State) : Out :=
  control (fun c => do
    let k ← theCore c
    let va := eaOf k rs1 imm
    gateWrite c va n
    storeScalar c va n (getS k rt)) s

/-- `ldb`. -/
def execLdb (rt rs1 : BitVec 5) (imm : BitVec 12) (s : State) : Out := load 1 true rt rs1 imm s
/-- `ldbu`. -/
def execLdbu (rt rs1 : BitVec 5) (imm : BitVec 12) (s : State) : Out := load 1 false rt rs1 imm s
/-- `ldh`. -/
def execLdh (rt rs1 : BitVec 5) (imm : BitVec 12) (s : State) : Out := load 2 true rt rs1 imm s
/-- `ldhu`. -/
def execLdhu (rt rs1 : BitVec 5) (imm : BitVec 12) (s : State) : Out := load 2 false rt rs1 imm s
/-- `ldw`. -/
def execLdw (rt rs1 : BitVec 5) (imm : BitVec 12) (s : State) : Out := load 4 true rt rs1 imm s
/-- `ldwu`. -/
def execLdwu (rt rs1 : BitVec 5) (imm : BitVec 12) (s : State) : Out := load 4 false rt rs1 imm s
/-- `ldd`. -/
def execLdd (rt rs1 : BitVec 5) (imm : BitVec 12) (s : State) : Out := load 8 false rt rs1 imm s
/-- `stb`. -/
def execStb (rt rs1 : BitVec 5) (imm : BitVec 12) (s : State) : Out := store 1 rt rs1 imm s
/-- `sth`. -/
def execSth (rt rs1 : BitVec 5) (imm : BitVec 12) (s : State) : Out := store 2 rt rs1 imm s
/-- `stw`. -/
def execStw (rt rs1 : BitVec 5) (imm : BitVec 12) (s : State) : Out := store 4 rt rs1 imm s
/-- `std`. -/
def execStd (rt rs1 : BitVec 5) (imm : BitVec 12) (s : State) : Out := store 8 rt rs1 imm s

/-! ### Scalar atomics (R227 to R229) -/

/-- R227: the value that an atomic writes, on words of `w` bits; `cmp` is what a compare expects. -/
def atomNew (op : AtomOp) (w old v cmp : Nat) : Nat :=
  match op with
  | .add => (old + v) % 2 ^ w
  | .min => if signedOf w v < signedOf w old then v else old
  | .max => if signedOf w old < signedOf w v then v else old
  | .minu => if v < old then v else old
  | .maxu => if old < v then v else old
  | .and => old &&& v
  | .or => old ||| v
  | .xor => old ^^^ v
  | .swp => v
  | .cas => if old = cmp then v else old

/-- R227: the value that an atomic returns. -/
def atomResult (op : AtomOp) (dw : Bool) (old : Nat) : DWord :=
  if dw then BitVec.ofNat 64 old else extendTo (!(op == .minu || op == .maxu)) 4 old

/-- R228: whether an atomic matches a declaration. -/
def atomMatches (op : AtomOp) (dw : Bool) (f : FoldOp) (t : Fmt) : Bool :=
  match op, f with
  | .add, .add => if dw then t == .fp64 else t == .int32 || t == .idx32 || t == .fp32
  | .min, .min | .max, .max => !dw && (t == .int32 || t == .fp32)
  | .minu, .min | .maxu, .max => !dw && t == .idx32
  | .and, .and | .or, .or | .xor, .xor => !dw && (t == .b32 || t == .int32)
  | _, _ => false

/-- R209: whether an order releases before the atomic. -/
def orderReleases : Order → Bool
  | .rel | .ar | .sc => true
  | .rlx | .acq => false

/-- R209: whether an order acquires after the atomic. -/
def orderAcquires : Order → Bool
  | .acq | .ar | .sc => true
  | .rlx | .rel => false

/-- What an order does before an atomic: its release, which bumps marked regions at any scope (R295), and the check of the homes that its
acquire pushes to. -/
def beforeAtomic (c : CoreId) (so : ScopeOrder) : M Unit := do
  if orderReleases so.order then do
    releaseNow c so.scope allRegions
    modify fun s => bumpMarks s c allRegions
    awaitThat (!bumpsLeft (← get) c allRegions)
  else pure ()
  if orderAcquires so.order then acquireReady c so.scope allRegions else pure ()

/-- The ticket of an `.sc` atomic, which a wide one takes once (R209, R231). -/
def ticketAtomic (c : CoreId) (so : ScopeOrder) : M Unit := if so.order = .sc then modify fun s => takeTicket s c so.scope else pure ()

/-- What an order does after an atomic: its acquire, which follows the reads that were posted before it (R209, R211). -/
def afterAtomic (c : CoreId) (so : ScopeOrder) : M Unit :=
  if orderAcquires so.order then acquireAfter c so.scope allRegions else pure ()

/-- The read-modify-write itself; a poisoned word raises POISON (R218). -/
def atomicRmw (c : CoreId) (loc : Loc) (so : ScopeOrder) (n : Nat) (va : DWord) (f : Nat → Nat) : M DWord := do
  let (old, bad) ← rmwAt c loc so.scope n va (cleanRmw f)
  if bad then raisePoison c (rmwPoisoned (← get) c loc so.scope n) va else return BitVec.ofNat 64 old

/-- R227 to R229: an atomic on `n` bytes; answers the old value, or the old partial. -/
def atomicAt (c : CoreId) (op : AtomOp) (dw : Bool) (so : ScopeOrder) (va : DWord) (v cmp : Nat) : M DWord := do
  let n := if dw then 8 else 4
  if orderReleases so.order then gateAll c else gateWrite c va n
  require (va.toNat % n == 0) .misalign va
  let loc ← translate c va n .both
  let k ← theCore c
  let f (old : Nat) : Nat := atomNew op (8 * n) old v cmp
  match loc, declared k loc with
  | .mem pa pg, some (fop, code, t) =>
    if atomMatches op dw fop t then do
      beforeAtomic c so
      ticketAtomic c so
      modify fun s => markWatched s c loc.region
      return BitVec.ofNat 64 (← addPartial c fop code t pa pg v)
    else rmwOp c va loc so.scope (beforeAtomic c so) (ticketAtomic c so) (atomicRmw c loc so n va f)
  | _, _ => rmwOp c va loc so.scope (beforeAtomic c so) (ticketAtomic c so) (atomicRmw c loc so n va f)

/-- An atomic instruction. -/
def atomic (op : AtomOp) (dw : Bool) (so : ScopeOrder) (rd : BitVec 5) (rs1 off : BitVec 3) (rs2 : BitVec 5) (s : State) : Out :=
  controlTo rd (fun c => do
    let k ← theCore c
    let va := getS k (rs1.setWidth 5) + off.setWidth 64 * 4
    let w := if dw then 64 else 32
    let old ← atomicAt c op dw so va ((getS k rs2).toNat % 2 ^ w) ((getS k rd).toNat % 2 ^ w)
    afterAtomic c so
    return atomResult op dw old.toNat) s

/-- `aadd`. -/
def execAadd (so : ScopeOrder) (rd : BitVec 5) (rs1 off : BitVec 3) (rs2 : BitVec 5) (s : State) : Out := atomic .add false so rd rs1 off rs2 s
/-- `amin`. -/
def execAmin (so : ScopeOrder) (rd : BitVec 5) (rs1 off : BitVec 3) (rs2 : BitVec 5) (s : State) : Out := atomic .min false so rd rs1 off rs2 s
/-- `amax`. -/
def execAmax (so : ScopeOrder) (rd : BitVec 5) (rs1 off : BitVec 3) (rs2 : BitVec 5) (s : State) : Out := atomic .max false so rd rs1 off rs2 s
/-- `aminu`. -/
def execAminu (so : ScopeOrder) (rd : BitVec 5) (rs1 off : BitVec 3) (rs2 : BitVec 5) (s : State) : Out := atomic .minu false so rd rs1 off rs2 s
/-- `amaxu`. -/
def execAmaxu (so : ScopeOrder) (rd : BitVec 5) (rs1 off : BitVec 3) (rs2 : BitVec 5) (s : State) : Out := atomic .maxu false so rd rs1 off rs2 s
/-- `aand`. -/
def execAand (so : ScopeOrder) (rd : BitVec 5) (rs1 off : BitVec 3) (rs2 : BitVec 5) (s : State) : Out := atomic .and false so rd rs1 off rs2 s
/-- `aor`. -/
def execAor (so : ScopeOrder) (rd : BitVec 5) (rs1 off : BitVec 3) (rs2 : BitVec 5) (s : State) : Out := atomic .or false so rd rs1 off rs2 s
/-- `axor`. -/
def execAxor (so : ScopeOrder) (rd : BitVec 5) (rs1 off : BitVec 3) (rs2 : BitVec 5) (s : State) : Out := atomic .xor false so rd rs1 off rs2 s
/-- `aswp`. -/
def execAswp (so : ScopeOrder) (rd : BitVec 5) (rs1 off : BitVec 3) (rs2 : BitVec 5) (s : State) : Out := atomic .swp false so rd rs1 off rs2 s
/-- `acas`. -/
def execAcas (so : ScopeOrder) (rd : BitVec 5) (rs1 off : BitVec 3) (rs2 : BitVec 5) (s : State) : Out := atomic .cas false so rd rs1 off rs2 s
/-- `aswp.dw`. -/
def execAswpDw (so : ScopeOrder) (rd : BitVec 5) (rs1 off : BitVec 3) (rs2 : BitVec 5) (s : State) : Out := atomic .swp true so rd rs1 off rs2 s
/-- `acas.dw`. -/
def execAcasDw (so : ScopeOrder) (rd : BitVec 5) (rs1 off : BitVec 3) (rs2 : BitVec 5) (s : State) : Out := atomic .cas true so rd rs1 off rs2 s
/-- `aadd.dw`. -/
def execAaddDw (so : ScopeOrder) (rd : BitVec 5) (rs1 off : BitVec 3) (rs2 : BitVec 5) (s : State) : Out := atomic .add true so rd rs1 off rs2 s

/-! ### Acquire, release and fence (R230, R231) -/

/-- The region set of an acquire or a release. -/
def regionSet (all : Bool) (g : Byte) : Regions := if all then allRegions else oneRegion g

/-- `acq`. -/
def execAcq (sc : Scope) (all : Bool) (g : BitVec 8) (s : State) : Out :=
  checked (.acq sc all g) (control fun c => commitSync c (.acq sc (regionSet all g))) s
/-- `rel`. -/
def execRel (sc : Scope) (all : Bool) (g : BitVec 8) (s : State) : Out :=
  checked (.rel sc all g) (control fun c => commitSync c (.rel sc (regionSet all g))) s
/-- `fence`. -/
def execFence (sc : Scope) (ord : Order) (s : State) : Out := checked (.fence sc ord) (control fun c => commitSync c (.fence sc ord)) s

/-! ### Ownership (R201, R232) -/

/-- Whether a core is registered as a line's owner. -/
def ownsLine (s : State) (c : CoreId) (line : Nat) : Bool := s.hub.owners.any fun e => e.1 == line && e.2 == c

/-- R197: the registrations that a slice keeps at most. -/
def ownQuota : Nat := 4096

/-- The registrations of the slice of a line, the oldest first. -/
def sliceOwners (s : State) (line : Nat) : List (Nat × CoreId) := s.hub.owners.filter fun e => sliceOf e.1 == sliceOf line

/-- R197: a slice whose registrations are full recalls its oldest one first, and the request waits for that push. -/
def roomForOwner (line : Nat) : M Unit := do
  modify fun s => if (sliceOwners s line).length < ownQuota then s else match sliceOwners s line with | e :: _ => recallLine s none e.1 | [] => s
  awaitThat ((sliceOwners (← get) line).length < ownQuota)

/-- R232: a core registered at the home of a line that no other core owns; the line takes a place in its L1, stale and OWNED. -/
def ownLine (s : State) (c : CoreId) (line : Nat) (pg : Page) : State :=
  updCore { s with hub := { s.hub with owners := s.hub.owners ++ [(line, c)] } } c fun k =>
    let l := (k.l1.find line).getD (L1Line.absent pg k.cregs.lease1 false)
    { k with l1 := k.l1.put line { l with stale := true, owned := true } }

/-- R232: a core registers at a line's home, which recalls another owner (R202); the copy of the core's cluster home goes to L2, and at
`.sys` the L2 copy of a host or peer line to its memory, so that the core's next read fills from there. -/
def ownHome (c : CoreId) (sc : Scope) (line : Nat) (pg : Page) (va : DWord) : M Unit := do
  recallFor c line
  dropHome c line
  roomForOwner line
  roomFor c line pg va
  if sc = .sys ∧ isForeign line then do
    modify fun s => spillL2 s line
    awaitThat ((← get).l2.find line).isNone
  else pure ()
  modify fun s => ownLine s c line pg

/-- What the push of `disown` carries reaches the line's L2 home (R232). -/
def pushOwn (s : State) (c : CoreId) (line : Nat) : State :=
  let p := (Push.line line).load s c
  updCore (applyL1 s c c line p) c fun k => cleanL1 k line p

/-- R232: a core's registration of a line removed; the copy comes under LEASE1 from now. -/
def disownLine (s : State) (c : CoreId) (line : Nat) : State :=
  if !ownsLine s c line then s
  else
    let s := { s with hub := { s.hub with owners := s.hub.owners.filter fun e => e.1 != line } }
    updCore s c fun k => match k.l1.find line with
      | some l => { k with l1 := k.l1.put line { l with owned := false, filled := s.time, lease := k.cregs.lease1 } }
      | none => k

/-- R232: a core's dirty bytes of a line pushed to its home, which recalls another owner (R202), and at `.sys` on to host or peer memory; then
its registration goes. -/
def disownHome (c : CoreId) (sc : Scope) (line : Nat) : M Unit := do
  if (Push.line line).sends (← get) c then recallFor c line else pure ()
  awaitThat (!homeOut (← get) c line)
  modify fun s => pushOwn s c line
  if sc = .sys ∧ isForeign line then do
    modify fun s => sendL2 s line false
    awaitThat (cleanL2 (← get) line)
  else pure ()
  modify fun s => disownLine s c line

/-- Whether `disown` has something to do at a line: the core owns it or holds dirty bytes of it. -/
def holdsLine (s : State) (c : CoreId) (line : Nat) : Bool :=
  ownsLine s c line || (match (getCore s c).l1.find line with | some l => l.dirty != 0 | none => false)

/-- The lines of a range in ascending order, each with an address in it. -/
def eachLine (f : DWord → M Unit) : Nat → DWord → M Unit
  | 0, _ => pure ()
  | n + 1, va => do
    f va
    eachLine f n ((va &&& ~~~(127 : DWord)) + 128)

/-- Whether a core still waits for the reply of an operation, which has taken effect or has not. -/
def opPending (k : Core) (key : DWord) : Bool := (remoteOf k).any fun r => !r.idem && r.key == key

/-- R232: one line of `own` or `disown`, once its page has passed the checks. -/
def ownAt (c : CoreId) (sc : Scope) (own : Bool) (va : DWord) : M Unit := do
  match ← translate c va 1 .both with
  | .sram .. => raise .protect va
  | .mem pa pg =>
    let line := lineOf pa
    let s ← get
    if pg.home != 0 || (!opPending (getCore s c) va && (if own then ownsLine s c line else !holdsLine s c line)) then return ()
    else do
      let _ ← remoteOp c va (.mem pa pg) (pure ()) (pure ()) do
        if own then ownHome c sc line pg va else disownHome c sc line
        return 0

/-- R232: `own` and `disown` over a range. -/
def ownRange (sc : Scope) (own : Bool) (rs1 rs2 : BitVec 5) : State → Out :=
  control fun c => do
    memGate c
    let k ← theCore c
    let va := getS k rs1
    let n := (getS k rs2).toNat
    eachLine (ownAt c sc own) (if n = 0 then 0 else (va.toNat % 128 + n + 127) / 128) va

/-- `own`. -/
def execOwn (sc : Scope) (rs1 rs2 : BitVec 5) (s : State) : Out := checked (.own sc rs1 rs2) (ownRange sc true rs1 rs2) s
/-- `disown`. -/
def execDisown (sc : Scope) (rs1 rs2 : BitVec 5) (s : State) : Out := checked (.disown sc rs1 rs2) (ownRange sc false rs1 rs2) s

/-! ### Drains and prefetches (R233, R234) -/

/-- `drain`: it waits for the core's copies into a memory; the core's copies of their destinations become stale (R213). -/
def execDrain (kind : DrainKind) (s : State) : Out :=
  control (fun c => do
    memGate c
    let xs := copiesInto (← get) c kind
    awaitThat (xs.all Copy.done)
    pushAll c (xs.flatMap (destPushes (← get)))
    modify fun s => xs.foldl staleDest s
    modHub fun h => { h with copies := h.copies.filter fun x => !(x.core == c && x.orphan && x.done) }) s

/-- R234: a prefetch; whatever stops it, it does nothing. A page that no copy may hold has no prefetch (R188, R189). -/
def prefetch (c : CoreId) (l2 : Bool) (va : DWord) : M Unit :=
  tryCatch
    (do
      match ← translate c va 1 .read with
      | .sram .. => return ()
      | .mem pa pg =>
        if isDevice pa pg then return ()
        else if l2 then
          if atMemory pg (lineOf pa) then return ()
          else readRequest c (128 * lineOf pa) (isForeign (lineOf pa)) va (reachHome c (lineOf pa) va) do
            pinFor c (lineOf pa) pg
            modify fun s => fillL2 (homeServe s (.core c) pg.ac (lineOf pa) pg.region).1 (.core c) (lineOf pa) pg.region
        else if cachedIn pa pg then do
          let _ ← fillL1 c (lineOf pa) pg va
        else return ())
    fun _ => setRemote c none

/-- `pref`. -/
def execPref (l2 : Bool) (rs1 : BitVec 5) (s : State) : Out :=
  control (fun c => do
    memGate c
    prefetch c l2 (getS (← theCore c) rs1)) s

/-! ### Queue-based locks (R235) -/

/-- What a lock word holds while a core holds it. -/
def lockValue (c : CoreId) : Nat := 1 + c.toNat

/-- The waiters of a lock word, each with the region of the page by which it has named the word. -/
def lockWaiters (s : State) (w : Nat) : List (CoreId × Byte) := (s.hub.qlocks.find w).getD []

/-- R200, R204, R387: a home about to look at a lock word: a copy past its bound goes, the host's bytes are taken, and the word's partials are
folded. -/
def openLock (s : State) (w : Nat) : State := foldWords (syncHost (expireL2 s (w / 32)) (w / 32) false) (w / 32) (1 <<< (w % 32))

/-- The lock word that a home holds. -/
def lockAt (s : State) (w : Nat) : Nat := (lineWord (homeLine s (w / 32)).1 (w % 32)).toNat

/-- The physical address and the place of a lock word; a scratchpad is no place for one (R227, R235). -/
def lockWord (c : CoreId) (va : DWord) : M (Nat × Loc) := do
  require (va.toNat % 4 == 0) .misalign va
  match ← translate c va 4 .both with
  | .mem pa pg => return (pa, .mem pa pg)
  | .sram .. => raise .protect va

/-- The request of `qlock` for a word (R356). -/
def setLock (k : Core) (w : Nat) (queued granted : Bool) : Core :=
  { k with streams := { k.streams with qlockWord := w, qlockQueued := queued, qlockGranted := granted, qlockRefused := none } }

/-- R197: the lock words of a slice that have waiters at most. -/
def lockQuota : Nat := 512

/-- R197, R235: whether a core's request of a word must wait at the slice: earlier requests of the word wait there, or the word has no queue
and earlier requests wait for one or the slice has none left. -/
def lockBlocked (s : State) (c : CoreId) (w : Nat) : Bool :=
  let near (v : Nat) : Bool := sliceOf (v / 32) == sliceOf (w / 32)
  let before := s.hub.lockWaits.takeWhile fun e => !(e.1 == w && e.2 == c)
  before.any (fun e => e.1 == w)
    || ((lockWaiters s w).isEmpty && (before.any (fun e => near e.1) || lockQuota ≤ (s.hub.qlocks.filter fun e => near e.1).length))

/-- A request of a word that waits at its slice for a queue, once. -/
def waitForQueue (s : State) (c : CoreId) (w : Nat) : State :=
  if s.hub.lockWaits.contains (w, c) then s else { s with hub := { s.hub with lockWaits := s.hub.lockWaits ++ [(w, c)] } }

/-- A request that waits no more. -/
def leaveQueue (s : State) (c : CoreId) (w : Nat) : State :=
  { s with hub := { s.hub with lockWaits := s.hub.lockWaits.filter (· != (w, c)) } }

/-- Whether no earlier request of a word waits at its slice for a queue. -/
def firstRequest (s : State) (c : CoreId) (w : Nat) : Bool := !(s.hub.lockWaits.takeWhile (· != (w, c))).any fun e => e.1 == w

/-- R235: what a request of a word does to it at the home: 1 + the core's index where the word is 0 and has no waiters. -/
def grantRmw (c : CoreId) (free : Bool) : Rmw := fun old bad => if !bad && old == 0 && free then some (lockValue c, false) else none

/-- R235: a request at the home: granted, or queued, or refused for want of a place. A request that waits there for a queue has been counted
(R337). -/
def requestLock (c : CoreId) (sc : Scope) (loc : Loc) (pa : Nat) (va : DWord) : M DWord := do
  let w := pa / 4
  let s ← get
  let free := (lockWaiters s w).isEmpty && firstRequest s c w
  let (v, bad) ← rmwAt c (if s.hub.lockWaits.contains (w, c) then loc.uncounted else loc) sc 4 va (grantRmw c free)
  let ws := lockWaiters (← get) w
  if bad then raisePoison c pa va
  else if v = 0 ∧ free then do
    modify fun s => leaveQueue s c w
    modCore c fun k => setLock k w true true
    return 0
  else if v = lockValue c then raise .queueFault 0
  else if ws.length < 64 then do
    if lockBlocked (← get) c w then do
      modify fun s => waitForQueue s c w
      waitHere
    else pure ()
    modify fun s => leaveQueue s c w
    modHub fun h => { h with qlocks := h.qlocks.put w (ws ++ [(c, loc.region)]) }
    modCore c fun k => setLock k w true false
    return 0
  else do
    let t := (← get).time
    modCore c fun k => { k with streams := { k.streams with qlockRefused := some t } }
    return 1

/-- R235: whether a refused request may be repeated: every 1,024 ticks. -/
def mayRetry (k : Core) (now : DWord) : Bool :=
  match k.streams.qlockRefused with
  | some t => 1024 ≤ (now - t).toNat
  | none => true

/-- R235: the request of a word that a core has queued, taken up again where the core has lost sight of the word (its context has stood in
memory meanwhile, R356): the home still holds it in its FIFO, or has granted it. -/
def resumeLock (s : State) (c : CoreId) (w : Nat) : State :=
  let z := (getCore s c).streams
  if !z.qlockQueued || z.qlockWord == w then s
  else
    let s := openLock s w
    let granted := lockAt s w == lockValue c
    updCore s c fun k => setLock k w (granted || (lockWaiters s w).any fun e => e.1 == c) granted

/-- R235, R229: after a request that has failed the core holds no request; software reads the word. -/
def lockFails (c : CoreId) (e : Stop) : M DWord := do
  match e with
  | .wait => pure ()
  | _ => modCore c fun k => setLock k 0 false false
  throw e

/-- `qlock`: requested once, then it waits for its grant; a grant completes it with an acquire. -/
def execQlock (sc : Scope) (rs1 : BitVec 5) (s : State) : Out :=
  checked (.qlock sc rs1) (control fun c => do
    let va := getS (← theCore c) rs1
    gateWrite c va 4
    let (pa, loc) ← lockWord c va
    let waiting := opPending (← theCore c) va
    modify fun s => if waiting then s else resumeLock s c (pa / 4)
    if waiting || !(← theCore c).streams.qlockQueued then do
      awaitThat (waiting || mayRetry (← theCore c) (← get).time)
      let _ ← tryCatch (remoteOp c va loc (pure ()) (pure ()) (requestLock c sc loc pa va)) (lockFails c)
    else pure ()
    awaitThat (← theCore c).streams.qlockGranted
    acquireReady c sc allRegions
    modCore c fun k => setLock k 0 false false
    acquireAfter c sc allRegions) s

/-- What an unlock does to the word that its core holds: 0, which grants the head waiter. -/
def freeRmw (c : CoreId) : Rmw := fun old bad => if !bad && old == lockValue c then some (0, false) else none

/-- R235: a lock word that holds the core's mark; a poisoned one raises POISON (R218). -/
def mustHold (c : CoreId) (pa : Nat) (va : DWord) (r : Nat × Bool) : M Unit :=
  if r.2 then raisePoison c pa va else require (r.1 == lockValue c) .queueFault 0

/-- R235: the word read before the release of an unlock; the unlock's own access counts (R337). -/
def readLock (c : CoreId) (sc : Scope) (loc : Loc) (pa : Nat) (va : DWord) : M (Nat × Bool) :=
  readRequest c pa loc.outside va (loc.reach c va) (rmwAt c loc.uncounted sc 4 va fun _ _ => none)

/-- R235: an unlock at the home. -/
def unlockAt (c : CoreId) (sc : Scope) (loc : Loc) (pa : Nat) (va : DWord) : M DWord := do
  mustHold c pa va (← rmwAt c loc sc 4 va (freeRmw c))
  return 0

/-- `qunlock`: a check of the word, the release, and then the word's write. -/
def execQunlock (sc : Scope) (rs1 : BitVec 5) (s : State) : Out :=
  checked (.qunlock sc rs1) (control fun c => do
    gateAll c
    let va := getS (← theCore c) rs1
    let (pa, loc) ← lockWord c va
    if opPending (← theCore c) va then pure ()
    else do
      mustHold c pa va (← readLock c sc loc pa va)
      releaseNow c sc allRegions
    let _ ← remoteOp c va loc (pure ()) (pure ()) (unlockAt c sc loc pa va)
    modify fun s => staleReply s c loc sc) s

/-! ### Transactions (R236, R237) -/

/-- The transaction state replaced. -/
def setTx (k : Core) (t : Transaction) : Core := { k with streams := { k.streams with tx := t } }

/-- `xbeg`. -/
def execXbeg (rs1 : BitVec 5) (s : State) : Out :=
  control (fun c => do
    notPosting c
    modCore c fun k => setTx k { isOpen := true, desc := getS k rs1, pairs := [], bad := false, request := none }) s

/-- R237: a compare pair appended; a ninth makes the transaction bad. -/
def addPair (t : Transaction) (va : DWord) (v : Word) : Transaction :=
  if !t.isOpen then t
  else if t.pairs.length < 8 then { t with pairs := t.pairs ++ [(va, v)] }
  else { t with bad := true }

/-- `xcmp`. -/
def execXcmp (rs1 rs2 : BitVec 5) (s : State) : Out :=
  control (fun c => do
    notPosting c
    modCore c fun k => setTx k (addPair k.streams.tx (getS k rs1) ((getS k rs2).setWidth 32))) s

/-- An entry of a write set: its address and value, and whether a reserved bit is set (R236). -/
def entryAt (v j : Nat) : DWord × Nat × Bool :=
  let e := v >>> (128 * j)
  (BitVec.ofNat 64 e, fieldOf e 95 64, fieldOf e 127 96 != 0)

/-- A word of a transaction with the checks of R216. -/
def txWord (c : CoreId) (va : DWord) : M Loc := do
  require (va.toNat % 4 == 0) .misalign va
  translate c va 4 .both

/-- The words of a transaction read at their homes, each of which it counts once (R337); a poisoned one raises POISON (R218). -/
def txReads (c : CoreId) : List Nat → List (DWord × Loc) → M (List Nat)
  | _, [] => return []
  | seen, (va, loc) :: l => do
    let (v, bad) ← rmwAt c (if seen.contains loc.pa then loc.uncounted else loc) .pkg 4 va fun _ _ => none
    if bad then raisePoison c loc.pa va
    else do
      let r ← txReads c (loc.pa :: seen) l
      return v :: r

/-- R237: the compares and writes of some words, at the homes, as one step. -/
def txCommit (c : CoreId) (words : List (DWord × Loc)) (expected : List Word) (values : List Nat) : M DWord := do
  let olds ← txReads c [] words
  if (olds.zip expected).all fun p => p.1 == p.2.toNat then do
    eachOf ((words.drop expected.length).zip values) fun w => do
      let _ ← rmwAt c w.1.2.uncounted .pkg 4 w.1.1 (cleanRmw fun _ => w.2)
    return 1
  else return 0

/-- R237: what `xend` makes of an open transaction, with its release done: the request of its words, or none where it answers 2. The
descriptor is read as a load reads (R216): that R186's row for `xbeg` to `xend` asks its W, MTYPE and HOME of the words alone is a DESIGN
CHOICE (log 55). -/
def txDecide (c : CoreId) (t : Transaction) : M (Option TxRequest) := do
  require (t.desc.toNat % 16 == 0) .misalign t.desc
  let hdr ← readImage c t.desc 16
  let n := hdr % 16
  if t.bad || 8 < n || hdr / 16 != 0 then return none
  else do
    let v ← readImage c (t.desc + 16) (16 * n)
    let writes := (List.range n).map (entryAt v)
    eachOf t.pairs fun p => do let _ ← txWord c p.1
    eachOf writes fun w => do let _ ← txWord c w.1
    if writes.any fun w => w.2.2 then return none
    else
      let words ← collect (t.pairs.map Prod.fst ++ writes.map Prod.fst) fun a => do return (a, ← txWord c a)
      return some { words := words, expected := t.pairs.map Prod.snd, values := writes.map fun w => w.2.1 }

/-- R229, R237: the request of a transaction, which its descriptor names: performed once, and a reissue carries it unchanged (R377). -/
def txSend (c : CoreId) (desc : DWord) (q : TxRequest) : M DWord :=
  let first := (q.words.map Prod.snd).head?
  remoteWith c desc 1 (first.bind Loc.home) ((first.map Loc.pa).getD noAddress)
    (return q.words.any fun w => w.2.outside) (modify fun s => takeTicket s c .pkg)
    (eachOf q.words fun w => w.2.reach c w.1) (pure ())
    (txCommit c q.words q.expected q.values)

/-- R237: the commit of an open transaction: one whose request awaits its reply has been decided. -/
def txEnd (c : CoreId) (t : Transaction) : M DWord := do
  match (if opPending (← theCore c) t.desc then t.request else none) with
  | some q => txSend c t.desc q
  | none => do
    releaseNow c .pkg allRegions
    acquireReady c .pkg allRegions
    match ← txDecide c t with
    | none => return 2
    | some q => do
      modCore c fun k => setTx k { k.streams.tx with request := some q }
      txSend c t.desc q

/-- `xend`. -/
def execXend (rd : BitVec 5) (s : State) : Out :=
  controlTo rd (fun c => do
    let t := (← theCore c).streams.tx
    if !t.isOpen then do
      notPosting c
      return 2
    else do
      gateAll c
      let r ← txEnd c t
      acquireAfter c .pkg allRegions
      modCore c fun k => setTx k { k.streams.tx with isOpen := false, request := none }
      return r) s

end Sys2Proof.Machine
end

