-- ==== Sys2Proof/Machine/BarrierInstr.lean ====
section
/-!
DEFINITION. Named barriers (R324 to R333).
-/

namespace Sys2Proof.Machine

/-! ### A home's entries (R324) -/

/-- Entry b of a home. -/
def barrierAt (s : State) (home : CoreId) (b : Byte) : Barrier := ((getCore s home).tables.barriers.find b.toNat).getD Barrier.blank

/-- Entry b of a home replaced. -/
def putBarrier (s : State) (home : CoreId) (b : Byte) (v : Barrier) : State :=
  updCore s home fun k => { k with tables := { k.tables with barriers := k.tables.barriers.put b.toNat v } }

/-- The waits of cores at an entry ended in a way; a core whose task has been stopped has none (R328). -/
def endWaits (s : State) (home : CoreId) (b : Byte) (cores : List CoreId) (w : BarWait) : State :=
  cores.foldl (fun s c => updCore s c fun k =>
    if k.streams.barWait = .waiting home b then { k with streams := { k.streams with barWait := w } } else k) s

/-- R331: EINFO of GANG_BROKEN at a BROKEN entry. -/
def brokenInfo (b : Byte) (lost : CoreId) : DWord := BitVec.ofNat 64 (coordBits lost + b.toNat * 2 ^ 16)

/-- R331: an entry becomes BROKEN, and every waiter ends its wait. -/
def breakBarrier (s : State) (home : CoreId) (b : Byte) (lost : CoreId) : State :=
  let v := barrierAt s home b
  endWaits (putBarrier s home b { v with state := .broken, lost := lost, waiters := [] }) home b v.waiters (.broken (brokenInfo b lost))

/-- R327: the phase of an entry completes: the next one starts, and every waiter is released. -/
def completePhase (s : State) (home : CoreId) (b : Byte) (v : Barrier) : State :=
  let v' := { v with phase := v.phase + 1, arrived := 0, doneSet := [], expect := v.setn - v.gone.length, waiters := [] }
  endWaits (putBarrier s home b v') home b v.waiters .released

/-! ### What the home does (R325 to R328, R332) -/

/-- R325: the home that a word names. -/
def homeOf (w : DWord) : Option CoreId :=
  let x := w.toNat % 256
  let y := w.toNat / 256
  if x < 48 ∧ y < 64 then some (coreAt x y) else none

/-- R325: a request of another tenant than an entry's is refused. -/
def tenantCheck (k : Core) (v : Barrier) (w : DWord) : M Unit :=
  require (v.state == .free || v.tenant == k.tregs.tenant) .protect w

/-- R374, R375, R331: the way to a home; at a BROKEN entry the request is answered as one. -/
def reachBarrier (c home : CoreId) (v : Barrier) (w : DWord) : M Unit :=
  if v.state = .broken then pure () else reachCore c home w

/-- The barrier operation of a core at an entry of a home; a duplicate that the home has served counts in its BARDUP (R333). -/
def barrierOp (c home : CoreId) (b : Byte) (w : DWord) (prep : M Unit) (apply : M DWord) : M DWord :=
  remoteWith c w 3 none noAddress (do prep; return false) (pure ()) (do reachBarrier c home (barrierAt (← get) home b) w)
    (modCore home fun k => { k with ctrs := { k.ctrs with bardup := satInc32 k.ctrs.bardup } }) apply

/-- R326: `bset` at the home. -/
def serveSet (c home : CoreId) (b : Byte) (n : Nat) (w : DWord) : M DWord := do
  let s ← get
  let k ← theCore c
  let v := barrierAt s home b
  tenantCheck k v w
  if n = 0 then do
    if v.state = .free then return 0
    else do
      require (v.ctx == ctxOf k && v.waiters.isEmpty) .queueFault 0
      modify fun s => putBarrier s home b Barrier.blank
      return 0
  else if v.state = .free then do
    modify fun s => putBarrier s home b { Barrier.blank with state := .active, ctx := ctxOf k, tenant := k.tregs.tenant, setn := n, expect := n }
    return 0
  else do
    require (v.state == .active && v.ctx == ctxOf k && v.setn == n) .queueFault 0
    return 0

/-- R327, R328: FREE and another context's entries raise QUEUE_FAULT, BROKEN ones GANG_BROKEN. -/
def liveEntry (k : Core) (b : Byte) (v : Barrier) : M Unit := do
  require (v.state != .free && v.ctx == ctxOf k) .queueFault 0
  require (v.state != .broken) .gangBroken (brokenInfo b v.lost)

/-- R330: EINFO of BARRIER_OVER. -/
def overInfo (home : CoreId) (b : Byte) (reason : Nat) (phase : Word) : DWord :=
  BitVec.ofNat 64 (coordBits home + b.toNat * 2 ^ 16 + reason * 2 ^ 24 + phase.toNat * 2 ^ 32)

/-- R327: an arrival at the home. -/
def serveArrival (c home : CoreId) (b : Byte) (drop : Bool) (w : DWord) : M Unit := do
  let s ← get
  let k ← theCore c
  let v := barrierAt s home b
  tenantCheck k v w
  liveEntry k b v
  require (!v.gone.contains c) .barrierOver (overInfo home b 0 v.phase)
  require (!v.doneSet.contains c) .barrierOver (overInfo home b 1 v.phase)
  require (v.arrived + 1 ≤ v.expect) .barrierOver (overInfo home b 2 v.phase)
  let v := { v with arrived := v.arrived + 1, doneSet := v.doneSet ++ [c], gone := if drop then v.gone ++ [c] else v.gone }
  modify fun s => if v.arrived = v.expect then completePhase s home b v else putBarrier s home b v

/-- R328: a wait at the home: 1 if the core is not in DONE, else 0 with the core among the waiters. -/
def serveWait (c home : CoreId) (b : Byte) (w : DWord) : M DWord := do
  let s ← get
  let k ← theCore c
  let v := barrierAt s home b
  tenantCheck k v w
  liveEntry k b v
  if !v.doneSet.contains c then return 1
  else do
    modify fun s =>
      let s := if v.waiters.contains c then s else putBarrier s home b { v with waiters := v.waiters ++ [c] }
      updCore s c fun k => { k with streams := { k.streams with barWait := .waiting home b } }
    return 0

/-- R332: the word that `bquery` reads. -/
def queryWord (k : Core) (c : CoreId) (v : Barrier) : DWord :=
  if v.state = .free ∨ v.ctx ≠ ctxOf k ∨ v.tenant ≠ k.tregs.tenant then 0
  else
    BitVec.ofNat 64 (packAt [(0, v.arrived), (16, v.expect), (32, v.phase.toNat % 2 ^ 16), (48, if v.state = .broken then 2 else 1),
      (50, if v.doneSet.contains c then 1 else 0), (51, if v.gone.contains c then 1 else 0)])

/-! ### The instructions -/

/-- A barrier instruction: its home word, then what it does with the home. -/
def atHome {α : Type} (c : CoreId) (rs1 : BitVec 5) (m : CoreId → DWord → M α) : M α := do
  let w := getS (← theCore c) rs1
  match homeOf w with
  | none => raise .format 0
  | some home => m home w

/-- `bset`. -/
def execBset (n : BitVec 8) (rs1 rs2 : BitVec 5) (s : State) : Out :=
  control (fun c => atHome c rs1 fun home w => do
    let count := (getS (← theCore c) rs2).toNat
    formatUnless (count ≤ 256)
    let _ ← barrierOp c home n w (pure ()) (serveSet c home n count w)) s

/-- R327: what precedes an arrival: every access performed, then a release of all regions at `.pkg`. -/
def arrive (c : CoreId) : M Unit := releaseNow c .pkg allRegions

/-- `barr`. -/
def execBarr (n : BitVec 8) (rs1 : BitVec 5) (s : State) : Out :=
  control (fun c => atHome c rs1 fun home w => do
    gateAll c
    let _ ← barrierOp c home n w (arrive c) (do serveArrival c home n false w; return 0)) s

/-- `bdrop`. -/
def execBdrop (n : BitVec 8) (rs1 : BitVec 5) (s : State) : Out :=
  control (fun c => atHome c rs1 fun home w => do
    gateAll c
    let _ ← barrierOp c home n w (arrive c) (do serveArrival c home n true w; return 0)) s

/-- The recorded parts of a barrier wait set: the `barw` that has arrived, by its address, and how the wait stands. -/
def setWait (k : Core) (arrived : Option DWord) (w : BarWait) : Core := { k with streams := { k.streams with arrived := arrived, barWait := w } }

/-- R329: the end of a wait: an acquire of all regions at `.pkg`. -/
def endWait (c : CoreId) : M Unit := do
  acquireReady c .pkg allRegions
  modCore c fun k => setWait k none .idle
  acquireAfter c .pkg allRegions

/-- R328, R331: a wait that the home has answered or listed. -/
def settleWait (c : CoreId) : M Unit := do
  let k ← theCore c
  match k.streams.barWait with
  | .released => endWait c
  | .broken e => do
    modCore c fun k => setWait k k.streams.arrived .idle
    raise .gangBroken e
  | _ => waitHere

/-- R327, R328: a wait, with the arrival before it that has not been made yet. -/
def waitAt (c home : CoreId) (b : Byte) (w : DWord) (arrival : Bool) : M Unit := do
  let k ← theCore c
  if k.remote.isNone && k.streams.barWait != .idle then settleWait c
  else do
    let first := arrival && k.streams.arrived != some k.pc
    if first then gateAll c else pure ()
    let r ← barrierOp c home b w (if first then arrive c else pure ())
      (do
        if first then serveArrival c home b false w else pure ()
        serveWait c home b w)
    modCore c fun k => setWait k (if arrival then some k.pc else none) (if r = 1 then .released else k.streams.barWait)
    settleWait c

/-- `barw`. -/
def execBarw (n : BitVec 8) (rs1 : BitVec 5) (s : State) : Out := control (fun c => atHome c rs1 fun home w => waitAt c home n w true) s

/-- `bwait`. -/
def execBwait (n : BitVec 8) (rs1 : BitVec 5) (s : State) : Out := control (fun c => atHome c rs1 fun home w => waitAt c home n w false) s

/-- `bquery`. -/
def execBquery (rd : BitVec 5) (n : BitVec 8) (rs1 : BitVec 5) (s : State) : Out :=
  controlTo rd (fun c => atHome c rs1 fun home w =>
    barrierOp c home n w (pure ()) do
      let s ← get
      let v := barrierAt s home n
      return queryWord (getCore s c) c v) s

end Sys2Proof.Machine
end

