-- ==== Sys2Proof/Machine/TableInstr.lean ====
section
/-!
DEFINITION. The instructions of tables: translation buffers (R292), the pattern book and pins (R297 to R302), the route table (R313 to
R315) and spanning trees (R316, R317).
-/

namespace Sys2Proof.Machine

/-! ### `tlbinv` (R292) -/

/-- R292: the cores whose TLB a scope reaches. -/
def tlbReach (sc : Scope) (c d : CoreId) : Bool :=
  match sc with
  | .task => d == c
  | .clu => clusterOf d == clusterOf c
  | .die => dieOf d == dieOf c
  | .pkg | .sys => true

/-- R292: whether an entry is dropped, by the word of `tlbinv` and the executing ASID. -/
def tlbDrops (w : DWord) (asid : HWord) (t : TlbEntry) : Bool :=
  (bitAt w 1 || t.asid == asid) && (bitAt w 0 || t.covers t.asid (BitVec.ofNat 64 (w.toNat / 65536 * 65536)))

/-- The TLB entries that a core loses. -/
def dropTlb (k : Core) (p : TlbEntry → Bool) : Core := { k with tables := { k.tables with tlb := k.tables.tlb.filter fun t => !p t } }

/-- `tlbinv`. -/
def execTlbinv (sc : Scope) (rs1 : BitVec 5) (s : State) : Out :=
  control (fun c => do
    let k ← theCore c
    require (k.level != .task) .priv (encodingOf (.tlbinv sc rs1))
    let w := getS k rs1
    formatUnless (w.toNat / 4 % 2 ^ 14 == 0)
    gateAll c
    modify fun s =>
      let cut (d : Nat) (k' : Core) : Core := if tlbReach sc c (BitVec.ofNat 12 d) then dropTlb k' (tlbDrops w k.tregs.asid) else k'
      let wide := sc == .pkg || sc == .sys
      { s with
        cores := s.cores.mapVals cut
        hub := if wide then { s.hub with tlb := s.hub.tlb.filter fun t => !tlbDrops w k.tregs.asid t } else s.hub }) s

/-! ### The pattern book (R290, R297, R298) -/

/-- The record of a book entry in the context table area, as a physical address: 0 where no context is registered. -/
def bookAddr (s : State) (ctx : HWord) (e : BitVec 5) : Nat :=
  match findContext s ctx with
  | some x => x.area.toNat + 64 * e.toNat
  | none => 0

/-- The core's copy of a book entry set. -/
def setBook (k : Core) (e : BitVec 5) (v : BitVec 512) : Core := { k with tables := { k.tables with book := k.tables.book.set e.toNat (some v) } }

/-- R298: the core's copy of a book entry, filled from the area at its first use. -/
def bookEntry (c : CoreId) (e : BitVec 5) : M (BitVec 512) := do
  let k ← theCore c
  match k.tables.book[e.toNat] with
  | some v => return v
  | none => do
    let a := bookAddr (← get) (ctxOf k) e
    let v ← if a = 0 then pure 0 else do
      reachHome c (lineOf a) 0
      let (v, _) ← answer fun s => hubLoad s a 64
      pure v
    modCore c fun k => setBook k e (BitVec.ofNat 512 v)
    return BitVec.ofNat 512 v

/-- A book entry written to the copy and to the area. -/
def writeBook (c : CoreId) (e : BitVec 5) (v : BitVec 512) : M Unit := do
  let a := bookAddr (← get) (ctxOf (← theCore c)) e
  if a = 0 then pure () else do
    reachHome c (lineOf a) 0
    modify fun s => hubStore s a 64 v.toNat
  modCore c fun k => setBook k e v

/-- A 32-bit word of an image. -/
def imageWord (v : BitVec 512) (j : Nat) : Nat := (slice v (32 * j) 32 : Word).toNat

/-- R297, R298: the offset of the first header word of an image that breaks a rule. -/
def badHeader (v : BitVec 512) : Option Nat :=
  let n := imageWord v 8 % 16
  let sregs := (pinSlots v).filter (· != 0)
  if n = 0 ∨ 8 < n ∨ imageWord v 8 / 1024 ≠ 0 then some 32
  else if imageWord v 9 / 2 ^ 15 ≠ 0 ∨ ¬ sregs.Nodup then some 36
  else
    (((List.range 6).map fun i => 10 + i) ++ (List.range (8 - n)).map fun i => n + i).find? (fun j => imageWord v j != 0) |>.map fun j => 4 * j

/-- R298: an operand that a recipe reads: a row, or a scalar that the image captures. -/
def recipeOperand (sregs : List (BitVec 5)) : Opd → Bool
  | .row _ => true
  | .sreg r => r == 0 || sregs.contains r
  | _ => false

/-- R298: whether a recipe allows an instruction, apart from what its first one reads. -/
def recipeAllows (res : BitVec 6) (sregs : List (BitVec 5)) (i : Instr) : Bool :=
  let src := recipeOperand sregs
  let reg (r : BitVec 5) : Bool := src (.sreg r)
  match i with
  | .vaddV3 d a b | .vsubV3 d a b | .vmulV3 d a b | .vfmaV3 d a b | .vminV3 d a b | .vmaxV3 d a b | .vandV3 d a b | .vorV3 d a b
  | .vxorV3 d a b | .vshlV3 d a b | .vshrV3 d a b | .vsraV3 d a b | .vdiv d a b | .vsel d a b | .vaddSat d a b | .vsubSat d a b
  | .vmulSat d a b => d == .row res && src a && src b
  | .vmovV3 d a | .vabsV3 d a | .vnegV3 d a | .vpopcV3 d a | .vsqrt d a | .vclz d a | .vnot d a | .vcvt d a _ _ _ => d == .row res && src a
  | .vid d => d == .row res
  | .vld _ v rs1 _ | .vldInt6 v rs1 _ _ | .vldx _ v rs1 _ => v == .row res && reg rs1
  | .vlds _ v rs1 rs2 => v == .row res && reg rs1 && reg rs2
  | _ => false

/-- R298: whether instruction j of an image keeps the rules. -/
def recipeWordOk (v : BitVec 512) (j : Nat) : Bool :=
  match decode (leBytes 4 (imageWord v j)) with
  | .ok (i, rest) => rest.isEmpty && recipeAllows (pinRes v) (pinSlots v) i && (j != 0 || !(recipeReads i).contains (pinRes v))
  | .error _ => false

/-- `pdef`. -/
def execPdef (e rs1 : BitVec 5) (s : State) : Out :=
  control (fun c => do
    let va := getS (← theCore c) rs1
    gateRead c va 64
    require (va.toNat % 64 == 0) .misalign va
    let v : BitVec 512 := BitVec.ofNat 512 (← readImage c va 64)
    match badHeader v with
    | some o => raise .format (va + BitVec.ofNat 64 o)
    | none => do
      match (List.range (imageWord v 8 % 16)).find? fun j => !recipeWordOk v j with
      | some j => raise .illegalOp (va + BitVec.ofNat 64 (4 * j))
      | none => writeBook c e (putBit v 287 true)) s

/-- `pdrop`. -/
def execPdrop (e : BitVec 5) (s : State) : Out :=
  control (fun c => do
    memGate c
    let v ← bookEntry c e
    let a := bookAddr (← get) (ctxOf (← theCore c)) e
    if a = 0 then pure () else do
      reachHome c (lineOf a) 0
      let (w, _) ← answer fun s => hubLoad s (a + 32) 4
      modify fun s => hubStore s (a + 32) 4 (w % 2 ^ 31)
    modCore c fun k => setBook k e (putBit v 287 false)) s

/-- R299, R300: the record that a `pin` takes at its commit: the image, VL, PROT and the captured scalars. -/
def pinImage (k : Core) (v : BitVec 512) : BitVec 512 :=
  let v := splice (splice v 266 k.tregs.vl) 273 k.tregs.prot
  ((List.range 3).zip (pinSlots v)).foldl (fun v e => splice v (320 + 64 * e.1) (getS k e.2)) v

/-- R300: the entry of a `pin`. -/
def pinEntry (c : CoreId) (n : BitVec 6) (e : BitVec 5) : M Entry := do
  let v ← bookEntry c e
  formatUnless (bitAt v 287 && pinRes v == n)
  let k ← theCore c
  return { newEntry k (.pin n e) with image := pinImage k v }

/-- `pin`. -/
def execPin (n : BitVec 6) (e : BitVec 5) (s : State) : Out := postVector (.pin n e) 4 (fun c => pinEntry c n e) s
/-- `unpick`. -/
def execUnpick (n : BitVec 6) (s : State) : Out := post4 (.unpick n) s

/-! ### The route table (R313 to R315) -/

/-- R314: a key of a route-table entry, for the context that an out-binding names. -/
def routeKey (w : DWord) (ctx : HWord) : Option RouteKey :=
  if bitAt w 63 then (if w.toNat / 8 = 2 ^ 60 then some (.out ctx (w.setWidth 3)) else none)
  else if w.toNat < 4096 then some (.tag (w.setWidth 12)) else none

/-- The bits of a route-entry image that are not zero by rule (R313). -/
def routeFields : List (Nat × Nat) := [(1, 63), (64, 19), (84, 2), (96, 32), (128, 64)]

/-- R313: an entry from its image. -/
def routeEntry (key : RouteKey) (v : Nat) (tenant : HWord) : RouteEntry :=
  let b := fieldOf v 127 96
  { key := key, entry := BitVec.ofNat 64 v, ctx := BitVec.ofNat 16 (v >>> 64), chan := BitVec.ofNat 3 (v >>> 80), pri := BitVec.ofNat 2 (v >>> 84)
    budget := BitVec.ofNat 33 (if b = 0 then 2 ^ 32 else b), route := BitVec.ofNat 64 (v >>> 128), tenant := tenant }

/-- R314: whether ROUTE suits its key: zero for an in-binding, a route word for an out-binding. -/
def routeOk (r : RouteEntry) : Bool :=
  match r.key with
  | .tag _ => r.route == 0
  | .out _ _ => isRouteWord r.route

/-- `bind`. -/
def execBind (rs1 rs2 : BitVec 5) (s : State) : Out :=
  control (fun c => do
    let k ← theCore c
    let w := getS k rs1
    let va := getS k rs2
    gateRead c va 32
    formatUnless (routeKey w 0).isSome
    require (va.toNat % 32 == 0) .misalign va
    let v ← readImage c va 32
    match routeKey w (BitVec.ofNat 16 (v >>> 64)) with
    | none => raise .format 0
    | some key => do
      let k ← theCore c
      let r := routeEntry key v k.tregs.tenant
      formatUnless (!strayBits routeFields v && routeOk r)
      match findContext (← get) r.ctx with
      | none => raise .protect va
      | some x => do
        require (x.tenant == k.tregs.tenant) .protect va
        require (!(k.tables.route.any fun e => e.key == key) && k.tables.route.length < 256) .queueFault 0
        modCore c fun k => { k with tables := { k.tables with route := k.tables.route ++ [r] } }) s

/-- R315: an entry removed: its held packets are discarded and its wake-up withdrawn, and a handler of it that runs receives no more. -/
def removeRoute (s : State) (c : CoreId) (key : RouteKey) : State :=
  let stays (e : ReadyEntry) : Bool := match e.kind, key with | .handler t, .tag u => t != u | _, _ => true
  let s := updCore s c fun k =>
    { k with
      unbound := k.unbound || (match runningTag k with | some t => key == .tag t | none => false)
      tables := { k.tables with route := k.tables.route.filter (fun e => e.key != key), ready := k.tables.ready.filter stays } }
  dropUnbound s c

/-- `unbind`; an out-binding is one of the executing context. -/
def execUnbind (rs1 : BitVec 5) (s : State) : Out :=
  control (fun c => do
    notPosting c
    let k ← theCore c
    match routeKey (getS k rs1) (ctxOf k) with
    | none => raise .format 0
    | some key =>
      match k.tables.route.find? fun e => e.key == key with
      | none => return ()
      | some e => do
        require (e.tenant == k.tregs.tenant) .protect 0
        modify fun s => removeRoute s c key) s

/-! ### Spanning trees (R316, R317) -/

/-- R316: a node and a GID from the word that names them. -/
def nodeOf (w : DWord) : Option (Node × BitVec 12) :=
  let x := fieldOf w.toNat 23 16
  let y := fieldOf w.toNat 31 24
  if strayBits [(0, 12), (16, 16), (32, 1)] w.toNat then none
  else if bitAt w 32 then (if x = 0 ∧ y = 0 then some (none, w.setWidth 12) else none)
  else if x < 48 ∧ y < 64 then some (some (coreAt x y), w.setWidth 12)
  else none

/-- R316: an entry from its image; CUR, RECV and NEXTW are 0. -/
def treeEntry (gid : BitVec 12) (v : Nat) (tenant : HWord) : TreeEntry :=
  { gid := gid, ctx := BitVec.ofNat 16 v, tenant := tenant, parent := BitVec.ofNat 6 (v >>> 16), top := v.testBit 22, member := v.testBit 23
    ext := BitVec.ofNat 3 (v >>> 24), rank := BitVec.ofNat 16 (v >>> 32), nmem := BitVec.ofNat 16 (v >>> 48), child := BitVec.ofNat 64 (v >>> 64)
    cur := 0, got := [], nextWave := 0, aborting := false, told := false, acks := 0, acked := false }

/-- R316, R317: whether an image of a node keeps its rules. -/
def treeOk (n : Node) (v : Nat) (e : TreeEntry) : Bool :=
  !strayBits [(0, 27), (32, 96)] v && e.rank.toNat < e.nmem.toNat && 1 ≤ e.ext.toNat && e.ext.toNat ≤ 4
    && !(!e.top && bitAt e.child e.parent.toNat) && (if n.isSome then !strayBits [(1, 5)] e.child.toNat else !e.member)

/-- The entries that a node's table holds (R289). -/
def treeRoom : Node → Nat
  | some _ => 64
  | none => 1024

/-- The way to a node: a router's core is neither lost nor fenced. -/
def reachNode (c : CoreId) (n : Node) (va : DWord) : M Unit :=
  match n with
  | some t => reachCore c t va
  | none => pure ()

/-- `gtset`. -/
def execGtset (rs1 rs2 : BitVec 5) (s : State) : Out :=
  control (fun c => do
    let k ← theCore c
    require (k.level != .task) .priv (encodingOf (.gtset rs1 rs2))
    let va := getS k rs2
    gateRead c va 16
    match nodeOf (getS k rs1) with
    | none => raise .format 0
    | some (n, gid) => do
      require (va.toNat % 16 == 0) .misalign va
      let v ← readImage c va 16
      let k ← theCore c
      let e := treeEntry gid v k.tregs.tenant
      formatUnless (treeOk n v e)
      let mine := match findContext (← get) e.ctx with | some x => x.tenant == k.tregs.tenant | none => false
      require mine .protect va
      let _ ← nodeOp c va (reachNode c n va) do
        let s ← get
        require ((treeAt s n gid).isNone && (treesAt s n).length < treeRoom n) .queueFault 0
        modify fun s => setTrees s n (treesAt s n ++ [e])
        return 0) s

/-- R317: whether a group has a wave in progress or an open slot. -/
def groupBusy (s : State) (gid : BitVec 12) (ctx : HWord) : Bool :=
  s.hub.relay.any (fun m => m.gid == gid && m.ctx == ctx) || s.hub.down.any (fun m => m.gid == gid && m.ctx == ctx)
    || (allNodes s).any (fun n => (treesAt s n).any fun e => e.inGroup gid ctx && !e.got.isEmpty)
    || s.cores.any fun e => e.2.tables.slots.any fun x => x.gid == gid && x.ctx == ctx

/-- R317: what `gtclr` does at its node; it waits while the group's abort is under way. -/
def clearNode (n : Node) (gid : BitVec 12) : M DWord := do
  let s ← get
  match treeAt s n gid with
  | none => return 0
  | some e =>
    if groupBusy s gid e.ctx || groupAborting s gid e.ctx then do
      modify fun s => startAbort s n gid
      waitHere
    else do
      modify fun s => setTrees s n ((treesAt s n).filter fun e => e.gid != gid)
      return 0

/-- `gtclr`. -/
def execGtclr (rs1 : BitVec 5) (s : State) : Out :=
  control (fun c => do
    let k ← theCore c
    require (k.level != .task) .priv (encodingOf (.gtclr rs1))
    notPosting c
    match nodeOf (getS k rs1) with
    | none => raise .format 0
    | some (n, gid) => do
      let _ ← nodeOp c (getS k rs1) (reachNode c n (getS k rs1)) (clearNode n gid)) s

end Sys2Proof.Machine
end

