-- ==== Sys2Proof/Machine/Concierge.lean ====
section
/-!
DEFINITION. The concierge (R22 to R31, R36 to R48): launch parameter blocks, group order, placement, claims, the start of tasks with
the tenant and pool changes before it (R107, R318), and the completion of launches.
-/

namespace Sys2Proof.Machine

/-! ### Launch parameter blocks (R36) -/

/-- A field of a block, by its lowest bit and its width. -/
def blockField (b : BitVec 1024) (lo n : Nat) : Nat := (b.toNat >>> lo) % 2 ^ n

/-- ENTRY. -/
def blockEntryPc (b : BitVec 1024) : DWord := slice b 0 64
/-- CTX. -/
def blockCtx (b : BitVec 1024) : HWord := slice b 128 16
/-- PRI. -/
def blockPri (b : BitVec 1024) : BitVec 2 := slice b 144 2
/-- BUDGET in cycles; 0 encodes 2³². -/
def blockBudget (b : BitVec 1024) : BitVec 33 :=
  let n := blockField b 160 32
  BitVec.ofNat 33 (if n = 0 then 2 ^ 32 else n)
/-- ANY. -/
def blockAny (b : BitVec 1024) : Bool := bitAt b 153

/-- A rectangle of cores (R23). -/
structure Rect where
  x : Nat
  y : Nat
  w : Nat
  h : Nat
  deriving DecidableEq, Repr

/-- Whether two rectangles share a core. -/
def Rect.overlaps (a b : Rect) : Bool := a.x < b.x + b.w && b.x < a.x + a.w && a.y < b.y + b.h && b.y < a.y + a.h

/-- The coordinate of a run from `a` to `b` that lies in `n` places from `lo`, if one does, the nearest to `a`. -/
def clampInto (a b lo n : Nat) : Option Nat :=
  let t := max lo (min a (lo + n - 1))
  if n ≠ 0 ∧ min a b ≤ t ∧ t ≤ max a b then some t else none

/-- The cores of a rectangle, by rank (R24). -/
def Rect.cores (r : Rect) : List CoreId :=
  (List.range (r.w * r.h)).map fun i => coreAt (r.x + i % r.w) (r.y + i / r.w)

/-- Whether a core lies in a rectangle. -/
def Rect.has (r : Rect) (c : CoreId) : Bool := r.x ≤ coreX c && coreX c < r.x + r.w && r.y ≤ coreY c && coreY c < r.y + r.h

/-- A router of a rectangle on the way of a packet from a core to another: along the row, then along the column (log 37). -/
def Rect.routerOn (r : Rect) (a b : CoreId) : Option CoreId :=
  match (if r.y ≤ coreY a ∧ coreY a < r.y + r.h then clampInto (coreX a) (coreX b) r.x r.w else none) with
  | some x => some (coreAt x (coreY a))
  | none => if r.x ≤ coreX b ∧ coreX b < r.x + r.w then (clampInto (coreY a) (coreY b) r.y r.h).map (coreAt (coreX b)) else none

/-- The footprint that a block asks for. -/
def blockRect (b : BitVec 1024) : Rect :=
  { x := blockField b 192 8, y := blockField b 200 8, w := blockField b 208 8, h := blockField b 216 8 }

/-- PW and PH. -/
def blockPlot (b : BitVec 1024) : Nat × Nat := (blockField b 224 8, blockField b 232 8)

/-- GX, GY and GZ. -/
def blockGroups (b : BitVec 1024) : Nat × Nat × Nat := (blockField b 256 16, blockField b 272 16, blockField b 288 16)

/-- The number of groups. -/
def groupTotal (b : BitVec 1024) : Nat := let g := blockGroups b; g.1 * g.2.1 * g.2.2

/-- WAIT0 to WAIT3 and SIGNAL as 16-bit fields. -/
def blockEvent (b : BitVec 1024) (i : Nat) : Nat := blockField b (320 + 16 * i) 16

/-- The event counter that an event field names, if it is valid. -/
def eventOf (v : Nat) : Option Nat := if v.testBit 15 then some (v % 4096) else none

/-- BNDA, BNDB and BNDC. -/
def blockBnd (b : BitVec 1024) : Nat × Nat × Nat := (blockField b 400 16, blockField b 416 16, blockField b 432 16)

/-! ### The checks of a block (R37 to R39) -/

/-- The reserved bits of a block; bits 14:12 of its event fields are checked apart (R37). -/
def reservedSet (b : BitVec 1024) : Bool :=
  blockField b 154 6 != 0 || blockField b 240 16 != 0 || blockField b 304 16 != 0 || blockField b 640 384 != 0

/-- PW and PH are allowed values (R23). -/
def plotOk (b : BitVec 1024) : Bool :=
  let p := blockPlot b
  [1, 2, 3, 6, 12, 24, 48].contains p.1 && [1, 2, 4, 8, 16, 32, 64].contains p.2

/-- R23: the footprint; with ANY its origin is ignored. -/
def footOk (b : BitVec 1024) : Bool :=
  let r := blockRect b
  let p := blockPlot b
  r.w != 0 && r.h != 0 && r.w % p.1 == 0 && r.h % p.2 == 0 &&
    (if blockAny b then r.w ≤ 48 && r.h ≤ 64 else r.x % p.1 == 0 && r.y % p.2 == 0 && r.x + r.w ≤ 48 && r.y + r.h ≤ 64)

/-- R37: the group space. -/
def groupsOk (b : BitVec 1024) : Bool :=
  let g := blockGroups b
  g.1 != 0 && g.2.1 != 0 && g.2.2 != 0 && groupTotal b ≤ 2 ^ 32

/-- R37: the traversal and its swizzle. -/
def orderOk (b : BitVec 1024) : Bool :=
  let w := blockField b 150 3
  w != 7 && (blockField b 148 2 < 2 || w == 0)

/-- R38. -/
def bndOk (b : BitVec 1024) : Bool :=
  let n := blockBnd b
  8 ≤ n.1 && n.1 ≤ n.2.1 && n.2.1 ≤ n.2.2 && n.2.2 ≤ 240

/-- R37: the event fields. -/
def eventsOk (b : BitVec 1024) : Bool := (List.range 5).all fun i => let v := blockEvent b i; !v.testBit 15 || v / 4096 % 8 == 0

/-- Whether a cluster's READY bit is set for every core of a rectangle (R393). -/
def rectReady (s : State) (r : Rect) : Bool := r.cores.all fun c => bitAt s.hub.regs.ready.clu (clusterOf c)

/-- R39: the refusal code of a block, in ascending order, or none. -/
def refusal (s : State) (b : BitVec 1024) : Option Nat :=
  if blockField b 448 32 ≠ 0 ∨ reservedSet b then some 0x10
  else if bitAt b 0 then some 0x11
  else if (findContext s (blockCtx b)).isNone || beingKilled s (blockCtx b) then some 0x12
  else if !plotOk b then some 0x14
  else if !footOk b then some 0x13
  else if !groupsOk b then some 0x15
  else if !orderOk b then some 0x16
  else if !bndOk b then some 0x17
  else if !eventsOk b then some 0x18
  else if !blockAny b && !rectReady s (blockRect b) then some 0x19
  else none

/-- A launch's event signalled, if its SIGNAL is valid; a signal is a release of the concierge (R336). -/
def signalOf (s : State) (b : BitVec 1024) : State := match eventOf (blockEvent b 4) with | some n => signalEvent s n | none => s

/-- R39: the next LID: 0 is skipped. -/
def nextLid (lid : Word) : Word := if lid + 1 = 0 then 1 else lid + 1

/-- R39: a block accepted: LID and HELD written. -/
def acceptLaunch (s : State) (pa : DWord) (b : BitVec 1024) : State :=
  let lid := nextLid s.hub.lastLid
  let l : Launch :=
    { pa := pa, block := b, lid := lid, accepted := s.hub.accepts, state := .held, satisfied := 0, pendingSince := none, x0 := 0, y0 := 0, placedAt := 0
      nextGroup := [], claimed := [], running := [], started := false, everPlaced := false, clearAt := none }
  let s := { s with hub := { s.hub with lastLid := lid, accepts := s.hub.accepts + 1, launches := s.hub.launches ++ [l] } }
  putStatus (hubStore s (pa.toNat + 60) 4 lid.toNat) pa 1

/-- R39: a block refused: STATUS, TEND, and its event. -/
def refuseLaunch (s : State) (pa : DWord) (b : BitVec 1024) (code : Nat) : State :=
  signalOf (hubStore (putStatus s pa code) (pa.toNat + 72) 8 s.time.toNat) b

/-- R39: a block that has been read is checked, and the launch refused or accepted. -/
def takeBlockImage (s : State) (pa : DWord) : State :=
  let s := if isForeign (lineOf pa.toNat) then evictL2 s (lineOf pa.toNat) else s
  let (s, v, bad) := hubLoad (notePort s (lineOf pa.toNat)) pa.toNat 128
  if bad then report s (plainErr 13 false 0xFFFF pa.toNat 3)
  else
    let b := BitVec.ofNat 1024 v
    match refusal s b with
    | some code => refuseLaunch s pa b code
    | none => acceptLaunch s pa b

/-- R39: the block at the head of the launch FIFO is read, once its request and reply have crossed (R376, R377) and no migration holds
its line (R389). -/
def readBlock (s : State) : State :=
  match s.hub.fifo with
  | [] => s
  | pa :: rest =>
    let taken (s : State) : State := { s with hub := { s.hub with fifo := rest, fifoWay := Transit.first s.time } }
    let unread (s : State) : State := report (taken s) (plainErr 13 false 0xFFFF pa.toNat 2)
    if !engineReach s pa then unread s
    else if lineMoving s (lineOf pa.toNat) then noteLate s (lineOf pa.toNat)
    else match s.hub.fifoWay.passage s.time (isForeign (lineOf pa.toNat)) with
      | .waits => s
      | .failed => unread s
      | .goes =>
        let (s, good) := hubFlit s
        if good then takeBlockImage (taken s) pa else { s with hub := { s.hub with fifoWay := s.hub.fifoWay.lost s.time } }

/-! ### Group order (R25 to R27) -/

/-- R26: the point of a Morton curve. -/
def mortonPoint : Nat → Nat → Nat × Nat
  | 0, _ => (0, 0)
  | n + 1, d =>
    let p := mortonPoint n (d / 4)
    (2 * p.1 + d % 2, 2 * p.2 + d / 2 % 2)

/-- R26: the point of a Hilbert curve, for sides up to 2¹⁶. -/
def hilbertPoint (side : Nat) : Nat → Nat → Nat → Nat × Nat → Nat × Nat
  | 0, _, _, p => p
  | fuel + 1, sd, t, (x, y) =>
    if sd < side then
      let rx := t / 2 % 2
      let ry := (t ^^^ rx) % 2
      let (x, y) := if ry = 0 then (let (x, y) := if rx = 1 then (sd - 1 - x, sd - 1 - y) else (x, y); (y, x)) else (x, y)
      hilbertPoint side fuel (sd * 2) (t / 4) (x + sd * rx, y + sd * ry)
    else (x, y)

/-- The smallest power of two that is not less than a number, up to 2¹⁶. -/
def coverSide (n : Nat) : Nat := ((List.range 17).map (2 ^ ·)).find? (n ≤ ·) |>.getD 65536

/-- The m-th point of a curve from point d on that lies in the space. -/
def curvePoint (f : Nat → Nat × Nat) (gx gy : Nat) : Nat → Nat → Nat → Nat × Nat
  | 0, _, _ => (0, 0)
  | fuel + 1, d, m =>
    let p := f d
    if p.1 < gx ∧ p.2 < gy then (if m = 0 then p else curvePoint f gx gy fuel (d + 1) (m - 1))
    else curvePoint f gx gy fuel (d + 1) m

/-- R25: row order with bands of `w` rows. -/
def rowOrder (w gx gy m : Nat) : Nat × Nat :=
  let band := m / (w * gx)
  let r := m % (w * gx)
  let h := min w (gy - band * w)
  (r / h, band * w + r % h)

/-- R25, R26: the coordinate of group n. -/
def groupCoord (b : BitVec 1024) (n : Nat) : Nat × Nat × Nat :=
  let (gx, gy, _) := blockGroups b
  let per := gx * gy
  let m := n % per
  let w := 2 ^ blockField b 150 3
  let side := coverSide (max gx gy)
  let p := match blockField b 148 2 with
    | 0 => rowOrder w gx gy m
    | 1 => (rowOrder w gy gx m).swap
    | 2 => curvePoint (mortonPoint 16) gx gy (side * side) 0 m
    | _ => curvePoint (fun d => hilbertPoint side 17 1 d (0, 0)) gx gy (side * side) 0 m
  (p.1, p.2, n / per)

/-! ### Footprints and plots (R23, R24) -/

/-- The footprint of a placed launch. -/
def Launch.rect (l : Launch) : Rect := { blockRect l.block with x := l.x0, y := l.y0 }

/-- The plots of a row, and their number. -/
def Launch.plots (l : Launch) : Nat × Nat :=
  let r := blockRect l.block
  let p := blockPlot l.block
  (r.w / p.1, r.w / p.1 * (r.h / p.2))

/-- A plot of a placed launch. -/
def Launch.plotRect (l : Launch) (p : Nat) : Rect :=
  let (pw, ph) := blockPlot l.block
  { x := l.x0 + pw * (p % l.plots.1), y := l.y0 + ph * (p / l.plots.1), w := pw, h := ph }

/-- The next group of a plot (R27). -/
def Launch.next (l : Launch) (p : Nat) : Nat := (l.nextGroup.find p).getD p

/-- A launch by its LID. -/
def launchOf (s : State) (lid : Word) : Option Launch := s.hub.launches.find? fun l => l.lid == lid

/-! ### Placement (R41, R42) -/

/-- Whether a launch occupies its footprint (R40). -/
def Launch.occupies (l : Launch) : Bool := l.state != .held

/-- R41: a footprint is free: no core of it belongs to a placed launch, and its clusters are ready. -/
def rectFree (s : State) (r : Rect) : Bool := (s.hub.launches.all fun l => !(l.occupies && l.rect.overlaps r)) && rectReady s r

/-- R41: the order of consideration: priority, highest first, then acceptance, earliest first. -/
def before (a b : Launch) : Bool :=
  (blockPri b.block).toNat < (blockPri a.block).toNat || (blockPri a.block == blockPri b.block && a.accepted ≤ b.accepted)

/-- A launch put in its place. -/
def insertLaunch (l : Launch) : List Launch → List Launch
  | [] => [l]
  | m :: r => if before l m then l :: m :: r else m :: insertLaunch l r

/-- The pending launches in the order of consideration (R42); a kill takes its context's launches out (R365). -/
def pendingLaunches (s : State) : List Launch :=
  (s.hub.launches.filter fun l => l.state == .held && l.pendingSince.isSome && !beingKilled s (blockCtx l.block)).foldr insertLaunch []

/-- R336: the waits of a launch that have been found satisfied. -/
def testWaits (s : State) (l : Launch) : BitVec 4 :=
  (List.range 4).foldl (fun m i =>
    match eventOf (blockEvent l.block i) with
    | some n => if (s.hub.regs.events.find n).getD 0 = 0 then m else putBit m i true
    | none => putBit m i true) l.satisfied

/-- R42, R336: the waits tested; a launch whose waits are all satisfied is pending from now. -/
def testLaunch (s : State) (l : Launch) : Launch :=
  if l.state = .held then
    let m := testWaits s l
    { l with satisfied := m, pendingSince := if m = BitVec.allOnes 4 then (if l.pendingSince.isSome then l.pendingSince else some s.time) else none }
  else l

/-- R41: where a launch can go past the blockers before it: a fixed footprint, or the first free position. -/
def placeFor (s : State) (blockers : List Launch) (l : Launch) : Option Rect :=
  let fixed := (blockers.filter fun b => !blockAny b.block).map fun b => blockRect b.block
  let ok (r : Rect) : Bool := rectFree s r && fixed.all fun f => !f.overlaps r
  if blockers.any fun b => blockAny b.block then none
  else if blockAny l.block then
    let r := blockRect l.block
    let (pw, ph) := blockPlot l.block
    ((List.range ((64 - r.h) / ph + 1)).flatMap fun j => (List.range ((48 - r.w) / pw + 1)).map fun i =>
      ({ r with x := pw * i, y := ph * j } : Rect)).find? ok
  else if ok (blockRect l.block) then some (blockRect l.block) else none

/-- The first pending launch that can be placed, and where. -/
def firstPlace (s : State) : List Launch → List Launch → Option (Launch × Rect)
  | _, [] => none
  | blockers, l :: rest =>
    match placeFor s blockers l with
    | some r => some (l, r)
    | none => firstPlace s (blockers ++ [l]) rest

/-- R41: the waits tested, then the first placeable launch placed: STATUS becomes RUNNING. -/
def placeLaunch (s : State) : State :=
  let s := { s with hub := { s.hub with launches := s.hub.launches.map (testLaunch s) } }
  match firstPlace s [] (pendingLaunches s) with
  | none => s
  | some (l, r) =>
    let s := modLaunch s l.lid fun l =>
      { l with state := .placed, x0 := r.x, y0 := r.y, placedAt := s.hub.places, everPlaced := true, pendingSince := none, clearAt := none }
    putStatus { s with hub := { s.hub with places := s.hub.places + 1 } } l.pa 2

/-- One aging period in ticks (R44). -/
def agingTicks : Nat := 8388608

/-- The most recently placed of some launches. -/
def lastPlaced : List Launch → Option Launch
  | [] => none
  | l :: r => match lastPlaced r with
    | some m => if m.placedAt < l.placedAt then some l else some m
    | none => some l

/-- R42: the launch that a blocked one asks to give way: the most recently placed launch of lower priority in its way, unless it is
giving way already. -/
def preemptVictim (s : State) (l : Launch) : Option Launch :=
  match lastPlaced (s.hub.launches.filter fun m =>
      m.occupies && blockPri m.block != (3 : BitVec 2) && (blockAny l.block || m.rect.overlaps (blockRect l.block))) with
  | some m => if m.state == .placed then some m else none
  | none => none

/-- R42: a priority-3 launch that has been pending for four aging periods pre-empts a launch of lower priority in its way; of several
such launches the first in the order of consideration that has one. -/
def priorityPreempt (s : State) : State :=
  let waited (l : Launch) : Bool := blockPri l.block == (3 : BitVec 2) &&
    (match l.pendingSince with | some t => decide (4 * agingTicks ≤ (s.time - t).toNat) | none => false)
  match ((pendingLaunches s).filter waited).findSome? (preemptVictim s) with
  | none => s
  | some m => preemptLaunch s m.lid

/-! ### Ready queues (R28, R44) -/

/-- R44: the effective level of an entry. -/
def readyLevel (now : DWord) (e : ReadyEntry) : Nat := min 4 (e.pri.toNat + (now - e.age).toNat / agingTicks)

/-- R44: the rank among entries of one level and age: handlers first, by tag. -/
def readyRank (e : ReadyEntry) : Nat := match e.kind with | .handler t => t.toNat | .claim _ _ => 4096

/-- R44: whether an entry goes before another. -/
def readyBefore (now : DWord) (a b : ReadyEntry) : Bool :=
  readyLevel now b < readyLevel now a || (readyLevel now a == readyLevel now b &&
    (a.age < b.age || (a.age == b.age && readyRank a ≤ readyRank b)))

/-- An entry put in its place. -/
def insertReady (now : DWord) (e : ReadyEntry) : List ReadyEntry → List ReadyEntry
  | [] => [e]
  | f :: r => if readyBefore now e f then e :: f :: r else f :: insertReady now e r

/-- R28, R44: a core ranks its ready queue afresh. -/
def rankReady (now : DWord) (k : Core) : Core :=
  { k with tables := { k.tables with ready := k.tables.ready.foldr (insertReady now) [] } }

/-- The entry that a free core takes next. -/
def readyHead (now : DWord) (k : Core) : Option ReadyEntry := (rankReady now k).tables.ready.head?

/-- R28, R30: a core is free: it runs no task, its last handler's sends have left, and it is neither halted nor fenced. -/
def coreFree (s : State) (k : Core) : Bool := s.hub.regs.power.on && !k.halted && !k.fenced && k.task.isNone && k.queues.send.isEmpty

/-- R363: a plot has lost a core, and runs no further group (log 25). -/
def plotLost (s : State) (l : Launch) (p : Nat) : Bool := (l.plotRect p).cores.any fun c => (getCore s c).fenced

/-- R28: the concierge posts the claim of a plot's next group at one tick, once the plot's group before it has ended (R27). -/
def postClaim (s : State) (lid : Word) (p : Nat) : State :=
  match launchOf s lid with
  | none => s
  | some l =>
    if l.state ≠ .placed ∨ beingKilled s (blockCtx l.block) ∨ l.plots.2 ≤ p ∨ plotLost s l p ∨ countAt l.running p ≠ 0 ∨ (l.claimed.find p).isSome ∨ groupTotal l.block ≤ l.next p then s
    else
      let e : ReadyEntry := { kind := .claim lid p, ctx := blockCtx l.block, pri := blockPri l.block, age := s.time }
      let add (k : Core) : Core := rankReady s.time (noteActivity { k with tables := { k.tables with ready := k.tables.ready ++ [e] } } e.ctx)
      let s := (l.plotRect p).cores.foldl (fun s c => updCore s c add) s
      modLaunch s lid fun l => { l with claimed := l.claimed.put p (l.next p) }

/-! ### The start of a task (R29, R107, R192, R214, R296, R318) -/

/-- Every byte of a core's scratchpad zeroed. -/
def zeroScratch (s : State) (c : CoreId) : State :=
  let lo := sramKey c 0
  let hi := lo + 2 ^ 20
  { s with store := { s.store with
      bytes := s.store.bytes.filter fun e => e.1 < lo || hi ≤ e.1
      psn := s.store.psn.filter fun w => 4 * w < lo || hi ≤ 4 * w } }

/-- Every dirty line of a core's L1 and lodge partitions pushed, and every line of them invalid, which ends its registrations
(R201). -/
def flushPool (s : State) (c : CoreId) : State :=
  let s := ((getCore s c).l1.map Prod.fst).foldl (fun s l => pushL1 s c l) s
  let s := { s with hub := { s.hub with owners := s.hub.owners.filter fun e => e.2 != c } }
  updCore s c fun k => { k with l1 := [] }

/-- The copies that a core holds for its cluster pushed and dropped. -/
def giveUpHomes (s : State) (c : CoreId) : State := ((getCore s c).homes.map Prod.fst).foldl (fun s l => pushHome s c l true) s

/-- R318: held lodge descriptors are written back CLOSED with no holder. -/
def closeLodges (s : State) (c : CoreId) : State :=
  let s := (getCore s c).tables.lodges.foldl (fun s g => writeRecordOf s g (({ g with state := 0 } : Lodge).image 0)) s
  updCore s c fun k => { k with tables := { k.tables with lodges := [] } }

/-- R318: what a core does before the first task of another tenant: the lines that it owns are disowned as they are pushed and dropped. Of its
translations it keeps those that other tenants' tasks have made under ASIDs that the previous task's tenant does not have (log 54). -/
def tenantChange (s : State) (c : CoreId) : State :=
  let k := getCore s c
  let old := k.prevTenant
  let asids := k.tregs.asid :: ((s.hub.contexts.filter fun x => x.tenant == old).map Context.asid
    ++ (k.tables.tlb.filter fun t => t.tenant == old).map TlbEntry.asid)
  let keys := (k.tables.route.filter fun e => e.tenant == old).map RouteEntry.key
  let s := closeLodges (giveUpHomes s c) c
  let s := zeroScratch (flushPool s c) c
  let s := keys.foldl (fun s key => removeRoute s c key) s
  updCore s c fun k =>
    { k with
      files := Files.reset
      queues := { k.queues with sq := Vector.replicate 8 [], rq := Vector.replicate 8 [], inq := Vector.replicate 8 [] }
      tables := { k.tables with
        book := Vector.replicate 32 none, slots := [], tlb := k.tables.tlb.filter fun t => !asids.contains t.asid } }

/-- R107: what a core does before the first task with other pool boundaries. The L1 partition also holds the copies of its cluster
(R195). -/
def poolChange (s : State) (c : CoreId) : State := zeroScratch (flushPool (giveUpHomes s c) c) c

/-- Whether a task with some registers starts in another pool (R107). -/
def poolMoves (k : Core) (t : TaskRegs) : Bool := k.tregs.bnda != t.bnda || k.tregs.bndb != t.bndb || k.tregs.bndc != t.bndc

/-- Whether a task with some registers is the first of another tenant on a core (R318). -/
def tenantMoves (k : Core) (t : TaskRegs) : Bool := k.hasRun && k.prevTenant != t.tenant

/-- The pushes that a core makes before a task with some registers starts: those of its pool where that is given up (R107, R318), and those
of its acquire (R214). -/
def startPushes (s : State) (c : CoreId) (t : TaskRegs) : List (CoreId × Push) :=
  let k := getCore s c
  (if poolMoves k t || tenantMoves k t then
    k.l1.map (fun e => (c, Push.line e.1)) ++ k.homes.map fun e => (c, Push.home e.1 true) else [])
  ++ acquirePushes s c .sys allRegions

/-- The pushes before the start of tasks. -/
def sendStarts (s : State) (l : List (CoreId × TaskRegs)) : State := l.foldl (fun s e => sendPushes s e.1 (startPushes s e.1 e.2)) s

/-- Whether tasks can start: no push before them is still to come (R377). -/
def startsReady (s : State) (l : List (CoreId × TaskRegs)) : Bool := l.all fun e => !pushesLeft s e.1 (startPushes s e.1 e.2)

/-- R296: the commutative declarations in force. -/
def declarations (s : State) : Tab (BitVec 3 × BitVec 4) :=
  s.hub.regs.regions.filterMap fun e => if bitAt e.2 33 then some (e.1, slice e.2 34 3, slice e.2 37 4) else none

/-- What R29 sets that differs between tasks. -/
structure Start where
  task : Task
  tregs : TaskRegs
  entry : DWord
  args : DWord

/-- R29, R214, R101: a task starts on a core. Before the core's first task the reset values of BNDA, BNDB and BNDC stand for a previous task's
(R107, log 53). -/
def startTask (s : State) (c : CoreId) (st : Start) : State :=
  let k := getCore s c
  let s := if tenantMoves k st.tregs then tenantChange s c else s
  let s := if poolMoves k st.tregs then poolChange s c else s
  let s := acquire s c .sys allRegions
  let d := declarations s
  let s := updCore s c fun k =>
    noteActivity
      { k with
        pc := st.entry, level := .task, task := some st.task, ending := false, handlerAborted := false, returned := 0, unbound := false
        evictFault := none, poisoned := [], pend := Pending.none
        tregs := st.tregs
        files := { Files.reset with s := Files.reset.s.set 4 st.args }
        queues := { k.queues with
          sq := Vector.replicate 8 [], rq := Vector.replicate 8 [], inq := Vector.replicate 8 [], outPending := [], popped := [], results := [] }
        streams := { Streams.reset with lazyV := k.streams.lazyV, lazyM := k.streams.lazyM }
        tables := { k.tables with decls := d, book := Vector.replicate 32 none } } st.task.ctx
  let s := { s with hub := { s.hub with copies := s.hub.copies.filter fun x => !(x.core == c && x.orphan && x.done) } }
  markDie s c (dieOf c)

/-- RBASE of a task of a context on a core (R29). -/
def rbaseOf (x : Context) (c : CoreId) : DWord := x.rarea + BitVec.ofNat 64 (262144 * c.toNat)

/-- R29, R102: the special registers of a launch's task: group n on a plot, by rank. -/
def launchRegs (l : Launch) (x : Context) (c : CoreId) (n rank : Nat) : TaskRegs :=
  let b := l.block
  let g := groupCoord b n
  let r := l.rect
  let p := blockPlot b
  let bnd := blockBnd b
  let prot : BitVec 1 := slice b 146 1
  { TaskRegs.reset with
    vl := if prot = 1 then 32 else 64
    prot := prot
    foot := BitVec.ofNat 48 (packAt [(0, r.x), (8, r.y), (16, r.w), (24, r.h), (32, p.1), (40, p.2)])
    group := BitVec.ofNat 48 (packAt [(0, g.1), (16, g.2.1), (32, g.2.2)])
    taskid := BitVec.ofNat 64 (packAt [(0, n), (32, rank)])
    budget := blockBudget b
    rbase := rbaseOf x c
    tenant := x.tenant, asid := x.asid, ptroot := x.ptroot
    bnda := BitVec.ofNat 8 bnd.1, bndb := BitVec.ofNat 8 bnd.2.1, bndc := BitVec.ofNat 8 bnd.2.2 }

/-- The claim that a launch has posted for a plot stands at the head of a free core's ready queue: the core is held for it (R28). -/
def heldFor (s : State) (lid : Word) (p : Nat) (c : CoreId) : Bool :=
  let k := getCore s c
  coreFree s k && (match readyHead s.time k with | some e => e.kind == .claim lid p | none => false)

/-- The start of group n on the cores of a plot, by rank. -/
def startCores (l : Launch) (x : Context) (p n : Nat) : List (Nat × CoreId) → State → State
  | [], s => s
  | (rank, c) :: r, s =>
    let s := updCore s c fun k => { k with tables := { k.tables with ready := k.tables.ready.filter fun e => e.kind != .claim l.lid p } }
    let t : Task := { ctx := blockCtx l.block, lid := l.lid, plot := p, group := n, fixk := bitAt l.block 147, handler := none }
    startCores l x p n r
      (startTask s c { task := t, tregs := launchRegs l x c n rank, entry := blockEntryPc l.block, args := slice l.block 64 64 })

/-- R28: the gang of a plot's claim starts, once every core of the plot is held for it and what the cores push before it has been performed
(R107); the launch's first start writes TSTART (R36). -/
def gangStart (s : State) (lid : Word) (p : Nat) : State :=
  match launchOf s lid with
  | none => s
  | some l =>
    match l.claimed.find p, findContext s (blockCtx l.block) with
    | some n, some x =>
      let cores := (l.plotRect p).cores
      if l.state ≠ .placed ∨ beingKilled s (blockCtx l.block) ∨ ¬ cores.all (heldFor s lid p) then s
      else
        let members := (List.range cores.length).zip cores
        let starts := members.map fun e => (e.2, launchRegs l x e.2 n e.1)
        let s := sendStarts s starts
        if !startsReady s starts then s
        else
          let s := modLaunch s lid fun l =>
            { l with claimed := l.claimed.del p, nextGroup := l.nextGroup.put p (n + l.plots.2), running := l.running.put p cores.length, started := true }
          let s := if l.started then s else hubStore s (l.pa.toNat + 64) 8 s.time.toNat
          startCores l x p n members s
    | _, _ => s

/-- R29, R102: the special registers of a handler task. -/
def handlerRegs (k : Core) (e : RouteEntry) (x : Context) (c : CoreId) : TaskRegs :=
  { TaskRegs.reset with
    taskid := BitVec.ofNat 64 (2 ^ 63), budget := e.budget, rbase := rbaseOf x c, tenant := x.tenant, asid := x.asid, ptroot := x.ptroot
    bnda := k.tregs.bnda, bndb := k.tregs.bndb, bndc := k.tregs.bndc }

/-- R31, R44: a free core takes the wake-up at the head of its ready queue and starts the handler. -/
def handlerStart (s : State) (c : CoreId) : State :=
  let k := getCore s c
  if !coreFree s k then s
  else
    match (readyHead s.time k).map ReadyEntry.kind with
    | some (.handler tag) =>
      match routeOf k tag with
      | none => s
      | some e =>
        match (if beingKilled s e.ctx then none else findContext s e.ctx) with
        | none => s
        | some x =>
          let starts := [(c, handlerRegs k e x c)]
          let s := sendStarts s starts
          if !startsReady s starts then s
          else
            let s := updCore s c fun k => { k with tables := { k.tables with ready := k.tables.ready.filter fun e => e.kind != .handler tag } }
            let t : Task := { ctx := e.ctx, lid := 0, plot := 0, group := 0, fixk := false, handler := some tag }
            startTask s c { task := t, tregs := handlerRegs k e x c, entry := e.entry, args := 0 }
    | _ => s

/-! ### Completion (R47, R48) -/

/-- R47: whether a core or its router holds something of a context; a fenced core is forced idle (R363). -/
def coreBusy (s : State) (ctx : HWord) (c : CoreId) : Bool :=
  let k := getCore s c
  !k.fenced && (ctxOf k == ctx && k.task.isSome
    || k.tables.ready.any (fun e => e.ctx == ctx)
    || k.queues.recv.any (fun r => r.pkt.ctx == ctx)
    || k.queues.send.any (fun p => p.ctx == ctx))

/-- R47: whether something of a context is in flight from or to a core of a footprint, or through its routers. -/
def flightBusy (s : State) (ctx : HWord) (r : Rect) : Bool :=
  s.hub.copies.any (fun x => x.ctx == ctx && !x.done && r.has x.core)
    || s.hub.pushes.any (fun m => !m.failed && r.has m.core && (m.load.writer.setWidth 16 == ctx || ctxOf (getCore s m.core) == ctx))
    || s.hub.net.any (fun p => p.ctx == ctx && (r.routerOn p.src p.dst).isSome)
    || s.hub.drains.any (fun d => d.ctx == ctx && d.reply.isNone && (r.routerOn d.src d.dst).isSome)
    || s.hub.relay.any (fun m => m.ctx == ctx && ((m.node.toList ++ (rowSender s m).toList).any r.has))
    || s.hub.down.any (fun m => m.ctx == ctx && (m.path s).any r.has)

/-- R47: a packet of a context that has passed from a core to another has set an activity bit in every footprint of the context on its
way. -/
def markPassage (s : State) (ctx : HWord) (a b : CoreId) : State :=
  (s.hub.launches.filter fun l => l.occupies && blockCtx l.block == ctx).foldl (fun s l =>
    match l.rect.routerOn a b with
    | some c => updCore s c fun k => noteActivity k ctx
    | none => s) s

/-- R47: whether a sample of a launch's idle tree is clear. -/
def sampleClear (s : State) (l : Launch) : Bool :=
  let ctx := blockCtx l.block
  l.rect.cores.all (fun c => !coreBusy s ctx c && ((getCore s c).fenced || !(getCore s c).activity.contains ctx)) && !flightBusy s ctx l.rect

/-- The activity bits of a launch's context are cleared as they are sampled. -/
def clearActivity (s : State) (l : Launch) : State :=
  (l.rect.cores.filter fun c => (getCore s c).activity.contains (blockCtx l.block)).foldl
    (fun s c => updCore s c fun k => { k with activity := k.activity.filter (· != blockCtx l.block) }) s

/-- R48: a launch is complete: its footprint is released, TEND and DONE are written, and its event is signalled. -/
def completeLaunch (s : State) (l : Launch) : State := signalOf (endLaunch s l 4) l.block

/-- R47: the idle tree of a launch all of whose groups have been dealt is sampled; two clear samples 4,096 ticks apart complete it. -/
def idleSample (s : State) (lid : Word) : State :=
  match launchOf s lid with
  | none => s
  | some l =>
    if l.state ≠ .placed ∨ ¬ (List.range l.plots.2).all (fun p => groupTotal l.block ≤ l.next p || plotLost s l p) then s
    else
      let clear := sampleClear s l
      match l.clearAt with
      | some t =>
        if (s.time - t).toNat < 4096 then s
        else if clear then completeLaunch (clearActivity s l) l
        else modLaunch (clearActivity s l) lid fun l => { l with clearAt := none }
      | none => modLaunch (clearActivity s l) lid fun l => { l with clearAt := if clear then some s.time else none }

end Sys2Proof.Machine
end

