-- ==== Sys2Proof/Machine/LaunchEvents.lean ====
section
/-!
DEFINITION. The events of the concierge and of the tasks (R28 to R31, R39 to R47), and the commands of the host (R385). An event
whose condition does not hold changes nothing.
-/

namespace Sys2Proof.Machine

/-- An event that changes the state where it is well formed, as its operands say, and the package has power. -/
def event (ok : Bool) (f : State → State) (s : State) : Out :=
  if !ok then .fault .badEvent else .next (if s.hub.regs.power.on then f s else s)

/-- LPUSH: the host writes LPUSH (R384). -/
def execLpush (v : DWord) (s : State) : Out := event true (fun s => launchPush s v) s

/-- CONCIERGE_READ_BLOCK (R39). -/
def execConciergeReadBlock (s : State) : Out := event true readBlock s

/-- PLACE_LAUNCH (R41). -/
def execPlaceLaunch (s : State) : Out := event true placeLaunch s

/-- PRIORITY_PREEMPT (R42). -/
def execPriorityPreempt (s : State) : Out := event true priorityPreempt s

/-- POST_CLAIM (R28). -/
def execPostClaim (lid : Word) (plot : BitVec 12) (s : State) : Out :=
  event true (fun s => postClaim s lid plot.toNat) s

/-- GANG_START (R28). -/
def execGangStart (lid : Word) (plot : BitVec 12) (s : State) : Out :=
  event true (fun s => gangStart s lid plot.toNat) s

/-- HANDLER_START (R31). -/
def execHandlerStart (c : CoreId) (s : State) : Out := event (isCore c) (fun s => handlerStart s c) s

/-- AGING_PERIOD (R44). -/
def execAgingPeriod (c : CoreId) (s : State) : Out :=
  event (isCore c) (fun s => updCore s c (rankReady s.time)) s

/-- R46, R334: the last cycle of a task's budget at task level ends: BUDGET is 0, and the BUDGET trap is due at the next boundary. -/
def expireBudget (k : Core) : Core :=
  if k.level = .task ∧ k.task.isSome ∧ k.tregs.budget = 1 then
    { k with tregs := { k.tregs with budget := 0 }, pend := { k.pend with budget := true } }
  else k

/-- BUDGET_EXPIRY (R46). -/
def execBudgetExpiry (c : CoreId) (s : State) : Out := event (isCore c) (fun s => updCore s c expireBudget) s

/-- TASK_END (R30). -/
def execTaskEnd (c : CoreId) (s : State) : Out := event (isCore c) (fun s => finishTask s c) s

/-- IDLE_SAMPLE (R47). -/
def execIdleSample (lid : Word) (s : State) : Out := event true (fun s => idleSample s lid) s

/-! ### Commands (R384, R385) -/

/-- A command of the host: CMDARG written, then OP. -/
def hostCommand (op : BitVec 4) (arg : DWord) (s : State) : State := startCommand (putArg s false arg) false op

/-- REGCTX (R385). -/
def execRegctx (arg : DWord) (s : State) : Out := event true (hostCommand 1 arg) s

/-- UNREGCTX (R385). -/
def execUnregctx (ctx : HWord) (s : State) : Out := event true (hostCommand 2 (ctx.setWidth 64)) s

/-- KILL (R365, R385). -/
def execKill (ctx : HWord) (s : State) : Out := event true (hostCommand 3 (ctx.setWidth 64)) s

/-- PREEMPT (R43, R385). -/
def execPreempt (lid : Word) (s : State) : Out := event true (hostCommand 4 (lid.setWidth 64)) s

/-- MIGRATE (R389). -/
def execMigrate (arg : DWord) (s : State) : Out := event true (hostCommand 5 arg) s

/-! ### The registers of the hub (R383) -/

/-- REGION_TABLE_WRITE (R294): the host or the board writes an entry. -/
def execRegionTableWrite (g : Byte) (v : DWord) (s : State) : Out :=
  event true (fun s => regionWrite s g.toNat v) s

/-- EVENT_COUNTER_WRITE (R336). -/
def execEventCounterWrite (n : BitVec 12) (v : Word) (s : State) : Out :=
  event true (fun s => regWrite s .host (.event n.toNat) (v.setWidth 64) (v.setWidth 64) true) s

/-- REGISTER_WRITE (R383): the host writes the 8 bytes of a register. -/
def execRegisterWrite (off : BitVec 25) (v : DWord) (s : State) : Out :=
  event true (fun s => blockWrite s .host (off.toNat / 8 * 8) 8 v.toNat) s

end Sys2Proof.Machine
end

