-- ==== Sys2Proof/Machine/CacheEvents.lean ====
section
/-!
DEFINITION. The events of the copies and tables: evictions, leases, recalls, partials and bumps (R105, R194 to R204, R291, R295),
and the duplicate filters, time-outs and lock queues of the homes (R235, R377, R378).
-/

namespace Sys2Proof.Machine

/-! ### The register cache (R105, R106, R302) -/

/-- What an eviction of a frame row does: a pinned row is unpicked, a row never written since the task's start stays as it reads, and any
other is written back if it is dirty, and is no longer resident. -/
def evictRow (c : CoreId) (n : BitVec 6) : M Unit := do
  let k ← theCore c
  if pinValid (pinOf k n) then modCore c fun k => runUnpick k n
  else
    match (getRow k n).res with
    | .zero | .gone => return ()
    | .clean | .dirty => do
      writeBackRow c n
      modCore c fun k => setRow k n { getRow k n with res := .gone }

/-- The same for a quarter of the scale file. -/
def evictScales (c : CoreId) (q : Nat) : M Unit := do
  match scaleRes (← theCore c) q with
  | .zero | .gone => return ()
  | .clean | .dirty => do
    writeBackScales c q
    modCore c fun k => setScaleRes k q .gone

/-- R106: the eviction of an item; one whose write-back faults stays resident and dirty, and the next instruction that takes a block meets
the fault. -/
def evictItem (s : State) (c : CoreId) (item : BitVec 7) : State :=
  let n := item.toNat
  let r := if n < 64 then evictRow c (item.setWidth 6) s else if n < 68 then evictScales c (n - 64) s else .ok () s
  match r with
  | .ok _ s' => s'
  | .error (.trap t) _ => updCore s c fun k => { k with evictFault := some t }
  | .error _ _ => s

/-- REGISTER_CACHE_EVICT (R105): items 0 to 63 are the frame rows, 64 to 67 the quarters of the scale file. -/
def execRegisterCacheEvict (c : CoreId) (item : BitVec 7) (s : State) : Out :=
  event (isCore c) (fun s => evictItem s c item) s

/-! ### Copies of lines (R194 to R204) -/

/-- L1_EVICT (R194). -/
def execL1Evict (c : CoreId) (line : BitVec 45) (s : State) : Out := event (isCore c) (fun s => evictL1 s c line.toNat) s

/-- CLUSTER_HOME_EVICT (R195). -/
def execClusterHomeEvict (c : CoreId) (line : BitVec 45) (s : State) : Out :=
  event (isCore c) (fun s => pushHome s c line.toNat true) s

/-- R200: a line whose LEASE1 bound has passed is stale; an owned line has no lease. -/
def expireL1 (now : DWord) (line : Nat) (k : Core) : Core :=
  match k.l1.find line with
  | some l => if !l.owned && decide (l.lease.toNat ≤ (now - l.filled).toNat) then { k with l1 := k.l1.put line { l with stale := true } } else k
  | none => k

/-- LEASE1_EXPIRY (R200). -/
def execLease1Expiry (c : CoreId) (line : BitVec 45) (s : State) : Out :=
  event (isCore c) (fun s => updCore s c (expireL1 s.time line.toNat)) s

/-- LEASE2_EXPIRY (R200). -/
def execLease2Expiry (line : BitVec 45) (s : State) : Out := event true (fun s => expireL2 s line.toNat) s

/-- RECALL (R202). -/
def execRecall (line : BitVec 45) (s : State) : Out := event true (fun s => recallLine s none line.toNat) s

/-- PARTIAL_PUSH (R203). -/
def execPartialPush (c : CoreId) (w : BitVec 50) (s : State) : Out := event (isCore c) (fun s => pushPartial s c w.toNat) s

/-- R295: the bumps of a region that a core has sent at a release and that await their acknowledgement have a turn. -/
def moveBumps (s : State) (c : CoreId) (g : Nat) : State :=
  (s.hub.pushes.filter fun m => m.core == c && m.push == .bump g).foldl movePush s

/-- VERSION_BUMP (R295): a bump of a core reaches the hub; none is sent but at the releases that R295 names. -/
def execVersionBump (c : CoreId) (g : Byte) (s : State) : Out := event (isCore c) (fun s => moveBumps s c g.toNat) s

/-- R182, R198: a slice evicts a copy, but for a pinned one. -/
def evictSlice (s : State) (line : Nat) : State :=
  match s.l2.find line with
  | some l => if l.pinned then s else spillL2 s line
  | none => s

/-- L2_EVICT (R182). -/
def execL2Evict (line : BitVec 45) (s : State) : Out := event true (fun s => evictSlice s line.toNat) s

/-- TLB_EVICT (R291): the entry at a place of the core's TLB. -/
def execTlbEvict (c : CoreId) (k : Nat) (s : State) : Out :=
  event (isCore c) (fun s => updCore s c fun d => { d with tables := { d.tables with tlb := dropNth d.tables.tlb k } }) s

/-! ### Requests of a core (R235, R376 to R378) -/

/-- R377: a request without a reply at its time-out: it is due to be reissued, and after the third reissue it has failed. One that its home
holds is not lost. -/
def Remote.expired (r : Remote) (now : DWord) : Option Remote :=
  if r.due || r.failed || r.held || (now - r.issued).toNat < timeoutTicks r.long then none
  else if r.reissues < 3 then some { r with due := true }
  else some { r with failed := true }

/-- R377: the time-outs of a core's requests, that of the control thread before those of the posted streams. -/
def timeOut (now : DWord) (k : Core) : Core :=
  match k.remote.bind fun r => r.expired now with
  | some r => { k with remote := some r }
  | none =>
    match k.posted.findSome? fun e => (e.2.expired now).map fun r => (e.1, r) with
    | some (n, r) => { k with posted := k.posted.put n r }
    | none => k

/-- REQUEST_TIMEOUT (R377). -/
def execRequestTimeout (c : CoreId) (s : State) : Out := event (isCore c) (fun s => updCore s c (timeOut s.time)) s

/-- R378: the records of L2 homes whose last copy arrived 262,144 ticks ago expire; those of a barrier's home or of a node stand until
their number comes again (R333). -/
def expireRecords (s : State) : State := { s with hub := { s.hub with dups := s.hub.dups.filter fun d => d.stands s.time } }

/-- DUPLICATE_RECORD_EXPIRY (R378). -/
def execDuplicateRecordExpiry (s : State) : Out := event true expireRecords s

/-- QLOCK_RETRY (R235): a refused request may be repeated 1,024 ticks later. -/
def execQlockRetry (c : CoreId) (s : State) : Out :=
  event (isCore c) (fun s => updCore s c fun k =>
    if mayRetry k s.time then { k with streams := { k.streams with qlockRefused := none } } else k) s

/-- QLOCK_GRANT (R235): a lock word of 0 with waiters is granted to the first. -/
def execQlockGrant (w : BitVec 50) (s : State) : Out :=
  event true (fun s => let s := openLock s w.toNat; if lockAt s w.toNat = 0 then grantAt s w.toNat else s) s

end Sys2Proof.Machine
end

