-- ==== Sys2Proof/Machine/CollInstr.lean ====
section
/-!
DEFINITION. The instructions of collectives (R275, R279, R280, R283).
-/

namespace Sys2Proof.Machine

/-! ### Descriptors (R274) -/

/-- A collective descriptor (R274). -/
structure Descriptor where
  gid : BitVec 12
  kind : BitVec 4
  op : BitVec 4
  fmt : BitVec 4
  root : HWord
  rows : BitVec 7
  src : BitVec 42
  dst : BitVec 42
  deriving DecidableEq, Repr

/-- R274: a descriptor from its 128 bytes. -/
def descriptorOf (v : Nat) : Descriptor :=
  { gid := BitVec.ofNat 12 v, kind := BitVec.ofNat 4 (v >>> 12), op := BitVec.ofNat 4 (v >>> 16), fmt := BitVec.ofNat 4 (v >>> 20)
    root := BitVec.ofNat 16 (v >>> 32), rows := BitVec.ofNat 7 (v >>> 64), src := BitVec.ofNat 42 (v >>> 128)
    dst := BitVec.ofNat 42 (v >>> 192) }

/-- The bits of a descriptor that are not zero by rule. -/
def descriptorFields : List (Nat × Nat) := [(0, 24), (32, 16), (64, 7), (128, 42), (192, 42)]

/-- R274: OP and FMT of a kind. -/
def opFmtOk (d : Descriptor) : Bool :=
  if d.kind.toNat ≤ 1 then
    match d.op.toNat with
    | 0 | 1 | 2 => d.fmt == 1 || d.fmt == 2 || d.fmt == 6 || d.fmt == 13
    | 3 | 4 | 5 => d.fmt == 11 || d.fmt == 6 || d.fmt == 13
    | _ => false
  else d.op == 0 && d.fmt == 0

/-- R274: the limits of a descriptor in a group of `nmem` members. -/
def descriptorOk (d : Descriptor) (nmem : Nat) : Bool :=
  d.kind.toNat ≤ 3 && opFmtOk d && (!(d.kind == 0 || d.kind == 2) || d.root.toNat < nmem) &&
    (if d.kind = 3 then d.rows == 0 && d.src.toNat % 128 == 0 && d.dst == 0
     else 1 ≤ d.rows.toNat && d.rows.toNat ≤ 64 && d.src.toNat % 256 == 0 && d.dst.toNat % 256 == 0)

/-- The descriptor at an address. -/
def readDescriptor (c : CoreId) (va : DWord) : M Nat := do
  require (va.toNat % 128 == 0) .misalign va
  readImage c va 128

/-- R275: the bytes of a contribution. -/
def srcBytes (d : Descriptor) : Nat := if d.kind = 3 then 16512 else 256 * d.rows.toNat

/-- R275: SRC and DST lie in the partition; the failing address is the one in the core's own window. -/
def checkRange (k : Core) (off : BitVec 42) (n : Nat) : M Unit :=
  require (off.toNat + n ≤ scratchSize k) .scratchRange ((0xFFFE : BitVec 64) <<< 48 ||| (63 : BitVec 64) <<< 42 ||| off.setWidth 64)

/-! ### `cstore` (R275) -/

/-- A row of a contribution from the scratchpad, as far as `n` bytes reach. -/
def storeRowAt (s : State) (key n : Nat) : Row :=
  { bits := BitVec.ofNat 2048 (memLoad s.store.bytes key n), psn := BitVec.ofNat 64 (psnLoad s.store.psn (key / 4) (n / 4)), tag := 0 }

/-- R274, R275: the rows that a member contributes; a member of a BCAST that is not its root has none. -/
def contribution (s : State) (c : CoreId) (d : Descriptor) (rank : HWord) : List Row :=
  if d.kind = 2 ∧ rank ≠ d.root then []
  else
    let n := srcBytes d
    (List.range ((n + 255) / 256)).map fun i => storeRowAt s (sramKey c (d.src.toNat + 256 * i)) (min 256 (n - 256 * i))

/-- R275: the checks of a group's entry and of the descriptor, in their order. -/
def cstoreEntry (c : CoreId) (sc : Scope) (va : DWord) (v : Nat) (wave : DWord) : M TreeEntry := do
  let k ← theCore c
  let d := descriptorOf v
  match treeAt (← get) (some c) d.gid with
  | none => raise .queueFault 0
  | some e => do
    require (e.member && e.ctx == ctxOf k) .queueFault 0
    require (!e.aborting) .collAborted va
    formatUnless (!strayBits descriptorFields v && descriptorOk d e.nmem.toNat && wave.toNat < 2 ^ 32 && e.ext.toNat ≤ sc.code
      && !(d.kind == 3 && 8 < e.nmem.toNat))
    require (wave.toNat == e.nextWave.toNat) .format (e.nextWave.setWidth 64)
    return e

/-- The slot that a `cstore` opens (R273). -/
def slotOf (k : Core) (sc : Scope) (d : Descriptor) (va : DWord) (wave : Word) : CollSlot :=
  { gid := d.gid, desc := va, wave := wave, kind := d.kind, dst := d.dst, root := d.root, rows := d.rows, scope := sc, ctx := ctxOf k
    sent := true, combined := false, delivered := false, aborted := false, timedOut := false, got := [], orphan := false }

/-- The contribution on its way to the core's own router (R276). -/
def relayOf (now : DWord) (k : Core) (c : CoreId) (d : Descriptor) (wave : Word) (rows : List Row) : RelayMsg :=
  { gid := d.gid, ctx := ctxOf k, tenant := k.tregs.tenant, wave := wave.setWidth 16, node := some c, port := 0, kind := d.kind, op := d.op, fmt := d.fmt
    rows := rows, out := false, way := Transit.first now }

/-- `cstore`. -/
def execCstore (sc : Scope) (rs1 rs2 : BitVec 5) (s : State) : Out :=
  if !(Instr.cstore sc rs1 rs2).wellFormed then trapNow s .illegalOp (encodingOf (.cstore sc rs1 rs2))
  else control (fun c => do
    gateAll c
    releaseNow c sc allRegions
    let k ← theCore c
    let va := getS k rs1
    let v ← readDescriptor c va
    let d := descriptorOf v
    let e ← cstoreEntry c sc va v (getS k rs2)
    let k ← theCore c
    checkRange k d.src (srcBytes d)
    checkRange k d.dst (256 * d.rows.toNat)
    let held := k.tables.slots
    require (!(held.length == 16 && held.all fun x => !x.orphan)) .queueFault 0
    awaitThat (held.length < 16)
    let rows := contribution (← get) c d e.rank
    modify fun s => modTree s (some c) d.gid fun e => { e with nextWave := e.nextWave + 1 }
    modCore c fun k => { k with tables := { k.tables with slots := k.tables.slots ++ [slotOf k sc d va e.nextWave] } }
    let now := (← get).time
    modHub fun h => { h with relay := h.relay ++ [relayOf now k c d e.nextWave rows] }) s

/-! ### `cwait` (R279, R280) -/

/-- The oldest open slot of the running task with a descriptor address: its place and itself. -/
def slotAt (k : Core) (va : DWord) : Option (Nat × CollSlot) :=
  ((List.range k.tables.slots.length).zip k.tables.slots).find? fun e => e.2.desc == va && !e.2.orphan

/-- A core without one of its slots. -/
def closeSlot (k : Core) (i : Nat) : Core := { k with tables := { k.tables with slots := dropNth k.tables.slots i } }

/-- R279: what a `cwait` does with its slot. -/
def waitSlot (c : CoreId) (va : DWord) (e : Nat) (i : Nat) (x : CollSlot) : M DWord := do
  if x.aborted then do
    modCore c fun k => closeSlot k i
    raise (if x.timedOut then .remoteTimeout else .collAborted) va
  else do
    awaitThat (match e with | 0 => x.sent | 1 => x.combined | _ => x.delivered)
    if e = 0 then pure () else acquireReady c x.scope allRegions
    if e = 2 then modCore c fun k => closeSlot k i else pure ()
    if e = 0 then pure () else acquireAfter c x.scope allRegions
    return BitVec.ofNat 64 (2 ^ 32 + x.wave.toNat)

/-- `cwait`. -/
def execCwait (rd rs1 : BitVec 5) (s : State) : Out :=
  controlTo rd (fun c => do
    let k ← theCore c
    let w := getS k rs1
    let e := w.toNat % 4
    require (w.toNat / 4 % 32 == 0) .misalign w
    formatUnless (e != 3)
    let va := w - BitVec.ofNat 64 e
    match slotAt k va with
    | none => return 0
    | some (i, x) => waitSlot c va e i x) s

/-! ### `cabort` (R283) -/

/-- `cabort`. -/
def execCabort (rs1 : BitVec 5) (s : State) : Out :=
  control (fun c => do
    let k ← theCore c
    let va := getS k rs1
    gateRead c va 128
    let d := descriptorOf (← readDescriptor c va)
    match treeAt (← get) (some c) d.gid with
    | none => raise .queueFault 0
    | some e => do
      require (e.ctx == ctxOf k) .queueFault 0
      modify fun s => startAbort s (some c) d.gid) s

end Sys2Proof.Machine
end

