-- ==== Sys2Proof/Machine/QueueEvents.lean ====
section
/-!
DEFINITION. The events of tiles, drains, packets, collectives, copies and the repeat sequencer (R158, R159, R179, R252 to R256,
R260, R266, R276 to R284, R376).
-/

namespace Sys2Proof.Machine

/-! ### Tiles (R158, R159) -/

/-- LATCH_LOAD_COMPLETE (R158). -/
def execLatchLoadComplete (c : CoreId) (l : BitVec 1) (s : State) : Out := event (isCore c) (fun s => loadComplete s c l) s

/-- HAND_ON (R159). -/
def execHandOn (c : CoreId) (l : BitVec 1) (s : State) : Out := event (isCore c) (fun s => handOn s c l) s

/-! ### Arrivals (R252) -/

/-- The rows that a receive buffer holds (R249). -/
def recvDepth : Nat := 64

/-- A packet appended to a receive buffer under its entry, which wakes its handler (R254). -/
def bufferPacket (now : DWord) (p : Packet) (k : Core) : Core :=
  wakeUp (noteActivity { k with queues := { k.queues with recv := k.queues.recv ++ [{ pkt := p, tick := now }] } } p.ctx) p.tag

/-- Whether a core takes no packet from another: it is fenced, or its die or one on the way is lost (R374, R375). -/
def deadWay (s : State) (a b : CoreId) : Bool := (getCore s b).fenced || (lostWay s a b).isSome

/-- R252: why a packet's tag delivers nothing: its reason in a PKTDISC record (R382). -/
def tagReason (k : Core) (tag : BitVec 12) (ctx : HWord) : Option Nat :=
  match routeOf k tag with
  | none => some 0
  | some e => if e.ctx = ctx then none else some 1

/-- The source of a packet in its destination's duplicate filter (R378): the sending core; a wake-up of a copy or of a drain stands in no
order with that core's packets (R253, R266). -/
def Packet.source (p : Packet) : Nat :=
  if p.carrier then 4096 * (1 + p.seq.toNat) + p.src.toNat else if p.drain then 2 ^ 40 + p.src.toNat else p.src.toNat

/-- Whether a sequence number is newer than another, modulo 2¹⁶. -/
def newerSeq (a last : HWord) : Bool := 0 < (a - last).toNat && (a - last).toNat < 2 ^ 15

/-- R378: a packet that its destination has accepted before, or that is older than the last one it accepted. -/
def stalePacket (k : Core) (p : Packet) : Bool :=
  match k.pktSeen.find p.source with
  | some n => !newerSeq p.seq n
  | none => false

/-- R338: a packet dropped without a record. -/
def dropPacket (k : Core) : Core := { k with ctrs := { k.ctrs with pktdrop := satInc32 k.ctrs.pktdrop } }

/-- A packet accepted: its number is the last of its source. -/
def acceptPacket (now : DWord) (p : Packet) (k : Core) : Core :=
  bufferPacket now p { k with pktSeen := k.pktSeen.put p.source p.seq }

/-- R253: whether an earlier packet in flight has the same source and destination. -/
def heldBack (net : List Packet) (k : Nat) (p : Packet) : Bool := (net.take k).any fun q => q.source == p.source && q.dst == p.dst

/-- R252: whether a full receive buffer holds a packet in the network. -/
def heldFull (s : State) (p : Packet) : Bool :=
  let d := getCore s p.dst
  !deadWay s p.src p.dst && !stalePacket d p && (tagReason d p.tag p.ctx).isNone && decide (recvDepth ≤ d.queues.recv.length)

/-- R252: a packet reaches its destination, which accepts, discards or drops it; a core that takes none drops it unseen. -/
def receivePacket (s : State) (p : Packet) : State :=
  let s := markPassage s p.ctx p.src p.dst
  let d := getCore s p.dst
  if deadWay s p.src p.dst then s
  else if stalePacket d p then updCore s p.dst dropPacket
  else match tagReason d p.tag p.ctx with
    | some r => pktDisc s p.dst p r
    | none => updCore s p.dst (acceptPacket s.time p)

/-- The sender has its acknowledgement, or gives up: the packet is gone, and so is what the filter keeps for it alone. -/
def endPacket (s : State) (k : Nat) (p : Packet) : State :=
  let s := { s with hub := { s.hub with net := dropNth s.hub.net k } }
  if p.carrier then updCore s p.dst fun d => { d with pktSeen := d.pktSeen.del p.source } else s

/-- A packet of the k-th place that has been sent without an answer. -/
def keepPacket (s : State) (k : Nat) : State :=
  { s with hub := { s.hub with net := s.hub.net.modify k fun p => { p with way := p.way.lost s.time } } }

/-- R377, R382: a packet whose third reissue has timed out is given up, with a TIMEOUT record. -/
def loseOutPacket (s : State) (k : Nat) (p : Packet) : State :=
  report (endPacket s k p) (ownedErr (p.tenant ++ p.ctx) 9 true (coordBits p.src) 0 0 p.seq.toNat 2)

/-- R252, R376 to R378: a turn of the k-th packet in flight: it waits for its time-out, for an earlier packet or for room; it is lost; or it
arrives, and stays to be sent again where its acknowledgement is lost. -/
def arrivePacket (s : State) (k : Nat) : State :=
  match s.hub.net[k]? with
  | none => s
  | some p =>
    match p.way.passage s.time false with
    | .waits => s
    | .failed => loseOutPacket s k p
    | .goes =>
      if heldBack s.hub.net k p || heldFull s p then s
      else
        let (s, there) := hubFlit s
        if !there then keepPacket s k
        else
          let (s, back) := hubFlit s
          if back then endPacket (receivePacket s p) k p else receivePacket (keepPacket s k) p

/-- PACKET_ARRIVAL (R252). -/
def execPacketArrival (k : Nat) (s : State) : Out := event true (fun s => arrivePacket s k) s

/-! ### Drains at their target (R179) -/

/-- The image of a hoop (R177) written into a scratchpad. -/
def writeHoop (s : State) (c : CoreId) (off : Nat) (h : Hoop) : State :=
  (List.range 64).foldl (fun s i => (List.range 128).foldl (fun s j =>
    storePut s (sramKey c (off + 512 * i + 4 * j)) 4 (h.elem i j) (h.bad i j)) s) s

/-- The wake-up of a drain. -/
def drainPacket (d : DrainMsg) (range : Bool) : Packet :=
  let v := packAt [(0, coreX d.src), (8, coreY d.src), (16, d.h.toNat), (24, if range then 1 else 0)]
  { tag := d.tag, src := d.src, ctx := d.ctx, tenant := d.tenant, dst := d.dst, scalar := true, row := scalarRow (BitVec.ofNat 64 v)
    drain := true, carrier := false, seq := d.seq, way := d.way }

/-- The reply to a core's drain: a core has one at a time. -/
def replyDrain (s : State) (src : CoreId) (r : DrainReply) : State :=
  { s with hub := { s.hub with drains := s.hub.drains.map fun e => if e.src = src then { e with reply := some r } else e } }

/-- Whether a drain exceeds its target's partition (R179). -/
def drainRange (t : Core) (d : DrainMsg) : Bool := decide (scratchSize t < d.off.toNat + 32768)

/-- The checks of R179 at the target, in its order, and what a drain that passes or fails each does; the target's answer. A refused wake-up
counts in PKTDROP (R338). -/
def receiveDrain (s : State) (d : DrainMsg) : State × DrainReply :=
  let s := markPassage s d.ctx d.src d.dst
  let t := getCore s d.dst
  let p := drainPacket d (drainRange t d)
  if deadWay s d.src d.dst then (s, .refused)
  else if heldTenant t != d.tenant then (updCore s d.dst dropPacket, .refused)
  else if stalePacket t p then (updCore s d.dst dropPacket, .done)
  else
    match tagReason t d.tag d.ctx with
    | some r => (pktDisc s d.dst p r, .refused)
    | none =>
      let s := if drainRange t d then s else writeHoop s d.dst d.off.toNat d.hoop
      (updCore s d.dst (acceptPacket s.time p), .done)

/-- R179: the third reissue of a drain has timed out: the target's area is undefined (log 9). -/
def blurDrain (s : State) (d : DrainMsg) : State :=
  if deadWay s d.src d.dst || heldTenant (getCore s d.dst) != d.tenant || drainRange (getCore s d.dst) d then s
  else
    let s' := (List.range 8192).foldl (fun s' i => storePut s' (sramKey d.dst (d.off.toNat + 4 * i)) 4 (Config.freeWord (s.free + i)).toNat false) s
    { s' with free := s.free + 8192 }

/-- The drain of a core that has been sent without an answer. -/
def keepDrain (s : State) (src : CoreId) : State :=
  { s with hub := { s.hub with drains := s.hub.drains.map fun e => if e.src = src then { e with way := e.way.lost s.time } else e } }

/-- R179, R376 to R378: a turn of a drain on its way, as that of a packet. -/
def drainTurn (s : State) (d : DrainMsg) : State :=
  match d.way.passage s.time false with
  | .waits => s
  | .failed => replyDrain (blurDrain s d) d.src .timedOut
  | .goes =>
    if heldTenant (getCore s d.dst) == d.tenant && heldFull s (drainPacket d false) then s
    else
      let (s, there) := hubFlit s
      if !there then keepDrain s d.src
      else
        let (s, back) := hubFlit s
        let (s, r) := receiveDrain s d
        if back then replyDrain s d.src r else keepDrain s d.src

/-- DRAIN_RECEIVE (R179): the k-th drain on its way. -/
def execDrainReceive (k : Nat) (s : State) : Out :=
  event true (fun s => match s.hub.drains[k]? with
    | some d => if d.reply.isNone then drainTurn s d else s
    | none => s) s

/-! ### Channels (R252, R256) -/

/-- R256: the oldest row that waits leaves its out-channel, if it stands in the named one. -/
def drainChannel (k : Core) (c : CoreId) (n : BitVec 3) : Core :=
  match k.queues.outPending with
  | (m, _) :: _ => if m = n then (drainOne k c).getD k else k
  | [] => k

/-- OUT_CHANNEL_DRAIN (R256). -/
def execOutChannelDrain (c : CoreId) (n : BitVec 3) (s : State) : Out :=
  event (isCore c) (fun s => updCore s c fun k => drainChannel k c n) s

/-- R252, R351: whether a packet of an entry may move into its in-channel: the entry's handler runs, or it has none and an ordinary task of
its context runs, at task level. An entry that has been removed while its handler runs is no longer that handler's (R315). -/
def mayDeliver (k : Core) (r : Received) : Option (BitVec 3) :=
  match routeOf k r.pkt.tag, k.task with
  | some e, some t =>
    let runs := if e.entry = 0 then t.handler.isNone && t.ctx == e.ctx else servedTag k == some r.pkt.tag
    if runs && k.level == .task && !k.handlerAborted && decide ((k.queues.inq[e.chan.toNat]?.getD []).length < 4) then some e.chan else none
  | _, _ => none

/-- The first packet that may move, with its place and channel; an earlier packet of its entry holds it back. -/
def firstDelivery (k : Core) : Nat → List (BitVec 12) → List Received → Option (Nat × Received × BitVec 3)
  | _, _, [] => none
  | i, seen, r :: rest =>
    if seen.contains r.pkt.tag then firstDelivery k (i + 1) seen rest
    else
      match mayDeliver k r with
      | some n => some (i, r, n)
      | none => firstDelivery k (i + 1) (r.pkt.tag :: seen) rest

/-- R252: a packet moves from the receive buffer into its in-channel. -/
def deliverChannel (k : Core) : Core :=
  match firstDelivery k 0 [] k.queues.recv with
  | some (i, r, n) =>
    { k with queues := { k.queues with
        recv := dropNth k.queues.recv i
        inq := k.queues.inq.setIfInBounds n.toNat ((k.queues.inq[n.toNat]?.getD []) ++ [r]) } }
  | none => k

/-- CHANNEL_DELIVERY (R252). -/
def execChannelDelivery (c : CoreId) (s : State) : Out := event (isCore c) (fun s => updCore s c deliverChannel) s

/-! ### Collectives (R276 to R284) -/

/-- RELAY_ROW (R276). -/
def execRelayRow (k : Nat) (s : State) : Out := event true (fun s => relayRow s k) s

/-- DOWN_WAVE_DELIVERY (R278). -/
def execDownWaveDelivery (k : Nat) (s : State) : Out := event true (fun s => deliverDown s k) s

/-- R284: the abort of the group of a router's e-th entry travels through the tree, once some entry of the group is ABORTING. -/
def travelAbort (s : State) (c : CoreId) (e : Nat) : State :=
  match (getCore s c).tables.trees[e]? with
  | some t => travelGroup s t.gid t.ctx
  | none => s

/-- GROUP_ABORT (R284). -/
def execGroupAbort (c : CoreId) (e : BitVec 6) (s : State) : Out := event (isCore c) (fun s => travelAbort s c e.toNat) s

/-! ### Copies, the sequencer and the links (R260, R266, R376) -/

/-- CARRIER_COPY (R266): a turn of the k-th copy. -/
def execCarrierCopy (k : Nat) (s : State) : Out := event true (fun s => carrierTurn s k) s

/-- REPEAT_SEQUENCER_POST (R260): the sequencer of a core whose control thread can run posts its next entry. -/
def execRepeatSequencerPost (c : CoreId) (s : State) : Out :=
  event (isCore c) (fun s =>
    let k := getCore s c
    if k.halted || k.fenced || k.task.isNone then s else sequencerStep s c) s

/-- LINK_FLIT (R376): the fate of the next flit of a core's requests and replies, or of what the network carries. -/
def execLinkFlit (c : Option CoreId) (good : Bool) (s : State) : Out :=
  match c with
  | some c => event (isCore c) (fun s => updCore s c fun k => { k with flits := k.flits ++ [good] }) s
  | none => event true (fun s => { s with hub := { s.hub with flits := s.hub.flits ++ [good] } }) s

end Sys2Proof.Machine
end

