-- ==== Sys2Proof/Machine/MatrixPost.lean ====
section
/-!
DEFINITION. The instructions of chapter 08 and of lodges as the control thread posts them (R155, R307); what an entry does when
it executes stands in Matrix.lean and Lodge.lean. `hmov` goes to the vector queue, the others to the matrix queue.
-/

namespace Sys2Proof.Machine

/-- R155: `mma.ring` and `mpass` raise ILLEGAL_OP outside a 6 × 8 plot. -/
def needPlot (i : Instr) (c : CoreId) : M Unit := do require (ringPlot (← theCore c)) .illegalOp (encodingOf i)

/-- `mmaOvw` (R164). -/
def execMmaOvw (h : BitVec 2) (rs1 : BitVec 5) (l : BitVec 1) (rs2 : BitVec 5) (s : State) : Out := postM (.mmaOvw h rs1 l rs2) s
/-- `mmaAcc` (R164). -/
def execMmaAcc (h : BitVec 2) (rs1 : BitVec 5) (l : BitVec 1) (rs2 : BitVec 5) (s : State) : Out := postM (.mmaAcc h rs1 l rs2) s
/-- `mmaArr` (R168). -/
def execMmaArr (h : BitVec 2) (rs1 : BitVec 5) (l : BitVec 1) (rs2 : BitVec 5) (s : State) : Out := postM (.mmaArr h rs1 l rs2) s
/-- `mdarn` (R172). -/
def execMdarn (h : BitVec 2) (rs1 : BitVec 5) (l : BitVec 1) (d : BitVec 4) (s : State) : Out := postM (.mdarn h rs1 l d) s
/-- `hclr` (R177). -/
def execHclr (h : BitVec 2) (s : State) : Out := postM (.hclr h) s
/-- `hld` (R177). -/
def execHld (h : BitVec 2) (rs1 : BitVec 5) (s : State) : Out := postM (.hld h rs1) s
/-- `hst` (R177). -/
def execHst (h : BitVec 2) (rs1 : BitVec 5) (s : State) : Out := postM (.hst h rs1) s
/-- `hdrain` (R179). -/
def execHdrain (h : BitVec 2) (rs1 rs2 : BitVec 5) (s : State) : Out := postM (.hdrain h rs1 rs2) s
/-- `mqpop` (R178). -/
def execMqpop (h : BitVec 2) (i : BitVec 7) (q : BitVec 4) (s : State) : Out := postM (.mqpop h i q) s
/-- `mqpopAcc` (R178). -/
def execMqpopAcc (h : BitVec 2) (i : BitVec 7) (q : BitVec 4) (s : State) : Out := postM (.mqpopAcc h i q) s
/-- `mqpush` (R178). -/
def execMqpush (h : BitVec 2) (i : BitVec 7) (q : BitVec 4) (s : State) : Out := postM (.mqpush h i q) s
/-- `mld` (R158). -/
def execMld (l : BitVec 1) (rs1 : BitVec 5) (s : State) : Out := postM (.mld l rs1) s
/-- `mwait` (R160). -/
def execMwait (l : BitVec 1) (s : State) : Out := postM (.mwait l) s
/-- `mmaRing` (R167). -/
def execMmaRing (h : BitVec 2) (rs1 : BitVec 5) (l : BitVec 1) (rs2 : BitVec 5) (s : State) : Out := postMatrix (.mmaRing h rs1 l rs2) (needPlot (.mmaRing h rs1 l rs2)) s
/-- `mpass` (R160). -/
def execMpass (l : BitVec 1) (s : State) : Out := postMatrix (.mpass l) (needPlot (.mpass l)) s
/-- `hmov` (R175). -/
def execHmov (v : Place) (h : BitVec 2) (dir : HDir) (i : BitVec 7) (s : State) : Out := post4 (.hmov v h dir i) s
/-- `hmovPeek` (R176). -/
def execHmovPeek (v : Place) (h : BitVec 2) (dir : HDir) (i : BitVec 7) (s : State) : Out := post4 (.hmovPeek v h dir i) s

/-! ### Lodges (R307 to R309) -/

/-- `lopen` (R308). -/
def execLopen (d : BitVec 4) (rs1 : BitVec 5) (s : State) : Out := postM (.lopen d rs1) s
/-- `lset` (R309). -/
def execLset (d : BitVec 5) (f : BitVec 3) (rs1 : BitVec 5) (s : State) : Out := postM (.lset d f rs1) s
/-- `lclose` (R309). -/
def execLclose (d : BitVec 5) (s : State) : Out := postM (.lclose d) s
/-- `linval` (R309). -/
def execLinval (d : BitVec 5) (s : State) : Out := postM (.linval d) s

/-- `lstat` (R309): it waits for every earlier matrix entry. -/
def execLstat (rd d : BitVec 5) (s : State) : Out :=
  controlTo rd (fun c => do
    notPosting c
    let k ← theCore c
    awaitThat k.streams.mq.isEmpty
    return lodgeStatus k d) s

end Sys2Proof.Machine
end

