-- ==== Sys2Proof/Machine/QueueInstr.lean ====
section
/-!
DEFINITION. The queue instructions of the control thread (R250, R251, R255, R257 to R261, R264, R265, R268, R269): queue registers, sends,
the repeat buffer, copies and launches.
-/

namespace Sys2Proof.Machine

/-! ### The control thread's ends of the queue registers (R250, R251) -/

/-- The scalar queue N. -/
def scalarQueue (k : Core) (n : Nat) : List DWord := k.queues.sq[n]?.getD []

/-- The row queue N, 8 to 15. -/
def rowQueue (k : Core) (n : Nat) : List Row := k.queues.rq[n - 8]?.getD []

/-- A core without the head of a queue register. -/
def dropHead (k : Core) (n : Nat) : Core :=
  if n < 8 then { k with queues := { k.queues with sq := k.queues.sq.setIfInBounds n ((scalarQueue k n).drop 1) } }
  else { k with queues := { k.queues with rq := k.queues.rq.setIfInBounds (n - 8) ((rowQueue k n).drop 1) } }

/-- R250: the head of a queue as a scalar; a poisoned cell 0 or 1 raises POISON. -/
def headValue (c : CoreId) (n : Nat) : M DWord := do
  let k ← theCore c
  if n < 8 then
    match scalarQueue k n with
    | v :: _ => return v
    | [] => waitHere
  else
    match rowQueue k n with
    | r :: _ => if bitAt r.psn 0 || bitAt r.psn 1 then raisePoison c 0 0 else return slice r.bits 0 64
    | [] => waitHere

/-- `qpeek`. -/
def execQpeek (rd : BitVec 5) (q : BitVec 4) (s : State) : Out :=
  checked (.qpeek rd q) (controlTo rd fun c => headValue c q.toNat) s

/-- `qpeek.pop`. -/
def execQpeekPop (rd : BitVec 5) (q : BitVec 4) (s : State) : Out :=
  checked (.qpeekPop rd q) (controlTo rd fun c => do
    let v ← headValue c q.toNat
    modCore c fun k => dropHead k q.toNat
    return v) s

/-- The number of entries of a queue register. -/
def queueCount (k : Core) (n : Nat) : Nat := if n < 8 then (scalarQueue k n).length else (rowQueue k n).length

/-- `qcount`. -/
def execQcount (rd : BitVec 5) (q : BitVec 4) (s : State) : Out :=
  controlTo rd (fun c => do return BitVec.ofNat 64 (queueCount (← theCore c) q.toNat)) s

/-! ### Sends (R255, R256) -/

/-- Whether a word is a local selector of one of two queues from `lo` on, of `n` queues. -/
def localQueue (w : DWord) (lo n : Nat) : Option Nat :=
  let q := w.toNat - 2 ^ 63
  if bitAt w 63 && lo ≤ q && q < lo + n then some q else none

/-- `send`. -/
def execSend (rs1 rs2 : BitVec 5) (s : State) : Out :=
  control (fun c => do
    notPosting c
    let k ← theCore c
    let w := getS k rs1
    let v := getS k rs2
    match localQueue w 0 4 with
    | some n => do
      awaitThat ((scalarQueue k n).length < 16)
      modCore c fun k => pushScalar k n v
    | none => do
      require (isRouteWord w) .format 0
      placeSend c w (packetTo k c w true (scalarRow v))) s

/-- R255: what `sendv` takes from V: a row whole; of a column or a diagonal elements 0 to VL − 1. -/
def sendRow (c : CoreId) (d : Opd) : M Row := do
  let k ← theCore c
  let vl := k.tregs.vl.toNat
  let t := (← sourceTag k vl none d).getD 0
  formatUnless (t != 0)
  eachOf (d.rows vl) (makeResident c k.pc)
  let k ← theCore c
  match d with
  | .row n => return (getRow k n).row
  | d =>
    let g := gatherLine k vl d
    return { bits := BitVec.ofNat 2048 g.img, psn := BitVec.ofNat 64 g.psn, tag := t }

/-- `sendv`. -/
def execSendv (rs1 : BitVec 5) (v : Place) (s : State) : Out :=
  control (fun c => do
    notPosting c
    let k ← theCore c
    let w := getS k rs1
    let dest := localQueue w 8 2
    require (dest.isSome || isRouteWord w) .format 0
    awaitThat k.streams.vq.isEmpty
    let fills := restitchSpans k ((placeOpd v).rows k.tregs.vl.toNat) true
    if fills.isEmpty then pure () else gateSpans c fills
    let row ← sendRow c (placeOpd v)
    match dest with
    | some n => do
      awaitThat ((rowQueue k n).length < 4)
      modCore c fun k => pushRow k n row
    | none => placeSend c w (packetTo k c w false row)) s

/-! ### The repeat buffer (R257 to R261) -/

/-- An instruction of a repeat image, with the address of the next. -/
def readRepeatWord (c : CoreId) (va : DWord) : M (Nat × Nat) := do
  let lo ← readImage c va 2
  if lo % 2 = 0 then return (lo, 2)
  else
    let hi ← readImage c (va + 2) 2
    return (lo + 65536 * hi, 4)

/-- The instructions of an image from the j-th on. -/
def readRepeat (c : CoreId) (base : DWord) (flags : Nat) : Nat → Nat → DWord → M (List RepeatInstr)
  | 0, _, _ => return []
  | n + 1, j, va => do
    let (w, len) ← readRepeatWord c va
    match repeatInstr (← theCore c) (BitVec.ofNat 8 (flags >>> (8 * j))) w len (base + BitVec.ofNat 64 j) va with
    | .error e => raise .illegalOp e
    | .ok i => do
      let r ← readRepeat c base flags n (j + 1) (va + BitVec.ofNat 64 len)
      return i :: r

/-- `lbuf`. -/
def execLbuf (rs1 rs2 : BitVec 5) (s : State) : Out :=
  control (fun c => do
    memGate c
    let k ← theCore c
    let va := getS k rs1
    let n := (getS k rs2).toNat
    require (1 ≤ n && n ≤ 64) .queueFault 0
    require (va.toNat % 2 == 0) .misalign va
    gateRead c va (64 + 4 * n)
    let flags ← readImage c va 64
    let body ← readRepeat c va flags n 0 (va + 64)
    modCore c fun k => { k with streams := { k.streams with bufLen := n, rep := { k.streams.rep with body := body } } }) s

/-- `lcfg`. -/
def execLcfg (lv : BitVec 3) (rs1 rs2 : BitVec 5) (s : State) : Out :=
  checked (.lcfg lv rs1 rs2) (control fun c => do
    notPosting c
    modCore c fun k =>
      let l : RepeatLevel := { count := (getS k rs1).setWidth 32, os := (getS k rs2).setWidth 6, as := slice (getS k rs2) 32 32 }
      { k with streams := { k.streams with rep := { k.streams.rep with levels := k.streams.rep.levels.setIfInBounds lv.toNat l } } }) s

/-- `lrun`. -/
def execLrun (s : State) : Out :=
  control (fun c => do
    notPosting c
    let k ← theCore c
    require (!k.streams.rep.body.isEmpty) .queueFault 0
    modCore c fun k =>
      let k := setRun k (some { iter := Vector.replicate 6 0, j := 0, env := captureOf k, ipc := k.pc, stop := false })
      { k with streams := { k.streams with lrunPc := k.pc } }) s

/-- `lstop`. -/
def execLstop (s : State) : Out :=
  control (fun c => modCore c fun k =>
    match k.streams.rep.run with
    | some r => setRun k (some { r with stop := true })
    | none => k) s

/-! ### Copies (R264, R265, R268) -/

/-- A copy command (R264) as a number. -/
abbrev Command := Nat

/-- R265: whether a command keeps its rules. -/
def commandOk (v : Command) : Bool :=
  fieldOf v 191 162 == 0 && fieldOf v 511 320 == 0 && (!v.testBit 160 || isRouteWord (BitVec.ofNat 64 (v >>> 192)))

/-- R265: the regions of the pages of a source range that translate in the posting context, whatever accesses they allow; a window has
region 0 (R193). -/
def sourceRegions (c : CoreId) (src : DWord) (len : Nat) : M Regions := do
  let first := src.toNat / 65536
  let pages := if len = 0 then 0 else (src.toNat + len - 1) / 65536 - first + 1
  let gs ← collect (List.range pages) fun i =>
    let va : DWord := if i = 0 then src else BitVec.ofNat 64 (65536 * (first + i))
    if slice va 48 16 = (0xFFFE : HWord) then return oneRegion 0
    else tryCatch
      (do
        let (e, b) ← findLeaf c va
        return oneRegion (pageOf e b).region)
      fun e => match e with
        | .trap t => if t.cause = .pageMiss ∨ t.cause = .protect then return 0 else throw e
        | e => throw e
  return gs.foldl (fun a g => a ||| g) 0

/-- The copies of a core that hold a slot (R268). -/
def heldSlots (s : State) (c : CoreId) : List Copy := s.hub.copies.filter fun x => x.core == c && !(x.orphan && x.done)

/-- The copy that a command asks for (R264, R266). -/
def copyOf (k : Core) (c : CoreId) (sc : Scope) (v : Command) (id now : DWord) (serial : Nat) : Copy :=
  { serial := serial, id := id, core := c, ctx := ctxOf k, tenant := k.tregs.tenant, asid := k.tregs.asid, ptroot := k.tregs.ptroot
    level := k.level, src := BitVec.ofNat 64 v, dst := BitVec.ofNat 64 (v >>> 64), len := BitVec.ofNat 32 (v >>> 128)
    wake := v.testBit 160, claim := v.testBit 161, wroute := BitVec.ofNat 64 (v >>> 192), claimw := BitVec.ofNat 64 (v >>> 256)
    ticket := 0, scope := sc, orphan := false, taskid := k.tregs.taskid, ipc := k.pc, way := Transit.first now, pos := 0, started := false, marks := 0, done := false }

/-- R265, R268: a `cpost` that finds the task's own copies in every slot faults before it releases anything; it waits where an ended
task's copies hold slots. -/
def slotReady (c : CoreId) : M Unit := do
  let slots := heldSlots (← get) c
  require (!(slots.length == 128 && slots.all fun x => !x.orphan)) .queueFault 0
  awaitThat (slots.length < 128)

/-- `cpost`. -/
def execCpost (sc : Scope) (rd rs1 : BitVec 5) (s : State) : Out :=
  checked (.cpost sc rd rs1) (controlTo rd fun c => do
    let va := getS (← theCore c) rs1
    gateRead c va 64
    require (va.toNat % 64 == 0) .misalign va
    let v ← readImage c va 64
    formatUnless (commandOk v)
    gateAll c
    slotReady c
    let r ← sourceRegions c (BitVec.ofNat 64 v) (fieldOf v 159 128)
    releaseNow c sc r
    modify fun s => bumpMarks s c r
    awaitThat (!bumpsLeft (← get) c r)
    let k ← theCore c
    let now := (← get).time
    let serial := (← get).stamp
    modify fun s => { s with stamp := s.stamp + 1 }
    let id := k.streams.copyId + 1
    modCore c fun k => { k with streams := { k.streams with copyId := id } }
    modHub fun h => { h with copies := h.copies ++ [copyOf k c sc v id now serial] }
    return id) s

/-- Whether a copy is the one of a core's completion. -/
def completes (c : CoreId) (r : DWord) (x : Copy) : Bool := x.core == c && !x.orphan && x.id.toNat % 2 ^ 32 == r.toNat % 2 ^ 32

/-- R268, R213: a completion popped: its slot is free and its destination's L1 lines are stale. -/
def popCompletion (s : State) (c : CoreId) (r : DWord) : State :=
  let s := (s.hub.copies.filter (completes c r)).foldl staleDest s
  { s with hub := { s.hub with copies := s.hub.copies.filter fun x => !completes c r x } }

/-- `cpop`. -/
def execCpop (rd : BitVec 5) (s : State) : Out :=
  controlTo rd (fun c => do
    match (← theCore c).queues.results with
    | r :: rest => do
      let s ← get
      pushAll c ((s.hub.copies.filter (completes c r)).flatMap (destPushes s))
      modCore c fun k => { k with queues := { k.queues with results := rest } }
      modify fun s => popCompletion s c r
      return r
    | [] => do
      awaitThat ((← get).hub.copies.all fun x => x.core != c || x.orphan || x.done)
      return 0) s

/-! ### Launches (R214, R269) -/

/-- R269: the physical address of a launch block, on a page that gives R and W. -/
def blockAddr (c : CoreId) (va : DWord) : M Nat := do
  require (va.toNat % 128 == 0) .misalign va
  match ← translate c va 128 .read with
  | .mem pa pg => do
    require pg.w .protect va
    return pa
  | .sram t off _ page => do
    require page.isSome .protect va
    let _ ← translate c va 128 .write
    return sramKey t off

/-- `launch`. -/
def execLaunch (rd rs1 : BitVec 5) (s : State) : Out :=
  controlTo rd (fun c => do
    gateAll c
    releaseNow c .sys allRegions
    let k ← theCore c
    let va := getS k rs1
    let pa ← blockAddr c va
    let ctx ← readImage c (va + 16) 2
    let other := match findContext (← get) (BitVec.ofNat 16 ctx) with | some x => x.tenant != k.tregs.tenant | none => false
    require (!other) .protect va
    let s ← get
    awaitThat (fifoRoom s && s.hub.fifoHeld.isEmpty)
    modify fun s => pushFifo s (BitVec.ofNat 64 pa)
    return (← get).hub.regs.lcount) s

end Sys2Proof.Machine
end

