-- ==== Sys2Proof/Machine/Turn.lean ====
section
/-!
DEFINITION. A turn of a core: the asynchronous causes that are due (R345), the fetch of the next instruction (R51), the passing
of time (R46, R98), and the work of the streams beside the control thread.
-/

namespace Sys2Proof.Machine

/-! ### Asynchronous causes (R345) -/

/-- The first pending cause in the order of R345 with its stream (R131), and the pending causes without it. -/
def firstPending (p : Pending) : Option (TrapInfo × Stream × Pending) :=
  match p.dieLost, p.gangBroken, p.protMismatch, p.poison with
  | some v, _, _, _ => some (trapInfo .dieLost v, .control, { p with dieLost := none })
  | _, some v, _, _ => some (trapInfo .gangBroken v, .control, { p with gangBroken := none })
  | _, _, some v, _ => some (trapInfo .protMismatch v, .vector, { p with protMismatch := none })
  | _, _, _, some v => some (trapInfo .poison v.2, v.1, { p with poison := none })
  | _, _, _, _ => if p.budget then some (trapInfo .budget 0, .control, { p with budget := false }) else none

/-- R345, R347: an asynchronous cause is taken; while the task cannot be stopped it stays pending. -/
def takeAsync (s : State) (c : CoreId) (t : TrapInfo) (st : Stream) (rest : Pending) : State :=
  let k := getCore s c
  let s' := setCore s c { k with pend := rest }
  stopAt s s' c { info := t, stream := st, async := true, epc := k.pc, ipc := 0, seq := 0, replay := none }

/-- The cause that a core takes at its next boundary: only task level takes one. -/
def dueCause (k : Core) : Option (TrapInfo × Stream × Pending) := if k.level = .task then firstPending k.pend else none

/-! ### Fetch (R51, R73) -/

/-- The number of rows or values that a queue register holds at most (R249). -/
def queueDepth (n : Nat) : Nat := if n < 8 then 16 else 4

/-- Whether an instruction of the control thread finds the queue that it needs empty or full. -/
def controlWaits (s : State) (k : Core) (i : Instr) : Bool :=
  let toPeer := sendDepth ≤ k.queues.send.length + k.queues.outPending.length
  match i with
  | .qpeek _ q | .qpeekPop _ q => queueCount k q.toNat == 0
  | .send rs1 _ => match localQueue (getS k rs1) 0 4 with | some n => queueDepth n ≤ queueCount k n | none => toPeer
  | .sendv rs1 _ => match localQueue (getS k rs1) 8 2 with | some n => queueDepth n ≤ queueCount k n | none => toPeer
  | .cpop _ => k.queues.results.isEmpty
  | .launch .. => !(fifoRoom s && s.hub.fifoHeld.isEmpty)
  | .vfb .. | .pin .. | .unpick .. => vectorDepth ≤ k.streams.vq.length
  | .lopen .. | .lset .. | .lclose .. | .linval .. => matrixDepth ≤ k.streams.mq.length
  | i =>
    let w := (encodingOf i).toNat
    if goesToMatrix w then matrixDepth ≤ k.streams.mq.length else repeatable w && vectorDepth ≤ k.streams.vq.length

/-- R339: a turn in which an instruction has waited on a queue is noted, where a performance counter runs and time passes: its cycle counts. -/
def noteWait (before : State) (c : CoreId) (i : Instr) (s : State) : State :=
  let k := getCore before c
  if k.ctrs.pmen ≠ 0 ∧ before.timeHalted = false ∧ controlWaits before k i ∧ (getCore s c).pc = k.pc ∧ (getCore s c).level = k.level then
    updCore s c fun k => { k with waited := true }
  else s

/-- R189: an instruction begins again: the answers of its device reads come first. -/
def beginAgain (s : State) (c : CoreId) : State := if ((getCore s c).answered.find 0).isNone then s else updCore s c fun k => rewindReads k 0

/-- The control thread fetches at its PC and the instruction runs; an encoding that is none raises ILLEGAL_OP with EINFO the
encoding (R344). -/
def fetchAndRun (run : Instr → State → Out) (s : State) (c : CoreId) : Out :=
  let pc := (getCore s c).pc
  match fetchInstr c pc (beginAgain s c) with
  | .ok (some i, _, _) s' => andThen (run i s') (noteWait s' c i)
  | .ok (none, _, w) s' => trapNow s' .illegalOp (BitVec.ofNat 64 w)
  | .error (.trap t) s' => .next (stopAt s s' c (controlTrap t pc))
  | .error .wait s' => .next s'
  | .error (.fault f) _ => .fault f
  | .error (.refuse r) _ => .refused r

/-- R355, R377, R189: whether the control thread waits for the reply of an operation that must be answered before its task stops, or stands
in an instruction of which a device read has been answered. -/
def awaitsReply (k : Core) : Bool := k.remote.any Remote.binds || (k.answered.find 0).isSome || (k.replays.find 0).isSome

/-- The control thread of a core: a cause that is due, once no operation of it is outstanding, else its next instruction; a task whose
`tdone` has committed executes none (R30). -/
def controlSlot (run : Instr → State → Out) (s : State) (c : CoreId) : Out :=
  let k := getCore s c
  match if awaitsReply k then none else dueCause k with
  | some (t, st, rest) => .next (takeAsync s c t st rest)
  | none => if k.ending && k.level == .task then .next s else fetchAndRun run s c

/-! ### Time (R46, R98, R334) -/

/-- Whether the head of the matrix queue waits for a latch or a row queue. -/
def matrixWaits (k : Core) : Bool :=
  match k.streams.mq.head? with
  | none => false
  | some e =>
    match e.instr with
    | .mmaOvw _ _ l _ | .mmaAcc _ _ l _ | .mwait l | .mpass l => (latchOf k l).state != .full
    | .mmaRing _ _ l _ => e.prog.waiting || (latchOf k (l ^^^ BitVec.ofNat 1 e.prog.step)).state != .full
    | .mmaArr .. => (latchOf k 0).state != .full && (latchOf k 1).state != .full
    | .mqpop _ _ q | .mqpopAcc _ _ q => (k.queues.rq[q.toNat - 8]?.getD []).isEmpty
    | .mqpush _ _ q => 4 ≤ (k.queues.rq[q.toNat - 8]?.getD []).length
    | _ => false

/-- The operand to which an entry of the vector queue writes its result. -/
def destOf (i : Instr) : Option Opd :=
  match i with
  | .vceq .. | .vcne .. | .vclt .. | .vcle .. => none
  | i => (frameOperands i).head?

/-- Whether a destination is a queue or an out-channel without room. -/
def destFull (k : Core) : Opd → Bool
  | .que n => queueDepth n.toNat ≤ queueCount k n.toNat
  | .chan n => !inHandler k && 4 ≤ (k.queues.outPending.filter fun e => e.1 == n).length
  | _ => false

/-- Whether the head of the vector queue waits for a queue that is empty or full. -/
def vectorWaits (k : Core) : Bool :=
  match k.streams.vq with
  | e :: _ => (e.popped.isEmpty && (popAll ((popSources e.instr).filter Opd.isPop) k).isNone) || (destOf e.instr).any (destFull k)
  | [] => false

/-- R339: whether a core waits at a barrier, or a head of its streams on a queue or a latch. -/
def waitsNow (k : Core) : Bool :=
  (match k.streams.barWait with | .waiting .. => true | _ => false) || matrixWaits k || vectorWaits k

/-- One arithmetic cycle of a core: CYCLE, and at task level BUDGET. -/
def cycleCore (k : Core) : Core :=
  let k := countPerf { k with cregs := { k.cregs with cycle := k.cregs.cycle + 1 } } 1 1
  let k := if k.ctrs.pmen ≠ 0 ∧ (k.waited ∨ waitsNow k) then countPerf k 10 1 else k
  let k := { k with waited := false }
  if k.level = .task ∧ k.task.isSome ∧ k.tregs.budget ≠ 0 then
    let b := k.tregs.budget - 1
    { k with tregs := { k.tregs with budget := b }, pend := { k.pend with budget := k.pend.budget || b == 0 } }
  else k

/-- The time that a turn of a core takes: one cycle of the arithmetic clock of CLK MHz, in ticks of 1 ns (R5, R394, log 3); none while
the timebase is halted (R376). BUDGET stands still with it, which the spec does not say (DESIGN CHOICE, log 53). -/
def elapse (s : State) (c : CoreId) : State :=
  if s.timeHalted then s
  else
    let s := updCore s c cycleCore
    let clk := max 1 s.hub.regs.power.clk.toNat
    let p := s.phase + 1000
    { s with phase := p % clk, time := s.time + BitVec.ofNat 64 (p / clk) }

/-! ### What goes on beside the control thread -/

/-- The heads of a core's queues execute, unless the schedule runs them (log 7). -/
def streamWork (s : State) (c : CoreId) : State :=
  let s := if (getCore s c).streams.lazyV then s else runVectorHead s c
  if (getCore s c).streams.lazyM then s else runMatrixHead s c

/-- The work of a core beside its control thread: its streams, the sequencer, waiting releases, its sends, and the end of a task
that is done. -/
def backgroundWork (s : State) (c : CoreId) : State :=
  let k := getCore s c
  if k.halted || k.fenced || k.task.isNone then s
  else
    let s := sequencerStep (streamWork s c) c
    let s := runDeferred (getCore s c).streams.deferred.length s c
    finishTask (pumpSends s c) c

/-! ### An instruction placed for the next fetch -/

/-- The physical page that a placed instruction stands in. -/
def codePage : Nat := 0x10000

/-- A leaf of that page: R, W, X and U, held at its L2 home alone (R184, R188). -/
def codeLeaf : DWord := BitVec.ofNat 64 (1 + 2 + 4 + 8 + 16 + 32 + 2 ^ 11 + (codePage / 65536) * 2 ^ 20)

/-- A task with no launch behind it. -/
def loneTask : Task := { ctx := 1, lid := 0, plot := 0, group := 0, fixk := false, handler := none }

/-- The core that runs the placed instruction: it holds a task, nothing stops its control thread, and its TLB maps the page of its
PC to the code page. -/
def readyCore (k : Core) : Core :=
  let t : TlbEntry := { asid := k.tregs.asid, tenant := k.tregs.tenant, base := BitVec.ofNat 64 (k.pc.toNat / 65536 * 65536), bits := 16, leaf := codeLeaf }
  { k with
    level := .task, halted := false, fenced := false, ending := false, pend := Pending.none, task := some (k.task.getD loneTask)
    flits := [], remote := none, posted := [], answered := [], replays := [], waited := false, doing := none
    tregs := { k.tregs with foot := if k.tregs.foot = 0 then BitVec.ofNat 48 (6 * 2 ^ 16 + 8 * 2 ^ 24 + 6 * 2 ^ 32 + 8 * 2 ^ 40) else k.tregs.foot }
    tables := { k.tables with tlb := t :: k.tables.tlb } }

/-- A line of HBM whose words are all defined from now (R397). -/
def defineLine (t : Tab Word) (line : Nat) : Tab Word := t.put line (BitVec.allOnes 32)

/-- `s` with an instruction's word where the current core fetches next. -/
def placeCode (s : State) (w : Nat) : State :=
  let c := s.cur
  let pa := codePage + (getCore s c).pc.toNat % 65536
  let s := updCore s c readyCore
  let ready := { s.hub.regs.ready with md := BitVec.allOnes 8, hbm := BitVec.allOnes 32 }
  { s with
    agenda := []
    store := { s.store with bytes := memStore s.store.bytes pa 4 w, defs := defineLine (defineLine s.store.defs (lineOf pa)) (lineOf (pa + 3)) }
    l2 := s.l2.drop fun l _ => l / 512 == codePage / 65536
    hub := { s.hub with
      lostDies := 0, moving := none
      hostLines := s.hub.hostLines.drop fun l _ => l / 512 == codePage / 65536
      regs := { s.hub.regs with ready := ready, power := { s.hub.regs.power with on := true } } } }

end Sys2Proof.Machine
end

