-- ==== Sys2Proof/Machine/FaultEvents.lean ====
section
/-!
DEFINITION. The events of traps and of faults: pending causes taken (R345), array errors (R369, R373), fenced cores and lost dies
(R331, R363, R364, R374, R375), and the reset of a core (R249, R393, R395).
-/

namespace Sys2Proof.Machine

/-! ### Pending causes (R345, R346, R350) -/

/-- Whether a trap at task level enters machine level (R345). -/
def entersMachine (k : Core) : Bool := k.cregs.tvec == 0 || bitAt k.cregs.tvec 0

/-- The cause that is due at a core, taken if the entry goes to the level asked for. -/
def takePending (s : State) (c : CoreId) (machine : Bool) : State :=
  let k := getCore s c
  if k.halted || k.fenced || k.task.isNone || entersMachine k != machine then s
  else
    match dueCause k with
    | some (t, st, rest) => takeAsync s c t st rest
    | none => s

/-- TRAP_ENTRY (R350). -/
def execTrapEntry (c : CoreId) (s : State) : Out := event (isCore c) (fun s => takePending s c false) s

/-- MACHINE_TRAP_ENTRY (R346). -/
def execMachineTrapEntry (c : CoreId) (s : State) : Out := event (isCore c) (fun s => takePending s c true) s

/-! ### A lost core (R363) -/

/-- The core without its task and all that hung on it: nothing is saved, and its ready queue empties. -/
def withoutTask (k : Core) : Core :=
  { k with
    task := none, ending := false, handlerAborted := false, returned := 0, hasRun := k.hasRun || k.task.isSome
    prevTenant := if k.task.isSome then k.tregs.tenant else k.prevTenant
    pend := Pending.none, unbound := false, evictFault := none, poisoned := []
    queues := Queues.reset
    streams := { Streams.reset with lazyV := k.streams.lazyV, lazyM := k.streams.lazyM }
    tables := { k.tables with lodges := [], ready := [], marks := 0 } }

/-- A core's task is lost without a save (R363): copies and collectives go on, waits end, its launch counts one task less. -/
def loseTask (s : State) (c : CoreId) : State :=
  let k := getCore s c
  let s := abandonWaits (orphanWork s c) c
  let s := updCore s c fun k => { withoutTask k with lost := k.task }
  match k.task with
  | some t => launchTaskEnded s t
  | none => s

/-- The barriers that a lost core breaks (R331): the entries of its task's context, and every entry that it homes. -/
def brokenBy (s : State) (c : CoreId) (ctx : Option HWord) : List (CoreId × Byte) :=
  (listedCores s fun _ => true).flatMap fun h =>
    ((getCore s h).tables.barriers.filter fun e => e.2.state == .active && (h == c || some e.2.ctx == ctx)).map fun e => (h, BitVec.ofNat 8 e.1)

/-- R363: whether a member waits on the lost core at an instruction that takes GANG_BROKEN itself: a barrier that has broken, or a
hand-on to it. Other waits end by the pending cause. -/
def waitsOn (k : Core) (d c : CoreId) : Bool :=
  (match k.streams.barWait with | .broken _ => true | _ => false) || ((handOnOf k).isSome && ringNeighbour k d == c)

/-- R363: GANG_BROKEN is raised at every other member of a lost core's gang. -/
def breakGang (s : State) (c : CoreId) (lost : Core) : State :=
  (listedCores s fun d => d != c && sameGang lost (getCore s d)).foldl (fun s d => updCore s d fun k =>
    if waitsOn k d c then k else { k with pend := { k.pend with gangBroken := some (lostCore c) } }) s

/-- The claims of the plots that a lost core stands in are withdrawn: their next groups never start (log 25). -/
def withdrawPlots (s : State) (c : CoreId) : State :=
  s.hub.launches.foldl (fun s l => (l.claimed.map Prod.fst).foldl (fun s p =>
    if l.state = .placed ∧ (l.plotRect p).has c then
      let s := { s with cores := s.cores.mapVals fun _ k =>
        if k.tables.ready.any (fun e => e.kind == .claim l.lid p) then
          { k with tables := { k.tables with ready := k.tables.ready.filter fun e => e.kind != .claim l.lid p } }
        else k }
      modLaunch s l.lid fun l => { l with claimed := l.claimed.del p }
    else s) s) s

/-- R363: a core is lost: it stops, its barriers break, its gang and its groups are told, and its task goes. -/
def loseCore (s : State) (c : CoreId) : State :=
  let k := getCore s c
  let s := updCore s c fun k => { k with fenced := true }
  let s := (brokenBy s c (k.task.map Task.ctx)).foldl (fun s e => breakBarrier s e.1 e.2 c) s
  let s := breakGang s c k
  let s := abortCoreGroups s c
  withdrawPlots (loseTask s c) c

/-- The READY bit of a core's cluster cleared (R363, R393). -/
def clearCluster (s : State) (c : CoreId) : State :=
  modRegs s fun h => { h with ready := { h.ready with clu := putBit h.ready.clu (clusterOf c) false } }

/-- A core that is lost, or reset, keeps no copy. -/
def forgetCopies (s : State) (c : CoreId) : State :=
  let s := { s with hub := { s.hub with
    owners := s.hub.owners.filter fun e => e.2 != c
    pushes := s.hub.pushes.filter fun m => m.core != c } }
  updCore s c fun k => { k with l1 := [], homes := [], partials := [] }

/-! ### Fencing (R374) -/

/-- R374: every word of a core's dirty blocks, in its L1 and in the home copies it holds, is poisoned before it is pushed. -/
def poisonDirty (k : Core) : Core :=
  { k with
    l1 := k.l1.mapVals fun _ l => { l with psn := l.psn ||| blockWords (touchedBlocks l.dirty), dirty := l.dirty ||| blockBytes (touchedBlocks l.dirty) }
    homes := k.homes.mapVals fun _ l => { l with psn := l.psn ||| blockWords (touchedBlocks l.dirty), dirty := l.dirty ||| blockBytes (touchedBlocks l.dirty) } }

/-- R374: a push of a fenced core, at a home that takes it; a migration has a late request (R389). No link loses it (log 10). -/
def fencedPush (s : State) (c : CoreId) (p : Push) : State :=
  let s := match otherOwner s none p.at with | some o => recallNow s o o p.at | none => s
  match p.refused s c with
  | none => performNow s c c p
  | some .held => performNow (noteLate s p.at) c c p
  | some _ => s

/-- R374: the dirty blocks of a core written back poisoned; no copy, registration or partial stays with it (log 26). -/
def writeBackPoisoned (s : State) (c : CoreId) : State :=
  let s := updCore s c poisonDirty
  let k := getCore s c
  let s := (k.l1.map (fun e => Push.evict e.1) ++ k.homes.map fun e => Push.home e.1 true).foldl (fun s p => fencedPush s c p) s
  forgetCopies s c

/-- R374, R363: a core is fenced, with its FENCE record. -/
def fenceCore (s : State) (c : CoreId) : State :=
  let k := getCore s c
  if k.fenced then s
  else
    let e := coreErr s c 5 true 0 0 0 0
    let s := report (writeBackPoisoned s c) e
    clearCluster (loseCore s c) c

/-- CORE_FENCE (R374). -/
def execCoreFence (c : CoreId) (s : State) : Out := event (isCore c) (fun s => fenceCore s c) s

/-! ### Lost dies (R364, R375) -/

/-- The cores of a compute die. -/
def dieCores (d : Nat) : List CoreId := ((List.range 3072).map (BitVec.ofNat 12)).filter fun c => dieOf c == d

/-- R375: the READY bits of a lost die cleared: the clusters of a compute die, or a memory die with its stacks. -/
def clearDie (r : Ready) (d : Nat) : Ready :=
  if d < 16 then { r with clu := (dieCores d).foldl (fun v c => putBit v (clusterOf c) false) r.clu }
  else { r with md := putBit r.md (d - 16) false, hbm := (List.range 4).foldl (fun v i => putBit v (4 * (d - 16) + i) false) r.hbm }

/-- R364: DIE_LOST at every task of a context that has touched the die. -/
def raiseDieLost (s : State) (d : Nat) : State :=
  let hit := (s.hub.contexts.filter fun x => bitAt x.dies d).map Context.ctx
  { s with cores := s.cores.mapVals fun _ k =>
      match k.task with
      | some t => if hit.contains t.ctx then { k with pend := { k.pend with dieLost := some (BitVec.ofNat 64 d) } } else k
      | none => k }

/-- R375: a die is lost: its record, its READY bits, its cores, and DIE_LOST. -/
def loseDie (s : State) (d : Nat) : State :=
  if bitAt s.hub.lostDies d then s
  else
    let s := report { s with hub := { s.hub with lostDies := putBit s.hub.lostDies d true } } (plainErr 6 true 0xFFFF d 0)
    let s := modRegs s fun h => { h with ready := clearDie h.ready d }
    let s := if d < 16 then (dieCores d).foldl (fun s c => loseCore (forgetCopies s c) c) s else s
    raiseDieLost s d

/-- DIE_LOSS (R375). -/
def execDieLoss (die : BitVec 5) (s : State) : Out := event (die.toNat < 24) (fun s => loseDie s die.toNat) s

/-! ### Array errors (R369, R370, R373) -/

/-- The line and the block in it of a 32-byte block. -/
def blockOf (block : BitVec 47) : Nat × Nat := (block.toNat / 4, block.toNat % 4)

/-- A bit for one block. -/
def oneBlock (b : Nat) : BitVec 4 := BitVec.ofNat 4 (1 <<< b)

/-- R369: an error in a line's copy: each word of the block is poisoned, and the error stands until the block is written in full or
pushed (R373, log 24). -/
def lineError (s : State) (site : LineSite) (block : BitVec 47) : State :=
  let (line, b) := blockOf block
  let w := blockWords (oneBlock b)
  match site with
  | .l2 =>
    match s.l2.find line with
    | some l => { s with l2 := s.l2.put line { l with psn := l.psn ||| w, bad := l.bad ||| oneBlock b } }
    | none => s
  | .l1 c => updCore s c fun k => match k.l1.find line with
    | some l => { k with l1 := k.l1.put line { l with psn := l.psn ||| w, bad := l.bad ||| oneBlock b } }
    | none => k
  | .clusterHome c => updCore s c fun k => match k.homes.find line with
    | some l => { k with homes := k.homes.put line { l with psn := l.psn ||| w, bad := l.bad ||| oneBlock b } }
    | none => k
  | .scratchpad c =>
    let key := sramKey c (32 * (block.toNat % 32768))
    { s with store := { s.store with psn := psnStore s.store.psn (key / 4) 8 0xFF } }

/-- R369: an error in an HBM block: its 8 words are poisoned, and the first request that meets it leaves a record. -/
def hbmError (s : State) (block : BitVec 47) : State :=
  if aperture (32 * block.toNat) ≠ 0 then s
  else
    { s with
      store := { s.store with psn := psnStore s.store.psn (8 * block.toNat) 8 0xFF }
      hub := { s.hub with hbmErrors := if s.hub.hbmErrors.contains block.toNat then s.hub.hbmErrors else s.hub.hbmErrors ++ [block.toNat] } }

/-- An uncorrectable error where it is found (R369); of a lane, the next computations of a protected element (R372). -/
def arrayError (s : State) : ErrSite → State
  | .hbm block => hbmError s block
  | .line site block => lineError s site block
  | .frameCell c row cell => updCore s c fun k =>
    let r := getRow k row
    if r.res = .gone then k else setRow k row { r with row := { r.row with psn := putBit r.row.psn cell.toNat true } }
  | .hoopElement c h i j => updCore s c fun k =>
    let v := hoopOf k h
    setHoop k h { v with psn := v.psn.set i.toNat (putBit (v.psn[i.toNat]?.getD 0) j.toNat true) }
  | .latchWord c l w => updCore s c fun k => setLatch k l { latchOf k l with psn := putBit (latchOf k l).psn w.toNat true }
  | .scaleReg c n => updCore s c fun k => { k with files := { k.files with scPsn := putBit k.files.scPsn n.toNat true } }
  | .control c => fenceCore s c
  | .flit => s
  | .lane c cell again => updCore s c fun k => { k with laneErrors := k.laneErrors ++ [(cell, again)] }

/-- UNCORRECTABLE_ERROR (R369). -/
def execUncorrectableError (site : ErrSite) (s : State) : Out := event site.ok (fun s => arrayError s site) s

/-- R369, R379: a corrected error is counted, and with CEREC a CORR record gives the count and clears it. It names the core whose
pool, hoop or latch has corrected it (R381). -/
def countCorrected (s : State) (e : CorrectedSite) : State :=
  let u := e.unit.toNat
  let n := satInc32 s.hub.regs.corrected[u]
  let put (v : Word) (s : State) : State := modRegs s fun h => { h with corrected := h.corrected.set u v }
  if s.hub.regs.cerec then report (put 0 s) (plainErr 3 false (if u < 2 then 0xFFFF else coordBits e.core) u n.toNat) else put n s

/-- CORRECTED_ERROR (R369). -/
def execCorrectedError (unit : CorrectedSite) (s : State) : Out := event (isCore unit.core) (fun s => countCorrected s unit) s

/-! ### The reset of a core (R92, R249, R273, R393, R395) -/

/-- A core after its reset; its counter block, its sequence numbers, its filter and the schedule's marks stay (log 27). Its copies of
region versions are 0 (R289): `versions` lists those that differ from the hub's. -/
def resetCore (versions : Tab Word) (k : Core) : Core :=
  { Core.reset with
    seq := k.seq, pktSeq := k.pktSeq, pktSeen := k.pktSeen, ctrs := k.ctrs, flits := k.flits, tables := { Tables.reset with versions := versions }
    streams := { Streams.reset with lazyV := k.streams.lazyV, lazyM := k.streams.lazyM } }

/-- R249: a core is reset: its task is gone, its queues and tables are empty, its memories are at their reset values, and packets that
reach it meanwhile are discarded with records. -/
def coreReset (s : State) (c : CoreId) : State :=
  let s := forgetCopies (zeroScratch (withdrawPlots (loseTask s c) c) c) c
  let (mine, rest) := s.hub.net.partition fun p => p.dst == c
  let s := { s with hub := { s.hub with net := rest } }
  let zeros : Tab Word := (s.hub.regs.regions.filter fun e => (slice e.2 0 32 : Word) != 0).map fun e => (e.1, 0)
  let s := updCore s c (resetCore zeros)
  mine.foldl (fun s p => pktDisc s c p 2) s

/-- CORE_RESET (R249). -/
def execCoreReset (c : CoreId) (s : State) : Out := event (isCore c) (fun s => coreReset s c) s

end Sys2Proof.Machine
end

