-- ==== Sys2Proof/Machine/FramePost.lean ====
section
/-!
DEFINITION. The frame instructions as the control thread posts them (R32, R53, R54, R109); what an entry does when it executes
stands in Frame.lean and Vector.lean.
-/

namespace Sys2Proof.Machine

/-! ### C2 (R53) -/

/-- `vadd` in its C2 form (R53, R132). -/
def execVaddC2 (dcol : Bool) (d : BitVec 5) (bcol : Bool) (b : BitVec 4) (s : State) : Out := post2 (.vaddC2 dcol d bcol b) s
/-- `vsub` in its C2 form (R53, R132). -/
def execVsubC2 (dcol : Bool) (d : BitVec 5) (bcol : Bool) (b : BitVec 4) (s : State) : Out := post2 (.vsubC2 dcol d bcol b) s
/-- `vmul` in its C2 form (R53, R132). -/
def execVmulC2 (dcol : Bool) (d : BitVec 5) (bcol : Bool) (b : BitVec 4) (s : State) : Out := post2 (.vmulC2 dcol d bcol b) s
/-- `vfma` in its C2 form (R53, R132). -/
def execVfmaC2 (dcol : Bool) (d : BitVec 5) (bcol : Bool) (b : BitVec 4) (s : State) : Out := post2 (.vfmaC2 dcol d bcol b) s
/-- `vmin` in its C2 form (R53, R132). -/
def execVminC2 (dcol : Bool) (d : BitVec 5) (bcol : Bool) (b : BitVec 4) (s : State) : Out := post2 (.vminC2 dcol d bcol b) s
/-- `vmax` in its C2 form (R53, R132). -/
def execVmaxC2 (dcol : Bool) (d : BitVec 5) (bcol : Bool) (b : BitVec 4) (s : State) : Out := post2 (.vmaxC2 dcol d bcol b) s
/-- `vand` in its C2 form (R53, R132). -/
def execVandC2 (dcol : Bool) (d : BitVec 5) (bcol : Bool) (b : BitVec 4) (s : State) : Out := post2 (.vandC2 dcol d bcol b) s
/-- `vor` in its C2 form (R53, R132). -/
def execVorC2 (dcol : Bool) (d : BitVec 5) (bcol : Bool) (b : BitVec 4) (s : State) : Out := post2 (.vorC2 dcol d bcol b) s
/-- `vxor` in its C2 form (R53, R132). -/
def execVxorC2 (dcol : Bool) (d : BitVec 5) (bcol : Bool) (b : BitVec 4) (s : State) : Out := post2 (.vxorC2 dcol d bcol b) s
/-- `vshl` in its C2 form (R53, R132). -/
def execVshlC2 (dcol : Bool) (d : BitVec 5) (bcol : Bool) (b : BitVec 4) (s : State) : Out := post2 (.vshlC2 dcol d bcol b) s
/-- `vshr` in its C2 form (R53, R132). -/
def execVshrC2 (dcol : Bool) (d : BitVec 5) (bcol : Bool) (b : BitVec 4) (s : State) : Out := post2 (.vshrC2 dcol d bcol b) s
/-- `vsra` in its C2 form (R53, R132). -/
def execVsraC2 (dcol : Bool) (d : BitVec 5) (bcol : Bool) (b : BitVec 4) (s : State) : Out := post2 (.vsraC2 dcol d bcol b) s
/-- `vmov` in its C2 form (R53, R132). -/
def execVmovC2 (dcol : Bool) (d : BitVec 5) (bcol : Bool) (b : BitVec 4) (s : State) : Out := post2 (.vmovC2 dcol d bcol b) s
/-- `vabs` in its C2 form (R53, R132). -/
def execVabsC2 (dcol : Bool) (d : BitVec 5) (bcol : Bool) (b : BitVec 4) (s : State) : Out := post2 (.vabsC2 dcol d bcol b) s
/-- `vneg` in its C2 form (R53, R132). -/
def execVnegC2 (dcol : Bool) (d : BitVec 5) (bcol : Bool) (b : BitVec 4) (s : State) : Out := post2 (.vnegC2 dcol d bcol b) s
/-- `vpopc` in its C2 form (R53, R132). -/
def execVpopcC2 (dcol : Bool) (d : BitVec 5) (bcol : Bool) (b : BitVec 4) (s : State) : Out := post2 (.vpopcC2 dcol d bcol b) s

/-! ### V3 (R54) -/

/-- `vadd` (R132). -/
def execVaddV3 (d a b : Opd) (s : State) : Out := post4 (.vaddV3 d a b) s
/-- `vsub` (R132). -/
def execVsubV3 (d a b : Opd) (s : State) : Out := post4 (.vsubV3 d a b) s
/-- `vmul` (R132). -/
def execVmulV3 (d a b : Opd) (s : State) : Out := post4 (.vmulV3 d a b) s
/-- `vfma` (R132). -/
def execVfmaV3 (d a b : Opd) (s : State) : Out := post4 (.vfmaV3 d a b) s
/-- `vmin` (R132). -/
def execVminV3 (d a b : Opd) (s : State) : Out := post4 (.vminV3 d a b) s
/-- `vmax` (R132). -/
def execVmaxV3 (d a b : Opd) (s : State) : Out := post4 (.vmaxV3 d a b) s
/-- `vand` (R132). -/
def execVandV3 (d a b : Opd) (s : State) : Out := post4 (.vandV3 d a b) s
/-- `vor` (R132). -/
def execVorV3 (d a b : Opd) (s : State) : Out := post4 (.vorV3 d a b) s
/-- `vxor` (R132). -/
def execVxorV3 (d a b : Opd) (s : State) : Out := post4 (.vxorV3 d a b) s
/-- `vshl` (R132). -/
def execVshlV3 (d a b : Opd) (s : State) : Out := post4 (.vshlV3 d a b) s
/-- `vshr` (R132). -/
def execVshrV3 (d a b : Opd) (s : State) : Out := post4 (.vshrV3 d a b) s
/-- `vsra` (R132). -/
def execVsraV3 (d a b : Opd) (s : State) : Out := post4 (.vsraV3 d a b) s
/-- `vmov` (R132). -/
def execVmovV3 (d a : Opd) (s : State) : Out := post4 (.vmovV3 d a) s
/-- `vabs` (R132). -/
def execVabsV3 (d a : Opd) (s : State) : Out := post4 (.vabsV3 d a) s
/-- `vneg` (R132). -/
def execVnegV3 (d a : Opd) (s : State) : Out := post4 (.vnegV3 d a) s
/-- `vpopc` (R132). -/
def execVpopcV3 (d a : Opd) (s : State) : Out := post4 (.vpopcV3 d a) s
/-- `vdiv` (R132). -/
def execVdiv (d a b : Opd) (s : State) : Out := post4 (.vdiv d a b) s
/-- `vsqrt` (R132). -/
def execVsqrt (d a : Opd) (s : State) : Out := post4 (.vsqrt d a) s
/-- `vclz` (R132). -/
def execVclz (d a : Opd) (s : State) : Out := post4 (.vclz d a) s
/-- `vnot` (R132). -/
def execVnot (d a : Opd) (s : State) : Out := post4 (.vnot d a) s
/-- `vcvt` (R134). -/
def execVcvt (d a : Opd) (fmt : Fmt) (rz sat : Bool) (s : State) : Out := post4 (.vcvt d a fmt rz sat) s
/-- `vfmt` (R135). -/
def execVfmt (d : Opd) (a : BitVec 5) (s : State) : Out := post4 (.vfmt d a) s
/-- `vclr` (R136). -/
def execVclr (d : Opd) (s : State) : Out := post4 (.vclr d) s
/-- `vsel` (R138). -/
def execVsel (d a b : Opd) (s : State) : Out := post4 (.vsel d a b) s
/-- `vceq` (R137). -/
def execVceq (k : BitVec 3) (a b : Opd) (s : State) : Out := post4 (.vceq k a b) s
/-- `vcne` (R137). -/
def execVcne (k : BitVec 3) (a b : Opd) (s : State) : Out := post4 (.vcne k a b) s
/-- `vclt` (R137). -/
def execVclt (k : BitVec 3) (a b : Opd) (s : State) : Out := post4 (.vclt k a b) s
/-- `vcle` (R137). -/
def execVcle (k : BitVec 3) (a b : Opd) (s : State) : Out := post4 (.vcle k a b) s
/-- `vid` (R136). -/
def execVid (d : Opd) (s : State) : Out := post4 (.vid d) s
/-- `vredsum` (R139). -/
def execVredsum (d a : Opd) (s : State) : Out := post4 (.vredsum d a) s
/-- `vredmin` (R139). -/
def execVredmin (d a : Opd) (s : State) : Out := post4 (.vredmin d a) s
/-- `vredmax` (R139). -/
def execVredmax (d a : Opd) (s : State) : Out := post4 (.vredmax d a) s
/-- `vredminx` (R140). -/
def execVredminx (d a : Opd) (s : State) : Out := post4 (.vredminx d a) s
/-- `vredand` (R139). -/
def execVredand (d a : Opd) (s : State) : Out := post4 (.vredand d a) s
/-- `vredor` (R139). -/
def execVredor (d a : Opd) (s : State) : Out := post4 (.vredor d a) s
/-- `vredxor` (R139). -/
def execVredxor (d a : Opd) (s : State) : Out := post4 (.vredxor d a) s
/-- `vslup` (R141). -/
def execVslup (d a b : Opd) (s : State) : Out := post4 (.vslup d a b) s
/-- `vsldn` (R141). -/
def execVsldn (d a b : Opd) (s : State) : Out := post4 (.vsldn d a b) s
/-- `vperm` (R142). -/
def execVperm (d a b : Opd) (s : State) : Out := post4 (.vperm d a b) s
/-- `vpack` (R143). -/
def execVpack (d a b : Opd) (s : State) : Out := post4 (.vpack d a b) s
/-- `vunpk` (R144). -/
def execVunpk (d a : Opd) (p : BitVec 3) (s : State) : Out := post4 (.vunpk d a p) s
/-- `vdot` (R145). -/
def execVdot (d a b : Opd) (s : State) : Out := post4 (.vdot d a b) s
/-- `vqnt` (R146). -/
def execVqnt (d a : Opd) (sc : BitVec 8) (s : State) : Out := post4 (.vqnt d a sc) s
/-- `vdq` (R147). -/
def execVdq (d a : Opd) (s : State) : Out := post4 (.vdq d a) s
/-- `vaddSat` (R132). -/
def execVaddSat (d a b : Opd) (s : State) : Out := post4 (.vaddSat d a b) s
/-- `vsubSat` (R132). -/
def execVsubSat (d a b : Opd) (s : State) : Out := post4 (.vsubSat d a b) s
/-- `vmulSat` (R132). -/
def execVmulSat (d a b : Opd) (s : State) : Out := post4 (.vmulSat d a b) s

/-! ### Masks in the vector stream (R148) -/

/-- `kbool` (R148). -/
def execKbool (kd ka kb : BitVec 3) (f : BitVec 4) (s : State) : Out := post4 (.kbool kd ka kb f) s
/-- `kset` (R148). -/
def execKset (kd : BitVec 3) (rs1 : BitVec 5) (s : State) : Out := post4 (.kset kd rs1) s

end Sys2Proof.Machine
end

