-- ==== Sys2Proof/Machine/HostEvents.lean ====
section
/-!
DEFINITION. The events of the host, the peers and the board (R205, R387, R390), security (R392), bring-up, power and the timebase
(R376, R393, R394), and the reset of the package (R182).
-/

namespace Sys2Proof.Machine

/-! ### Accesses from outside (R205, R295, R337, R387, R390) -/

/-- The bytes of a line as its home would serve them now; nothing is changed. -/
def peekHome (s : State) (line : Nat) : BitVec 1024 :=
  let d := (homeLine s line).1
  match s.hub.hostLines.find line with | some h => mergeBytes d h.data h.dirty | none => d

/-- The lines of a node of a page table that hold a byte other than 0, as far as memory and its copies list one. -/
def nodeLines (s : State) (node : Nat) : List Nat :=
  let first := lineOf node
  ((s.store.bytes.map fun e => lineOf e.1) ++ s.l2.map Prod.fst ++ s.hub.hostLines.map Prod.fst).filter (fun l => first ≤ l && l < first + 256)
    |>.eraseDups

/-- The valid entries of a node (R184). -/
def nodeEntries (s : State) (node : Nat) : List DWord :=
  (nodeLines s node).flatMap fun l => ((List.range 16).map fun i => slice (peekHome s l) (64 * i) 64).filter fun e => bitAt e 0

/-- The first leaf at or below a node of a level by which a line is mapped, with the levels left (R183, R185). -/
def leafBelow (s : State) (line : Nat) : Nat → Nat → Nat → Option Page
  | 0, _, _ => none
  | fuel + 1, level, node =>
    (nodeEntries s node).findSome? fun e =>
      let b := levelBits level
      if bitAt e 11 then
        if !badLeaf level e && leafBase e / 2 ^ b == 128 * line / 2 ^ b then some (pageOf e b) else none
      else if level = 3 || !(aperture (leafBase e) == 0 || aperture (leafBase e) == 3) || badTarget (leafBase e) then none
      else leafBelow s line fuel (level + 1) (leafBase e)

/-- The page of a line: an outside access brings no leaf, so the page tables of the registered contexts say it, or else some core's TLB
(log 28). -/
def knownPage (s : State) (line : Nat) : Option Page :=
  let hit (t : TlbEntry) : Bool := leafBase t.leaf / 2 ^ t.bits == 128 * line / 2 ^ t.bits
  match s.hub.contexts.findSome? fun x => leafBelow s line 4 0 (x.ptroot.toNat % 2 ^ 52) with
  | some pg => some pg
  | none => (s.cores.findSome? fun e => e.2.tables.tlb.find? hit).map fun t => pageOf t.leaf t.bits

/-- The region of a line: its page's, else that of a copy (log 28). -/
def knownRegion (s : State) (line : Nat) : Byte :=
  match knownPage s line with
  | some pg => pg.region
  | none =>
    match s.cores.findSome? fun e => e.2.l1.find line with
    | some l => l.region
    | none => match s.l2.find line with | some l => l.region | none => 0

/-- The size in bits of a line's page where that counts accesses (R184), else 0: as its leaf says, or as a record of it that stands already
(log 28). -/
def knownCount (s : State) (line : Nat) : Nat :=
  match knownPage s line with
  | some pg => pg.ac
  | none => ([16, 28, 40].find? fun b => match s.hub.pages.find (pageKey b line) with | some r => r.bits == b | none => false).getD 0

/-- R295: a write from outside to a watched region bumps its version. -/
def bumpWatched (s : State) (g : Byte) : State :=
  match s.hub.regs.regions.find g.toNat with
  | some r => if bitAt r 32 then bumpRegion s g.toNat else s
  | none => s

/-- R205: `n` bytes within a line written from outside at its L2 home. -/
def outsideWrite (s : State) (line off n v : Nat) : State :=
  let g := knownRegion s line
  bumpWatched (homePush s .outside (knownCount s line) line (placeBytes off v) (byteMask off n) 0 g 0) g

/-- The pieces of an outside access by line: line, offset, bytes, and the bytes before it. -/
def outsidePieces (pa n : Nat) : List (Nat × Nat × Nat × Nat) :=
  let k := min n (128 - pa % 128)
  (lineOf pa, pa % 128, k, 0) :: (if k < n then [(lineOf pa + 1, 0, n - k, k)] else [])

/-- An outside atomic (R64, R390): the host's copy is taken back, and a poisoned word is not written. -/
def outsideAtomic (s : State) (op : AtomOp) (dw : Bool) (pa : Nat) (v expect : DWord) : State :=
  let line := lineOf pa
  let n := if dw then 8 else 4
  let mask := byteMask (pa % 128) n
  let g := knownRegion s line
  let s := syncHost s line true
  let (s, d, p) := serveWords s .outside (knownCount s line) line g (touchedWords mask)
  let (old, bad) := lineField d p (pa % 128) n
  let w := 8 * n
  if bad then s
  else
    let new := placeBytes (pa % 128) (atomNew op w old (v.toNat % 2 ^ w) (expect.toNat % 2 ^ w))
    bumpWatched (grantZeros (writeL2 s .outside line new mask 0 g 0) line mask) g

/-- What a read from outside was given (R368). -/
def giveOutside (s : State) (d : BitVec 1024) (p : BitVec 32) : State := { s with hub := { s.hub with outsideRead := some (d, p) } }

/-- An outside read of some words of a line; a line that the host holds it reads in its own caches. -/
def outsideReadLine (s : State) (host : Bool) (line : Nat) (words : Word) : State :=
  match (if host then s.hub.hostLines.find line else none) with
  | some h => giveOutside s h.data h.psn
  | none =>
    let (s, d, p) := serveWords s .outside (knownCount s line) line (knownRegion s line) words
    giveOutside s d p

/-- R387: the lines that the host-coherence directory records at most. -/
def directoryQuota : Nat := 1048576

/-- The line that the host has held longest. -/
def oldestHeld : List (Nat × HostLine) → Option (Nat × HostLine)
  | [] => none
  | e :: r => match oldestHeld r with
    | some f => if f.2.order < e.2.order then some f else some e
    | none => some e

/-- R387: a full directory back-invalidates its oldest entry. -/
def roomForHost (s : State) : State :=
  if s.hub.hostLines.length < directoryQuota then s
  else match oldestHeld s.hub.hostLines with
    | some e => syncHost s e.1 true
    | none => s

/-- R387, R368: the host takes a line into its caches with its poison indications, and may make one byte of it dirty there. -/
def hostHold (s : State) (line : Nat) (byte : Option (BitVec 7 × Byte)) : State :=
  let (s, h) : State × HostLine := match s.hub.hostLines.find line with
    | some h => (s, h)
    | none =>
      let (s, d, p) := homeServe (roomForHost s) .outside (knownCount s line) line (knownRegion s line)
      ({ s with stamp := s.stamp + 1 }, { data := d, dirty := 0, psn := p, order := s.stamp, ac := knownCount s line })
  let h : HostLine := match byte with
    | some (i, b) => { h with data := splice h.data (8 * i.toNat) b, dirty := putBit h.dirty i.toNat true }
    | none => h
  { s with hub := { s.hub with hostLines := s.hub.hostLines.put line h } }

/-- The HBM address of an outside access (R386, R390): the host's address less HDMBASE; none beyond the 2,048 GB of HBM. -/
def hbmAddress (s : State) (host : Bool) (a : DWord) (n : Nat) : Option Nat :=
  let pa := (if host then a - s.hub.regs.hdmbase else a).toNat
  if pa + n ≤ 2 ^ 41 then some pa else none

/-- Whether an access from outside changes memory, so that its home recalls an owner of the line (R202, R205). -/
def outsideWrites : OutsideAccess → Bool
  | .write .. | .atomic .. => true
  | _ => false

/-- An outside access held at its home. -/
def holdAccess (s : State) (host : Bool) (acc : OutsideAccess) : State :=
  { s with hub := { s.hub with heldAccesses := s.hub.heldAccesses ++ [(host, acc)] } }

/-- An outside access of `n` bytes of HBM: one to a page that a migration moves is late and is held at its home (R389), and so is one that
recalls an owner, until the owner's push has been performed (R202, R376). -/
def atHbm (s : State) (host : Bool) (acc : OutsideAccess) (a : DWord) (n : Nat) (f : State → Nat → State) : State :=
  match hbmAddress s host a n with
  | none => s
  | some pa =>
    let l := outsidePieces pa n
    match l.find? fun p => homeRefuses s p.1 == some .held with
    | some p => noteLate (holdAccess s host acc) p.1
    | none =>
      let s := if outsideWrites acc then l.foldl (fun s p => if (homeRefuses s p.1).isNone then recallLine s none p.1 else s) s else s
      if outsideWrites acc && l.any (fun p => (homeRefuses s p.1).isNone && (otherOwner s none p.1).isSome) then holdAccess s host acc else f s pa

/-- Something done at each piece of an outside access whose home answers (R375, R393). -/
def eachPiece (s : State) (pa n : Nat) (f : State → Nat × Nat × Nat × Nat → State) : State :=
  (outsidePieces pa n).foldl (fun s p => if (homeRefuses s p.1).isNone then f s p else s) s

/-- The rows that a peer sends as a message of their wave, with their poison bits (R276). -/
def peerRows (gid : BitVec 12) (ctx tenant : HWord) (wave : HWord) (kind op fmt : BitVec 4) (rows : List (BitVec 2048 × DWord))
    (now : DWord) : RelayMsg :=
  { gid := gid, ctx := ctx, tenant := tenant, wave := wave, node := none, port := 0, out := false, kind := kind, op := op, fmt := fmt
    rows := rows.map fun r => { Row.blank with bits := r.1, psn := r.2 }, way := Transit.first now }

/-- An access from outside: to HBM, at its L2 home (R205, R390); of the host's or a peer's own memory, of which
a copy in L2 past its bound is gone by then (R182, R200); or rows or an abort of a collective. -/
def outsideAccess (s : State) (host : Bool) (acc : OutsideAccess) : State :=
  match acc with
  | .read a n => atHbm s host acc a n.toNat fun s pa => eachPiece s pa n.toNat fun s p =>
      outsideReadLine s host p.1 (touchedWords (byteMask p.2.1 p.2.2.1))
  | .write a n v => atHbm s host acc a n.toNat fun s pa => eachPiece s pa n.toNat fun s p =>
      outsideWrite s p.1 p.2.1 p.2.2.1 ((v.toNat >>> (8 * p.2.2.2)) % 2 ^ (8 * p.2.2.1))
  | .atomic op dw a v expect => atHbm s host acc a (if dw then 8 else 4) fun s pa => eachPiece s pa 1 fun s _ => outsideAtomic s op dw pa v expect
  | .hold a byte => atHbm s host acc a 1 fun s pa => eachPiece s pa 1 fun s p =>
      if host then hostHold s p.1 byte else outsideReadLine s host p.1 (BitVec.allOnes 32)
  | .own pa n v =>
    let s := (outsidePieces pa.toNat n.toNat).foldl (fun s p => expireL2 s p.1) s
    storePut s pa.toNat n.toNat (v.toNat % 2 ^ (8 * n.toNat)) false
  | .rows port gid ctx tenant wave kind op fmt rows =>
    if host || !bitAt s.hub.regs.ready.fab port.toNat then s
    else fabricRows s port.toNat (peerRows gid ctx tenant wave kind op fmt rows s.time)
  | .abort port gid ctx tenant step => if host || !bitAt s.hub.regs.ready.fab port.toNat then s else fabricAbort s port.toNat gid ctx tenant step

/-- R389: the accesses that a migration held are performed at SRC once it has ended. -/
def performHeld (s : State) : State :=
  if s.hub.moving.isSome then s
  else s.hub.heldAccesses.foldl (fun s e => outsideAccess s e.1 e.2) { s with hub := { s.hub with heldAccesses := [] } }

/-- R365: a killed context's copies end once every core has acknowledged. -/
def abortKilled (s : State) : State :=
  match s.hub.jobs with
  | j :: _ => match j.phase with | .killing ctx [] => abortCopies s ctx | _ => s
  | [] => s

/-- What the hub does beside the cores' turns: its command's next turn, the accesses that a migration held, the pushes and the aborts that
are on their way, the write-backs of L2, the records that are due, and a launch push that waits (R384, R385, R389, R377, R284, R380, R388); a
package without power does nothing (R394, log 17). -/
def hubWork (s : State) : State :=
  if !s.hub.regs.power.on then s
  else refillFifo (drainNotices (drainErrors (moveSteps (moveSpills (movePushes (performHeld (serveJob (abortKilled s))))))))

/-- HOST_MEM_ACCESS (R205). -/
def execHostMemAccess (acc : OutsideAccess) (s : State) : Out := event acc.ok (fun s => outsideAccess s true acc) s

/-- PEER_ACCESS (R390): as a host access; a peer holds no line, so `hold` reads it. -/
def execPeerAccess (acc : OutsideAccess) (s : State) : Out := event acc.ok (fun s => outsideAccess s false acc) s

/-! ### Security (R392) -/

/-- R382: why the root of trust refuses an image, the first that holds: malformed, not signed, a key that is not fused, a version below
the minimum. -/
def imageReason (h : HubRegs) (img : FwImage) : Option Nat :=
  if !img.wellFormed then some 4
  else if !img.signed then some 1
  else if !img.keyFused then some 2
  else if img.version < h.fwMinimum then some 3
  else none

/-- R392: an image is accepted, and may raise the fused minimum, or is discarded with a record. -/
def receiveImage (s : State) (img : FwImage) : State :=
  match imageReason s.hub.regs img with
  | some r => report s (plainErr 12 false 0xFFFF r img.version.toNat)
  | none => modRegs s fun h =>
    let m := img.newMinimum.getD h.fwMinimum
    { h with fwVersion := img.version, fwMinimum := if h.fwMinimum < m then m else h.fwMinimum }

/-- FIRMWARE_IMAGE (R392). -/
def execFirmwareImage (img : FwImage) (s : State) : Out := event true (fun s => receiveImage s img) s

/-- The power registers as the root of trust measures them (R392, R394). -/
def Power.measured (p : Power) : List Nat := [p.plim.toNat, p.pnow.toNat, p.clk.toNat, p.tmax.toNat]

/-- The answer of the root of trust to a request: by the device's identity and what it measures (R392). -/
def spdmReply (h : HubRegs) (req : DWord) : DWord :=
  Config.spdmAnswer req Config.deviceKey h.fwVersion h.fwMinimum h.regions h.peers h.power.measured

/-- SPDM_REQUEST (R392): the root of trust answers; the message is open (log 6). -/
def execSpdmRequest (req : DWord) (s : State) : Out :=
  event true (fun s => modRegs s fun h => { h with spdm := h.spdm ++ [spdmReply h req] }) s

/-! ### Reset and bring-up (R182, R393, R397) -/

/-- What no reset of the package changes: the image that runs and the fused minimum. -/
def keepFirmware (old new : HubRegs) : HubRegs := { new with fwVersion := old.fwVersion, fwMinimum := old.fwMinimum }

/-- The package reset, with the memory that it keeps and what is known of it: the schedule and the free values go on (log 29). -/
def resetKeeping (s : State) (keep : Nat → Bool) : State :=
  { State.reset with
    hub := { Hub.reset with regs := keepFirmware s.hub.regs HubRegs.reset, hbmErrors := s.hub.hbmErrors.filter fun b => keep (32 * b) }
    store := { bytes := s.store.bytes.filter fun e => keep e.1, psn := s.store.psn.filter fun w => keep (4 * w)
               defs := s.store.defs.filter fun e => keep (128 * e.1) }
    cur := s.cur, agenda := s.agenda, free := s.free }

/-- R182: a reset of the package: HBM keeps its contents, and so do the host's and the peers' memories. -/
def resetPackage (s : State) : State := resetKeeping s fun a => aperture a != 1

/-- PACKAGE_RESET (R182). -/
def execPackageReset (s : State) : Out := event true resetPackage s

/-- R393: the hub is ready. -/
def hubReady (s : State) : State := modRegs s fun h => { h with ready := { h.ready with hub := true } }

/-- R393, R397: power-up: from no power everything but the host's and the peers' memories is lost; then the hub readies first. -/
def powerUp (s : State) : State :=
  if s.hub.regs.power.on then hubReady s else hubReady (resetKeeping s fun a => aperture a == 3 || 8 ≤ aperture a)

/-- POWER_UP (R393). -/
def execPowerUp (s : State) : Out := .next (powerUp s)

/-- R393: a function's READY bit. -/
def setReady (r : Ready) : ReadyBit → Ready
  | .hub => { r with hub := true }
  | .md m => { r with md := putBit r.md m.toNat true }
  | .hbm t => { r with hbm := putBit r.hbm t.toNat true }
  | .clu n => { r with clu := putBit r.clu n.toNat true }
  | .fab n => { r with fab := if n.toNat < 48 then putBit r.fab n.toNat true else r.fab }
  | .host n => { r with host := putBit r.host n.toNat true }

/-- The die that a function stands on, for a cluster or a memory die. -/
def readyDie : ReadyBit → Option Nat
  | .md m => some (16 + m.toNat)
  | .clu n => some (dieOf (coreAt (6 * (n.toNat % 8)) (8 * (n.toNat / 8))))
  | _ => none

/-- Whether a function may set its bit: the hub is ready first, and no core of a cluster is fenced (R374, R393). -/
def mayReady (s : State) : ReadyBit → Bool
  | .hub => true
  | .clu n => s.hub.regs.ready.hub && (listedCores s fun c => clusterOf c == n.toNat).all fun c => !(getCore s c).fenced
  | _ => s.hub.regs.ready.hub

/-- R393, R375: a function has passed its tests; the management controller has brought back the die it stands on. -/
def functionReady (s : State) (f : ReadyBit) : State :=
  if !mayReady s f then s
  else
    let s := modRegs s fun h => { h with ready := setReady h.ready f }
    match readyDie f with
    | some d => { s with hub := { s.hub with lostDies := putBit s.hub.lostDies d false } }
    | none => s

/-- FUNCTION_READY (R393). -/
def execFunctionReady (f : ReadyBit) (s : State) : Out := event true (fun s => functionReady s f) s

/-! ### Power and the timebase (R376, R394) -/

/-- The lowest arithmetic clock in MHz. -/
def clkMin : Nat := 500

/-- R394: the clock that the management controller sets: the lowest while a junction is at 110 °C or above, one step of 25 MHz lower while
the package draws more than its limit. -/
def nextClock (p : Power) (watts : HWord) (tmax : Byte) : BitVec 12 :=
  if 110 ≤ tmax.toNat then BitVec.ofNat 12 clkMin
  else if p.plim < watts then BitVec.ofNat 12 (max clkMin (p.clk.toNat - 25))
  else p.clk

/-- R394: the hottest junction as the controller has read it, with the clock that it sets: at 125 °C the package loses its power. -/
def Power.heated (p : Power) (clk : BitVec 12) (tmax : Byte) : Power := { p with clk := clk, tmax := tmax, on := p.on && decide (tmax.toNat < 125) }

/-- POWER_CAP (R394): the controller reads the package's power and its hottest junction. -/
def execPowerCap (watts : HWord) (tmax : BitVec 8) (s : State) : Out :=
  event true (fun s => modRegs s fun h => { h with power := { h.power with pnow := watts }.heated (nextClock h.power watts tmax) tmax }) s

/-- THERMAL_TRIP (R394): the controller reads the hottest junction alone. -/
def execThermalTrip (tmax : BitVec 8) (s : State) : Out :=
  event true (fun s => modRegs s fun h => { h with power := h.power.heated (if 110 ≤ tmax.toNat then BitVec.ofNat 12 clkMin else h.power.clk) tmax }) s

/-- TIMEBASE_HALT (R376). -/
def execTimebaseHalt (s : State) : Out := event true (fun s => { s with timeHalted := true }) s

/-- TIMEBASE_RESUME (R376). -/
def execTimebaseResume (s : State) : Out := event true (fun s => { s with timeHalted := false }) s

end Sys2Proof.Machine
end

