-- ==== Sys2Proof/Machine/Scalar.lean ====
section
/-!
DEFINITION. The scalar instructions of the control thread (R108 to R118): integers, constants, branches and jumps, and floating
point.
-/

namespace Sys2Proof.Machine

/-! ### Integers (R110, R111) -/

/-- A scalar instruction that writes `rd` from the core's registers and raises nothing. -/
def alu (rd : BitVec 5) (f : Core → DWord) (s : State) : Out := .next (writeScalar s rd (f (getCore s s.cur)))

/-- An operation on two registers. -/
def alu2 (rd rs1 rs2 : BitVec 5) (f : DWord → DWord → DWord) (s : State) : Out := alu rd (fun k => f (getS k rs1) (getS k rs2)) s

/-- R111: the signed quotient; division by 0 gives all ones. -/
def sdiv64 (a b : DWord) : DWord := if b = 0 then BitVec.allOnes 64 else BitVec.ofInt 64 (a.toInt.tdiv b.toInt)

/-- R111: the signed remainder; by 0 it is the dividend. -/
def srem64 (a b : DWord) : DWord := if b = 0 then a else BitVec.ofInt 64 (a.toInt.tmod b.toInt)

/-- R111: the unsigned quotient. -/
def udiv64 (a b : DWord) : DWord := if b = 0 then BitVec.allOnes 64 else a / b

/-- R111: the unsigned remainder. -/
def urem64 (a b : DWord) : DWord := if b = 0 then a else a % b

/-- The shift count in bits 5:0 of a register (R111). -/
def count6 (b : DWord) : Nat := b.toNat % 64

/-- R111: the number of leading zeros. -/
def clz64 (a : DWord) : DWord := BitVec.ofNat 64 (64 - bitLen a.toNat)

/-- R111: the number of trailing zeros. -/
def ctz64 (a : DWord) : DWord := BitVec.ofNat 64 ((lowestFrom 64 0 a.toNat).getD 64)

/-- `add`. -/
def execAdd (rd rs1 rs2 : BitVec 5) (s : State) : Out := alu2 rd rs1 rs2 (· + ·) s
/-- `sub`. -/
def execSub (rd rs1 rs2 : BitVec 5) (s : State) : Out := alu2 rd rs1 rs2 (· - ·) s
/-- `mul`. -/
def execMul (rd rs1 rs2 : BitVec 5) (s : State) : Out := alu2 rd rs1 rs2 (· * ·) s
/-- `mulh`. -/
def execMulh (rd rs1 rs2 : BitVec 5) (s : State) : Out :=
  alu2 rd rs1 rs2 (fun a b => slice (a.signExtend 128 * b.signExtend 128) 64 64) s
/-- `mulhu`. -/
def execMulhu (rd rs1 rs2 : BitVec 5) (s : State) : Out :=
  alu2 rd rs1 rs2 (fun a b => slice (a.setWidth 128 * b.setWidth 128) 64 64) s
/-- `div`. -/
def execDiv (rd rs1 rs2 : BitVec 5) (s : State) : Out := alu2 rd rs1 rs2 sdiv64 s
/-- `divu`. -/
def execDivu (rd rs1 rs2 : BitVec 5) (s : State) : Out := alu2 rd rs1 rs2 udiv64 s
/-- `rem`. -/
def execRem (rd rs1 rs2 : BitVec 5) (s : State) : Out := alu2 rd rs1 rs2 srem64 s
/-- `remu`. -/
def execRemu (rd rs1 rs2 : BitVec 5) (s : State) : Out := alu2 rd rs1 rs2 urem64 s
/-- `and`. -/
def execAnd (rd rs1 rs2 : BitVec 5) (s : State) : Out := alu2 rd rs1 rs2 (· &&& ·) s
/-- `or`. -/
def execOr (rd rs1 rs2 : BitVec 5) (s : State) : Out := alu2 rd rs1 rs2 (· ||| ·) s
/-- `xor`. -/
def execXor (rd rs1 rs2 : BitVec 5) (s : State) : Out := alu2 rd rs1 rs2 (· ^^^ ·) s
/-- `andn`. -/
def execAndn (rd rs1 rs2 : BitVec 5) (s : State) : Out := alu2 rd rs1 rs2 (fun a b => a &&& ~~~b) s
/-- `shl`. -/
def execShl (rd rs1 rs2 : BitVec 5) (s : State) : Out := alu2 rd rs1 rs2 (fun a b => a <<< count6 b) s
/-- `shr`. -/
def execShr (rd rs1 rs2 : BitVec 5) (s : State) : Out := alu2 rd rs1 rs2 (fun a b => a >>> count6 b) s
/-- `sra`. -/
def execSra (rd rs1 rs2 : BitVec 5) (s : State) : Out := alu2 rd rs1 rs2 (fun a b => a.sshiftRight (count6 b)) s
/-- `min`. -/
def execMin (rd rs1 rs2 : BitVec 5) (s : State) : Out := alu2 rd rs1 rs2 (fun a b => if a.slt b then a else b) s
/-- `max`. -/
def execMax (rd rs1 rs2 : BitVec 5) (s : State) : Out := alu2 rd rs1 rs2 (fun a b => if a.slt b then b else a) s
/-- `minu`. -/
def execMinu (rd rs1 rs2 : BitVec 5) (s : State) : Out := alu2 rd rs1 rs2 (fun a b => if a < b then a else b) s
/-- `maxu`. -/
def execMaxu (rd rs1 rs2 : BitVec 5) (s : State) : Out := alu2 rd rs1 rs2 (fun a b => if a < b then b else a) s
/-- `slt`. -/
def execSlt (rd rs1 rs2 : BitVec 5) (s : State) : Out := alu2 rd rs1 rs2 (fun a b => boolWord (a.slt b)) s
/-- `sltu`. -/
def execSltu (rd rs1 rs2 : BitVec 5) (s : State) : Out := alu2 rd rs1 rs2 (fun a b => boolWord (decide (a < b))) s
/-- `clz`. -/
def execClz (rd rs1 : BitVec 5) (s : State) : Out := alu rd (fun k => clz64 (getS k rs1)) s
/-- `ctz`. -/
def execCtz (rd rs1 : BitVec 5) (s : State) : Out := alu rd (fun k => ctz64 (getS k rs1)) s
/-- `popc`. -/
def execPopc (rd rs1 : BitVec 5) (s : State) : Out := alu rd (fun k => BitVec.ofNat 64 (popCount 64 (getS k rs1).toNat)) s
/-- `csel`. -/
def execCsel (rd rs1 rs2 rs3 : BitVec 5) (s : State) : Out :=
  alu rd (fun k => if getS k rs3 = 0 then getS k rs2 else getS k rs1) s
/-- `addi`. -/
def execAddi (rd rs1 : BitVec 5) (imm : BitVec 12) (s : State) : Out := alu rd (fun k => getS k rs1 + sext64 imm) s
/-- `andi`. -/
def execAndi (rd rs1 : BitVec 5) (imm : BitVec 12) (s : State) : Out := alu rd (fun k => getS k rs1 &&& sext64 imm) s
/-- `ori`. -/
def execOri (rd rs1 : BitVec 5) (imm : BitVec 12) (s : State) : Out := alu rd (fun k => getS k rs1 ||| sext64 imm) s
/-- `xori`. -/
def execXori (rd rs1 : BitVec 5) (imm : BitVec 12) (s : State) : Out := alu rd (fun k => getS k rs1 ^^^ sext64 imm) s
/-- `shli`. -/
def execShli (rd rs1 : BitVec 5) (cnt : BitVec 6) (s : State) : Out := alu rd (fun k => getS k rs1 <<< cnt.toNat) s
/-- `shri`. -/
def execShri (rd rs1 : BitVec 5) (cnt : BitVec 6) (s : State) : Out := alu rd (fun k => getS k rs1 >>> cnt.toNat) s
/-- `srai`. -/
def execSrai (rd rs1 : BitVec 5) (cnt : BitVec 6) (s : State) : Out := alu rd (fun k => (getS k rs1).sshiftRight cnt.toNat) s
/-- `slti`. -/
def execSlti (rd rs1 : BitVec 5) (imm : BitVec 12) (s : State) : Out := alu rd (fun k => boolWord ((getS k rs1).slt (sext64 imm))) s

/-! ### Constants and addresses (R112) -/

/-- `lim`. -/
def execLim (rd : BitVec 5) (imm : BitVec 19) (s : State) : Out := alu rd (fun _ => sext64 imm * 4096) s
/-- `apc`. -/
def execApc (rd : BitVec 5) (imm : BitVec 19) (s : State) : Out := alu rd (fun k => k.pc + sext64 imm * 2) s

/-! ### Branches and jumps (R113 to R115) -/

/-- A conditional branch. -/
def branch (rs1 rs2 : BitVec 5) (off : BitVec 12) (cond : DWord → DWord → Bool) (s : State) : Out :=
  .next (updCore s s.cur fun k =>
    if cond (getS k rs1) (getS k rs2) then retireTo k (k.pc + sext64 off * 2) else retire k 4)

/-- `beq`. -/
def execBeq (rs1 rs2 : BitVec 5) (off : BitVec 12) (s : State) : Out := branch rs1 rs2 off (· == ·) s
/-- `bne`. -/
def execBne (rs1 rs2 : BitVec 5) (off : BitVec 12) (s : State) : Out := branch rs1 rs2 off (· != ·) s
/-- `blt`. -/
def execBlt (rs1 rs2 : BitVec 5) (off : BitVec 12) (s : State) : Out := branch rs1 rs2 off (fun a b => a.slt b) s
/-- `bge`. -/
def execBge (rs1 rs2 : BitVec 5) (off : BitVec 12) (s : State) : Out := branch rs1 rs2 off (fun a b => !a.slt b) s
/-- `bltu`. -/
def execBltu (rs1 rs2 : BitVec 5) (off : BitVec 12) (s : State) : Out := branch rs1 rs2 off (fun a b => decide (a < b)) s
/-- `bgeu`. -/
def execBgeu (rs1 rs2 : BitVec 5) (off : BitVec 12) (s : State) : Out := branch rs1 rs2 off (fun a b => !decide (a < b)) s

/-- `jmp` (R114). -/
def execJmp (rd : BitVec 5) (off : BitVec 20) (s : State) : Out :=
  .next (updCore s s.cur fun k => retireTo (setS k rd (k.pc + 4)) (k.pc + sext64 off * 2))

/-- `jind` (R114). -/
def execJind (rd rs1 : BitVec 5) (imm : BitVec 12) (s : State) : Out :=
  let tgt := getS (getCore s s.cur) rs1 + sext64 imm
  if bitAt tgt 0 then trapNow s .misalign tgt
  else .next (updCore s s.cur fun k => retireTo (setS k rd (k.pc + 4)) tgt)

/-! ### Floating point (R116 to R118) -/

/-- The format of a selector. -/
def binOf : FpFmt → BinFmt
  | .fp64 => Machine.fp64
  | .fp32 => Machine.fp32

/-- A register as a value of a format. -/
def fpOf (f : FpFmt) (v : DWord) : Val :=
  match f with
  | .fp64 => Machine.fp64.decode v.toNat
  | .fp32 => Machine.fp32.decode (v.toNat % 2 ^ 32)

/-- RND.MODE of a core. -/
def rndOf (k : Core) : Rnd := Rnd.ofBits k.tregs.rnd

/-- A value rounded into a register. -/
def fpPut (f : FpFmt) (r : Rnd) (v : Val) (sticky : Bool) : DWord := BitVec.ofNat 64 ((binOf f).encodeS r v sticky)

/-- An operation on two values with its exact result, rounded once. -/
def fp2 (f : FpFmt) (rd rs1 rs2 : BitVec 5) (op : Rnd → Val → Val → Val × Bool) (s : State) : Out :=
  alu rd (fun k =>
    let r := rndOf k
    let v := op r (fpOf f (getS k rs1)) (fpOf f (getS k rs2))
    fpPut f r v.1 v.2) s

/-- `fadd`. -/
def execFadd (f : FpFmt) (rd rs1 rs2 : BitVec 5) (s : State) : Out := fp2 f rd rs1 rs2 (fun r a b => (a.add r b, false)) s
/-- `fsub`. -/
def execFsub (f : FpFmt) (rd rs1 rs2 : BitVec 5) (s : State) : Out := fp2 f rd rs1 rs2 (fun r a b => (a.add r b.neg, false)) s
/-- `fmul`. -/
def execFmul (f : FpFmt) (rd rs1 rs2 : BitVec 5) (s : State) : Out := fp2 f rd rs1 rs2 (fun _ a b => (a.mul b, false)) s
/-- `fdiv`. -/
def execFdiv (f : FpFmt) (rd rs1 rs2 : BitVec 5) (s : State) : Out := fp2 f rd rs1 rs2 (fun _ a b => a.div b) s
/-- `fsqrt`. -/
def execFsqrt (f : FpFmt) (rd rs1 : BitVec 5) (s : State) : Out := fp2 f rd rs1 rs1 (fun _ a _ => a.sqrt) s
/-- `fma`. -/
def execFma (f : FpFmt) (rd rs1 rs2 rs3 : BitVec 5) (s : State) : Out :=
  alu rd (fun k =>
    let r := rndOf k
    fpPut f r (((fpOf f (getS k rs1)).mul (fpOf f (getS k rs2))).add r (fpOf f (getS k rs3))) false) s
/-- `fmin`. -/
def execFmin (f : FpFmt) (rd rs1 rs2 : BitVec 5) (s : State) : Out := fp2 f rd rs1 rs2 (fun _ a b => (a.min b, false)) s
/-- `fmax`. -/
def execFmax (f : FpFmt) (rd rs1 rs2 : BitVec 5) (s : State) : Out := fp2 f rd rs1 rs2 (fun _ a b => (a.max b, false)) s

/-- R117: a conversion. -/
def fcvtOf (f : FpFmt) (kind : FcvtKind) (r : Rnd) (v : DWord) : DWord :=
  match kind with
  | .toi => BitVec.ofInt 64 ((fpOf f v).toRange r (-(2 ^ 63 : Nat)) ((2 ^ 63 : Nat) - 1))
  | .tou => BitVec.ofInt 64 ((fpOf f v).toRange r 0 ((2 ^ 64 : Nat) - 1))
  | .fri => fpPut f r (Val.ofInt v.toInt) false
  | .fru => fpPut f r (Val.ofInt v.toNat) false
  | .frf => fpPut f r (fpOf (match f with | .fp64 => .fp32 | .fp32 => .fp64) v) false

/-- `fcvt`. -/
def execFcvt (f : FpFmt) (kind : FcvtKind) (rd rs1 : BitVec 5) (s : State) : Out :=
  alu rd (fun k => fcvtOf f kind (rndOf k) (getS k rs1)) s

/-- `fcmp`. -/
def execFcmp (f : FpFmt) (cond : FcmpCond) (rd rs1 rs2 : BitVec 5) (s : State) : Out :=
  alu rd (fun k => boolWord (fcmpHolds cond (fpOf f (getS k rs1)) (fpOf f (getS k rs2)))) s

end Sys2Proof.Machine
end

