-- ==== Sys2Proof/Machine/System.lean ====
section
/-!
DEFINITION. Special registers, traps, returns and the end of a task (R119 to R122), and the mask instructions of the control
thread (R149).
-/

namespace Sys2Proof.Machine

/-! ### Special registers (R98 to R100, R119) -/

/-- R100: an access to PMASK waits for every posted entry. -/
def waitFor (c : CoreId) (r : Spr) : M Unit := if r = .pmask then gateIdle c else pure ()

/-- R119: PRIV unless the level may access a register in a way. -/
def needAccess (i : Instr) (ok : Bool) : M Unit := require ok .priv (encodingOf i)

/-- `sget`. -/
def execSget (rd : BitVec 5) (sel : Spr) (s : State) : Out :=
  controlTo rd (fun c => do
    needAccess (.sget rd sel) (sprAccess (← theCore c).level sel != 0)
    waitFor c sel
    return getSpr (← get) c sel) s

/-- R100: every register-cache block of the task is invalid. -/
def dropBlocks (k : Core) : Core :=
  { k with files := { k.files with
      x := k.files.x.map fun r => { r with res := Residency.gone }
      scRes := Vector.replicate 4 Residency.gone } }

/-- What precedes a write of a special register: `sset RBASE` cuts every pin, writes back the dirty blocks and invalidates the
blocks (R100, R304); a new TENANT writes the lodge descriptors back (R307), to homes that are ready (R393). -/
def beforeWrite (c : CoreId) (r : Spr) : M Unit :=
  match r with
  | .rbase => do
    cutEvery c (← theCore c).pc
    writeBackAll c
    modCore c dropBlocks
  | .tenant => do
    eachOf (lodgeHomes (← get) c) fun a => reachHome c (lineOf a) 0
    modify fun s => writeBackLodges s c
  | _ => pure ()

/-- R200: lowering LEASE2 shortens the life of the L2 copies that the core has filled. -/
def lowerL2 (s : State) (c : CoreId) (v : Word) : State :=
  { s with l2 := s.l2.mapVals fun _ l => if l.filler = some c ∧ v < l.lease then { l with lease := v } else l }

/-- What follows a write of a special register. -/
def afterWrite (s : State) (c : CoreId) (r : Spr) (v : DWord) : State :=
  match r with
  | .lease2 => lowerL2 s c (v.setWidth 32)
  | _ => s

/-- `sset`. -/
def execSset (sel : Spr) (rs1 : BitVec 5) (s : State) : Out :=
  control (fun c => do
    let k ← theCore c
    needAccess (.sset sel rs1) (2 ≤ sprAccess k.level sel)
    waitFor c sel
    beforeWrite c sel
    modCore c fun k => setSpr k sel (getS k rs1)
    modify fun s => afterWrite s c sel (getS k rs1)) s

/-! ### Traps and returns (R120, R121) -/

/-- R120: the instruction completes, then its trap is taken with EPC the next address. -/
def softTrap (i : Instr) (cause : Cause) (code : BitVec 10) (s : State) : Out :=
  let c := s.cur
  let k := getCore s c
  if k.level = .machine then trapNow s .illegalOp (encodingOf i)
  else .next (stopAt s (updCore s c fun k => retire k 4) c (controlTrap (trapInfo cause (code.setWidth 64)) (k.pc + 4)))

/-- `trap`. -/
def execTrap (code : BitVec 10) (s : State) : Out := softTrap (.trap code) .brk code s
/-- `sysc`. -/
def execSysc (code : BitVec 10) (s : State) : Out := softTrap (.sysc code) .syscall code s

/-- `eret`. -/
def execEret (s : State) : Out :=
  if (getCore s s.cur).level = .task then trapNow s .priv (encodingOf .eret)
  else finish s (fun k => dropReads k 0) (returnFromTrap s.cur s)

/-- `isync` (R52): the next fetch reads the halfwords again. Neither it nor that fetch waits for an earlier `vst` or `hst` to the code that
has not yet run, nor for an acquire that still waits behind posted reads (DESIGN CHOICE, log 55). -/
def execIsync (s : State) : Out := control (fun _ => pure ()) s

/-- `tdone` (R122). -/
def execTdone (s : State) : Out :=
  let c := s.cur
  match (getCore s c).level with
  | .task => .next (updCore s c fun k => { retire k 4 with ending := true })
  | .steward => .next (let r := sentAll s c; if r.2 then discardTask r.1 c else r.1)
  | .machine => trapNow s .illegalOp (encodingOf .tdone)

/-- `nop`. -/
def execNop (s : State) : Out := control (fun _ => pure ()) s

/-! ### Masks in the control thread (R149) -/

/-- R149: an instruction that reads a mask waits for every earlier vector entry. -/
def readMask (rd : BitVec 5) (ka : BitVec 3) (f : DWord → DWord) (s : State) : Out :=
  controlTo rd (fun c => do
    notPosting c
    let k ← theCore c
    awaitThat k.streams.vq.isEmpty
    return f (getK k ka)) s

/-- `kpop`. -/
def execKpop (rd : BitVec 5) (ka : BitVec 3) (s : State) : Out := readMask rd ka (fun m => BitVec.ofNat 64 (popCount 64 m.toNat)) s
/-- `kfirst`. -/
def execKfirst (rd : BitVec 5) (ka : BitVec 3) (s : State) : Out := readMask rd ka (fun m => BitVec.ofNat 64 (maskFirst m)) s
/-- `kget`. -/
def execKget (rd : BitVec 5) (ka : BitVec 3) (s : State) : Out := readMask rd ka id s

/-- `kuse`. -/
def execKuse (ka : BitVec 3) (s : State) : Out :=
  .next (updCore s s.cur fun k => retire (setSpr k .ksel (ka.setWidth 64)) 4)

/-- `vsetvl`. -/
def execVsetvl (rd rs1 : BitVec 5) (s : State) : Out :=
  .next (updCore s s.cur fun k =>
    let vl := clampVl k.tregs.prot (getS k rs1)
    retire (setS { k with tregs := { k.tregs with vl := vl } } rd (vl.setWidth 64)) 4)

end Sys2Proof.Machine
end

