-- ==== Sys2Proof/Machine/VectorPost.lean ====
section
/-!
DEFINITION. Vector accesses, conditional streams and VP blocks as the control thread posts them (R32, R150, R220, R263); what an
entry does when it executes stands in VecMem.lean, CondStreams.lean and VpBlock.lean.
-/

namespace Sys2Proof.Machine

/-! ### Vector accesses (R220, R223, R224) -/

/-- `vld` (R220). -/
def execVld (fmt : Fmt) (v : Place) (rs1 : BitVec 5) (off : BitVec 7) (s : State) : Out := post4 (.vld fmt v rs1 off) s
/-- `vldInt6` (R220). -/
def execVldInt6 (v : Place) (rs1 : BitVec 5) (off : BitVec 4) (bit : BitVec 3) (s : State) : Out := post4 (.vldInt6 v rs1 off bit) s
/-- `vlds` (R220). -/
def execVlds (fmt : Fmt) (v : Place) (rs1 rs2 : BitVec 5) (s : State) : Out := post4 (.vlds fmt v rs1 rs2) s
/-- `vst` (R220). -/
def execVst (fmt : Fmt) (v : Place) (rs1 : BitVec 5) (off : BitVec 7) (s : State) : Out := post4 (.vst fmt v rs1 off) s
/-- `vstInt6` (R220). -/
def execVstInt6 (v : Place) (rs1 : BitVec 5) (off : BitVec 4) (bit : BitVec 3) (s : State) : Out := post4 (.vstInt6 v rs1 off bit) s
/-- `vsts` (R220). -/
def execVsts (fmt : Fmt) (v : Place) (rs1 rs2 : BitVec 5) (s : State) : Out := post4 (.vsts fmt v rs1 rs2) s
/-- `vldx` (R223). -/
def execVldx (fmt : Fmt) (v : Place) (rs1 : BitVec 5) (ix : BitVec 6) (s : State) : Out := post4 (.vldx fmt v rs1 ix) s
/-- `vstx` (R223). -/
def execVstx (fmt : Fmt) (v : Place) (rs1 : BitVec 5) (ix : BitVec 6) (s : State) : Out := post4 (.vstx fmt v rs1 ix) s
/-- `vaadd` (R224). -/
def execVaadd (sc : Scope) (v : Place) (rs1 : BitVec 5) (ix : BitVec 6) (s : State) : Out := post4 (.vaadd sc v rs1 ix) s

/-! ### Conditional streams (R263) -/

/-- `spush` (R263). -/
def execSpush (c : BitVec 2) (v : Place) (s : State) : Out := post4 (.spush c v) s
/-- `spop` (R263). -/
def execSpop (c : BitVec 2) (v : Place) (s : State) : Out := post4 (.spop c v) s
/-- `sflush` (R263). -/
def execSflush (c : BitVec 2) (s : State) : Out := post4 (.sflush c) s

/-! ### VP blocks (R74, R150, R152) -/

/-- R150: the entry of a `vfb`: its block image, fetched at its commit, and every VP at the block's first instruction. -/
def blockEntry (c : CoreId) (i : Instr) (n : BitVec 5) (off : BitVec 15) : M Entry := do
  let k ← theCore c
  awaitThat ((k.streams.vq.filter fun e => e.vp.isSome).length < 16)
  let target := k.pc + sext64 off * 2
  let image ← fetchBlock c (n.toNat + 1) target
  return { newEntry k i with vp := some { base := target, image := image, pcs := Vector.replicate 64 target, done := 0, busy := none } }

/-- `vfb` (R150). -/
def execVfb (n : BitVec 5) (off : BitVec 15) (s : State) : Out := postVector (.vfb n off) 4 (fun c => blockEntry c (.vfb n off) n off) s
/-- `vpb` stands only inside a block (R72, R152); the control thread takes ILLEGAL_OP (log 23). -/
def execVpb (k : BitVec 3) (off : BitVec 15) (s : State) : Out := trapNow s .illegalOp (encodingOf (.vpb k off))
/-- `vpend` stands only inside a block (R72, R152); the control thread takes ILLEGAL_OP (log 23). -/
def execVpend (s : State) : Out := trapNow s .illegalOp (encodingOf .vpend)

end Sys2Proof.Machine
end

