-- ==== Sys2Proof/Machine/Dispatch.lean ====
section
/-! DEFINITION. The dispatch: one arm for each constructor of `Instr`. -/

namespace Sys2Proof.Machine

/-- What an instruction or an event does. -/
def exec (i : Instr) (s : State) : Host.Outcome State Fault Refusal :=
  match i with
  | .vaddC2 dcol d bcol b => Sys2Proof.Machine.execVaddC2 dcol d bcol b s
  | .vsubC2 dcol d bcol b => Sys2Proof.Machine.execVsubC2 dcol d bcol b s
  | .vmulC2 dcol d bcol b => Sys2Proof.Machine.execVmulC2 dcol d bcol b s
  | .vfmaC2 dcol d bcol b => Sys2Proof.Machine.execVfmaC2 dcol d bcol b s
  | .vminC2 dcol d bcol b => Sys2Proof.Machine.execVminC2 dcol d bcol b s
  | .vmaxC2 dcol d bcol b => Sys2Proof.Machine.execVmaxC2 dcol d bcol b s
  | .vandC2 dcol d bcol b => Sys2Proof.Machine.execVandC2 dcol d bcol b s
  | .vorC2 dcol d bcol b => Sys2Proof.Machine.execVorC2 dcol d bcol b s
  | .vxorC2 dcol d bcol b => Sys2Proof.Machine.execVxorC2 dcol d bcol b s
  | .vshlC2 dcol d bcol b => Sys2Proof.Machine.execVshlC2 dcol d bcol b s
  | .vshrC2 dcol d bcol b => Sys2Proof.Machine.execVshrC2 dcol d bcol b s
  | .vsraC2 dcol d bcol b => Sys2Proof.Machine.execVsraC2 dcol d bcol b s
  | .vmovC2 dcol d bcol b => Sys2Proof.Machine.execVmovC2 dcol d bcol b s
  | .vabsC2 dcol d bcol b => Sys2Proof.Machine.execVabsC2 dcol d bcol b s
  | .vnegC2 dcol d bcol b => Sys2Proof.Machine.execVnegC2 dcol d bcol b s
  | .vpopcC2 dcol d bcol b => Sys2Proof.Machine.execVpopcC2 dcol d bcol b s
  | .vaddV3 d a b => Sys2Proof.Machine.execVaddV3 d a b s
  | .vsubV3 d a b => Sys2Proof.Machine.execVsubV3 d a b s
  | .vmulV3 d a b => Sys2Proof.Machine.execVmulV3 d a b s
  | .vfmaV3 d a b => Sys2Proof.Machine.execVfmaV3 d a b s
  | .vminV3 d a b => Sys2Proof.Machine.execVminV3 d a b s
  | .vmaxV3 d a b => Sys2Proof.Machine.execVmaxV3 d a b s
  | .vandV3 d a b => Sys2Proof.Machine.execVandV3 d a b s
  | .vorV3 d a b => Sys2Proof.Machine.execVorV3 d a b s
  | .vxorV3 d a b => Sys2Proof.Machine.execVxorV3 d a b s
  | .vshlV3 d a b => Sys2Proof.Machine.execVshlV3 d a b s
  | .vshrV3 d a b => Sys2Proof.Machine.execVshrV3 d a b s
  | .vsraV3 d a b => Sys2Proof.Machine.execVsraV3 d a b s
  | .vmovV3 d a => Sys2Proof.Machine.execVmovV3 d a s
  | .vabsV3 d a => Sys2Proof.Machine.execVabsV3 d a s
  | .vnegV3 d a => Sys2Proof.Machine.execVnegV3 d a s
  | .vpopcV3 d a => Sys2Proof.Machine.execVpopcV3 d a s
  | .vdiv d a b => Sys2Proof.Machine.execVdiv d a b s
  | .vsqrt d a => Sys2Proof.Machine.execVsqrt d a s
  | .vclz d a => Sys2Proof.Machine.execVclz d a s
  | .vnot d a => Sys2Proof.Machine.execVnot d a s
  | .vcvt d a fmt rz sat => Sys2Proof.Machine.execVcvt d a fmt rz sat s
  | .vfmt d a => Sys2Proof.Machine.execVfmt d a s
  | .vclr d => Sys2Proof.Machine.execVclr d s
  | .vsel d a b => Sys2Proof.Machine.execVsel d a b s
  | .vceq k a b => Sys2Proof.Machine.execVceq k a b s
  | .vcne k a b => Sys2Proof.Machine.execVcne k a b s
  | .vclt k a b => Sys2Proof.Machine.execVclt k a b s
  | .vcle k a b => Sys2Proof.Machine.execVcle k a b s
  | .vid d => Sys2Proof.Machine.execVid d s
  | .vredsum d a => Sys2Proof.Machine.execVredsum d a s
  | .vredmin d a => Sys2Proof.Machine.execVredmin d a s
  | .vredmax d a => Sys2Proof.Machine.execVredmax d a s
  | .vredminx d a => Sys2Proof.Machine.execVredminx d a s
  | .vredand d a => Sys2Proof.Machine.execVredand d a s
  | .vredor d a => Sys2Proof.Machine.execVredor d a s
  | .vredxor d a => Sys2Proof.Machine.execVredxor d a s
  | .vslup d a b => Sys2Proof.Machine.execVslup d a b s
  | .vsldn d a b => Sys2Proof.Machine.execVsldn d a b s
  | .vperm d a b => Sys2Proof.Machine.execVperm d a b s
  | .vpack d a b => Sys2Proof.Machine.execVpack d a b s
  | .vunpk d a p => Sys2Proof.Machine.execVunpk d a p s
  | .vdot d a b => Sys2Proof.Machine.execVdot d a b s
  | .vqnt d a sc => Sys2Proof.Machine.execVqnt d a sc s
  | .vdq d a => Sys2Proof.Machine.execVdq d a s
  | .vaddSat d a b => Sys2Proof.Machine.execVaddSat d a b s
  | .vsubSat d a b => Sys2Proof.Machine.execVsubSat d a b s
  | .vmulSat d a b => Sys2Proof.Machine.execVmulSat d a b s
  | .add rd rs1 rs2 => Sys2Proof.Machine.execAdd rd rs1 rs2 s
  | .sub rd rs1 rs2 => Sys2Proof.Machine.execSub rd rs1 rs2 s
  | .mul rd rs1 rs2 => Sys2Proof.Machine.execMul rd rs1 rs2 s
  | .mulh rd rs1 rs2 => Sys2Proof.Machine.execMulh rd rs1 rs2 s
  | .mulhu rd rs1 rs2 => Sys2Proof.Machine.execMulhu rd rs1 rs2 s
  | .div rd rs1 rs2 => Sys2Proof.Machine.execDiv rd rs1 rs2 s
  | .divu rd rs1 rs2 => Sys2Proof.Machine.execDivu rd rs1 rs2 s
  | .rem rd rs1 rs2 => Sys2Proof.Machine.execRem rd rs1 rs2 s
  | .remu rd rs1 rs2 => Sys2Proof.Machine.execRemu rd rs1 rs2 s
  | .and rd rs1 rs2 => Sys2Proof.Machine.execAnd rd rs1 rs2 s
  | .or rd rs1 rs2 => Sys2Proof.Machine.execOr rd rs1 rs2 s
  | .xor rd rs1 rs2 => Sys2Proof.Machine.execXor rd rs1 rs2 s
  | .andn rd rs1 rs2 => Sys2Proof.Machine.execAndn rd rs1 rs2 s
  | .shl rd rs1 rs2 => Sys2Proof.Machine.execShl rd rs1 rs2 s
  | .shr rd rs1 rs2 => Sys2Proof.Machine.execShr rd rs1 rs2 s
  | .sra rd rs1 rs2 => Sys2Proof.Machine.execSra rd rs1 rs2 s
  | .min rd rs1 rs2 => Sys2Proof.Machine.execMin rd rs1 rs2 s
  | .max rd rs1 rs2 => Sys2Proof.Machine.execMax rd rs1 rs2 s
  | .minu rd rs1 rs2 => Sys2Proof.Machine.execMinu rd rs1 rs2 s
  | .maxu rd rs1 rs2 => Sys2Proof.Machine.execMaxu rd rs1 rs2 s
  | .slt rd rs1 rs2 => Sys2Proof.Machine.execSlt rd rs1 rs2 s
  | .sltu rd rs1 rs2 => Sys2Proof.Machine.execSltu rd rs1 rs2 s
  | .clz rd rs1 => Sys2Proof.Machine.execClz rd rs1 s
  | .ctz rd rs1 => Sys2Proof.Machine.execCtz rd rs1 s
  | .popc rd rs1 => Sys2Proof.Machine.execPopc rd rs1 s
  | .csel rd rs1 rs2 rs3 => Sys2Proof.Machine.execCsel rd rs1 rs2 rs3 s
  | .addi rd rs1 imm => Sys2Proof.Machine.execAddi rd rs1 imm s
  | .andi rd rs1 imm => Sys2Proof.Machine.execAndi rd rs1 imm s
  | .ori rd rs1 imm => Sys2Proof.Machine.execOri rd rs1 imm s
  | .xori rd rs1 imm => Sys2Proof.Machine.execXori rd rs1 imm s
  | .shli rd rs1 cnt => Sys2Proof.Machine.execShli rd rs1 cnt s
  | .shri rd rs1 cnt => Sys2Proof.Machine.execShri rd rs1 cnt s
  | .srai rd rs1 cnt => Sys2Proof.Machine.execSrai rd rs1 cnt s
  | .slti rd rs1 imm => Sys2Proof.Machine.execSlti rd rs1 imm s
  | .lim rd imm => Sys2Proof.Machine.execLim rd imm s
  | .apc rd imm => Sys2Proof.Machine.execApc rd imm s
  | .beq rs1 rs2 off => Sys2Proof.Machine.execBeq rs1 rs2 off s
  | .bne rs1 rs2 off => Sys2Proof.Machine.execBne rs1 rs2 off s
  | .blt rs1 rs2 off => Sys2Proof.Machine.execBlt rs1 rs2 off s
  | .bge rs1 rs2 off => Sys2Proof.Machine.execBge rs1 rs2 off s
  | .bltu rs1 rs2 off => Sys2Proof.Machine.execBltu rs1 rs2 off s
  | .bgeu rs1 rs2 off => Sys2Proof.Machine.execBgeu rs1 rs2 off s
  | .jmp rd off => Sys2Proof.Machine.execJmp rd off s
  | .jind rd rs1 imm => Sys2Proof.Machine.execJind rd rs1 imm s
  | .fadd f rd rs1 rs2 => Sys2Proof.Machine.execFadd f rd rs1 rs2 s
  | .fsub f rd rs1 rs2 => Sys2Proof.Machine.execFsub f rd rs1 rs2 s
  | .fmul f rd rs1 rs2 => Sys2Proof.Machine.execFmul f rd rs1 rs2 s
  | .fdiv f rd rs1 rs2 => Sys2Proof.Machine.execFdiv f rd rs1 rs2 s
  | .fsqrt f rd rs1 => Sys2Proof.Machine.execFsqrt f rd rs1 s
  | .fma f rd rs1 rs2 rs3 => Sys2Proof.Machine.execFma f rd rs1 rs2 rs3 s
  | .fmin f rd rs1 rs2 => Sys2Proof.Machine.execFmin f rd rs1 rs2 s
  | .fmax f rd rs1 rs2 => Sys2Proof.Machine.execFmax f rd rs1 rs2 s
  | .fcvt f kind rd rs1 => Sys2Proof.Machine.execFcvt f kind rd rs1 s
  | .fcmp f cond rd rs1 rs2 => Sys2Proof.Machine.execFcmp f cond rd rs1 rs2 s
  | .sget rd sel => Sys2Proof.Machine.execSget rd sel s
  | .sset sel rs1 => Sys2Proof.Machine.execSset sel rs1 s
  | .trap code => Sys2Proof.Machine.execTrap code s
  | .sysc code => Sys2Proof.Machine.execSysc code s
  | .eret => Sys2Proof.Machine.execEret s
  | .isync => Sys2Proof.Machine.execIsync s
  | .tdone => Sys2Proof.Machine.execTdone s
  | .nop => Sys2Proof.Machine.execNop s
  | .ldb rt rs1 imm => Sys2Proof.Machine.execLdb rt rs1 imm s
  | .ldbu rt rs1 imm => Sys2Proof.Machine.execLdbu rt rs1 imm s
  | .ldh rt rs1 imm => Sys2Proof.Machine.execLdh rt rs1 imm s
  | .ldhu rt rs1 imm => Sys2Proof.Machine.execLdhu rt rs1 imm s
  | .ldw rt rs1 imm => Sys2Proof.Machine.execLdw rt rs1 imm s
  | .ldwu rt rs1 imm => Sys2Proof.Machine.execLdwu rt rs1 imm s
  | .ldd rt rs1 imm => Sys2Proof.Machine.execLdd rt rs1 imm s
  | .stb rt rs1 imm => Sys2Proof.Machine.execStb rt rs1 imm s
  | .sth rt rs1 imm => Sys2Proof.Machine.execSth rt rs1 imm s
  | .stw rt rs1 imm => Sys2Proof.Machine.execStw rt rs1 imm s
  | .std rt rs1 imm => Sys2Proof.Machine.execStd rt rs1 imm s
  | .vld fmt v rs1 off => Sys2Proof.Machine.execVld fmt v rs1 off s
  | .vldInt6 v rs1 off bit => Sys2Proof.Machine.execVldInt6 v rs1 off bit s
  | .vlds fmt v rs1 rs2 => Sys2Proof.Machine.execVlds fmt v rs1 rs2 s
  | .vst fmt v rs1 off => Sys2Proof.Machine.execVst fmt v rs1 off s
  | .vstInt6 v rs1 off bit => Sys2Proof.Machine.execVstInt6 v rs1 off bit s
  | .vsts fmt v rs1 rs2 => Sys2Proof.Machine.execVsts fmt v rs1 rs2 s
  | .vldx fmt v rs1 ix => Sys2Proof.Machine.execVldx fmt v rs1 ix s
  | .vstx fmt v rs1 ix => Sys2Proof.Machine.execVstx fmt v rs1 ix s
  | .vaadd sc v rs1 ix => Sys2Proof.Machine.execVaadd sc v rs1 ix s
  | .aadd so rd rs1 off rs2 => Sys2Proof.Machine.execAadd so rd rs1 off rs2 s
  | .amin so rd rs1 off rs2 => Sys2Proof.Machine.execAmin so rd rs1 off rs2 s
  | .amax so rd rs1 off rs2 => Sys2Proof.Machine.execAmax so rd rs1 off rs2 s
  | .aminu so rd rs1 off rs2 => Sys2Proof.Machine.execAminu so rd rs1 off rs2 s
  | .amaxu so rd rs1 off rs2 => Sys2Proof.Machine.execAmaxu so rd rs1 off rs2 s
  | .aand so rd rs1 off rs2 => Sys2Proof.Machine.execAand so rd rs1 off rs2 s
  | .aor so rd rs1 off rs2 => Sys2Proof.Machine.execAor so rd rs1 off rs2 s
  | .axor so rd rs1 off rs2 => Sys2Proof.Machine.execAxor so rd rs1 off rs2 s
  | .aswp so rd rs1 off rs2 => Sys2Proof.Machine.execAswp so rd rs1 off rs2 s
  | .acas so rd rs1 off rs2 => Sys2Proof.Machine.execAcas so rd rs1 off rs2 s
  | .aswpDw so rd rs1 off rs2 => Sys2Proof.Machine.execAswpDw so rd rs1 off rs2 s
  | .acasDw so rd rs1 off rs2 => Sys2Proof.Machine.execAcasDw so rd rs1 off rs2 s
  | .aaddDw so rd rs1 off rs2 => Sys2Proof.Machine.execAaddDw so rd rs1 off rs2 s
  | .acq sc all g => Sys2Proof.Machine.execAcq sc all g s
  | .rel sc all g => Sys2Proof.Machine.execRel sc all g s
  | .fence sc ord => Sys2Proof.Machine.execFence sc ord s
  | .own sc rs1 rs2 => Sys2Proof.Machine.execOwn sc rs1 rs2 s
  | .disown sc rs1 rs2 => Sys2Proof.Machine.execDisown sc rs1 rs2 s
  | .drain kind => Sys2Proof.Machine.execDrain kind s
  | .pref l2 rs1 => Sys2Proof.Machine.execPref l2 rs1 s
  | .qlock sc rs1 => Sys2Proof.Machine.execQlock sc rs1 s
  | .qunlock sc rs1 => Sys2Proof.Machine.execQunlock sc rs1 s
  | .xbeg rs1 => Sys2Proof.Machine.execXbeg rs1 s
  | .xcmp rs1 rs2 => Sys2Proof.Machine.execXcmp rs1 rs2 s
  | .xend rd => Sys2Proof.Machine.execXend rd s
  | .mmaOvw h rs1 l rs2 => Sys2Proof.Machine.execMmaOvw h rs1 l rs2 s
  | .mmaAcc h rs1 l rs2 => Sys2Proof.Machine.execMmaAcc h rs1 l rs2 s
  | .mmaRing h rs1 l rs2 => Sys2Proof.Machine.execMmaRing h rs1 l rs2 s
  | .mmaArr h rs1 l rs2 => Sys2Proof.Machine.execMmaArr h rs1 l rs2 s
  | .mdarn h rs1 l d => Sys2Proof.Machine.execMdarn h rs1 l d s
  | .hmov v h dir n => Sys2Proof.Machine.execHmov v h dir n s
  | .hmovPeek v h dir n => Sys2Proof.Machine.execHmovPeek v h dir n s
  | .hclr h => Sys2Proof.Machine.execHclr h s
  | .hld h rs1 => Sys2Proof.Machine.execHld h rs1 s
  | .hst h rs1 => Sys2Proof.Machine.execHst h rs1 s
  | .hdrain h rs1 rs2 => Sys2Proof.Machine.execHdrain h rs1 rs2 s
  | .mqpop h n q => Sys2Proof.Machine.execMqpop h n q s
  | .mqpopAcc h n q => Sys2Proof.Machine.execMqpopAcc h n q s
  | .mqpush h n q => Sys2Proof.Machine.execMqpush h n q s
  | .mld l rs1 => Sys2Proof.Machine.execMld l rs1 s
  | .mpass l => Sys2Proof.Machine.execMpass l s
  | .mwait l => Sys2Proof.Machine.execMwait l s
  | .qpeek rd q => Sys2Proof.Machine.execQpeek rd q s
  | .qpeekPop rd q => Sys2Proof.Machine.execQpeekPop rd q s
  | .qcount rd q => Sys2Proof.Machine.execQcount rd q s
  | .send rs1 rs2 => Sys2Proof.Machine.execSend rs1 rs2 s
  | .sendv rs1 v => Sys2Proof.Machine.execSendv rs1 v s
  | .spush c v => Sys2Proof.Machine.execSpush c v s
  | .spop c v => Sys2Proof.Machine.execSpop c v s
  | .sflush c => Sys2Proof.Machine.execSflush c s
  | .lbuf rs1 rs2 => Sys2Proof.Machine.execLbuf rs1 rs2 s
  | .lcfg lv rs1 rs2 => Sys2Proof.Machine.execLcfg lv rs1 rs2 s
  | .lrun => Sys2Proof.Machine.execLrun s
  | .lstop => Sys2Proof.Machine.execLstop s
  | .cpost sc rd rs1 => Sys2Proof.Machine.execCpost sc rd rs1 s
  | .cpop rd => Sys2Proof.Machine.execCpop rd s
  | .launch rd rs1 => Sys2Proof.Machine.execLaunch rd rs1 s
  | .cstore sc rs1 rs2 => Sys2Proof.Machine.execCstore sc rs1 rs2 s
  | .cwait rd rs1 => Sys2Proof.Machine.execCwait rd rs1 s
  | .cabort rs1 => Sys2Proof.Machine.execCabort rs1 s
  | .pdef e rs1 => Sys2Proof.Machine.execPdef e rs1 s
  | .pin n e => Sys2Proof.Machine.execPin n e s
  | .unpick n => Sys2Proof.Machine.execUnpick n s
  | .pdrop e => Sys2Proof.Machine.execPdrop e s
  | .lopen d rs1 => Sys2Proof.Machine.execLopen d rs1 s
  | .lset d f rs1 => Sys2Proof.Machine.execLset d f rs1 s
  | .lclose d => Sys2Proof.Machine.execLclose d s
  | .linval d => Sys2Proof.Machine.execLinval d s
  | .lstat rd d => Sys2Proof.Machine.execLstat rd d s
  | .bind rs1 rs2 => Sys2Proof.Machine.execBind rs1 rs2 s
  | .unbind rs1 => Sys2Proof.Machine.execUnbind rs1 s
  | .gtset rs1 rs2 => Sys2Proof.Machine.execGtset rs1 rs2 s
  | .gtclr rs1 => Sys2Proof.Machine.execGtclr rs1 s
  | .tlbinv sc rs1 => Sys2Proof.Machine.execTlbinv sc rs1 s
  | .bset n rs1 rs2 => Sys2Proof.Machine.execBset n rs1 rs2 s
  | .barr n rs1 => Sys2Proof.Machine.execBarr n rs1 s
  | .barw n rs1 => Sys2Proof.Machine.execBarw n rs1 s
  | .bdrop n rs1 => Sys2Proof.Machine.execBdrop n rs1 s
  | .bwait n rs1 => Sys2Proof.Machine.execBwait n rs1 s
  | .bquery rd n rs1 => Sys2Proof.Machine.execBquery rd n rs1 s
  | .vfb n off => Sys2Proof.Machine.execVfb n off s
  | .vpb k off => Sys2Proof.Machine.execVpb k off s
  | .vpend => Sys2Proof.Machine.execVpend s
  | .kbool kd ka kb f => Sys2Proof.Machine.execKbool kd ka kb f s
  | .kpop rd ka => Sys2Proof.Machine.execKpop rd ka s
  | .kfirst rd ka => Sys2Proof.Machine.execKfirst rd ka s
  | .kset kd rs1 => Sys2Proof.Machine.execKset kd rs1 s
  | .kget rd ka => Sys2Proof.Machine.execKget rd ka s
  | .kuse ka => Sys2Proof.Machine.execKuse ka s
  | .vsetvl rd rs1 => Sys2Proof.Machine.execVsetvl rd rs1 s
  | .lpush v => Sys2Proof.Machine.execLpush v s
  | .conciergeReadBlock => Sys2Proof.Machine.execConciergeReadBlock s
  | .placeLaunch => Sys2Proof.Machine.execPlaceLaunch s
  | .priorityPreempt => Sys2Proof.Machine.execPriorityPreempt s
  | .postClaim lid plot => Sys2Proof.Machine.execPostClaim lid plot s
  | .gangStart lid plot => Sys2Proof.Machine.execGangStart lid plot s
  | .handlerStart c => Sys2Proof.Machine.execHandlerStart c s
  | .agingPeriod c => Sys2Proof.Machine.execAgingPeriod c s
  | .budgetExpiry c => Sys2Proof.Machine.execBudgetExpiry c s
  | .taskEnd c => Sys2Proof.Machine.execTaskEnd c s
  | .idleSample lid => Sys2Proof.Machine.execIdleSample lid s
  | .latchLoadComplete c l => Sys2Proof.Machine.execLatchLoadComplete c l s
  | .handOn c l => Sys2Proof.Machine.execHandOn c l s
  | .drainReceive k => Sys2Proof.Machine.execDrainReceive k s
  | .registerCacheEvict c item => Sys2Proof.Machine.execRegisterCacheEvict c item s
  | .l1Evict c line => Sys2Proof.Machine.execL1Evict c line s
  | .clusterHomeEvict c line => Sys2Proof.Machine.execClusterHomeEvict c line s
  | .lease1Expiry c line => Sys2Proof.Machine.execLease1Expiry c line s
  | .lease2Expiry line => Sys2Proof.Machine.execLease2Expiry line s
  | .recallOwner line => Sys2Proof.Machine.execRecall line s
  | .partialPush c w => Sys2Proof.Machine.execPartialPush c w s
  | .versionBump c g => Sys2Proof.Machine.execVersionBump c g s
  | .regionTableWrite g v => Sys2Proof.Machine.execRegionTableWrite g v s
  | .eventCounterWrite n v => Sys2Proof.Machine.execEventCounterWrite n v s
  | .requestTimeout c => Sys2Proof.Machine.execRequestTimeout c s
  | .duplicateRecordExpiry => Sys2Proof.Machine.execDuplicateRecordExpiry s
  | .qlockRetry c => Sys2Proof.Machine.execQlockRetry c s
  | .qlockGrant w => Sys2Proof.Machine.execQlockGrant w s
  | .relayRow k => Sys2Proof.Machine.execRelayRow k s
  | .downWaveDelivery k => Sys2Proof.Machine.execDownWaveDelivery k s
  | .groupAbort c e => Sys2Proof.Machine.execGroupAbort c e s
  | .carrierCopy k => Sys2Proof.Machine.execCarrierCopy k s
  | .outChannelDrain c n => Sys2Proof.Machine.execOutChannelDrain c n s
  | .packetArrival k => Sys2Proof.Machine.execPacketArrival k s
  | .channelDelivery c => Sys2Proof.Machine.execChannelDelivery c s
  | .repeatSequencerPost c => Sys2Proof.Machine.execRepeatSequencerPost c s
  | .trapEntry c => Sys2Proof.Machine.execTrapEntry c s
  | .machineTrapEntry c => Sys2Proof.Machine.execMachineTrapEntry c s
  | .uncorrectableError site => Sys2Proof.Machine.execUncorrectableError site s
  | .coreFence c => Sys2Proof.Machine.execCoreFence c s
  | .dieLoss die => Sys2Proof.Machine.execDieLoss die s
  | .regctx arg => Sys2Proof.Machine.execRegctx arg s
  | .unregctx ctx => Sys2Proof.Machine.execUnregctx ctx s
  | .kill ctx => Sys2Proof.Machine.execKill ctx s
  | .preempt lid => Sys2Proof.Machine.execPreempt lid s
  | .migrate arg => Sys2Proof.Machine.execMigrate arg s
  | .hostMemAccess acc => Sys2Proof.Machine.execHostMemAccess acc s
  | .peerAccess acc => Sys2Proof.Machine.execPeerAccess acc s
  | .linkFlit c good => Sys2Proof.Machine.execLinkFlit c good s
  | .firmwareImage img => Sys2Proof.Machine.execFirmwareImage img s
  | .spdmRequest req => Sys2Proof.Machine.execSpdmRequest req s
  | .powerUp => Sys2Proof.Machine.execPowerUp s
  | .functionReady f => Sys2Proof.Machine.execFunctionReady f s
  | .powerCap watts tmax => Sys2Proof.Machine.execPowerCap watts tmax s
  | .thermalTrip tmax => Sys2Proof.Machine.execThermalTrip tmax s
  | .coreReset c => Sys2Proof.Machine.execCoreReset c s
  | .timebaseHalt => Sys2Proof.Machine.execTimebaseHalt s
  | .registerWrite off v => Sys2Proof.Machine.execRegisterWrite off v s
  | .l2Evict line => Sys2Proof.Machine.execL2Evict line s
  | .tlbEvict c k => Sys2Proof.Machine.execTlbEvict c k s
  | .timebaseResume => Sys2Proof.Machine.execTimebaseResume s
  | .correctedError unit => Sys2Proof.Machine.execCorrectedError unit s
  | .packageReset => Sys2Proof.Machine.execPackageReset s

end Sys2Proof.Machine
end

