-- ==== Sys2Proof/Machine/Step.lean ====
section
/-!
DEFINITION. One step of the package (log 4): the next slot of the agenda, or the control thread of the current core; what
passes beside it; and an instruction placed where the next step fetches it.
-/

namespace Sys2Proof.Machine

/-- A core that executes nothing: the package has no power, or the core is halted, is fenced, or holds no task. -/
def idleCore (s : State) (k : Core) : Bool := !s.hub.regs.power.on || k.halted || k.fenced || k.task.isNone

/-- One turn of a core; without power nothing goes on, and no time passes (R394, log 17). -/
def coreStep (s : State) : Out :=
  let c := s.cur
  if !s.hub.regs.power.on then .next s
  else if idleCore s (getCore s c) then .next (hubWork (elapse s c))
  else andThen (controlSlot exec s c) fun s => hubWork (backgroundWork (elapse s c) c)

/-- A slot of the agenda. -/
def slotStep (s : State) : Slot → Out
  | .core c => coreStep { s with cur := c }
  | .vector c => .next (if idleCore s (getCore s c) then s else hubWork (finishTask (runVectorHead s c) c))
  | .matrix c => .next (if idleCore s (getCore s c) then s else hubWork (finishTask (runMatrixHead s c) c))
  | .event i => if (encode i).isSome then .next s else andThen (exec i s) hubWork

/-- One step of the package. -/
def step (s : State) : Out :=
  match s.agenda with
  | [] => coreStep s
  | e :: rest => slotStep { s with agenda := rest } e

/-- `s` with an instruction of `nbits` bits placed where the current core fetches next (log 22). -/
def State.withFetchWord (s : State) (nbits w : Nat) : State := placeCode s (w % 2 ^ nbits)

end Sys2Proof.Machine
end

