-- ==== Sys2Proof/Safety.lean ====
section
/-!
DEFINITION. What counts as a safe run, and the terms in which statements about the machine are made: the core whose turn it is, a
control thread that nothing holds back, addresses in a core's own scratchpad window, the bytes that stand at an address, and what two
states share.
-/

namespace Sys2Proof

open Sys2Proof.Machine

/-! ### Runs -/

/-- A step answers a next state. -/
def Steps (s : State) : Prop := ∃ t, step s = .next t

/-- An invariant that every step keeps. -/
def KeptByStep (inv : State → Prop) : Prop := ∀ s t, inv s → step s = .next t → inv t

/-- The byte memory of the package is in canonical form. -/
def MemoryCanonical (s : State) : Prop := Memory.wf s.store.bytes = true

/-! ### The core whose turn it is -/

/-- The core whose turn it is. -/
abbrev here (s : State) : Core := getCore s s.cur

/-- No replay is posting, and no release, acquire or fence waits (R230, R261). -/
structure Quiet (k : Core) : Prop where
  noRun : k.streams.rep.run = none
  noSync : k.streams.deferred = []

/-- A quiet core whose streams hold no entry. -/
structure Drained (k : Core) : Prop extends Quiet k where
  noVector : k.streams.vq = []
  noMatrix : k.streams.mq = []

/-- The control thread executes, none of its operations is outstanding, and no flit of its next one is dropped (R376, R377). -/
structure LinkFree (k : Core) : Prop where
  control : k.doing = none
  noRemote : k.remote = none
  noDrop : k.flits = []

/-- The core is reachable: it is not fenced, and its die is not lost (R374, R375). -/
structure Alive (s : State) (c : CoreId) : Prop where
  notFenced : (getCore s c).fenced = false
  dieUp : bitAt s.hub.lostDies (dieOf c) = false

/-- A request of a core reaches another core: that one is not fenced, and no die on the way to it is lost (R374, R375). -/
structure Reaches (s : State) (c d : CoreId) : Prop where
  notFenced : (getCore s d).fenced = false
  way : lostWay s c d = none

/-- What a control-thread instruction of 4 bytes that only changes its core answers. -/
abbrev commits (s : State) (f : Core → Core) : Out := .next (updCore s s.cur fun k => retire (f k) 4)

/-! ### Access to special registers (R98) -/

/-- The special registers that R98 closes to task level, and those that it closes to steward level too. -/
def closedAt (lv : Level) (r : Spr) : Bool :=
  match lv with
  | .task => [Spr.tvec, .epc, .ecause, .einfo, .tdies, .tenant, .asid, .ptroot, .emerg, .mtvec, .mepc, .mcause, .minfo].contains r
  | .steward => [Spr.mtvec, .mepc, .mcause, .minfo].contains r
  | .machine => false

/-- The special registers that R98 lets a level write. -/
def openAt (lv : Level) (r : Spr) : Bool :=
  let task := [Spr.vl, .ksel, .rnd, .pmask]
  let steward := task ++ [.prot, .egdone, .budget, .instret, .rbase, .tvec, .epc, .ecause, .einfo, .lease1, .lease2]
  match lv with
  | .task => task.contains r
  | .steward => steward.contains r
  | .machine => (steward ++ [.cycle, .tdies, .tenant, .asid, .ptroot, .emerg, .mtvec, .mepc, .mcause, .minfo]).contains r

/-! ### Addresses and bytes -/

/-- An address of the executing core's own scratchpad window (R191). -/
def ownAddr (off : Nat) : DWord := BitVec.ofNat 64 (0xFFFE * 2 ^ 48 + 63 * 2 ^ 42 + off)

/-- `n` bytes at `off` of the own window: aligned, in the partition (R191, R216), of a core that is reachable. -/
structure OwnScratch (s : State) (va : DWord) (off n : Nat) : Prop where
  addr : va = ownAddr off
  aligned : off % n = 0
  fits : off + n ≤ scratchSize (here s)
  alive : Alive s s.cur

/-- The `n` bytes from a place of the store, as a number with the first byte lowest. -/
def bytesAt (s : State) (a n : Nat) : Nat := leNat ((List.range n).map fun i => memByte s.store.bytes (a + i))

/-- No word that `n` bytes touch is poisoned in the store. -/
def CleanAt (s : State) (a n : Nat) : Prop := ∀ w, a / 4 ≤ w → w < (a + n + 3) / 4 → ¬ w ∈ s.store.psn

/-- An address whose page the core's TLB holds, and the leaf that it finds for it (R291). -/
def TlbHit (s : State) (va : DWord) (e : DWord) (bits : Nat) : Prop :=
  slice va 48 16 ≠ (0xFFFE : HWord) ∧
    ∃ t, (here s).tables.tlb.find? (fun t => t.covers (here s).tregs.asid va) = some t ∧ t.leaf = e ∧ t.bits = bits

/-- An address whose page the core's TLB holds and whose access passes its checks at a place in memory (R183 to R186). -/
structure OnPage (s : State) (va : DWord) (acc : Access) (pa : Nat) (pg : Page) : Prop where
  hit : ∃ e bits, TlbHit s va e bits ∧ pg = pageOf e bits ∧ pa = leafBase e + va.toNat % 2 ^ bits
  allowed : pageAllows (here s).level acc pg pa = true
  memory : aperture pa ≠ 1

/-! ### Remote operations (R229, R377, R378) -/

/-- The state in which a request of a core has reached the home of a line (R101). -/
def reached (s : State) (c : CoreId) (line : Nat) : State := markDie s c (16 + mdOf line)

/-- A home takes the next operation of a core: the core's next number stands in no record of an L2 slice, no other request of it to the line
awaits its reply (R377), and the home has room for a record (R378). -/
structure HomeTakes (s : State) (c : CoreId) (home : Option Nat) : Prop where
  numberFree : ∀ d ∈ s.hub.dups, d.core = c → d.seq = (getCore s c).seq → d.home = none
  room : home = none ∨ s.hub.dups.length < 16384
  lineFree : ∀ line, lineBusy s c line = false

/-- The state in which the home meets the first issue of a remote operation of a core: the core's next number is taken, and the record that
held that number is free. -/
def afterIssue (s : State) (c : CoreId) : State :=
  let q := (getCore s c).seq
  let s := { s with hub := { s.hub with dups := s.hub.dups.filter fun d => !(d.core == c && d.seq == q) } }
  updCore (updCore s c fun k => { k with seq := k.seq + 1 }) c fun k => { k with remote := none }

/-- The state in which the reply reaches the core: its home, a slice or none for a barrier, a node and a scratchpad, has recorded it under the
number. -/
def afterReply (s : State) (c : CoreId) (home : Option Nat) (q : HWord) (v : DWord) : State :=
  { s with hub := { s.hub with dups := { core := c, home := home, seq := q, reply := .value v, tick := s.time } :: s.hub.dups } }

/-- The state after a remote operation of the current core that its home serves at its first issue, by what it does there and answers, from
the state in which the request may go. -/
def served (s : State) (home : Option Nat) (v : DWord) (work : State → State) : State :=
  afterReply (work (afterIssue s s.cur)) s.cur home (here s).seq v

/-- Every line and word of some pushes finds its home ready (R374, R375, R391, R393), no link is to drop a flit, and no push awaits its
reply (R376). -/
structure PushFree (s : State) (l : List (CoreId × Push)) : Prop where
  taken : ∀ e ∈ pushTargets s l, e.2 = none
  quiet : linksQuiet s = true

/-- The package after one turn of a release, an acquire or a fence. -/
def runSync (s : State) (c : CoreId) (op : SyncOp) : State := (syncTurn s c op).1

/-- The pushes of a release, an acquire or a fence are free, and one turn performs all of it (R377, R378). -/
structure SyncFree (s : State) (c : CoreId) (op : SyncOp) : Prop extends PushFree s (op.pushes s c) where
  done : (syncTurn s c op).2 = none

/-- The same for a release alone. -/
abbrev ReleaseFree (s : State) (c : CoreId) (sc : Scope) (r : Regions) : Prop := SyncFree s c (.rel sc r)

/-- The pushes of the copies that an acquire drops are free (R199). -/
abbrev AcquireFree (s : State) (c : CoreId) (sc : Scope) (r : Regions) : Prop := PushFree s (acquirePushes s c sc r)

/-- What an atomic's order does before the atomic (R209, R295): its release with the bumps of marked regions. -/
def atomicReleased (s : State) (so : ScopeOrder) : State :=
  if so.order = .rel ∨ so.order = .ar ∨ so.order = .sc then bumpMarks (release s s.cur so.scope allRegions) s.cur allRegions else s

/-- The ticket that an `.sc` atomic takes as it starts (R209, R231). -/
def atomicTicket (s : State) (so : ScopeOrder) : State := if so.order = .sc then takeTicket s s.cur so.scope else s

/-- What an atomic's order pushes before the atomic finds its way free, and so do the pushes of its acquire (R199, R209). -/
structure OrderFree (s : State) (so : ScopeOrder) : Prop where
  released : so.order = .rel ∨ so.order = .ar ∨ so.order = .sc →
    ReleaseFree s s.cur so.scope allRegions ∧ bumpsLeft (atomicReleased s so) s.cur allRegions = false
  acquires : so.order = .acq ∨ so.order = .ar ∨ so.order = .sc → AcquireFree (atomicReleased s so) s.cur so.scope allRegions

/-- The home that records an atomic which another node performs: none for a cluster home and a scratchpad (R378). -/
def atomicHome (k : Core) (loc : Loc) (sc : Scope) : Option Nat :=
  match loc with
  | .mem pa pg => if placeOf k pa pg sc = .cluster then none else loc.home
  | .sram .. => none

/-- The checks before an issue of an atomic to the node that performs it (R374, R375, R393). -/
def atomicReach (k : Core) (c : CoreId) (loc : Loc) (sc : Scope) (va : DWord) : M Unit :=
  match loc with
  | .mem pa pg => if placeOf k pa pg sc = .cluster then reachCore c (clusterHome c (lineOf pa)) va else loc.reach c va
  | .sram .. => loc.reach c va

/-- What an atomic's order does after the atomic: its acquire, at once or after the reads that were posted before it (R209, R211). -/
def atomicEnd (s : State) (c : CoreId) (so : ScopeOrder) : State :=
  if so.order = .acq ∨ so.order = .ar ∨ so.order = .sc then joinSync s c (.acq so.scope allRegions) else s

/-- The scalar atomics with their operation, and whether they act on a doubleword (R227). -/
def atomics (so : ScopeOrder) (rd : BitVec 5) (rs1 off : BitVec 3) (rs2 : BitVec 5) : List (Instr × AtomOp × Bool) :=
  [(.aadd so rd rs1 off rs2, .add, false), (.amin so rd rs1 off rs2, .min, false), (.amax so rd rs1 off rs2, .max, false),
    (.aminu so rd rs1 off rs2, .minu, false), (.amaxu so rd rs1 off rs2, .maxu, false), (.aand so rd rs1 off rs2, .and, false),
    (.aor so rd rs1 off rs2, .or, false), (.axor so rd rs1 off rs2, .xor, false), (.aswp so rd rs1 off rs2, .swp, false),
    (.acas so rd rs1 off rs2, .cas, false), (.aswpDw so rd rs1 off rs2, .swp, true), (.acasDw so rd rs1 off rs2, .cas, true),
    (.aaddDw so rd rs1 off rs2, .add, true)]

/-- R227: what an atomic writes over an old value of `w` bits, from its operand and what a compare expects. -/
def atomicWrites (op : AtomOp) (w : Nat) (old v expect : BitVec w) : BitVec w :=
  match op with
  | .add => old + v
  | .min => BitVec.ofInt w (min old.toInt v.toInt)
  | .max => BitVec.ofInt w (max old.toInt v.toInt)
  | .minu => BitVec.ofNat w (min old.toNat v.toNat)
  | .maxu => BitVec.ofNat w (max old.toNat v.toNat)
  | .and => old &&& v
  | .or => old ||| v
  | .xor => old ^^^ v
  | .swp => v
  | .cas => if old = expect then v else old

/-- R227: what an atomic returns: a doubleword whole, a word extended, with its sign but for `aminu` and `amaxu`. -/
def atomicReturns (op : AtomOp) (dw : Bool) (old : Nat) : DWord :=
  if dw ∨ op = .minu ∨ op = .maxu then BitVec.ofNat 64 old else BitVec.ofInt 64 (BitVec.ofNat 32 old).toInt

/-! ### Posting (R32, R53, R54, R155) -/

/-- The bytes of an instruction that is posted to the vector queue with no check of its own: 2 for a C2 form, else 4. -/
def vectorLength : Instr → Option Nat
  | .vaddC2 .. | .vsubC2 .. | .vmulC2 .. | .vfmaC2 .. | .vminC2 .. | .vmaxC2 .. | .vandC2 .. | .vorC2 .. | .vxorC2 ..
  | .vshlC2 .. | .vshrC2 .. | .vsraC2 .. | .vmovC2 .. | .vabsC2 .. | .vnegC2 .. | .vpopcC2 .. => some 2
  | .vaddV3 .. | .vsubV3 .. | .vmulV3 .. | .vfmaV3 .. | .vminV3 .. | .vmaxV3 .. | .vandV3 .. | .vorV3 .. | .vxorV3 ..
  | .vshlV3 .. | .vshrV3 .. | .vsraV3 .. | .vmovV3 .. | .vabsV3 .. | .vnegV3 .. | .vpopcV3 .. | .vdiv .. | .vsqrt .. | .vclz ..
  | .vnot .. | .vcvt .. | .vfmt .. | .vclr .. | .vsel .. | .vceq .. | .vcne .. | .vclt .. | .vcle .. | .vid .. | .vredsum ..
  | .vredmin .. | .vredmax .. | .vredminx .. | .vredand .. | .vredor .. | .vredxor .. | .vslup .. | .vsldn .. | .vperm ..
  | .vpack .. | .vunpk .. | .vdot .. | .vqnt .. | .vdq .. | .vaddSat .. | .vsubSat .. | .vmulSat .. | .vld .. | .vldInt6 ..
  | .vlds .. | .vst .. | .vstInt6 .. | .vsts .. | .vldx .. | .vstx .. | .vaadd .. | .hmov .. | .hmovPeek .. | .spush ..
  | .spop .. | .sflush .. | .unpick .. | .kbool .. | .kset .. => some 4
  | _ => none

/-- The instructions that are posted to the matrix queue. -/
def matrixPosted : Instr → Bool
  | .mmaOvw .. | .mmaAcc .. | .mmaRing .. | .mmaArr .. | .mdarn .. | .hclr .. | .hld .. | .hst .. | .hdrain .. | .mqpop ..
  | .mqpopAcc .. | .mqpush .. | .mld .. | .mpass .. | .mwait .. | .lopen .. | .lset .. | .lclose .. | .linval .. => true
  | _ => false

/-- An instruction that may stand only in a 6 × 8 plot (R155). -/
def ringOnly : Instr → Bool
  | .mmaRing .. | .mpass .. => true
  | _ => false

/-- The entry that the control thread posts for an instruction: what it captures (R109), its address and its number (R349), with
nothing done yet. -/
def postedEntry (k : Core) (i : Instr) : Entry :=
  { instr := i
    env := { vl := k.tregs.vl, ksel := k.tregs.ksel, rnd := k.tregs.rnd, prot := k.tregs.prot, s := k.files.s }
    adj := 0, ipc := k.pc, seq := k.streams.nextSeq, egdone := 0, popped := [], image := 0, vp := none
    prog := { step := 0, applied := false, mask := 0, waiting := false, moving := false }, replay := none, started := false, began := none }

/-- A core whose control thread has posted an entry to the vector queue and gone on past an instruction of `len` bytes. -/
def postsVector (k : Core) (e : Entry) (len : Nat) : Core :=
  retire { k with streams := { k.streams with vq := k.streams.vq ++ [e], nextSeq := k.streams.nextSeq + 1 } } len

/-- The same for the matrix queue. -/
def postsMatrix (k : Core) (e : Entry) : Core :=
  retire { k with streams := { k.streams with mq := k.streams.mq ++ [e], nextSeq := k.streams.nextSeq + 1 } } 4

/-- A core whose next vector instruction executes as it is posted: nothing is posted before it, the stream is not lazy, no write-back of an
evicted item has failed (R106), the two computations of a protected instruction agree (R130), nothing consumed awaits its record (R371),
and no read of the stream awaits its reply or is answered already (R189). -/
structure VectorIdle (k : Core) : Prop where
  noRun : k.streams.rep.run = none
  empty : k.streams.vq = []
  eager : k.streams.lazyV = false
  written : k.evictFault = none
  agree : k.tregs.prot = 0 ∨ k.laneErrors = []
  settled : k.poisoned.find 1 = none
  noReads : k.posted.find 1 = none ∧ k.answered.find 1 = none ∧ k.replays.find 1 = none

/-- A core whose next matrix instruction executes as it is posted, and no read of the stream awaits its reply or is answered already (R189). -/
structure MatrixIdle (k : Core) : Prop where
  noRun : k.streams.rep.run = none
  empty : k.streams.mq = []
  noVector : k.streams.vq = []
  eager : k.streams.lazyM = false
  control : k.doing = none
  settled : k.poisoned.find 2 = none
  noReads : k.posted.find 2 = none ∧ k.answered.find 2 = none ∧ k.replays.find 2 = none

/-- No row is pinned (R299). -/
def Unpinned (k : Core) : Prop := ∀ n, pinValid (pinOf k n) = false

/-- The row that an instruction reads is resident, and no cell of it is poisoned. -/
structure CleanRow (k : Core) (n : BitVec 6) : Prop where
  resident : (getRow k n).res ≠ .gone
  clean : (getRow k n).row.psn = 0

/-- The lane operations in their V3 forms, each with its operation (R132). -/
def laneForms (d a b : Opd) : List (Instr × LaneOp) :=
  [(.vaddV3 d a b, .add), (.vsubV3 d a b, .sub), (.vmulV3 d a b, .mul), (.vfmaV3 d a b, .fma), (.vminV3 d a b, .min),
    (.vmaxV3 d a b, .max), (.vandV3 d a b, .and), (.vorV3 d a b, .or), (.vxorV3 d a b, .xor), (.vshlV3 d a b, .shl),
    (.vshrV3 d a b, .shr), (.vsraV3 d a b, .sra), (.vmovV3 d a, .mov), (.vabsV3 d a, .abs), (.vnegV3 d a, .neg),
    (.vpopcV3 d a, .popc), (.vdiv d a b, .div), (.vsqrt d a, .sqrt), (.vclz d a, .clz), (.vnot d a, .not),
    (.vaddSat d a b, .addSat), (.vsubSat d a b, .subSat), (.vmulSat d a b, .mulSat)]

/-- What the vector stream leaves as it was when an instruction writes one frame row or one mask alone: everything but the row or mask, the
queue's number, and what a commit changes. -/
structure VectorFrame (k k' : Core) : Prop where
  s : k'.files.s = k.files.s
  other : k'.files.h = k.files.h ∧ k'.files.l = k.files.l ∧ k'.files.sc = k.files.sc ∧ k'.files.pins = k.files.pins
  tregs : { k'.tregs with instret := 0 } = { k.tregs with instret := 0 }
  cregs : k'.cregs = k.cregs
  streams : k'.streams = { k.streams with nextSeq := k.streams.nextSeq + 1 }
  queues : k'.queues = k.queues
  tables : k'.tables = k.tables
  copies : k'.l1 = k.l1 ∧ k'.homes = k.homes ∧ k'.partials = k.partials
  level : k'.level = k.level ∧ k'.task = k.task
  links : k'.seq = k.seq ∧ k'.remote = (k.remote.filter fun r => !r.idem) ∧ k'.posted = k.posted ∧ k'.flits = k.flits
  pend : k'.pend = k.pend

/-! ### Events (R28 to R47, R105 to R397) -/

/-- What an event of the table does to a package that has power. -/
def eventEffect : Instr → Option (State → State)
  | .lpush v => some (fun s => launchPush s v)
  | .conciergeReadBlock => some readBlock
  | .placeLaunch => some placeLaunch
  | .priorityPreempt => some priorityPreempt
  | .postClaim lid plot => some (fun s => postClaim s lid plot.toNat)
  | .gangStart lid plot => some (fun s => gangStart s lid plot.toNat)
  | .handlerStart c => some (fun s => handlerStart s c)
  | .agingPeriod c => some (fun s => updCore s c (rankReady s.time))
  | .budgetExpiry c => some (fun s => updCore s c expireBudget)
  | .taskEnd c => some (fun s => finishTask s c)
  | .idleSample lid => some (fun s => idleSample s lid)
  | .latchLoadComplete c l => some (fun s => loadComplete s c l)
  | .handOn c l => some (fun s => handOn s c l)
  | .drainReceive k => some (fun s => match s.hub.drains[k]? with
      | some d => if d.reply.isNone then drainTurn s d else s
      | none => s)
  | .registerCacheEvict c item => some (fun s => evictItem s c item)
  | .l1Evict c line => some (fun s => evictL1 s c line.toNat)
  | .clusterHomeEvict c line => some (fun s => pushHome s c line.toNat true)
  | .lease1Expiry c line => some (fun s => updCore s c (expireL1 s.time line.toNat))
  | .lease2Expiry line => some (fun s => expireL2 s line.toNat)
  | .recallOwner line => some (fun s => recallLine s none line.toNat)
  | .partialPush c w => some (fun s => pushPartial s c w.toNat)
  | .versionBump c g => some (fun s => moveBumps s c g.toNat)
  | .regionTableWrite g v => some (fun s => regionWrite s g.toNat v)
  | .eventCounterWrite n v => some (fun s => regWrite s .host (.event n.toNat) (v.setWidth 64) (v.setWidth 64) true)
  | .requestTimeout c => some (fun s => updCore s c (timeOut s.time))
  | .duplicateRecordExpiry => some expireRecords
  | .qlockRetry c => some (fun s => updCore s c fun k =>
      if mayRetry k s.time then { k with streams := { k.streams with qlockRefused := none } } else k)
  | .qlockGrant w => some (fun s =>
      let o := openLock s w.toNat
      if lockAt o w.toNat = 0 then grantAt o w.toNat else o)
  | .relayRow k => some (fun s => relayRow s k)
  | .downWaveDelivery k => some (fun s => deliverDown s k)
  | .groupAbort c e => some (fun s => travelAbort s c e.toNat)
  | .carrierCopy k => some (fun s => carrierTurn s k)
  | .outChannelDrain c n => some (fun s => updCore s c fun k => drainChannel k c n)
  | .packetArrival k => some (fun s => arrivePacket s k)
  | .channelDelivery c => some (fun s => updCore s c deliverChannel)
  | .repeatSequencerPost c => some (fun s =>
      let k := getCore s c
      if k.halted || k.fenced || k.task.isNone then s else sequencerStep s c)
  | .trapEntry c => some (fun s => takePending s c false)
  | .machineTrapEntry c => some (fun s => takePending s c true)
  | .uncorrectableError site => some (fun s => arrayError s site)
  | .coreFence c => some (fun s => fenceCore s c)
  | .dieLoss die => some (fun s => loseDie s die.toNat)
  | .regctx arg => some (hostCommand 1 arg)
  | .unregctx ctx => some (hostCommand 2 (ctx.setWidth 64))
  | .kill ctx => some (hostCommand 3 (ctx.setWidth 64))
  | .preempt lid => some (hostCommand 4 (lid.setWidth 64))
  | .migrate arg => some (hostCommand 5 arg)
  | .hostMemAccess acc => some (fun s => outsideAccess s true acc)
  | .peerAccess acc => some (fun s => outsideAccess s false acc)
  | .linkFlit c good => some (fun s => match c with
      | some c => updCore s c fun k => { k with flits := k.flits ++ [good] }
      | none => { s with hub := { s.hub with flits := s.hub.flits ++ [good] } })
  | .firmwareImage img => some (fun s => receiveImage s img)
  | .spdmRequest req => some (fun s => modRegs s fun h => { h with spdm := h.spdm ++ [spdmReply h req] })
  | .powerUp => some powerUp
  | .functionReady f => some (fun s => functionReady s f)
  | .powerCap watts tmax => some (fun s => modRegs s fun h => { h with power := { h.power with pnow := watts }.heated (nextClock h.power watts tmax) tmax })
  | .thermalTrip tmax => some (fun s => modRegs s fun h =>
      { h with power := h.power.heated (if 110 ≤ tmax.toNat then BitVec.ofNat 12 clkMin else h.power.clk) tmax })
  | .coreReset c => some (fun s => coreReset s c)
  | .timebaseHalt => some (fun s => { s with timeHalted := true })
  | .registerWrite off v => some (fun s => blockWrite s .host (off.toNat / 8 * 8) 8 v.toNat)
  | .l2Evict line => some (fun s => evictSlice s line.toNat)
  | .tlbEvict c k => some (fun s => updCore s c fun d => { d with tables := { d.tables with tlb := dropNth d.tables.tlb k } })
  | .timebaseResume => some (fun s => { s with timeHalted := false })
  | .correctedError u => some (fun s => countCorrected s u)
  | .packageReset => some resetPackage
  | _ => none

/-- Everything but one core is as it was. -/
structure OnlyAt (s t : State) (c : CoreId) : Prop where
  cores : ∀ d, d ≠ c → getCore t d = getCore s d
  hub : t.hub = s.hub
  l2 : t.l2 = s.l2
  store : t.store = s.store
  time : t.time = s.time ∧ t.phase = s.phase ∧ t.timeHalted = s.timeHalted
  turn : t.cur = s.cur ∧ t.agenda = s.agenda

/-- Everything but the hub is as it was. -/
structure OnlyHub (s t : State) : Prop where
  cores : t.cores = s.cores
  l2 : t.l2 = s.l2
  store : t.store = s.store
  time : t.time = s.time ∧ t.phase = s.phase ∧ t.timeHalted = s.timeHalted
  turn : t.cur = s.cur ∧ t.agenda = s.agenda

/-- The package's launches have different LIDs. -/
def DistinctLids (s : State) : Prop := (s.hub.launches.map Launch.lid).Nodup

/-- No two launches that occupy their footprints share a core (R40). -/
def FootprintsDisjoint (s : State) : Prop :=
  s.hub.launches.Pairwise fun a b => a.occupies = true → b.occupies = true → a.rect.overlaps b.rect = false

/-! ### What two states share -/

/-- Every byte of memory reads the same, wherever it is held: behind the homes, in L2, in the host's caches, and in every core's L1,
cluster home and partials. -/
structure SameMemory (s t : State) : Prop where
  store : t.store = s.store
  l2 : t.l2 = s.l2
  host : t.hub.hostLines = s.hub.hostLines
  folds : t.hub.partials = s.hub.partials
  l1 : ∀ c, (getCore t c).l1 = (getCore s c).l1
  homes : ∀ c, (getCore t c).homes = (getCore s c).homes
  partials : ∀ c, (getCore t c).partials = (getCore s c).partials

/-- Everything but the current core is as it was. -/
structure OnlyHere (s t : State) : Prop where
  cores : ∀ c, c ≠ s.cur → getCore t c = getCore s c
  hub : t.hub = s.hub
  l2 : t.l2 = s.l2
  store : t.store = s.store
  time : t.time = s.time ∧ t.phase = s.phase ∧ t.timeHalted = s.timeHalted
  turn : t.cur = s.cur ∧ t.agenda = s.agenda
  open_ : t.free = s.free ∧ t.stamp = s.stamp

/-- Every register of a core but its PC, its INSTRET and its performance counters is as it was, and so is everything else that it
holds but the scalar registers. -/
structure SameButScalars (k k' : Core) : Prop where
  level : k'.level = k.level ∧ k'.halted = k.halted ∧ k'.fenced = k.fenced
  task : k'.task = k.task ∧ k'.lost = k.lost ∧ k'.ending = k.ending ∧ k'.handlerAborted = k.handlerAborted ∧ k'.returned = k.returned
  tenant : k'.hasRun = k.hasRun ∧ k'.prevTenant = k.prevTenant ∧ k'.activity = k.activity
  tregs : { k'.tregs with instret := 0 } = { k.tregs with instret := 0 }
  cregs : k'.cregs = k.cregs
  files : { k'.files with s := k.files.s } = k.files
  queues : k'.queues = k.queues
  streams : k'.streams = k.streams
  tables : k'.tables = k.tables
  copies : k'.l1 = k.l1 ∧ k'.homes = k.homes ∧ k'.partials = k.partials
  links : k'.seq = k.seq ∧ k'.remote = (k.remote.filter fun r => !r.idem) ∧ k'.posted = k.posted ∧ k'.flits = k.flits
  reads : ∀ n, n ≠ 0 → k'.answered.find n = k.answered.find n ∧ k'.replays.find n = k.replays.find n
  packets : k'.pktSeq = k.pktSeq ∧ k'.pktSeen = k.pktSeen ∧ k'.unbound = k.unbound
  stream : k'.doing = k.doing ∧ k'.evictFault = k.evictFault ∧ k'.laneErrors = k.laneErrors ∧ k'.poisoned = k.poisoned
  ctrs : { k'.ctrs with perf := k.ctrs.perf } = k.ctrs
  pend : k'.pend = k.pend

end Sys2Proof
end

