-- ==== Sys2Proof/Certificates/Slice0/Obligations.lean ====
section
/-!
DEFINITION. The statements for the provers. `here s` is the core whose turn it is, `exec i s` what an instruction does in a state, and
`updCore`, `retire`, `writeScalar` are the model's own updates, whose frames stand in ScalarWriteFrame and CommitFrame.
-/

open Sys2Proof Sys2Proof.Machine

/-! ### Encoding (R50 to R73) -/

/-- R50, R53 to R72: every well-formed instruction that has an encoding is decoded from its bytes, with every operand as it was and the
bytes after it left over. -/
def Obligations.DecodeOfEncode : Prop :=
  ∀ (i : Instr) (n w : Nat) (rest : List Byte), i.wellFormed = true → encode i = some (n, w) →
    decode (leBytes n w ++ rest) = .ok (i, rest)

/-- R50, R73: bytes that decode are the encoding of the instruction that they decode to, followed by the rest. -/
def Sys2Proof.Parts.EncodeOfDecode : Prop :=
  ∀ (bs : List Byte) (i : Instr) (rest : List Byte), decode bs = .ok (i, rest) →
    ∃ n w, encode i = some (n, w) ∧ bs = leBytes n w ++ rest

/-- R55, R57, R73: the decoder answers well-formed instructions alone. -/
def Sys2Proof.Parts.DecodedIsWellFormed : Prop :=
  ∀ (bs : List Byte) (i : Instr) (rest : List Byte), decode bs = .ok (i, rest) → i.wellFormed = true

/-- R50: an instruction is 2 bytes where bit 0 of its first byte is 0, and else 4 bytes. -/
def Sys2Proof.Parts.LengthByBitZero : Prop :=
  ∀ (b : Byte) (bs : List Byte) (i : Instr) (rest : List Byte), decode (b :: bs) = .ok (i, rest) →
    (b :: bs).length = rest.length + (if b.toNat % 2 = 0 then 2 else 4)

/-- R50, R55, R57, R73: what decodes is the encoding of the instruction that it decodes to, is 2 bytes long where bit 0 is 0 and else 4, and is well
formed. -/
def Obligations.DecodeExact : Prop :=
  Sys2Proof.Parts.EncodeOfDecode ∧ Sys2Proof.Parts.DecodedIsWellFormed ∧ Sys2Proof.Parts.LengthByBitZero

/-- Words written out from the encodings of R53 to R72, with the instruction that each stands for. -/
def Obligations.SpecWordsDecode : Prop :=
  decode [0x42, 0x18] = .ok (.vsubC2 false 1 true 1, []) ∧
  decode [0x03, 0x05, 0x41, 0xC3] = .ok (.vaddV3 (.row 5) (.col 1) (.sreg 3), []) ∧
  decode [0x81, 0x21, 0x06, 0x00] = .ok (.add 3 2 3, []) ∧
  decode [0x85, 0x20, 0xF0, 0xFF] = .ok (.addi 1 2 0xFFF, []) ∧
  decode [0x8D, 0x04, 0x11, 0x00] = .ok (.bne 1 2 1, []) ∧
  decode [0x11, 0x01, 0x00, 0x00] = .ok (.jmp 2 0, []) ∧
  decode [0x1D, 0x02, 0x00, 0x00] = .ok (.eret, [])

/-- R50, R51, R73: where no cause is due, a step is the instruction that the bytes at the PC decode to, at the state that the fetch leaves, or
ILLEGAL_OP with EINFO the bytes where they decode to none; then one cycle of the core with its streams, and the hub's own work. The fetch takes
up again the device reads that were answered before the instruction had to wait (R189), and a turn that waits on a queue is counted where a
performance counter runs (R339); else neither does anything.
What passes beside the instruction is the model's choice (logs 3 and 4). -/
def Obligations.StepRunsFetched : Prop :=
  ∀ (s s' : State) (n w : Nat),
    s.agenda = [] → idleCore s (here s) = false → dueCause (here s) = none → ¬((here s).ending = true ∧ (here s).level = .task) →
    fetchWord s.cur (here s).pc (beginAgain s s.cur) = .ok (w, n) s' →
    let andOn (o : Out) : Out := andThen o fun t => hubWork (backgroundWork (elapse t s.cur) s.cur)
    (∀ i rest, decode (leBytes n w) = .ok (i, rest) → step s = andOn (andThen (exec i s') (noteWait s' s.cur i))) ∧
    ((∀ p, decode (leBytes n w) ≠ .ok p) → step s = andOn (trapNow s' .illegalOp (BitVec.ofNat 64 w))) ∧
    ((here s).answered.find 0 = none → beginAgain s s.cur = s) ∧
    ((here s').ctrs.pmen = 0 → ∀ i t, noteWait s' s.cur i t = t)

/-- R50, R51, R194, R291: a fetch under a page that the TLB holds, that the level may execute, and whose line stands fresh in L1 reads
the instruction from that line: two bytes, or four where bit 0 of the first is 1. -/
def Obligations.FetchReadsLine : Prop :=
  ∀ (s : State) (va e : DWord) (bits pa : Nat) (l : L1Line),
    TlbHit s va e bits → TlbHit s (va + 2) e bits → pa = leafBase e + va.toNat % 2 ^ bits →
    pa + 2 = leafBase e + (va + 2).toNat % 2 ^ bits → pa % 128 ≤ 124 → aperture pa ≠ 1 →
    pageAllows (here s).level .fetch (pageOf e bits) pa = true → cachedIn pa (pageOf e bits) = true →
    (here s).l1.find (lineOf pa) = some l → l.fresh s.time = true →
    fetchWord s.cur va s =
      .ok (let w := l.data.toNat / 2 ^ (8 * (pa % 128)); if w % 2 = 0 then (w % 2 ^ 16, 2) else (w % 2 ^ 32, 4)) s

/-! ### Integers and constants (R110 to R112) -/

/-- R111: sums, differences, products, logic, shifts, extremes, comparisons and selection of 64-bit values, each written to `rd`. -/
def Sys2Proof.Parts.IntegerResults : Prop :=
  ∀ (s : State) (rd rs1 rs2 rs3 : BitVec 5),
    let a := getS (here s) rs1
    let b := getS (here s) rs2
    let c := getS (here s) rs3
    exec (.add rd rs1 rs2) s = .next (writeScalar s rd (BitVec.ofNat 64 (a.toNat + b.toNat))) ∧
    exec (.sub rd rs1 rs2) s = .next (writeScalar s rd (BitVec.ofInt 64 (a.toNat - b.toNat))) ∧
    exec (.mul rd rs1 rs2) s = .next (writeScalar s rd (BitVec.ofNat 64 (a.toNat * b.toNat))) ∧
    exec (.and rd rs1 rs2) s = .next (writeScalar s rd (a &&& b)) ∧
    exec (.or rd rs1 rs2) s = .next (writeScalar s rd (a ||| b)) ∧
    exec (.xor rd rs1 rs2) s = .next (writeScalar s rd (a ^^^ b)) ∧
    exec (.andn rd rs1 rs2) s = .next (writeScalar s rd (a &&& ~~~b)) ∧
    exec (.shl rd rs1 rs2) s = .next (writeScalar s rd (BitVec.ofNat 64 (a.toNat * 2 ^ (b.toNat % 64)))) ∧
    exec (.shr rd rs1 rs2) s = .next (writeScalar s rd (BitVec.ofNat 64 (a.toNat / 2 ^ (b.toNat % 64)))) ∧
    exec (.sra rd rs1 rs2) s = .next (writeScalar s rd (BitVec.ofInt 64 (a.toInt / 2 ^ (b.toNat % 64)))) ∧
    exec (.min rd rs1 rs2) s = .next (writeScalar s rd (BitVec.ofInt 64 (min a.toInt b.toInt))) ∧
    exec (.max rd rs1 rs2) s = .next (writeScalar s rd (BitVec.ofInt 64 (max a.toInt b.toInt))) ∧
    exec (.minu rd rs1 rs2) s = .next (writeScalar s rd (BitVec.ofNat 64 (min a.toNat b.toNat))) ∧
    exec (.maxu rd rs1 rs2) s = .next (writeScalar s rd (BitVec.ofNat 64 (max a.toNat b.toNat))) ∧
    exec (.slt rd rs1 rs2) s = .next (writeScalar s rd (if a.toInt < b.toInt then 1 else 0)) ∧
    exec (.sltu rd rs1 rs2) s = .next (writeScalar s rd (if a.toNat < b.toNat then 1 else 0)) ∧
    exec (.csel rd rs1 rs2 rs3) s = .next (writeScalar s rd (if c ≠ 0 then a else b))

/-- R111: high products and quotients with their corners: opB = 0, and opA = −2⁶³ with opB = −1. -/
def Sys2Proof.Parts.ProductsAndQuotients : Prop :=
  ∀ (s : State) (rd rs1 rs2 : BitVec 5),
    let a := getS (here s) rs1
    let b := getS (here s) rs2
    exec (.mulh rd rs1 rs2) s = .next (writeScalar s rd (BitVec.ofInt 64 (a.toInt * b.toInt / 2 ^ 64))) ∧
    exec (.mulhu rd rs1 rs2) s = .next (writeScalar s rd (BitVec.ofNat 64 (a.toNat * b.toNat / 2 ^ 64))) ∧
    exec (.div rd rs1 rs2) s = .next (writeScalar s rd
      (if b = 0 then BitVec.ofInt 64 (-1) else if a.toInt = -2 ^ 63 ∧ b.toInt = -1 then BitVec.ofInt 64 (-2 ^ 63)
       else BitVec.ofInt 64 (a.toInt.tdiv b.toInt))) ∧
    exec (.divu rd rs1 rs2) s = .next (writeScalar s rd
      (if b = 0 then BitVec.ofNat 64 (2 ^ 64 - 1) else BitVec.ofNat 64 (a.toNat / b.toNat))) ∧
    exec (.rem rd rs1 rs2) s = .next (writeScalar s rd
      (if b = 0 then a else if a.toInt = -2 ^ 63 ∧ b.toInt = -1 then 0
       else BitVec.ofInt 64 (a.toInt - b.toInt * a.toInt.tdiv b.toInt))) ∧
    exec (.remu rd rs1 rs2) s = .next (writeScalar s rd (if b = 0 then a else BitVec.ofNat 64 (a.toNat % b.toNat)))

/-- R111: the counts of leading zeros, trailing zeros and one bits: `clz` of a value below 2^(64 − n) with bit 63 − n set is n, `ctz`
of a value with n zeros under a one at bit n is n, either is 64 for 0, and `popc` counts the bits. -/
def Sys2Proof.Parts.BitCounts : Prop :=
  ∀ (s : State) (rd rs1 : BitVec 5),
    let a := getS (here s) rs1
    (∀ n < 64, a.toNat < 2 ^ (64 - n) → a.toNat.testBit (63 - n) = true →
      exec (.clz rd rs1) s = .next (writeScalar s rd (BitVec.ofNat 64 n))) ∧
    (∀ n < 64, a.toNat % 2 ^ n = 0 → a.toNat.testBit n = true →
      exec (.ctz rd rs1) s = .next (writeScalar s rd (BitVec.ofNat 64 n))) ∧
    (a = 0 → exec (.clz rd rs1) s = .next (writeScalar s rd 64) ∧ exec (.ctz rd rs1) s = .next (writeScalar s rd 64)) ∧
    exec (.popc rd rs1) s = .next (writeScalar s rd
      (BitVec.ofNat 64 ((List.range 64).filter fun i => a.toNat.testBit i).length))

/-- R110, R111: the immediate forms; imm12 is sign-extended. -/
def Sys2Proof.Parts.ImmediateResults : Prop :=
  ∀ (s : State) (rd rs1 : BitVec 5) (imm : BitVec 12) (n : BitVec 6),
    let a := getS (here s) rs1
    exec (.addi rd rs1 imm) s = .next (writeScalar s rd (BitVec.ofInt 64 (a.toInt + imm.toInt))) ∧
    exec (.andi rd rs1 imm) s = .next (writeScalar s rd (a &&& BitVec.ofInt 64 imm.toInt)) ∧
    exec (.ori rd rs1 imm) s = .next (writeScalar s rd (a ||| BitVec.ofInt 64 imm.toInt)) ∧
    exec (.xori rd rs1 imm) s = .next (writeScalar s rd (a ^^^ BitVec.ofInt 64 imm.toInt)) ∧
    exec (.shli rd rs1 n) s = .next (writeScalar s rd (BitVec.ofNat 64 (a.toNat * 2 ^ n.toNat))) ∧
    exec (.shri rd rs1 n) s = .next (writeScalar s rd (BitVec.ofNat 64 (a.toNat / 2 ^ n.toNat))) ∧
    exec (.srai rd rs1 n) s = .next (writeScalar s rd (BitVec.ofInt 64 (a.toInt / 2 ^ n.toNat))) ∧
    exec (.slti rd rs1 imm) s = .next (writeScalar s rd (if a.toInt < imm.toInt then 1 else 0))

/-- R110, R111: the results of every integer operation, register and immediate forms. -/
def Obligations.IntegerArithmetic : Prop :=
  Sys2Proof.Parts.IntegerResults ∧
  Sys2Proof.Parts.ProductsAndQuotients ∧
  Sys2Proof.Parts.BitCounts ∧
  Sys2Proof.Parts.ImmediateResults

/-- R112: `lim` writes SignExtend(imm) × 4,096, and `apc` its own address plus SignExtend(imm19) × 2. -/
def Obligations.ConstantResults : Prop :=
  ∀ (s : State) (rd : BitVec 5) (imm : BitVec 19),
    exec (.lim rd imm) s = .next (writeScalar s rd (BitVec.ofInt 64 (imm.toInt * 4096))) ∧
    exec (.apc rd imm) s = .next (writeScalar s rd (BitVec.ofInt 64 ((here s).pc.toInt + imm.toInt * 2)))

/-! ### Branches and jumps (R113, R114) -/

/-- R113: a conditional branch goes to A + SignExtend(off12) × 2 where its condition holds and else to A + 4, and changes nothing else
but INSTRET and performance counters; conditions 6 and 7 decode to no instruction, and a control thread that fetches one raises ILLEGAL_OP. -/
def Sys2Proof.Parts.ConditionalBranches : Prop :=
  (∀ (s : State) (rs1 rs2 : BitVec 5) (off : BitVec 12),
    let a := getS (here s) rs1
    let b := getS (here s) rs2
    let goes (taken : Prop) [Decidable taken] : Out :=
      .next (updCore s s.cur fun k => retireTo k (if taken then k.pc + BitVec.ofInt 64 (off.toInt * 2) else k.pc + 4))
    exec (.beq rs1 rs2 off) s = goes (a = b) ∧
    exec (.bne rs1 rs2 off) s = goes (a ≠ b) ∧
    exec (.blt rs1 rs2 off) s = goes (a.toInt < b.toInt) ∧
    exec (.bge rs1 rs2 off) s = goes (b.toInt ≤ a.toInt) ∧
    exec (.bltu rs1 rs2 off) s = goes (a.toNat < b.toNat) ∧
    exec (.bgeu rs1 rs2 off) s = goes (b.toNat ≤ a.toNat)) ∧
  (∀ (w : Nat), w < 2 ^ 32 → w % 128 = 13 → 6 ≤ w / 128 % 8 →
    (∀ p, decode (leBytes 4 w) ≠ .ok p) ∧
    (∀ (s s' : State), dueCause (here s) = none → ¬((here s).ending = true ∧ (here s).level = .task) →
      fetchWord s.cur (here s).pc (beginAgain s s.cur) = .ok (w, 4) s' → controlSlot exec s s.cur = trapNow s' .illegalOp (BitVec.ofNat 64 w)))

/-- R114: `jmp` and `jind` write A + 4 to `rd` and go to their target; `jind` with an odd target raises MISALIGN with EINFO the target, at
its own address, and writes nothing. -/
def Sys2Proof.Parts.JumpsAndLinks : Prop :=
  ∀ (s : State) (rd rs1 : BitVec 5) (off : BitVec 20) (imm : BitVec 12),
    let tgt := BitVec.ofInt 64 ((getS (here s) rs1).toInt + imm.toInt)
    exec (.jmp rd off) s =
      .next (updCore s s.cur fun k => retireTo (setS k rd (k.pc + 4)) (k.pc + BitVec.ofInt 64 (off.toInt * 2))) ∧
    (tgt.toNat % 2 = 0 → exec (.jind rd rs1 imm) s = .next (updCore s s.cur fun k => retireTo (setS k rd (k.pc + 4)) tgt)) ∧
    (tgt.toNat % 2 = 1 → exec (.jind rd rs1 imm) s =
      .next (stopAt s s s.cur (controlTrap (trapInfo .misalign tgt) (here s).pc)))

/-- R113, R114: where the branches and jumps go, and what they write. -/
def Obligations.BranchesAndJumps : Prop :=
  Sys2Proof.Parts.ConditionalBranches ∧ Sys2Proof.Parts.JumpsAndLinks

/-- R58, R93, R102: what writing a scalar register and going on changes: `rd` unless it is `s0`, the PC by 4, INSTRET by 1 at task
level, and performance counters; every other register of the core, every other core, and everything else stay. -/
def Sys2Proof.Parts.ScalarWriteFrame : Prop :=
  ∀ (s : State) (rd : BitVec 5) (v : DWord),
    let t := writeScalar s rd v
    OnlyHere s t ∧ SameMemory s t ∧ SameButScalars (here s) (here t) ∧
    (here t).pc = (here s).pc + 4 ∧
    (here t).tregs.instret = (if (here s).level = .task then (here s).tregs.instret + 1 else (here s).tregs.instret) ∧
    (∀ r, getS (here t) r = if r = 0 then 0 else if r = rd then v else getS (here s) r)

/-- R58, R102: what a commit at an address changes in a core: the PC, INSTRET by 1 at task level, and performance counters, nothing else. -/
def Sys2Proof.Parts.CommitFrame : Prop :=
  ∀ (k : Core) (pc : DWord),
    let k' := retireTo k pc
    k'.pc = pc ∧ SameButScalars k k' ∧ k'.files = k.files ∧
    k'.tregs.instret = (if k.level = .task then k.tregs.instret + 1 else k.tregs.instret) ∧
    (k.ctrs.pmen = 0 → k'.ctrs = k.ctrs) ∧
    (∀ i : Fin 8, (k'.ctrs.perf[i]).evt = (k.ctrs.perf[i]).evt)

/-- R58, R93, R102: what writing a scalar register changes, and what a commit changes, and nothing else. -/
def Obligations.CommitFrames : Prop :=
  Sys2Proof.Parts.ScalarWriteFrame ∧ Sys2Proof.Parts.CommitFrame

/-! ### Floating point (R84, R116 to R118) -/

/-- R84: a NaN operand of `fadd`, `fsub`, `fmul`, `fdiv`, `fsqrt` or `fma`, or two of `fmin` or `fmax`, gives the canonical NaN of the
format, with bits 63:32 zero for FP32; one NaN operand of `fmin` or `fmax` gives the other operand. -/
def Obligations.NanOperands : Prop :=
  ∀ (s : State) (f : FpFmt) (rd rs1 rs2 rs3 : BitVec 5),
    let w := match f with | .fp64 => 64 | .fp32 => 32
    let isNan (q : BitVec 5) : Prop :=
      let x := (getS (here s) q).toNat % 2 ^ w
      match f with
      | .fp64 => x / 2 ^ 52 % 2 ^ 11 = 2047 ∧ x % 2 ^ 52 ≠ 0
      | .fp32 => x / 2 ^ 23 % 2 ^ 8 = 255 ∧ x % 2 ^ 23 ≠ 0
    let qnan : DWord := match f with | .fp64 => 0x7FF8000000000000 | .fp32 => 0x7FC00000
    let low (q : BitVec 5) : DWord := BitVec.ofNat 64 ((getS (here s) q).toNat % 2 ^ w)
    (isNan rs1 ∨ isNan rs2 →
      exec (.fadd f rd rs1 rs2) s = .next (writeScalar s rd qnan) ∧ exec (.fsub f rd rs1 rs2) s = .next (writeScalar s rd qnan) ∧
      exec (.fmul f rd rs1 rs2) s = .next (writeScalar s rd qnan) ∧ exec (.fdiv f rd rs1 rs2) s = .next (writeScalar s rd qnan)) ∧
    (isNan rs1 → exec (.fsqrt f rd rs1) s = .next (writeScalar s rd qnan)) ∧
    (isNan rs1 ∨ isNan rs2 ∨ isNan rs3 → exec (.fma f rd rs1 rs2 rs3) s = .next (writeScalar s rd qnan)) ∧
    (isNan rs1 → isNan rs2 →
      exec (.fmin f rd rs1 rs2) s = .next (writeScalar s rd qnan) ∧ exec (.fmax f rd rs1 rs2) s = .next (writeScalar s rd qnan)) ∧
    (isNan rs1 → ¬isNan rs2 →
      exec (.fmin f rd rs1 rs2) s = .next (writeScalar s rd (low rs2)) ∧ exec (.fmax f rd rs1 rs2) s = .next (writeScalar s rd (low rs2))) ∧
    (¬isNan rs1 → isNan rs2 →
      exec (.fmin f rd rs1 rs2) s = .next (writeScalar s rd (low rs1)) ∧ exec (.fmax f rd rs1 rs2) s = .next (writeScalar s rd (low rs1)))

/-- R117: the conversions. To an integer: rounded by RND.MODE and saturated to the range, 0 for NaN. From an integer or from the other
format: rounded once. -/
def Obligations.ConversionResults : Prop :=
  ∀ (s : State) (f : FpFmt) (rd rs1 : BitVec 5),
    let r := Rnd.ofBits (here s).tregs.rnd
    let x := getS (here s) rs1
    let v (g : FpFmt) : Val := (binOf g).decode (x.toNat % 2 ^ ((binOf g).eb + (binOf g).mb + 1))
    let put (y : Val) : Out := .next (writeScalar s rd (BitVec.ofNat 64 ((binOf f).encodeS r y false)))
    (∀ n m e, v f = .fin n m e →
      let i : Int := if n then -(roundAt r n m e 0 false : Int) else roundAt r n m e 0 false
      exec (.fcvt f .toi rd rs1) s = .next (writeScalar s rd (BitVec.ofInt 64 (max (-2 ^ 63) (min (2 ^ 63 - 1) i)))) ∧
      exec (.fcvt f .tou rd rs1) s = .next (writeScalar s rd (BitVec.ofInt 64 (max 0 (min (2 ^ 64 - 1) i))))) ∧
    (v f = .inf false →
      exec (.fcvt f .toi rd rs1) s = .next (writeScalar s rd (BitVec.ofInt 64 (2 ^ 63 - 1))) ∧
      exec (.fcvt f .tou rd rs1) s = .next (writeScalar s rd (BitVec.ofInt 64 (2 ^ 64 - 1)))) ∧
    (v f = .inf true →
      exec (.fcvt f .toi rd rs1) s = .next (writeScalar s rd (BitVec.ofInt 64 (-2 ^ 63))) ∧
      exec (.fcvt f .tou rd rs1) s = .next (writeScalar s rd 0)) ∧
    (v f = .nan →
      exec (.fcvt f .toi rd rs1) s = .next (writeScalar s rd 0) ∧ exec (.fcvt f .tou rd rs1) s = .next (writeScalar s rd 0)) ∧
    exec (.fcvt f .fri rd rs1) s = put (.fin (x.toInt < 0) x.toInt.natAbs 0) ∧
    exec (.fcvt f .fru rd rs1) s = put (.fin false x.toNat 0) ∧
    exec (.fcvt f .frf rd rs1) s = put (v (match f with | .fp64 => .fp32 | .fp32 => .fp64))

/-- R116: each scalar operation gives its exact result rounded once by RND.MODE, written to `rd`; an FP32 operand is bits 31:0. -/
def Sys2Proof.Parts.FloatResults : Prop :=
  ∀ (s : State) (f : FpFmt) (rd rs1 rs2 rs3 : BitVec 5),
    let r := Rnd.ofBits (here s).tregs.rnd
    let v (q : BitVec 5) : Val := (binOf f).decode ((getS (here s) q).toNat % 2 ^ ((binOf f).eb + (binOf f).mb + 1))
    let put (x : Val) (rest : Bool) : Out := .next (writeScalar s rd (BitVec.ofNat 64 ((binOf f).encodeS r x rest)))
    exec (.fadd f rd rs1 rs2) s = put ((v rs1).add r (v rs2)) false ∧
    exec (.fsub f rd rs1 rs2) s = put ((v rs1).add r (v rs2).neg) false ∧
    exec (.fmul f rd rs1 rs2) s = put ((v rs1).mul (v rs2)) false ∧
    exec (.fdiv f rd rs1 rs2) s = put ((v rs1).div (v rs2)).1 ((v rs1).div (v rs2)).2 ∧
    exec (.fsqrt f rd rs1) s = put (v rs1).sqrt.1 (v rs1).sqrt.2 ∧
    exec (.fma f rd rs1 rs2 rs3) s = put (((v rs1).mul (v rs2)).add r (v rs3)) false ∧
    exec (.fmin f rd rs1 rs2) s = put ((v rs1).min (v rs2)) false ∧
    exec (.fmax f rd rs1 rs2) s = put ((v rs1).max (v rs2)) false

/-- R118: `fcmp` writes 1 or 0. `.un` holds where an operand is NaN and the others then do not; of finite values each holds as the values
compare, with −0 equal to +0. -/
def Sys2Proof.Parts.CompareResults : Prop :=
  ∀ (s : State) (f : FpFmt) (rd rs1 rs2 : BitVec 5),
    let v (q : BitVec 5) : Val := (binOf f).decode ((getS (here s) q).toNat % 2 ^ ((binOf f).eb + (binOf f).mb + 1))
    let answers (c : FcmpCond) (p : Prop) [Decidable p] : Prop :=
      exec (.fcmp f c rd rs1 rs2) s = .next (writeScalar s rd (if p then 1 else 0))
    (v rs1 = .nan ∨ v rs2 = .nan → answers .un True ∧ answers .eq False ∧ answers .lt False ∧ answers .le False) ∧
    (∀ n m e p k g, v rs1 = .fin n m e → v rs2 = .fin p k g →
      let a : Int := (if n then -1 else 1) * m * 2 ^ (e - min e g).toNat
      let b : Int := (if p then -1 else 1) * k * 2 ^ (g - min e g).toNat
      answers .un False ∧ answers .eq (a = b) ∧ answers .lt (a < b) ∧ answers .le (a ≤ b))

/-- R116, R118: the scalar floating-point results and comparisons. -/
def Obligations.FloatsAndCompares : Prop :=
  Sys2Proof.Parts.FloatResults ∧ Sys2Proof.Parts.CompareResults

/-! ### Special registers (R98 to R102, R119) -/

/-- R98 to R102: what each special register reads after a value is written to it: its own bits of the value, but VL clamped to 1 and 64, or
32 under PROT, PROT lowering VL, TDIES losing the bits given, BUDGET 0 making its trap due, and the read-only ones unchanged; and a write
changes no scalar, row, mask, hoop, latch or queue. -/
def Obligations.SpecialWriteResults : Prop :=
  ∀ (s : State) (c : CoreId) (sel : Spr) (v : DWord),
    let t := updCore s c fun k => setSpr k sel v
    let k := getCore s c
    let k' := getCore t c
    (getSpr t c sel =
      match sel with
      | .vl => BitVec.ofNat 64 (max 1 (min v.toNat (if k.tregs.prot = 1 then 32 else 64)))
      | .ksel => BitVec.ofNat 64 (v.toNat % 8) | .rnd => BitVec.ofNat 64 (v.toNat % 4) | .prot => BitVec.ofNat 64 (v.toNat % 2)
      | .egdone => BitVec.ofNat 64 (v.toNat % 2 ^ 8) | .budget => BitVec.ofNat 64 (v.toNat % 2 ^ 33)
      | .ecause => BitVec.ofNat 64 (v.toNat % 2 ^ 12) | .mcause => BitVec.ofNat 64 (v.toNat % 2 ^ 14)
      | .tenant | .asid => BitVec.ofNat 64 (v.toNat % 2 ^ 16) | .lease1 | .lease2 => BitVec.ofNat 64 (v.toNat % 2 ^ 32)
      | .tdies => getSpr s c .tdies &&& ~~~v
      | .pmask | .cycle | .instret | .rbase | .tvec | .epc | .einfo | .ptroot | .emerg | .mtvec | .mepc | .minfo => v
      | .coord | .foot | .group | .taskid | .time | .bnda | .bndb | .bndc => getSpr s c sel) ∧
    (sel = .prot → v.toNat % 2 = 1 → getSpr t c .vl = BitVec.ofNat 64 (min k.tregs.vl.toNat 32)) ∧
    (sel = .budget → (k'.pend.budget = true ↔ v.toNat % 2 ^ 33 = 0)) ∧
    (∀ r, r ≠ sel → ¬(sel = .prot ∧ r = .vl) → getSpr t c r = getSpr s c r) ∧
    k'.files = k.files ∧ k'.queues = k.queues ∧ k'.streams = k.streams ∧ k'.tables = k.tables ∧ k'.pc = k.pc ∧ k'.level = k.level

/-- R98, R119: `sget` of a register that the level may read writes its value, zero-extended, to `rd`, PMASK once both streams are empty and
no replay posts (R100); of any other it raises PRIV at its own address with EINFO its encoding. -/
def Sys2Proof.Parts.SgetReads : Prop :=
  ∀ (s : State) (rd : BitVec 5) (sel : Spr),
    (closedAt (here s).level sel = false → (sel = .pmask → Drained (here s)) →
      exec (.sget rd sel) s = .next (writeScalar s rd (getSpr s s.cur sel))) ∧
    (closedAt (here s).level sel = true →
      exec (.sget rd sel) s = .next (stopAt s s s.cur (controlTrap (trapInfo .priv (encodingOf (.sget rd sel))) (here s).pc)))

/-- R98, R119: `sset` of a register that the level may write gives it its fields and goes on: PMASK once both streams are empty; RBASE
after the write-back of the register cache, TENANT after that of the lodge descriptors, and LEASE2 with the leases of the L2 copies
(SpecialWriteCare); of any other register it raises PRIV at its own address with EINFO its encoding. -/
def Sys2Proof.Parts.SsetWrites : Prop :=
  ∀ (s : State) (sel : Spr) (rs1 : BitVec 5),
    (openAt (here s).level sel = true → (sel = .pmask → Drained (here s)) → sel ≠ .rbase → sel ≠ .tenant → sel ≠ .lease2 →
      exec (.sset sel rs1) s = commits s fun k => setSpr k sel (getS k rs1)) ∧
    (openAt (here s).level sel = false →
      exec (.sset sel rs1) s = .next (stopAt s s s.cur (controlTrap (trapInfo .priv (encodingOf (.sset sel rs1))) (here s).pc)))

/-- R100, R304, R307, R200: the writes of special registers that come with more. RBASE, where no row is pinned and no block of the
register cache is dirty: every block is invalid after it. TENANT: the lodge descriptors are written back first, to homes that are ready (R393). LEASE2: the L2 copies that
the core has filled live no longer than the new bound. -/
def Sys2Proof.Parts.SpecialWriteCare : Prop :=
  ∀ (s : State) (rs1 : BitVec 5),
    let v := getS (here s) rs1
    (openAt (here s).level .rbase = true → (∀ n, pinValid (pinOf (here s) n) = false) → (∀ n, (getRow (here s) n).res ≠ .dirty) →
      (∀ q < 4, scaleRes (here s) q ≠ .dirty) → (∀ i : Fin 64, bitAt ((here s).files.pins[i]) 287 = false) →
      exec (.sset .rbase rs1) s = commits s fun k => setSpr (dropBlocks k) .rbase v) ∧
    (openAt (here s).level .tenant = true →
      ∀ s0, eachOf (lodgeHomes s s.cur) (fun a => reachHome s.cur (lineOf a) 0) s = .ok () s0 →
        let s1 := updCore (writeBackLodges s0 s.cur) s.cur fun k => setSpr k .tenant (getS k rs1)
        exec (.sset .tenant rs1) s = .next (updCore s1 s1.cur fun k => retire k 4)) ∧
    (openAt (here s).level .lease2 = true →
      exec (.sset .lease2 rs1) s =
        .next (lowerL2 (updCore s s.cur fun k => retire (setSpr k .lease2 v) 4) s.cur (BitVec.ofNat 32 v.toNat)))

/-- R98 to R102, R119: what `sget` and `sset` do at each level, with the writes that come with more. -/
def Obligations.SpecialAccess : Prop :=
  Sys2Proof.Parts.SgetReads ∧ Sys2Proof.Parts.SsetWrites ∧ Sys2Proof.Parts.SpecialWriteCare

/-! ### Traps and returns (R120 to R122, R345, R346, R350) -/

/-- R120: `sysc` and `trap` complete, then SYSCALL or BREAK is taken with EPC the next address and EINFO the code; at machine level they
raise ILLEGAL_OP. -/
def Sys2Proof.Parts.SoftTraps : Prop :=
  ∀ (s : State) (code : BitVec 10),
    let past := updCore s s.cur fun k => retire k 4
    let taken (x : Cause) : Out :=
      .next (stopAt s past s.cur (controlTrap (trapInfo x (BitVec.ofNat 64 code.toNat)) ((here s).pc + 4)))
    ((here s).level ≠ .machine → exec (.sysc code) s = taken .syscall ∧ exec (.trap code) s = taken .brk) ∧
    ((here s).level = .machine →
      exec (.sysc code) s = .next (haltCore s s.cur (here s).pc .illegalOp) ∧
      exec (.trap code) s = .next (haltCore s s.cur (here s).pc .illegalOp))

/-- R345, R346: a `sysc` at steward level enters machine level at MTVEC, with MEPC the next address, MCAUSE the code 8 with PLEV 1 and
MINFO its code; EPC, ECAUSE and EINFO, the scalars and memory stay. Where MTVEC is 0 the core halts. -/
def Sys2Proof.Parts.StewardTrapEntersMachine : Prop :=
  ∀ (s : State) (code : BitVec 10), (here s).level = .steward →
    ∃ t, exec (.sysc code) s = .next t ∧
      ((here s).cregs.mtvec ≠ 0 → inHandler (here s) = false →
        let k := getCore t s.cur
        k.level = .machine ∧ k.pc = (here s).cregs.mtvec ∧ k.cregs.mepc = (here s).pc + 4 ∧ k.cregs.mcause = BitVec.ofNat 14 (8 + 4096) ∧
        k.cregs.minfo = BitVec.ofNat 64 code.toNat ∧ k.tregs = (here s).tregs ∧ k.files = (here s).files ∧ k.halted = (here s).halted ∧
        k.task = (here s).task ∧ SameMemory s t) ∧
      ((here s).cregs.mtvec = 0 → (getCore t s.cur).halted = true)

/-- R120, R345, R346: `sysc` and `trap`, and the entry of machine level from steward level. -/
def Obligations.SoftTrapsAndEntry : Prop :=
  Sys2Proof.Parts.SoftTraps ∧ Sys2Proof.Parts.StewardTrapEntersMachine

/-- R350, R361: a trap of a handler task at task level, with a steward at an even TVEC, no emergency area and no fault queue, enters the
steward: EPC, ECAUSE with HANDLER, and EINFO are written, PC is TVEC, and the handler is aborted: its entries, its queues and its buffered
sends are gone, and the packets that it popped stand again at the head of the receive buffer. -/
def Sys2Proof.Parts.HandlerTrapEntersSteward : Prop :=
  ∀ (s : State) (c : CoreId) (t : TrapAt),
    let k := getCore s c
    k.level = .task → inHandler k = true → k.unbound = false → k.queues.outPending = [] → k.cregs.tvec ≠ 0 → k.cregs.tvec.toNat % 2 = 0 →
    canStop k = true → k.cregs.emerg = 0 → k.ctrs.fq.size = 0 →
    let k' := getCore (takeTrap s c t) c
    k'.level = .steward ∧ k'.pc = k.cregs.tvec ∧ k'.tregs.epc = t.epc ∧ k'.tregs.einfo = t.info.einfo ∧
    k'.tregs.ecause = BitVec.ofNat 12 (t.info.cause.code + 256 * t.stream.code + (if t.info.replay then 1024 else 0) + 2048) ∧
    k'.streams.vq = [] ∧ k'.streams.mq = [] ∧ k'.queues.send = [] ∧ k'.queues.popped = [] ∧
    k'.queues.recv = k.queues.popped ++ k.queues.inq.toList.flatten ++ k.queues.recv ∧ k'.files = k.files ∧ k'.task = k.task

/-- R345, R350: a trap of an ordinary task whose context is saved enters the steward at TVEC, or machine level at MTVEC where TVEC is 0 or
odd, after the record of what its entries have consumed (R371) and the record of the fault; a trap at machine level halts the core, and MEPC, MCAUSE and
MINFO stay. -/
def Sys2Proof.Parts.TrapGoesOneLevelUp : Prop :=
  ∀ (s : State) (c : CoreId) (t : TrapAt),
    let s1 := pumpSends s c
    ((getCore s c).level = .task → canStop (getCore s1 c) = true →
      ∀ s2 esave first, stopTask s1 c = (s2, .saved esave first) →
        let tv := (getCore s1 c).cregs.tvec
        let h := inHandler (getCore s1 c)
        let s2 := settleHeads s2 c (getCore s1 c).streams
        let s3 := writeRecord s2 c (faultRecord s2 c t first esave)
        (tv ≠ 0 → tv.toNat % 2 = 0 → takeTrap s c t = stewardEntry s3 c t h) ∧
        (tv = 0 ∨ tv.toNat % 2 = 1 → (getCore s1 c).cregs.mtvec ≠ 0 → takeTrap s c t = machineEntry s3 c t 0 h)) ∧
    ((getCore s c).level = .machine → takeTrap s c t = haltCore s c (getCore s c).pc t.info.cause)

/-- R345, R350, R361: where a trap goes, and what the trap of a handler leaves. -/
def Obligations.TrapEntry : Prop :=
  Sys2Proof.Parts.HandlerTrapEntersSteward ∧ Sys2Proof.Parts.TrapGoesOneLevelUp

/-- R345: which of the causes pending at a task-level boundary is due: the first in the order DIE_LOST, GANG_BROKEN, PROT_MISMATCH, POISON, BUDGET;
the others stay pending. R131: PROT_MISMATCH is of the vector stream, POISON of the stream that met it. That none is due at steward and machine level is
the model's choice (log 40). -/
def Obligations.PendingCausesInOrder : Prop :=
  ∀ (k : Core),
    let p := k.pend
    (k.level ≠ .task → dueCause k = none) ∧
    (k.level = .task →
      (∀ v, p.dieLost = some v → dueCause k = some (trapInfo .dieLost v, .control, { p with dieLost := none })) ∧
      (∀ v, p.dieLost = none → p.gangBroken = some v → dueCause k = some (trapInfo .gangBroken v, .control, { p with gangBroken := none })) ∧
      (∀ v, p.dieLost = none → p.gangBroken = none → p.protMismatch = some v →
        dueCause k = some (trapInfo .protMismatch v, .vector, { p with protMismatch := none })) ∧
      (∀ st v, p.dieLost = none → p.gangBroken = none → p.protMismatch = none → p.poison = some (st, v) →
        dueCause k = some (trapInfo .poison v, st, { p with poison := none })) ∧
      (p.dieLost = none → p.gangBroken = none → p.protMismatch = none → p.poison = none → p.budget = true →
        dueCause k = some (trapInfo .budget 0, .control, { p with budget := false })))

/-- R121: `eret` raises PRIV at task level and MISALIGN at its own address where its return address is odd, which at machine level halts the core
(R345); it returns from machine level to
the steward of PLEV 1 at MEPC with EPC, ECAUSE and EINFO as they stood, from steward level to a core without a task at EPC, and to a
stopped task once its context is restored.
That it waits for the entries of its own level is the model's choice (log 12). -/
def Sys2Proof.Parts.EretReturns : Prop :=
  ∀ (s : State), Drained (here s) →
    ((here s).level = .task →
      exec .eret s = .next (stopAt s s s.cur (controlTrap (trapInfo .priv (encodingOf .eret)) (here s).pc))) ∧
    ((here s).level = .steward → (here s).tregs.epc.toNat % 2 = 1 →
      exec .eret s = .next (takeTrap s s.cur (controlTrap (trapInfo .misalign (here s).tregs.epc) (here s).pc))) ∧
    ((here s).level = .machine → (here s).cregs.mepc.toNat % 2 = 1 → exec .eret s = .next (haltCore s s.cur (here s).pc .misalign)) ∧
    ((here s).level = .machine → (here s).cregs.mepc.toNat % 2 = 0 → (here s).cregs.mcause.toNat / 4096 = 1 →
      ∃ t, exec .eret s = .next t ∧ (getCore t s.cur).level = .steward ∧ (getCore t s.cur).pc = (here s).cregs.mepc ∧
        (getCore t s.cur).tregs = (here s).tregs ∧ (getCore t s.cur).files = (here s).files ∧ (getCore t s.cur).cregs = (here s).cregs ∧
        (getCore t s.cur).streams.vq = (here s).streams.stewardV ∧ (getCore t s.cur).streams.mq = (here s).streams.stewardM ∧ SameMemory s t) ∧
    ((here s).level = .steward → (here s).tregs.epc.toNat % 2 = 0 → (here s).task = none →
      ∃ t, exec .eret s = .next t ∧ (getCore t s.cur).level = .task ∧ (getCore t s.cur).pc = (here s).tregs.epc ∧
        (getCore t s.cur).tregs = (here s).tregs ∧ (getCore t s.cur).files = (here s).files ∧ SameMemory s t) ∧
    ((here s).level = .steward → (here s).tregs.epc.toNat % 2 = 0 → (here s).task.isSome = true → (here s).handlerAborted = false →
      ∀ s', restoreContext s.cur (here s).tregs.epc s = .ok () s' →
        ∃ t, exec .eret s = .next t ∧ (getCore t s.cur).level = .task ∧ (getCore t s.cur).pc = (here s).tregs.epc)

/-- R122: `tdone` at task level commits and the control thread executes nothing after it; at steward level it ends the task that the steward
serves, once its release is over (R214, R377); at machine level it raises ILLEGAL_OP, which halts the core. -/
def Sys2Proof.Parts.TdoneEndsTask : Prop :=
  ∀ (s : State),
    ((here s).level = .task → exec .tdone s = .next (updCore s s.cur fun k => { retire k 4 with ending := true })) ∧
    ((here s).level = .steward →
      let s' := release s s.cur .sys allRegions
      exec .tdone s = .next (if releaseLeft s' s.cur .sys allRegions then s' else discardTask s' s.cur)) ∧
    ((here s).level = .machine → exec .tdone s = .next (haltCore s s.cur (here s).pc .illegalOp)) ∧
    ((here s).level = .task → (here s).ending = true → (here s).halted = false → dueCause (here s) = none →
      ∀ run, controlSlot run s s.cur = .next s)

/-- R121, R122, R347: `eret` and `tdone` at each level. -/
def Obligations.ReturnsAndEnds : Prop :=
  Sys2Proof.Parts.EretReturns ∧ Sys2Proof.Parts.TdoneEndsTask

/-- R52, R99, R100, R149: `nop` only goes on, and so does `isync`: that there is nothing for it to discard is the model's choice (log 16). `kuse` writes KSEL, `vsetvl` VL := Clamp(rs1, 1, cap) and the new VL to `rd`; `kget`,
`kpop` and `kfirst` read a mask once the vector queue is empty, and wait while it is not. -/
def Obligations.MasksAndLengths : Prop :=
  ∀ (s : State) (rd rs1 : BitVec 5) (ka : BitVec 3),
    let m := getK (here s) ka
    let vl : Nat := max 1 (min (getS (here s) rs1).toNat (if (here s).tregs.prot = 1 then 32 else 64))
    exec .nop s = commits s id ∧ exec .isync s = commits s id ∧
    exec (.kuse ka) s = commits s (fun k => { k with tregs := { k.tregs with ksel := ka } }) ∧
    exec (.vsetvl rd rs1) s =
      commits s (fun k => setS { k with tregs := { k.tregs with vl := BitVec.ofNat 7 vl } } rd (BitVec.ofNat 64 vl)) ∧
    ((here s).streams.rep.run = none → (here s).streams.vq = [] →
      exec (.kget rd ka) s = .next (writeScalar s rd m) ∧
      exec (.kpop rd ka) s = .next (writeScalar s rd (BitVec.ofNat 64 ((List.range 64).filter fun i => m.toNat.testBit i).length)) ∧
      (∀ i < 64, m.toNat.testBit i = true → m.toNat % 2 ^ i = 0 → exec (.kfirst rd ka) s = .next (writeScalar s rd (BitVec.ofNat 64 i))) ∧
      (m = 0 → exec (.kfirst rd ka) s = .next (writeScalar s rd 64))) ∧
    ((here s).streams.rep.run = none → (here s).streams.vq ≠ [] →
      exec (.kget rd ka) s = .next s ∧ exec (.kpop rd ka) s = .next s ∧ exec (.kfirst rd ka) s = .next s)

/-! ### Loads and stores (R191, R194, R216 to R219) -/

/-- The scalar loads with their size and whether they extend the sign (R219). -/
def Loads (rt rs1 : BitVec 5) (imm : BitVec 12) : List (Instr × Nat × Bool) :=
  [(.ldb rt rs1 imm, 1, true), (.ldbu rt rs1 imm, 1, false), (.ldh rt rs1 imm, 2, true), (.ldhu rt rs1 imm, 2, false),
    (.ldw rt rs1 imm, 4, true), (.ldwu rt rs1 imm, 4, false), (.ldd rt rs1 imm, 8, true)]

/-- The scalar stores with their size (R219). -/
def Stores (rt rs1 : BitVec 5) (imm : BitVec 12) : List (Instr × Nat) :=
  [(.stb rt rs1 imm, 1), (.sth rt rs1 imm, 2), (.stw rt rs1 imm, 4), (.std rt rs1 imm, 8)]

/-- R191, R219: a load from the core's own scratchpad window writes the bytes there, extended, to `rt`, and changes nothing else. -/
def Sys2Proof.Parts.ScratchLoads : Prop :=
  ∀ (s : State) (rt rs1 : BitVec 5) (imm : BitVec 12) (off : Nat), Drained (here s) →
    ∀ f ∈ Loads rt rs1 imm, OwnScratch s (eaOf (here s) rs1 imm) off f.2.1 → CleanAt s (sramKey s.cur off) f.2.1 →
      let v := bytesAt s (sramKey s.cur off) f.2.1
      exec f.1 s = .next (writeScalar s rt (if f.2.2 then BitVec.ofInt 64 (BitVec.ofNat (8 * f.2.1) v).toInt else BitVec.ofNat 64 v))

/-- R191, R219, R295: a store to the core's own scratchpad window writes the low bytes of `rt` there, first byte lowest, and marks region 0
where it is watched; the bytes around them, every copy and every scalar register stay. -/
def Sys2Proof.Parts.ScratchStores : Prop :=
  ∀ (s : State) (rt rs1 : BitVec 5) (imm : BitVec 12) (off : Nat), Drained (here s) →
    ∀ f ∈ Stores rt rs1 imm, OwnScratch s (eaOf (here s) rs1 imm) off f.2 →
      let a := sramKey s.cur off
      ∃ t, exec f.1 s = .next t ∧
        (∀ x, a ≤ x → x < a + f.2 → memByte t.store.bytes x = BitVec.ofNat 8 ((getS (here s) rt).toNat / 2 ^ (8 * (x - a)))) ∧
        (∀ x, (x < a ∨ a + f.2 ≤ x) → memByte t.store.bytes x = memByte s.store.bytes x) ∧
        t.l2 = s.l2 ∧ t.hub = s.hub ∧ (∀ c, c ≠ s.cur → getCore t c = getCore s c) ∧
        here t = retire (here (markWatched s s.cur 0)) 4 ∧ (here (markWatched s s.cur 0)).files = (here s).files

/-- R191, R219: scalar loads and stores in the own scratchpad window. -/
def Obligations.ScratchAccesses : Prop :=
  Sys2Proof.Parts.ScratchLoads ∧ Sys2Proof.Parts.ScratchStores

/-- R194, R219: a load under a page that the TLB holds, whose line stands fresh and without poison in L1, writes the line's bytes,
extended, to `rt`, and changes nothing else. -/
def Sys2Proof.Parts.CachedLoads : Prop :=
  ∀ (s : State) (rt rs1 : BitVec 5) (imm : BitVec 12) (pa : Nat) (pg : Page) (l : L1Line), Drained (here s) →
    OnPage s (eaOf (here s) rs1 imm) .read pa pg → cachedIn pa pg = true → (here s).l1.find (lineOf pa) = some l → l.fresh s.time = true →
    l.psn = 0 →
    ∀ f ∈ Loads rt rs1 imm, (eaOf (here s) rs1 imm).toNat % f.2.1 = 0 →
      let v := l.data.toNat / 2 ^ (8 * (pa % 128)) % 2 ^ (8 * f.2.1)
      exec f.1 s = .next (writeScalar s rt (if f.2.2 then BitVec.ofInt 64 (BitVec.ofNat (8 * f.2.1) v).toInt else BitVec.ofNat 64 v))

/-- R182, R194, R219: a store to a cached page that the TLB holds changes its bytes of the line in the core's L1 and makes them dirty; every other
byte of that line, every other line, every other copy and the memory behind them stay. A partition that is full and does not hold the line evicts
another line first, in `s0`; with room `s0` is `s`. A store that finds no place there waits, in `s0`, until a home takes an eviction (log 53). The
region's mark is set where it is watched. -/
def Sys2Proof.Parts.CachedStores : Prop :=
  ∀ (s : State) (rt rs1 : BitVec 5) (imm : BitVec 12) (pa : Nat) (pg : Page), Drained (here s) →
    OnPage s (eaOf (here s) rs1 imm) .write pa pg → cachedIn pa pg = true →
    ∀ f ∈ Stores rt rs1 imm, (eaOf (here s) rs1 imm).toNat % f.2 = 0 → pa % f.2 = 0 →
      let o := pa % 128
      let lodge := match (here s).l1.find (lineOf pa) with | some l => l.lodge | none => false
      let s0 := roomL1 s s.cur (lineOf pa) lodge
      let k0 := getCore s0 s.cur
      let old := k0.l1.find (lineOf pa)
      ((here s).l1.length + (here s).homes.length < 32 * (256 - (here s).tregs.bndc.toNat) ∨ ((here s).l1.find (lineOf pa)).isSome = true →
        s0 = s) ∧
      (l1Place k0 (lineOf pa) lodge = false → roomRefused s0 s.cur lodge = none → exec f.1 s = .next s0) ∧
      (s0.cur = s.cur → l1Place k0 (lineOf pa) lodge = true → ∃ t l, exec f.1 s = .next t ∧ (here t).l1.find (lineOf pa) = some l ∧
        (∀ i < 128, (slice l.data (8 * i) 8 : Byte) =
          if o ≤ i ∧ i < o + f.2 then BitVec.ofNat 8 ((getS (here s) rt).toNat / 2 ^ (8 * (i - o)))
          else match old with | some m => slice m.data (8 * i) 8 | none => 0) ∧
        (∀ i < 128, bitAt l.dirty i = true ↔ (o ≤ i ∧ i < o + f.2) ∨ (∃ m, old = some m ∧ bitAt m.dirty i = true)) ∧
        (∀ n, n ≠ lineOf pa → (here t).l1.find n = k0.l1.find n) ∧
        t.store = s0.store ∧ t.l2 = s0.l2 ∧ t.hub = s0.hub ∧ (∀ c, c ≠ s.cur → getCore t c = getCore s0 c) ∧
        (here t).homes = k0.homes ∧ (here t).files = k0.files ∧ (here t).pc = k0.pc + 4)

/-- R182, R194, R219: scalar loads and stores of lines in L1. -/
def Obligations.CachedAccesses : Prop :=
  Sys2Proof.Parts.CachedLoads ∧ Sys2Proof.Parts.CachedStores

/-- R217, R219: any load whose translation and read succeed writes what it has read, extended, to `rt`, in the state that the read leaves. -/
def Sys2Proof.Parts.LoadsAnywhere : Prop :=
  ∀ (s s1 s2 : State) (rt rs1 : BitVec 5) (imm : BitVec 12) (loc : Loc) (v : Nat), Drained (here s) →
    ∀ f ∈ Loads rt rs1 imm,
      let va := eaOf (here s) rs1 imm
      va.toNat % f.2.1 = 0 → translate s.cur va f.2.1 .read s = .ok loc s1 → readAt s.cur loc f.2.1 va s1 = .ok (v, false) s2 →
      let r := if f.2.2 then BitVec.ofInt 64 (BitVec.ofNat (8 * f.2.1) v).toInt else BitVec.ofNat 64 v
      exec f.1 s = .next (let t := updCore s2 s.cur fun k => setS k rt r; updCore t t.cur fun k => retire k 4)

/-- R218, R219, R371, R381: any load that reads a poisoned word raises POISON at its own address with EINFO its address, after a CONSUMED record
with the physical address of the first poisoned word, and writes no register. -/
def Sys2Proof.Parts.PoisonedLoads : Prop :=
  ∀ (s s1 s2 : State) (rt rs1 : BitVec 5) (imm : BitVec 12) (loc : Loc) (v : Nat), Drained (here s) →
    ∀ f ∈ Loads rt rs1 imm,
      let va := eaOf (here s) rs1 imm
      va.toNat % f.2.1 = 0 → translate s.cur va f.2.1 .read s = .ok loc s1 → readAt s.cur loc f.2.1 va s1 = .ok (v, true) s2 →
      let rec2 := coreErr s2 s.cur 1 true (poisonedWord s2 s.cur loc f.2.1) va (whereAt (getCore s2 s.cur)).toNat 0
      exec f.1 s = .next (stopAt s (report s2 rec2) s.cur (controlTrap (trapInfo .poison va) (here s).pc))

/-- R217, R219: any store whose translation and write succeed goes on in the state that the write leaves. -/
def Sys2Proof.Parts.StoresAnywhere : Prop :=
  ∀ (s s1 s2 : State) (rt rs1 : BitVec 5) (imm : BitVec 12) (loc : Loc), Drained (here s) →
    ∀ f ∈ Stores rt rs1 imm,
      let va := eaOf (here s) rs1 imm
      va.toNat % f.2 = 0 → translate s.cur va f.2 .write s = .ok loc s1 →
      writeAt s.cur loc f.2 ((getS (here s) rt).toNat % 2 ^ (8 * f.2)) false va s1 = .ok () s2 →
      exec f.1 s = .next (updCore s2 s2.cur fun k => retire k 4)

/-- R217 to R219: scalar loads and stores wherever their translation leads, and the loads that meet poison. -/
def Obligations.AccessesAnywhere : Prop :=
  Sys2Proof.Parts.LoadsAnywhere ∧ Sys2Proof.Parts.PoisonedLoads ∧ Sys2Proof.Parts.StoresAnywhere

/-- R216, R219: a scalar load or store at an address that is no multiple of its size raises MISALIGN with EINFO the address, and one beyond
the partition in the own window SCRATCH_RANGE, at its own address, with no register and no memory changed. -/
def Sys2Proof.Parts.ScalarAccessFaults : Prop :=
  ∀ (s : State) (rt rs1 : BitVec 5) (imm : BitVec 12), Drained (here s) →
    let va := eaOf (here s) rs1 imm
    let faults (i : Instr) (x : Cause) : Prop := exec i s = .next (stopAt s s s.cur (controlTrap (trapInfo x va) (here s).pc))
    (∀ f ∈ Loads rt rs1 imm, va.toNat % f.2.1 ≠ 0 → faults f.1 .misalign) ∧
    (∀ f ∈ Stores rt rs1 imm, va.toNat % f.2 ≠ 0 → faults f.1 .misalign) ∧
    (∀ off, va = ownAddr off → off < 2 ^ 42 → Alive s s.cur →
      (∀ f ∈ Loads rt rs1 imm, off % f.2.1 = 0 → scratchSize (here s) < off + f.2.1 → faults f.1 .scratchRange) ∧
      (∀ f ∈ Stores rt rs1 imm, off % f.2 = 0 → scratchSize (here s) < off + f.2 → faults f.1 .scratchRange))

/-- R156, R217, R230, R261: a load waits, and nothing changes, while a replay posts, while a release or acquire waits, or while a posted
entry still has to write some of its bytes.
The bytes of a posted entry are the model's spans (log 32). -/
def Sys2Proof.Parts.LoadsWait : Prop :=
  ∀ (s : State) (rt rs1 : BitVec 5) (imm : BitVec 12), ∀ f ∈ Loads rt rs1 imm,
    ((here s).streams.rep.run ≠ none ∨ (here s).streams.deferred ≠ [] ∨
      (∃ e ∈ queued (here s), ∃ a n, spansOf (here s) e false = ([], [.bytes a n]) ∧
        Span.meets s.cur (.bytes (eaOf (here s) rs1 imm) f.2.1) (.bytes a n) = true)) →
    exec f.1 s = .next s

/-- R216, R217, R219, R230, R261: scalar accesses that fault, and loads that wait. -/
def Obligations.AccessesThatStop : Prop :=
  Sys2Proof.Parts.ScalarAccessFaults ∧ Sys2Proof.Parts.LoadsWait

/-! ### Atomics (R227 to R229) -/

/-- R209, R227, R229: an atomic on the core's own scratchpad window reads the word or doubleword, writes the new value and returns the old,
at every scope and order: with what the order does before and after it, and at die scope and wider served as a remote operation.
That the home serves the first issue is the model's choice (log 8). -/
def Obligations.ScratchAtomics : Prop :=
  ∀ (s : State) (so : ScopeOrder) (rd : BitVec 5) (rs1 off3 : BitVec 3) (rs2 : BitVec 5) (off : Nat),
    let s1 := atomicTicket (atomicReleased s so) so
    let far := scopeRemote so.scope
    Drained (here s) → LinkFree (here s) → OrderFree s so → LinkFree (getCore s1 s.cur) → s1.cur = s.cur → (far = true → HomeTakes s1 s.cur none) →
    ∀ f ∈ atomics so rd rs1 off3 rs2,
      let n := if f.2.2 then 8 else 4
      let key := sramKey s.cur off
      OwnScratch s (getS (here s) (rs1.setWidth 5) + off3.setWidth 64 * 4) off n →
      let s2 := if far then afterIssue s1 s.cur else s1
      CleanAt s2 key n →
      let old := bytesAt s2 key n
      let new := atomicWrites f.2.1 (8 * n) (BitVec.ofNat _ old) (BitVec.ofNat _ (getS (here s) rs2).toNat) (BitVec.ofNat _ (getS (here s) rd).toNat)
      let s3 := markWatched (storePut s2 key n new.toNat false) s.cur 0
      let s4 := if far then afterReply s3 s.cur none (getCore s1 s.cur).seq (BitVec.ofNat 64 old) else s3
      let t := updCore (atomicEnd s4 s.cur so) s.cur fun k => setS k rd (atomicReturns f.2.1 f.2.2 old)
      exec f.1 s = .next (updCore t t.cur fun k => retire k 4)

/-- R209, R227, R229: an atomic anywhere that forms no partial is the read-modify-write at its place between what its order does before and after,
served as a remote operation where another node performs it; the core's L1 copy of the line is stale with the reply; `rd` takes the old value.
That the home serves the first issue is the model's choice (log 8). -/
def Obligations.AtomicsAnywhere : Prop :=
  ∀ (s s0 sr s3 : State) (so : ScopeOrder) (rd : BitVec 5) (rs1 off3 : BitVec 3) (rs2 : BitVec 5) (loc : Loc) (old : Nat),
    Drained (here s) →
    ∀ f ∈ atomics so rd rs1 off3 rs2,
      let n := if f.2.2 then 8 else 4
      let va := getS (here s) (rs1.setWidth 5) + off3.setWidth 64 * 4
      va.toNat % n = 0 → translate s.cur va n .both s = .ok loc s0 → s0.cur = s.cur → OrderFree s0 so →
      (∀ d, declared (getCore s0 s.cur) loc = some d → atomMatches f.2.1 f.2.2 d.1 d.2.2 = false) →
      let far := rmwRemote (getCore s0 s.cur) s.cur loc so.scope
      let home := atomicHome (getCore s0 s.cur) loc so.scope
      (far = true → atomicReach (getCore s0 s.cur) s.cur loc so.scope va (atomicReleased s0 so) = .ok () sr ∧ sr.cur = s.cur ∧
        LinkFree (getCore s0 s.cur) ∧ LinkFree (getCore sr s.cur) ∧ HomeTakes sr s.cur home) →
      (far = false → sr = atomicReleased s0 so) →
      let s1 := atomicTicket sr so
      let s2 := if far then afterIssue s1 s.cur else s1
      rmwAt s.cur loc so.scope n va
        (cleanRmw fun x => (atomicWrites f.2.1 (8 * n) (BitVec.ofNat _ x) (BitVec.ofNat _ (getS (here s) rs2).toNat)
          (BitVec.ofNat _ (getS (here s) rd).toNat)).toNat) s2 = .ok (old, false) s3 →
      old < 2 ^ (8 * n) →
      let s4 := if far then afterReply s3 s.cur home (getCore s1 s.cur).seq (BitVec.ofNat 64 old) else s3
      let s4 := staleReply s4 s.cur loc so.scope
      let t := updCore (atomicEnd s4 s.cur so) s.cur fun k => setS k rd (atomicReturns f.2.1 f.2.2 old)
      exec f.1 s = .next (updCore t t.cur fun k => retire k 4)

/-- R203, R228: an `aadd` on a word of a region declared for add on INT32 updates the core's partial of the word, at every scope and
with order `.rlx`, and returns the partial as it stood; no byte of memory changes. The hub does not watch the region: where it does, the core's
mark of it is set as well (R295). -/
def Obligations.AtomicsOnPartials : Prop :=
  ∀ (s : State) (sc : Scope) (rd : BitVec 5) (rs1 off3 : BitVec 3) (rs2 : BitVec 5) (pa : Nat) (pg : Page) (opc : BitVec 3),
    let va := getS (here s) (rs1.setWidth 5) + off3.setWidth 64 * 4
    Drained (here s) → va.toNat % 4 = 0 → OnPage s va .both pa pg →
    declared (here s) (.mem pa pg) = some (.add, opc, .int32) →
    (∀ r, s.hub.regs.regions.find pg.region.toNat = some r → bitAt r 32 = false) →
    let old : Nat := match (here s).partials.find (pa / 4) with | some p => p.val.toNat | none => 0
    ∃ t, exec (.aadd ⟨sc, .rlx⟩ rd rs1 off3 rs2) s = .next t ∧
      (∃ p, (here t).partials.find (pa / 4) = some p ∧ p.val.toNat % 2 ^ 32 = (old + (getS (here s) rs2).toNat) % 2 ^ 32 ∧
        p.region = pg.region ∧ p.op = opc) ∧
      (rd ≠ 0 → getS (here t) rd = BitVec.ofInt 64 (BitVec.ofNat 32 old).toInt) ∧
      t.store = s.store ∧ t.l2 = s.l2 ∧ t.hub = s.hub ∧ (here t).l1 = (here s).l1 ∧ (∀ c, c ≠ s.cur → getCore t c = getCore s c)

/-! ### Releases, acquires, fences and ownership (R199, R201, R209, R230 to R234) -/

/-- The releases, acquires and fences with what each does (R209, R230, R231). -/
def Syncs (sc : Scope) (all : Bool) (g : Byte) : List (Instr × SyncOp) :=
  let named : Regions := if all then BitVec.allOnes 256 else BitVec.ofNat 256 (2 ^ g.toNat)
  [(.rel sc all g, .rel sc named), (.acq sc all g, .acq sc named), (.fence sc .acq, .fence sc .acq), (.fence sc .rel, .fence sc .rel),
    (.fence sc .ar, .fence sc .ar), (.fence sc .sc, .fence sc .sc)]

/-- R209, R230, R231: with no access outstanding a release, an acquire or a fence is performed at once, and the instruction goes on: `rel`
and `acq` over the named regions, a fence as its order's events, the wide `.sc` one with a ticket between them, which it takes only once its
release is over. The homes take what it pushes; RefusedReleases says the rest. That nothing outstanding lets it be performed at once is the model's schedule (log 31). -/
def Sys2Proof.Parts.SyncInstructions : Prop :=
  ∀ (s : State) (sc : Scope) (all : Bool) (g : Byte), Drained (here s) →
    let c := s.cur
    let named : Regions := if all then BitVec.allOnes 256 else BitVec.ofNat 256 (2 ^ g.toNat)
    (∀ p ∈ Syncs sc all g, p.1.wellFormed = true → SyncFree s c p.2 →
      exec p.1 s = .next (let t := runSync s c p.2; updCore t t.cur fun k => retire k 4)) ∧
    runSync s c (.rel sc named) = release s c sc named ∧ runSync s c (.acq sc named) = acquire s c sc named ∧
    runSync s c (.fence sc .acq) = acquire s c sc allRegions ∧ runSync s c (.fence sc .rel) = release s c sc allRegions ∧
    let r := release s c sc allRegions
    runSync s c (.fence sc .ar) = (if releaseLeft r c sc allRegions then r else acquire r c sc allRegions) ∧
    runSync s c (.fence sc .sc) = (if releaseLeft r c sc allRegions then r else acquire (takeTicket r c sc) c sc allRegions) ∧
    (releaseLeft r c sc allRegions = true → (syncTurn s c (.fence sc .sc)).2 = some (.fence sc .sc))

/-- R374, R375, R389, R393: with no access and no failed push outstanding, a release, an acquire or a fence whose first push that is refused goes to a
lost die raises DIE_LOST with EINFO the die, whose bit of TDIES is set; one to a home that is not ready raises PROTECT, with a free EINFO (log 49);
one to a fenced core of the own gang raises GANG_BROKEN with that core's coordinates, and of another PROTECT; and one to a page that a migration
moves waits. -/
def Sys2Proof.Parts.RefusedReleases : Prop :=
  ∀ (s : State) (sc : Scope) (all : Bool) (g : Byte), Drained (here s) →
    (∀ m ∈ s.hub.pushes, m.failed = true → m.core ≠ s.cur ∧ m.cause ≠ s.cur) →
    let traps (t : State) (x : Cause) (v : DWord) : Out := .next (stopAt s t s.cur (controlTrap (trapInfo x v) (here s).pc))
    ∀ p ∈ Syncs sc all g, p.1.wellFormed = true →
      ∀ line r, (pushTargets s (p.2.pushes s s.cur)).find? (fun e => e.2.isSome) = some (line, some r) →
        match r with
        | .die d => exec p.1 s = traps (markDie s s.cur (16 + mdOf line)) .dieLost (BitVec.ofNat 64 d)
        | .notReady => ∃ n einfo, exec p.1 s = traps { s with free := n } .protect einfo
        | .fenced h =>
          (fencedCause s s.cur h = .gangBroken → exec p.1 s = traps s .gangBroken (BitVec.ofNat 64 (coordBits h))) ∧
          (fencedCause s s.cur h ≠ .gangBroken → ∃ n einfo, exec p.1 s = traps { s with free := n } .protect einfo)
        | .held => exec p.1 s = .next (noteLate s line)

/-- R376, R377: a release, an acquire or a fence whose one push loses its request flit leaves everything as it was but the outstanding push, with
the number that it has taken; the instruction waits while its pushes are outstanding, and where the third reissue of one has timed out it raises
REMOTE_TIMEOUT, with a free EINFO (log 49). -/
def Sys2Proof.Parts.LostPushes : Prop :=
  ∀ (s : State) (sc : Scope) (all : Bool) (g : Byte), Drained (here s) →
    let c := s.cur
    ∀ p ∈ Syncs sc all g, p.1.wellFormed = true → (∀ e ∈ pushTargets s (p.2.pushes s c), e.2 = none) →
      (∀ d q fs, s.hub.pushes = [] → p.2.pushes s c = [(d, .line q)] → (Push.line q).sends s d = true → lineBusy s d q = false →
        (getCore s d).flits = false :: fs → seqBusy s d (getCore s d).seq = false →
        let u := markDie s d (16 + mdOf q)
        let m : PushMsg :=
          { core := d, cause := c, push := .line q, load := (Push.line q).load u d, seq := (getCore s d).seq, way := { sent := s.time, tries := 1 }, applied := false
            held := false, failed := false }
        exec p.1 s = .next (awaitPush (updCore (updCore u d fun k => { k with seq := (getCore s d).seq + 1 }) d fun k => { k with flits := fs }) m)) ∧
      ((∀ m ∈ s.hub.pushes, m.failed = true → m.core ≠ c ∧ m.cause ≠ c) → pushPending s c = true →
        (∀ q ∈ p.2.pushes s c, q.2.sends s q.1 = true ∧ lineBusy s q.1 q.2.at = true) → exec p.1 s = .next s) ∧
      (∀ m, (s.hub.pushes.find? fun m => m.failed && (m.core == c || m.cause == c)) = some m →
        let u := { s with hub := { s.hub with pushes := s.hub.pushes.filter fun x => x != m } }
        ∃ n einfo, exec p.1 s = .next (stopAt s { u with free := n } c (controlTrap (trapInfo .remoteTimeout einfo) (here s).pc)))

/-- R230: while a posted entry that accesses memory has not completed, a release commits, the control thread goes on, and the release waits. -/
def Sys2Proof.Parts.ReleaseWaitsForAccesses : Prop :=
  ∀ (s : State) (sc : Scope), Quiet (here s) →
    (∃ e ∈ queued (here s), touchesMemory (here s) e = true ∧ postedBefore e.seq (here s).streams.nextSeq = true) →
    exec (.rel sc true 0) s =
      commits s fun k => { k with streams := { k.streams with
        deferred := [{ op := .rel sc allRegions, seq := k.streams.nextSeq }] } }

/-- R207, R211: the acquire that an atomic, a lock, a barrier or another instruction makes is performed at once where no operation waits, no posted
entry reads memory, and its pushes find their way; behind a posted read it waits, in program order. -/
def Sys2Proof.Parts.AcquiresFollowReads : Prop :=
  ∀ (s : State) (c : CoreId) (sc : Scope), (getCore s c).streams.deferred = [] →
    ((∀ e ∈ queued (getCore s c), readsMemory (getCore s c) e = false) → SyncFree s c (.acq sc allRegions) →
      joinSync s c (.acq sc allRegions) = acquire s c sc allRegions) ∧
    ((∃ e ∈ queued (getCore s c), readsMemory (getCore s c) e = true ∧ postedBefore e.seq (getCore s c).streams.nextSeq = true) →
      joinSync s c (.acq sc allRegions) = updCore s c fun k => { k with streams := { k.streams with
        deferred := [{ op := .acq sc allRegions, seq := k.streams.nextSeq }] } })

/-- R209, R211, R230, R231: releases, acquires and fences, those that are refused, the pushes that are lost, and the operations that wait. -/
def Obligations.Synchronization : Prop :=
  Sys2Proof.Parts.SyncInstructions ∧ Sys2Proof.Parts.RefusedReleases ∧ Sys2Proof.Parts.LostPushes ∧
  Sys2Proof.Parts.ReleaseWaitsForAccesses ∧ Sys2Proof.Parts.AcquiresFollowReads

/-- R232: `own` and `disown` over no byte do nothing. Over bytes of one line of a HOME 00 page, `own` of a line that the core does not own
and `disown` of a line that it holds are one remote operation each: what `ownHome` and `disownHome` do at the home. Where no other core owns the
line, no copy of it stands in the cluster home, and there is room, `own` registers the core and leaves its copy stale and OWNED; where no other
core owns it, `disown` pushes the dirty bytes and ends the registration. A line that is already as asked is left alone, and so is one of a page
of another HOME. That the home serves the first issue is the model's choice (log 8). -/
def Obligations.OwnershipOfLines : Prop :=
  ∀ (s : State) (sc : Scope) (rs1 rs2 : BitVec 5), sc.isWide = true → Quiet (here s) → LinkFree (here s) →
    let va := getS (here s) rs1
    let n := (getS (here s) rs2).toNat
    (n = 0 → exec (.own sc rs1 rs2) s = commits s id ∧ exec (.disown sc rs1 rs2) s = commits s id) ∧
    (∀ pa pg, OnPage s va .both pa pg → pg.home ≠ 0 → va.toNat % 128 + n ≤ 128 →
      exec (.own sc rs1 rs2) s = commits s id ∧ exec (.disown sc rs1 rs2) s = commits s id) ∧
    (∀ pa pg, OnPage s va .both pa pg → pg.home = 0 → 0 < n → va.toNat % 128 + n ≤ 128 →
      let line := lineOf pa
      (ownsLine s s.cur line = true → exec (.own sc rs1 rs2) s = commits s id) ∧
      (holdsLine s s.cur line = false → exec (.disown sc rs1 rs2) s = commits s id) ∧
      let r := reached s s.cur line
      (homeRefuses s line = none → HomeTakes r s.cur (some (sliceOf line)) →
        let w := afterIssue r s.cur
        let ends (i : Instr) (u : State) : Prop :=
          exec i s = .next (let t := afterReply u s.cur (some (sliceOf line)) (here r).seq 0; updCore t t.cur fun k => retire k 4)
        (ownsLine s s.cur line = false →
          (∀ u, ownHome s.cur sc line pg va w = .ok () u → ends (.own sc rs1 rs2) u) ∧
          (otherOwner w (some s.cur) line = none → (getCore w (clusterHome s.cur line)).homes.find line = none →
            (sliceOwners w line).length < 4096 →
            l1Place (getCore w s.cur) line (match (getCore w s.cur).l1.find line with | some l => l.lodge | none => false) = true →
            sc ≠ .sys ∨ isForeign line = false → ends (.own sc rs1 rs2) (ownLine w s.cur line pg))) ∧
        (holdsLine s s.cur line = true →
          (∀ u, disownHome s.cur sc line w = .ok () u → ends (.disown sc rs1 rs2) u) ∧
          (otherOwner w (some s.cur) line = none → homeOut w s.cur line = false → sc ≠ .sys ∨ isForeign line = false →
            ends (.disown sc rs1 rs2) (disownLine (pushOwn w s.cur line) s.cur line)))))

/-- R213, R233: `drain` completes once every copy of the core into the named memory has been written, whose destinations' lines are then
stale in its L1; while one has not, it waits and nothing changes. -/
def Sys2Proof.Parts.DrainWaitsForCopies : Prop :=
  ∀ (s : State) (kind : DrainKind), Quiet (here s) →
    let xs := copiesInto s s.cur kind
    let pushes := xs.flatMap (destPushes s)
    let s1 := sendPushes s s.cur pushes
    (xs.all Copy.done = true → PushFree s pushes → pushesLeft s1 s.cur pushes = false →
      exec (.drain kind) s =
        .next (let t := xs.foldl staleDest s1
               let t := { t with hub := { t.hub with copies := t.hub.copies.filter fun x => !(x.core == s.cur && x.orphan && x.done) } }
               updCore t t.cur fun k => retire k 4)) ∧
    (xs.all Copy.done = false → exec (.drain kind) s = .next s)

/-- R234: `pref` always goes on, in the state that the prefetch leaves: an address in a scratchpad window, a page that refuses the read and a
line that stands fresh in L1 leave everything as it was. -/
def Sys2Proof.Parts.PrefetchNeverFaults : Prop :=
  ∀ (s : State) (l2 : Bool) (rs1 : BitVec 5), Quiet (here s) →
    let va := getS (here s) rs1
    (∃ t, prefetch s.cur l2 va s = .ok () t ∧ exec (.pref l2 rs1) s = .next (updCore t t.cur fun k => retire k 4)) ∧
    (∀ off, LinkFree (here s) → va = ownAddr off → off < 2 ^ 42 → exec (.pref l2 rs1) s = commits s id) ∧
    (∀ e bits, LinkFree (here s) → TlbHit s va e bits → pageAllows (here s).level .read (pageOf e bits) (leafBase e + va.toNat % 2 ^ bits) = false →
      exec (.pref l2 rs1) s = commits s id) ∧
    (∀ pa pg l, LinkFree (here s) → OnPage s va .read pa pg → cachedIn pa pg = true → (here s).l1.find (lineOf pa) = some l → l.fresh s.time = true →
      exec (.pref false rs1) s = commits s id)

/-- R213, R233, R234: `drain` and `pref`. -/
def Obligations.DrainsAndPrefetches : Prop :=
  Sys2Proof.Parts.DrainWaitsForCopies ∧ Sys2Proof.Parts.PrefetchNeverFaults

/-! ### Locks and transactions (R235 to R237) -/

/-- R197, R207, R235: no posted entry still accesses the word. A `qlock` that finds the word 0 and no waiter writes 1 + the core's index and completes with an acquire; one that finds another
holder and a place free joins the waiters and waits, once its slice has a queue for the word; one that finds 64 waiters is refused and keeps the
tick; one that finds itself the holder raises QUEUE_FAULT. The word is met at its home once the remote operation has been issued.
That the home serves the first issue is the model's choice (log 8). -/
def Sys2Proof.Parts.QlockAtHome : Prop :=
  ∀ (s : State) (sc : Scope) (rs1 : BitVec 5) (pa v : Nat) (pg : Page) (s2 : State), sc.isWide = true → Quiet (here s) → LinkFree (here s) →
    (here s).streams.qlockQueued = false → (here s).streams.qlockRefused = none →
    let c := s.cur
    let va := getS (here s) rs1
    let me := 1 + c.toNat
    let w := pa / 4
    let home := some (sliceOf (lineOf pa))
    let r := reached s c (lineOf pa)
    conflicts s c (fun _ => true) [] [.bytes va 4] = false →
    va.toNat % 4 = 0 → OnPage s va .both pa pg → homeRefuses s (lineOf pa) = none → HomeTakes r c home → (∀ e ∈ s.hub.lockWaits, e.1 ≠ w) →
    rmwAt c (.mem pa pg) sc 4 va (grantRmw c (lockWaiters s w).isEmpty) (afterIssue r c) = .ok (v, false) s2 →
    let ws := lockWaiters s2 w
    let taken : Prop := v = 0 ∧ lockWaiters s w = []
    (taken →
      let t := afterReply (updCore (leaveQueue s2 c w) c fun k => setLock k w true true) c home (here r).seq 0
      AcquireFree t c sc allRegions →
      exec (.qlock sc rs1) s =
        .next (let t := joinSync (updCore t c fun k => setLock k 0 false false) c (.acq sc allRegions); updCore t t.cur fun k => retire k 4)) ∧
    (¬taken → v ≠ me → ws.length < 64 →
      ∃ t, exec (.qlock sc rs1) s = .next t ∧ t.store = s2.store ∧ t.l2 = s2.l2 ∧ (getCore t c).pc = (getCore s2 c).pc ∧
        (lockBlocked s2 c w = false → lockWaiters t w = ws ++ [(c, pg.region)] ∧ t.hub.lockWaits = (leaveQueue s2 c w).hub.lockWaits ∧
          (getCore t c).streams.qlockQueued = true ∧ (getCore t c).streams.qlockWord = w ∧ (getCore t c).streams.qlockGranted = false) ∧
        (lockBlocked s2 c w = true → lockWaiters t w = ws ∧ t.hub.lockWaits = (waitForQueue s2 c w).hub.lockWaits ∧
          (getCore t c).streams = (getCore s2 c).streams)) ∧
    (¬taken → v ≠ me → 64 ≤ ws.length → (getCore s2 c).streams.qlockGranted = false →
      ∃ t, exec (.qlock sc rs1) s = .next t ∧ lockWaiters t w = ws ∧ t.store = s2.store ∧ t.l2 = s2.l2 ∧
        (getCore t c).streams = { (getCore s2 c).streams with qlockRefused := some s2.time } ∧
        (getCore t c).pc = (getCore s2 c).pc) ∧
    (v = me → exec (.qlock sc rs1) s =
      .next (stopAt s (updCore s2 c fun k => setLock k 0 false false) c (controlTrap (trapInfo .queueFault 0) (here s).pc)))

/-- R207, R235, R356: a `qlock` waits for the posted entries that still access its word. One whose request is queued waits while it has no grant, and with the grant completes with an acquire at its scope. One whose
core has lost sight of the word completes where the home, which folds the word's partials first (R204), finds its mark there (the model's choice,
log 55). -/
def Sys2Proof.Parts.QlockGrantCompletes : Prop :=
  ∀ (s : State) (sc : Scope) (rs1 : BitVec 5) (pa : Nat) (pg : Page), sc.isWide = true → Quiet (here s) → LinkFree (here s) →
    (here s).streams.qlockQueued = true → (getS (here s) rs1).toNat % 4 = 0 → OnPage s (getS (here s) rs1) .both pa pg →
    (conflicts s s.cur (fun _ => true) [] [.bytes (getS (here s) rs1) 4] = true → exec (.qlock sc rs1) s = .next s) ∧
    (conflicts s s.cur (fun _ => true) [] [.bytes (getS (here s) rs1) 4] = false →
    ((here s).streams.qlockWord = pa / 4 → (here s).streams.qlockGranted = false → exec (.qlock sc rs1) s = .next s) ∧
    ((here s).streams.qlockWord = pa / 4 → (here s).streams.qlockGranted = true → AcquireFree s s.cur sc allRegions →
      exec (.qlock sc rs1) s =
        .next (let t := joinSync (updCore s s.cur fun k => setLock k 0 false false) s.cur (.acq sc allRegions)
               updCore t t.cur fun k => retire k 4)) ∧
    (let o := openLock s (pa / 4)
     (here s).streams.qlockWord ≠ pa / 4 → lockAt o (pa / 4) = 1 + s.cur.toNat → AcquireFree (resumeLock s s.cur (pa / 4)) s.cur sc allRegions →
      exec (.qlock sc rs1) s =
        .next (let t := joinSync (updCore o s.cur fun k => setLock k 0 false false) s.cur (.acq sc allRegions)
               updCore t t.cur fun k => retire k 4)))

/-- R235: a `qunlock` that finds the core's own mark in the word releases at its scope and writes 0 there; one that finds anything else raises
QUEUE_FAULT at its own address. -/
def Sys2Proof.Parts.QunlockAtHome : Prop :=
  ∀ (s : State) (sc : Scope) (rs1 : BitVec 5) (pa v : Nat) (pg : Page) (s2 : State), sc.isWide = true → Drained (here s) → LinkFree (here s) →
    let c := s.cur
    let va := getS (here s) rs1
    let me := 1 + c.toNat
    let line := lineOf pa
    let home := some (sliceOf line)
    va.toNat % 4 = 0 → OnPage s va .both pa pg → homeRefuses s line = none →
    rmwAt c (.mem pa { pg with ac := 0 }) sc 4 va (fun _ _ => none) (reached s c line) = .ok (v, false) s2 →
    (v = me → s2.cur = c → ReleaseFree s2 c sc allRegions →
      let r := reached (release s2 c sc allRegions) c line
      r.cur = c → homeRefuses (release s2 c sc allRegions) line = none → LinkFree (here r) → HomeTakes r c home →
      ∀ s3, rmwAt c (.mem pa pg) sc 4 va (freeRmw c) (afterIssue r c) = .ok (me, false) s3 →
        exec (.qunlock sc rs1) s =
          .next (let t := staleReply (afterReply s3 c home (here r).seq 0) c (.mem pa pg) sc; updCore t t.cur fun k => retire k 4)) ∧
    (v ≠ me → exec (.qunlock sc rs1) s = .next (stopAt s s2 c (controlTrap (trapInfo .queueFault 0) (here s).pc)))

/-- R235, R295: a write of 0 to a lock word of HBM with waiters, as its home makes it, grants the first of them: the word takes 1 + its index, it
leaves the waiters, its request is granted, and the region by which it has named the word is marked where it is watched. -/
def Sys2Proof.Parts.ZeroGrantsHeadWaiter : Prop :=
  ∀ (s : State) (w : Nat) (h : CoreId) (g : Byte) (rest : List (CoreId × Byte)), isForeign (w / 32) = false →
    s.hub.qlocks.find w = some ((h, g) :: rest) → s.l2.length < 32768 →
    (getCore s h).streams.qlockQueued = true → (getCore s h).streams.qlockWord = w →
    let t := grantAt s w
    lockWaiters t w = rest ∧ lineWord (homeLine t (w / 32)).1 (w % 32) = BitVec.ofNat 32 (1 + h.toNat) ∧
    (getCore t h).streams = { (getCore s h).streams with qlockGranted := true } ∧
    (∀ r, s.hub.regs.regions.find g.toNat = some r → bitAt r 32 = true → bitAt (getCore t h).tables.marks g.toNat = true) ∧
    (∀ c, c ≠ h → getCore t c = getCore s c) ∧ t.store = s.store

/-- R235: the queued locks at their homes. -/
def Obligations.Locks : Prop :=
  Sys2Proof.Parts.QlockAtHome ∧
  Sys2Proof.Parts.QlockGrantCompletes ∧
  Sys2Proof.Parts.QunlockAtHome ∧
  Sys2Proof.Parts.ZeroGrantsHeadWaiter

/-- R237: `xbeg` opens a transaction with its descriptor's address, no compares and BAD clear; `xcmp` appends a pair to an open one, a ninth
sets BAD, and without one does nothing; neither touches memory. -/
def Sys2Proof.Parts.TransactionState : Prop :=
  ∀ (s : State) (rs1 rs2 : BitVec 5), (here s).streams.rep.run = none →
    let t := (here s).streams.tx
    let sets (i : Instr) (x : Transaction) : Prop :=
      exec i s = commits s fun k => { k with streams := { k.streams with tx := x } }
    sets (.xbeg rs1) { isOpen := true, desc := getS (here s) rs1, pairs := [], bad := false, request := none } ∧
    (t.isOpen = false → sets (.xcmp rs1 rs2) t) ∧
    (t.isOpen = true → t.pairs.length < 8 →
      sets (.xcmp rs1 rs2) { t with pairs := t.pairs ++ [(getS (here s) rs1, BitVec.ofNat 32 (getS (here s) rs2).toNat)] }) ∧
    (t.isOpen = true → 8 ≤ t.pairs.length → sets (.xcmp rs1 rs2) { t with bad := true })

/-- R237: `xend` with no open transaction gives 2; with one it releases at `.pkg`, decides, commits the words of the descriptor as one request,
acquires at `.pkg`, closes the transaction and writes the outcome, 2 where nothing was to be committed; and a fault of the decision or of the
commit leaves the transaction open. -/
def Sys2Proof.Parts.XendDecides : Prop :=
  ∀ (s : State) (rd : BitVec 5), Drained (here s) →
    let t := (here s).streams.tx
    (t.isOpen = false → exec (.xend rd) s = .next (writeScalar s rd 2)) ∧
    (t.isOpen = true → (here s).doing = none → (here s).remote = none → ReleaseFree s s.cur .pkg allRegions →
      let s1 := release s s.cur .pkg allRegions
      AcquireFree s1 s.cur .pkg allRegions →
      let ends (v : DWord) (s2 : State) : Prop :=
        exec (.xend rd) s =
          .next (let u := updCore (joinSync s2 s.cur (.acq .pkg allRegions)) s.cur fun k =>
                   setTx k { k.streams.tx with isOpen := false, request := none }
                 let u := updCore u s.cur fun k => setS k rd v
                 updCore u u.cur fun k => retire k 4)
      let traps (x : TrapInfo) (s2 : State) : Prop := exec (.xend rd) s = .next (stopAt s s2 s.cur (controlTrap x (here s).pc))
      (∀ s2, txDecide s.cur t s1 = .ok none s2 → ends 2 s2) ∧
      (∀ q s2, txDecide s.cur t s1 = .ok (some q) s2 →
        let s2 := updCore s2 s.cur fun k => setTx k { k.streams.tx with request := some q }
        (∀ v s3, txSend s.cur t.desc q s2 = .ok v s3 → ends v s3) ∧ (∀ x s3, txSend s.cur t.desc q s2 = .error (.trap x) s3 → traps x s3)) ∧
      (∀ x s2, txDecide s.cur t s1 = .error (.trap x) s2 → traps x s2))

/-- R237: what an open transaction whose descriptor stands in the core's own scratchpad window with N = 0 decides: nothing to commit where BAD is
set or a reserved bit of the header is, and else, where it compares nothing, a request of no word, which takes a ticket and answers 1. -/
def Sys2Proof.Parts.EmptyTransactions : Prop :=
  ∀ (s : State) (t : Transaction) (off : Nat), OwnScratch s t.desc off 16 → CleanAt s (sramKey s.cur off) 16 → LinkFree (here s) →
    let hdr := bytesAt s (sramKey s.cur off) 16
    let q : TxRequest := { words := [], expected := [], values := [] }
    (t.bad = true → txDecide s.cur t s = .ok none s) ∧
    (hdr % 16 = 0 → hdr ≠ 0 → txDecide s.cur t s = .ok none s) ∧
    (t.bad = false → hdr = 0 → t.pairs = [] → txDecide s.cur t s = .ok (some q) s) ∧
    (HomeTakes s s.cur none → ∃ u, txSend s.cur t.desc q s = .ok 1 u ∧ u.store = s.store ∧ u.l2 = s.l2 ∧
      u.hub.regs.hubTicket = s.hub.regs.hubTicket + 1)

/-- R237: the transaction of a core. -/
def Obligations.Transactions : Prop :=
  Sys2Proof.Parts.TransactionState ∧ Sys2Proof.Parts.XendDecides ∧ Sys2Proof.Parts.EmptyTransactions

/-! ### Posting to the streams (R32, R53, R54, R109, R149 to R152, R155, R300) -/

/-- R32, R53, R109: a frame instruction, a vector access or another instruction of the vector stream is posted with what it captures, a C2
form as its V3 equivalent, where no replay posts and the queue has room for it; it waits otherwise. An entry that finds its queue empty
executes at once, unless the stream is lazy (log 7). -/
def Obligations.VectorPosts : Prop :=
  ∀ (s : State) (i : Instr) (len : Nat), vectorLength i = some len → (asV3 i).wellFormed = true →
    let k := here s
    let posted := updCore s s.cur fun k => postsVector k (postedEntry k (asV3 i)) len
    (k.streams.rep.run = none → k.streams.vq.length < 128 →
      exec i s = .next (if k.streams.vq = [] ∧ k.streams.lazyV = false then runVectorHead posted s.cur else posted)) ∧
    (k.streams.rep.run ≠ none ∨ 128 ≤ k.streams.vq.length → exec i s = .next s)

/-- R32, R109, R155: an instruction of the matrix stream is posted with what it captures where no replay posts and the queue of 64 has room;
it waits otherwise; `mma.ring` and `mpass` raise ILLEGAL_OP outside a 6 × 8 plot.
That an idle stream executes at once is the model's choice (log 7). -/
def Obligations.MatrixPosts : Prop :=
  ∀ (s : State) (i : Instr), matrixPosted i = true → i.wellFormed = true →
    let k := here s
    let plot : Prop := (slice k.tregs.foot 32 8 : Byte) = 6 ∧ (slice k.tregs.foot 40 8 : Byte) = 8
    let posted := updCore s s.cur fun k => postsMatrix k (postedEntry k i)
    (k.streams.rep.run = none → (ringOnly i = true → plot) → k.streams.mq.length < 64 →
      exec i s = .next (if k.streams.mq = [] ∧ k.streams.lazyM = false then runMatrixHead posted s.cur else posted)) ∧
    (k.streams.rep.run = none → ringOnly i = true → ¬plot →
      exec i s = .next (stopAt s s s.cur (controlTrap (trapInfo .illegalOp (encodingOf i)) k.pc))) ∧
    (k.streams.rep.run ≠ none ∨ ((ringOnly i = true → plot) ∧ 64 ≤ k.streams.mq.length) → exec i s = .next s)

/-- R300: `pin` of a book entry that the core holds, VALID and with RES its row, is posted with the image, its VL, PROT and the scalars that
the image names; of any other it raises FORMAT. R150: `vfb` is posted with the block that it has fetched and every VP at its first
instruction. -/
def Sys2Proof.Parts.PinsAndBlocksPost : Prop :=
  ∀ (s : State),
    let k := here s
    k.streams.rep.run = none → k.streams.vq.length < 128 →
    (∀ (n : BitVec 6) (e : BitVec 5) (v : BitVec 512), k.tables.book[e.toNat] = some v →
      (v.toNat.testBit 287 = true → (slice v 260 6 : BitVec 6) = n →
        ∃ img : BitVec 512,
          exec (.pin n e) s =
            .next (eagerVector (updCore s s.cur fun k => postsVector k { postedEntry k (.pin n e) with image := img } 4) s.cur) ∧
          (slice img 0 256 : BitVec 256) = slice v 0 256 ∧ (slice img 266 7 : BitVec 7) = k.tregs.vl ∧
          (slice img 273 1 : BitVec 1) = k.tregs.prot ∧
          (∀ j < 3, (slice img (320 + 64 * j) 64 : DWord) = getS k (slice v (288 + 5 * j) 5))) ∧
      (v.toNat.testBit 287 = false ∨ (slice v 260 6 : BitVec 6) ≠ n →
        exec (.pin n e) s = .next (stopAt s s s.cur (controlTrap (trapInfo .format 0) k.pc)))) ∧
    (∀ (n : BitVec 5) (off : BitVec 15) (s' : State) (image : List Byte), (k.streams.vq.filter fun e => e.vp.isSome).length < 16 →
      let target := k.pc + BitVec.ofInt 64 (off.toInt * 2)
      fetchBlock s.cur (n.toNat + 1) target s = .ok image s' → s'.cur = s.cur → (here s').streams.vq.length < 128 →
      let e := { postedEntry k (.vfb n off) with vp := some { base := target, image := image, pcs := Vector.replicate 64 target, done := 0, busy := none } }
      exec (.vfb n off) s = .next (eagerVector (updCore s' s.cur fun k => postsVector k e 4) s.cur))

/-- R150, R152: inside a block `vpb` sends a VP to its target where the VP's bit of the mask is set and else past itself, and `vpend` finishes
it. The control thread takes ILLEGAL_OP at either (the model's choice, log 23). -/
def Sys2Proof.Parts.BlockBranches : Prop :=
  ∀ (s : State) (n : BitVec 3) (off : BitVec 15),
    (∀ (c : CoreId) (e : Entry) (pc : DWord) (vp : Nat), vp < 64 →
      (let next := if (getK (getCore s c) n).toNat.testBit vp then pc + BitVec.ofInt 64 (off.toInt * 2) else pc + 4
       stepVp c e pc (.vpb n off) 4 vp s = .ok () (updCore s c fun k => modVp k fun v => { v with pcs := v.pcs.setIfInBounds vp next })) ∧
      ∃ t, stepVp c e pc .vpend 4 vp s = .ok () t ∧
        ∀ h v, (getCore s c).streams.vq.head? = some h → h.vp = some v →
          ∃ h' v', (getCore t c).streams.vq.head? = some h' ∧ h'.vp = some v' ∧ v'.pcs = v.pcs ∧
            ∀ i < 64, v'.done.toNat.testBit i = (v.done.toNat.testBit i || i == vp)) ∧
    exec (.vpb n off) s = .next (stopAt s s s.cur (controlTrap (trapInfo .illegalOp (encodingOf (.vpb n off))) (here s).pc)) ∧
    exec .vpend s = .next (stopAt s s s.cur (controlTrap (trapInfo .illegalOp (encodingOf .vpend)) (here s).pc))

/-- R150 to R153, R298, R299: pins and VP blocks as they are posted, and the branches inside a block. -/
def Obligations.PinsAndBlocks : Prop :=
  Sys2Proof.Parts.PinsAndBlocksPost ∧ Sys2Proof.Parts.BlockBranches

/-! ### Frame rows and masks (R12, R77, R94, R128, R132, R133, R136 to R138, R148) -/

/-- R94, R128, R132: a lane operation on rows of one tag, posted to an idle stream, leaves in its destination row the operation of each covered
element that the governing mask holds, keeps the others, and gives the row the operating tag; nothing else changes but the PC and counters.
That an idle stream executes at once is the model's choice (log 7). -/
def Obligations.LaneResults : Prop :=
  ∀ (s : State) (d a b : BitVec 6) (t : HWord),
    let k := here s
    let f := tagFmt t
    let w := fmtWidth f
    let el (r : BitVec 6) (e : Nat) : Nat := elemOf (getRow k r).row.bits.toNat w e
    VectorIdle k → Unpinned k → CleanRow k d → CleanRow k a → CleanRow k b →
    t ≠ 0 → (getRow k a).row.tag = t → (getRow k b).row.tag = t →
    ∀ p ∈ laneForms (.row d) (.row a) (.row b), p.2.accepts f = true → (p.2 = .fma → (getRow k d).row.tag = t) → p.2.resultTag t = t →
      ∃ u, exec p.1 s = .next u ∧ OnlyHere s u ∧ VectorFrame k (here u) ∧
        (here u).files.k = k.files.k ∧ (here u).pc = k.pc + 4 ∧
        (∀ r, r ≠ d → getRow (here u) r = getRow k r) ∧
        (getRow (here u) d).row.tag = t ∧ (getRow (here u) d).row.psn = 0 ∧ (getRow (here u) d).res = .dirty ∧
        (∀ e < 2048 / w, elemOf (getRow (here u) d).row.bits.toNat w e =
          if w * (e + 1) ≤ 32 * k.tregs.vl.toNat ∧ (getK k k.tregs.ksel).toNat.testBit (w * e / 32) = true
          then laneOp p.2 f (el a e) (el b e) (el d e) % 2 ^ w else el d e)

/-- R136, R138: `vclr`, `vid` and `vsel` on rows, posted to an idle stream: a zero row without a tag; each element's number under IDX32; and
each covered element from A or B by the governing mask.
That an idle stream executes at once is the model's choice (log 7). -/
def Sys2Proof.Parts.RowsMade : Prop :=
  ∀ (s : State) (d a b : BitVec 6) (t : HWord),
    let k := here s
    let on (w e : Nat) : Bool := (getK k k.tregs.ksel).toNat.testBit (w * e / 32)
    let el (r : BitVec 6) (w e : Nat) : Nat := elemOf (getRow k r).row.bits.toNat w e
    let makes (i : Instr) (w : Nat) (tag : HWord) (res : Residency) (g : Nat → Nat) : Prop :=
      ∃ u, exec i s = .next u ∧ OnlyHere s u ∧ VectorFrame k (here u) ∧ (here u).files.k = k.files.k ∧ (here u).pc = k.pc + 4 ∧
        (∀ r, r ≠ d → getRow (here u) r = getRow k r) ∧
        (getRow (here u) d).row.tag = tag ∧ (getRow (here u) d).row.psn = 0 ∧ (getRow (here u) d).res = res ∧
        ∀ e < 2048 / w, elemOf (getRow (here u) d).row.bits.toNat w e = g e
    VectorIdle k → Unpinned k → CleanRow k d →
    makes (.vclr (.row d)) 32 0 .zero (fun _ => 0) ∧
    makes (.vid (.row d)) 32 (plainTag .idx32) .dirty (fun e => if e < k.tregs.vl.toNat ∧ on 32 e = true then e else el d 32 e) ∧
    (CleanRow k a → CleanRow k b → t ≠ 0 → tagFmt t ≠ .none → (getRow k a).row.tag = t → (getRow k b).row.tag = t →
      let w := fmtWidth (tagFmt t)
      makes (.vsel (.row d) (.row a) (.row b)) w t .dirty fun e =>
        if w * (e + 1) ≤ 32 * k.tregs.vl.toNat then (if on w e = true then el a w e else el b w e) else el d w e)

/-- R137, R148: masks in the vector stream, posted to an idle stream: `kbool` combines two masks bit by bit through its truth table, `kset` takes
a captured scalar whole, and a compare of rows sets the bit of every cell whose element is covered, active and compares true, and clears the
others. No row changes.
That an idle stream executes at once is the model's choice (log 7). -/
def Sys2Proof.Parts.MasksMade : Prop :=
  ∀ (s : State) (kd ka kb : BitVec 3) (f : BitVec 4) (rs1 : BitVec 5) (a b : BitVec 6) (t : HWord),
    let k := here s
    let makes (i : Instr) (g : Nat → Bool) : Prop :=
      ∃ u, exec i s = .next u ∧ OnlyHere s u ∧ VectorFrame k (here u) ∧ (here u).files.x = k.files.x ∧ (here u).pc = k.pc + 4 ∧
        (∀ n, n ≠ kd → getK (here u) n = getK k n) ∧ ∀ i < 64, (getK (here u) kd).toNat.testBit i = g i
    VectorIdle k → Unpinned k → kd ≠ 0 →
    makes (.kbool kd ka kb f) (fun i =>
      f.toNat.testBit (2 * (if (getK k ka).toNat.testBit i then 1 else 0) + (if (getK k kb).toNat.testBit i then 1 else 0))) ∧
    makes (.kset kd rs1) (fun i => (getS k rs1).toNat.testBit i) ∧
    (CleanRow k a → CleanRow k b → t.toNat < 16 → t ≠ 0 → (getRow k a).row.tag = t → (getRow k b).row.tag = t →
      ∀ p ∈ [(Instr.vceq kd (.row a) (.row b), CmpOp.ceq), (.vcne kd (.row a) (.row b), .cne), (.vclt kd (.row a) (.row b), .clt),
        (.vcle kd (.row a) (.row b), .cle)], p.2.accepts (tagFmt t) = true →
      let w := fmtWidth (tagFmt t)
      let el (r : BitVec 6) (e : Nat) : Nat := elemOf (getRow k r).row.bits.toNat w e
      makes p.1 fun i =>
        let e := 32 * i / w
        decide (w * (e + 1) ≤ 32 * k.tregs.vl.toNat) && (getK k k.tregs.ksel).toNat.testBit (w * e / 32) && p.2.holds (tagFmt t) (el a e) (el b e))

/-- R191, R220, R221: a unit-stride `vld` and `vst` of a row in the own scratchpad window, in a format of whole bytes, posted to idle streams. A load
reads each covered and active element from its address, keeps the others, and gives the row the format's tag, unscaled; a store writes the bytes
of each covered and active element, and no other byte of memory changes. The region of the window is not watched, as the hub keeps it (R294).
That an idle stream executes at once is the model's choice (log 7). -/
def Sys2Proof.Parts.RowsInMemory : Prop :=
  ∀ (s : State) (d : BitVec 6) (f g : Fmt) (rs1 : BitVec 5) (off : BitVec 7) (o : Nat),
    let k := here s
    let w := fmtWidth f
    let a := sramKey s.cur o
    let bits := (getRow k d).row.bits.toNat
    let moves (e : Nat) : Bool := decide (w * (e + 1) ≤ 32 * k.tregs.vl.toNat) && (getK k k.tregs.ksel).toNat.testBit (w * e / 32)
    VectorIdle k → Unpinned k → CleanRow k d → k.streams.mq = [] → k.streams.deferred = [] → Alive s s.cur → f ≠ .none → 8 ≤ w →
    getS k rs1 + BitVec.ofInt 64 (off.toInt * 8) = ownAddr o → o % (w / 8) = 0 → o + 4 * k.tregs.vl.toNat ≤ scratchSize k →
    (CleanAt s a (4 * k.tregs.vl.toNat) → ∃ u, exec (.vld f (.row d) rs1 off) s = .next u ∧ OnlyHere s u ∧ VectorFrame k (here u) ∧
      (here u).files.k = k.files.k ∧ (here u).pc = k.pc + 4 ∧ (∀ r, r ≠ d → getRow (here u) r = getRow k r) ∧
      (getRow (here u) d).row.tag = plainTag f ∧ (getRow (here u) d).row.psn = 0 ∧ (getRow (here u) d).res = .dirty ∧
      ∀ e < 2048 / w, elemOf (getRow (here u) d).row.bits.toNat w e =
        if moves e = true then bytesAt s (a + w / 8 * e) (w / 8) else elemOf bits w e) ∧
    ((getRow k d).row.tag.toNat % 16 = f.code → g = .none ∨ g = f → (∀ r, s.hub.regs.regions.find 0 = some r → bitAt r 32 = false) →
      ∃ u, exec (.vst g (.row d) rs1 off) s = .next u ∧ u.hub = s.hub ∧ u.l2 = s.l2 ∧ (∀ c, c ≠ s.cur → getCore u c = getCore s c) ∧
        VectorFrame k (here u) ∧ (here u).files = k.files ∧ (here u).pc = k.pc + 4 ∧
        ∀ x, memByte u.store.bytes x =
          if a ≤ x ∧ x < a + 4 * k.tregs.vl.toNat ∧ moves (8 * (x - a) / w) = true then BitVec.ofNat 8 (bits / 2 ^ (8 * (x - a)))
          else memByte s.store.bytes x)

/-- R130 to R149, R220, R221: the rows and the masks that vector instructions write, and the rows that they move to and from memory. -/
def Obligations.RowsAndMasks : Prop :=
  Sys2Proof.Parts.RowsMade ∧ Sys2Proof.Parts.MasksMade ∧ Sys2Proof.Parts.RowsInMemory

/-- R132, R133: what the lane operations do to elements of INT32, INT16 and INT8: wrapping at the width, shift counts in the low bits of B,
quotients truncated, and sums, differences and products that saturate. -/
def Sys2Proof.Parts.IntegerLanes : Prop :=
  ∀ (f : Fmt) (w : Nat) (a b d : Nat), (f, w) ∈ [(Fmt.int32, 32), (.int16, 16), (.int8, 8)] → a < 2 ^ w → b < 2 ^ w → d < 2 ^ w →
    let i (x : Nat) : Int := (BitVec.ofNat w x).toInt
    let u (x : Int) : Nat := (BitVec.ofInt w x).toNat
    let clamp (x : Int) : Int := max (-2 ^ (w - 1)) (min x (2 ^ (w - 1) - 1))
    laneOp .add f a b d = (a + b) % 2 ^ w ∧ laneOp .sub f a b d = (a + (2 ^ w - b)) % 2 ^ w ∧ laneOp .mul f a b d = a * b % 2 ^ w ∧
    laneOp .fma f a b d = (a * b + d) % 2 ^ w ∧
    laneOp .min f a b d = u (min (i a) (i b)) ∧ laneOp .max f a b d = u (max (i a) (i b)) ∧
    laneOp .and f a b d = a &&& b ∧ laneOp .or f a b d = a ||| b ∧ laneOp .xor f a b d = a ^^^ b ∧ laneOp .not f a b d = 2 ^ w - 1 - a ∧
    laneOp .shl f a b d = a * 2 ^ (b % w) % 2 ^ w ∧ laneOp .shr f a b d = a / 2 ^ (b % w) ∧ laneOp .sra f a b d = u (i a / 2 ^ (b % w)) ∧
    laneOp .mov f a b d = a ∧ laneOp .abs f a b d = (i a).natAbs ∧ laneOp .neg f a b d = (2 ^ w - a) % 2 ^ w ∧
    laneOp .div f a b d = (if b = 0 then 2 ^ w - 1 else u ((i a).tdiv (i b))) ∧
    laneOp .addSat f a b d = u (clamp (i a + i b)) ∧ laneOp .subSat f a b d = u (clamp (i a - i b)) ∧
    laneOp .mulSat f a b d = u (clamp (i a * i b)) ∧
    laneOp .popc f a b d = ((List.range w).filter fun j => a.testBit j).length ∧
    (a = 0 → laneOp .clz f a b d = w) ∧ (∀ n < w, a < 2 ^ (w - n) → a.testBit (w - 1 - n) = true → laneOp .clz f a b d = n)

/-- R137: what the compares hold of: INT32 as signed, IDX32 and B32 as unsigned words. -/
def Sys2Proof.Parts.CompareConditions : Prop :=
  ∀ (a b : Nat), a < 2 ^ 32 → b < 2 ^ 32 →
    (∀ f ∈ [Fmt.int32, .idx32, .b32], CmpOp.ceq.holds f a b = decide (a = b) ∧ CmpOp.cne.holds f a b = decide (a ≠ b)) ∧
    CmpOp.clt.holds .int32 a b = decide ((BitVec.ofNat 32 a).toInt < (BitVec.ofNat 32 b).toInt) ∧
    CmpOp.cle.holds .int32 a b = decide ((BitVec.ofNat 32 a).toInt ≤ (BitVec.ofNat 32 b).toInt) ∧
    CmpOp.clt.holds .idx32 a b = decide (a < b) ∧ CmpOp.cle.holds .idx32 a b = decide (a ≤ b)

/-- R132 to R143: what one lane computes, and the conditions of vector comparisons. -/
def Obligations.LanesAndConditions : Prop :=
  Sys2Proof.Parts.IntegerLanes ∧ Sys2Proof.Parts.CompareConditions

/-! ### Hoops, latches and lodges (R160, R175, R177, R178, R306, R309) -/

/-- R160, R177, R178: posted to idle streams, `hclr` makes every element of its hoop +0.0 and no element poisoned; `mwait` completes where its
latch is FULL and stays at the head of the queue where it is not; `mqpush` copies half a hoop row into a row queue with room.
That an idle stream executes at once is the model's choice (log 7). -/
def Sys2Proof.Parts.MatrixHeads : Prop :=
  ∀ (s : State) (h : BitVec 2) (l : BitVec 1) (ix : BitVec 7) (q : BitVec 4),
    let k := here s
    let after (i : Instr) (f : Core → Core) : Prop :=
      exec i s = .next (updCore s s.cur fun k => f (retire { k with streams := { k.streams with nextSeq := k.streams.nextSeq + 1 } } 4))
    MatrixIdle k →
    after (.hclr h) (fun k => setHoop k h { rows := Vector.replicate 64 0, psn := Vector.replicate 64 0 }) ∧
    (k.files.l[l.toNat].state = .full → after (.mwait l) id) ∧
    (k.files.l[l.toNat].state ≠ .full → exec (.mwait l) s = .next (updCore s s.cur fun k => postsMatrix k (postedEntry k (.mwait l)))) ∧
    ((q = 10 ∨ q = 11 ∨ q = 14 ∨ q = 15) → (k.queues.rq[q.toNat - 8]?.getD []).length < 4 →
      ∃ r : Row, after (.mqpush h ix q) (fun k => pushRow k q.toNat r) ∧ r.tag = plainTag .fp32 ∧
        ∀ j < 64, elemOf r.bits.toNat 32 j = (hoopOf k h).elem (ix.toNat % 64) (64 * (ix.toNat / 64) + j) ∧
          r.psn.toNat.testBit j = (hoopOf k h).bad (ix.toNat % 64) (64 * (ix.toNat / 64) + j))

/-- R309: `lstat`, once no matrix entry and no replay is before it, reads a descriptor that the core holds for its context: STATE in bits 1:0,
LAST in bit 2, 1 in bit 3, COUNT from bit 8 and DRIFT from bit 32; it reads 0 of any other number, and waits while the matrix queue is not empty. -/
def Sys2Proof.Parts.LodgeStatus : Prop :=
  ∀ (s : State) (rd d : BitVec 5), (here s).streams.rep.run = none →
    let k := here s
    let lodge := k.tables.lodges.find? fun g => g.d.toNat == d.toNat && g.ctx == ctxOf k
    (k.streams.mq ≠ [] → exec (.lstat rd d) s = .next s) ∧
    (k.streams.mq = [] → lodge = none → exec (.lstat rd d) s = .next (writeScalar s rd 0)) ∧
    (∀ g, k.streams.mq = [] → lodge = some g →
      exec (.lstat rd d) s = .next (writeScalar s rd (BitVec.ofNat 64
        (g.state.toNat + (if g.last then 4 else 0) + 8 + g.count.toNat * 2 ^ 8 + g.drift.toNat * 2 ^ 32))))

/-- R88, R162 to R165: `mma.ovw` and `mma.acc` of one block of BF16 or FP16, posted to idle streams, on a FULL latch with a tile of the format and A
in the own scratchpad window, all without poison: each hoop element (i, j) with i < M and j < N becomes RNE32(start + RNE32(S)), where S is the
exact sum of the 128 products of row i of A and column j of the tile and the start is +0.0 or the hoop's element; other elements, other hoops
and the latch stay. That an idle stream executes at once is the model's choice (log 7). -/
def Sys2Proof.Parts.BlocksAccumulate : Prop :=
  ∀ (s : State) (h : BitVec 2) (l : BitVec 1) (rs1 rs2 : BitVec 5) (off m n : Nat) (f : Fmt),
    let k := here s
    let t := latchOf k l
    let old := hoopOf k h
    let left (i e : Nat) : Val := fmtVal f (bytesAt s (sramKey s.cur (off + 256 * i + 2 * e)) 2)
    let right (e j : Nat) : Val := fmtVal f (elemOf t.tile.toNat 16 (64 * e + j))
    let total (i j : Nat) : Val := (List.range 128).foldl (fun x e => x.add .rne ((left i e).mul (right e j))) (.fin false 0 0)
    let leaves (x : Instr) (start : Nat → Nat → Nat) : Prop :=
      ∃ u, exec x s = .next u ∧ OnlyHere s u ∧ (here u).pc = k.pc + 4 ∧ { (here u).files with h := k.files.h } = k.files ∧
        { (here u).tregs with instret := 0 } = { k.tregs with instret := 0 } ∧ (here u).cregs = k.cregs ∧ (here u).queues = k.queues ∧
        (here u).tables = k.tables ∧ (here u).l1 = k.l1 ∧ (here u).streams = { k.streams with nextSeq := k.streams.nextSeq + 1 } ∧
        (∀ g, g ≠ h → hoopOf (here u) g = hoopOf k g) ∧
        ∀ i < 64, ∀ j < 128, (hoopOf (here u) h).elem i j =
          if i < m ∧ j < n then rne32 ((fp32.decode (start i j)).add .rne (fp32.decode (rne32 (total i j)))) else old.elem i j
    MatrixIdle k → k.streams.deferred = [] → f = .bf16 ∨ f = .fp16 → m ≤ 64 → n ≤ 64 →
    (getS k rs2).toNat = m + n * 2 ^ 8 + 2 ^ 16 + f.code * 2 ^ 24 → getS k rs1 = ownAddr off → off % 128 = 0 → off + 256 * m ≤ scratchSize k →
    CleanAt s (sramKey s.cur off) (256 * m) → t.state = .full → t.hdr.toNat % 16 = f.code → t.psn = 0 →
    leaves (.mmaOvw h rs1 l rs2) (fun _ _ => 0) ∧
    ((∀ i < m, ∀ j < n, old.bad i j = false) → leaves (.mmaAcc h rs1 l rs2) old.elem)

/-- R88, R157 to R179, R308 to R311: heads of the matrix queue, one block that a tile adds to a hoop, and the status of a lodge descriptor. -/
def Obligations.HeadsOfLatchesAndLodges : Prop :=
  Sys2Proof.Parts.MatrixHeads ∧ Sys2Proof.Parts.BlocksAccumulate ∧ Sys2Proof.Parts.LodgeStatus

/-! ### Queues and sends (R97, R250, R251, R255, R256) -/

/-- R250, R251: `qpeek` reads the head of a queue that the control thread pops, a row's cells 0 and 1, and `qpeek.pop` also takes it; both wait
while the queue is empty and raise POISON where cell 0 or 1 is poisoned; `qcount` counts the entries of any queue.
EINFO 0 of POISON is the model's choice (log 30). -/
def Obligations.QueueHeads : Prop :=
  ∀ (s : State) (rd : BitVec 5) (q : BitVec 4),
    let k := here s
    let sq := k.queues.sq[q.toNat]?.getD []
    let rq := k.queues.rq[q.toNat - 8]?.getD []
    let without (f : Queues → Queues) : State := updCore s s.cur fun k => { k with queues := f k.queues }
    (q = 4 ∨ q = 5 ∨ q = 6 ∨ q = 7 →
      (∀ v r, sq = v :: r →
        exec (.qpeek rd q) s = .next (writeScalar s rd v) ∧
        exec (.qpeekPop rd q) s = .next (writeScalar (without fun x => { x with sq := x.sq.setIfInBounds q.toNat r }) rd v)) ∧
      (sq = [] → exec (.qpeek rd q) s = .next s ∧ exec (.qpeekPop rd q) s = .next s)) ∧
    (q = 10 ∨ q = 11 →
      (∀ v r, rq = v :: r →
        (v.psn.toNat % 4 = 0 →
          exec (.qpeek rd q) s = .next (writeScalar s rd (slice v.bits 0 64)) ∧
          exec (.qpeekPop rd q) s = .next (writeScalar (without fun x => { x with rq := x.rq.setIfInBounds (q.toNat - 8) r }) rd (slice v.bits 0 64))) ∧
        (v.psn.toNat % 4 ≠ 0 → ∀ i ∈ [Instr.qpeek rd q, .qpeekPop rd q], exec i s =
          .next (stopAt s (report s (coreErr s s.cur 1 true 0 0 (whereAt k).toNat 0)) s.cur (controlTrap (trapInfo .poison 0) k.pc)))) ∧
      (rq = [] → exec (.qpeek rd q) s = .next s ∧ exec (.qpeekPop rd q) s = .next s)) ∧
    exec (.qcount rd q) s = .next (writeScalar s rd (BitVec.ofNat 64 (if q.toNat < 8 then sq.length else rq.length)))

/-- R255, R256: `send` with a local selector pushes its operand to that scalar queue, and waits while it holds 16; with a route word it puts a
packet for the tag and the core of the word at the end of the send buffer: an ordinary task waits for room, a handler's 17th raises
QUEUE_FAULT; a core on a lost die, or behind one, raises DIE_LOST, and a fenced one GANG_BROKEN in the own gang and else PROTECT (R374, R375); any other word
raises FORMAT. -/
def Sys2Proof.Parts.SendsScalar : Prop :=
  ∀ (s : State) (rs1 rs2 : BitVec 5), (here s).streams.rep.run = none →
    let k := here s
    let w := (getS k rs1).toNat
    let v := getS k rs2
    let route : Prop := w % 256 < 48 ∧ w / 256 % 256 < 64 ∧ w < 2 ^ 28
    let pkt : Packet :=
      { tag := BitVec.ofNat 12 (w / 2 ^ 16), src := s.cur, ctx := ctxOf k, tenant := k.tregs.tenant, dst := coreAt (w % 256) (w / 256 % 256)
        scalar := true, row := { bits := v.setWidth 2048, psn := 0, tag := 11 }, drain := false, carrier := false, seq := 0
        way := Transit.first 0 }
    let dst := coreAt (w % 256) (w / 256 % 256)
    let sends : Prop := exec (.send rs1 rs2) s = commits s fun k => { k with queues := { k.queues with send := k.queues.send ++ [pkt] } }
    let faults (x : Cause) (v : DWord) : Prop := exec (.send rs1 rs2) s = .next (stopAt s s s.cur (controlTrap (trapInfo x v) k.pc))
    (∀ n < 4, w = 2 ^ 63 + n →
      ((k.queues.sq[n]?.getD []).length < 16 → exec (.send rs1 rs2) s = commits s fun k =>
        { k with queues := { k.queues with sq := k.queues.sq.setIfInBounds n ((k.queues.sq[n]?.getD []) ++ [v]) } }) ∧
      (16 ≤ (k.queues.sq[n]?.getD []).length → exec (.send rs1 rs2) s = .next s)) ∧
    (route → Reaches s s.cur dst → inHandler k = false →
      (k.queues.outPending = [] → k.queues.send.length < 16 → sends) ∧
      (k.queues.outPending ≠ [] ∨ 16 ≤ k.queues.send.length → exec (.send rs1 rs2) s = .next s)) ∧
    (route → Reaches s s.cur dst → inHandler k = true →
      (k.queues.send.length + k.queues.outPending.length < 16 → sends) ∧
      (16 ≤ k.queues.send.length + k.queues.outPending.length → faults .queueFault 0)) ∧
    (route → bitAt s.hub.lostDies (dieOf dst) = true → faults .dieLost (BitVec.ofNat 64 (dieOf dst))) ∧
    (∀ d, route → lostWay s s.cur dst = some d → faults .dieLost (BitVec.ofNat 64 d)) ∧
    (route → lostWay s s.cur dst = none → (getCore s dst).fenced = true →
      (fencedCause s s.cur dst = .gangBroken → faults .gangBroken (BitVec.ofNat 64 (coordBits dst))) ∧
      (fencedCause s s.cur dst ≠ .gangBroken → faults .protect (getS k rs1))) ∧
    (¬route → (∀ n < 4, w ≠ 2 ^ 63 + n) → faults .format 0)

/-- R255: `sendv` of a resident row with a tag, once the vector queue is empty, sends the row with its tag and poison, or pushes it to row queue 8
or 9; a row without a tag raises FORMAT; it waits while the vector queue is not empty. No pinned row is evicted: a restitch is a load. -/
def Sys2Proof.Parts.SendsRow : Prop :=
  ∀ (s : State) (rs1 : BitVec 5) (n : BitVec 6), (here s).streams.rep.run = none →
    let k := here s
    let w := (getS k rs1).toNat
    let row := (getRow k n).row
    let route : Prop := w % 256 < 48 ∧ w / 256 % 256 < 64 ∧ w < 2 ^ 28
    let lcl (q : Nat) : Prop := (q = 8 ∨ q = 9) ∧ w = 2 ^ 63 + q
    let pkt : Packet :=
      { tag := BitVec.ofNat 12 (w / 2 ^ 16), src := s.cur, ctx := ctxOf k, tenant := k.tregs.tenant, dst := coreAt (w % 256) (w / 256 % 256)
        scalar := false, row := row, drain := false, carrier := false, seq := 0, way := Transit.first 0 }
    let faults (x : Cause) : Prop := exec (.sendv rs1 (.row n)) s = .next (stopAt s s s.cur (controlTrap (trapInfo x 0) k.pc))
    (route ∨ (∃ q, lcl q) → k.streams.vq ≠ [] → exec (.sendv rs1 (.row n)) s = .next s) ∧
    let settled : Prop := ∀ r, pinValid (pinOf k r) = true → (getRow k r).res ≠ .gone
    (route ∨ (∃ q, lcl q) → k.streams.vq = [] → settled → row.tag = 0 → faults .format) ∧
    (¬route → (¬∃ q, lcl q) → faults .format) ∧
    (k.streams.vq = [] → settled → row.tag ≠ 0 → (getRow k n).res ≠ .gone →
      (route → Reaches s s.cur (coreAt (w % 256) (w / 256 % 256)) → inHandler k = false → k.queues.outPending = [] → k.queues.send.length < 16 →
        exec (.sendv rs1 (.row n)) s = commits s fun k => { k with queues := { k.queues with send := k.queues.send ++ [pkt] } }) ∧
      (∀ q, lcl q → (k.queues.rq[q - 8]?.getD []).length < 4 →
        exec (.sendv rs1 (.row n)) s = commits s fun k =>
          { k with queues := { k.queues with rq := k.queues.rq.setIfInBounds (q - 8) ((k.queues.rq[q - 8]?.getD []) ++ [row]) } }))

/-- R255, R256: `snd` of scalars and of rows. -/
def Obligations.Sends : Prop :=
  Sys2Proof.Parts.SendsScalar ∧ Sys2Proof.Parts.SendsRow

/-! ### The repeat buffer (R257 to R261) -/

/-- R257 to R261: `lcfg` sets a level's COUNT, OS and AS; `lrun` starts a replay at iteration 0 with the scalars, VL, KSEL, RND and PROT of now, and
raises QUEUE_FAULT with no buffer; `lstop` asks a replay to stop; `lbuf` takes the instructions that it reads, and raises QUEUE_FAULT for
a count of 0 or more than 64. -/
def Sys2Proof.Parts.RepeatBuffer : Prop :=
  ∀ (s : State) (lv : BitVec 3) (rs1 rs2 : BitVec 5),
    let k := here s
    let setRep (f : RepeatBuf → RepeatBuf) : Out := commits s fun k => { k with streams := { k.streams with rep := f k.streams.rep } }
    let n := (getS k rs2).toNat
    let va := getS k rs1
    (k.streams.rep.run = none → lv.toNat < 6 → exec (.lcfg lv rs1 rs2) s = setRep fun b =>
      { b with levels := b.levels.setIfInBounds lv.toNat { count := BitVec.ofNat 32 va.toNat, os := BitVec.ofNat 6 n, as := BitVec.ofNat 32 (n / 2 ^ 32) } }) ∧
    (k.streams.rep.run = none → k.streams.rep.body ≠ [] →
      let env : Env := { vl := k.tregs.vl, ksel := k.tregs.ksel, rnd := k.tregs.rnd, prot := k.tregs.prot, s := k.files.s }
      let run : RepeatRun := { iter := Vector.replicate 6 0, j := 0, env := env, ipc := k.pc, stop := false }
      exec .lrun s = commits s fun k =>
        { k with streams := { k.streams with lrunPc := k.pc, rep := { k.streams.rep with run := some run } } }) ∧
    (k.streams.rep.run = none → k.streams.rep.body = [] →
      exec .lrun s = .next (stopAt s s s.cur (controlTrap (trapInfo .queueFault 0) k.pc))) ∧
    exec .lstop s = (setRep fun b => { b with run := b.run.map fun r => { r with stop := true } }) ∧
    (Quiet k → n = 0 ∨ 64 < n → exec (.lbuf rs1 rs2) s = .next (stopAt s s s.cur (controlTrap (trapInfo .queueFault 0) k.pc))) ∧
    (Drained k → 1 ≤ n → n ≤ 64 → va.toNat % 2 = 0 → ∀ flags body s1 s2, readImage s.cur va 64 s = .ok flags s1 →
      readRepeat s.cur va flags n 0 (va + 64) s1 = .ok body s2 → s2.cur = s.cur →
      exec (.lbuf rs1 rs2) s = .next (updCore s2 s.cur fun k =>
        retire { k with streams := { k.streams with bufLen := n, rep := { k.streams.rep with body := body } } } 4))

/-- R260, R261: a turn of the sequencer leaves out a position whose FIRST or LAST does not hold, and posts any other with the capture of `lrun`, its
address offset where it asks for one, and its place; the vector queue of 128 and the matrix queue of 64 hold it back; after the last position
the next pass begins, or the replay ends where `lstop` has asked or no pass is left. -/
def Sys2Proof.Parts.SequencerPosts : Prop :=
  ∀ (s : State) (c : CoreId) (r : RepeatRun) (i : RepeatInstr),
    let k := getCore s c
    let b := k.streams.rep
    let lvl := i.flags.toNat % 8
    let iter (l : Nat) : Nat := (r.iter[l]?.getD 0).toNat
    let count (l : Nat) : Nat := ((b.levels[l]?.map fun v => v.count.toNat).getD 0)
    let left : Prop := (i.flags.toNat.testBit 3 = true ∧ iter lvl ≠ 0) ∨ (i.flags.toNat.testBit 4 = true ∧ iter lvl ≠ max (count lvl) 1 - 1)
    let off : DWord := BitVec.ofInt 64 (((List.range 6).map fun l => ((b.levels[l]?.map fun v => v.as.toInt).getD 0) * (iter l : Int)).sum)
    let matrix := goesToMatrix i.word.toNat
    b.run = some r → b.body[r.j]? = some i →
    (left → sequencerStep s c = setCore s c (nextPosition k r)) ∧
    (¬left → (if matrix then 64 ≤ k.streams.mq.length else 128 ≤ k.streams.vq.length) → sequencerStep s c = s) ∧
    (¬left → (if matrix then k.streams.mq.length < 64 else k.streams.vq.length < 128) →
      ∃ e : Entry, e.env = r.env ∧ e.ipc = r.ipc ∧ e.seq = k.streams.nextSeq ∧ e.replay = some { j := r.j, iter := r.iter } ∧
        e.adj = (if i.flags.toNat.testBit 6 then off else 0) ∧ (i.flags.toNat.testBit 5 = false → e.instr = asV3 i.instr) ∧
        sequencerStep s c =
          (if matrix then eagerMatrix (setCore s c (nextPosition (enqueueMatrix k e) r)) c
           else eagerVector (setCore s c (nextPosition (enqueueVector k e) r)) c)) ∧
    (r.j + 1 < b.body.length → nextPosition k r = setRun k (some { r with j := r.j + 1 })) ∧
    (b.body.length ≤ r.j + 1 → r.stop = true → nextPosition k r = setRun k none) ∧
    (b.body.length ≤ r.j + 1 → (∀ l < 6, count l ≤ iter l + 1) → nextPosition k r = setRun k none) ∧
    (b.body.length ≤ r.j + 1 → r.stop = false → iter 0 + 1 < count 0 →
      nextPosition k r = setRun k (some { r with iter := r.iter.setIfInBounds 0 (BitVec.ofNat 32 (iter 0 + 1)), j := 0 }))

/-- R257 to R261: the repeat buffer and its sequencer. -/
def Obligations.Repeats : Prop :=
  Sys2Proof.Parts.RepeatBuffer ∧ Sys2Proof.Parts.SequencerPosts

/-! ### Copies and launches (R264, R265, R268, R269) -/

/-- R264, R265, R268, R295: `cpost` of a command that keeps its rules, after its release over the regions of the source, takes a free slot, numbers the
copy 1 above the last and answers the number; before it releases anything it waits while 128 copies hold slots and one of them is an ended
task's, and raises QUEUE_FAULT where all are the task's; a command that breaks a rule raises FORMAT, and an address off a multiple of 64 MISALIGN.
That the control thread waits for the release is the model's choice (log 31). -/
def Sys2Proof.Parts.CopyPosts : Prop :=
  ∀ (s s1 s2 : State) (sc : Scope) (rd rs1 : BitVec 5) (v : Nat) (r : Regions), Drained (here s) →
    let va := getS (here s) rs1
    (va.toNat % 64 ≠ 0 → exec (.cpost sc rd rs1) s = .next (stopAt s s s.cur (controlTrap (trapInfo .misalign va) (here s).pc))) ∧
    (va.toNat % 64 = 0 → readImage s.cur va 64 s = .ok v s1 →
      (commandOk v = false → exec (.cpost sc rd rs1) s = .next (stopAt s s1 s.cur (controlTrap (trapInfo .format 0) (here s).pc))) ∧
      (commandOk v = true → Drained (getCore s1 s.cur) →
        let held := s1.hub.copies.filter fun x => x.core == s.cur && !(x.orphan && x.done)
        (held.length < 128 → sourceRegions s.cur (BitVec.ofNat 64 v) (v / 2 ^ 128 % 2 ^ 32) s1 = .ok r s2 → ReleaseFree s2 s.cur sc r →
          let s3 := bumpMarks (release s2 s.cur sc r) s.cur r
          let k := getCore s3 s.cur
          let id := k.streams.copyId + 1
          bumpsLeft s3 s.cur r = false → exec (.cpost sc rd rs1) s = .next
            (let t := updCore { s3 with stamp := s3.stamp + 1 } s.cur fun k => { k with streams := { k.streams with copyId := id } }
             let t := { t with hub := { t.hub with copies := t.hub.copies ++ [copyOf k s.cur sc v id s3.time s3.stamp] } }
             let t := updCore t s.cur fun k => setS k rd id
             updCore t t.cur fun k => retire k 4)) ∧
        (held.length = 128 → (∀ x ∈ held, x.orphan = false) →
          exec (.cpost sc rd rs1) s = .next (stopAt s s1 s.cur (controlTrap (trapInfo .queueFault 0) (here s).pc))) ∧
        (128 ≤ held.length → (∃ x ∈ held, x.orphan = true) → exec (.cpost sc rd rs1) s = .next s1)))

/-- R265: the rules of a copy command: bits 191:162 and 511:320 are zero, and with WAKE its route word names a core. -/
def Sys2Proof.Parts.CommandRules : Prop :=
  ∀ (v : Nat), commandOk v = true ↔
    v / 2 ^ 162 % 2 ^ 30 = 0 ∧ v / 2 ^ 320 % 2 ^ 192 = 0 ∧
      (v.testBit 160 = true → v / 2 ^ 192 % 2 ^ 8 < 48 ∧ v / 2 ^ 200 % 2 ^ 8 < 64 ∧ v / 2 ^ 192 % 2 ^ 64 < 2 ^ 28)

/-- R213, R268: `cpop` takes the oldest completion, which frees its slot and makes the L1 lines of its destination stale; with none it answers 0
once no copy of the task is outstanding, and waits while one is. -/
def Sys2Proof.Parts.CopyPops : Prop :=
  ∀ (s : State) (rd : BitVec 5),
    let k := here s
    (∀ r rest, k.queues.results = r :: rest →
      let pushes := (s.hub.copies.filter (completes s.cur r)).flatMap (destPushes s)
      let s1 := sendPushes s s.cur pushes
      PushFree s pushes → pushesLeft s1 s.cur pushes = false → exec (.cpop rd) s = .next
        (let t := popCompletion (updCore s1 s.cur fun k => { k with queues := { k.queues with results := rest } }) s.cur r
         let t := updCore t s.cur fun k => setS k rd r
         updCore t t.cur fun k => retire k 4)) ∧
    (k.queues.results = [] →
      ((∀ x ∈ s.hub.copies, x.core = s.cur → x.orphan = true ∨ x.done = true) → exec (.cpop rd) s = .next (writeScalar s rd 0)) ∧
      ((∃ x ∈ s.hub.copies, x.core = s.cur ∧ x.orphan = false ∧ x.done = false) → exec (.cpop rd) s = .next s))

/-- R264 to R268: copies and their results. -/
def Obligations.Copies : Prop :=
  Sys2Proof.Parts.CopyPosts ∧ Sys2Proof.Parts.CommandRules ∧ Sys2Proof.Parts.CopyPops

/-- R214, R269, R384: `launch` releases at `.sys`, pushes the physical address of the block into the launch FIFO and answers the count of pushes, this one
among them; it waits while the FIFO holds 1,024; a block of a context of another tenant raises PROTECT, and one off a multiple of 128
bytes MISALIGN.
That the control thread waits for the release is the model's choice (log 31). -/
def Obligations.LaunchPushes : Prop :=
  ∀ (s s1 s2 : State) (rd rs1 : BitVec 5) (pa ctx : Nat), Drained (here s) → ReleaseFree s s.cur .sys allRegions →
    let s0 := release s s.cur .sys allRegions
    let k := getCore s0 s.cur
    let va := getS k rs1
    (va.toNat % 128 ≠ 0 → exec (.launch rd rs1) s = .next (stopAt s s0 s.cur (controlTrap (trapInfo .misalign va) (here s).pc))) ∧
    (va.toNat % 128 = 0 → blockAddr s.cur va s0 = .ok pa s1 → readImage s.cur (va + 16) 2 s1 = .ok ctx s2 →
      let owner := s2.hub.contexts.find? fun x => x.ctx == BitVec.ofNat 16 ctx
      ((∃ x, owner = some x ∧ x.tenant ≠ k.tregs.tenant) →
        exec (.launch rd rs1) s = .next (stopAt s s2 s.cur (controlTrap (trapInfo .protect va) (here s).pc))) ∧
      ((∀ x, owner = some x → x.tenant = k.tregs.tenant) →
        (s2.hub.fifo.length < 1024 → s2.hub.fifoHeld = [] →
          exec (.launch rd rs1) s = .next
            (let h := s2.hub
             let t := { s2 with hub := { h with fifo := h.fifo ++ [BitVec.ofNat 64 pa], regs := { h.regs with lcount := h.regs.lcount + 1 } } }
             let t := updCore t s.cur fun k => setS k rd (h.regs.lcount + 1)
             updCore t t.cur fun k => retire k 4)) ∧
        (1024 ≤ s2.hub.fifo.length ∨ s2.hub.fifoHeld ≠ [] → exec (.launch rd rs1) s = .next s2)))

/-! ### Collectives (R273, R275, R279, R280, R283) -/

/-- R279, R280: `cwait` answers 0 where no open slot has its descriptor; for the oldest that has it, it waits for the event that bits 1:0 name, then
answers 1 in bit 32 with the wave, acquires at the slot's scope where the event is a later one than SENT, and closes the slot at DELIVERED; an
aborted slot is closed and raises COLL_ABORTED, or REMOTE_TIMEOUT; bits 6:2 raise MISALIGN and event 3 FORMAT. -/
def Obligations.CollectiveWaits : Prop :=
  ∀ (s : State) (rd rs1 : BitVec 5),
    let k := here s
    let w := getS k rs1
    let ev := w.toNat % 4
    let va := w - BitVec.ofNat 64 ev
    let i : Instr := .cwait rd rs1
    let without (n : Nat) (s : State) : State := updCore s s.cur fun k => { k with tables := { k.tables with slots := dropNth k.tables.slots n } }
    let answers (v : DWord) (t : State) : Prop :=
      exec i s = .next (let t := updCore t s.cur fun k => setS k rd v; updCore t t.cur fun k => retire k 4)
    let faults (t : State) (x : Cause) (e : DWord) : Prop := exec i s = .next (stopAt s t s.cur (controlTrap (trapInfo x e) k.pc))
    (w.toNat / 4 % 32 ≠ 0 → faults s .misalign w) ∧
    (w.toNat / 4 % 32 = 0 → ev = 3 → faults s .format 0) ∧
    (w.toNat / 4 % 32 = 0 → ev ≠ 3 →
      ((∀ x ∈ k.tables.slots, x.desc = va → x.orphan = true) → answers 0 s) ∧
      (∀ xs x ys, k.tables.slots = xs ++ x :: ys → (∀ y ∈ xs, y.desc = va → y.orphan = true) → x.desc = va → x.orphan = false →
        (x.aborted = true → faults (without xs.length s) (if x.timedOut then .remoteTimeout else .collAborted) va) ∧
        (x.aborted = false →
          let happened := match ev with | 0 => x.sent | 1 => x.combined | _ => x.delivered
          (happened = false → exec i s = .next s) ∧
          (happened = true → (ev ≠ 0 → AcquireFree s s.cur x.scope allRegions) → answers (BitVec.ofNat 64 (2 ^ 32 + x.wave.toNat))
            (let t := if ev = 2 then without xs.length s else s
             if ev = 0 then t else joinSync t s.cur (.acq x.scope allRegions))))))

/-- R275: `cstore`, after its release, of a descriptor that keeps the rules of a group whose entry the core's router holds for the executing context, with the
entry's next wave and ranges in the partition, opens a slot, advances the entry's next wave and sends the rows of its source to the core's own
router; it waits while 16 slots are held and one is an ended task's, and raises QUEUE_FAULT where all are the task's.
That the control thread waits for the release is the model's choice (log 31). -/
def Sys2Proof.Parts.CollectiveStores : Prop :=
  ∀ (s s1 : State) (sc : Scope) (rs1 rs2 : BitVec 5) (v : Nat) (e : TreeEntry), sc ≠ .task → Drained (here s) →
    ReleaseFree s s.cur sc allRegions →
    let c := s.cur
    let s0 := release s c sc allRegions
    let va := getS (getCore s0 c) rs1
    let d := descriptorOf v
    va.toNat % 128 = 0 → readImage c va 128 s0 = .ok v s1 → cstoreEntry c sc va v (getS (getCore s0 c) rs2) s1 = .ok e s1 →
    let k := getCore s1 c
    d.src.toNat + srcBytes d ≤ scratchSize k → d.dst.toNat + 256 * d.rows.toNat ≤ scratchSize k →
    (k.tables.slots.length < 16 →
      exec (.cstore sc rs1 rs2) s = .next
        (let t := modTree s1 (some c) d.gid fun e => { e with nextWave := e.nextWave + 1 }
         let t := updCore t c fun k => { k with tables := { k.tables with slots := k.tables.slots ++ [slotOf k sc d va e.nextWave] } }
         let t := { t with hub := { t.hub with relay := t.hub.relay ++ [relayOf s1.time k c d e.nextWave (contribution s1 c d e.rank)] } }
         updCore t t.cur fun k => retire k 4)) ∧
    (k.tables.slots.length = 16 → (∀ x ∈ k.tables.slots, x.orphan = false) →
      exec (.cstore sc rs1 rs2) s = .next (stopAt s s1 c (controlTrap (trapInfo .queueFault 0) (here s).pc))) ∧
    (16 ≤ k.tables.slots.length → (∃ x ∈ k.tables.slots, x.orphan = true) → exec (.cstore sc rs1 rs2) s = .next s1)

/-- R283: `cabort` of a group whose entry the core's router holds for the executing context marks the entry ABORTING; of any other it raises QUEUE_FAULT. -/
def Sys2Proof.Parts.CollectiveAborts : Prop :=
  ∀ (s s1 : State) (rs1 : BitVec 5) (v : Nat), Drained (here s) →
    let c := s.cur
    let va := getS (here s) rs1
    let gid : BitVec 12 := BitVec.ofNat 12 v
    va.toNat % 128 = 0 → readImage c va 128 s = .ok v s1 →
    let entry := (getCore s1 c).tables.trees.find? fun e => e.gid == gid
    ((∃ e, entry = some e ∧ e.ctx = ctxOf (here s)) →
      exec (.cabort rs1) s = .next
        (let t := updCore s1 c fun k => { k with tables := { k.tables with
           trees := k.tables.trees.map fun e => if e.gid = gid then { e with aborting := true } else e } }
         updCore t t.cur fun k => retire k 4)) ∧
    ((∀ e, entry = some e → e.ctx ≠ ctxOf (here s)) →
      exec (.cabort rs1) s = .next (stopAt s s1 c (controlTrap (trapInfo .queueFault 0) (here s).pc)))

/-- R275, R283: `cstore` and `cabort`. -/
def Obligations.CollectivePosts : Prop :=
  Sys2Proof.Parts.CollectiveStores ∧ Sys2Proof.Parts.CollectiveAborts

/-! ### Tables (R290, R292, R297, R298, R313 to R317) -/

/-- R292: `tlbinv` raises PRIV at task level and FORMAT where bits 15:2 are set; else every core that its scope reaches loses the TLB entries that
its word names, of the executing ASID unless bit 1 is set and of one page unless bit 0 is set, and keeps the others. That one translation cache stands for
those of the carriers, the concierge and the host ports, and loses the entries at `.pkg` and `.sys` alike, is the model's choice (log 54). -/
def Obligations.TlbInvalidates : Prop :=
  ∀ (s : State) (sc : Scope) (rs1 : BitVec 5),
    let k := here s
    let w := getS k rs1
    let i : Instr := .tlbinv sc rs1
    let page : DWord := BitVec.ofNat 64 (w.toNat / 65536 * 65536)
    let drops (t : TlbEntry) : Bool := (w.toNat.testBit 1 || t.asid == k.tregs.asid) && (w.toNat.testBit 0 || t.covers t.asid page)
    let reach (d : CoreId) : Bool := match sc with
      | .task => d == s.cur | .clu => clusterOf d == clusterOf s.cur | .die => dieOf d == dieOf s.cur | .pkg | .sys => true
    (k.level = .task → exec i s = .next (stopAt s s s.cur (controlTrap (trapInfo .priv (encodingOf i)) k.pc))) ∧
    (k.level ≠ .task → w.toNat / 4 % 2 ^ 14 ≠ 0 → exec i s = .next (stopAt s s s.cur (controlTrap (trapInfo .format 0) k.pc))) ∧
    (k.level ≠ .task → w.toNat / 4 % 2 ^ 14 = 0 → Drained k →
      ∃ t, exec i s = .next t ∧ t.hub = (if sc = .pkg ∨ sc = .sys then { s.hub with tlb := s.hub.tlb.filter fun e => !drops e } else s.hub) ∧
        t.l2 = s.l2 ∧ t.store = s.store ∧ (getCore t s.cur).files = k.files ∧
        (getCore t s.cur).pc = k.pc + 4 ∧
        ∀ d, (getCore t d).tables = { (getCore s d).tables with
          tlb := if reach d then (getCore s d).tables.tlb.filter fun e => !drops e else (getCore s d).tables.tlb } ∧
          (d ≠ s.cur → { getCore t d with tables := (getCore s d).tables } = getCore s d))

/-- R297, R298: `pdef` of an aligned image that keeps the rules writes it with VALID to its book entry; a header word that breaks one raises
FORMAT with EINFO its address, and an instruction that does ILLEGAL_OP with EINFO its own; `pdrop` clears VALID (of a context that is not
registered the core's copy alone exists, log 20). -/
def Sys2Proof.Parts.PatternBook : Prop :=
  ∀ (s s1 : State) (e rs1 : BitVec 5) (v : Nat), Drained (here s) →
    let c := s.cur
    let va := getS (here s) rs1
    let img : BitVec 512 := BitVec.ofNat 512 v
    let n := v / 2 ^ 256 % 16
    let faults (x : Cause) (a : DWord) : Prop := exec (.pdef e rs1) s = .next (stopAt s s1 c (controlTrap (trapInfo x a) (here s).pc))
    (va.toNat % 64 ≠ 0 → exec (.pdef e rs1) s = .next (stopAt s s c (controlTrap (trapInfo .misalign va) (here s).pc))) ∧
    (va.toNat % 64 = 0 → readImage c va 64 s = .ok v s1 →
      (n = 0 ∨ 8 < n ∨ v / 2 ^ 266 % 2 ^ 22 ≠ 0 → faults .format (va + 32)) ∧
      (badHeader img = none → ∀ j < n, recipeWordOk img j = false → (∀ m < j, recipeWordOk img m = true) →
        faults .illegalOp (va + BitVec.ofNat 64 (4 * j))) ∧
      (badHeader img = none → (∀ j < n, recipeWordOk img j = true) →
        (bookAddr s1 (ctxOf (getCore s1 c)) e = 0 → s1.cur = c →
          exec (.pdef e rs1) s = .next (updCore s1 c fun k => retire (setBook k e (putBit img 287 true)) 4)) ∧
        (∀ s2, writeBook c e (putBit img 287 true) s1 = .ok () s2 →
          exec (.pdef e rs1) s = .next (updCore s2 s2.cur fun k => retire k 4)))) ∧
    (∀ p, (here s).tables.book[e.toNat] = some p →
      (bookAddr s (ctxOf (here s)) e = 0 → exec (.pdrop e) s = commits s fun k => setBook k e (putBit p 287 false)) ∧
      (∀ a, bookAddr s (ctxOf (here s)) e = a → a ≠ 0 → reachHome c (lineOf a) 0 s = .ok () s1 →
        exec (.pdrop e) s = .next
          (let r := hubLoad s1 (a + 32) 4
           let t := hubStore r.1 (a + 32) 4 (r.2.1 % 2 ^ 31)
           let t := updCore t c fun k => setBook k e (putBit p 287 false)
           updCore t t.cur fun k => retire k 4)))

/-- R313 to R315: `bind` of an entry image that keeps the rules, for a context of the executing tenant and a key that the table of 256 does not
hold, appends the entry; of another tenant's context it raises PROTECT, of a key that is held or a full table QUEUE_FAULT, of a word that is no
key FORMAT; `unbind` removes the entry of its key, and does nothing where there is none. That the key of an out-binding in `unbind` names the
executing context is the model's choice (log 35). -/
def Sys2Proof.Parts.RouteTable : Prop :=
  ∀ (s s1 : State) (rs1 rs2 : BitVec 5) (v : Nat) (key : RouteKey), Drained (here s) →
    let c := s.cur
    let k := here s
    let w := getS k rs1
    let va := getS k rs2
    let faults (t : State) (x : Cause) (a : DWord) : Prop := exec (.bind rs1 rs2) s = .next (stopAt s t c (controlTrap (trapInfo x a) k.pc))
    (routeKey w 0 = none → faults s .format 0) ∧
    (routeKey w 0 ≠ none → va.toNat % 32 ≠ 0 → faults s .misalign va) ∧
    (va.toNat % 32 = 0 → readImage c va 32 s = .ok v s1 → routeKey w (BitVec.ofNat 16 (v >>> 64)) = some key →
      let k1 := getCore s1 c
      let r := routeEntry key v k1.tregs.tenant
      strayBits routeFields v = false → routeOk r = true →
      (∀ x, findContext s1 r.ctx = some x → x.tenant = k1.tregs.tenant →
        ((∀ e ∈ k1.tables.route, e.key ≠ key) → k1.tables.route.length < 256 → s1.cur = c →
          exec (.bind rs1 rs2) s = .next (updCore s1 c fun k => retire { k with tables := { k.tables with route := k.tables.route ++ [r] } } 4)) ∧
        ((∃ e ∈ k1.tables.route, e.key = key) ∨ 256 ≤ k1.tables.route.length → faults s1 .queueFault 0)) ∧
      ((∀ x, findContext s1 r.ctx = some x → x.tenant ≠ k1.tregs.tenant) → faults s1 .protect va)) ∧
    (routeKey w (ctxOf k) = some key →
      ((∀ e ∈ k.tables.route, e.key ≠ key) → exec (.unbind rs1) s = commits s id) ∧
      (∀ e, k.tables.route.find? (fun e => e.key == key) = some e → e.tenant = k.tregs.tenant →
        exec (.unbind rs1) s = .next (let t := removeRoute s c key; updCore t t.cur fun k => retire k 4)))

/-- R298 to R300, R313 to R315: the pattern book and the route table. -/
def Obligations.BooksAndRoutes : Prop :=
  Sys2Proof.Parts.PatternBook ∧ Sys2Proof.Parts.RouteTable

/-- R316, R317: `gtset` and `gtclr` raise PRIV at task level. Above it, `gtset` of an image that keeps the rules, for a context of the executing
tenant, at a node that is reachable and holds no entry of the GID and has room, appends the entry there; `gtclr` at a node without one does
nothing, and removes the entry of a group with no wave in progress, no open slot and no abort under way.
That the home serves the first issue is the model's choice (log 8), and so is PROTECT for no context (log 35). -/
def Obligations.TreeTables : Prop :=
  ∀ (s s1 : State) (rs1 rs2 : BitVec 5) (v : Nat) (n : Node) (gid : BitVec 12), Drained (here s) → LinkFree (here s) →
    let c := s.cur
    let k := here s
    let va := getS k rs2
    let priv (i : Instr) : Prop := exec i s = .next (stopAt s s c (controlTrap (trapInfo .priv (encodingOf i)) k.pc))
    (k.level = .task → priv (.gtset rs1 rs2) ∧ priv (.gtclr rs1)) ∧
    (k.level ≠ .task → nodeOf (getS k rs1) = some (n, gid) → (∀ d, n = some d → Reaches s c d) →
      (va.toNat % 16 = 0 → readImage c va 16 s = .ok v s1 → s1.cur = c → LinkFree (here s1) → HomeTakes s1 c none →
        (∀ d, n = some d → Reaches s1 c d) →
        let e := treeEntry gid v (here s1).tregs.tenant
        treeOk n v e = true → (∃ x, findContext s1 e.ctx = some x ∧ x.tenant = (here s1).tregs.tenant) →
        treeAt s1 n gid = none → (treesAt s1 n).length < (if n.isSome then 64 else 1024) →
        exec (.gtset rs1 rs2) s = .next (let t := served s1 none 0 fun u => setTrees u n (treesAt u n ++ [e]); updCore t t.cur fun k => retire k 4)) ∧
      (HomeTakes s c none → treeAt s n gid = none → exec (.gtclr rs1) s = .next (let t := served s none 0 id; updCore t t.cur fun k => retire k 4)) ∧
      (∀ e, HomeTakes s c none → treeAt s n gid = some e → groupBusy s gid e.ctx = false → groupAborting s gid e.ctx = false →
        exec (.gtclr rs1) s = .next (let t := served s none 0 fun u => setTrees u n ((treesAt u n).filter fun e => e.gid != gid)
                                     updCore t t.cur fun k => retire k 4)))

/-! ### Barriers (R324 to R333) -/

/-- R327: an arrival, after a release of all regions at `.pkg`, counts the core in ARRIVED and DONE; the one that makes ARRIVED = EXPECT completes the phase:
PHASE + 1, ARRIVED 0, DONE empty, EXPECT = SETN less the dropped, every waiter released. `bdrop` also drops the core, from this phase's
end on.
That the home serves the first issue is the model's choice (log 8). -/
def Sys2Proof.Parts.BarrierArrivals : Prop :=
  ∀ (s : State) (b : Byte) (rs1 : BitVec 5) (home : CoreId) (drop : Bool), Drained (here s) → LinkFree (here s) →
    ReleaseFree s s.cur .pkg allRegions →
    let c := s.cur
    let s1 := release s c .pkg allRegions
    LinkFree (getCore s1 c) → HomeTakes s1 c none → s1.cur = c → homeOf (getS (here s) rs1) = some home →
    let u := afterIssue s1 c
    let k := getCore u c
    let v := barrierAt u home b
    Reaches u c home → v.state = .active → v.tenant = k.tregs.tenant → v.ctx = ctxOf k → ¬ c ∈ v.gone → ¬ c ∈ v.doneSet → v.arrived + 1 ≤ v.expect →
    let gone := if drop then v.gone ++ [c] else v.gone
    ∃ t, exec (if drop then .bdrop b rs1 else .barr b rs1) s = .next t ∧
      (v.arrived + 1 < v.expect → barrierAt t home b = { v with arrived := v.arrived + 1, doneSet := v.doneSet ++ [c], gone := gone }) ∧
      (v.arrived + 1 = v.expect →
        barrierAt t home b = { v with phase := v.phase + 1, arrived := 0, doneSet := [], gone := gone, expect := v.setn - gone.length, waiters := [] } ∧
        ∀ x ∈ v.waiters, (getCore u x).streams.barWait = .waiting home b → (getCore t x).streams.barWait = .released) ∧
      (∀ x m, x ≠ home ∨ m ≠ b → barrierAt t x m = barrierAt u x m) ∧
      t.store = s1.store ∧ t.l2 = s1.l2 ∧ (getCore t c).files = (getCore s1 c).files ∧ (getCore t c).pc = (getCore s1 c).pc + 4

/-- R327, R328, R330, R331: what `barr`, `barw` and `bdrop` raise at their home in place of arriving: BARRIER_OVER with reason 0 for a dropped core, 1 for one in DONE, 2
beyond EXPECT; QUEUE_FAULT at a FREE entry or another context's; GANG_BROKEN at a BROKEN one. -/
def Sys2Proof.Parts.BarrierFaults : Prop :=
  ∀ (s : State) (b : Byte) (rs1 : BitVec 5) (home : CoreId), Drained (here s) → LinkFree (here s) →
    (here s).streams.arrived ≠ some (here s).pc → (here s).streams.barWait = .idle → ReleaseFree s s.cur .pkg allRegions →
    let c := s.cur
    let s1 := release s c .pkg allRegions
    LinkFree (getCore s1 c) → HomeTakes s1 c none → s1.cur = c → homeOf (getS (here s) rs1) = some home →
    let u := afterIssue s1 c
    let k := getCore u c
    let v := barrierAt u home b
    Reaches u c home → v.state = .free ∨ v.tenant = k.tregs.tenant →
    ∀ i ∈ [Instr.barr b rs1, .bdrop b rs1, .barw b rs1],
      let faults (x : Cause) (e : Nat) : Prop :=
        exec i s = .next (stopAt s u c (controlTrap (trapInfo x (BitVec.ofNat 64 e)) (here s).pc))
      let exceeds (reason : Nat) : Prop :=
        faults .barrierOver (coreX home + 2 ^ 8 * coreY home + 2 ^ 16 * b.toNat + 2 ^ 24 * reason + 2 ^ 32 * v.phase.toNat)
      (v.state = .free ∨ v.ctx ≠ ctxOf k → faults .queueFault 0) ∧
      (v.state = .broken → v.ctx = ctxOf k → faults .gangBroken (coreX v.lost + 2 ^ 8 * coreY v.lost + 2 ^ 16 * b.toNat)) ∧
      (v.state = .active → v.ctx = ctxOf k →
        (c ∈ v.gone → exceeds 0) ∧ (¬ c ∈ v.gone → c ∈ v.doneSet → exceeds 1) ∧
        (¬ c ∈ v.gone → ¬ c ∈ v.doneSet → v.expect < v.arrived + 1 → exceeds 2))

/-- R327 to R331: arrivals, and the faults of a barrier. -/
def Obligations.BarrierArrivalRules : Prop :=
  Sys2Proof.Parts.BarrierArrivals ∧ Sys2Proof.Parts.BarrierFaults

/-- R328, R329, R331: `bwait` of a core that is not in DONE, and `barw` whose arrival completes the phase, complete with an acquire of all regions at
`.pkg`; a core in DONE joins the waiters and waits; a wait that its home has released completes with the acquire, one that a lost core has
broken raises GANG_BROKEN, and any other goes on waiting. A `bwait` at a FREE entry or another context's raises QUEUE_FAULT, and at a BROKEN one
GANG_BROKEN.
That the home serves the first issue is the model's choice (log 8). -/
def Obligations.BarrierWaits : Prop :=
  ∀ (s : State) (b : Byte) (rs1 : BitVec 5) (home : CoreId), LinkFree (here s) → homeOf (getS (here s) rs1) = some home →
    let c := s.cur
    let k := here s
    let ends (t : State) : State :=
      let t := joinSync (updCore t c fun k => { k with streams := { k.streams with arrived := none, barWait := .idle } }) c (.acq .pkg allRegions)
      updCore t t.cur fun k => retire k 4
    (∀ i ∈ [Instr.bwait b rs1, .barw b rs1],
      (k.streams.barWait = .released → AcquireFree s c .pkg allRegions → exec i s = .next (ends s)) ∧
      (∀ e, k.streams.barWait = .broken e → exec i s = .next (stopAt s
        (updCore s c fun k => { k with streams := { k.streams with barWait := .idle } }) c (controlTrap (trapInfo .gangBroken e) k.pc))) ∧
      (∀ h m, k.streams.barWait = .waiting h m → exec i s = .next s)) ∧
    (k.streams.barWait = .idle →
      (let u := afterIssue s c
       let v := barrierAt u home b
       HomeTakes s c none → Reaches u c home →
       (v.state = .free ∨ v.tenant = k.tregs.tenant →
         let faults (x : Cause) (e : Nat) : Prop :=
           exec (.bwait b rs1) s = .next (stopAt s u c (controlTrap (trapInfo x (BitVec.ofNat 64 e)) k.pc))
         (v.state = .free ∨ v.ctx ≠ ctxOf k → faults .queueFault 0) ∧
         (v.state = .broken → v.ctx = ctxOf k → faults .gangBroken (coreX v.lost + 2 ^ 8 * coreY v.lost + 2 ^ 16 * b.toNat))) ∧
       (v.state = .active → v.tenant = k.tregs.tenant → v.ctx = ctxOf k →
       (¬ c ∈ v.doneSet → AcquireFree u c .pkg allRegions → exec (.bwait b rs1) s = .next (ends (afterReply u c none k.seq 1))) ∧
       (c ∈ v.doneSet → ∃ t, exec (.bwait b rs1) s = .next t ∧ c ∈ (barrierAt t home b).waiters ∧
         (getCore t c).streams.barWait = .waiting home b ∧ (getCore t c).pc = k.pc ∧ t.store = s.store ∧ t.l2 = s.l2))) ∧
      (let s1 := release s c .pkg allRegions
       Drained k → k.streams.arrived ≠ some k.pc → ReleaseFree s c .pkg allRegions → LinkFree (getCore s1 c) → HomeTakes s1 c none → s1.cur = c →
       let u := afterIssue s1 c
       let v := barrierAt u home b
       Reaches u c home → v.state = .active → v.tenant = (getCore u c).tregs.tenant → v.ctx = ctxOf (getCore u c) → ¬ c ∈ v.gone → ¬ c ∈ v.doneSet →
       (v.arrived + 1 = v.expect →
         let t := completePhase u home b { v with arrived := v.arrived + 1, doneSet := v.doneSet ++ [c] }
         AcquireFree t c .pkg allRegions → exec (.barw b rs1) s = .next (ends (afterReply t c none (getCore s1 c).seq 1))) ∧
       (v.arrived + 1 < v.expect → ∃ t, exec (.barw b rs1) s = .next t ∧
         c ∈ (barrierAt t home b).doneSet ∧ c ∈ (barrierAt t home b).waiters ∧ (barrierAt t home b).arrived = v.arrived + 1 ∧
         (getCore t c).streams.arrived = some (getCore t c).pc ∧ (getCore t c).streams.barWait = .waiting home b ∧
         (getCore t c).pc = (getCore s1 c).pc)))

/-- R325, R326: `bset` at a reachable home makes a FREE entry ACTIVE for the executing context and tenant with EXPECT = SETN = its count, leaves an entry
of the same context and count as it is, frees one of the same context without waiters at count 0, and raises QUEUE_FAULT else; an entry of another
tenant raises PROTECT, a count above 256 FORMAT.
That the home serves the first issue, and EINFO of PROTECT, are the model's choices (logs 8 and 30). -/
def Sys2Proof.Parts.BarrierSets : Prop :=
  ∀ (s : State) (b : Byte) (rs1 rs2 : BitVec 5) (home : CoreId), LinkFree (here s) → HomeTakes s s.cur none →
    let c := s.cur
    let k := here s
    let w := getS k rs1
    let n := (getS k rs2).toNat
    let v := barrierAt s home b
    let sets (f : State → State) : Prop := exec (.bset b rs1 rs2) s = .next (let t := served s none 0 f; updCore t t.cur fun k => retire k 4)
    let faults (x : Cause) (e : DWord) : Prop :=
      exec (.bset b rs1 rs2) s = .next (stopAt s (afterIssue s c) c (controlTrap (trapInfo x e) k.pc))
    homeOf w = some home →
    (256 < n → exec (.bset b rs1 rs2) s = .next (stopAt s s c (controlTrap (trapInfo .format 0) k.pc))) ∧
    (n ≤ 256 → Reaches s c home →
      (v.state = .free → 0 < n → sets fun u => putBarrier u home b
        { state := .active, ctx := ctxOf k, tenant := k.tregs.tenant, setn := n, expect := n, arrived := 0, phase := 0, doneSet := [], gone := []
          waiters := [], lost := 0 }) ∧
      (v.state = .free → n = 0 → sets id) ∧
      (v.state ≠ .free → v.tenant ≠ k.tregs.tenant → faults .protect w) ∧
      (v.state ≠ .free → v.tenant = k.tregs.tenant →
        (0 < n → v.state = .active → v.ctx = ctxOf k → v.setn = n → sets id) ∧
        (0 < n → v.state ≠ .active ∨ v.ctx ≠ ctxOf k ∨ v.setn ≠ n → faults .queueFault 0) ∧
        (n = 0 → v.ctx = ctxOf k → v.waiters = [] → sets fun u => putBarrier u home b Barrier.blank) ∧
        (n = 0 → v.ctx ≠ ctxOf k ∨ v.waiters ≠ [] → faults .queueFault 0)))

/-- R332: `bquery` at a reachable home reads 0 of a FREE entry and of one of another context or tenant, else ARRIVED from bit 0, EXPECT from bit 16, PHASE[15:0]
from bit 32, 1 for ACTIVE or 2 for BROKEN in bits 49:48, and in bits 50 and 51 whether the core is in DONE and dropped. -/
def Sys2Proof.Parts.BarrierQueries : Prop :=
  ∀ (s : State) (rd : BitVec 5) (b : Byte) (rs1 : BitVec 5) (home : CoreId), LinkFree (here s) → HomeTakes s s.cur none →
    homeOf (getS (here s) rs1) = some home → Reaches s s.cur home →
    let c := s.cur
    let k := here s
    let v := barrierAt s home b
    let answers (x : Nat) : Prop := exec (.bquery rd b rs1) s = .next
      (let t := updCore (served s none (BitVec.ofNat 64 x) id) c fun k => setS k rd (BitVec.ofNat 64 x); updCore t t.cur fun k => retire k 4)
    (v.state = .free ∨ v.ctx ≠ ctxOf k ∨ v.tenant ≠ k.tregs.tenant → answers 0) ∧
    (v.state ≠ .free → v.ctx = ctxOf k → v.tenant = k.tregs.tenant →
      answers (v.arrived + v.expect * 2 ^ 16 + v.phase.toNat % 2 ^ 16 * 2 ^ 32 + (if v.state = .broken then 2 else 1) * 2 ^ 48
        + (if c ∈ v.doneSet then 2 ^ 50 else 0) + (if c ∈ v.gone then 2 ^ 51 else 0)))

/-- R324 to R326: `bset`, and what a query reads. -/
def Obligations.BarrierEntries : Prop :=
  Sys2Proof.Parts.BarrierSets ∧ Sys2Proof.Parts.BarrierQueries

/-! ### Events of the concierge and of the cores (R28 to R47, R158, R200, R252, R291, R376 to R378) -/

/-- An event of the table, well formed, acts on a package that has power, and changes nothing without power, but for `powerUp`; one that names
what the package does not have is a fault.
That an event without power does nothing is the model's choice (logs 4 and 33). -/
def Obligations.EventsAct : Prop :=
  ∀ (i : Instr) (f : State → State) (s : State), eventEffect i = some f →
    (i.wellFormed = true → exec i s = .next (if s.hub.regs.power.on = true ∨ i = .powerUp then f s else s)) ∧
    (i.wellFormed = false → exec i s = .fault .badEvent)

/-- R40, R41: placing a launch keeps the footprints that are occupied apart from each other, and occupies only ready clusters. -/
def Obligations.FootprintsStayDisjoint : Prop :=
  ∀ (s : State), s.hub.regs.power.on = true → DistinctLids s → FootprintsDisjoint s →
    ∃ t, exec .placeLaunch s = .next t ∧ DistinctLids t ∧ FootprintsDisjoint t ∧
      (∀ l ∈ t.hub.launches, l.occupies = true →
        (∃ m ∈ s.hub.launches, m.lid = l.lid ∧ m.occupies = true) ∨ rectReady s l.rect = true)

/-- R46, R200, R291, R376 to R378: a budget of one cycle that runs out at task level becomes 0 and the BUDGET cause pending; an L1 line that is
not owned and as old as its lease becomes stale; a request without a reply at its time-out, of the control thread or of a stream, is due for a reissue,
after the third has failed, and before its time-out, or while its home holds it, stays; a record of an L2 home goes 262,144 ticks after its
last copy, one of a barrier's home or of a node stays; an entry leaves a TLB.
The events are the model's inputs (log 33), and BUDGET as log 40 says. -/
def Obligations.TimersAndLeases : Prop :=
  ∀ (s : State) (c : CoreId), s.hub.regs.power.on = true → isCore c = true →
    let k := getCore s c
    (k.level = .task → k.task.isSome = true → k.tregs.budget = 1 → ∃ t, exec (.budgetExpiry c) s = .next t ∧ OnlyAt s t c ∧
      getCore t c = { k with tregs := { k.tregs with budget := 0 }, pend := { k.pend with budget := true } }) ∧
    (∀ (line : BitVec 45) (l : L1Line), k.l1.find line.toNat = some l → l.owned = false → l.lease.toNat ≤ (s.time - l.filled).toNat →
      ∃ t, exec (.lease1Expiry c line) s = .next t ∧ OnlyAt s t c ∧
        (getCore t c).l1.find line.toNat = some { l with stale := true } ∧
        (∀ n, n ≠ line.toNat → (getCore t c).l1.find n = k.l1.find n)) ∧
    (∀ r : Remote, r.due = false → r.failed = false →
      let late : Remote := if r.reissues < 3 then { r with due := true } else { r with failed := true }
      let next : Remote := if r.held = true ∨ (s.time - r.issued).toNat < (if r.long then 1048576 else 16384) then r else late
      (k.remote = some r → k.posted = [] →
        ∃ t, exec (.requestTimeout c) s = .next t ∧ OnlyAt s t c ∧ getCore t c = { k with remote := some next }) ∧
      (∀ n, k.remote = none → k.posted = [(n, r)] →
        ∃ t, exec (.requestTimeout c) s = .next t ∧ OnlyAt s t c ∧ getCore t c = { k with posted := [(n, next)] })) ∧
    (∃ t, exec .duplicateRecordExpiry s = .next t ∧ OnlyHub s t ∧
      (∀ d, d ∈ t.hub.dups ↔ d ∈ s.hub.dups ∧ (d.home = none ∨ (s.time - d.tick).toNat < 262144))) ∧
    (∀ xs x ys, k.tables.tlb = xs ++ x :: ys → ∃ t, exec (.tlbEvict c xs.length) s = .next t ∧ OnlyAt s t c ∧
      getCore t c = { k with tables := { k.tables with tlb := xs ++ ys } }) ∧
    exec .timebaseHalt s = .next { s with timeHalted := true } ∧ exec .timebaseResume s = .next { s with timeHalted := false } ∧
    (s.timeHalted = true → elapse s c = s)

/-- R252, R253, R376 to R378: a packet that is due and that no earlier one of its source holds back: a lost flit keeps it to be sent again, and with
good flits it reaches its core. One that the core has accepted before counts in PKTDROP alone, a tag that is unbound, or bound for another
context, discards it with PKTDROP and a record, a full buffer keeps it in the network, and else it stands at the end of the buffer. -/
def Sys2Proof.Parts.PacketsArrive : Prop :=
  ∀ (s : State) (xs ys : List Packet) (p : Packet), s.hub.regs.power.on = true → s.hub.net = xs ++ p :: ys →
    (∀ q ∈ xs, ¬(q.source = p.source ∧ q.dst = p.dst)) → Reaches s p.src p.dst → p.way.passage s.time false = .goes →
    let k := getCore s p.dst
    let i : Instr := .packetArrival xs.length
    let s1 := markPassage s p.ctx p.src p.dst
    let full : Prop := 64 ≤ k.queues.recv.length ∧ stalePacket k p = false ∧ ∃ e, routeOf k p.tag = some e ∧ e.ctx = p.ctx
    let answered (u : State) : Prop := exec i s = .next (endPacket u xs.length p)
    (full → exec i s = .next s) ∧
    (∀ r, ¬full → s.hub.flits = false :: r → exec i s = .next (keepPacket { s with hub := { s.hub with flits := r } } xs.length)) ∧
    (s.hub.flits = [] →
      (stalePacket k p = true → answered (updCore s1 p.dst dropPacket)) ∧
      (stalePacket k p = false → routeOf k p.tag = none → answered (pktDisc s1 p.dst p 0)) ∧
      (∀ e, stalePacket k p = false → routeOf k p.tag = some e →
        (e.ctx ≠ p.ctx → answered (pktDisc s1 p.dst p 1)) ∧
        (e.ctx = p.ctx → k.queues.recv.length < 64 → ∃ t, exec i s = .next t ∧ t.hub.net = xs ++ ys ∧ t.l2 = s.l2 ∧ t.store = s.store ∧
          (getCore t p.dst).queues = { k.queues with recv := k.queues.recv ++ [{ pkt := p, tick := s.time }] } ∧
          (p.carrier = false → (getCore t p.dst).pktSeen.find p.source = some p.seq))))

/-- R158, R159: a load of a latch that completes makes it FULL, but for rows that a hand-on moves. A hand-on that waits makes the neighbour's EMPTY
latch LOADING with the tile, and at its end FULL, and empties the sender's. -/
def Sys2Proof.Parts.TilesMove : Prop :=
  (∀ (s : State) (c : CoreId) (l : BitVec 1), s.hub.regs.power.on = true → isCore c = true →
    (latchOf (getCore s c) l).state = .loading → movingInto s c l = false → ∃ t, exec (.latchLoadComplete c l) s = .next t ∧ OnlyAt s t c ∧
      (latchOf (getCore t c) l).state = .full ∧ (latchOf (getCore t c) l).tile = (latchOf (getCore s c) l).tile ∧
      (∀ m, m ≠ l → latchOf (getCore t c) m = latchOf (getCore s c) m)) ∧
  (∀ (s : State) (c : CoreId) (i j : BitVec 1), s.hub.regs.power.on = true → isCore c = true → handOnOf (getCore s c) = some (i, j) →
    let n := ringNeighbour (getCore s c) c
    n ≠ c → sameGang (getCore s c) (getCore s n) = true → (getCore s n).fenced = false →
    (handsOn (getCore s c) = false → (latchOf (getCore s n) j).state = .empty → ∃ t, exec (.handOn c i) s = .next t ∧
      handsOn (getCore t c) = true ∧ (latchOf (getCore t n) j).state = .loading ∧
      (latchOf (getCore t n) j).tile = (latchOf (getCore s c) i).tile ∧ (latchOf (getCore t n) j).hdr = (latchOf (getCore s c) i).hdr ∧
      (latchOf (getCore t n) j).psn = (latchOf (getCore s c) i).psn ∧ (∀ m, latchOf (getCore t c) m = latchOf (getCore s c) m)) ∧
    (handsOn (getCore s c) = false → (latchOf (getCore s n) j).state ≠ .empty → exec (.handOn c i) s = .next s) ∧
    (handsOn (getCore s c) = true → (latchOf (getCore s n) j).state = .loading → ∃ t, exec (.handOn c i) s = .next t ∧
      (latchOf (getCore t n) j).state = .full ∧ (latchOf (getCore t n) j).tile = (latchOf (getCore s n) j).tile ∧
      (latchOf (getCore t c) i).state = .empty ∧ (∀ m, m ≠ i → latchOf (getCore t c) m = latchOf (getCore s c) m)))

/-- R158, R159, R252: packets that arrive, and tiles that move. -/
def Obligations.ArrivalsAndTiles : Prop :=
  Sys2Proof.Parts.PacketsArrive ∧ Sys2Proof.Parts.TilesMove

/-! ### Faults, resets, power and the registers of the hub (R182, R249, R294, R336, R363, R374, R384, R392 to R394) -/

/-- R363, R374: a fenced core stops, its task is lost, its cluster's READY bit clears, and no copy, no partial and no registration of a line stays with it; a core that is fenced already
stays as it is. R182, R249, R393: a reset of the core leaves it with no task and empty queues; a reset of the package empties
every copy and keeps the contents of memory outside the cores.
What a fence discards and a reset keeps beyond the rules is the model's choice (logs 26, 27 and 29). -/
def Obligations.FencesAndResets : Prop :=
  ∀ (s : State) (c : CoreId), s.hub.regs.power.on = true → isCore c = true →
    let k := getCore s c
    (k.fenced = false → ∃ t, exec (.coreFence c) s = .next t ∧ (getCore t c).fenced = true ∧ (getCore t c).task = none ∧
      (getCore t c).lost = k.task ∧ (getCore t c).l1 = [] ∧ (getCore t c).homes = [] ∧ (getCore t c).partials = [] ∧
      (∀ e ∈ t.hub.owners, e.2 ≠ c) ∧
      bitAt t.hub.regs.ready.clu (clusterOf c) = false) ∧
    (k.fenced = true → exec (.coreFence c) s = .next s) ∧
    (∃ t, exec (.coreReset c) s = .next t ∧ (getCore t c).task = none ∧ (getCore t c).fenced = false ∧ (getCore t c).queues = Queues.reset ∧
      (getCore t c).files = Files.reset ∧ (getCore t c).tregs = TaskRegs.reset ∧ (getCore t c).cregs = CoreRegs.reset) ∧
    (∃ t, exec .packageReset s = .next t ∧ t.cores = [] ∧ t.l2 = [] ∧ t.hub.regs.ready = HubRegs.reset.ready ∧ t.time = 0 ∧
      (∀ a, aperture a ≠ 1 → t.store.bytes.filter (fun p => p.1 == a) = s.store.bytes.filter fun p => p.1 == a))

/-- R384, R336, R294, R392 to R394: LPUSH takes an aligned address into the FIFO that has room and counts it, and ignores another; a write of an
event counter replaces COUNT; the region table refuses reserved values and keeps bits 40:0, with WATCH 0 for region 0, and every core reads the new
version; the hub readies
first; the management controller lowers the clock by 25 MHz above the power limit, to 500 MHz from 110 °C on, and at 125 °C power goes; an
image that fails a check leaves the firmware, and any other replaces it and never lowers the fused minimum.
That nothing raises the clock, and the versions of the firmware, are the model's choices (logs 6 and 17). -/
def Obligations.HubActs : Prop :=
  ∀ (s : State), s.hub.regs.power.on = true →
    let h := s.hub.regs
    (∀ v : DWord, v.toNat % 128 = 0 → s.hub.fifo.length < 1024 → s.hub.fifoHeld = [] → ∃ t, exec (.lpush v) s = .next t ∧ OnlyHub s t ∧
      t.hub = { s.hub with fifo := s.hub.fifo ++ [v], regs := { h with lcount := h.lcount + 1 } }) ∧
    (∀ v : DWord, v.toNat % 128 ≠ 0 → exec (.lpush v) s = .next (report s (plainErr 13 false 0xFFFF v.toNat 1))) ∧
    (∀ (n : BitVec 12) (v : Word), ∃ t, exec (.eventCounterWrite n v) s = .next t ∧ OnlyHub s t ∧
      (∀ m : BitVec 12, (t.hub.regs.events.find m.toNat).getD 0 = if m = n then v else (h.events.find m.toNat).getD 0)) ∧
    (∀ (g : Byte) (v : DWord), ((6 ≤ v.toNat / 2 ^ 34 % 8 ∨ 14 ≤ v.toNat / 2 ^ 37 % 16) →
      exec (.regionTableWrite g v) s = .next (report s (plainErr 10 false 0xFFFF g.toNat v.toNat))) ∧
      (v.toNat / 2 ^ 34 % 8 ≤ 5 → v.toNat / 2 ^ 37 % 16 ≤ 13 → v.toNat / 2 ^ 33 % 2 = 0 →
        ∃ t, exec (.regionTableWrite g v) s = .next t ∧ t.l2 = s.l2 ∧ t.store = s.store ∧
          (∀ c, { getCore t c with tables := (getCore s c).tables } = getCore s c ∧
            versionOf t c g = BitVec.ofNat 32 v.toNat) ∧
          t.hub.regs.regions.find g.toNat = some (if g = 0 then putBit (BitVec.ofNat 64 (v.toNat % 2 ^ 41)) 32 false
            else BitVec.ofNat 64 (v.toNat % 2 ^ 41)))) ∧
    (h.ready.hub = false → ∀ n : BitVec 5, exec (.functionReady (.hbm n)) s = .next s) ∧
    (h.ready.hub = true → ∀ n : BitVec 5, ∃ t, exec (.functionReady (.hbm n)) s = .next t ∧ OnlyHub s t ∧
      t.hub.regs.ready = { h.ready with hbm := putBit h.ready.hbm n.toNat true }) ∧
    (∀ (w : HWord) (d : Byte), 500 ≤ h.power.clk.toNat → ∃ t, exec (.powerCap w d) s = .next t ∧ OnlyHub s t ∧
      (t.hub.regs.power.on = true ↔ d.toNat < 125) ∧ t.hub.regs.power.clk.toNat = if 110 ≤ d.toNat then 500 else if h.power.plim.toNat < w.toNat then max 500 (h.power.clk.toNat - 25)
        else h.power.clk.toNat) ∧
    (∀ d : Byte, ∃ t, exec (.thermalTrip d) s = .next t ∧ OnlyHub s t ∧ (t.hub.regs.power.on = true ↔ d.toNat < 125) ∧
      t.hub.regs.power.clk.toNat = if 110 ≤ d.toNat then 500 else h.power.clk.toNat) ∧
    (∀ img : FwImage, ∃ t, exec (.firmwareImage img) s = .next t ∧
      t.hub.regs.fwVersion = (if img.wellFormed ∧ img.signed ∧ img.keyFused ∧ h.fwMinimum ≤ img.version then img.version else h.fwVersion) ∧
      h.fwMinimum ≤ t.hub.regs.fwMinimum)

/-! ### Memory and reset (R92, R98, R182, R384) -/

/-- Every step keeps the byte memory in its canonical form. -/
def Obligations.MemoryCanonicalKept : Prop := KeptByStep MemoryCanonical

/-- R92, R98, R384: what reset leaves: the scalars 0, the frame rows 0 with the tag NONE, the scales 1.0, `k0` all ones and the other masks 0, the
hoops +0.0, the latches EMPTY, the queues empty, VL 64, the boundaries 16, 32 and 192, the leases 65,536 and 1,048,576, every other
special register 0, no function ready, PLIM 15,000 and CLK 2,000. That a core then holds no task, and that memory stands in the canonical form, are the
model's (logs 2 and 1). -/
def Obligations.ResetState : Prop :=
  (∀ c, getCore State.reset c = Core.reset) ∧ MemoryCanonical State.reset ∧
  (∀ r, getS Core.reset r = 0) ∧
  (∀ n : BitVec 6, (getRow Core.reset n).row.tag = 0 ∧ (getRow Core.reset n).row.bits = 0) ∧
  (∀ n : Fin 256, Core.reset.files.sc[n] = 0x3F800000) ∧
  (∀ n : Fin 8, Core.reset.files.k[n] = if n = 0 then BitVec.allOnes 64 else 0) ∧
  (∀ (h : BitVec 2) (i j : Nat), i < 64 → j < 128 → (hoopOf Core.reset h).elem i j = 0) ∧
  (∀ l, (latchOf Core.reset l).state = .empty) ∧ Core.reset.queues = Queues.reset ∧ Core.reset.task = none ∧
  Core.reset.tregs.vl = 64 ∧ Core.reset.tregs.bnda = 16 ∧ Core.reset.tregs.bndb = 32 ∧ Core.reset.tregs.bndc = 192 ∧
  Core.reset.cregs.lease1 = 65536 ∧ Core.reset.cregs.lease2 = 1048576 ∧
  (∀ (c : CoreId) (r : Spr), ¬ r ∈ [Spr.vl, .coord, .time, .bnda, .bndb, .bndc, .lease1, .lease2] → getSpr State.reset c r = 0) ∧
  State.reset.hub.regs.ready = { hub := false, md := 0, hbm := 0, clu := 0, fab := 0, host := 0 } ∧
  State.reset.hub.regs.power.plim = 15000 ∧ State.reset.hub.regs.power.clk = 2000 ∧ State.reset.hub.regs.lcount = 0

/-- R191, R219: what a store puts into the own scratchpad, a load of the same size and place reads back. -/
def Obligations.ReadAfterWrite : Prop :=
  ∀ (s : State) (rt rd rs1 : BitVec 5) (imm : BitVec 12) (off i : Nat), Drained (here s) → i < 4 →
    ∀ st ld, (Stores rt rs1 imm)[i]? = some st →
      ld ∈ (Loads rd rs1 imm).filter (fun f => f.2.1 == st.2) → OwnScratch s (eaOf (here s) rs1 imm) off st.2 →
      CleanAt s (sramKey s.cur off) st.2 →
      let v := (getS (here s) rt).toNat % 2 ^ (8 * st.2)
      ∃ t, exec st.1 s = .next t ∧
        exec ld.1 t = .next (writeScalar t rd (if ld.2.2 then BitVec.ofInt 64 (BitVec.ofNat (8 * st.2) v).toInt else BitVec.ofNat 64 v))
end

