-- ==== Sys2Proof/Laws/State.lean ====
section
/-!
SUPPORT. What each update of the state leaves in each field: one lemma for each field and update, so that no proof unfolds a
record update.
-/

namespace Sys2Proof

/-! ### Tables (Tab) -/

@[simp] theorem Tab.find_nil {α : Type} (k : Nat) : Tab.find ([] : Tab α) k = none := rfl

/-- What was put at a key is found there. -/
@[simp] theorem Tab.find_put_self {α : Type} (t : Tab α) (k : Nat) (a : α) : (t.put k a).find k = some a := by
  induction t with
  | nil => simp [Tab.put, Tab.find]
  | cons e r ih =>
    obtain ⟨j, b⟩ := e
    unfold Tab.put
    split
    · simp [Tab.find]
    · split
      · simp [Tab.find]
      · rename_i h1 h2
        simp [Tab.find, Ne.symm h2, ih]

/-- A put at one key leaves every other key alone. -/
theorem Tab.find_put_other {α : Type} (t : Tab α) (k j : Nat) (a : α) (h : j ≠ k) : (t.put k a).find j = t.find j := by
  induction t with
  | nil => simp [Tab.put, Tab.find, Ne.symm h]
  | cons e r ih =>
    obtain ⟨i, b⟩ := e
    unfold Tab.put
    split
    · simp [Tab.find, Ne.symm h]
    · split
      · rename_i h1 h2
        subst h2
        simp [Tab.find, Ne.symm h]
      · simp only [Tab.find]
        split <;> simp_all

namespace Machine

/-! ### Cores of the package -/

@[simp] theorem getCore_setCore_self (s : State) (c : CoreId) (k : Core) : getCore (setCore s c k) c = k := by
  simp [getCore, setCore]

/-- A core set leaves every other core alone. -/
theorem getCore_setCore_other (s : State) (c d : CoreId) (k : Core) (h : d ≠ c) : getCore (setCore s c k) d = getCore s d := by
  have : d.toNat ≠ c.toNat := fun e => h (BitVec.eq_of_toNat_eq e)
  simp [getCore, setCore, Tab.find_put_other _ _ _ _ this]

@[simp] theorem getCore_updCore_self (s : State) (c : CoreId) (f : Core → Core) : getCore (updCore s c f) c = f (getCore s c) := by
  simp [updCore]

/-- A core changed leaves every other core alone. -/
theorem getCore_updCore_other (s : State) (c d : CoreId) (f : Core → Core) (h : d ≠ c) :
    getCore (updCore s c f) d = getCore s d := getCore_setCore_other s c d _ h

/-- Two changes of one core in a row are one. -/
theorem setCore_setCore (s : State) (c : CoreId) (k k' : Core) : setCore (setCore s c k) c k' = setCore s c k' := by
  have put_put : ∀ (t : Tab Core) (n : Nat), (t.put n k).put n k' = t.put n k' := by
    intro t n
    induction t with
    | nil => simp [Tab.put]
    | cons e r ih =>
      obtain ⟨j, b⟩ := e
      by_cases h1 : n < j
      · simp [Tab.put, h1]
      · by_cases h2 : n = j
        · simp [Tab.put, h2]
        · simp [Tab.put, h1, h2, ih]
  simp [setCore, put_put]

@[simp] theorem setCore_hub (s : State) (c : CoreId) (k : Core) : (setCore s c k).hub = s.hub := rfl
@[simp] theorem updCore_hub (s : State) (c : CoreId) (f : Core → Core) : (updCore s c f).hub = s.hub := rfl
@[simp] theorem setCore_l2 (s : State) (c : CoreId) (k : Core) : (setCore s c k).l2 = s.l2 := rfl
@[simp] theorem updCore_l2 (s : State) (c : CoreId) (f : Core → Core) : (updCore s c f).l2 = s.l2 := rfl
@[simp] theorem modRegs_l2 (s : State) (f : HubRegs → HubRegs) : (modRegs s f).l2 = s.l2 := rfl
@[simp] theorem setCore_store (s : State) (c : CoreId) (k : Core) : (setCore s c k).store = s.store := rfl
@[simp] theorem updCore_store (s : State) (c : CoreId) (f : Core → Core) : (updCore s c f).store = s.store := rfl
@[simp] theorem modRegs_store (s : State) (f : HubRegs → HubRegs) : (modRegs s f).store = s.store := rfl
@[simp] theorem setCore_time (s : State) (c : CoreId) (k : Core) : (setCore s c k).time = s.time := rfl
@[simp] theorem updCore_time (s : State) (c : CoreId) (f : Core → Core) : (updCore s c f).time = s.time := rfl
@[simp] theorem modRegs_time (s : State) (f : HubRegs → HubRegs) : (modRegs s f).time = s.time := rfl
@[simp] theorem setCore_phase (s : State) (c : CoreId) (k : Core) : (setCore s c k).phase = s.phase := rfl
@[simp] theorem updCore_phase (s : State) (c : CoreId) (f : Core → Core) : (updCore s c f).phase = s.phase := rfl
@[simp] theorem modRegs_phase (s : State) (f : HubRegs → HubRegs) : (modRegs s f).phase = s.phase := rfl
@[simp] theorem setCore_timeHalted (s : State) (c : CoreId) (k : Core) : (setCore s c k).timeHalted = s.timeHalted := rfl
@[simp] theorem updCore_timeHalted (s : State) (c : CoreId) (f : Core → Core) : (updCore s c f).timeHalted = s.timeHalted := rfl
@[simp] theorem modRegs_timeHalted (s : State) (f : HubRegs → HubRegs) : (modRegs s f).timeHalted = s.timeHalted := rfl
@[simp] theorem setCore_cur (s : State) (c : CoreId) (k : Core) : (setCore s c k).cur = s.cur := rfl
@[simp] theorem updCore_cur (s : State) (c : CoreId) (f : Core → Core) : (updCore s c f).cur = s.cur := rfl
@[simp] theorem modRegs_cur (s : State) (f : HubRegs → HubRegs) : (modRegs s f).cur = s.cur := rfl
@[simp] theorem setCore_agenda (s : State) (c : CoreId) (k : Core) : (setCore s c k).agenda = s.agenda := rfl
@[simp] theorem updCore_agenda (s : State) (c : CoreId) (f : Core → Core) : (updCore s c f).agenda = s.agenda := rfl
@[simp] theorem modRegs_agenda (s : State) (f : HubRegs → HubRegs) : (modRegs s f).agenda = s.agenda := rfl
@[simp] theorem setCore_free (s : State) (c : CoreId) (k : Core) : (setCore s c k).free = s.free := rfl
@[simp] theorem updCore_free (s : State) (c : CoreId) (f : Core → Core) : (updCore s c f).free = s.free := rfl
@[simp] theorem modRegs_free (s : State) (f : HubRegs → HubRegs) : (modRegs s f).free = s.free := rfl
@[simp] theorem setCore_stamp (s : State) (c : CoreId) (k : Core) : (setCore s c k).stamp = s.stamp := rfl
@[simp] theorem updCore_stamp (s : State) (c : CoreId) (f : Core → Core) : (updCore s c f).stamp = s.stamp := rfl
@[simp] theorem modRegs_stamp (s : State) (f : HubRegs → HubRegs) : (modRegs s f).stamp = s.stamp := rfl
@[simp] theorem modRegs_cores (s : State) (f : HubRegs → HubRegs) : (modRegs s f).cores = s.cores := rfl
@[simp] theorem modRegs_regs (s : State) (f : HubRegs → HubRegs) : (modRegs s f).hub.regs = f s.hub.regs := rfl

/-- Counting an event changes the performance counters at most (R339). -/
theorem countPerf_cases (k : Core) (evt n : Nat) : countPerf k evt n = k ∨ ∃ c, countPerf k evt n = { k with ctrs := c } := by
  unfold countPerf
  generalize (match k.level with | .task => 8 | .steward => 9 | .machine => 10) = lvl
  by_cases h : k.ctrs.pmen = 0
  · exact .inl (if_pos h)
  · exact .inr ⟨_, if_neg h⟩

/-! ### countPerf -/

@[simp] theorem countPerf_pc (k : Core) (evt n : Nat) : (countPerf k evt n).pc = k.pc := by
  obtain h | ⟨c, h⟩ := countPerf_cases k evt n <;> rw [h]
@[simp] theorem countPerf_level (k : Core) (evt n : Nat) : (countPerf k evt n).level = k.level := by
  obtain h | ⟨c, h⟩ := countPerf_cases k evt n <;> rw [h]
@[simp] theorem countPerf_halted (k : Core) (evt n : Nat) : (countPerf k evt n).halted = k.halted := by
  obtain h | ⟨c, h⟩ := countPerf_cases k evt n <;> rw [h]
@[simp] theorem countPerf_fenced (k : Core) (evt n : Nat) : (countPerf k evt n).fenced = k.fenced := by
  obtain h | ⟨c, h⟩ := countPerf_cases k evt n <;> rw [h]
@[simp] theorem countPerf_task (k : Core) (evt n : Nat) : (countPerf k evt n).task = k.task := by
  obtain h | ⟨c, h⟩ := countPerf_cases k evt n <;> rw [h]
@[simp] theorem countPerf_lost (k : Core) (evt n : Nat) : (countPerf k evt n).lost = k.lost := by
  obtain h | ⟨c, h⟩ := countPerf_cases k evt n <;> rw [h]
@[simp] theorem countPerf_ending (k : Core) (evt n : Nat) : (countPerf k evt n).ending = k.ending := by
  obtain h | ⟨c, h⟩ := countPerf_cases k evt n <;> rw [h]
@[simp] theorem countPerf_handlerAborted (k : Core) (evt n : Nat) : (countPerf k evt n).handlerAborted = k.handlerAborted := by
  obtain h | ⟨c, h⟩ := countPerf_cases k evt n <;> rw [h]
@[simp] theorem countPerf_returned (k : Core) (evt n : Nat) : (countPerf k evt n).returned = k.returned := by
  obtain h | ⟨c, h⟩ := countPerf_cases k evt n <;> rw [h]
@[simp] theorem countPerf_hasRun (k : Core) (evt n : Nat) : (countPerf k evt n).hasRun = k.hasRun := by
  obtain h | ⟨c, h⟩ := countPerf_cases k evt n <;> rw [h]
@[simp] theorem countPerf_prevTenant (k : Core) (evt n : Nat) : (countPerf k evt n).prevTenant = k.prevTenant := by
  obtain h | ⟨c, h⟩ := countPerf_cases k evt n <;> rw [h]
@[simp] theorem countPerf_activity (k : Core) (evt n : Nat) : (countPerf k evt n).activity = k.activity := by
  obtain h | ⟨c, h⟩ := countPerf_cases k evt n <;> rw [h]
@[simp] theorem countPerf_tregs (k : Core) (evt n : Nat) : (countPerf k evt n).tregs = k.tregs := by
  obtain h | ⟨c, h⟩ := countPerf_cases k evt n <;> rw [h]
@[simp] theorem countPerf_cregs (k : Core) (evt n : Nat) : (countPerf k evt n).cregs = k.cregs := by
  obtain h | ⟨c, h⟩ := countPerf_cases k evt n <;> rw [h]
@[simp] theorem countPerf_files (k : Core) (evt n : Nat) : (countPerf k evt n).files = k.files := by
  obtain h | ⟨c, h⟩ := countPerf_cases k evt n <;> rw [h]
@[simp] theorem countPerf_queues (k : Core) (evt n : Nat) : (countPerf k evt n).queues = k.queues := by
  obtain h | ⟨c, h⟩ := countPerf_cases k evt n <;> rw [h]
@[simp] theorem countPerf_streams (k : Core) (evt n : Nat) : (countPerf k evt n).streams = k.streams := by
  obtain h | ⟨c, h⟩ := countPerf_cases k evt n <;> rw [h]
@[simp] theorem countPerf_tables (k : Core) (evt n : Nat) : (countPerf k evt n).tables = k.tables := by
  obtain h | ⟨c, h⟩ := countPerf_cases k evt n <;> rw [h]
@[simp] theorem countPerf_l1 (k : Core) (evt n : Nat) : (countPerf k evt n).l1 = k.l1 := by
  obtain h | ⟨c, h⟩ := countPerf_cases k evt n <;> rw [h]
@[simp] theorem countPerf_homes (k : Core) (evt n : Nat) : (countPerf k evt n).homes = k.homes := by
  obtain h | ⟨c, h⟩ := countPerf_cases k evt n <;> rw [h]
@[simp] theorem countPerf_partials (k : Core) (evt n : Nat) : (countPerf k evt n).partials = k.partials := by
  obtain h | ⟨c, h⟩ := countPerf_cases k evt n <;> rw [h]
@[simp] theorem countPerf_seq (k : Core) (evt n : Nat) : (countPerf k evt n).seq = k.seq := by
  obtain h | ⟨c, h⟩ := countPerf_cases k evt n <;> rw [h]
@[simp] theorem countPerf_remote (k : Core) (evt n : Nat) : (countPerf k evt n).remote = k.remote := by
  obtain h | ⟨c, h⟩ := countPerf_cases k evt n <;> rw [h]
@[simp] theorem countPerf_posted (k : Core) (evt n : Nat) : (countPerf k evt n).posted = k.posted := by
  obtain h | ⟨c, h⟩ := countPerf_cases k evt n <;> rw [h]
@[simp] theorem countPerf_answered (k : Core) (evt n : Nat) : (countPerf k evt n).answered = k.answered := by
  obtain h | ⟨c, h⟩ := countPerf_cases k evt n <;> rw [h]
@[simp] theorem countPerf_replays (k : Core) (evt n : Nat) : (countPerf k evt n).replays = k.replays := by
  obtain h | ⟨c, h⟩ := countPerf_cases k evt n <;> rw [h]
@[simp] theorem countPerf_poisoned (k : Core) (evt n : Nat) : (countPerf k evt n).poisoned = k.poisoned := by
  obtain h | ⟨c, h⟩ := countPerf_cases k evt n <;> rw [h]
@[simp] theorem countPerf_flits (k : Core) (evt n : Nat) : (countPerf k evt n).flits = k.flits := by
  obtain h | ⟨c, h⟩ := countPerf_cases k evt n <;> rw [h]
@[simp] theorem countPerf_pktSeq (k : Core) (evt n : Nat) : (countPerf k evt n).pktSeq = k.pktSeq := by
  obtain h | ⟨c, h⟩ := countPerf_cases k evt n <;> rw [h]
@[simp] theorem countPerf_pktSeen (k : Core) (evt n : Nat) : (countPerf k evt n).pktSeen = k.pktSeen := by
  obtain h | ⟨c, h⟩ := countPerf_cases k evt n <;> rw [h]
@[simp] theorem countPerf_evictFault (k : Core) (evt n : Nat) : (countPerf k evt n).evictFault = k.evictFault := by
  obtain h | ⟨c, h⟩ := countPerf_cases k evt n <;> rw [h]
@[simp] theorem countPerf_laneErrors (k : Core) (evt n : Nat) : (countPerf k evt n).laneErrors = k.laneErrors := by
  obtain h | ⟨c, h⟩ := countPerf_cases k evt n <;> rw [h]
@[simp] theorem countPerf_unbound (k : Core) (evt n : Nat) : (countPerf k evt n).unbound = k.unbound := by
  obtain h | ⟨c, h⟩ := countPerf_cases k evt n <;> rw [h]
@[simp] theorem countPerf_waited (k : Core) (evt n : Nat) : (countPerf k evt n).waited = k.waited := by
  obtain h | ⟨c, h⟩ := countPerf_cases k evt n <;> rw [h]
@[simp] theorem countPerf_doing (k : Core) (evt n : Nat) : (countPerf k evt n).doing = k.doing := by
  obtain h | ⟨c, h⟩ := countPerf_cases k evt n <;> rw [h]
@[simp] theorem countPerf_pend (k : Core) (evt n : Nat) : (countPerf k evt n).pend = k.pend := by
  obtain h | ⟨c, h⟩ := countPerf_cases k evt n <;> rw [h]

/-! ### setS -/

@[simp] theorem setS_pc (k : Core) (r : BitVec 5) (v : DWord) : (setS k r v).pc = k.pc := by
  unfold setS
  split <;> rfl
@[simp] theorem setS_level (k : Core) (r : BitVec 5) (v : DWord) : (setS k r v).level = k.level := by
  unfold setS
  split <;> rfl
@[simp] theorem setS_halted (k : Core) (r : BitVec 5) (v : DWord) : (setS k r v).halted = k.halted := by
  unfold setS
  split <;> rfl
@[simp] theorem setS_fenced (k : Core) (r : BitVec 5) (v : DWord) : (setS k r v).fenced = k.fenced := by
  unfold setS
  split <;> rfl
@[simp] theorem setS_task (k : Core) (r : BitVec 5) (v : DWord) : (setS k r v).task = k.task := by
  unfold setS
  split <;> rfl
@[simp] theorem setS_lost (k : Core) (r : BitVec 5) (v : DWord) : (setS k r v).lost = k.lost := by
  unfold setS
  split <;> rfl
@[simp] theorem setS_ending (k : Core) (r : BitVec 5) (v : DWord) : (setS k r v).ending = k.ending := by
  unfold setS
  split <;> rfl
@[simp] theorem setS_handlerAborted (k : Core) (r : BitVec 5) (v : DWord) : (setS k r v).handlerAborted = k.handlerAborted := by
  unfold setS
  split <;> rfl
@[simp] theorem setS_returned (k : Core) (r : BitVec 5) (v : DWord) : (setS k r v).returned = k.returned := by
  unfold setS
  split <;> rfl
@[simp] theorem setS_hasRun (k : Core) (r : BitVec 5) (v : DWord) : (setS k r v).hasRun = k.hasRun := by
  unfold setS
  split <;> rfl
@[simp] theorem setS_prevTenant (k : Core) (r : BitVec 5) (v : DWord) : (setS k r v).prevTenant = k.prevTenant := by
  unfold setS
  split <;> rfl
@[simp] theorem setS_activity (k : Core) (r : BitVec 5) (v : DWord) : (setS k r v).activity = k.activity := by
  unfold setS
  split <;> rfl
@[simp] theorem setS_tregs (k : Core) (r : BitVec 5) (v : DWord) : (setS k r v).tregs = k.tregs := by
  unfold setS
  split <;> rfl
@[simp] theorem setS_cregs (k : Core) (r : BitVec 5) (v : DWord) : (setS k r v).cregs = k.cregs := by
  unfold setS
  split <;> rfl
@[simp] theorem setS_queues (k : Core) (r : BitVec 5) (v : DWord) : (setS k r v).queues = k.queues := by
  unfold setS
  split <;> rfl
@[simp] theorem setS_streams (k : Core) (r : BitVec 5) (v : DWord) : (setS k r v).streams = k.streams := by
  unfold setS
  split <;> rfl
@[simp] theorem setS_tables (k : Core) (r : BitVec 5) (v : DWord) : (setS k r v).tables = k.tables := by
  unfold setS
  split <;> rfl
@[simp] theorem setS_l1 (k : Core) (r : BitVec 5) (v : DWord) : (setS k r v).l1 = k.l1 := by
  unfold setS
  split <;> rfl
@[simp] theorem setS_homes (k : Core) (r : BitVec 5) (v : DWord) : (setS k r v).homes = k.homes := by
  unfold setS
  split <;> rfl
@[simp] theorem setS_partials (k : Core) (r : BitVec 5) (v : DWord) : (setS k r v).partials = k.partials := by
  unfold setS
  split <;> rfl
@[simp] theorem setS_seq (k : Core) (r : BitVec 5) (v : DWord) : (setS k r v).seq = k.seq := by
  unfold setS
  split <;> rfl
@[simp] theorem setS_remote (k : Core) (r : BitVec 5) (v : DWord) : (setS k r v).remote = k.remote := by
  unfold setS
  split <;> rfl
@[simp] theorem setS_posted (k : Core) (r : BitVec 5) (v : DWord) : (setS k r v).posted = k.posted := by
  unfold setS
  split <;> rfl
@[simp] theorem setS_answered (k : Core) (r : BitVec 5) (v : DWord) : (setS k r v).answered = k.answered := by
  unfold setS
  split <;> rfl
@[simp] theorem setS_replays (k : Core) (r : BitVec 5) (v : DWord) : (setS k r v).replays = k.replays := by
  unfold setS
  split <;> rfl
@[simp] theorem setS_poisoned (k : Core) (r : BitVec 5) (v : DWord) : (setS k r v).poisoned = k.poisoned := by
  unfold setS
  split <;> rfl
@[simp] theorem setS_flits (k : Core) (r : BitVec 5) (v : DWord) : (setS k r v).flits = k.flits := by
  unfold setS
  split <;> rfl
@[simp] theorem setS_pktSeq (k : Core) (r : BitVec 5) (v : DWord) : (setS k r v).pktSeq = k.pktSeq := by
  unfold setS
  split <;> rfl
@[simp] theorem setS_pktSeen (k : Core) (r : BitVec 5) (v : DWord) : (setS k r v).pktSeen = k.pktSeen := by
  unfold setS
  split <;> rfl
@[simp] theorem setS_evictFault (k : Core) (r : BitVec 5) (v : DWord) : (setS k r v).evictFault = k.evictFault := by
  unfold setS
  split <;> rfl
@[simp] theorem setS_laneErrors (k : Core) (r : BitVec 5) (v : DWord) : (setS k r v).laneErrors = k.laneErrors := by
  unfold setS
  split <;> rfl
@[simp] theorem setS_unbound (k : Core) (r : BitVec 5) (v : DWord) : (setS k r v).unbound = k.unbound := by
  unfold setS
  split <;> rfl
@[simp] theorem setS_waited (k : Core) (r : BitVec 5) (v : DWord) : (setS k r v).waited = k.waited := by
  unfold setS
  split <;> rfl
@[simp] theorem setS_doing (k : Core) (r : BitVec 5) (v : DWord) : (setS k r v).doing = k.doing := by
  unfold setS
  split <;> rfl
@[simp] theorem setS_ctrs (k : Core) (r : BitVec 5) (v : DWord) : (setS k r v).ctrs = k.ctrs := by
  unfold setS
  split <;> rfl
@[simp] theorem setS_pend (k : Core) (r : BitVec 5) (v : DWord) : (setS k r v).pend = k.pend := by
  unfold setS
  split <;> rfl

/-! ### setK -/

@[simp] theorem setK_pc (k : Core) (n : BitVec 3) (v : DWord) : (setK k n v).pc = k.pc := by
  unfold setK
  split <;> rfl
@[simp] theorem setK_level (k : Core) (n : BitVec 3) (v : DWord) : (setK k n v).level = k.level := by
  unfold setK
  split <;> rfl
@[simp] theorem setK_halted (k : Core) (n : BitVec 3) (v : DWord) : (setK k n v).halted = k.halted := by
  unfold setK
  split <;> rfl
@[simp] theorem setK_fenced (k : Core) (n : BitVec 3) (v : DWord) : (setK k n v).fenced = k.fenced := by
  unfold setK
  split <;> rfl
@[simp] theorem setK_task (k : Core) (n : BitVec 3) (v : DWord) : (setK k n v).task = k.task := by
  unfold setK
  split <;> rfl
@[simp] theorem setK_lost (k : Core) (n : BitVec 3) (v : DWord) : (setK k n v).lost = k.lost := by
  unfold setK
  split <;> rfl
@[simp] theorem setK_ending (k : Core) (n : BitVec 3) (v : DWord) : (setK k n v).ending = k.ending := by
  unfold setK
  split <;> rfl
@[simp] theorem setK_handlerAborted (k : Core) (n : BitVec 3) (v : DWord) : (setK k n v).handlerAborted = k.handlerAborted := by
  unfold setK
  split <;> rfl
@[simp] theorem setK_returned (k : Core) (n : BitVec 3) (v : DWord) : (setK k n v).returned = k.returned := by
  unfold setK
  split <;> rfl
@[simp] theorem setK_hasRun (k : Core) (n : BitVec 3) (v : DWord) : (setK k n v).hasRun = k.hasRun := by
  unfold setK
  split <;> rfl
@[simp] theorem setK_prevTenant (k : Core) (n : BitVec 3) (v : DWord) : (setK k n v).prevTenant = k.prevTenant := by
  unfold setK
  split <;> rfl
@[simp] theorem setK_activity (k : Core) (n : BitVec 3) (v : DWord) : (setK k n v).activity = k.activity := by
  unfold setK
  split <;> rfl
@[simp] theorem setK_tregs (k : Core) (n : BitVec 3) (v : DWord) : (setK k n v).tregs = k.tregs := by
  unfold setK
  split <;> rfl
@[simp] theorem setK_cregs (k : Core) (n : BitVec 3) (v : DWord) : (setK k n v).cregs = k.cregs := by
  unfold setK
  split <;> rfl
@[simp] theorem setK_queues (k : Core) (n : BitVec 3) (v : DWord) : (setK k n v).queues = k.queues := by
  unfold setK
  split <;> rfl
@[simp] theorem setK_streams (k : Core) (n : BitVec 3) (v : DWord) : (setK k n v).streams = k.streams := by
  unfold setK
  split <;> rfl
@[simp] theorem setK_tables (k : Core) (n : BitVec 3) (v : DWord) : (setK k n v).tables = k.tables := by
  unfold setK
  split <;> rfl
@[simp] theorem setK_l1 (k : Core) (n : BitVec 3) (v : DWord) : (setK k n v).l1 = k.l1 := by
  unfold setK
  split <;> rfl
@[simp] theorem setK_homes (k : Core) (n : BitVec 3) (v : DWord) : (setK k n v).homes = k.homes := by
  unfold setK
  split <;> rfl
@[simp] theorem setK_partials (k : Core) (n : BitVec 3) (v : DWord) : (setK k n v).partials = k.partials := by
  unfold setK
  split <;> rfl
@[simp] theorem setK_seq (k : Core) (n : BitVec 3) (v : DWord) : (setK k n v).seq = k.seq := by
  unfold setK
  split <;> rfl
@[simp] theorem setK_remote (k : Core) (n : BitVec 3) (v : DWord) : (setK k n v).remote = k.remote := by
  unfold setK
  split <;> rfl
@[simp] theorem setK_posted (k : Core) (n : BitVec 3) (v : DWord) : (setK k n v).posted = k.posted := by
  unfold setK
  split <;> rfl
@[simp] theorem setK_answered (k : Core) (n : BitVec 3) (v : DWord) : (setK k n v).answered = k.answered := by
  unfold setK
  split <;> rfl
@[simp] theorem setK_replays (k : Core) (n : BitVec 3) (v : DWord) : (setK k n v).replays = k.replays := by
  unfold setK
  split <;> rfl
@[simp] theorem setK_poisoned (k : Core) (n : BitVec 3) (v : DWord) : (setK k n v).poisoned = k.poisoned := by
  unfold setK
  split <;> rfl
@[simp] theorem setK_flits (k : Core) (n : BitVec 3) (v : DWord) : (setK k n v).flits = k.flits := by
  unfold setK
  split <;> rfl
@[simp] theorem setK_pktSeq (k : Core) (n : BitVec 3) (v : DWord) : (setK k n v).pktSeq = k.pktSeq := by
  unfold setK
  split <;> rfl
@[simp] theorem setK_pktSeen (k : Core) (n : BitVec 3) (v : DWord) : (setK k n v).pktSeen = k.pktSeen := by
  unfold setK
  split <;> rfl
@[simp] theorem setK_evictFault (k : Core) (n : BitVec 3) (v : DWord) : (setK k n v).evictFault = k.evictFault := by
  unfold setK
  split <;> rfl
@[simp] theorem setK_laneErrors (k : Core) (n : BitVec 3) (v : DWord) : (setK k n v).laneErrors = k.laneErrors := by
  unfold setK
  split <;> rfl
@[simp] theorem setK_unbound (k : Core) (n : BitVec 3) (v : DWord) : (setK k n v).unbound = k.unbound := by
  unfold setK
  split <;> rfl
@[simp] theorem setK_waited (k : Core) (n : BitVec 3) (v : DWord) : (setK k n v).waited = k.waited := by
  unfold setK
  split <;> rfl
@[simp] theorem setK_doing (k : Core) (n : BitVec 3) (v : DWord) : (setK k n v).doing = k.doing := by
  unfold setK
  split <;> rfl
@[simp] theorem setK_ctrs (k : Core) (n : BitVec 3) (v : DWord) : (setK k n v).ctrs = k.ctrs := by
  unfold setK
  split <;> rfl
@[simp] theorem setK_pend (k : Core) (n : BitVec 3) (v : DWord) : (setK k n v).pend = k.pend := by
  unfold setK
  split <;> rfl

/-! ### setRow -/

@[simp] theorem setRow_pc (k : Core) (n : BitVec 6) (r : FrameRow) : (setRow k n r).pc = k.pc := rfl
@[simp] theorem setRow_level (k : Core) (n : BitVec 6) (r : FrameRow) : (setRow k n r).level = k.level := rfl
@[simp] theorem setRow_halted (k : Core) (n : BitVec 6) (r : FrameRow) : (setRow k n r).halted = k.halted := rfl
@[simp] theorem setRow_fenced (k : Core) (n : BitVec 6) (r : FrameRow) : (setRow k n r).fenced = k.fenced := rfl
@[simp] theorem setRow_task (k : Core) (n : BitVec 6) (r : FrameRow) : (setRow k n r).task = k.task := rfl
@[simp] theorem setRow_lost (k : Core) (n : BitVec 6) (r : FrameRow) : (setRow k n r).lost = k.lost := rfl
@[simp] theorem setRow_ending (k : Core) (n : BitVec 6) (r : FrameRow) : (setRow k n r).ending = k.ending := rfl
@[simp] theorem setRow_handlerAborted (k : Core) (n : BitVec 6) (r : FrameRow) : (setRow k n r).handlerAborted = k.handlerAborted := rfl
@[simp] theorem setRow_returned (k : Core) (n : BitVec 6) (r : FrameRow) : (setRow k n r).returned = k.returned := rfl
@[simp] theorem setRow_hasRun (k : Core) (n : BitVec 6) (r : FrameRow) : (setRow k n r).hasRun = k.hasRun := rfl
@[simp] theorem setRow_prevTenant (k : Core) (n : BitVec 6) (r : FrameRow) : (setRow k n r).prevTenant = k.prevTenant := rfl
@[simp] theorem setRow_activity (k : Core) (n : BitVec 6) (r : FrameRow) : (setRow k n r).activity = k.activity := rfl
@[simp] theorem setRow_tregs (k : Core) (n : BitVec 6) (r : FrameRow) : (setRow k n r).tregs = k.tregs := rfl
@[simp] theorem setRow_cregs (k : Core) (n : BitVec 6) (r : FrameRow) : (setRow k n r).cregs = k.cregs := rfl
@[simp] theorem setRow_queues (k : Core) (n : BitVec 6) (r : FrameRow) : (setRow k n r).queues = k.queues := rfl
@[simp] theorem setRow_streams (k : Core) (n : BitVec 6) (r : FrameRow) : (setRow k n r).streams = k.streams := rfl
@[simp] theorem setRow_tables (k : Core) (n : BitVec 6) (r : FrameRow) : (setRow k n r).tables = k.tables := rfl
@[simp] theorem setRow_l1 (k : Core) (n : BitVec 6) (r : FrameRow) : (setRow k n r).l1 = k.l1 := rfl
@[simp] theorem setRow_homes (k : Core) (n : BitVec 6) (r : FrameRow) : (setRow k n r).homes = k.homes := rfl
@[simp] theorem setRow_partials (k : Core) (n : BitVec 6) (r : FrameRow) : (setRow k n r).partials = k.partials := rfl
@[simp] theorem setRow_seq (k : Core) (n : BitVec 6) (r : FrameRow) : (setRow k n r).seq = k.seq := rfl
@[simp] theorem setRow_remote (k : Core) (n : BitVec 6) (r : FrameRow) : (setRow k n r).remote = k.remote := rfl
@[simp] theorem setRow_posted (k : Core) (n : BitVec 6) (r : FrameRow) : (setRow k n r).posted = k.posted := rfl
@[simp] theorem setRow_answered (k : Core) (n : BitVec 6) (r : FrameRow) : (setRow k n r).answered = k.answered := rfl
@[simp] theorem setRow_replays (k : Core) (n : BitVec 6) (r : FrameRow) : (setRow k n r).replays = k.replays := rfl
@[simp] theorem setRow_poisoned (k : Core) (n : BitVec 6) (r : FrameRow) : (setRow k n r).poisoned = k.poisoned := rfl
@[simp] theorem setRow_flits (k : Core) (n : BitVec 6) (r : FrameRow) : (setRow k n r).flits = k.flits := rfl
@[simp] theorem setRow_pktSeq (k : Core) (n : BitVec 6) (r : FrameRow) : (setRow k n r).pktSeq = k.pktSeq := rfl
@[simp] theorem setRow_pktSeen (k : Core) (n : BitVec 6) (r : FrameRow) : (setRow k n r).pktSeen = k.pktSeen := rfl
@[simp] theorem setRow_evictFault (k : Core) (n : BitVec 6) (r : FrameRow) : (setRow k n r).evictFault = k.evictFault := rfl
@[simp] theorem setRow_laneErrors (k : Core) (n : BitVec 6) (r : FrameRow) : (setRow k n r).laneErrors = k.laneErrors := rfl
@[simp] theorem setRow_unbound (k : Core) (n : BitVec 6) (r : FrameRow) : (setRow k n r).unbound = k.unbound := rfl
@[simp] theorem setRow_waited (k : Core) (n : BitVec 6) (r : FrameRow) : (setRow k n r).waited = k.waited := rfl
@[simp] theorem setRow_doing (k : Core) (n : BitVec 6) (r : FrameRow) : (setRow k n r).doing = k.doing := rfl
@[simp] theorem setRow_ctrs (k : Core) (n : BitVec 6) (r : FrameRow) : (setRow k n r).ctrs = k.ctrs := rfl
@[simp] theorem setRow_pend (k : Core) (n : BitVec 6) (r : FrameRow) : (setRow k n r).pend = k.pend := rfl

/-! ### setHoop -/

@[simp] theorem setHoop_pc (k : Core) (h : BitVec 2) (v : Hoop) : (setHoop k h v).pc = k.pc := rfl
@[simp] theorem setHoop_level (k : Core) (h : BitVec 2) (v : Hoop) : (setHoop k h v).level = k.level := rfl
@[simp] theorem setHoop_halted (k : Core) (h : BitVec 2) (v : Hoop) : (setHoop k h v).halted = k.halted := rfl
@[simp] theorem setHoop_fenced (k : Core) (h : BitVec 2) (v : Hoop) : (setHoop k h v).fenced = k.fenced := rfl
@[simp] theorem setHoop_task (k : Core) (h : BitVec 2) (v : Hoop) : (setHoop k h v).task = k.task := rfl
@[simp] theorem setHoop_lost (k : Core) (h : BitVec 2) (v : Hoop) : (setHoop k h v).lost = k.lost := rfl
@[simp] theorem setHoop_ending (k : Core) (h : BitVec 2) (v : Hoop) : (setHoop k h v).ending = k.ending := rfl
@[simp] theorem setHoop_handlerAborted (k : Core) (h : BitVec 2) (v : Hoop) : (setHoop k h v).handlerAborted = k.handlerAborted := rfl
@[simp] theorem setHoop_returned (k : Core) (h : BitVec 2) (v : Hoop) : (setHoop k h v).returned = k.returned := rfl
@[simp] theorem setHoop_hasRun (k : Core) (h : BitVec 2) (v : Hoop) : (setHoop k h v).hasRun = k.hasRun := rfl
@[simp] theorem setHoop_prevTenant (k : Core) (h : BitVec 2) (v : Hoop) : (setHoop k h v).prevTenant = k.prevTenant := rfl
@[simp] theorem setHoop_activity (k : Core) (h : BitVec 2) (v : Hoop) : (setHoop k h v).activity = k.activity := rfl
@[simp] theorem setHoop_tregs (k : Core) (h : BitVec 2) (v : Hoop) : (setHoop k h v).tregs = k.tregs := rfl
@[simp] theorem setHoop_cregs (k : Core) (h : BitVec 2) (v : Hoop) : (setHoop k h v).cregs = k.cregs := rfl
@[simp] theorem setHoop_queues (k : Core) (h : BitVec 2) (v : Hoop) : (setHoop k h v).queues = k.queues := rfl
@[simp] theorem setHoop_streams (k : Core) (h : BitVec 2) (v : Hoop) : (setHoop k h v).streams = k.streams := rfl
@[simp] theorem setHoop_tables (k : Core) (h : BitVec 2) (v : Hoop) : (setHoop k h v).tables = k.tables := rfl
@[simp] theorem setHoop_l1 (k : Core) (h : BitVec 2) (v : Hoop) : (setHoop k h v).l1 = k.l1 := rfl
@[simp] theorem setHoop_homes (k : Core) (h : BitVec 2) (v : Hoop) : (setHoop k h v).homes = k.homes := rfl
@[simp] theorem setHoop_partials (k : Core) (h : BitVec 2) (v : Hoop) : (setHoop k h v).partials = k.partials := rfl
@[simp] theorem setHoop_seq (k : Core) (h : BitVec 2) (v : Hoop) : (setHoop k h v).seq = k.seq := rfl
@[simp] theorem setHoop_remote (k : Core) (h : BitVec 2) (v : Hoop) : (setHoop k h v).remote = k.remote := rfl
@[simp] theorem setHoop_posted (k : Core) (h : BitVec 2) (v : Hoop) : (setHoop k h v).posted = k.posted := rfl
@[simp] theorem setHoop_answered (k : Core) (h : BitVec 2) (v : Hoop) : (setHoop k h v).answered = k.answered := rfl
@[simp] theorem setHoop_replays (k : Core) (h : BitVec 2) (v : Hoop) : (setHoop k h v).replays = k.replays := rfl
@[simp] theorem setHoop_poisoned (k : Core) (h : BitVec 2) (v : Hoop) : (setHoop k h v).poisoned = k.poisoned := rfl
@[simp] theorem setHoop_flits (k : Core) (h : BitVec 2) (v : Hoop) : (setHoop k h v).flits = k.flits := rfl
@[simp] theorem setHoop_pktSeq (k : Core) (h : BitVec 2) (v : Hoop) : (setHoop k h v).pktSeq = k.pktSeq := rfl
@[simp] theorem setHoop_pktSeen (k : Core) (h : BitVec 2) (v : Hoop) : (setHoop k h v).pktSeen = k.pktSeen := rfl
@[simp] theorem setHoop_evictFault (k : Core) (h : BitVec 2) (v : Hoop) : (setHoop k h v).evictFault = k.evictFault := rfl
@[simp] theorem setHoop_laneErrors (k : Core) (h : BitVec 2) (v : Hoop) : (setHoop k h v).laneErrors = k.laneErrors := rfl
@[simp] theorem setHoop_unbound (k : Core) (h : BitVec 2) (v : Hoop) : (setHoop k h v).unbound = k.unbound := rfl
@[simp] theorem setHoop_waited (k : Core) (h : BitVec 2) (v : Hoop) : (setHoop k h v).waited = k.waited := rfl
@[simp] theorem setHoop_doing (k : Core) (h : BitVec 2) (v : Hoop) : (setHoop k h v).doing = k.doing := rfl
@[simp] theorem setHoop_ctrs (k : Core) (h : BitVec 2) (v : Hoop) : (setHoop k h v).ctrs = k.ctrs := rfl
@[simp] theorem setHoop_pend (k : Core) (h : BitVec 2) (v : Hoop) : (setHoop k h v).pend = k.pend := rfl

/-! ### setLatch -/

@[simp] theorem setLatch_pc (k : Core) (l : BitVec 1) (v : Latch) : (setLatch k l v).pc = k.pc := rfl
@[simp] theorem setLatch_level (k : Core) (l : BitVec 1) (v : Latch) : (setLatch k l v).level = k.level := rfl
@[simp] theorem setLatch_halted (k : Core) (l : BitVec 1) (v : Latch) : (setLatch k l v).halted = k.halted := rfl
@[simp] theorem setLatch_fenced (k : Core) (l : BitVec 1) (v : Latch) : (setLatch k l v).fenced = k.fenced := rfl
@[simp] theorem setLatch_task (k : Core) (l : BitVec 1) (v : Latch) : (setLatch k l v).task = k.task := rfl
@[simp] theorem setLatch_lost (k : Core) (l : BitVec 1) (v : Latch) : (setLatch k l v).lost = k.lost := rfl
@[simp] theorem setLatch_ending (k : Core) (l : BitVec 1) (v : Latch) : (setLatch k l v).ending = k.ending := rfl
@[simp] theorem setLatch_handlerAborted (k : Core) (l : BitVec 1) (v : Latch) : (setLatch k l v).handlerAborted = k.handlerAborted := rfl
@[simp] theorem setLatch_returned (k : Core) (l : BitVec 1) (v : Latch) : (setLatch k l v).returned = k.returned := rfl
@[simp] theorem setLatch_hasRun (k : Core) (l : BitVec 1) (v : Latch) : (setLatch k l v).hasRun = k.hasRun := rfl
@[simp] theorem setLatch_prevTenant (k : Core) (l : BitVec 1) (v : Latch) : (setLatch k l v).prevTenant = k.prevTenant := rfl
@[simp] theorem setLatch_activity (k : Core) (l : BitVec 1) (v : Latch) : (setLatch k l v).activity = k.activity := rfl
@[simp] theorem setLatch_tregs (k : Core) (l : BitVec 1) (v : Latch) : (setLatch k l v).tregs = k.tregs := rfl
@[simp] theorem setLatch_cregs (k : Core) (l : BitVec 1) (v : Latch) : (setLatch k l v).cregs = k.cregs := rfl
@[simp] theorem setLatch_queues (k : Core) (l : BitVec 1) (v : Latch) : (setLatch k l v).queues = k.queues := rfl
@[simp] theorem setLatch_streams (k : Core) (l : BitVec 1) (v : Latch) : (setLatch k l v).streams = k.streams := rfl
@[simp] theorem setLatch_tables (k : Core) (l : BitVec 1) (v : Latch) : (setLatch k l v).tables = k.tables := rfl
@[simp] theorem setLatch_l1 (k : Core) (l : BitVec 1) (v : Latch) : (setLatch k l v).l1 = k.l1 := rfl
@[simp] theorem setLatch_homes (k : Core) (l : BitVec 1) (v : Latch) : (setLatch k l v).homes = k.homes := rfl
@[simp] theorem setLatch_partials (k : Core) (l : BitVec 1) (v : Latch) : (setLatch k l v).partials = k.partials := rfl
@[simp] theorem setLatch_seq (k : Core) (l : BitVec 1) (v : Latch) : (setLatch k l v).seq = k.seq := rfl
@[simp] theorem setLatch_remote (k : Core) (l : BitVec 1) (v : Latch) : (setLatch k l v).remote = k.remote := rfl
@[simp] theorem setLatch_posted (k : Core) (l : BitVec 1) (v : Latch) : (setLatch k l v).posted = k.posted := rfl
@[simp] theorem setLatch_answered (k : Core) (l : BitVec 1) (v : Latch) : (setLatch k l v).answered = k.answered := rfl
@[simp] theorem setLatch_replays (k : Core) (l : BitVec 1) (v : Latch) : (setLatch k l v).replays = k.replays := rfl
@[simp] theorem setLatch_poisoned (k : Core) (l : BitVec 1) (v : Latch) : (setLatch k l v).poisoned = k.poisoned := rfl
@[simp] theorem setLatch_flits (k : Core) (l : BitVec 1) (v : Latch) : (setLatch k l v).flits = k.flits := rfl
@[simp] theorem setLatch_pktSeq (k : Core) (l : BitVec 1) (v : Latch) : (setLatch k l v).pktSeq = k.pktSeq := rfl
@[simp] theorem setLatch_pktSeen (k : Core) (l : BitVec 1) (v : Latch) : (setLatch k l v).pktSeen = k.pktSeen := rfl
@[simp] theorem setLatch_evictFault (k : Core) (l : BitVec 1) (v : Latch) : (setLatch k l v).evictFault = k.evictFault := rfl
@[simp] theorem setLatch_laneErrors (k : Core) (l : BitVec 1) (v : Latch) : (setLatch k l v).laneErrors = k.laneErrors := rfl
@[simp] theorem setLatch_unbound (k : Core) (l : BitVec 1) (v : Latch) : (setLatch k l v).unbound = k.unbound := rfl
@[simp] theorem setLatch_waited (k : Core) (l : BitVec 1) (v : Latch) : (setLatch k l v).waited = k.waited := rfl
@[simp] theorem setLatch_doing (k : Core) (l : BitVec 1) (v : Latch) : (setLatch k l v).doing = k.doing := rfl
@[simp] theorem setLatch_ctrs (k : Core) (l : BitVec 1) (v : Latch) : (setLatch k l v).ctrs = k.ctrs := rfl
@[simp] theorem setLatch_pend (k : Core) (l : BitVec 1) (v : Latch) : (setLatch k l v).pend = k.pend := rfl

/-! ### setRun -/

@[simp] theorem setRun_pc (k : Core) (r : Option RepeatRun) : (setRun k r).pc = k.pc := rfl
@[simp] theorem setRun_level (k : Core) (r : Option RepeatRun) : (setRun k r).level = k.level := rfl
@[simp] theorem setRun_halted (k : Core) (r : Option RepeatRun) : (setRun k r).halted = k.halted := rfl
@[simp] theorem setRun_fenced (k : Core) (r : Option RepeatRun) : (setRun k r).fenced = k.fenced := rfl
@[simp] theorem setRun_task (k : Core) (r : Option RepeatRun) : (setRun k r).task = k.task := rfl
@[simp] theorem setRun_lost (k : Core) (r : Option RepeatRun) : (setRun k r).lost = k.lost := rfl
@[simp] theorem setRun_ending (k : Core) (r : Option RepeatRun) : (setRun k r).ending = k.ending := rfl
@[simp] theorem setRun_handlerAborted (k : Core) (r : Option RepeatRun) : (setRun k r).handlerAborted = k.handlerAborted := rfl
@[simp] theorem setRun_returned (k : Core) (r : Option RepeatRun) : (setRun k r).returned = k.returned := rfl
@[simp] theorem setRun_hasRun (k : Core) (r : Option RepeatRun) : (setRun k r).hasRun = k.hasRun := rfl
@[simp] theorem setRun_prevTenant (k : Core) (r : Option RepeatRun) : (setRun k r).prevTenant = k.prevTenant := rfl
@[simp] theorem setRun_activity (k : Core) (r : Option RepeatRun) : (setRun k r).activity = k.activity := rfl
@[simp] theorem setRun_tregs (k : Core) (r : Option RepeatRun) : (setRun k r).tregs = k.tregs := rfl
@[simp] theorem setRun_cregs (k : Core) (r : Option RepeatRun) : (setRun k r).cregs = k.cregs := rfl
@[simp] theorem setRun_files (k : Core) (r : Option RepeatRun) : (setRun k r).files = k.files := rfl
@[simp] theorem setRun_queues (k : Core) (r : Option RepeatRun) : (setRun k r).queues = k.queues := rfl
@[simp] theorem setRun_tables (k : Core) (r : Option RepeatRun) : (setRun k r).tables = k.tables := rfl
@[simp] theorem setRun_l1 (k : Core) (r : Option RepeatRun) : (setRun k r).l1 = k.l1 := rfl
@[simp] theorem setRun_homes (k : Core) (r : Option RepeatRun) : (setRun k r).homes = k.homes := rfl
@[simp] theorem setRun_partials (k : Core) (r : Option RepeatRun) : (setRun k r).partials = k.partials := rfl
@[simp] theorem setRun_seq (k : Core) (r : Option RepeatRun) : (setRun k r).seq = k.seq := rfl
@[simp] theorem setRun_remote (k : Core) (r : Option RepeatRun) : (setRun k r).remote = k.remote := rfl
@[simp] theorem setRun_posted (k : Core) (r : Option RepeatRun) : (setRun k r).posted = k.posted := rfl
@[simp] theorem setRun_answered (k : Core) (r : Option RepeatRun) : (setRun k r).answered = k.answered := rfl
@[simp] theorem setRun_replays (k : Core) (r : Option RepeatRun) : (setRun k r).replays = k.replays := rfl
@[simp] theorem setRun_poisoned (k : Core) (r : Option RepeatRun) : (setRun k r).poisoned = k.poisoned := rfl
@[simp] theorem setRun_flits (k : Core) (r : Option RepeatRun) : (setRun k r).flits = k.flits := rfl
@[simp] theorem setRun_pktSeq (k : Core) (r : Option RepeatRun) : (setRun k r).pktSeq = k.pktSeq := rfl
@[simp] theorem setRun_pktSeen (k : Core) (r : Option RepeatRun) : (setRun k r).pktSeen = k.pktSeen := rfl
@[simp] theorem setRun_evictFault (k : Core) (r : Option RepeatRun) : (setRun k r).evictFault = k.evictFault := rfl
@[simp] theorem setRun_laneErrors (k : Core) (r : Option RepeatRun) : (setRun k r).laneErrors = k.laneErrors := rfl
@[simp] theorem setRun_unbound (k : Core) (r : Option RepeatRun) : (setRun k r).unbound = k.unbound := rfl
@[simp] theorem setRun_waited (k : Core) (r : Option RepeatRun) : (setRun k r).waited = k.waited := rfl
@[simp] theorem setRun_doing (k : Core) (r : Option RepeatRun) : (setRun k r).doing = k.doing := rfl
@[simp] theorem setRun_ctrs (k : Core) (r : Option RepeatRun) : (setRun k r).ctrs = k.ctrs := rfl
@[simp] theorem setRun_pend (k : Core) (r : Option RepeatRun) : (setRun k r).pend = k.pend := rfl

/-! ### enqueueVector -/

@[simp] theorem enqueueVector_pc (k : Core) (e : Entry) : (enqueueVector k e).pc = k.pc := rfl
@[simp] theorem enqueueVector_level (k : Core) (e : Entry) : (enqueueVector k e).level = k.level := rfl
@[simp] theorem enqueueVector_halted (k : Core) (e : Entry) : (enqueueVector k e).halted = k.halted := rfl
@[simp] theorem enqueueVector_fenced (k : Core) (e : Entry) : (enqueueVector k e).fenced = k.fenced := rfl
@[simp] theorem enqueueVector_task (k : Core) (e : Entry) : (enqueueVector k e).task = k.task := rfl
@[simp] theorem enqueueVector_lost (k : Core) (e : Entry) : (enqueueVector k e).lost = k.lost := rfl
@[simp] theorem enqueueVector_ending (k : Core) (e : Entry) : (enqueueVector k e).ending = k.ending := rfl
@[simp] theorem enqueueVector_handlerAborted (k : Core) (e : Entry) : (enqueueVector k e).handlerAborted = k.handlerAborted := rfl
@[simp] theorem enqueueVector_returned (k : Core) (e : Entry) : (enqueueVector k e).returned = k.returned := rfl
@[simp] theorem enqueueVector_hasRun (k : Core) (e : Entry) : (enqueueVector k e).hasRun = k.hasRun := rfl
@[simp] theorem enqueueVector_prevTenant (k : Core) (e : Entry) : (enqueueVector k e).prevTenant = k.prevTenant := rfl
@[simp] theorem enqueueVector_activity (k : Core) (e : Entry) : (enqueueVector k e).activity = k.activity := rfl
@[simp] theorem enqueueVector_tregs (k : Core) (e : Entry) : (enqueueVector k e).tregs = k.tregs := rfl
@[simp] theorem enqueueVector_cregs (k : Core) (e : Entry) : (enqueueVector k e).cregs = k.cregs := rfl
@[simp] theorem enqueueVector_files (k : Core) (e : Entry) : (enqueueVector k e).files = k.files := rfl
@[simp] theorem enqueueVector_queues (k : Core) (e : Entry) : (enqueueVector k e).queues = k.queues := rfl
@[simp] theorem enqueueVector_tables (k : Core) (e : Entry) : (enqueueVector k e).tables = k.tables := rfl
@[simp] theorem enqueueVector_l1 (k : Core) (e : Entry) : (enqueueVector k e).l1 = k.l1 := rfl
@[simp] theorem enqueueVector_homes (k : Core) (e : Entry) : (enqueueVector k e).homes = k.homes := rfl
@[simp] theorem enqueueVector_partials (k : Core) (e : Entry) : (enqueueVector k e).partials = k.partials := rfl
@[simp] theorem enqueueVector_seq (k : Core) (e : Entry) : (enqueueVector k e).seq = k.seq := rfl
@[simp] theorem enqueueVector_remote (k : Core) (e : Entry) : (enqueueVector k e).remote = k.remote := rfl
@[simp] theorem enqueueVector_posted (k : Core) (e : Entry) : (enqueueVector k e).posted = k.posted := rfl
@[simp] theorem enqueueVector_answered (k : Core) (e : Entry) : (enqueueVector k e).answered = k.answered := rfl
@[simp] theorem enqueueVector_replays (k : Core) (e : Entry) : (enqueueVector k e).replays = k.replays := rfl
@[simp] theorem enqueueVector_poisoned (k : Core) (e : Entry) : (enqueueVector k e).poisoned = k.poisoned := rfl
@[simp] theorem enqueueVector_flits (k : Core) (e : Entry) : (enqueueVector k e).flits = k.flits := rfl
@[simp] theorem enqueueVector_pktSeq (k : Core) (e : Entry) : (enqueueVector k e).pktSeq = k.pktSeq := rfl
@[simp] theorem enqueueVector_pktSeen (k : Core) (e : Entry) : (enqueueVector k e).pktSeen = k.pktSeen := rfl
@[simp] theorem enqueueVector_evictFault (k : Core) (e : Entry) : (enqueueVector k e).evictFault = k.evictFault := rfl
@[simp] theorem enqueueVector_laneErrors (k : Core) (e : Entry) : (enqueueVector k e).laneErrors = k.laneErrors := rfl
@[simp] theorem enqueueVector_unbound (k : Core) (e : Entry) : (enqueueVector k e).unbound = k.unbound := rfl
@[simp] theorem enqueueVector_waited (k : Core) (e : Entry) : (enqueueVector k e).waited = k.waited := rfl
@[simp] theorem enqueueVector_doing (k : Core) (e : Entry) : (enqueueVector k e).doing = k.doing := rfl
@[simp] theorem enqueueVector_ctrs (k : Core) (e : Entry) : (enqueueVector k e).ctrs = k.ctrs := rfl
@[simp] theorem enqueueVector_pend (k : Core) (e : Entry) : (enqueueVector k e).pend = k.pend := rfl

/-! ### enqueueMatrix -/

@[simp] theorem enqueueMatrix_pc (k : Core) (e : Entry) : (enqueueMatrix k e).pc = k.pc := rfl
@[simp] theorem enqueueMatrix_level (k : Core) (e : Entry) : (enqueueMatrix k e).level = k.level := rfl
@[simp] theorem enqueueMatrix_halted (k : Core) (e : Entry) : (enqueueMatrix k e).halted = k.halted := rfl
@[simp] theorem enqueueMatrix_fenced (k : Core) (e : Entry) : (enqueueMatrix k e).fenced = k.fenced := rfl
@[simp] theorem enqueueMatrix_task (k : Core) (e : Entry) : (enqueueMatrix k e).task = k.task := rfl
@[simp] theorem enqueueMatrix_lost (k : Core) (e : Entry) : (enqueueMatrix k e).lost = k.lost := rfl
@[simp] theorem enqueueMatrix_ending (k : Core) (e : Entry) : (enqueueMatrix k e).ending = k.ending := rfl
@[simp] theorem enqueueMatrix_handlerAborted (k : Core) (e : Entry) : (enqueueMatrix k e).handlerAborted = k.handlerAborted := rfl
@[simp] theorem enqueueMatrix_returned (k : Core) (e : Entry) : (enqueueMatrix k e).returned = k.returned := rfl
@[simp] theorem enqueueMatrix_hasRun (k : Core) (e : Entry) : (enqueueMatrix k e).hasRun = k.hasRun := rfl
@[simp] theorem enqueueMatrix_prevTenant (k : Core) (e : Entry) : (enqueueMatrix k e).prevTenant = k.prevTenant := rfl
@[simp] theorem enqueueMatrix_activity (k : Core) (e : Entry) : (enqueueMatrix k e).activity = k.activity := rfl
@[simp] theorem enqueueMatrix_tregs (k : Core) (e : Entry) : (enqueueMatrix k e).tregs = k.tregs := rfl
@[simp] theorem enqueueMatrix_cregs (k : Core) (e : Entry) : (enqueueMatrix k e).cregs = k.cregs := rfl
@[simp] theorem enqueueMatrix_files (k : Core) (e : Entry) : (enqueueMatrix k e).files = k.files := rfl
@[simp] theorem enqueueMatrix_queues (k : Core) (e : Entry) : (enqueueMatrix k e).queues = k.queues := rfl
@[simp] theorem enqueueMatrix_tables (k : Core) (e : Entry) : (enqueueMatrix k e).tables = k.tables := rfl
@[simp] theorem enqueueMatrix_l1 (k : Core) (e : Entry) : (enqueueMatrix k e).l1 = k.l1 := rfl
@[simp] theorem enqueueMatrix_homes (k : Core) (e : Entry) : (enqueueMatrix k e).homes = k.homes := rfl
@[simp] theorem enqueueMatrix_partials (k : Core) (e : Entry) : (enqueueMatrix k e).partials = k.partials := rfl
@[simp] theorem enqueueMatrix_seq (k : Core) (e : Entry) : (enqueueMatrix k e).seq = k.seq := rfl
@[simp] theorem enqueueMatrix_remote (k : Core) (e : Entry) : (enqueueMatrix k e).remote = k.remote := rfl
@[simp] theorem enqueueMatrix_posted (k : Core) (e : Entry) : (enqueueMatrix k e).posted = k.posted := rfl
@[simp] theorem enqueueMatrix_answered (k : Core) (e : Entry) : (enqueueMatrix k e).answered = k.answered := rfl
@[simp] theorem enqueueMatrix_replays (k : Core) (e : Entry) : (enqueueMatrix k e).replays = k.replays := rfl
@[simp] theorem enqueueMatrix_poisoned (k : Core) (e : Entry) : (enqueueMatrix k e).poisoned = k.poisoned := rfl
@[simp] theorem enqueueMatrix_flits (k : Core) (e : Entry) : (enqueueMatrix k e).flits = k.flits := rfl
@[simp] theorem enqueueMatrix_pktSeq (k : Core) (e : Entry) : (enqueueMatrix k e).pktSeq = k.pktSeq := rfl
@[simp] theorem enqueueMatrix_pktSeen (k : Core) (e : Entry) : (enqueueMatrix k e).pktSeen = k.pktSeen := rfl
@[simp] theorem enqueueMatrix_evictFault (k : Core) (e : Entry) : (enqueueMatrix k e).evictFault = k.evictFault := rfl
@[simp] theorem enqueueMatrix_laneErrors (k : Core) (e : Entry) : (enqueueMatrix k e).laneErrors = k.laneErrors := rfl
@[simp] theorem enqueueMatrix_unbound (k : Core) (e : Entry) : (enqueueMatrix k e).unbound = k.unbound := rfl
@[simp] theorem enqueueMatrix_waited (k : Core) (e : Entry) : (enqueueMatrix k e).waited = k.waited := rfl
@[simp] theorem enqueueMatrix_doing (k : Core) (e : Entry) : (enqueueMatrix k e).doing = k.doing := rfl
@[simp] theorem enqueueMatrix_ctrs (k : Core) (e : Entry) : (enqueueMatrix k e).ctrs = k.ctrs := rfl
@[simp] theorem enqueueMatrix_pend (k : Core) (e : Entry) : (enqueueMatrix k e).pend = k.pend := rfl

/-! ### dropVector -/

@[simp] theorem dropVector_pc (k : Core) : (dropVector k).pc = k.pc := rfl
@[simp] theorem dropVector_level (k : Core) : (dropVector k).level = k.level := rfl
@[simp] theorem dropVector_halted (k : Core) : (dropVector k).halted = k.halted := rfl
@[simp] theorem dropVector_fenced (k : Core) : (dropVector k).fenced = k.fenced := rfl
@[simp] theorem dropVector_task (k : Core) : (dropVector k).task = k.task := rfl
@[simp] theorem dropVector_lost (k : Core) : (dropVector k).lost = k.lost := rfl
@[simp] theorem dropVector_ending (k : Core) : (dropVector k).ending = k.ending := rfl
@[simp] theorem dropVector_handlerAborted (k : Core) : (dropVector k).handlerAborted = k.handlerAborted := rfl
@[simp] theorem dropVector_returned (k : Core) : (dropVector k).returned = k.returned := rfl
@[simp] theorem dropVector_hasRun (k : Core) : (dropVector k).hasRun = k.hasRun := rfl
@[simp] theorem dropVector_prevTenant (k : Core) : (dropVector k).prevTenant = k.prevTenant := rfl
@[simp] theorem dropVector_activity (k : Core) : (dropVector k).activity = k.activity := rfl
@[simp] theorem dropVector_tregs (k : Core) : (dropVector k).tregs = k.tregs := rfl
@[simp] theorem dropVector_cregs (k : Core) : (dropVector k).cregs = k.cregs := rfl
@[simp] theorem dropVector_files (k : Core) : (dropVector k).files = k.files := rfl
@[simp] theorem dropVector_queues (k : Core) : (dropVector k).queues = k.queues := rfl
@[simp] theorem dropVector_tables (k : Core) : (dropVector k).tables = k.tables := rfl
@[simp] theorem dropVector_l1 (k : Core) : (dropVector k).l1 = k.l1 := rfl
@[simp] theorem dropVector_homes (k : Core) : (dropVector k).homes = k.homes := rfl
@[simp] theorem dropVector_partials (k : Core) : (dropVector k).partials = k.partials := rfl
@[simp] theorem dropVector_seq (k : Core) : (dropVector k).seq = k.seq := rfl
@[simp] theorem dropVector_remote (k : Core) : (dropVector k).remote = k.remote := rfl
@[simp] theorem dropVector_posted (k : Core) : (dropVector k).posted = k.posted := rfl
@[simp] theorem dropVector_answered (k : Core) : (dropVector k).answered = k.answered := rfl
@[simp] theorem dropVector_replays (k : Core) : (dropVector k).replays = k.replays := rfl
@[simp] theorem dropVector_poisoned (k : Core) : (dropVector k).poisoned = k.poisoned := rfl
@[simp] theorem dropVector_flits (k : Core) : (dropVector k).flits = k.flits := rfl
@[simp] theorem dropVector_pktSeq (k : Core) : (dropVector k).pktSeq = k.pktSeq := rfl
@[simp] theorem dropVector_pktSeen (k : Core) : (dropVector k).pktSeen = k.pktSeen := rfl
@[simp] theorem dropVector_evictFault (k : Core) : (dropVector k).evictFault = k.evictFault := rfl
@[simp] theorem dropVector_laneErrors (k : Core) : (dropVector k).laneErrors = k.laneErrors := rfl
@[simp] theorem dropVector_unbound (k : Core) : (dropVector k).unbound = k.unbound := rfl
@[simp] theorem dropVector_waited (k : Core) : (dropVector k).waited = k.waited := rfl
@[simp] theorem dropVector_doing (k : Core) : (dropVector k).doing = k.doing := rfl
@[simp] theorem dropVector_ctrs (k : Core) : (dropVector k).ctrs = k.ctrs := rfl
@[simp] theorem dropVector_pend (k : Core) : (dropVector k).pend = k.pend := rfl

/-! ### dropMatrix -/

@[simp] theorem dropMatrix_pc (k : Core) : (dropMatrix k).pc = k.pc := rfl
@[simp] theorem dropMatrix_level (k : Core) : (dropMatrix k).level = k.level := rfl
@[simp] theorem dropMatrix_halted (k : Core) : (dropMatrix k).halted = k.halted := rfl
@[simp] theorem dropMatrix_fenced (k : Core) : (dropMatrix k).fenced = k.fenced := rfl
@[simp] theorem dropMatrix_task (k : Core) : (dropMatrix k).task = k.task := rfl
@[simp] theorem dropMatrix_lost (k : Core) : (dropMatrix k).lost = k.lost := rfl
@[simp] theorem dropMatrix_ending (k : Core) : (dropMatrix k).ending = k.ending := rfl
@[simp] theorem dropMatrix_handlerAborted (k : Core) : (dropMatrix k).handlerAborted = k.handlerAborted := rfl
@[simp] theorem dropMatrix_returned (k : Core) : (dropMatrix k).returned = k.returned := rfl
@[simp] theorem dropMatrix_hasRun (k : Core) : (dropMatrix k).hasRun = k.hasRun := rfl
@[simp] theorem dropMatrix_prevTenant (k : Core) : (dropMatrix k).prevTenant = k.prevTenant := rfl
@[simp] theorem dropMatrix_activity (k : Core) : (dropMatrix k).activity = k.activity := rfl
@[simp] theorem dropMatrix_tregs (k : Core) : (dropMatrix k).tregs = k.tregs := rfl
@[simp] theorem dropMatrix_cregs (k : Core) : (dropMatrix k).cregs = k.cregs := rfl
@[simp] theorem dropMatrix_files (k : Core) : (dropMatrix k).files = k.files := rfl
@[simp] theorem dropMatrix_queues (k : Core) : (dropMatrix k).queues = k.queues := rfl
@[simp] theorem dropMatrix_tables (k : Core) : (dropMatrix k).tables = k.tables := rfl
@[simp] theorem dropMatrix_l1 (k : Core) : (dropMatrix k).l1 = k.l1 := rfl
@[simp] theorem dropMatrix_homes (k : Core) : (dropMatrix k).homes = k.homes := rfl
@[simp] theorem dropMatrix_partials (k : Core) : (dropMatrix k).partials = k.partials := rfl
@[simp] theorem dropMatrix_seq (k : Core) : (dropMatrix k).seq = k.seq := rfl
@[simp] theorem dropMatrix_remote (k : Core) : (dropMatrix k).remote = k.remote := rfl
@[simp] theorem dropMatrix_posted (k : Core) : (dropMatrix k).posted = k.posted := rfl
@[simp] theorem dropMatrix_answered (k : Core) : (dropMatrix k).answered = k.answered := rfl
@[simp] theorem dropMatrix_replays (k : Core) : (dropMatrix k).replays = k.replays := rfl
@[simp] theorem dropMatrix_poisoned (k : Core) : (dropMatrix k).poisoned = k.poisoned := rfl
@[simp] theorem dropMatrix_flits (k : Core) : (dropMatrix k).flits = k.flits := rfl
@[simp] theorem dropMatrix_pktSeq (k : Core) : (dropMatrix k).pktSeq = k.pktSeq := rfl
@[simp] theorem dropMatrix_pktSeen (k : Core) : (dropMatrix k).pktSeen = k.pktSeen := rfl
@[simp] theorem dropMatrix_evictFault (k : Core) : (dropMatrix k).evictFault = k.evictFault := rfl
@[simp] theorem dropMatrix_laneErrors (k : Core) : (dropMatrix k).laneErrors = k.laneErrors := rfl
@[simp] theorem dropMatrix_unbound (k : Core) : (dropMatrix k).unbound = k.unbound := rfl
@[simp] theorem dropMatrix_waited (k : Core) : (dropMatrix k).waited = k.waited := rfl
@[simp] theorem dropMatrix_doing (k : Core) : (dropMatrix k).doing = k.doing := rfl
@[simp] theorem dropMatrix_ctrs (k : Core) : (dropMatrix k).ctrs = k.ctrs := rfl
@[simp] theorem dropMatrix_pend (k : Core) : (dropMatrix k).pend = k.pend := rfl

/-! ### parkTask -/

@[simp] theorem parkTask_pc (k : Core) : (parkTask k).pc = k.pc := rfl
@[simp] theorem parkTask_level (k : Core) : (parkTask k).level = k.level := rfl
@[simp] theorem parkTask_halted (k : Core) : (parkTask k).halted = k.halted := rfl
@[simp] theorem parkTask_fenced (k : Core) : (parkTask k).fenced = k.fenced := rfl
@[simp] theorem parkTask_task (k : Core) : (parkTask k).task = k.task := rfl
@[simp] theorem parkTask_lost (k : Core) : (parkTask k).lost = k.lost := rfl
@[simp] theorem parkTask_ending (k : Core) : (parkTask k).ending = k.ending := rfl
@[simp] theorem parkTask_handlerAborted (k : Core) : (parkTask k).handlerAborted = k.handlerAborted := rfl
@[simp] theorem parkTask_returned (k : Core) : (parkTask k).returned = k.returned := rfl
@[simp] theorem parkTask_hasRun (k : Core) : (parkTask k).hasRun = k.hasRun := rfl
@[simp] theorem parkTask_prevTenant (k : Core) : (parkTask k).prevTenant = k.prevTenant := rfl
@[simp] theorem parkTask_activity (k : Core) : (parkTask k).activity = k.activity := rfl
@[simp] theorem parkTask_tregs (k : Core) : (parkTask k).tregs = k.tregs := rfl
@[simp] theorem parkTask_cregs (k : Core) : (parkTask k).cregs = k.cregs := rfl
@[simp] theorem parkTask_files (k : Core) : (parkTask k).files = k.files := rfl
@[simp] theorem parkTask_queues (k : Core) : (parkTask k).queues = k.queues := rfl
@[simp] theorem parkTask_tables (k : Core) : (parkTask k).tables = k.tables := rfl
@[simp] theorem parkTask_l1 (k : Core) : (parkTask k).l1 = k.l1 := rfl
@[simp] theorem parkTask_homes (k : Core) : (parkTask k).homes = k.homes := rfl
@[simp] theorem parkTask_partials (k : Core) : (parkTask k).partials = k.partials := rfl
@[simp] theorem parkTask_seq (k : Core) : (parkTask k).seq = k.seq := rfl
@[simp] theorem parkTask_flits (k : Core) : (parkTask k).flits = k.flits := rfl
@[simp] theorem parkTask_pktSeq (k : Core) : (parkTask k).pktSeq = k.pktSeq := rfl
@[simp] theorem parkTask_pktSeen (k : Core) : (parkTask k).pktSeen = k.pktSeen := rfl
@[simp] theorem parkTask_laneErrors (k : Core) : (parkTask k).laneErrors = k.laneErrors := rfl
@[simp] theorem parkTask_unbound (k : Core) : (parkTask k).unbound = k.unbound := rfl
@[simp] theorem parkTask_waited (k : Core) : (parkTask k).waited = k.waited := rfl
@[simp] theorem parkTask_doing (k : Core) : (parkTask k).doing = k.doing := rfl
@[simp] theorem parkTask_ctrs (k : Core) : (parkTask k).ctrs = k.ctrs := rfl
@[simp] theorem parkTask_pend (k : Core) : (parkTask k).pend = k.pend := rfl

/-! ### parkSteward -/

@[simp] theorem parkSteward_pc (k : Core) : (parkSteward k).pc = k.pc := rfl
@[simp] theorem parkSteward_level (k : Core) : (parkSteward k).level = k.level := rfl
@[simp] theorem parkSteward_halted (k : Core) : (parkSteward k).halted = k.halted := rfl
@[simp] theorem parkSteward_fenced (k : Core) : (parkSteward k).fenced = k.fenced := rfl
@[simp] theorem parkSteward_task (k : Core) : (parkSteward k).task = k.task := rfl
@[simp] theorem parkSteward_lost (k : Core) : (parkSteward k).lost = k.lost := rfl
@[simp] theorem parkSteward_ending (k : Core) : (parkSteward k).ending = k.ending := rfl
@[simp] theorem parkSteward_handlerAborted (k : Core) : (parkSteward k).handlerAborted = k.handlerAborted := rfl
@[simp] theorem parkSteward_returned (k : Core) : (parkSteward k).returned = k.returned := rfl
@[simp] theorem parkSteward_hasRun (k : Core) : (parkSteward k).hasRun = k.hasRun := rfl
@[simp] theorem parkSteward_prevTenant (k : Core) : (parkSteward k).prevTenant = k.prevTenant := rfl
@[simp] theorem parkSteward_activity (k : Core) : (parkSteward k).activity = k.activity := rfl
@[simp] theorem parkSteward_tregs (k : Core) : (parkSteward k).tregs = k.tregs := rfl
@[simp] theorem parkSteward_cregs (k : Core) : (parkSteward k).cregs = k.cregs := rfl
@[simp] theorem parkSteward_files (k : Core) : (parkSteward k).files = k.files := rfl
@[simp] theorem parkSteward_queues (k : Core) : (parkSteward k).queues = k.queues := rfl
@[simp] theorem parkSteward_tables (k : Core) : (parkSteward k).tables = k.tables := rfl
@[simp] theorem parkSteward_l1 (k : Core) : (parkSteward k).l1 = k.l1 := rfl
@[simp] theorem parkSteward_homes (k : Core) : (parkSteward k).homes = k.homes := rfl
@[simp] theorem parkSteward_partials (k : Core) : (parkSteward k).partials = k.partials := rfl
@[simp] theorem parkSteward_seq (k : Core) : (parkSteward k).seq = k.seq := rfl
@[simp] theorem parkSteward_remote (k : Core) : (parkSteward k).remote = k.remote := rfl
@[simp] theorem parkSteward_posted (k : Core) : (parkSteward k).posted = k.posted := rfl
@[simp] theorem parkSteward_answered (k : Core) : (parkSteward k).answered = k.answered := rfl
@[simp] theorem parkSteward_replays (k : Core) : (parkSteward k).replays = k.replays := rfl
@[simp] theorem parkSteward_poisoned (k : Core) : (parkSteward k).poisoned = k.poisoned := rfl
@[simp] theorem parkSteward_flits (k : Core) : (parkSteward k).flits = k.flits := rfl
@[simp] theorem parkSteward_pktSeq (k : Core) : (parkSteward k).pktSeq = k.pktSeq := rfl
@[simp] theorem parkSteward_pktSeen (k : Core) : (parkSteward k).pktSeen = k.pktSeen := rfl
@[simp] theorem parkSteward_evictFault (k : Core) : (parkSteward k).evictFault = k.evictFault := rfl
@[simp] theorem parkSteward_laneErrors (k : Core) : (parkSteward k).laneErrors = k.laneErrors := rfl
@[simp] theorem parkSteward_unbound (k : Core) : (parkSteward k).unbound = k.unbound := rfl
@[simp] theorem parkSteward_waited (k : Core) : (parkSteward k).waited = k.waited := rfl
@[simp] theorem parkSteward_doing (k : Core) : (parkSteward k).doing = k.doing := rfl
@[simp] theorem parkSteward_ctrs (k : Core) : (parkSteward k).ctrs = k.ctrs := rfl
@[simp] theorem parkSteward_pend (k : Core) : (parkSteward k).pend = k.pend := rfl

/-! ### noteActivity -/

@[simp] theorem noteActivity_pc (k : Core) (ctx : HWord) : (noteActivity k ctx).pc = k.pc := by
  unfold noteActivity
  split <;> rfl
@[simp] theorem noteActivity_level (k : Core) (ctx : HWord) : (noteActivity k ctx).level = k.level := by
  unfold noteActivity
  split <;> rfl
@[simp] theorem noteActivity_halted (k : Core) (ctx : HWord) : (noteActivity k ctx).halted = k.halted := by
  unfold noteActivity
  split <;> rfl
@[simp] theorem noteActivity_fenced (k : Core) (ctx : HWord) : (noteActivity k ctx).fenced = k.fenced := by
  unfold noteActivity
  split <;> rfl
@[simp] theorem noteActivity_task (k : Core) (ctx : HWord) : (noteActivity k ctx).task = k.task := by
  unfold noteActivity
  split <;> rfl
@[simp] theorem noteActivity_lost (k : Core) (ctx : HWord) : (noteActivity k ctx).lost = k.lost := by
  unfold noteActivity
  split <;> rfl
@[simp] theorem noteActivity_ending (k : Core) (ctx : HWord) : (noteActivity k ctx).ending = k.ending := by
  unfold noteActivity
  split <;> rfl
@[simp] theorem noteActivity_handlerAborted (k : Core) (ctx : HWord) : (noteActivity k ctx).handlerAborted = k.handlerAborted := by
  unfold noteActivity
  split <;> rfl
@[simp] theorem noteActivity_returned (k : Core) (ctx : HWord) : (noteActivity k ctx).returned = k.returned := by
  unfold noteActivity
  split <;> rfl
@[simp] theorem noteActivity_hasRun (k : Core) (ctx : HWord) : (noteActivity k ctx).hasRun = k.hasRun := by
  unfold noteActivity
  split <;> rfl
@[simp] theorem noteActivity_prevTenant (k : Core) (ctx : HWord) : (noteActivity k ctx).prevTenant = k.prevTenant := by
  unfold noteActivity
  split <;> rfl
@[simp] theorem noteActivity_tregs (k : Core) (ctx : HWord) : (noteActivity k ctx).tregs = k.tregs := by
  unfold noteActivity
  split <;> rfl
@[simp] theorem noteActivity_cregs (k : Core) (ctx : HWord) : (noteActivity k ctx).cregs = k.cregs := by
  unfold noteActivity
  split <;> rfl
@[simp] theorem noteActivity_files (k : Core) (ctx : HWord) : (noteActivity k ctx).files = k.files := by
  unfold noteActivity
  split <;> rfl
@[simp] theorem noteActivity_queues (k : Core) (ctx : HWord) : (noteActivity k ctx).queues = k.queues := by
  unfold noteActivity
  split <;> rfl
@[simp] theorem noteActivity_streams (k : Core) (ctx : HWord) : (noteActivity k ctx).streams = k.streams := by
  unfold noteActivity
  split <;> rfl
@[simp] theorem noteActivity_tables (k : Core) (ctx : HWord) : (noteActivity k ctx).tables = k.tables := by
  unfold noteActivity
  split <;> rfl
@[simp] theorem noteActivity_l1 (k : Core) (ctx : HWord) : (noteActivity k ctx).l1 = k.l1 := by
  unfold noteActivity
  split <;> rfl
@[simp] theorem noteActivity_homes (k : Core) (ctx : HWord) : (noteActivity k ctx).homes = k.homes := by
  unfold noteActivity
  split <;> rfl
@[simp] theorem noteActivity_partials (k : Core) (ctx : HWord) : (noteActivity k ctx).partials = k.partials := by
  unfold noteActivity
  split <;> rfl
@[simp] theorem noteActivity_seq (k : Core) (ctx : HWord) : (noteActivity k ctx).seq = k.seq := by
  unfold noteActivity
  split <;> rfl
@[simp] theorem noteActivity_remote (k : Core) (ctx : HWord) : (noteActivity k ctx).remote = k.remote := by
  unfold noteActivity
  split <;> rfl
@[simp] theorem noteActivity_posted (k : Core) (ctx : HWord) : (noteActivity k ctx).posted = k.posted := by
  unfold noteActivity
  split <;> rfl
@[simp] theorem noteActivity_answered (k : Core) (ctx : HWord) : (noteActivity k ctx).answered = k.answered := by
  unfold noteActivity
  split <;> rfl
@[simp] theorem noteActivity_replays (k : Core) (ctx : HWord) : (noteActivity k ctx).replays = k.replays := by
  unfold noteActivity
  split <;> rfl
@[simp] theorem noteActivity_poisoned (k : Core) (ctx : HWord) : (noteActivity k ctx).poisoned = k.poisoned := by
  unfold noteActivity
  split <;> rfl
@[simp] theorem noteActivity_flits (k : Core) (ctx : HWord) : (noteActivity k ctx).flits = k.flits := by
  unfold noteActivity
  split <;> rfl
@[simp] theorem noteActivity_pktSeq (k : Core) (ctx : HWord) : (noteActivity k ctx).pktSeq = k.pktSeq := by
  unfold noteActivity
  split <;> rfl
@[simp] theorem noteActivity_pktSeen (k : Core) (ctx : HWord) : (noteActivity k ctx).pktSeen = k.pktSeen := by
  unfold noteActivity
  split <;> rfl
@[simp] theorem noteActivity_evictFault (k : Core) (ctx : HWord) : (noteActivity k ctx).evictFault = k.evictFault := by
  unfold noteActivity
  split <;> rfl
@[simp] theorem noteActivity_laneErrors (k : Core) (ctx : HWord) : (noteActivity k ctx).laneErrors = k.laneErrors := by
  unfold noteActivity
  split <;> rfl
@[simp] theorem noteActivity_unbound (k : Core) (ctx : HWord) : (noteActivity k ctx).unbound = k.unbound := by
  unfold noteActivity
  split <;> rfl
@[simp] theorem noteActivity_waited (k : Core) (ctx : HWord) : (noteActivity k ctx).waited = k.waited := by
  unfold noteActivity
  split <;> rfl
@[simp] theorem noteActivity_doing (k : Core) (ctx : HWord) : (noteActivity k ctx).doing = k.doing := by
  unfold noteActivity
  split <;> rfl
@[simp] theorem noteActivity_ctrs (k : Core) (ctx : HWord) : (noteActivity k ctx).ctrs = k.ctrs := by
  unfold noteActivity
  split <;> rfl
@[simp] theorem noteActivity_pend (k : Core) (ctx : HWord) : (noteActivity k ctx).pend = k.pend := by
  unfold noteActivity
  split <;> rfl

/-! ### dropReads -/

/-- The end of an instruction of the control thread: its answers and its unanswered reads are dropped, and nothing else changes. -/
theorem dropReads_control (k : Core) :
    dropReads k 0 = { k with answered := k.answered.del 0, replays := k.replays.del 0, remote := k.remote.filter fun r => !r.idem } := rfl

@[simp] theorem dropReads_pc (k : Core) (n : Nat) : (dropReads k n).pc = k.pc := by
  unfold dropReads dropAnswers
  split <;> rfl
@[simp] theorem dropReads_level (k : Core) (n : Nat) : (dropReads k n).level = k.level := by
  unfold dropReads dropAnswers
  split <;> rfl
@[simp] theorem dropReads_halted (k : Core) (n : Nat) : (dropReads k n).halted = k.halted := by
  unfold dropReads dropAnswers
  split <;> rfl
@[simp] theorem dropReads_fenced (k : Core) (n : Nat) : (dropReads k n).fenced = k.fenced := by
  unfold dropReads dropAnswers
  split <;> rfl
@[simp] theorem dropReads_task (k : Core) (n : Nat) : (dropReads k n).task = k.task := by
  unfold dropReads dropAnswers
  split <;> rfl
@[simp] theorem dropReads_lost (k : Core) (n : Nat) : (dropReads k n).lost = k.lost := by
  unfold dropReads dropAnswers
  split <;> rfl
@[simp] theorem dropReads_ending (k : Core) (n : Nat) : (dropReads k n).ending = k.ending := by
  unfold dropReads dropAnswers
  split <;> rfl
@[simp] theorem dropReads_handlerAborted (k : Core) (n : Nat) : (dropReads k n).handlerAborted = k.handlerAborted := by
  unfold dropReads dropAnswers
  split <;> rfl
@[simp] theorem dropReads_returned (k : Core) (n : Nat) : (dropReads k n).returned = k.returned := by
  unfold dropReads dropAnswers
  split <;> rfl
@[simp] theorem dropReads_hasRun (k : Core) (n : Nat) : (dropReads k n).hasRun = k.hasRun := by
  unfold dropReads dropAnswers
  split <;> rfl
@[simp] theorem dropReads_prevTenant (k : Core) (n : Nat) : (dropReads k n).prevTenant = k.prevTenant := by
  unfold dropReads dropAnswers
  split <;> rfl
@[simp] theorem dropReads_activity (k : Core) (n : Nat) : (dropReads k n).activity = k.activity := by
  unfold dropReads dropAnswers
  split <;> rfl
@[simp] theorem dropReads_tregs (k : Core) (n : Nat) : (dropReads k n).tregs = k.tregs := by
  unfold dropReads dropAnswers
  split <;> rfl
@[simp] theorem dropReads_cregs (k : Core) (n : Nat) : (dropReads k n).cregs = k.cregs := by
  unfold dropReads dropAnswers
  split <;> rfl
@[simp] theorem dropReads_files (k : Core) (n : Nat) : (dropReads k n).files = k.files := by
  unfold dropReads dropAnswers
  split <;> rfl
@[simp] theorem dropReads_queues (k : Core) (n : Nat) : (dropReads k n).queues = k.queues := by
  unfold dropReads dropAnswers
  split <;> rfl
@[simp] theorem dropReads_streams (k : Core) (n : Nat) : (dropReads k n).streams = k.streams := by
  unfold dropReads dropAnswers
  split <;> rfl
@[simp] theorem dropReads_tables (k : Core) (n : Nat) : (dropReads k n).tables = k.tables := by
  unfold dropReads dropAnswers
  split <;> rfl
@[simp] theorem dropReads_l1 (k : Core) (n : Nat) : (dropReads k n).l1 = k.l1 := by
  unfold dropReads dropAnswers
  split <;> rfl
@[simp] theorem dropReads_homes (k : Core) (n : Nat) : (dropReads k n).homes = k.homes := by
  unfold dropReads dropAnswers
  split <;> rfl
@[simp] theorem dropReads_partials (k : Core) (n : Nat) : (dropReads k n).partials = k.partials := by
  unfold dropReads dropAnswers
  split <;> rfl
@[simp] theorem dropReads_seq (k : Core) (n : Nat) : (dropReads k n).seq = k.seq := by
  unfold dropReads dropAnswers
  split <;> rfl
@[simp] theorem dropReads_flits (k : Core) (n : Nat) : (dropReads k n).flits = k.flits := by
  unfold dropReads dropAnswers
  split <;> rfl
@[simp] theorem dropReads_pktSeq (k : Core) (n : Nat) : (dropReads k n).pktSeq = k.pktSeq := by
  unfold dropReads dropAnswers
  split <;> rfl
@[simp] theorem dropReads_pktSeen (k : Core) (n : Nat) : (dropReads k n).pktSeen = k.pktSeen := by
  unfold dropReads dropAnswers
  split <;> rfl
@[simp] theorem dropReads_evictFault (k : Core) (n : Nat) : (dropReads k n).evictFault = k.evictFault := by
  unfold dropReads dropAnswers
  split <;> rfl
@[simp] theorem dropReads_laneErrors (k : Core) (n : Nat) : (dropReads k n).laneErrors = k.laneErrors := by
  unfold dropReads dropAnswers
  split <;> rfl
@[simp] theorem dropReads_unbound (k : Core) (n : Nat) : (dropReads k n).unbound = k.unbound := by
  unfold dropReads dropAnswers
  split <;> rfl
@[simp] theorem dropReads_waited (k : Core) (n : Nat) : (dropReads k n).waited = k.waited := by
  unfold dropReads dropAnswers
  split <;> rfl
@[simp] theorem dropReads_doing (k : Core) (n : Nat) : (dropReads k n).doing = k.doing := by
  unfold dropReads dropAnswers
  split <;> rfl
@[simp] theorem dropReads_poisoned (k : Core) (n : Nat) : (dropReads k n).poisoned = k.poisoned := by
  unfold dropReads dropAnswers
  split <;> rfl
@[simp] theorem dropReads_ctrs (k : Core) (n : Nat) : (dropReads k n).ctrs = k.ctrs := by
  unfold dropReads dropAnswers
  split <;> rfl
@[simp] theorem dropReads_pend (k : Core) (n : Nat) : (dropReads k n).pend = k.pend := by
  unfold dropReads dropAnswers
  split <;> rfl

/-! ### retire -/

/-- What a commit changes: the PC, at task level INSTRET (R102), the performance counters, and what the instruction
keeps of its own reads, which is dropped. -/
theorem retireTo_eq (k : Core) (pc : DWord) :
    retireTo k pc = { countPerf k 2 1 with
      pc := pc
      answered := k.answered.del 0
      replays := k.replays.del 0
      remote := k.remote.filter fun r => !r.idem
      tregs := { k.tregs with instret := if k.level = .task then k.tregs.instret + 1 else k.tregs.instret } } := by
  unfold retireTo
  simp only [dropReads_control, countPerf_level, countPerf_tregs, countPerf_answered, countPerf_replays, countPerf_remote]
  by_cases h : k.level = .task
  · simp [h]
  · simp only [if_neg h]

@[simp] theorem retireTo_pc (k : Core) (pc : DWord) : (retireTo k pc).pc = pc := by rw [retireTo_eq]

@[simp] theorem retireTo_level (k : Core) (pc : DWord) : (retireTo k pc).level = k.level := by simp [retireTo_eq]
@[simp] theorem retireTo_halted (k : Core) (pc : DWord) : (retireTo k pc).halted = k.halted := by simp [retireTo_eq]
@[simp] theorem retireTo_fenced (k : Core) (pc : DWord) : (retireTo k pc).fenced = k.fenced := by simp [retireTo_eq]
@[simp] theorem retireTo_task (k : Core) (pc : DWord) : (retireTo k pc).task = k.task := by simp [retireTo_eq]
@[simp] theorem retireTo_lost (k : Core) (pc : DWord) : (retireTo k pc).lost = k.lost := by simp [retireTo_eq]
@[simp] theorem retireTo_ending (k : Core) (pc : DWord) : (retireTo k pc).ending = k.ending := by simp [retireTo_eq]
@[simp] theorem retireTo_handlerAborted (k : Core) (pc : DWord) : (retireTo k pc).handlerAborted = k.handlerAborted := by simp [retireTo_eq]
@[simp] theorem retireTo_returned (k : Core) (pc : DWord) : (retireTo k pc).returned = k.returned := by simp [retireTo_eq]
@[simp] theorem retireTo_hasRun (k : Core) (pc : DWord) : (retireTo k pc).hasRun = k.hasRun := by simp [retireTo_eq]
@[simp] theorem retireTo_prevTenant (k : Core) (pc : DWord) : (retireTo k pc).prevTenant = k.prevTenant := by simp [retireTo_eq]
@[simp] theorem retireTo_activity (k : Core) (pc : DWord) : (retireTo k pc).activity = k.activity := by simp [retireTo_eq]
@[simp] theorem retireTo_cregs (k : Core) (pc : DWord) : (retireTo k pc).cregs = k.cregs := by simp [retireTo_eq]
@[simp] theorem retireTo_files (k : Core) (pc : DWord) : (retireTo k pc).files = k.files := by simp [retireTo_eq]
@[simp] theorem retireTo_queues (k : Core) (pc : DWord) : (retireTo k pc).queues = k.queues := by simp [retireTo_eq]
@[simp] theorem retireTo_streams (k : Core) (pc : DWord) : (retireTo k pc).streams = k.streams := by simp [retireTo_eq]
@[simp] theorem retireTo_tables (k : Core) (pc : DWord) : (retireTo k pc).tables = k.tables := by simp [retireTo_eq]
@[simp] theorem retireTo_l1 (k : Core) (pc : DWord) : (retireTo k pc).l1 = k.l1 := by simp [retireTo_eq]
@[simp] theorem retireTo_homes (k : Core) (pc : DWord) : (retireTo k pc).homes = k.homes := by simp [retireTo_eq]
@[simp] theorem retireTo_partials (k : Core) (pc : DWord) : (retireTo k pc).partials = k.partials := by simp [retireTo_eq]
@[simp] theorem retireTo_seq (k : Core) (pc : DWord) : (retireTo k pc).seq = k.seq := by simp [retireTo_eq]
@[simp] theorem retireTo_remote (k : Core) (pc : DWord) : (retireTo k pc).remote = k.remote.filter fun r => !r.idem := by simp [retireTo_eq]
@[simp] theorem retireTo_posted (k : Core) (pc : DWord) : (retireTo k pc).posted = k.posted := by simp [retireTo_eq]
@[simp] theorem retireTo_poisoned (k : Core) (pc : DWord) : (retireTo k pc).poisoned = k.poisoned := by simp [retireTo_eq]
@[simp] theorem retireTo_flits (k : Core) (pc : DWord) : (retireTo k pc).flits = k.flits := by simp [retireTo_eq]
@[simp] theorem retireTo_pktSeq (k : Core) (pc : DWord) : (retireTo k pc).pktSeq = k.pktSeq := by simp [retireTo_eq]
@[simp] theorem retireTo_pktSeen (k : Core) (pc : DWord) : (retireTo k pc).pktSeen = k.pktSeen := by simp [retireTo_eq]
@[simp] theorem retireTo_evictFault (k : Core) (pc : DWord) : (retireTo k pc).evictFault = k.evictFault := by simp [retireTo_eq]
@[simp] theorem retireTo_laneErrors (k : Core) (pc : DWord) : (retireTo k pc).laneErrors = k.laneErrors := by simp [retireTo_eq]
@[simp] theorem retireTo_unbound (k : Core) (pc : DWord) : (retireTo k pc).unbound = k.unbound := by simp [retireTo_eq]
@[simp] theorem retireTo_waited (k : Core) (pc : DWord) : (retireTo k pc).waited = k.waited := by simp [retireTo_eq]
@[simp] theorem retireTo_doing (k : Core) (pc : DWord) : (retireTo k pc).doing = k.doing := by simp [retireTo_eq]
@[simp] theorem retireTo_pend (k : Core) (pc : DWord) : (retireTo k pc).pend = k.pend := by simp [retireTo_eq]
/-- A commit drops the answers kept for the instruction's own reads (R189). -/
@[simp] theorem retireTo_answered (k : Core) (pc : DWord) : (retireTo k pc).answered = k.answered.del 0 := by simp [retireTo_eq]
@[simp] theorem retireTo_replays (k : Core) (pc : DWord) : (retireTo k pc).replays = k.replays.del 0 := by simp [retireTo_eq]
/-- A commit counts in INSTRET at task level alone (R102). -/
theorem retireTo_tregs (k : Core) (pc : DWord) :
    (retireTo k pc).tregs = { k.tregs with instret := if k.level = .task then k.tregs.instret + 1 else k.tregs.instret } := by
  rw [retireTo_eq]

@[simp] theorem retire_pc (k : Core) (n : Nat) : (retire k n).pc = k.pc + BitVec.ofNat 64 n := by simp [retire]
@[simp] theorem retire_level (k : Core) (n : Nat) : (retire k n).level = k.level := by simp [retire]
@[simp] theorem retire_halted (k : Core) (n : Nat) : (retire k n).halted = k.halted := by simp [retire]
@[simp] theorem retire_fenced (k : Core) (n : Nat) : (retire k n).fenced = k.fenced := by simp [retire]
@[simp] theorem retire_task (k : Core) (n : Nat) : (retire k n).task = k.task := by simp [retire]
@[simp] theorem retire_lost (k : Core) (n : Nat) : (retire k n).lost = k.lost := by simp [retire]
@[simp] theorem retire_ending (k : Core) (n : Nat) : (retire k n).ending = k.ending := by simp [retire]
@[simp] theorem retire_handlerAborted (k : Core) (n : Nat) : (retire k n).handlerAborted = k.handlerAborted := by simp [retire]
@[simp] theorem retire_returned (k : Core) (n : Nat) : (retire k n).returned = k.returned := by simp [retire]
@[simp] theorem retire_hasRun (k : Core) (n : Nat) : (retire k n).hasRun = k.hasRun := by simp [retire]
@[simp] theorem retire_prevTenant (k : Core) (n : Nat) : (retire k n).prevTenant = k.prevTenant := by simp [retire]
@[simp] theorem retire_activity (k : Core) (n : Nat) : (retire k n).activity = k.activity := by simp [retire]
@[simp] theorem retire_cregs (k : Core) (n : Nat) : (retire k n).cregs = k.cregs := by simp [retire]
@[simp] theorem retire_files (k : Core) (n : Nat) : (retire k n).files = k.files := by simp [retire]
@[simp] theorem retire_queues (k : Core) (n : Nat) : (retire k n).queues = k.queues := by simp [retire]
@[simp] theorem retire_streams (k : Core) (n : Nat) : (retire k n).streams = k.streams := by simp [retire]
@[simp] theorem retire_tables (k : Core) (n : Nat) : (retire k n).tables = k.tables := by simp [retire]
@[simp] theorem retire_l1 (k : Core) (n : Nat) : (retire k n).l1 = k.l1 := by simp [retire]
@[simp] theorem retire_homes (k : Core) (n : Nat) : (retire k n).homes = k.homes := by simp [retire]
@[simp] theorem retire_partials (k : Core) (n : Nat) : (retire k n).partials = k.partials := by simp [retire]
@[simp] theorem retire_seq (k : Core) (n : Nat) : (retire k n).seq = k.seq := by simp [retire]
@[simp] theorem retire_remote (k : Core) (n : Nat) : (retire k n).remote = k.remote.filter fun r => !r.idem := by simp [retire]
@[simp] theorem retire_posted (k : Core) (n : Nat) : (retire k n).posted = k.posted := by simp [retire]
@[simp] theorem retire_poisoned (k : Core) (n : Nat) : (retire k n).poisoned = k.poisoned := by simp [retire]
@[simp] theorem retire_flits (k : Core) (n : Nat) : (retire k n).flits = k.flits := by simp [retire]
@[simp] theorem retire_pktSeq (k : Core) (n : Nat) : (retire k n).pktSeq = k.pktSeq := by simp [retire]
@[simp] theorem retire_pktSeen (k : Core) (n : Nat) : (retire k n).pktSeen = k.pktSeen := by simp [retire]
@[simp] theorem retire_evictFault (k : Core) (n : Nat) : (retire k n).evictFault = k.evictFault := by simp [retire]
@[simp] theorem retire_laneErrors (k : Core) (n : Nat) : (retire k n).laneErrors = k.laneErrors := by simp [retire]
@[simp] theorem retire_unbound (k : Core) (n : Nat) : (retire k n).unbound = k.unbound := by simp [retire]
@[simp] theorem retire_waited (k : Core) (n : Nat) : (retire k n).waited = k.waited := by simp [retire]
@[simp] theorem retire_doing (k : Core) (n : Nat) : (retire k n).doing = k.doing := by simp [retire]
@[simp] theorem retire_pend (k : Core) (n : Nat) : (retire k n).pend = k.pend := by simp [retire]

/-! ### Registers after a write -/

/-- `s0` reads 0 (R93). -/
@[simp] theorem getS_zero (k : Core) : getS k 0 = 0 := rfl

@[simp] theorem getS_retire (k : Core) (n : Nat) (r : BitVec 5) : getS (retire k n) r = getS k r := by simp [getS]

@[simp] theorem getS_retireTo (k : Core) (pc : DWord) (r : BitVec 5) : getS (retireTo k pc) r = getS k r := by simp [getS]

/-- A scalar register after a write: the value, but in `s0`, which discards it (R58). -/
theorem getS_setS (k : Core) (r q : BitVec 5) (v : DWord) : getS (setS k r v) q = if q = r ∧ r ≠ 0 then v else getS k q := by
  by_cases hr : r = 0#5
  · simp [setS, hr]
  · by_cases hq : q = r
    · subst hq
      simp [setS, getS, hr]
    · have h : r.toNat ≠ q.toNat := fun e => hq (BitVec.eq_of_toNat_eq e.symm)
      simp [setS, getS, hr, hq, h]

/-- `k0` reads as all ones (R96). -/
@[simp] theorem getK_zero (k : Core) : getK k 0 = BitVec.allOnes 64 := rfl

/-- A mask after a write (R92). -/
theorem getK_setK (k : Core) (n m : BitVec 3) (v : DWord) : getK (setK k n v) m = if m = n ∧ n ≠ 0 then v else getK k m := by
  by_cases hr : n = 0#3
  · simp [setK, hr]
  · by_cases hq : m = n
    · subst hq
      simp [setK, getK, hr]
    · have h : n.toNat ≠ m.toNat := fun e => hq (BitVec.eq_of_toNat_eq e.symm)
      simp [setK, getK, hr, hq, h]

/-- A frame row after a write. -/
theorem getRow_setRow (k : Core) (n m : BitVec 6) (r : FrameRow) : getRow (setRow k n r) m = if m = n then r else getRow k m := by
  by_cases hq : m = n
  · subst hq
    simp [setRow, getRow]
  · have h : n.toNat ≠ m.toNat := fun e => hq (BitVec.eq_of_toNat_eq e.symm)
    simp [setRow, getRow, hq, h]

/-- What a scalar write and a commit do to the package: only the current core changes. -/
theorem writeScalar_eq (s : State) (rd : BitVec 5) (v : DWord) :
    writeScalar s rd v = updCore s s.cur (fun k => retire (setS k rd v) 4) := rfl

end Machine

end Sys2Proof
end

