-- ==== Sys2Proof/Laws/Monad.lean ====
section
/-!
SUPPORT. How a meaning that may stop runs: one lemma for each of its steps, so that no proof unfolds the monad; and how the end of an
instruction follows from the end of its meaning.
-/

namespace Sys2Proof.Machine

/-! ### The steps of a meaning -/

@[simp] theorem M.pure_run {α : Type} (a : α) (s : State) : (pure a : M α) s = .ok a s := rfl

/-- A step after one that has answered. -/
theorem M.bind_ok {α β : Type} {m : M α} {f : α → M β} {s s' : State} {a : α} (h : m s = .ok a s') : (m >>= f) s = f a s' := by
  show EStateM.bind m f s = _
  simp [EStateM.bind, h]

/-- A step after one that has stopped. -/
theorem M.bind_error {α β : Type} {m : M α} {f : α → M β} {s s' : State} {e : Stop} (h : m s = .error e s') : (m >>= f) s = .error e s' := by
  show EStateM.bind m f s = _
  simp [EStateM.bind, h]

@[simp] theorem M.pure_bind_run {α β : Type} (a : α) (f : α → M β) (s : State) : ((pure a : M α) >>= f) s = f a s := rfl

@[simp] theorem M.bind_assoc_run {α β γ : Type} (m : M α) (f : α → M β) (g : β → M γ) (s : State) :
    ((m >>= f) >>= g) s = (m >>= fun a => f a >>= g) s := by
  show EStateM.bind (EStateM.bind m f) g s = EStateM.bind m _ s
  simp only [EStateM.bind]
  cases m s <;> rfl

@[simp] theorem M.get_bind {β : Type} (f : State → M β) (s : State) : ((get : M State) >>= f) s = f s s := rfl

@[simp] theorem M.get_run (s : State) : (get : M State) s = .ok s s := rfl

@[simp] theorem M.modify_bind {β : Type} (g : State → State) (f : PUnit → M β) (s : State) : ((modify g : M PUnit) >>= f) s = f ⟨⟩ (g s) := rfl

@[simp] theorem M.modify_run (g : State → State) (s : State) : (modify g : M PUnit) s = .ok ⟨⟩ (g s) := rfl

@[simp] theorem M.theCore_bind {β : Type} (c : CoreId) (f : Core → M β) (s : State) : (theCore c >>= f) s = f (getCore s c) s := rfl

@[simp] theorem M.theCore_run (c : CoreId) (s : State) : theCore c s = .ok (getCore s c) s := rfl

@[simp] theorem M.modCore_bind {β : Type} (c : CoreId) (g : Core → Core) (f : Unit → M β) (s : State) :
    (modCore c g >>= f) s = f () (updCore s c g) := rfl

@[simp] theorem M.modCore_run (c : CoreId) (g : Core → Core) (s : State) : modCore c g s = .ok () (updCore s c g) := rfl

@[simp] theorem M.modHub_bind {β : Type} (g : Hub → Hub) (f : Unit → M β) (s : State) :
    (modHub g >>= f) s = f () { s with hub := g s.hub } := rfl

@[simp] theorem M.modHub_run (g : Hub → Hub) (s : State) : modHub g s = .ok () { s with hub := g s.hub } := rfl

@[simp] theorem M.answer_bind {α β : Type} (g : State → State × α) (f : α → M β) (s : State) :
    (answer g >>= f) s = f (g s).2 (g s).1 := rfl

@[simp] theorem M.answer_run {α : Type} (g : State → State × α) (s : State) : answer g s = .ok (g s).2 (g s).1 := rfl

@[simp] theorem M.raise_run {α : Type} (x : Cause) (v : DWord) (s : State) : (raise x v : M α) s = .error (.trap (trapInfo x v)) s := rfl

@[simp] theorem M.raise_bind {α β : Type} (x : Cause) (v : DWord) (f : α → M β) (s : State) :
    ((raise x v : M α) >>= f) s = .error (.trap (trapInfo x v)) s := rfl

@[simp] theorem M.wait_run {α : Type} (s : State) : (waitHere : M α) s = .error .wait s := rfl

@[simp] theorem M.wait_bind {α β : Type} (f : α → M β) (s : State) : ((waitHere : M α) >>= f) s = .error .wait s := rfl

@[simp] theorem require_true (x : Cause) (v : DWord) : require true x v = pure () := rfl

@[simp] theorem require_false (x : Cause) (v : DWord) : require false x v = raise x v := rfl

@[simp] theorem awaitThat_true : awaitThat true = pure () := rfl

@[simp] theorem awaitThat_false : awaitThat false = waitHere := rfl

@[simp] theorem eachOf_nil {α : Type} (f : α → M Unit) : eachOf [] f = pure () := rfl

@[simp] theorem eachOf_cons {α : Type} (a : α) (r : List α) (f : α → M Unit) : eachOf (a :: r) f = (do f a; eachOf r f) := rfl

/-! ### How an instruction ends -/

/-- An instruction whose meaning completes commits, and its core goes on past it. -/
theorem control_ok {m : CoreId → M Unit} {s s' : State} (h : m s.cur s = .ok () s') :
    control m s = .next (updCore s' s'.cur fun k => retire k 4) := by
  simp [control, finish, h]

/-- An instruction whose meaning waits leaves what its meaning has done, and runs again. -/
theorem control_wait {m : CoreId → M Unit} {s s' : State} (h : m s.cur s = .error .wait s') : control m s = .next s' := by
  simp [control, finish, h]

/-- An instruction whose meaning traps takes the trap with EPC its own address. -/
theorem control_trap {m : CoreId → M Unit} {s s' : State} {t : TrapInfo} (h : m s.cur s = .error (.trap t) s') :
    control m s = .next (stopAt s s' s.cur (controlTrap t (getCore s s.cur).pc)) := by
  simp [control, finish, h]

/-- An instruction whose meaning answers a value writes it to `rd` and commits. -/
theorem controlTo_ok {rd : BitVec 5} {m : CoreId → M DWord} {s s' : State} {v : DWord} (h : m s.cur s = .ok v s') (hc : s'.cur = s.cur) :
    controlTo rd m s = .next (writeScalar s' rd v) := by
  have : (m s.cur >>= fun v => modCore s.cur fun k => setS k rd v) s = .ok () (updCore s' s.cur fun k => setS k rd v) := by
    rw [M.bind_ok h]; rfl
  rw [controlTo, control_ok this]
  simp [writeScalar, updCore, hc, setCore_setCore]

/-- An instruction that answers a value and traps instead. -/
theorem controlTo_trap {rd : BitVec 5} {m : CoreId → M DWord} {s s' : State} {t : TrapInfo} (h : m s.cur s = .error (.trap t) s') :
    controlTo rd m s = .next (stopAt s s' s.cur (controlTrap t (getCore s s.cur).pc)) :=
  control_trap (M.bind_error h)

/-- An instruction that answers a value and waits. -/
theorem controlTo_wait {rd : BitVec 5} {m : CoreId → M DWord} {s s' : State} (h : m s.cur s = .error .wait s') :
    controlTo rd m s = .next s' :=
  control_wait (M.bind_error h)

/-- An event that is well formed changes the state while the package has power. -/
theorem event_ok {f : State → State} {s : State} (h : s.hub.regs.power.on = true) : event true f s = .next (f s) := by simp [event, h]

/-- An event that is ill formed is a fault of the model. -/
theorem event_bad (f : State → State) (s : State) : event false f s = .fault .badEvent := rfl

end Sys2Proof.Machine
end

