-- ==== Sys2Proof/Laws/Memory.lean ====
section
/-!
SUPPORT. The byte memory: its canonical form in the terms of lists, what a store leaves at each address, and that every operation that
writes the memory of the package keeps the form.
-/

namespace Sys2Proof.Machine

/-! ### The canonical form -/

/-- The canonical form as a statement about the list: addresses rise, and no entry is what an unlisted address reads as. -/
theorem Memory.wf_iff (m : List Host.Cell) :
    Memory.wf m = true ↔ m.Pairwise (fun p q => p.1 < q.1) ∧ ∀ p ∈ m, p.2 ≠ unlisted := by
  induction m with
  | nil => simp [Memory.wf]
  | cons p r ih =>
    cases r with
    | nil => simp [Memory.wf]
    | cons q r =>
      simp only [Memory.wf, Bool.and_eq_true, bne_iff_ne, decide_eq_true_eq, ih, List.pairwise_cons, List.mem_cons]
      constructor
      · rintro ⟨⟨hp, hpq⟩, ⟨hq, hr⟩, hn⟩
        refine ⟨⟨?_, hq, hr⟩, ?_⟩
        · rintro x (rfl | hx)
          · exact hpq
          · exact lt_trans hpq (hq x hx)
        · rintro x (rfl | hx)
          · exact hp
          · exact hn x hx
      · rintro ⟨⟨hp, hq, hr⟩, hn⟩
        exact ⟨⟨hn p (.inl rfl), hp q (.inl rfl)⟩, ⟨hq, hr⟩, fun x hx => hn x (.inr hx)⟩

theorem Memory.wf_nil : Memory.wf [] = true := rfl

/-- A part of a memory in canonical form is in canonical form. -/
theorem Memory.wf_filter {m : List Host.Cell} (h : Memory.wf m = true) (f : Host.Cell → Bool) : Memory.wf (m.filter f) = true := by
  rw [Memory.wf_iff] at *
  exact ⟨h.1.filter f, fun p hp => h.2 p (List.mem_of_mem_filter hp)⟩

/-- The cells of a number lie in its bytes' range and are none of them what an unlisted address reads as. -/
theorem mem_cellsOf {a n v : Nat} {p : Host.Cell} (h : p ∈ cellsOf a n v) : a ≤ p.1 ∧ p.1 < a + n ∧ p.2 ≠ unlisted := by
  induction n generalizing a v with
  | zero => simp [cellsOf] at h
  | succ n ih =>
    simp only [cellsOf] at h
    split at h
    · obtain ⟨h1, h2, h3⟩ := ih h
      exact ⟨by omega, by omega, h3⟩
    · rename_i hb
      rcases List.mem_cons.1 h with rfl | h
      · exact ⟨le_refl _, Nat.lt_add_of_pos_right (Nat.succ_pos n), hb⟩
      · obtain ⟨h1, h2, h3⟩ := ih h
        exact ⟨by omega, by omega, h3⟩

/-- The cells of a number stand in the order of their addresses. -/
theorem cellsOf_pairwise (a n v : Nat) : (cellsOf a n v).Pairwise fun p q => p.1 < q.1 := by
  induction n generalizing a v with
  | zero => simp [cellsOf]
  | succ n ih =>
    simp only [cellsOf]
    split
    · exact ih _ _
    · refine List.pairwise_cons.2 ⟨fun q hq => ?_, ih _ _⟩
      have := (mem_cellsOf hq).1
      show a < q.1
      omega

/-- A store keeps the canonical form. -/
theorem memStore_wf {m : List Host.Cell} (h : Memory.wf m = true) (a n v : Nat) : Memory.wf (memStore m a n v) = true := by
  rw [Memory.wf_iff] at *
  obtain ⟨hs, hn⟩ := h
  unfold memStore
  refine ⟨?_, ?_⟩
  · rw [List.pairwise_append, List.pairwise_append]
    refine ⟨⟨hs.filter _, cellsOf_pairwise a n v, fun p hp q hq => ?_⟩, hs.filter _, fun p hp q hq => ?_⟩
    · have h1 := (List.mem_filter.1 hp).2
      have h2 := (mem_cellsOf hq).1
      simp at h1; omega
    · have h2 := (List.mem_filter.1 hq).2
      simp at h2
      rcases List.mem_append.1 hp with hp | hp
      · have h1 := (List.mem_filter.1 hp).2
        simp at h1; omega
      · have h1 := (mem_cellsOf hp).2.1
        omega
  · intro p hp
    simp only [List.append_assoc, List.mem_append] at hp
    rcases hp with hp | hp | hp
    · exact hn p (List.mem_of_mem_filter hp)
    · exact (mem_cellsOf hp).2.2
    · exact hn p (List.mem_of_mem_filter hp)

/-! ### What a byte reads as -/

/-- What the entries of a list make of one byte, from what has been gathered. -/
theorem foldl_byte_none {m : List Host.Cell} {x : Nat} (h : ∀ p ∈ m, p.1 ≠ x) (acc : Nat) :
    m.foldl (fun acc p => if x ≤ p.1 ∧ p.1 < x + 1 then acc ||| (p.2.toNat <<< (8 * (p.1 - x))) else acc) acc = acc := by
  induction m generalizing acc with
  | nil => rfl
  | cons p r ih =>
    have hp := h p (by simp)
    have : ¬(x ≤ p.1 ∧ p.1 < x + 1) := by omega
    simp only [List.foldl_cons, this, if_false]
    exact ih (fun q hq => h q (by simp [hq])) acc

/-- A byte that no entry names reads as 0. -/
theorem memByte_none {m : List Host.Cell} {x : Nat} (h : ∀ p ∈ m, p.1 ≠ x) : memByte m x = unlisted := by
  simp only [memByte, memLoad, foldl_byte_none h, unlisted]
  rfl

/-- A byte that one entry of a rising list names reads as that entry. -/
theorem memByte_mem {m : List Host.Cell} (hs : m.Pairwise fun p q => p.1 < q.1) {p : Host.Cell} (hp : p ∈ m) : memByte m p.1 = p.2 := by
  obtain ⟨xs, ys, rfl⟩ := List.append_of_mem hp
  rw [List.pairwise_append, List.pairwise_cons] at hs
  obtain ⟨-, ⟨hy, -⟩, hx⟩ := hs
  have h1 : ∀ q ∈ xs, q.1 ≠ p.1 := fun q hq => Nat.ne_of_lt (hx q hq p (by simp))
  have h2 : ∀ q ∈ ys, q.1 ≠ p.1 := fun q hq => Nat.ne_of_gt (hy q hq)
  simp only [memByte, memLoad, List.foldl_append, List.foldl_cons, foldl_byte_none h1, foldl_byte_none h2]
  simp

/-- What a list of rising cells reads as at an address is decided by its entries at that address. -/
theorem memByte_congr {m m' : List Host.Cell} (hs : m.Pairwise fun p q => p.1 < q.1) (hs' : m'.Pairwise fun p q => p.1 < q.1)
    {x : Nat} (h : ∀ b, (x, b) ∈ m ↔ (x, b) ∈ m') : memByte m x = memByte m' x := by
  by_cases hx : ∃ b, (x, b) ∈ m
  · obtain ⟨b, hb⟩ := hx
    rw [memByte_mem hs hb, memByte_mem hs' ((h b).1 hb)]
  · have h1 : ∀ p ∈ m, p.1 ≠ x := by rintro ⟨y, b⟩ hp rfl; exact hx ⟨b, hp⟩
    have h2 : ∀ p ∈ m', p.1 ≠ x := by rintro ⟨y, b⟩ hp rfl; exact hx ⟨b, (h b).2 hp⟩
    rw [memByte_none h1, memByte_none h2]

/-- A cell of a number at an address of its range. -/
theorem mem_cellsOf_iff {a n v x : Nat} {b : Byte} :
    (x, b) ∈ cellsOf a n v ↔ a ≤ x ∧ x < a + n ∧ b = BitVec.ofNat 8 (v / 256 ^ (x - a)) ∧ b ≠ unlisted := by
  induction n generalizing a v with
  | zero => simp [cellsOf]; omega
  | succ n ih =>
    have key : a + 1 ≤ x → v / 256 / 256 ^ (x - (a + 1)) = v / 256 ^ (x - a) := by
      intro hx
      rw [Nat.div_div_eq_div_mul, ← pow_succ', show x - (a + 1) + 1 = x - a by omega]
    simp only [cellsOf]
    split
    · rename_i hb
      rw [ih]
      constructor
      · rintro ⟨h1, h2, h3, h4⟩
        exact ⟨by omega, by omega, by rw [h3, key h1], h4⟩
      · rintro ⟨h1, h2, h3, h4⟩
        have : a ≠ x := by
          rintro rfl
          simp [hb] at h3
          exact h4 h3
        exact ⟨by omega, by omega, by rw [h3, key (by omega)], h4⟩
    · rename_i hb
      rw [List.mem_cons, ih, Prod.mk.injEq]
      constructor
      · rintro (⟨rfl, rfl⟩ | ⟨h1, h2, h3, h4⟩)
        · exact ⟨le_refl _, by omega, by simp, hb⟩
        · exact ⟨by omega, by omega, by rw [h3, key h1], h4⟩
      · rintro ⟨h1, h2, h3, h4⟩
        by_cases hx : x = a
        · subst hx; left; simpa using h3
        · right
          exact ⟨by omega, by omega, by rw [h3, key (by omega)], h4⟩

/-- A store changes exactly its bytes. -/
theorem memByte_memStore {m : List Host.Cell} (h : Memory.wf m = true) (a n v x : Nat) :
    memByte (memStore m a n v) x = if a ≤ x ∧ x < a + n then BitVec.ofNat 8 (v / 256 ^ (x - a)) else memByte m x := by
  have hw := memStore_wf h a n v
  rw [Memory.wf_iff] at h hw
  have hm : ∀ b, (x, b) ∈ memStore m a n v ↔ (((x, b) ∈ m ∧ x < a) ∨ (x, b) ∈ cellsOf a n v) ∨ ((x, b) ∈ m ∧ a + n ≤ x) := by
    intro b; simp [memStore, List.mem_append, List.mem_filter, or_assoc]
  split
  · rename_i hx
    by_cases hz : BitVec.ofNat 8 (v / 256 ^ (x - a)) = unlisted
    · rw [hz]
      refine memByte_none ?_
      rintro ⟨y, b⟩ hp rfl
      rcases (hm b).1 hp with (⟨-, h1⟩ | h1) | ⟨-, h1⟩
      · simp at hx; omega
      · have h2 := mem_cellsOf_iff.1 h1
        exact h2.2.2.2 (h2.2.2.1.trans hz)
      · simp at hx; omega
    · exact memByte_mem hw.1 ((hm _).2 (.inl (.inr (mem_cellsOf_iff.2 ⟨hx.1, hx.2, rfl, hz⟩))))
  · rename_i hx
    refine memByte_congr hw.1 h.1 fun b => ?_
    rw [hm]
    constructor
    · rintro ((⟨h1, -⟩ | h1) | ⟨h1, -⟩)
      · exact h1
      · have h2 := mem_cellsOf_iff.1 h1
        exact absurd ⟨h2.1, h2.2.1⟩ hx
      · exact h1
    · intro h1
      rcases Nat.lt_or_ge x a with h2 | h2
      · exact .inl (.inl ⟨h1, h2⟩)
      · exact .inr ⟨h1, by omega⟩

/-! ### The operations that write the memory of the package -/

/-- A line put into the memory behind the homes. -/
theorem putStoreLine_wf {s : State} (h : Memory.wf s.store.bytes = true) (line : Nat) (d : BitVec 1024) (mask : BitVec 128) (p : BitVec 32) :
    Memory.wf (putStoreLine s line d mask p).store.bytes = true := memStore_wf h _ _ _

/-- Bytes put into the memory at a place. -/
theorem storePut_wf {s : State} (h : Memory.wf s.store.bytes = true) (pa n v : Nat) (bad : Bool) :
    Memory.wf (storePut s pa n v bad).store.bytes = true := memStore_wf h _ _ _

/-- A scratchpad zeroed. -/
theorem zeroScratch_wf {s : State} (h : Memory.wf s.store.bytes = true) (c : CoreId) :
    Memory.wf (zeroScratch s c).store.bytes = true := Memory.wf_filter h _

/-- A reset of the package. -/
theorem resetKeeping_wf {s : State} (h : Memory.wf s.store.bytes = true) (keep : Nat → Bool) :
    Memory.wf (resetKeeping s keep).store.bytes = true := Memory.wf_filter h _

/-- An instruction placed for the next fetch. -/
theorem withFetchWord_wf {s : State} (h : Memory.wf s.store.bytes = true) (nbits w : Nat) :
    Memory.wf (s.withFetchWord nbits w).store.bytes = true := memStore_wf h _ _ _

/-- Memory after reset. -/
theorem reset_wf : Memory.wf State.reset.store.bytes = true := rfl

/-- A core changed. -/
theorem updCore_wf {s : State} (h : Memory.wf s.store.bytes = true) (c : CoreId) (f : Core → Core) :
    Memory.wf (updCore s c f).store.bytes = true := h

end Sys2Proof.Machine
end

