-- ==== Sys2Proof/Laws/Ops.lean ====
section
/-!
SUPPORT. What the shared operations of the control thread can do: arithmetic and branches, posting, loads and stores, and the taking of a
trap at each level.
-/

namespace Sys2Proof.Machine

/-! ### Arithmetic and branches -/

/-- An operation on two registers writes its result and goes on. -/
theorem alu2_eq (rd rs1 rs2 : BitVec 5) (f : DWord → DWord → DWord) (s : State) :
    alu2 rd rs1 rs2 f s = .next (writeScalar s rd (f (getS (here s) rs1) (getS (here s) rs2))) := rfl

/-- A branch that is taken. -/
theorem branch_taken {rs1 rs2 : BitVec 5} {off : BitVec 12} {cond : DWord → DWord → Bool} {s : State}
    (h : cond (getS (here s) rs1) (getS (here s) rs2) = true) :
    branch rs1 rs2 off cond s = .next (updCore s s.cur fun k => retireTo k (k.pc + sext64 off * 2)) := by
  simp [branch, updCore, h]

/-- A branch that is not taken. -/
theorem branch_falls {rs1 rs2 : BitVec 5} {off : BitVec 12} {cond : DWord → DWord → Bool} {s : State}
    (h : cond (getS (here s) rs1) (getS (here s) rs2) = false) :
    branch rs1 rs2 off cond s = .next (updCore s s.cur fun k => retire k 4) := by
  simp [branch, updCore, h]

/-! ### Posting -/

/-- An operand that the decoder would not give raises ILLEGAL_OP. -/
theorem postVector_illegal {i : Instr} {len : Nat} {entry : CoreId → M Entry} {s : State} (h : i.wellFormed = false) :
    postVector i len entry s = trapNow s .illegalOp (encodingOf i) := by simp [postVector, h]

/-- The same in the matrix queue. -/
theorem postMatrix_illegal {i : Instr} {check : CoreId → M Unit} {s : State} (h : i.wellFormed = false) :
    postMatrix i check s = trapNow s .illegalOp (encodingOf i) := by simp [postMatrix, h]

/-- A replay that posts holds a posting instruction back. -/
theorem notPosting_wait {c : CoreId} {s : State} (h : (getCore s c).streams.rep.run ≠ none) : notPosting c s = .error .wait s := by
  have : ((getCore s c).streams.rep.run).isNone = false := by
    cases hr : (getCore s c).streams.rep.run with
    | none => exact absurd hr h
    | some _ => rfl
  simp only [notPosting, M.theCore_bind, this, awaitThat_false, M.wait_run]

/-- No replay posts. -/
theorem notPosting_ok {c : CoreId} {s : State} (h : (getCore s c).streams.rep.run = none) : notPosting c s = .ok () s := by
  simp [notPosting, h]

/-- An instruction with its entry and room in the vector queue is posted there, and may run at once. -/
theorem postVector_ok {i : Instr} {len : Nat} {entry : CoreId → M Entry} {s s' : State} {e : Entry} (hw : i.wellFormed = true)
    (hr : (here s).streams.rep.run = none) (he : entry s.cur s = .ok e s') (hq : (getCore s' s.cur).streams.vq.length < vectorDepth) :
    postVector i len entry s =
      let t := updCore s' s.cur fun k => enqueueVector k e
      .next (eagerVector (updCore t t.cur fun k => retire k len) t.cur) := by
  have h2 : ((notPosting s.cur >>= fun _ => entry s.cur >>= fun e => theCore s.cur >>= fun k =>
      awaitThat (k.streams.vq.length < vectorDepth) >>= fun _ => modCore s.cur fun k => enqueueVector k e : M Unit)) s
      = .ok () (updCore s' s.cur fun k => enqueueVector k e) := by
    rw [M.bind_ok (notPosting_ok hr), M.bind_ok he]
    simp [hq]
  simp only [postVector, hw, finishPost]
  erw [h2]
  rfl

/-- The same in the matrix queue, after the instruction's own checks. -/
theorem postMatrix_ok {i : Instr} {check : CoreId → M Unit} {s s' : State} (hw : i.wellFormed = true)
    (hr : (here s).streams.rep.run = none) (he : check s.cur s = .ok () s') (hq : (getCore s' s.cur).streams.mq.length < matrixDepth) :
    postMatrix i check s =
      let t := updCore s' s.cur fun k => enqueueMatrix k (newEntry k i)
      .next (eagerMatrix (updCore t t.cur fun k => retire k 4) t.cur) := by
  have h2 : ((notPosting s.cur >>= fun _ => check s.cur >>= fun _ => theCore s.cur >>= fun k =>
      awaitThat (k.streams.mq.length < matrixDepth) >>= fun _ => modCore s.cur fun k => enqueueMatrix k (newEntry k i) : M Unit)) s
      = .ok () (updCore s' s.cur fun k => enqueueMatrix k (newEntry k i)) := by
    rw [M.bind_ok (notPosting_ok hr), M.bind_ok he]
    simp [hq]
  simp only [postMatrix, hw, finishPost]
  erw [h2]
  rfl

/-! ### Loads and stores -/

/-- A load that may start and whose read answers writes what it has read, extended, to its register. -/
theorem load_ok {n : Nat} {signed : Bool} {rt rs1 : BitVec 5} {imm : BitVec 12} {s s1 s2 : State} {v : Nat}
    (hg : gateRead s.cur (eaOf (here s) rs1 imm) n s = .ok () s1) (hl : loadScalar s.cur (eaOf (here s) rs1 imm) n s1 = .ok v s2)
    (hc : s2.cur = s.cur) : load n signed rt rs1 imm s = .next (writeScalar s2 rt (extendTo signed n v)) := by
  unfold load
  refine controlTo_ok ?_ hc
  rw [M.theCore_bind, M.bind_ok hg, M.bind_ok hl]
  rfl

/-- A load that may not start yet. -/
theorem load_wait {n : Nat} {signed : Bool} {rt rs1 : BitVec 5} {imm : BitVec 12} {s s1 : State}
    (hg : gateRead s.cur (eaOf (here s) rs1 imm) n s = .error .wait s1) : load n signed rt rs1 imm s = .next s1 := by
  unfold load
  refine controlTo_wait ?_
  rw [M.theCore_bind, M.bind_error hg]

/-- A load whose read traps. -/
theorem load_trap {n : Nat} {signed : Bool} {rt rs1 : BitVec 5} {imm : BitVec 12} {s s1 s2 : State} {t : TrapInfo}
    (hg : gateRead s.cur (eaOf (here s) rs1 imm) n s = .ok () s1)
    (hl : loadScalar s.cur (eaOf (here s) rs1 imm) n s1 = .error (.trap t) s2) :
    load n signed rt rs1 imm s = .next (stopAt s s2 s.cur (controlTrap t (here s).pc)) := by
  unfold load
  refine controlTo_trap ?_
  rw [M.theCore_bind, M.bind_ok hg, M.bind_error hl]

/-- A store that may start and whose write answers goes on. -/
theorem store_ok {n : Nat} {rt rs1 : BitVec 5} {imm : BitVec 12} {s s1 s2 : State}
    (hg : gateWrite s.cur (eaOf (here s) rs1 imm) n s = .ok () s1)
    (hl : storeScalar s.cur (eaOf (here s) rs1 imm) n (getS (here s) rt) s1 = .ok () s2) :
    store n rt rs1 imm s = .next (updCore s2 s2.cur fun k => retire k 4) := by
  unfold store
  refine control_ok ?_
  rw [M.theCore_bind, M.bind_ok hg, hl]

/-- A store whose write traps. -/
theorem store_trap {n : Nat} {rt rs1 : BitVec 5} {imm : BitVec 12} {s s1 s2 : State} {t : TrapInfo}
    (hg : gateWrite s.cur (eaOf (here s) rs1 imm) n s = .ok () s1)
    (hl : storeScalar s.cur (eaOf (here s) rs1 imm) n (getS (here s) rt) s1 = .error (.trap t) s2) :
    store n rt rs1 imm s = .next (stopAt s s2 s.cur (controlTrap t (here s).pc)) := by
  unfold store
  refine control_trap ?_
  rw [M.theCore_bind, M.bind_ok hg, hl]

/-! ### Traps -/

/-- A trap at machine level halts the core. -/
theorem takeTrap_machine {s : State} {c : CoreId} {t : TrapAt} (h : (getCore s c).level = .machine) :
    takeTrap s c t = haltCore s c (getCore s c).pc t.info.cause := by simp [takeTrap, h]

/-- A trap at steward level halts the core where there is no machine level to enter. -/
theorem takeTrap_steward_halt {s : State} {c : CoreId} {t : TrapAt} (h : (getCore s c).level = .steward)
    (hm : (getCore s c).cregs.mtvec = 0) : takeTrap s c t = haltCore s c t.epc t.info.cause := by simp [takeTrap, h, hm]

/-- A trap at steward level enters machine level, with the steward's own entries set aside. -/
theorem takeTrap_steward {s : State} {c : CoreId} {t : TrapAt} (h : (getCore s c).level = .steward)
    (hm : (getCore s c).cregs.mtvec ≠ 0) :
    takeTrap s c t = machineEntry (updCore s c parkSteward) c t 1 (inHandler (getCore s c)) := by
  simp only [takeTrap, h]
  exact if_neg hm

/-- A trap above task level is taken at once. -/
theorem stopAt_above {s s' : State} {c : CoreId} {t : TrapAt} (h : (getCore s' c).level ≠ .task) :
    stopAt s s' c t = takeTrap s' c t := by simp [stopAt, h]

end Sys2Proof.Machine
end

