-- ==== Sys2Proof/Laws/PerInstr.lean ====
section
/-!
SUPPORT. Statements about every instruction as syntax, one lemma for each constructor.
-/

namespace Sys2Proof

/-! ### The widths of the codes -/

theorem Opd.code_lt (o : Opd) : o.code < 256 := by
  cases o <;> simp only [Opd.code] <;> omega

theorem Place.code_lt (v : Place) : v.code < 256 := by
  cases v <;> simp only [Place.code] <;> omega

theorem Fmt.code_lt (f : Fmt) : f.code < 16 := by cases f <;> decide

theorem Scope.code_lt (s : Scope) : s.code < 8 := by cases s <;> decide

theorem Order.code_lt (o : Order) : o.code < 5 := by cases o <;> decide

theorem ScopeOrder.code_lt (so : ScopeOrder) : so.code < 32 := by
  obtain ⟨s, o⟩ := so
  cases s <;> cases o <;> decide

theorem FpFmt.code_lt (f : FpFmt) : f.code < 2 := by cases f <;> decide

theorem FcvtKind.code_lt (k : FcvtKind) : k.code < 8 := by cases k <;> decide

theorem FcmpCond.code_lt (c : FcmpCond) : c.code < 4 := by cases c <;> decide

theorem DrainKind.code_lt (k : DrainKind) : k.code < 4 := by cases k <;> decide

theorem HDir.code_lt (d : HDir) : d.code < 4 := by cases d <;> decide

theorem Spr.code_lt (r : Spr) : r.code < 64 := by cases r <;> decide

theorem bit_lt (b : Bool) : bit b < 2 := by cases b <;> decide

end Sys2Proof

namespace Sys2Proof.Laws.EncodeWidth

/-- R50: an encoding is 2 or 4 bytes long, and its value fits them. -/
def Statement (i : Instr) : Prop := ∀ n w, encode i = some (n, w) → (n = 2 ∨ n = 4) ∧ w < 256 ^ n

/-- A value that is written out has its bound. -/
theorem of_eq {i : Instr} {m v : Nat} (h : encode i = some (m, v)) (hm : m = 2 ∨ m = 4) (hv : v < 256 ^ m) : Statement i := by
  intro n w e
  rw [h] at e
  obtain ⟨rfl, rfl⟩ := Prod.mk.inj (Option.some.inj e)
  exact ⟨hm, hv⟩

/-- An event has no encoding. -/
theorem of_none {i : Instr} (h : encode i = none) : Statement i := by
  intro n w e
  rw [h] at e
  cases e

theorem vaddC2 (dcol : Bool) (d : BitVec 5) (bcol : Bool) (b : BitVec 4) : Statement (.vaddC2 dcol d bcol b) := of_eq rfl (by decide) (by have h0 := bit_lt dcol; have h1 := d.isLt; have h2 := bit_lt bcol; have h3 := b.isLt; omega)

theorem vsubC2 (dcol : Bool) (d : BitVec 5) (bcol : Bool) (b : BitVec 4) : Statement (.vsubC2 dcol d bcol b) := of_eq rfl (by decide) (by have h0 := bit_lt dcol; have h1 := d.isLt; have h2 := bit_lt bcol; have h3 := b.isLt; omega)

theorem vmulC2 (dcol : Bool) (d : BitVec 5) (bcol : Bool) (b : BitVec 4) : Statement (.vmulC2 dcol d bcol b) := of_eq rfl (by decide) (by have h0 := bit_lt dcol; have h1 := d.isLt; have h2 := bit_lt bcol; have h3 := b.isLt; omega)

theorem vfmaC2 (dcol : Bool) (d : BitVec 5) (bcol : Bool) (b : BitVec 4) : Statement (.vfmaC2 dcol d bcol b) := of_eq rfl (by decide) (by have h0 := bit_lt dcol; have h1 := d.isLt; have h2 := bit_lt bcol; have h3 := b.isLt; omega)

theorem vminC2 (dcol : Bool) (d : BitVec 5) (bcol : Bool) (b : BitVec 4) : Statement (.vminC2 dcol d bcol b) := of_eq rfl (by decide) (by have h0 := bit_lt dcol; have h1 := d.isLt; have h2 := bit_lt bcol; have h3 := b.isLt; omega)

theorem vmaxC2 (dcol : Bool) (d : BitVec 5) (bcol : Bool) (b : BitVec 4) : Statement (.vmaxC2 dcol d bcol b) := of_eq rfl (by decide) (by have h0 := bit_lt dcol; have h1 := d.isLt; have h2 := bit_lt bcol; have h3 := b.isLt; omega)

theorem vandC2 (dcol : Bool) (d : BitVec 5) (bcol : Bool) (b : BitVec 4) : Statement (.vandC2 dcol d bcol b) := of_eq rfl (by decide) (by have h0 := bit_lt dcol; have h1 := d.isLt; have h2 := bit_lt bcol; have h3 := b.isLt; omega)

theorem vorC2 (dcol : Bool) (d : BitVec 5) (bcol : Bool) (b : BitVec 4) : Statement (.vorC2 dcol d bcol b) := of_eq rfl (by decide) (by have h0 := bit_lt dcol; have h1 := d.isLt; have h2 := bit_lt bcol; have h3 := b.isLt; omega)

theorem vxorC2 (dcol : Bool) (d : BitVec 5) (bcol : Bool) (b : BitVec 4) : Statement (.vxorC2 dcol d bcol b) := of_eq rfl (by decide) (by have h0 := bit_lt dcol; have h1 := d.isLt; have h2 := bit_lt bcol; have h3 := b.isLt; omega)

theorem vshlC2 (dcol : Bool) (d : BitVec 5) (bcol : Bool) (b : BitVec 4) : Statement (.vshlC2 dcol d bcol b) := of_eq rfl (by decide) (by have h0 := bit_lt dcol; have h1 := d.isLt; have h2 := bit_lt bcol; have h3 := b.isLt; omega)

theorem vshrC2 (dcol : Bool) (d : BitVec 5) (bcol : Bool) (b : BitVec 4) : Statement (.vshrC2 dcol d bcol b) := of_eq rfl (by decide) (by have h0 := bit_lt dcol; have h1 := d.isLt; have h2 := bit_lt bcol; have h3 := b.isLt; omega)

theorem vsraC2 (dcol : Bool) (d : BitVec 5) (bcol : Bool) (b : BitVec 4) : Statement (.vsraC2 dcol d bcol b) := of_eq rfl (by decide) (by have h0 := bit_lt dcol; have h1 := d.isLt; have h2 := bit_lt bcol; have h3 := b.isLt; omega)

theorem vmovC2 (dcol : Bool) (d : BitVec 5) (bcol : Bool) (b : BitVec 4) : Statement (.vmovC2 dcol d bcol b) := of_eq rfl (by decide) (by have h0 := bit_lt dcol; have h1 := d.isLt; have h2 := bit_lt bcol; have h3 := b.isLt; omega)

theorem vabsC2 (dcol : Bool) (d : BitVec 5) (bcol : Bool) (b : BitVec 4) : Statement (.vabsC2 dcol d bcol b) := of_eq rfl (by decide) (by have h0 := bit_lt dcol; have h1 := d.isLt; have h2 := bit_lt bcol; have h3 := b.isLt; omega)

theorem vnegC2 (dcol : Bool) (d : BitVec 5) (bcol : Bool) (b : BitVec 4) : Statement (.vnegC2 dcol d bcol b) := of_eq rfl (by decide) (by have h0 := bit_lt dcol; have h1 := d.isLt; have h2 := bit_lt bcol; have h3 := b.isLt; omega)

theorem vpopcC2 (dcol : Bool) (d : BitVec 5) (bcol : Bool) (b : BitVec 4) : Statement (.vpopcC2 dcol d bcol b) := of_eq rfl (by decide) (by have h0 := bit_lt dcol; have h1 := d.isLt; have h2 := bit_lt bcol; have h3 := b.isLt; omega)

theorem vaddV3 (d : Opd) (a : Opd) (b : Opd) : Statement (.vaddV3 d a b) := of_eq rfl (by decide) (by have h0 := Opd.code_lt d; have h1 := Opd.code_lt a; have h2 := Opd.code_lt b; omega)

theorem vsubV3 (d : Opd) (a : Opd) (b : Opd) : Statement (.vsubV3 d a b) := of_eq rfl (by decide) (by have h0 := Opd.code_lt d; have h1 := Opd.code_lt a; have h2 := Opd.code_lt b; omega)

theorem vmulV3 (d : Opd) (a : Opd) (b : Opd) : Statement (.vmulV3 d a b) := of_eq rfl (by decide) (by have h0 := Opd.code_lt d; have h1 := Opd.code_lt a; have h2 := Opd.code_lt b; omega)

theorem vfmaV3 (d : Opd) (a : Opd) (b : Opd) : Statement (.vfmaV3 d a b) := of_eq rfl (by decide) (by have h0 := Opd.code_lt d; have h1 := Opd.code_lt a; have h2 := Opd.code_lt b; omega)

theorem vminV3 (d : Opd) (a : Opd) (b : Opd) : Statement (.vminV3 d a b) := of_eq rfl (by decide) (by have h0 := Opd.code_lt d; have h1 := Opd.code_lt a; have h2 := Opd.code_lt b; omega)

theorem vmaxV3 (d : Opd) (a : Opd) (b : Opd) : Statement (.vmaxV3 d a b) := of_eq rfl (by decide) (by have h0 := Opd.code_lt d; have h1 := Opd.code_lt a; have h2 := Opd.code_lt b; omega)

theorem vandV3 (d : Opd) (a : Opd) (b : Opd) : Statement (.vandV3 d a b) := of_eq rfl (by decide) (by have h0 := Opd.code_lt d; have h1 := Opd.code_lt a; have h2 := Opd.code_lt b; omega)

theorem vorV3 (d : Opd) (a : Opd) (b : Opd) : Statement (.vorV3 d a b) := of_eq rfl (by decide) (by have h0 := Opd.code_lt d; have h1 := Opd.code_lt a; have h2 := Opd.code_lt b; omega)

theorem vxorV3 (d : Opd) (a : Opd) (b : Opd) : Statement (.vxorV3 d a b) := of_eq rfl (by decide) (by have h0 := Opd.code_lt d; have h1 := Opd.code_lt a; have h2 := Opd.code_lt b; omega)

theorem vshlV3 (d : Opd) (a : Opd) (b : Opd) : Statement (.vshlV3 d a b) := of_eq rfl (by decide) (by have h0 := Opd.code_lt d; have h1 := Opd.code_lt a; have h2 := Opd.code_lt b; omega)

theorem vshrV3 (d : Opd) (a : Opd) (b : Opd) : Statement (.vshrV3 d a b) := of_eq rfl (by decide) (by have h0 := Opd.code_lt d; have h1 := Opd.code_lt a; have h2 := Opd.code_lt b; omega)

theorem vsraV3 (d : Opd) (a : Opd) (b : Opd) : Statement (.vsraV3 d a b) := of_eq rfl (by decide) (by have h0 := Opd.code_lt d; have h1 := Opd.code_lt a; have h2 := Opd.code_lt b; omega)

theorem vmovV3 (d : Opd) (a : Opd) : Statement (.vmovV3 d a) := of_eq rfl (by decide) (by have h0 := Opd.code_lt d; have h1 := Opd.code_lt a; omega)

theorem vabsV3 (d : Opd) (a : Opd) : Statement (.vabsV3 d a) := of_eq rfl (by decide) (by have h0 := Opd.code_lt d; have h1 := Opd.code_lt a; omega)

theorem vnegV3 (d : Opd) (a : Opd) : Statement (.vnegV3 d a) := of_eq rfl (by decide) (by have h0 := Opd.code_lt d; have h1 := Opd.code_lt a; omega)

theorem vpopcV3 (d : Opd) (a : Opd) : Statement (.vpopcV3 d a) := of_eq rfl (by decide) (by have h0 := Opd.code_lt d; have h1 := Opd.code_lt a; omega)

theorem vdiv (d : Opd) (a : Opd) (b : Opd) : Statement (.vdiv d a b) := of_eq rfl (by decide) (by have h0 := Opd.code_lt d; have h1 := Opd.code_lt a; have h2 := Opd.code_lt b; omega)

theorem vsqrt (d : Opd) (a : Opd) : Statement (.vsqrt d a) := of_eq rfl (by decide) (by have h0 := Opd.code_lt d; have h1 := Opd.code_lt a; omega)

theorem vclz (d : Opd) (a : Opd) : Statement (.vclz d a) := of_eq rfl (by decide) (by have h0 := Opd.code_lt d; have h1 := Opd.code_lt a; omega)

theorem vnot (d : Opd) (a : Opd) : Statement (.vnot d a) := of_eq rfl (by decide) (by have h0 := Opd.code_lt d; have h1 := Opd.code_lt a; omega)

theorem vcvt (d : Opd) (a : Opd) (fmt : Fmt) (rz : Bool) (sat : Bool) : Statement (.vcvt d a fmt rz sat) := of_eq rfl (by decide) (by have h0 := Opd.code_lt d; have h1 := Opd.code_lt a; have h2 := Fmt.code_lt fmt; have h3 := bit_lt rz; have h4 := bit_lt sat; omega)

theorem vfmt (d : Opd) (a : BitVec 5) : Statement (.vfmt d a) := of_eq rfl (by decide) (by have h0 := Opd.code_lt d; have h1 := a.isLt; omega)

theorem vclr (d : Opd) : Statement (.vclr d) := of_eq rfl (by decide) (by have h0 := Opd.code_lt d; omega)

theorem vsel (d : Opd) (a : Opd) (b : Opd) : Statement (.vsel d a b) := of_eq rfl (by decide) (by have h0 := Opd.code_lt d; have h1 := Opd.code_lt a; have h2 := Opd.code_lt b; omega)

theorem vceq (k : BitVec 3) (a : Opd) (b : Opd) : Statement (.vceq k a b) := of_eq rfl (by decide) (by have h0 := k.isLt; have h1 := Opd.code_lt a; have h2 := Opd.code_lt b; omega)

theorem vcne (k : BitVec 3) (a : Opd) (b : Opd) : Statement (.vcne k a b) := of_eq rfl (by decide) (by have h0 := k.isLt; have h1 := Opd.code_lt a; have h2 := Opd.code_lt b; omega)

theorem vclt (k : BitVec 3) (a : Opd) (b : Opd) : Statement (.vclt k a b) := of_eq rfl (by decide) (by have h0 := k.isLt; have h1 := Opd.code_lt a; have h2 := Opd.code_lt b; omega)

theorem vcle (k : BitVec 3) (a : Opd) (b : Opd) : Statement (.vcle k a b) := of_eq rfl (by decide) (by have h0 := k.isLt; have h1 := Opd.code_lt a; have h2 := Opd.code_lt b; omega)

theorem vid (d : Opd) : Statement (.vid d) := of_eq rfl (by decide) (by have h0 := Opd.code_lt d; omega)

theorem vredsum (d : Opd) (a : Opd) : Statement (.vredsum d a) := of_eq rfl (by decide) (by have h0 := Opd.code_lt d; have h1 := Opd.code_lt a; omega)

theorem vredmin (d : Opd) (a : Opd) : Statement (.vredmin d a) := of_eq rfl (by decide) (by have h0 := Opd.code_lt d; have h1 := Opd.code_lt a; omega)

theorem vredmax (d : Opd) (a : Opd) : Statement (.vredmax d a) := of_eq rfl (by decide) (by have h0 := Opd.code_lt d; have h1 := Opd.code_lt a; omega)

theorem vredminx (d : Opd) (a : Opd) : Statement (.vredminx d a) := of_eq rfl (by decide) (by have h0 := Opd.code_lt d; have h1 := Opd.code_lt a; omega)

theorem vredand (d : Opd) (a : Opd) : Statement (.vredand d a) := of_eq rfl (by decide) (by have h0 := Opd.code_lt d; have h1 := Opd.code_lt a; omega)

theorem vredor (d : Opd) (a : Opd) : Statement (.vredor d a) := of_eq rfl (by decide) (by have h0 := Opd.code_lt d; have h1 := Opd.code_lt a; omega)

theorem vredxor (d : Opd) (a : Opd) : Statement (.vredxor d a) := of_eq rfl (by decide) (by have h0 := Opd.code_lt d; have h1 := Opd.code_lt a; omega)

theorem vslup (d : Opd) (a : Opd) (b : Opd) : Statement (.vslup d a b) := of_eq rfl (by decide) (by have h0 := Opd.code_lt d; have h1 := Opd.code_lt a; have h2 := Opd.code_lt b; omega)

theorem vsldn (d : Opd) (a : Opd) (b : Opd) : Statement (.vsldn d a b) := of_eq rfl (by decide) (by have h0 := Opd.code_lt d; have h1 := Opd.code_lt a; have h2 := Opd.code_lt b; omega)

theorem vperm (d : Opd) (a : Opd) (b : Opd) : Statement (.vperm d a b) := of_eq rfl (by decide) (by have h0 := Opd.code_lt d; have h1 := Opd.code_lt a; have h2 := Opd.code_lt b; omega)

theorem vpack (d : Opd) (a : Opd) (b : Opd) : Statement (.vpack d a b) := of_eq rfl (by decide) (by have h0 := Opd.code_lt d; have h1 := Opd.code_lt a; have h2 := Opd.code_lt b; omega)

theorem vunpk (d : Opd) (a : Opd) (p : BitVec 3) : Statement (.vunpk d a p) := of_eq rfl (by decide) (by have h0 := Opd.code_lt d; have h1 := Opd.code_lt a; have h2 := p.isLt; omega)

theorem vdot (d : Opd) (a : Opd) (b : Opd) : Statement (.vdot d a b) := of_eq rfl (by decide) (by have h0 := Opd.code_lt d; have h1 := Opd.code_lt a; have h2 := Opd.code_lt b; omega)

theorem vqnt (d : Opd) (a : Opd) (sc : BitVec 8) : Statement (.vqnt d a sc) := of_eq rfl (by decide) (by have h0 := Opd.code_lt d; have h1 := Opd.code_lt a; have h2 := sc.isLt; omega)

theorem vdq (d : Opd) (a : Opd) : Statement (.vdq d a) := of_eq rfl (by decide) (by have h0 := Opd.code_lt d; have h1 := Opd.code_lt a; omega)

theorem vaddSat (d : Opd) (a : Opd) (b : Opd) : Statement (.vaddSat d a b) := of_eq rfl (by decide) (by have h0 := Opd.code_lt d; have h1 := Opd.code_lt a; have h2 := Opd.code_lt b; omega)

theorem vsubSat (d : Opd) (a : Opd) (b : Opd) : Statement (.vsubSat d a b) := of_eq rfl (by decide) (by have h0 := Opd.code_lt d; have h1 := Opd.code_lt a; have h2 := Opd.code_lt b; omega)

theorem vmulSat (d : Opd) (a : Opd) (b : Opd) : Statement (.vmulSat d a b) := of_eq rfl (by decide) (by have h0 := Opd.code_lt d; have h1 := Opd.code_lt a; have h2 := Opd.code_lt b; omega)

theorem add (rd : BitVec 5) (rs1 : BitVec 5) (rs2 : BitVec 5) : Statement (.add rd rs1 rs2) := of_eq rfl (by decide) (by have h0 := rd.isLt; have h1 := rs1.isLt; have h2 := rs2.isLt; omega)

theorem sub (rd : BitVec 5) (rs1 : BitVec 5) (rs2 : BitVec 5) : Statement (.sub rd rs1 rs2) := of_eq rfl (by decide) (by have h0 := rd.isLt; have h1 := rs1.isLt; have h2 := rs2.isLt; omega)

theorem mul (rd : BitVec 5) (rs1 : BitVec 5) (rs2 : BitVec 5) : Statement (.mul rd rs1 rs2) := of_eq rfl (by decide) (by have h0 := rd.isLt; have h1 := rs1.isLt; have h2 := rs2.isLt; omega)

theorem mulh (rd : BitVec 5) (rs1 : BitVec 5) (rs2 : BitVec 5) : Statement (.mulh rd rs1 rs2) := of_eq rfl (by decide) (by have h0 := rd.isLt; have h1 := rs1.isLt; have h2 := rs2.isLt; omega)

theorem mulhu (rd : BitVec 5) (rs1 : BitVec 5) (rs2 : BitVec 5) : Statement (.mulhu rd rs1 rs2) := of_eq rfl (by decide) (by have h0 := rd.isLt; have h1 := rs1.isLt; have h2 := rs2.isLt; omega)

theorem div (rd : BitVec 5) (rs1 : BitVec 5) (rs2 : BitVec 5) : Statement (.div rd rs1 rs2) := of_eq rfl (by decide) (by have h0 := rd.isLt; have h1 := rs1.isLt; have h2 := rs2.isLt; omega)

theorem divu (rd : BitVec 5) (rs1 : BitVec 5) (rs2 : BitVec 5) : Statement (.divu rd rs1 rs2) := of_eq rfl (by decide) (by have h0 := rd.isLt; have h1 := rs1.isLt; have h2 := rs2.isLt; omega)

theorem rem (rd : BitVec 5) (rs1 : BitVec 5) (rs2 : BitVec 5) : Statement (.rem rd rs1 rs2) := of_eq rfl (by decide) (by have h0 := rd.isLt; have h1 := rs1.isLt; have h2 := rs2.isLt; omega)

theorem remu (rd : BitVec 5) (rs1 : BitVec 5) (rs2 : BitVec 5) : Statement (.remu rd rs1 rs2) := of_eq rfl (by decide) (by have h0 := rd.isLt; have h1 := rs1.isLt; have h2 := rs2.isLt; omega)

theorem and (rd : BitVec 5) (rs1 : BitVec 5) (rs2 : BitVec 5) : Statement (.and rd rs1 rs2) := of_eq rfl (by decide) (by have h0 := rd.isLt; have h1 := rs1.isLt; have h2 := rs2.isLt; omega)

theorem or (rd : BitVec 5) (rs1 : BitVec 5) (rs2 : BitVec 5) : Statement (.or rd rs1 rs2) := of_eq rfl (by decide) (by have h0 := rd.isLt; have h1 := rs1.isLt; have h2 := rs2.isLt; omega)

theorem xor (rd : BitVec 5) (rs1 : BitVec 5) (rs2 : BitVec 5) : Statement (.xor rd rs1 rs2) := of_eq rfl (by decide) (by have h0 := rd.isLt; have h1 := rs1.isLt; have h2 := rs2.isLt; omega)

theorem andn (rd : BitVec 5) (rs1 : BitVec 5) (rs2 : BitVec 5) : Statement (.andn rd rs1 rs2) := of_eq rfl (by decide) (by have h0 := rd.isLt; have h1 := rs1.isLt; have h2 := rs2.isLt; omega)

theorem shl (rd : BitVec 5) (rs1 : BitVec 5) (rs2 : BitVec 5) : Statement (.shl rd rs1 rs2) := of_eq rfl (by decide) (by have h0 := rd.isLt; have h1 := rs1.isLt; have h2 := rs2.isLt; omega)

theorem shr (rd : BitVec 5) (rs1 : BitVec 5) (rs2 : BitVec 5) : Statement (.shr rd rs1 rs2) := of_eq rfl (by decide) (by have h0 := rd.isLt; have h1 := rs1.isLt; have h2 := rs2.isLt; omega)

theorem sra (rd : BitVec 5) (rs1 : BitVec 5) (rs2 : BitVec 5) : Statement (.sra rd rs1 rs2) := of_eq rfl (by decide) (by have h0 := rd.isLt; have h1 := rs1.isLt; have h2 := rs2.isLt; omega)

theorem min (rd : BitVec 5) (rs1 : BitVec 5) (rs2 : BitVec 5) : Statement (.min rd rs1 rs2) := of_eq rfl (by decide) (by have h0 := rd.isLt; have h1 := rs1.isLt; have h2 := rs2.isLt; omega)

theorem max (rd : BitVec 5) (rs1 : BitVec 5) (rs2 : BitVec 5) : Statement (.max rd rs1 rs2) := of_eq rfl (by decide) (by have h0 := rd.isLt; have h1 := rs1.isLt; have h2 := rs2.isLt; omega)

theorem minu (rd : BitVec 5) (rs1 : BitVec 5) (rs2 : BitVec 5) : Statement (.minu rd rs1 rs2) := of_eq rfl (by decide) (by have h0 := rd.isLt; have h1 := rs1.isLt; have h2 := rs2.isLt; omega)

theorem maxu (rd : BitVec 5) (rs1 : BitVec 5) (rs2 : BitVec 5) : Statement (.maxu rd rs1 rs2) := of_eq rfl (by decide) (by have h0 := rd.isLt; have h1 := rs1.isLt; have h2 := rs2.isLt; omega)

theorem slt (rd : BitVec 5) (rs1 : BitVec 5) (rs2 : BitVec 5) : Statement (.slt rd rs1 rs2) := of_eq rfl (by decide) (by have h0 := rd.isLt; have h1 := rs1.isLt; have h2 := rs2.isLt; omega)

theorem sltu (rd : BitVec 5) (rs1 : BitVec 5) (rs2 : BitVec 5) : Statement (.sltu rd rs1 rs2) := of_eq rfl (by decide) (by have h0 := rd.isLt; have h1 := rs1.isLt; have h2 := rs2.isLt; omega)

theorem clz (rd : BitVec 5) (rs1 : BitVec 5) : Statement (.clz rd rs1) := of_eq rfl (by decide) (by have h0 := rd.isLt; have h1 := rs1.isLt; omega)

theorem ctz (rd : BitVec 5) (rs1 : BitVec 5) : Statement (.ctz rd rs1) := of_eq rfl (by decide) (by have h0 := rd.isLt; have h1 := rs1.isLt; omega)

theorem popc (rd : BitVec 5) (rs1 : BitVec 5) : Statement (.popc rd rs1) := of_eq rfl (by decide) (by have h0 := rd.isLt; have h1 := rs1.isLt; omega)

theorem csel (rd : BitVec 5) (rs1 : BitVec 5) (rs2 : BitVec 5) (rs3 : BitVec 5) : Statement (.csel rd rs1 rs2 rs3) := of_eq rfl (by decide) (by have h0 := rd.isLt; have h1 := rs1.isLt; have h2 := rs2.isLt; have h3 := rs3.isLt; omega)

theorem addi (rd : BitVec 5) (rs1 : BitVec 5) (imm : BitVec 12) : Statement (.addi rd rs1 imm) := of_eq rfl (by decide) (by have h0 := rd.isLt; have h1 := rs1.isLt; have h2 := imm.isLt; omega)

theorem andi (rd : BitVec 5) (rs1 : BitVec 5) (imm : BitVec 12) : Statement (.andi rd rs1 imm) := of_eq rfl (by decide) (by have h0 := rd.isLt; have h1 := rs1.isLt; have h2 := imm.isLt; omega)

theorem ori (rd : BitVec 5) (rs1 : BitVec 5) (imm : BitVec 12) : Statement (.ori rd rs1 imm) := of_eq rfl (by decide) (by have h0 := rd.isLt; have h1 := rs1.isLt; have h2 := imm.isLt; omega)

theorem xori (rd : BitVec 5) (rs1 : BitVec 5) (imm : BitVec 12) : Statement (.xori rd rs1 imm) := of_eq rfl (by decide) (by have h0 := rd.isLt; have h1 := rs1.isLt; have h2 := imm.isLt; omega)

theorem shli (rd : BitVec 5) (rs1 : BitVec 5) (cnt : BitVec 6) : Statement (.shli rd rs1 cnt) := of_eq rfl (by decide) (by have h0 := rd.isLt; have h1 := rs1.isLt; have h2 := cnt.isLt; omega)

theorem shri (rd : BitVec 5) (rs1 : BitVec 5) (cnt : BitVec 6) : Statement (.shri rd rs1 cnt) := of_eq rfl (by decide) (by have h0 := rd.isLt; have h1 := rs1.isLt; have h2 := cnt.isLt; omega)

theorem srai (rd : BitVec 5) (rs1 : BitVec 5) (cnt : BitVec 6) : Statement (.srai rd rs1 cnt) := of_eq rfl (by decide) (by have h0 := rd.isLt; have h1 := rs1.isLt; have h2 := cnt.isLt; omega)

theorem slti (rd : BitVec 5) (rs1 : BitVec 5) (imm : BitVec 12) : Statement (.slti rd rs1 imm) := of_eq rfl (by decide) (by have h0 := rd.isLt; have h1 := rs1.isLt; have h2 := imm.isLt; omega)

theorem lim (rd : BitVec 5) (imm : BitVec 19) : Statement (.lim rd imm) := of_eq rfl (by decide) (by have h0 := rd.isLt; have h1 := imm.isLt; omega)

theorem apc (rd : BitVec 5) (imm : BitVec 19) : Statement (.apc rd imm) := of_eq rfl (by decide) (by have h0 := rd.isLt; have h1 := imm.isLt; omega)

theorem beq (rs1 : BitVec 5) (rs2 : BitVec 5) (off : BitVec 12) : Statement (.beq rs1 rs2 off) := of_eq rfl (by decide) (by have h0 := rs1.isLt; have h1 := rs2.isLt; have h2 := off.isLt; omega)

theorem bne (rs1 : BitVec 5) (rs2 : BitVec 5) (off : BitVec 12) : Statement (.bne rs1 rs2 off) := of_eq rfl (by decide) (by have h0 := rs1.isLt; have h1 := rs2.isLt; have h2 := off.isLt; omega)

theorem blt (rs1 : BitVec 5) (rs2 : BitVec 5) (off : BitVec 12) : Statement (.blt rs1 rs2 off) := of_eq rfl (by decide) (by have h0 := rs1.isLt; have h1 := rs2.isLt; have h2 := off.isLt; omega)

theorem bge (rs1 : BitVec 5) (rs2 : BitVec 5) (off : BitVec 12) : Statement (.bge rs1 rs2 off) := of_eq rfl (by decide) (by have h0 := rs1.isLt; have h1 := rs2.isLt; have h2 := off.isLt; omega)

theorem bltu (rs1 : BitVec 5) (rs2 : BitVec 5) (off : BitVec 12) : Statement (.bltu rs1 rs2 off) := of_eq rfl (by decide) (by have h0 := rs1.isLt; have h1 := rs2.isLt; have h2 := off.isLt; omega)

theorem bgeu (rs1 : BitVec 5) (rs2 : BitVec 5) (off : BitVec 12) : Statement (.bgeu rs1 rs2 off) := of_eq rfl (by decide) (by have h0 := rs1.isLt; have h1 := rs2.isLt; have h2 := off.isLt; omega)

theorem jmp (rd : BitVec 5) (off : BitVec 20) : Statement (.jmp rd off) := of_eq rfl (by decide) (by have h0 := rd.isLt; have h1 := off.isLt; omega)

theorem jind (rd : BitVec 5) (rs1 : BitVec 5) (imm : BitVec 12) : Statement (.jind rd rs1 imm) := of_eq rfl (by decide) (by have h0 := rd.isLt; have h1 := rs1.isLt; have h2 := imm.isLt; omega)

theorem fadd (f : FpFmt) (rd : BitVec 5) (rs1 : BitVec 5) (rs2 : BitVec 5) : Statement (.fadd f rd rs1 rs2) := of_eq rfl (by decide) (by have h0 := FpFmt.code_lt f; have h1 := rd.isLt; have h2 := rs1.isLt; have h3 := rs2.isLt; omega)

theorem fsub (f : FpFmt) (rd : BitVec 5) (rs1 : BitVec 5) (rs2 : BitVec 5) : Statement (.fsub f rd rs1 rs2) := of_eq rfl (by decide) (by have h0 := FpFmt.code_lt f; have h1 := rd.isLt; have h2 := rs1.isLt; have h3 := rs2.isLt; omega)

theorem fmul (f : FpFmt) (rd : BitVec 5) (rs1 : BitVec 5) (rs2 : BitVec 5) : Statement (.fmul f rd rs1 rs2) := of_eq rfl (by decide) (by have h0 := FpFmt.code_lt f; have h1 := rd.isLt; have h2 := rs1.isLt; have h3 := rs2.isLt; omega)

theorem fdiv (f : FpFmt) (rd : BitVec 5) (rs1 : BitVec 5) (rs2 : BitVec 5) : Statement (.fdiv f rd rs1 rs2) := of_eq rfl (by decide) (by have h0 := FpFmt.code_lt f; have h1 := rd.isLt; have h2 := rs1.isLt; have h3 := rs2.isLt; omega)

theorem fsqrt (f : FpFmt) (rd : BitVec 5) (rs1 : BitVec 5) : Statement (.fsqrt f rd rs1) := of_eq rfl (by decide) (by have h0 := FpFmt.code_lt f; have h1 := rd.isLt; have h2 := rs1.isLt; omega)

theorem fma (f : FpFmt) (rd : BitVec 5) (rs1 : BitVec 5) (rs2 : BitVec 5) (rs3 : BitVec 5) : Statement (.fma f rd rs1 rs2 rs3) := of_eq rfl (by decide) (by have h0 := FpFmt.code_lt f; have h1 := rd.isLt; have h2 := rs1.isLt; have h3 := rs2.isLt; have h4 := rs3.isLt; omega)

theorem fmin (f : FpFmt) (rd : BitVec 5) (rs1 : BitVec 5) (rs2 : BitVec 5) : Statement (.fmin f rd rs1 rs2) := of_eq rfl (by decide) (by have h0 := FpFmt.code_lt f; have h1 := rd.isLt; have h2 := rs1.isLt; have h3 := rs2.isLt; omega)

theorem fmax (f : FpFmt) (rd : BitVec 5) (rs1 : BitVec 5) (rs2 : BitVec 5) : Statement (.fmax f rd rs1 rs2) := of_eq rfl (by decide) (by have h0 := FpFmt.code_lt f; have h1 := rd.isLt; have h2 := rs1.isLt; have h3 := rs2.isLt; omega)

theorem fcvt (f : FpFmt) (kind : FcvtKind) (rd : BitVec 5) (rs1 : BitVec 5) : Statement (.fcvt f kind rd rs1) := of_eq rfl (by decide) (by have h0 := FpFmt.code_lt f; have h1 := FcvtKind.code_lt kind; have h2 := rd.isLt; have h3 := rs1.isLt; omega)

theorem fcmp (f : FpFmt) (cond : FcmpCond) (rd : BitVec 5) (rs1 : BitVec 5) (rs2 : BitVec 5) : Statement (.fcmp f cond rd rs1 rs2) := of_eq rfl (by decide) (by have h0 := FpFmt.code_lt f; have h1 := FcmpCond.code_lt cond; have h2 := rd.isLt; have h3 := rs1.isLt; have h4 := rs2.isLt; omega)

theorem sget (rd : BitVec 5) (sel : Spr) : Statement (.sget rd sel) := of_eq rfl (by decide) (by have h0 := rd.isLt; have h1 := Spr.code_lt sel; omega)

theorem sset (sel : Spr) (rs1 : BitVec 5) : Statement (.sset sel rs1) := of_eq rfl (by decide) (by have h0 := Spr.code_lt sel; have h1 := rs1.isLt; omega)

theorem trap (code : BitVec 10) : Statement (.trap code) := of_eq rfl (by decide) (by have h0 := code.isLt; omega)

theorem sysc (code : BitVec 10) : Statement (.sysc code) := of_eq rfl (by decide) (by have h0 := code.isLt; omega)

theorem eret : Statement (.eret) := of_eq rfl (by decide) (by omega)

theorem isync : Statement (.isync) := of_eq rfl (by decide) (by omega)

theorem tdone : Statement (.tdone) := of_eq rfl (by decide) (by omega)

theorem nop : Statement (.nop) := of_eq rfl (by decide) (by omega)

theorem ldb (rt : BitVec 5) (rs1 : BitVec 5) (imm : BitVec 12) : Statement (.ldb rt rs1 imm) := of_eq rfl (by decide) (by have h0 := rt.isLt; have h1 := rs1.isLt; have h2 := imm.isLt; omega)

theorem ldbu (rt : BitVec 5) (rs1 : BitVec 5) (imm : BitVec 12) : Statement (.ldbu rt rs1 imm) := of_eq rfl (by decide) (by have h0 := rt.isLt; have h1 := rs1.isLt; have h2 := imm.isLt; omega)

theorem ldh (rt : BitVec 5) (rs1 : BitVec 5) (imm : BitVec 12) : Statement (.ldh rt rs1 imm) := of_eq rfl (by decide) (by have h0 := rt.isLt; have h1 := rs1.isLt; have h2 := imm.isLt; omega)

theorem ldhu (rt : BitVec 5) (rs1 : BitVec 5) (imm : BitVec 12) : Statement (.ldhu rt rs1 imm) := of_eq rfl (by decide) (by have h0 := rt.isLt; have h1 := rs1.isLt; have h2 := imm.isLt; omega)

theorem ldw (rt : BitVec 5) (rs1 : BitVec 5) (imm : BitVec 12) : Statement (.ldw rt rs1 imm) := of_eq rfl (by decide) (by have h0 := rt.isLt; have h1 := rs1.isLt; have h2 := imm.isLt; omega)

theorem ldwu (rt : BitVec 5) (rs1 : BitVec 5) (imm : BitVec 12) : Statement (.ldwu rt rs1 imm) := of_eq rfl (by decide) (by have h0 := rt.isLt; have h1 := rs1.isLt; have h2 := imm.isLt; omega)

theorem ldd (rt : BitVec 5) (rs1 : BitVec 5) (imm : BitVec 12) : Statement (.ldd rt rs1 imm) := of_eq rfl (by decide) (by have h0 := rt.isLt; have h1 := rs1.isLt; have h2 := imm.isLt; omega)

theorem stb (rt : BitVec 5) (rs1 : BitVec 5) (imm : BitVec 12) : Statement (.stb rt rs1 imm) := of_eq rfl (by decide) (by have h0 := rt.isLt; have h1 := rs1.isLt; have h2 := imm.isLt; omega)

theorem sth (rt : BitVec 5) (rs1 : BitVec 5) (imm : BitVec 12) : Statement (.sth rt rs1 imm) := of_eq rfl (by decide) (by have h0 := rt.isLt; have h1 := rs1.isLt; have h2 := imm.isLt; omega)

theorem stw (rt : BitVec 5) (rs1 : BitVec 5) (imm : BitVec 12) : Statement (.stw rt rs1 imm) := of_eq rfl (by decide) (by have h0 := rt.isLt; have h1 := rs1.isLt; have h2 := imm.isLt; omega)

theorem std (rt : BitVec 5) (rs1 : BitVec 5) (imm : BitVec 12) : Statement (.std rt rs1 imm) := of_eq rfl (by decide) (by have h0 := rt.isLt; have h1 := rs1.isLt; have h2 := imm.isLt; omega)

theorem vld (fmt : Fmt) (v : Place) (rs1 : BitVec 5) (off : BitVec 7) : Statement (.vld fmt v rs1 off) := of_eq rfl (by decide) (by have h0 := Fmt.code_lt fmt; have h1 := Place.code_lt v; have h2 := rs1.isLt; have h3 := off.isLt; omega)

theorem vldInt6 (v : Place) (rs1 : BitVec 5) (off : BitVec 4) (bit : BitVec 3) : Statement (.vldInt6 v rs1 off bit) := of_eq rfl (by decide) (by have h0 := Place.code_lt v; have h1 := rs1.isLt; have h2 := off.isLt; have h3 := bit.isLt; omega)

theorem vlds (fmt : Fmt) (v : Place) (rs1 : BitVec 5) (rs2 : BitVec 5) : Statement (.vlds fmt v rs1 rs2) := of_eq rfl (by decide) (by have h0 := Fmt.code_lt fmt; have h1 := Place.code_lt v; have h2 := rs1.isLt; have h3 := rs2.isLt; omega)

theorem vst (fmt : Fmt) (v : Place) (rs1 : BitVec 5) (off : BitVec 7) : Statement (.vst fmt v rs1 off) := of_eq rfl (by decide) (by have h0 := Fmt.code_lt fmt; have h1 := Place.code_lt v; have h2 := rs1.isLt; have h3 := off.isLt; omega)

theorem vstInt6 (v : Place) (rs1 : BitVec 5) (off : BitVec 4) (bit : BitVec 3) : Statement (.vstInt6 v rs1 off bit) := of_eq rfl (by decide) (by have h0 := Place.code_lt v; have h1 := rs1.isLt; have h2 := off.isLt; have h3 := bit.isLt; omega)

theorem vsts (fmt : Fmt) (v : Place) (rs1 : BitVec 5) (rs2 : BitVec 5) : Statement (.vsts fmt v rs1 rs2) := of_eq rfl (by decide) (by have h0 := Fmt.code_lt fmt; have h1 := Place.code_lt v; have h2 := rs1.isLt; have h3 := rs2.isLt; omega)

theorem vldx (fmt : Fmt) (v : Place) (rs1 : BitVec 5) (ix : BitVec 6) : Statement (.vldx fmt v rs1 ix) := of_eq rfl (by decide) (by have h0 := Fmt.code_lt fmt; have h1 := Place.code_lt v; have h2 := rs1.isLt; have h3 := ix.isLt; omega)

theorem vstx (fmt : Fmt) (v : Place) (rs1 : BitVec 5) (ix : BitVec 6) : Statement (.vstx fmt v rs1 ix) := of_eq rfl (by decide) (by have h0 := Fmt.code_lt fmt; have h1 := Place.code_lt v; have h2 := rs1.isLt; have h3 := ix.isLt; omega)

theorem vaadd (sc : Scope) (v : Place) (rs1 : BitVec 5) (ix : BitVec 6) : Statement (.vaadd sc v rs1 ix) := of_eq rfl (by decide) (by have h0 := Scope.code_lt sc; have h1 := Place.code_lt v; have h2 := rs1.isLt; have h3 := ix.isLt; omega)

theorem aadd (so : ScopeOrder) (rd : BitVec 5) (rs1 : BitVec 3) (off : BitVec 3) (rs2 : BitVec 5) : Statement (.aadd so rd rs1 off rs2) := of_eq rfl (by decide) (by have h0 := ScopeOrder.code_lt so; have h1 := rd.isLt; have h2 := rs1.isLt; have h3 := off.isLt; have h4 := rs2.isLt; omega)

theorem amin (so : ScopeOrder) (rd : BitVec 5) (rs1 : BitVec 3) (off : BitVec 3) (rs2 : BitVec 5) : Statement (.amin so rd rs1 off rs2) := of_eq rfl (by decide) (by have h0 := ScopeOrder.code_lt so; have h1 := rd.isLt; have h2 := rs1.isLt; have h3 := off.isLt; have h4 := rs2.isLt; omega)

theorem amax (so : ScopeOrder) (rd : BitVec 5) (rs1 : BitVec 3) (off : BitVec 3) (rs2 : BitVec 5) : Statement (.amax so rd rs1 off rs2) := of_eq rfl (by decide) (by have h0 := ScopeOrder.code_lt so; have h1 := rd.isLt; have h2 := rs1.isLt; have h3 := off.isLt; have h4 := rs2.isLt; omega)

theorem aminu (so : ScopeOrder) (rd : BitVec 5) (rs1 : BitVec 3) (off : BitVec 3) (rs2 : BitVec 5) : Statement (.aminu so rd rs1 off rs2) := of_eq rfl (by decide) (by have h0 := ScopeOrder.code_lt so; have h1 := rd.isLt; have h2 := rs1.isLt; have h3 := off.isLt; have h4 := rs2.isLt; omega)

theorem amaxu (so : ScopeOrder) (rd : BitVec 5) (rs1 : BitVec 3) (off : BitVec 3) (rs2 : BitVec 5) : Statement (.amaxu so rd rs1 off rs2) := of_eq rfl (by decide) (by have h0 := ScopeOrder.code_lt so; have h1 := rd.isLt; have h2 := rs1.isLt; have h3 := off.isLt; have h4 := rs2.isLt; omega)

theorem aand (so : ScopeOrder) (rd : BitVec 5) (rs1 : BitVec 3) (off : BitVec 3) (rs2 : BitVec 5) : Statement (.aand so rd rs1 off rs2) := of_eq rfl (by decide) (by have h0 := ScopeOrder.code_lt so; have h1 := rd.isLt; have h2 := rs1.isLt; have h3 := off.isLt; have h4 := rs2.isLt; omega)

theorem aor (so : ScopeOrder) (rd : BitVec 5) (rs1 : BitVec 3) (off : BitVec 3) (rs2 : BitVec 5) : Statement (.aor so rd rs1 off rs2) := of_eq rfl (by decide) (by have h0 := ScopeOrder.code_lt so; have h1 := rd.isLt; have h2 := rs1.isLt; have h3 := off.isLt; have h4 := rs2.isLt; omega)

theorem axor (so : ScopeOrder) (rd : BitVec 5) (rs1 : BitVec 3) (off : BitVec 3) (rs2 : BitVec 5) : Statement (.axor so rd rs1 off rs2) := of_eq rfl (by decide) (by have h0 := ScopeOrder.code_lt so; have h1 := rd.isLt; have h2 := rs1.isLt; have h3 := off.isLt; have h4 := rs2.isLt; omega)

theorem aswp (so : ScopeOrder) (rd : BitVec 5) (rs1 : BitVec 3) (off : BitVec 3) (rs2 : BitVec 5) : Statement (.aswp so rd rs1 off rs2) := of_eq rfl (by decide) (by have h0 := ScopeOrder.code_lt so; have h1 := rd.isLt; have h2 := rs1.isLt; have h3 := off.isLt; have h4 := rs2.isLt; omega)

theorem acas (so : ScopeOrder) (rd : BitVec 5) (rs1 : BitVec 3) (off : BitVec 3) (rs2 : BitVec 5) : Statement (.acas so rd rs1 off rs2) := of_eq rfl (by decide) (by have h0 := ScopeOrder.code_lt so; have h1 := rd.isLt; have h2 := rs1.isLt; have h3 := off.isLt; have h4 := rs2.isLt; omega)

theorem aswpDw (so : ScopeOrder) (rd : BitVec 5) (rs1 : BitVec 3) (off : BitVec 3) (rs2 : BitVec 5) : Statement (.aswpDw so rd rs1 off rs2) := of_eq rfl (by decide) (by have h0 := ScopeOrder.code_lt so; have h1 := rd.isLt; have h2 := rs1.isLt; have h3 := off.isLt; have h4 := rs2.isLt; omega)

theorem acasDw (so : ScopeOrder) (rd : BitVec 5) (rs1 : BitVec 3) (off : BitVec 3) (rs2 : BitVec 5) : Statement (.acasDw so rd rs1 off rs2) := of_eq rfl (by decide) (by have h0 := ScopeOrder.code_lt so; have h1 := rd.isLt; have h2 := rs1.isLt; have h3 := off.isLt; have h4 := rs2.isLt; omega)

theorem aaddDw (so : ScopeOrder) (rd : BitVec 5) (rs1 : BitVec 3) (off : BitVec 3) (rs2 : BitVec 5) : Statement (.aaddDw so rd rs1 off rs2) := of_eq rfl (by decide) (by have h0 := ScopeOrder.code_lt so; have h1 := rd.isLt; have h2 := rs1.isLt; have h3 := off.isLt; have h4 := rs2.isLt; omega)

theorem acq (sc : Scope) (all : Bool) (g : BitVec 8) : Statement (.acq sc all g) := of_eq rfl (by decide) (by have h0 := Scope.code_lt sc; have h1 := bit_lt all; have h2 := g.isLt; omega)

theorem rel (sc : Scope) (all : Bool) (g : BitVec 8) : Statement (.rel sc all g) := of_eq rfl (by decide) (by have h0 := Scope.code_lt sc; have h1 := bit_lt all; have h2 := g.isLt; omega)

theorem fence (sc : Scope) (ord : Order) : Statement (.fence sc ord) := of_eq rfl (by decide) (by have h0 := Scope.code_lt sc; have h1 := Order.code_lt ord; omega)

theorem own (sc : Scope) (rs1 : BitVec 5) (rs2 : BitVec 5) : Statement (.own sc rs1 rs2) := of_eq rfl (by decide) (by have h0 := Scope.code_lt sc; have h1 := rs1.isLt; have h2 := rs2.isLt; omega)

theorem disown (sc : Scope) (rs1 : BitVec 5) (rs2 : BitVec 5) : Statement (.disown sc rs1 rs2) := of_eq rfl (by decide) (by have h0 := Scope.code_lt sc; have h1 := rs1.isLt; have h2 := rs2.isLt; omega)

theorem drain (kind : DrainKind) : Statement (.drain kind) := of_eq rfl (by decide) (by have h0 := DrainKind.code_lt kind; omega)

theorem pref (l2 : Bool) (rs1 : BitVec 5) : Statement (.pref l2 rs1) := of_eq rfl (by decide) (by have h0 := bit_lt l2; have h1 := rs1.isLt; omega)

theorem qlock (sc : Scope) (rs1 : BitVec 5) : Statement (.qlock sc rs1) := of_eq rfl (by decide) (by have h0 := Scope.code_lt sc; have h1 := rs1.isLt; omega)

theorem qunlock (sc : Scope) (rs1 : BitVec 5) : Statement (.qunlock sc rs1) := of_eq rfl (by decide) (by have h0 := Scope.code_lt sc; have h1 := rs1.isLt; omega)

theorem xbeg (rs1 : BitVec 5) : Statement (.xbeg rs1) := of_eq rfl (by decide) (by have h0 := rs1.isLt; omega)

theorem xcmp (rs1 : BitVec 5) (rs2 : BitVec 5) : Statement (.xcmp rs1 rs2) := of_eq rfl (by decide) (by have h0 := rs1.isLt; have h1 := rs2.isLt; omega)

theorem xend (rd : BitVec 5) : Statement (.xend rd) := of_eq rfl (by decide) (by have h0 := rd.isLt; omega)

theorem mmaOvw (h : BitVec 2) (rs1 : BitVec 5) (l : BitVec 1) (rs2 : BitVec 5) : Statement (.mmaOvw h rs1 l rs2) := of_eq rfl (by decide) (by have h0 := h.isLt; have h1 := rs1.isLt; have h2 := l.isLt; have h3 := rs2.isLt; omega)

theorem mmaAcc (h : BitVec 2) (rs1 : BitVec 5) (l : BitVec 1) (rs2 : BitVec 5) : Statement (.mmaAcc h rs1 l rs2) := of_eq rfl (by decide) (by have h0 := h.isLt; have h1 := rs1.isLt; have h2 := l.isLt; have h3 := rs2.isLt; omega)

theorem mmaRing (h : BitVec 2) (rs1 : BitVec 5) (l : BitVec 1) (rs2 : BitVec 5) : Statement (.mmaRing h rs1 l rs2) := of_eq rfl (by decide) (by have h0 := h.isLt; have h1 := rs1.isLt; have h2 := l.isLt; have h3 := rs2.isLt; omega)

theorem mmaArr (h : BitVec 2) (rs1 : BitVec 5) (l : BitVec 1) (rs2 : BitVec 5) : Statement (.mmaArr h rs1 l rs2) := of_eq rfl (by decide) (by have h0 := h.isLt; have h1 := rs1.isLt; have h2 := l.isLt; have h3 := rs2.isLt; omega)

theorem mdarn (h : BitVec 2) (rs1 : BitVec 5) (l : BitVec 1) (d : BitVec 4) : Statement (.mdarn h rs1 l d) := of_eq rfl (by decide) (by have h0 := h.isLt; have h1 := rs1.isLt; have h2 := l.isLt; have h3 := d.isLt; omega)

theorem hmov (v : Place) (h : BitVec 2) (dir : HDir) (i : BitVec 7) : Statement (.hmov v h dir i) := of_eq rfl (by decide) (by have h0 := Place.code_lt v; have h1 := h.isLt; have h2 := HDir.code_lt dir; have h3 := i.isLt; omega)

theorem hmovPeek (v : Place) (h : BitVec 2) (dir : HDir) (i : BitVec 7) : Statement (.hmovPeek v h dir i) := of_eq rfl (by decide) (by have h0 := Place.code_lt v; have h1 := h.isLt; have h2 := HDir.code_lt dir; have h3 := i.isLt; omega)

theorem hclr (h : BitVec 2) : Statement (.hclr h) := of_eq rfl (by decide) (by have h0 := h.isLt; omega)

theorem hld (h : BitVec 2) (rs1 : BitVec 5) : Statement (.hld h rs1) := of_eq rfl (by decide) (by have h0 := h.isLt; have h1 := rs1.isLt; omega)

theorem hst (h : BitVec 2) (rs1 : BitVec 5) : Statement (.hst h rs1) := of_eq rfl (by decide) (by have h0 := h.isLt; have h1 := rs1.isLt; omega)

theorem hdrain (h : BitVec 2) (rs1 : BitVec 5) (rs2 : BitVec 5) : Statement (.hdrain h rs1 rs2) := of_eq rfl (by decide) (by have h0 := h.isLt; have h1 := rs1.isLt; have h2 := rs2.isLt; omega)

theorem mqpop (h : BitVec 2) (i : BitVec 7) (q : BitVec 4) : Statement (.mqpop h i q) := of_eq rfl (by decide) (by have h0 := h.isLt; have h1 := i.isLt; have h2 := q.isLt; omega)

theorem mqpopAcc (h : BitVec 2) (i : BitVec 7) (q : BitVec 4) : Statement (.mqpopAcc h i q) := of_eq rfl (by decide) (by have h0 := h.isLt; have h1 := i.isLt; have h2 := q.isLt; omega)

theorem mqpush (h : BitVec 2) (i : BitVec 7) (q : BitVec 4) : Statement (.mqpush h i q) := of_eq rfl (by decide) (by have h0 := h.isLt; have h1 := i.isLt; have h2 := q.isLt; omega)

theorem mld (l : BitVec 1) (rs1 : BitVec 5) : Statement (.mld l rs1) := of_eq rfl (by decide) (by have h0 := l.isLt; have h1 := rs1.isLt; omega)

theorem mpass (l : BitVec 1) : Statement (.mpass l) := of_eq rfl (by decide) (by have h0 := l.isLt; omega)

theorem mwait (l : BitVec 1) : Statement (.mwait l) := of_eq rfl (by decide) (by have h0 := l.isLt; omega)

theorem qpeek (rd : BitVec 5) (q : BitVec 4) : Statement (.qpeek rd q) := of_eq rfl (by decide) (by have h0 := rd.isLt; have h1 := q.isLt; omega)

theorem qpeekPop (rd : BitVec 5) (q : BitVec 4) : Statement (.qpeekPop rd q) := of_eq rfl (by decide) (by have h0 := rd.isLt; have h1 := q.isLt; omega)

theorem qcount (rd : BitVec 5) (q : BitVec 4) : Statement (.qcount rd q) := of_eq rfl (by decide) (by have h0 := rd.isLt; have h1 := q.isLt; omega)

theorem send (rs1 : BitVec 5) (rs2 : BitVec 5) : Statement (.send rs1 rs2) := of_eq rfl (by decide) (by have h0 := rs1.isLt; have h1 := rs2.isLt; omega)

theorem sendv (rs1 : BitVec 5) (v : Place) : Statement (.sendv rs1 v) := of_eq rfl (by decide) (by have h0 := rs1.isLt; have h1 := Place.code_lt v; omega)

theorem spush (c : BitVec 2) (v : Place) : Statement (.spush c v) := of_eq rfl (by decide) (by have h0 := c.isLt; have h1 := Place.code_lt v; omega)

theorem spop (c : BitVec 2) (v : Place) : Statement (.spop c v) := of_eq rfl (by decide) (by have h0 := c.isLt; have h1 := Place.code_lt v; omega)

theorem sflush (c : BitVec 2) : Statement (.sflush c) := of_eq rfl (by decide) (by have h0 := c.isLt; omega)

theorem lbuf (rs1 : BitVec 5) (rs2 : BitVec 5) : Statement (.lbuf rs1 rs2) := of_eq rfl (by decide) (by have h0 := rs1.isLt; have h1 := rs2.isLt; omega)

theorem lcfg (lv : BitVec 3) (rs1 : BitVec 5) (rs2 : BitVec 5) : Statement (.lcfg lv rs1 rs2) := of_eq rfl (by decide) (by have h0 := lv.isLt; have h1 := rs1.isLt; have h2 := rs2.isLt; omega)

theorem lrun : Statement (.lrun) := of_eq rfl (by decide) (by omega)

theorem lstop : Statement (.lstop) := of_eq rfl (by decide) (by omega)

theorem cpost (sc : Scope) (rd : BitVec 5) (rs1 : BitVec 5) : Statement (.cpost sc rd rs1) := of_eq rfl (by decide) (by have h0 := Scope.code_lt sc; have h1 := rd.isLt; have h2 := rs1.isLt; omega)

theorem cpop (rd : BitVec 5) : Statement (.cpop rd) := of_eq rfl (by decide) (by have h0 := rd.isLt; omega)

theorem launch (rd : BitVec 5) (rs1 : BitVec 5) : Statement (.launch rd rs1) := of_eq rfl (by decide) (by have h0 := rd.isLt; have h1 := rs1.isLt; omega)

theorem cstore (sc : Scope) (rs1 : BitVec 5) (rs2 : BitVec 5) : Statement (.cstore sc rs1 rs2) := of_eq rfl (by decide) (by have h0 := Scope.code_lt sc; have h1 := rs1.isLt; have h2 := rs2.isLt; omega)

theorem cwait (rd : BitVec 5) (rs1 : BitVec 5) : Statement (.cwait rd rs1) := of_eq rfl (by decide) (by have h0 := rd.isLt; have h1 := rs1.isLt; omega)

theorem cabort (rs1 : BitVec 5) : Statement (.cabort rs1) := of_eq rfl (by decide) (by have h0 := rs1.isLt; omega)

theorem pdef (e : BitVec 5) (rs1 : BitVec 5) : Statement (.pdef e rs1) := of_eq rfl (by decide) (by have h0 := e.isLt; have h1 := rs1.isLt; omega)

theorem pin (n : BitVec 6) (e : BitVec 5) : Statement (.pin n e) := of_eq rfl (by decide) (by have h0 := n.isLt; have h1 := e.isLt; omega)

theorem unpick (n : BitVec 6) : Statement (.unpick n) := of_eq rfl (by decide) (by have h0 := n.isLt; omega)

theorem pdrop (e : BitVec 5) : Statement (.pdrop e) := of_eq rfl (by decide) (by have h0 := e.isLt; omega)

theorem lopen (d : BitVec 4) (rs1 : BitVec 5) : Statement (.lopen d rs1) := of_eq rfl (by decide) (by have h0 := d.isLt; have h1 := rs1.isLt; omega)

theorem lset (d : BitVec 5) (f : BitVec 3) (rs1 : BitVec 5) : Statement (.lset d f rs1) := of_eq rfl (by decide) (by have h0 := d.isLt; have h1 := f.isLt; have h2 := rs1.isLt; omega)

theorem lclose (d : BitVec 5) : Statement (.lclose d) := of_eq rfl (by decide) (by have h0 := d.isLt; omega)

theorem linval (d : BitVec 5) : Statement (.linval d) := of_eq rfl (by decide) (by have h0 := d.isLt; omega)

theorem lstat (rd : BitVec 5) (d : BitVec 5) : Statement (.lstat rd d) := of_eq rfl (by decide) (by have h0 := rd.isLt; have h1 := d.isLt; omega)

theorem bind (rs1 : BitVec 5) (rs2 : BitVec 5) : Statement (.bind rs1 rs2) := of_eq rfl (by decide) (by have h0 := rs1.isLt; have h1 := rs2.isLt; omega)

theorem unbind (rs1 : BitVec 5) : Statement (.unbind rs1) := of_eq rfl (by decide) (by have h0 := rs1.isLt; omega)

theorem gtset (rs1 : BitVec 5) (rs2 : BitVec 5) : Statement (.gtset rs1 rs2) := of_eq rfl (by decide) (by have h0 := rs1.isLt; have h1 := rs2.isLt; omega)

theorem gtclr (rs1 : BitVec 5) : Statement (.gtclr rs1) := of_eq rfl (by decide) (by have h0 := rs1.isLt; omega)

theorem tlbinv (sc : Scope) (rs1 : BitVec 5) : Statement (.tlbinv sc rs1) := of_eq rfl (by decide) (by have h0 := Scope.code_lt sc; have h1 := rs1.isLt; omega)

theorem bset (n : BitVec 8) (rs1 : BitVec 5) (rs2 : BitVec 5) : Statement (.bset n rs1 rs2) := of_eq rfl (by decide) (by have h0 := n.isLt; have h1 := rs1.isLt; have h2 := rs2.isLt; omega)

theorem barr (n : BitVec 8) (rs1 : BitVec 5) : Statement (.barr n rs1) := of_eq rfl (by decide) (by have h0 := n.isLt; have h1 := rs1.isLt; omega)

theorem barw (n : BitVec 8) (rs1 : BitVec 5) : Statement (.barw n rs1) := of_eq rfl (by decide) (by have h0 := n.isLt; have h1 := rs1.isLt; omega)

theorem bdrop (n : BitVec 8) (rs1 : BitVec 5) : Statement (.bdrop n rs1) := of_eq rfl (by decide) (by have h0 := n.isLt; have h1 := rs1.isLt; omega)

theorem bwait (n : BitVec 8) (rs1 : BitVec 5) : Statement (.bwait n rs1) := of_eq rfl (by decide) (by have h0 := n.isLt; have h1 := rs1.isLt; omega)

theorem bquery (rd : BitVec 5) (n : BitVec 8) (rs1 : BitVec 5) : Statement (.bquery rd n rs1) := of_eq rfl (by decide) (by have h0 := rd.isLt; have h1 := n.isLt; have h2 := rs1.isLt; omega)

theorem vfb (n : BitVec 5) (off : BitVec 15) : Statement (.vfb n off) := of_eq rfl (by decide) (by have h0 := n.isLt; have h1 := off.isLt; omega)

theorem vpb (k : BitVec 3) (off : BitVec 15) : Statement (.vpb k off) := of_eq rfl (by decide) (by have h0 := k.isLt; have h1 := off.isLt; omega)

theorem vpend : Statement (.vpend) := of_eq rfl (by decide) (by omega)

theorem kbool (kd : BitVec 3) (ka : BitVec 3) (kb : BitVec 3) (f : BitVec 4) : Statement (.kbool kd ka kb f) := of_eq rfl (by decide) (by have h0 := kd.isLt; have h1 := ka.isLt; have h2 := kb.isLt; have h3 := f.isLt; omega)

theorem kpop (rd : BitVec 5) (ka : BitVec 3) : Statement (.kpop rd ka) := of_eq rfl (by decide) (by have h0 := rd.isLt; have h1 := ka.isLt; omega)

theorem kfirst (rd : BitVec 5) (ka : BitVec 3) : Statement (.kfirst rd ka) := of_eq rfl (by decide) (by have h0 := rd.isLt; have h1 := ka.isLt; omega)

theorem kset (kd : BitVec 3) (rs1 : BitVec 5) : Statement (.kset kd rs1) := of_eq rfl (by decide) (by have h0 := kd.isLt; have h1 := rs1.isLt; omega)

theorem kget (rd : BitVec 5) (ka : BitVec 3) : Statement (.kget rd ka) := of_eq rfl (by decide) (by have h0 := rd.isLt; have h1 := ka.isLt; omega)

theorem kuse (ka : BitVec 3) : Statement (.kuse ka) := of_eq rfl (by decide) (by have h0 := ka.isLt; omega)

theorem vsetvl (rd : BitVec 5) (rs1 : BitVec 5) : Statement (.vsetvl rd rs1) := of_eq rfl (by decide) (by have h0 := rd.isLt; have h1 := rs1.isLt; omega)

theorem lpush (v : DWord) : Statement (.lpush v) := of_none rfl

theorem conciergeReadBlock : Statement (.conciergeReadBlock) := of_none rfl

theorem placeLaunch : Statement (.placeLaunch) := of_none rfl

theorem priorityPreempt : Statement (.priorityPreempt) := of_none rfl

theorem postClaim (lid : Word) (plot : BitVec 12) : Statement (.postClaim lid plot) := of_none rfl

theorem gangStart (lid : Word) (plot : BitVec 12) : Statement (.gangStart lid plot) := of_none rfl

theorem handlerStart (c : CoreId) : Statement (.handlerStart c) := of_none rfl

theorem agingPeriod (c : CoreId) : Statement (.agingPeriod c) := of_none rfl

theorem budgetExpiry (c : CoreId) : Statement (.budgetExpiry c) := of_none rfl

theorem taskEnd (c : CoreId) : Statement (.taskEnd c) := of_none rfl

theorem idleSample (lid : Word) : Statement (.idleSample lid) := of_none rfl

theorem latchLoadComplete (c : CoreId) (l : BitVec 1) : Statement (.latchLoadComplete c l) := of_none rfl

theorem handOn (c : CoreId) (l : BitVec 1) : Statement (.handOn c l) := of_none rfl

theorem drainReceive (k : Nat) : Statement (.drainReceive k) := of_none rfl

theorem registerCacheEvict (c : CoreId) (item : BitVec 7) : Statement (.registerCacheEvict c item) := of_none rfl

theorem l1Evict (c : CoreId) (line : BitVec 45) : Statement (.l1Evict c line) := of_none rfl

theorem clusterHomeEvict (c : CoreId) (line : BitVec 45) : Statement (.clusterHomeEvict c line) := of_none rfl

theorem lease1Expiry (c : CoreId) (line : BitVec 45) : Statement (.lease1Expiry c line) := of_none rfl

theorem lease2Expiry (line : BitVec 45) : Statement (.lease2Expiry line) := of_none rfl

theorem recallOwner (line : BitVec 45) : Statement (.recallOwner line) := of_none rfl

theorem partialPush (c : CoreId) (w : BitVec 50) : Statement (.partialPush c w) := of_none rfl

theorem versionBump (c : CoreId) (g : Byte) : Statement (.versionBump c g) := of_none rfl

theorem regionTableWrite (g : Byte) (v : DWord) : Statement (.regionTableWrite g v) := of_none rfl

theorem eventCounterWrite (n : BitVec 12) (v : Word) : Statement (.eventCounterWrite n v) := of_none rfl

theorem requestTimeout (c : CoreId) : Statement (.requestTimeout c) := of_none rfl

theorem duplicateRecordExpiry : Statement (.duplicateRecordExpiry) := of_none rfl

theorem qlockRetry (c : CoreId) : Statement (.qlockRetry c) := of_none rfl

theorem qlockGrant (w : BitVec 50) : Statement (.qlockGrant w) := of_none rfl

theorem relayRow (k : Nat) : Statement (.relayRow k) := of_none rfl

theorem downWaveDelivery (k : Nat) : Statement (.downWaveDelivery k) := of_none rfl

theorem groupAbort (c : CoreId) (e : BitVec 6) : Statement (.groupAbort c e) := of_none rfl

theorem carrierCopy (k : Nat) : Statement (.carrierCopy k) := of_none rfl

theorem outChannelDrain (c : CoreId) (n : BitVec 3) : Statement (.outChannelDrain c n) := of_none rfl

theorem packetArrival (k : Nat) : Statement (.packetArrival k) := of_none rfl

theorem channelDelivery (c : CoreId) : Statement (.channelDelivery c) := of_none rfl

theorem repeatSequencerPost (c : CoreId) : Statement (.repeatSequencerPost c) := of_none rfl

theorem trapEntry (c : CoreId) : Statement (.trapEntry c) := of_none rfl

theorem machineTrapEntry (c : CoreId) : Statement (.machineTrapEntry c) := of_none rfl

theorem uncorrectableError (site : ErrSite) : Statement (.uncorrectableError site) := of_none rfl

theorem coreFence (c : CoreId) : Statement (.coreFence c) := of_none rfl

theorem dieLoss (die : BitVec 5) : Statement (.dieLoss die) := of_none rfl

theorem regctx (arg : DWord) : Statement (.regctx arg) := of_none rfl

theorem unregctx (ctx : HWord) : Statement (.unregctx ctx) := of_none rfl

theorem kill (ctx : HWord) : Statement (.kill ctx) := of_none rfl

theorem preempt (lid : Word) : Statement (.preempt lid) := of_none rfl

theorem migrate (arg : DWord) : Statement (.migrate arg) := of_none rfl

theorem hostMemAccess (acc : OutsideAccess) : Statement (.hostMemAccess acc) := of_none rfl

theorem peerAccess (acc : OutsideAccess) : Statement (.peerAccess acc) := of_none rfl

theorem linkFlit (c : CoreId) (good : Bool) : Statement (.linkFlit c good) := of_none rfl

theorem firmwareImage (img : FwImage) : Statement (.firmwareImage img) := of_none rfl

theorem spdmRequest (req : DWord) : Statement (.spdmRequest req) := of_none rfl

theorem powerUp : Statement (.powerUp) := of_none rfl

theorem functionReady (f : ReadyBit) : Statement (.functionReady f) := of_none rfl

theorem powerCap (watts : HWord) (tmax : BitVec 8) : Statement (.powerCap watts tmax) := of_none rfl

theorem thermalTrip (tmax : BitVec 8) : Statement (.thermalTrip tmax) := of_none rfl

theorem coreReset (c : CoreId) : Statement (.coreReset c) := of_none rfl

theorem timebaseHalt : Statement (.timebaseHalt) := of_none rfl

theorem registerWrite (off : BitVec 25) (v : DWord) : Statement (.registerWrite off v) := of_none rfl

theorem l2Evict (line : BitVec 45) : Statement (.l2Evict line) := of_none rfl

theorem tlbEvict (c : CoreId) (k : Nat) : Statement (.tlbEvict c k) := of_none rfl

theorem timebaseResume : Statement (.timebaseResume) := of_none rfl

theorem correctedError (unit : CorrectedSite) : Statement (.correctedError unit) := of_none rfl

theorem packageReset : Statement (.packageReset) := of_none rfl

end Sys2Proof.Laws.EncodeWidth
end

