-- ==== Sys2Proof/Tests/Slice0.lean ====
section
/-!
SUPPORT. Tests: ill-formed terms that WellFormed refuses, words written out from the encodings of the spec, single steps whose expected
values are worked out from the rules by hand, and for every statement with hypotheses states and operands that meet them.
-/

namespace Sys2Proof.Tests

open Sys2Proof Sys2Proof.Machine

set_option Elab.async false

/-! ### Ill-formed terms -/

/-- R55, R97, R127, R135 to R148: for every check of an operand of a frame instruction, a term that it refuses. -/
theorem test_ill_formed_frame :
    ([.vaddV3 (.sreg 1) (.row 0) (.row 0), .vaddV3 (.row 0) (.mask 1) (.row 0), .vaddV3 (.row 0) (.row 0) (.que 4),
      .vaddV3 (.que 11) (.row 0) (.row 0), .vaddV3 (.que 14) (.row 0) (.row 0), .vfmaV3 (.chan 0) (.row 0) (.row 0),
      .vmovV3 (.mask 0) (.row 0), .vmovV3 (.row 0) (.que 13), .vcvt (.row 0) (.row 0) .none false false, .vfmt (.col 0) 1, .vclr (.dia 0),
      .vceq 0 (.row 0) (.row 0), .vid (.sreg 0), .vredsum (.que 3) (.row 0), .vredsum (.que 8) (.row 0), .vredminx (.col 0) (.row 0),
      .vslup (.row 0) (.row 0) (.row 0), .vslup (.row 0) (.row 0) (.que 4), .vpack (.col 0) (.row 0) (.row 0), .vdot (.chan 0) (.row 0) (.row 0),
      .vqnt (.row 0) (.col 0) 0, .vdq (.chan 0) (.row 0), .kbool 0 1 1 0, .kset 0 1] : List Instr).map Instr.wellFormed =
      List.replicate 24 false := by decide +kernel

/-- R56, R58 to R71, R97: the same for the other encoded instructions. -/
theorem test_ill_formed_others :
    ([.vld .none (.row 0) 0 0, .vld .int6 (.row 0) 0 0, .vlds .none (.row 0) 0 0, .vst .int6 (.row 0) 0 0, .vldx .none (.row 0) 0 0,
      .acq .pkg true 1, .rel .pkg true 255, .fence .pkg .rlx, .own .clu 0 0, .disown .task 0 0, .qlock .clu 0, .qunlock .task 0,
      .mqpop 0 0 10, .mqpopAcc 0 0 14, .mqpush 0 0 8, .qpeek 0 3, .qpeekPop 0 8, .lcfg 6 0 0, .cstore .task 0 0] : List Instr).map Instr.wellFormed =
      List.replicate 19 false := by decide +kernel

/-- R1, R369, R375: events that name what the package does not have. -/
theorem test_ill_formed_events :
    ([.coreReset 3072, .taskEnd 4095, .tlbEvict 3072 0, .dieLoss 24, .uncorrectableError (.control 3072),
      .uncorrectableError (.line (.l1 3072) 0), .hostMemAccess (.read 0 0), .hostMemAccess (.write 0 9 0),
      .peerAccess (.atomic .add true 4 0 0)] : List Instr).map Instr.wellFormed = List.replicate 9 false := by decide +kernel

/-- Terms at the edges of the same checks that are well formed. -/
theorem test_well_formed :
    ([.vaddV3 (.que 12) (.que 3) (.que 15), .vredsum (.que 4) (.chan 7), .vredminx (.row 0) (.row 0), .vslup (.row 0) (.row 0) (.que 3),
      .vceq 1 (.row 0) (.row 0), .vst .none (.row 0) 0 0, .acq .task true 0, .acq .task false 255, .fence .task .acq, .own .die 0 0,
      .mqpop 0 0 13, .mqpush 0 0 15, .qpeek 0 11, .lcfg 5 0 0, .cstore .clu 0 0, .coreReset 3071, .dieLoss 23, .hostMemAccess (.read 0 8)]
      : List Instr).map Instr.wellFormed = List.replicate 18 true := by decide +kernel

/-! ### Words -/

/-- R53: the 16-bit forms. -/
theorem test_words_c2 : [0x20E0, 0x20E2, 0x20E4, 0x20E6, 0x20E8, 0x20EA, 0x20EC, 0x20EE, 0x20F0, 0x20F2, 0x20F4, 0x20F6, 0x20F8, 0x20FA, 0x20FC, 0x20FE].map (decodeTableWord 16) =
    [some (.vaddC2 true 3 false 2), some (.vsubC2 true 3 false 2), some (.vmulC2 true 3 false 2), some (.vfmaC2 true 3 false 2),
    some (.vminC2 true 3 false 2), some (.vmaxC2 true 3 false 2), some (.vandC2 true 3 false 2), some (.vorC2 true 3 false 2),
    some (.vxorC2 true 3 false 2), some (.vshlC2 true 3 false 2), some (.vshrC2 true 3 false 2), some (.vsraC2 true 3 false 2),
    some (.vmovC2 true 3 false 2), some (.vabsC2 true 3 false 2), some (.vnegC2 true 3 false 2), some (.vpopcC2 true 3 false 2)] := by decide +kernel

/-- R54, R55: the lane operations in V3 form. -/
theorem test_words_lanes : [0x1E130D03, 0x1E130D07, 0x1E130D0B, 0x1E130D0F, 0x1E130D13, 0x1E130D17, 0x1E130D1B, 0x1E130D1F, 0x1E130D23, 0x1E130D27, 0x1E130D2B, 0x1E130D2F,
    0x00130D33, 0x00130D37, 0x00130D3B, 0x00130D3F, 0x1E130D43, 0x00130D47, 0x00130D4B, 0x00130D4F].map (decodeTableWord 32) =
    [some (.vaddV3 (.row 13) (.row 19) (.row 30)), some (.vsubV3 (.row 13) (.row 19) (.row 30)), some (.vmulV3 (.row 13) (.row 19) (.row 30)),
    some (.vfmaV3 (.row 13) (.row 19) (.row 30)), some (.vminV3 (.row 13) (.row 19) (.row 30)), some (.vmaxV3 (.row 13) (.row 19) (.row 30)),
    some (.vandV3 (.row 13) (.row 19) (.row 30)), some (.vorV3 (.row 13) (.row 19) (.row 30)), some (.vxorV3 (.row 13) (.row 19) (.row 30)),
    some (.vshlV3 (.row 13) (.row 19) (.row 30)), some (.vshrV3 (.row 13) (.row 19) (.row 30)), some (.vsraV3 (.row 13) (.row 19) (.row 30)),
    some (.vmovV3 (.row 13) (.row 19)), some (.vabsV3 (.row 13) (.row 19)), some (.vnegV3 (.row 13) (.row 19)), some (.vpopcV3 (.row 13) (.row 19)),
    some (.vdiv (.row 13) (.row 19) (.row 30)), some (.vsqrt (.row 13) (.row 19)), some (.vclz (.row 13) (.row 19)), some (.vnot (.row 13) (.row 19))] := by decide +kernel

/-- R54, R55: the other frame instructions. -/
theorem test_words_frame : [0x36130D53, 0x00C30D57, 0x00000D5B, 0x1E130D5F, 0x1E13FD63, 0x1E13FD67, 0x1E13FD6B, 0x1E13FD6F, 0x00000D73, 0x00130D77, 0x00130D7B, 0x00130D7F,
    0x00130D83, 0x00130D87, 0x00130D8B, 0x00130D8F, 0xC6130D93, 0xE3130D97, 0x1E130D9B, 0x1E130D9F, 0x06130DA3, 0x1E130DA7, 0x1E130DAB, 0x00130DAF,
    0x1E130DB3, 0x1E130DB7, 0x1E130DBB].map (decodeTableWord 32) =
    [some (.vcvt (.row 13) (.row 19) .int32 true true), some (.vfmt (.row 13) 3), some (.vclr (.row 13)), some (.vsel (.row 13) (.row 19) (.row 30)),
    some (.vceq 5 (.row 19) (.row 30)), some (.vcne 5 (.row 19) (.row 30)), some (.vclt 5 (.row 19) (.row 30)), some (.vcle 5 (.row 19) (.row 30)),
    some (.vid (.row 13)), some (.vredsum (.row 13) (.row 19)), some (.vredmin (.row 13) (.row 19)), some (.vredmax (.row 13) (.row 19)),
    some (.vredminx (.row 13) (.row 19)), some (.vredand (.row 13) (.row 19)), some (.vredor (.row 13) (.row 19)),
    some (.vredxor (.row 13) (.row 19)), some (.vslup (.row 13) (.row 19) (.sreg 6)), some (.vsldn (.row 13) (.row 19) (.que 3)),
    some (.vperm (.row 13) (.row 19) (.row 30)), some (.vpack (.row 13) (.row 19) (.row 30)), some (.vunpk (.row 13) (.row 19) 6),
    some (.vdot (.row 13) (.row 19) (.row 30)), some (.vqnt (.row 13) (.row 19) 30), some (.vdq (.row 13) (.row 19)),
    some (.vaddSat (.row 13) (.row 19) (.row 30)), some (.vsubSat (.row 13) (.row 19) (.row 30)), some (.vmulSat (.row 13) (.row 19) (.row 30))] := by decide +kernel

/-- The words of the family, from the fields of the opcode table. -/
theorem test_words_integer : [0x000C3281, 0x004C3281, 0x008C3281, 0x00CC3281, 0x010C3281, 0x014C3281, 0x018C3281, 0x01CC3281, 0x020C3281, 0x024C3281, 0x028C3281, 0x02CC3281,
    0x030C3281, 0x034C3281, 0x038C3281, 0x03CC3281, 0x040C3281, 0x044C3281, 0x048C3281, 0x04CC3281, 0x050C3281, 0x054C3281, 0x05803281, 0x05C03281,
    0x06003281, 0x164C3281].map (decodeTableWord 32) =
    [some (.add 5 3 6), some (.sub 5 3 6), some (.mul 5 3 6), some (.mulh 5 3 6), some (.mulhu 5 3 6), some (.div 5 3 6), some (.divu 5 3 6),
    some (.rem 5 3 6), some (.remu 5 3 6), some (.and 5 3 6), some (.or 5 3 6), some (.xor 5 3 6), some (.andn 5 3 6), some (.shl 5 3 6),
    some (.shr 5 3 6), some (.sra 5 3 6), some (.min 5 3 6), some (.max 5 3 6), some (.minu 5 3 6), some (.maxu 5 3 6), some (.slt 5 3 6),
    some (.sltu 5 3 6), some (.clz 5 3), some (.ctz 5 3), some (.popc 5 3), some (.csel 5 3 6 2)] := by decide +kernel

/-- The words of the family, from the fields of the opcode table. -/
theorem test_words_immediates : [0x01E03285, 0x01E23285, 0x01E43285, 0x01E63285, 0x00683285, 0x006A3285, 0x006C3285, 0x01EE3285, 0x00026289, 0x00027289, 0x01E1940D, 0x01E1948D,
    0x01E1950D, 0x01E1958D, 0x01E1960D, 0x01E1968D, 0x00013291, 0x01E03295].map (decodeTableWord 32) =
    [some (.addi 5 3 30), some (.andi 5 3 30), some (.ori 5 3 30), some (.xori 5 3 30), some (.shli 5 3 6), some (.shri 5 3 6), some (.srai 5 3 6),
    some (.slti 5 3 30), some (.lim 5 19), some (.apc 5 19), some (.beq 5 3 30), some (.bne 5 3 30), some (.blt 5 3 30), some (.bge 5 3 30),
    some (.bltu 5 3 30), some (.bgeu 5 3 30), some (.jmp 5 19), some (.jind 5 3 30)] := by decide +kernel

/-- The words of the family, from the fields of the opcode table. -/
theorem test_words_floats : [0x000C3299, 0x004C3299, 0x008C3299, 0x00CC3299, 0x01003299, 0x094C3299, 0x018C3299, 0x01CC3299, 0x06063299, 0x0A4C3299].map (decodeTableWord 32) =
    [some (.fadd .fp64 5 3 6), some (.fsub .fp64 5 3 6), some (.fmul .fp64 5 3 6), some (.fdiv .fp64 5 3 6), some (.fsqrt .fp64 5 3),
    some (.fma .fp64 5 3 6 1), some (.fmin .fp64 5 3 6), some (.fmax .fp64 5 3 6), some (.fcvt .fp32 .fru 5 3), some (.fcmp .fp64 .lt 5 3 6)] := by decide +kernel

/-- The words of the family, from the fields of the opcode table. -/
theorem test_words_system : [0x04C0501D, 0x04CA009D, 0x0340011D, 0x0340019D, 0x0000021D, 0x0000029D, 0x0000031D, 0x0000039D].map (decodeTableWord 32) =
    [some (.sget 5 .tdies), some (.sset .tdies 5), some (.trap 13), some (.sysc 13), some .eret, some .isync, some .tdone, some .nop] := by decide +kernel

/-- The words of the family, from the fields of the opcode table. -/
theorem test_words_scalar_memory : [0x01E032A1, 0x01E232A1, 0x01E432A1, 0x01E632A1, 0x01E832A1, 0x01EA32A1, 0x01EC32A1, 0x01E032A5, 0x01E232A5, 0x01E432A5, 0x01E632A5].map (decodeTableWord 32) =
    [some (.ldb 5 3 30), some (.ldbu 5 3 30), some (.ldh 5 3 30), some (.ldhu 5 3 30), some (.ldw 5 3 30), some (.ldwu 5 3 30), some (.ldd 5 3 30),
    some (.stb 5 3 30), some (.sth 5 3 30), some (.stw 5 3 30), some (.std 5 3 30)] := by decide +kernel

/-- The words of the family, from the fields of the opcode table. -/
theorem test_words_vector_memory : [0x04C186A9, 0x2D2186A9, 0x04D186A9, 0x04C186AD, 0x2D2186AD, 0x04D186AD, 0x098186B1, 0x099186B1, 0x18A182B1].map (decodeTableWord 32) =
    [some (.vld .int32 (.row 13) 3 2), some (.vldInt6 (.row 13) 3 2 6), some (.vlds .int32 (.row 13) 3 2), some (.vst .int32 (.row 13) 3 2),
    some (.vstInt6 (.row 13) 3 2 6), some (.vsts .int32 (.row 13) 3 2), some (.vldx .int32 (.row 13) 3 2), some (.vstx .int32 (.row 13) 3 2),
    some (.vaadd .die (.row 5) 3 6)] := by decide +kernel

/-- The words of the family, from the fields of the opcode table. -/
theorem test_words_atomics : [0x220332B5, 0x221332B5, 0x222332B5, 0x223332B5, 0x224332B5, 0x225332B5, 0x226332B5, 0x227332B5, 0x228332B5, 0x229332B5, 0x22A332B5, 0x22B332B5,
    0x22C332B5].map (decodeTableWord 32) =
    [some (.aadd { scope := .task, order := .rel } 5 3 1 6), some (.amin { scope := .task, order := .rel } 5 3 1 6),
    some (.amax { scope := .task, order := .rel } 5 3 1 6), some (.aminu { scope := .task, order := .rel } 5 3 1 6),
    some (.amaxu { scope := .task, order := .rel } 5 3 1 6), some (.aand { scope := .task, order := .rel } 5 3 1 6),
    some (.aor { scope := .task, order := .rel } 5 3 1 6), some (.axor { scope := .task, order := .rel } 5 3 1 6),
    some (.aswp { scope := .task, order := .rel } 5 3 1 6), some (.acas { scope := .task, order := .rel } 5 3 1 6),
    some (.aswpDw { scope := .task, order := .rel } 5 3 1 6), some (.acasDw { scope := .task, order := .rel } 5 3 1 6),
    some (.aaddDw { scope := .task, order := .rel } 5 3 1 6)] := by decide +kernel

/-- The words of the family, from the fields of the opcode table. -/
theorem test_words_ordering : [0x06001839, 0x070020B9, 0x0000C939, 0x0030D1B9, 0x0030DA39, 0x000042B9, 0x00094339, 0x0000D3B9, 0x0000E439, 0x000144B9, 0x00194539, 0x002805B9].map (decodeTableWord 32) =
    [some (.acq .pkg false 6), some (.rel .sys false 7), some (.fence .clu .ar), some (.own .die 3 6), some (.disown .pkg 3 6), some (.drain .peer),
    some (.pref true 5), some (.qlock .die 3), some (.qunlock .sys 3), some (.xbeg 5), some (.xcmp 5 3), some (.xend 5)] := by decide +kernel

/-- The words of the family, from the fields of the opcode table. -/
theorem test_words_matrix : [0x0046143D, 0x0046343D, 0x0046543D, 0x0046743D, 0x080614BD, 0x00AC3441, 0x20AC3441, 0x000400C1, 0x000C1541, 0x000C15C1, 0x006C1641, 0x018C26C1,
    0x218C32C1, 0x018C3B41, 0x00001C45, 0x000004C5, 0x00000545].map (decodeTableWord 32) =
    [some (.mmaOvw 1 6 1 2), some (.mmaAcc 1 6 1 2), some (.mmaRing 1 6 1 2), some (.mmaArr 1 6 1 2), some (.mdarn 1 6 1 2),
    some (.hmov (.row 13) 3 .dia 2), some (.hmovPeek (.row 13) 3 .dia 2), some (.hclr 1), some (.hld 3 5), some (.hst 3 5), some (.hdrain 3 5 6),
    some (.mqpop 3 6 9), some (.mqpopAcc 3 6 12), some (.mqpush 3 6 14), some (.mld 1 3), some (.mpass 1), some (.mwait 1)] := by decide +kernel

/-- The words of the family, from the fields of the opcode table. -/
theorem test_words_queues : [0x00031449, 0x000D9449, 0x000194C9, 0x00019549, 0x013015C9, 0x0001344D, 0x000134CD, 0x0000054D, 0x065001CD, 0x0C30524D, 0x000002CD, 0x0000034D,
    0x06019451, 0x000014D1, 0x00019551, 0x026181D1, 0x00019651, 0x000282D1].map (decodeTableWord 32) =
    [some (.qpeek 5 6), some (.qpeekPop 5 11), some (.qcount 5 3), some (.send 5 3), some (.sendv 5 (.row 19)), some (.spush 1 (.row 19)),
    some (.spop 1 (.row 19)), some (.sflush 1), some (.lbuf 5 3), some (.lcfg 5 3 6), some .lrun, some .lstop, some (.cpost .pkg 5 3),
    some (.cpop 5), some (.launch 5 3), some (.cstore .clu 3 6), some (.cwait 5 3), some (.cabort 5)] := by decide +kernel

/-- The words of the family, from the fields of the opcode table. -/
theorem test_words_tables : [0x00065055, 0x00C050D5, 0x01400155, 0x000051D5, 0x00065255, 0x018652D5, 0x00005355, 0x000053D5, 0x00065455, 0x000654D5, 0x00005555, 0x000655D5,
    0x00005655, 0x300056D5].map (decodeTableWord 32) =
    [some (.pdef 5 3), some (.pin 3 5), some (.unpick 5), some (.pdrop 5), some (.lopen 5 3), some (.lset 5 6 3), some (.lclose 5), some (.linval 5),
    some (.lstat 3 5), some (.bind 5 3), some (.unbind 5), some (.gtset 5 3), some (.gtclr 5), some (.tlbinv .pkg 5)] := by decide +kernel

/-- The words of the family, from the fields of the opcode table. -/
theorem test_words_barriers : [0x01E19459, 0x013280D9, 0x01328159, 0x013281D9, 0x01328259, 0x01E196D9].map (decodeTableWord 32) =
    [some (.bset 30 3 5), some (.barr 19 5), some (.barw 19 5), some (.bdrop 19 5), some (.bwait 19 5), some (.bquery 5 30 3)] := by decide +kernel

/-- The words of the family, from the fields of the opcode table. -/
theorem test_words_masks : [0x0026505D, 0x002650DD, 0x0000015D, 0x118651DD, 0x000653DD, 0x0006545D, 0x000654DD, 0x0006555D, 0x000A05DD, 0x0006565D].map (decodeTableWord 32) =
    [some (.vfb 5 19), some (.vpb 5 19), some .vpend, some (.kbool 5 3 6 2), some (.kpop 5 3), some (.kfirst 5 3), some (.kset 5 3),
    some (.kget 5 3), some (.kuse 5), some (.vsetvl 5 3)] := by decide +kernel

/-- The spec's own examples: `vredminx q4, x30`; `kuse k1`; `mld l1, [s7]`; `mpass l0`; `mwait l0`; `mma.ring h0, [s5], l0, s6`; `mdarn h1, [s5], l0, #3`; `hclr h3`; `hdrain h0, s9, s10`; `hmov x9, h2.row, #5`; `mqpop h1, #5, q12`; `mqpush q14, h0, #64`; `ldw s5, [s4+8]`; `std s22, [s3+320]`; `vld.fp32 x12, [s3+128]`; `vld.int6 x4, [s5+0], #3`; `vlds.fp32 x2, [s6], s7`; `vst x8, [s3+256]`; `vldx.fp32 x10, [s6], x11`; `vaadd.pkg x12, [s6], x11`. -/
theorem test_examples_1 : [0x001EE483, 0x000205DD, 0x00003C45, 0x000000C5, 0x00000145, 0x00C5403D, 0x0C0504BD, 0x000C00C1, 0x00A02641, 0x01482441, 0x014432C1, 0x10003B41,
    0x008842A1, 0x14063B25, 0x20418629, 0x07228229, 0x0E530129, 0x4001842D, 0x2C830531, 0x2CE30631].map (decodeTableWord 32) =
    [some (.vredminx (.que 4) (.row 30)), some (.kuse 1), some (.mld 1 7), some (.mpass 0), some (.mwait 0), some (.mmaRing 0 5 0 6),
    some (.mdarn 1 5 0 3), some (.hclr 3), some (.hdrain 0 9 10), some (.hmov (.row 9) 2 .row 5), some (.mqpop 1 5 12), some (.mqpush 0 64 14),
    some (.ldw 5 4 8), some (.std 22 3 320), some (.vld .fp32 (.row 12) 3 16), some (.vldInt6 (.row 4) 5 0 3), some (.vlds .fp32 (.row 2) 6 7),
    some (.vst .none (.row 8) 3 32), some (.vldx .fp32 (.row 10) 6 11), some (.vaadd .pkg (.row 12) 6 11)] := by decide +kernel

/-- The spec's own examples: `acq.pkg #3`; `rel.die #3`; `fence.pkg.sc`; `own.pkg [s3], s8`; `drain.mem`; `pref.l2 [s6]`; `qlock.pkg [s6]`; `xbeg [s6]`; `xcmp [s3], s5`; `xend s9`; `qpeek.pop s5, q4`; `qcount s6, q0`; `send s6, s7`; `sendv s6, x12`; `lbuf [s6], s7`; `lcfg #0, s8, s10`; `spush c1, x5`; `spop x6, c1`; `sflush c2`; `cpost.pkg s9, [s6]`. -/
theorem test_examples_2 : [0x03001839, 0x030010B9, 0x00011939, 0x0040D9B9, 0x000082B9, 0x00098339, 0x00019BB9, 0x000184B9, 0x0028C539, 0x004805B9, 0x000A1449, 0x000018C9,
    0x00039949, 0x00C019C9, 0x0E6001CD, 0x1480024D, 0x0000544D, 0x000064CD, 0x0000094D, 0x06032451].map (decodeTableWord 32) =
    [some (.acq .pkg false 3), some (.rel .die false 3), some (.fence .pkg .sc), some (.own .pkg 3 8), some (.drain .mem), some (.pref true 6),
    some (.qlock .pkg 6), some (.xbeg 6), some (.xcmp 3 5), some (.xend 9), some (.qpeekPop 5 4), some (.qcount 6 0), some (.send 6 7),
    some (.sendv 6 (.row 12)), some (.lbuf 6 7), some (.lcfg 0 8 10), some (.spush 1 (.row 5)), some (.spop 1 (.row 6)), some (.sflush 2),
    some (.cpost .pkg 9 6)] := by decide +kernel

/-- The spec's own examples: `cpop s9`; `launch s5, [s6]`; `cstore.pkg [s6], s7`; `cwait s9, [s6]`; `cabort [s6]`; `tlbinv.pkg s5`; `pdef #1, [s17]`; `pdrop #1`; `pin x20, #1`; `unpick x20`; `lopen #3, [s6]`; `lset #3, #7, s8`; `lclose #3`; `linval #3`; `lstat s9, #3`; `bind s5, s3`; `unbind s5`; `gtset s5, s6`; `gtclr s5`. -/
theorem test_examples_3 : [0x000024D1, 0x00031551, 0x067301D1, 0x00032651, 0x000302D1, 0x300056D5, 0x00221055, 0x000011D5, 0x050010D5, 0x05000155, 0x000C3255, 0x01D032D5,
    0x00003355, 0x000033D5, 0x00123455, 0x000654D5, 0x00005555, 0x000C55D5, 0x00005655].map (decodeTableWord 32) =
    [some (.cpop 9), some (.launch 5 6), some (.cstore .pkg 6 7), some (.cwait 9 6), some (.cabort 6), some (.tlbinv .pkg 5), some (.pdef 1 17),
    some (.pdrop 1), some (.pin 20 1), some (.unpick 20), some (.lopen 3 6), some (.lset 3 7 8), some (.lclose 3), some (.linval 3),
    some (.lstat 9 3), some (.bind 5 3), some (.unbind 5), some (.gtset 5 6), some (.gtclr 5)] := by decide +kernel

/-- R12, R53, R55: the operand bytes of every kind in a V3 form, and a C2 form with two columns. -/
theorem test_words_operands :
    [0xC39F4003, 0x0000E303, 0xF7F0F003, 0x00EFEC03].map (decodeTableWord 32) =
      [some (.vaddV3 (.col 0) (.dia 31) (.sreg 3)), none, some (.vaddV3 (.chan 0) (.chan 0) (.chan 7)),
        some (.vaddV3 (.que 12) (.que 15) (.row 0))] ∧
    [0xF860].map (decodeTableWord 16) = [some (.vaddC2 true 1 true 15)] := by decide +kernel

/-- R54 to R73: words that no instruction has: reserved majors, codes and V3 ops, bits that must be zero, codes that their field does not allow,
operands that R55 does not allow, and a word cut short. -/
theorem test_words_refused :
    [0x00000061, 0x0000007D, 0x000000BF, 0x000000FF, 0x01000033, 0x0E000053, 0x00000053, 0x46000053, 0x0000030D, 0x0000038D, 0x0000F863,
      0x0001005B, 0x00001939, 0x00012939].map (decodeTableWord 32) = List.replicate 14 none ∧
    [decode [0x61, 0, 0, 0], decode [0xBF, 0, 0, 0], decode [0x33, 0, 0, 1], decode [0x53, 0, 0, 0x0E], decode [0x63, 0xF8, 0, 0]].map
      (fun r => match r with | .error e => some e | .ok _ => none) =
      [some .reservedMajor, some .reservedCode, some .nonZeroField, some .badCode, some .badOperand] := by decide +kernel

/-- R50: the last half of a 4-byte instruction is missing. -/
theorem test_truncated : decode [0x81, 0x21] = .error .truncated ∧ decode [] = .error .truncated := ⟨rfl, rfl⟩

/-! ### Small states -/

/-- A leaf for the page at 0x70000 with R, W, X and U, MTYPE WB and a HOME (R184). -/
def leafOf (home : Nat) : DWord := BitVec.ofNat 64 (1 + 2 + 4 + 8 + 16 + 32 * home + 2 ^ 11 + 7 * 2 ^ 20)

/-- Core 0 with a task at task level, handlers for its traps, a TLB entry for the page at 0x70000, and `s1` to `s3` given. -/
def taskCore (home : Nat) (v1 v2 v3 : DWord) : Core :=
  let k := Core.reset
  let k := { k with
    level := .task, task := some loneTask, pc := 0x1000, cregs := { k.cregs with tvec := 0x8000, mtvec := 0x9000 }
    tables := { k.tables with tlb := [{ asid := 0, tenant := 0, base := 0x70000, bits := 16, leaf := leafOf home }] } }
  setS (setS (setS k 1 v1) 2 v2) 3 v3

/-- Every function of the package ready. -/
def allReady (s : State) : State :=
  modRegs s fun h => { h with ready := { hub := true, md := BitVec.allOnes 8, hbm := BitVec.allOnes 32, clu := BitVec.allOnes 64, fab := 0, host := 0 } }

/-- That core alone in a package after reset. -/
def onCore (k : Core) : State := allReady (setCore State.reset 0 k)

/-- The same with the page of HOME 00 and `s1` to `s3`. -/
def onTask (v1 v2 v3 : DWord) : State := onCore (taskCore 0 v1 v2 v3)

/-- A state whose core 0 is changed. -/
def with0 (s : State) (f : Core → Core) : State := updCore s 0 f

/-- A row of FP32 elements that are all one bit pattern. -/
def allFp32 (w : Nat) : FrameRow := { row := { bits := BitVec.ofNat 2048 ((List.range 64).foldl (fun a i => a + w * 2 ^ (32 * i)) 0), psn := 0, tag := 2 }, res := .clean }

/-- The core with a frame row set. -/
def putX (n : Nat) (r : FrameRow) (k : Core) : Core := { k with files := { k.files with x := k.files.x.setIfInBounds n r } }

/-- Whether an instruction answers a next state of which `p` holds. -/
def nextIs (i : Instr) (s : State) (p : State → Bool) : Bool := match exec i s with | .next t => p t | _ => false

/-- The same for one step. -/
def stepIs (s : State) (p : State → Bool) : Bool := match step s with | .next t => p t | _ => false

/-! ### Single steps -/

/-- R111: a sum wraps at 2^64; R92: a result for `s0` is dropped. -/
theorem test_add_wraps : nextIs (.add 5 1 2) (onTask (BitVec.allOnes 64) 3 0) (fun t => getS (here t) 5 == 2 && (here t).pc == 0x1004) = true ∧
    nextIs (.add 0 1 2) (onTask 7 3 0) (fun t => getS (here t) 0 == 0) = true := by decide +kernel

/-- R111: −2⁶³ / −1 is −2⁶³ with remainder 0; a division by 0 gives −1 and the dividend. -/
theorem test_div_corners : nextIs (.div 5 1 2) (onTask (2 ^ 63) (BitVec.allOnes 64) 0) (fun t => getS (here t) 5 == 2 ^ 63) = true ∧
    nextIs (.rem 5 1 2) (onTask (2 ^ 63) (BitVec.allOnes 64) 0) (fun t => getS (here t) 5 == 0) = true ∧
    nextIs (.div 5 1 2) (onTask 9 0 0) (fun t => getS (here t) 5 == BitVec.allOnes 64) = true ∧
    nextIs (.rem 5 1 2) (onTask 9 0 0) (fun t => getS (here t) 5 == 9) = true := by decide +kernel

/-- R112: `lim s5, -1` is −4,096; `apc s5, 2` at 0x1000 is 0x1004. -/
theorem test_lim_apc : nextIs (.lim 5 (BitVec.allOnes 19)) (onTask 0 0 0) (fun t => getS (here t) 5 == BitVec.ofInt 64 (-4096)) = true ∧
    nextIs (.apc 5 2) (onTask 0 0 0) (fun t => getS (here t) 5 == 0x1004) = true := by decide +kernel

/-- R113, R114: a taken branch by −2 halfwords; a jump that links. -/
theorem test_branch_jump : nextIs (.blt 1 2 (BitVec.ofInt 12 (-2))) (onTask (BitVec.allOnes 64) 0 0) (fun t => (here t).pc == 0xFFC) = true ∧
    nextIs (.jmp 4 8) (onTask 0 0 0) (fun t => (here t).pc == 0x1010 && getS (here t) 4 == 0x1004) = true := by decide +kernel

/-- R116: 1.5 + 2.25 is 3.75, and 1.0 / 3.0 in FP32 is 0x3EAAAAAB. -/
theorem test_floats : nextIs (.fadd .fp64 5 1 2) (onTask 0x3FF8000000000000 0x4002000000000000 0) (fun t => getS (here t) 5 == 0x400E000000000000) = true ∧
    nextIs (.fdiv .fp32 5 1 2) (onTask 0x3F800000 0x40400000 0) (fun t => getS (here t) 5 == 0x3EAAAAAB) = true := by decide +kernel

/-- R117: 2.5 to an integer under round to nearest even is 2; a NaN gives 0. -/
theorem test_fcvt : nextIs (.fcvt .fp64 .toi 5 1) (onTask 0x4004000000000000 0 0) (fun t => getS (here t) 5 == 2) = true ∧
    nextIs (.fcvt .fp32 .tou 5 1) (onTask 0x7FC00000 0 0) (fun t => getS (here t) 5 == 0) = true := by decide +kernel

/-- R98, R119: VL clamps at 64; task level may not write PROT. -/
theorem test_special_registers : nextIs (.sset .vl 1) (onTask 100 0 0) (fun t => (here t).tregs.vl == 64) = true ∧
    nextIs (.sset .prot 1) (with0 (onTask 1 0 0) fun k => { k with level := .steward, pc := 0x2000 }) (fun t => (here t).tregs.prot == 1 && (here t).tregs.vl == 32) = true := by
  decide +kernel

/-- R120, R346: `sysc 5` at steward level enters machine level at MTVEC, with code 8 and PLEV 1. -/
theorem test_sysc_enters_machine : nextIs (.sysc 5) (with0 (onTask 0 0 0) fun k => { k with level := .steward })
    (fun t => (here t).pc == 0x9000 && (here t).cregs.mepc == 0x1004 && (here t).cregs.mcause == 0x1008 && (here t).cregs.minfo == 5) = true := by
  decide +kernel

/-- R121: `eret` at machine level returns to the steward at MEPC. -/
theorem test_eret : nextIs .eret (with0 (onTask 0 0 0) fun k => { k with level := .machine, cregs := { k.cregs with mepc := 0x2468, mcause := 0x1008 } })
    (fun t => (here t).level == .steward && (here t).pc == 0x2468) = true := by decide +kernel

/-- R219: a store of 0xFFFFFF80 and a signed byte load of it; R191: the core's own scratchpad window. -/
theorem test_store_load : nextIs (.stw 2 1 0) (onTask (ownAddr 0x40) 0xFFFFFF80 0) (fun t =>
      memByte t.store.bytes (sramKey 0 0x40) == 0x80 && memByte t.store.bytes (sramKey 0 0x43) == 0xFF && memByte t.store.bytes (sramKey 0 0x44) == 0 &&
      nextIs (.ldb 5 1 0) t (fun u => getS (here u) 5 == BitVec.ofInt 64 (-128)) &&
      nextIs (.ldhu 6 1 1) (with0 t fun k => { k with level := .steward }) (fun u => (here u).pc == 0x9000 && (here u).cregs.minfo == ownAddr 0x41)) = true := by
  decide +kernel

/-- R219: a store to a cached page stands in L1 alone. -/
theorem test_store_cached : nextIs (.sth 2 3 0) (onTask 0 0xABCD 0x70082) (fun t =>
      (match (here t).l1.find (0x70082 / 128) with | some l => l.dirty == 0xC && (slice l.data 16 16 : HWord) == 0xABCD | none => false) &&
      t.store.bytes == []) = true := by decide +kernel

/-- R227: `aadd` returns the old word with its sign and leaves the sum. -/
theorem test_atomic : nextIs (.aadd ⟨.task, .rlx⟩ 5 1 0 2) (with0 (storePut (onTask (ownAddr 0x40) 5 0) (sramKey 0 0x40) 4 0xFFFFFFFE false) id)
    (fun t => getS (here t) 5 == BitVec.ofInt 64 (-2) && memByte t.store.bytes (sramKey 0 0x40) == 3) = true := by decide +kernel

/-- R136, R132: `vid` numbers the cells under IDX32; `vadd` of 1.0 and 2.0 is 3.0 in the first VL cells and leaves the others. -/
theorem test_vector : nextIs (.vid (.row 9)) (onTask 0 0 0) (fun t => elemOf (getRow (here t) 9).row.bits.toNat 32 63 == 63 && (getRow (here t) 9).row.tag == plainTag .idx32) = true ∧
    nextIs (.vaddV3 (.row 4) (.row 5) (.row 6)) (with0 (onTask 0 0 0) fun k =>
        putX 6 (allFp32 0x40000000) (putX 5 (allFp32 0x3F800000) { k with tregs := { k.tregs with vl := 8 } }))
      (fun t => elemOf (getRow (here t) 4).row.bits.toNat 32 7 == 0x40400000 && elemOf (getRow (here t) 4).row.bits.toNat 32 8 == 0) = true := by decide +kernel

/-- R140: the sum of eight cells of 1.0 in `x5` is 8.0 in cell 0 of `x4`. -/
theorem test_reduction : nextIs (.vredsum (.row 4) (.row 5)) (with0 (onTask 0 0 0) fun k =>
      putX 5 (allFp32 0x3F800000) { k with tregs := { k.tregs with vl := 8 } })
    (fun t => elemOf (getRow (here t) 4).row.bits.toNat 32 0 == 0x41000000) = true := by decide +kernel

/-- R137: 1.0 < 2.0 in all 64 cells sets every bit of `k1`. -/
theorem test_compare : nextIs (.vclt 1 (.row 5) (.row 6)) (with0 (onTask 0 0 0) fun k => putX 6 (allFp32 0x40000000) (putX 5 (allFp32 0x3F800000) k))
    (fun t => getK (here t) 1 == BitVec.allOnes 64) = true := by decide +kernel

/-- R148: truth table 8 is AND. -/
theorem test_kbool : nextIs (.kbool 3 1 2 8) (with0 (onTask 0 0 0) fun k => { k with files := { k.files with k := (k.files.k.setIfInBounds 1 0b1100).setIfInBounds 2 0b1010 } })
    (fun t => getK (here t) 3 == 0b1000) = true := by decide +kernel

/-- R255: `send` with the local selector of `q1`, and R250: `qpeek.pop` of `q4`. -/
theorem test_queues : nextIs (.send 1 2) (onTask (2 ^ 63 + 1) 77 0) (fun t => (here t).queues.sq[1]?.getD [] == [77]) = true ∧
    nextIs (.qpeekPop 5 4) (with0 (onTask 0 0 0) fun k => { k with queues := { k.queues with sq := k.queues.sq.setIfInBounds 4 [9, 8] } })
      (fun t => getS (here t) 5 == 9 && (here t).queues.sq[4]?.getD [] == [8]) = true := by decide +kernel

/-- R325, R327: a barrier of one core at core 0 completes its phase with its own arrival. -/
theorem test_barrier : nextIs (.bset 7 1 2) (onTask 0 1 0) (fun t => (barrierAt t 0 7).expect == 1 &&
      nextIs (.barr 7 1) t (fun u => (barrierAt u 0 7).phase == 1 && (barrierAt u 0 7).arrived == 0)) = true := by decide +kernel

/-- R384: LPUSH of an aligned address; R384: of an address off a multiple of 128 nothing is pushed. -/
theorem test_lpush : nextIs (.lpush 0x80) (onTask 0 0 0) (fun t => t.hub.fifo == [0x80] && t.hub.regs.lcount == 1) = true ∧
    nextIs (.lpush 0x84) (onTask 0 0 0) (fun t => t.hub.fifo == []) = true := by decide +kernel

/-- R98, R376: the timebase halts and stays at its tick. -/
theorem test_timebase : nextIs .timebaseHalt (onTask 0 0 0) (fun t => t.timeHalted && (elapse t 0).time == t.time) = true := by decide +kernel

/-- An instruction placed where the first step after reset fetches it runs: `addi s5, s0, 7`. -/
theorem test_first_instruction : stepIs (State.reset.withFetchWord 32 0x00700285) (fun t => getS (here t) 5 == 7) = true := by decide +kernel

/-! ### Witnesses: what meets the hypotheses of the statements

Each theorem below names the statement, and the clause where there are several; `cur` is core 0 throughout. -/

theorem drained_of {k : Core} (h : k.streams.rep.run = none ∧ k.streams.deferred = [] ∧ k.streams.vq = [] ∧ k.streams.mq = []) : Drained k :=
  ⟨⟨h.1, h.2.1⟩, h.2.2.1, h.2.2.2⟩

theorem quiet_of {k : Core} (h : k.streams.rep.run = none ∧ k.streams.deferred = []) : Quiet k := ⟨h.1, h.2⟩

theorem link_of {k : Core} (h : k.doing = none ∧ k.remote = none ∧ k.flits = []) : LinkFree k := ⟨h.1, h.2.1, h.2.2⟩

theorem alive_of {s : State} {c : CoreId} (h : (getCore s c).fenced = false ∧ bitAt s.hub.lostDies (dieOf c) = false) : Alive s c := ⟨h.1, h.2⟩

theorem reaches_of {s : State} {c d : CoreId} (h : (getCore s d).fenced = false ∧ lostWay s c d = none) : Reaches s c d := ⟨h.1, h.2⟩

theorem own_of {s : State} {va : DWord} {off n : Nat}
    (h : va = ownAddr off ∧ off % n = 0 ∧ off + n ≤ scratchSize (here s) ∧ (here s).fenced = false ∧ bitAt s.hub.lostDies (dieOf s.cur) = false) :
    OwnScratch s va off n := ⟨h.1, h.2.1, h.2.2.1, ⟨h.2.2.2.1, h.2.2.2.2⟩⟩

theorem hit_of {s : State} {va : DWord} (t : TlbEntry)
    (h : slice va 48 16 ≠ (0xFFFE : HWord) ∧ (here s).tables.tlb.find? (fun t => t.covers (here s).tregs.asid va) = some t) :
    TlbHit s va t.leaf t.bits := ⟨h.1, t, h.2, rfl, rfl⟩

theorem page_of {s : State} {va : DWord} {acc : Access} (t : TlbEntry)
    (h : (slice va 48 16 ≠ (0xFFFE : HWord) ∧ (here s).tables.tlb.find? (fun t => t.covers (here s).tregs.asid va) = some t) ∧
      pageAllows (here s).level acc (pageOf t.leaf t.bits) (leafBase t.leaf + va.toNat % 2 ^ t.bits) = true ∧
      aperture (leafBase t.leaf + va.toNat % 2 ^ t.bits) ≠ 1) :
    OnPage s va acc (leafBase t.leaf + va.toNat % 2 ^ t.bits) (pageOf t.leaf t.bits) := ⟨⟨_, _, hit_of t h.1, rfl, rfl⟩, h.2.1, h.2.2⟩

/-- The page of `taskCore` as its TLB holds it. -/
def tlbOf (home : Nat) : TlbEntry := { asid := 0, tenant := 0, base := 0x70000, bits := 16, leaf := leafOf home }

/-- The value of a result, if it is one. -/
def valueOf {α : Type} (r : EStateM.Result Stop State α) : Option α := match r with | .ok a _ => some a | .error _ _ => none

/-- The state of a result. -/
def stateOf {α : Type} (r : EStateM.Result Stop State α) : State := match r with | .ok _ t => t | .error _ t => t

theorem ok_of {α : Type} {r : EStateM.Result Stop State α} {a : α} (h : valueOf r = some a) : r = .ok a (stateOf r) := by
  cases r with
  | ok b t => simp only [valueOf, Option.some.injEq] at h; subst h; rfl
  | error e t => simp [valueOf] at h

theorem takes_of {s : State} {c : CoreId} (home : Option Nat)
    (h : s.hub.dups = [] ∧ s.hub.pushes = [] ∧ (getCore s c).remote = none ∧ (getCore s c).posted = []) : HomeTakes s c home :=
  ⟨fun _ m => by simp [h.1] at m, Or.inr (by simp [h.1]), fun _ => by simp [lineBusy, h.2.1, h.2.2.1, h.2.2.2]⟩

/-- Whether pushes are free (`PushFree`). -/
def freePushes (s : State) (l : List (CoreId × Push)) : Bool := (pushTargets s l).all (fun e => e.2.isNone) && linksQuiet s

theorem pushes_of {s : State} {l : List (CoreId × Push)} (h : freePushes s l = true) : PushFree s l := by
  simp only [freePushes, Bool.and_eq_true, List.all_eq_true] at h
  exact ⟨fun e m => by simpa using h.1 e m, h.2⟩

/-- Whether a release, an acquire or a fence is free (`SyncFree`). -/
def freeSync (s : State) (c : CoreId) (op : SyncOp) : Bool := freePushes s (op.pushes s c) && (syncTurn s c op).2.isNone

theorem sync_of {s : State} {c : CoreId} {op : SyncOp} (h : freeSync s c op = true) : SyncFree s c op := by
  simp only [freeSync, Bool.and_eq_true, Option.isNone_iff_eq_none] at h
  exact ⟨pushes_of h.1, h.2⟩

/-- Whether a release of a core is free. -/
def freeRelease (s : State) (c : CoreId) (sc : Scope) (r : Regions) : Bool := freeSync s c (.rel sc r)

theorem free_of {s : State} {c : CoreId} {sc : Scope} {r : Regions} (h : freeRelease s c sc r = true) : ReleaseFree s c sc r := sync_of h

theorem clean_of {s : State} (a n : Nat) (h : s.store.psn = []) : CleanAt s a n := fun _ _ _ m => by simp [h] at m

theorem witness_DecodeOfEncode : ∃ (i : Instr) (n w : Nat), i.wellFormed = true ∧ encode i = some (n, w) :=
  ⟨.vaddV3 (.chan 7) (.que 15) (.dia 63), 4, 0xBFEFF703, by decide +kernel⟩

theorem witness_DecodeExact : ∃ (b : Byte) (bs : List Byte) (i : Instr) (rest : List Byte), decode (b :: bs) = .ok (i, rest) ∧ b.toNat % 2 = 0 :=
  ⟨0x00, [0x00, 0xFF], .vaddC2 false 0 false 0, [0xFF], rfl, by decide⟩

/-- A fresh line of the page in L1 with a word at its offset 8. -/
def codeLine (w : Nat) : L1Line :=
  { data := BitVec.ofNat 1024 (w * 2 ^ 64), dirty := 0, psn := 0, region := 0, owned := false, stale := false, filled := 0, lease := 65536,
    lodge := false, pinned := false, ac := 0, writer := 0, bad := 0 }

/-- Core 0 about to fetch a word at 0x70088 from its L1. -/
def fetching (w : Nat) : State :=
  with0 (onTask 0 0 0) fun k => { k with pc := 0x70088, l1 := k.l1.put (lineOf 0x70088) (codeLine w) }

/-- A word that decodes (`add s3, s2, s3`), and one that does not (major 31). -/
theorem witness_StepRunsFetched : ∀ w ∈ [0x00062181, 0x0000007D],
    let s := fetching w
    s.agenda = [] ∧ idleCore s (here s) = false ∧ dueCause (here s) = none ∧ ¬((here s).ending = true ∧ (here s).level = .task) ∧
    valueOf (fetchWord s.cur (here s).pc (beginAgain s s.cur)) = some (w, 4) ∧ (decodeTableWord 32 w).isSome = decide (w = 0x00062181) ∧
    (here s).answered.find 0 = none ∧ (here (stateOf (fetchWord s.cur (here s).pc (beginAgain s s.cur)))).ctrs.pmen = 0 := by decide +kernel

theorem witness_FetchReadsLine : ∀ w ∈ [0x00062181, 0x00001842],
    ∃ (s : State) (va e : DWord) (bits pa : Nat) (l : L1Line),
      TlbHit s va e bits ∧ TlbHit s (va + 2) e bits ∧ pa = leafBase e + va.toNat % 2 ^ bits ∧ pa + 2 = leafBase e + (va + 2).toNat % 2 ^ bits ∧
      pa % 128 ≤ 124 ∧ aperture pa ≠ 1 ∧ pageAllows (here s).level .fetch (pageOf e bits) pa = true ∧ cachedIn pa (pageOf e bits) = true ∧
      (here s).l1.find (lineOf pa) = some l ∧ l.fresh s.time = true := by
  intro w hw
  refine ⟨fetching w, 0x70088, leafOf 0, 16, 0x70088, codeLine w, hit_of (tlbOf 0) ?_, hit_of (tlbOf 0) ?_, ?_⟩ <;>
    (revert w; decide +kernel)

/-- The boundary n = 0 and n = 63 of `clz` and `ctz`. -/
theorem witness_IntegerArithmetic_counts :
    (∀ p ∈ [(2 ^ 63, 0), (1, 63)], p.1 < 2 ^ (64 - p.2) ∧ Nat.testBit p.1 (63 - p.2) = true) ∧
    (∀ p ∈ [(1, 0), (2 ^ 63, 63)], p.1 % 2 ^ p.2 = 0 ∧ Nat.testBit p.1 p.2 = true) ∧ getS (here (onTask (2 ^ 63) 0 0)) 1 = 2 ^ 63 ∧
    getS (here (onTask 0 0 0)) 1 = 0 := by decide +kernel

theorem witness_BranchesAndJumps_conditions : ∀ w ∈ [0x0000030D, 0x0000038D], w < 2 ^ 32 ∧ w % 128 = 13 ∧ 6 ≤ w / 128 % 8 ∧ valueOf (fetchWord 0 (here (fetching w)).pc (beginAgain (fetching w) 0)) = some (w, 4) :=
  by decide +kernel

/-- An even and an odd target. -/
theorem witness_BranchesAndJumps_targets : ∀ p ∈ [(0x2000, 0), (0x2001, 1)],
    (BitVec.ofInt 64 ((getS (here (onTask (BitVec.ofNat 64 p.1) 0 0)) 1).toInt + (0 : BitVec 12).toInt)).toNat % 2 = p.2 := by decide +kernel

theorem witness_CommitFrames : (here (onTask 0 0 0)).ctrs.pmen = 0 := by decide +kernel

/-- NaN and infinity of either format, so that each clause of one, two or no NaN operands is met. -/
theorem witness_NanOperands :
    (let nan64 (x : Nat) : Prop := x / 2 ^ 52 % 2 ^ 11 = 2047 ∧ x % 2 ^ 52 ≠ 0
     let s := onTask 0x7FF0000000000001 0xFFFFFFFFFFFFFFFF 0x7FF0000000000000
     nan64 (getS (here s) 1).toNat ∧ nan64 (getS (here s) 2).toNat ∧ ¬nan64 (getS (here s) 3).toNat) ∧
    (let nan32 (x : Nat) : Prop := x / 2 ^ 23 % 2 ^ 8 = 255 ∧ x % 2 ^ 23 ≠ 0
     let s := onTask 0x7F800001 0xFFFFFFFF 0xFF800000
     nan32 ((getS (here s) 1).toNat % 2 ^ 32) ∧ nan32 ((getS (here s) 2).toNat % 2 ^ 32) ∧ ¬nan32 ((getS (here s) 3).toNat % 2 ^ 32)) := by decide +kernel

/-- Operands that decode to a finite value, to the infinities and to NaN. -/
theorem witness_ConversionResults :
    ([0x3FF8000000000000, 0x7FF0000000000000, 0xFFF0000000000000, 0x7FF8000000000000].map (binOf .fp64).decode) =
      [.fin false 0x18000000000000 (-52), .inf false, .inf true, .nan] ∧
    ([0x3FC00000, 0x7F800000, 0xFF800000, 0x7FC00000].map (binOf .fp32).decode) = [.fin false 0xC00000 (-23), .inf false, .inf true, .nan] := by decide +kernel

theorem witness_FloatsAndCompares :
    (binOf .fp32).decode ((getS (here (onTask 0xFF800001 0x80000000 0)) 1).toNat % 2 ^ 32) = .nan ∧
    (binOf .fp32).decode ((getS (here (onTask 0xFF800001 0x80000000 0)) 2).toNat % 2 ^ 32) = .fin true 0 (-149) := by decide +kernel

/-- A task-level, a steward and a machine state, for the registers that each may and may not read and write. -/
theorem witness_SpecialAccess :
    closedAt .task .vl = false ∧ closedAt .task .tvec = true ∧ closedAt .steward .tvec = false ∧ closedAt .steward .mepc = true ∧
    closedAt .machine .mepc = false ∧ openAt .task .pmask = true ∧ openAt .task .prot = false ∧ openAt .steward .rbase = true ∧
    openAt .steward .tenant = false ∧ openAt .steward .lease2 = true ∧ openAt .machine .tenant = true ∧ openAt .machine .foot = false := by decide

theorem witness_SpecialAccess_drained : Drained (here (onTask 0 0 0)) := drained_of (by decide +kernel)

theorem witness_SpecialAccess_rbase : ∃ s : State, openAt (here s).level .rbase = true ∧ (∀ n, pinValid (pinOf (here s) n) = false) ∧
    (∀ n, (getRow (here s) n).res ≠ .dirty) ∧ (∀ q < 4, scaleRes (here s) q ≠ .dirty) ∧ (∀ i : Fin 64, bitAt ((here s).files.pins[i]) 287 = false) :=
  ⟨with0 (onTask 0 0 0) fun k => { k with level := .steward }, by decide +kernel⟩

theorem witness_SpecialAccess_levels : ∃ s t : State, openAt (here s).level .lease2 = true ∧ openAt (here t).level .tenant = true :=
  ⟨with0 (onTask 0 0 0) fun k => { k with level := .steward }, with0 (onTask 0 0 0) fun k => { k with level := .machine }, by decide +kernel⟩

/-- Machine level, at which no lodge descriptor stands in the way of a change of the tenant. -/
theorem witness_SpecialAccess_tenant : let s := with0 (onTask 0 0 0) fun k => { k with level := .machine }
    openAt (here s).level .tenant = true ∧ valueOf (eachOf (lodgeHomes s s.cur) (fun a => reachHome s.cur (lineOf a) 0) s) = some () := by decide +kernel

/-- A steward with a machine handler and one without. -/
theorem witness_SoftTrapsAndEntry : ∃ s t u : State, (here s).level = .steward ∧ (here s).cregs.mtvec ≠ 0 ∧ inHandler (here s) = false ∧
    (here t).level = .steward ∧ (here t).cregs.mtvec = 0 ∧ (here u).level = .machine :=
  ⟨with0 (onTask 0 0 0) fun k => { k with level := .steward },
    with0 (onTask 0 0 0) fun k => { k with level := .steward, cregs := { k.cregs with mtvec := 0 } },
    with0 (onTask 0 0 0) fun k => { k with level := .machine }, by decide +kernel⟩

theorem witness_TrapEntry_handler : ∃ (s : State) (c : CoreId),
    let k := getCore s c
    k.level = .task ∧ inHandler k = true ∧ k.unbound = false ∧ k.queues.outPending = [] ∧ k.cregs.tvec ≠ 0 ∧ k.cregs.tvec.toNat % 2 = 0 ∧
    canStop k = true ∧ k.cregs.emerg = 0 ∧ k.ctrs.fq.size = 0 :=
  ⟨with0 (onTask 0 0 0) fun k => { k with task := some { loneTask with handler := some 9 } }, 0, by decide +kernel⟩

/-- A handler's trap with TVEC set, 0 and odd: its stop succeeds. -/
def handlerAt (tv : Nat) : State :=
  onCore { taskCore 0 0 0 0 with task := some { loneTask with handler := some 9 }, cregs := { CoreRegs.reset with tvec := BitVec.ofNat 64 tv, mtvec := 0x9000 } }

theorem witness_TrapEntry_levels : ∀ tv ∈ [0x8000, 0, 0x8001],
    (getCore (handlerAt tv) 0).level = .task ∧ canStop (getCore (pumpSends (handlerAt tv) 0) 0) = true ∧
    (getCore (pumpSends (handlerAt tv) 0) 0).cregs.tvec = BitVec.ofNat 64 tv ∧ (getCore (pumpSends (handlerAt tv) 0) 0).cregs.mtvec ≠ 0 := by decide +kernel

theorem witness_TrapEntry_stop : (stopTask (pumpSends (handlerAt 0x8000) 0) 0).2 = .saved false none := by decide +kernel

/-- Each cause pending alone at task level, and a level at which none is taken. -/
theorem witness_PendingCausesInOrder :
    (∀ p ∈ [{ Pending.none with dieLost := some 3 }, { Pending.none with gangBroken := some 5 }, { Pending.none with protMismatch := some 7 },
        { Pending.none with poison := some (.matrix, 9) }, { Pending.none with budget := true }],
      (dueCause { taskCore 0 0 0 0 with pend := p }).isSome = true) ∧ ({ taskCore 0 0 0 0 with level := .steward } : Core).level ≠ .task := by decide +kernel

theorem witness_ReturnsAndEnds : ∃ s t u v w o : State,
    ((here s).level = .task) ∧ ((here t).level = .steward ∧ (here t).tregs.epc.toNat % 2 = 1) ∧
    ((here u).level = .machine ∧ (here u).cregs.mepc.toNat % 2 = 0 ∧ (here u).cregs.mcause.toNat / 4096 = 1) ∧
    ((here v).level = .steward ∧ (here v).tregs.epc.toNat % 2 = 0 ∧ (here v).task = none) ∧
    ((here w).level = .task ∧ (here w).ending = true ∧ (here w).halted = false ∧ dueCause (here w) = none) ∧
    ((here o).level = .machine ∧ (here o).cregs.mepc.toNat % 2 = 1) :=
  ⟨onTask 0 0 0, with0 (onTask 0 0 0) fun k => { k with level := .steward, tregs := { k.tregs with epc := 0x5001 } },
    with0 (onTask 0 0 0) fun k => { k with level := .machine, cregs := { k.cregs with mepc := 0x6000, mcause := 0x1008 } },
    with0 (onTask 0 0 0) fun k => { k with level := .steward, task := none }, with0 (onTask 0 0 0) fun k => { k with ending := true },
    with0 (onTask 0 0 0) fun k => { k with level := .machine, cregs := { k.cregs with mepc := 0x6001 } }, by decide +kernel⟩

/-- A steward's end with links that can lose a flit and with none; and one that waits for the reply of a push. -/
theorem witness_ReturnsAndEnds_links : ∀ p ∈ [([], true), ([true], false), ([false], false)],
    let s := with0 (onTask 0 0 0) fun k => { k with level := .steward, flits := p.1, l1 := k.l1.put (lineOf 0x70080) { codeLine 5 with dirty := 0xFF } }
    (here s).level = .steward ∧ linksQuiet s = p.2 ∧ releaseLeft (release s 0 .sys allRegions) 0 .sys allRegions = decide (p.1 = [false]) := by decide +kernel

/-- The queue empty, with a mask of bit 0, of bit 63, and of none; and with an entry in it. -/
theorem witness_MasksAndLengths :
    (∀ p ∈ [(1, 0), (2 ^ 63, 63)],
      let s := with0 (onTask 0 0 0) fun k => { k with files := { k.files with k := k.files.k.setIfInBounds 1 (BitVec.ofNat 64 p.1) } }
      (here s).streams.rep.run = none ∧ (here s).streams.vq = [] ∧ (getK (here s) 1).toNat.testBit p.2 = true ∧ (getK (here s) 1).toNat % 2 ^ p.2 = 0) ∧
    getK (here (onTask 0 0 0)) 1 = 0 ∧
    (let s := with0 (onTask 0 0 0) fun k => { k with streams := { k.streams with vq := [postedEntry k (.vclr (.row 0))] } }
     (here s).streams.rep.run = none ∧ (here s).streams.vq ≠ []) := by decide +kernel

/-- The last doubleword of the partition, and the last byte. -/
theorem witness_ScratchAccesses : Drained (here (onTask (ownAddr 0x9FFF8) 0 0)) ∧
    OwnScratch (onTask (ownAddr 0x9FFF8) 0 0) (eaOf (here (onTask (ownAddr 0x9FFF8) 0 0)) 1 0) 0x9FFF8 8 ∧
    OwnScratch (onTask (ownAddr 0x9FFF8) 0 0) (eaOf (here (onTask (ownAddr 0x9FFF8) 0 0)) 1 7) 0x9FFFF 1 ∧
    CleanAt (onTask (ownAddr 0x9FFF8) 0 0) (sramKey 0 0x9FFF8) 8 :=
  ⟨drained_of (by decide +kernel), own_of (by decide +kernel), own_of (by decide +kernel), clean_of _ _ (by decide +kernel)⟩

/-- An aligned address of the page with a fresh line of it in L1, for reading and for writing. -/
theorem witness_CachedAccesses : ∃ (s : State) (pa : Nat) (pg : Page) (l : L1Line), Drained (here s) ∧ OnPage s (eaOf (here s) 3 0) .read pa pg ∧
    OnPage s (eaOf (here s) 3 0) .write pa pg ∧ cachedIn pa pg = true ∧ (here s).l1.find (lineOf pa) = some l ∧ l.fresh s.time = true ∧ l.psn = 0 ∧
    (eaOf (here s) 3 0).toNat % 8 = 0 ∧ pa % 8 = 0 ∧ (roomL1 s s.cur (lineOf pa) l.lodge).cur = s.cur ∧ l1Place (here s) (lineOf pa) l.lodge = true ∧
    (here s).l1.length + (here s).homes.length < 32 * (256 - (here s).tregs.bndc.toNat) :=
  ⟨with0 (onTask 0 0 0x70088) fun k => { k with l1 := k.l1.put (lineOf 0x70088) (codeLine 5) }, _, _, codeLine 5, drained_of (by decide +kernel),
    page_of (tlbOf 0) (by decide +kernel), page_of (tlbOf 0) (by decide +kernel), by decide +kernel⟩

/-- A place in the scratchpad, to which both a read and a write succeed. -/
theorem witness_AccessesAnywhere : ∃ (s s1 s2 s3 : State) (loc : Loc) (v : Nat), Drained (here s) ∧ (eaOf (here s) 1 0).toNat % 4 = 0 ∧
    translate s.cur (eaOf (here s) 1 0) 4 .read s = .ok loc s1 ∧ translate s.cur (eaOf (here s) 1 0) 4 .write s = .ok loc s1 ∧
    readAt s.cur loc 4 (eaOf (here s) 1 0) s1 = .ok (v, false) s2 ∧ writeAt s.cur loc 4 77 false (eaOf (here s) 1 0) s1 = .ok () s3 :=
  ⟨onTask (ownAddr 64) 0 0, onTask (ownAddr 64) 0 0, onTask (ownAddr 64) 0 0, _, .sram 0 64 0 none, 0, drained_of (by decide +kernel), by decide +kernel, rfl, rfl, rfl,
    ok_of (by decide +kernel)⟩

/-- A poisoned word in the scratchpad. -/
theorem witness_AccessesAnywhere_poison :
    let s := storePut (onTask (ownAddr 64) 0 0) (sramKey 0 64) 4 77 true
    Drained (here s) ∧ translate s.cur (eaOf (here s) 1 0) 4 .read s = .ok (.sram 0 64 0 none) s ∧
    valueOf (readAt s.cur (.sram 0 64 0 none) 4 (eaOf (here s) 1 0) s) = some (77, true) :=
  ⟨drained_of (by decide +kernel), rfl, by decide +kernel⟩

/-- An address off by one, one past the partition, and the waits: a replay, a waiting release, and a posted store to the bytes. -/
theorem witness_AccessesThatStop_faults : Drained (here (onTask (ownAddr 0x41) 0 0)) ∧ (eaOf (here (onTask (ownAddr 0x41) 0 0)) 1 0).toNat % 2 ≠ 0 ∧
    Alive (onTask (ownAddr 0xA0000) 0 0) 0 ∧ (∀ n ∈ [1, 2, 4, 8], 0xA0000 % n = 0 ∧ scratchSize (here (onTask (ownAddr 0xA0000) 0 0)) < 0xA0000 + n) ∧
    0xA0000 < 2 ^ 42 :=
  ⟨drained_of (by decide +kernel), by decide +kernel, alive_of (by decide +kernel), by decide +kernel, by decide⟩

/-- A core with a row store to the own window posted and waiting. -/
def storing : State := with0 (onTask (ownAddr 0x80) 0 0) fun k => { k with streams := { k.streams with lazyV := true, nextSeq := 2, vq := [postedEntry k (.vst .fp32 (.row 5) 1 0)] } }

theorem witness_AccessesThatStop_waits :
    (∃ s : State, (here s).streams.rep.run ≠ none) ∧ (∃ s : State, (here s).streams.deferred ≠ []) ∧
    (∃ e ∈ queued (here storing), ∃ a n, spansOf (here storing) e false = ([], [.bytes a n]) ∧
      Span.meets 0 (.bytes (eaOf (here storing) 1 0) 4) (.bytes a n) = true) :=
  ⟨⟨with0 (onTask 0 0 0) fun k => { k with streams := { k.streams with rep := { k.streams.rep with
      run := some { iter := Vector.replicate 6 0, j := 0, env := (postedEntry k .lrun).env, ipc := 0, stop := false } } } }, by decide +kernel⟩,
    ⟨with0 (onTask 0 0 0) fun k => { k with streams := { k.streams with deferred := [{ op := .rel .sys allRegions, seq := 1 }] } }, by decide +kernel⟩,
    postedEntry (here (onTask (ownAddr 0x80) 0 0)) (.vst .fp32 (.row 5) 1 0), by decide +kernel, ownAddr 0x80, 256, by decide +kernel⟩

/-- Whether what the order of an atomic pushes is free (`OrderFree`). -/
def freeOrder (s : State) (so : ScopeOrder) : Bool :=
  freeRelease s s.cur so.scope allRegions && !bumpsLeft (atomicReleased s so) s.cur allRegions &&
    freePushes (atomicReleased s so) (acquirePushes (atomicReleased s so) s.cur so.scope allRegions)

theorem order_of {s : State} {so : ScopeOrder} (h : freeOrder s so = true) : OrderFree s so := by
  simp only [freeOrder, Bool.and_eq_true, Bool.not_eq_true'] at h
  exact ⟨fun _ => ⟨free_of h.1.1, h.1.2⟩, fun _ => pushes_of h.2⟩

/-- Every scope and order leaves the link of an idle core free. -/
theorem witness_ScratchAtomics : ∀ sc ∈ [Scope.task, .sys], ∀ o ∈ [Order.rlx, .sc],
    let s := onTask (ownAddr 0x9FFF8) 5 0
    let s1 := atomicTicket (atomicReleased s ⟨sc, o⟩) ⟨sc, o⟩
    Drained (here s) ∧ LinkFree (here s) ∧ LinkFree (getCore s1 s.cur) ∧ s1.cur = s.cur ∧ HomeTakes s1 s.cur none ∧ OrderFree s ⟨sc, o⟩ ∧
    OwnScratch s (getS (here s) ((1 : BitVec 3).setWidth 5) + (0 : BitVec 3).setWidth 64 * 4) 0x9FFF8 8 := by
  intro sc h o g
  refine ⟨drained_of (by decide +kernel), link_of (by decide +kernel), link_of ?_, ?_, takes_of none ?_, order_of ?_, own_of (by decide +kernel)⟩ <;>
    (simp only [List.mem_cons, List.not_mem_nil, or_false] at h g; obtain rfl | rfl := h <;> obtain rfl | rfl := g <;> decide +kernel)

theorem witness_ScratchAtomics_clean : ∀ sc ∈ [Scope.task, .sys],
    CleanAt (afterIssue (atomicReleased (onTask (ownAddr 0x9FFF8) 5 0) ⟨sc, .rlx⟩) 0) (sramKey 0 0x9FFF8) 8 := fun _ _ => clean_of _ _ rfl

/-- Where the core itself performs the atomic. -/
theorem witness_AtomicsAnywhere : ∃ (s s0 s3 : State) (loc : Loc) (old : Nat), Drained (here s) ∧ (getS (here s) 1 + 0).toNat % 4 = 0 ∧
    translate s.cur (getS (here s) 1 + 0) 4 .both s = .ok loc s0 ∧ s0.cur = s.cur ∧ declared (getCore s0 s.cur) loc = none ∧
    OrderFree s0 ⟨.clu, .sc⟩ ∧ rmwRemote (getCore s0 s.cur) s.cur loc .clu = false ∧
    rmwAt s.cur loc .clu 4 (getS (here s) 1 + 0) (cleanRmw fun x => x + 5) (atomicTicket (atomicReleased s0 ⟨.clu, .sc⟩) ⟨.clu, .sc⟩) = .ok (old, false) s3 ∧
    old < 2 ^ 32 :=
  ⟨onTask (ownAddr 64) 5 0, onTask (ownAddr 64) 5 0, _, .sram 0 64 0 none, 0, drained_of (by decide +kernel), by decide +kernel, rfl, rfl, by decide +kernel,
    order_of (by decide +kernel), by decide +kernel, ok_of (by decide +kernel), by decide⟩

/-- The page of `taskCore` with a defined word at its offset 0x88 in HBM. -/
def hbmWord (v : Nat) : State :=
  let s := onTask 0 5 0x70088
  hubStore { s with store := { s.store with defs := [(lineOf 0x70088, BitVec.allOnes 32)] } } 0x70088 4 v

/-- Where the word's home performs it. -/
theorem witness_AtomicsAnywhere_remote : ∃ (s s0 sr s3 : State) (loc : Loc) (old : Nat), Drained (here s) ∧ (getS (here s) 3 + 0).toNat % 4 = 0 ∧
    translate s.cur (getS (here s) 3 + 0) 4 .both s = .ok loc s0 ∧ s0.cur = s.cur ∧ declared (getCore s0 s.cur) loc = none ∧
    OrderFree s0 ⟨.pkg, .ar⟩ ∧ rmwRemote (getCore s0 s.cur) s.cur loc .pkg = true ∧
    atomicReach (getCore s0 s.cur) s.cur loc .pkg (getS (here s) 3 + 0) (atomicReleased s0 ⟨.pkg, .ar⟩) = .ok () sr ∧ sr.cur = s.cur ∧
    LinkFree (getCore s0 s.cur) ∧ LinkFree (getCore sr s.cur) ∧ HomeTakes sr s.cur (atomicHome (getCore s0 s.cur) loc .pkg) ∧
    rmwAt s.cur loc .pkg 4 (getS (here s) 3 + 0) (cleanRmw fun x => x + 5) (afterIssue (atomicTicket sr ⟨.pkg, .ar⟩) s.cur) = .ok (old, false) s3 ∧
    old < 2 ^ 32 :=
  ⟨hbmWord 2, hbmWord 2, _, _, .mem 0x70088 (pageOf (leafOf 0) 16), 2, drained_of (by decide +kernel), by decide +kernel, ok_of (by decide +kernel), rfl, by decide +kernel,
    order_of (by decide +kernel), by decide +kernel, ok_of (by decide +kernel), by decide +kernel, link_of (by decide +kernel), link_of (by decide +kernel),
    takes_of _ (by decide +kernel), ok_of (by decide +kernel), by decide⟩

theorem unwatched_of {o : Option DWord} (h : (o.all fun r => !bitAt r 32) = true) : ∀ r, o = some r → bitAt r 32 = false := by
  rintro r rfl
  simpa using h

/-- A region declared for add on INT32, which the hub lists and does not watch. -/
theorem witness_AtomicsOnPartials : ∃ (s : State) (pa : Nat) (pg : Page) (opc : BitVec 3), Drained (here s) ∧ (getS (here s) 3).toNat % 4 = 0 ∧
    OnPage s (getS (here s) 3) .both pa pg ∧ declared (here s) (.mem pa pg) = some (.add, opc, .int32) ∧ (∀ r, s.hub.regs.regions.find pg.region.toNat = some r → bitAt r 32 = false) ∧
    (s.hub.regs.regions.find pg.region.toNat).isSome = true :=
  ⟨modRegs (with0 (onTask 0 0 0x70088) fun k => { k with tables := { k.tables with decls := [((pageOf (leafOf 0) 16).region.toNat, (0, 6))] } }) fun h =>
      { h with regions := [((pageOf (leafOf 0) 16).region.toNat, BitVec.ofNat 64 (2 ^ 33 + 6 * 2 ^ 37))] }, _, _, 0,
    drained_of (by decide +kernel), by decide +kernel, page_of (tlbOf 0) (by decide +kernel), by decide +kernel, unwatched_of (by decide +kernel), by decide +kernel⟩

/-- Idle, every form is performed at once; with the posted store a release waits. -/
theorem witness_Synchronization : Drained (here (onTask 0 0 0)) ∧ (Instr.rel .sys true 0).wellFormed = true ∧ (Instr.acq .clu false 255).wellFormed = true ∧
    SyncFree (onTask 0 0 0) 0 (.rel .sys allRegions) ∧ SyncFree (onTask 0 0 0) 0 (.acq .clu (BitVec.ofNat 256 (2 ^ 255))) ∧
    Quiet (here storing) ∧ (∃ e ∈ queued (here storing), touchesMemory (here storing) e = true ∧ postedBefore e.seq (here storing).streams.nextSeq = true) :=
  ⟨drained_of (by decide +kernel), by decide, by decide, sync_of (by decide +kernel), sync_of (by decide +kernel), quiet_of (by decide +kernel), by decide +kernel⟩

/-- An acquire with only a store posted before it, and one behind a posted load. -/
theorem witness_Synchronization_acquires : ((here storing).streams.deferred = [] ∧ (∀ e ∈ queued (here storing), readsMemory (here storing) e = false)) ∧
    SyncFree storing 0 (.acq .pkg allRegions) ∧
    (∃ s : State, (here s).streams.deferred = [] ∧
      ∃ e ∈ queued (here s), readsMemory (here s) e = true ∧ postedBefore e.seq (here s).streams.nextSeq = true) :=
  ⟨by decide +kernel, sync_of (by decide +kernel),
    with0 (onTask (ownAddr 0x80) 0 0) fun k => { k with streams := { k.streams with nextSeq := 2, vq := [postedEntry k (.vld .fp32 (.row 5) 1 0)] } }, by decide +kernel⟩

/-- A core with a dirty line, whose memory die is lost, or not ready, or whose page a migration moves. -/
def dirtyTo (h : Hub → Hub) : State :=
  let s := with0 (onTask 0 0 0) fun k => { k with l1 := k.l1.put (lineOf 0x70080) { codeLine 5 with dirty := 0xFF } }
  { s with hub := h s.hub }

theorem witness_Synchronization_refused : ∀ p ∈ [(dirtyTo fun h => { h with lostDies := 2 ^ 16 * 255 }, Refused.die (16 + mdOf (lineOf 0x70080))),
      (dirtyTo fun h => { h with regs := { h.regs with ready := { h.regs.ready with md := 0 } } }, .notReady),
      (dirtyTo fun h => { h with moving := some (lineOf 0x70080 / 512, false) }, .held)],
    ((here p.1).streams.rep.run = none ∧ (here p.1).streams.deferred = [] ∧ (here p.1).streams.vq = [] ∧ (here p.1).streams.mq = []) ∧
    p.1.hub.pushes = [] ∧ (releaseTargets p.1 p.1.cur .sys allRegions).find? (fun e => e.2.isSome) = some (lineOf 0x70080, some p.2) := by decide +kernel

/-- The same line, whose cluster home is fenced: of the own gang, and of no gang. -/
def homeFenced (gang : Bool) : State :=
  setCore (dirtyTo id) (clusterHome 0 (lineOf 0x70080)) { Core.reset with fenced := true, lost := if gang then some loneTask else none }

theorem witness_Synchronization_fenced : ∀ gang ∈ [true, false],
    let s := homeFenced gang
    let h := clusterHome 0 (lineOf 0x70080)
    ((here s).streams.rep.run = none ∧ (here s).streams.deferred = [] ∧ (here s).streams.vq = [] ∧ (here s).streams.mq = []) ∧ s.hub.pushes = [] ∧
    (releaseTargets s 0 .clu allRegions).find? (fun e => e.2.isSome) = some (lineOf 0x70080, some (.fenced h)) ∧
    fencedCause s 0 h = (if gang then .gangBroken else .protect) := by decide +kernel

/-- A core with a dirty line, with the fates of its flits and the pushes that await their replies. -/
def pushing (flits : List Bool) (l : List PushMsg) : State :=
  let s := with0 (dirtyTo id) fun k => { k with flits := flits }
  { s with hub := { s.hub with pushes := l } }

/-- The push of that line, outstanding. -/
def pushOut (failed : Bool) : PushMsg :=
  { core := 0, cause := 0, push := .line (lineOf 0x70080), load := Payload.none, seq := 9, way := Transit.first 0, applied := false, held := false, failed := failed }

/-- A release before the ticket of a fence that is over, and one whose push is still to come. -/
theorem witness_Synchronization_tickets : releaseLeft (release (pushing [] []) 0 .pkg allRegions) 0 .pkg allRegions = false ∧
    releaseLeft (release (pushing [false] []) 0 .pkg allRegions) 0 .pkg allRegions = true := by decide +kernel

theorem witness_Synchronization_lost :
    (∀ s ∈ [pushing [false] [], pushing [] [pushOut false], pushing [] [pushOut true]],
      ((here s).streams.rep.run = none ∧ (here s).streams.deferred = [] ∧ (here s).streams.vq = [] ∧ (here s).streams.mq = []) ∧
      (releaseTargets s 0 .sys allRegions).all (fun e => e.2.isNone) = true ∧ allPushes s 0 .sys allRegions = [(0, .line (lineOf 0x70080))] ∧
      (Push.line (lineOf 0x70080)).sends s 0 = true) ∧
    (let s := pushing [false] []
     lineBusy s 0 (lineOf 0x70080) = false ∧ (here s).flits = [false] ∧ seqBusy s 0 (here s).seq = false) ∧
    (let s := pushing [] [pushOut false]
     pushPending s 0 = true ∧ lineBusy s 0 (lineOf 0x70080) = true ∧ ∀ m ∈ s.hub.pushes, m.failed = false) ∧
    ((pushing [] [pushOut true]).hub.pushes.find? fun m => m.failed && (m.core == 0 || m.cause == 0)) = some (pushOut true) := by decide +kernel

/-- A partition of 32 lines that are all dirty and whose pushes are outstanding, before a store to another line of the page. -/
def crowded : State :=
  let s := with0 (onTask 0 5 0x71000) fun k => { k with
    tregs := { k.tregs with bndc := 255 }, l1 := (List.range 32).map fun i => (lineOf 0x70000 + i, { codeLine 5 with dirty := 1 }) }
  { s with hub := { s.hub with pushes := (List.range 32).map fun i => { pushOut false with push := .line (lineOf 0x70000 + i) } } }

theorem witness_CachedAccesses_crowded : ∃ (pa : Nat) (pg : Page), Drained (here crowded) ∧ OnPage crowded (eaOf (here crowded) 3 0) .write pa pg ∧
    cachedIn pa pg = true ∧ pa % 8 = 0 ∧ l1Place (getCore (roomL1 crowded 0 (lineOf pa) false) 0) (lineOf pa) false = false ∧
    roomRefused (roomL1 crowded 0 (lineOf pa) false) 0 false = none :=
  ⟨_, _, drained_of (by decide +kernel), page_of (tlbOf 0) (by decide +kernel), by decide +kernel⟩

/-- What a release leaves of the dirty line of `pushing`: the dirty bytes, how many pushes are outstanding, and PC. -/
def afterRelease (s : State) : Option (Option (BitVec 128) × Nat × DWord) :=
  match exec (.rel .sys true 0) s with
  | .next t => some (((here t).l1.find (lineOf 0x70080)).map L1Line.dirty, t.hub.pushes.length, (here t).pc)
  | _ => none

/-- R376, R377: a push whose request is dropped has not happened; one whose reply is dropped has, and the release waits for both. -/
theorem test_release_push_lost :
    afterRelease (pushing [false] []) = some (some 0xFF, 1, 0x1000) ∧ afterRelease (pushing [true, false] []) = some (some 0, 1, 0x1000) ∧
      afterRelease (pushing [true, true] []) = some (some 0, 0, 0x1004) := by decide +kernel

/-- The whole line of a HOME 00 page, unowned and not held; owned and held; and a page of HOME 01. -/
def ownedLine : State :=
  let s := with0 (onTask 128 0 0x70080) fun k => { k with l1 := k.l1.put (lineOf 0x70080) { codeLine 0 with owned := true } }
  { s with hub := { s.hub with owners := [(lineOf 0x70080, 0)] } }

theorem witness_OwnershipOfLines :
    (∀ s ∈ [onTask 128 0 0x70080, ownedLine, onCore (taskCore 1 128 0 0x70080)],
      ((here s).streams.rep.run = none ∧ (here s).streams.deferred = [] ∧ (here s).doing = none ∧ (here s).remote = none ∧ (here s).flits = []) ∧
      (getS (here s) 3).toNat % 128 + (getS (here s) 1).toNat ≤ 128 ∧ homeRefuses s (lineOf 0x70080) = none ∧ s.hub.dups = []) ∧
    ownsLine (onTask 128 0 0x70080) 0 (lineOf 0x70080) = false ∧ holdsLine (onTask 128 0 0x70080) 0 (lineOf 0x70080) = false ∧
    ownsLine ownedLine 0 (lineOf 0x70080) = true ∧ holdsLine ownedLine 0 (lineOf 0x70080) = true := by decide +kernel

/-- What meets the homes' own clauses: no copy of the line in the cluster home, no other owner, and a place for it. -/
theorem witness_OwnershipOfLines_homes :
    (∀ s ∈ [onTask 128 0 0x70080, ownedLine],
      let w := afterIssue (reached s 0 (lineOf 0x70080)) 0
      otherOwner w (some 0) (lineOf 0x70080) = none ∧ (getCore w (clusterHome 0 (lineOf 0x70080))).homes.find (lineOf 0x70080) = none ∧
      (sliceOwners w (lineOf 0x70080)).length < 4096 ∧ l1Place (getCore w 0) (lineOf 0x70080) false = true ∧ homeOut w 0 (lineOf 0x70080) = false ∧
      isForeign (lineOf 0x70080) = false) ∧
    (valueOf (ownHome 0 .pkg (lineOf 0x70080) (pageOf (leafOf 0) 16) 0x70080 (afterIssue (reached (onTask 128 0 0x70080) 0 (lineOf 0x70080)) 0))).isSome = true ∧
    (valueOf (disownHome 0 .pkg (lineOf 0x70080) (afterIssue (reached ownedLine 0 (lineOf 0x70080)) 0))).isSome = true := by decide +kernel

theorem witness_OwnershipOfLines_takes : HomeTakes (reached ownedLine 0 (lineOf 0x70080)) 0 (some (sliceOf (lineOf 0x70080))) :=
  takes_of _ (by decide +kernel)

theorem witness_OwnershipOfLines_pages :
    (∃ pa pg, OnPage ownedLine (getS (here ownedLine) 3) .both pa pg ∧ pg.home = 0) ∧
    (∃ pa pg, OnPage (onCore (taskCore 1 128 0 0x70080)) (getS (here (onCore (taskCore 1 128 0 0x70080))) 3) .both pa pg ∧ pg.home ≠ 0) :=
  ⟨⟨_, _, page_of (tlbOf 0) (by decide +kernel), by decide +kernel⟩, ⟨_, _, page_of (tlbOf 1) (by decide +kernel), by decide +kernel⟩⟩

/-- A state with one copy into memory, done or not. -/
def copying (done : Bool) : State :=
  let s := onTask 0 0 0
  { s with hub := { s.hub with tlb := [tlbOf 0], copies := [{ copyOf (here s) 0 .pkg (0x70000 + 2 ^ 64 * 0x70080 + 2 ^ 128 * 64) 1 0 0 with done := done }] } }

theorem witness_DrainsAndPrefetches : Quiet (here (copying true)) ∧ Quiet (here (copying false)) ∧
    (copiesInto (copying true) 0 .mem).all Copy.done = true ∧ (copiesInto (copying false) 0 .mem).all Copy.done = false ∧
    PushFree (copying true) ((copiesInto (copying true) 0 .mem).flatMap (destPushes (copying true))) ∧
    (let ps := (copiesInto (copying true) 0 .mem).flatMap (destPushes (copying true))
     pushesLeft (sendPushes (copying true) 0 ps) 0 ps = false) ∧
    (∃ s e bits, LinkFree (here s) ∧ TlbHit s (getS (here s) 3) e bits ∧ pageAllows (here s).level .read (pageOf e bits) (leafBase e + (getS (here s) 3).toNat % 2 ^ bits) = false) :=
  ⟨quiet_of (by decide +kernel), quiet_of (by decide +kernel), by decide +kernel, by decide +kernel, pushes_of (by decide +kernel), by decide +kernel,
    with0 (onTask 0 0 0x70088) (fun k => { k with tables := { k.tables with tlb := [{ tlbOf 0 with leaf := leafOf 0 - 2 }] } }), _, _,
    link_of (by decide +kernel), hit_of { tlbOf 0 with leaf := leafOf 0 - 2 } (by decide +kernel), by decide +kernel⟩

/-- A lock word of the page at its home: free, held by another, and held by the core itself. -/
def lockWord (v : Nat) : State := hbmWord v

theorem witness_Locks : ∀ p ∈ [0, 2, 1],
    let s := lockWord p
    let line := lineOf 0x70088
    let r := reached s 0 line
    let first := rmwAt 0 (.mem 0x70088 (pageOf (leafOf 0) 16)) .pkg 4 0x70088 (grantRmw 0 (lockWaiters s (0x70088 / 4)).isEmpty) (afterIssue r 0)
    (here s).streams.qlockQueued = false ∧ (here s).streams.qlockRefused = none ∧ (getS (here s) 3).toNat % 4 = 0 ∧ homeRefuses s line = none ∧
    valueOf first = some (p, false) ∧ (stateOf first).cur = 0 ∧
    conflicts s 0 (fun _ => true) [] [.bytes 0x70088 4] = false ∧ lockWaiters s (0x70088 / 4) = [] ∧ lockBlocked (stateOf first) 0 (0x70088 / 4) = false ∧ s.hub.lockWaits = [] ∧ s.hub.dups = [] ∧
    freePushes (afterReply (updCore (leaveQueue (stateOf first) 0 (0x70088 / 4)) 0 fun k => setLock k (0x70088 / 4) true true) 0
      (some (sliceOf line)) (here r).seq 0) (acquirePushes s 0 .pkg allRegions) = true ∧ (getCore (stateOf first) 0).streams.qlockGranted = false := by decide +kernel

theorem witness_Locks_home : LinkFree (here (lockWord 0)) ∧ HomeTakes (reached (lockWord 0) 0 (lineOf 0x70088)) 0 (some (sliceOf (lineOf 0x70088))) ∧
    AcquireFree (lockWord 0) 0 .pkg allRegions :=
  ⟨link_of (by decide +kernel), takes_of _ (by decide +kernel), pushes_of (by decide +kernel)⟩

/-- The two visits of a `qunlock` at its home. -/
theorem witness_Locks_unlock : ∃ (s s2 s3 : State) (pa : Nat) (pg : Page), Drained (here s) ∧ LinkFree (here s) ∧
    (getS (here s) 3).toNat % 4 = 0 ∧ OnPage s (getS (here s) 3) .both pa pg ∧ homeRefuses s (lineOf pa) = none ∧
    rmwAt s.cur (.mem pa { pg with ac := 0 }) .pkg 4 (getS (here s) 3) (fun _ _ => none) (reached s s.cur (lineOf pa)) = .ok (1 + s.cur.toNat, false) s2 ∧
    s2.cur = s.cur ∧ ReleaseFree s2 s.cur .pkg allRegions ∧
    (let r := reached (release s2 s.cur .pkg allRegions) s.cur (lineOf pa)
     r.cur = s.cur ∧ homeRefuses (release s2 s.cur .pkg allRegions) (lineOf pa) = none ∧ LinkFree (here r) ∧
     HomeTakes r s.cur (some (sliceOf (lineOf pa))) ∧
     rmwAt s.cur (.mem pa pg) .pkg 4 (getS (here s) 3) (freeRmw s.cur) (afterIssue r s.cur) = .ok (1 + s.cur.toNat, false) s3) :=
  ⟨lockWord 1, _, _, _, _, drained_of (by decide +kernel), link_of (by decide +kernel), by decide +kernel, page_of (tlbOf 0) (by decide +kernel),
    by decide +kernel, ok_of (by decide +kernel), by decide +kernel, free_of (by decide +kernel), by decide +kernel, by decide +kernel,
    link_of (by decide +kernel), takes_of _ (by decide +kernel), ok_of (by decide +kernel)⟩

/-- A `qunlock` of a word that another core holds. -/
theorem witness_Locks_unlock_other : valueOf (rmwAt 0 (.mem 0x70088 { pageOf (leafOf 0) 16 with ac := 0 }) .pkg 4 0x70088 (fun _ _ => none)
    (reached (lockWord 2) 0 (lineOf 0x70088))) = some (2, false) := by decide +kernel

/-- A word that another core holds, where an earlier request of its slice waits for a queue, and where 64 cores wait. -/
theorem witness_Locks_queues :
    (let s := { lockWord 2 with hub := { (lockWord 2).hub with lockWaits := [(0x70088 / 4 + 1, 5)] } }
     (∀ e ∈ s.hub.lockWaits, e.1 ≠ 0x70088 / 4) ∧ lockBlocked s 0 (0x70088 / 4) = true ∧ lockWaiters s (0x70088 / 4) = []) ∧
    64 ≤ (lockWaiters { lockWord 2 with hub := { (lockWord 2).hub with qlocks := [(0x70088 / 4, List.replicate 64 (7, 0))] } } (0x70088 / 4)).length := by
  decide +kernel

theorem lock_page (v : Nat) (h : (slice (getS (here (lockWord v)) 3) 48 16 ≠ (0xFFFE : HWord) ∧
      (here (lockWord v)).tables.tlb.find? (fun t => t.covers (here (lockWord v)).tregs.asid (getS (here (lockWord v)) 3)) = some (tlbOf 0)) ∧
      pageAllows (here (lockWord v)).level .both (pageOf (tlbOf 0).leaf (tlbOf 0).bits) (leafBase (tlbOf 0).leaf + (getS (here (lockWord v)) 3).toNat % 2 ^ (tlbOf 0).bits) = true ∧
      aperture (leafBase (tlbOf 0).leaf + (getS (here (lockWord v)) 3).toNat % 2 ^ (tlbOf 0).bits) ≠ 1) :
    ∃ pa pg, OnPage (lockWord v) (getS (here (lockWord v)) 3) .both pa pg := ⟨_, _, page_of (tlbOf 0) h⟩

theorem witness_Locks_pages : (∃ pa pg, OnPage (lockWord 0) (getS (here (lockWord 0)) 3) .both pa pg) ∧ (∃ pa pg, OnPage (lockWord 1) (getS (here (lockWord 1)) 3) .both pa pg) :=
  ⟨lock_page 0 (by decide +kernel), lock_page 1 (by decide +kernel)⟩

/-- The lock word with a waiting request of the core, granted or not; and one whose core has lost sight of it. -/
def waitingLock (v w : Nat) (granted : Bool) : State :=
  let s := with0 (lockWord v) fun k => setLock k w true granted
  { s with hub := { s.hub with qlocks := [(w, [(0, 5)])], regs := { s.hub.regs with regions := [(5, 2 ^ 32)] } } }

theorem witness_Locks_waiting : (∀ g ∈ [false, true], let s := waitingLock 2 (0x70088 / 4) g
      (here s).streams.qlockQueued = true ∧ (getS (here s) 3).toNat % 4 = 0 ∧ (here s).streams.qlockWord = 0x70088 / 4 ∧ (here s).streams.qlockGranted = g ∧
      conflicts s 0 (fun _ => true) [] [.bytes 0x70088 4] = false ∧
      freePushes s (acquirePushes s 0 .pkg allRegions) = true) ∧
    (let s := waitingLock 1 0 false
     (here s).streams.qlockWord ≠ 0x70088 / 4 ∧ lockAt (openLock s (0x70088 / 4)) (0x70088 / 4) = 1 + s.cur.toNat ∧
     conflicts s 0 (fun _ => true) [] [.bytes 0x70088 4] = false ∧
     freePushes (resumeLock s 0 (0x70088 / 4)) (acquirePushes s 0 .pkg allRegions) = true) ∧
    (let s := waitingLock 2 (0x70088 / 4) false
     s.hub.qlocks.find (0x70088 / 4) = some [(0, 5)] ∧ isForeign (0x70088 / 4 / 32) = false ∧ s.l2.length < 32768 ∧
     (s.hub.regs.regions.find 5).map (fun r => bitAt r 32) = some true) := by decide +kernel

/-- A posted store that still has to write the lock's word. -/
theorem witness_Locks_conflict : (let s := with0 (waitingLock 2 (0x70088 / 4) false) fun k => { k with streams := { k.streams with
      lazyV := true, nextSeq := 2, vq := [postedEntry k (.vst .fp32 (.row 5) 3 0)] } }
    (here s).streams.qlockQueued = true ∧ conflicts s s.cur (fun _ => true) [] [.bytes (getS (here s) 3) 4] = true) := by decide +kernel

theorem witness_Locks_waiting_page : ∃ pa pg, OnPage (waitingLock 2 (0x70088 / 4) false) (getS (here (waitingLock 2 (0x70088 / 4) false)) 3) .both pa pg :=
  ⟨_, _, page_of (tlbOf 0) (by decide +kernel)⟩

/-- A transaction that is open, with 7 pairs and with 8, BAD, and one that is closed. -/
def transacting (n : Nat) (bad : Bool) : State :=
  with0 (onTask (ownAddr 0x80) 0 0) fun k => { k with streams := { k.streams with
    tx := { isOpen := true, desc := ownAddr 0x80, pairs := List.replicate n (0x70000, 0), bad := bad, request := none } } }

theorem witness_Transactions : (here (onTask 0 0 0)).streams.tx.isOpen = false ∧ (here (transacting 7 false)).streams.tx.pairs.length < 8 ∧
    8 ≤ (here (transacting 8 false)).streams.tx.pairs.length ∧ (here (transacting 8 false)).streams.tx.isOpen = true ∧
    valueOf (txDecide 0 (here (transacting 0 true)).streams.tx (release (transacting 0 true) 0 .pkg allRegions)) = some none ∧
    bytesAt (transacting 0 false) (sramKey 0 0x80) 16 = 0 ∧ bytesAt (storePut (transacting 0 false) (sramKey 0 0x80) 4 16 false) (sramKey 0 0x80) 16 = 16 := by decide +kernel

/-- An open transaction without compares whose descriptor names no word asks for a request, and its home answers 1. -/
theorem witness_Transactions_request :
    let t := (here (transacting 0 false)).streams.tx
    let s1 := release (transacting 0 false) 0 .pkg allRegions
    let q : TxRequest := { words := [], expected := [], values := [] }
    valueOf (txDecide 0 t s1) = some (some q) ∧
    valueOf (txSend 0 t.desc q (updCore (stateOf (txDecide 0 t s1)) 0 fun k => setTx k { k.streams.tx with request := some q })) = some 1 := by
  decide +kernel

theorem witness_Transactions_descriptor : OwnScratch (transacting 0 false) (here (transacting 0 false)).streams.tx.desc 0x80 16 ∧
    CleanAt (transacting 0 false) (sramKey 0 0x80) 16 ∧ LinkFree (here (transacting 0 false)) ∧ Drained (here (transacting 0 false)) ∧
    HomeTakes (transacting 0 false) 0 none ∧ ReleaseFree (transacting 0 false) 0 .pkg allRegions ∧
    AcquireFree (release (transacting 0 false) 0 .pkg allRegions) 0 .pkg allRegions :=
  ⟨own_of (by decide +kernel), clean_of _ _ (by decide +kernel), link_of (by decide +kernel), drained_of (by decide +kernel),
    takes_of none (by decide +kernel), free_of (by decide +kernel), pushes_of (by decide +kernel)⟩

/-- A queue with room for one more entry, a full one, and a replay. -/
def queueOf (n m : Nat) : State := with0 (onTask 0 0 0) fun k => { k with streams := { k.streams with
  vq := List.replicate n (postedEntry k (.vclr (.row 1))), mq := List.replicate m (postedEntry k (.hclr 1)) } }

/-- The same for a core of a 6 × 8 plot. -/
def inPlot (s : State) : State := with0 s fun k => { k with tregs := { k.tregs with foot := BitVec.ofNat 48 (6 * 2 ^ 32 + 8 * 2 ^ 40) } }

theorem witness_VectorPosts : vectorLength (.vaddC2 true 31 true 15) = some 2 ∧ (asV3 (.vaddC2 true 31 true 15)).wellFormed = true ∧
    vectorLength (.vmovC2 true 31 true 15) = some 2 ∧ (asV3 (.vmovC2 true 31 true 15)).wellFormed = true ∧
    vectorLength (.kset 7 31) = some 4 ∧ (asV3 (.kset 7 31)).wellFormed = true ∧
    (here (queueOf 127 0)).streams.rep.run = none ∧ (here (queueOf 127 0)).streams.vq.length = 127 ∧ (here (queueOf 128 0)).streams.vq.length = 128 := by decide +kernel

theorem witness_MatrixPosts : matrixPosted (.mmaRing 3 31 1 31) = true ∧ (Instr.mmaRing 3 31 1 31).wellFormed = true ∧ ringOnly (.mmaRing 3 31 1 31) = true ∧
    matrixPosted (.mqpush 3 127 15) = true ∧ (Instr.mqpush 3 127 15).wellFormed = true ∧ ringOnly (.mqpush 3 127 15) = false ∧
    (slice (here (inPlot (queueOf 0 63))).tregs.foot 32 8 : Byte) = 6 ∧ (slice (here (inPlot (queueOf 0 63))).tregs.foot 40 8 : Byte) = 8 ∧
    (slice (here (queueOf 0 63)).tregs.foot 32 8 : Byte) ≠ 6 ∧ (here (queueOf 0 63)).streams.rep.run = none ∧
    (here (queueOf 0 63)).streams.mq.length = 63 ∧ (here (queueOf 0 64)).streams.mq.length = 64 := by decide +kernel

/-- A book entry of one instruction, VALID with RES `x9`; and the same entry dropped. -/
def withBook (valid : Bool) : State := with0 (queueOf 127 0) fun k => { k with tables := { k.tables with
  book := k.tables.book.setIfInBounds 31 (some (BitVec.ofNat 512 (0x06050903 + 2 ^ 256 + 9 * 2 ^ 260 + (if valid then 2 ^ 287 else 0)))) } }

theorem witness_PinsAndBlocks : ∀ b ∈ [true, false], ∃ v : BitVec 512, (here (withBook b)).tables.book[(31 : BitVec 5).toNat] = some v ∧
    v.toNat.testBit 287 = b ∧ (slice v 260 6 : BitVec 6) = 9 ∧ (here (withBook b)).streams.rep.run = none ∧ (here (withBook b)).streams.vq.length < 128 := by
  intro b h
  refine ⟨BitVec.ofNat 512 (0x06050903 + 2 ^ 256 + 9 * 2 ^ 260 + (if b then 2 ^ 287 else 0)), ?_⟩
  revert b; decide +kernel

/-- The block of one 2-byte instruction that stands at the target. -/
theorem witness_PinsAndBlocks_block : ∃ (s s' : State) (image : List Byte),
    fetchBlock s.cur ((0 : BitVec 5).toNat + 1) ((here s).pc + BitVec.ofInt 64 ((0 : BitVec 15).toInt * 2)) s = .ok image s' ∧ s'.cur = s.cur ∧
      (here s').streams.vq.length < 128 ∧ (here s).streams.rep.run = none ∧ ((here s).streams.vq.filter fun e => e.vp.isSome).length < 16 :=
  ⟨fetching 0x1842, _, [0x42, 0x18], ok_of (by decide +kernel), by decide +kernel⟩

/-- The first and the last VP, in an entry that is at the head. -/
theorem witness_PinsAndBlocks_branches : ∃ (s : State) (h : Entry) (v : VpState), (getCore s 0).streams.vq.head? = some h ∧ h.vp = some v ∧ 63 < 64 :=
  ⟨with0 (onTask 0 0 0) fun k => { k with streams := { k.streams with vq := [{ postedEntry k (.vfb 0 0) with
      vp := some { base := 0x2000, image := [], pcs := Vector.replicate 64 0x2000, done := 0, busy := none } }] } }, _, _, rfl, rfl, by decide⟩

/-- Rows of 1.0 and 2.0 at idle streams. -/
def rowsOf : State := with0 (onTask 0 0 0) fun k => putX 4 (allFp32 0) (putX 6 (allFp32 0x40000000) (putX 5 (allFp32 0x3F800000) k))

theorem witness_LaneResults : VectorIdle (here rowsOf) ∧ Unpinned (here rowsOf) ∧ CleanRow (here rowsOf) 4 ∧ CleanRow (here rowsOf) 5 ∧ CleanRow (here rowsOf) 6 ∧
    (getRow (here rowsOf) 5).row.tag = 2 ∧ (getRow (here rowsOf) 6).row.tag = 2 ∧ (getRow (here rowsOf) 4).row.tag = 2 ∧
    (∀ o ∈ [LaneOp.add, .fma, .sqrt], o.accepts (tagFmt 2) = true ∧ o.resultTag 2 = 2) ∧ tagFmt 2 ≠ .none ∧
    (∀ o ∈ [CmpOp.ceq, .cne, .clt, .cle], o.accepts (tagFmt 2) = true) :=
  ⟨⟨by decide +kernel, by decide +kernel, by decide +kernel, by decide +kernel, by decide +kernel, by decide +kernel, by decide +kernel⟩, (by decide +kernel : ∀ n, pinValid (pinOf (here rowsOf) n) = false), ⟨by decide +kernel, by decide +kernel⟩,
    ⟨by decide +kernel, by decide +kernel⟩, ⟨by decide +kernel, by decide +kernel⟩, by decide +kernel⟩

/-- A row of 1.0 to be stored to the first bytes of the own partition, and to be loaded from them. -/
def movingRow : State := with0 rowsOf fun k => setS k 1 (ownAddr 0)

theorem witness_RowsAndMasks_memory : VectorIdle (here movingRow) ∧ Unpinned (here movingRow) ∧ CleanRow (here movingRow) 5 ∧
    (here movingRow).streams.mq = [] ∧ (here movingRow).streams.deferred = [] ∧ Alive movingRow 0 ∧
    (∀ f ∈ [Fmt.fp32, .fp16, .int8], f ≠ .none ∧ 8 ≤ fmtWidth f ∧ 0 % (fmtWidth f / 8) = 0) ∧
    getS (here movingRow) 1 + BitVec.ofInt 64 ((0 : BitVec 7).toInt * 8) = ownAddr 0 ∧ 0 + 4 * (here movingRow).tregs.vl.toNat ≤ scratchSize (here movingRow) ∧
    CleanAt movingRow (sramKey 0 0) (4 * (here movingRow).tregs.vl.toNat) ∧ (getRow (here movingRow) 5).row.tag.toNat % 16 = Fmt.fp32.code :=
  ⟨⟨by decide +kernel, by decide +kernel, by decide +kernel, by decide +kernel, by decide +kernel, by decide +kernel, by decide +kernel⟩,
    (by decide +kernel : ∀ n, pinValid (pinOf (here movingRow) n) = false), ⟨by decide +kernel, by decide +kernel⟩, by decide +kernel, by decide +kernel,
    alive_of (by decide +kernel), by decide +kernel, by decide +kernel, by decide +kernel, clean_of _ _ (by decide +kernel), by decide +kernel⟩

theorem witness_RowsAndMasks_unwatched : ∀ r, movingRow.hub.regs.regions.find 0 = some r → bitAt r 32 = false := unwatched_of (by decide +kernel)

/-- R220, R221: the row's 256 bytes as they are stored, and a row loaded from them. -/
theorem test_row_in_memory : nextIs (.vst .none (.row 5) 1 0) movingRow (fun t =>
      bytesAt t (sramKey 0 0) 4 == 0x3F800000 && bytesAt t (sramKey 0 252) 4 == 0x3F800000 && bytesAt t (sramKey 0 256) 4 == 0 &&
      nextIs (.vld .fp32 (.row 9) 1 0) t (fun u => elemOf (getRow (here u) 9).row.bits.toNat 32 63 == 0x3F800000 && elemOf (getRow (here u) 9).row.tag.toNat 16 0 == 2)) = true := by
  decide +kernel

/-- A FULL latch whose tile has 1.0 at element (0, 1) alone, 2.0 at the first of A, and the size word of one block of one row and two columns. -/
def blockOf : State :=
  with0 (storePut (onTask (ownAddr 0) (1 + 2 * 2 ^ 8 + 2 ^ 16 + 3 * 2 ^ 24) 0) (sramKey 0 0) 2 0x4000 false) fun k =>
    { k with files := { k.files with l := k.files.l.setIfInBounds 0 { Latch.blank with state := .full, hdr := 3, tile := BitVec.ofNat _ (0x3F80 * 2 ^ 16) } } }

theorem witness_HeadsOfLatchesAndLodges_block : MatrixIdle (here blockOf) ∧ (here blockOf).streams.deferred = [] ∧ Fmt.bf16.code = 3 ∧
    (getS (here blockOf) 2).toNat = 1 + 2 * 2 ^ 8 + 2 ^ 16 + Fmt.bf16.code * 2 ^ 24 ∧ getS (here blockOf) 1 = ownAddr 0 ∧ 0 % 128 = 0 ∧
    0 + 256 * 1 ≤ scratchSize (here blockOf) ∧ CleanAt blockOf (sramKey 0 0) (256 * 1) ∧ (latchOf (here blockOf) 0).state = .full ∧
    (latchOf (here blockOf) 0).hdr.toNat % 16 = Fmt.bf16.code ∧ (latchOf (here blockOf) 0).psn = 0 ∧
    (∀ i < 1, ∀ j < 2, (hoopOf (here blockOf) 1).bad i j = false) :=
  ⟨⟨by decide +kernel, by decide +kernel, by decide +kernel, by decide +kernel, by decide +kernel, by decide +kernel, by decide +kernel⟩, by decide +kernel,
    by decide +kernel, by decide +kernel, by decide +kernel, by decide +kernel, by decide +kernel, clean_of _ _ (by decide +kernel), by decide +kernel,
    by decide +kernel, by decide +kernel, by decide +kernel⟩

/-- R162, R165: 2.0 × 1.0 in element (0, 1), and +0.0 beside it. -/
theorem test_block : nextIs (.mmaOvw 1 1 0 2) blockOf (fun t =>
    (hoopOf (here t) 1).elem 0 1 == 0x40000000 && (hoopOf (here t) 1).elem 0 0 == 0 && (latchOf (here t) 0).state == .full) = true := by decide +kernel

/-- The edges of the three widths; `clz` at n = 0 and at the last n. -/
theorem witness_LanesAndConditions : ∀ w ∈ [32, 16, 8], 2 ^ w - 1 < 2 ^ w ∧ 2 ^ (w - 1) < 2 ^ (w - 0) ∧ Nat.testBit (2 ^ (w - 1)) (w - 1 - 0) = true ∧
    1 < 2 ^ (w - (w - 2)) ∧ Nat.testBit 1 (w - 1 - (w - 1)) = true := by decide +kernel

/-- A FULL latch and an EMPTY one, a row queue with room for one row, and a lodge descriptor that the core holds. -/
theorem witness_HeadsOfLatchesAndLodges : ∃ s : State, MatrixIdle (here s) ∧ (here s).files.l[0].state = .full ∧ (here s).files.l[1].state ≠ .full ∧
    ((here s).queues.rq[7]?.getD []).length = 3 ∧ (here s).streams.mq = [] ∧
    ((here s).tables.lodges.find? fun g => g.d.toNat == (15 : BitVec 5).toNat && g.ctx == ctxOf (here s)).isSome = true ∧
    ((here s).tables.lodges.find? fun g => g.d.toNat == (16 : BitVec 5).toNat && g.ctx == ctxOf (here s)) = none ∧ (here (queueOf 0 1)).streams.mq ≠ [] :=
  ⟨with0 (onTask 0 0 0) fun k => { k with
      files := { k.files with l := k.files.l.setIfInBounds 0 { Latch.blank with state := .full } }
      queues := { k.queues with rq := k.queues.rq.setIfInBounds 7 (List.replicate 3 Row.blank) }
      tables := { k.tables with lodges := [{ ctx := 1, d := 15, name := 0, area := 0, waddr := 0, m := 0, k := 0, wreg := 0, rlim := 0, state := 1, last := true, wver := 0, count := 5, dthr := 0, drift := 9, tenant := 0 }] } },
    ⟨by decide +kernel, by decide +kernel, by decide +kernel, by decide +kernel, by decide +kernel, by decide +kernel, by decide +kernel⟩, by decide +kernel⟩

/-- The last queue of each kind with entries, a row with a poisoned cell 1 and one whose cell 2 alone is, and empty queues. -/
theorem witness_QueueHeads : ∃ s : State, (here s).queues.sq[(7 : BitVec 4).toNat]?.getD [] = [5, 6] ∧ (here s).queues.sq[(4 : BitVec 4).toNat]?.getD [] = [] ∧
    (here s).queues.rq[(11 : BitVec 4).toNat - 8]?.getD [] = [{ Row.blank with psn := 4 }] ∧ (4 : DWord).toNat % 4 = 0 ∧
    (here s).queues.rq[(10 : BitVec 4).toNat - 8]?.getD [] = [{ Row.blank with psn := 2 }] ∧ (2 : DWord).toNat % 4 ≠ 0 ∧
    (here (onTask 0 0 0)).queues.rq[(10 : BitVec 4).toNat - 8]?.getD [] = [] :=
  ⟨with0 (onTask 0 0 0) fun k => { k with queues := { k.queues with
      sq := k.queues.sq.setIfInBounds 7 [5, 6]
      rq := (k.queues.rq.setIfInBounds 3 [{ Row.blank with psn := 4 }]).setIfInBounds 2 [{ Row.blank with psn := 2 }] } }, by decide +kernel⟩

/-- Route words at their limits, a local selector, and words that are neither; a task and a handler with 15 packets and with 16. -/
theorem witness_Sends_words : (∀ w ∈ [47 + 63 * 256 + 4095 * 65536, 0], w % 256 < 48 ∧ w / 256 % 256 < 64 ∧ w < 2 ^ 28) ∧
    (∀ w ∈ [48, 64 * 256, 2 ^ 28, 2 ^ 63 + 4], ¬(w % 256 < 48 ∧ w / 256 % 256 < 64 ∧ w < 2 ^ 28) ∧ (∀ n < 4, w ≠ 2 ^ 63 + n)) ∧
    (2 ^ 63 + 3 < 2 ^ 64) ∧ ((9 = 8 ∨ 9 = 9) ∧ 2 ^ 63 + 9 = 2 ^ 63 + 9) := by decide +kernel

/-- A core with `n` packets in its send buffer and `m` values in `q3`, with or without a handler. -/
def sending (n m : Nat) (h : Option (BitVec 12)) : State :=
  with0 rowsOf fun k => { k with
    task := some { loneTask with handler := h }
    queues := { k.queues with send := List.replicate n (packetTo k 0 0 true (scalarRow 1)), sq := k.queues.sq.setIfInBounds 3 (List.replicate m 1) } }

theorem witness_Sends : (here (sending 15 15 none)).streams.rep.run = none ∧ (here (sending 15 15 none)).streams.vq = [] ∧
    ((here (sending 15 15 none)).queues.sq[3]?.getD []).length < 16 ∧ 16 ≤ ((here (sending 15 16 none)).queues.sq[3]?.getD []).length ∧
    inHandler (here (sending 15 0 none)) = false ∧ (here (sending 15 0 none)).queues.outPending = [] ∧ (here (sending 15 0 none)).queues.send.length < 16 ∧
    16 ≤ (here (sending 16 0 none)).queues.send.length ∧ inHandler (here (sending 15 0 (some 9))) = true ∧
    (here (sending 15 0 (some 9))).queues.send.length + (here (sending 15 0 (some 9))).queues.outPending.length < 16 ∧
    16 ≤ (here (sending 16 0 (some 9))).queues.send.length + (here (sending 16 0 (some 9))).queues.outPending.length ∧
    (getRow (here (sending 15 0 none)) 5).row.tag ≠ 0 ∧ (getRow (here (sending 15 0 none)) 7).row.tag = 0 ∧ (getRow (here (sending 15 0 none)) 5).res ≠ .gone ∧
    ((here (sending 15 0 none)).queues.rq[9 - 8]?.getD []).length < 4 ∧ (∀ r, pinValid (pinOf (here (sending 15 0 none)) r) = false) := by decide +kernel

/-- Destinations on a lost die, and fenced ones of the own gang and of no gang. -/
theorem witness_Sends_lost : bitAt ({ onTask 0 0 0 with hub := { (onTask 0 0 0).hub with lostDies := 1 } } : State).hub.lostDies (dieOf (coreAt 0 0)) = true ∧
    (∀ gang ∈ [true, false], let h := clusterHome 0 (lineOf 0x70080)
      bitAt (homeFenced gang).hub.lostDies (dieOf h) = false ∧ (getCore (homeFenced gang) h).fenced = true ∧
      fencedCause (homeFenced gang) 0 h = (if gang then .gangBroken else .protect) ∧ coreX h < 48 ∧ coreY h < 64) ∧
    Reaches (onTask 0 0 0) 0 (coreAt 47 63) := ⟨by decide +kernel, by decide +kernel, reaches_of (by decide +kernel)⟩

/-- A die that is lost between a core and its destination, on neither's die. -/
theorem witness_Sends_crossed : let s := { onTask 0 0 0 with hub := { (onTask 0 0 0).hub with lostDies := 2 } }
    lostWay s s.cur (coreAt 47 0) = some 1 ∧ bitAt s.hub.lostDies (dieOf (coreAt 47 0)) = false ∧ bitAt s.hub.lostDies (dieOf s.cur) = false := by decide +kernel

/-- An image of 64 flag bytes and one `vclr x0` in the own window, with counts 0, 1, 64 and 65. -/
def repeating (n : Nat) : State := storePut (onTask (ownAddr 0x80) (BitVec.ofNat 64 n) 0) (sramKey 0 0xC0) 4 0x0000005B false

theorem witness_Repeats : (here (repeating 0)).streams.rep.run = none ∧ (here (repeating 0)).streams.deferred = [] ∧ (getS (here (repeating 0)) 2).toNat = 0 ∧
    64 < (getS (here (repeating 65)) 2).toNat ∧ (getS (here (repeating 1)) 1).toNat % 2 = 0 ∧ (5 : BitVec 3).toNat < 6 ∧
    (here (repeating 0)).streams.rep.body = [] ∧
    (valueOf (readRepeat 0 (ownAddr 0x80) 0 1 0 (ownAddr 0x80 + 64) (repeating 1))).isSome = true ∧ valueOf (readImage 0 (ownAddr 0x80) 64 (repeating 1)) = some 0 := by
  decide +kernel

/-- A replay at the last position of its body: left out by FIRST, posted, at its last pass, at an earlier one, and asked to stop. -/
def replaying (flags : Byte) (it cnt : Word) (stop : Bool) (n : Nat) : State := with0 (queueOf n 0) fun k => { k with streams := { k.streams with rep :=
  { body := [{ flags := flags, len := 4, word := 0x0000005B, instr := .vclr (.row 0) }]
    levels := (Vector.replicate 6 { count := 0, os := 0, as := 0 }).setIfInBounds 0 { count := cnt, os := 0, as := 0 }
    run := some { iter := (Vector.replicate 6 0).setIfInBounds 0 it, j := 0, env := (postedEntry k .lrun).env, ipc := 0x1000, stop := stop } } } }

theorem witness_Repeats_sequencer : (here (replaying 8 1 3 false 127)).streams.rep.run.isSome = true ∧ (here (replaying 8 1 3 false 127)).streams.rep.body.length ≤ 0 + 1 ∧
    (8 : Byte).toNat.testBit 3 = true ∧ (1 : Word).toNat ≠ 0 ∧ (0 : Byte).toNat.testBit 3 = false ∧ (0 : Byte).toNat.testBit 4 = false ∧
    goesToMatrix 0x0000005B = false ∧ 128 ≤ (here (replaying 0 1 3 false 128)).streams.vq.length ∧ (here (replaying 0 1 3 false 127)).streams.vq.length < 128 ∧
    (1 : Word).toNat + 1 < (3 : Word).toNat ∧ (3 : Word).toNat ≤ (2 : Word).toNat + 1 ∧ goesToMatrix 0x000000C1 = true := by decide +kernel

/-- A copy command of 64 bytes in the own window, and one with a reserved bit; `n` copies that hold slots. -/
def commanding (v n : Nat) (orph : Bool) : State :=
  let s := storePut (onTask (ownAddr 0x80) 0 0) (sramKey 0 0x80) 64 v false
  { s with hub := { s.hub with copies := (List.range n).map fun i => { copyOf (here s) 0 .pkg 0 (BitVec.ofNat 64 i) 0 i with orphan := orph && i == 3, done := false } } }

theorem witness_Copies : ∀ p ∈ [(127, false), (128, false), (128, true)],
    let s := commanding (0x70000 + 2 ^ 64 * 0x70080 + 2 ^ 128 * 64) p.1 p.2
    (getS (here s) 1).toNat % 64 = 0 ∧ valueOf (readImage 0 (ownAddr 0x80) 64 s) = some (0x70000 + 2 ^ 64 * 0x70080 + 2 ^ 128 * 64) ∧
    commandOk (0x70000 + 2 ^ 64 * 0x70080 + 2 ^ 128 * 64) = true ∧ commandOk (2 ^ 162) = false ∧
    (valueOf (sourceRegions 0 0x70000 64 s)).isSome = true ∧ freeRelease s 0 .pkg allRegions = true ∧
    bumpsLeft (bumpMarks (release s 0 .pkg allRegions) 0 allRegions) 0 allRegions = false ∧ (s.hub.copies.filter fun x => x.core == 0 && !(x.orphan && x.done)).length = p.1 ∧
    (s.hub.copies.any fun x => x.orphan) = p.2 := by decide +kernel

theorem witness_Copies_pops : Drained (here (commanding 0 1 false)) ∧
    PushFree (copying true) (((copying true).hub.copies.filter (completes 0 1)).flatMap (destPushes (copying true))) ∧
    (let ps := ((copying true).hub.copies.filter (completes 0 1)).flatMap (destPushes (copying true))
     pushesLeft (sendPushes (copying true) 0 ps) 0 ps = false) ∧ (copying true).hub.copies.filter (completes 0 1) ≠ [] ∧ (∃ x ∈ (commanding 0 1 false).hub.copies, x.core = 0 ∧ x.orphan = false ∧ x.done = false) ∧
    (here (with0 (onTask 0 0 0) fun k => { k with queues := { k.queues with results := [3] } })).queues.results = [3] ∧
    (here (onTask 0 0 0)).queues.results = [] ∧ (onTask 0 0 0).hub.copies = [] ∧ (getS (here (onTask 0x41 0 0)) 1).toNat % 64 ≠ 0 :=
  ⟨drained_of (by decide +kernel), pushes_of (by decide +kernel), by decide +kernel⟩

/-- A block of the page, of a context of the same tenant, of another, and of none; a FIFO with room for one and a full one. -/
def launching (n : Nat) (ten : HWord) : State :=
  let s := onTask 0 0 0x70080
  { s with store := { s.store with defs := [(lineOf 0x70080, BitVec.allOnes 32)] }, hub := { s.hub with fifo := List.replicate n 0x1000, contexts := [{ ctx := 0, tenant := ten, asid := 0, ptroot := 0, area := 0, rarea := 0, dies := 0 }] } }

theorem witness_LaunchPushes : ∀ p ∈ [(1023, 0), (1024, 0), (0, 7)],
    let s := launching p.1 (BitVec.ofNat 16 p.2)
    let s0 := release s s.cur .sys allRegions
    let s1 := stateOf (blockAddr 0 0x70080 s0)
    let s2 := stateOf (readImage 0 0x70090 2 s1)
    getS (getCore s0 0) 3 = 0x70080 ∧ valueOf (blockAddr 0 0x70080 s0) = some 0x70080 ∧ valueOf (readImage 0 0x70090 2 s1) = some 0 ∧
    ((s2.hub.contexts.find? fun x => x.ctx == 0).map fun x => x.tenant) = some (BitVec.ofNat 16 p.2) ∧ (getCore s0 0).tregs.tenant = 0 ∧
    s2.hub.fifo.length = p.1 ∧ s2.hub.fifoHeld = [] ∧ freeRelease s 0 .sys allRegions = true := by decide +kernel

/-- A slot of another descriptor before one that has sent, combined and delivered, or is aborted. -/
def slotOfTest (va : DWord) (ab tmo : Bool) : CollSlot :=
  { gid := 7, desc := va, wave := 6, kind := 0, dst := 0, root := 0, rows := 0, scope := .die, ctx := 1, sent := true, combined := !ab, delivered := !ab,
    aborted := ab, timedOut := tmo, got := [], orphan := false }

theorem witness_CollectiveWaits : ∃ s : State,
    (here s).tables.slots = [slotOfTest 0x100 false false] ++ slotOfTest 0x80 false false :: [] ∧
    (∀ y ∈ [slotOfTest 0x100 false false], y.desc = 0x80 → y.orphan = true) ∧ (slotOfTest 0x80 false false).delivered = true ∧
    (slotOfTest 0x80 true true).aborted = true ∧ (slotOfTest 0x80 true true).delivered = false ∧
    freePushes s (acquirePushes s s.cur .die allRegions) = true ∧ (getS (here s) 1).toNat / 4 % 32 = 0 ∧ (getS (here s) 1).toNat % 4 = 2 ∧ (getS (here s) 2).toNat / 4 % 32 ≠ 0 ∧ (getS (here s) 3).toNat % 4 = 3 :=
  ⟨with0 (onTask 0x82 0x84 0x83) fun k => { k with tables := { k.tables with slots := [slotOfTest 0x100 false false, slotOfTest 0x80 false false] } }, by decide +kernel⟩

/-- A member of a group of three that stores a descriptor of its next wave 4, with `n` slots held. -/
def collecting (n : Nat) (ctx : HWord) : State :=
  with0 (storePut (onTask (ownAddr 0x80) 4 0) (sramKey 0 0x80) 128 (9 + 2 * 2 ^ 20 + 2 * 2 ^ 64 + 0x1000 * 2 ^ 128 + 0x2000 * 2 ^ 192) false) fun k =>
    { k with tables := { k.tables with
      slots := List.replicate n (slotOfTest 0 false false)
      trees := [{ gid := 9, ctx := ctx, tenant := 0, parent := 0, top := true, member := true, ext := 2, rank := 0, nmem := 3, child := 1, cur := 0, got := [], nextWave := 4, aborting := false, told := false, acks := 0, acked := false }] } }

theorem witness_CollectivePosts : ∀ n ∈ [15, 16],
    let s0 := release (collecting n 1) 0 .die allRegions
    let v := 9 + 2 * 2 ^ 20 + 2 * 2 ^ 64 + 0x1000 * 2 ^ 128 + 0x2000 * 2 ^ 192
    getS (getCore s0 0) 1 = ownAddr 0x80 ∧ (ownAddr 0x80).toNat % 128 = 0 ∧ valueOf (readImage 0 (ownAddr 0x80) 128 s0) = some v ∧
    (valueOf (cstoreEntry 0 .die (ownAddr 0x80) v 4 s0)).isSome = true ∧ (descriptorOf v).src.toNat + srcBytes (descriptorOf v) ≤ scratchSize (getCore s0 0) ∧
    (descriptorOf v).dst.toNat + 256 * (descriptorOf v).rows.toNat ≤ scratchSize (getCore s0 0) ∧ (getCore s0 0).tables.slots.length = n ∧
    freeRelease (collecting n 1) 0 .die allRegions = true := by decide +kernel

theorem witness_CollectivePosts_aborts : Drained (here (collecting 0 1)) ∧
    ((here (collecting 0 1)).tables.trees.find? fun e => e.gid == 9).isSome = true ∧ ctxOf (here (collecting 0 1)) = 1 ∧
    (∀ e ∈ (here (collecting 0 2)).tables.trees, e.ctx ≠ ctxOf (here (collecting 0 2))) :=
  ⟨drained_of (by decide +kernel), by decide +kernel⟩

/-- A word of ALL and EVERY, and one with bit 15 set, at task level and above it. -/
theorem witness_TlbInvalidates : (here (onTask 0x70003 0x78000 0)).level = .task ∧
    (here (with0 (onTask 0x70003 0x78000 0) fun k => { k with level := .steward })).level ≠ .task ∧
    (getS (here (onTask 0x70003 0x78000 0)) 1).toNat / 4 % 2 ^ 14 = 0 ∧ (getS (here (onTask 0x70003 0x78000 0)) 2).toNat / 4 % 2 ^ 14 ≠ 0 ∧
    Drained (here (with0 (onTask 0x70003 0x78000 0) fun k => { k with level := .steward })) :=
  ⟨by decide +kernel, by decide +kernel, by decide +kernel, by decide +kernel, drained_of (by decide +kernel)⟩

/-- An image in the own window, and the registered context 1 of tenant `ten` where it is asked for. -/
def tabling (v : Nat) (reg : Bool) (ten area : Nat) (w : DWord) : State :=
  let s := storePut (onTask (ownAddr 0x80) w 0) (sramKey 0 0x80) 64 v false
  { s with hub := { s.hub with contexts := if reg then
      [{ ctx := 1, tenant := BitVec.ofNat 16 ten, asid := 0, ptroot := 0, area := BitVec.ofNat 64 area, rarea := 0, dies := 0 }] else [] } }

/-- One `vadd x1, x2, x3`, with a good header; with none, with nine instructions, and with a reserved word second. -/
def recipe : Nat := 0x03020103 + 2 ^ 256 + 2 ^ 260

theorem witness_BooksAndRoutes_book :
    (∀ a ∈ [0, 0x100000], let s := tabling recipe (a ≠ 0) 0 a 0
      valueOf (readImage 0 (ownAddr 0x80) 64 s) = some recipe ∧ (ownAddr 0x80).toNat % 64 = 0 ∧ badHeader (BitVec.ofNat 512 recipe) = none ∧
      recipeWordOk (BitVec.ofNat 512 recipe) 0 = true ∧ (bookAddr s 1 1 = 0 ↔ a = 0)) ∧
    (valueOf (writeBook 0 1 (BitVec.ofNat 512 recipe) (tabling recipe true 0 0x100000 0))).isSome = true ∧
    (valueOf (reachHome 0 (lineOf 0x100040) 0 (tabling recipe true 0 0x100000 0))).isSome = true ∧
    (recipe + 2 ^ 266) / 2 ^ 266 % 2 ^ 22 ≠ 0 ∧ 8 < (recipe + 8 * 2 ^ 256) / 2 ^ 256 % 16 ∧
    badHeader (BitVec.ofNat 512 (recipe + 2 ^ 256 + 0x7D * 2 ^ 32)) = none ∧ recipeWordOk (BitVec.ofNat 512 (recipe + 2 ^ 256 + 0x7D * 2 ^ 32)) 1 = false ∧
    recipeWordOk (BitVec.ofNat 512 (recipe + 2 ^ 256 + 0x7D * 2 ^ 32)) 0 = true := by decide +kernel

theorem witness_BooksAndRoutes_drop : Drained (here (tabling recipe true 0 0x100000 0)) ∧ (∃ p, (here (withBook true)).tables.book[(31 : BitVec 5).toNat] = some p) :=
  ⟨drained_of (by decide +kernel), _, rfl⟩

/-- An entry image for tag 4,095 of context 1, of the executing tenant and of another; the out-channel 7; words that are no key. -/
theorem witness_BooksAndRoutes_bind : (∀ ten ∈ [0, 7], let s := tabling (0x5000 + 2 ^ 64) true ten 0 4095
      valueOf (readImage 0 (ownAddr 0x80) 32 s) = some (0x5000 + 2 ^ 64) ∧ routeKey 4095 1 = some (.tag 4095) ∧
      strayBits routeFields (0x5000 + 2 ^ 64) = false ∧ routeOk (routeEntry (.tag 4095) (0x5000 + 2 ^ 64) 0) = true ∧
      ((findContext s 1).map fun x => x.tenant) = some (BitVec.ofNat 16 ten)) ∧
    routeKey (2 ^ 63 + 7) 1 = some (.out 1 7) ∧ routeKey 4096 0 = none ∧ routeKey (2 ^ 63 + 8) 0 = none ∧
    (here (tabling 0 true 0 0 0)).tables.route = [] := by decide +kernel

/-- A node at core (3, 5) and the hub, with an image that keeps the rules, at steward level. -/
def growing (w : DWord) (member : Bool) : State :=
  with0 (tabling (1 + 2 ^ 16 + 2 ^ 22 + 3 * 2 ^ 16 + (if member then 2 ^ 23 else 0) + 2 ^ 25 + 3 * 2 ^ 48 + 2 ^ 65) true 0 0 w) fun k => { k with level := .steward }

theorem witness_TreeTables : ∀ p ∈ [(9 + 2 ^ 16 * 3 + 2 ^ 24 * 5, true), (9 + 2 ^ 32, false)],
    let s := growing (BitVec.ofNat 64 p.1) p.2
    let v := 1 + 2 ^ 16 + 2 ^ 22 + 3 * 2 ^ 16 + (if p.2 then 2 ^ 23 else 0) + 2 ^ 25 + 3 * 2 ^ 48 + 2 ^ 65
    let n : Node := if p.2 then some (coreAt 3 5) else none
    nodeOf (BitVec.ofNat 64 p.1) = some (n, 9) ∧ (here s).level ≠ .task ∧ valueOf (readImage 0 (ownAddr 0x80) 16 s) = some v ∧ (ownAddr 0x80).toNat % 16 = 0 ∧
    treeOk n v (treeEntry 9 v 0) = true ∧ ((findContext s 1).map fun x => x.tenant) = some 0 ∧ treeAt s n 9 = none ∧ treesAt s n = [] ∧
    groupBusy s 9 1 = false ∧ groupAborting s 9 1 = false ∧ ((getCore s (coreAt 3 5)).fenced = false ∧ lostWay s 0 (coreAt 3 5) = none) := by decide +kernel

theorem witness_TreeTables_idle : Drained (here (growing 9 true)) ∧ LinkFree (here (growing 9 true)) ∧ HomeTakes (growing 9 true) 0 none ∧
    (here (onTask 0 0 0)).level = .task :=
  ⟨drained_of (by decide +kernel), link_of (by decide +kernel), takes_of none (by decide +kernel), by decide +kernel⟩

/-- A barrier of core 3,071 with EXPECT `e` and ARRIVED `a` and the executing core in DONE or dropped as asked. -/
def barring (st : BarrierState) (e a : Nat) (dn gn : Bool) (w : BarWait) : State :=
  let s := with0 (onTask (47 + 63 * 256) 0 0) fun k => { k with streams := { k.streams with barWait := w } }
  putBarrier s 3071 255 { state := st, ctx := 1, tenant := 0, setn := e, expect := e, arrived := a, phase := 0, doneSet := if dn then [0] else [],
                          gone := if gn then [0] else [], waiters := [], lost := 9 }

/-- An arrival before the last, and the last. -/
theorem witness_BarrierArrivalRules : ∀ a ∈ [254, 255],
    let s := barring .active 256 a false false .idle
    let s1 := release s 0 .pkg allRegions
    let v := barrierAt (afterIssue s1 0) 3071 255
    homeOf (getS (here s) 1) = some 3071 ∧ s1.cur = 0 ∧ ((getCore s1 0).doing = none ∧ (getCore s1 0).remote = none ∧ (getCore s1 0).flits = [] ∧ (getCore s1 0).seq = (here s).seq) ∧
    v.state = .active ∧ v.tenant = (getCore (afterIssue s1 0) 0).tregs.tenant ∧ v.ctx = ctxOf (getCore (afterIssue s1 0) 0) ∧ v.gone = [] ∧ v.doneSet = [] ∧
    v.arrived = a ∧ v.expect = 256 ∧ (here s).streams.arrived ≠ some (here s).pc ∧ (here s).streams.barWait = .idle := by decide +kernel

theorem witness_BarrierArrivalRules_idle : Drained (here (barring .active 256 254 false false .idle)) ∧ LinkFree (here (barring .active 256 254 false false .idle)) ∧
    Reaches (afterIssue (release (barring .active 256 254 false false .idle) 0 .pkg allRegions) 0) 0 3071 ∧
    ReleaseFree (barring .active 256 254 false false .idle) 0 .pkg allRegions ∧
    HomeTakes (release (barring .active 256 254 false false .idle) 0 .pkg allRegions) 0 none :=
  ⟨drained_of (by decide +kernel), link_of (by decide +kernel), reaches_of (by decide +kernel), free_of (by decide +kernel), takes_of none (by decide +kernel)⟩

/-- The states in which an arrival faults: dropped, in DONE, past EXPECT, FREE, BROKEN. -/
theorem witness_BarrierArrivalRules_faults :
    let at_ (s : State) : Barrier := barrierAt (afterIssue (release s 0 .pkg allRegions) 0) 3071 255
    ((0 : CoreId) ∈ (at_ (barring .active 2 1 false true .idle)).gone) ∧ (¬ (0 : CoreId) ∈ (at_ (barring .active 2 1 true false .idle)).gone) ∧
    ((0 : CoreId) ∈ (at_ (barring .active 2 1 true false .idle)).doneSet) ∧
    ((at_ (barring .active 2 2 false false .idle)).expect < (at_ (barring .active 2 2 false false .idle)).arrived + 1) ∧
    (at_ (onTask (47 + 63 * 256) 0 0)).state = .free ∧ (at_ (barring .broken 2 1 false false .idle)).state = .broken := by decide +kernel

/-- A wait that is released, one that is broken, one that goes on; and a core that is in DONE or not, before the last arrival and at it. -/
theorem witness_BarrierWaits : (here (barring .active 2 1 true false .released)).streams.barWait = .released ∧
    (here (barring .active 2 1 true false (.broken 9))).streams.barWait = .broken 9 ∧
    (here (barring .active 2 1 true false (.waiting 3071 255))).streams.barWait = .waiting 3071 255 ∧
    (∀ dn ∈ [true, false], let s := barring .active 2 1 dn false .idle
      let v := barrierAt (afterIssue s 0) 3071 255
      (here s).streams.barWait = .idle ∧ v.state = .active ∧ v.tenant = (here s).tregs.tenant ∧ v.ctx = ctxOf (here s) ∧ decide ((0 : CoreId) ∈ v.doneSet) = dn ∧
      freePushes s (acquirePushes s 0 .pkg allRegions) = true ∧ freePushes (afterIssue s 0) (acquirePushes (afterIssue s 0) 0 .pkg allRegions) = true) := by decide +kernel

/-- A `bwait` at a FREE entry, at one of another context, and at a BROKEN one. -/
theorem witness_BarrierWaits_faults :
    let v (s : State) : Barrier := barrierAt (afterIssue s 0) 3071 255
    let other := with0 (barring .active 2 1 false false .idle) fun k => { k with task := some { loneTask with ctx := 5 } }
    (v (onTask (47 + 63 * 256) 0 0)).state = .free ∧ (v other).ctx ≠ ctxOf (here other) ∧ (v other).tenant = (here other).tregs.tenant ∧
    (v (barring .broken 2 1 false false .idle)).state = .broken ∧
    (v (barring .broken 2 1 false false .idle)).ctx = ctxOf (here (barring .broken 2 1 false false .idle)) := by decide +kernel

theorem witness_BarrierWaits_reaches : Reaches (afterIssue (barring .broken 2 1 false false .idle) 0) 0 3071 ∧
    HomeTakes (barring .broken 2 1 false false .idle) 0 none ∧ LinkFree (here (barring .broken 2 1 false false .idle)) :=
  ⟨reaches_of (by decide +kernel), takes_of none (by decide +kernel), link_of (by decide +kernel)⟩

/-- The last arrival of `barw`, which acquires. -/
theorem witness_BarrierWaits_last : let s1 := release (barring .active 2 1 false false .idle) 0 .pkg allRegions
    let u := afterIssue s1 0
    let v := barrierAt u 3071 255
    v.arrived + 1 = v.expect ∧ AcquireFree (completePhase u 3071 255 { v with arrived := v.arrived + 1, doneSet := v.doneSet ++ [0] }) 0 .pkg allRegions :=
  ⟨by decide +kernel, pushes_of (by decide +kernel)⟩

/-- A FREE entry, one of the executing context and tenant, and one of another tenant; counts of 0, 256 and 257. -/
theorem witness_BarrierEntries : homeOf (getS (here (onTask (47 + 63 * 256) 256 257)) 1) = some 3071 ∧ (getS (here (onTask (47 + 63 * 256) 256 257)) 2).toNat ≤ 256 ∧
    256 < (getS (here (onTask (47 + 63 * 256) 256 257)) 3).toNat ∧ (barrierAt (onTask (47 + 63 * 256) 256 257) 3071 255).state = .free ∧
    (barrierAt (barring .active 256 0 false false .idle) 3071 255).setn = 256 ∧ (barrierAt (barring .active 256 0 false false .idle) 3071 255).waiters = [] ∧
    (barrierAt (barring .active 256 0 false false .idle) 3071 255).ctx = ctxOf (here (barring .active 256 0 false false .idle)) ∧
    (barrierAt (with0 (barring .active 256 0 false false .idle) fun k => { k with tregs := { k.tregs with tenant := 7 } }) 3071 255).tenant ≠ 7 ∧
    (getS (here (onTask (47 + 63 * 256) 0 0)) 2).toNat = 0 := by decide +kernel

theorem witness_EventsAct : (eventEffect (.coreReset 3071)).isSome = true ∧ (Instr.coreReset 3071).wellFormed = true ∧
    (eventEffect (.coreReset 3072)).isSome = true ∧ (Instr.coreReset 3072).wellFormed = false ∧ (eventEffect .packageReset).isSome = true ∧
    (onTask 0 0 0).hub.regs.power.on = true := by decide +kernel

theorem witness_FootprintsStayDisjoint : (onTask 0 0 0).hub.regs.power.on = true ∧ DistinctLids (onTask 0 0 0) ∧ FootprintsDisjoint (onTask 0 0 0) :=
  ⟨by decide +kernel, List.Pairwise.nil, List.Pairwise.nil⟩

/-- Core 3,071 with a budget of one cycle, a line as old as its lease and one a tick younger, a request at its time-out and one a tick before, and TLB entries. -/
def timing (reissues : Nat) (age : Nat) : State :=
  let k : Core := { taskCore 0 0 0 0 with
    l1 := [(1, { codeLine 0 with filled := BitVec.ofNat 64 (2 ^ 20 - 65536), lease := 65536 })]
    remote := some { Remote.new 0 0 false false 0 with issued := BitVec.ofNat 64 (2 ^ 20 - age), reissues := reissues } }
  { setCore (onTask 0 0 0) 3071 { k with tregs := { k.tregs with budget := 1 } } with time := 2 ^ 20 }

theorem witness_TimersAndLeases : (∀ p ∈ [(2, 16384), (3, 16384), (0, 16383)],
      let s := timing p.1 p.2
      let k := getCore s 3071
      s.hub.regs.power.on = true ∧ isCore 3071 = true ∧ k.level = .task ∧ k.task.isSome = true ∧ k.tregs.budget = 1 ∧ (k.l1.find 1).isSome = true ∧
      (k.remote.map fun r => (r.reissues, r.due, r.failed)) = some (p.1, false, false) ∧ k.posted = [] ∧
      ((k.remote.map fun r => decide ((s.time - r.issued).toNat < 16384)) = some (decide (p.2 < 16384)))) ∧
    (65536 : Word).toNat ≤ ((2 ^ 20 : DWord) - BitVec.ofNat 64 (2 ^ 20 - 65536)).toNat ∧ (getCore (timing 0 0) 3071).tables.tlb = [] ++ tlbOf 0 :: [] ∧
    ({ timing 0 0 with timeHalted := true } : State).timeHalted = true ∧
    (getCore (with0 (timing 0 0) fun k => { k with posted := [(1, Remote.new 0 0 true false 0)] }) 0).posted = [(1, Remote.new 0 0 true false 0)] := by decide +kernel

/-- A packet for core 3,071 on a tag that is unbound, bound for another context, and bound for its own with a full buffer and with room. -/
def arriving (bound : Bool) (ctx : HWord) (n : Nat) : State :=
  let s := onTask 0 0 0
  let p := packetTo (here s) 0 (47 + 63 * 256 + 9 * 65536) true (scalarRow 1)
  let k : Core := { taskCore 0 0 0 0 with
    tables := { Tables.reset with route := if bound then [routeEntry (.tag 9) (0x5000 + ctx.toNat * 2 ^ 64) 0] else [] }
    queues := { Queues.reset with recv := List.replicate n { pkt := p, tick := 0 } } }
  let s := setCore s 3071 k
  { s with hub := { s.hub with net := [p] } }

theorem witness_ArrivalsAndTiles_packets :
    (arriving true 1 63).hub.regs.power.on = true ∧ (arriving true 1 63).hub.net = [] ++ packetTo (here (onTask 0 0 0)) 0 (47 + 63 * 256 + 9 * 65536) true (scalarRow 1) :: [] ∧
    (getCore (arriving true 1 63) 3071).fenced = false ∧ lostWay (arriving true 1 63) 0 3071 = none ∧
    routeOf (getCore (arriving false 1 0) 3071) 9 = none ∧ ((routeOf (getCore (arriving true 1 63) 3071) 9).map fun e => e.ctx) = some 1 ∧
    ((routeOf (getCore (arriving true 2 63) 3071) 9).map fun e => e.ctx) = some 2 ∧ (getCore (arriving true 1 63) 3071).queues.recv.length < 64 ∧
    64 ≤ (getCore (arriving true 1 64) 3071).queues.recv.length ∧ (arriving true 1 63).hub.flits = [] ∧
    (∀ p ∈ (arriving true 1 63).hub.net, p.way.passage (arriving true 1 63).time false = .goes ∧ stalePacket (getCore (arriving true 1 63) 3071) p = false ∧
      stalePacket { getCore (arriving true 1 63) 3071 with pktSeen := [(0, 0)] } p = true) := by decide +kernel

/-- Cores (0, 0) and (0, 1) of one gang, the first with an `mpass` of a FULL latch at the head, the second with an EMPTY one; and a latch that loads. -/
def handing : State :=
  let k : Core := { taskCore 0 0 0 0 with tregs := { TaskRegs.reset with foot := BitVec.ofNat 48 (6 * 2 ^ 16 + 8 * 2 ^ 24 + 6 * 2 ^ 32 + 8 * 2 ^ 40) } }
  let k0 : Core := { k with
    files := { k.files with l := (k.files.l.setIfInBounds 1 { Latch.blank with state := .full }).setIfInBounds 0 { Latch.blank with state := .loading } }
    streams := { k.streams with mq := [{ postedEntry k (.mpass 1) with started := true }] } }
  setCore (onCore k0) (coreAt 0 1) k

theorem witness_ArrivalsAndTiles_tiles : handing.hub.regs.power.on = true ∧ (latchOf (getCore handing 0) 0).state = .loading ∧ handOnOf (getCore handing 0) = some (1, 1) ∧
    ringNeighbour (getCore handing 0) 0 ≠ 0 ∧ sameGang (getCore handing 0) (getCore handing (ringNeighbour (getCore handing 0) 0)) = true ∧
    (getCore handing (ringNeighbour (getCore handing 0) 0)).fenced = false ∧ (latchOf (getCore handing (ringNeighbour (getCore handing 0) 0)) 1).state = .empty ∧
    movingInto handing 0 0 = false ∧ handsOn (getCore handing 0) = false ∧ handsOn (getCore (handOn handing 0 1) 0) = true ∧
    (latchOf (getCore (handOn handing 0 1) (ringNeighbour (getCore handing 0) 0)) 1).state = .loading := by decide +kernel

theorem witness_FencesAndResets : ∃ s t : State, s.hub.regs.power.on = true ∧ isCore 3071 = true ∧ (getCore s 3071).fenced = false ∧ (getCore t 3071).fenced = true :=
  ⟨onTask 0 0 0, setCore (onTask 0 0 0) 3071 { Core.reset with fenced := true }, by decide +kernel⟩

/-- Aligned and other addresses, region values at the limits of their fields, a hub that is ready and one that is not, and a clock above 500 MHz. -/
theorem witness_HubActs : (2 ^ 64 - 128 : DWord).toNat % 128 = 0 ∧ (127 : DWord).toNat % 128 ≠ 0 ∧ (onTask 0 0 0).hub.fifo.length < 1024 ∧ (onTask 0 0 0).hub.fifoHeld = [] ∧
    6 ≤ (6 * 2 ^ 34 : DWord).toNat / 2 ^ 34 % 8 ∧ 14 ≤ (14 * 2 ^ 37 : DWord).toNat / 2 ^ 37 % 16 ∧ (5 * 2 ^ 34 + 13 * 2 ^ 37 : DWord).toNat / 2 ^ 34 % 8 ≤ 5 ∧
    (5 * 2 ^ 34 + 13 * 2 ^ 37 : DWord).toNat / 2 ^ 37 % 16 ≤ 13 ∧ (5 * 2 ^ 34 + 13 * 2 ^ 37 : DWord).toNat / 2 ^ 33 % 2 = 0 ∧
    (onTask 0 0 0).hub.regs.ready.hub = true ∧ State.reset.hub.regs.ready.hub = false ∧ State.reset.hub.regs.power.on = true ∧
    500 ≤ (onTask 0 0 0).hub.regs.power.clk.toNat := by decide +kernel

/-- A step from a state whose memory lists bytes. -/
theorem witness_MemoryCanonicalKept : MemoryCanonical (State.reset.withFetchWord 32 0x00700285) ∧ stepIs (State.reset.withFetchWord 32 0x00700285) (fun _ => true) = true :=
  ⟨(by decide +kernel : Memory.wf (State.reset.withFetchWord 32 0x00700285).store.bytes = true), by decide +kernel⟩

/-- The last byte and the last doubleword of the partition, stored and loaded back with the same size. -/
theorem witness_ReadAfterWrite : (∀ p ∈ [(0, Instr.stb 2 1 7), (3, .std 2 1 7)], ((Stores 2 1 7)[p.1]?.map fun f => f.1) = some p.2) ∧
    (∀ f ∈ Stores 2 1 7, ((Loads 5 1 7).filter fun g => g.2.1 == f.2) ≠ []) ∧ Drained (here (onTask (ownAddr 0x9FFF8) 0 0)) ∧
    OwnScratch (onTask (ownAddr 0x9FFF8) 0 0) (eaOf (here (onTask (ownAddr 0x9FFF8) 0 0)) 1 7) 0x9FFFF 1 :=
  ⟨by decide +kernel, by decide +kernel, drained_of (by decide +kernel), own_of (by decide +kernel)⟩

end Sys2Proof.Tests
end

/-! ## Posting to the streams (R32, R53, R109, R155) -/

namespace Sys2Proof.Machine

/-- Two changes of one core in a row are one change. -/
theorem updCore_updCore (s : State) (c : CoreId) (f g : Core → Core) :
    updCore (updCore s c f) c g = updCore s c fun k => g (f k) := by
  simp [updCore, setCore_setCore]

/-! ### Which meaning posts -/

/-- An instruction of the vector stream without a check of its own is posted as its V3 equivalent (R32, R53). -/
theorem exec_of_vectorLength {i : Instr} {len : Nat} (h : vectorLength i = some len) (s : State) :
    exec i s = postVector (asV3 i) len (fun c => return newEntry (← theCore c) (asV3 i)) s := by
  cases i <;> cases h <;> rfl

/-- What the control thread checks before it posts an instruction of the matrix stream: the plot, for the two of the ring (R155). -/
def matrixCheck (i : Instr) (c : CoreId) : M Unit := if ringOnly i then needPlot i c else pure ()

/-- An instruction of the matrix stream is posted after its check. -/
theorem exec_of_matrixPosted {i : Instr} (h : matrixPosted i = true) (s : State) :
    exec i s = postMatrix i (matrixCheck i) s := by
  cases i <;> cases h <;> rfl

/-! ### A post that has to wait -/

/-- A replay that posts holds an instruction of the vector stream back (R261). -/
theorem postVector_wait_posting {i : Instr} {len : Nat} {entry : CoreId → M Entry} {s : State} (hw : i.wellFormed = true)
    (hr : (here s).streams.rep.run ≠ none) : postVector i len entry s = .next s := by
  unfold postVector
  rw [if_neg (by simp [hw])]
  exact congrArg (finishPost s len eagerVector) (M.bind_error (notPosting_wait hr))

/-- A full vector queue holds an instruction with its entry back (R32). -/
theorem postVector_wait_full {i : Instr} {len : Nat} {entry : CoreId → M Entry} {s s' : State} {e : Entry} (hw : i.wellFormed = true)
    (hr : (here s).streams.rep.run = none) (he : entry s.cur s = .ok e s') (hq : vectorDepth ≤ (getCore s' s.cur).streams.vq.length) :
    postVector i len entry s = .next s' := by
  have hfull : (theCore s.cur >>= fun k => awaitThat (k.streams.vq.length < vectorDepth) >>= fun _ =>
      modCore s.cur fun k => enqueueVector k e : M Unit) s' = .error .wait s' := by
    simp [Nat.not_lt.2 hq]
  unfold postVector
  rw [if_neg (by simp [hw])]
  refine (congrArg (finishPost s len eagerVector) (M.bind_ok (notPosting_ok hr))).trans ?_
  exact (congrArg (finishPost s len eagerVector) (M.bind_ok he)).trans (congrArg (finishPost s len eagerVector) hfull)

/-- A replay that posts holds an instruction of the matrix stream back (R261). -/
theorem postMatrix_wait_posting {i : Instr} {check : CoreId → M Unit} {s : State} (hw : i.wellFormed = true)
    (hr : (here s).streams.rep.run ≠ none) : postMatrix i check s = .next s := by
  unfold postMatrix
  rw [if_neg (by simp [hw])]
  exact congrArg (finishPost s 4 eagerMatrix) (M.bind_error (notPosting_wait hr))

/-- A full matrix queue holds an instruction that passes its check back (R32). -/
theorem postMatrix_wait_full {i : Instr} {check : CoreId → M Unit} {s s' : State} (hw : i.wellFormed = true)
    (hr : (here s).streams.rep.run = none) (he : check s.cur s = .ok () s') (hq : matrixDepth ≤ (getCore s' s.cur).streams.mq.length) :
    postMatrix i check s = .next s' := by
  have hfull : (theCore s.cur >>= fun k => awaitThat (k.streams.mq.length < matrixDepth) >>= fun _ =>
      modCore s.cur fun k => enqueueMatrix k (newEntry k i) : M Unit) s' = .error .wait s' := by
    simp [Nat.not_lt.2 hq]
  unfold postMatrix
  rw [if_neg (by simp [hw])]
  refine (congrArg (finishPost s 4 eagerMatrix) (M.bind_ok (notPosting_ok hr))).trans ?_
  exact (congrArg (finishPost s 4 eagerMatrix) (M.bind_ok he)).trans (congrArg (finishPost s 4 eagerMatrix) hfull)

/-- An instruction of the matrix stream whose check traps takes the trap (R155). -/
theorem postMatrix_trap {i : Instr} {check : CoreId → M Unit} {s s' : State} {t : TrapInfo} (hw : i.wellFormed = true)
    (hr : (here s).streams.rep.run = none) (he : check s.cur s = .error (.trap t) s') :
    postMatrix i check s = .next (stopAt s s' s.cur (controlTrap t (here s).pc)) := by
  unfold postMatrix
  rw [if_neg (by simp [hw])]
  refine (congrArg (finishPost s 4 eagerMatrix) (M.bind_ok (notPosting_ok hr))).trans ?_
  exact congrArg (finishPost s 4 eagerMatrix) (M.bind_error he)

/-! ### What follows a post (log 7) -/

/-- An entry that has just been posted to the vector queue runs exactly where the queue was empty and the stream is not lazy. -/
theorem eagerVector_of_post (s : State) (c : CoreId) (e : Entry) (len : Nat) :
    let t := updCore s c fun k => postsVector k e len
    eagerVector t c = if (getCore s c).streams.vq = [] ∧ (getCore s c).streams.lazyV = false then runVectorHead t c else t := by
  simp [eagerVector, postsVector]

/-- The same for the matrix queue. -/
theorem eagerMatrix_of_post (s : State) (c : CoreId) (e : Entry) :
    let t := updCore s c fun k => postsMatrix k e
    eagerMatrix t c = if (getCore s c).streams.mq = [] ∧ (getCore s c).streams.lazyM = false then runMatrixHead t c else t := by
  simp [eagerMatrix, postsMatrix]

/-! ### The checks of the matrix stream -/

/-- Whether the task's plot is 6 × 8, by its two fields (R155). -/
theorem ringPlot_iff (k : Core) :
    ringPlot k = true ↔ (slice k.tregs.foot 32 8 : Byte) = 6 ∧ (slice k.tregs.foot 40 8 : Byte) = 8 := by
  simp [ringPlot]

/-- The check of a matrix instruction passes where it asks for no plot or stands in one. -/
theorem matrixCheck_ok {i : Instr} {c : CoreId} {s : State} (h : ringOnly i = true → ringPlot (getCore s c) = true) :
    matrixCheck i c s = .ok () s := by
  cases hr : ringOnly i with
  | false => simp [matrixCheck, hr]
  | true => simp [matrixCheck, needPlot, hr, h hr]

/-- It raises ILLEGAL_OP outside a plot (R155). -/
theorem matrixCheck_trap {i : Instr} {c : CoreId} {s : State} (hr : ringOnly i = true) (h : ¬ringPlot (getCore s c) = true) :
    matrixCheck i c s = .error (.trap (trapInfo .illegalOp (encodingOf i))) s := by
  simp [matrixCheck, needPlot, hr, h]

/-! ### The two obligations -/

/-- Settles O32: every form is posted by `postVector`, whose three ends are the entry in its queue, the wait for a replay and the
wait for room. -/
theorem vectorPosts : Obligations.VectorPosts := by
  intro s i len hi hw
  have hentry : (do return newEntry (← theCore s.cur) (asV3 i) : M Entry) s = .ok (postedEntry (here s) (asV3 i)) s := rfl
  rw [exec_of_vectorLength hi]
  refine ⟨fun hr hq => ?_, fun h => ?_⟩
  · rw [postVector_ok hw hr hentry hq]
    simp only [updCore_cur, updCore_updCore]
    exact congrArg Host.Outcome.next (eagerVector_of_post s s.cur (postedEntry (here s) (asV3 i)) len)
  · by_cases hr : (here s).streams.rep.run = none
    · exact postVector_wait_full hw hr hentry (h.resolve_left fun hn => hn hr)
    · exact postVector_wait_posting hw hr

/-- Settles O33: every form is posted by `postMatrix` after its check, so that the check's trap comes before the wait for room. -/
theorem matrixPosts : Obligations.MatrixPosts := by
  intro s i hi hw
  rw [exec_of_matrixPosted hi]
  simp only [← ringPlot_iff]
  refine ⟨fun hr hplot hq => ?_, fun hr hring hplot => ?_, fun h => ?_⟩
  · rw [postMatrix_ok hw hr (matrixCheck_ok hplot) hq]
    simp only [updCore_cur, updCore_updCore]
    exact congrArg Host.Outcome.next (eagerMatrix_of_post s s.cur (postedEntry (here s) i))
  · exact postMatrix_trap hw hr (matrixCheck_trap hring hplot)
  · by_cases hr : (here s).streams.rep.run = none
    · obtain ⟨hplot, hq⟩ := h.resolve_left fun hn => hn hr
      exact postMatrix_wait_full hw hr (matrixCheck_ok hplot) hq
    · exact postMatrix_wait_posting hw hr

end Sys2Proof.Machine

/-! ## Time-outs, leases and entries that run out (R46, R200, R291, R376 to R378) -/

namespace Sys2Proof.Machine

/-! ### Events that change one core -/

/-- A core changed leaves everything else of the package as it was. -/
theorem onlyAt_updCore (s : State) (c : CoreId) (f : Core → Core) : OnlyAt s (updCore s c f) c where
  cores d h := getCore_updCore_other s c d f h
  hub := rfl
  l2 := rfl
  store := rfl
  time := ⟨rfl, rfl, rfl⟩
  turn := ⟨rfl, rfl⟩

/-- An event that changes one core of the package answers a state in which that core alone is changed. -/
theorem event_at {s : State} {c : CoreId} {f : Core → Core} (hp : s.hub.regs.power.on = true) (hc : isCore c = true) :
    ∃ t, event (isCore c) (fun s => updCore s c f) s = .next t ∧ OnlyAt s t c ∧ getCore t c = f (getCore s c) :=
  ⟨updCore s c f, by rw [hc, event_ok hp], onlyAt_updCore s c f, getCore_updCore_self s c f⟩

/-! ### Budgets (R46) -/

/-- The last cycle of a task's budget at task level. -/
theorem expireBudget_last {k : Core} (hl : k.level = .task) (ht : k.task.isSome = true) (hb : k.tregs.budget = 1) :
    expireBudget k = { k with tregs := { k.tregs with budget := 0 }, pend := { k.pend with budget := true } } :=
  if_pos ⟨hl, ht, hb⟩

/-! ### Leases of L1 lines (R200) -/

/-- A line that is not owned and as old as its lease becomes stale. -/
theorem expireL1_of_due {now : DWord} {line : Nat} {k : Core} {l : L1Line} (hf : k.l1.find line = some l) (ho : l.owned = false)
    (ha : l.lease.toNat ≤ (now - l.filled).toNat) :
    expireL1 now line k = { k with l1 := k.l1.put line { l with stale := true } } := by
  simp [expireL1, hf, ho, ha, -BitVec.toNat_sub]

/-! ### Time-outs of requests (R376, R377) -/

/-- A request that its home holds, or that is not as old as its time-out, stays as it is. -/
theorem Remote.expired_none {r : Remote} {now : DWord}
    (h : r.held = true ∨ (now - r.issued).toNat < timeoutTicks r.long) : r.expired now = none := by
  rcases h with h | h <;> simp [Remote.expired, h, -BitVec.toNat_sub]

/-- A request at its time-out is due for a reissue, and after the third has failed. -/
theorem Remote.expired_late {r : Remote} {now : DWord} (hd : r.due = false) (hf : r.failed = false)
    (h : ¬(r.held = true ∨ (now - r.issued).toNat < timeoutTicks r.long)) :
    r.expired now = some (if r.reissues < 3 then { r with due := true } else { r with failed := true }) := by
  obtain ⟨hh, ha⟩ := not_or.1 h
  simp only [Remote.expired, hd, hf, Bool.eq_false_of_not_eq_true hh, decide_eq_false ha, Bool.or_self, Bool.false_eq_true, if_false]
  exact (apply_ite some _ _ _).symm

/-- The one request of a core after its time-out has been looked at, which stays where it is not late. -/
def Remote.after (r : Remote) (now : DWord) : Remote := (r.expired now).getD r

/-- The request of the control thread, where no posted one awaits a reply. -/
theorem timeOut_remote {k : Core} {r : Remote} (now : DWord) (hr : k.remote = some r) (hp : k.posted = []) :
    timeOut now k = { k with remote := some (r.after now) } := by
  have hc : (k.remote.bind fun r => r.expired now) = r.expired now := by rw [hr]; rfl
  have hs : (k.posted.findSome? fun e => (e.2.expired now).map fun r => (e.1, r)) = none := by rw [hp]; rfl
  cases h : r.expired now with
  | none => simp only [timeOut, Remote.after, hc, hs, h, Option.getD_none, ← hr]
  | some q => simp only [timeOut, Remote.after, hc, h, Option.getD_some]

/-- The only posted request, where the control thread awaits no reply. -/
theorem timeOut_posted {k : Core} {n : Nat} {r : Remote} (now : DWord) (hr : k.remote = none) (hp : k.posted = [(n, r)]) :
    timeOut now k = { k with posted := [(n, r.after now)] } := by
  have hc : (k.remote.bind fun r => r.expired now) = none := by rw [hr]; rfl
  have hs : (k.posted.findSome? fun e => (e.2.expired now).map fun r => (e.1, r)) = (r.expired now).map fun q => (n, q) := by
    simp [hp]
  cases h : r.expired now with
  | none => simp only [timeOut, Remote.after, hc, hs, h, Option.map_none, Option.getD_none, ← hp]
  | some q =>
    have hput : k.posted.put n q = [(n, q)] := by simp [hp, Tab.put]
    simp only [timeOut, Remote.after, hc, hs, h, Option.map_some, Option.getD_some, hput]

/-- What a request becomes, with its time-out in ticks (R376). -/
theorem Remote.after_eq {r : Remote} (now : DWord) (hd : r.due = false) (hf : r.failed = false) :
    r.after now = if r.held = true ∨ (now - r.issued).toNat < (if r.long then 1048576 else 16384) then r
      else if r.reissues < 3 then { r with due := true } else { r with failed := true } := by
  by_cases h : r.held = true ∨ (now - r.issued).toNat < timeoutTicks r.long
  · exact (congrArg (·.getD r) (Remote.expired_none h)).trans (if_pos h).symm
  · exact (congrArg (·.getD r) (Remote.expired_late hd hf h)).trans (if_neg h).symm

/-! ### Records of the homes (R378) -/

/-- A record stands at a barrier's home or a node, and at an L2 home for 262,144 ticks. -/
theorem DupRecord.stands_iff (d : DupRecord) (now : DWord) :
    d.stands now = true ↔ d.home = none ∨ (now - d.tick).toNat < 262144 := by
  show (d.home.isNone || decide ((now - d.tick).toNat < 262144)) = true ↔ _
  simp only [Bool.or_eq_true, Option.isNone_iff_eq_none, decide_eq_true_eq]

/-! ### TLB entries (R291) -/

/-- A list without the entry after its first part. -/
theorem dropNth_append {α : Type} (xs : List α) (x : α) (ys : List α) : dropNth (xs ++ x :: ys) xs.length = xs ++ ys := by
  induction xs with
  | nil => rfl
  | cons y xs ih => exact congrArg (y :: ·) ih

/-! ### The obligation -/

/-- Settles O54: each event is one change of one core, or of the hub alone, whose effect its lemma above gives. -/
theorem timersAndLeases : Obligations.TimersAndLeases := by
  intro s c hp hc
  refine ⟨fun hl ht hb => ?budget, fun line l hf ho ha => ?lease, fun r hd hf => ⟨fun hr hq => ?control, fun n hr hq => ?stream⟩,
    ?records, fun xs x ys hx => ?tlb, ?halt, ?resume, fun hh => if_pos hh⟩
  case budget =>
    rw [← expireBudget_last hl ht hb]
    exact event_at hp hc
  case lease =>
    obtain ⟨t, he, hat, hk⟩ := event_at (f := expireL1 s.time line.toNat) hp hc
    rw [expireL1_of_due hf ho ha] at hk
    refine ⟨t, he, hat, ?_, fun n hn => ?_⟩
    · simp [hk]
    · simp [hk, Tab.find_put_other _ _ _ _ hn]
  case control =>
    rw [← Remote.after_eq s.time hd hf, ← timeOut_remote s.time hr hq]
    exact event_at hp hc
  case stream =>
    rw [← Remote.after_eq s.time hd hf, ← timeOut_posted s.time hr hq]
    exact event_at hp hc
  case records =>
    refine ⟨expireRecords s, event_ok hp, ⟨rfl, rfl, rfl, ⟨rfl, rfl, rfl⟩, ⟨rfl, rfl⟩⟩, fun d => ?_⟩
    simp [expireRecords, DupRecord.stands_iff, -BitVec.toNat_sub]
  case tlb =>
    rw [← dropNth_append xs x ys, ← hx]
    exact event_at hp hc
  case halt => exact event_ok (f := fun s => { s with timeHalted := true }) hp
  case resume => exact event_ok (f := fun s => { s with timeHalted := false }) hp

end Sys2Proof.Machine

/-! ## What the memory's traffic leaves of the concierge (R39, R40)

Writes of the hub's engines recall owners, fold partials, spill copies and grant locks; none of that touches the list of launches. One
lemma for each operation, from the homes up to `hubStore`. -/

namespace Sys2Proof.Machine

/-- A fold of operations that each keep the launches keeps them. -/
theorem foldl_launches {β : Type} {f : State → β → State} (h : ∀ s b, (f s b).hub.launches = s.hub.launches) (l : List β) (s : State) :
    (l.foldl f s).hub.launches = s.hub.launches := by
  induction l generalizing s with
  | nil => rfl
  | cons b l ih => exact (ih (f s b)).trans (h s b)

/-! ### Counting, copies in L2 and their write-backs -/

@[simp] theorem queueErr_launches (s : State) (e : ErrRec) : (queueErr s e).hub.launches = s.hub.launches := rfl

@[simp] theorem putStoreLine_launches (s : State) (line : Nat) (d : BitVec 1024) (mask : BitVec 128) (p : BitVec 32) :
    (putStoreLine s line d mask p).hub.launches = s.hub.launches := rfl

@[simp] theorem evictErrors_launches (s : State) (coord line : Nat) (bad : BitVec 4) (dirty : BitVec 128) (writer : Word) :
    (evictErrors s coord line bad dirty writer).hub.launches = s.hub.launches := by
  unfold evictErrors
  split
  · rfl
  · refine foldl_launches (fun s i => ?_) _ s
    split <;> rfl

@[simp] theorem notePort_launches (s : State) (line : Nat) : (notePort s line).hub.launches = s.hub.launches := by
  unfold notePort
  split
  · rfl
  · split <;> rfl

@[simp] theorem roomForRecord_launches (s : State) (bits line : Nat) : (roomForRecord s bits line).hub.launches = s.hub.launches := by
  unfold roomForRecord
  split
  · rfl
  · dsimp only
    split
    · rfl
    · split <;> rfl

@[simp] theorem countPage_launches (s : State) (who : Who) (ac line : Nat) : (countPage s who ac line).hub.launches = s.hub.launches := by
  unfold countPage
  split
  · rfl
  · dsimp only
    cases (roomForRecord s ac line).hub.pages.find (pageKey ac line) <;> dsimp only <;> split <;> exact roomForRecord_launches s ac line

@[simp] theorem applyBack_launches (s : State) (line : Nat) (p : Payload) : (applyBack s line p).hub.launches = s.hub.launches := by
  unfold applyBack
  dsimp only
  split <;> (simp; split <;> simp)

@[simp] theorem dropL2_launches (s : State) (line : Nat) : (dropL2 s line).hub.launches = s.hub.launches := by
  unfold dropL2
  split
  · split <;> rfl
  · rfl

@[simp] theorem writeBackL2_launches (s : State) (line : Nat) : (writeBackL2 s line).hub.launches = s.hub.launches := by
  unfold writeBackL2
  split
  · split
    · rfl
    · exact applyBack_launches _ _ _
  · rfl

@[simp] theorem evictL2_launches (s : State) (line : Nat) : (evictL2 s line).hub.launches = s.hub.launches := by simp [evictL2]

@[simp] theorem hubFlit_launches (s : State) : (hubFlit s).1.hub.launches = s.hub.launches := by
  unfold hubFlit
  split <;> rfl

@[simp] theorem replySpill_launches (s : State) (m : Spill) : (replySpill s m).hub.launches = s.hub.launches := by
  unfold replySpill
  dsimp only
  split <;> exact hubFlit_launches s

@[simp] theorem issueSpill_launches (s : State) (m : Spill) : (issueSpill s m).hub.launches = s.hub.launches := by
  unfold issueSpill
  dsimp only
  split
  · exact hubFlit_launches s
  · split
    · simp
    · split <;> simp

@[simp] theorem sendL2_launches (s : State) (line : Nat) (drop : Bool) : (sendL2 s line drop).hub.launches = s.hub.launches := by
  unfold sendL2
  split
  · split
    · split <;> simp
    · split <;> simp
  · rfl

@[simp] theorem spillL2_launches (s : State) (line : Nat) : (spillL2 s line).hub.launches = s.hub.launches := sendL2_launches s line true

@[simp] theorem renewL2_launches (s : State) (line : Nat) : (renewL2 s line).hub.launches = s.hub.launches := by
  unfold renewL2
  split <;> rfl

@[simp] theorem expireL2_launches (s : State) (line : Nat) : (expireL2 s line).hub.launches = s.hub.launches := by
  unfold expireL2
  split
  · split <;> simp
  · rfl

@[simp] theorem roomL2_launches (s : State) (line : Nat) : (roomL2 s line).hub.launches = s.hub.launches := by
  unfold roomL2
  split
  · rfl
  · split <;> simp

@[simp] theorem takeL2_launches (s : State) (line : Nat) : (takeL2 s line).hub.launches = s.hub.launches := by
  unfold takeL2
  split <;> simp

@[simp] theorem meetErrors_launches (s : State) (who : Who) (line : Nat) : (meetErrors s who line).hub.launches = s.hub.launches := by
  unfold meetErrors
  dsimp only
  split
  · rfl
  · refine foldl_launches (fun s b => ?_) _ _
    split
    · rfl
    · exact queueErr_launches s _

@[simp] theorem writeL2_launches (s : State) (who : Who) (line : Nat) (d : BitVec 1024) (mask : BitVec 128) (p : BitVec 32)
    (region : Byte) (writer : Word) : (writeL2 s who line d mask p region writer).hub.launches = s.hub.launches := by
  unfold writeL2
  dsimp only
  split <;> simp

@[simp] theorem fillL2_launches (s : State) (who : Who) (line : Nat) (region : Byte) : (fillL2 s who line region).hub.launches = s.hub.launches := by
  unfold fillL2
  split
  · rfl
  · dsimp only
    split <;> simp

@[simp] theorem pinLine_launches (s : State) (who : Who) (line : Nat) (region : Byte) : (pinLine s who line region).hub.launches = s.hub.launches := by
  unfold pinLine
  dsimp only
  split
  · split <;> rfl
  · split <;> split <;> simp

/-! ### The host's copies, partials and locks -/

@[simp] theorem syncHost_launches (s : State) (line : Nat) (drop : Bool) : (syncHost s line drop).hub.launches = s.hub.launches := by
  unfold syncHost
  split
  · dsimp only
    split <;> simp
  · rfl

@[simp] theorem foldOne_launches (s : State) (line : Nat) (e : Nat × CoreId × Partial) : (foldOne s line e).hub.launches = s.hub.launches := by
  unfold foldOne
  split
  · exact writeL2_launches _ _ _ _ _ _ _ _
  · rfl

@[simp] theorem foldWords_launches (s : State) (line : Nat) (words : Word) : (foldWords s line words).hub.launches = s.hub.launches := by
  unfold foldWords
  dsimp only
  split
  · rfl
  · exact (foldl_launches (fun s e => foldOne_launches s line e) _ _).trans (by simp)

@[simp] theorem roomForPartial_launches (s : State) (line : Nat) : (roomForPartial s line).hub.launches = s.hub.launches := by
  unfold roomForPartial
  split
  · rfl
  · dsimp only
    split
    · rfl
    · split
      · exact foldWords_launches _ _ _
      · rfl

@[simp] theorem markWatched_launches (s : State) (c : CoreId) (g : Byte) : (markWatched s c g).hub.launches = s.hub.launches := by
  unfold markWatched
  split
  · split <;> rfl
  · rfl

@[simp] theorem grantAt_launches (s : State) (w : Nat) : (grantAt s w).hub.launches = s.hub.launches := by
  unfold grantAt
  split
  · dsimp only
    split <;> simp
  · rfl

@[simp] theorem grantZeros_launches (s : State) (line : Nat) (mask : BitVec 128) : (grantZeros s line mask).hub.launches = s.hub.launches := by
  refine foldl_launches (fun s e => ?_) _ s
  dsimp only
  split
  · rfl
  · split
    · exact grantAt_launches s e.1
    · rfl

@[simp] theorem noteLate_launches (s : State) (line : Nat) : (noteLate s line).hub.launches = s.hub.launches := by
  unfold noteLate
  split
  · split <;> rfl
  · rfl

/-! ### Pushes -/

@[simp] theorem applyPush_launches (s : State) (who met : Who) (ac line : Nat) (d : BitVec 1024) (mask : BitVec 128) (p : BitVec 32)
    (region : Byte) (writer : Word) : (applyPush s who met ac line d mask p region writer).hub.launches = s.hub.launches := by
  unfold applyPush
  split <;> simp

@[simp] theorem passHome_launches (s : State) (c : CoreId) (line : Nat) (d : BitVec 1024) (mask : BitVec 128) (p : BitVec 32) :
    (passHome s c line d mask p).hub.launches = s.hub.launches := by
  unfold passHome
  dsimp only
  split <;> rfl

@[simp] theorem homePartial_launches (s : State) (c : CoreId) (w : Nat) (p : Partial) : (homePartial s c w p).hub.launches = s.hub.launches := by
  simp [homePartial]

@[simp] theorem useFree_launches (s : State) (line : Nat) : (useFree s line).hub.launches = s.hub.launches := by
  unfold useFree
  split <;> rfl

@[simp] theorem serveWords_launches (s : State) (who : Who) (ac line : Nat) (region : Byte) (words : Word) :
    (serveWords s who ac line region words).1.hub.launches = s.hub.launches := by
  unfold serveWords
  dsimp only
  split <;> simp

@[simp] theorem applyL1_launches (s : State) (cause c : CoreId) (line : Nat) (p : Payload) : (applyL1 s cause c line p).hub.launches = s.hub.launches := by
  unfold applyL1
  dsimp only
  split
  · simp
  · split <;> simp

@[simp] theorem dropL1_launches (s : State) (c : CoreId) (line : Nat) : (dropL1 s c line).hub.launches = s.hub.launches := by
  unfold dropL1
  split
  · split <;> rfl
  · rfl

@[simp] theorem endOwn_launches (s : State) (o : CoreId) (line : Nat) : (endOwn s o line).hub.launches = s.hub.launches := rfl

@[simp] theorem applyHome_launches (s : State) (cause hc : CoreId) (line : Nat) (drop : Bool) (p : Payload) :
    (applyHome s cause hc line drop p).hub.launches = s.hub.launches := by
  simp [applyHome]

@[simp] theorem fillHome_launches (s : State) (hc : CoreId) (line : Nat) (region : Byte) (ac : Nat) :
    (fillHome s hc line region ac).hub.launches = s.hub.launches := by
  unfold fillHome
  split
  · rfl
  · exact serveWords_launches _ _ _ _ _ _

@[simp] theorem applyCluster_launches (s : State) (c : CoreId) (line : Nat) (p : Payload) : (applyCluster s c line p).hub.launches = s.hub.launches := by
  simp [applyCluster]

@[simp] theorem bumpRegion_launches (s : State) (g : Nat) : (bumpRegion s g).hub.launches = s.hub.launches := by
  unfold bumpRegion
  split <;> rfl

@[simp] theorem takePart_launches (s : State) (c : CoreId) (p : Push) : (takePart s c p).hub.launches = s.hub.launches := by
  cases p <;> rfl

@[simp] theorem PushMsg.perform_launches (s : State) (m : PushMsg) : (PushMsg.perform s m).hub.launches = s.hub.launches := by
  unfold PushMsg.perform
  match m.push with
  | .fold w =>
    dsimp only
    split
    · exact homePartial_launches _ _ _ _
    · rfl
  | .line l => simp
  | .cluster l => simp
  | .evict l => simp
  | .recall l => simp
  | .home l drop => simp
  | .foreign l drop =>
    dsimp only
    split <;> simp
  | .bump g => simp

@[simp] theorem recordPush_launches (s : State) (m : PushMsg) : (recordPush s m).hub.launches = s.hub.launches := by
  unfold recordPush
  split <;> rfl

@[simp] theorem settleLine_launches (s : State) (c : CoreId) (line : Nat) : (settleLine s c line).hub.launches = s.hub.launches :=
  foldl_launches (fun s m => by simp) _ s

@[simp] theorem performNow_launches (s : State) (cause c : CoreId) (p : Push) : (performNow s cause c p).hub.launches = s.hub.launches := by
  simp [performNow]

@[simp] theorem homePush_launches (s : State) (who : Who) (ac line : Nat) (d : BitVec 1024) (mask : BitVec 128) (p : BitVec 32)
    (region : Byte) (writer : Word) (met : Who) : (homePush s who ac line d mask p region writer met).hub.launches = s.hub.launches := by
  unfold homePush
  split
  · rfl
  · refine (applyPush_launches _ _ _ _ _ _ _ _ _ _).trans ?_
    split
    · exact performNow_launches _ _ _ _
    · rfl

/-! ### Writes of the hub's engines -/

@[simp] theorem engineWrite_launches (fuel : Nat) (s : State) (pa n v marks : Nat) :
    (engineWrite fuel s pa n v marks).hub.launches = s.hub.launches := by
  induction fuel generalizing s pa n v marks with
  | zero => rfl
  | succ fuel ih =>
    unfold engineWrite
    split
    · rfl
    · refine (ih _ _ _ _ _).trans ?_
      split
      · rfl
      · split <;> simp

@[simp] theorem hubStore_launches (s : State) (pa n v : Nat) : (hubStore s pa n v).hub.launches = s.hub.launches :=
  engineWrite_launches _ s pa n v 0

@[simp] theorem putStatus_launches (s : State) (pa : DWord) (code : Nat) : (putStatus s pa code).hub.launches = s.hub.launches :=
  hubStore_launches s _ 4 code

end Sys2Proof.Machine

/-! ## Placement (R40, R41) -/

namespace Sys2Proof.Machine

/-! ### Rectangles -/

/-- Two rectangles share a core in either order. -/
theorem Rect.overlaps_comm (a b : Rect) : a.overlaps b = b.overlaps a := by
  rw [Bool.eq_iff_iff]
  simp only [Rect.overlaps, Bool.and_eq_true, decide_eq_true_eq]
  omega

/-- No occupied launch overlaps a free footprint. -/
theorem overlaps_of_rectFree {s : State} {r : Rect} (h : rectFree s r = true) {m : Launch} (hm : m ∈ s.hub.launches)
    (ho : m.occupies = true) : m.rect.overlaps r = false := by
  obtain ⟨hall, -⟩ := (Bool.and_eq_true _ _).mp h
  simpa [ho] using List.all_eq_true.1 hall m hm

/-- The clusters of a free footprint are ready. -/
theorem rectReady_of_rectFree {s : State} {r : Rect} (h : rectFree s r = true) : rectReady s r = true :=
  ((Bool.and_eq_true _ _).mp h).2

/-! ### The waits tested -/

/-- Testing a launch's waits leaves its LID, its footprint, and whether it occupies it. -/
theorem testLaunch_keeps (s : State) (l : Launch) :
    (testLaunch s l).lid = l.lid ∧ (testLaunch s l).occupies = l.occupies ∧ (testLaunch s l).rect = l.rect := by
  unfold testLaunch
  split <;> exact ⟨rfl, rfl, rfl⟩

/-- The package with the waits of its launches tested. -/
def tested (s : State) : State := { s with hub := { s.hub with launches := s.hub.launches.map (testLaunch s) } }

/-- The launches keep their LIDs. -/
theorem tested_distinctLids {s : State} (h : DistinctLids s) : DistinctLids (tested s) := by
  have hl : Launch.lid ∘ testLaunch s = Launch.lid := funext fun l => (testLaunch_keeps s l).1
  simpa [DistinctLids, tested, hl] using h

/-- The occupied footprints stay. -/
theorem tested_footprintsDisjoint {s : State} (h : FootprintsDisjoint s) : FootprintsDisjoint (tested s) := by
  refine List.pairwise_map.2 (List.Pairwise.imp (fun {a b} hab ha hb => ?_) h)
  obtain ⟨-, hoa, hra⟩ := testLaunch_keeps s a
  obtain ⟨-, hob, hrb⟩ := testLaunch_keeps s b
  rw [hra, hrb]
  exact hab (hoa ▸ ha) (hob ▸ hb)

/-- An occupied launch of the tested package was occupied before. -/
theorem mem_tested {s : State} {l : Launch} (h : l ∈ (tested s).hub.launches) (ho : l.occupies = true) :
    ∃ m ∈ s.hub.launches, m.lid = l.lid ∧ m.occupies = true := by
  obtain ⟨m, hm, rfl⟩ := List.mem_map.1 h
  obtain ⟨hlid, hocc, -⟩ := testLaunch_keeps s m
  exact ⟨m, hm, hlid.symm, hocc ▸ ho⟩

/-! ### The launch that is placed, and where -/

/-- The order of consideration lists what has been put into it. -/
theorem mem_insertLaunch {l m : Launch} {ls : List Launch} (h : m ∈ insertLaunch l ls) : m = l ∨ m ∈ ls := by
  induction ls with
  | nil => simpa [insertLaunch] using h
  | cons a r ih =>
    unfold insertLaunch at h
    split at h
    · simpa using h
    · rcases List.mem_cons.1 h with h | h
      · exact .inr (h ▸ List.mem_cons_self)
      · exact (ih h).imp id (List.mem_cons_of_mem a)

/-- A pending launch is a launch of the package. -/
theorem mem_of_mem_pendingLaunches {s : State} {l : Launch} (h : l ∈ pendingLaunches s) : l ∈ s.hub.launches := by
  have hsub : ∀ ls : List Launch, ∀ m ∈ ls.foldr insertLaunch [], m ∈ ls := by
    intro ls
    induction ls with
    | nil => exact fun m hm => hm
    | cons a r ih =>
      intro m hm
      rcases mem_insertLaunch hm with rfl | hm
      · exact List.mem_cons_self
      · exact List.mem_cons_of_mem a (ih m hm)
  exact List.mem_of_mem_filter (hsub _ l h)

/-- A footprint for a launch is free, and of the size that its block asks for. -/
theorem placeFor_some {s : State} {blockers : List Launch} {l : Launch} {r : Rect} (h : placeFor s blockers l = some r) :
    rectFree s r = true ∧ r.w = (blockRect l.block).w ∧ r.h = (blockRect l.block).h := by
  unfold placeFor at h
  dsimp only at h
  split at h
  · cases h
  · split at h
    · have hok := List.find?_some h
      have hmem := List.mem_of_find?_eq_some h
      simp only [List.mem_flatMap, List.mem_map] at hmem
      obtain ⟨j, -, i, -, rfl⟩ := hmem
      exact ⟨((Bool.and_eq_true _ _).mp hok).1, rfl, rfl⟩
    · split at h
      · rename_i hok
        cases h
        exact ⟨((Bool.and_eq_true _ _).mp hok).1, rfl, rfl⟩
      · cases h

/-- The launch that is placed first is one of those considered, in a footprint for it. -/
theorem firstPlace_some {s : State} {blockers ls : List Launch} {l : Launch} {r : Rect} (h : firstPlace s blockers ls = some (l, r)) :
    l ∈ ls ∧ ∃ bs, placeFor s bs l = some r := by
  induction ls generalizing blockers with
  | nil => cases h
  | cons a rest ih =>
    unfold firstPlace at h
    split at h
    · rename_i hp
      cases h
      exact ⟨List.mem_cons_self, blockers, hp⟩
    · obtain ⟨hl, hbs⟩ := ih h
      exact ⟨List.mem_cons_of_mem a hl, hbs⟩

/-- A launch placed at a footprint, as the n-th of the package. -/
def Launch.placedIn (l : Launch) (r : Rect) (n : Nat) : Launch :=
  { l with state := .placed, x0 := r.x, y0 := r.y, placedAt := n, everPlaced := true, pendingSince := none, clearAt := none }

/-- A launch list with the launch of a LID placed. -/
def placeIn (ls : List Launch) (lid : Word) (r : Rect) (n : Nat) : List Launch := ls.map fun m => if m.lid = lid then m.placedIn r n else m

/-- What placing can do to the launches: their waits are tested, and at most one of them is placed, in a free footprint of its size. -/
theorem placeLaunch_cases (s : State) :
    (placeLaunch s).hub.launches = (tested s).hub.launches ∨
    ∃ l ∈ (tested s).hub.launches, ∃ r, rectFree (tested s) r = true ∧ r.w = (blockRect l.block).w ∧ r.h = (blockRect l.block).h ∧
      (placeLaunch s).hub.launches = placeIn (tested s).hub.launches l.lid r s.hub.places := by
  have heq : placeLaunch s = match firstPlace (tested s) [] (pendingLaunches (tested s)) with
    | none => tested s
    | some (l, r) =>
      let u := modLaunch (tested s) l.lid fun m => m.placedIn r s.hub.places
      putStatus { u with hub := { u.hub with places := u.hub.places + 1 } } l.pa 2 := rfl
  cases h : firstPlace (tested s) [] (pendingLaunches (tested s)) with
  | none => exact .inl (by rw [heq, h])
  | some p =>
    obtain ⟨l, r⟩ := p
    obtain ⟨hl, bs, hbs⟩ := firstPlace_some h
    obtain ⟨hfree, hw, hh⟩ := placeFor_some hbs
    refine .inr ⟨l, mem_of_mem_pendingLaunches hl, r, hfree, hw, hh, ?_⟩
    rw [heq, h]
    exact putStatus_launches _ _ _

/-! ### The footprints after a placement -/

/-- A launch placed at a footprint of its size stands there. -/
theorem Launch.rect_placedIn {l : Launch} {r : Rect} (n : Nat) (hw : r.w = (blockRect l.block).w) (hh : r.h = (blockRect l.block).h) :
    (l.placedIn r n).rect = r := by
  cases r
  cases hw
  cases hh
  rfl

/-- Two launches that occupy no common core. -/
def Launch.Apart (a b : Launch) : Prop := a.occupies = true → b.occupies = true → a.rect.overlaps b.rect = false

/-- A placement keeps the LIDs. -/
theorem placeIn_lids (ls : List Launch) (lid : Word) (r : Rect) (n : Nat) : (placeIn ls lid r n).map Launch.lid = ls.map Launch.lid := by
  simp only [placeIn, List.map_map]
  refine List.map_congr_left fun m _ => ?_
  simp only [Function.comp]
  split <;> rfl

section OnePlaced

variable {ls : List Launch} {l : Launch} {r : Rect} (hd : (ls.map Launch.lid).Nodup) (hl : l ∈ ls)
  (hw : r.w = (blockRect l.block).w) (hh : r.h = (blockRect l.block).h)
include hd hl hw hh

/-- The launch of the LID that is placed stands at its footprint, for no other launch has that LID. -/
theorem rect_placedIn_of_lid {m : Launch} (hm : m ∈ ls) (h : m.lid = l.lid) (n : Nat) : (m.placedIn r n).rect = r := by
  cases List.inj_on_of_nodup_map hd hm hl h
  exact Launch.rect_placedIn n hw hh

/-- A launch of the list after the placement was there before, or stands at the new footprint. -/
theorem mem_placeIn {n : Nat} {m : Launch} (h : m ∈ placeIn ls l.lid r n) : m ∈ ls ∨ m.rect = r := by
  obtain ⟨a, ha, rfl⟩ := List.mem_map.1 h
  split
  · rename_i hlid
    exact .inr (rect_placedIn_of_lid hd hl hw hh ha hlid n)
  · exact .inl ha

/-- A placement at a footprint that no occupied launch overlaps keeps the occupied footprints apart. -/
theorem placeIn_apart (hf : ls.Pairwise Launch.Apart) (hfree : ∀ m ∈ ls, m.occupies = true → m.rect.overlaps r = false) (n : Nat) :
    (placeIn ls l.lid r n).Pairwise Launch.Apart := by
  have hne : ls.Pairwise fun a b => a.lid ≠ b.lid := List.pairwise_map.1 hd
  refine List.pairwise_map.2 ((hne.and hf).imp_of_mem fun {a b} ha hb hab => ?_)
  obtain ⟨hlids, hap⟩ := hab
  by_cases hal : a.lid = l.lid
  · have hbl : b.lid ≠ l.lid := fun h => hlids (hal.trans h.symm)
    rw [if_pos hal, if_neg hbl]
    intro _ hob
    rw [rect_placedIn_of_lid hd hl hw hh ha hal, Rect.overlaps_comm]
    exact hfree b hb hob
  · rw [if_neg hal]
    by_cases hbl : b.lid = l.lid
    · rw [if_pos hbl]
      intro hoa _
      rw [rect_placedIn_of_lid hd hl hw hh hb hbl]
      exact hfree a ha hoa
    · rw [if_neg hbl]
      exact hap

end OnePlaced

/-- Settles O53: the waits tested leave every footprint, and the one launch that is placed stands on a free footprint, whose clusters are
ready and which no occupied launch overlaps. -/
theorem footprintsStayDisjoint : Obligations.FootprintsStayDisjoint := by
  intro s hp hd hf
  have hd' := tested_distinctLids hd
  have hf' : (tested s).hub.launches.Pairwise Launch.Apart := tested_footprintsDisjoint hf
  refine ⟨placeLaunch s, event_ok hp, ?_⟩
  unfold DistinctLids FootprintsDisjoint
  rcases placeLaunch_cases s with h | ⟨l, hl, r, hfree, hw, hh, h⟩
  · rw [h]
    exact ⟨hd', hf', fun m hm ho => .inl (mem_tested hm ho)⟩
  · rw [h]
    refine ⟨(placeIn_lids _ _ _ _).symm ▸ hd', placeIn_apart hd' hl hw hh hf' (fun m hm ho => overlaps_of_rectFree hfree hm ho) _,
      fun m hm ho => ?_⟩
    rcases mem_placeIn hd' hl hw hh hm with hm | rfl
    · exact .inl (mem_tested hm ho)
    · exact .inr (rectReady_of_rectFree (s := tested s) hfree)

end Sys2Proof.Machine

/-! ## Layouts of instruction words (R53 to R72)

An instruction's fields are written down once, from bit 0 up, each with its width. A word that decodes to the instruction has these fields,
and so has the number that `encode` gives. A form (C2, V3, or a major) is a group of instructions that one part of the decoder reads. -/

namespace Sys2Proof.Layout

/-! ### Fields and the number that they make -/

/-- A field of an instruction: its width in bits, and what stands in it. -/
abbrev Field := Nat × Nat

/-- The number whose fields these are, the first lowest. -/
@[simp] def pack : List Field → Nat
  | [] => 0
  | f :: fs => f.2 + 2 ^ f.1 * pack fs

/-- The bits that fields take. -/
@[simp] def width : List Field → Nat
  | [] => 0
  | f :: fs => f.1 + width fs

/-- The fields of a word from bit `lo` hold these values. -/
@[simp] def Reads (w : Nat) : Nat → List Field → Prop
  | _, [] => True
  | lo, f :: fs => fld w lo f.1 = f.2 ∧ Reads w (lo + f.1) fs

/-- Each value fits its field. -/
def Fits (fs : List Field) : Prop := ∀ f ∈ fs, f.2 < 2 ^ f.1

@[simp] theorem fits_nil : Fits [] := List.forall_mem_nil _

theorem fits_cons (f : Field) (fs : List Field) : Fits (f :: fs) ↔ f.2 < 2 ^ f.1 ∧ Fits fs := List.forall_mem_cons

theorem fld_lt (w lo n : Nat) : fld w lo n < 2 ^ n := Nat.mod_lt _ (Nat.two_pow_pos n)

/-- The lowest `n` of `n + m` bits, and the rest. -/
theorem fld_add (w lo n m : Nat) : fld w lo (n + m) = fld w lo n + 2 ^ n * fld w (lo + n) m := by
  rw [fld, fld, fld, Nat.pow_add, Nat.mod_mul, Nat.pow_add, Nat.div_div_eq_div_mul]

/-- A low part of `n` bits and what stands above it are found again in their sum. -/
theorem low_high_inj {n a b x y : Nat} (ha : a < 2 ^ n) (hb : b < 2 ^ n) : a + 2 ^ n * x = b + 2 ^ n * y ↔ a = b ∧ x = y := by
  refine ⟨fun h => ?_, fun ⟨hab, hxy⟩ => by rw [hab, hxy]⟩
  have hlow := congrArg (· % 2 ^ n) h
  simp only [Nat.add_mul_mod_self_left, Nat.mod_eq_of_lt ha, Nat.mod_eq_of_lt hb] at hlow
  subst hlow
  exact ⟨rfl, Nat.eq_of_mul_eq_mul_left (Nat.two_pow_pos n) (Nat.add_left_cancel h)⟩

/-- Fields hold their values exactly where the bits that they take hold the number that they make. -/
theorem reads_iff_fld {fs : List Field} (hf : Fits fs) (w lo : Nat) : Reads w lo fs ↔ fld w lo (width fs) = pack fs := by
  induction fs generalizing lo with
  | nil => simp [fld, Nat.mod_one]
  | cons f fs ih =>
    obtain ⟨hv, hf⟩ := (fits_cons f fs).1 hf
    rw [Reads, ih hf, width, pack, fld_add, low_high_inj (fld_lt w lo f.1) hv]

theorem pack_lt {fs : List Field} (hf : Fits fs) : pack fs < 2 ^ width fs := by
  induction fs with
  | nil => simp
  | cons f fs ih =>
    obtain ⟨hv, hf⟩ := (fits_cons f fs).1 hf
    calc pack (f :: fs) < 2 ^ f.1 * (1 + pack fs) := by rw [pack, Nat.mul_add, Nat.mul_one]; exact Nat.add_lt_add_right hv _
      _ ≤ 2 ^ width (f :: fs) := by rw [width, Nat.pow_add]; exact Nat.mul_le_mul_left _ (by have := ih hf; omega)

theorem reads_append (w lo : Nat) (as bs : List Field) :
    Reads w lo (as ++ bs) ↔ Reads w lo as ∧ Reads w (lo + width as) bs := by
  induction as generalizing lo with
  | nil => simp
  | cons a as ih => simp [ih, and_assoc, Nat.add_assoc]

/-! ### Operands as the decoder reads them -/

@[simp] theorem fbv_toNat (w lo n : Nat) : (fbv w lo n).toNat = fld w lo n := by simp [fbv, fld]

@[simp] theorem fbv_eq_iff (w lo n : Nat) (x : BitVec n) : fbv w lo n = x ↔ fld w lo n = x.toNat := by
  rw [← BitVec.toNat_inj, fbv_toNat]

@[simp] theorem bit_true : bit true = 1 := rfl

@[simp] theorem bit_false : bit false = 0 := rfl

@[simp] theorem flag_eq_iff (w lo : Nat) (b : Bool) : flag w lo = b ↔ fld w lo 1 = bit b := by
  have h := fld_lt w lo 1
  cases b
  · simp only [flag, beq_eq_false_iff_ne, bit_false]
    omega
  · simp [flag]

@[simp] theorem bit_flag (w lo : Nat) : bit (flag w lo) = fld w lo 1 := ((flag_eq_iff w lo _).1 rfl).symm

/-- A byte names the one operand whose code it is (R12). -/
theorem opd_ofCode_eq_iff {b : Nat} (hb : b < 256) (o : Opd) : Opd.ofCode b = o ↔ b = o.code := by
  unfold Opd.ofCode
  cases o <;> split_ifs <;> simp [Opd.code, ← BitVec.toNat_inj] <;> omega

@[simp] theorem opd_fld_eq_iff (w lo : Nat) (o : Opd) : Opd.ofCode (fld w lo 8) = o ↔ fld w lo 8 = o.code :=
  opd_ofCode_eq_iff (fld_lt w lo 8) o

@[simp] theorem opd_fld_code (w lo : Nat) : (Opd.ofCode (fld w lo 8)).code = fld w lo 8 := ((opd_fld_eq_iff w lo _).1 rfl).symm

@[simp] theorem opd_ofCode_code (o : Opd) : Opd.ofCode o.code = o := (opd_ofCode_eq_iff o.code_lt o).2 rfl

/-- A byte names the one row, column or diagonal whose code it is (R12, R55). -/
@[simp] theorem place_ofCode {b : Nat} {v : Place} : Place.ofCode b = some v ↔ b = v.code := by
  unfold Place.ofCode
  cases v <;> split_ifs <;> simp [Place.code, ← BitVec.toNat_inj] <;> omega

@[simp] theorem fmt_ofCode {n : Nat} {f : Fmt} : Fmt.ofCode n = some f ↔ n = f.code := by
  refine ⟨fun h => ?_, fun h => by cases f <;> cases h <;> rfl⟩
  unfold Fmt.ofCode at h
  split at h <;> cases h <;> rfl

@[simp] theorem scope_ofCode {n : Nat} {s : Scope} : Scope.ofCode n = some s ↔ n = s.code := by
  refine ⟨fun h => ?_, fun h => by cases s <;> cases h <;> rfl⟩
  unfold Scope.ofCode at h
  split at h <;> cases h <;> rfl

@[simp] theorem order_ofCode {n : Nat} {o : Order} : Order.ofCode n = some o ↔ n = o.code := by
  refine ⟨fun h => ?_, fun h => by cases o <;> cases h <;> rfl⟩
  unfold Order.ofCode at h
  split at h <;> cases h <;> rfl

@[simp] theorem fpFmt_ofCode {n : Nat} {f : FpFmt} : FpFmt.ofCode n = some f ↔ n = f.code := by
  refine ⟨fun h => ?_, fun h => by cases f <;> cases h <;> rfl⟩
  unfold FpFmt.ofCode at h
  split at h <;> cases h <;> rfl

@[simp] theorem fcvtKind_ofCode {n : Nat} {k : FcvtKind} : FcvtKind.ofCode n = some k ↔ n = k.code := by
  refine ⟨fun h => ?_, fun h => by cases k <;> cases h <;> rfl⟩
  unfold FcvtKind.ofCode at h
  split at h <;> cases h <;> rfl

@[simp] theorem fcmpCond_ofCode {n : Nat} {c : FcmpCond} : FcmpCond.ofCode n = some c ↔ n = c.code := by
  refine ⟨fun h => ?_, fun h => by cases c <;> cases h <;> rfl⟩
  unfold FcmpCond.ofCode at h
  split at h <;> cases h <;> rfl

@[simp] theorem drainKind_ofCode {n : Nat} {k : DrainKind} : DrainKind.ofCode n = some k ↔ n = k.code := by
  refine ⟨fun h => ?_, fun h => by cases k <;> cases h <;> rfl⟩
  unfold DrainKind.ofCode at h
  split at h <;> cases h <;> rfl

@[simp] theorem hDir_ofCode {n : Nat} {d : HDir} : HDir.ofCode n = some d ↔ n = d.code := by
  refine ⟨fun h => ?_, fun h => by cases d <;> cases h <;> rfl⟩
  unfold HDir.ofCode at h
  split at h <;> cases h <;> rfl

@[simp] theorem spr_ofCode {n : Nat} {r : Spr} : Spr.ofCode n = some r ↔ n = r.code := by
  refine ⟨fun h => ?_, fun h => by cases r <;> cases h <;> rfl⟩
  unfold Spr.ofCode at h
  split at h <;> cases h <;> rfl

/-- The two parts of an SO are found again (R64). -/
@[simp] theorem scopeOrder_ofCode {n : Nat} {so : ScopeOrder} : ScopeOrder.ofCode n = some so ↔ n = so.code := by
  have hparts : ScopeOrder.ofCode n = some so ↔ n / 5 = so.scope.code ∧ n % 5 = so.order.code := by
    rw [← scope_ofCode, ← order_ofCode]
    unfold ScopeOrder.ofCode
    cases so
    cases Scope.ofCode (n / 5) <;> cases Order.ofCode (n % 5) <;> simp
  have ho := Order.code_lt so.order
  rw [hparts, ScopeOrder.code]
  omega

/-! ### What a part of the decoder answers -/

/-- Every instruction that a part of the decoder answers has a property. -/
def Yields (x : Except DecodeError Instr) (P : Instr → Prop) : Prop := ∀ i, x = .ok i → P i

section

variable {P : Instr → Prop}

@[simp] theorem yields_ok (i : Instr) : Yields (.ok i) P ↔ P i := by simp [Yields]

@[simp] theorem yields_error (e : DecodeError) : Yields (.error e) P := by simp [Yields]

@[simp] theorem zeroField_bind (n : Nat) (x : Except DecodeError Instr) (i : Instr) :
    (zeroField n >>= fun _ => x) = .ok i ↔ n = 0 ∧ x = .ok i := by
  unfold zeroField
  split <;> simp_all [bind, Except.bind]

@[simp] theorem need_bind {α : Type} (e : DecodeError) (o : Option α) (f : α → Except DecodeError Instr) (i : Instr) :
    (need e o >>= f) = .ok i ↔ ∃ a, o = some a ∧ f a = .ok i := by
  cases o <;> simp [need, bind, Except.bind]

@[simp] theorem yields_zeroField (n : Nat) (x : Except DecodeError Instr) :
    Yields (zeroField n >>= fun _ => x) P ↔ (n = 0 → Yields x P) := by
  simp only [Yields, zeroField_bind, and_imp]
  exact forall_comm

@[simp] theorem yields_need {α : Type} (e : DecodeError) (o : Option α) (f : α → Except DecodeError Instr) :
    Yields (need e o >>= f) P ↔ ∀ a, o = some a → Yields (f a) P := by
  simp only [Yields, need_bind, forall_exists_index, and_imp]
  exact ⟨fun h a ha i hi => h i a ha hi, fun h i a ha hi => h a ha i hi⟩

end

/-! ### Forms -/

/-- A group of instructions that one part of the decoder reads: their length in bytes, the fields that say that a word is one of them, the
part of the decoder, and the fields of each after those. -/
structure Form where
  len : Nat
  head : List Field
  dec : Nat → Except DecodeError Instr
  lay : Instr → Option (List Field)

/-- An instruction whose fields after `head` are `fs`: the form's decoder answers it for every word that has them, its encoding is the number
that all of them make, and they fill its bytes. -/
structure Carries (len : Nat) (head : List Field) (dec : Nat → Except DecodeError Instr) (i : Instr) (fs : List Field) : Prop where
  decodes : ∀ w, i.wellFormed = true → Reads w (width head) fs → dec w = .ok i
  encodes : ∃ v, encode i = some (len, v) ∧ v = pack (head ++ fs)
  fits : Fits (head ++ fs)
  fills : width (head ++ fs) = 8 * len

/-- The decoder and the encoder agree with the fields of a form: what the decoder answers has its fields in the word, and each instruction
of the form carries its fields. -/
structure Form.Exact (F : Form) : Prop where
  answers : ∀ w, Yields (F.dec w) fun i => ∃ fs, F.lay i = some fs ∧ Reads w (width F.head) fs
  carries : ∀ i fs, F.lay i = some fs → Carries F.len F.head F.dec i fs

/-! ### Values that fit their fields -/

@[simp] theorem fits_cons_of_lt {n v : Nat} (h : v < 2 ^ n) (fs : List Field) : Fits ((n, v) :: fs) ↔ Fits fs :=
  (fits_cons _ _).trans (and_iff_right h)

@[simp] theorem fits_bits {n : Nat} (x : BitVec n) (fs : List Field) : Fits ((n, x.toNat) :: fs) ↔ Fits fs := fits_cons_of_lt x.isLt fs

@[simp] theorem fits_bit (x : Bool) (fs : List Field) : Fits ((1, bit x) :: fs) ↔ Fits fs := fits_cons_of_lt (bit_lt x) fs

@[simp] theorem fits_opd (x : Opd) (fs : List Field) : Fits ((8, x.code) :: fs) ↔ Fits fs := fits_cons_of_lt (Opd.code_lt x) fs

@[simp] theorem fits_place (x : Place) (fs : List Field) : Fits ((8, x.code) :: fs) ↔ Fits fs := fits_cons_of_lt (Place.code_lt x) fs

@[simp] theorem fits_fmt (x : Fmt) (fs : List Field) : Fits ((4, x.code) :: fs) ↔ Fits fs := fits_cons_of_lt (Fmt.code_lt x) fs

@[simp] theorem fits_scope (x : Scope) (fs : List Field) : Fits ((3, x.code) :: fs) ↔ Fits fs := fits_cons_of_lt (Scope.code_lt x) fs

@[simp] theorem fits_order (x : Order) (fs : List Field) : Fits ((3, x.code) :: fs) ↔ Fits fs :=
  fits_cons_of_lt ((Order.code_lt x).trans_le (by decide)) fs

@[simp] theorem fits_scopeOrder (x : ScopeOrder) (fs : List Field) : Fits ((5, x.code) :: fs) ↔ Fits fs :=
  fits_cons_of_lt (ScopeOrder.code_lt x) fs

@[simp] theorem fits_fpFmt (x : FpFmt) (fs : List Field) : Fits ((1, x.code) :: fs) ↔ Fits fs := fits_cons_of_lt (FpFmt.code_lt x) fs

@[simp] theorem fits_fcvtKind (x : FcvtKind) (fs : List Field) : Fits ((5, x.code) :: fs) ↔ Fits fs :=
  fits_cons_of_lt ((FcvtKind.code_lt x).trans_le (by decide)) fs

@[simp] theorem fits_fcmpCond (x : FcmpCond) (fs : List Field) : Fits ((5, x.code) :: fs) ↔ Fits fs :=
  fits_cons_of_lt ((FcmpCond.code_lt x).trans_le (by decide)) fs

@[simp] theorem fits_drainKind (x : DrainKind) (fs : List Field) : Fits ((2, x.code) :: fs) ↔ Fits fs := fits_cons_of_lt (DrainKind.code_lt x) fs

@[simp] theorem fits_hdir (x : HDir) (fs : List Field) : Fits ((2, x.code) :: fs) ↔ Fits fs := fits_cons_of_lt (HDir.code_lt x) fs

@[simp] theorem fits_spr (x : Spr) (fs : List Field) : Fits ((10, x.code) :: fs) ↔ Fits fs :=
  fits_cons_of_lt ((Spr.code_lt x).trans_le (by decide)) fs

/-! ### The fields of each instruction -/

/-- The field of a bit vector. -/
@[simp] def bits {n : Nat} (x : BitVec n) : Field := (n, x.toNat)

/-- The field of a truth value. -/
@[simp] def one (b : Bool) : Field := (1, bit b)

/-- The field of an operand (R12). -/
@[simp] def opd (o : Opd) : Field := (8, o.code)

/-- The field of a row, column or diagonal (R12). -/
@[simp] def place (v : Place) : Field := (8, v.code)

/-- The fields of the lane operations of form C2 (R53). -/
@[simp] def half (op : Nat) (dcol : Bool) (d : BitVec 5) (bcol : Bool) (b : BitVec 4) : List Field := [(4, op), one dcol, bits d, one bcol, bits b]

/-- Form V3 with three operands (R54). -/
@[simp] def opds3 (op : Nat) (d a b : Opd) : List Field := [(6, op), opd d, opd a, opd b]

/-- Form V3 with two operands. -/
@[simp] def opds2 (op : Nat) (d a : Opd) : List Field := [(6, op), opd d, opd a, (8, 0)]

/-- Form V3 with a mask as its destination. -/
@[simp] def maskOpds (op : Nat) (k : BitVec 3) (a b : Opd) : List Field := [(6, op), bits k, (5, 31), opd a, opd b]

/-- Three scalar registers (R58). -/
@[simp] def regs3 (op : Nat) (rd rs1 rs2 : BitVec 5) : List Field := [bits rd, bits rs1, bits rs2, (5, op), (5, 0)]

/-- Two scalar registers. -/
@[simp] def regs2 (op : Nat) (rd rs1 : BitVec 5) : List Field := [bits rd, bits rs1, (5, 0), (5, op), (5, 0)]

/-- Two scalar registers and an immediate or offset of 12 bits (R58, R61). -/
@[simp] def immediate (op : Nat) (rd rs1 : BitVec 5) (imm : BitVec 12) : List Field := [bits rd, bits rs1, (3, op), bits imm]

/-- Two scalar registers and a shift count. -/
@[simp] def shift (op : Nat) (rd rs1 : BitVec 5) (cnt : BitVec 6) : List Field := [bits rd, bits rs1, (3, op), bits cnt, (6, 0)]

/-- A conditional branch. -/
@[simp] def branch (op : Nat) (rs1 rs2 : BitVec 5) (off : BitVec 12) : List Field := [(3, op), bits rs1, bits rs2, bits off]

/-- Scalar floating point of three registers (R59). -/
@[simp] def floats3 (op : Nat) (f : FpFmt) (rd rs1 rs2 : BitVec 5) : List Field := [bits rd, bits rs1, bits rs2, (4, op), (1, f.code), (5, 0)]

/-- A scalar atomic (R64). -/
@[simp] def atomic (op : Nat) (so : ScopeOrder) (rd : BitVec 5) (rs1 off : BitVec 3) (rs2 : BitVec 5) : List Field :=
  [bits rd, bits rs1, bits rs2, (4, op), (5, so.code), bits off]

/-- A matrix multiplication, by its mode. -/
@[simp] def multiply (op : Nat) (h : BitVec 2) (rs1 : BitVec 5) (l : BitVec 1) (rs2 : BitVec 5) : List Field :=
  [(3, 0), bits h, bits l, (2, op), (1, 0), bits rs1, bits rs2, (6, 0)]

/-- A barrier instruction of a number and one register. -/
@[simp] def barrier (op : Nat) (n : BitVec 8) (rs1 : BitVec 5) : List Field := [(3, op), (5, 0), bits rs1, bits n, (4, 0)]

/-- Form C2 after bit 0 (R53). -/
def layoutC2 : Instr → Option (List Field)
  | .vaddC2 dcol d bcol b => some (half 0 dcol d bcol b)
  | .vsubC2 dcol d bcol b => some (half 1 dcol d bcol b)
  | .vmulC2 dcol d bcol b => some (half 2 dcol d bcol b)
  | .vfmaC2 dcol d bcol b => some (half 3 dcol d bcol b)
  | .vminC2 dcol d bcol b => some (half 4 dcol d bcol b)
  | .vmaxC2 dcol d bcol b => some (half 5 dcol d bcol b)
  | .vandC2 dcol d bcol b => some (half 6 dcol d bcol b)
  | .vorC2 dcol d bcol b => some (half 7 dcol d bcol b)
  | .vxorC2 dcol d bcol b => some (half 8 dcol d bcol b)
  | .vshlC2 dcol d bcol b => some (half 9 dcol d bcol b)
  | .vshrC2 dcol d bcol b => some (half 10 dcol d bcol b)
  | .vsraC2 dcol d bcol b => some (half 11 dcol d bcol b)
  | .vmovC2 dcol d bcol b => some (half 12 dcol d bcol b)
  | .vabsC2 dcol d bcol b => some (half 13 dcol d bcol b)
  | .vnegC2 dcol d bcol b => some (half 14 dcol d bcol b)
  | .vpopcC2 dcol d bcol b => some (half 15 dcol d bcol b)
  | _ => none

/-- Form V3 after bits 1:0 (R54). -/
def layoutV3 : Instr → Option (List Field)
  | .vaddV3 d a b => some (opds3 0 d a b)
  | .vsubV3 d a b => some (opds3 1 d a b)
  | .vmulV3 d a b => some (opds3 2 d a b)
  | .vfmaV3 d a b => some (opds3 3 d a b)
  | .vminV3 d a b => some (opds3 4 d a b)
  | .vmaxV3 d a b => some (opds3 5 d a b)
  | .vandV3 d a b => some (opds3 6 d a b)
  | .vorV3 d a b => some (opds3 7 d a b)
  | .vxorV3 d a b => some (opds3 8 d a b)
  | .vshlV3 d a b => some (opds3 9 d a b)
  | .vshrV3 d a b => some (opds3 10 d a b)
  | .vsraV3 d a b => some (opds3 11 d a b)
  | .vmovV3 d a => some (opds2 12 d a)
  | .vabsV3 d a => some (opds2 13 d a)
  | .vnegV3 d a => some (opds2 14 d a)
  | .vpopcV3 d a => some (opds2 15 d a)
  | .vdiv d a b => some (opds3 16 d a b)
  | .vsqrt d a => some (opds2 17 d a)
  | .vclz d a => some (opds2 18 d a)
  | .vnot d a => some (opds2 19 d a)
  | .vcvt d a fmt rz sat => some [(6, 20), opd d, opd a, (4, fmt.code), one rz, one sat, (2, 0)]
  | .vfmt d a => some [(6, 21), opd d, bits a, (3, 6), (8, 0)]
  | .vclr d => some [(6, 22), opd d, (16, 0)]
  | .vsel d a b => some (opds3 23 d a b)
  | .vceq k a b => some (maskOpds 24 k a b)
  | .vcne k a b => some (maskOpds 25 k a b)
  | .vclt k a b => some (maskOpds 26 k a b)
  | .vcle k a b => some (maskOpds 27 k a b)
  | .vid d => some [(6, 28), opd d, (16, 0)]
  | .vredsum d a => some (opds2 29 d a)
  | .vredmin d a => some (opds2 30 d a)
  | .vredmax d a => some (opds2 31 d a)
  | .vredminx d a => some (opds2 32 d a)
  | .vredand d a => some (opds2 33 d a)
  | .vredor d a => some (opds2 34 d a)
  | .vredxor d a => some (opds2 35 d a)
  | .vslup d a b => some (opds3 36 d a b)
  | .vsldn d a b => some (opds3 37 d a b)
  | .vperm d a b => some (opds3 38 d a b)
  | .vpack d a b => some (opds3 39 d a b)
  | .vunpk d a p => some [(6, 40), opd d, opd a, bits p, (5, 0)]
  | .vdot d a b => some (opds3 41 d a b)
  | .vqnt d a s => some [(6, 42), opd d, opd a, bits s]
  | .vdq d a => some (opds2 43 d a)
  | .vaddSat d a b => some (opds3 44 d a b)
  | .vsubSat d a b => some (opds3 45 d a b)
  | .vmulSat d a b => some (opds3 46 d a b)
  | _ => none

/-- Major 0 after bits 6:0. -/
def layout0 : Instr → Option (List Field)
  | .add rd rs1 rs2 => some (regs3 0 rd rs1 rs2)
  | .sub rd rs1 rs2 => some (regs3 1 rd rs1 rs2)
  | .mul rd rs1 rs2 => some (regs3 2 rd rs1 rs2)
  | .mulh rd rs1 rs2 => some (regs3 3 rd rs1 rs2)
  | .mulhu rd rs1 rs2 => some (regs3 4 rd rs1 rs2)
  | .div rd rs1 rs2 => some (regs3 5 rd rs1 rs2)
  | .divu rd rs1 rs2 => some (regs3 6 rd rs1 rs2)
  | .rem rd rs1 rs2 => some (regs3 7 rd rs1 rs2)
  | .remu rd rs1 rs2 => some (regs3 8 rd rs1 rs2)
  | .and rd rs1 rs2 => some (regs3 9 rd rs1 rs2)
  | .or rd rs1 rs2 => some (regs3 10 rd rs1 rs2)
  | .xor rd rs1 rs2 => some (regs3 11 rd rs1 rs2)
  | .andn rd rs1 rs2 => some (regs3 12 rd rs1 rs2)
  | .shl rd rs1 rs2 => some (regs3 13 rd rs1 rs2)
  | .shr rd rs1 rs2 => some (regs3 14 rd rs1 rs2)
  | .sra rd rs1 rs2 => some (regs3 15 rd rs1 rs2)
  | .min rd rs1 rs2 => some (regs3 16 rd rs1 rs2)
  | .max rd rs1 rs2 => some (regs3 17 rd rs1 rs2)
  | .minu rd rs1 rs2 => some (regs3 18 rd rs1 rs2)
  | .maxu rd rs1 rs2 => some (regs3 19 rd rs1 rs2)
  | .slt rd rs1 rs2 => some (regs3 20 rd rs1 rs2)
  | .sltu rd rs1 rs2 => some (regs3 21 rd rs1 rs2)
  | .clz rd rs1 => some (regs2 22 rd rs1)
  | .ctz rd rs1 => some (regs2 23 rd rs1)
  | .popc rd rs1 => some (regs2 24 rd rs1)
  | .csel rd rs1 rs2 rs3 => some [bits rd, bits rs1, bits rs2, (5, 25), bits rs3]
  | _ => none

/-- Major 1 after bits 6:0. -/
def layout1 : Instr → Option (List Field)
  | .addi rd rs1 imm => some (immediate 0 rd rs1 imm)
  | .andi rd rs1 imm => some (immediate 1 rd rs1 imm)
  | .ori rd rs1 imm => some (immediate 2 rd rs1 imm)
  | .xori rd rs1 imm => some (immediate 3 rd rs1 imm)
  | .shli rd rs1 cnt => some (shift 4 rd rs1 cnt)
  | .shri rd rs1 cnt => some (shift 5 rd rs1 cnt)
  | .srai rd rs1 cnt => some (shift 6 rd rs1 cnt)
  | .slti rd rs1 imm => some (immediate 7 rd rs1 imm)
  | _ => none

/-- Major 2 after bits 6:0. -/
def layout2 : Instr → Option (List Field)
  | .lim rd imm => some [bits rd, (1, 0), bits imm]
  | .apc rd imm => some [bits rd, (1, 1), bits imm]
  | _ => none

/-- Major 3 after bits 6:0. -/
def layout3 : Instr → Option (List Field)
  | .beq rs1 rs2 off => some (branch 0 rs1 rs2 off)
  | .bne rs1 rs2 off => some (branch 1 rs1 rs2 off)
  | .blt rs1 rs2 off => some (branch 2 rs1 rs2 off)
  | .bge rs1 rs2 off => some (branch 3 rs1 rs2 off)
  | .bltu rs1 rs2 off => some (branch 4 rs1 rs2 off)
  | .bgeu rs1 rs2 off => some (branch 5 rs1 rs2 off)
  | _ => none

/-- Major 4 after bits 6:0. -/
def layout4 : Instr → Option (List Field)
  | .jmp rd off => some [bits rd, bits off]
  | _ => none

/-- Major 5 after bits 6:0. -/
def layout5 : Instr → Option (List Field)
  | .jind rd rs1 imm => some [bits rd, bits rs1, (3, 0), bits imm]
  | _ => none

/-- Major 6 after bits 6:0. -/
def layout6 : Instr → Option (List Field)
  | .fadd f rd rs1 rs2 => some (floats3 0 f rd rs1 rs2)
  | .fsub f rd rs1 rs2 => some (floats3 1 f rd rs1 rs2)
  | .fmul f rd rs1 rs2 => some (floats3 2 f rd rs1 rs2)
  | .fdiv f rd rs1 rs2 => some (floats3 3 f rd rs1 rs2)
  | .fsqrt f rd rs1 => some [bits rd, bits rs1, (5, 0), (4, 4), (1, f.code), (5, 0)]
  | .fma f rd rs1 rs2 rs3 => some [bits rd, bits rs1, bits rs2, (4, 5), (1, f.code), bits rs3]
  | .fmin f rd rs1 rs2 => some (floats3 6 f rd rs1 rs2)
  | .fmax f rd rs1 rs2 => some (floats3 7 f rd rs1 rs2)
  | .fcvt f kind rd rs1 => some [bits rd, bits rs1, (5, kind.code), (4, 8), (1, f.code), (5, 0)]
  | .fcmp f cond rd rs1 rs2 => some [bits rd, bits rs1, bits rs2, (4, 9), (1, f.code), (5, cond.code)]
  | _ => none

/-- Major 7 after bits 6:0. -/
def layout7 : Instr → Option (List Field)
  | .sget rd sel => some [(5, 0), bits rd, (5, 0), (10, sel.code)]
  | .sset sel rs1 => some [(5, 1), (5, 0), bits rs1, (10, sel.code)]
  | .trap code => some [(5, 2), (10, 0), bits code]
  | .sysc code => some [(5, 3), (10, 0), bits code]
  | .eret => some [(5, 4), (20, 0)]
  | .isync => some [(5, 5), (20, 0)]
  | .tdone => some [(5, 6), (20, 0)]
  | .nop => some [(5, 7), (20, 0)]
  | _ => none

/-- Major 8 after bits 6:0. -/
def layout8 : Instr → Option (List Field)
  | .ldb rt rs1 imm => some (immediate 0 rt rs1 imm)
  | .ldbu rt rs1 imm => some (immediate 1 rt rs1 imm)
  | .ldh rt rs1 imm => some (immediate 2 rt rs1 imm)
  | .ldhu rt rs1 imm => some (immediate 3 rt rs1 imm)
  | .ldw rt rs1 imm => some (immediate 4 rt rs1 imm)
  | .ldwu rt rs1 imm => some (immediate 5 rt rs1 imm)
  | .ldd rt rs1 imm => some (immediate 6 rt rs1 imm)
  | _ => none

/-- Major 9 after bits 6:0. -/
def layout9 : Instr → Option (List Field)
  | .stb rt rs1 imm => some (immediate 0 rt rs1 imm)
  | .sth rt rs1 imm => some (immediate 1 rt rs1 imm)
  | .stw rt rs1 imm => some (immediate 2 rt rs1 imm)
  | .std rt rs1 imm => some (immediate 3 rt rs1 imm)
  | _ => none

/-- Major 10 after bits 6:0. -/
def layout10 : Instr → Option (List Field)
  | .vldInt6 v rs1 off bit => some [place v, bits rs1, (1, 0), (4, 9), bits bit, bits off]
  | .vld fmt v rs1 off => some [place v, bits rs1, (1, 0), (4, fmt.code), bits off]
  | .vlds fmt v rs1 rs2 => some [place v, bits rs1, (1, 1), (4, fmt.code), bits rs2, (2, 0)]
  | _ => none

/-- Major 11 after bits 6:0. -/
def layout11 : Instr → Option (List Field)
  | .vstInt6 v rs1 off bit => some [place v, bits rs1, (1, 0), (4, 9), bits bit, bits off]
  | .vst fmt v rs1 off => some [place v, bits rs1, (1, 0), (4, fmt.code), bits off]
  | .vsts fmt v rs1 rs2 => some [place v, bits rs1, (1, 1), (4, fmt.code), bits rs2, (2, 0)]
  | _ => none

/-- Major 12 after bits 6:0. -/
def layout12 : Instr → Option (List Field)
  | .vldx fmt v rs1 ix => some [place v, bits rs1, (2, 0), (4, fmt.code), bits ix]
  | .vstx fmt v rs1 ix => some [place v, bits rs1, (2, 1), (4, fmt.code), bits ix]
  | .vaadd sc v rs1 ix => some [place v, bits rs1, (2, 2), (3, sc.code), (1, 0), bits ix]
  | _ => none

/-- Major 13 after bits 6:0. -/
def layout13 : Instr → Option (List Field)
  | .aadd so rd rs1 off rs2 => some (atomic 0 so rd rs1 off rs2)
  | .amin so rd rs1 off rs2 => some (atomic 1 so rd rs1 off rs2)
  | .amax so rd rs1 off rs2 => some (atomic 2 so rd rs1 off rs2)
  | .aminu so rd rs1 off rs2 => some (atomic 3 so rd rs1 off rs2)
  | .amaxu so rd rs1 off rs2 => some (atomic 4 so rd rs1 off rs2)
  | .aand so rd rs1 off rs2 => some (atomic 5 so rd rs1 off rs2)
  | .aor so rd rs1 off rs2 => some (atomic 6 so rd rs1 off rs2)
  | .axor so rd rs1 off rs2 => some (atomic 7 so rd rs1 off rs2)
  | .aswp so rd rs1 off rs2 => some (atomic 8 so rd rs1 off rs2)
  | .acas so rd rs1 off rs2 => some (atomic 9 so rd rs1 off rs2)
  | .aswpDw so rd rs1 off rs2 => some (atomic 10 so rd rs1 off rs2)
  | .acasDw so rd rs1 off rs2 => some (atomic 11 so rd rs1 off rs2)
  | .aaddDw so rd rs1 off rs2 => some (atomic 12 so rd rs1 off rs2)
  | _ => none

/-- Major 14 after bits 6:0. -/
def layout14 : Instr → Option (List Field)
  | .acq sc all g => some [(4, 0), (3, sc.code), one all, (9, 0), bits g]
  | .rel sc all g => some [(4, 1), (3, sc.code), one all, (9, 0), bits g]
  | .fence sc ord => some [(4, 2), (3, sc.code), (3, ord.code), (15, 0)]
  | .own sc rs1 rs2 => some [(4, 3), (3, sc.code), bits rs1, bits rs2, (8, 0)]
  | .disown sc rs1 rs2 => some [(4, 4), (3, sc.code), bits rs1, bits rs2, (8, 0)]
  | .drain kind => some [(4, 5), (3, 0), (2, kind.code), (16, 0)]
  | .pref l2 rs1 => some [(4, 6), (3, 0), bits rs1, one l2, (12, 0)]
  | .qlock sc rs1 => some [(4, 7), (3, sc.code), bits rs1, (13, 0)]
  | .qunlock sc rs1 => some [(4, 8), (3, sc.code), bits rs1, (13, 0)]
  | .xbeg rs1 => some [(4, 9), (3, 0), bits rs1, (13, 0)]
  | .xcmp rs1 rs2 => some [(4, 10), (3, 0), bits rs1, bits rs2, (8, 0)]
  | .xend rd => some [(4, 11), (8, 0), bits rd, (8, 0)]
  | _ => none

/-- Major 15 after bits 6:0. -/
def layout15 : Instr → Option (List Field)
  | .mmaOvw h rs1 l rs2 => some (multiply 0 h rs1 l rs2)
  | .mmaAcc h rs1 l rs2 => some (multiply 1 h rs1 l rs2)
  | .mmaRing h rs1 l rs2 => some (multiply 2 h rs1 l rs2)
  | .mmaArr h rs1 l rs2 => some (multiply 3 h rs1 l rs2)
  | .mdarn h rs1 l d => some [(3, 1), bits h, bits l, (3, 0), bits rs1, (5, 0), bits d, (2, 0)]
  | _ => none

/-- Major 16 after bits 6:0. -/
def layout16 : Instr → Option (List Field)
  | .hmovPeek v h dir i => some [(3, 0), place v, bits h, (2, dir.code), bits i, (1, 1), (2, 0)]
  | .hmov v h dir i => some [(3, 0), place v, bits h, (2, dir.code), bits i, (1, 0), (2, 0)]
  | .hclr h => some [(3, 1), (8, 0), bits h, (12, 0)]
  | .hld h rs1 => some [(3, 2), bits rs1, (3, 0), bits h, (12, 0)]
  | .hst h rs1 => some [(3, 3), bits rs1, (3, 0), bits h, (12, 0)]
  | .hdrain h rs1 rs2 => some [(3, 4), bits rs1, (3, 0), bits h, bits rs2, (7, 0)]
  | .mqpopAcc h i q => some [(3, 5), bits q, (4, 0), bits h, (2, 0), bits i, (1, 1), (2, 0)]
  | .mqpop h i q => some [(3, 5), bits q, (4, 0), bits h, (2, 0), bits i, (1, 0), (2, 0)]
  | .mqpush h i q => some [(3, 6), bits q, (4, 0), bits h, (2, 0), bits i, (3, 0)]
  | _ => none

/-- Major 17 after bits 6:0. -/
def layout17 : Instr → Option (List Field)
  | .mld l rs1 => some [(3, 0), bits l, bits rs1, (16, 0)]
  | .mpass l => some [(3, 1), bits l, (21, 0)]
  | .mwait l => some [(3, 2), bits l, (21, 0)]
  | _ => none

/-- Major 18 after bits 6:0. -/
def layout18 : Instr → Option (List Field)
  | .qpeekPop rd q => some [(3, 0), bits rd, bits q, (1, 1), (12, 0)]
  | .qpeek rd q => some [(3, 0), bits rd, bits q, (1, 0), (12, 0)]
  | .qcount rd q => some [(3, 1), bits rd, bits q, (13, 0)]
  | .send rs1 rs2 => some [(3, 2), bits rs1, bits rs2, (12, 0)]
  | .sendv rs1 v => some [(3, 3), bits rs1, (5, 0), place v, (4, 0)]
  | _ => none

/-- Major 19 after bits 6:0. -/
def layout19 : Instr → Option (List Field)
  | .spush c v => some [(3, 0), bits c, place v, (12, 0)]
  | .spop c v => some [(3, 1), bits c, place v, (12, 0)]
  | .sflush c => some [(3, 2), bits c, (20, 0)]
  | .lbuf rs1 rs2 => some [(3, 3), (10, 0), bits rs1, bits rs2, (2, 0)]
  | .lcfg lv rs1 rs2 => some [(3, 4), (2, 0), bits lv, (5, 0), bits rs1, bits rs2, (2, 0)]
  | .lrun => some [(3, 5), (22, 0)]
  | .lstop => some [(3, 6), (22, 0)]
  | _ => none

/-- Major 20 after bits 6:0. -/
def layout20 : Instr → Option (List Field)
  | .cpost sc rd rs1 => some [(3, 0), bits rd, bits rs1, (5, 0), (3, sc.code), (4, 0)]
  | .cpop rd => some [(3, 1), bits rd, (17, 0)]
  | .launch rd rs1 => some [(3, 2), bits rd, bits rs1, (12, 0)]
  | .cstore sc rs1 rs2 => some [(3, 3), (5, 0), bits rs1, bits rs2, (3, sc.code), (4, 0)]
  | .cwait rd rs1 => some [(3, 4), bits rd, bits rs1, (12, 0)]
  | .cabort rs1 => some [(3, 5), (5, 0), bits rs1, (12, 0)]
  | _ => none

/-- Major 21 after bits 6:0. -/
def layout21 : Instr → Option (List Field)
  | .pdef e rs1 => some [(5, 0), bits e, bits rs1, (10, 0)]
  | .pin n e => some [(5, 1), bits e, (5, 0), bits n, (4, 0)]
  | .unpick n => some [(5, 2), (10, 0), bits n, (4, 0)]
  | .pdrop e => some [(5, 3), bits e, (15, 0)]
  | .lopen d rs1 => some [(5, 4), bits d, (1, 0), bits rs1, (10, 0)]
  | .lset d f rs1 => some [(5, 5), bits d, bits rs1, bits f, (7, 0)]
  | .lclose d => some [(5, 6), bits d, (15, 0)]
  | .linval d => some [(5, 7), bits d, (15, 0)]
  | .lstat rd d => some [(5, 8), bits d, bits rd, (10, 0)]
  | .bind rs1 rs2 => some [(5, 9), bits rs1, bits rs2, (10, 0)]
  | .unbind rs1 => some [(5, 10), bits rs1, (15, 0)]
  | .gtset rs1 rs2 => some [(5, 11), bits rs1, bits rs2, (10, 0)]
  | .gtclr rs1 => some [(5, 12), bits rs1, (15, 0)]
  | .tlbinv sc rs1 => some [(5, 13), bits rs1, (11, 0), (3, sc.code), (1, 0)]
  | _ => none

/-- Major 22 after bits 6:0. -/
def layout22 : Instr → Option (List Field)
  | .bset n rs1 rs2 => some [(3, 0), bits rs2, bits rs1, bits n, (4, 0)]
  | .barr n rs1 => some (barrier 1 n rs1)
  | .barw n rs1 => some (barrier 2 n rs1)
  | .bdrop n rs1 => some (barrier 3 n rs1)
  | .bwait n rs1 => some (barrier 4 n rs1)
  | .bquery rd n rs1 => some [(3, 5), bits rd, bits rs1, bits n, (4, 0)]
  | _ => none

/-- Major 23 after bits 6:0. -/
def layout23 : Instr → Option (List Field)
  | .vfb n off => some [(5, 0), bits n, bits off]
  | .vpb k off => some [(5, 1), bits k, (2, 0), bits off]
  | .vpend => some [(5, 2), (20, 0)]
  | .kbool kd ka kb f => some [(5, 3), bits kd, (2, 0), bits ka, (2, 0), bits kb, (2, 0), bits f, (1, 0)]
  | .kpop rd ka => some [(5, 7), bits rd, bits ka, (12, 0)]
  | .kfirst rd ka => some [(5, 8), bits rd, bits ka, (12, 0)]
  | .kset kd rs1 => some [(5, 9), bits kd, (2, 0), bits rs1, (10, 0)]
  | .kget rd ka => some [(5, 10), bits rd, bits ka, (12, 0)]
  | .kuse ka => some [(5, 11), (5, 0), bits ka, (12, 0)]
  | .vsetvl rd rs1 => some [(5, 12), bits rd, bits rs1, (10, 0)]
  | _ => none
/-! ### Each form is exact -/

@[simp] theorem yields_ite {P : Instr → Prop} (c : Prop) [Decidable c] (x y : Except DecodeError Instr) :
    Yields (if c then x else y) P ↔ (c → Yields x P) ∧ (¬c → Yields y P) := by
  split <;> simp_all

@[simp] theorem fld_one_ne_one (w lo : Nat) : ¬fld w lo 1 = 1 ↔ fld w lo 1 = 0 := by
  have h := fld_lt w lo 1
  omega

/-- Code 9 is that of the format whose loads and stores have a layout of their own (R63). -/
@[simp] theorem fmt_code_eq_nine (f : Fmt) : f.code = 9 ↔ f = .int6 := by cases f <;> decide

/-- A load of that format is no plain load (R62). -/
theorem vld_format {f : Fmt} {v : Place} {rs1 : BitVec 5} {off : BitVec 7} (h : (Instr.vld f v rs1 off).wellFormed = true) : f ≠ .int6 :=
  bne_iff_ne.1 ((Bool.and_eq_true _ _).mp h).2

/-- A store of that format is no plain store (R62). -/
theorem vst_format {f : Fmt} {v : Place} {rs1 : BitVec 5} {off : BitVec 7} (h : (Instr.vst f v rs1 off).wellFormed = true) : f ≠ .int6 :=
  bne_iff_ne.1 h

/-- Form C2 (R53). -/
def formC2 : Form := { len := 2, head := [(1, 0)], dec := fun w => .ok (decodeC2 w), lay := layoutC2 }

/-- Form V3 (R54). -/
def formV3 : Form := { len := 4, head := [(2, 3)], dec := decodeV3, lay := layoutV3 }

/-- A major of the 4-byte instructions (R56). -/
def major (k : Nat) (dec : Nat → Except DecodeError Instr) (lay : Instr → Option (List Field)) : Form :=
  { len := 4, head := [(2, 1), (5, k)], dec := dec, lay := lay }

theorem formC2_exact_of (ha : ∀ w, Yields (.ok (decodeC2 w)) fun i => ∃ fs, layoutC2 i = some fs ∧ Reads w 1 fs)
    (hc : ∀ i fs, layoutC2 i = some fs → Carries 2 [(1, 0)] (fun w => .ok (decodeC2 w)) i fs) : formC2.Exact := ⟨ha, hc⟩

theorem formV3_exact_of (ha : ∀ w, Yields (decodeV3 w) fun i => ∃ fs, layoutV3 i = some fs ∧ Reads w 2 fs)
    (hc : ∀ i fs, layoutV3 i = some fs → Carries 4 [(2, 3)] decodeV3 i fs) : formV3.Exact := ⟨ha, hc⟩

theorem major_exact {k : Nat} {dec : Nat → Except DecodeError Instr} {lay : Instr → Option (List Field)}
    (ha : ∀ w, Yields (dec w) fun i => ∃ fs, lay i = some fs ∧ Reads w 7 fs)
    (hc : ∀ i fs, lay i = some fs → Carries 4 [(2, 1), (5, k)] dec i fs) : (major k dec lay).Exact := ⟨ha, hc⟩

theorem formC2_exact : (formC2).Exact := by
  refine formC2_exact_of (fun w => ?_) (fun i fs hl => ?_)
  · have h := fld_lt w 1 4
    unfold decodeC2
    split <;> exact (yields_ok _).2 ⟨_, rfl, by simp_all <;> omega⟩
  · cases i <;> cases hl <;>
      exact ⟨fun w _ => by simp +contextual [decodeC2],
        ⟨_, rfl, by simp only [pack, List.cons_append, List.nil_append, half, bits, one]; omega⟩, by simp, rfl⟩

theorem formV3_exact : (formV3).Exact := by
  refine formV3_exact_of (fun w => ?_) (fun i fs hl => ?_)
  · unfold decodeV3
    split <;> simp <;> intros <;> exact ⟨_, rfl, by simp [*]⟩
  · cases i <;> cases hl <;>
      exact ⟨fun w _ => by simp +contextual [decodeV3],
        ⟨_, rfl, by simp only [pack, List.cons_append, List.nil_append, opds3, opds2, maskOpds, bits, one, opd]; omega⟩, by simp, rfl⟩

theorem major0_exact : (major 0 decodeMajor0 layout0).Exact := by
  refine major_exact (fun w => ?_) (fun i fs hl => ?_)
  · unfold decodeMajor0
    split <;> simp <;> intros <;> exact ⟨_, rfl, by simp [*]⟩
  · cases i <;> cases hl <;>
      exact ⟨fun w _ => by simp +contextual [decodeMajor0],
        ⟨_, rfl, by simp only [pack, List.cons_append, List.nil_append, regs3, regs2, bits]; omega⟩, by simp, rfl⟩

theorem major1_exact : (major 1 decodeMajor1 layout1).Exact := by
  refine major_exact (fun w => ?_) (fun i fs hl => ?_)
  · have h := fld_lt w 17 3
    unfold decodeMajor1
    split <;> simp <;> intros <;> exact ⟨_, rfl, by simp_all <;> omega⟩
  · cases i <;> cases hl <;>
      exact ⟨fun w _ => by simp +contextual [decodeMajor1],
        ⟨_, rfl, by simp only [pack, List.cons_append, List.nil_append, immediate, shift, bits]; omega⟩, by simp, rfl⟩

theorem major2_exact : (major 2 decodeMajor2 layout2).Exact := by
  refine major_exact (fun w => ?_) (fun i fs hl => ?_)
  · have h := fld_lt w 12 1
    unfold decodeMajor2
    split <;> simp <;> exact ⟨_, rfl, by simp_all <;> omega⟩
  · cases i <;> cases hl <;>
      exact ⟨fun w _ => by simp +contextual [decodeMajor2],
        ⟨_, rfl, by simp only [pack, List.cons_append, List.nil_append, bits]; omega⟩, by simp, rfl⟩

theorem major3_exact : (major 3 decodeMajor3 layout3).Exact := by
  refine major_exact (fun w => ?_) (fun i fs hl => ?_)
  · unfold decodeMajor3
    split <;> simp <;> exact ⟨_, rfl, by simp [*]⟩
  · cases i <;> cases hl <;>
      exact ⟨fun w _ => by simp +contextual [decodeMajor3],
        ⟨_, rfl, by simp only [pack, List.cons_append, List.nil_append, branch, bits]; omega⟩, by simp, rfl⟩

theorem major4_exact : (major 4 decodeMajor4 layout4).Exact := by
  refine major_exact (fun w => ?_) (fun i fs hl => ?_)
  · unfold decodeMajor4
    simp
    exact ⟨_, rfl, by simp⟩
  · cases i <;> cases hl
    exact ⟨fun w _ => by simp +contextual [decodeMajor4],
      ⟨_, rfl, by simp only [pack, List.cons_append, List.nil_append, bits]; omega⟩, by simp, rfl⟩

theorem major5_exact : (major 5 decodeMajor5 layout5).Exact := by
  refine major_exact (fun w => ?_) (fun i fs hl => ?_)
  · unfold decodeMajor5
    simp
    exact fun h => ⟨_, rfl, by simp [h]⟩
  · cases i <;> cases hl
    exact ⟨fun w _ => by simp +contextual [decodeMajor5],
      ⟨_, rfl, by simp only [pack, List.cons_append, List.nil_append, bits]; omega⟩, by simp, rfl⟩

theorem major6_exact : (major 6 decodeMajor6 layout6).Exact := by
  refine major_exact (fun w => ?_) (fun i fs hl => ?_)
  · unfold decodeMajor6
    split <;> simp <;> intros <;> exact ⟨_, rfl, by simp [*]⟩
  · cases i <;> cases hl <;>
      exact ⟨fun w _ => by simp +contextual [decodeMajor6],
        ⟨_, rfl, by simp only [pack, List.cons_append, List.nil_append, floats3, bits]; omega⟩, by simp, rfl⟩

theorem major7_exact : (major 7 decodeMajor7 layout7).Exact := by
  refine major_exact (fun w => ?_) (fun i fs hl => ?_)
  · unfold decodeMajor7
    split <;> simp <;> intros <;> exact ⟨_, rfl, by simp [*]⟩
  · cases i <;> cases hl <;>
      exact ⟨fun w _ => by simp +contextual [decodeMajor7],
        ⟨_, rfl, by simp only [pack, List.cons_append, List.nil_append, bits]; omega⟩, by simp, rfl⟩

theorem major8_exact : (major 8 decodeMajor8 layout8).Exact := by
  refine major_exact (fun w => ?_) (fun i fs hl => ?_)
  · unfold decodeMajor8
    split <;> simp <;> exact ⟨_, rfl, by simp [*]⟩
  · cases i <;> cases hl <;>
      exact ⟨fun w _ => by simp +contextual [decodeMajor8],
        ⟨_, rfl, by simp only [pack, List.cons_append, List.nil_append, immediate, bits]; omega⟩, by simp, rfl⟩

theorem major9_exact : (major 9 decodeMajor9 layout9).Exact := by
  refine major_exact (fun w => ?_) (fun i fs hl => ?_)
  · unfold decodeMajor9
    split <;> simp <;> exact ⟨_, rfl, by simp [*]⟩
  · cases i <;> cases hl <;>
      exact ⟨fun w _ => by simp +contextual [decodeMajor9],
        ⟨_, rfl, by simp only [pack, List.cons_append, List.nil_append, immediate, bits]; omega⟩, by simp, rfl⟩

theorem major10_exact : (major 10 decodeMajor10 layout10).Exact := by
  refine major_exact (fun w => ?_) (fun i fs hl => ?_)
  · have h := fld_lt w 20 1
    unfold decodeMajor10
    (repeat' split) <;> simp <;> intros <;> exact ⟨_, rfl, by simp_all <;> omega⟩
  · cases i <;> cases hl
    next f v rs1 off =>
      exact ⟨fun w hwf => by simp +contextual [decodeMajor10, vld_format hwf],
        ⟨_, rfl, by simp only [pack, List.cons_append, List.nil_append, bits, place]; omega⟩, by simp, rfl⟩
    all_goals
      exact ⟨fun w _ => by simp +contextual [decodeMajor10],
        ⟨_, rfl, by simp only [pack, List.cons_append, List.nil_append, bits, place]; omega⟩, by simp, rfl⟩

theorem major11_exact : (major 11 decodeMajor11 layout11).Exact := by
  refine major_exact (fun w => ?_) (fun i fs hl => ?_)
  · have h := fld_lt w 20 1
    unfold decodeMajor11
    (repeat' split) <;> simp <;> intros <;> exact ⟨_, rfl, by simp_all <;> omega⟩
  · cases i <;> cases hl
    next f v rs1 off =>
      exact ⟨fun w hwf => by simp +contextual [decodeMajor11, vst_format hwf],
        ⟨_, rfl, by simp only [pack, List.cons_append, List.nil_append, bits, place]; omega⟩, by simp, rfl⟩
    all_goals
      exact ⟨fun w _ => by simp +contextual [decodeMajor11],
        ⟨_, rfl, by simp only [pack, List.cons_append, List.nil_append, bits, place]; omega⟩, by simp, rfl⟩

theorem major12_exact : (major 12 decodeMajor12 layout12).Exact := by
  refine major_exact (fun w => ?_) (fun i fs hl => ?_)
  · unfold decodeMajor12
    split <;> simp <;> intros <;> exact ⟨_, rfl, by simp [*]⟩
  · cases i <;> cases hl <;>
      exact ⟨fun w _ => by simp +contextual [decodeMajor12],
        ⟨_, rfl, by simp only [pack, List.cons_append, List.nil_append, bits, place]; omega⟩, by simp, rfl⟩

theorem major13_exact : (major 13 decodeMajor13 layout13).Exact := by
  refine major_exact (fun w => ?_) (fun i fs hl => ?_)
  · unfold decodeMajor13
    split <;> simp <;> intros <;> exact ⟨_, rfl, by simp [*]⟩
  · cases i <;> cases hl <;>
      exact ⟨fun w _ => by simp +contextual [decodeMajor13],
        ⟨_, rfl, by simp only [pack, List.cons_append, List.nil_append, atomic, bits]; omega⟩, by simp, rfl⟩

theorem major14_exact : (major 14 decodeMajor14 layout14).Exact := by
  refine major_exact (fun w => ?_) (fun i fs hl => ?_)
  · unfold decodeMajor14
    split <;> simp <;> intros <;> exact ⟨_, rfl, by simp [*]⟩
  · cases i <;> cases hl <;>
      exact ⟨fun w _ => by simp +contextual [decodeMajor14],
        ⟨_, rfl, by simp only [pack, List.cons_append, List.nil_append, bits, one]; omega⟩, by simp, rfl⟩

theorem major15_exact : (major 15 decodeMajor15 layout15).Exact := by
  refine major_exact (fun w => ?_) (fun i fs hl => ?_)
  · have h := fld_lt w 13 2
    unfold decodeMajor15
    (repeat' split) <;> simp <;> intros <;> exact ⟨_, rfl, by simp_all <;> omega⟩
  · cases i <;> cases hl <;>
      exact ⟨fun w _ => by simp +contextual [decodeMajor15],
        ⟨_, rfl, by simp only [pack, List.cons_append, List.nil_append, multiply, bits]; omega⟩, by simp, rfl⟩

theorem major16_exact : (major 16 decodeMajor16 layout16).Exact := by
  refine major_exact (fun w => ?_) (fun i fs hl => ?_)
  · unfold decodeMajor16
    (repeat' split) <;> simp <;> intros <;> exact ⟨_, rfl, by simp_all⟩
  · cases i <;> cases hl <;>
      exact ⟨fun w _ => by simp +contextual [decodeMajor16],
        ⟨_, rfl, by simp only [pack, List.cons_append, List.nil_append, bits, place]; omega⟩, by simp, rfl⟩

theorem major17_exact : (major 17 decodeMajor17 layout17).Exact := by
  refine major_exact (fun w => ?_) (fun i fs hl => ?_)
  · unfold decodeMajor17
    split <;> simp <;> intros <;> exact ⟨_, rfl, by simp [*]⟩
  · cases i <;> cases hl <;>
      exact ⟨fun w _ => by simp +contextual [decodeMajor17],
        ⟨_, rfl, by simp only [pack, List.cons_append, List.nil_append, bits]; omega⟩, by simp, rfl⟩

theorem major18_exact : (major 18 decodeMajor18 layout18).Exact := by
  refine major_exact (fun w => ?_) (fun i fs hl => ?_)
  · unfold decodeMajor18
    (repeat' split) <;> simp <;> intros <;> exact ⟨_, rfl, by simp_all⟩
  · cases i <;> cases hl <;>
      exact ⟨fun w _ => by simp +contextual [decodeMajor18],
        ⟨_, rfl, by simp only [pack, List.cons_append, List.nil_append, bits, place]; omega⟩, by simp, rfl⟩

theorem major19_exact : (major 19 decodeMajor19 layout19).Exact := by
  refine major_exact (fun w => ?_) (fun i fs hl => ?_)
  · unfold decodeMajor19
    split <;> simp <;> intros <;> exact ⟨_, rfl, by simp [*]⟩
  · cases i <;> cases hl <;>
      exact ⟨fun w _ => by simp +contextual [decodeMajor19],
        ⟨_, rfl, by simp only [pack, List.cons_append, List.nil_append, bits, place]; omega⟩, by simp, rfl⟩

theorem major20_exact : (major 20 decodeMajor20 layout20).Exact := by
  refine major_exact (fun w => ?_) (fun i fs hl => ?_)
  · unfold decodeMajor20
    split <;> simp <;> intros <;> exact ⟨_, rfl, by simp [*]⟩
  · cases i <;> cases hl <;>
      exact ⟨fun w _ => by simp +contextual [decodeMajor20],
        ⟨_, rfl, by simp only [pack, List.cons_append, List.nil_append, bits]; omega⟩, by simp, rfl⟩

theorem major21_exact : (major 21 decodeMajor21 layout21).Exact := by
  refine major_exact (fun w => ?_) (fun i fs hl => ?_)
  · unfold decodeMajor21
    split <;> simp <;> intros <;> exact ⟨_, rfl, by simp [*]⟩
  · cases i <;> cases hl <;>
      exact ⟨fun w _ => by simp +contextual [decodeMajor21],
        ⟨_, rfl, by simp only [pack, List.cons_append, List.nil_append, bits]; omega⟩, by simp, rfl⟩

theorem major22_exact : (major 22 decodeMajor22 layout22).Exact := by
  refine major_exact (fun w => ?_) (fun i fs hl => ?_)
  · unfold decodeMajor22
    split <;> simp <;> intros <;> exact ⟨_, rfl, by simp [*]⟩
  · cases i <;> cases hl <;>
      exact ⟨fun w _ => by simp +contextual [decodeMajor22],
        ⟨_, rfl, by simp only [pack, List.cons_append, List.nil_append, barrier, bits]; omega⟩, by simp, rfl⟩

theorem major23_exact : (major 23 decodeMajor23 layout23).Exact := by
  refine major_exact (fun w => ?_) (fun i fs hl => ?_)
  · unfold decodeMajor23
    split <;> simp <;> intros <;> exact ⟨_, rfl, by simp [*]⟩
  · cases i <;> cases hl <;>
      exact ⟨fun w _ => by simp +contextual [decodeMajor23],
        ⟨_, rfl, by simp only [pack, List.cons_append, List.nil_append, bits]; omega⟩, by simp, rfl⟩
/-! ### All forms -/

/-- The forms of 4 bytes. -/
def wordForms : List Form :=
  [formV3, major 0 decodeMajor0 layout0, major 1 decodeMajor1 layout1, major 2 decodeMajor2 layout2, major 3 decodeMajor3 layout3,
   major 4 decodeMajor4 layout4, major 5 decodeMajor5 layout5, major 6 decodeMajor6 layout6, major 7 decodeMajor7 layout7,
   major 8 decodeMajor8 layout8, major 9 decodeMajor9 layout9, major 10 decodeMajor10 layout10, major 11 decodeMajor11 layout11,
   major 12 decodeMajor12 layout12, major 13 decodeMajor13 layout13, major 14 decodeMajor14 layout14, major 15 decodeMajor15 layout15,
   major 16 decodeMajor16 layout16, major 17 decodeMajor17 layout17, major 18 decodeMajor18 layout18, major 19 decodeMajor19 layout19,
   major 20 decodeMajor20 layout20, major 21 decodeMajor21 layout21, major 22 decodeMajor22 layout22, major 23 decodeMajor23 layout23]

theorem wordForms_exact : ∀ F ∈ wordForms, F.Exact := by
  simp only [wordForms, List.forall_mem_cons]
  exact ⟨formV3_exact, major0_exact, major1_exact, major2_exact, major3_exact, major4_exact, major5_exact, major6_exact, major7_exact,
    major8_exact, major9_exact, major10_exact, major11_exact, major12_exact, major13_exact, major14_exact, major15_exact, major16_exact,
    major17_exact, major18_exact, major19_exact, major20_exact, major21_exact, major22_exact, major23_exact, fun _ h => nomatch h⟩

theorem forms_exact : ∀ F ∈ formC2 :: wordForms, F.Exact := List.forall_mem_cons.2 ⟨formC2_exact, wordForms_exact⟩

/-- Every instruction that has an encoding has its fields in one of the forms. -/
theorem isSome_lay_eq (i : Instr) : (formC2 :: wordForms).any (fun F => (F.lay i).isSome) = (encode i).isSome := by
  cases i <;> rfl

theorem exists_lay_of_encode {i : Instr} {p : Nat × Nat} (h : encode i = some p) :
    ∃ F ∈ formC2 :: wordForms, ∃ fs, F.lay i = some fs := by
  have hany := isSome_lay_eq i
  rw [h, Option.isSome_some] at hany
  obtain ⟨F, hF, hl⟩ := List.any_eq_true.1 hany
  exact ⟨F, hF, Option.isSome_iff_exists.1 hl⟩

theorem wordForms_len : ∀ F ∈ wordForms, F.len = 4 := by simp [wordForms, formV3, major]

/-- The first fields of a word say which part of the decoder reads it (R54, R56). -/
theorem decodeWord_of_head (w : Nat) : ∀ F ∈ wordForms, Reads w 0 F.head → decodeWord w = F.dec w := by
  simp +contextual [wordForms, formV3, major, decodeWord]

theorem odd_of_head (w : Nat) : ∀ F ∈ wordForms, Reads w 0 F.head → w % 2 = 1 := by
  simp [wordForms, formV3, major, fld]
  omega

/-- What the decoder of an odd word answers, one of its forms answers. -/
theorem form_of_decodeWord {w : Nat} (hodd : w % 2 = 1) :
    Yields (decodeWord w) fun i => ∃ F ∈ wordForms, Reads w 0 F.head ∧ F.dec w = .ok i := by
  have hlow : fld w 0 2 = 1 ∨ fld w 0 2 = 3 := by
    simp only [fld]
    omega
  unfold decodeWord
  rcases hlow with hlow | hlow
  · rw [if_neg (by omega)]
    split <;> intro i hi <;> simp_all [wordForms, formV3, major]
  · intro i hi
    simp_all [wordForms, formV3]

namespace Form

variable {F : Form} {w : Nat} {i : Instr}

/-- What a form decodes is encoded as the word that it was decoded from. -/
theorem Exact.encode_of_dec (hF : F.Exact) (hw : w < 2 ^ (8 * F.len)) (hh : Reads w 0 F.head) (hd : F.dec w = .ok i) :
    encode i = some (F.len, w) := by
  obtain ⟨fs, hl, hr⟩ := hF.answers w i hd
  obtain ⟨-, ⟨v, hv, hpack⟩, hfits, hfills⟩ := hF.carries i fs hl
  have hall : Reads w 0 (F.head ++ fs) := (reads_append w 0 _ _).2 ⟨hh, by rwa [Nat.zero_add]⟩
  have hval := (reads_iff_fld hfits w 0).1 hall
  rw [hfills, fld, Nat.pow_zero, Nat.div_one, Nat.mod_eq_of_lt hw] at hval
  rw [hv, hpack, hval]

/-- The encoding of a well-formed instruction of a form is a word of that form, and decodes to the instruction. -/
theorem Exact.dec_of_encode (hF : F.Exact) {fs : List Field} {n : Nat} (hl : F.lay i = some fs) (hwf : i.wellFormed = true)
    (h : encode i = some (n, w)) : n = F.len ∧ w < 2 ^ (8 * n) ∧ Reads w 0 F.head ∧ F.dec w = .ok i := by
  obtain ⟨hdec, ⟨v, hv, hpack⟩, hfits, hfills⟩ := hF.carries i fs hl
  obtain ⟨rfl, rfl⟩ := Prod.mk.inj (Option.some.inj (hv.symm.trans h))
  have hlt : v < 2 ^ (8 * F.len) := by
    rw [hpack, ← hfills]
    exact pack_lt hfits
  have hval : fld v 0 (width (F.head ++ fs)) = pack (F.head ++ fs) := by
    rw [hfills, fld, Nat.pow_zero, Nat.div_one, Nat.mod_eq_of_lt hlt, hpack]
  obtain ⟨hhead, hrest⟩ := (reads_append v 0 _ _).1 ((reads_iff_fld hfits v 0).2 hval)
  exact ⟨rfl, hlt, hhead, hdec v hwf (by rwa [Nat.zero_add] at hrest)⟩

end Form

end Sys2Proof.Layout

/-! ## Decoding and encoding byte sequences (R50, R73) -/

namespace Sys2Proof

open Layout

/-! ### Bytes and the number that they hold -/

theorem leNat_leBytes (n w : Nat) : leNat (leBytes n w) = w % 256 ^ n := by
  induction n generalizing w with
  | zero => simp [leBytes, leNat, Nat.mod_one]
  | succ n ih =>
    rw [leBytes, leNat, ih, BitVec.toNat_ofNat, Nat.pow_succ' (m := 256)]
    exact Nat.mod_mul.symm

theorem leBytes_leNat (bs : List Byte) : leBytes bs.length (leNat bs) = bs := by
  induction bs with
  | nil => rfl
  | cons b bs ih =>
    have hb := b.isLt
    rw [List.length_cons, leBytes, leNat, show (b.toNat + 256 * leNat bs) / 256 = leNat bs by omega, ih]
    congr 1
    exact BitVec.eq_of_toNat_eq (by rw [BitVec.toNat_ofNat]; omega)

theorem leNat_lt (bs : List Byte) : leNat bs < 256 ^ bs.length := by
  have h := leNat_leBytes bs.length (leNat bs)
  rw [leBytes_leNat] at h
  rw [h]
  exact Nat.mod_lt _ (Nat.pow_pos (by decide))

theorem length_leBytes (n w : Nat) : (leBytes n w).length = n := by
  induction n generalizing w with
  | zero => rfl
  | succ n ih => exact congrArg (· + 1) (ih (w / 256))

/-- Bit 0 of a number is bit 0 of its first byte. -/
theorem firstByte_mod_two (w : Nat) : (BitVec.ofNat 8 w).toNat % 2 = w % 2 := by
  rw [BitVec.toNat_ofNat]
  omega

/-! ### The decoder on 2 and on 4 bytes -/

theorem decodeC2_wellFormed (w : Nat) : (decodeC2 w).wellFormed = true := by
  unfold decodeC2
  split <;> rfl

/-- Two bytes whose number is even decode by form C2 (R50, R53). -/
theorem decode_two {w : Nat} (hw : w < 2 ^ 16) (heven : w % 2 = 0) (rest : List Byte) :
    decode (leBytes 2 w ++ rest) = .ok (decodeC2 w, rest) := by
  have hnum : leNat (leBytes 2 w) = w := by
    rw [leNat_leBytes]
    exact Nat.mod_eq_of_lt hw
  exact (if_pos ((firstByte_mod_two w).trans heven)).trans (congrArg (fun v => Except.ok (decodeC2 v, rest)) hnum)

/-- What the decoder of a word answers with the bytes after it, once its operands are checked. -/
def wordThen (x : Except DecodeError Instr) (rest : List Byte) : Except DecodeError (Instr × List Byte) := do
  let i ← x
  let i ← checkOperands i
  .ok (i, rest)

theorem wordThen_eq_ok {x : Except DecodeError Instr} {rest rest' : List Byte} {i : Instr} :
    wordThen x rest = .ok (i, rest') ↔ x = .ok i ∧ i.wellFormed = true ∧ rest = rest' := by
  cases x with
  | error e => simp [wordThen, bind, Except.bind]
  | ok j =>
    by_cases hj : j.wellFormed = true
    · have hi : j = i → i.wellFormed = true := fun h => h ▸ hj
      simp only [wordThen, bind, Except.bind, checkOperands, if_pos hj, Except.ok.injEq, Prod.mk.injEq]
      tauto
    · have hi : j = i → ¬i.wellFormed = true := fun h => h ▸ hj
      simp only [wordThen, bind, Except.bind, checkOperands, if_neg hj, Except.ok.injEq, reduceCtorEq]
      tauto

/-- Four bytes whose number is odd decode as a word whose operands are checked (R50, R55). -/
theorem decode_four {w : Nat} (hw : w < 2 ^ 32) (hodd : w % 2 = 1) (rest : List Byte) :
    decode (leBytes 4 w ++ rest) = wordThen (decodeWord w) rest := by
  have hbit : ¬(BitVec.ofNat 8 w).toNat % 2 = 0 := by rw [firstByte_mod_two, hodd]; decide
  have hnum : leNat (leBytes 4 w) = w := by
    rw [leNat_leBytes]
    exact Nat.mod_eq_of_lt hw
  exact (if_neg hbit).trans (congrArg (fun v => wordThen (decodeWord v) rest) hnum)

/-- What is decoded is read from the 2 bytes of a number that is even, or from the 4 bytes of one that is odd. -/
theorem decode_eq_ok {bs rest : List Byte} {i : Instr} (h : decode bs = .ok (i, rest)) :
    (∃ w, bs = leBytes 2 w ++ rest ∧ w < 2 ^ 16 ∧ w % 2 = 0 ∧ decodeC2 w = i) ∨
    ∃ w, bs = leBytes 4 w ++ rest ∧ w < 2 ^ 32 ∧ w % 2 = 1 ∧ decodeWord w = .ok i ∧ i.wellFormed = true := by
  match bs with
  | [] | [_] => cases h
  | b0 :: b1 :: tail =>
    by_cases hb : b0.toNat % 2 = 0
    · obtain ⟨rfl, rfl⟩ := Prod.mk.inj (Except.ok.inj ((if_pos hb).symm.trans h))
      refine .inl ⟨leNat [b0, b1], congrArg (· ++ tail) (leBytes_leNat [b0, b1]).symm, by simpa using leNat_lt [b0, b1], ?_, rfl⟩
      simp only [leNat]
      omega
    · replace h := (if_neg hb).symm.trans h
      match tail with
      | [] | [_] => cases h
      | b2 :: b3 :: tail =>
        obtain ⟨hd, hwf, rfl⟩ := wordThen_eq_ok.1 h
        refine .inr ⟨leNat [b0, b1, b2, b3], congrArg (· ++ tail) (leBytes_leNat [b0, b1, b2, b3]).symm,
          by simpa using leNat_lt [b0, b1, b2, b3], ?_, hd, hwf⟩
        simp only [leNat]
        omega

/-! ### Bytes and forms -/

/-- Bytes of a word of a form, decoded by that form, decode. -/
theorem decode_of_form {F : Form} (hF : F ∈ formC2 :: wordForms) {w : Nat} {i : Instr} (hw : w < 2 ^ (8 * F.len)) (hh : Reads w 0 F.head)
    (hd : F.dec w = .ok i) (hwf : i.wellFormed = true) (rest : List Byte) : decode (leBytes F.len w ++ rest) = .ok (i, rest) := by
  rcases List.mem_cons.1 hF with rfl | hF
  · have heven : w % 2 = 0 := by simpa [formC2, fld] using hh
    rw [← Except.ok.inj hd]
    exact decode_two hw heven rest
  · have hlen := wordForms_len F hF
    rw [hlen] at hw ⊢
    rw [decode_four hw (odd_of_head w F hF hh), wordThen_eq_ok, decodeWord_of_head w F hF hh]
    exact ⟨hd, hwf, rfl⟩

/-- What decodes is the word of a form, from which it is decoded. -/
theorem form_of_decode {bs rest : List Byte} {i : Instr} (h : decode bs = .ok (i, rest)) :
    ∃ F ∈ formC2 :: wordForms, ∃ w, bs = leBytes F.len w ++ rest ∧ w < 2 ^ (8 * F.len) ∧ Reads w 0 F.head ∧ F.dec w = .ok i := by
  rcases decode_eq_ok h with ⟨w, hbs, hw, heven, rfl⟩ | ⟨w, hbs, hw, hodd, hd, -⟩
  · exact ⟨formC2, List.mem_cons_self, w, hbs, hw, by simpa [formC2, fld] using heven, rfl⟩
  · obtain ⟨F, hF, hh, hd⟩ := form_of_decodeWord hodd i hd
    have hlen := wordForms_len F hF
    exact ⟨F, List.mem_cons_of_mem _ hF, w, hlen ▸ hbs, hlen ▸ hw, hh, hd⟩

/-! ### The two obligations -/

/-- Settles O1: the encoding of the instruction is made of the fields of its form, which the form's part of the decoder reads. -/
theorem decodeOfEncode : Obligations.DecodeOfEncode := by
  intro i n w rest hwf h
  obtain ⟨F, hF, fs, hl⟩ := exists_lay_of_encode h
  obtain ⟨rfl, hlt, hh, hd⟩ := (forms_exact F hF).dec_of_encode hl hwf h
  exact decode_of_form hF hlt hh hd hwf rest

/-- Settles O2: the word that is decoded has the fields of the instruction, and so is its encoding. -/
theorem decodeExact : Obligations.DecodeExact := by
  refine ⟨fun bs i rest h => ?_, fun bs i rest h => ?_, fun b bs i rest h => ?_⟩
  · obtain ⟨F, hF, w, hbs, hw, hh, hd⟩ := form_of_decode h
    exact ⟨F.len, w, (forms_exact F hF).encode_of_dec hw hh hd, hbs⟩
  · rcases decode_eq_ok h with ⟨w, -, -, -, rfl⟩ | ⟨w, -, -, -, -, hwf⟩
    · exact decodeC2_wellFormed w
    · exact hwf
  · rcases decode_eq_ok h with ⟨w, hbs, -, heven, -⟩ | ⟨w, hbs, -, hodd, -, -⟩
    · obtain ⟨rfl, -⟩ := List.cons.inj hbs
      rw [hbs, List.length_append, length_leBytes, firstByte_mod_two, heven]
      exact Nat.add_comm 2 _
    · obtain ⟨rfl, -⟩ := List.cons.inj hbs
      rw [hbs, List.length_append, length_leBytes, firstByte_mod_two, hodd]
      exact Nat.add_comm 4 _

end Sys2Proof

/-! ## Whose turn it is, through a fetch (log 4)

A fetch may walk the tables, evict lines, push copies home and report errors; none of that gives the turn to another core. One lemma for
each operation, from the homes up to `fetchWord`. -/

namespace Sys2Proof.Machine

/-- A fold of operations that each keep the turn keeps it. -/
theorem foldl_cur {β : Type} {f : State → β → State} (h : ∀ s b, (f s b).cur = s.cur) (l : List β) (s : State) :
    (l.foldl f s).cur = s.cur := by
  induction l generalizing s with
  | nil => rfl
  | cons b l ih => exact (ih (f s b)).trans (h s b)

/-! ### Counting, copies in L2 and their write-backs -/

@[simp] theorem queueErr_cur (s : State) (e : ErrRec) : (queueErr s e).cur = s.cur := rfl

@[simp] theorem putStoreLine_cur (s : State) (line : Nat) (d : BitVec 1024) (mask : BitVec 128) (p : BitVec 32) :
    (putStoreLine s line d mask p).cur = s.cur := rfl

@[simp] theorem evictErrors_cur (s : State) (coord line : Nat) (bad : BitVec 4) (dirty : BitVec 128) (writer : Word) :
    (evictErrors s coord line bad dirty writer).cur = s.cur := by
  unfold evictErrors
  split
  · rfl
  · refine foldl_cur (fun s i => ?_) _ s
    split <;> rfl

@[simp] theorem notePort_cur (s : State) (line : Nat) : (notePort s line).cur = s.cur := by
  unfold notePort
  split
  · rfl
  · split <;> rfl

@[simp] theorem roomForRecord_cur (s : State) (bits line : Nat) : (roomForRecord s bits line).cur = s.cur := by
  unfold roomForRecord
  split
  · rfl
  · dsimp only
    split
    · rfl
    · split <;> rfl

@[simp] theorem countPage_cur (s : State) (who : Who) (ac line : Nat) : (countPage s who ac line).cur = s.cur := by
  unfold countPage
  split
  · rfl
  · dsimp only
    cases (roomForRecord s ac line).hub.pages.find (pageKey ac line) <;> dsimp only <;> split <;> exact roomForRecord_cur s ac line

@[simp] theorem applyBack_cur (s : State) (line : Nat) (p : Payload) : (applyBack s line p).cur = s.cur := by
  unfold applyBack
  dsimp only
  split <;> (simp; split <;> simp)

@[simp] theorem dropL2_cur (s : State) (line : Nat) : (dropL2 s line).cur = s.cur := by
  unfold dropL2
  split
  · split <;> rfl
  · rfl

@[simp] theorem writeBackL2_cur (s : State) (line : Nat) : (writeBackL2 s line).cur = s.cur := by
  unfold writeBackL2
  split
  · split
    · rfl
    · exact applyBack_cur _ _ _
  · rfl

@[simp] theorem evictL2_cur (s : State) (line : Nat) : (evictL2 s line).cur = s.cur := by simp [evictL2]

@[simp] theorem hubFlit_cur (s : State) : (hubFlit s).1.cur = s.cur := by
  unfold hubFlit
  split <;> rfl

@[simp] theorem replySpill_cur (s : State) (m : Spill) : (replySpill s m).cur = s.cur := by
  unfold replySpill
  dsimp only
  split <;> exact hubFlit_cur s

@[simp] theorem issueSpill_cur (s : State) (m : Spill) : (issueSpill s m).cur = s.cur := by
  unfold issueSpill
  dsimp only
  split
  · exact hubFlit_cur s
  · split
    · simp
    · split <;> simp

@[simp] theorem sendL2_cur (s : State) (line : Nat) (drop : Bool) : (sendL2 s line drop).cur = s.cur := by
  unfold sendL2
  split
  · split
    · split <;> simp
    · split <;> simp
  · rfl

@[simp] theorem spillL2_cur (s : State) (line : Nat) : (spillL2 s line).cur = s.cur := sendL2_cur s line true

@[simp] theorem renewL2_cur (s : State) (line : Nat) : (renewL2 s line).cur = s.cur := by
  unfold renewL2
  split <;> rfl

@[simp] theorem expireL2_cur (s : State) (line : Nat) : (expireL2 s line).cur = s.cur := by
  unfold expireL2
  split
  · split <;> simp
  · rfl

@[simp] theorem roomL2_cur (s : State) (line : Nat) : (roomL2 s line).cur = s.cur := by
  unfold roomL2
  split
  · rfl
  · split <;> simp

@[simp] theorem takeL2_cur (s : State) (line : Nat) : (takeL2 s line).cur = s.cur := by
  unfold takeL2
  split <;> simp

@[simp] theorem meetErrors_cur (s : State) (who : Who) (line : Nat) : (meetErrors s who line).cur = s.cur := by
  unfold meetErrors
  dsimp only
  split
  · rfl
  · refine foldl_cur (fun s b => ?_) _ _
    split
    · rfl
    · exact queueErr_cur s _

@[simp] theorem writeL2_cur (s : State) (who : Who) (line : Nat) (d : BitVec 1024) (mask : BitVec 128) (p : BitVec 32)
    (region : Byte) (writer : Word) : (writeL2 s who line d mask p region writer).cur = s.cur := by
  unfold writeL2
  dsimp only
  split <;> simp

@[simp] theorem fillL2_cur (s : State) (who : Who) (line : Nat) (region : Byte) : (fillL2 s who line region).cur = s.cur := by
  unfold fillL2
  split
  · rfl
  · dsimp only
    split <;> simp

@[simp] theorem pinLine_cur (s : State) (who : Who) (line : Nat) (region : Byte) : (pinLine s who line region).cur = s.cur := by
  unfold pinLine
  dsimp only
  split
  · split <;> rfl
  · split <;> split <;> simp

/-! ### The host's copies, partials and locks -/

@[simp] theorem syncHost_cur (s : State) (line : Nat) (drop : Bool) : (syncHost s line drop).cur = s.cur := by
  unfold syncHost
  split
  · dsimp only
    split <;> simp
  · rfl

@[simp] theorem foldOne_cur (s : State) (line : Nat) (e : Nat × CoreId × Partial) : (foldOne s line e).cur = s.cur := by
  unfold foldOne
  split
  · exact writeL2_cur _ _ _ _ _ _ _ _
  · rfl

@[simp] theorem foldWords_cur (s : State) (line : Nat) (words : Word) : (foldWords s line words).cur = s.cur := by
  unfold foldWords
  dsimp only
  split
  · rfl
  · exact (foldl_cur (fun s e => foldOne_cur s line e) _ _).trans (by simp)

@[simp] theorem roomForPartial_cur (s : State) (line : Nat) : (roomForPartial s line).cur = s.cur := by
  unfold roomForPartial
  split
  · rfl
  · dsimp only
    split
    · rfl
    · split
      · exact foldWords_cur _ _ _
      · rfl

@[simp] theorem markWatched_cur (s : State) (c : CoreId) (g : Byte) : (markWatched s c g).cur = s.cur := by
  unfold markWatched
  split
  · split <;> rfl
  · rfl

@[simp] theorem grantAt_cur (s : State) (w : Nat) : (grantAt s w).cur = s.cur := by
  unfold grantAt
  split
  · dsimp only
    split <;> simp
  · rfl

@[simp] theorem grantZeros_cur (s : State) (line : Nat) (mask : BitVec 128) : (grantZeros s line mask).cur = s.cur := by
  refine foldl_cur (fun s e => ?_) _ s
  dsimp only
  split
  · rfl
  · split
    · exact grantAt_cur s e.1
    · rfl

@[simp] theorem noteLate_cur (s : State) (line : Nat) : (noteLate s line).cur = s.cur := by
  unfold noteLate
  split
  · split <;> rfl
  · rfl

/-! ### Pushes -/

@[simp] theorem applyPush_cur (s : State) (who met : Who) (ac line : Nat) (d : BitVec 1024) (mask : BitVec 128) (p : BitVec 32)
    (region : Byte) (writer : Word) : (applyPush s who met ac line d mask p region writer).cur = s.cur := by
  unfold applyPush
  split <;> simp

@[simp] theorem passHome_cur (s : State) (c : CoreId) (line : Nat) (d : BitVec 1024) (mask : BitVec 128) (p : BitVec 32) :
    (passHome s c line d mask p).cur = s.cur := by
  unfold passHome
  dsimp only
  split <;> rfl

@[simp] theorem homePartial_cur (s : State) (c : CoreId) (w : Nat) (p : Partial) : (homePartial s c w p).cur = s.cur := by
  simp [homePartial]

@[simp] theorem useFree_cur (s : State) (line : Nat) : (useFree s line).cur = s.cur := by
  unfold useFree
  split <;> rfl

@[simp] theorem serveWords_cur (s : State) (who : Who) (ac line : Nat) (region : Byte) (words : Word) :
    (serveWords s who ac line region words).1.cur = s.cur := by
  unfold serveWords
  dsimp only
  split <;> simp

@[simp] theorem applyL1_cur (s : State) (cause c : CoreId) (line : Nat) (p : Payload) : (applyL1 s cause c line p).cur = s.cur := by
  unfold applyL1
  dsimp only
  split
  · simp
  · split <;> simp

@[simp] theorem dropL1_cur (s : State) (c : CoreId) (line : Nat) : (dropL1 s c line).cur = s.cur := by
  unfold dropL1
  split
  · split <;> rfl
  · rfl

@[simp] theorem endOwn_cur (s : State) (o : CoreId) (line : Nat) : (endOwn s o line).cur = s.cur := rfl

@[simp] theorem applyHome_cur (s : State) (cause hc : CoreId) (line : Nat) (drop : Bool) (p : Payload) :
    (applyHome s cause hc line drop p).cur = s.cur := by
  simp [applyHome]

@[simp] theorem fillHome_cur (s : State) (hc : CoreId) (line : Nat) (region : Byte) (ac : Nat) :
    (fillHome s hc line region ac).cur = s.cur := by
  unfold fillHome
  split
  · rfl
  · exact serveWords_cur _ _ _ _ _ _

@[simp] theorem applyCluster_cur (s : State) (c : CoreId) (line : Nat) (p : Payload) : (applyCluster s c line p).cur = s.cur := by
  simp [applyCluster]

@[simp] theorem bumpRegion_cur (s : State) (g : Nat) : (bumpRegion s g).cur = s.cur := by
  unfold bumpRegion
  split <;> rfl

@[simp] theorem takePart_cur (s : State) (c : CoreId) (p : Push) : (takePart s c p).cur = s.cur := by
  cases p <;> rfl

@[simp] theorem PushMsg.perform_cur (s : State) (m : PushMsg) : (PushMsg.perform s m).cur = s.cur := by
  unfold PushMsg.perform
  match m.push with
  | .fold w =>
    dsimp only
    split
    · exact homePartial_cur _ _ _ _
    · rfl
  | .line l => simp
  | .cluster l => simp
  | .evict l => simp
  | .recall l => simp
  | .home l drop => simp
  | .foreign l drop =>
    dsimp only
    split <;> simp
  | .bump g => simp

@[simp] theorem recordPush_cur (s : State) (m : PushMsg) : (recordPush s m).cur = s.cur := by
  unfold recordPush
  split <;> rfl

@[simp] theorem settleLine_cur (s : State) (c : CoreId) (line : Nat) : (settleLine s c line).cur = s.cur :=
  foldl_cur (fun s m => by simp) _ s

@[simp] theorem performNow_cur (s : State) (cause c : CoreId) (p : Push) : (performNow s cause c p).cur = s.cur := by
  simp [performNow]

@[simp] theorem homePush_cur (s : State) (who : Who) (ac line : Nat) (d : BitVec 1024) (mask : BitVec 128) (p : BitVec 32)
    (region : Byte) (writer : Word) (met : Who) : (homePush s who ac line d mask p region writer met).cur = s.cur := by
  unfold homePush
  split
  · rfl
  · refine (applyPush_cur _ _ _ _ _ _ _ _ _ _).trans ?_
    split
    · exact performNow_cur _ _ _ _
    · rfl

/-! ### Writes of the hub's engines -/

@[simp] theorem engineWrite_cur (fuel : Nat) (s : State) (pa n v marks : Nat) :
    (engineWrite fuel s pa n v marks).cur = s.cur := by
  induction fuel generalizing s pa n v marks with
  | zero => rfl
  | succ fuel ih =>
    unfold engineWrite
    split
    · rfl
    · refine (ih _ _ _ _ _).trans ?_
      split
      · rfl
      · split <;> simp

@[simp] theorem hubStore_cur (s : State) (pa n v : Nat) : (hubStore s pa n v).cur = s.cur :=
  engineWrite_cur _ s pa n v 0

/-! ### Pushes on the links -/

@[simp] theorem coreFlit_cur (s : State) (c : CoreId) : (coreFlit s c).1.cur = s.cur := by
  unfold coreFlit
  split <;> rfl

@[simp] theorem awaitPush_cur (s : State) (m : PushMsg) : (awaitPush s m).cur = s.cur := rfl

@[simp] theorem replyPush_cur (s : State) (m : PushMsg) : (replyPush s m).cur = s.cur := by
  unfold replyPush
  dsimp only
  split
  · exact coreFlit_cur s m.core
  · exact coreFlit_cur s m.core

@[simp] theorem landPush_cur (s : State) (m : PushMsg) : (landPush s m).cur = s.cur := by
  unfold landPush
  dsimp only
  split <;> simp

/-- A push issued: `land` is what it does on arrival. -/
theorem issuePush_cur {land : State → PushMsg → State} (h : ∀ s m, (land s m).cur = s.cur) (s : State) (m : PushMsg) :
    (issuePush land s m).cur = s.cur := by
  unfold issuePush
  dsimp only
  split
  · exact (h _ _).trans (coreFlit_cur s m.core)
  · exact coreFlit_cur s m.core

theorem startPush_cur {land : State → PushMsg → State} (h : ∀ s m, (land s m).cur = s.cur) (s : State) (cause c : CoreId) (p : Push) :
    (startPush land s cause c p).cur = s.cur := by
  unfold startPush
  dsimp only
  split
  · rfl
  · rw [issuePush_cur h]
    simp

@[simp] theorem recallLine_cur (s : State) (keep : Option CoreId) (line : Nat) : (recallLine s keep line).cur = s.cur := by
  unfold recallLine
  split
  · rfl
  · split
    · rfl
    · exact startPush_cur landPush_cur s _ _ _

@[simp] theorem markDie_cur (s : State) (c : CoreId) (b : Nat) : (markDie s c b).cur = s.cur := by
  unfold markDie
  dsimp only
  split
  · split <;> rfl
  · rfl

@[simp] theorem evictPush_cur (s : State) (c : CoreId) (p : Push) : (evictPush s c p).cur = s.cur := by
  unfold evictPush
  split
  · exact performNow_cur s c c p
  · rw [startPush_cur landPush_cur]
    split <;> simp

theorem makeRoomBy_cur {push : State → CoreId → Push → State} (h : ∀ s c p, (push s c p).cur = s.cur) (s : State)
    (c : CoreId) (line : Nat) :
    (makeRoomBy push s c line).cur = s.cur := by
  unfold makeRoomBy
  split
  · rfl
  · split
    · exact h s c _
    · rfl

@[simp] theorem arrivePush_cur (s : State) (m : PushMsg) : (arrivePush s m).cur = s.cur := by
  unfold arrivePush
  dsimp only
  rw [landPush_cur]
  split
  · split <;> split <;> simp [makeRoomBy_cur evictPush_cur]
  · split <;> simp

@[simp] theorem pushRefused_cur (s : State) (c : CoreId) (p : Push) (r : Refused) : (pushRefused s c p r).cur = s.cur := by
  cases r with
  | die d => cases p <;> rfl
  | notReady => rfl
  | fenced d => rfl
  | held => exact noteLate_cur s p.at

@[simp] theorem sendPush_cur (s : State) (cause c : CoreId) (p : Push) : (sendPush s cause c p).cur = s.cur := by
  have hm : (match p with | .fold _ | .line _ | .evict _ | .cluster _ => markDie s c (16 + mdOf p.at) | _ => s).cur = s.cur := by
    split <;> simp
  unfold sendPush
  split
  · exact performNow_cur s cause c p
  · split
    · rfl
    · dsimp only
      split
      · exact (startPush_cur arrivePush_cur _ _ _ _).trans hm
      · exact (pushRefused_cur _ _ _ _).trans hm
      · exact (startPush_cur arrivePush_cur _ _ _ _).trans hm

/-! ### Room in L1 -/

@[simp] theorem evictL1_cur (s : State) (c : CoreId) (line : Nat) : (evictL1 s c line).cur = s.cur := sendPush_cur s c c (.evict line)

@[simp] theorem makeRoomLodge_cur (s : State) (c : CoreId) (line : Nat) : (makeRoomLodge s c line).cur = s.cur := by
  unfold makeRoomLodge
  dsimp only
  split
  · rfl
  · split <;> simp

@[simp] theorem makeRoomL1_cur (s : State) (c : CoreId) (line : Nat) : (makeRoomL1 s c line).cur = s.cur :=
  makeRoomBy_cur (fun s c p => sendPush_cur s c c p) s c line

@[simp] theorem roomL1_cur (s : State) (c : CoreId) (line : Nat) (lodge : Bool) : (roomL1 s c line lodge).cur = s.cur := by
  unfold roomL1
  split
  · rfl
  · split <;> simp

@[simp] theorem lodgeLine_cur (s : State) (c : CoreId) (line : Nat) (pg : Page) : (lodgeLine s c line pg).cur = s.cur := by
  unfold lodgeLine
  split
  · split
    · rfl
    · dsimp only
      split <;> split <;> simp
  · rfl

/-! ### Records of errors -/

@[simp] theorem flushForeign_cur (s : State) (r : Regions) (drop : Bool) : (flushForeign s r drop).cur = s.cur :=
  foldl_cur (fun s line => by split <;> simp) _ s

@[simp] theorem ringAppend_cur (s : State) (r : Ring) (vector bytes rec : Nat) : (ringAppend s r vector bytes rec).1.cur = s.cur := by
  unfold ringAppend
  dsimp only
  split
  · rfl
  · exact (flushForeign_cur _ _ _).trans (hubStore_cur _ _ _ _)

@[simp] theorem report_cur (s : State) (e : ErrRec) : (report s e).cur = s.cur := ringAppend_cur s _ _ _ _

/-! ### Meanings that keep the turn -/

/-- A meaning that answers leaves the turn with the core that has it. -/
def KeepsTurn {α : Type} (m : M α) : Prop := ∀ ⦃s t : State⦄ ⦃a : α⦄, m s = .ok a t → t.cur = s.cur

theorem keepsTurn_pure {α : Type} (a : α) : KeepsTurn (pure a : M α) := by
  rintro s t b ⟨⟩
  rfl

theorem keepsTurn_raise {α : Type} (x : Cause) (v : DWord) : KeepsTurn (raise x v : M α) := by
  rintro s t b ⟨⟩

theorem keepsTurn_raise_bind {α β : Type} (x : Cause) (v : DWord) (f : α → M β) : KeepsTurn ((raise x v : M α) >>= f) := by
  rintro s t b ⟨⟩

theorem keepsTurn_wait {α : Type} : KeepsTurn (waitHere : M α) := by
  rintro s t b ⟨⟩

theorem keepsTurn_throw {α : Type} (e : Stop) : KeepsTurn (throw e : M α) := by
  rintro s t b ⟨⟩

theorem keepsTurn_get : KeepsTurn (get : M State) := by
  rintro s t b ⟨⟩
  rfl

theorem keepsTurn_theCore (c : CoreId) : KeepsTurn (theCore c) := by
  rintro s t b ⟨⟩
  rfl

theorem keepsTurn_modCore (c : CoreId) (f : Core → Core) : KeepsTurn (modCore c f) := by
  rintro s t b ⟨⟩
  rfl

theorem keepsTurn_modify {g : State → State} (h : ∀ s, (g s).cur = s.cur) : KeepsTurn (modify g : M PUnit) := by
  rintro s t b ⟨⟩
  exact h s

theorem keepsTurn_answer {α : Type} {g : State → State × α} (h : ∀ s, (g s).1.cur = s.cur) : KeepsTurn (answer g) := by
  rintro s t b ⟨⟩
  exact h s

theorem KeepsTurn.bind {α β : Type} {m : M α} {f : α → M β} (hm : KeepsTurn m) (hf : ∀ a, KeepsTurn (f a)) : KeepsTurn (m >>= f) := by
  intro s t b h
  cases hms : m s with
  | ok a s' =>
    rw [M.bind_ok hms] at h
    exact (hf a h).trans (hm hms)
  | error e s' =>
    rw [M.bind_error hms] at h
    cases h

theorem keepsTurn_ite {α : Type} {p : Prop} [Decidable p] {m n : M α} (hm : KeepsTurn m) (hn : KeepsTurn n) :
    KeepsTurn (if p then m else n) := by
  split
  · exact hm
  · exact hn

theorem keepsTurn_require (b : Bool) (x : Cause) (v : DWord) : KeepsTurn (require b x v) :=
  keepsTurn_ite (keepsTurn_pure _) (keepsTurn_raise x v)

theorem keepsTurn_awaitThat (b : Bool) : KeepsTurn (awaitThat b) :=
  keepsTurn_ite (keepsTurn_pure _) keepsTurn_wait

/-! ### Requests -/

theorem keepsTurn_reachCore (c t : CoreId) (va : DWord) : KeepsTurn (reachCore c t va) := by
  refine keepsTurn_get.bind fun s => ?_
  cases lostWay s c t with
  | some d => exact keepsTurn_raise_bind _ _ _
  | none =>
    refine keepsTurn_ite ?_ (keepsTurn_pure _)
    split <;> exact keepsTurn_raise _ _

theorem keepsTurn_reachHome (c : CoreId) (line : Nat) (va : DWord) : KeepsTurn (reachHome c line va) := by
  refine (keepsTurn_modify fun s => markDie_cur s c _).bind fun _ => keepsTurn_get.bind fun s => ?_
  split
  · exact keepsTurn_raise _ _
  · exact keepsTurn_raise _ _
  · exact (keepsTurn_modify fun s => noteLate_cur s line).bind fun _ => keepsTurn_wait
  · exact keepsTurn_pure _

theorem keepsTurn_nextFlit (c : CoreId) : KeepsTurn (nextFlit c) := keepsTurn_answer fun s => coreFlit_cur s c

theorem keepsTurn_setRemote (c : CoreId) (r : Option Remote) : KeepsTurn (setRemote c r) := keepsTurn_modCore _ _

theorem keepsTurn_remoteFails {α : Type} (c : CoreId) (r : Remote) (va : DWord) (det : Nat) : KeepsTurn (remoteFails c r va det : M α) :=
  (keepsTurn_setRemote c none).bind fun _ => (keepsTurn_modify fun s => report_cur s _).bind fun _ => keepsTurn_raise _ _

theorem keepsTurn_tryRequest {α : Type} (c : CoreId) (r : Remote) {m : M α} (hm : KeepsTurn m) : KeepsTurn (tryRequest c r m) := by
  refine keepsTurn_get.bind fun s => (keepsTurn_nextFlit c).bind fun sent => keepsTurn_ite ?_ ?_
  · exact (keepsTurn_setRemote c none).bind fun _ => hm.bind fun a => (keepsTurn_nextFlit c).bind fun back =>
      keepsTurn_ite (keepsTurn_pure a) ((keepsTurn_setRemote c _).bind fun _ => keepsTurn_wait)
  · exact (keepsTurn_setRemote c _).bind fun _ => keepsTurn_wait

theorem keepsTurn_tryDevice (c : CoreId) (r : Remote) {m : M (Nat × Bool)} (hm : KeepsTurn m) : KeepsTurn (tryDevice c r m) := by
  refine keepsTurn_get.bind fun s => (keepsTurn_nextFlit c).bind fun sent => keepsTurn_ite ?_ ?_
  · refine (keepsTurn_setRemote c none).bind fun _ => ?_
    have hback (kept : Nat × Bool → Option Remote) (a : Nat × Bool) : KeepsTurn (nextFlit c >>= fun back =>
        if back then pure a else setRemote c (kept a) >>= fun _ => waitHere : M (Nat × Bool)) :=
      (keepsTurn_nextFlit c).bind fun _ => keepsTurn_ite (keepsTurn_pure a) ((keepsTurn_setRemote c _).bind fun _ => keepsTurn_wait)
    dsimp only
    split
    · exact (keepsTurn_pure _).bind (hback fun _ => some _)
    · exact hm.bind (hback fun _ => some _)
  · exact (keepsTurn_setRemote c _).bind fun _ => keepsTurn_wait

theorem keepsTurn_readRequest {α : Type} (c : CoreId) (pa : Nat) (long : Bool) (va : DWord) {pre : M Unit} {m : M α}
    (hp : KeepsTurn pre) (hm : KeepsTurn m) : KeepsTurn (readRequest c pa long va pre m) := by
  refine (keepsTurn_theCore c).bind fun k => ?_
  dsimp only
  split
  · exact hp.bind fun _ => keepsTurn_ite hm (keepsTurn_tryRequest c _ hm)
  · refine keepsTurn_ite (hp.bind fun _ => hm) (keepsTurn_ite (keepsTurn_remoteFails _ _ _ _) (keepsTurn_ite ?_ keepsTurn_wait))
    exact hp.bind fun _ => keepsTurn_tryRequest c _ hm

theorem keepsTurn_deviceRead (c : CoreId) (pa : Nat) (long : Bool) (va : DWord) {pre : M Unit} {m : M (Nat × Bool)}
    (hp : KeepsTurn pre) (hm : KeepsTurn m) : KeepsTurn (deviceRead c pa long va pre m) := by
  refine (keepsTurn_theCore c).bind fun k => ?_
  dsimp only
  split
  · exact hp.bind fun _ => keepsTurn_ite hm (keepsTurn_tryDevice c _ hm)
  · refine keepsTurn_ite (keepsTurn_remoteFails _ _ _ _) (keepsTurn_ite ?_ keepsTurn_wait)
    exact hp.bind fun _ => keepsTurn_tryDevice c _ hm

/-! ### Translation -/

theorem keepsTurn_readEntry (c : CoreId) (pa : Nat) (va : DWord) : KeepsTurn (readEntry c pa va) :=
  keepsTurn_readRequest c pa _ va (keepsTurn_reachHome _ _ _)
    ((keepsTurn_answer fun s => serveWords_cur s _ _ _ _ _).bind fun _ => keepsTurn_pure _)

theorem keepsTurn_walkFrom (c : CoreId) (va : DWord) (fuel level node : Nat) : KeepsTurn (walkFrom c va fuel level node) := by
  induction fuel generalizing level node with
  | zero => exact keepsTurn_throw _
  | succ fuel ih =>
    refine (keepsTurn_readEntry c _ va).bind fun e => keepsTurn_ite (keepsTurn_throw _) (keepsTurn_ite ?_ ?_)
    · exact keepsTurn_ite (keepsTurn_throw _) (keepsTurn_pure _)
    · exact keepsTurn_ite (keepsTurn_throw _) (ih _ _)

theorem keepsTurn_findLeaf (c : CoreId) (va : DWord) : KeepsTurn (findLeaf c va) := by
  refine (keepsTurn_theCore c).bind fun k => ?_
  split
  · exact keepsTurn_pure _
  · exact (keepsTurn_walkFrom c va _ _ _).bind fun _ => (keepsTurn_modCore _ _).bind fun _ => keepsTurn_pure _

theorem keepsTurn_checkScratch (c t : CoreId) (off n : Nat) (va : DWord) : KeepsTurn (checkScratch c t off n va) :=
  (keepsTurn_reachCore c t va).bind fun _ => (keepsTurn_theCore c).bind fun _ => (keepsTurn_theCore t).bind fun _ =>
    (keepsTurn_require _ _ _).bind fun _ => keepsTurn_require _ _ _

theorem keepsTurn_translate (c : CoreId) (va : DWord) (n : Nat) (acc : Access) : KeepsTurn (translate c va n acc) := by
  refine (keepsTurn_theCore c).bind fun k => keepsTurn_ite ?_ ?_
  · exact (keepsTurn_require _ _ _).bind fun _ => (keepsTurn_require _ _ _).bind fun _ =>
      (keepsTurn_checkScratch _ _ _ _ _).bind fun _ => keepsTurn_pure _
  · refine (keepsTurn_findLeaf c va).bind fun e => (keepsTurn_require _ _ _).bind fun _ => keepsTurn_ite ?_ (keepsTurn_pure _)
    exact (keepsTurn_checkScratch _ _ _ _ _).bind fun _ => keepsTurn_pure _

/-! ### Reads -/

theorem keepsTurn_pinFor (c : CoreId) (line : Nat) (pg : Page) : KeepsTurn (pinFor c line pg) :=
  keepsTurn_ite (keepsTurn_modify fun s => pinLine_cur s _ _ _) (keepsTurn_pure _)

theorem keepsTurn_roomFor (c : CoreId) (line : Nat) (pg : Page) (va : DWord) : KeepsTurn (roomFor c line pg va) := by
  refine (keepsTurn_modify fun s => lodgeLine_cur s c line pg).bind fun _ => keepsTurn_get.bind fun s => ?_
  refine keepsTurn_ite (keepsTurn_pure _) ((keepsTurn_modify fun s => roomL1_cur s c line _).bind fun _ => keepsTurn_get.bind fun s => ?_)
  refine keepsTurn_ite (keepsTurn_pure _) ?_
  split
  · exact keepsTurn_raise _ _
  · exact keepsTurn_raise _ _
  · exact keepsTurn_wait

theorem keepsTurn_fetchLine (c : CoreId) (line : Nat) (pg : Page) (va : DWord) : KeepsTurn (fetchLine c line pg va) := by
  refine (keepsTurn_theCore _).bind fun k => ?_
  split
  · exact keepsTurn_ite (keepsTurn_pure _)
      (keepsTurn_readRequest c _ _ va (keepsTurn_reachCore _ _ _) ((keepsTurn_theCore _).bind fun _ => keepsTurn_pure _))
  · exact keepsTurn_readRequest c _ _ va (keepsTurn_reachHome _ _ _)
      ((keepsTurn_pinFor c line pg).bind fun _ => keepsTurn_answer fun s => serveWords_cur s _ _ _ _ _)

theorem keepsTurn_fillL1 (c : CoreId) (line : Nat) (pg : Page) (va : DWord) : KeepsTurn (fillL1 c line pg va) := by
  refine (keepsTurn_modify fun s => lodgeLine_cur s c line pg).bind fun _ => (keepsTurn_theCore c).bind fun k => keepsTurn_get.bind fun s => ?_
  refine keepsTurn_ite (keepsTurn_pure _) ((keepsTurn_roomFor c line pg va).bind fun _ => ?_)
  exact (keepsTurn_fetchLine c line pg va).bind fun _ => keepsTurn_get.bind fun _ => (keepsTurn_theCore c).bind fun _ =>
    (keepsTurn_modCore _ _).bind fun _ => keepsTurn_pure _

theorem keepsTurn_settleOutside (line : Nat) (words : Word) : KeepsTurn (settleOutside line words) := by
  refine (keepsTurn_modify fun s => (expireL2_cur _ line).trans (noteLate_cur s line)).bind fun _ =>
    KeepsTurn.bind ?_ fun _ => keepsTurn_modify fun s => ?_
  · exact keepsTurn_get.bind fun _ => keepsTurn_awaitThat _
  · dsimp only
    split <;> simp

/-- What a read does at the home of its place or at the memory behind it, in `readLoc`. -/
theorem keepsTurn_readHome (c : CoreId) (pa n : Nat) (pg : Page) :
    KeepsTurn (if atMemory pg (lineOf pa) then
      (do settleOutside (lineOf pa) (touchedWords (byteMask (pa % 128) n)); return ((storeField (← get) pa n).1, false) : M (Nat × Bool))
      else do
        pinFor c (lineOf pa) pg
        let (d, p) ← answer fun s => serveWords s (.core c) pg.ac (lineOf pa) pg.region (touchedWords (byteMask (pa % 128) n))
        return lineField d p (pa % 128) n) :=
  keepsTurn_ite ((keepsTurn_settleOutside _ _).bind fun _ => keepsTurn_get.bind fun _ => keepsTurn_pure _)
    ((keepsTurn_pinFor c _ pg).bind fun _ => (keepsTurn_answer fun s => serveWords_cur s _ _ _ _ _).bind fun _ => keepsTurn_pure _)

theorem keepsTurn_readLoc (c : CoreId) (loc : Loc) (n : Nat) (va : DWord) : KeepsTurn (readLoc c loc n va) := by
  cases loc with
  | sram t off region page =>
    exact keepsTurn_ite (keepsTurn_get.bind fun s => keepsTurn_pure _)
      (keepsTurn_readRequest c _ _ va (keepsTurn_reachCore _ _ _) (keepsTurn_get.bind fun s => keepsTurn_pure _))
  | mem pa pg =>
    refine keepsTurn_ite ((keepsTurn_fillL1 c _ pg va).bind fun l => keepsTurn_pure _) ?_
    dsimp only
    split
    · exact keepsTurn_deviceRead c pa _ va (keepsTurn_reachHome _ _ _) (keepsTurn_readHome c pa n pg)
    · exact keepsTurn_readRequest c pa _ va (keepsTurn_reachHome _ _ _) (keepsTurn_readHome c pa n pg)

/-! ### The fetch -/

theorem keepsTurn_fetchHalf (c : CoreId) (va : DWord) : KeepsTurn (fetchHalf c va) :=
  (keepsTurn_require _ _ _).bind fun _ => (keepsTurn_translate c va 2 .fetch).bind fun loc =>
    (keepsTurn_readLoc c loc 2 va).bind fun _ => keepsTurn_pure _

/-- A fetch leaves the turn with the core that has it. -/
theorem keepsTurn_fetchWord (c : CoreId) (va : DWord) : KeepsTurn (fetchWord c va) :=
  (keepsTurn_fetchHalf c va).bind fun _ => keepsTurn_ite (keepsTurn_pure _)
    ((keepsTurn_fetchHalf c _).bind fun _ => keepsTurn_pure _)

end Sys2Proof.Machine

/-! ## Words of the spec, and the step that runs the fetched instruction (R50, R73) -/

namespace Sys2Proof.Machine

/-! ### Words of the spec -/

/-- Settles O3: each word is evaluated. -/
theorem specWordsDecode : Obligations.SpecWordsDecode :=
  ⟨rfl, rfl, rfl, rfl, rfl, rfl, rfl⟩

/-! ### One step -/

/-- A step with an empty agenda is a turn of the current core: its control thread, then what passes beside it. -/
theorem step_of_turn {s : State} (ha : s.agenda = []) (hi : idleCore s (here s) = false) :
    step s = andThen (controlSlot exec s s.cur) fun t => hubWork (backgroundWork (elapse t s.cur) s.cur) := by
  have hon : s.hub.regs.power.on = true := by
    simp only [idleCore, Bool.or_eq_false_iff, Bool.not_eq_false'] at hi
    exact hi.1.1.1
  simp [step, ha, coreStep, hon, hi]

/-- Where no cause is due and the task has not ended, the control thread fetches. -/
theorem controlSlot_fetches (run : Instr → State → Out) {s : State} {c : CoreId} (hd : dueCause (getCore s c) = none)
    (he : ¬((getCore s c).ending = true ∧ (getCore s c).level = .task)) : controlSlot run s c = fetchAndRun run s c := by
  simp [controlSlot, hd, he]

/-- A word that decodes is fetched as its instruction. -/
theorem fetchInstr_legal {c : CoreId} {va : DWord} {s s' : State} {w n : Nat} {i : Instr} {rest : List Byte}
    (hf : fetchWord c va s = .ok (w, n) s') (hd : decode (leBytes n w) = .ok (i, rest)) :
    fetchInstr c va s = .ok (some i, n, w) s' := by
  rw [fetchInstr, M.bind_ok hf]
  simp [hd]

/-- A word that does not decode is fetched as no instruction (R73). -/
theorem fetchInstr_illegal {c : CoreId} {va : DWord} {s s' : State} {w n : Nat}
    (hf : fetchWord c va s = .ok (w, n) s') (hd : ∀ p, decode (leBytes n w) ≠ .ok p) :
    fetchInstr c va s = .ok (none, n, w) s' := by
  rw [fetchInstr, M.bind_ok hf]
  cases h : decode (leBytes n w) with
  | ok p => exact absurd h (hd p)
  | error e => simp [h]

theorem fetchAndRun_legal {run : Instr → State → Out} {c : CoreId} {s s' : State} {i : Instr} {n w : Nat}
    (h : fetchInstr c (getCore s c).pc (beginAgain s c) = .ok (some i, n, w) s') :
    fetchAndRun run s c = andThen (run i s') (noteWait s' c i) := by
  simp [fetchAndRun, h]

theorem fetchAndRun_illegal {run : Instr → State → Out} {c : CoreId} {s s' : State} {n w : Nat}
    (h : fetchInstr c (getCore s c).pc (beginAgain s c) = .ok (none, n, w) s') :
    fetchAndRun run s c = trapNow s' .illegalOp (BitVec.ofNat 64 w) := by
  simp [fetchAndRun, h]

theorem beginAgain_none {s : State} {c : CoreId} (h : (getCore s c).answered.find 0 = none) : beginAgain s c = s := by
  simp [beginAgain, h]

theorem beginAgain_cur (s : State) (c : CoreId) : (beginAgain s c).cur = s.cur := by
  unfold beginAgain
  split <;> rfl

theorem noteWait_off {s : State} {c : CoreId} (h : (getCore s c).ctrs.pmen = 0) (i : Instr) (t : State) : noteWait s c i t = t := by
  simp [noteWait, h]

/-- Settles O4: the turn's control thread fetches, and the word either decodes or not. -/
theorem stepRunsFetched : Obligations.StepRunsFetched := by
  intro s s' n w ha hi hd he hf
  have hrun : step s = andThen (fetchAndRun exec s s.cur) fun t => hubWork (backgroundWork (elapse t s.cur) s.cur) := by
    rw [step_of_turn ha hi, controlSlot_fetches exec hd he]
  have hcur : s'.cur = s.cur := (keepsTurn_fetchWord _ _ hf).trans (beginAgain_cur s s.cur)
  refine ⟨fun i rest hdec => ?_, fun hdec => ?_, beginAgain_none, fun h => noteWait_off (hcur ▸ h)⟩
  · rw [hrun, fetchAndRun_legal (fetchInstr_legal hf hdec)]
  · rw [hrun, fetchAndRun_illegal (fetchInstr_illegal hf hdec)]

end Sys2Proof.Machine

/-! ## What a scalar write and a commit change (R58, R93, R102) -/

namespace Sys2Proof

/-- A key taken out of a table leaves every other key alone. -/
theorem Tab.find_del_other {α : Type} (t : Tab α) {k j : Nat} (h : j ≠ k) : (t.del k).find j = t.find j := by
  induction t with
  | nil => rfl
  | cons e r ih =>
    obtain ⟨i, a⟩ := e
    by_cases hi : i = k
    · subst hi
      simpa [Tab.del, Tab.find, Ne.symm h] using ih
    · have hd : Tab.del ((i, a) :: r) k = (i, a) :: Tab.del r k := by simp [Tab.del, hi]
      rw [hd]
      simp only [Tab.find, ih]

end Sys2Proof

namespace Sys2Proof.Machine

/-! ### The counters -/

/-- Without PMEN no counter counts (R339). -/
theorem countPerf_off {k : Core} (h : k.ctrs.pmen = 0) (evt n : Nat) : countPerf k evt n = k := by simp [countPerf, h]

/-- What is counted stands in the performance counters alone. -/
theorem countPerf_ctrs_others (k : Core) (evt n : Nat) : { (countPerf k evt n).ctrs with perf := k.ctrs.perf } = k.ctrs := by
  unfold countPerf
  dsimp only
  split <;> rfl

/-- A counter that counts names the event that it named (R339). -/
theorem countPerf_evt (k : Core) (evt n : Nat) (i : Fin 8) : ((countPerf k evt n).ctrs.perf[i]).evt = (k.ctrs.perf[i]).evt := by
  unfold countPerf
  dsimp only
  split
  · rfl
  · simp only [Fin.getElem_fin, Vector.getElem_mapFinIdx, apply_ite PerfCounter.evt, ite_self]

theorem retireTo_ctrs (k : Core) (pc : DWord) : (retireTo k pc).ctrs = (countPerf k 2 1).ctrs := by rw [retireTo_eq]

theorem setS_files_others (k : Core) (r : BitVec 5) (v : DWord) : { (setS k r v).files with s := k.files.s } = k.files := by
  unfold setS
  split <;> rfl

/-! ### The commit -/

/-- A commit keeps all of its core but what it counts and what it drops of its instruction's own reads. -/
theorem sameButScalars_retireTo (k : Core) (pc : DWord) : SameButScalars k (retireTo k pc) where
  level := by simp
  task := by simp
  tenant := by simp
  tregs := by simp [retireTo_tregs]
  cregs := by simp
  files := by simp
  queues := by simp
  streams := by simp
  tables := by simp
  copies := by simp
  links := by simp
  reads := fun n hn => by simp [Tab.find_del_other _ hn]
  packets := by simp
  stream := by simp
  ctrs := by rw [retireTo_ctrs]; exact countPerf_ctrs_others k 2 1
  pend := by simp

/-- A commit after a write of a scalar register keeps the same. -/
theorem sameButScalars_retire_setS (k : Core) (rd : BitVec 5) (v : DWord) (len : Nat) : SameButScalars k (retire (setS k rd v) len) where
  level := by simp
  task := by simp
  tenant := by simp
  tregs := by simp [retire, retireTo_tregs]
  cregs := by simp
  files := by simpa using setS_files_others k rd v
  queues := by simp
  streams := by simp
  tables := by simp
  copies := by simp
  links := by simp
  reads := fun n hn => by simp [retire, Tab.find_del_other _ hn]
  packets := by simp
  stream := by simp
  ctrs := by
    have h := (sameButScalars_retireTo (setS k rd v) ((setS k rd v).pc + BitVec.ofNat 64 len)).ctrs
    simpa [retire] using h
  pend := by simp

theorem commitFrame : Parts.CommitFrame := by
  intro k pc
  refine ⟨retireTo_pc k pc, sameButScalars_retireTo k pc, retireTo_files k pc, by rw [retireTo_tregs], fun h => ?_, fun i => ?_⟩
  · rw [retireTo_ctrs, countPerf_off h]
  · rw [retireTo_ctrs, countPerf_evt]

/-! ### A change of one core -/

theorem onlyHere_updCore (s : State) (f : Core → Core) : OnlyHere s (updCore s s.cur f) where
  cores := fun c hc => getCore_updCore_other s s.cur c f hc
  hub := rfl
  l2 := rfl
  store := rfl
  time := ⟨rfl, rfl, rfl⟩
  turn := ⟨rfl, rfl⟩
  open_ := ⟨rfl, rfl⟩

/-- A change of one core that keeps its copies of memory keeps all of memory. -/
theorem sameMemory_updCore {s : State} {c : CoreId} {f : Core → Core} (hl : (f (getCore s c)).l1 = (getCore s c).l1)
    (hh : (f (getCore s c)).homes = (getCore s c).homes) (hp : (f (getCore s c)).partials = (getCore s c).partials) :
    SameMemory s (updCore s c f) where
  store := rfl
  l2 := rfl
  host := rfl
  folds := rfl
  l1 := fun d => by
    by_cases h : d = c
    · subst h; rw [getCore_updCore_self, hl]
    · rw [getCore_updCore_other s c d f h]
  homes := fun d => by
    by_cases h : d = c
    · subst h; rw [getCore_updCore_self, hh]
    · rw [getCore_updCore_other s c d f h]
  partials := fun d => by
    by_cases h : d = c
    · subst h; rw [getCore_updCore_self, hp]
    · rw [getCore_updCore_other s c d f h]

theorem here_writeScalar (s : State) (rd : BitVec 5) (v : DWord) : here (writeScalar s rd v) = retire (setS (here s) rd v) 4 := by
  rw [writeScalar_eq, here, updCore_cur, getCore_updCore_self]

/-- A register after a write and its commit. -/
theorem getS_of_writeScalar (s : State) (rd : BitVec 5) (v : DWord) (r : BitVec 5) :
    getS (here (writeScalar s rd v)) r = if r = 0 then 0 else if r = rd then v else getS (here s) r := by
  rw [here_writeScalar, getS_retire]
  by_cases hr : r = 0
  · subst hr; rfl
  · rw [getS_setS]
    by_cases hd : r = rd
    · rw [if_pos ⟨hd, hd ▸ hr⟩, if_neg hr, if_pos hd]
    · rw [if_neg (fun h => hd h.1), if_neg hr, if_neg hd]

theorem scalarWriteFrame : Parts.ScalarWriteFrame := by
  intro s rd v
  dsimp only
  refine ⟨onlyHere_updCore s _, sameMemory_updCore (by simp) (by simp) (by simp), ?_, ?_, ?_, getS_of_writeScalar s rd v⟩
  · rw [here_writeScalar]
    exact sameButScalars_retire_setS (here s) rd v 4
  · rw [here_writeScalar, retire_pc, setS_pc]
    rfl
  · rw [here_writeScalar, retire, retireTo_tregs, setS_tregs, setS_level]

/-- Settles O9: the commit by its fields, and a scalar write as a commit of one core. -/
theorem commitFrames : Obligations.CommitFrames := ⟨scalarWriteFrame, commitFrame⟩

end Sys2Proof.Machine

/-! ## `nop`, `isync`, the mask registers and the vector length (R52, R99, R100, R149) -/

namespace Sys2Proof.Machine

/-! ### Set bits of a number -/

/-- The bits counted are those that the list of the lowest positions has. -/
theorem popCount_eq_length_filter (n m : Nat) : popCount n m = ((List.range n).filter fun i => m.testBit i).length := by
  induction n with
  | zero => rfl
  | succ n ih =>
    rw [popCount, ih, List.range_succ, List.filter_append, List.length_append]
    by_cases h : m.testBit n = true <;> simp [h]

/-- The search for the lowest set bit ends at the first one that it meets. -/
theorem lowestFrom_of_first {m d : Nat} {n i : Nat} (hn : d < n) (hset : m.testBit (i + d) = true)
    (hclear : ∀ j < d, m.testBit (i + j) = false) : lowestFrom n i m = some (i + d) := by
  induction n generalizing i d with
  | zero => omega
  | succ n ih =>
    rw [lowestFrom]
    cases d with
    | zero => exact if_pos hset
    | succ d =>
      have h0 : m.testBit i = false := hclear 0 (by omega)
      have hrest : lowestFrom n (i + 1) m = some (i + 1 + d) :=
        ih (by omega) (by rw [show i + 1 + d = i + (d + 1) by omega]; exact hset)
          fun j hj => by rw [show i + 1 + j = i + (j + 1) by omega]; exact hclear (j + 1) (by omega)
      rw [if_neg (by simp [h0]), hrest, show i + 1 + d = i + (d + 1) by omega]

theorem lowestFrom_zero (n i : Nat) : lowestFrom n i 0 = none := by
  induction n generalizing i with
  | zero => rfl
  | succ n ih => simp [lowestFrom, ih]

/-- The lowest bits of a multiple of a power of two are clear. -/
theorem testBit_of_mod_two_pow {m i j : Nat} (h : m % 2 ^ i = 0) (hj : j < i) : m.testBit j = false := by
  have := Nat.testBit_mod_two_pow m i j
  simpa [h, hj] using this.symm

/-- The first set bit of a mask (R149). -/
theorem maskFirst_of_lowest {m : DWord} {i : Nat} (hi : i < 64) (hset : m.toNat.testBit i = true) (hlow : m.toNat % 2 ^ i = 0) :
    maskFirst m = i := by
  have h : lowestFrom 64 0 m.toNat = some (0 + i) :=
    lowestFrom_of_first hi (by rwa [Nat.zero_add]) fun j hj => by rw [Nat.zero_add]; exact testBit_of_mod_two_pow hlow hj
  rw [maskFirst, h, Nat.zero_add, Option.getD_some]

/-- A mask without a set bit answers 64 (R149). -/
theorem maskFirst_zero : maskFirst 0 = 64 := by
  have h : lowestFrom 64 0 (0 : DWord).toNat = none := lowestFrom_zero 64 0
  rw [maskFirst, h, Option.getD_none]

/-! ### The reads of masks -/

/-- A mask is read once the vector queue is empty (R149). -/
theorem readMask_ok {s : State} (rd : BitVec 5) (ka : BitVec 3) (f : DWord → DWord) (hr : (here s).streams.rep.run = none)
    (hq : (here s).streams.vq = []) : readMask rd ka f s = .next (writeScalar s rd (f (getK (here s) ka))) := by
  refine controlTo_ok ?_ rfl
  rw [M.bind_ok (notPosting_ok hr), M.theCore_bind]
  simp [hq]

/-- A read of a mask waits while the vector queue holds an entry (R149). -/
theorem readMask_wait {s : State} (rd : BitVec 5) (ka : BitVec 3) (f : DWord → DWord) (hr : (here s).streams.rep.run = none)
    (hq : (here s).streams.vq ≠ []) : readMask rd ka f s = .next s := by
  refine controlTo_wait ?_
  have hq : (getCore s s.cur).streams.vq.isEmpty = false := by simpa using hq
  rw [M.bind_ok (notPosting_ok hr), M.theCore_bind, hq]
  rfl

/-! ### Instructions that only change their core -/

/-- An instruction that does nothing goes on. -/
theorem control_pure (s : State) : control (fun _ => pure ()) s = commits s id := control_ok rfl

/-- KSEL takes the number of the mask. -/
theorem setSpr_ksel (k : Core) (ka : BitVec 3) : setSpr k .ksel (ka.setWidth 64) = { k with tregs := { k.tregs with ksel := ka } } := by
  have h : (ka.setWidth 64).setWidth 3 = ka := by
    rw [BitVec.setWidth_setWidth_of_le ka (by decide), BitVec.setWidth_eq]
  rw [setSpr, h]

/-- The clamped length, zero-extended (R99). -/
theorem clampVl_setWidth (prot : BitVec 1) (v : DWord) :
    (clampVl prot v).setWidth 64 = BitVec.ofNat 64 (max 1 (min v.toNat (if prot = 1 then 32 else 64))) := by
  have h : max 1 (min v.toNat (if prot = 1 then 32 else 64)) < 128 := by split <;> omega
  apply BitVec.eq_of_toNat_eq
  simp only [clampVl, BitVec.toNat_setWidth, BitVec.toNat_ofNat, Nat.mod_eq_of_lt h]

theorem exec_kuse (s : State) (ka : BitVec 3) :
    exec (.kuse ka) s = commits s fun k => { k with tregs := { k.tregs with ksel := ka } } := by
  show execKuse ka s = _
  simp only [execKuse, setSpr_ksel]

theorem exec_vsetvl (s : State) (rd rs1 : BitVec 5) :
    exec (.vsetvl rd rs1) s = .next (updCore s s.cur fun k =>
      retire (setS { k with tregs := { k.tregs with vl := clampVl k.tregs.prot (getS k rs1) } } rd
        ((clampVl k.tregs.prot (getS k rs1)).setWidth 64)) 4) := rfl

theorem exec_kget (s : State) (rd : BitVec 5) (ka : BitVec 3) : exec (.kget rd ka) s = readMask rd ka id s := rfl

theorem exec_kpop (s : State) (rd : BitVec 5) (ka : BitVec 3) :
    exec (.kpop rd ka) s = readMask rd ka (fun m => BitVec.ofNat 64 (popCount 64 m.toNat)) s := rfl

theorem exec_kfirst (s : State) (rd : BitVec 5) (ka : BitVec 3) :
    exec (.kfirst rd ka) s = readMask rd ka (fun m => BitVec.ofNat 64 (maskFirst m)) s := rfl

/-- Settles O19: each instruction by its own rule, and the masks by `popCount_eq_length_filter` and `maskFirst_of_lowest`. -/
theorem masksAndLengths : Obligations.MasksAndLengths := by
  intro s rd rs1 ka
  dsimp only
  refine ⟨control_pure s, control_pure s, exec_kuse s ka, ?_, fun hr hq => ⟨?_, ?_, fun i hi hset hlow => ?_, fun hz => ?_⟩,
    fun hr hq => ⟨?_, ?_, ?_⟩⟩
  · rw [exec_vsetvl, updCore]
    dsimp only
    rw [clampVl_setWidth]
    rfl
  · rw [exec_kget, readMask_ok rd ka id hr hq, id]
  · rw [exec_kpop, readMask_ok rd ka _ hr hq, popCount_eq_length_filter]
  · rw [exec_kfirst, readMask_ok rd ka _ hr hq, maskFirst_of_lowest hi hset hlow]
  · rw [exec_kfirst, readMask_ok rd ka _ hr hq, hz, maskFirst_zero]
    rfl
  · rw [exec_kget, readMask_wait rd ka id hr hq]
  · rw [exec_kpop, readMask_wait rd ka _ hr hq]
  · rw [exec_kfirst, readMask_wait rd ka _ hr hq]

end Sys2Proof.Machine

/-! ## A fetch from a fresh line of L1 (R50, R51, R194, R291) -/

namespace Sys2Proof.Machine

/-- The TLB answers the leaf that it holds for an address (R291). -/
theorem findLeaf_hit {s : State} {va e : DWord} {bits : Nat} (h : TlbHit s va e bits) : findLeaf s.cur va s = .ok (e, bits) s := by
  obtain ⟨-, t, ht, rfl, rfl⟩ := h
  rw [findLeaf, M.theCore_bind]
  simp [ht]

/-- An access under a page of the TLB that passes its checks goes to its place in memory (R183, R186). -/
theorem translate_hit {s : State} {va e : DWord} {bits n : Nat} {acc : Access} (h : TlbHit s va e bits)
    (hp : pageAllows (here s).level acc (pageOf e bits) (leafBase e + va.toNat % 2 ^ bits) = true)
    (ha : aperture (leafBase e + va.toNat % 2 ^ bits) ≠ 1) :
    translate s.cur va n acc s = .ok (.mem (leafBase e + va.toNat % 2 ^ bits) (pageOf e bits)) s := by
  rw [translate, M.theCore_bind, if_neg h.1, M.bind_ok (findLeaf_hit h)]
  dsimp only
  rw [hp, require_true, M.pure_bind_run, if_neg ha, M.pure_run]

/-- A line of no lodge page stays where it is (R311). -/
theorem lodgeLine_off (s : State) (c : CoreId) (line : Nat) {pg : Page} (h : pg.lodge = false) : lodgeLine s c line pg = s := by
  simp [lodgeLine, h]

/-- A line that stands fresh in L1 serves a read as it is (R194). -/
theorem fillL1_fresh {s : State} {c : CoreId} {line : Nat} {pg : Page} {l : L1Line} (hg : pg.lodge = false)
    (hl : (getCore s c).l1.find line = some l) (hf : l.fresh s.time = true) (va : DWord) : fillL1 c line pg va s = .ok l s := by
  rw [fillL1, M.modify_bind, lodgeLine_off s c line hg, M.theCore_bind, M.get_bind, hl, Option.getD_some, if_pos hf, M.pure_run]

/-- A read of a place that L1 holds fresh answers the field of its line. -/
theorem readLoc_fresh {s : State} {c : CoreId} {pa : Nat} {pg : Page} {l : L1Line} (hc : cachedIn pa pg = true) (hg : pg.lodge = false)
    (hl : (getCore s c).l1.find (lineOf pa) = some l) (hf : l.fresh s.time = true) (n : Nat) (va : DWord) :
    readLoc c (.mem pa pg) n va s = .ok (lineField l.data l.psn (pa % 128) n) s := by
  rw [readLoc]
  dsimp only
  rw [if_pos hc, M.bind_ok (fillL1_fresh hg hl hf va), M.pure_run]

/-- A halfword fetched under a page of the TLB from a line that L1 holds fresh. -/
theorem fetchHalf_fresh {s : State} {va e : DWord} {bits pa : Nat} {l : L1Line} (h : TlbHit s va e bits)
    (hpa : pa = leafBase e + va.toNat % 2 ^ bits) (ha : aperture pa ≠ 1) (hp : pageAllows (here s).level .fetch (pageOf e bits) pa = true)
    (hc : cachedIn pa (pageOf e bits) = true) (hl : (here s).l1.find (lineOf pa) = some l) (hf : l.fresh s.time = true) :
    fetchHalf s.cur va s = .ok (l.data.toNat / 2 ^ (8 * (pa % 128)) % 2 ^ 16) s := by
  subst hpa
  rw [fetchHalf, bne_iff_ne.2 h.1, require_true, M.pure_bind_run, M.bind_ok (translate_hit h hp ha),
    M.bind_ok (readLoc_fresh hc rfl hl hf 2 va), M.pure_run, lineField, Nat.shiftRight_eq_div_pow]

/-! ### Two places of one line -/

/-- Places of one line lie in one aperture (R187). -/
theorem aperture_of_line {pa pb : Nat} (h : lineOf pa = lineOf pb) : aperture pa = aperture pb := by
  have hline (n : Nat) : n >>> 48 = lineOf n / 2 ^ 41 := by
    rw [Nat.shiftRight_eq_div_pow, lineOf, Nat.div_div_eq_div_mul, show 128 * 2 ^ 41 = 2 ^ 48 by norm_num]
  rw [aperture, aperture, fieldOf, fieldOf, hline pa, hline pb, h]

theorem cachedIn_of_line {pa pb : Nat} (h : lineOf pa = lineOf pb) (pg : Page) : cachedIn pa pg = cachedIn pb pg := by
  rw [cachedIn, cachedIn, aperture_of_line h]

theorem pageAllows_of_line {pa pb : Nat} (h : lineOf pa = lineOf pb) (lv : Level) (acc : Access) (pg : Page) :
    pageAllows lv acc pg pa = pageAllows lv acc pg pb := by
  simp only [pageAllows, aperture_of_line h]

/-! ### The word of two halfwords -/

theorem halfword_mod_two (w : Nat) : w % 2 ^ 16 % 2 = w % 2 := Nat.mod_mod_of_dvd w ⟨2 ^ 15, rfl⟩

/-- Two halfwords of a number side by side are its lowest word. -/
theorem halfwords_eq_word (d o : Nat) :
    d / 2 ^ (8 * o) % 2 ^ 16 + 65536 * (d / 2 ^ (8 * (o + 2)) % 2 ^ 16) = d / 2 ^ (8 * o) % 2 ^ 32 := by
  rw [show 8 * (o + 2) = 8 * o + 16 by omega, pow_add, ← Nat.div_div_eq_div_mul]
  generalize d / 2 ^ (8 * o) = w
  omega

/-- Settles O5: the first halfword tells the length, and the second stands in the same line. -/
theorem fetchReadsLine : Obligations.FetchReadsLine := by
  intro s va e bits pa l hit hit2 hpa hpa2 hoff ha hp hc hl hf
  have hline : lineOf (pa + 2) = lineOf pa := by simp only [lineOf]; omega
  have hsame : (pa + 2) % 128 = pa % 128 + 2 := by omega
  have lo := fetchHalf_fresh hit hpa ha hp hc hl hf
  have hi := fetchHalf_fresh hit2 hpa2 (by rwa [aperture_of_line hline]) (by rwa [pageAllows_of_line hline])
    (by rwa [cachedIn_of_line hline]) (by rwa [hline]) hf
  rw [fetchWord, M.bind_ok lo, halfword_mod_two]
  dsimp only
  by_cases heven : l.data.toNat / 2 ^ (8 * (pa % 128)) % 2 = 0
  · rw [if_pos heven, if_pos heven, M.pure_run]
  · rw [if_neg heven, if_neg heven, M.bind_ok hi, M.pure_run, hsame, halfwords_eq_word]

end Sys2Proof.Machine

/-! ## NaN operands of the scalar floating-point operations (R84) -/

namespace Sys2Proof.Machine

/-! ### Values and their formats -/

/-- The bits that have no value are those with all exponent bits set and a mantissa that is not 0 (R75). -/
theorem BinFmt.decode_eq_nan_iff (f : BinFmt) (x : Nat) :
    f.decode x = .nan ↔ x / 2 ^ f.mb % 2 ^ f.eb = 2 ^ f.eb - 1 ∧ x % 2 ^ f.mb ≠ 0 := by
  rw [BinFmt.decode]
  split
  case isTrue he => by_cases hm : x % 2 ^ f.mb = 0 <;> simp [he, hm]
  case isFalse he => split <;> simp [he]

/-- The bits of a number below 2^(mb + eb + 1), from its sign, its exponent and its mantissa. -/
theorem BinFmt.fields_eq (f : BinFmt) {x : Nat} (hx : x < 2 ^ (f.mb + f.eb + 1)) :
    f.sign (x / 2 ^ (f.mb + f.eb) % 2 == 1) + x / 2 ^ f.mb % 2 ^ f.eb * 2 ^ f.mb + x % 2 ^ f.mb = x := by
  have hsign : f.sign (x / 2 ^ (f.mb + f.eb) % 2 == 1) = x / 2 ^ (f.mb + f.eb) * 2 ^ (f.mb + f.eb) := by
    have : x / 2 ^ (f.mb + f.eb) < 2 := Nat.div_lt_of_lt_mul (by rwa [← pow_succ])
    interval_cases h : x / 2 ^ (f.mb + f.eb) <;> simp [BinFmt.sign]
  have hlow : x % 2 ^ (f.mb + f.eb) = x % 2 ^ f.mb + 2 ^ f.mb * (x / 2 ^ f.mb % 2 ^ f.eb) := by
    rw [pow_add, Nat.mod_mul]
  have hall := Nat.div_add_mod' x (2 ^ (f.mb + f.eb))
  rw [hsign, Nat.add_assoc, Nat.mul_comm (x / 2 ^ f.mb % 2 ^ f.eb), Nat.add_comm (2 ^ f.mb * _), ← hlow, hall]

/-- Nothing below the last place rounds to nothing (R86). -/
theorem roundAt_self (r : Rnd) (n : Bool) (m : Nat) (q : Int) : roundAt r n m q q false = m := by
  have h : roundsUp r n m 0 0 false = false := by cases r <;> simp [roundsUp]
  simp [roundAt, h]

/-- The number of significant bits of a number below a power of two. -/
theorem bitLen_le {m b : Nat} (h : m < 2 ^ b) : bitLen m ≤ b := by
  rw [bitLen]
  split
  case isTrue => omega
  case isFalse h0 => exact (Nat.log2_lt h0).2 h

/-- A number with its leading bit at `b` has `b + 1` significant bits. -/
theorem bitLen_of_leading {m b : Nat} (h : m < 2 ^ b) : bitLen (2 ^ b + m) = b + 1 := by
  have h0 : 2 ^ b + m ≠ 0 := by have := Nat.two_pow_pos b; omega
  have hlog : (2 ^ b + m).log2 = b := (Nat.log2_eq_iff h0).2 ⟨by omega, by rw [pow_succ]; omega⟩
  rw [bitLen, if_neg h0, hlog]

/-- A subnormal magnitude has its format's lowest exponent. -/
theorem BinFmt.fit_subnormal (f : BinFmt) (r : Rnd) (n : Bool) {m : Nat} (h : m < 2 ^ f.mb) :
    f.fit r n m f.emin false = (f.emin, m) := by
  have hq : max (f.emin + bitLen m - (f.mb + 1)) f.emin = f.emin := by
    have := bitLen_le h
    omega
  have hk : m ≠ 2 ^ (f.mb + 1) := by rw [pow_succ]; omega
  rw [BinFmt.fit]
  rw [hq, roundAt_self, if_neg hk]

/-- A magnitude of `mb + 1` bits at an exponent of its format is kept whole. -/
theorem BinFmt.fit_normal (f : BinFmt) (r : Rnd) (n : Bool) {m : Nat} (h : m < 2 ^ f.mb) {e : Int} (he : f.emin ≤ e) :
    f.fit r n (2 ^ f.mb + m) e false = (e, 2 ^ f.mb + m) := by
  have hq : max (e + bitLen (2 ^ f.mb + m) - (f.mb + 1)) f.emin = e := by
    rw [bitLen_of_leading h]
    omega
  have hk : 2 ^ f.mb + m ≠ 2 ^ (f.mb + 1) := by rw [pow_succ]; omega
  rw [BinFmt.fit]
  rw [hq, roundAt_self, if_neg hk]

/-- Bits that have a value come back from it in every rounding mode: no rounding changes them. -/
theorem BinFmt.encodeS_decode (f : BinFmt) (r : Rnd) {x : Nat} (heb : 0 < f.eb) (hx : x < 2 ^ (f.mb + f.eb + 1))
    (hnan : f.decode x ≠ .nan) : f.encodeS r (f.decode x) false = x := by
  have hfields := f.fields_eq hx
  have hm : x % 2 ^ f.mb < 2 ^ f.mb := Nat.mod_lt _ (Nat.two_pow_pos _)
  have he : x / 2 ^ f.mb % 2 ^ f.eb < 2 ^ f.eb := Nat.mod_lt _ (Nat.two_pow_pos _)
  have htop : 1 < 2 ^ f.eb := Nat.one_lt_two_pow (by omega)
  rw [BinFmt.decode] at hnan ⊢
  generalize x % 2 ^ f.mb = m at *
  generalize x / 2 ^ f.mb % 2 ^ f.eb = e at *
  generalize (x / 2 ^ (f.mb + f.eb) % 2 == 1) = n at *
  by_cases hinf : e = 2 ^ f.eb - 1
  · rw [if_pos hinf] at hnan ⊢
    have hm0 : m = 0 := by
      by_contra h
      exact hnan (if_neg h)
    rw [if_pos hm0, BinFmt.encodeS, BinFmt.infBits, ← hinf, ← hfields, hm0, Nat.add_zero]
  · rw [if_neg hinf]
    by_cases hsub : e = 0
    · have hfit := f.fit_subnormal r n hm
      simp only [if_pos hsub, BinFmt.encodeS, hfit, BinFmt.expField, if_pos hm]
      rw [if_neg (by omega), Nat.mod_eq_of_lt hm, ← hfields, hsub]
    · have hfit := f.fit_normal r n hm (e := f.emin + e - 1) (by omega)
      have hexp : f.expField (f.emin + e - 1) (2 ^ f.mb + m) = e := by
        rw [BinFmt.expField, if_neg (by omega)]
        omega
      simp only [if_neg hsub, BinFmt.encodeS, hfit, hexp]
      rw [if_neg (by omega), Nat.add_mod_left, Nat.mod_eq_of_lt hm, hfields]

/-! ### Operations on a NaN (R84) -/

@[simp] theorem Val.neg_nan : Val.neg .nan = .nan := rfl
@[simp] theorem Val.nan_add (r : Rnd) (a : Val) : Val.add r .nan a = .nan := rfl
@[simp] theorem Val.add_nan (r : Rnd) (a : Val) : a.add r .nan = .nan := by cases a <;> rfl
@[simp] theorem Val.nan_mul (a : Val) : Val.mul .nan a = .nan := rfl
@[simp] theorem Val.mul_nan (a : Val) : a.mul .nan = .nan := by cases a <;> rfl
@[simp] theorem Val.nan_div (a : Val) : Val.div .nan a = (.nan, false) := rfl
@[simp] theorem Val.div_nan (a : Val) : a.div .nan = (.nan, false) := by cases a <;> rfl
@[simp] theorem Val.sqrt_nan : Val.sqrt .nan = (.nan, false) := rfl
@[simp] theorem Val.nan_min (a : Val) : Val.min .nan a = a := rfl
@[simp] theorem Val.min_nan (a : Val) : a.min .nan = a := by cases a <;> rfl
@[simp] theorem Val.nan_max (a : Val) : Val.max .nan a = a := rfl
@[simp] theorem Val.max_nan (a : Val) : a.max .nan = a := by cases a <;> rfl

/-! ### Registers as values -/

theorem fpOf_eq_decode (f : FpFmt) (v : DWord) : fpOf f v = (binOf f).decode (v.toNat % 2 ^ ((binOf f).mb + (binOf f).eb + 1)) := by
  cases f with
  | fp64 =>
    show Machine.fp64.decode v.toNat = Machine.fp64.decode (v.toNat % 2 ^ 64)
    rw [Nat.mod_eq_of_lt v.isLt]
  | fp32 => rfl

/-- A register that has a value of a format, rounded into it, is its own low bits. -/
theorem fpPut_fpOf (f : FpFmt) (r : Rnd) {v : DWord} (h : fpOf f v ≠ .nan) :
    fpPut f r (fpOf f v) false = BitVec.ofNat 64 (v.toNat % 2 ^ ((binOf f).mb + (binOf f).eb + 1)) := by
  rw [fpOf_eq_decode] at h ⊢
  rw [fpPut, BinFmt.encodeS_decode _ r (by cases f <;> decide) (Nat.mod_lt _ (Nat.two_pow_pos _)) h]

/-- A NaN is rounded to the canonical NaN (R84). -/
theorem fpPut_nan (f : FpFmt) (r : Rnd) (rest : Bool) : fpPut f r .nan rest = BitVec.ofNat 64 (binOf f).qnan := rfl

/-! ### The instructions -/

/-- An operation on two values writes its result, rounded once (R116). -/
theorem fp2_eq (f : FpFmt) (rd rs1 rs2 : BitVec 5) (op : Rnd → Val → Val → Val × Bool) (s : State) :
    fp2 f rd rs1 rs2 op s =
      let v := op (rndOf (here s)) (fpOf f (getS (here s) rs1)) (fpOf f (getS (here s) rs2))
      .next (writeScalar s rd (fpPut f (rndOf (here s)) v.1 v.2)) := rfl

theorem exec_fadd (f : FpFmt) (rd rs1 rs2 : BitVec 5) (s : State) :
    exec (.fadd f rd rs1 rs2) s = fp2 f rd rs1 rs2 (fun r a b => (a.add r b, false)) s := rfl

theorem exec_fsub (f : FpFmt) (rd rs1 rs2 : BitVec 5) (s : State) :
    exec (.fsub f rd rs1 rs2) s = fp2 f rd rs1 rs2 (fun r a b => (a.add r b.neg, false)) s := rfl

theorem exec_fmul (f : FpFmt) (rd rs1 rs2 : BitVec 5) (s : State) :
    exec (.fmul f rd rs1 rs2) s = fp2 f rd rs1 rs2 (fun _ a b => (a.mul b, false)) s := rfl

theorem exec_fdiv (f : FpFmt) (rd rs1 rs2 : BitVec 5) (s : State) :
    exec (.fdiv f rd rs1 rs2) s = fp2 f rd rs1 rs2 (fun _ a b => a.div b) s := rfl

theorem exec_fsqrt (f : FpFmt) (rd rs1 : BitVec 5) (s : State) :
    exec (.fsqrt f rd rs1) s = fp2 f rd rs1 rs1 (fun _ a _ => a.sqrt) s := rfl

theorem exec_fma (f : FpFmt) (rd rs1 rs2 rs3 : BitVec 5) (s : State) :
    exec (.fma f rd rs1 rs2 rs3) s =
      let v (q : BitVec 5) : Val := fpOf f (getS (here s) q)
      .next (writeScalar s rd (fpPut f (rndOf (here s)) (((v rs1).mul (v rs2)).add (rndOf (here s)) (v rs3)) false)) := rfl

theorem exec_fmin (f : FpFmt) (rd rs1 rs2 : BitVec 5) (s : State) :
    exec (.fmin f rd rs1 rs2) s = fp2 f rd rs1 rs2 (fun _ a b => (a.min b, false)) s := rfl

theorem exec_fmax (f : FpFmt) (rd rs1 rs2 : BitVec 5) (s : State) :
    exec (.fmax f rd rs1 rs2) s = fp2 f rd rs1 rs2 (fun _ a b => (a.max b, false)) s := rfl

/-- Settles O10: a NaN goes through each exact operation, but `fmin` and `fmax` answer the other operand, whose bits rounding keeps. -/
theorem nanOperands : Obligations.NanOperands := by
  intro s f rd rs1 rs2 rs3 w isNan qnan low
  have hnan (q : BitVec 5) : isNan q ↔ fpOf f (getS (here s) q) = .nan := by
    rw [fpOf_eq_decode, BinFmt.decode_eq_nan_iff]
    cases f <;> rfl
  have hput (r : Rnd) (rest : Bool) : fpPut f r .nan rest = qnan := by
    rw [fpPut_nan]
    cases f <;> rfl
  have hlow (r : Rnd) (q : BitVec 5) (h : fpOf f (getS (here s) q) ≠ .nan) : fpPut f r (fpOf f (getS (here s) q)) false = low q := by
    rw [fpPut_fpOf f r h]
    cases f <;> rfl
  clear_value isNan qnan low
  simp only [hnan, exec_fadd, exec_fsub, exec_fmul, exec_fdiv, exec_fsqrt, exec_fma, exec_fmin, exec_fmax, fp2_eq]
  refine ⟨?_, fun h => ?_, ?_, fun h1 h2 => ?_, fun h1 h2 => ?_, fun h1 h2 => ?_⟩
  · rintro (h | h) <;> simp [h, hput]
  · simp [h, hput]
  · rintro (h | h | h) <;> simp [h, hput]
  · simp [h1, h2, hput]
  · simp [h1, hlow _ _ h2]
  · simp [h2, hlow _ _ h1]

end Sys2Proof.Machine

/-! ## A matrix instruction posted to idle streams (R32, R155, log 7) -/

namespace Sys2Proof

/-- A key without a value is not listed, so that taking it out changes nothing. -/
theorem Tab.filter_of_find_none {α : Type} {t : Tab α} {k : Nat} (h : t.find k = none) (p : Nat × α → Bool) (hp : ∀ e, e.1 ≠ k → p e = true) :
    List.filter p t = t := by
  induction t with
  | nil => rfl
  | cons e r ih =>
    obtain ⟨j, a⟩ := e
    rw [Tab.find] at h
    split at h
    case isTrue => cases h
    case isFalse hj => rw [List.filter_cons_of_pos (hp (j, a) hj), ih h]

theorem Tab.del_of_find_none {α : Type} {t : Tab α} {k : Nat} (h : t.find k = none) : t.del k = t :=
  Tab.filter_of_find_none h _ fun _ he => by simpa using he

end Sys2Proof

namespace Sys2Proof.Machine

/-- A change of a core is what it makes of the core as it is. -/
theorem updCore_congr {s : State} {c : CoreId} {f g : Core → Core} (h : f (getCore s c) = g (getCore s c)) : updCore s c f = updCore s c g := by
  rw [updCore, h, updCore]

/-! ### Reads that no one awaits -/

/-- A stream that has been given no answer begins as it is (R189). -/
theorem rewindReads_of_none {k : Core} {n : Nat} (h : k.answered.find n = none) : rewindReads k n = k := by simp [rewindReads, h]

/-- A stream without reads has none to drop when its instruction ends (R189). -/
theorem dropReads_of_none {k : Core} {n : Nat} (hn : n ≠ 0) (hp : k.posted.find n = none) (ha : k.answered.find n = none)
    (hr : k.replays.find n = none) : dropReads k n = k := by
  have hposted : k.posted.filter (fun e => !(e.1 == n && e.2.idem)) = k.posted :=
    Tab.filter_of_find_none hp _ fun e he => by simp [he]
  simp only [dropReads, dropAnswers, if_neg hn, Tab.del_of_find_none ha, Tab.del_of_find_none hr, hposted]

/-! ### Fields that a commit and a count leave alone -/

theorem countPerf_withStreams (k : Core) (z : Streams) (evt n : Nat) :
    countPerf { k with streams := z } evt n = { countPerf k evt n with streams := z } := by
  unfold countPerf
  dsimp only
  split <;> rfl

/-- A commit does not read what the streams hold. -/
theorem retire_withStreams (k : Core) (z : Streams) (len : Nat) : retire { k with streams := z } len = { retire k len with streams := z } := by
  simp only [retire, retireTo_eq, countPerf_withStreams]

/-! ### The entry at the head -/

/-- A core whose control thread has committed a matrix instruction that is over: its number is taken (R349). -/
def pastMatrix (k : Core) : Core := retire { k with streams := { k.streams with nextSeq := k.streams.nextSeq + 1 } } 4

/-- A core as the matrix instruction that it has posted to idle streams executes. -/
def atHead (k : Core) (i : Instr) : Core := { postsMatrix k (postedEntry k i) with doing := some (.matrix, k.pc) }

/-- A post and its commit leave the stream without reads where it had none (R189). -/
theorem noReads_postsMatrix {k : Core} (hk : MatrixIdle k) (e : Entry) :
    (postsMatrix k e).posted.find 2 = none ∧ (postsMatrix k e).answered.find 2 = none ∧ (postsMatrix k e).replays.find 2 = none := by
  obtain ⟨hposted, hans, hrep⟩ := hk.noReads
  refine ⟨?_, ?_, ?_⟩
  · rwa [postsMatrix, retire_posted]
  · rwa [postsMatrix, retire, retireTo_answered, Tab.find_del_other _ (by decide)]
  · rwa [postsMatrix, retire, retireTo_replays, Tab.find_del_other _ (by decide)]

/-- The post and the end of a matrix instruction leave what its commit leaves. -/
theorem dropMatrix_atHead {k : Core} (hk : MatrixIdle k) (i : Instr) : dropMatrix (dropReads (turnOver (atHead k i)) 2) = pastMatrix k := by
  obtain ⟨hposted, hans, hrep⟩ := noReads_postsMatrix hk (postedEntry k i)
  have hreads : dropReads (turnOver (atHead k i)) 2 = turnOver (atHead k i) :=
    dropReads_of_none (by decide) (by simpa only [turnOver, atHead] using hposted) (by simpa only [turnOver, atHead] using hans)
      (by simpa only [turnOver, atHead] using hrep)
  have hdoing : (retire k 4).doing = none := (retire_doing k 4).trans hk.control
  rw [hreads, pastMatrix, retire_withStreams, atHead, postsMatrix, retire_withStreams, dropMatrix, turnOver, ← hdoing]
  simp only [hk.empty, List.nil_append, List.drop_succ_cons, List.drop_zero]

/-- The head of a queue that may run has its turn. -/
theorem runMatrixHead_cons {s : State} {c : CoreId} {e : Entry} {r : List Entry} (hm : (getCore s c).streams.mq = e :: r)
    (h : headMayRun s c e = true) : runMatrixHead s c = endTurn s c .matrix e dropMatrix (matBody c e (turnOf s c .matrix e)) := by
  simp only [runMatrixHead, hm, h, if_true]

/-- Nothing was posted before the one entry of a queue, so that it does not wait for its place in memory (R217), for a hoop that is still
read (R175), or for a release, unless it accesses memory and one waits (R230). -/
theorem headMayRun_alone {s : State} {c : CoreId} {e : Entry} (hv : (getCore s c).streams.vq = []) (hm : (getCore s c).streams.mq = [e])
    (hd : (getCore s c).streams.deferred = [] ∨ touchesMemory (getCore s c) e = false) : headMayRun s c e = true := by
  have hself : postedBefore e.seq e.seq = false := by simp [postedBefore]
  have hmem : (touchesMemory (getCore s c) e && (getCore s c).streams.deferred.any fun d => !postedBefore e.seq d.seq) = false := by
    rcases hd with hd | hd <;> simp [hd]
  simp only [headMayRun, hmem, conflicts, queued, hoopStillRead, hv, hm, List.nil_append, List.filter_cons, hself]
  simp

/-- An entry without bytes of its own accesses no memory, where its instruction has no frame operand to restitch (R303). -/
theorem touchesMemory_of_noSpans {k : Core} {e : Entry} (h : ownSpans k e false = ([], [])) (hf : frameOperands e.instr = []) :
    touchesMemory k e = false := by
  simp [touchesMemory, readsMemory, spansOf, restitchSpans, h, hf]

theorem endTurn_ok (s s' : State) (c : CoreId) (st : Stream) (e : Entry) (drop : Core → Core) :
    endTurn s c st e drop (.ok () s') = updCore (entryEnds s' c st e) c drop := rfl

theorem endTurn_wait (s s' : State) (c : CoreId) (st : Stream) (e : Entry) (drop : Core → Core) :
    endTurn s c st e drop (.error .wait s') = updCore s' c turnOver := rfl

/-- What nothing was consumed for needs no record (R371). -/
theorem entryEnds_clean {s : State} {c : CoreId} {st : Stream} (e : Entry) (h : (getCore s c).poisoned.find st.code = none) :
    entryEnds s c st e = updCore s c fun k => dropReads (turnOver k) st.code := by
  simp [entryEnds, settlePoison, h]

/-! ### The instruction -/

section
variable {s : State} {i : Instr} (hp : matrixPosted i = true) (hw : i.wellFormed = true) (hr : ringOnly i = false)
  (hk : MatrixIdle (here s))
  (hd : (here s).streams.deferred = [] ∨ touchesMemory (postsMatrix (here s) (postedEntry (here s) i)) (postedEntry (here s) i) = false)

include hp hw hr hk hd

/-- A matrix instruction on idle streams executes as it is posted, as the one entry of its queue. -/
theorem exec_matrix : exec i s = .next
    (endTurn (updCore s s.cur fun k => postsMatrix k (postedEntry k i)) s.cur .matrix (postedEntry (here s) i) dropMatrix
      (matBody s.cur (postedEntry (here s) i) (updCore s s.cur fun k => atHead k i))) := by
  have hroom : (here s).streams.mq.length < 64 := by simp [hk.empty]
  rw [(matrixPosts s i hp hw).1 hk.noRun (by simp [hr]) hroom, if_pos ⟨hk.empty, hk.eager⟩]
  set t := updCore s s.cur fun k => postsMatrix k (postedEntry k i) with ht
  have hcore : getCore t s.cur = postsMatrix (here s) (postedEntry (here s) i) := getCore_updCore_self ..
  have hq : (getCore t s.cur).streams.mq = [postedEntry (here s) i] := by simp [hcore, postsMatrix, hk.empty]
  have hmay : headMayRun t s.cur (postedEntry (here s) i) = true := by
    refine headMayRun_alone (by simp [hcore, postsMatrix, hk.noVector]) hq (hd.imp (fun h => ?_) fun h => hcore ▸ h)
    simpa [hcore, postsMatrix] using h
  have hrewind : rewindReads (postsMatrix (here s) (postedEntry (here s) i)) Stream.matrix.code = postsMatrix (here s) (postedEntry (here s) i) :=
    rewindReads_of_none (noReads_postsMatrix hk _).2.1
  have hturn : turnOf t s.cur .matrix (postedEntry (here s) i) = updCore s s.cur fun k => atHead k i := by
    rw [turnOf, ht, updCore_updCore]
    refine updCore_congr ?_
    dsimp only
    rw [hrewind]
    rfl
  rw [runMatrixHead_cons hq hmay, hturn]

/-- A matrix instruction on idle streams whose meaning changes its core alone leaves that change beside its commit. -/
theorem exec_matrix_ok {f : Core → Core}
    (hb : matBody s.cur (postedEntry (here s) i) (updCore s s.cur fun k => atHead k i) =
      .ok () (updCore s s.cur fun k => f (atHead k i)))
    (hf : ∀ k, dropMatrix (dropReads (turnOver (f k)) 2) = f (dropMatrix (dropReads (turnOver k) 2)))
    (hc : ∀ k, (f k).poisoned = k.poisoned) : exec i s = .next (updCore s s.cur fun k => f (pastMatrix k)) := by
  have hclean : (getCore (updCore s s.cur fun k => f (atHead k i)) s.cur).poisoned.find Stream.matrix.code = none := by
    rw [getCore_updCore_self, hc, atHead, postsMatrix, retire_poisoned]
    exact hk.settled
  have hend : dropMatrix (dropReads (turnOver (f (atHead (here s) i))) 2) = f (pastMatrix (here s)) := by
    rw [hf, dropMatrix_atHead hk]
  rw [exec_matrix hp hw hr hk hd, hb, endTurn_ok, entryEnds_clean _ hclean, updCore_updCore, updCore_updCore]
  exact congrArg Host.Outcome.next (updCore_congr hend)

/-- A matrix instruction on idle streams whose meaning waits stays at the head of its queue. -/
theorem exec_matrix_wait
    (hb : matBody s.cur (postedEntry (here s) i) (updCore s s.cur fun k => atHead k i) = .error .wait (updCore s s.cur fun k => atHead k i)) :
    exec i s = .next (updCore s s.cur fun k => postsMatrix k (postedEntry k i)) := by
  have hdoing : (postsMatrix (here s) (postedEntry (here s) i)).doing = none := by simpa [postsMatrix] using hk.control
  have hover : turnOver (atHead (here s) i) = postsMatrix (here s) (postedEntry (here s) i) := by
    rw [atHead, turnOver, ← hdoing]
  rw [exec_matrix hp hw hr hk hd, hb, endTurn_wait, updCore_updCore]
  exact congrArg Host.Outcome.next (updCore_congr hover)

end

end Sys2Proof.Machine

/-! ## Hoops, latches, row queues and lodges (R96, R160, R177, R178, R309) -/

namespace Sys2Proof.Machine

/-! ### Elements side by side (R76) -/

theorem buildRow_lt (w : Nat) (g : Nat → Nat) (n : Nat) : buildRow w g n < 2 ^ (w * n) := by
  induction n with
  | zero => exact Nat.one_pos
  | succ n ih =>
    have hg : g n % 2 ^ w + 1 ≤ 2 ^ w := Nat.mod_lt _ (Nat.two_pow_pos _)
    calc buildRow w g n + g n % 2 ^ w * 2 ^ (w * n)
        < 2 ^ (w * n) + g n % 2 ^ w * 2 ^ (w * n) := by omega
      _ = (g n % 2 ^ w + 1) * 2 ^ (w * n) := by ring
      _ ≤ 2 ^ w * 2 ^ (w * n) := Nat.mul_le_mul_right _ hg
      _ = 2 ^ (w * (n + 1)) := by rw [← pow_add]; ring_nf

/-- An element of a row is the one that the row was built with. -/
theorem elemOf_buildRow (w : Nat) (g : Nat → Nat) {n j : Nat} (hj : j < n) : elemOf (buildRow w g n) w j = g j % 2 ^ w := by
  induction n with
  | zero => omega
  | succ n ih =>
    rw [elemOf, buildRow, Nat.shiftRight_eq_div_pow]
    by_cases h : j < n
    · have hsplit : 2 ^ (w * n) = 2 ^ w * 2 ^ (w * (n - j - 1)) * 2 ^ (w * j) := by
        rw [← pow_add, ← pow_add]
        congr 1
        obtain ⟨d, rfl⟩ : ∃ d, n = j + 1 + d := ⟨n - j - 1, by omega⟩
        rw [show j + 1 + d - j - 1 = d by omega]
        ring
      rw [hsplit, ← Nat.mul_assoc, Nat.add_mul_div_right _ _ (Nat.two_pow_pos _), ← Nat.mul_assoc, Nat.mul_right_comm,
        Nat.add_mul_mod_self_right, ← ih h, elemOf, Nat.shiftRight_eq_div_pow]
    · obtain rfl : j = n := by omega
      rw [Nat.add_mul_div_right _ _ (Nat.two_pow_pos _), Nat.div_eq_of_lt (buildRow_lt w g j), Nat.zero_add, Nat.mod_mod]

/-- A row that fits a register keeps its elements there. -/
theorem elemOf_ofNat_buildRow (b w : Nat) (g : Nat → Nat) {n j : Nat} (hb : b = w * n) (hj : j < n) :
    elemOf (BitVec.ofNat b (buildRow w g n)).toNat w j = g j % 2 ^ w := by
  subst hb
  rw [BitVec.toNat_ofNat, Nat.mod_eq_of_lt (buildRow_lt w g n), elemOf_buildRow w g hj]

/-! ### Marks gathered over a list -/

/-- A bit is set in the marks of the first `n` places where its own place is marked. -/
theorem testBit_foldl_marks (p : Nat → Bool) (n i : Nat) :
    ((List.range n).foldl (fun a j => if p j then a ||| (1 <<< j) else a) 0).testBit i = (decide (i < n) && p i) := by
  induction n with
  | zero => simp
  | succ n ih =>
    simp only [List.range_succ, List.foldl_append, List.foldl_cons, List.foldl_nil, Nat.one_shiftLeft] at ih ⊢
    generalize List.foldl _ 0 (List.range n) = a at ih ⊢
    by_cases hi : i = n
    · subst hi
      cases hp : p i <;> simp [ih]
    · have hlt : i < n + 1 ↔ i < n := by omega
      cases hp : p n <;> simp [ih, hlt, Nat.testBit_two_pow_of_ne (Ne.symm hi)]

/-! ### Hoops (R96, R177) -/

theorem hoopOf_setHoop_self (k : Core) (h : BitVec 2) (v : Hoop) : hoopOf (setHoop k h v) h = v := by simp [hoopOf, setHoop]

theorem hoopOf_setHoop_other (k : Core) {g h : BitVec 2} (v : Hoop) (hg : g ≠ h) : hoopOf (setHoop k h v) g = hoopOf k g := by
  have : h.toNat ≠ g.toNat := fun e => hg (BitVec.eq_of_toNat_eq e.symm)
  simp [hoopOf, setHoop, this]

theorem setHoop_hoopOf (k : Core) (h : BitVec 2) : setHoop k h (hoopOf k h) = k := by simp [setHoop, hoopOf]

theorem Hoop.elem_lt (v : Hoop) (i j : Nat) : v.elem i j < 2 ^ 32 := Nat.mod_lt _ (Nat.two_pow_pos _)

/-! ### A row pushed from a hoop (R178) -/

/-- Half a row of a hoop as a row of FP32. -/
def hoopRow (v : Hoop) (ix : BitVec 7) : Row :=
  { bits := BitVec.ofNat 2048 (buildRow 32 (fun j => v.elem (ix.toNat % 64) (64 * (ix.toNat / 64) + j)) 64)
    psn := slice (v.psn[ix.toNat % 64]?.getD 0) (64 * (ix.toNat / 64)) 64, tag := plainTag .fp32 }

theorem elemOf_hoopRow (v : Hoop) (ix : BitVec 7) {j : Nat} (hj : j < 64) :
    elemOf (hoopRow v ix).bits.toNat 32 j = v.elem (ix.toNat % 64) (64 * (ix.toNat / 64) + j) := by
  rw [hoopRow, elemOf_ofNat_buildRow 2048 32 _ rfl hj, Nat.mod_eq_of_lt (v.elem_lt _ _)]

theorem psn_hoopRow (v : Hoop) (ix : BitVec 7) {j : Nat} (hj : j < 64) :
    (hoopRow v ix).psn.toNat.testBit j = v.bad (ix.toNat % 64) (64 * (ix.toNat / 64) + j) := by
  rw [hoopRow, Hoop.bad, bitAt, slice, BitVec.testBit_toNat, BitVec.getLsbD_extractLsb', decide_eq_true hj, Bool.true_and,
    BitVec.testBit_toNat]

/-! ### What the entries do to their core -/

theorem runHclr_run (c : CoreId) (h : BitVec 2) (s : State) : runHclr c h s = .ok () (updCore s c fun k => setHoop k h Hoop.zero) := rfl

theorem runMwait_full {c : CoreId} {l : BitVec 1} {s : State} (h : (latchOf (getCore s c) l).state = .full) : runMwait c l s = .ok () s := by
  simp [runMwait, h]

theorem runMwait_wait {c : CoreId} {l : BitVec 1} {s : State} (h : (latchOf (getCore s c) l).state ≠ .full) :
    runMwait c l s = .error .wait s := by
  have : ((latchOf (getCore s c) l).state == .full) = false := by simpa using h
  simp [runMwait, this]

theorem runMqpush_ok {c : CoreId} {h : BitVec 2} {ix : BitVec 7} {q : BitVec 4} {s : State}
    (hq : ((getCore s c).queues.rq[q.toNat - 8]?.getD []).length < 4) :
    runMqpush c h ix q s = .ok () (updCore s c fun k => pushRow k q.toNat (hoopRow (hoopOf (getCore s c) h) ix)) := by
  simp only [runMqpush, M.theCore_bind, hq, decide_true, awaitThat_true, M.pure_bind_run, M.modCore_run, hoopRow]

theorem atHead_files (k : Core) (i : Instr) : (atHead k i).files = k.files := by simp [atHead, postsMatrix]
theorem atHead_queues (k : Core) (i : Instr) : (atHead k i).queues = k.queues := by simp [atHead, postsMatrix]

/-- R160, R177, R178: each of the three by what its entry does to its core, or where it waits. -/
theorem matrixHeads : Parts.MatrixHeads := by
  intro s h l ix q k after hk
  have hcore (i : Instr) : getCore (updCore s s.cur fun k => atHead k i) s.cur = atHead k i := getCore_updCore_self ..
  have hlatch (i : Instr) : latchOf (getCore (updCore s s.cur fun k => atHead k i) s.cur) l = k.files.l[l.toNat] := by
    rw [hcore, latchOf, atHead_files]
  refine ⟨?_, fun hl => ?_, fun hl => ?_, fun hq hroom =>
    ⟨hoopRow (hoopOf k h) ix, ?_, rfl, fun j hj => ⟨elemOf_hoopRow _ ix hj, psn_hoopRow _ ix hj⟩⟩⟩
  · refine exec_matrix_ok (f := fun k => setHoop k h Hoop.zero) rfl rfl rfl hk (.inr (touchesMemory_of_noSpans rfl rfl)) ?_ (fun _ => rfl) fun _ => rfl
    exact (runHclr_run _ _ _).trans (congrArg _ (updCore_updCore ..))
  · exact exec_matrix_ok (f := id) rfl rfl rfl hk (.inr (touchesMemory_of_noSpans rfl rfl))
      (runMwait_full ((congrArg Latch.state (hlatch _)).trans hl)) (fun _ => rfl) fun _ => rfl
  · exact exec_matrix_wait rfl rfl rfl hk (.inr (touchesMemory_of_noSpans rfl rfl))
      (runMwait_wait fun h => hl ((congrArg Latch.state (hlatch _)).symm.trans h))
  · have hwf : (Instr.mqpush h ix q).wellFormed = true := by rcases hq with rfl | rfl | rfl | rfl <;> rfl
    refine exec_matrix_ok (f := fun k' => pushRow k' q.toNat (hoopRow (hoopOf k h) ix)) rfl hwf rfl hk
      (.inr (touchesMemory_of_noSpans rfl rfl)) ?_ (fun _ => rfl) fun _ => rfl
    refine (runMqpush_ok (by rwa [hcore, atHead_queues])).trans ?_
    rw [updCore_updCore, hcore, hoopOf, atHead_files]
    rfl

/-! ### The status of a descriptor (R309) -/

/-- A descriptor number of five bits names a descriptor below 16, and none from 16 on (log 55). -/
theorem lodgeOf_eq_find (k : Core) (d : BitVec 5) :
    (if d.toNat < 16 then lodgeOf k (d.setWidth 4) else none) =
      k.tables.lodges.find? fun g => g.d.toNat == d.toNat && g.ctx == ctxOf k := by
  split
  case isTrue hd =>
    have hn : (d.setWidth 4).toNat = d.toNat := by rw [BitVec.toNat_setWidth, Nat.mod_eq_of_lt hd]
    have heq (g : Lodge) : (g.d == d.setWidth 4) = (g.d.toNat == d.toNat) := by
      rw [Bool.eq_iff_iff, beq_iff_eq, beq_iff_eq, ← hn, BitVec.toNat_inj]
    simp only [lodgeOf, heq]
  case isFalse hd =>
    refine (List.find?_eq_none.2 fun g _ => ?_).symm
    have := g.d.isLt
    simp only [Bool.and_eq_true, beq_iff_eq, not_and]
    omega

theorem lodgeStatus_none {k : Core} {d : BitVec 5} (h : (k.tables.lodges.find? fun g => g.d.toNat == d.toNat && g.ctx == ctxOf k) = none) :
    lodgeStatus k d = 0 := by rw [lodgeStatus, lodgeOf_eq_find, h]

theorem lodgeStatus_some {k : Core} {d : BitVec 5} {g : Lodge}
    (h : (k.tables.lodges.find? fun g => g.d.toNat == d.toNat && g.ctx == ctxOf k) = some g) :
    lodgeStatus k d = BitVec.ofNat 64 (g.state.toNat + (if g.last then 4 else 0) + 8 + g.count.toNat * 2 ^ 8 + g.drift.toNat * 2 ^ 32) := by
  rw [lodgeStatus, lodgeOf_eq_find, h]
  refine congrArg (BitVec.ofNat 64) ?_
  generalize g.last = last
  cases last <;> simp only [packAt, if_true, Bool.false_eq_true, if_false] <;> omega

theorem exec_lstat (s : State) (rd d : BitVec 5) : exec (.lstat rd d) s = execLstat rd d s := rfl

theorem execLstat_ok {s : State} (rd d : BitVec 5) (hr : (here s).streams.rep.run = none) (hq : (here s).streams.mq = []) :
    execLstat rd d s = .next (writeScalar s rd (lodgeStatus (here s) d)) := by
  refine controlTo_ok ?_ rfl
  rw [M.bind_ok (notPosting_ok hr), M.theCore_bind]
  simp [hq]

theorem execLstat_wait {s : State} (rd d : BitVec 5) (hr : (here s).streams.rep.run = none) (hq : (here s).streams.mq ≠ []) :
    execLstat rd d s = .next s := by
  refine controlTo_wait ?_
  have hq : (getCore s s.cur).streams.mq.isEmpty = false := by simpa using hq
  rw [M.bind_ok (notPosting_ok hr), M.theCore_bind, hq]
  rfl

/-- R309: the wait, and the two answers of `lodgeStatus`. -/
theorem lstatReadsLodge : Parts.LodgeStatus := by
  intro s rd d hr k lodge
  refine ⟨execLstat_wait rd d hr, fun hq hn => ?_, fun g hq hg => ?_⟩
  · rw [exec_lstat, execLstat_ok rd d hr hq, lodgeStatus_none hn]
  · rw [exec_lstat, execLstat_ok rd d hr hq, lodgeStatus_some hg]

end Sys2Proof.Machine

/-! ## One block of `mma` (R88, R157, R162 to R165, R169) -/

namespace Sys2Proof.Machine

/-! ### Bytes of the store -/

/-- A bit of what a list of cells reads as is a bit of one of them. -/
theorem testBit_foldl_cells {α : Type} (l : List α) (p : α → Prop) [DecidablePred p] (f : α → Nat) (acc i : Nat) :
    (l.foldl (fun acc a => if p a then acc ||| f a else acc) acc).testBit i = (acc.testBit i || l.any fun a => decide (p a) && (f a).testBit i) := by
  induction l generalizing acc with
  | nil => simp
  | cons a r ih =>
    rw [List.foldl_cons, ih, List.any_cons]
    by_cases h : p a <;> simp [h, Bool.or_assoc]

/-- A bit of the memory from a place on is a bit of the byte that holds it. -/
theorem testBit_memLoad (m : List Host.Cell) (a n i : Nat) :
    (memLoad m a n).testBit i = (decide (i < 8 * n) && m.any fun p => decide (p.1 = a + i / 8) && p.2.toNat.testBit (i % 8)) := by
  rw [memLoad, testBit_foldl_cells, Nat.zero_testBit, Bool.false_or]
  rw [Bool.eq_iff_iff]
  simp only [List.any_eq_true, Bool.and_eq_true, decide_eq_true_eq, Nat.testBit_shiftLeft]
  constructor
  · rintro ⟨p, hp, ⟨hlo, hhi⟩, hge, hbit⟩
    have hlt : i - 8 * (p.1 - a) < 8 := by
      by_contra h
      rw [Nat.testBit_lt_two_pow (Nat.lt_of_lt_of_le p.2.isLt (Nat.pow_le_pow_right (by decide) (Nat.le_of_not_lt h)))] at hbit
      exact Bool.false_ne_true hbit
    refine ⟨by omega, p, hp, by omega, ?_⟩
    rwa [show i % 8 = i - 8 * (p.1 - a) by omega]
  · rintro ⟨hi, p, hp, hat, hbit⟩
    refine ⟨p, hp, by omega, by omega, ?_⟩
    rwa [show i - 8 * (p.1 - a) = i % 8 by omega]

/-- A part of the memory from a place on is the memory from that part on. -/
theorem elemOf_memLoad (m : List Host.Cell) (a : Nat) {n b e : Nat} (h : b * e + b ≤ n) :
    elemOf (memLoad m a n) (8 * b) e = memLoad m (a + b * e) b := by
  refine Nat.eq_of_testBit_eq fun i => ?_
  have hdiv : (8 * b * e + i) / 8 = b * e + i / 8 := by rw [Nat.mul_assoc]; omega
  have hmod : (8 * b * e + i) % 8 = i % 8 := by rw [Nat.mul_assoc]; omega
  have hin : i < 8 * b → 8 * b * e + i < 8 * n := by rw [Nat.mul_assoc]; omega
  rw [elemOf, Nat.testBit_mod_two_pow, Nat.testBit_shiftRight, testBit_memLoad, testBit_memLoad, hdiv, hmod, Nat.add_assoc]
  by_cases hi : i < 8 * b <;> simp [hi, hin]

/-- The memory from a place on is its first byte and the memory after it. -/
theorem memLoad_succ (m : List Host.Cell) (a n : Nat) : memLoad m a (n + 1) = (memByte m a).toNat + 256 * memLoad m (a + 1) n := by
  have hfirst : memLoad m a (n + 1) % 2 ^ 8 = memLoad m a 1 := by
    simpa [elemOf] using elemOf_memLoad m a (n := n + 1) (b := 1) (e := 0) (by omega)
  have hlow : memLoad m a (n + 1) % 2 ^ 8 = (memByte m a).toNat := by
    rw [memByte, BitVec.toNat_ofNat, ← hfirst, Nat.mod_mod]
  have hhigh : memLoad m a (n + 1) / 2 ^ 8 = memLoad m (a + 1) n := by
    refine Nat.eq_of_testBit_eq fun i => ?_
    have hin : i + 8 < 8 * (n + 1) ↔ i < 8 * n := by omega
    rw [Nat.testBit_div_two_pow, testBit_memLoad, testBit_memLoad, Nat.add_mod_right, Nat.add_div_right i (by decide),
      Nat.add_comm (i / 8), ← Nat.add_assoc]
    simp only [hin]
  omega

/-- Bytes side by side are what the memory reads as. -/
theorem bytesAt_eq_memLoad (s : State) (a n : Nat) : bytesAt s a n = memLoad s.store.bytes a n := by
  induction n generalizing a with
  | zero => exact Nat.eq_of_testBit_eq fun i => by simp [testBit_memLoad, bytesAt, leNat]
  | succ n ih =>
    rw [memLoad_succ, ← ih (a + 1), bytesAt, List.range_succ_eq_map, List.map_cons, List.map_map, leNat]
    simp only [bytesAt, Function.comp_def, Nat.succ_eq_add_one, Nat.add_zero, Nat.add_right_comm, Nat.add_assoc]

/-- Words that bear no mark read as clean (R368). -/
theorem psnLoad_eq_zero {m : List Nat} {w n : Nat} (h : ∀ p, w ≤ p → p < w + n → p ∉ m) : psnLoad m w n = 0 := by
  refine Nat.eq_of_testBit_eq fun i => ?_
  rw [psnLoad, testBit_foldl_cells, Nat.zero_testBit, Bool.false_or, List.any_eq_false]
  intro p hp
  by_cases hin : w ≤ p ∧ p < w + n
  · exact absurd hp (h p hin.1 hin.2)
  · simp [hin]

/-! ### Results of FP32 -/

/-- A value rounded to a format fits the format's bits. -/
theorem BinFmt.encodeS_lt (f : BinFmt) (hmb : 0 < f.mb) (r : Rnd) (v : Val) (rest : Bool) :
    f.encodeS r v rest < 2 ^ (f.mb + f.eb + 1) := by
  have hm : 0 < 2 ^ f.mb := Nat.two_pow_pos _
  have hhalf : 2 ^ (f.mb - 1) < 2 ^ f.mb := Nat.pow_lt_pow_right (by decide) (by omega)
  have hsign (n : Bool) : f.sign n ≤ 2 ^ (f.mb + f.eb) := by cases n <;> simp [BinFmt.sign]
  have htop : (2 ^ f.eb - 1) * 2 ^ f.mb + 2 ^ f.mb = 2 ^ (f.mb + f.eb) := by
    have := Nat.two_pow_pos f.eb
    rw [← Nat.succ_mul, Nat.succ_eq_add_one, Nat.sub_add_cancel this, ← pow_add, Nat.add_comm f.eb]
  have hinf (n : Bool) : f.infBits n < 2 ^ (f.mb + f.eb + 1) := by
    have := hsign n
    rw [BinFmt.infBits, pow_succ]
    omega
  have hmax (n : Bool) : f.maxBits n < 2 ^ (f.mb + f.eb + 1) := Nat.lt_of_le_of_lt (Nat.sub_le _ _) (hinf n)
  cases v with
  | nan =>
    rw [BinFmt.encodeS, BinFmt.qnan, pow_succ]
    omega
  | inf n => exact hinf n
  | fin n m e =>
    rw [BinFmt.encodeS]
    dsimp only
    split
    case isTrue => cases r <;> cases n <;> simp only [BinFmt.overflow, if_true, Bool.false_eq_true, if_false, hinf, hmax]
    case isFalse hx =>
      have hk : (f.fit r n m e rest).2 % 2 ^ f.mb < 2 ^ f.mb := Nat.mod_lt _ hm
      have hexp : f.expField (f.fit r n m e rest).1 (f.fit r n m e rest).2 * 2 ^ f.mb ≤ (2 ^ f.eb - 1) * 2 ^ f.mb :=
        Nat.mul_le_mul_right _ (by omega)
      have := hsign n
      rw [pow_succ]
      omega

theorem rne32_lt (v : Val) : rne32 v < 2 ^ 32 := BinFmt.encodeS_lt fp32 (by decide) .rne v false

/-! ### Parts of a hoop replaced -/

/-- What replaces element j of a row, where it does (R169). -/
def patchAt (lo n : Nat) (g : Nat → Res) (j : Nat) : Option Res := if lo ≤ j ∧ j < lo + n then some (g j) else none

theorem Hoop.putRow_eq (v : Hoop) (i lo n : Nat) (g : Nat → Res) :
    v.putRow i lo n g =
      { rows := v.rows.setIfInBounds i (BitVec.ofNat 4096 (buildRow 32 (fun j => ((patchAt lo n g j).map Res.val).getD (v.elem i j)) 128))
        psn := v.psn.setIfInBounds i (BitVec.ofNat 128
          ((List.range 128).foldl (fun a j => if ((patchAt lo n g j).map Res.bad).getD (v.bad i j) then a ||| (1 <<< j) else a) 0)) } := by
  have hat (j : Nat) : (if lo ≤ j ∧ j < lo + n then ((List.range n).map fun j => g (lo + j))[j - lo]? else none) = patchAt lo n g j := by
    rw [patchAt]
    split
    case isTrue h => simp [List.getElem?_range (show j - lo < n by omega), Nat.add_sub_cancel' h.1]
    case isFalse => rfl
  rw [Hoop.putRow]
  dsimp only
  simp only [hat]
  refine congrArg₂ Hoop.mk
    (congrArg (fun r => v.rows.setIfInBounds i (BitVec.ofNat 4096 (buildRow 32 r 128))) (funext fun j => ?_))
    (congrArg (fun p : Nat → Bool => v.psn.setIfInBounds i (BitVec.ofNat 128
      ((List.range 128).foldl (fun a j => if p j then a ||| (1 <<< j) else a) 0))) (funext fun j => ?_))
  · cases patchAt lo n g j <;> rfl
  · cases patchAt lo n g j <;> rfl

theorem Hoop.elem_putRow (v : Hoop) {i : Nat} (lo n : Nat) (g : Nat → Res) {p j : Nat} (hi : i < 64) (hj : j < 128) :
    (v.putRow i lo n g).elem p j = if p = i ∧ lo ≤ j ∧ j < lo + n then (g j).val % 2 ^ 32 else v.elem p j := by
  rw [Hoop.putRow_eq, Hoop.elem]
  dsimp only
  by_cases hp : p = i
  · subst hp
    rw [Vector.getElem?_setIfInBounds_self_of_lt hi, Option.getD_some, elemOf_ofNat_buildRow 4096 32 _ rfl hj, patchAt]
    by_cases hin : lo ≤ j ∧ j < lo + n
    · simp [hin]
    · simpa [hin] using v.elem_lt p j
  · rw [Vector.getElem?_setIfInBounds_ne (Ne.symm hp), if_neg (fun h => hp h.1), Hoop.elem]

theorem Hoop.bad_putRow (v : Hoop) {i : Nat} (lo n : Nat) (g : Nat → Res) {p j : Nat} (hi : i < 64) (hj : j < 128) :
    (v.putRow i lo n g).bad p j = if p = i ∧ lo ≤ j ∧ j < lo + n then (g j).bad else v.bad p j := by
  rw [Hoop.putRow_eq, Hoop.bad]
  dsimp only
  by_cases hp : p = i
  · subst hp
    rw [Vector.getElem?_setIfInBounds_self_of_lt hi, Option.getD_some, bitAt, BitVec.toNat_ofNat, Nat.testBit_mod_two_pow,
      testBit_foldl_marks, patchAt]
    by_cases hin : lo ≤ j ∧ j < lo + n <;> simp [hin, hj]
  · rw [Vector.getElem?_setIfInBounds_ne (Ne.symm hp), if_neg (fun h => hp h.1), Hoop.bad]

theorem Hoop.putBlock_succ (v : Hoop) (m n : Nat) (g : Nat → Nat → Res) :
    v.putBlock (m + 1) n g = (v.putBlock m n g).putRow m 0 n (g m) := by
  rw [Hoop.putBlock, List.range_succ, List.foldl_append]
  rfl

/-- The elements of a block are the ones put there, and no other element changes. -/
theorem Hoop.elem_putBlock (v : Hoop) {m : Nat} (n : Nat) (g : Nat → Nat → Res) {i j : Nat} (hm : m ≤ 64) (hj : j < 128) :
    (v.putBlock m n g).elem i j = if i < m ∧ j < n then (g i j).val % 2 ^ 32 else v.elem i j := by
  induction m with
  | zero => simp [Hoop.putBlock]
  | succ m ih =>
    rw [Hoop.putBlock_succ, Hoop.elem_putRow _ _ _ _ (by omega) hj, ih (by omega)]
    by_cases hi : i = m
    · simp [hi]
    · have hlt : i < m + 1 ↔ i < m := by omega
      simp [hi, hlt]

/-- The poison of a block is that of the elements put there, and no other element's changes. -/
theorem Hoop.bad_putBlock (v : Hoop) {m : Nat} (n : Nat) (g : Nat → Nat → Res) {i j : Nat} (hm : m ≤ 64) (hj : j < 128) :
    (v.putBlock m n g).bad i j = if i < m ∧ j < n then (g i j).bad else v.bad i j := by
  induction m with
  | zero => simp [Hoop.putBlock]
  | succ m ih =>
    rw [Hoop.putBlock_succ, Hoop.bad_putRow _ _ _ _ (by omega) hj, ih (by omega)]
    by_cases hi : i = m
    · simp [hi]
    · have hlt : i < m + 1 ↔ i < m := by omega
      simp [hi, hlt]

/-- A block without poison sets no bit of PMASK (R169). -/
theorem Hoop.pmask_eq_zero (v : Hoop) {m n : Nat} (h : ∀ i < m, ∀ j < n, v.bad i j = false) : v.pmask m n = 0 := by
  have hrow (i : Nat) (hi : i ∈ List.range m) (a : Nat) :
      (List.range n).foldl (fun a j => if v.bad i j then a ||| (1 <<< (j % 64)) else a) a = a := by
    refine (List.foldl_ext _ (fun a _ => a) a fun a j hj => if_neg ?_).trans (List.foldl_fixed _)
    simp [h i (List.mem_range.1 hi) j (List.mem_range.1 hj)]
  exact (List.foldl_ext _ (fun a _ => a) 0 fun a i hi => hrow i hi a).trans (List.foldl_fixed _)

/-! ### The size word (R162) -/

/-- The bits that two numbers share, by their low and their high parts. -/
theorem land_of_parts {b y k : Nat} (a x : Nat) (hb : b < 2 ^ k) (hy : y < 2 ^ k) :
    (2 ^ k * a + b) &&& (2 ^ k * x + y) = 2 ^ k * (a &&& x) + (b &&& y) := by
  refine Nat.eq_of_testBit_eq fun i => ?_
  rw [Nat.testBit_and, Nat.testBit_two_pow_mul_add _ hb, Nat.testBit_two_pow_mul_add _ hy,
    Nat.testBit_two_pow_mul_add _ (Nat.and_lt_two_pow b hy)]
  split <;> simp

/-- What the size word of one block of M rows and N columns says. -/
def blockSize (m n : Nat) (f : Fmt) : MmaSize := { m := m, n := n, kb := 1, fmt := f, acc := false }

/-- A size word of one block within the limits is accepted (R162). -/
theorem mmaSize_one {form : MmaForm} {v m n : Nat} {f : Fmt} (hform : form.takes 1 = true)
    (hfmt : tileFmt (fieldOf v 27 24) = some f) (hM : fieldOf v 6 0 = m) (hN : fieldOf v 15 8 = n) (hKB : fieldOf v 19 16 = 1)
    (hacc : v.testBit 28 = false) (hstray : strayBits [(0, 7), (8, 8), (16, 4), (24, 4), (28, 1)] v = false)
    (hm : m ≤ 64) (hn : n ≤ (if f = .e4m3 then 128 else 64)) :
    mmaSize form v = some (blockSize m n f) := by
  rw [mmaSize, hfmt]
  dsimp only
  rw [if_pos]
  · simp only [hM, hN, hKB, hacc, blockSize]
  · simp only [hM, hN, hKB, hacc, hstray, hform, hm, hn, decide_true, Bool.not_false, Bool.false_and, Bool.and_self]

/-- A size word of one block and of a format: its M, N, KB and format, and ACC 0. -/
def sizeWord (m n : Nat) (f : Fmt) : Nat := m + n * 2 ^ 8 + 2 ^ 16 + f.code * 2 ^ 24

/-- The formats of A and of a tile that have 16-bit elements (R157). -/
structure HalfFmt (f : Fmt) : Prop where
  width : fmtWidth f = 16
  noScale : f ≠ .e4m3
  code : f.code < 16
  tile : tileFmt f.code = some f

theorem halfFmt {f : Fmt} (h : f = .bf16 ∨ f = .fp16) : HalfFmt f := by
  rcases h with rfl | rfl <;> exact ⟨rfl, by decide, by decide, rfl⟩

section
variable {m n : Nat} {f : Fmt} (hf : HalfFmt f) (hm : m ≤ 64) (hn : n ≤ 64)
include hf hm hn

theorem strayBits_sizeWord : strayBits [(0, 7), (8, 8), (16, 4), (24, 4), (28, 1)] (sizeWord m n f) = false := by
  have hc := hf.code
  have hparts : sizeWord m n f = 2 ^ 24 * f.code + (2 ^ 16 * 1 + (2 ^ 8 * n + m)) := by rw [sizeWord]; ring
  have hmask : packAt ([(0, 7), (8, 8), (16, 4), (24, 4), (28, 1)].map fun f => (f.1, 2 ^ f.2 - 1)) =
      2 ^ 24 * (2 ^ 5 - 1) + (2 ^ 16 * (2 ^ 4 - 1) + (2 ^ 8 * (2 ^ 8 - 1) + (2 ^ 7 - 1))) := by decide
  rw [strayBits, hmask, hparts, land_of_parts _ _ (by omega) (by omega), land_of_parts _ _ (by omega) (by omega),
    land_of_parts _ _ (by omega) (by omega)]
  simp only [Nat.and_two_pow_sub_one_eq_mod]
  rw [Nat.mod_eq_of_lt (by omega : f.code < 2 ^ 5), Nat.mod_eq_of_lt (by omega : n < 2 ^ 8), Nat.mod_eq_of_lt (by omega : m < 2 ^ 7)]
  simp

theorem fieldOf_sizeWord :
    fieldOf (sizeWord m n f) 6 0 = m ∧ fieldOf (sizeWord m n f) 15 8 = n ∧ fieldOf (sizeWord m n f) 19 16 = 1 ∧
      fieldOf (sizeWord m n f) 27 24 = f.code := by
  have hc := hf.code
  simp only [fieldOf, sizeWord, Nat.shiftRight_eq_div_pow]
  omega

theorem testBit_sizeWord : (sizeWord m n f).testBit 28 = false := by
  have hc := hf.code
  exact Nat.testBit_lt_two_pow (by rw [sizeWord]; omega)

/-- The size word is read back, by a form that takes one block. -/
theorem mmaSize_sizeWord {form : MmaForm} (hform : form = .ovw ∨ form = .acc) :
    mmaSize form (sizeWord m n f) = some (blockSize m n f) := by
  obtain ⟨hM, hN, hKB, hfmt⟩ := fieldOf_sizeWord hf hm hn
  have htakes : form.takes 1 = true := by rcases hform with rfl | rfl <;> rfl
  exact mmaSize_one htakes (by rw [hfmt, hf.tile]) hM hN hKB (testBit_sizeWord hf hm hn) (strayBits_sizeWord hf hm hn) hm
    (by rwa [if_neg hf.noScale])

end

/-! ### A in the own window (R163, R191) -/

theorem toNat_slice {n : Nat} (v : BitVec n) (lo len : Nat) : (slice v lo len).toNat = v.toNat / 2 ^ lo % 2 ^ len := by
  rw [slice, BitVec.extractLsb'_toNat, Nat.shiftRight_eq_div_pow]

theorem scratchSize_lt (k : Core) : scratchSize k < 2 ^ 42 := by
  have := k.tregs.bndc.isLt
  rw [scratchSize]
  omega

/-- A in the own window, aligned and in the partition, passes its checks (R163). -/
theorem checkA_own {c : CoreId} {off m kb : Nat} {t : Fmt} {s : State} (hoff : off % 128 = 0)
    (hfit : off + aBytes t m kb ≤ scratchSize (getCore s c)) : checkA c (ownAddr off) t m kb s = .ok off s := by
  have hlt : off < 2 ^ 42 := Nat.lt_of_le_of_lt (by omega) (scratchSize_lt (getCore s c))
  have hval : (ownAddr off).toNat = 0xFFFE * 2 ^ 48 + 63 * 2 ^ 42 + off := by
    rw [ownAddr, BitVec.toNat_ofNat, Nat.mod_eq_of_lt (by omega)]
  have hwin : slice (ownAddr off) 48 16 = (0xFFFE : HWord) := by
    refine BitVec.eq_of_toNat_eq ?_
    rw [toNat_slice, hval]
    show _ = 65534
    omega
  have hfield : (slice (ownAddr off) 42 6).toNat = 63 := by rw [toNat_slice, hval]; omega
  have hlow : (slice (ownAddr off) 0 42).toNat = off := by rw [toNat_slice, hval]; omega
  have halign : (ownAddr off).toNat % 128 = 0 := by rw [hval]; omega
  simp [checkA, hwin, hfield, hlow, halign, hfit]

/-- The bytes of A of one block in 16-bit elements. -/
theorem aBytes_le {f : Fmt} (hf : HalfFmt f) (m : Nat) : aBytes f m 1 ≤ 256 * m := by
  rw [aBytes]
  split
  · omega
  · rw [if_neg hf.noScale]; omega

/-- A field of bytes without a mark reads as clean. -/
theorem storeField_clean {s : State} {a n : Nat} (h : CleanAt s a n) : storeField s a n = (memLoad s.store.bytes a n, false) := by
  have hp : psnLoad s.store.psn (a / 4) ((a + n + 3) / 4 - a / 4) = 0 := psnLoad_eq_zero fun p hlo hhi => h p hlo (by omega)
  rw [storeField, hp]
  rfl

/-- A part of clean bytes is clean. -/
theorem cleanAt_part {s : State} {a n b k : Nat} (h : CleanAt s a n) (hlo : a ≤ b) (hhi : b + k ≤ a + n) : CleanAt s b k :=
  fun w hw hw' => h w (by omega) (by omega)

theorem sramKey_add (c : CoreId) (off x : Nat) : sramKey c (off + x) = sramKey c off + x := (Nat.add_assoc ..).symm

/-- A row of clean A in 16-bit elements, of block 0. -/
theorem aRow_clean {s : State} {c : CoreId} {off m i : Nat} {f : Fmt} (hf : HalfFmt f) (h : CleanAt s (sramKey c off) (256 * m)) (hi : i < m) :
    aRow s c off f 0 i = (memLoad s.store.bytes (sramKey c off + 256 * i) 256, false) := by
  have haddr : sramKey c (off + 64 * aStride f * 0 + aStride f * i) = sramKey c off + 256 * i := by
    rw [aStride, if_neg hf.noScale, Nat.mul_zero, Nat.add_zero, sramKey_add]
  rw [aRow, haddr, aStride, if_neg hf.noScale]
  exact storeField_clean (cleanAt_part h (by omega) (by omega))

/-- Clean rows of A give the stream no word to name (R381). -/
theorem noteA_clean {c : CoreId} {off m : Nat} {f : Fmt} {s : State} (hf : HalfFmt f)
    (h : CleanAt s (sramKey c off) (256 * m)) : noteA c off f m 1 0 s = .ok () s := by
  have hmarks (i : Nat) (hi : i < m) : psnLoad s.store.psn (sramKey c (off + 64 * aStride f * 0 + aStride f * i) / 4) (aStride f / 4) = 0 := by
    rw [aStride, if_neg hf.noScale, Nat.mul_zero, Nat.add_zero, sramKey_add]
    exact psnLoad_eq_zero fun p hlo hhi => h p (by omega) (by omega)
  rw [noteA, M.get_bind]
  dsimp only
  rw [List.findSome?_eq_none_iff.2 fun i hi => ?_]
  · rfl
  · simp only [hmarks i (List.mem_range.1 hi), if_true, if_neg hf.noScale]
    rfl

/-! ### What a block adds (R88, R164, R169) -/

/-- R88: the exact sum of the 128 products of row i of A, from an offset of a core's scratchpad, and column j of a tile of 16-bit elements. -/
def halfSum (s : State) (c : CoreId) (off : Nat) (f : Fmt) (tile i j : Nat) : Val :=
  (List.range 128).foldl (fun x e =>
    x.add .rne ((fmtVal f (bytesAt s (sramKey c (off + 256 * i + 2 * e)) 2)).mul (fmtVal f (elemOf tile 16 (64 * e + j))))) (.fin false 0 0)

/-- R164: what an element of a hoop becomes, from the value that it starts with. -/
def halfElem (s : State) (c : CoreId) (off : Nat) (f : Fmt) (tile i j start : Nat) : Nat :=
  rne32 ((fp32.decode start).add .rne (fp32.decode (rne32 (halfSum s c off f tile i j))))

theorem blockSum_map (g col : Nat → Val) :
    blockSum ((List.range 128).map g) col = (List.range 128).foldl (fun x e => x.add .rne ((g e).mul (col e))) Val.zero := by
  have hzip : (List.range 128).zip ((List.range 128).map g) = (List.range 128).map fun e => (e, g e) := by
    simpa using List.zip_map' (f := id) (g := g) (l := List.range 128)
  rw [blockSum, hzip, List.foldl_map]

theorem tileElem_half {f : Fmt} (hf : HalfFmt f) (tile e j : Nat) : tileElem f tile e j = fmtVal f (elemOf tile 16 (64 * e + j)) := by
  rw [tileElem, hf.width]

/-- The block sum that the model takes is the sum of the products. -/
theorem blockSum_half {f : Fmt} (hf : HalfFmt f) (s : State) (c : CoreId) (off tile i j : Nat) :
    blockSum (aVals f (memLoad s.store.bytes (sramKey c off + 256 * i) 256)) (fun e => tileElem f tile e j) = halfSum s c off f tile i j := by
  rw [aVals, blockSum_map, halfSum]
  refine List.foldl_ext _ _ _ fun x e he => ?_
  have hbyte : elemOf (memLoad s.store.bytes (sramKey c off + 256 * i) 256) (8 * 2) e =
      bytesAt s (sramKey c (off + 256 * i + 2 * e)) 2 := by
    have := List.mem_range.1 he
    rw [elemOf_memLoad _ _ (by omega), bytesAt_eq_memLoad, sramKey_add, sramKey_add]
  rw [hf.width, tileElem_half hf, show 16 = 8 * 2 from rfl, hbyte]

/-- A tile without poison has no poisoned column. -/
theorem columnBad_zero (f : Fmt) (j : Nat) : columnBad f 0 j = false :=
  List.any_eq_false.2 fun e _ => by
    rw [bitAt, BitVec.testBit_toNat, Bool.not_eq_true]
    exact BitVec.getLsbD_zero

/-- A block of clean operands on clean accumulators leaves clean elements. -/
theorem hoopBlock_half {s : State} {c : CoreId} {off m n : Nat} {f : Fmt} {t : Latch} {v : Hoop} {fresh : Bool} (hf : HalfFmt f)
    (hclean : CleanAt s (sramKey c off) (256 * m)) (hpsn : t.psn = 0) (hacc : ∀ i < m, ∀ j < n, (accOf v fresh i j).bad = false) :
    ∃ g, hoopBlock s c v (blockSize m n f) off t 0 fresh = v.putBlock m n g ∧
      ∀ i < m, ∀ j < n, g i j = { val := halfElem s c off f t.tile.toNat i j (accOf v fresh i j).val, bad := false } := by
  refine ⟨_, rfl, fun i hi j hj => ?_⟩
  simp only [blockSize, aRow_clean hf hclean hi, hf.noScale, if_false, hpsn, columnBad_zero, Bool.or_self, blockSum_half hf]
  rw [stepElem, hacc i hi j hj]
  rfl

/-- A core with a hoop and its counters replaced. -/
def countedHoop (k : Core) (h : BitVec 2) (v : Hoop) (ctrs : CounterBlock) : Core := { setHoop k h v with ctrs := ctrs }

theorem countedHoop_self (k : Core) (h : BitVec 2) : countedHoop k h (hoopOf k h) k.ctrs = k := by rw [countedHoop, setHoop_hoopOf]

theorem hoopOf_countedHoop_self (k : Core) (h : BitVec 2) (v : Hoop) (ctrs : CounterBlock) : hoopOf (countedHoop k h v ctrs) h = v :=
  hoopOf_setHoop_self k h v

/-- What is counted stands in the counters alone. -/
theorem countPerf_withCtrs (k : Core) (evt n : Nat) : ∃ c, countPerf k evt n = { k with ctrs := c } := by
  rcases countPerf_cases k evt n with h | h
  · exact ⟨k.ctrs, h⟩
  · exact h

/-- One block: nothing where it has no row or no column, else its A is checked before it is added (R163, R164). -/
theorem runMma_eq {c : CoreId} {e : Entry} {form : MmaForm} {rs2 : BitVec 5} {m n : Nat} {f : Fmt} (h : BitVec 2) (rs1 : BitVec 5) (l : BitVec 1)
    (hform : form = .ovw ∨ form = .acc) (hz : mmaSize form (envS e.env rs2).toNat = some (blockSize m n f)) :
    runMma c e form h rs1 l rs2 = if m = 0 ∨ n = 0 then pure () else
      checkA c (envS e.env rs1 + e.adj) f m 1 >>= fun off => runMmaOne c e h l (blockSize m n f) off (form == .ovw) := by
  rw [runMma, hz]
  rcases hform with rfl | rfl <;> rfl

/-- The operands of one block of 16-bit elements: A in the own scratchpad window and a FULL latch of its format, both without poison, and a size
within the limits (R162 to R165). -/
structure BlockOperands (s : State) (c : CoreId) (k : Core) (l : BitVec 1) (off m n : Nat) (f : Fmt) : Prop where
  half : HalfFmt f
  rows : m ≤ 64
  columns : n ≤ 64
  aligned : off % 128 = 0
  fits : off + 256 * m ≤ scratchSize k
  clean : CleanAt s (sramKey c off) (256 * m)
  full : (latchOf k l).state = .full
  fmt : (latchOf k l).hdr.toNat % 16 = f.code
  tileClean : (latchOf k l).psn = 0

section
variable {s : State} {c : CoreId} {k : Core} {e : Entry} {h : BitVec 2} {l : BitVec 1} {rs1 rs2 : BitVec 5} {off m n : Nat} {f : Fmt}
  {form : MmaForm} (hops : BlockOperands s c k l off m n f)
  (hacc : ∀ i < m, ∀ j < n, (accOf (hoopOf k h) (form == .ovw) i j).bad = false)
include hops hacc

/-- One block from a FULL latch changes its hoop alone, and is counted (R165, R339). -/
theorem runMmaOne_half : ∃ v ctrs, runMmaOne c e h l (blockSize m n f) off (form == .ovw) (setCore s c k) =
      .ok () (setCore s c (countedHoop k h v ctrs)) ∧
    ∀ j < 128, ∀ i, v.elem i j = if i < m ∧ j < n then
      halfElem s c off f (latchOf k l).tile.toNat i j (accOf (hoopOf k h) (form == .ovw) i j).val else (hoopOf k h).elem i j := by
  obtain ⟨hf, hm, hn, -, -, hclean, hfull, hhdr, hpsn⟩ := hops
  obtain ⟨g, hblock, hg⟩ := hoopBlock_half hf hclean hpsn hacc
  obtain ⟨ctrs, hcount⟩ := countPerf_withCtrs (setHoop k h ((hoopOf k h).putBlock m n g)) 8 1
  refine ⟨(hoopOf k h).putBlock m n g, ctrs, ?_, fun j hj i => ?_⟩
  · have hfits : tileFits (latchOf k l) (blockSize m n f) = true := by
      simp [tileFits, blockSize, hhdr, hf.tile]
    have hscales : blockScalesOk (setCore s c k) c (blockSize m n f) off (latchOf k l) 0 = true := by
      simp [blockScalesOk, blockSize, hf.noScale]
    have hmask : ((hoopOf k h).putBlock m n g).pmask m n = 0 := Hoop.pmask_eq_zero _ fun i hi j hj => by
      rw [Hoop.bad_putBlock _ _ _ hm (by omega), if_pos ⟨hi, hj⟩, hg i hi j hj]
    have hself : getCore (setCore s c k) c = k := getCore_setCore_self s c k
    have hread : readLatch c e (latchOf k l) (tileFormat c e (tileFits (latchOf k l) (blockSize m n f) &&
        blockScalesOk (setCore s c k) c (blockSize m n f) off (latchOf k l) 0)) (faultEnds c)
        (setCore s c k) = .ok () (setCore s c k) := by
      simp [readLatch, hfull, tileFormat, hfits, hscales]
    have hafter : updCore (setCore s c k) c (fun q => countPerf (setHoop q h (hoopBlock (setCore s c k) c (hoopOf q h)
        (blockSize m n f) off (latchOf k l) 0 (form == .ovw))) 8 1) =
        setCore s c (countedHoop k h ((hoopOf k h).putBlock m n g) ctrs) := by
      rw [updCore, hself, setCore_setCore, countedHoop, ← hcount, ← hblock]
      rfl
    have happly : applyBlock c h (blockSize m n f) off (latchOf k l) 0 (form == .ovw) (setCore s c k) =
        .ok () (setCore s c (countedHoop k h ((hoopOf k h).putBlock m n g) ctrs)) := by
      have hclean' : CleanAt (setCore s c k) (sramKey c off) (256 * m) := hclean
      exact (M.bind_ok (noteA_clean hf hclean')).trans (congrArg (EStateM.Result.ok ()) hafter)
    rw [runMmaOne, M.theCore_bind, hself, M.get_bind, M.bind_ok hread, M.bind_ok happly, noteHoop, M.theCore_bind, getCore_setCore_self]
    rw [hoopOf_countedHoop_self]
    exact congrFun (congrArg (notePoison c e.ipc) hmask) _
  · rw [Hoop.elem_putBlock _ _ _ hm hj]
    by_cases hin : i < m ∧ j < n
    · rw [if_pos hin, if_pos hin, hg i hin.1 j hin.2]
      exact Nat.mod_eq_of_lt (rne32_lt _)
    · rw [if_neg hin, if_neg hin]

/-- One block of `mma` changes its hoop, and counts, alone; of no row or no column it changes nothing. -/
theorem runMma_half (hform : form = .ovw ∨ form = .acc) (hsize : (envS e.env rs2).toNat = sizeWord m n f)
    (haddr : envS e.env rs1 + e.adj = ownAddr off) :
    ∃ v ctrs, runMma c e form h rs1 l rs2 (setCore s c k) = .ok () (setCore s c (countedHoop k h v ctrs)) ∧
    ∀ j < 128, ∀ i, v.elem i j = if i < m ∧ j < n then
      halfElem s c off f (latchOf k l).tile.toNat i j (accOf (hoopOf k h) (form == .ovw) i j).val else (hoopOf k h).elem i j := by
  have hsize := mmaSize_sizeWord hops.half hops.rows hops.columns hform ▸ congrArg (mmaSize form) hsize
  rw [runMma_eq h rs1 l hform hsize]
  by_cases hnone : m = 0 ∨ n = 0
  · refine ⟨hoopOf k h, k.ctrs, ?_, fun j _ i => (if_neg (by omega)).symm⟩
    rw [if_pos hnone, countedHoop_self]
    rfl
  · have hA : checkA c (ownAddr off) f m 1 (setCore s c k) = .ok off (setCore s c k) := by
      refine checkA_own hops.aligned ?_
      rw [getCore_setCore_self]
      exact Nat.le_trans (Nat.add_le_add_left (aBytes_le hops.half m) off) hops.fits
    rw [if_neg hnone, haddr, M.bind_ok hA]
    exact runMmaOne_half hops hacc

end

/-! ### The instructions -/

/-- What the matrix stream leaves as it was when an instruction writes one hoop alone: all registers but that hoop, the queue's number, and what
a commit changes. -/
structure HoopFrame (k k' : Core) (h : BitVec 2) : Prop where
  pc : k'.pc = k.pc + 4
  files : { k'.files with h := k.files.h } = k.files
  tregs : { k'.tregs with instret := 0 } = { k.tregs with instret := 0 }
  cregs : k'.cregs = k.cregs
  queues : k'.queues = k.queues
  tables : k'.tables = k.tables
  l1 : k'.l1 = k.l1
  streams : k'.streams = { k.streams with nextSeq := k.streams.nextSeq + 1 }
  hoops : ∀ g, g ≠ h → hoopOf k' g = hoopOf k g

theorem hoopFrame_countedHoop (k : Core) (h : BitVec 2) (v : Hoop) (ctrs : CounterBlock) : HoopFrame k (countedHoop (pastMatrix k) h v ctrs) h where
  pc := by simp [countedHoop, pastMatrix]
  files := by simp [countedHoop, pastMatrix, setHoop]
  tregs := by simp [countedHoop, pastMatrix, retire, retireTo_tregs]
  cregs := by simp [countedHoop, pastMatrix]
  queues := by simp [countedHoop, pastMatrix]
  tables := by simp [countedHoop, pastMatrix]
  l1 := by simp [countedHoop, pastMatrix]
  streams := by simp [countedHoop, pastMatrix]
  hoops := fun g hg => by
    refine (hoopOf_setHoop_other (pastMatrix k) v hg).trans ?_
    simp [hoopOf, pastMatrix]

theorem scratchSize_atHead (k : Core) (i : Instr) : scratchSize (atHead k i) = scratchSize k := by
  simp [scratchSize, atHead, postsMatrix, retire, retireTo_tregs]

theorem latchOf_atHead (k : Core) (i : Instr) (l : BitVec 1) : latchOf (atHead k i) l = latchOf k l := by rw [latchOf, atHead_files, latchOf]

theorem hoopOf_atHead (k : Core) (i : Instr) (h : BitVec 2) : hoopOf (atHead k i) h = hoopOf k h := by rw [hoopOf, atHead_files, hoopOf]

/-- The operands of a block are those of its entry as it executes. -/
theorem BlockOperands.atHead {s : State} {c : CoreId} {k : Core} {l : BitVec 1} {off m n : Nat} {f : Fmt}
    (hops : BlockOperands s c k l off m n f) (x : Instr) : BlockOperands s c (atHead k x) l off m n f where
  half := hops.half
  rows := hops.rows
  columns := hops.columns
  aligned := hops.aligned
  fits := by rw [scratchSize_atHead]; exact hops.fits
  clean := hops.clean
  full := by rw [latchOf_atHead]; exact hops.full
  fmt := by rw [latchOf_atHead]; exact hops.fmt
  tileClean := by rw [latchOf_atHead]; exact hops.tileClean

section
variable {s : State} {x : Instr} {form : MmaForm} {h : BitVec 2} {l : BitVec 1} {rs1 rs2 : BitVec 5} {off m n : Nat} {f : Fmt}

/-- One block of `mma` posted to idle streams changes its hoop, and its core's counters and commit, alone (R164, R165). -/
theorem exec_mma_half (hp : matrixPosted x = true) (hw : x.wellFormed = true) (hr : ringOnly x = false)
    (hbody : ∀ c, matBody c (postedEntry (here s) x) = runMma c (postedEntry (here s) x) form h rs1 l rs2)
    (hform : form = .ovw ∨ form = .acc) (hk : MatrixIdle (here s)) (hd : (here s).streams.deferred = [])
    (hsize : (getS (here s) rs2).toNat = sizeWord m n f) (haddr : getS (here s) rs1 = ownAddr off)
    (hops : BlockOperands s s.cur (here s) l off m n f)
    (hacc : ∀ i < m, ∀ j < n, (accOf (hoopOf (here s) h) (form == .ovw) i j).bad = false) :
    ∃ u, exec x s = .next u ∧ OnlyHere s u ∧ HoopFrame (here s) (here u) h ∧ ∀ j < 128, ∀ i, (hoopOf (here u) h).elem i j =
      if i < m ∧ j < n then
        halfElem s s.cur off f (latchOf (here s) l).tile.toNat i j (accOf (hoopOf (here s) h) (form == .ovw) i j).val
      else (hoopOf (here s) h).elem i j := by
  obtain ⟨v, ctrs, hrun, hv⟩ := runMma_half (e := postedEntry (here s) x) (rs1 := rs1) (rs2 := rs2) (h := h) (hops.atHead x)
    (by rwa [hoopOf_atHead]) hform hsize ((BitVec.add_zero _).trans haddr)
  have hexec : exec x s = .next (updCore s s.cur fun k => countedHoop (pastMatrix k) h v ctrs) :=
    exec_matrix_ok (f := fun k => countedHoop k h v ctrs) hp hw hr hk (.inl hd) ((congrFun (hbody s.cur) _).trans hrun) (fun _ => rfl) fun _ => rfl
  have hhere : here (updCore s s.cur fun k => countedHoop (pastMatrix k) h v ctrs) = countedHoop (pastMatrix (here s)) h v ctrs :=
    getCore_updCore_self ..
  refine ⟨_, hexec, onlyHere_updCore s _, hhere ▸ hoopFrame_countedHoop (here s) h v ctrs, fun j hj i => ?_⟩
  rw [hhere, hoopOf_countedHoop_self, hv j hj i, latchOf_atHead, hoopOf_atHead]

end

/-- R88, R162 to R165: both forms add one block; `mma.ovw` starts from +0.0, `mma.acc` from the hoop. -/
theorem blocksAccumulate : Parts.BlocksAccumulate := by
  intro s h l rs1 rs2 off m n f k t old left right total leaves hk hd hf hm hn hsize haddr hoff hfit hclean hfull hhdr hpsn
  have hops : BlockOperands s s.cur k l off m n f := ⟨halfFmt hf, hm, hn, hoff, hfit, hclean, hfull, hhdr, hpsn⟩
  have hleaves (x : Instr) (form : MmaForm) (hp : matrixPosted x = true) (hw : x.wellFormed = true) (hr : ringOnly x = false)
      (hbody : ∀ c, matBody c (postedEntry k x) = runMma c (postedEntry k x) form h rs1 l rs2) (hform : form = .ovw ∨ form = .acc)
      (hacc : ∀ i < m, ∀ j < n, (accOf old (form == .ovw) i j).bad = false) : leaves x fun i j => (accOf old (form == .ovw) i j).val := by
    obtain ⟨u, hexec, honly, hframe, hv⟩ := exec_mma_half hp hw hr hbody hform hk hd hsize haddr hops hacc
    exact ⟨u, hexec, honly, hframe.pc, hframe.files, hframe.tregs, hframe.cregs, hframe.queues, hframe.tables, hframe.l1, hframe.streams,
      hframe.hoops, fun i _ j hj => hv j hj i⟩
  exact ⟨hleaves (.mmaOvw h rs1 l rs2) .ovw rfl rfl rfl (fun _ => rfl) (.inl rfl) fun _ _ _ _ => rfl,
    hleaves (.mmaAcc h rs1 l rs2) .acc rfl rfl rfl (fun _ => rfl) (.inr rfl)⟩

/-- Settles O38: the heads of the queue, the blocks and the status, each by what its instruction does to its core. -/
theorem headsOfLatchesAndLodges : Obligations.HeadsOfLatchesAndLodges := ⟨matrixHeads, blocksAccumulate, lstatReadsLodge⟩

end Sys2Proof.Machine

/-! ## Reset (R92, R98, R384) -/

namespace Sys2Proof.Machine

theorem getS_reset (r : BitVec 5) : getS Core.reset r = 0 := by simp [getS, Core.reset, Files.reset]

theorem getRow_reset (n : BitVec 6) : getRow Core.reset n = { row := Row.blank, res := .zero } := by simp [getRow, Core.reset, Files.reset]

theorem hoopOf_reset (h : BitVec 2) : hoopOf Core.reset h = Hoop.zero := by simp [hoopOf, Core.reset, Files.reset]

theorem latchOf_reset (l : BitVec 1) : latchOf Core.reset l = Latch.blank := by simp [latchOf, Core.reset, Files.reset]

theorem elemOf_zero (w e : Nat) : elemOf 0 w e = 0 := by simp [elemOf]

theorem Hoop.zero_elem {i : Nat} (hi : i < 64) (j : Nat) : Hoop.zero.elem i j = 0 := by
  have hrow : Hoop.zero.rows[i]? = some 0#4096 := Vector.getElem?_replicate.trans (if_pos hi)
  rw [Hoop.elem, hrow, Option.getD_some, BitVec.toNat_zero, elemOf_zero]

/-- A special register that R98 gives no reset value of its own is 0, but for COORD and TIME, which no reset writes. -/
theorem getSpr_reset (c : CoreId) {r : Spr} (hr : ¬ r ∈ [Spr.vl, .coord, .time, .bnda, .bndb, .bndc, .lease1, .lease2]) :
    getSpr State.reset c r = 0 := by
  cases r <;> simp at hr <;> rfl

/-- Settles O59: each file by what it holds everywhere, the registers by their values. -/
theorem resetState : Obligations.ResetState :=
  ⟨fun _ => rfl, reset_wf, getS_reset, fun n => by rw [getRow_reset]; exact ⟨rfl, rfl⟩, fun n => by simp [Core.reset, Files.reset], by decide,
    fun h i j hi _ => by rw [hoopOf_reset, Hoop.zero_elem hi], fun l => by rw [latchOf_reset]; rfl, rfl, rfl, rfl, rfl, rfl, rfl, rfl, rfl,
    fun c _ hr => getSpr_reset c hr, rfl, rfl, rfl, rfl⟩

end Sys2Proof.Machine

/-! ## Special registers (R98 to R102) -/

namespace Sys2Proof.Machine

/-! ### Bits of a value -/

/-- The lowest bits of a doubleword, zero-extended. -/
theorem setWidth_low (v : DWord) (n : Nat) : ((v.setWidth n).setWidth 64 : DWord) = BitVec.ofNat 64 (v.toNat % 2 ^ n) :=
  BitVec.eq_of_toNat_eq (by simp)

/-- Bits cleared in a shorter register are cleared in its doubleword. -/
theorem setWidth_andn (t : BitVec 24) (v : DWord) :
    ((t &&& ~~~(v.setWidth 24)).setWidth 64 : DWord) = t.setWidth 64 &&& ~~~v := by
  refine BitVec.eq_of_getLsbD_eq fun i hi => ?_
  by_cases h : i < 24
  · simp [hi, h]
  · simp [h, BitVec.getLsbD_of_ge t i (by omega)]

theorem bitAt_zero_iff {n : Nat} (v : BitVec n) : bitAt v 0 = true ↔ v.toNat % 2 = 1 := by
  simp [bitAt, Nat.testBit_zero]

/-! ### What a write changes -/

/-- A write of a special register changes registers, and the leases and pending causes that go with them, alone. -/
theorem setSpr_cases (k : Core) (r : Spr) (v : DWord) :
    ∃ t g l p, setSpr k r v = { k with tregs := t, cregs := g, l1 := l, pend := p } := by
  cases r with
  | prot =>
    by_cases h : bitAt v 0 = true
    · exact ⟨_, _, _, _, if_pos h⟩
    · exact ⟨_, _, _, _, if_neg h⟩
  | _ => exact ⟨_, _, _, _, rfl⟩

theorem setSpr_prot_set {v : DWord} (k : Core) (h : v.toNat % 2 = 1) :
    setSpr k .prot v = { k with tregs := { k.tregs with prot := 1, vl := if 32 < k.tregs.vl.toNat then 32 else k.tregs.vl } } :=
  if_pos ((bitAt_zero_iff v).2 h)

theorem setSpr_prot_clear {v : DWord} (k : Core) (h : v.toNat % 2 = 0) : setSpr k .prot v = { k with tregs := { k.tregs with prot := 0 } } :=
  if_neg (by rw [bitAt_zero_iff]; omega)

/-- A register that is not written reads as before, but for VL, which PROT lowers. -/
theorem getSpr_setSpr_other (s : State) (c : CoreId) {r sel : Spr} (v : DWord) (hr : r ≠ sel) (hvl : ¬(sel = .prot ∧ r = .vl)) :
    getSpr (updCore s c fun k => setSpr k sel v) c r = getSpr s c r := by
  simp only [getSpr, getCore_updCore_self, updCore_time]
  cases sel with
  | prot =>
    rcases Nat.mod_two_eq_zero_or_one v.toNat with h | h
    · rw [setSpr_prot_clear _ h]
      cases r <;> trivial
    · rw [setSpr_prot_set _ h]
      cases r with
      | vl => exact absurd ⟨rfl, rfl⟩ hvl
      | _ => trivial
  | _ => cases r <;> trivial

/-- What a register that R98 lets a write change reads after it: its own bits of the value, but for VL and TDIES. -/
theorem getSpr_setSpr_self (s : State) (c : CoreId) (sel : Spr) (v : DWord) :
    getSpr (updCore s c fun k => setSpr k sel v) c sel =
      match sel with
      | .vl => BitVec.ofNat 64 (max 1 (min v.toNat (if (getCore s c).tregs.prot = 1 then 32 else 64)))
      | .ksel => BitVec.ofNat 64 (v.toNat % 8) | .rnd => BitVec.ofNat 64 (v.toNat % 4) | .prot => BitVec.ofNat 64 (v.toNat % 2)
      | .egdone => BitVec.ofNat 64 (v.toNat % 2 ^ 8) | .budget => BitVec.ofNat 64 (v.toNat % 2 ^ 33)
      | .ecause => BitVec.ofNat 64 (v.toNat % 2 ^ 12) | .mcause => BitVec.ofNat 64 (v.toNat % 2 ^ 14)
      | .tenant | .asid => BitVec.ofNat 64 (v.toNat % 2 ^ 16) | .lease1 | .lease2 => BitVec.ofNat 64 (v.toNat % 2 ^ 32)
      | .tdies => getSpr s c .tdies &&& ~~~v
      | .pmask | .cycle | .instret | .rbase | .tvec | .epc | .einfo | .ptroot | .emerg | .mtvec | .mepc | .minfo => v
      | .coord | .foot | .group | .taskid | .time | .bnda | .bndb | .bndc => getSpr s c sel := by
  simp only [getSpr, getCore_updCore_self, updCore_time]
  cases sel with
  | vl => exact clampVl_setWidth _ v
  | prot =>
    rcases Nat.mod_two_eq_zero_or_one v.toNat with h | h
    · rw [setSpr_prot_clear _ h, h]; rfl
    · rw [setSpr_prot_set _ h, h]; rfl
  | tdies => exact setWidth_andn _ v
  | ksel => exact setWidth_low v 3
  | rnd => exact setWidth_low v 2
  | egdone => exact setWidth_low v 8
  | ecause => exact setWidth_low v 12
  | mcause => exact setWidth_low v 14
  | tenant | asid => exact setWidth_low v 16
  | lease1 | lease2 => exact setWidth_low v 32
  | budget => exact setWidth_low v 33
  | _ => rfl

/-- PROT lowers VL to its bound (R99). -/
theorem getSpr_vl_setSpr_prot (s : State) (c : CoreId) {v : DWord} (h : v.toNat % 2 = 1) :
    getSpr (updCore s c fun k => setSpr k .prot v) c .vl = BitVec.ofNat 64 (min (getCore s c).tregs.vl.toNat 32) := by
  simp only [getSpr, getCore_updCore_self, setSpr_prot_set _ h]
  generalize (getCore s c).tregs.vl = n
  refine BitVec.eq_of_toNat_eq ?_
  rw [apply_ite (BitVec.setWidth 64)]
  split
  · rw [Nat.min_eq_right (by omega)]; rfl
  · rw [Nat.min_eq_left (by omega), BitVec.toNat_setWidth, BitVec.toNat_ofNat]

/-- BUDGET's trap is due exactly where BUDGET is 0 (R46). -/
theorem budget_pends_setSpr_budget (k : Core) (v : DWord) : (setSpr k .budget v).pend.budget = true ↔ v.toNat % 2 ^ 33 = 0 := by
  show (v.setWidth 33 == (0 : BitVec 33)) = true ↔ _
  rw [beq_iff_eq, ← BitVec.toNat_inj, BitVec.toNat_setWidth]
  rfl

/-- Settles O13: the register that is written by its own bits, and every other field by what a write can change. -/
theorem specialWriteResults : Obligations.SpecialWriteResults := by
  intro s c sel v
  dsimp only
  refine ⟨getSpr_setSpr_self s c sel v, ?_, ?_, fun r hr hvl => getSpr_setSpr_other s c v hr hvl, ?_⟩
  · rintro rfl h
    exact getSpr_vl_setSpr_prot s c h
  · rintro rfl
    rw [getCore_updCore_self]
    exact budget_pends_setSpr_budget _ v
  · obtain ⟨t, g, l, p, h⟩ := setSpr_cases (getCore s c) sel v
    rw [getCore_updCore_self, h]
    exact ⟨rfl, rfl, rfl, rfl, rfl, rfl⟩

end Sys2Proof.Machine

/-! ## `sget` and `sset` (R98 to R102, R119) -/

namespace Sys2Proof.Machine

/-! ### Access -/

/-- A level reads the registers that R98 does not close to it. -/
theorem sprAccess_reads (lv : Level) (r : Spr) : (sprAccess lv r != 0) = !closedAt lv r := by
  cases lv <;> cases r <;> rfl

/-- A level writes the registers that R98 opens to it. -/
theorem sprAccess_writes (lv : Level) (r : Spr) : decide (2 ≤ sprAccess lv r) = openAt lv r := by
  cases lv <;> cases r <;> rfl

/-- Only PMASK waits, and not on drained streams (R100). -/
theorem waitFor_ok {s : State} {c : CoreId} {r : Spr} (h : r = .pmask → Drained (getCore s c)) : waitFor c r s = .ok () s := by
  rw [waitFor]
  split
  case isFalse => rfl
  case isTrue hr =>
    have hd := h hr
    rw [gateIdle, M.bind_ok (notPosting_ok hd.noRun), M.theCore_bind, hd.noVector, hd.noMatrix]
    rfl

/-! ### `sget` -/

theorem exec_sget (rd : BitVec 5) (sel : Spr) (s : State) : exec (.sget rd sel) s = execSget rd sel s := rfl

theorem sgetReads : Parts.SgetReads := by
  intro s rd sel
  refine ⟨fun hc hd => ?_, fun hc => ?_⟩
  · rw [exec_sget, execSget]
    refine controlTo_ok ?_ rfl
    rw [M.theCore_bind, sprAccess_reads, hc]
    exact M.bind_ok (waitFor_ok hd)
  · rw [exec_sget, execSget]
    refine controlTo_trap ?_
    rw [M.theCore_bind, sprAccess_reads, hc]
    rfl

/-! ### What comes before the write -/

/-- A computation that changes nothing on any element changes nothing on the list. -/
theorem eachOf_ok {α : Type} {l : List α} {f : α → M Unit} {s : State} (h : ∀ a ∈ l, f a s = .ok () s) : eachOf l f s = .ok () s := by
  induction l with
  | nil => rfl
  | cons a l ih =>
    rw [eachOf_cons, M.bind_ok (h a List.mem_cons_self)]
    exact ih fun b hb => h b (List.mem_cons_of_mem a hb)

theorem writeBackRow_clean {s : State} {c : CoreId} {n : BitVec 6} (h : (getRow (getCore s c) n).res ≠ .dirty) :
    writeBackRow c n s = .ok () s := by
  rw [writeBackRow, M.theCore_bind]
  exact congrFun (if_neg h) s

theorem writeBackScales_clean {s : State} {c : CoreId} {q : Nat} (h : scaleRes (getCore s c) q ≠ .dirty) :
    writeBackScales c q s = .ok () s := by
  rw [writeBackScales, M.theCore_bind]
  exact congrFun (if_neg h) s

/-- A register cache without a dirty block has nothing to write back (R100). -/
theorem writeBackAll_clean {s : State} {c : CoreId} (hrow : ∀ n, (getRow (getCore s c) n).res ≠ .dirty)
    (hsc : ∀ q < 4, scaleRes (getCore s c) q ≠ .dirty) : writeBackAll c s = .ok () s := by
  have hrows : eachOf (List.range 64) (fun i => theCore c >>= fun k =>
      if bitAt (k.files.pins[i]?.getD 0) 287 then return () else writeBackRow c (BitVec.ofNat 6 i)) s = .ok () s := by
    refine eachOf_ok fun i _ => ?_
    rw [M.theCore_bind]
    split
    · rfl
    · exact writeBackRow_clean (hrow _)
  exact (M.bind_ok hrows).trans (eachOf_ok fun q hq => writeBackScales_clean (hsc q (List.mem_range.1 hq)))

/-- Where no row is pinned there is no pin to cut (R304). -/
theorem cutEvery_unpinned {s : State} {c : CoreId} (ipc : DWord) (h : Unpinned (getCore s c)) : cutEvery c ipc s = .ok () s := by
  rw [cutEvery, M.theCore_bind, List.filter_eq_nil_iff.2 fun p _ => by simp [h p]]
  rfl

/-- RBASE invalidates every block of a clean register cache (R100, R304). -/
theorem beforeWrite_rbase {s : State} {c : CoreId} (hp : Unpinned (getCore s c)) (hrow : ∀ n, (getRow (getCore s c) n).res ≠ .dirty)
    (hsc : ∀ q < 4, scaleRes (getCore s c) q ≠ .dirty) : beforeWrite c .rbase s = .ok () (updCore s c dropBlocks) := by
  rw [beforeWrite, M.theCore_bind, M.bind_ok (cutEvery_unpinned _ hp), M.bind_ok (writeBackAll_clean hrow hsc)]
  rfl

/-- TENANT writes the lodge descriptors back, to homes that are ready (R307, R393). -/
theorem beforeWrite_tenant {s s0 : State} {c : CoreId} (h : eachOf (lodgeHomes s c) (fun a => reachHome c (lineOf a) 0) s = .ok () s0) :
    beforeWrite c .tenant s = .ok () (writeBackLodges s0 c) := by
  rw [beforeWrite, M.get_bind, M.bind_ok h]
  rfl

theorem beforeWrite_other {r : Spr} (hb : r ≠ .rbase) (ht : r ≠ .tenant) (s : State) (c : CoreId) : beforeWrite c r s = .ok () s := by
  cases r <;> trivial

theorem afterWrite_other {r : Spr} (h : r ≠ .lease2) (s : State) (c : CoreId) (v : DWord) : afterWrite s c r v = s := by
  cases r <;> trivial

/-! ### `sset` -/

theorem exec_sset (sel : Spr) (rs1 : BitVec 5) (s : State) : exec (.sset sel rs1) s = execSset sel rs1 s := rfl

/-- `sset` of a register that the level may write: what comes before the write, the write, and what follows it. -/
theorem exec_sset_ok {s s1 : State} {sel : Spr} {rs1 : BitVec 5} (ho : openAt (here s).level sel = true)
    (hd : sel = .pmask → Drained (here s)) (hb : beforeWrite s.cur sel s = .ok () s1) :
    exec (.sset sel rs1) s =
      let t := afterWrite (updCore s1 s.cur fun k => setSpr k sel (getS k rs1)) s.cur sel (getS (here s) rs1)
      .next (updCore t t.cur fun k => retire k 4) := by
  rw [exec_sset, execSset]
  refine control_ok ?_
  rw [M.theCore_bind, sprAccess_writes, ho]
  exact (M.bind_ok (waitFor_ok hd)).trans (M.bind_ok hb)

theorem ssetWrites : Parts.SsetWrites := by
  intro s sel rs1
  refine ⟨fun ho hd hr ht hl => ?_, fun ho => ?_⟩
  · rw [exec_sset_ok ho hd (beforeWrite_other hr ht s s.cur)]
    dsimp only
    rw [afterWrite_other hl, updCore_cur, updCore_updCore]
  · rw [exec_sset, execSset]
    refine control_trap ?_
    rw [M.theCore_bind, sprAccess_writes, ho]
    rfl

/-- The leases in L2 are lowered beside the core's commit (R200). -/
theorem updCore_lowerL2 (s : State) (c d : CoreId) (v : Word) (f : Core → Core) :
    updCore (lowerL2 s c v) d f = lowerL2 (updCore s d f) c v := rfl

theorem lowerL2_cur (s : State) (c : CoreId) (v : Word) : (lowerL2 s c v).cur = s.cur := rfl

theorem specialWriteCare : Parts.SpecialWriteCare := by
  intro s rs1
  dsimp only
  refine ⟨fun ho hp hrow hsc _ => ?rbase, fun ho s0 h0 => ?tenant, fun ho => ?lease2⟩
  case rbase =>
    rw [exec_sset_ok ho nofun (beforeWrite_rbase hp hrow hsc)]
    dsimp only
    rw [afterWrite_other (by decide), updCore_cur, updCore_cur, updCore_updCore, updCore_updCore]
    rfl
  case tenant =>
    rw [exec_sset_ok ho nofun (beforeWrite_tenant h0)]
    rfl
  case lease2 =>
    rw [exec_sset_ok ho nofun (beforeWrite_other (by decide) (by decide) s s.cur)]
    dsimp only
    rw [afterWrite, updCore_lowerL2, lowerL2_cur, updCore_cur, updCore_updCore, ← BitVec.ofNat_toNat]
    rfl

/-- Settles O14: each access by what precedes it, the write and what follows it. -/
theorem specialAccess : Obligations.SpecialAccess := ⟨sgetReads, ssetWrites, specialWriteCare⟩

end Sys2Proof.Machine

/-! ## A vector instruction posted to an idle stream (R32, R53, log 7) -/

namespace Sys2Proof.Machine

/-! ### The entry at the head -/

/-- A core whose control thread has committed a vector instruction of `len` bytes that is over: its number is taken (R349). -/
def pastVector (k : Core) (len : Nat) : Core := turnOver (retire { k with streams := { k.streams with nextSeq := k.streams.nextSeq + 1 } } len)

/-- A core as the vector instruction that it has posted to an idle stream executes. -/
def atVectorHead (k : Core) (i : Instr) (len : Nat) : Core := { postsVector k (postedEntry k i) len with doing := some (.vector, k.pc) }

/-- A post and its commit leave the stream without reads where it had none (R189). -/
theorem noReads_postsVector {k : Core} (hk : VectorIdle k) (e : Entry) (len : Nat) :
    (postsVector k e len).posted.find 1 = none ∧ (postsVector k e len).answered.find 1 = none ∧ (postsVector k e len).replays.find 1 = none := by
  obtain ⟨hposted, hans, hrep⟩ := hk.noReads
  refine ⟨?_, ?_, ?_⟩
  · rwa [postsVector, retire_posted]
  · rwa [postsVector, retire, retireTo_answered, Tab.find_del_other _ (by decide)]
  · rwa [postsVector, retire, retireTo_replays, Tab.find_del_other _ (by decide)]

/-- The post and the end of a vector instruction leave what its commit leaves. -/
theorem dropVector_atVectorHead {k : Core} (hk : VectorIdle k) (i : Instr) (len : Nat) :
    dropVector (dropReads (turnOver (atVectorHead k i len)) 1) = pastVector k len := by
  obtain ⟨hposted, hans, hrep⟩ := noReads_postsVector hk (postedEntry k i) len
  have hreads : dropReads (turnOver (atVectorHead k i len)) 1 = turnOver (atVectorHead k i len) :=
    dropReads_of_none (by decide) (by simpa only [turnOver, atVectorHead] using hposted) (by simpa only [turnOver, atVectorHead] using hans)
      (by simpa only [turnOver, atVectorHead] using hrep)
  rw [hreads, pastVector, retire_withStreams, atVectorHead, postsVector, retire_withStreams, dropVector, turnOver, turnOver]
  simp only [hk.empty, List.nil_append, List.drop_succ_cons, List.drop_zero]

/-- The head of a queue that may run has its turn. -/
theorem runVectorHead_cons {s : State} {c : CoreId} {e : Entry} {r : List Entry} (hv : (getCore s c).streams.vq = e :: r)
    (h : headMayRun s c e = true) : runVectorHead s c = endTurn s c .vector e dropVector (vecBody c e (turnOf s c .vector e)) := by
  simp only [runVectorHead, hv, h, if_true]

/-- An access of no bytes waits for no entry (R217). -/
theorem conflicts_nil (s : State) (c : CoreId) (p : Entry → Bool) : conflicts s c p [] [] = false :=
  List.any_eq_false.2 fun e _ => by simp [mustFollow, spansMeet, anyTwo]

/-- The one entry of the vector queue waits for nothing where it accesses no memory. -/
theorem headMayRun_noSpans {s : State} {c : CoreId} {e : Entry} (hv : (getCore s c).streams.vq = [e])
    (h : ∀ head, spansOf (getCore s c) e head = ([], [])) : headMayRun s c e = true := by
  have hself : postedBefore e.seq e.seq = false := by simp [postedBefore]
  have hmem : touchesMemory (getCore s c) e = false := by simp [touchesMemory, readsMemory, h]
  have hhoop : hoopStillRead (getCore s c) e = false := by
    rw [hoopStillRead, hv, List.any_cons, List.any_nil, hself]
    split <;> simp
  simp [headMayRun, hmem, h, conflicts_nil, hhoop]

/-- Where no row is pinned no row is restitched (R303). -/
theorem restitchSpans_unpinned {k : Core} (h : Unpinned k) (rows : List (BitVec 6)) (head : Bool) : restitchSpans k rows head = [] := by
  have hall : (k.files.pins.all fun p => !pinValid p) = true := by
    refine Vector.all_eq_true.2 fun i hi => ?_
    have hn := h (BitVec.ofNat 6 i)
    have hmod : i % 2 ^ 6 = i := Nat.mod_eq_of_lt hi
    simpa only [pinOf, BitVec.toNat_ofNat, hmod, Bool.not_eq_eq_eq_not, Bool.not_true] using hn
  rw [restitchSpans, if_pos hall]

/-- An instruction without bytes of its own may run as it is posted to an idle stream, where no row is pinned. -/
theorem headMayRun_posted {s : State} {i : Instr} {len : Nat} (hk : VectorIdle (here s)) (hp : Unpinned (here s))
    (hspans : ∀ k e head, e.instr = i → ownSpans k e head = ([], [])) :
    headMayRun (updCore s s.cur fun k => postsVector k (postedEntry k i) len) s.cur (postedEntry (here s) i) = true := by
  refine headMayRun_noSpans (by simp [postsVector, hk.empty]) fun head => ?_
  have hunpinned : Unpinned (getCore (updCore s s.cur fun k => postsVector k (postedEntry k i) len) s.cur) := fun n => by
    simpa [pinOf, postsVector] using hp n
  rw [spansOf, hspans _ _ _ rfl, restitchSpans_unpinned hunpinned]
  rfl

/-! ### The instruction -/

section
variable {s : State} {i : Instr} {len : Nat} (hi : vectorLength i = some len) (hw : (asV3 i).wellFormed = true) (hk : VectorIdle (here s))
  (hmay : headMayRun (updCore s s.cur fun k => postsVector k (postedEntry k (asV3 i)) len) s.cur (postedEntry (here s) (asV3 i)) = true)

include hi hw hk hmay

/-- A vector instruction on an idle stream executes as it is posted, as the one entry of its queue. -/
theorem exec_vector : exec i s = .next
    (endTurn (updCore s s.cur fun k => postsVector k (postedEntry k (asV3 i)) len) s.cur .vector (postedEntry (here s) (asV3 i)) dropVector
      (vecBody s.cur (postedEntry (here s) (asV3 i)) (updCore s s.cur fun k => atVectorHead k (asV3 i) len))) := by
  have hroom : (here s).streams.vq.length < 128 := by simp [hk.empty]
  rw [(vectorPosts s i len hi hw).1 hk.noRun hroom, if_pos ⟨hk.empty, hk.eager⟩]
  have hq : (getCore (updCore s s.cur fun k => postsVector k (postedEntry k (asV3 i)) len) s.cur).streams.vq =
      [postedEntry (here s) (asV3 i)] := by simp [postsVector, hk.empty]
  have hrewind : rewindReads (postsVector (here s) (postedEntry (here s) (asV3 i)) len) Stream.vector.code =
      postsVector (here s) (postedEntry (here s) (asV3 i)) len := rewindReads_of_none (noReads_postsVector hk _ _).2.1
  have hturn : turnOf (updCore s s.cur fun k => postsVector k (postedEntry k (asV3 i)) len) s.cur .vector (postedEntry (here s) (asV3 i)) =
      updCore s s.cur fun k => atVectorHead k (asV3 i) len := by
    rw [turnOf, updCore_updCore]
    refine updCore_congr ?_
    dsimp only
    rw [hrewind]
    rfl
  rw [← hturn]
  exact congrArg Host.Outcome.next (runVectorHead_cons hq hmay)

/-- A vector instruction on an idle stream whose meaning changes its core alone leaves that change beside its commit. -/
theorem exec_vector_ok {f : Core → Core}
    (hb : vecBody s.cur (postedEntry (here s) (asV3 i)) (updCore s s.cur fun k => atVectorHead k (asV3 i) len) =
      .ok () (updCore s s.cur fun k => f (atVectorHead k (asV3 i) len)))
    (hf : ∀ k, dropVector (dropReads (turnOver (f k)) 1) = f (dropVector (dropReads (turnOver k) 1)))
    (hc : ∀ k, (f k).poisoned = k.poisoned) : exec i s = .next (updCore s s.cur fun k => f (pastVector k len)) := by
  have hclean : (getCore (updCore s s.cur fun k => f (atVectorHead k (asV3 i) len)) s.cur).poisoned.find Stream.vector.code = none := by
    rw [getCore_updCore_self, hc, atVectorHead, postsVector, retire_poisoned]
    exact hk.settled
  have hend : dropVector (dropReads (turnOver (f (atVectorHead (here s) (asV3 i) len))) 1) = f (pastVector (here s) len) := by
    rw [hf, dropVector_atVectorHead hk]
  rw [exec_vector hi hw hk hmay, hb, endTurn_ok, entryEnds_clean _ hclean, updCore_updCore, updCore_updCore]
  exact congrArg Host.Outcome.next (updCore_congr hend)

end

/-! ### A row written -/

/-- A core with a frame row written, and its counters replaced. -/
def writtenRow (k : Core) (n : BitVec 6) (r : Row) (ctrs : CounterBlock) : Core := { setRow k n { row := r, res := .dirty } with ctrs := ctrs }

theorem getRow_writtenRow_self (k : Core) (n : BitVec 6) (r : Row) (ctrs : CounterBlock) :
    getRow (writtenRow k n r ctrs) n = { row := r, res := .dirty } := (getRow_setRow k n n _).trans (if_pos rfl)

theorem getRow_writtenRow_other (k : Core) {n m : BitVec 6} (r : Row) (ctrs : CounterBlock) (h : m ≠ n) :
    getRow (writtenRow k n r ctrs) m = getRow k m := (getRow_setRow k n m _).trans (if_neg h)

theorem getRow_pastVector (k : Core) (len : Nat) (n : BitVec 6) : getRow (pastVector k len) n = getRow k n := by
  simp [getRow, pastVector, turnOver]

section
variable (k : Core) (len : Nat) (n : BitVec 6) (r : Row) (ctrs : CounterBlock)

theorem writtenRow_masks : (writtenRow (pastVector k len) n r ctrs).files.k = k.files.k := by simp [writtenRow, setRow, pastVector, turnOver]

theorem writtenRow_pc : (writtenRow (pastVector k len) n r ctrs).pc = k.pc + BitVec.ofNat 64 len := by
  simp [writtenRow, setRow, pastVector, turnOver]

theorem vectorFrame_writtenRow : VectorFrame k (writtenRow (pastVector k len) n r ctrs) := by
  constructor <;> simp [writtenRow, setRow, pastVector, turnOver, retire, retireTo_tregs]

end

end Sys2Proof.Machine

/-! ## Lane operations on rows (R94, R128, R132) -/

namespace Sys2Proof.Machine

/-! ### The forms -/

/-- What the lane forms on three rows have in common: each is posted whole, accesses no memory, and runs its operation. -/
structure LaneForm (d a b : BitVec 6) (i : Instr) (o : LaneOp) : Prop where
  length : vectorLength i = some 4
  v3 : asV3 i = i
  wellFormed : i.wellFormed = true
  spans : ∀ k e head, e.instr = i → ownSpans k e head = ([], [])
  body : ∀ c e s, e.instr = i → e.popped = [] →
    vecBody c e s = runLane (vxOf c e []) o (.row d) (.row a) (.row (if o.binary then b else a)) s

theorem laneForm {d a b : BitVec 6} {p : Instr × LaneOp} (hp : p ∈ laneForms (.row d) (.row a) (.row b)) : LaneForm d a b p.1 p.2 := by
  fin_cases hp <;> exact ⟨rfl, rfl, rfl, fun k e head h => by rw [ownSpans, h], fun c e s h hpop => by cases e; cases h; cases hpop; rfl⟩

/-- An operation without a source B gives the same whatever B holds (R132). -/
theorem laneOp_unary {o : LaneOp} (h : o.binary = false) (f : Fmt) (a b b' d : Nat) : laneOp o f a b d = laneOp o f a b' d := by
  cases o <;> trivial

/-! ### Elements and their poison -/

theorem elemPsn_zero (w e : Nat) : elemPsn 0 w e = false := by simp [elemPsn]

section
variable {g : Nat → Option Res} (hg : ∀ e r, g e = some r → r.bad = false) (w n : Nat)
include hg

/-- Elements that are all clean poison no cell (R129). -/
theorem putPsn_clean : putPsn w n 0 g = 0 := by
  rw [putPsn, Nat.zero_and, Nat.zero_or]
  refine List.foldl_fixed' (fun e => ?_) _
  cases h : g e with
  | none => rfl
  | some r => simp [hg e r h]

/-- Elements that are all clean set no bit of PMASK (R129). -/
theorem poisonMask_clean : poisonMask w n g = 0 := by
  refine List.foldl_fixed' (fun e => ?_) _
  cases h : g e with
  | none => rfl
  | some r => simp [hg e r h]

end

/-- An element of a row after others are written over it (R94). -/
theorem elemOf_putElems {w n e b : Nat} (old : Nat) (g : Nat → Option Res) (hb : w * n ≤ b) (he : e < n) :
    elemOf (BitVec.ofNat b (putElems w n old g)).toNat w e = match g e with | some r => r.val % 2 ^ w | none => elemOf old w e := by
  have hlt : putElems w n old g < 2 ^ b := Nat.lt_of_lt_of_le (buildRow_lt w _ n) (Nat.pow_le_pow_right (by decide) hb)
  rw [BitVec.toNat_ofNat, Nat.mod_eq_of_lt hlt, putElems, elemOf_buildRow w _ he]
  cases g e with
  | some r => rfl
  | none => exact Nat.mod_mod _ _

/-! ### Rows that are ready -/

/-- A row that is resident is as it is (R105). -/
theorem makeResident_resident {s : State} {c : CoreId} {n : BitVec 6} (h : (getRow (getCore s c) n).res ≠ .gone) (ipc : DWord) :
    makeResident c ipc n s = .ok () s := by
  have hfill : fillRow c n s = .ok () s := by
    rw [fillRow, M.theCore_bind]
    exact congrFun (if_neg h) s
  rw [makeResident, residentRow, M.theCore_bind, if_neg fun hg => h hg.1, hfill]

/-- A write of a row cuts no pin where none is pinned (R304). -/
theorem cutRow_unpinned {s : State} {c : CoreId} (h : Unpinned (getCore s c)) (ipc : DWord) (r : BitVec 6) : cutRow c ipc r s = .ok () s := by
  have hdep : dependants (getCore s c) r = [] := List.filter_eq_nil_iff.2 fun p _ => by simp [h p]
  rw [cutRow, M.theCore_bind, hdep, eachOf_nil, M.pure_bind_run, M.theCore_bind, h r]
  rfl

/-- A core whose block is free to take: no write-back of an evicted item has failed (R106). -/
theorem takeBlock_ok {s : State} {c : CoreId} (h : (getCore s c).evictFault = none) : takeBlock c s = .ok () s := by
  rw [takeBlock, M.theCore_bind, h]
  rfl

section
variable {s : State} {c : CoreId} {e : Entry} (popped : List Row)

theorem ensure_row {n : BitVec 6} (h : (getRow (getCore s c) n).res ≠ .gone) : (vxOf c e popped).ensure (.row n) s = .ok () s :=
  eachOf_ok fun m hm => by
    cases List.mem_singleton.1 hm
    exact makeResident_resident h e.ipc

theorem openDest_row {n : BitVec 6} (hp : Unpinned (getCore s c)) (hv : (getCore s c).evictFault = none)
    (h : (getRow (getCore s c) n).res ≠ .gone) : openDest (vxOf c e popped) (.row n) s = .ok () s := by
  refine eachOf_ok fun m hm => ?_
  cases List.mem_singleton.1 hm
  refine (M.bind_ok (cutRow_unpinned hp e.ipc n)).trans ((M.theCore_bind c _ s).trans ?_)
  dsimp only
  split
  · exact (M.bind_ok (takeBlock_ok hv)).trans (makeResident_resident h e.ipc)
  · exact makeResident_resident h e.ipc

/-- On rows no fault falls between the groups of an instruction, which runs at once and counts its groups (R128). -/
theorem byGroups_rows {d : BitVec 6} {srcs : List (BitVec 6)} (w : Nat) (retags : Bool) {act : (Nat → Bool) → M Unit} {s' : State}
    (hp : Unpinned (getCore s c)) (hv : (getCore s c).evictFault = none) (hd : (getRow (getCore s c) d).res ≠ .gone)
    (hs : ∀ r ∈ srcs, (getRow (getCore s c) r).res ≠ .gone) (hact : act (fun _ => true) s = .ok () s') :
    byGroups (vxOf c e popped) (.row d) (srcs.map .row) w retags act s = countGroups (vxOf c e popped) s' := by
  have hline : (srcs.map Opd.row).any Opd.isLine = false := by simp [Opd.isLine]
  have hsplits : splits (vxOf c e popped) (.row d) (srcs.map .row) retags = false := by simp [splits, hline, Opd.isLine]
  have hsrcs : eachOf (srcs.map .row) (vxOf c e popped).ensure s = .ok () s := eachOf_ok fun o ho => by
    obtain ⟨r, hr, rfl⟩ := List.mem_map.1 ho
    exact ensure_row popped (hs r hr)
  rw [byGroups, hsplits, if_neg Bool.false_ne_true, M.bind_ok hsrcs, M.bind_ok (openDest_row popped hp hv hd), M.bind_ok hact]

/-- The groups that are counted change the counters alone (R339). -/
theorem countGroups_run (s : State) : ∃ ctrs, countGroups (vxOf c e popped) s = .ok () (updCore s c fun k => { k with ctrs := ctrs }) := by
  obtain ⟨ctrs, h⟩ := countPerf_withCtrs (getCore s c) 3 ((List.range 8).filter fun g => !bitAt e.egdone g).length
  exact ⟨ctrs, congrArg (EStateM.Result.ok ()) (updCore_congr h)⟩

/-- Nothing mismatches where the mode is off or no computation of the core is to mismatch (R130). -/
theorem protect_agree (h : e.env.prot = 0 ∨ (getCore s c).laneErrors = []) (f : Fmt) (g : Nat → Option Res) :
    protect (vxOf c e popped) f g s = .ok g s := by
  have h : (vxOf c e popped).env.prot = 0 ∨ (getCore s c).laneErrors.isEmpty = true := h.imp id List.isEmpty_iff.2
  rw [protect, M.theCore_bind]
  exact congrFun (if_pos h) s

/-- The end of a computation whose elements are all clean writes its row alone (R94, R129). -/
theorem commitComputed_row {d : BitVec 6} {t : HWord} {g : Nat → Option Res} (hprot : e.env.prot = 0 ∨ (getCore s c).laneErrors = [])
    (hg : ∀ i r, g i = some r → r.bad = false) (hd : (getRow (getCore s c) d).row.psn = 0) :
    let w := fmtWidth (tagFmt t)
    let bits := putElems w (elemCount w) (getRow (getCore s c) d).row.bits.toNat g
    commitComputed (vxOf c e popped) (.row d) t g s = .ok () (updCore s c fun k => storeRow k d bits 0 t) := by
  intro w bits
  have hpsn : putPsn w (elemCount w) (getRow (getCore s c) d).row.psn.toNat g = 0 := by rw [hd]; exact putPsn_clean hg _ _
  have hwrite : writeDest (vxOf c e popped) (.row d) t g s = .ok () (updCore s c fun k => storeRow k d bits 0 t) :=
    congrArg (EStateM.Result.ok ()) (updCore_congr (congrArg (storeRow (getCore s c) d bits · t) hpsn))
  have hnote : notePoison (vxOf c e popped).c (vxOf c e popped).ipc (poisonMask w (elemCount w) g) = pure () := by
    rw [poisonMask_clean hg]
    rfl
  rw [commitComputed, M.bind_ok (protect_agree popped hprot _ g), commitResult, M.bind_ok hwrite, hnote]
  rfl

end

/-! ### The operation -/

/-- The operands of a lane operation on rows, on a core as it stands: the sources resident and clean, of one tag that the operation accepts
and keeps, the destination ready to be written, and the computation not to mismatch (R94, R105, R130, R132). -/
structure LaneRows (k : Core) (e : Entry) (o : LaneOp) (d a b : BitVec 6) (t : HWord) : Prop where
  unpinned : Unpinned k
  written : k.evictFault = none
  agree : e.env.prot = 0 ∨ k.laneErrors = []
  dest : CleanRow k d
  srcA : CleanRow k a
  srcB : CleanRow k b
  tagged : t ≠ 0
  tagA : (getRow k a).row.tag = t
  tagB : (getRow k b).row.tag = t
  accepts : o.accepts (tagFmt t) = true
  tagD : o = .fma → (getRow k d).row.tag = t
  keeps : o.resultTag t = t

theorem formatUnless_ok {b : Bool} (h : b = true) {s : State} : formatUnless b s = .ok () s := by rw [h]; rfl

/-- Two sources of one tag, or one alone, operate under it (R125). -/
theorem operatingTag_rows {k : Core} {t : HWord} {d : Opd} {s : State} (ht : t ≠ 0) (both : Bool) :
    operatingTag k (some t) (if both then some t else none) d s = .ok t s := by
  cases both with
  | true => exact M.bind_ok (formatUnless_ok (by simpa using ht))
  | false => exact M.bind_ok (formatUnless_ok (by simpa using ht))

/-- A step after one of two that has answered. -/
theorem M.ite_bind_ok {α β : Type} {p : Prop} [Decidable p] {m n : M α} {f : α → M β} {s s' : State} {a : α}
    (h : (if p then m else n) s = .ok a s') : (if p then m >>= f else n >>= f) s = f a s' := by
  by_cases hp : p
  · rw [if_pos hp] at h ⊢
    exact M.bind_ok h
  · rw [if_neg hp] at h ⊢
    exact M.bind_ok h

/-- What a lane operation writes to an element of its row: nothing where the element is not covered or not active (R77, R132). -/
def laneResult (k : Core) (v : Env) (o : LaneOp) (f : Fmt) (d a b : BitVec 6) (i : Nat) : Option Res :=
  let w := fmtWidth f
  let el (r : BitVec 6) : Nat := elemOf (getRow k r).row.bits.toNat w i
  if covered v.vl.toNat w i && active (getK k v.ksel).toNat w i then some { val := laneOp o f (el a) (el b) (el d), bad := false } else none

section
variable {k : Core} {v : Env} {f : Fmt} {i : Nat} (o : LaneOp) (d a b : BitVec 6)

theorem laneResult_on (h : fmtWidth f * (i + 1) ≤ 32 * v.vl.toNat ∧ (getK k v.ksel).toNat.testBit (fmtWidth f * i / 32) = true) :
    laneResult k v o f d a b i = some
      { val := laneOp o f (elemOf (getRow k a).row.bits.toNat (fmtWidth f) i) (elemOf (getRow k b).row.bits.toNat (fmtWidth f) i)
          (elemOf (getRow k d).row.bits.toNat (fmtWidth f) i), bad := false } :=
  if_pos (by simpa [covered, active, cell0] using h)

theorem laneResult_off (h : ¬(fmtWidth f * (i + 1) ≤ 32 * v.vl.toNat ∧ (getK k v.ksel).toNat.testBit (fmtWidth f * i / 32) = true)) :
    laneResult k v o f d a b i = none :=
  if_neg (by simpa [covered, active, cell0] using h)

end

theorem laneResult_clean {k : Core} {v : Env} {o : LaneOp} {f : Fmt} {d a b : BitVec 6} (i : Nat) (r : Res)
    (h : laneResult k v o f d a b i = some r) : r.bad = false := by
  rw [laneResult] at h
  split at h
  · cases h; rfl
  · cases h

/-- The row that a lane operation leaves (R94). -/
def laneRow (k : Core) (v : Env) (o : LaneOp) (d a b : BitVec 6) (t : HWord) : Row :=
  let w := fmtWidth (tagFmt t)
  { bits := BitVec.ofNat 2048 (putElems w (elemCount w) (getRow k d).row.bits.toNat (laneResult k v o (tagFmt t) d a b))
    psn := 0
    tag := t }

/-- The rows that a lane operation reads as sources. -/
def laneSources (o : LaneOp) (a b : BitVec 6) : List (BitVec 6) := if o.binary then [a, b] else [a]

theorem laneSources_operands (o : LaneOp) (a b : BitVec 6) :
    (if o.binary then [Opd.row a, Opd.row b] else [Opd.row a]) = (laneSources o a b).map .row := by
  rw [laneSources]
  split <;> rfl

section
variable {s : State} {c : CoreId} {e : Entry} {o : LaneOp} {d a b : BitVec 6} {t : HWord}

theorem LaneRows.resident {k : Core} (h : LaneRows k e o d a b t) : ∀ r ∈ laneSources o a b, (getRow k r).res ≠ .gone := by
  have hall : ∀ r ∈ [a, b], (getRow k r).res ≠ .gone := by simpa using ⟨h.srcA.resident, h.srcB.resident⟩
  intro r hr
  refine hall r ?_
  rw [laneSources] at hr
  split at hr
  · exact hr
  · exact List.mem_cons.2 (.inl (List.mem_singleton.1 hr))

theorem LaneRows.sourceTagA (h : LaneRows (getCore s c) e o d a b t) (vl : Nat) :
    sourceTag (getCore s c) vl none (.row a) s = .ok (some t) s := congrArg (fun u => EStateM.Result.ok (some u) s) h.tagA

theorem LaneRows.sourceTagB (h : LaneRows (getCore s c) e o d a b t) (vl : Nat) :
    (if o.binary then sourceTag (getCore s c) vl none (.row b) else pure none) s = .ok (if o.binary then some t else none) s := by
  split
  · exact congrArg (fun u => EStateM.Result.ok (some u) s) h.tagB
  · rfl

theorem LaneRows.oldTag (h : LaneRows (getCore s c) e o d a b t) (vl : Nat) :
    (if o = .fma then checkOldTag (getCore s c) vl (.row d) t else pure ()) s = .ok () s := by
  split
  case isTrue hf => exact formatUnless_ok (by simp [Opd.rows, h.tagD hf])
  case isFalse => rfl

theorem writes_row (c : CoreId) {e : Entry} (he : e.egdone = 0) (mask : Nat) (d : Opd) (srcs : List Opd) (w i : Nat) :
    writes (vxOf c e []) mask d srcs w i = (covered e.env.vl.toNat w i && active mask w i) := by
  have hdone : groupDone (vxOf c e []) d srcs w i = false := by simp [groupDone, vxOf, he]
  rw [writes, hdone]
  exact Bool.and_true _

/-- The element that a lane operation makes of clean sources is its result without poison (R129, R132). -/
theorem laneAct_eq {k : Core} (h : LaneRows k e o d a b t) (he : e.egdone = 0) (srcs : List Opd) (i : Nat) :
    let w := fmtWidth (tagFmt t)
    let src (r : BitVec 6) : Src := { img := (getRow k r).row.bits.toNat, psn := (getRow k r).row.psn.toNat }
    let sb : Src := if o.binary then src b else { img := 0, psn := 0 }
    (if (true && writes (vxOf c e []) (getK k e.env.ksel).toNat (.row d) srcs w i) = true then
      some (resOf (tagFmt t) (elemPsn (src a).psn w i || elemPsn sb.psn w i || (o == .fma && elemPsn (src d).psn w i))
        (laneOp o (tagFmt t) (elemOf (src a).img w i) (elemOf sb.img w i) (elemOf (src d).img w i)))
      else none) = laneResult k e.env o (tagFmt t) d a b i := by
  intro w src sb
  have hclean (r : BitVec 6) (hr : CleanRow k r) : elemPsn (src r).psn w i = false := by
    simp only [src, hr.clean]
    exact elemPsn_zero w i
  have hb : elemPsn sb.psn w i = false ∧ laneOp o (tagFmt t) (elemOf (src a).img w i) (elemOf sb.img w i) (elemOf (src d).img w i) =
      laneOp o (tagFmt t) (elemOf (src a).img w i) (elemOf (src b).img w i) (elemOf (src d).img w i) := by
    cases hbin : o.binary with
    | true => simpa [sb, hbin] using hclean b h.srcB
    | false => simp only [sb, hbin]; exact ⟨elemPsn_zero w i, laneOp_unary hbin ..⟩
  rw [hclean a h.srcA, hclean d h.dest, hb.1, hb.2, writes_row c he, laneResult, Bool.and_false]
  rfl

/-- A lane operation on ready rows passes its checks, and then writes its row, and counts its groups, alone. -/
theorem runLane_rows (h : LaneRows (getCore s c) e o d a b t) (he : e.egdone = 0) :
    ∃ ctrs, runLane (vxOf c e []) o (.row d) (.row a) (.row b) s =
      .ok () (updCore s c fun k => writtenRow k d (laneRow (getCore s c) e.env o d a b t) ctrs) := by
  set w := fmtWidth (tagFmt t)
  set bits := putElems w (elemCount w) (getRow (getCore s c) d).row.bits.toNat (laneResult (getCore s c) e.env o (tagFmt t) d a b)
  obtain ⟨ctrs, hcount⟩ := countGroups_run (c := c) (e := e) [] (updCore s c fun k => storeRow k d bits 0 t)
  rw [updCore_updCore] at hcount
  have hmask : (vxOf c e []).mask s = .ok (getK (getCore s c) e.env.ksel).toNat s := rfl
  refine ⟨ctrs, .trans ?_ hcount⟩
  rw [runLane, M.theCore_bind]
  refine (M.bind_ok (h.sourceTagA _)).trans <| (M.ite_bind_ok (h.sourceTagB _)).trans <| (M.bind_ok (operatingTag_rows h.tagged _)).trans <|
    (M.bind_ok (formatUnless_ok h.accepts)).trans <| (M.ite_bind_ok (h.oldTag _)).trans <| (M.pure_bind_run _ _ s).trans ?_
  rw [laneSources_operands, h.keeps]
  refine byGroups_rows [] w _ h.unpinned h.written h.dest.resident h.resident ((M.theCore_bind c _ s).trans ((M.bind_ok hmask).trans ?_))
  exact (congrArg (fun g => commitComputed (vxOf c e []) (.row d) t g s) (funext fun i => laneAct_eq h he _ i)).trans
    (commitComputed_row [] h.agree laneResult_clean h.dest.clean)

end

/-! ### The instruction -/

theorem getRow_atVectorHead (k : Core) (i : Instr) (len : Nat) (n : BitVec 6) : getRow (atVectorHead k i len) n = getRow k n := by
  simp [getRow, atVectorHead, postsVector]

theorem getK_atVectorHead (k : Core) (i : Instr) (len : Nat) (n : BitVec 3) : getK (atVectorHead k i len) n = getK k n := by
  simp [getK, atVectorHead, postsVector]

theorem cleanRow_atVectorHead {k : Core} {n : BitVec 6} (h : CleanRow k n) (i : Instr) (len : Nat) : CleanRow (atVectorHead k i len) n := by
  constructor
  · rw [getRow_atVectorHead]; exact h.resident
  · rw [getRow_atVectorHead]; exact h.clean

/-- A lane operation that is posted with ready rows runs on them. -/
theorem laneRows_atVectorHead {k : Core} {o : LaneOp} {d a b : BitVec 6} {t : HWord} (i : Instr) (h : LaneRows k (postedEntry k i) o d a b t) :
    LaneRows (atVectorHead k i 4) (postedEntry k i) o d a b t where
  unpinned := fun n => by simpa [pinOf, atVectorHead, postsVector] using h.unpinned n
  written := by simpa [atVectorHead, postsVector] using h.written
  agree := by simpa [atVectorHead, postsVector] using h.agree
  dest := cleanRow_atVectorHead h.dest i 4
  srcA := cleanRow_atVectorHead h.srcA i 4
  srcB := cleanRow_atVectorHead h.srcB i 4
  tagged := h.tagged
  tagA := by rw [getRow_atVectorHead]; exact h.tagA
  tagB := by rw [getRow_atVectorHead]; exact h.tagB
  accepts := h.accepts
  tagD := fun ho => by rw [getRow_atVectorHead]; exact h.tagD ho
  keeps := h.keeps

theorem laneRow_atVectorHead (k : Core) (i : Instr) (len : Nat) (v : Env) (o : LaneOp) (d a b : BitVec 6) (t : HWord) :
    laneRow (atVectorHead k i len) v o d a b t = laneRow k v o d a b t := by
  have hres : laneResult (atVectorHead k i len) v o (tagFmt t) d a b = laneResult k v o (tagFmt t) d a b := by
    funext j
    simp only [laneResult, getRow_atVectorHead, getK_atVectorHead]
  simp only [laneRow, hres, getRow_atVectorHead]

/-- A lane operation on rows writes its row beside its commit. -/
theorem exec_lane {s : State} {i : Instr} {o : LaneOp} {d a b : BitVec 6} {t : HWord} (hf : LaneForm d a b i o) (hk : VectorIdle (here s))
    (h : LaneRows (here s) (postedEntry (here s) i) o d a (if o.binary then b else a) t) :
    ∃ ctrs, exec i s = .next (updCore s s.cur fun k => writtenRow (pastVector k 4) d
      (laneRow (here s) (postedEntry (here s) i).env o d a (if o.binary then b else a) t) ctrs) := by
  have hhead : LaneRows (getCore (updCore s s.cur fun k => atVectorHead k i 4) s.cur) (postedEntry (here s) i) o d a
      (if o.binary then b else a) t := by
    rw [getCore_updCore_self]
    exact laneRows_atVectorHead i h
  obtain ⟨ctrs, hrun⟩ := runLane_rows hhead rfl
  rw [← hf.body s.cur (postedEntry (here s) i) _ rfl rfl, updCore_updCore, getCore_updCore_self, laneRow_atVectorHead] at hrun
  refine ⟨ctrs, ?_⟩
  have hok := exec_vector_ok (s := s) (i := i) (f := fun k => writtenRow k d
    (laneRow (here s) (postedEntry (here s) i).env o d a (if o.binary then b else a) t) ctrs) hf.length
  rw [hf.v3] at hok
  exact hok hf.wellFormed hk (headMayRun_posted hk h.unpinned hf.spans) hrun (fun _ => rfl) (fun _ => rfl)

/-- What the source B of an operation without one would supply changes nothing. -/
theorem laneResult_source (k : Core) (v : Env) (o : LaneOp) (f : Fmt) (d a b : BitVec 6) :
    laneResult k v o f d a (if o.binary then b else a) = laneResult k v o f d a b := by
  cases hb : o.binary with
  | true => rfl
  | false =>
    funext i
    simp only [laneResult, if_neg Bool.false_ne_true]
    rw [laneOp_unary hb]

/-- A format that a lane operation accepts has elements (R132). -/
theorem fmtWidth_ne_zero_of_accepts {o : LaneOp} {f : Fmt} (h : o.accepts f = true) : fmtWidth f ≠ 0 := by
  rintro hw
  cases f <;> cases hw
  cases o <;> cases h

/-- Each element of the row that a lane operation leaves (R77, R94, R132). -/
theorem elemOf_laneRow (k : Core) (v : Env) {o : LaneOp} (d a b : BitVec 6) {t : HWord} (h : o.accepts (tagFmt t) = true) {e : Nat}
    (he : e < 2048 / fmtWidth (tagFmt t)) :
    let w := fmtWidth (tagFmt t)
    let el (r : BitVec 6) : Nat := elemOf (getRow k r).row.bits.toNat w e
    elemOf (laneRow k v o d a b t).bits.toNat w e =
      if w * (e + 1) ≤ 32 * v.vl.toNat ∧ (getK k v.ksel).toNat.testBit (w * e / 32) = true then laneOp o (tagFmt t) (el a) (el b) (el d) % 2 ^ w
      else el d := by
  intro w el
  have hcount : elemCount w = 2048 / w := if_neg (fmtWidth_ne_zero_of_accepts h)
  have hfits : w * elemCount w ≤ 2048 := by rw [hcount]; exact Nat.mul_div_le 2048 w
  have hput := elemOf_putElems (getRow k d).row.bits.toNat (laneResult k v o (tagFmt t) d a b) hfits (hcount ▸ he)
  refine hput.trans ?_
  split_ifs with hin
  · rw [laneResult_on _ _ _ _ hin]
  · rw [laneResult_off _ _ _ _ hin]

/-- Settles O35: the entry runs as it is posted (`exec_lane`), its row holds the results (`elemOf_laneRow`), and the rest is its commit's. -/
theorem laneResults : Obligations.LaneResults := by
  intro s d a b t k f w el hk hp hd ha hb ht hta htb p hmem hacc hfma hkeep
  have hrows : LaneRows k (postedEntry k p.1) p.2 d a (if p.2.binary then b else a) t :=
    { unpinned := hp, written := hk.written, agree := hk.agree, dest := hd, srcA := ha, srcB := by split <;> assumption, tagged := ht, tagA := hta
      tagB := by split <;> assumption, accepts := hacc, tagD := hfma, keeps := hkeep }
  obtain ⟨ctrs, hexec⟩ := exec_lane (laneForm hmem) hk hrows
  rw [laneRow, laneResult_source, ← laneRow] at hexec
  have hself := getRow_writtenRow_self (pastVector k 4) d (laneRow k (postedEntry k p.1).env p.2 d a b t) ctrs
  refine ⟨_, hexec, onlyHere_updCore s _, ?_⟩
  rw [here, updCore_cur, getCore_updCore_self, hself]
  refine ⟨vectorFrame_writtenRow k 4 d _ ctrs, ?_, ?_, fun r hr => ?_, rfl, rfl, rfl, fun e he => elemOf_laneRow k _ d a b hacc he⟩
  · exact writtenRow_masks ..
  · exact writtenRow_pc ..
  · rw [getRow_writtenRow_other _ _ _ hr, getRow_pastVector]

end Sys2Proof.Machine

/-! ## Integers and constants (R110 to R112) -/

namespace Sys2Proof.Machine

/-! ### What an integer instruction computes -/

/-- A scalar instruction that raises nothing answers the write of its value. -/
theorem writeScalar_congr {s : State} {rd : BitVec 5} {v w : DWord} (h : v = w) :
    (.next (writeScalar s rd v) : Out) = .next (writeScalar s rd w) :=
  congrArg (fun x => Host.Outcome.next (writeScalar s rd x)) h

theorem add_eq_ofNat (a b : DWord) : a + b = BitVec.ofNat 64 (a.toNat + b.toNat) := BitVec.eq_of_toNat_eq (by simp)

theorem mul_eq_ofNat (a b : DWord) : a * b = BitVec.ofNat 64 (a.toNat * b.toNat) := BitVec.eq_of_toNat_eq (by simp)

theorem sub_eq_ofInt (a b : DWord) : a - b = BitVec.ofInt 64 (a.toNat - b.toNat) := by
  rw [sub_eq_add_neg (a.toNat : Int), BitVec.ofInt_add, BitVec.ofInt_neg, BitVec.ofInt_natCast, BitVec.ofInt_natCast, BitVec.ofNat_toNat,
    BitVec.ofNat_toNat, BitVec.setWidth_eq, BitVec.setWidth_eq, BitVec.sub_eq_add_neg]

theorem shl_eq_ofNat (a : DWord) (n : Nat) : a <<< n = BitVec.ofNat 64 (a.toNat * 2 ^ n) :=
  BitVec.eq_of_toNat_eq (by simp [Nat.shiftLeft_eq])

theorem shr_eq_ofNat (a : DWord) (n : Nat) : a >>> n = BitVec.ofNat 64 (a.toNat / 2 ^ n) := by
  rw [← Nat.shiftRight_eq_div_pow, ← BitVec.toNat_ushiftRight, BitVec.ofNat_toNat, BitVec.setWidth_eq]

theorem sra_eq_ofInt (a : DWord) (n : Nat) : a.sshiftRight n = BitVec.ofInt 64 (a.toInt / 2 ^ n) := by
  rw [BitVec.sshiftRight, Int.shiftRight_eq_div_pow]
  rfl

section Extremes

variable {α : Type} [LinearOrder α] {f : DWord → α} {g : α → DWord} (h : ∀ x, g (f x) = x) (a b : DWord)
include h

/-- The operand with the smaller number has the smaller of both numbers. -/
theorem ite_lt_eq_min : (if f a < f b then a else b) = g (min (f a) (f b)) := by
  split
  case isTrue hlt => rw [min_eq_left hlt.le, h]
  case isFalse hge => rw [min_eq_right (not_lt.1 hge), h]

theorem ite_lt_eq_max : (if f a < f b then b else a) = g (max (f a) (f b)) := by
  split
  case isTrue hlt => rw [max_eq_right hlt.le, h]
  case isFalse hge => rw [max_eq_left (not_lt.1 hge), h]

end Extremes

theorem slt_iff (a b : DWord) : a.slt b = true ↔ a.toInt < b.toInt := decide_eq_true_iff

theorem ofNat_toNat_self (a : DWord) : BitVec.ofNat 64 a.toNat = a := by rw [BitVec.ofNat_toNat, BitVec.setWidth_eq]

theorem boolWord_decide (p : Prop) [Decidable p] : boolWord (decide p) = if p then 1 else 0 := by
  by_cases h : p <;> simp [boolWord, h]

theorem integerResults : Parts.IntegerResults := by
  intro s rd rs1 rs2 rs3 a b c
  exact ⟨writeScalar_congr (add_eq_ofNat a b), writeScalar_congr (sub_eq_ofInt a b), writeScalar_congr (mul_eq_ofNat a b), rfl, rfl, rfl, rfl,
    writeScalar_congr (shl_eq_ofNat a _), writeScalar_congr (shr_eq_ofNat a _), writeScalar_congr (sra_eq_ofInt a _),
    writeScalar_congr ((if_congr (slt_iff a b) rfl rfl).trans (ite_lt_eq_min (f := BitVec.toInt) (fun _ => BitVec.ofInt_toInt) a b)),
    writeScalar_congr ((if_congr (slt_iff a b) rfl rfl).trans (ite_lt_eq_max (f := BitVec.toInt) (fun _ => BitVec.ofInt_toInt) a b)),
    writeScalar_congr (ite_lt_eq_min ofNat_toNat_self a b), writeScalar_congr (ite_lt_eq_max ofNat_toNat_self a b),
    writeScalar_congr (boolWord_decide (a.toInt < b.toInt)), writeScalar_congr (boolWord_decide (a.toNat < b.toNat)),
    writeScalar_congr (ite_not (c = 0) a b).symm⟩

/-! ### High products and quotients -/

/-- The upper half of a product of 128 bits. -/
theorem slice_high_ofInt (x : Int) : (slice (BitVec.ofInt 128 x) 64 64 : DWord) = BitVec.ofInt 64 (x / 2 ^ 64) := by
  refine BitVec.eq_of_toNat_eq ?_
  simp only [slice, BitVec.extractLsb'_toNat, BitVec.toNat_ofInt, Nat.shiftRight_eq_div_pow]
  omega

theorem slice_high_ofNat (x : Nat) : (slice (BitVec.ofNat 128 x) 64 64 : DWord) = BitVec.ofNat 64 (x / 2 ^ 64) := by
  refine BitVec.eq_of_toNat_eq ?_
  simp only [slice, BitVec.extractLsb'_toNat, BitVec.toNat_ofNat, Nat.shiftRight_eq_div_pow]
  omega

theorem mulh_eq_ofInt (a b : DWord) :
    (slice (a.signExtend 128 * b.signExtend 128) 64 64 : DWord) = BitVec.ofInt 64 (a.toInt * b.toInt / 2 ^ 64) := by
  rw [← slice_high_ofInt, BitVec.ofInt_mul]
  rfl

theorem mulhu_eq_ofNat (a b : DWord) :
    (slice (a.setWidth 128 * b.setWidth 128) 64 64 : DWord) = BitVec.ofNat 64 (a.toNat * b.toNat / 2 ^ 64) := by
  rw [← slice_high_ofNat, BitVec.ofNat_mul, BitVec.ofNat_toNat, BitVec.ofNat_toNat]

/-- The signed quotient by the cases of R111: that of −2⁶³ and −1 wraps to −2⁶³. -/
theorem sdiv64_eq (a b : DWord) :
    sdiv64 a b = if b = 0 then BitVec.ofInt 64 (-1) else if a.toInt = -2 ^ 63 ∧ b.toInt = -1 then BitVec.ofInt 64 (-2 ^ 63)
      else BitVec.ofInt 64 (a.toInt.tdiv b.toInt) := by
  rw [sdiv64]
  split_ifs with h0 hcorner
  · rfl
  · rw [hcorner.1, hcorner.2]
    rfl
  · rfl

theorem srem64_eq (a b : DWord) :
    srem64 a b = if b = 0 then a else if a.toInt = -2 ^ 63 ∧ b.toInt = -1 then 0
      else BitVec.ofInt 64 (a.toInt - b.toInt * a.toInt.tdiv b.toInt) := by
  rw [srem64, Int.tmod_def]
  split_ifs with h0 hcorner
  · rfl
  · rw [hcorner.1, hcorner.2]
    rfl
  · rfl

theorem udiv64_eq (a b : DWord) : udiv64 a b = if b = 0 then BitVec.ofNat 64 (2 ^ 64 - 1) else BitVec.ofNat 64 (a.toNat / b.toNat) :=
  if_congr .rfl rfl BitVec.udiv_def

theorem urem64_eq (a b : DWord) : urem64 a b = if b = 0 then a else BitVec.ofNat 64 (a.toNat % b.toNat) :=
  if_congr .rfl rfl BitVec.umod_def

theorem productsAndQuotients : Parts.ProductsAndQuotients := by
  intro s rd rs1 rs2 a b
  exact ⟨writeScalar_congr (mulh_eq_ofInt a b), writeScalar_congr (mulhu_eq_ofNat a b), writeScalar_congr (sdiv64_eq a b),
    writeScalar_congr (udiv64_eq a b), writeScalar_congr (srem64_eq a b), writeScalar_congr (urem64_eq a b)⟩

/-! ### Counts of bits -/

theorem clz64_of_leading {a : DWord} {n : Nat} (hn : n < 64) (hlt : a.toNat < 2 ^ (64 - n)) (hset : a.toNat.testBit (63 - n) = true) :
    clz64 a = BitVec.ofNat 64 n := by
  have hge : 2 ^ (63 - n) ≤ a.toNat := Nat.ge_two_pow_of_testBit hset
  obtain ⟨m, hm⟩ := Nat.exists_eq_add_of_le hge
  have hlen : bitLen a.toNat = 63 - n + 1 := by
    rw [show 64 - n = 63 - n + 1 by omega, pow_succ] at hlt
    rw [hm, bitLen_of_leading (by omega)]
  rw [clz64, hlen, show 64 - (63 - n + 1) = n by omega]

theorem ctz64_of_trailing {a : DWord} {n : Nat} (hn : n < 64) (hlow : a.toNat % 2 ^ n = 0) (hset : a.toNat.testBit n = true) :
    ctz64 a = BitVec.ofNat 64 n := congrArg (BitVec.ofNat 64) (maskFirst_of_lowest hn hset hlow)

theorem ctz64_zero : ctz64 0 = 64 := congrArg (BitVec.ofNat 64) maskFirst_zero

theorem clz64_zero : clz64 0 = 64 := rfl

theorem bitCounts : Parts.BitCounts := by
  intro s rd rs1 a
  exact ⟨fun n hn hlt hset => writeScalar_congr (clz64_of_leading hn hlt hset),
    fun n hn hlow hset => writeScalar_congr (ctz64_of_trailing hn hlow hset),
    fun h0 => ⟨writeScalar_congr ((congrArg clz64 h0).trans clz64_zero), writeScalar_congr ((congrArg ctz64 h0).trans ctz64_zero)⟩,
    writeScalar_congr (congrArg (BitVec.ofNat 64) (popCount_eq_length_filter 64 a.toNat))⟩

/-! ### Sign-extended immediates (R110) -/

/-- A sign-extended number times a constant. -/
theorem sext64_mul {n : Nat} (v : BitVec n) (c : Int) : sext64 v * BitVec.ofInt 64 c = BitVec.ofInt 64 (v.toInt * c) :=
  (BitVec.ofInt_mul v.toInt c).symm

theorem sext64_mul_two {n : Nat} (v : BitVec n) : sext64 v * 2 = BitVec.ofInt 64 (v.toInt * 2) := sext64_mul v 2

theorem add_sext64 (a : DWord) (imm : BitVec 12) : a + sext64 imm = BitVec.ofInt 64 (a.toInt + imm.toInt) := by
  rw [BitVec.ofInt_add, BitVec.ofInt_toInt]
  rfl

theorem slti_eq (a : DWord) (imm : BitVec 12) : boolWord (a.slt (sext64 imm)) = if a.toInt < imm.toInt then 1 else 0 := by
  rw [← boolWord_decide, BitVec.slt, sext64, BitVec.toInt_signExtend_of_le (by decide)]

theorem immediateResults : Parts.ImmediateResults := by
  intro s rd rs1 imm n a
  exact ⟨writeScalar_congr (add_sext64 a imm), rfl, rfl, rfl, writeScalar_congr (shl_eq_ofNat a n.toNat),
    writeScalar_congr (shr_eq_ofNat a n.toNat), writeScalar_congr (sra_eq_ofInt a n.toNat), writeScalar_congr (slti_eq a imm)⟩

/-- Settles O6: each instruction writes a value, which its lemma above gives as the spec's number. -/
theorem integerArithmetic : Obligations.IntegerArithmetic := ⟨integerResults, productsAndQuotients, bitCounts, immediateResults⟩

/-! ### Constants (R112) -/

/-- Settles O7: both are sums and products of sign-extended numbers. -/
theorem constantResults : Obligations.ConstantResults := by
  intro s rd imm
  refine ⟨writeScalar_congr (sext64_mul imm 4096), writeScalar_congr ?_⟩
  rw [BitVec.ofInt_add, BitVec.ofInt_toInt, ← sext64_mul_two]

end Sys2Proof.Machine

/-! ## Branches and jumps (R113, R114) -/

namespace Sys2Proof.Machine

/-! ### Conditional branches (R113) -/

/-- A branch goes to its target where its condition holds, and else past its 4 bytes. -/
theorem branch_eq {cond : DWord → DWord → Bool} {rs1 rs2 : BitVec 5} {off : BitVec 12} {s : State} {p : Prop} [Decidable p]
    (h : cond (getS (here s) rs1) (getS (here s) rs2) = decide p) :
    branch rs1 rs2 off cond s =
      .next (updCore s s.cur fun k => retireTo k (if p then k.pc + BitVec.ofInt 64 (off.toInt * 2) else k.pc + 4)) := by
  by_cases hp : p
  · simp only [branch_taken (h.trans (decide_eq_true hp)), if_pos hp, sext64_mul_two]
  · simp only [branch_falls (h.trans (decide_eq_false hp)), if_neg hp]
    rfl

/-- A signed comparison that fails holds the other way round. -/
theorem not_slt (a b : DWord) : (!a.slt b) = decide (b.toInt ≤ a.toInt) := by
  rw [BitVec.slt, ← decide_not]
  exact decide_eq_decide.2 Int.not_lt

theorem not_ult (a b : DWord) : (!decide (a < b)) = decide (b.toNat ≤ a.toNat) := by
  rw [← decide_not]
  exact decide_eq_decide.2 Nat.not_lt

/-- Conditions 6 and 7 of major 3 are reserved. -/
theorem decodeMajor3_reserved {w : Nat} (h : 6 ≤ fld w 7 3) : decodeMajor3 w = .error .reservedCode := by
  have hlt := Layout.fld_lt w 7 3
  obtain h6 | h7 : fld w 7 3 = 6 ∨ fld w 7 3 = 7 := by omega
  · simp [decodeMajor3, h6]
  · simp [decodeMajor3, h7]

theorem decodeWord_reservedBranch {w : Nat} (hform : w % 128 = 13) (hcond : 6 ≤ w / 128 % 8) : decodeWord w = .error .reservedCode := by
  have hlow : fld w 0 2 = 1 := by simp only [fld]; omega
  have hmajor : fld w 2 5 = 3 := by simp only [fld]; omega
  rw [decodeWord, hlow, hmajor]
  exact decodeMajor3_reserved hcond

theorem decode_reservedBranch {w : Nat} (hw : w < 2 ^ 32) (hform : w % 128 = 13) (hcond : 6 ≤ w / 128 % 8) (p : Instr × List Byte) :
    decode (leBytes 4 w) ≠ .ok p := by
  have h := decode_four hw (by omega) []
  rw [List.append_nil, decodeWord_reservedBranch hform hcond] at h
  rw [h]
  exact nofun

theorem conditionalBranches : Parts.ConditionalBranches := by
  refine ⟨fun s rs1 rs2 off => ?_, fun w hw hform hcond => ⟨decode_reservedBranch hw hform hcond, fun s s' hd he hf => ?_⟩⟩
  · exact ⟨branch_eq (cond := (· == ·)) rfl, branch_eq (cond := (· != ·)) decide_not.symm, branch_eq (cond := BitVec.slt) rfl,
      branch_eq (cond := fun a b => !a.slt b) (not_slt ..), branch_eq (cond := fun a b => decide (a < b)) rfl,
      branch_eq (cond := fun a b => !decide (a < b)) (not_ult ..)⟩
  · rw [controlSlot_fetches exec hd he]
    exact fetchAndRun_illegal (fetchInstr_illegal hf (decode_reservedBranch hw hform hcond))

/-! ### Jumps (R114) -/

theorem exec_jind (rd rs1 : BitVec 5) (imm : BitVec 12) (s : State) : exec (.jind rd rs1 imm) s = execJind rd rs1 imm s := rfl

theorem jumpsAndLinks : Parts.JumpsAndLinks := by
  intro s rd rs1 off imm tgt
  have htgt : getS (here s) rs1 + sext64 imm = tgt := add_sext64 _ imm
  refine ⟨?_, fun heven => ?_, fun hodd => ?_⟩
  · rw [← sext64_mul_two]
    rfl
  · rw [exec_jind, execJind, htgt]
    exact if_neg (by rw [bitAt_zero_iff]; omega)
  · rw [exec_jind, execJind, htgt]
    exact if_pos ((bitAt_zero_iff tgt).2 hodd)

/-- Settles O8: a branch by its condition, the reserved conditions by the decoder, and `jind` by bit 0 of its target. -/
theorem branchesAndJumps : Obligations.BranchesAndJumps := ⟨conditionalBranches, jumpsAndLinks⟩

end Sys2Proof.Machine

/-! ## Scalar conversions, results and comparisons (R116 to R118) -/

namespace Sys2Proof.Machine

/-! ### Registers as values -/

/-- A register's low bits, with the width that the spec counts, have its value. -/
theorem decode_low_eq_fpOf (f : FpFmt) (v : DWord) : (binOf f).decode (v.toNat % 2 ^ ((binOf f).eb + (binOf f).mb + 1)) = fpOf f v := by
  rw [fpOf_eq_decode, Nat.add_comm (binOf f).eb]

/-! ### Conversions (R117) -/

theorem exec_fcvt (f : FpFmt) (kind : FcvtKind) (rd rs1 : BitVec 5) (s : State) :
    exec (.fcvt f kind rd rs1) s = .next (writeScalar s rd (fcvtOf f kind (rndOf (here s)) (getS (here s) rs1))) := rfl

theorem fcvtOf_toi (f : FpFmt) (r : Rnd) (v : DWord) :
    fcvtOf f .toi r v = BitVec.ofInt 64 ((fpOf f v).toRange r (-2 ^ 63) (2 ^ 63 - 1)) := by simp [fcvtOf]

theorem fcvtOf_tou (f : FpFmt) (r : Rnd) (v : DWord) :
    fcvtOf f .tou r v = BitVec.ofInt 64 ((fpOf f v).toRange r 0 (2 ^ 64 - 1)) := by simp [fcvtOf]

/-- The saturation of an integer to a range. -/
theorem clampInt_eq {lo hi : Int} (h : lo ≤ hi) (i : Int) : clampInt lo hi i = max lo (min hi i) := by
  unfold clampInt
  split_ifs <;> omega

/-- A finite value is rounded to an integer, which saturates. -/
theorem toRange_fin (r : Rnd) {lo hi : Int} (h : lo ≤ hi) (n : Bool) (m : Nat) (e : Int) :
    (Val.fin n m e).toRange r lo hi = max lo (min hi (if n then -(roundAt r n m e 0 false : Int) else roundAt r n m e 0 false)) :=
  clampInt_eq h _

/-- Settles O11: to an integer by the class of the value, and from a number by one rounding. -/
theorem conversionResults : Obligations.ConversionResults := by
  intro s f rd rs1 r x v put
  have hv (g : FpFmt) : v g = fpOf g x := decode_low_eq_fpOf g x
  simp only [hv, exec_fcvt, fcvtOf_toi, fcvtOf_tou]
  refine ⟨fun n m e h => ⟨?_, ?_⟩, fun h => ⟨?_, ?_⟩, fun h => ⟨?_, ?_⟩, fun h => ⟨?_, ?_⟩, rfl, rfl, rfl⟩
  · rw [h, toRange_fin _ (by decide)]
    rfl
  · rw [h, toRange_fin _ (by decide)]
    rfl
  all_goals
    rw [h]
    rfl

/-! ### Results and comparisons (R116, R118) -/

theorem floatResults : Parts.FloatResults := by
  intro s f rd rs1 rs2 rs3 r v put
  have hv (q : BitVec 5) : v q = fpOf f (getS (here s) q) := decode_low_eq_fpOf f _
  clear_value v
  simp only [hv, exec_fadd, exec_fsub, exec_fmul, exec_fdiv, exec_fsqrt, exec_fma, exec_fmin, exec_fmax, fp2_eq]
  exact ⟨rfl, rfl, rfl, rfl, rfl, rfl, rfl, rfl⟩

/-- `fcmp` writes whether its condition holds. -/
theorem exec_fcmp {f : FpFmt} {c : FcmpCond} {rd rs1 rs2 : BitVec 5} {s : State} {p : Prop} [Decidable p]
    (h : fcmpHolds c (fpOf f (getS (here s) rs1)) (fpOf f (getS (here s) rs2)) = decide p) :
    exec (.fcmp f c rd rs1 rs2) s = .next (writeScalar s rd (if p then 1 else 0)) :=
  writeScalar_congr ((congrArg boolWord h).trans (boolWord_decide p))

@[simp] theorem Val.nan_lt (a : Val) : Val.lt .nan a = false := rfl
@[simp] theorem Val.lt_nan (a : Val) : a.lt .nan = false := by cases a <;> rfl
@[simp] theorem Val.nan_eq (a : Val) : Val.eq .nan a = false := rfl
@[simp] theorem Val.eq_nan (a : Val) : a.eq .nan = false := by cases a <;> rfl

/-- With a NaN, `.un` alone holds. -/
theorem fcmpHolds_of_nan {a b : Val} (h : a = .nan ∨ b = .nan) (c : FcmpCond) : fcmpHolds c a b = decide (c = .un) := by
  rcases h with rfl | rfl <;> cases c <;> simp [fcmpHolds]

/-- A finite value over a lower power of two. -/
theorem scaledTo_eq (q : Int) (n : Bool) (m : Nat) (e : Int) : scaledTo q n m e = (if n then -1 else 1) * m * 2 ^ (e - q).toNat := by
  cases n <;> simp [scaledTo, Nat.shiftLeft_eq]

/-- Finite values compare as the integers that they are over the lower of their powers of two. -/
theorem fcmpHolds_fin {n p : Bool} {m k : Nat} {e g a b : Int} (ha : scaledTo (min e g) n m e = a) (hb : scaledTo (min e g) p k g = b)
    (c : FcmpCond) : fcmpHolds c (.fin n m e) (.fin p k g) =
      match c with | .eq => decide (a = b) | .lt => decide (a < b) | .le => decide (a ≤ b) | .un => false := by
  subst ha hb
  cases c with
  | le => simp [fcmpHolds, Val.lt, Val.eq, le_iff_lt_or_eq]
  | _ => rfl

theorem compareResults : Parts.CompareResults := by
  intro s f rd rs1 rs2 v answers
  have hv (q : BitVec 5) : v q = fpOf f (getS (here s) q) := decode_low_eq_fpOf f _
  simp only [hv]
  refine ⟨fun h => ?_, fun n m e p k g h1 h2 => ?_⟩
  · have hun (c : FcmpCond) := fcmpHolds_of_nan h c
    exact ⟨exec_fcmp (hun .un), exec_fcmp (hun .eq), exec_fcmp (hun .lt), exec_fcmp (hun .le)⟩
  · have hfin := fcmpHolds_fin (scaledTo_eq (min e g) n m e) (scaledTo_eq (min e g) p k g)
    rw [← h1, ← h2] at hfin
    exact ⟨exec_fcmp (hfin .un), exec_fcmp (hfin .eq), exec_fcmp (hfin .lt), exec_fcmp (hfin .le)⟩

/-- Settles O12: the operations by what each writes, and the comparisons by the classes of their operands. -/
theorem floatsAndCompares : Obligations.FloatsAndCompares := ⟨floatResults, compareResults⟩

end Sys2Proof.Machine

/-! ## What a report leaves of the cores (R345, R380)

A record that is appended to the error ring is written by an engine of the hub, which recalls owners and grants locks; that touches the copies,
the tables and the streams of cores alone. One lemma for each operation, from the homes up to `report`. -/

namespace Sys2Proof

theorem Tab.find_mapVals {α : Type} (t : Tab α) (f : Nat → α → α) (k : Nat) : (t.mapVals f).find k = (t.find k).map (f k) := by
  induction t with
  | nil => rfl
  | cons e r ih =>
    obtain ⟨j, a⟩ := e
    by_cases hj : j = k
    · subst hj
      simp [Tab.mapVals, Tab.find]
    · simpa [Tab.mapVals, Tab.find, hj] using ih

end Sys2Proof

namespace Sys2Proof.Machine

/-- A fold of operations that each keep the cores keeps them. -/
theorem foldl_cores {β : Type} {f : State → β → State} (h : ∀ s b, (f s b).cores = s.cores) (l : List β) (s : State) :
    (l.foldl f s).cores = s.cores := by
  induction l generalizing s with
  | nil => rfl
  | cons b l ih => exact (ih (f s b)).trans (h s b)

@[simp] theorem queueErr_cores (s : State) (e : ErrRec) : (queueErr s e).cores = s.cores := rfl

@[simp] theorem putStoreLine_cores (s : State) (line : Nat) (d : BitVec 1024) (mask : BitVec 128) (p : BitVec 32) :
    (putStoreLine s line d mask p).cores = s.cores := rfl

@[simp] theorem evictErrors_cores (s : State) (coord line : Nat) (bad : BitVec 4) (dirty : BitVec 128) (writer : Word) :
    (evictErrors s coord line bad dirty writer).cores = s.cores := by
  unfold evictErrors
  split
  · rfl
  · refine foldl_cores (fun s i => ?_) _ s
    split <;> rfl

@[simp] theorem notePort_cores (s : State) (line : Nat) : (notePort s line).cores = s.cores := by
  unfold notePort
  split
  · rfl
  · split <;> rfl

@[simp] theorem roomForRecord_cores (s : State) (bits line : Nat) : (roomForRecord s bits line).cores = s.cores := by
  unfold roomForRecord
  split
  · rfl
  · dsimp only
    split
    · rfl
    · split <;> rfl

@[simp] theorem countPage_cores (s : State) (who : Who) (ac line : Nat) : (countPage s who ac line).cores = s.cores := by
  unfold countPage
  split
  · rfl
  · dsimp only
    cases (roomForRecord s ac line).hub.pages.find (pageKey ac line) <;> dsimp only <;> split <;> exact roomForRecord_cores s ac line

@[simp] theorem applyBack_cores (s : State) (line : Nat) (p : Payload) : (applyBack s line p).cores = s.cores := by
  unfold applyBack
  dsimp only
  split <;> (simp; split <;> simp)

@[simp] theorem dropL2_cores (s : State) (line : Nat) : (dropL2 s line).cores = s.cores := by
  unfold dropL2
  split
  · split <;> rfl
  · rfl

@[simp] theorem writeBackL2_cores (s : State) (line : Nat) : (writeBackL2 s line).cores = s.cores := by
  unfold writeBackL2
  split
  · split
    · rfl
    · exact applyBack_cores _ _ _
  · rfl

@[simp] theorem evictL2_cores (s : State) (line : Nat) : (evictL2 s line).cores = s.cores := by simp [evictL2]

@[simp] theorem hubFlit_cores (s : State) : (hubFlit s).1.cores = s.cores := by
  unfold hubFlit
  split <;> rfl

@[simp] theorem replySpill_cores (s : State) (m : Spill) : (replySpill s m).cores = s.cores := by
  unfold replySpill
  dsimp only
  split <;> exact hubFlit_cores s

@[simp] theorem issueSpill_cores (s : State) (m : Spill) : (issueSpill s m).cores = s.cores := by
  unfold issueSpill
  dsimp only
  split
  · exact hubFlit_cores s
  · split
    · simp
    · split <;> simp

@[simp] theorem sendL2_cores (s : State) (line : Nat) (drop : Bool) : (sendL2 s line drop).cores = s.cores := by
  unfold sendL2
  split
  · split
    · split <;> simp
    · split <;> simp
  · rfl

@[simp] theorem spillL2_cores (s : State) (line : Nat) : (spillL2 s line).cores = s.cores := sendL2_cores s line true

@[simp] theorem renewL2_cores (s : State) (line : Nat) : (renewL2 s line).cores = s.cores := by
  unfold renewL2
  split <;> rfl

@[simp] theorem expireL2_cores (s : State) (line : Nat) : (expireL2 s line).cores = s.cores := by
  unfold expireL2
  split
  · split <;> simp
  · rfl

@[simp] theorem roomL2_cores (s : State) (line : Nat) : (roomL2 s line).cores = s.cores := by
  unfold roomL2
  split
  · rfl
  · split <;> simp

@[simp] theorem takeL2_cores (s : State) (line : Nat) : (takeL2 s line).cores = s.cores := by
  unfold takeL2
  split <;> simp

@[simp] theorem meetErrors_cores (s : State) (who : Who) (line : Nat) : (meetErrors s who line).cores = s.cores := by
  unfold meetErrors
  dsimp only
  split
  · rfl
  · refine foldl_cores (fun s b => ?_) _ _
    split
    · rfl
    · exact queueErr_cores s _

@[simp] theorem writeL2_cores (s : State) (who : Who) (line : Nat) (d : BitVec 1024) (mask : BitVec 128) (p : BitVec 32)
    (region : Byte) (writer : Word) : (writeL2 s who line d mask p region writer).cores = s.cores := by
  unfold writeL2
  dsimp only
  split <;> simp

@[simp] theorem fillL2_cores (s : State) (who : Who) (line : Nat) (region : Byte) : (fillL2 s who line region).cores = s.cores := by
  unfold fillL2
  split
  · rfl
  · dsimp only
    split <;> simp

@[simp] theorem pinLine_cores (s : State) (who : Who) (line : Nat) (region : Byte) : (pinLine s who line region).cores = s.cores := by
  unfold pinLine
  dsimp only
  split
  · split <;> rfl
  · split <;> split <;> simp

@[simp] theorem syncHost_cores (s : State) (line : Nat) (drop : Bool) : (syncHost s line drop).cores = s.cores := by
  unfold syncHost
  split
  · dsimp only
    split <;> simp
  · rfl

@[simp] theorem foldOne_cores (s : State) (line : Nat) (e : Nat × CoreId × Partial) : (foldOne s line e).cores = s.cores := by
  unfold foldOne
  split
  · exact writeL2_cores _ _ _ _ _ _ _ _
  · rfl

@[simp] theorem foldWords_cores (s : State) (line : Nat) (words : Word) : (foldWords s line words).cores = s.cores := by
  unfold foldWords
  dsimp only
  split
  · rfl
  · exact (foldl_cores (fun s e => foldOne_cores s line e) _ _).trans (by simp)

@[simp] theorem roomForPartial_cores (s : State) (line : Nat) : (roomForPartial s line).cores = s.cores := by
  unfold roomForPartial
  split
  · rfl
  · dsimp only
    split
    · rfl
    · split
      · exact foldWords_cores _ _ _
      · rfl

@[simp] theorem noteLate_cores (s : State) (line : Nat) : (noteLate s line).cores = s.cores := by
  unfold noteLate
  split
  · split <;> rfl
  · rfl

@[simp] theorem homePartial_cores (s : State) (c : CoreId) (w : Nat) (p : Partial) : (homePartial s c w p).cores = s.cores := by
  simp [homePartial]

@[simp] theorem useFree_cores (s : State) (line : Nat) : (useFree s line).cores = s.cores := by
  unfold useFree
  split <;> rfl

@[simp] theorem serveWords_cores (s : State) (who : Who) (ac line : Nat) (region : Byte) (words : Word) :
    (serveWords s who ac line region words).1.cores = s.cores := by
  unfold serveWords
  dsimp only
  split <;> simp

/-! ### What a recall, a grant and a push change of a core -/

/-- A core without its copies, its tables and its streams, which the traffic of memory may change. -/
def Core.steady (k : Core) : Core :=
  { k with l1 := [], homes := [], partials := [], tables := Core.reset.tables, streams := Core.reset.streams }

/-- The steady part of a core of a table. -/
def steadyIn (t : Tab Core) (c : CoreId) : Core := ((t.find c.toNat).getD Core.reset).steady

theorem steadyIn_updCore (s : State) {c : CoreId} {f : Core → Core} (h : (f (getCore s c)).steady = (getCore s c).steady) (d : CoreId) :
    steadyIn (updCore s c f).cores d = steadyIn s.cores d := by
  by_cases hd : d = c
  · subst hd
    exact (congrArg Core.steady (getCore_updCore_self s d f)).trans h
  · exact congrArg Core.steady (getCore_updCore_other s c d f hd)

theorem steadyIn_mapVals (t : Tab Core) {f : Nat → Core → Core} (h : ∀ n k, (f n k).steady = k.steady) (d : CoreId) :
    steadyIn (t.mapVals f) d = steadyIn t d := by
  rw [steadyIn, steadyIn, Tab.find_mapVals]
  cases t.find d.toNat with
  | none => rfl
  | some k => exact h d.toNat k

theorem foldl_steadyIn {β : Type} {f : State → β → State} {d : CoreId} (h : ∀ s b, steadyIn (f s b).cores d = steadyIn s.cores d)
    (l : List β) (s : State) : steadyIn (l.foldl f s).cores d = steadyIn s.cores d := by
  induction l generalizing s with
  | nil => rfl
  | cons b l ih => exact (ih (f s b)).trans (h s b)

@[simp] theorem markWatched_steady (s : State) (c : CoreId) (g : Byte) (d : CoreId) :
    steadyIn (markWatched s c g).cores d = steadyIn s.cores d := by
  unfold markWatched
  split
  · split
    · exact steadyIn_updCore s rfl d
    · rfl
  · rfl

theorem grantLock_steady (k : Core) (w : Nat) : (grantLock k w).steady = k.steady := by
  simp only [grantLock]
  split_ifs <;> rfl

@[simp] theorem grantAt_steady (s : State) (w : Nat) (d : CoreId) : steadyIn (grantAt s w).cores d = steadyIn s.cores d := by
  unfold grantAt
  split
  · dsimp only
    rw [steadyIn_updCore _ (grantLock_steady _ _), markWatched_steady]
    split <;> simp
  · rfl

@[simp] theorem grantZeros_steady (s : State) (line : Nat) (mask : BitVec 128) (d : CoreId) :
    steadyIn (grantZeros s line mask).cores d = steadyIn s.cores d := by
  refine foldl_steadyIn (fun s e => ?_) _ s
  dsimp only
  split
  · rfl
  · split
    · exact grantAt_steady s e.1 d
    · rfl

@[simp] theorem applyPush_steady (s : State) (who met : Who) (ac line : Nat) (b : BitVec 1024) (mask : BitVec 128) (p : BitVec 32)
    (region : Byte) (writer : Word) (d : CoreId) : steadyIn (applyPush s who met ac line b mask p region writer).cores d = steadyIn s.cores d := by
  unfold applyPush
  split <;> simp

@[simp] theorem passHome_steady (s : State) (c : CoreId) (line : Nat) (b : BitVec 1024) (mask : BitVec 128) (p : BitVec 32) (d : CoreId) :
    steadyIn (passHome s c line b mask p).cores d = steadyIn s.cores d := by
  unfold passHome
  dsimp only
  split
  · exact steadyIn_updCore s rfl d
  · rfl

@[simp] theorem applyL1_steady (s : State) (cause c : CoreId) (line : Nat) (p : Payload) (d : CoreId) :
    steadyIn (applyL1 s cause c line p).cores d = steadyIn s.cores d := by
  unfold applyL1
  dsimp only
  split
  · simp
  · split <;> simp

theorem cleanL1_steady (k : Core) (line : Nat) (p : Payload) : (cleanL1 k line p).steady = k.steady := by
  unfold cleanL1
  split <;> rfl

@[simp] theorem dropL1_steady (s : State) (c : CoreId) (line : Nat) (d : CoreId) : steadyIn (dropL1 s c line).cores d = steadyIn s.cores d := by
  unfold dropL1
  split
  · split
    · rfl
    · exact steadyIn_updCore _ rfl d
  · rfl

@[simp] theorem endOwn_steady (s : State) (o : CoreId) (line : Nat) (d : CoreId) : steadyIn (endOwn s o line).cores d = steadyIn s.cores d := by
  refine (steadyIn_updCore _ ?_ d).trans rfl
  split <;> rfl

@[simp] theorem applyHome_steady (s : State) (cause hc : CoreId) (line : Nat) (drop : Bool) (p : Payload) (d : CoreId) :
    steadyIn (applyHome s cause hc line drop p).cores d = steadyIn s.cores d := by
  refine (steadyIn_updCore _ ?_ d).trans (by simp)
  split <;> rfl

@[simp] theorem fillHome_steady (s : State) (hc : CoreId) (line : Nat) (region : Byte) (ac : Nat) (d : CoreId) :
    steadyIn (fillHome s hc line region ac).cores d = steadyIn s.cores d := by
  unfold fillHome
  split
  · rfl
  · exact (steadyIn_updCore _ rfl d).trans (congrArg (steadyIn · d) (serveWords_cores _ _ _ _ _ _))

@[simp] theorem applyCluster_steady (s : State) (c : CoreId) (line : Nat) (p : Payload) (d : CoreId) :
    steadyIn (applyCluster s c line p).cores d = steadyIn s.cores d := by
  refine (steadyIn_updCore _ ?_ d).trans (by simp)
  split <;> rfl

theorem broadcastVersion_steady (s : State) (g : Nat) (d : CoreId) : steadyIn (broadcastVersion s g).cores d = steadyIn s.cores d := by
  unfold broadcastVersion
  dsimp only
  refine steadyIn_mapVals s.cores (fun n k => ?_) d
  split <;> rfl

@[simp] theorem bumpRegion_steady (s : State) (g : Nat) (d : CoreId) : steadyIn (bumpRegion s g).cores d = steadyIn s.cores d := by
  unfold bumpRegion
  split
  · exact broadcastVersion_steady _ g d
  · rfl

@[simp] theorem takePart_steady (s : State) (c : CoreId) (p : Push) (d : CoreId) : steadyIn (takePart s c p).cores d = steadyIn s.cores d := by
  cases p with
  | fold w => exact steadyIn_updCore s rfl d
  | _ => rfl

@[simp] theorem PushMsg.perform_steady (s : State) (m : PushMsg) (d : CoreId) : steadyIn (PushMsg.perform s m).cores d = steadyIn s.cores d := by
  have hclean (s : State) (l : Nat) : steadyIn (updCore s m.core fun k => cleanL1 k l m.load).cores d = steadyIn s.cores d :=
    steadyIn_updCore s (cleanL1_steady _ _ _) d
  unfold PushMsg.perform
  match m.push with
  | .fold w =>
    dsimp only
    split
    · rw [homePartial_cores]
    · rfl
  | .line l => simp [hclean]
  | .cluster l => simp [hclean]
  | .evict l => simp [hclean]
  | .recall l => simp [hclean]
  | .home l drop => simp
  | .foreign l drop =>
    dsimp only
    split <;> simp
  | .bump g => simp

@[simp] theorem recordPush_cores (s : State) (m : PushMsg) : (recordPush s m).cores = s.cores := by
  unfold recordPush
  split <;> rfl

@[simp] theorem settleLine_steady (s : State) (c : CoreId) (line : Nat) (d : CoreId) : steadyIn (settleLine s c line).cores d = steadyIn s.cores d :=
  foldl_steadyIn (fun s m => by simp) _ s

@[simp] theorem performNow_steady (s : State) (cause c : CoreId) (p : Push) (d : CoreId) :
    steadyIn (performNow s cause c p).cores d = steadyIn s.cores d := by
  simp [performNow]

@[simp] theorem homePush_steady (s : State) (who : Who) (ac line : Nat) (b : BitVec 1024) (mask : BitVec 128) (p : BitVec 32)
    (region : Byte) (writer : Word) (met : Who) (d : CoreId) :
    steadyIn (homePush s who ac line b mask p region writer met).cores d = steadyIn s.cores d := by
  unfold homePush
  split
  · rfl
  · refine (applyPush_steady _ _ _ _ _ _ _ _ _ _ d).trans ?_
    split
    · exact performNow_steady _ _ _ _ d
    · rfl

@[simp] theorem engineWrite_steady (fuel : Nat) (s : State) (pa n v marks : Nat) (d : CoreId) :
    steadyIn (engineWrite fuel s pa n v marks).cores d = steadyIn s.cores d := by
  induction fuel generalizing s pa n v marks with
  | zero => rfl
  | succ fuel ih =>
    unfold engineWrite
    split
    · rfl
    · refine (ih _ _ _ _ _).trans ?_
      split
      · rfl
      · split <;> simp

@[simp] theorem flushForeign_cores (s : State) (r : Regions) (drop : Bool) : (flushForeign s r drop).cores = s.cores :=
  foldl_cores (fun s line => by split <;> simp) _ s

@[simp] theorem ringAppend_steady (s : State) (r : Ring) (vector bytes rec : Nat) (d : CoreId) :
    steadyIn (ringAppend s r vector bytes rec).1.cores d = steadyIn s.cores d := by
  unfold ringAppend
  dsimp only
  split
  · rfl
  · exact (congrArg (steadyIn · d) (flushForeign_cores _ _ _)).trans (engineWrite_steady _ _ _ _ _ _ d)

/-- A report leaves every core as it is, but for its copies, its tables and its streams. -/
theorem report_steady (s : State) (e : ErrRec) (c : CoreId) : (getCore (report s e) c).steady = (getCore s c).steady :=
  ringAppend_steady s _ _ _ _ c

/-- A core that halts is halted. -/
theorem haltCore_halted (s : State) (c : CoreId) (pc : DWord) (x : Cause) : (getCore (haltCore s c pc x) c).halted = true := by
  have h := congrArg Core.halted
    (report_steady (updCore s c fun k => { k with halted := true }) (plainErr 11 true (coordBits c) pc.toNat x.code) c)
  rw [getCore_updCore_self] at h
  exact h

end Sys2Proof.Machine

/-! ## Soft traps, returns and the end of a task (R120 to R122, R345 to R347) -/

namespace Sys2Proof.Machine

/-! ### A trap above task level (R345, R346) -/

/-- At machine level a trap halts the core. -/
theorem stopAt_machine {s : State} (h : (here s).level = .machine) (x : Cause) (v epc : DWord) :
    stopAt s s s.cur (controlTrap (trapInfo x v) epc) = haltCore s s.cur (here s).pc x := by
  rw [stopAt_above (by rw [h]; decide), takeTrap_machine h]
  rfl

theorem trapNow_machine {s : State} (h : (here s).level = .machine) (x : Cause) (v : DWord) :
    trapNow s x v = .next (haltCore s s.cur (here s).pc x) :=
  congrArg Host.Outcome.next (stopAt_machine h x v _)

/-- A core that enters machine level from a level `plev` (R346). -/
def enterMachine (t : TrapAt) (plev : Nat) (handler : Bool) (k : Core) : Core :=
  { dropReads k 0 with
    level := .machine, pc := k.cregs.mtvec
    cregs := { k.cregs with mepc := t.epc, mcause := BitVec.ofNat 14 ((ecauseOf t handler).toNat + 4096 * plev), minfo := t.info.einfo } }

@[simp] theorem enterMachine_tregs (t : TrapAt) (plev : Nat) (h : Bool) (k : Core) : (enterMachine t plev h k).tregs = k.tregs := rfl
@[simp] theorem enterMachine_files (t : TrapAt) (plev : Nat) (h : Bool) (k : Core) : (enterMachine t plev h k).files = k.files := rfl
@[simp] theorem enterMachine_halted (t : TrapAt) (plev : Nat) (h : Bool) (k : Core) : (enterMachine t plev h k).halted = k.halted := rfl
@[simp] theorem enterMachine_task (t : TrapAt) (plev : Nat) (h : Bool) (k : Core) : (enterMachine t plev h k).task = k.task := rfl
@[simp] theorem enterMachine_l1 (t : TrapAt) (plev : Nat) (h : Bool) (k : Core) : (enterMachine t plev h k).l1 = k.l1 := rfl
@[simp] theorem enterMachine_homes (t : TrapAt) (plev : Nat) (h : Bool) (k : Core) : (enterMachine t plev h k).homes = k.homes := rfl
@[simp] theorem enterMachine_partials (t : TrapAt) (plev : Nat) (h : Bool) (k : Core) : (enterMachine t plev h k).partials = k.partials := rfl

theorem machineEntry_ok {s : State} {c : CoreId} (h : (getCore s c).cregs.mtvec ≠ 0) (t : TrapAt) (plev : Nat) (handler : Bool) :
    machineEntry s c t plev handler = updCore s c (enterMachine t plev handler) := if_neg h

/-! ### `sysc` and `trap` (R120) -/

theorem exec_sysc (code : BitVec 10) (s : State) : exec (.sysc code) s = softTrap (.sysc code) .syscall code s := rfl

theorem exec_trap (code : BitVec 10) (s : State) : exec (.trap code) s = softTrap (.trap code) .brk code s := rfl

/-- Below machine level the instruction completes and its trap is taken. -/
theorem softTrap_below {s : State} (h : (here s).level ≠ .machine) (i : Instr) (x : Cause) (code : BitVec 10) :
    softTrap i x code s = .next (stopAt s (updCore s s.cur fun k => retire k 4) s.cur
      (controlTrap (trapInfo x (BitVec.ofNat 64 code.toNat)) ((here s).pc + 4))) := by
  rw [softTrap, BitVec.ofNat_toNat]
  exact if_neg h

theorem softTrap_machine {s : State} (h : (here s).level = .machine) (i : Instr) (x : Cause) (code : BitVec 10) :
    softTrap i x code s = .next (haltCore s s.cur (here s).pc .illegalOp) :=
  (if_pos h).trans (trapNow_machine h _ _)

theorem softTraps : Parts.SoftTraps := by
  intro s code past taken
  exact ⟨fun h => ⟨softTrap_below h _ _ code, softTrap_below h _ _ code⟩, fun h => ⟨softTrap_machine h _ _ code, softTrap_machine h _ _ code⟩⟩

/-- The trap of a soft trap at steward level, from the core that has committed it. -/
theorem softTrap_steward {s : State} (h : (here s).level = .steward) (i : Instr) (x : Cause) (code : BitVec 10) :
    softTrap i x code s = .next (takeTrap (updCore s s.cur fun k => retire k 4) s.cur
      (controlTrap (trapInfo x (BitVec.ofNat 64 code.toNat)) ((here s).pc + 4))) := by
  rw [softTrap_below (by rw [h]; decide), stopAt_above]
  rw [getCore_updCore_self, retire_level, h]
  decide

/-- What a core is that a soft trap of its steward sends to machine level: its instruction has committed, and its entries are set aside. -/
def stewardTrapped (k : Core) (x : Cause) (code : BitVec 10) : Core :=
  enterMachine (controlTrap (trapInfo x (BitVec.ofNat 64 code.toNat)) (k.pc + 4)) 1 (inHandler k) (parkSteward (retire k 4))

theorem softTrap_entersMachine {s : State} (h : (here s).level = .steward) (hm : (here s).cregs.mtvec ≠ 0) (i : Instr) (x : Cause)
    (code : BitVec 10) : softTrap i x code s = .next (updCore s s.cur fun k => stewardTrapped k x code) := by
  have hlevel : (getCore (updCore s s.cur fun k => retire k 4) s.cur).level = .steward := by simpa using h
  rw [softTrap_steward h, takeTrap_steward hlevel (by simpa using hm), machineEntry_ok (by simpa using hm), updCore_updCore, updCore_updCore,
    getCore_updCore_self, inHandler, runningTag, retire_task]
  rfl

theorem softTrap_halts {s : State} (h : (here s).level = .steward) (hm : (here s).cregs.mtvec = 0) (i : Instr) (x : Cause) (code : BitVec 10) :
    softTrap i x code s = .next (haltCore (updCore s s.cur fun k => retire k 4) s.cur ((here s).pc + 4) x) := by
  rw [softTrap_steward h, takeTrap_steward_halt (by simpa using h) (by simpa using hm)]
  rfl

theorem stewardTrapEntersMachine : Parts.StewardTrapEntersMachine := by
  intro s code hlevel
  by_cases hm : (here s).cregs.mtvec = 0
  · exact ⟨_, softTrap_halts hlevel hm _ _ code, fun h => absurd hm h, fun _ => haltCore_halted _ _ _ _⟩
  · refine ⟨_, softTrap_entersMachine hlevel hm _ _ code, fun _ hh => ?_, fun h => absurd h hm⟩
    dsimp only
    rw [getCore_updCore_self, stewardTrapped, hh]
    have htregs : (retire (here s) 4).tregs = (here s).tregs := by
      rw [retire, retireTo_tregs, hlevel]
      rfl
    refine ⟨rfl, ?_, rfl, rfl, rfl, ?_, ?_, ?_, ?_, sameMemory_updCore ?_ ?_ ?_⟩
    · exact congrArg (fun g => g.mtvec) (retire_cregs (here s) 4)
    all_goals simp [stewardTrapped, htregs]

/-- Settles O15: a soft trap commits, and what it does then is what its level's trap does (`takeTrap_steward`). -/
theorem softTrapsAndEntry : Obligations.SoftTrapsAndEntry := ⟨softTraps, stewardTrapEntersMachine⟩

/-! ### `eret` (R121, R347) -/

theorem exec_eret_task {s : State} (h : (here s).level = .task) :
    exec .eret s = .next (stopAt s s s.cur (controlTrap (trapInfo .priv (encodingOf .eret)) (here s).pc)) := if_pos h

/-- Above task level `eret` returns, and what its level read is dropped. -/
theorem exec_eret_above {s : State} (h : (here s).level ≠ .task) :
    exec .eret s = finish s (fun k => dropReads k 0) (returnFromTrap s.cur s) := if_neg h

/-- A return to an odd address raises MISALIGN. -/
theorem returnFromTrap_odd {s : State} {c : CoreId} (h : (eretTarget (getCore s c) s.free).2.toNat % 2 = 1) :
    returnFromTrap c s = .error (.trap (trapInfo .misalign (eretTarget (getCore s c) s.free).2)) s := by
  rw [returnFromTrap, M.theCore_bind, M.get_bind]
  dsimp only
  rw [(bitAt_zero_iff _).2 h]
  rfl

/-- The return to a level at an address, which waits for nothing more. -/
def returnTo (c : CoreId) (pc : DWord) : Level → M Unit
  | .task => resumeTask c pc
  | .steward | .machine => modCore c fun k => resumeSteward k pc

/-- A return of a level without entries to an even address is not held up. -/
theorem returnFromTrap_even {s : State} {c : CoreId} {lv : Level} {pc : DWord} (hd : Drained (getCore s c))
    (ht : eretTarget (getCore s c) s.free = (lv, pc)) (h : pc.toNat % 2 = 0) : returnFromTrap c s = returnTo c pc lv s := by
  have hbit : bitAt pc 0 = false := Bool.eq_false_iff.2 (by rw [Ne, bitAt_zero_iff]; omega)
  rw [returnFromTrap, M.theCore_bind, M.get_bind, ht]
  dsimp only
  rw [hbit, hd.noVector, hd.noMatrix, hd.noRun, hd.noSync]
  cases lv <;> rfl

theorem eretTarget_steward {k : Core} (h : k.level = .steward) (free : Nat) : eretTarget k free = (.task, k.tregs.epc) := by
  rw [eretTarget, h]

/-- PLEV 1 names the steward (R102). -/
theorem eretTarget_machine {k : Core} (h : k.level = .machine) (hp : k.cregs.mcause.toNat / 4096 = 1) (free : Nat) :
    eretTarget k free = (.steward, k.cregs.mepc) := by
  have hplev : (slice k.cregs.mcause 12 2).toNat = 1 := by
    rw [slice, BitVec.extractLsb'_toNat, Nat.shiftRight_eq_div_pow, hp]
  rw [eretTarget, h]
  simp [hplev]

theorem eretTarget_machine_address {k : Core} (h : k.level = .machine) (free : Nat) : (eretTarget k free).2 = k.cregs.mepc := by
  rw [eretTarget, h]

/-- `eret` above task level to an odd address traps at its own address (R121). -/
theorem exec_eret_odd {s : State} (h : (here s).level ≠ .task) (hodd : (eretTarget (here s) s.free).2.toNat % 2 = 1) :
    exec .eret s =
      .next (takeTrap s s.cur (controlTrap (trapInfo .misalign (eretTarget (here s) s.free).2) (here s).pc)) := by
  rw [exec_eret_above h, returnFromTrap_odd hodd]
  exact congrArg Host.Outcome.next (stopAt_above h)

/-- `eret` of a machine level without entries gives a steward at MEPC its own entries back. -/
theorem exec_eret_toSteward {s : State} (hd : Drained (here s)) (h : (here s).level = .machine) (he : (here s).cregs.mepc.toNat % 2 = 0)
    (hp : (here s).cregs.mcause.toNat / 4096 = 1) :
    exec .eret s = .next (updCore s s.cur fun k => dropReads (resumeSteward k k.cregs.mepc) 0) := by
  rw [exec_eret_above (by rw [h]; decide), returnFromTrap_even hd (eretTarget_machine h hp _) he]
  exact congrArg Host.Outcome.next (updCore_updCore s s.cur _ _)

/-- `eret` of a steward without entries goes to task level. -/
theorem exec_eret_steward {s : State} (hd : Drained (here s)) (h : (here s).level = .steward) (he : (here s).tregs.epc.toNat % 2 = 0) :
    exec .eret s = finish s (fun k => dropReads k 0) (resumeTask s.cur (here s).tregs.epc s) := by
  rw [exec_eret_above (by rw [h]; decide), returnFromTrap_even hd (eretTarget_steward h _) he, returnTo]

/-- A core at task level at an address. -/
def atTask (pc : DWord) (k : Core) : Core := { k with level := .task, pc := pc }

theorem resumeTask_none {s : State} {c : CoreId} (h : (getCore s c).task = none) (pc : DWord) :
    resumeTask c pc s = .ok () (updCore s c (atTask pc)) := by
  rw [resumeTask, M.theCore_bind, h]
  rfl

/-- A restore that completes is not undone (R360). -/
theorem restoreWhole_ok {s s' : State} {c : CoreId} {pc : DWord} (h : restoreContext c pc s = .ok () s') : restoreWhole c pc s = .ok () s' := by
  rw [restoreWhole, M.theCore_bind]
  show EStateM.tryCatch _ _ s = _
  rw [EStateM.tryCatch, h]

theorem resumeTask_restored {s s' : State} {c : CoreId} {pc : DWord} (ht : (getCore s c).task.isSome = true)
    (ha : (getCore s c).handlerAborted = false) (h : restoreContext c pc s = .ok () s') :
    resumeTask c pc s = .ok () (updCore s' c (atTask pc)) := by
  obtain ⟨t, ht⟩ := Option.isSome_iff_exists.1 ht
  rw [resumeTask, M.theCore_bind, ht]
  dsimp only
  rw [ha, if_neg Bool.false_ne_true, M.bind_ok (restoreWhole_ok h)]
  rfl

/-- The end of an instruction drops what it read, and leaves every core where it is. -/
theorem getCore_dropReads (s : State) (c d : CoreId) :
    (getCore (updCore s d fun k => dropReads k 0) c).level = (getCore s c).level ∧
      (getCore (updCore s d fun k => dropReads k 0) c).pc = (getCore s c).pc := by
  by_cases h : c = d
  · subst h
    simp
  · rw [getCore_updCore_other s d c _ h]
    exact ⟨rfl, rfl⟩

theorem eretReturns : Parts.EretReturns := by
  intro s hd
  refine ⟨exec_eret_task, fun h hodd => ?_, fun h hodd => ?_, fun h he hp => ?_, fun h he ht => ?_, fun h he ht ha s' hr => ?_⟩
  · have htarget := eretTarget_steward h s.free
    rw [exec_eret_odd (by rw [h]; decide) (by rwa [htarget]), htarget]
  · have haddress := eretTarget_machine_address h s.free
    rw [exec_eret_odd (by rw [h]; decide) (by rwa [haddress]), takeTrap_machine h]
    rfl
  · refine ⟨_, exec_eret_toSteward hd h he hp, ?_⟩
    rw [getCore_updCore_self]
    have hvector : (here s).streams.stewardV ++ (here s).streams.vq = (here s).streams.stewardV := by rw [hd.noVector, List.append_nil]
    have hmatrix : (here s).streams.stewardM ++ (here s).streams.mq = (here s).streams.stewardM := by rw [hd.noMatrix, List.append_nil]
    exact ⟨rfl, rfl, rfl, rfl, rfl, hvector, hmatrix, sameMemory_updCore rfl rfl rfl⟩
  · refine ⟨_, by rw [exec_eret_steward hd h he, resumeTask_none ht]; rfl, ?_⟩
    rw [updCore_cur, updCore_updCore, getCore_updCore_self]
    exact ⟨rfl, rfl, rfl, rfl, sameMemory_updCore rfl rfl rfl⟩
  · refine ⟨_, by rw [exec_eret_steward hd h he, resumeTask_restored ht ha hr]; rfl, ?_⟩
    obtain ⟨hlevel, hpc⟩ := getCore_dropReads (updCore s' s.cur (atTask (here s).tregs.epc)) s.cur s'.cur
    rw [updCore_cur, hlevel, hpc, getCore_updCore_self]
    exact ⟨rfl, rfl⟩

/-! ### `tdone` (R122) -/

theorem exec_tdone (s : State) : exec .tdone s = execTdone s := rfl

theorem execTdone_steward {s : State} (h : (here s).level = .steward) :
    let s' := release s s.cur .sys allRegions
    execTdone s = .next (if releaseLeft s' s.cur .sys allRegions then s' else discardTask s' s.cur) := by
  rw [execTdone, h]
  dsimp only [sentAll]
  cases releaseLeft (release s s.cur .sys allRegions) s.cur .sys allRegions <;> rfl

theorem tdoneEndsTask : Parts.TdoneEndsTask := by
  intro s
  refine ⟨fun h => ?_, fun h => execTdone_steward h, fun h => ?_, fun h he _ hc run => ?_⟩
  · rw [exec_tdone, execTdone, h]
  · rw [exec_tdone, execTdone, h]
    exact trapNow_machine h _ _
  · simp [controlSlot, hc, he, h]

/-- Settles O18: `eret` by where its level returns to, `tdone` by its level. -/
theorem returnsAndEnds : Obligations.ReturnsAndEnds := ⟨eretReturns, tdoneEndsTask⟩

end Sys2Proof.Machine

/-! ## Pins and VP blocks as they are posted, and the branches of a block (R150, R152, R300, log 23) -/

namespace Sys2Proof.Machine

/-! ### Fields of a bit vector -/

section
variable {n len : Nat} (v : BitVec n) (lo : Nat) (x : BitVec len)

/-- A bit of a vector with a field replaced: the field's own, or the vector's. -/
theorem getLsbD_splice (i : Nat) :
    (splice v lo x).getLsbD i = if lo ≤ i ∧ i < lo + len then decide (i < n) && x.getLsbD (i - lo) else v.getLsbD i := by
  have hv : v.getLsbD i = true → i < n := BitVec.lt_of_getLsbD
  have hx : x.getLsbD (i - lo) = true → i - lo < len := BitVec.lt_of_getLsbD
  simp only [splice, BitVec.getLsbD_or, BitVec.getLsbD_and, BitVec.getLsbD_not, BitVec.getLsbD_shiftLeft, BitVec.getLsbD_setWidth,
    BitVec.getLsbD_allOnes]
  split_ifs <;> grind

/-- A field that was put is read back. -/
theorem slice_splice_self (h : lo + len ≤ n) : slice (splice v lo x) lo len = x := by
  refine BitVec.eq_of_getLsbD_eq fun i hi => ?_
  rw [slice, BitVec.getLsbD_extractLsb', getLsbD_splice, if_pos (by omega)]
  simp [hi, Nat.lt_of_lt_of_le (Nat.add_lt_add_left hi lo) h]

/-- A field beside one that was put is as it was. -/
theorem slice_splice_other {lo' len' : Nat} (h : lo' + len' ≤ lo ∨ lo + len ≤ lo') : slice (splice v lo x) lo' len' = slice v lo' len' := by
  refine BitVec.eq_of_getLsbD_eq fun i hi => ?_
  rw [slice, slice, BitVec.getLsbD_extractLsb', BitVec.getLsbD_extractLsb', getLsbD_splice, if_neg (by omega)]

end

/-- A bit that was put, and the others as they were. -/
theorem testBit_putBit {n : Nat} (v : BitVec n) {i : Nat} (hi : i < n) (b : Bool) (j : Nat) :
    (putBit v i b).toNat.testBit j = if j = i then b else v.toNat.testBit j := by
  rw [BitVec.testBit_toNat, BitVec.testBit_toNat, putBit, getLsbD_splice]
  by_cases h : j = i
  · subst h
    simp [hi]
  · rw [if_neg (by omega), if_neg h]

/-! ### The post -/

/-- An instruction with its entry and room in the vector queue is posted, and its stream may run it. -/
theorem postVector_posts {i : Instr} {len : Nat} {entry : CoreId → M Entry} {s s' : State} {e : Entry} (hw : i.wellFormed = true)
    (hr : (here s).streams.rep.run = none) (he : entry s.cur s = .ok e s') (hc : s'.cur = s.cur) (hq : (here s').streams.vq.length < 128) :
    postVector i len entry s = .next (eagerVector (updCore s' s.cur fun k => postsVector k e len) s.cur) := by
  rw [here, hc] at hq
  rw [postVector_ok hw hr he hq]
  simp only [updCore_cur, updCore_updCore, hc]
  rfl

/-- An instruction whose check traps takes the trap. -/
theorem postVector_trap {i : Instr} {len : Nat} {entry : CoreId → M Entry} {s s' : State} {t : TrapInfo} (hw : i.wellFormed = true)
    (hr : (here s).streams.rep.run = none) (he : entry s.cur s = .error (.trap t) s') :
    postVector i len entry s = .next (stopAt s s' s.cur (controlTrap t (here s).pc)) := by
  unfold postVector
  rw [if_neg (by simp [hw])]
  refine (congrArg (finishPost s len eagerVector) (M.bind_ok (notPosting_ok hr))).trans ?_
  exact congrArg (finishPost s len eagerVector) (M.bind_error he)

/-! ### `pin` (R300) -/

theorem exec_pin (n : BitVec 6) (e : BitVec 5) (s : State) :
    exec (.pin n e) s = postVector (.pin n e) 4 (fun c => pinEntry c n e) s := rfl

/-- A book entry that the core holds is read as it is. -/
theorem bookEntry_held {s : State} {c : CoreId} {e : BitVec 5} {v : BitVec 512} (h : (getCore s c).tables.book[e.toNat] = some v) :
    bookEntry c e s = .ok v s := by
  rw [bookEntry, M.theCore_bind, h]
  rfl

/-- The entry of a `pin` of a book entry that the core holds: VALID and with RES its row, it takes the image. -/
theorem pinEntry_ok {s : State} {c : CoreId} {n : BitVec 6} {e : BitVec 5} {v : BitVec 512} (h : (getCore s c).tables.book[e.toNat] = some v)
    (hvalid : bitAt v 287 = true) (hres : pinRes v = n) :
    pinEntry c n e s = .ok { postedEntry (getCore s c) (.pin n e) with image := pinImage (getCore s c) v } s := by
  rw [pinEntry, M.bind_ok (bookEntry_held h), hvalid, hres]
  simp [formatUnless]
  rfl

theorem pinEntry_trap {s : State} {c : CoreId} {n : BitVec 6} {e : BitVec 5} {v : BitVec 512} (h : (getCore s c).tables.book[e.toNat] = some v)
    (hbad : bitAt v 287 = false ∨ pinRes v ≠ n) : pinEntry c n e s = .error (.trap (trapInfo .format 0)) s := by
  have hcheck : (bitAt v 287 && pinRes v == n) = false := by
    rcases hbad with hb | hb <;> simp [hb]
  rw [pinEntry, M.bind_ok (bookEntry_held h), hcheck]
  rfl

/-- The image of a `pin` as the fields that it takes, one put over the other (R299). -/
theorem pinImage_eq (k : Core) (v : BitVec 512) :
    pinImage k v = splice (splice (splice (splice (splice v 266 k.tregs.vl) 273 k.tregs.prot) 320 (getS k (slice v 288 5)))
      384 (getS k (slice v 293 5))) 448 (getS k (slice v 298 5)) := by
  have hslots : pinSlots (splice (splice v 266 k.tregs.vl) 273 k.tregs.prot) = pinSlots v := by
    simp [pinSlots, slice_splice_other]
  rw [pinImage, hslots]
  rfl

/-- What the image of a `pin` holds: the recipe, VL, PROT and the scalars that its slots name (R299, R300). -/
theorem pinImage_fields (k : Core) (v : BitVec 512) :
    (slice (pinImage k v) 0 256 : BitVec 256) = slice v 0 256 ∧ (slice (pinImage k v) 266 7 : BitVec 7) = k.tregs.vl ∧
      (slice (pinImage k v) 273 1 : BitVec 1) = k.tregs.prot ∧
      ∀ j < 3, (slice (pinImage k v) (320 + 64 * j) 64 : DWord) = getS k (slice v (288 + 5 * j) 5) := by
  rw [pinImage_eq]
  refine ⟨?_, ?_, ?_, fun j hj => ?_⟩
  · simp [slice_splice_other]
  · simp [slice_splice_other, slice_splice_self]
  · simp [slice_splice_other, slice_splice_self]
  · interval_cases j <;> simp [slice_splice_other, slice_splice_self]

/-! ### `vfb` (R150) -/

theorem exec_vfb (n : BitVec 5) (off : BitVec 15) (s : State) :
    exec (.vfb n off) s = postVector (.vfb n off) 4 (fun c => blockEntry c (.vfb n off) n off) s := rfl

/-- The entry of a `vfb` once its block is fetched. -/
theorem blockEntry_ok {s s' : State} {c : CoreId} {i : Instr} {n : BitVec 5} {off : BitVec 15} {image : List Byte}
    (hroom : ((getCore s c).streams.vq.filter fun e => e.vp.isSome).length < 16)
    (hfetch : fetchBlock c (n.toNat + 1) ((getCore s c).pc + BitVec.ofInt 64 (off.toInt * 2)) s = .ok image s') :
    let target := (getCore s c).pc + BitVec.ofInt 64 (off.toInt * 2)
    blockEntry c i n off s =
      .ok { postedEntry (getCore s c) i with vp := some { base := target, image := image, pcs := Vector.replicate 64 target, done := 0, busy := none } } s' := by
  rw [blockEntry, M.theCore_bind, sext64_mul_two, decide_eq_true hroom, awaitThat_true, M.pure_bind_run]
  exact M.bind_ok hfetch

theorem pinsAndBlocksPost : Parts.PinsAndBlocksPost := by
  intro s k hr hq
  refine ⟨fun n e v hv => ⟨fun hvalid hres => ?_, fun hbad => ?_⟩, fun n off s' image hroom hfetch hc hq' => ?_⟩
  · refine ⟨pinImage k v, ?_, pinImage_fields k v⟩
    rw [exec_pin, postVector_posts rfl hr (pinEntry_ok hv hvalid hres) rfl hq]
    exact congrArg (fun t => Host.Outcome.next (eagerVector t s.cur)) (updCore_congr rfl)
  · rw [exec_pin]
    exact postVector_trap rfl hr (pinEntry_trap hv hbad)
  · rw [exec_vfb]
    exact postVector_posts rfl hr (blockEntry_ok hroom hfetch) hc hq'

/-! ### The branches of a block (R152) -/

theorem stepVp_vpb (c : CoreId) (e : Entry) (pc : DWord) (n : BitVec 3) (off : BitVec 15) (vp : Nat) (s : State) :
    stepVp c e pc (.vpb n off) 4 vp s = .ok () (updCore s c fun k => modVp k fun v =>
      { v with pcs := v.pcs.setIfInBounds vp (if bitAt (getK (getCore s c) n) vp then pc + BitVec.ofInt 64 (off.toInt * 2) else pc + 4) }) := by
  rw [← sext64_mul_two]
  rfl

/-- `vpend` marks its VP as finished. -/
theorem stepVp_vpend (c : CoreId) (e : Entry) (pc : DWord) (vp : Nat) (s : State) :
    stepVp c e pc .vpend 4 vp s = .ok () (updCore s c fun k => modVp k fun v => { v with done := putBit v.done vp true }) := rfl

/-- The head of the vector queue after its block has changed. -/
theorem head_modVp {k : Core} {h : Entry} {v : VpState} (hh : k.streams.vq.head? = some h) (hv : h.vp = some v) (f : VpState → VpState) :
    ∃ h', (modVp k f).streams.vq.head? = some h' ∧ h'.vp = some (f v) := by
  obtain ⟨r, hr⟩ := List.head?_eq_some_iff.1 hh
  refine ⟨{ h with vp := h.vp.map f }, ?_, congrArg (Option.map f) hv⟩
  simp only [modVp, modHead, hr, List.head?_cons]

theorem blockBranches : Parts.BlockBranches := by
  intro s n off
  refine ⟨fun c e pc vp hvp => ⟨stepVp_vpb c e pc n off vp s, _, stepVp_vpend c e pc vp s, fun h v hh hv => ?_⟩, rfl, rfl⟩
  rw [getCore_updCore_self]
  obtain ⟨h', hh', hv'⟩ := head_modVp hh hv fun v => { v with done := putBit v.done vp true }
  refine ⟨h', _, hh', hv', rfl, fun i _ => ?_⟩
  rw [testBit_putBit _ hvp]
  by_cases hi : i = vp <;> simp [hi]

/-- Settles O34: `pin` and `vfb` by the entry that each makes, and a block's branches by what each does to the head of the queue. -/
theorem pinsAndBlocks : Obligations.PinsAndBlocks := ⟨pinsAndBlocksPost, blockBranches⟩

end Sys2Proof.Machine

/-! ## Integer lanes and the conditions of compares (R132, R133, R137) -/

namespace Sys2Proof.Machine

/-! ### Numbers of a width -/

/-- The low bits of an integer are its bit vector. -/
theorem wrap_eq_ofInt (w : Nat) (i : Int) : wrap w i = (BitVec.ofInt w i).toNat := (BitVec.toNat_ofInt i).symm

/-- The value of a number of the width in two's complement is that of its bit vector. -/
theorem signedOf_eq_toInt {w x : Nat} (hw : 0 < w) (h : x < 2 ^ w) : signedOf w x = (BitVec.ofNat w x).toInt := by
  have htop : 2 ^ w = 2 * 2 ^ (w - 1) := by rw [← pow_succ', Nat.sub_add_cancel hw]
  rw [signedOf, BitVec.toInt_eq_toNat_cond, BitVec.toNat_ofNat, Nat.mod_eq_of_lt h]
  by_cases hx : x < 2 ^ (w - 1)
  · rw [if_pos hx, if_pos (by omega)]
  · rw [if_neg hx, if_neg (by omega)]

/-- A number of the width is read back from its value. -/
theorem ofInt_toInt_ofNat {w x : Nat} (h : x < 2 ^ w) : (BitVec.ofInt w (BitVec.ofNat w x).toInt).toNat = x := by
  rw [BitVec.ofInt_toInt, BitVec.toNat_ofNat, Nat.mod_eq_of_lt h]

theorem toInt_ofNat_inj {w a b : Nat} (ha : a < 2 ^ w) (hb : b < 2 ^ w) : (BitVec.ofNat w a).toInt = (BitVec.ofNat w b).toInt ↔ a = b := by
  rw [BitVec.toInt_inj, ← BitVec.toNat_inj, BitVec.toNat_ofNat, BitVec.toNat_ofNat, Nat.mod_eq_of_lt ha, Nat.mod_eq_of_lt hb]

/-- Leading zeros of a number of the width, by its highest bit. -/
theorem leadZeros_of_leading {w a n : Nat} (hn : n < w) (ha : a < 2 ^ (w - n)) (hbit : a.testBit (w - 1 - n) = true) : leadZeros w a = n := by
  obtain ⟨b, rfl⟩ : ∃ b, w = n + b + 1 := ⟨w - n - 1, by omega⟩
  have hge : 2 ^ b ≤ a := by
    have := Nat.ge_two_pow_of_testBit hbit
    rwa [show n + b + 1 - 1 - n = b by omega] at this
  have hlt : a - 2 ^ b < 2 ^ b := by
    rw [show n + b + 1 - n = b + 1 by omega, pow_succ] at ha
    omega
  have hlen : bitLen a = b + 1 := by
    rw [← Nat.add_sub_cancel' hge]
    exact bitLen_of_leading hlt
  rw [leadZeros, hlen]
  omega

/-! ### The lanes -/

/-- The signed integer formats whose elements are whole bytes (R75). -/
structure SignedFmt (f : Fmt) (w : Nat) : Prop where
  width : fmtWidth f = w
  signed : fmtIsUnsigned f = false
  integer : fmtIsFloat f = false
  count : 2 ^ shiftBits w = w
  pos : 0 < w

theorem signedFmt {f : Fmt} {w : Nat} (h : (f, w) ∈ [(Fmt.int32, 32), (.int16, 16), (.int8, 8)]) : SignedFmt f w := by
  fin_cases h <;> exact ⟨rfl, rfl, rfl, rfl, by decide⟩

/-- The operations that compute on the values of a format and not on its bits (R132). -/
def valueOps : List LaneOp := [.add, .sub, .mul, .fma, .min, .max, .div, .abs, .neg, .addSat, .subSat, .mulSat]

section
variable {f : Fmt} {w : Nat} (hf : SignedFmt f w)
include hf

/-- The value of an element is that of its bit vector. -/
theorem SignedFmt.fmtInt_eq {x : Nat} (hx : x < 2 ^ w) : fmtInt f x = (BitVec.ofNat w x).toInt := by
  rw [fmtInt, hf.signed, hf.width]
  exact signedOf_eq_toInt hf.pos hx

theorem SignedFmt.put_wrapped (i : Int) : fmtPutInt f false i = (BitVec.ofInt w i).toNat := by
  rw [fmtPutInt, hf.width]
  exact wrap_eq_ofInt w i

theorem SignedFmt.put_saturated (i : Int) :
    fmtPutInt f true i = (BitVec.ofInt w (max (-2 ^ (w - 1)) (min i (2 ^ (w - 1) - 1)))).toNat := by
  have hpos : (0 : Int) < 2 ^ (w - 1) := by positivity
  have hclamp : clampInt (-(2 ^ (w - 1) : Nat)) ((2 ^ (w - 1) : Nat) - 1) i = max (-2 ^ (w - 1)) (min i (2 ^ (w - 1) - 1)) := by
    push_cast
    rw [clampInt_eq (by omega), min_comm]
  rw [← hclamp, ← wrap_eq_ofInt, fmtPutInt, fmtRange, hf.signed, hf.width]
  rfl

/-- The smaller of two elements is the one whose value is smaller. -/
theorem SignedFmt.min_eq {a b : Nat} (ha : a < 2 ^ w) (hb : b < 2 ^ w) :
    (if fmtInt f b < fmtInt f a then b else a) = (BitVec.ofInt w (min (BitVec.ofNat w a).toInt (BitVec.ofNat w b).toInt)).toNat := by
  rw [hf.fmtInt_eq ha, hf.fmtInt_eq hb]
  split
  case isTrue h => rw [min_eq_right h.le, ofInt_toInt_ofNat hb]
  case isFalse h => rw [min_eq_left (not_lt.1 h), ofInt_toInt_ofNat ha]

theorem SignedFmt.max_eq {a b : Nat} (ha : a < 2 ^ w) (hb : b < 2 ^ w) :
    (if fmtInt f a < fmtInt f b then b else a) = (BitVec.ofInt w (max (BitVec.ofNat w a).toInt (BitVec.ofNat w b).toInt)).toNat := by
  rw [hf.fmtInt_eq ha, hf.fmtInt_eq hb]
  split
  case isTrue h => rw [max_eq_right h.le, ofInt_toInt_ofNat hb]
  case isFalse h => rw [max_eq_left (not_lt.1 h), ofInt_toInt_ofNat ha]

/-- The values of these formats are integers. -/
theorem SignedFmt.laneOp_eq_laneInt {o : LaneOp} (ho : o ∈ valueOps) (a b d : Nat) : laneOp o f a b d = laneInt o f a b d := by
  have hfloat := hf.integer
  rw [valueOps] at ho
  fin_cases ho <;> simp [laneOp, hfloat]

/-- An operation whose result wraps puts back the low bits of an integer. -/
theorem SignedFmt.lane_wrapped {o : LaneOp} {a b d : Nat} {i : Int} (ho : o ∈ valueOps)
    (h : laneInt o f a b d = fmtPutInt f false i) : laneOp o f a b d = (BitVec.ofInt w i).toNat := by
  rw [hf.laneOp_eq_laneInt ho, h, hf.put_wrapped]

end

/-! ### The operations on integers (R132) -/

section
variable {f : Fmt} {w a b d : Nat} (hf : SignedFmt f w) (ha : a < 2 ^ w) (hb : b < 2 ^ w)
include hf ha

theorem SignedFmt.lane_abs : laneOp .abs f a b d = (BitVec.ofNat w a).toInt.natAbs := by
  have hlt : (BitVec.ofNat w a).toInt.natAbs < 2 ^ w := by
    have hlo := BitVec.le_two_mul_toInt (x := BitVec.ofNat w a)
    have hhi := BitVec.two_mul_toInt_lt (x := BitVec.ofNat w a)
    have hpos := Nat.two_pow_pos w
    have hcast : ((2 ^ w : Nat) : Int) = 2 ^ w := by push_cast; rfl
    omega
  rw [hf.lane_wrapped (by decide) rfl, hf.fmtInt_eq ha, BitVec.ofInt_natCast, BitVec.toNat_ofNat, Nat.mod_eq_of_lt hlt]

theorem SignedFmt.lane_neg : laneOp .neg f a b d = (2 ^ w - a) % 2 ^ w := by
  rw [hf.lane_wrapped (by decide) rfl, hf.fmtInt_eq ha, Int.zero_sub, BitVec.ofInt_neg, BitVec.ofInt_toInt,
    BitVec.toNat_neg, BitVec.toNat_ofNat, Nat.mod_eq_of_lt ha]

theorem SignedFmt.lane_sra (n : Nat) : wrap (fmtWidth f) (Int.shiftRight (signedOf (fmtWidth f) a) n) =
    (BitVec.ofInt w ((BitVec.ofNat w a).toInt / 2 ^ n)).toNat := by
  rw [hf.width, signedOf_eq_toInt hf.pos ha, wrap_eq_ofInt]
  exact congrArg (fun i => (BitVec.ofInt w i).toNat) (Int.shiftRight_eq_div_pow _ _)

include hb

/-- Sums, differences and products wrap at the width. -/
theorem SignedFmt.lane_add : laneOp .add f a b d = (a + b) % 2 ^ w := by
  rw [hf.lane_wrapped (by decide) rfl, hf.fmtInt_eq ha, hf.fmtInt_eq hb, BitVec.ofInt_add, BitVec.ofInt_toInt,
    BitVec.ofInt_toInt, ← BitVec.ofNat_add, BitVec.toNat_ofNat]

theorem SignedFmt.lane_sub : laneOp .sub f a b d = (a + (2 ^ w - b)) % 2 ^ w := by
  rw [hf.lane_wrapped (by decide) rfl, hf.fmtInt_eq ha, hf.fmtInt_eq hb, Int.sub_eq_add_neg,
    BitVec.ofInt_add, BitVec.ofInt_neg, BitVec.ofInt_toInt, BitVec.ofInt_toInt, ← BitVec.sub_eq_add_neg, BitVec.toNat_sub, BitVec.toNat_ofNat,
    BitVec.toNat_ofNat, Nat.mod_eq_of_lt ha, Nat.mod_eq_of_lt hb, Nat.add_comm]

theorem SignedFmt.lane_mul : laneOp .mul f a b d = a * b % 2 ^ w := by
  rw [hf.lane_wrapped (by decide) rfl, hf.fmtInt_eq ha, hf.fmtInt_eq hb, BitVec.ofInt_mul, BitVec.ofInt_toInt,
    BitVec.ofInt_toInt, ← BitVec.ofNat_mul, BitVec.toNat_ofNat]

theorem SignedFmt.lane_fma (hd : d < 2 ^ w) : laneOp .fma f a b d = (a * b + d) % 2 ^ w := by
  rw [hf.lane_wrapped (by decide) rfl, hf.fmtInt_eq ha, hf.fmtInt_eq hb, hf.fmtInt_eq hd, BitVec.ofInt_add,
    BitVec.ofInt_mul, BitVec.ofInt_toInt, BitVec.ofInt_toInt, BitVec.ofInt_toInt, ← BitVec.ofNat_mul, ← BitVec.ofNat_add, BitVec.toNat_ofNat]

/-- A quotient is truncated toward zero, and all ones where there is none (R111). -/
theorem SignedFmt.lane_div : laneOp .div f a b d =
    if b = 0 then 2 ^ w - 1 else (BitVec.ofInt w ((BitVec.ofNat w a).toInt.tdiv (BitVec.ofNat w b).toInt)).toNat := by
  have hzero : (BitVec.ofNat w b).toInt = 0 ↔ b = 0 := by simpa using toInt_ofNat_inj hb (Nat.two_pow_pos w)
  rw [hf.lane_wrapped (by decide) rfl, hf.fmtInt_eq ha, hf.fmtInt_eq hb, divInt, hf.signed]
  simp only [hzero, Bool.not_false, if_true]
  split
  · rw [BitVec.ofInt_neg]
    exact (congrArg BitVec.toNat BitVec.neg_one_eq_allOnes).trans BitVec.toNat_allOnes
  · rfl

end

theorem integerLanes : Parts.IntegerLanes := by
  intro f w a b d hmem ha hb hd
  have hf := signedFmt hmem
  have hia := hf.fmtInt_eq ha
  have hib := hf.fmtInt_eq hb
  have hlane {o} ho := hf.laneOp_eq_laneInt (o := o) ho a b d
  have hcount : b % 2 ^ shiftBits (fmtWidth f) = b % w := by rw [hf.width, hf.count]
  refine ⟨hf.lane_add ha hb, hf.lane_sub ha hb, hf.lane_mul ha hb, hf.lane_fma ha hb hd, ?min, ?max, rfl, rfl, rfl, ?not, ?shl, ?shr, ?sra, rfl,
    hf.lane_abs ha, hf.lane_neg ha, hf.lane_div ha hb, ?addSat, ?subSat, ?mulSat, ?popc, ?clzZero, fun n hn hlt hbit => ?clz⟩
  case min => exact (hlane (by decide)).trans (hf.min_eq ha hb)
  case max => exact (hlane (by decide)).trans (hf.max_eq ha hb)
  case not => rw [laneOp, hf.width, Nat.mod_eq_of_lt ha]
  case shl => rw [laneOp, hcount, hf.width, Nat.shiftLeft_eq]
  case shr => rw [laneOp, hcount, Nat.shiftRight_eq_div_pow]
  case sra => rw [laneOp, hcount]; exact hf.lane_sra ha _
  case addSat => rw [hlane (by decide), laneInt, hf.put_saturated, hia, hib]
  case subSat => rw [hlane (by decide), laneInt, hf.put_saturated, hia, hib]
  case mulSat => rw [hlane (by decide), laneInt, hf.put_saturated, hia, hib]
  case popc => rw [laneOp, hf.width, popCount_eq_length_filter]
  case clzZero => rintro rfl; rw [laneOp, hf.width]; rfl
  case clz => rw [laneOp, hf.width, leadZeros_of_leading hn hlt hbit]

/-! ### The conditions of compares (R137) -/

theorem compareConditions : Parts.CompareConditions := by
  intro a b ha hb
  have hsigned {x : Nat} (hx : x < 2 ^ 32) := signedOf_eq_toInt (by decide : 0 < 32) hx
  have hinj : (BitVec.ofNat 32 a).toInt = (BitVec.ofNat 32 b).toInt ↔ a = b := toInt_ofNat_inj ha hb
  refine ⟨fun f hf => ?_, ?_, ?_, ?_, ?_⟩
  · fin_cases hf <;> simp [CmpOp.holds, fmtIsFloat, beq_eq_decide]
  · simp [CmpOp.holds, fmtIsFloat, hsigned ha, hsigned hb]
  · simp [CmpOp.holds, fmtIsFloat, hsigned ha, hsigned hb, beq_eq_decide, ← hinj, Int.le_iff_lt_or_eq]
  · simp [CmpOp.holds, fmtIsFloat]
  · simp [CmpOp.holds, fmtIsFloat, beq_eq_decide, Nat.le_iff_lt_or_eq]

/-- Settles O37: the operations by what each puts back at the width, and the compares by the values of their words. -/
theorem lanesAndConditions : Obligations.LanesAndConditions := ⟨integerLanes, compareConditions⟩

end Sys2Proof.Machine

/-! ## Rows and masks that vector instructions make (R136 to R138, R148, log 7) -/

namespace Sys2Proof.Machine

/-! ### A vector instruction that changes its core alone -/

/-- An instruction that is posted whole, and accesses no memory. -/
structure PostedWhole (i : Instr) : Prop where
  length : vectorLength i = some 4
  v3 : asV3 i = i
  wellFormed : i.wellFormed = true
  spans : ∀ k e head, e.instr = i → ownSpans k e head = ([], [])

/-- Posted to an idle stream without pinned rows, it leaves what its meaning makes of its core beside its commit. -/
theorem PostedWhole.exec_ok {s : State} {i : Instr} {f : Core → Core} (hi : PostedWhole i) (hk : VectorIdle (here s)) (hp : Unpinned (here s))
    (hb : vecBody s.cur (postedEntry (here s) i) (updCore s s.cur fun k => atVectorHead k i 4) = .ok () (updCore s s.cur fun k => f (atVectorHead k i 4)))
    (hf : ∀ k, dropVector (dropReads (turnOver (f k)) 1) = f (dropVector (dropReads (turnOver k) 1)))
    (hc : ∀ k, (f k).poisoned = k.poisoned) : exec i s = .next (updCore s s.cur fun k => f (pastVector k 4)) := by
  have hok := exec_vector_ok (s := s) (i := i) (f := f) hi.length
  rw [hi.v3] at hok
  exact hok hi.wellFormed hk (headMayRun_posted hk hp hi.spans) hb hf hc

/-! ### One row written -/

/-- A core with a frame row and its counters replaced. -/
def countedRow (k : Core) (n : BitVec 6) (r : FrameRow) (ctrs : CounterBlock) : Core := { setRow k n r with ctrs := ctrs }

section
variable (k : Core) (n : BitVec 6) (r : FrameRow) (ctrs : CounterBlock)

theorem getRow_countedRow (m : BitVec 6) : getRow (countedRow (pastVector k 4) n r ctrs) m = if m = n then r else getRow k m := by
  refine (getRow_setRow (pastVector k 4) n m r).trans ?_
  rw [getRow_pastVector]

theorem countedRow_masks : (countedRow (pastVector k 4) n r ctrs).files.k = k.files.k := by simp [countedRow, setRow, pastVector, turnOver]

theorem countedRow_pc : (countedRow (pastVector k 4) n r ctrs).pc = k.pc + 4 := by simp [countedRow, setRow, pastVector, turnOver]

theorem vectorFrame_countedRow : VectorFrame k (countedRow (pastVector k 4) n r ctrs) := by
  constructor <;> simp [countedRow, setRow, pastVector, turnOver, retire, retireTo_tregs]

end

/-- What an instruction leaves of the package that writes one frame row, and counts, alone. -/
structure WritesRow (s u : State) (d : BitVec 6) (r : FrameRow) : Prop where
  only : OnlyHere s u
  frame : VectorFrame (here s) (here u)
  masks : (here u).files.k = (here s).files.k
  pc : (here u).pc = (here s).pc + 4
  others : ∀ n, n ≠ d → getRow (here u) n = getRow (here s) n
  row : getRow (here u) d = r

theorem writesRow_countedRow (s : State) (d : BitVec 6) (r : FrameRow) (ctrs : CounterBlock) :
    WritesRow s (updCore s s.cur fun k => countedRow (pastVector k 4) d r ctrs) d r := by
  have hhere : here (updCore s s.cur fun k => countedRow (pastVector k 4) d r ctrs) = countedRow (pastVector (here s) 4) d r ctrs :=
    getCore_updCore_self ..
  constructor
  · exact onlyHere_updCore s _
  · rw [hhere]; exact vectorFrame_countedRow ..
  · rw [hhere]; exact countedRow_masks ..
  · rw [hhere]; exact countedRow_pc ..
  · intro n hn
    rw [hhere, getRow_countedRow, if_neg hn]
  · rw [hhere, getRow_countedRow, if_pos rfl]

/-- An instruction whose meaning writes one row, and counts, alone. -/
theorem PostedWhole.exec_row {s : State} {i : Instr} {d : BitVec 6} {r : FrameRow} (hi : PostedWhole i) (hk : VectorIdle (here s))
    (hp : Unpinned (here s))
    (hb : ∃ ctrs, vecBody s.cur (postedEntry (here s) i) (updCore s s.cur fun k => atVectorHead k i 4) =
      .ok () (updCore s s.cur fun k => countedRow (atVectorHead k i 4) d r ctrs)) : ∃ u, exec i s = .next u ∧ WritesRow s u d r := by
  obtain ⟨ctrs, hb⟩ := hb
  exact ⟨_, hi.exec_ok (f := fun k => countedRow k d r ctrs) hk hp hb (fun _ => rfl) fun _ => rfl, writesRow_countedRow s d r ctrs⟩

/-! ### Elements computed into a row -/

/-- A row with the elements that a function gives, without poison. -/
def rowWith (k : Core) (d : BitVec 6) (t : HWord) (g : Nat → Option Res) : FrameRow :=
  let w := fmtWidth (tagFmt t)
  { row := { bits := BitVec.ofNat 2048 (putElems w (elemCount w) (getRow k d).row.bits.toNat g), psn := 0, tag := t }, res := .dirty }

theorem elemOf_rowWith (k : Core) (d : BitVec 6) {t : HWord} (g : Nat → Option Res) {w e : Nat} (hw : fmtWidth (tagFmt t) = w)
    (he : e < 2048 / w) :
    elemOf (rowWith k d t g).row.bits.toNat w e = match g e with | some r => r.val % 2 ^ w | none => elemOf (getRow k d).row.bits.toNat w e := by
  subst hw
  have hcount : elemCount (fmtWidth (tagFmt t)) = 2048 / fmtWidth (tagFmt t) := if_neg fun h => by simp [h] at he
  exact elemOf_putElems _ g (hcount ▸ Nat.mul_div_le ..) (hcount ▸ he)

/-- A row that an instruction may write at once: no row is pinned, its block is free to take, the row is resident and clean, and the two
computations of a protected instruction agree (R105, R106, R130). -/
structure RowReady (k : Core) (e : Entry) (d : BitVec 6) : Prop where
  unpinned : Unpinned k
  written : k.evictFault = none
  agree : e.env.prot = 0 ∨ k.laneErrors = []
  dest : CleanRow k d

theorem rowReady_atVectorHead {k : Core} {d : BitVec 6} (i : Instr) (hk : VectorIdle k) (hp : Unpinned k) (hd : CleanRow k d) :
    RowReady (atVectorHead k i 4) (postedEntry k i) d where
  unpinned := fun n => by simpa [pinOf, atVectorHead, postsVector] using hp n
  written := by simpa [atVectorHead, postsVector] using hk.written
  agree := by simpa [atVectorHead, postsVector, postedEntry] using hk.agree
  dest := cleanRow_atVectorHead hd i 4

theorem rowWith_atVectorHead (k : Core) (i : Instr) (d : BitVec 6) (t : HWord) (g : Nat → Option Res) :
    rowWith (atVectorHead k i 4) d t g = rowWith k d t g := by simp only [rowWith, getRow_atVectorHead]

section
variable {s : State} {c : CoreId} {e : Entry} {d : BitVec 6} {t : HWord} {g : Nat → Option Res}

/-- A computation by element groups on ready rows writes its row, and counts its groups, alone. -/
theorem byGroups_writes (h : RowReady (getCore s c) e d) {srcs : List (BitVec 6)} (hs : ∀ r ∈ srcs, (getRow (getCore s c) r).res ≠ .gone)
    (w : Nat) {act : (Nat → Bool) → M Unit}
    (hact : act (fun _ => true) s = .ok () (updCore s c fun k => setRow k d (rowWith (getCore s c) d t g))) :
    ∃ ctrs, byGroups (vxOf c e []) (.row d) (srcs.map .row) w false act s =
      .ok () (updCore s c fun k => countedRow k d (rowWith (getCore s c) d t g) ctrs) := by
  obtain ⟨ctrs, hcount⟩ := countGroups_run (c := c) (e := e) [] (updCore s c fun k => setRow k d (rowWith (getCore s c) d t g))
  rw [updCore_updCore] at hcount
  exact ⟨ctrs, (byGroups_rows [] w false h.unpinned h.written h.dest.resident hs hact).trans hcount⟩

/-- Elements computed without poison are written as they are (R94, R129, R130). -/
theorem commitComputed_writes (h : RowReady (getCore s c) e d) (hg : ∀ i r, g i = some r → r.bad = false) :
    commitComputed (vxOf c e []) (.row d) t g s = .ok () (updCore s c fun k => setRow k d (rowWith (getCore s c) d t g)) :=
  commitComputed_row [] h.agree hg h.dest.clean

end

section
variable (c : CoreId) (e : Entry) (popped : List Row)

@[simp] theorem vxOf_c : (vxOf c e popped).c = c := rfl
@[simp] theorem vxOf_vl : (vxOf c e popped).vl = e.env.vl.toNat := rfl
@[simp] theorem vxOf_picks (i : Nat) : (vxOf c e popped).picks i = true := rfl

end

/-- An entry that has done no group has none to skip (R128). -/
theorem groupDone_none (c : CoreId) (popped : List Row) {e : Entry} (he : e.egdone = 0) (d : Opd) (srcs : List Opd) (w i : Nat) :
    groupDone (vxOf c e popped) d srcs w i = false := by simp [groupDone, vxOf, he]

/-- No element of a clean row is poisoned. -/
theorem elemPsn_source {k : Core} {r : BitVec 6} (h : CleanRow k r) (x : Vx) (w i : Nat) : elemPsn (sourceOf k x none (.row r)).psn w i = false := by
  simp [sourceOf, h.clean, elemPsn_zero]

/-! ### `vclr`, `vid` and `vsel` (R136, R138) -/

theorem postedWhole_vclr (d : BitVec 6) : PostedWhole (.vclr (.row d)) := ⟨rfl, rfl, rfl, fun k e head h => by rw [ownSpans, h]⟩
theorem postedWhole_vid (d : BitVec 6) : PostedWhole (.vid (.row d)) := ⟨rfl, rfl, rfl, fun k e head h => by rw [ownSpans, h]⟩
theorem postedWhole_vsel (d a b : BitVec 6) : PostedWhole (.vsel (.row d) (.row a) (.row b)) :=
  ⟨rfl, rfl, rfl, fun k e head h => by rw [ownSpans, h]⟩

section
variable {s : State} {c : CoreId} {e : Entry} {d : BitVec 6}

theorem runClr_run (hp : Unpinned (getCore s c)) :
    ∃ ctrs, runClr (vxOf c e []) d s = .ok () (updCore s c fun k => countedRow k d { row := Row.blank, res := .zero } ctrs) :=
  ⟨(getCore s c).ctrs, (M.bind_ok (cutRow_unpinned hp e.ipc d)).trans (congrArg (EStateM.Result.ok ()) (updCore_congr rfl))⟩

/-- What `vid` gives an element: its number, where it is covered and active. -/
def vidElem (k : Core) (v : Env) (i : Nat) : Option Res :=
  if covered v.vl.toNat 32 i && active (getK k v.ksel).toNat 32 i then some { val := i, bad := false } else none

theorem runId_run (h : RowReady (getCore s c) e d) (he : e.egdone = 0) :
    ∃ ctrs, runId (vxOf c e []) (.row d) s =
      .ok () (updCore s c fun k => countedRow k d (rowWith (getCore s c) d (plainTag .idx32) (vidElem (getCore s c) e.env)) ctrs) := by
  have hmask : (vxOf c e []).mask s = .ok (getK (getCore s c) e.env.ksel).toNat s := rfl
  have hclean : ∀ i r, vidElem (getCore s c) e.env i = some r → r.bad = false := fun i r hr => by
    rw [vidElem] at hr
    split at hr <;> cases hr
    rfl
  rw [runId, M.theCore_bind]
  simp only [checkDest, M.pure_bind_run, M.bind_ok hmask, writes_row c he]
  exact byGroups_writes h (srcs := []) (by simp) 32 (commitComputed_writes h hclean)

/-- What `vsel` gives an element that is covered: A's where the mask holds it, else B's. -/
def vselElem (k : Core) (v : Env) (a b : BitVec 6) (w i : Nat) : Option Res :=
  if covered v.vl.toNat w i then
    some { val := elemOf (getRow k (if active (getK k v.ksel).toNat w i then a else b)).row.bits.toNat w i, bad := false }
  else none

theorem runSel_run {a b : BitVec 6} {t : HWord} (h : RowReady (getCore s c) e d) (he : e.egdone = 0) (ha : CleanRow (getCore s c) a)
    (hb : CleanRow (getCore s c) b) (ht : t ≠ 0) (hta : (getRow (getCore s c) a).row.tag = t) (htb : (getRow (getCore s c) b).row.tag = t) :
    ∃ ctrs, runSel (vxOf c e []) (.row d) (.row a) (.row b) s = .ok () (updCore s c fun k =>
      countedRow k d (rowWith (getCore s c) d t (vselElem (getCore s c) e.env a b (fmtWidth (tagFmt t)))) ctrs) := by
  have hmask : (vxOf c e []).gov s = .ok (getK (getCore s c) e.env.ksel).toNat s := rfl
  have htagA : sourceTag (getCore s c) (vxOf c e []).vl none (.row a) s = .ok (some t) s := congrArg (fun u => EStateM.Result.ok (some u) s) hta
  have htagB : sourceTag (getCore s c) (vxOf c e []).vl none (.row b) s = .ok (some t) s := congrArg (fun u => EStateM.Result.ok (some u) s) htb
  have htag : operatingTag (getCore s c) (some t) (some t) (.row d) s = .ok t s := operatingTag_rows ht true
  have hclean : ∀ i r, vselElem (getCore s c) e.env a b (fmtWidth (tagFmt t)) i = some r → r.bad = false := fun i r hr => by
    rw [vselElem] at hr
    split at hr <;> cases hr
    rfl
  rw [runSel, M.theCore_bind]
  simp only [poppedOf, Opd.isPop, Bool.false_eq_true, if_false, vxOf_c]
  rw [M.bind_ok htagA, M.bind_ok htagB, M.bind_ok htag]
  simp only [checkDest, M.pure_bind_run, M.bind_ok hmask]
  refine byGroups_writes h (srcs := [a, b]) (by simpa using ⟨ha.resident, hb.resident⟩) _ ?_
  rw [M.theCore_bind, ← commitComputed_writes h hclean]
  refine congrArg (fun g => commitComputed (vxOf c e []) (.row d) t g s) (funext fun i => ?_)
  simp only [groupDone_none c [] he, vselElem, vxOf_vl, vxOf_picks, Bool.true_and, Bool.and_true, Bool.not_false]
  cases active (getK (getCore s c) e.env.ksel).toNat (fmtWidth (tagFmt t)) i with
  | false => simp only [Bool.false_eq_true, if_false, elemPsn_source hb]; rfl
  | true => simp only [if_true, elemPsn_source ha]; rfl

end

/-- Each element of the row that `vid` leaves (R136). -/
theorem elemOf_vidRow (k : Core) (v : Env) (d : BitVec 6) {i : Nat} (hi : i < 2048 / 32) :
    elemOf (rowWith k d (plainTag .idx32) (vidElem k v)).row.bits.toNat 32 i =
      if i < v.vl.toNat ∧ (getK k v.ksel).toNat.testBit (32 * i / 32) = true then i else elemOf (getRow k d).row.bits.toNat 32 i := by
  have hcov : covered v.vl.toNat 32 i = decide (i < v.vl.toNat) := decide_eq_decide.2 (by omega)
  rw [elemOf_rowWith k d _ (w := 32) rfl hi, vidElem, hcov, active, cell0]
  by_cases hin : i < v.vl.toNat ∧ (getK k v.ksel).toNat.testBit (32 * i / 32) = true
  · rw [if_pos hin, if_pos (by simpa using hin)]
    exact Nat.mod_eq_of_lt (show i < 2 ^ 32 by omega)
  · rw [if_neg hin, if_neg (by simpa using hin)]

/-- Each element of the row that `vsel` leaves (R138). -/
theorem elemOf_vselRow (k : Core) (v : Env) (d a b : BitVec 6) {t : HWord} {w i : Nat} (hw : fmtWidth (tagFmt t) = w) (hi : i < 2048 / w) :
    elemOf (rowWith k d t (vselElem k v a b w)).row.bits.toNat w i =
      if w * (i + 1) ≤ 32 * v.vl.toNat then
        (if (getK k v.ksel).toNat.testBit (w * i / 32) = true then elemOf (getRow k a).row.bits.toNat w i
          else elemOf (getRow k b).row.bits.toNat w i)
      else elemOf (getRow k d).row.bits.toNat w i := by
  rw [elemOf_rowWith k d _ hw hi, vselElem, covered, active, cell0]
  by_cases hin : w * (i + 1) ≤ 32 * v.vl.toNat
  · rw [if_pos hin, if_pos (decide_eq_true hin)]
    cases (getK k v.ksel).toNat.testBit (w * i / 32) <;> exact Nat.mod_mod _ _
  · rw [if_neg hin, if_neg (by simpa using hin)]

theorem vidElem_atVectorHead (k : Core) (i : Instr) (v : Env) : vidElem (atVectorHead k i 4) v = vidElem k v := by
  funext j
  simp only [vidElem, getK_atVectorHead]

theorem vselElem_atVectorHead (k : Core) (i : Instr) (v : Env) (a b : BitVec 6) (w : Nat) :
    vselElem (atVectorHead k i 4) v a b w = vselElem k v a b w := by
  funext j
  simp only [vselElem, getK_atVectorHead, getRow_atVectorHead]

theorem rowsMade : Parts.RowsMade := by
  intro s d a b t k on el makes hk hp hd
  have hcore (i : Instr) : getCore (updCore s s.cur fun k => atVectorHead k i 4) s.cur = atVectorHead k i 4 := getCore_updCore_self ..
  have hready (i : Instr) : RowReady (getCore (updCore s s.cur fun k => atVectorHead k i 4) s.cur) (postedEntry k i) d := by
    rw [hcore]
    exact rowReady_atVectorHead i hk hp hd
  have hclean (i : Instr) {r : BitVec 6} (hr : CleanRow k r) : CleanRow (getCore (updCore s s.cur fun k => atVectorHead k i 4) s.cur) r := by
    rw [hcore]
    exact cleanRow_atVectorHead hr i 4
  have hmakes {i : Instr} {w : Nat} {r : FrameRow} {g : Nat → Nat} (hi : PostedWhole i) (hpsn : r.row.psn = 0)
      (hg : ∀ e < 2048 / w, elemOf r.row.bits.toNat w e = g e)
      (hb : ∃ ctrs, vecBody s.cur (postedEntry k i) (updCore s s.cur fun k => atVectorHead k i 4) =
        .ok () (updCore (updCore s s.cur fun k => atVectorHead k i 4) s.cur fun k => countedRow k d r ctrs)) : makes i w r.row.tag r.res g := by
    simp only [updCore_updCore] at hb
    obtain ⟨u, hexec, hu⟩ := hi.exec_row hk hp hb
    refine ⟨u, hexec, hu.only, hu.frame, hu.masks, hu.pc, hu.others, ?_⟩
    rw [hu.row]
    exact ⟨rfl, hpsn, rfl, hg⟩
  refine ⟨?vclr, ?vid, fun ha hb ht hf hta htb => ?vsel⟩
  case vclr =>
    have hzero : Row.blank.bits.toNat = 0 := BitVec.toNat_zero
    exact hmakes (r := { row := Row.blank, res := .zero }) (postedWhole_vclr d) rfl (fun e _ => by rw [hzero, elemOf_zero])
      (runClr_run (hready _).unpinned)
  case vid =>
    have hrun := runId_run (hready (.vid (.row d))) rfl
    rw [hcore, rowWith_atVectorHead, vidElem_atVectorHead] at hrun
    exact hmakes (postedWhole_vid d) rfl (fun e he => elemOf_vidRow k _ d he) hrun
  case vsel =>
    have hrun := runSel_run (hready (.vsel (.row d) (.row a) (.row b))) rfl (hclean _ ha) (hclean _ hb) ht
      (by rw [hcore, getRow_atVectorHead]; exact hta) (by rw [hcore, getRow_atVectorHead]; exact htb)
    rw [hcore, rowWith_atVectorHead, vselElem_atVectorHead] at hrun
    exact hmakes (postedWhole_vsel d a b) rfl (fun e he => elemOf_vselRow k _ d a b rfl he) hrun


/-! ### One mask written -/

/-- A core with a mask other than `k0` written. -/
def maskedCore (k : Core) (n : BitVec 3) (v : DWord) : Core := { k with files := { k.files with k := k.files.k.set n.toNat v } }

theorem setK_eq_maskedCore {n : BitVec 3} (hn : n ≠ 0) (k : Core) (v : DWord) : setK k n v = maskedCore k n v := if_neg hn

theorem vectorFrame_maskedCore (k : Core) (n : BitVec 3) (v : DWord) : VectorFrame k (maskedCore (pastVector k 4) n v) := by
  constructor <;> simp [maskedCore, pastVector, turnOver, retire, retireTo_tregs]

theorem getK_maskedCore {n : BitVec 3} (hn : n ≠ 0) (k : Core) (v : DWord) (m : BitVec 3) :
    getK (maskedCore (pastVector k 4) n v) m = if m = n then v else getK k m := by
  have hpast : getK (pastVector k 4) m = getK k m := by simp [getK, pastVector, turnOver]
  rw [← setK_eq_maskedCore hn, getK_setK, hpast]
  simp only [ne_eq, hn, not_false_eq_true, and_true]

/-- What an instruction leaves of the package that writes one mask alone. -/
structure WritesMask (s u : State) (kd : BitVec 3) (v : DWord) : Prop where
  only : OnlyHere s u
  frame : VectorFrame (here s) (here u)
  rows : (here u).files.x = (here s).files.x
  pc : (here u).pc = (here s).pc + 4
  others : ∀ n, n ≠ kd → getK (here u) n = getK (here s) n
  mask : getK (here u) kd = v

theorem writesMask_maskedCore (s : State) {kd : BitVec 3} (hkd : kd ≠ 0) (v : DWord) :
    WritesMask s (updCore s s.cur fun k => maskedCore (pastVector k 4) kd v) kd v := by
  have hhere : here (updCore s s.cur fun k => maskedCore (pastVector k 4) kd v) = maskedCore (pastVector (here s) 4) kd v :=
    getCore_updCore_self ..
  constructor
  · exact onlyHere_updCore s _
  · rw [hhere]; exact vectorFrame_maskedCore ..
  · rw [hhere]; simp [maskedCore, pastVector, turnOver]
  · rw [hhere]; simp [maskedCore, pastVector, turnOver]
  · intro n hn
    rw [hhere, getK_maskedCore hkd, if_neg hn]
  · rw [hhere, getK_maskedCore hkd, if_pos rfl]

/-- An instruction whose meaning writes one mask alone. -/
theorem PostedWhole.exec_mask {s : State} {i : Instr} {kd : BitVec 3} {v : DWord} (hi : PostedWhole i) (hk : VectorIdle (here s))
    (hp : Unpinned (here s)) (hkd : kd ≠ 0)
    (hb : vecBody s.cur (postedEntry (here s) i) (updCore s s.cur fun k => atVectorHead k i 4) =
      .ok () (updCore s s.cur fun k => setK (atVectorHead k i 4) kd v)) : ∃ u, exec i s = .next u ∧ WritesMask s u kd v := by
  simp only [setK_eq_maskedCore hkd] at hb
  exact ⟨_, hi.exec_ok (f := fun k => maskedCore k kd v) hk hp hb (fun _ => rfl) fun _ => rfl, writesMask_maskedCore s hkd v⟩

/-! ### Masks combined, captured and compared (R137, R148) -/

section
variable {kd : BitVec 3} (hkd : kd ≠ 0)
include hkd

theorem postedWhole_kbool (ka kb : BitVec 3) (f : BitVec 4) : PostedWhole (.kbool kd ka kb f) :=
  ⟨rfl, rfl, by simpa [Instr.wellFormed] using hkd, fun k e head h => by rw [ownSpans, h]⟩

theorem postedWhole_kset (rs1 : BitVec 5) : PostedWhole (.kset kd rs1) :=
  ⟨rfl, rfl, by simpa [Instr.wellFormed] using hkd, fun k e head h => by rw [ownSpans, h]⟩

end

/-- A bit of two masks combined is the bit of the truth table that their bits number (R148). -/
theorem testBit_maskTable (f : BitVec 4) (a b : DWord) {i : Nat} (hi : i < 64) :
    (maskTable f a b).toNat.testBit i =
      f.toNat.testBit (2 * (if a.toNat.testBit i then 1 else 0) + if b.toNat.testBit i then 1 else 0) := by
  have hpick (j : Nat) (x : DWord) : (if bitAt f j = true then x else 0).toNat.testBit i = (f.toNat.testBit j && x.toNat.testBit i) := by
    rw [bitAt]
    cases f.toNat.testBit j <;> simp
  simp only [maskTable, BitVec.toNat_or, Nat.testBit_or, hpick, BitVec.toNat_and, Nat.testBit_and]
  have hnot (x : DWord) : (~~~x).toNat.testBit i = !x.toNat.testBit i := by
    rw [BitVec.testBit_toNat, BitVec.testBit_toNat, BitVec.getLsbD_not, decide_eq_true hi, Bool.true_and]
  simp only [hnot]
  cases a.toNat.testBit i <;> cases b.toNat.testBit i <;> simp

/-- Which bits a run of `n` bits holds. -/
theorem testBit_run (o n j : Nat) : ((2 ^ n - 1) <<< o).testBit j = decide (o ≤ j ∧ j < o + n) := by
  rw [Nat.testBit_shiftLeft, Nat.testBit_two_pow_sub_one, ← Bool.decide_and]
  exact decide_eq_decide.2 (by omega)

/-- A bit is in the run of `u` bits that its number divided by `u` counts. -/
theorem testBit_run_mul {u : Nat} (hu : 0 < u) (n i : Nat) : ((2 ^ u - 1) <<< (u * n)).testBit i = decide (i / u = n) := by
  rw [testBit_run, decide_eq_decide, Nat.div_eq_iff hu, Nat.mul_comm]
  omega

/-- The runs of `u` bits that a list of numbers marks. -/
theorem testBit_foldl_runs (p : Nat → Bool) {u : Nat} (hu : 0 < u) (n i : Nat) :
    ((List.range n).foldl (fun m e => if p e = true then m ||| ((2 ^ u - 1) <<< (u * e)) else m) 0).testBit i =
      (decide (i / u < n) && p (i / u)) := by
  induction n with
  | zero => simp
  | succ n ih =>
    rw [List.range_succ, List.foldl_append, List.foldl_cons, List.foldl_nil]
    by_cases hi : i / u = n
    · subst hi
      cases hp : p (i / u) <;> simp [ih, testBit_run_mul hu, hp]
    · have hlt : i / u < n + 1 ↔ i / u < n := by omega
      cases hp : p n <;> simp [ih, testBit_run_mul hu, hi, hlt]

section
variable {s : State} {c : CoreId} {e : Entry} {kd : BitVec 3}

theorem runBool_run (ka kb : BitVec 3) (f : BitVec 4) : runBool (vxOf c e []) kd ka kb f s =
    .ok () (updCore s c fun k => setK k kd (maskTable f (getK (getCore s c) ka) (getK (getCore s c) kb))) :=
  congrArg (EStateM.Result.ok ()) (updCore_congr rfl)

theorem runKset_run (rs1 : BitVec 5) : runKset (vxOf c e []) kd rs1 s = .ok () (updCore s c fun k => setK k kd (envS e.env rs1)) := rfl

/-- Whether a compare's mask holds an element: it is covered and active, and compares true (R137). -/
def cmpHolds (k : Core) (v : Env) (o : CmpOp) (f : Fmt) (a b : BitVec 6) (i : Nat) : Bool :=
  let el (r : BitVec 6) : Nat := elemOf (getRow k r).row.bits.toNat (fmtWidth f) i
  covered v.vl.toNat (fmtWidth f) i && active (getK k v.ksel).toNat (fmtWidth f) i && o.holds f (el a) (el b)

/-- What a compare of clean rows gives an element that is covered and active. -/
def cmpElem (k : Core) (v : Env) (o : CmpOp) (f : Fmt) (a b : BitVec 6) (i : Nat) : Option Res :=
  let el (r : BitVec 6) : Nat := elemOf (getRow k r).row.bits.toNat (fmtWidth f) i
  if covered v.vl.toNat (fmtWidth f) i && active (getK k v.ksel).toNat (fmtWidth f) i then
    some { val := if o.holds f (el a) (el b) then 1 else 0, bad := false }
  else none

theorem cmpElem_clean {k : Core} {v : Env} {o : CmpOp} {f : Fmt} {a b : BitVec 6} (i : Nat) (r : Res)
    (h : cmpElem k v o f a b i = some r) : r.bad = false := by
  rw [cmpElem] at h
  split at h <;> cases h
  rfl

/-- Whether what a compare gives an element is a clean 1. -/
def isTrue (r : Option Res) : Bool := match r with | some r => !r.bad && r.val == 1 | none => false

theorem isTrue_cmpElem (k : Core) (v : Env) (o : CmpOp) (f : Fmt) (a b : BitVec 6) (i : Nat) :
    isTrue (cmpElem k v o f a b i) = cmpHolds k v o f a b i := by
  rw [cmpElem, cmpHolds]
  cases covered v.vl.toNat (fmtWidth f) i && active (getK k v.ksel).toNat (fmtWidth f) i with
  | false => rfl
  | true => cases o.holds f _ _ <;> rfl

/-- The mask that a compare of clean rows leaves (R137). -/
def cmpMask (k : Core) (v : Env) (o : CmpOp) (f : Fmt) (a b : BitVec 6) : DWord :=
  let w := fmtWidth f
  BitVec.ofNat 64 ((List.range (elemCount w)).foldl (fun m i =>
    if cmpHolds k v o f a b i = true then m ||| ((2 ^ (w / 32) - 1) <<< cell0 w i) else m) 0)

theorem tagScaled_of_lt {t : HWord} (h : t.toNat < 16) : tagScaled t = false := by
  rw [tagScaled, bitAt]
  exact Nat.testBit_lt_two_pow h

theorem runCmp_run {o : CmpOp} {a b : BitVec 6} {t : HWord} (hagree : e.env.prot = 0 ∨ (getCore s c).laneErrors = [])
    (ha : CleanRow (getCore s c) a) (hb : CleanRow (getCore s c) b) (hlt : t.toNat < 16) (ht : t ≠ 0)
    (hta : (getRow (getCore s c) a).row.tag = t) (htb : (getRow (getCore s c) b).row.tag = t) (hacc : o.accepts (tagFmt t) = true) :
    runCmp (vxOf c e []) o kd (.row a) (.row b) s =
      .ok () (updCore s c fun k => setK k kd (cmpMask (getCore s c) e.env o (tagFmt t) a b)) := by
  have hmask : (vxOf c e []).mask s = .ok (getK (getCore s c) e.env.ksel).toNat s := rfl
  have htagA : sourceTag (getCore s c) (vxOf c e []).vl none (.row a) s = .ok (some t) s := congrArg (fun u => EStateM.Result.ok (some u) s) hta
  have htagB : sourceTag (getCore s c) (vxOf c e []).vl none (.row b) s = .ok (some t) s := congrArg (fun u => EStateM.Result.ok (some u) s) htb
  have htag : operatingTag (getCore s c) (some t) (some t) (.sreg 0) s = .ok t s := operatingTag_rows ht true
  have hformat : formatUnless (o.accepts (tagFmt t) && !tagScaled t) s = .ok () s := formatUnless_ok (by simp [hacc, tagScaled_of_lt hlt])
  rw [runCmp, M.theCore_bind]
  simp only [poppedOf, Opd.isPop, Bool.false_eq_true, if_false, vxOf_c]
  rw [M.bind_ok htagA, M.bind_ok htagB, M.bind_ok htag]
  simp only [M.bind_ok hformat, M.bind_ok (ensure_row [] ha.resident), M.bind_ok (ensure_row [] hb.resident), M.theCore_bind, M.bind_ok hmask]
  rw [M.bind_ok (protect_agree [] hagree _ _)]
  simp only [elemPsn_source ha, elemPsn_source hb, Bool.or_self, Bool.not_false, Bool.true_and]
  change (modCore c (fun k => setK k kd (BitVec.ofNat 64 ((List.range _).foldl (fun m i =>
      if isTrue (cmpElem (getCore s c) e.env o (tagFmt t) a b i) = true then _ else m) 0))) >>= fun _ =>
    notePoison c e.ipc (poisonMask _ _ (cmpElem (getCore s c) e.env o (tagFmt t) a b))) s = _
  rw [poisonMask_clean cmpElem_clean]
  simp only [isTrue_cmpElem]
  rfl

end

/-- The formats that a compare accepts are of whole cells. -/
theorem width_of_accepts {o : CmpOp} {f : Fmt} (h : o.accepts f = true) : fmtWidth f = 32 ∨ fmtWidth f = 64 := by
  cases f with
  | fp64 => exact .inr rfl
  | fp32 | int32 | idx32 | b32 => exact .inl rfl
  | _ => cases h

/-- Each bit of a compare's mask is that of the element whose cell it governs (R96, R137). -/
theorem testBit_cmpMask (k : Core) (v : Env) (o : CmpOp) {f : Fmt} (a b : BitVec 6) (hw : fmtWidth f = 32 ∨ fmtWidth f = 64) {i : Nat}
    (hi : i < 64) : (cmpMask k v o f a b).toNat.testBit i = cmpHolds k v o f a b (32 * i / fmtWidth f) := by
  have hcell (n : Nat) : cell0 (fmtWidth f) n = fmtWidth f / 32 * n := by
    rw [cell0]
    rcases hw with hw | hw <;> rw [hw] <;> omega
  have hcount : i / (fmtWidth f / 32) = 32 * i / fmtWidth f ∧ 32 * i / fmtWidth f < elemCount (fmtWidth f) := by
    rcases hw with hw | hw
    · rw [hw, show elemCount 32 = 64 from rfl]; omega
    · rw [hw, show elemCount 64 = 32 from rfl]; omega
  have hrun : 0 < fmtWidth f / 32 := by rcases hw with hw | hw <;> rw [hw] <;> decide
  simp only [cmpMask, BitVec.toNat_ofNat, Nat.testBit_mod_two_pow, hi, decide_true, Bool.true_and, hcell]
  rw [testBit_foldl_runs _ hrun, hcount.1, decide_eq_true hcount.2, Bool.true_and]

theorem cmpMask_atVectorHead (k : Core) (i : Instr) (v : Env) (o : CmpOp) (f : Fmt) (a b : BitVec 6) :
    cmpMask (atVectorHead k i 4) v o f a b = cmpMask k v o f a b := by
  have hholds : cmpHolds (atVectorHead k i 4) v o f a b = cmpHolds k v o f a b := by
    funext j
    simp only [cmpHolds, getK_atVectorHead, getRow_atVectorHead]
  rw [cmpMask, hholds, cmpMask]

/-- What the compares of rows have in common: each is posted whole, accesses no memory, and runs its comparison. -/
structure CmpForm (kd : BitVec 3) (a b : BitVec 6) (i : Instr) (o : CmpOp) : Prop where
  whole : PostedWhole i
  body : ∀ c e s, e.instr = i → e.popped = [] → vecBody c e s = runCmp (vxOf c e []) o kd (.row a) (.row b) s

theorem cmpForm {kd : BitVec 3} (hkd : kd ≠ 0) {a b : BitVec 6} {p : Instr × CmpOp}
    (hp : p ∈ [(Instr.vceq kd (.row a) (.row b), CmpOp.ceq), (.vcne kd (.row a) (.row b), .cne), (.vclt kd (.row a) (.row b), .clt),
      (.vcle kd (.row a) (.row b), .cle)]) : CmpForm kd a b p.1 p.2 := by
  fin_cases hp <;> exact ⟨⟨rfl, rfl, by simpa [Instr.wellFormed, Opd.isSource] using hkd, fun k e head h => by rw [ownSpans, h]⟩,
    fun c e s h hpop => by cases e; cases h; cases hpop; rfl⟩

theorem masksMade : Parts.MasksMade := by
  intro s kd ka kb f rs1 a b t k makes hk hp hkd
  have hcore (i : Instr) : getCore (updCore s s.cur fun k => atVectorHead k i 4) s.cur = atVectorHead k i 4 := getCore_updCore_self ..
  have hmakes {i : Instr} {v : DWord} {g : Nat → Bool} (hi : PostedWhole i) (hg : ∀ j < 64, v.toNat.testBit j = g j)
      (hb : vecBody s.cur (postedEntry k i) (updCore s s.cur fun k => atVectorHead k i 4) =
        .ok () (updCore (updCore s s.cur fun k => atVectorHead k i 4) s.cur fun k => setK k kd v)) : makes i g := by
    rw [updCore_updCore] at hb
    obtain ⟨u, hexec, hu⟩ := hi.exec_mask hk hp hkd hb
    refine ⟨u, hexec, hu.only, hu.frame, hu.rows, hu.pc, hu.others, ?_⟩
    rw [hu.mask]
    exact hg
  refine ⟨?kbool, ?kset, fun ha hb hlt ht hta htb p hmem hacc => ?cmp⟩
  case kbool =>
    have hrun := runBool_run (s := updCore s s.cur fun k => atVectorHead k (.kbool kd ka kb f) 4) (c := s.cur)
      (e := postedEntry k (.kbool kd ka kb f)) (kd := kd) ka kb f
    rw [hcore, getK_atVectorHead, getK_atVectorHead] at hrun
    exact hmakes (postedWhole_kbool hkd ka kb f) (fun j hj => testBit_maskTable f _ _ hj) hrun
  case kset =>
    have henv : envS (postedEntry k (.kset kd rs1)).env rs1 = getS k rs1 := rfl
    exact hmakes (postedWhole_kset hkd rs1) (fun j _ => by rw [henv]) (runKset_run rs1)
  case cmp =>
    obtain ⟨hwhole, hbody⟩ := cmpForm hkd hmem
    have hrun := runCmp_run (s := updCore s s.cur fun k => atVectorHead k p.1 4) (c := s.cur) (e := postedEntry k p.1) (kd := kd)
      (by rw [hcore]; simpa [atVectorHead, postsVector, postedEntry] using hk.agree)
      (by rw [hcore]; exact cleanRow_atVectorHead ha p.1 4) (by rw [hcore]; exact cleanRow_atVectorHead hb p.1 4) hlt ht
      (by rw [hcore, getRow_atVectorHead]; exact hta) (by rw [hcore, getRow_atVectorHead]; exact htb) hacc
    rw [← hbody _ _ _ rfl rfl, hcore, cmpMask_atVectorHead] at hrun
    exact hmakes hwhole (fun j hj => testBit_cmpMask k _ _ a b (width_of_accepts hacc) hj) hrun

end Sys2Proof.Machine

/-! ## The own scratchpad window, and loads of rows (R191, R220) -/

namespace Sys2Proof.Machine

/-! ### The own scratchpad window (R191) -/

theorem toNat_ownAddr {off : Nat} (h : off < 2 ^ 42) : (ownAddr off).toNat = 0xFFFE * 2 ^ 48 + 63 * 2 ^ 42 + off := by
  rw [ownAddr, BitVec.toNat_ofNat, Nat.mod_eq_of_lt (by omega)]

/-- The parts of an address of the own window: the window, the field of the own core, and the offset. -/
theorem slice_ownAddr {off : Nat} (h : off < 2 ^ 42) :
    slice (ownAddr off) 48 16 = (0xFFFE : HWord) ∧ (slice (ownAddr off) 42 6).toNat = 63 ∧ (slice (ownAddr off) 0 42).toNat = off := by
  refine ⟨BitVec.eq_of_toNat_eq ?_, ?_, ?_⟩
  · rw [toNat_slice, toNat_ownAddr h]
    show _ = 65534
    omega
  · rw [toNat_slice, toNat_ownAddr h]; omega
  · rw [toNat_slice, toNat_ownAddr h]; omega

theorem ownAddr_add (off b : Nat) : ownAddr off + BitVec.ofNat 64 b = ownAddr (off + b) := by
  rw [ownAddr, ownAddr, ← BitVec.ofNat_add, Nat.add_assoc]

theorem ownAddr_sub {off b : Nat} (h : b ≤ off) : ownAddr off - BitVec.ofNat 64 b = ownAddr (off - b) := by
  rw [BitVec.sub_eq_iff_eq_add, ownAddr_add, Nat.sub_add_cancel h]

/-- The way of a core to itself stays on its die (R3). -/
theorem dies_self (c : CoreId) : ∀ d ∈ dieOf c :: wayDies c c, d = dieOf c := by
  intro d hd
  simp only [wayDies, List.mem_cons, List.mem_append, List.mem_map, List.mem_filter, List.mem_range, Bool.and_eq_true, decide_eq_true_eq,
    min_self, max_self] at hd
  rcases hd with hd | ⟨x, ⟨-, hlo, hhi⟩, hd⟩ | ⟨y, ⟨-, hlo, hhi⟩, hd⟩
  · exact hd
  · rw [← hd, dieOf, Nat.le_antisymm hlo hhi]
  · rw [← hd, dieOf, Nat.le_antisymm hlo hhi]

/-- A core that is alive reaches itself (R374, R375). -/
theorem reachCore_self {s : State} {c : CoreId} (h : Alive s c) (va : DWord) : reachCore c c va s = .ok () s := by
  have hway : lostWay s c c = none := List.find?_eq_none.2 fun d hd => by
    rw [dies_self c d hd, h.dieUp]
    exact Bool.false_ne_true
  rw [reachCore, M.get_bind, hway]
  exact congrFun (if_neg (by rw [h.notFenced]; exact Bool.false_ne_true)) s

/-- Where bytes of the own window stand. -/
def ownLoc (c : CoreId) (off : Nat) : Loc := .sram c off 0 none

theorem translate_own {s : State} {c : CoreId} {off n : Nat} {acc : Access} (h : Alive s c) (hacc : acc ≠ .fetch)
    (hfit : off + n ≤ scratchSize (getCore s c)) : translate c (ownAddr off) n acc s = .ok (ownLoc c off) s := by
  obtain ⟨hwin, hfield, hlow⟩ := slice_ownAddr (off := off) (Nat.lt_of_le_of_lt (by omega) (scratchSize_lt (getCore s c)))
  have hscratch : checkScratch c c off n (ownAddr off) s = .ok () s := by
    rw [checkScratch, M.bind_ok (reachCore_self h _), M.theCore_bind, M.theCore_bind, decide_eq_true hfit, beq_self_eq_true]
    rfl
  rw [translate, M.theCore_bind, if_pos hwin, hfield, hlow, bne_iff_ne.2 hacc]
  exact (M.bind_ok hscratch).trans rfl

/-! ### Bytes of the store -/

/-- What a byte reads as is decided by the cells at its address. -/
theorem memByte_eq_of_filter {m m' : List Host.Cell} {x : Nat}
    (h : m.filter (fun p => decide (x ≤ p.1 ∧ p.1 < x + 1)) = m'.filter (fun p => decide (x ≤ p.1 ∧ p.1 < x + 1))) : memByte m x = memByte m' x := by
  have hload (m : List Host.Cell) : memLoad m x 1 =
      (m.filter fun p => decide (x ≤ p.1 ∧ p.1 < x + 1)).foldl (fun acc p => acc ||| (p.2.toNat <<< (8 * (p.1 - x)))) 0 := by
    rw [List.foldl_filter, memLoad]
    simp only [decide_eq_true_eq]
  rw [memByte, memByte, hload, hload, h]

/-- A store changes exactly its bytes, in any list of cells. -/
theorem memByte_memStore_any (m : List Host.Cell) (a n v x : Nat) :
    memByte (memStore m a n v) x = if a ≤ x ∧ x < a + n then BitVec.ofNat 8 (v / 256 ^ (x - a)) else memByte m x := by
  have hcells : ∀ p ∈ cellsOf a n v, a ≤ p.1 ∧ p.1 < a + n := fun p hp => ⟨(mem_cellsOf hp).1, (mem_cellsOf hp).2.1⟩
  by_cases hx : a ≤ x ∧ x < a + n
  · have hsame : memByte (memStore m a n v) x = memByte (memStore [] a n v) x := memByte_eq_of_filter (by
      have hlow : m.filter (fun p => decide (x ≤ p.1 ∧ p.1 < x + 1) && decide (p.1 < a)) = [] :=
        List.filter_eq_nil_iff.2 fun p _ => by simp; omega
      have hhigh : m.filter (fun p => decide (x ≤ p.1 ∧ p.1 < x + 1) && decide (a + n ≤ p.1)) = [] :=
        List.filter_eq_nil_iff.2 fun p _ => by simp; omega
      simp only [memStore, List.filter_append, List.filter_filter, List.filter_nil, hlow, hhigh])
    rw [hsame, memByte_memStore Memory.wf_nil]
    exact (if_pos hx).trans (if_pos hx).symm
  · rw [if_neg hx]
    refine memByte_eq_of_filter ?_
    have hcells : (cellsOf a n v).filter (fun p => decide (x ≤ p.1 ∧ p.1 < x + 1)) = [] :=
      List.filter_eq_nil_iff.2 fun p hp => by
        have := mem_cellsOf hp
        simp; omega
    rw [memStore, List.filter_append, List.filter_append, hcells, List.append_nil, List.filter_filter, List.filter_filter]
    rcases Nat.lt_or_ge x a with hlt | hge
    · have hall : m.filter (fun p => decide (x ≤ p.1 ∧ p.1 < x + 1) && decide (p.1 < a)) = m.filter fun p => decide (x ≤ p.1 ∧ p.1 < x + 1) :=
        List.filter_congr fun p _ => by rw [Bool.eq_iff_iff]; simp; omega
      have hnone : m.filter (fun p => decide (x ≤ p.1 ∧ p.1 < x + 1) && decide (a + n ≤ p.1)) = [] :=
        List.filter_eq_nil_iff.2 fun p _ => by simp; omega
      rw [hall, hnone, List.append_nil]
    · have hall : m.filter (fun p => decide (x ≤ p.1 ∧ p.1 < x + 1) && decide (a + n ≤ p.1)) = m.filter fun p => decide (x ≤ p.1 ∧ p.1 < x + 1) :=
        List.filter_congr fun p _ => by rw [Bool.eq_iff_iff]; simp; omega
      have hnone : m.filter (fun p => decide (x ≤ p.1 ∧ p.1 < x + 1) && decide (p.1 < a)) = [] :=
        List.filter_eq_nil_iff.2 fun p _ => by simp; omega
      rw [hall, hnone, List.nil_append]

/-! ### Elements of a unit-stride access in the own window (R220) -/

/-- The numbers of bytes that an element of a format of whole bytes may have. -/
def ElemBytes (n : Nat) : Prop := n = 1 ∨ n = 2 ∨ n = 4 ∨ n = 8

theorem ElemBytes.pos {n : Nat} (h : ElemBytes n) : 0 < n := by
  rcases h with h | h | h | h <;> omega

theorem elemBytes_of_width {f : Fmt} (hf : f ≠ .none) (h8 : 8 ≤ fmtWidth f) : fmtWidth f = 8 * (fmtWidth f / 8) ∧ ElemBytes (fmtWidth f / 8) := by
  rw [ElemBytes]
  revert hf h8
  cases f <;> decide

/-- An element of `n` bytes of the own window. -/
def ownElem (off n i : Nat) : Elem := { e := i, va := ownAddr (off + n * i), sh := 0, n := n }

theorem unitElem_own (off : Nat) {n : Nat} (hn : ElemBytes n) : unitElem (ownAddr off) (8 * n) 0 = ownElem off n := by
  funext i
  have := hn.pos
  rw [unitElem, if_pos (by omega), ownAddr_add, Nat.mul_div_cancel_left n (by decide), ownElem]

/-- A range of the own window in which elements of `n` bytes lie: aligned, in the partition, of a core that is reachable (R191, R216). -/
structure OwnElems (s : State) (c : CoreId) (off n len : Nat) : Prop where
  alive : Alive s c
  bytes : ElemBytes n
  aligned : off % n = 0
  fits : off + len ≤ scratchSize (getCore s c)

section
variable {s : State} {c : CoreId} {off n len : Nat} (h : OwnElems s c off n len)
include h

theorem OwnElems.translate {b m : Nat} {acc : Access} (hacc : acc ≠ .fetch) (hb : b + m ≤ off + len) :
    translate c (ownAddr b) m acc s = .ok (ownLoc c b) s := translate_own h.alive hacc (Nat.le_trans hb h.fits)

theorem OwnElems.address_aligned {i : Nat} (hi : n * i + n ≤ len) : (ownAddr (off + n * i)).toNat % n = 0 := by
  have hlt : off + n * i < 2 ^ 42 := Nat.lt_of_le_of_lt (Nat.le_trans (by omega) h.fits) (scratchSize_lt (getCore s c))
  rw [toNat_ownAddr hlt]
  have hal := h.aligned
  rcases h.bytes with rfl | rfl | rfl | rfl <;> omega

end

theorem collect_ok {α β : Type} {l : List α} {f : α → M β} {g : α → β} {s : State} (h : ∀ a ∈ l, f a s = .ok (g a) s) :
    collect l f s = .ok (l.map g) s := by
  induction l with
  | nil => rfl
  | cons a r ih =>
    rw [collect, M.bind_ok (h a (by simp)), M.bind_ok (ih fun b hb => h b (by simp [hb]))]
    rfl

/-- What an attempt answers that meets no fault. -/
theorem M.tryCatch_ok {α : Type} {m : M α} {f : Stop → M α} {s s' : State} {a : α} (h : m s = .ok a s') : tryCatch m f s = .ok a s' := by
  change EStateM.tryCatch m f s = _
  rw [EStateM.tryCatch]
  simp only [h]

/-- The elements that an access to rows moves are covered (R220). -/
theorem bytes_of_mem_movedElems {c : CoreId} {e : Entry} {mask n i : Nat} (h : i ∈ movedElems (vxOf c e []) mask (8 * n)) :
    n * i + n ≤ 4 * e.env.vl.toNat := by
  obtain ⟨hcov, -⟩ := Bool.and_eq_true_iff.1 (List.mem_filter.1 h).2
  have hcov : 8 * n * (i + 1) ≤ 32 * e.env.vl.toNat := of_decide_eq_true hcov
  rw [Nat.mul_assoc, Nat.mul_succ] at hcov
  omega

section
variable {s : State} {c : CoreId} {off n len : Nat} {l : List Nat} (h : OwnElems s c off n len) (hl : ∀ i ∈ l, n * i + n ≤ len)
include h hl

/-- Elements of the own window pass the checks of R216 and R225. -/
theorem checkElems_own {e : Entry} {acc : Access} (hacc : acc ≠ .fetch) :
    checkElems (vxOf c e []) acc (8 * n) (l.map (ownElem off n)) s = .ok () s := by
  have hn := h.bytes.pos
  have hmis : (l.map (ownElem off n)).find? (fun a => 8 ≤ 8 * n && a.va.toNat % a.n != 0) = none := by
    refine List.find?_eq_none.2 fun a ha => ?_
    obtain ⟨i, hi, rfl⟩ := List.mem_map.1 ha
    simp [ownElem, h.address_aligned (hl i hi)]
  have hprobe : ∀ a ∈ l.map (ownElem off n), collect (a.parts (8 * n)) (fun p => do
      return ((← probePage (vxOf c e []) acc p.1 p.2).map fun page => (a.va, page)).toList) s = .ok [[]] s := by
    intro a ha
    obtain ⟨i, hi, rfl⟩ := List.mem_map.1 ha
    have htr : translate c (ownAddr (off + n * i)) n acc s = .ok (ownLoc c (off + n * i)) s := h.translate hacc (by have := hl i hi; omega)
    have hpage : probePage (vxOf c e []) acc (ownAddr (off + n * i)) n s = .ok none s := M.tryCatch_ok (M.bind_ok htr)
    have hparts : (ownElem off n i).parts (8 * n) = [(ownAddr (off + n * i), n)] := if_neg (by omega)
    rw [hparts]
    refine collect_ok (g := fun _ => ([] : List (DWord × DWord))) fun p hp => ?_
    cases List.mem_singleton.1 hp
    exact M.bind_ok hpage
  have hmissing : missingPages (vxOf c e []) acc (8 * n) (l.map (ownElem off n)) s = .ok [] s := by
    rw [missingPages, M.bind_ok (collect_ok hprobe)]
    exact congrArg (fun m : List (DWord × DWord) => EStateM.Result.ok m s) (by simp)
  rw [checkElems, hmis]
  exact M.bind_ok hmissing

end

/-! ### A load of a row (R220) -/

/-- An element of clean bytes of the own window is what its bytes read as. -/
theorem readElem_own {s : State} {c : CoreId} {off n len i : Nat} (h : OwnElems s c off n len) (hclean : CleanAt s (sramKey c off) len)
    (hi : n * i + n ≤ len) :
    readElem c (8 * n) (ownElem off n i) s = .ok { val := bytesAt s (sramKey c off + n * i) n % 2 ^ (8 * n), bad := false } s := by
  have hn := h.bytes.pos
  have hparts : (ownElem off n i).parts (8 * n) = [(ownAddr (off + n * i), n)] := if_neg (by omega)
  have hkey : sramKey c (off + n * i) = sramKey c off + n * i := sramKey_add ..
  have htr : translate c (ownAddr (off + n * i)) n .read s = .ok (ownLoc c (off + n * i)) s := h.translate (by decide) (by omega)
  have hread : readAt c (ownLoc c (off + n * i)) n (ownAddr (off + n * i)) s = .ok (bytesAt s (sramKey c off + n * i) n, false) s := by
    have hfield : storeField s (sramKey c (off + n * i)) n = (bytesAt s (sramKey c off + n * i) n, false) := by
      rw [hkey, bytesAt_eq_memLoad]
      exact storeField_clean (cleanAt_part hclean (by omega) (by omega))
    change (if c = c then _ else _ : M (Nat × Bool)) s = _
    exact (congrFun (if_pos rfl) s).trans (congrArg (EStateM.Result.ok · s) hfield)
  have hall : readParts c [(ownAddr (off + n * i), n)] s = .ok (bytesAt s (sramKey c off + n * i) n, false) s := by
    rw [readParts, M.bind_ok htr, M.bind_ok hread]
    exact congrArg (fun v => EStateM.Result.ok (v, false) s) (by rw [Nat.zero_mul, Nat.add_zero])
  rw [readElem, hparts, M.bind_ok hall]
  rfl


/-- What a load gives an element: its bytes, where it is covered and active (R220). -/
def loadElem (s : State) (k : Core) (v : Env) (a n i : Nat) : Option Res :=
  if covered v.vl.toNat (8 * n) i && active (getK k v.ksel).toNat (8 * n) i then
    some { val := bytesAt s (a + n * i) n % 2 ^ (8 * n), bad := false }
  else none

theorem loadElem_clean {s : State} {k : Core} {v : Env} {a n : Nat} (i : Nat) (r : Res) (h : loadElem s k v a n i = some r) : r.bad = false := by
  rw [loadElem] at h
  split at h <;> cases h
  rfl

theorem resFor_map (l : List Nat) (g : Nat → Res) (i : Nat) : resFor (l.map fun j => (j, g j)) i = if i ∈ l then some (g i) else none := by
  induction l with
  | nil => rfl
  | cons j r ih =>
    rw [List.map_cons, resFor]
    by_cases h : j = i
    · simp [h]
    · simp [h, Ne.symm h, ih]

/-- Only elements of a row are active, whatever VL is (R77). -/
theorem lt_elemCount_of_active {m : DWord} {n i : Nat} (hn : ElemBytes n) (h : active m.toNat (8 * n) i = true) : i < elemCount (8 * n) := by
  have hcell : 8 * n * i / 32 < 64 := by
    by_contra hge
    rw [active, cell0, Nat.testBit_lt_two_pow (Nat.lt_of_lt_of_le m.isLt (Nat.pow_le_pow_right (by decide) (Nat.le_of_not_lt hge)))] at h
    exact Bool.false_ne_true h
  have := hn.pos
  rw [elemCount, if_neg (by omega)]
  rcases hn with rfl | rfl | rfl | rfl <;> omega

/-- A load writes to each element what it has read for it. -/
theorem resFor_movedElems (s : State) (c : CoreId) (e : Entry) (a : Nat) {n : Nat} (hn : ElemBytes n) :
    resFor ((movedElems (vxOf c e []) (getK (getCore s c) e.env.ksel).toNat (8 * n)).map fun i =>
      (i, ({ val := bytesAt s (a + n * i) n % 2 ^ (8 * n), bad := false } : Res))) = loadElem s (getCore s c) e.env a n := by
  funext i
  have hmem : i ∈ movedElems (vxOf c e []) (getK (getCore s c) e.env.ksel).toNat (8 * n) ↔
      (covered e.env.vl.toNat (8 * n) i && active (getK (getCore s c) e.env.ksel).toNat (8 * n) i) = true := by
    rw [movedElems, List.mem_filter, List.mem_range, vxOf_vl, and_iff_right_iff_imp, Bool.and_eq_true]
    exact fun h => lt_elemCount_of_active hn h.2
  rw [resFor_map, loadElem]
  exact if_congr hmem rfl rfl

theorem tagFmt_plainTag (f : Fmt) : tagFmt (plainTag f) = f := by cases f <;> rfl

/-- The end of an instruction whose elements are all clean writes its row alone (R94, R129). -/
theorem commitResult_writes {s : State} {c : CoreId} {e : Entry} {d : BitVec 6} {t : HWord} {g : Nat → Option Res}
    (hg : ∀ i r, g i = some r → r.bad = false) (hd : (getRow (getCore s c) d).row.psn = 0) :
    commitResult (vxOf c e []) (.row d) t g s = .ok () (updCore s c fun k => setRow k d (rowWith (getCore s c) d t g)) := by
  have hpsn : putPsn (fmtWidth (tagFmt t)) (elemCount (fmtWidth (tagFmt t))) (getRow (getCore s c) d).row.psn.toNat g = 0 := by
    rw [hd]
    exact putPsn_clean hg _ _
  have hwrite : writeDest (vxOf c e []) (.row d) t g s = .ok () (updCore s c fun k => setRow k d (rowWith (getCore s c) d t g)) :=
    congrArg (EStateM.Result.ok ()) (updCore_congr (congrArg (storeRow (getCore s c) d _ · t) hpsn))
  rw [commitResult, M.bind_ok hwrite, poisonMask_clean hg]
  rfl

section
variable {s : State} {c : CoreId} {e : Entry} {d : BitVec 6} {f : Fmt} {off n : Nat}

/-- A load of a row of the own window writes the row, and counts its groups, alone. -/
theorem runLoad_own (hr : RowReady (getCore s c) e d) (he : e.egdone = 0) (hf : f ≠ .none) (hw : fmtWidth f = 8 * n)
    (h : OwnElems s c off n (4 * e.env.vl.toNat)) (hclean : CleanAt s (sramKey c off) (4 * e.env.vl.toNat)) :
    ∃ ctrs, runLoad (vxOf c e []) f (.row d) (unitElem (ownAddr off) (fmtWidth f) 0) s = .ok () (updCore s c fun k =>
      countedRow k d (rowWith (getCore s c) d (plainTag f) (loadElem s (getCore s c) e.env (sramKey c off) n)) ctrs) := by
  have hmask : (vxOf c e []).mask s = .ok (getK (getCore s c) e.env.ksel).toNat s := rfl
  have hformat : checkLoad (vxOf c e []) f (.row d) s = .ok () s :=
    M.bind_ok (formatUnless_ok (by simpa [Opd.isLine] using hf))
  have hmoved := fun i => bytes_of_mem_movedElems (c := c) (e := e) (mask := (getK (getCore s c) e.env.ksel).toNat) (n := n) (i := i)
  rw [runLoad, M.bind_ok hformat]
  dsimp only
  rw [M.bind_ok hmask, hw, unitElem_own off h.bytes, M.bind_ok (checkElems_own h hmoved (by decide)), finishLoad]
  simp only [hw, groupDone_none c [] he]
  refine byGroups_writes hr (srcs := []) (by simp) (8 * n) ?_
  have hread : ∀ a ∈ (movedElems (vxOf c e []) (getK (getCore s c) e.env.ksel).toNat (8 * n)).map (ownElem off n), (do
      let r ← readElem (vxOf c e []).c (8 * n) a
      return (a.e, resOf f r.bad r.val)) s =
        .ok (a.e, { val := bytesAt s (sramKey c off + n * a.e) n % 2 ^ (8 * n), bad := false }) s := by
    intro a ha
    obtain ⟨i, hi, rfl⟩ := List.mem_map.1 ha
    exact M.bind_ok (readElem_own h hclean (hmoved i hi))
  simp only [Bool.not_false, Bool.and_self, List.filter_true]
  rw [M.bind_ok (collect_ok hread), List.map_map, ← commitResult_writes loadElem_clean hr.dest.clean, ← resFor_movedElems s c e _ h.bytes]
  simp only [List.map_nil, List.append_nil]
  rfl

end

/-! ### A vector access as it is posted (R109, R217, R230) -/

/-- The one entry of both queues waits for no entry and for no operation, where none waits (R217, R230). -/
theorem headMayRun_only {s : State} {c : CoreId} {e : Entry} (hv : (getCore s c).streams.vq = [e]) (hm : (getCore s c).streams.mq = [])
    (hd : (getCore s c).streams.deferred = []) : headMayRun s c e = true := by
  have hself : postedBefore e.seq e.seq = false := by simp [postedBefore]
  have hhoop : hoopStillRead (getCore s c) e = false := by
    rw [hoopStillRead, hv, List.any_cons, List.any_nil, hself]
    split <;> simp
  simp [headMayRun, conflicts, queued, hv, hm, hd, hself, hhoop]

/-- A core to whose idle streams a vector access to memory is posted. -/
structure AccessIdle (k : Core) : Prop where
  vector : VectorIdle k
  unpinned : Unpinned k
  matrix : k.streams.mq = []
  deferred : k.streams.deferred = []

/-- The state in which a vector instruction posted to an idle stream executes. -/
def headState (s : State) (i : Instr) : State := updCore s s.cur fun k => atVectorHead k i 4

section
variable {s : State} {i : Instr}

@[simp] theorem getCore_headState : getCore (headState s i) s.cur = atVectorHead (here s) i 4 := getCore_updCore_self ..

theorem headState_mayRun (hk : AccessIdle (here s)) :
    headMayRun (updCore s s.cur fun k => postsVector k (postedEntry k i) 4) s.cur (postedEntry (here s) i) = true :=
  headMayRun_only (by simp [postsVector, hk.vector.empty]) (by simp [postsVector, hk.matrix]) (by simp [postsVector, hk.deferred])

theorem scratchSize_atVectorHead (k : Core) (i : Instr) : scratchSize (atVectorHead k i 4) = scratchSize k := by
  simp [scratchSize, atVectorHead, postsVector, retire, retireTo_tregs]

theorem alive_headState (h : Alive s s.cur) : Alive (headState s i) s.cur := by
  refine ⟨?_, h.dieUp⟩
  rw [getCore_headState]
  simpa [atVectorHead, postsVector] using h.notFenced

theorem ownElems_headState {off n len : Nat} (h : OwnElems s s.cur off n len) : OwnElems (headState s i) s.cur off n len where
  alive := alive_headState h.alive
  bytes := h.bytes
  aligned := h.aligned
  fits := by
    rw [getCore_headState, scratchSize_atVectorHead]
    exact h.fits

end

/-- The address that an access names by a register and a scaled offset (R220). -/
theorem base_posted (k : Core) (i : Instr) (c : CoreId) (rs1 : BitVec 5) (off : BitVec 7) :
    (vxOf c (postedEntry k i) []).base rs1 + off8 off = getS k rs1 + BitVec.ofInt 64 (off.toInt * 8) := by
  have hbase : (vxOf c (postedEntry k i) []).base rs1 = getS k rs1 := BitVec.add_zero _
  have hoff : off8 off = BitVec.ofInt 64 (off.toInt * 8) := sext64_mul off 8
  rw [hbase, hoff]

theorem loadElem_headState (s : State) (i : Instr) (v : Env) (a n : Nat) :
    loadElem (headState s i) (atVectorHead (here s) i 4) v a n = loadElem s (here s) v a n := by
  funext j
  simp only [loadElem, getK_atVectorHead]
  rfl

/-- A unit-stride load of a row of the own window leaves the row, and counters, of the package that it changes (R220). -/
theorem exec_vld_row {s : State} {d : BitVec 6} {f : Fmt} {rs1 : BitVec 5} {off : BitVec 7} {o n : Nat} (hk : AccessIdle (here s))
    (hd : CleanRow (here s) d) (hf : f ≠ .none) (h6 : f ≠ .int6) (hw : fmtWidth f = 8 * n)
    (haddr : getS (here s) rs1 + BitVec.ofInt 64 (off.toInt * 8) = ownAddr o) (h : OwnElems s s.cur o n (4 * (here s).tregs.vl.toNat))
    (hclean : CleanAt s (sramKey s.cur o) (4 * (here s).tregs.vl.toNat)) :
    ∃ u, exec (.vld f (.row d) rs1 off) s = .next u ∧ WritesRow s u d (rowWith (here s) d (plainTag f)
      (loadElem s (here s) (postedEntry (here s) (.vld f (.row d) rs1 off)).env (sramKey s.cur o) n)) := by
  have hrun := runLoad_own (s := headState s (.vld f (.row d) rs1 off)) (c := s.cur) (e := postedEntry (here s) (.vld f (.row d) rs1 off))
    (by rw [getCore_headState]; exact rowReady_atVectorHead _ hk.vector hk.unpinned hd) rfl hf hw (ownElems_headState h) hclean
  rw [getCore_headState, rowWith_atVectorHead, loadElem_headState, ← haddr, ← base_posted _ (.vld f (.row d) rs1 off) s.cur] at hrun
  obtain ⟨ctrs, hrun⟩ := hrun
  simp only [headState, updCore_updCore] at hrun
  have hwf : Instr.wellFormed (.vld f (.row d) rs1 off) = true := by simp [Instr.wellFormed, Fmt.isLoadable, hf, h6]
  exact ⟨_, exec_vector_ok (i := .vld f (.row d) rs1 off) (f := fun k => countedRow k d _ ctrs) rfl hwf hk.vector (headState_mayRun hk) hrun
    (fun _ => rfl) fun _ => rfl, writesRow_countedRow s d _ ctrs⟩

end Sys2Proof.Machine

/-! ## Stores of rows, and the rows that memory moves (R220 to R222) -/

namespace Sys2Proof.Machine

/-! ### Bytes written to the own window (R191, R221) -/

/-- What writes of a posted access of a core leave: the bytes for which `on` holds have their value in `val`, the others are as they were,
and but for the record of what the access has written (R378) and the poison marks of the store nothing that these fields name has changed. -/
structure WritesBytes (c : CoreId) (val : Nat → Byte) (s t : State) (on : Nat → Bool) : Prop where
  cur : t.cur = s.cur
  hub : t.hub = s.hub
  l2 : t.l2 = s.l2
  others : ∀ d, d ≠ c → getCore t d = getCore s d
  core : ∃ ans, getCore t c = { getCore s c with answered := ans }
  bytes : ∀ x, memByte t.store.bytes x = if on x = true then val x else memByte s.store.bytes x

/-- A core whose posted access writes its own window: it reaches itself, its partition holds the window up to `lim`, nothing that
it writes is done already (R221, R378), and the region of the window is not watched (R295). -/
structure WindowReady (s : State) (c : CoreId) (lim : Nat) : Prop where
  fits : lim ≤ scratchSize (getCore s c)
  alive : Alive s c
  fresh : (getCore s c).replays.find (streamKey (getCore s c)) = none
  unwatched : ∀ r, s.hub.regs.regions.find 0 = some r → bitAt r 32 = false

section
variable {c : CoreId} {val : Nat → Byte} {s t u : State} {on on' : Nat → Bool}

theorem WritesBytes.refl (c : CoreId) (val : Nat → Byte) (s : State) : WritesBytes c val s s fun _ => false :=
  ⟨rfl, rfl, rfl, fun _ _ => rfl, ⟨_, rfl⟩, fun _ => rfl⟩

theorem WritesBytes.trans (h : WritesBytes c val s t on) (h' : WritesBytes c val t u on') : WritesBytes c val s u fun x => on x || on' x where
  cur := h'.cur.trans h.cur
  hub := h'.hub.trans h.hub
  l2 := h'.l2.trans h.l2
  others := fun d hd => (h'.others d hd).trans (h.others d hd)
  core := by
    obtain ⟨a, ha⟩ := h.core
    obtain ⟨b, hb⟩ := h'.core
    exact ⟨b, by rw [hb, ha]⟩
  bytes := fun x => by
    rw [h'.bytes, h.bytes]
    cases on x <;> cases on' x <;> rfl

theorem WritesBytes.congr (h : WritesBytes c val s t on) (hon : ∀ x, on x = on' x) : WritesBytes c val s t on' := by
  rwa [funext hon] at h

theorem WritesBytes.ready {lim : Nat} (h : WritesBytes c val s t on) (hr : WindowReady s c lim) : WindowReady t c lim := by
  obtain ⟨a, ha⟩ := h.core
  refine ⟨?_, ⟨?_, ?_⟩, ?_, ?_⟩
  · rw [ha]; exact hr.fits
  · rw [ha]; exact hr.alive.notFenced
  · rw [h.hub]; exact hr.alive.dieUp
  · rw [ha]; exact hr.fresh
  · rw [h.hub]; exact hr.unwatched

/-- Writes in turn, of which each leaves its bytes. -/
theorem eachOf_writes {α : Type} {f : α → M Unit} {lim : Nat} {on : α → Nat → Bool} {l : List α}
    (h : ∀ a ∈ l, ∀ s, WindowReady s c lim → ∃ t, f a s = .ok () t ∧ WritesBytes c val s t (on a)) {s : State} (hr : WindowReady s c lim) :
    ∃ t, eachOf l f s = .ok () t ∧ WritesBytes c val s t fun x => l.any fun a => on a x := by
  induction l generalizing s with
  | nil => exact ⟨s, rfl, .refl c val s⟩
  | cons a r ih =>
    obtain ⟨t, hrun, ht⟩ := h a (by simp) s hr
    obtain ⟨u, hrest, hu⟩ := ih (fun b hb => h b (by simp [hb])) (ht.ready hr)
    exact ⟨u, (M.bind_ok hrun).trans hrest, (ht.trans hu).congr fun x => by rw [List.any_cons]⟩

end

/-- A write to the own window region marks no region (R295). -/
theorem markWatched_unwatched {s : State} {c : CoreId} (h : ∀ r, s.hub.regs.regions.find 0 = some r → bitAt r 32 = false) :
    markWatched s c 0 = s := by
  rw [markWatched]
  cases hfind : s.hub.regs.regions.find (0 : Byte).toNat with
  | none => rfl
  | some r =>
    have hr := h r hfind
    simp [hr]

/-- A core with a part of what its stream does recorded as done. -/
def recordDone (k : Core) (n : Nat) (a : Answer) : Core := { k with answered := k.answered.put n (a :: (k.answered.find n).getD []) }

/-- Bytes written once at a place of the own window (R191, R221, R378). -/
theorem onceAt_write {c : CoreId} {val : Nat → Byte} {s : State} {b n v : Nat} {bad : Bool} {va : DWord} {lim : Nat} (h : WindowReady s c lim)
    (hval : ∀ i < n, BitVec.ofNat 8 (v / 256 ^ i) = val (sramKey c b + i)) :
    ∃ t, onceAt c (ownLoc c b).pa (writeAt c (ownLoc c b) n v bad va) s = .ok () t ∧
      WritesBytes c val s t fun x => decide (sramKey c b ≤ x ∧ x < sramKey c b + n) := by
  have hwrite : writeAt c (ownLoc c b) n v bad va s = .ok () (storePut s (sramKey c b) n v bad) := by
    change (if c = c then _ else _ : M Unit) s = _
    exact (congrFun (if_pos rfl) s).trans (congrArg (EStateM.Result.ok ()) (markWatched_unwatched h.unwatched))
  have hnone : takeAnswer (getCore s c) (streamKey (getCore s c)) (2 ^ 64 + (ownLoc c b).pa) = none := by
    rw [takeAnswer, h.fresh]
    rfl
  refine ⟨updCore (storePut s (sramKey c b) n v bad) c fun k =>
    recordDone k (streamKey (getCore s c)) { key := 2 ^ 64 + (ownLoc c b).pa, val := 0, bad := false }, ?_, ?_⟩
  · have honce : once c (2 ^ 64 + (ownLoc c b).pa) (do
        writeAt c (ownLoc c b) n v bad va
        return (0, false)) s = .ok (0, false) (updCore (storePut s (sramKey c b) n v bad) c fun k =>
          recordDone k (streamKey (getCore s c)) { key := 2 ^ 64 + (ownLoc c b).pa, val := 0, bad := false }) := by
      rw [once, M.theCore_bind]
      rw [hnone]
      exact M.bind_ok (M.bind_ok hwrite)
    exact M.bind_ok honce
  · refine ⟨rfl, rfl, rfl, fun d hd => getCore_updCore_other _ c d _ hd, ⟨_, getCore_updCore_self ..⟩, fun x => ?_⟩
    rw [updCore_store]
    refine (memByte_memStore_any _ _ _ _ x).trans ?_
    simp only [decide_eq_true_eq]
    by_cases hx : sramKey c b ≤ x ∧ x < sramKey c b + n
    · rw [if_pos hx, if_pos hx, hval _ (by omega), Nat.add_sub_cancel' hx.1]
    · rw [if_neg hx, if_neg hx]

/-! ### Words that a store lays its bits over (R221) -/

section
variable {α : Type}

/-- A table's keys rise. -/
def Rising (t : Tab α) : Prop := t.Pairwise fun p q => p.1 < q.1

theorem mem_of_mem_put {t : Tab α} {k : Nat} {a : α} {e : Nat × α} (h : e ∈ t.put k a) : e = (k, a) ∨ e ∈ t := by
  induction t with
  | nil => exact .inl (List.mem_singleton.1 h)
  | cons p r ih =>
    rw [Tab.put] at h
    split_ifs at h
    · exact List.mem_cons.1 h
    · exact (List.mem_cons.1 h).imp_right (List.mem_cons_of_mem _)
    · rcases List.mem_cons.1 h with h | h
      · exact .inr (h ▸ List.mem_cons_self)
      · exact (ih h).imp_right (List.mem_cons_of_mem _)

theorem rising_put {t : Tab α} (h : Rising t) (k : Nat) (a : α) : Rising (t.put k a) := by
  induction t with
  | nil => exact List.pairwise_singleton ..
  | cons p r ih =>
    obtain ⟨j, b⟩ := p
    obtain ⟨hlow, hr⟩ := List.pairwise_cons.1 h
    have hlow : ∀ q ∈ r, j < q.1 := hlow
    rw [Tab.put]
    split_ifs with hlt heq
    · refine List.pairwise_cons.2 ⟨fun q hq => ?_, h⟩
      rcases List.mem_cons.1 hq with rfl | hq
      · exact hlt
      · exact Nat.lt_trans hlt (hlow q hq)
    · subst heq
      exact List.pairwise_cons.2 ⟨hlow, hr⟩
    · refine List.pairwise_cons.2 ⟨fun q hq => ?_, ih hr⟩
      rcases mem_of_mem_put hq with rfl | hq
      · exact show j < k by omega
      · exact hlow q hq

theorem find_eq_some_iff {t : Tab α} (h : Rising t) {k : Nat} {a : α} : t.find k = some a ↔ (k, a) ∈ t := by
  induction t with
  | nil => simp
  | cons p r ih =>
    obtain ⟨j, b⟩ := p
    obtain ⟨hlow, hr⟩ := List.pairwise_cons.1 h
    have hlow : ∀ q ∈ r, j < q.1 := hlow
    rw [Tab.find]
    split_ifs with heq
    · subst heq
      have hnot : (j, a) ∉ r := fun hmem => Nat.lt_irrefl _ (hlow _ hmem)
      simp [hnot, eq_comm]
    · rw [ih hr]
      simp [Ne.symm heq]

end

/-- What a table of words holds for a word: no bits, where it lists none. -/
def wordOf (t : Tab WordBits) (q : Nat) : WordBits := (t.find q).getD { va := 0, mask := 0, val := 0, bad := false }

/-- A table of words of the own window that has the bytes for which `on` holds, each whole and with its value in `val`. -/
structure LaysBytes (c : CoreId) (val : Nat → Byte) (t : Tab WordBits) (on : Nat → Bool) : Prop where
  rising : Rising t
  address : ∀ q b, t.find q = some b → b.va = ownAddr (4 * q - sramKey c 0)
  mask : ∀ q j, (wordOf t q).mask.testBit j = (decide (j < 32) && on (4 * q + j / 8))
  value : ∀ q j, (wordOf t q).val.testBit j = (decide (j < 32) && on (4 * q + j / 8) && (val (4 * q + j / 8)).toNat.testBit (j % 8))

theorem LaysBytes.nil (c : CoreId) (val : Nat → Byte) : LaysBytes c val [] fun _ => false where
  rising := List.Pairwise.nil
  address := fun q b h => by cases h
  mask := fun q j => by simp [wordOf]
  value := fun q j => by simp [wordOf]

theorem wordOf_put (t : Tab WordBits) (k : Nat) (a : WordBits) (q : Nat) : wordOf (t.put k a) q = if q = k then a else wordOf t q := by
  rw [wordOf]
  by_cases h : q = k
  · rw [h, Tab.find_put_self, if_pos rfl]
    rfl
  · rw [Tab.find_put_other _ _ _ _ h, if_neg h]
    rfl

/-- Bits laid from a byte's first on. -/
theorem layBits_eq (t : Tab WordBits) (x : Nat) (va : DWord) (n v : Nat) (bad : Bool) : layBits t x va 0 n v bad = t.put (x / 4)
    { va := va - BitVec.ofNat 64 (x % 4), mask := (wordOf t (x / 4)).mask ||| (2 ^ n - 1) <<< (8 * (x % 4))
      val := ((wordOf t (x / 4)).val - ((wordOf t (x / 4)).val &&& (2 ^ n - 1) <<< (8 * (x % 4)))) + (v % 2 ^ n) <<< (8 * (x % 4))
      bad := (wordOf t (x / 4)).bad || bad } := rfl

/-- Bits laid over a number above all that it has. -/
theorem testBit_laid {old o : Nat} (h : old < 2 ^ o) (n v j : Nat) :
    ((old - (old &&& ((2 ^ n - 1) <<< o))) + (v % 2 ^ n) <<< o).testBit j =
      (old.testBit j || decide (o ≤ j ∧ j < o + n) && v.testBit (j - o)) := by
  have hdisjoint : old &&& ((2 ^ n - 1) <<< o) = 0 := Nat.eq_of_testBit_eq fun i => by
    rw [Nat.testBit_and, testBit_run, Nat.zero_testBit]
    by_cases hi : o ≤ i
    · rw [Nat.testBit_lt_two_pow (Nat.lt_of_lt_of_le h (Nat.pow_le_pow_right (by decide) hi)), Bool.false_and]
    · simp [hi]
  have hrange : (decide (j ≥ o) && decide (j - o < n)) = decide (o ≤ j ∧ j < o + n) := by
    rw [← Bool.decide_and]
    exact decide_eq_decide.2 (by omega)
  rw [hdisjoint, Nat.sub_zero, Nat.shiftLeft_eq, Nat.add_comm, Nat.mul_comm, Nat.two_pow_add_eq_or_of_lt h, Nat.testBit_or,
    Nat.testBit_two_pow_mul, Nat.testBit_mod_two_pow, Bool.or_comm, ← Bool.and_assoc, hrange]

/-- A place of the own window in the words of the store. -/
theorem sramKey_word (c : CoreId) (b : Nat) : 4 * (sramKey c b / 4) - sramKey c 0 = b - sramKey c b % 4 ∧ sramKey c b % 4 ≤ b := by
  rw [sramKey, sramKey]
  omega

section
variable {c : CoreId} {val : Nat → Byte} {t : Tab WordBits} {on : Nat → Bool}

/-- A word whose bytes all stand below a place has no bits from it on. -/
theorem LaysBytes.value_lt (h : LaysBytes c val t on) {x : Nat} (hlow : ∀ y, on y = true → y < x) :
    (wordOf t (x / 4)).val < 2 ^ (8 * (x % 4)) := by
  refine Nat.lt_pow_two_of_testBit _ fun j hj => ?_
  rw [h.value]
  cases hon : on (4 * (x / 4) + j / 8) with
  | false => simp
  | true =>
    have := hlow _ hon
    omega

/-- The bits of a word that whole bytes of it stand in. -/
theorem bits_of_bytes {x n : Nat} (hin : x % 4 + n ≤ 4) (j : Nat) : decide (8 * (x % 4) ≤ j ∧ j < 8 * (x % 4) + 8 * n) =
    (decide (j < 32) && decide (x ≤ 4 * (x / 4) + j / 8 ∧ 4 * (x / 4) + j / 8 < x + n)) := by
  rw [← Bool.decide_and]
  exact decide_eq_decide.2 (by omega)

/-- Bytes within a word are in no other word. -/
theorem not_in_other_word {x n q j : Nat} (hin : x % 4 + n ≤ 4) (hq : q ≠ x / 4) (hj : j < 32) :
    decide (x ≤ 4 * q + j / 8 ∧ 4 * q + j / 8 < x + n) = false := decide_eq_false (by omega)

/-- Whole bytes laid above those that a word has. -/
theorem LaysBytes.lay (h : LaysBytes c val t on) {b n v : Nat}
    (bad : Bool) (hin : sramKey c b % 4 + n ≤ 4) (hlow : ∀ x, on x = true → x < sramKey c b)
    (hv : ∀ j < 8 * n, v.testBit j = (val (sramKey c b + j / 8)).toNat.testBit (j % 8)) :
    LaysBytes c val (layBits t (sramKey c b) (ownAddr b) 0 (8 * n) v bad)
      fun x => on x || decide (sramKey c b ≤ x ∧ x < sramKey c b + n) where
  rising := rising_put h.rising _ _
  address := fun q w hw => by
    obtain ⟨hbase, hle⟩ := sramKey_word c b
    by_cases hq : q = sramKey c b / 4
    · subst hq
      cases (Tab.find_put_self ..).symm.trans hw
      rw [ownAddr_sub hle, hbase]
    · exact h.address q w ((Tab.find_put_other _ _ _ _ hq).symm.trans hw)
  mask := fun q j => by
    rw [layBits_eq, wordOf_put]
    by_cases hq : q = sramKey c b / 4
    · subst hq
      rw [if_pos rfl]
      rw [Nat.testBit_or, testBit_run, h.mask, bits_of_bytes hin, ← Bool.and_or_distrib_left]
    · rw [if_neg hq, h.mask]
      by_cases hj : j < 32
      · rw [not_in_other_word hin hq hj, Bool.or_false]
      · rw [decide_eq_false hj, Bool.false_and, Bool.false_and]
  value := fun q j => by
    rw [layBits_eq, wordOf_put]
    by_cases hq : q = sramKey c b / 4
    · subst hq
      rw [if_pos rfl]
      rw [testBit_laid (h.value_lt hlow), h.value, bits_of_bytes hin]
      by_cases hx : j < 32 ∧ sramKey c b ≤ 4 * (sramKey c b / 4) + j / 8 ∧ 4 * (sramKey c b / 4) + j / 8 < sramKey c b + n
      · have hbit : v.testBit (j - 8 * (sramKey c b % 4)) = (val (4 * (sramKey c b / 4) + j / 8)).toNat.testBit (j % 8) := by
          rw [hv _ (by omega), show sramKey c b + (j - 8 * (sramKey c b % 4)) / 8 = 4 * (sramKey c b / 4) + j / 8 by omega,
            show (j - 8 * (sramKey c b % 4)) % 8 = j % 8 by omega]
        obtain ⟨hj, hx⟩ := hx
        rw [hbit, decide_eq_true hj, decide_eq_true hx]
        cases on _ <;> cases (val _).toNat.testBit _ <;> rfl
      · have hout : (decide (j < 32) && decide (sramKey c b ≤ 4 * (sramKey c b / 4) + j / 8 ∧
            4 * (sramKey c b / 4) + j / 8 < sramKey c b + n)) = false := by rw [← Bool.decide_and]; exact decide_eq_false hx
        rw [hout, Bool.false_and, Bool.or_false, Bool.and_or_distrib_left, hout, Bool.or_false]
    · rw [if_neg hq, h.value]
      by_cases hj : j < 32
      · rw [not_in_other_word hin hq hj, Bool.or_false]
      · simp only [decide_eq_false hj, Bool.false_and]

end

/-! ### Words written by their runs of bytes (R222) -/

/-- The runs of a word's bytes for which a predicate holds: first byte and length. -/
def runsOf (p : Nat → Bool) : List (Nat × Nat) :=
  ((List.range 4).filter fun i => p i && !(0 < i && p (i - 1))).map fun i => (i, ((List.range (4 - i)).takeWhile fun j => p (i + j)).length)

theorem byteRuns_eq_runsOf (mask : Nat) : byteRuns mask = runsOf fun i => fieldOf mask (8 * i + 7) (8 * i) != 0 := rfl

/-- The bytes of a word, as a predicate. -/
def fourBytes (b : Bool × Bool × Bool × Bool) (i : Nat) : Bool := [b.1, b.2.1, b.2.2.1, b.2.2.2].getD i false

theorem takeWhile_congr {α : Type} {l : List α} {p q : α → Bool} (h : ∀ a ∈ l, p a = q a) : l.takeWhile p = l.takeWhile q := by
  induction l with
  | nil => rfl
  | cons a r ih => rw [List.takeWhile_cons, List.takeWhile_cons, h a (by simp), ih fun b hb => h b (by simp [hb])]

/-- The runs of a word look at its four bytes alone. -/
theorem runsOf_congr {p q : Nat → Bool} (h : ∀ i < 4, p i = q i) : runsOf p = runsOf q := by
  have hstart : (List.range 4).filter (fun i => p i && !(0 < i && p (i - 1))) = (List.range 4).filter fun i => q i && !(0 < i && q (i - 1)) :=
    List.filter_congr fun i hi => by
      have := List.mem_range.1 hi
      rw [h i this, h (i - 1) (by omega)]
  rw [runsOf, runsOf, hstart]
  refine List.map_congr_left fun i _ => ?_
  rw [takeWhile_congr (q := fun j => q (i + j)) fun j hj => h _ (by have := List.mem_range.1 hj; omega)]

/-- A run of a word: bytes of it one after another, for all of which a predicate holds. -/
structure IsRun (p : Nat → Bool) (r : Nat × Nat) : Prop where
  pos : 0 < r.2
  fits : r.1 + r.2 ≤ 4
  holds : ∀ i, r.1 ≤ i → i < r.1 + r.2 → p i = true

theorem runs_fourBytes : ∀ b : Bool × Bool × Bool × Bool,
    (∀ r ∈ runsOf (fourBytes b), 0 < r.2 ∧ r.1 + r.2 ≤ 4 ∧ ∀ i < 4, r.1 ≤ i → i < r.1 + r.2 → fourBytes b i = true) ∧
      ∀ i < 4, fourBytes b i = true → ∃ r ∈ runsOf (fourBytes b), r.1 ≤ i ∧ i < r.1 + r.2 := by decide

/-- The runs of a word hold bytes of it for which the predicate holds, and each of them is in one. -/
theorem runsOf_cover (p : Nat → Bool) :
    (∀ r ∈ runsOf p, IsRun p r) ∧ ∀ i < 4, p i = true → ∃ r ∈ runsOf p, r.1 ≤ i ∧ i < r.1 + r.2 := by
  have hfour : ∀ i < 4, fourBytes (p 0, p 1, p 2, p 3) i = p i := fun i hi => by
    obtain rfl | rfl | rfl | rfl : i = 0 ∨ i = 1 ∨ i = 2 ∨ i = 3 := by omega
    all_goals rfl
  obtain ⟨hruns, hcover⟩ := runs_fourBytes (p 0, p 1, p 2, p 3)
  rw [runsOf_congr hfour] at hruns hcover
  refine ⟨fun r hr => ?_, fun i hi hp => hcover i hi ((hfour i hi).trans hp)⟩
  obtain ⟨hpos, hfits, hholds⟩ := hruns r hr
  exact ⟨hpos, hfits, fun i hlo hhi => (hfour i (by omega)).symm.trans (hholds i (by omega) hlo hhi)⟩

section
variable {c : CoreId} {val : Nat → Byte} {t : Tab WordBits} {on : Nat → Bool}

theorem testBit_fieldOf (v hi lo j : Nat) : (fieldOf v hi lo).testBit j = (decide (j < hi + 1 - lo) && v.testBit (lo + j)) := by
  rw [fieldOf, Nat.testBit_mod_two_pow, Nat.testBit_shiftRight]

/-- A word of whole bytes has the runs of those bytes. -/
theorem LaysBytes.runs (h : LaysBytes c val t on) (q : Nat) : byteRuns (wordOf t q).mask = runsOf fun i => on (4 * q + i) := by
  refine (byteRuns_eq_runsOf _).trans (runsOf_congr fun i hi => ?_)
  have hbit (j : Nat) (hj : j < 8) : (fieldOf (wordOf t q).mask (8 * i + 7) (8 * i)).testBit j = on (4 * q + i) := by
    rw [testBit_fieldOf, decide_eq_true (by omega), Bool.true_and, h.mask, decide_eq_true (by omega), Bool.true_and,
      show (8 * i + j) / 8 = i by omega]
  have hlt : fieldOf (wordOf t q).mask (8 * i + 7) (8 * i) < 2 ^ 8 := by
    rw [fieldOf, show 8 * i + 7 + 1 - 8 * i = 8 by omega]
    exact Nat.mod_lt _ (by decide)
  cases hon : on (4 * q + i) with
  | false =>
    have hzero : fieldOf (wordOf t q).mask (8 * i + 7) (8 * i) = 0 := Nat.eq_of_testBit_eq fun j => by
      rw [Nat.zero_testBit]
      by_cases hj : j < 8
      · rw [hbit j hj, hon]
      · exact Nat.testBit_lt_two_pow (Nat.lt_of_lt_of_le hlt (Nat.pow_le_pow_right (by decide) (Nat.le_of_not_lt hj)))
    rw [hzero]
    rfl
  | true =>
    refine bne_iff_ne.2 fun hzero => ?_
    have hset := hbit 0 (by decide)
    rw [hzero, hon, Nat.zero_testBit] at hset
    exact Bool.false_ne_true hset

/-- The field of a run of a word of whole bytes: all bits, and the bytes' values. -/
theorem LaysBytes.field (h : LaysBytes c val t on) {q : Nat} {r : Nat × Nat} (hr : IsRun (fun i => on (4 * q + i)) r) :
    fieldOf (wordOf t q).mask (8 * (r.1 + r.2) - 1) (8 * r.1) = 2 ^ (8 * r.2) - 1 ∧
      ∀ i < r.2, BitVec.ofNat 8 (fieldOf (wordOf t q).val (8 * (r.1 + r.2) - 1) (8 * r.1) / 256 ^ i) = val (4 * q + r.1 + i) := by
  obtain ⟨hpos, hfits, hholds⟩ := hr
  have hon : ∀ j < 8 * r.2, on (4 * q + (8 * r.1 + j) / 8) = true := fun j hj => hholds _ (by omega) (by omega)
  refine ⟨Nat.eq_of_testBit_eq fun j => ?_, fun i hi => BitVec.eq_of_toNat_eq (Nat.eq_of_testBit_eq fun j => ?_)⟩
  · rw [testBit_fieldOf, h.mask, Nat.testBit_two_pow_sub_one]
    by_cases hj : j < 8 * r.2
    · rw [hon j hj, decide_eq_true hj, decide_eq_true (by omega), decide_eq_true (by omega)]
      rfl
    · rw [decide_eq_false hj, decide_eq_false (by omega), Bool.false_and]
  · rw [BitVec.toNat_ofNat, show 256 ^ i = 2 ^ (8 * i) by rw [pow_mul]; rfl, Nat.testBit_mod_two_pow, Nat.testBit_div_two_pow, testBit_fieldOf,
      h.value]
    by_cases hj : j < 8
    · rw [hon (j + 8 * i) (by omega), decide_eq_true hj, decide_eq_true (by omega), decide_eq_true (by omega),
        show 4 * q + (8 * r.1 + (j + 8 * i)) / 8 = 4 * q + r.1 + i by omega, show (8 * r.1 + (j + 8 * i)) % 8 = j by omega]
      rfl
    · rw [decide_eq_false hj, Bool.false_and, BitVec.testBit_toNat, BitVec.getLsbD_of_ge _ _ (Nat.le_of_not_lt hj)]

end

section
variable {c : CoreId} {val : Nat → Byte} {t : Tab WordBits} {on : Nat → Bool} {off len : Nat}

/-- A run of whole bytes of the own window is written as it is (R222). -/
theorem LaysBytes.writesRun (h : LaysBytes c val t on) (hin : ∀ x, on x = true → sramKey c off ≤ x ∧ x < sramKey c off + len) {q : Nat}
    {w : WordBits} (hw : t.find q = some w) {r : Nat × Nat} (hr : r ∈ byteRuns w.mask) {s : State} (hs : WindowReady s c (off + len)) :
    ∃ u, writeRun c w r s = .ok () u ∧ WritesBytes c val s u fun x => decide (4 * q + r.1 ≤ x ∧ x < 4 * q + r.1 + r.2) := by
  have hword : wordOf t q = w := by rw [wordOf, hw]; rfl
  rw [← hword, h.runs] at hr
  have hrun := (runsOf_cover _).1 r hr
  obtain ⟨hmask, hval⟩ := h.field hrun
  rw [hword] at hmask hval
  obtain ⟨hpos, hfits, hholds⟩ := hrun
  have hfirst := hin _ (hholds r.1 (Nat.le_refl _) (by omega))
  have hlast := hin _ (hholds (r.1 + r.2 - 1) (by omega) (by omega))
  have hkey : sramKey c (4 * q - sramKey c 0 + r.1) = 4 * q + r.1 := by
    simp only [sramKey] at hfirst ⊢
    omega
  have hfit : 4 * q - sramKey c 0 + r.1 + r.2 ≤ off + len := by
    simp only [sramKey] at hfirst hlast ⊢
    omega
  have hva : w.va + BitVec.ofNat 64 r.1 = ownAddr (4 * q - sramKey c 0 + r.1) := by rw [h.address q w hw, ownAddr_add]
  have htr : translate c (ownAddr (4 * q - sramKey c 0 + r.1)) r.2 .write s = .ok (ownLoc c (4 * q - sramKey c 0 + r.1)) s :=
    translate_own hs.alive (by decide) (Nat.le_trans hfit hs.fits)
  obtain ⟨u, honce, hu⟩ := onceAt_write (val := val) (bad := w.bad) (va := w.va + BitVec.ofNat 64 r.1) hs
    (b := 4 * q - sramKey c 0 + r.1) (n := r.2) (v := fieldOf w.val (8 * (r.1 + r.2) - 1) (8 * r.1)) (by rw [hkey]; exact hval)
  rw [hkey] at hu
  refine ⟨u, ?_, hu⟩
  rw [writeRun, hva, M.bind_ok htr, hmask, if_pos rfl, ← hva]
  exact honce

/-- The words of the own window that a table lists are written, each by its runs (R221, R222). -/
theorem LaysBytes.writesWords (h : LaysBytes c val t on) (hin : ∀ x, on x = true → sramKey c off ≤ x ∧ x < sramKey c off + len)
    {s : State} (hs : WindowReady s c (off + len)) : ∃ u, writeWords c t s = .ok () u ∧ WritesBytes c val s u on := by
  obtain ⟨u, hrun, hu⟩ := eachOf_writes (c := c) (val := val) (lim := off + len) (l := t)
    (f := fun e => eachOf (byteRuns e.2.mask) fun r => writeRun c e.2 r)
    (on := fun e x => (byteRuns e.2.mask).any fun r => decide (4 * e.1 + r.1 ≤ x ∧ x < 4 * e.1 + r.1 + r.2))
    (fun e he s hs => eachOf_writes (fun r hr s hs => h.writesRun hin ((find_eq_some_iff h.rising).2 he) hr hs) hs) hs
  have hruns : ∀ e ∈ t, byteRuns e.2.mask = runsOf fun i => on (4 * e.1 + i) := fun e he => by
    rw [← h.runs, wordOf, (find_eq_some_iff h.rising).2 he]
    rfl
  refine ⟨u, hrun, hu.congr fun x => ?_⟩
  rw [Bool.eq_iff_iff, List.any_eq_true]
  simp only [List.any_eq_true, decide_eq_true_eq]
  constructor
  · rintro ⟨e, he, r, hr, hlo, hhi⟩
    rw [hruns e he] at hr
    have hon := ((runsOf_cover _).1 r hr).holds (x - 4 * e.1) (by omega) (by omega)
    rwa [Nat.add_sub_cancel' (by omega)] at hon
  · intro hx
    have hfind : (t.find (x / 4)).isSome = true := by
      have hbit := h.mask (x / 4) (8 * (x % 4))
      rw [show 4 * (x / 4) + 8 * (x % 4) / 8 = x by omega, hx, decide_eq_true (by omega), wordOf] at hbit
      cases hnone : t.find (x / 4) with
      | none => simp [hnone] at hbit
      | some w => rfl
    obtain ⟨w, hw⟩ := Option.isSome_iff_exists.1 hfind
    have he := (find_eq_some_iff h.rising).1 hw
    obtain ⟨r, hr, hlo, hhi⟩ := (runsOf_cover fun i => on (4 * (x / 4) + i)).2 (x % 4) (by omega)
      (by rwa [show 4 * (x / 4) + x % 4 = x by omega])
    exact ⟨_, he, r, by rwa [hruns _ he], by dsimp only; omega, by dsimp only; omega⟩

end

/-! ### Elements of a row written to the own window (R220, R221) -/

/-- The byte of a row's image that a store of it from a place writes at an address. -/
def rowByte (bits a x : Nat) : Byte := BitVec.ofNat 8 (bits / 2 ^ (8 * (x - a)))

/-- Whether a byte is of an element of a list. -/
def inElems (a n : Nat) (l : List Nat) (x : Nat) : Bool := l.any fun i => decide (a + n * i ≤ x ∧ x < a + n * i + n)

theorem testBit_rowByte (bits a x : Nat) {j : Nat} (hj : j < 8) : (rowByte bits a x).toNat.testBit j = bits.testBit (8 * (x - a) + j) := by
  rw [rowByte, BitVec.toNat_ofNat, Nat.testBit_mod_two_pow, decide_eq_true hj, Bool.true_and, Nat.testBit_div_two_pow, Nat.add_comm]

/-- An element's bits are those of its bytes. -/
theorem testBit_elemOf_bytes (bits a : Nat) {n i j : Nat} (hj : j < 8 * n) :
    (elemOf bits (8 * n) i).testBit j = (rowByte bits a (a + n * i + j / 8)).toNat.testBit (j % 8) := by
  rw [testBit_rowByte _ _ _ (Nat.mod_lt _ (by decide)), elemOf, Nat.testBit_mod_two_pow, decide_eq_true hj, Bool.true_and, Nat.testBit_shiftRight,
    Nat.mul_assoc]
  congr 1
  omega

/-- The bytes of an element are those of the row. -/
theorem byte_elemOf (bits a : Nat) {n i j : Nat} (hj : j < n) :
    BitVec.ofNat 8 (elemOf bits (8 * n) i / 256 ^ j) = rowByte bits a (a + n * i + j) := by
  refine BitVec.eq_of_toNat_eq (Nat.eq_of_testBit_eq fun b => ?_)
  by_cases hb : b < 8
  · have hdiv : (b + 8 * j) / 8 = j := by omega
    have hmod : (b + 8 * j) % 8 = b := by omega
    rw [BitVec.toNat_ofNat, Nat.testBit_mod_two_pow, decide_eq_true hb, Bool.true_and, show 256 ^ j = 2 ^ (8 * j) by rw [pow_mul]; rfl,
      Nat.testBit_div_two_pow, testBit_elemOf_bytes bits a (by omega), hdiv, hmod]
  · rw [BitVec.testBit_toNat, BitVec.getLsbD_of_ge _ _ (Nat.le_of_not_lt hb), BitVec.testBit_toNat, BitVec.getLsbD_of_ge _ _ (Nat.le_of_not_lt hb)]

/-- An element of a row with what the row holds for it. -/
def rowElem (off bits psn n i : Nat) : Elem × Res := (ownElem off n i, { val := elemOf bits (8 * n) i, bad := elemPsn psn (8 * n) i })

section
variable {c : CoreId} {off len n bits psn : Nat}

/-- Elements of whole words are written each by itself (R221). -/
theorem writeElems_alone (h4 : 4 ≤ n) {l : List Nat} (hl : ∀ i ∈ l, n * i + n ≤ len) {s : State} (hs : WindowReady s c (off + len)) :
    ∃ u, writeElems c (8 * n) [] (l.map (rowElem off bits psn n)) s = .ok () u ∧
      WritesBytes c (rowByte bits (sramKey c off)) s u (inElems (sramKey c off) n l) := by
  induction l generalizing s with
  | nil => exact ⟨s, rfl, .refl c _ s⟩
  | cons i r ih =>
    have hi := hl i (by simp)
    have htr : translate c (ownAddr (off + n * i)) n .write s = .ok (ownLoc c (off + n * i)) s :=
      translate_own hs.alive (by decide) (Nat.le_trans (by omega) hs.fits)
    have halone : writtenAlone (8 * n) (ownLoc c (off + n * i)) = true := decide_eq_true (by omega)
    obtain ⟨t, honce, ht⟩ := onceAt_write (val := rowByte bits (sramKey c off)) (bad := elemPsn psn (8 * n) i) (va := ownAddr (off + n * i)) hs
      (b := off + n * i) (n := n) (v := elemOf bits (8 * n) i) fun j hj => by rw [sramKey_add]; exact byte_elemOf bits _ hj
    obtain ⟨u, hrest, hu⟩ := ih (fun j hj => hl j (by simp [hj])) (ht.ready hs)
    refine ⟨u, ?_, (ht.trans hu).congr fun x => ?_⟩
    · rw [List.map_cons, writeElems]
      simp only [rowElem, ownElem, if_neg (show ¬8 * n < 8 by omega)]
      rw [M.bind_ok htr, if_pos halone, M.bind_ok honce]
      exact hrest
    · rw [inElems, inElems, List.any_cons, sramKey_add]

/-- Narrow elements in rising order are gathered by words before they are written (R221). -/
theorem writeElems_gathered (hn : ElemBytes n) (h4 : n < 4) (hal : off % n = 0) {l : List Nat} (hl : ∀ i ∈ l, n * i + n ≤ len) (hrise : l.Pairwise (· < ·))
    {t : Tab WordBits} {on : Nat → Bool} (ht : LaysBytes c (rowByte bits (sramKey c off)) t on)
    (hin : ∀ x, on x = true → sramKey c off ≤ x ∧ x < sramKey c off + len)
    (hlow : ∀ x, on x = true → ∀ i ∈ l, x < sramKey c off + n * i) {s : State} (hs : WindowReady s c (off + len)) :
    ∃ u, writeElems c (8 * n) t (l.map (rowElem off bits psn n)) s = .ok () u ∧
      WritesBytes c (rowByte bits (sramKey c off)) s u fun x => on x || inElems (sramKey c off) n l x := by
  induction l generalizing t on with
  | nil =>
    obtain ⟨u, hrun, hu⟩ := ht.writesWords hin hs
    exact ⟨u, hrun, hu.congr fun x => by simp [inElems]⟩
  | cons i r ih =>
    obtain ⟨hfirst, hrest⟩ := List.pairwise_cons.1 hrise
    have hi := hl i (by simp)
    have htr : translate c (ownAddr (off + n * i)) n .write s = .ok (ownLoc c (off + n * i)) s :=
      translate_own hs.alive (by decide) (Nat.le_trans (by omega) hs.fits)
    have hgather : writtenAlone (8 * n) (ownLoc c (off + n * i)) = false := decide_eq_false (by omega)
    have hword : sramKey c (off + n * i) % 4 + n ≤ 4 := by
      rw [sramKey]
      rcases hn with rfl | rfl | rfl | rfl <;> omega
    have hlaid := ht.lay (b := off + n * i) (n := n) (v := elemOf bits (8 * n) i) (elemPsn psn (8 * n) i) hword
      (fun x hx => by rw [sramKey_add]; exact hlow x hx i (by simp)) fun j hj => by rw [sramKey_add]; exact testBit_elemOf_bytes bits _ hj
    rw [sramKey_add] at hlaid
    have hin' : ∀ x, (on x || decide (sramKey c off + n * i ≤ x ∧ x < sramKey c off + n * i + n)) = true →
        sramKey c off ≤ x ∧ x < sramKey c off + len := fun x hx => by
      rcases Bool.or_eq_true_iff.1 hx with hx | hx
      · exact hin x hx
      · obtain ⟨hlo, hhi⟩ := of_decide_eq_true hx
        omega
    have hlow' : ∀ x, (on x || decide (sramKey c off + n * i ≤ x ∧ x < sramKey c off + n * i + n)) = true →
        ∀ j ∈ r, x < sramKey c off + n * j := fun x hx j hj => by
      rcases Bool.or_eq_true_iff.1 hx with hx | hx
      · exact hlow x hx j (by simp [hj])
      · obtain ⟨-, hhi⟩ := of_decide_eq_true hx
        have : n * i + n ≤ n * j := Nat.mul_le_mul_left n (hfirst j hj)
        omega
    obtain ⟨u, hrun, hu⟩ := ih (fun j hj => hl j (by simp [hj])) hrest hlaid hin' hlow'
    refine ⟨u, ?_, hu.congr fun x => ?_⟩
    · have hpos := hn.pos
      have hlay : layElem c (8 * n) (ownElem off n i) (rowElem off bits psn n i).2 t 1 s =
          .ok (layBits t (sramKey c off + n * i) (ownAddr (off + n * i)) 0 (8 * n) (elemOf bits (8 * n) i) (elemPsn psn (8 * n) i)) s := by
        rw [← sramKey_add]
        exact (congrFun (if_pos (by omega)) s).trans (M.bind_ok htr)
      rw [List.map_cons, writeElems]
      simp only [rowElem, ownElem, if_neg (show ¬8 * n < 8 by omega)]
      rw [M.bind_ok htr, hgather, if_neg Bool.false_ne_true]
      exact (M.bind_ok hlay).trans hrun
    · rw [inElems, inElems, List.any_cons, Bool.or_assoc]

/-- The elements of a row in rising order are written to the own window with what the row holds for them (R220, R221). -/
theorem writeElems_own (hn : ElemBytes n) (hal : off % n = 0) {l : List Nat} (hl : ∀ i ∈ l, n * i + n ≤ len) (hrise : l.Pairwise (· < ·))
    {s : State} (hs : WindowReady s c (off + len)) :
    ∃ u, writeElems c (8 * n) [] (l.map (rowElem off bits psn n)) s = .ok () u ∧
      WritesBytes c (rowByte bits (sramKey c off)) s u (inElems (sramKey c off) n l) := by
  rcases Nat.lt_or_ge n 4 with hlt | hge
  · obtain ⟨u, hrun, hu⟩ := writeElems_gathered (psn := psn) hn hlt hal hl hrise (.nil c _) (fun x hx => absurd hx Bool.false_ne_true)
      (fun x hx => absurd hx Bool.false_ne_true) hs
    exact ⟨u, hrun, hu.congr fun x => Bool.false_or _⟩
  · exact writeElems_alone hge hl hs

end

/-! ### A store of a row (R220, R221) -/

theorem tagFmt_of_code {t : HWord} {f : Fmt} (h : t.toNat % 16 = f.code) : tagFmt t = f := by
  rw [tagFmt, h]
  cases f <;> rfl

theorem pairwise_movedElems (x : Vx) (mask w : Nat) : (movedElems x mask w).Pairwise (· < ·) := List.pairwise_lt_range.filter _

section
variable {s : State} {c : CoreId} {e : Entry} {d : BitVec 6} {f g : Fmt} {off n : Nat}

theorem storeFmt_row (ht : (getRow (getCore s c) d).row.tag.toNat % 16 = f.code) (hf : f ≠ .none) (hg : g = .none ∨ g = f) :
    storeFmt (vxOf c e []) g (.row d) s = .ok f s := by
  have htag : sourceTag (getCore s c) (vxOf c e []).vl none (.row d) s = .ok (some (getRow (getCore s c) d).row.tag) s := rfl
  have hok : (f != Fmt.none && (g == Fmt.none || g == f)) = true := by
    rcases hg with rfl | rfl <;> simp [hf]
  rw [storeFmt, M.theCore_bind]
  simp only [vxOf_c]
  rw [M.bind_ok htag, Option.getD_some, tagFmt_of_code ht, M.bind_ok (formatUnless_ok hok)]
  rfl

/-- A store of a row to the own window writes the bytes of the elements that it moves, and counts its groups, alone. -/
theorem runStore_own (he : e.egdone = 0) (hd : (getRow (getCore s c) d).res ≠ .gone)
    (ht : (getRow (getCore s c) d).row.tag.toNat % 16 = f.code) (hf : f ≠ .none) (hg : g = .none ∨ g = f) (hw : fmtWidth f = 8 * n)
    (h : OwnElems s c off n (4 * e.env.vl.toNat)) (hs : WindowReady s c (off + 4 * e.env.vl.toNat)) :
    ∃ u ctrs, runStore (vxOf c e []) g (.row d) false (fun w => unitElem (ownAddr off) w 0) s =
        .ok () (updCore u c fun k => { k with ctrs := ctrs }) ∧
      WritesBytes c (rowByte (getRow (getCore s c) d).row.bits.toNat (sramKey c off)) s u
        (inElems (sramKey c off) n (movedElems (vxOf c e []) (getK (getCore s c) e.env.ksel).toNat (8 * n))) := by
  have hmask : (vxOf c e []).mask s = .ok (getK (getCore s c) e.env.ksel).toNat s := rfl
  have hmoved := fun i => bytes_of_mem_movedElems (c := c) (e := e) (mask := (getK (getCore s c) e.env.ksel).toNat) (n := n) (i := i)
  obtain ⟨u, hrun, hu⟩ := writeElems_own (bits := (getRow (getCore s c) d).row.bits.toNat) (psn := (getRow (getCore s c) d).row.psn.toNat)
    h.bytes h.aligned hmoved (pairwise_movedElems ..) hs
  obtain ⟨ctrs, hcount⟩ := countGroups_run (c := c) (e := e) [] u
  have hstored : storedElems (vxOf c e []) f (.row d) ((movedElems (vxOf c e []) (getK (getCore s c) e.env.ksel).toNat (8 * n)).map (ownElem off n)) s =
      .ok ((movedElems (vxOf c e []) (getK (getCore s c) e.env.ksel).toNat (8 * n)).map
        (rowElem off (getRow (getCore s c) d).row.bits.toNat (getRow (getCore s c) d).row.psn.toNat n)) s := by
    rw [storedElems, M.theCore_bind, hw, List.map_map]
    rfl
  refine ⟨u, ctrs, ?_, hu⟩
  have hunit : formatUnless (!false || f != .int4 && f != .int6) s = .ok () s := formatUnless_ok rfl
  rw [runStore, M.bind_ok (storeFmt_row ht hf hg), M.bind_ok hunit]
  dsimp only
  rw [M.bind_ok hmask, hw, unitElem_own off h.bytes, M.bind_ok (checkElems_own h hmoved (by decide)), finishStore]
  simp only [Opd.isLine, Bool.false_and, Bool.false_eq_true, if_false, hw, groupDone_none c [] he, Bool.not_false, Bool.and_self, List.filter_true]
  rw [M.bind_ok (ensure_row [] hd)]
  exact (M.bind_ok ((M.bind_ok hstored).trans hrun)).trans hcount

end

theorem windowReady_headState {s : State} {i : Instr} {lim : Nat} (hk : VectorIdle (here s)) (hfit : lim ≤ scratchSize (here s))
    (halive : Alive s s.cur) (hquiet : ∀ r, s.hub.regs.regions.find 0 = some r → bitAt r 32 = false) : WindowReady (headState s i) s.cur lim where
  fits := by rw [getCore_headState, scratchSize_atVectorHead]; exact hfit
  alive := alive_headState halive
  fresh := by
    rw [getCore_headState]
    exact (noReads_postsVector hk (postedEntry (here s) i) 4).2.2
  unwatched := hquiet

/-- What an instruction leaves of the package that writes bytes of memory, and counts, alone. -/
structure StoresBytes (s u : State) (val : Nat → Byte) (on : Nat → Bool) : Prop where
  hub : u.hub = s.hub
  l2 : u.l2 = s.l2
  others : ∀ c, c ≠ s.cur → getCore u c = getCore s c
  frame : VectorFrame (here s) (here u)
  files : (here u).files = (here s).files
  pc : (here u).pc = (here s).pc + 4
  bytes : ∀ x, memByte u.store.bytes x = if on x = true then val x else memByte s.store.bytes x

/-- A core past a store: what it had written is no longer kept for it, and its counters are others. -/
def pastStore (k : Core) (ans : Tab (List Answer)) (ctrs : CounterBlock) : Core := { pastVector k 4 with answered := ans, ctrs := ctrs }

theorem vectorFrame_pastStore (k : Core) (ans : Tab (List Answer)) (ctrs : CounterBlock) : VectorFrame k (pastStore k ans ctrs) := by
  constructor <;> simp [pastStore, pastVector, turnOver, retire, retireTo_tregs]

/-- A unit-stride store of a row to the own window leaves the bytes, and counters, of the package that it changes (R220, R221). -/
theorem exec_vst_row {s : State} {d : BitVec 6} {f g : Fmt} {rs1 : BitVec 5} {off : BitVec 7} {o n : Nat} (hk : AccessIdle (here s))
    (hd : CleanRow (here s) d) (ht : (getRow (here s) d).row.tag.toNat % 16 = f.code) (hf : f ≠ .none) (h6 : f ≠ .int6) (hg : g = .none ∨ g = f)
    (hw : fmtWidth f = 8 * n) (haddr : getS (here s) rs1 + BitVec.ofInt 64 (off.toInt * 8) = ownAddr o)
    (h : OwnElems s s.cur o n (4 * (here s).tregs.vl.toNat)) (hquiet : ∀ r, s.hub.regs.regions.find 0 = some r → bitAt r 32 = false) :
    ∃ u, exec (.vst g (.row d) rs1 off) s = .next u ∧ StoresBytes s u (rowByte (getRow (here s) d).row.bits.toNat (sramKey s.cur o))
      (inElems (sramKey s.cur o) n (movedElems (vxOf s.cur (postedEntry (here s) (.vst g (.row d) rs1 off)) [])
        (getK (here s) (here s).tregs.ksel).toNat (8 * n))) := by
  have hrow : getRow (getCore (headState s (.vst g (.row d) rs1 off)) s.cur) d = getRow (here s) d := by
    rw [getCore_headState, getRow_atVectorHead]
  have hmask (n : BitVec 3) : getK (getCore (headState s (.vst g (.row d) rs1 off)) s.cur) n = getK (here s) n := by
    rw [getCore_headState, getK_atVectorHead]
  obtain ⟨t, ctrs, hrun, ht⟩ := runStore_own (s := headState s (.vst g (.row d) rs1 off)) (c := s.cur) (d := d) (f := f) (g := g) (off := o) (n := n)
    (e := postedEntry (here s) (.vst g (.row d) rs1 off)) rfl (by rw [hrow]; exact hd.resident) (by rw [hrow]; exact ht) hf hg hw
    (ownElems_headState h) (windowReady_headState hk.vector h.fits h.alive hquiet)
  rw [← haddr, ← base_posted _ (.vst g (.row d) rs1 off) s.cur] at hrun
  rw [hrow, hmask] at ht
  have h6 : g ≠ .int6 := by
    rcases hg with rfl | rfl
    · decide
    · exact h6
  have hwf : Instr.wellFormed (.vst g (.row d) rs1 off) = true := by simpa [Instr.wellFormed] using h6
  have hexec := exec_vector (i := .vst g (.row d) rs1 off) rfl hwf hk.vector (headState_mayRun hk)
  obtain ⟨ans, hans⟩ := ht.core
  rw [getCore_headState] at hans
  have hclean : (getCore (updCore t s.cur fun k => { k with ctrs := ctrs }) s.cur).poisoned.find Stream.vector.code = none := by
    rw [getCore_updCore_self, hans]
    dsimp only
    rw [atVectorHead, postsVector, retire_poisoned]
    exact hk.vector.settled
  have hbody : vecBody s.cur (postedEntry (here s) (.vst g (.row d) rs1 off)) (updCore s s.cur fun k => atVectorHead k (.vst g (.row d) rs1 off) 4) =
      .ok () (updCore t s.cur fun k => { k with ctrs := ctrs }) := hrun
  rw [show asV3 (.vst g (.row d) rs1 off) = .vst g (.row d) rs1 off from rfl, hbody, endTurn_ok, entryEnds_clean _ hclean, updCore_updCore,
    updCore_updCore] at hexec
  refine ⟨_, hexec, ?_⟩
  have hhere : here (updCore t s.cur fun k => dropVector (dropReads (turnOver { k with ctrs := ctrs }) Stream.vector.code)) =
      pastStore (here s) (ans.del 1) ctrs := by
    rw [here, updCore_cur, ht.cur]
    refine (getCore_updCore_self ..).trans ?_
    rw [hans]
    exact congrArg (fun k : Core => { k with answered := ans.del 1, ctrs := ctrs }) (dropVector_atVectorHead hk.vector (.vst g (.row d) rs1 off) 4)
  refine ⟨ht.hub, ht.l2, fun c hc => ?_, ?_, ?_, ?_, ht.bytes⟩
  · rw [getCore_updCore_other _ _ _ _ hc, ht.others c hc]
    exact getCore_updCore_other _ _ _ _ hc
  · rw [hhere]; exact vectorFrame_pastStore ..
  · rw [hhere]; simp [pastStore, pastVector, turnOver, retire]
  · rw [hhere]; simp [pastStore, pastVector, turnOver, retire]

/-! ### Rows moved to and from the own window -/

theorem bytesAt_lt (s : State) (a n : Nat) : bytesAt s a n < 2 ^ (8 * n) := by
  rw [bytesAt_eq_memLoad]
  refine Nat.lt_pow_two_of_testBit _ fun i hi => ?_
  rw [testBit_memLoad, decide_eq_false (Nat.not_lt.2 hi), Bool.false_and]

/-- Whether an access moves an element: it is covered and active (R220). -/
theorem covered_active_eq (vl mask w e : Nat) : (covered vl w e && active mask w e) = (decide (w * (e + 1) ≤ 32 * vl) && mask.testBit (w * e / 32)) := rfl

/-- Each element of the row that a load leaves (R220). -/
theorem elemOf_loadRow (s : State) (k : Core) (v : Env) (d : BitVec 6) {f : Fmt} (a : Nat) {n i : Nat} (hw : fmtWidth f = 8 * n)
    (hi : i < 2048 / (8 * n)) : elemOf (rowWith k d (plainTag f) (loadElem s k v a n)).row.bits.toNat (8 * n) i =
      if (decide (8 * n * (i + 1) ≤ 32 * v.vl.toNat) && (getK k v.ksel).toNat.testBit (8 * n * i / 32)) = true then bytesAt s (a + n * i) n
      else elemOf (getRow k d).row.bits.toNat (8 * n) i := by
  rw [elemOf_rowWith k d _ (by rw [tagFmt_plainTag, hw]) hi, loadElem, covered_active_eq]
  cases decide (8 * n * (i + 1) ≤ 32 * v.vl.toNat) && (getK k v.ksel).toNat.testBit (8 * n * i / 32) with
  | false => rfl
  | true => exact (Nat.mod_mod _ _).trans (Nat.mod_eq_of_lt (bytesAt_lt ..))

/-- The bytes of the elements that an access moves, by the element that each is of (R220). -/
theorem inElems_movedElems (c : CoreId) (e : Entry) (mask : DWord) (a : Nat) {n : Nat} (hn : ElemBytes n) (x : Nat) :
    inElems a n (movedElems (vxOf c e []) mask.toNat (8 * n)) x = true ↔ a ≤ x ∧ x < a + 4 * e.env.vl.toNat ∧
      (decide (8 * n * (8 * (x - a) / (8 * n) + 1) ≤ 32 * e.env.vl.toNat) && mask.toNat.testBit (8 * n * (8 * (x - a) / (8 * n)) / 32)) = true := by
  have hpos := hn.pos
  have hdiv : 8 * (x - a) / (8 * n) = (x - a) / n := Nat.mul_div_mul_left _ _ (by decide)
  rw [hdiv, ← covered_active_eq, inElems, List.any_eq_true]
  simp only [decide_eq_true_eq]
  constructor
  · rintro ⟨i, hi, hlo, hhi⟩
    have hlen := bytes_of_mem_movedElems hi
    have hnum : (x - a) / n = i := by
      rw [Nat.div_eq_iff hpos]
      have := Nat.mul_comm n i
      omega
    rw [hnum]
    exact ⟨by omega, by omega, (List.mem_filter.1 hi).2⟩
  · rintro ⟨hlo, -, hmoves⟩
    have hactive := (Bool.and_eq_true_iff.1 hmoves).2
    have hlow := Nat.div_mul_le_self (x - a) n
    have hhigh := Nat.lt_div_mul_add hpos (a := x - a)
    rw [Nat.mul_comm] at hlow hhigh
    exact ⟨(x - a) / n, List.mem_filter.2 ⟨List.mem_range.2 (lt_elemCount_of_active hn hactive), hmoves⟩, by omega, by omega⟩

theorem rowsInMemory : Parts.RowsInMemory := by
  intro s d f g rs1 off o k w a bits moves hv hp hd hm hdef halive hf h8 haddr hal hfit
  have hk : AccessIdle k := ⟨hv, hp, hm, hdef⟩
  have h6 : f ≠ .int6 := fun h => by
    subst h
    exact absurd h8 (by decide)
  obtain ⟨hw, hn⟩ := elemBytes_of_width hf h8
  have helems : OwnElems s s.cur o (w / 8) (4 * k.tregs.vl.toNat) := ⟨halive, hn, hal, hfit⟩
  constructor
  · intro hclean
    obtain ⟨u, hexec, hu⟩ := exec_vld_row hk hd hf h6 hw haddr helems hclean
    refine ⟨u, hexec, hu.only, hu.frame, hu.masks, hu.pc, hu.others, ?_⟩
    rw [hu.row]
    refine ⟨rfl, rfl, rfl, fun e he => ?_⟩
    have hrow := elemOf_loadRow s k (postedEntry k (.vld f (.row d) rs1 off)).env d a hw (by rw [← hw]; exact he)
    rw [← hw] at hrow
    exact hrow
  · intro ht hg hquiet
    obtain ⟨u, hexec, hu⟩ := exec_vst_row hk hd ht hf h6 hg hw haddr helems hquiet
    refine ⟨u, hexec, hu.hub, hu.l2, hu.others, hu.frame, hu.files, hu.pc, fun x => ?_⟩
    rw [hu.bytes, ← hw]
    have hin := inElems_movedElems s.cur (postedEntry k (.vst g (.row d) rs1 off)) (getK k k.tregs.ksel) a hn x
    rw [← hw] at hin
    exact if_congr hin rfl rfl

/-- Settles O36: an idle stream executes a vector instruction as it is posted; each meaning comes down to one row or one mask written, or to
bytes of the own window written word by word. -/
theorem rowsAndMasks : Obligations.RowsAndMasks := ⟨rowsMade, masksMade, rowsInMemory⟩

end Sys2Proof.Machine

/-! ## Packets that arrive, and tiles that move (R158, R159, R252, R253, R376 to R378) -/

namespace Sys2Proof.Machine

/-- PACKET_ARRIVAL turns one packet of the network (R252). -/
theorem exec_packetArrival {s : State} (n : Nat) (hp : s.hub.regs.power.on = true) :
    exec (.packetArrival n) s = .next (arrivePacket s n) := event_ok (f := fun s => arrivePacket s n) hp

/-- An event of a core of the package changes the state while the package has power. -/
theorem event_ok_of_isCore {f : State → State} {s : State} {c : CoreId} (hp : s.hub.regs.power.on = true) (hc : isCore c = true) :
    event (isCore c) f s = .next (f s) := by rw [hc, event_ok hp]

/-- LATCH_LOAD_COMPLETE ends a load of a latch (R158). -/
theorem exec_latchLoadComplete {s : State} {c : CoreId} (l : BitVec 1) (hp : s.hub.regs.power.on = true) (hc : isCore c = true) :
    exec (.latchLoadComplete c l) s = .next (loadComplete s c l) := event_ok_of_isCore (f := fun s => loadComplete s c l) hp hc

/-- HAND_ON turns a hand-on (R159). -/
theorem exec_handOn {s : State} {c : CoreId} (l : BitVec 1) (hp : s.hub.regs.power.on = true) (hc : isCore c = true) :
    exec (.handOn c l) s = .next (handOn s c l) := event_ok_of_isCore (f := fun s => handOn s c l) hp hc

/-! ### Latches -/

@[simp] theorem latchOf_setLatch_self (k : Core) (l : BitVec 1) (v : Latch) : latchOf (setLatch k l v) l = v :=
  Vector.getElem_set_self l.isLt

/-- A latch replaced leaves the other one alone. -/
theorem latchOf_setLatch_other (k : Core) {l m : BitVec 1} (v : Latch) (h : m ≠ l) : latchOf (setLatch k l v) m = latchOf k m :=
  Vector.getElem_set_ne l.isLt m.isLt fun e => h (BitVec.eq_of_toNat_eq e.symm)

@[simp] theorem latchOf_modMatrix (k : Core) (f : Entry → Entry) (l : BitVec 1) : latchOf (modMatrix k f) l = latchOf k l := rfl

/-- A core with a latch to hand on has an entry at the head of its matrix queue. -/
theorem exists_head_of_handOnOf {k : Core} {p : BitVec 1 × BitVec 1} (h : handOnOf k = some p) : ∃ e r, k.streams.mq = e :: r := by
  cases hq : k.streams.mq with
  | nil => simp [handOnOf, hq] at h
  | cons e r => exact ⟨e, r, rfl⟩

/-- Whether the head of a matrix queue moves rows after it has been changed. -/
theorem handsOn_modMatrix {k : Core} {e : Entry} {r : List Entry} (f : Entry → Entry) (h : k.streams.mq = e :: r) :
    handsOn (modMatrix k f) = (f e).prog.moving := by simp [handsOn, modMatrix, h]

/-! ### Loads and hand-ons (R158, R159) -/

/-- A load whose latch no hand-on fills makes it FULL (R158). -/
theorem loadComplete_loading {s : State} {c : CoreId} {l : BitVec 1} (hl : (latchOf (getCore s c) l).state = .loading)
    (hm : movingInto s c l = false) :
    loadComplete s c l = updCore s c fun k => setLatch k l { latchOf k l with state := .full, stamp := s.time.toNat } :=
  if_pos ⟨hl, by simp [hm]⟩

section
variable {s : State} {c n : CoreId} {i j : BitVec 1} (hij : handOnOf (getCore s c) = some (i, j)) (hnext : ringNeighbour (getCore s c) c = n)
  (hgang : sameGang (getCore s c) (getCore s n) = true) (hfence : (getCore s n).fenced = false)
include hij hnext hgang hfence

/-- A hand-on starts where the neighbour's latch is EMPTY (R159). -/
theorem handOn_start (hmove : handsOn (getCore s c) = false) (hroom : (latchOf (getCore s n) j).state = .empty) :
    handOn s c i = updCore (updCore s n fun d => setLatch d j { latchOf (getCore s c) i with state := .loading }) c
      fun k => modMatrix k fun e => { e with started := true, prog := { e.prog with moving := true } } := by
  simp [handOn, hij, hnext, hgang, hfence, hmove, hroom]

/-- It waits where that latch is not EMPTY (R159). -/
theorem handOn_wait (hmove : handsOn (getCore s c) = false) (hroom : (latchOf (getCore s n) j).state ≠ .empty) : handOn s c i = s := by
  simp [handOn, hij, hnext, hgang, hfence, hmove, hroom]

/-- Where its rows move, its last row arrives (R159). -/
theorem handOn_end (hmove : handsOn (getCore s c) = true) (hload : (latchOf (getCore s n) j).state = .loading) :
    handOn s c i = updCore
      (updCore s n fun d => setLatch d j { latchOf (getCore s n) j with state := .full, stamp := s.time.toNat }) c
      fun k => modMatrix (setLatch k i { latchOf (getCore s c) i with state := .empty }) fun e =>
        { e with prog := { e.prog with step := e.prog.step + 1, applied := false, waiting := false, moving := false } } := by
  simp [handOn, hij, hnext, hgang, hfence, hmove, updCore, hload]

end

/-! ### Activity bits that a packet sets on its way (R47) -/

/-- Nothing has changed but activity bits of cores. -/
structure OnlyActivity (s t : State) : Prop where
  cores : ∀ c, ∃ act, getCore t c = { getCore s c with activity := act }
  hub : t.hub = s.hub
  l2 : t.l2 = s.l2
  store : t.store = s.store
  time : t.time = s.time

theorem OnlyActivity.refl (s : State) : OnlyActivity s s := ⟨fun _ => ⟨_, rfl⟩, rfl, rfl, rfl, rfl⟩

theorem OnlyActivity.trans {s t u : State} (h : OnlyActivity s t) (h' : OnlyActivity t u) : OnlyActivity s u where
  cores c := by
    obtain ⟨_, ht⟩ := h.cores c
    obtain ⟨act, hu⟩ := h'.cores c
    exact ⟨act, by rw [hu, ht]⟩
  hub := h'.hub.trans h.hub
  l2 := h'.l2.trans h.l2
  store := h'.store.trans h.store
  time := h'.time.trans h.time

theorem noteActivity_only (k : Core) (ctx : HWord) : ∃ act, noteActivity k ctx = { k with activity := act } := by
  unfold noteActivity
  split
  · exact ⟨k.activity, rfl⟩
  · exact ⟨ctx :: k.activity, rfl⟩

theorem onlyActivity_updCore (s : State) (c : CoreId) (ctx : HWord) : OnlyActivity s (updCore s c fun k => noteActivity k ctx) where
  cores d := by
    by_cases h : d = c
    · subst h
      rw [getCore_updCore_self]
      exact noteActivity_only _ _
    · rw [getCore_updCore_other _ _ _ _ h]
      exact ⟨_, rfl⟩
  hub := rfl
  l2 := rfl
  store := rfl
  time := rfl

/-- A fold of operations that each change activity bits alone changes them alone. -/
theorem foldl_onlyActivity {β : Type} {f : State → β → State} (h : ∀ s b, OnlyActivity s (f s b)) (l : List β) (s : State) :
    OnlyActivity s (l.foldl f s) := by
  induction l generalizing s with
  | nil => exact .refl s
  | cons b l ih => exact (h s b).trans (ih (f s b))

/-- A packet's passage sets activity bits and changes nothing else. -/
theorem onlyActivity_markPassage (s : State) (ctx : HWord) (a b : CoreId) : OnlyActivity s (markPassage s ctx a b) := by
  refine foldl_onlyActivity (fun s l => ?_) _ s
  split
  · exact onlyActivity_updCore s _ ctx
  · exact .refl s

/-- Activity bits decide neither whether a core takes a packet nor what it does with it. -/
theorem OnlyActivity.deadWay {s t : State} (h : OnlyActivity s t) (a b : CoreId) : deadWay t a b = deadWay s a b := by
  obtain ⟨_, hb⟩ := h.cores b
  simp [Machine.deadWay, lostWay, h.hub, hb]

theorem OnlyActivity.stalePacket {s t : State} (h : OnlyActivity s t) (c : CoreId) (p : Packet) :
    stalePacket (getCore t c) p = stalePacket (getCore s c) p := by
  obtain ⟨_, hc⟩ := h.cores c
  rw [hc]
  rfl

theorem OnlyActivity.tagReason {s t : State} (h : OnlyActivity s t) (c : CoreId) (tag : BitVec 12) (ctx : HWord) :
    tagReason (getCore t c) tag ctx = tagReason (getCore s c) tag ctx := by
  obtain ⟨_, hc⟩ := h.cores c
  rw [hc]
  rfl

/-! ### What a core does with a packet (R252) -/

/-- A core that is reached takes packets. -/
theorem deadWay_of_reaches {s : State} {a b : CoreId} (h : Reaches s a b) : deadWay s a b = false := by
  simp [deadWay, h.notFenced, h.way]

/-- A tag delivers exactly where it is bound for the packet's context. -/
theorem tagReason_eq_none_iff {k : Core} {tag : BitVec 12} {ctx : HWord} :
    tagReason k tag ctx = none ↔ ∃ e, routeOf k tag = some e ∧ e.ctx = ctx := by
  unfold tagReason
  split <;> simp [*]

/-- An unbound tag is reason 0. -/
theorem tagReason_unbound {k : Core} {tag : BitVec 12} {ctx : HWord} (h : routeOf k tag = none) : tagReason k tag ctx = some 0 := by
  simp [tagReason, h]

/-- A tag bound for another context is reason 1. -/
theorem tagReason_foreign {k : Core} {tag : BitVec 12} {ctx : HWord} {e : RouteEntry} (h : routeOf k tag = some e) (he : e.ctx ≠ ctx) :
    tagReason k tag ctx = some 1 := by
  simp [tagReason, h, he]

/-- A full buffer holds a packet back that its core would accept. -/
theorem heldFull_iff {s : State} {p : Packet} (h : Reaches s p.src p.dst) :
    heldFull s p = true ↔ 64 ≤ (getCore s p.dst).queues.recv.length ∧ stalePacket (getCore s p.dst) p = false ∧
      ∃ e, routeOf (getCore s p.dst) p.tag = some e ∧ e.ctx = p.ctx := by
  rw [← tagReason_eq_none_iff]
  simp only [heldFull, deadWay_of_reaches h, Bool.not_false, Bool.true_and, Bool.and_eq_true, Bool.not_eq_true',
    Option.isNone_iff_eq_none, decide_eq_true_iff]
  exact and_comm

section
variable {s : State} {p : Packet} (hr : Reaches s p.src p.dst)
include hr

/-- A packet that was accepted before is dropped (R378). -/
theorem receivePacket_stale (h : stalePacket (getCore s p.dst) p = true) :
    receivePacket s p = updCore (markPassage s p.ctx p.src p.dst) p.dst dropPacket := by
  have hm := onlyActivity_markPassage s p.ctx p.src p.dst
  simp [receivePacket, hm.deadWay, hm.stalePacket, deadWay_of_reaches hr, h]

/-- A new one whose tag does not deliver is discarded with its reason (R252, R382). -/
theorem receivePacket_refused {r : Nat} (h : stalePacket (getCore s p.dst) p = false)
    (ht : tagReason (getCore s p.dst) p.tag p.ctx = some r) :
    receivePacket s p = pktDisc (markPassage s p.ctx p.src p.dst) p.dst p r := by
  have hm := onlyActivity_markPassage s p.ctx p.src p.dst
  simp [receivePacket, hm.deadWay, hm.stalePacket, hm.tagReason, deadWay_of_reaches hr, h, ht]

/-- Any other new one is accepted (R252). -/
theorem receivePacket_accepted (h : stalePacket (getCore s p.dst) p = false)
    (ht : tagReason (getCore s p.dst) p.tag p.ctx = none) :
    receivePacket s p = updCore (markPassage s p.ctx p.src p.dst) p.dst (acceptPacket s.time p) := by
  have hm := onlyActivity_markPassage s p.ctx p.src p.dst
  simp [receivePacket, hm.deadWay, hm.stalePacket, hm.tagReason, hm.time, deadWay_of_reaches hr, h, ht]

end

/-! ### A packet accepted (R252, R254, R378) -/

/-- A wake-up changes no queue. -/
@[simp] theorem wakeUp_queues (k : Core) (tag : BitVec 12) : (wakeUp k tag).queues = k.queues := by
  unfold wakeUp
  split
  · split <;> simp
  · rfl

/-- A wake-up changes no filter of packets. -/
@[simp] theorem wakeUp_pktSeen (k : Core) (tag : BitVec 12) : (wakeUp k tag).pktSeen = k.pktSeen := by
  unfold wakeUp
  split
  · split <;> simp
  · rfl

/-- A packet that is accepted stands at the end of the buffer. -/
@[simp] theorem acceptPacket_queues (now : DWord) (p : Packet) (k : Core) :
    (acceptPacket now p k).queues = { k.queues with recv := k.queues.recv ++ [{ pkt := p, tick := now }] } := by
  simp [acceptPacket, bufferPacket]

/-- Its number is the last of its source. -/
@[simp] theorem acceptPacket_pktSeen (now : DWord) (p : Packet) (k : Core) : (acceptPacket now p k).pktSeen = k.pktSeen.put p.source p.seq := by
  simp [acceptPacket, bufferPacket]

/-- A packet that ends leaves the network, and nothing else of the hub changes. -/
@[simp] theorem endPacket_hub (s : State) (n : Nat) (p : Packet) : (endPacket s n p).hub = { s.hub with net := dropNth s.hub.net n } := by
  unfold endPacket
  split <;> rfl

@[simp] theorem endPacket_l2 (s : State) (n : Nat) (p : Packet) : (endPacket s n p).l2 = s.l2 := by
  unfold endPacket
  split <;> rfl

@[simp] theorem endPacket_store (s : State) (n : Nat) (p : Packet) : (endPacket s n p).store = s.store := by
  unfold endPacket
  split <;> rfl

/-- The end of a packet changes no queue of its destination. -/
@[simp] theorem endPacket_queues (s : State) (n : Nat) (p : Packet) : (getCore (endPacket s n p) p.dst).queues = (getCore s p.dst).queues := by
  unfold endPacket
  split
  · rw [getCore_updCore_self]
    rfl
  · rfl

/-- The end of a packet of a core changes no core. -/
theorem getCore_endPacket {p : Packet} (s : State) (n : Nat) (c : CoreId) (h : p.carrier = false) :
    getCore (endPacket s n p) c = getCore s c := by
  simp [endPacket, h, getCore]

/-! ### The turn of a packet (R253, R376, R377) -/

section
variable {s : State} {xs ys : List Packet} {p : Packet} (hnet : s.hub.net = xs ++ p :: ys)
  (hfirst : ∀ q ∈ xs, ¬(q.source = p.source ∧ q.dst = p.dst)) (hway : p.way.passage s.time false = .goes)

include hnet in
theorem getElem?_net : s.hub.net[xs.length]? = some p := by simp [hnet]

include hnet hfirst in
/-- No packet of its source before it holds it back (R253). -/
theorem heldBack_eq_false : heldBack s.hub.net xs.length p = false := by
  simpa [heldBack, hnet] using hfirst

include hnet hway in
/-- A packet that a full buffer holds back stays as it is (R252). -/
theorem arrivePacket_held (h : heldFull s p = true) : arrivePacket s xs.length = s := by
  simp [arrivePacket, getElem?_net hnet, hway, h]

include hnet hfirst hway in
/-- A packet whose flit is dropped is kept to be sent again (R376). -/
theorem arrivePacket_lost (h : heldFull s p = false) {r : List Bool} (hf : s.hub.flits = false :: r) :
    arrivePacket s xs.length = keepPacket { s with hub := { s.hub with flits := r } } xs.length := by
  simp [arrivePacket, getElem?_net hnet, hway, h, heldBack_eq_false hnet hfirst, hubFlit, hf]

include hnet hfirst hway in
/-- With good flits a packet reaches its core and is acknowledged (R252). -/
theorem arrivePacket_good (h : heldFull s p = false) (hf : s.hub.flits = []) :
    arrivePacket s xs.length = endPacket (receivePacket s p) xs.length p := by
  simp [arrivePacket, getElem?_net hnet, hway, h, heldBack_eq_false hnet hfirst, hubFlit, hf]

end

/-! ### The obligation -/

theorem packetsArrive : Parts.PacketsArrive := by
  intro s xs ys p hp hnet hfirst hr hway k i s1 full answered
  have hexec : exec i s = .next (arrivePacket s xs.length) := exec_packetArrival xs.length hp
  have hheld : heldFull s p = true ↔ full := heldFull_iff hr
  have hfree (hfull : ¬full) : heldFull s p = false := Bool.eq_false_of_not_eq_true (mt hheld.1 hfull)
  have hgood {u : State} (hu : receivePacket s p = u) (hfull : ¬full) (hf : s.hub.flits = []) : answered u := by
    subst hu
    exact hexec.trans (congrArg _ (arrivePacket_good hnet hfirst hway (hfree hfull) hf))
  refine ⟨fun hfull => ?held, fun r hfull hf => ?lost, fun hf => ⟨fun hs => ?stale, fun hs hroute => ?unbound, fun e hs hroute =>
    ⟨fun he => ?foreign, fun he hroom => ?accepted⟩⟩⟩
  case held => rw [hexec, arrivePacket_held hnet hway (hheld.2 hfull)]
  case lost => rw [hexec, arrivePacket_lost hnet hfirst hway (hfree hfull) hf]
  case stale =>
    refine hgood (receivePacket_stale hr hs) (fun ⟨_, hnew, _⟩ => ?_) hf
    exact Bool.false_ne_true (hnew.symm.trans hs)
  case unbound =>
    refine hgood (receivePacket_refused hr hs (tagReason_unbound hroute)) (fun ⟨_, _, e, hbound, _⟩ => ?_) hf
    exact Option.some_ne_none e (hbound.symm.trans hroute)
  case foreign =>
    refine hgood (receivePacket_refused hr hs (tagReason_foreign hroute he)) (fun ⟨_, _, e', hbound, hctx⟩ => ?_) hf
    exact he (Option.some.inj (hbound.symm.trans hroute) ▸ hctx)
  case accepted =>
    have hm := onlyActivity_markPassage s p.ctx p.src p.dst
    obtain ⟨act, hdst⟩ := hm.cores p.dst
    refine ⟨_, hgood (receivePacket_accepted hr hs (tagReason_eq_none_iff.2 ⟨e, hroute, he⟩))
      (fun ⟨hlen, _⟩ => Nat.not_lt.2 hlen hroom) hf, ?_, ?_, ?_, ?_, fun hcar => ?_⟩
    · simp [hm.hub, hnet, dropNth_append]
    · simp [hm.l2]
    · simp [hm.store]
    · simp [hdst, k]
    · simp [getCore_endPacket _ _ _ hcar]

/-- A load that completes fills its latch and leaves the other one alone (R158). -/
theorem latchLoadsComplete (s : State) (c : CoreId) (l : BitVec 1) (hp : s.hub.regs.power.on = true) (hc : isCore c = true)
    (hl : (latchOf (getCore s c) l).state = .loading) (hm : movingInto s c l = false) :
    ∃ t, exec (.latchLoadComplete c l) s = .next t ∧ OnlyAt s t c ∧
      (latchOf (getCore t c) l).state = .full ∧ (latchOf (getCore t c) l).tile = (latchOf (getCore s c) l).tile ∧
      (∀ m, m ≠ l → latchOf (getCore t c) m = latchOf (getCore s c) m) := by
  refine ⟨_, (exec_latchLoadComplete l hp hc).trans (congrArg _ (loadComplete_loading hl hm)), onlyAt_updCore .., ?_⟩
  rw [getCore_updCore_self, latchOf_setLatch_self]
  exact ⟨rfl, rfl, fun m hne => latchOf_setLatch_other _ _ hne⟩

theorem tilesMove : Parts.TilesMove := by
  refine ⟨latchLoadsComplete, ?_⟩
  intro s c i j hp hc hij n hn hgang hfence
  have hexec := exec_handOn i hp hc
  have hother (u : State) (f : Core → Core) : getCore (updCore u c f) n = getCore u n := getCore_updCore_other _ _ _ _ hn
  have hself (f : Core → Core) : getCore (updCore s n f) c = getCore s c := getCore_updCore_other _ _ _ _ hn.symm
  refine ⟨fun hmove hroom => ?start, fun hmove hroom => ?wait, fun hmove hload => ?arrive⟩
  case start =>
    obtain ⟨e, r, hq⟩ := exists_head_of_handOnOf hij
    refine ⟨_, hexec.trans (congrArg _ (handOn_start hij (n := n) rfl hgang hfence hmove hroom)), ?_⟩
    rw [getCore_updCore_self, hother, hself, getCore_updCore_self, latchOf_setLatch_self]
    exact ⟨handsOn_modMatrix _ hq, rfl, rfl, rfl, rfl, fun _ => rfl⟩
  case wait => exact hexec.trans (congrArg _ (handOn_wait hij (n := n) rfl hgang hfence hmove hroom))
  case arrive =>
    refine ⟨_, hexec.trans (congrArg _ (handOn_end hij (n := n) rfl hgang hfence hmove hload)), ?_⟩
    simp only [getCore_updCore_self, hother, hself, latchOf_setLatch_self, latchOf_modMatrix, true_and]
    exact fun m hne => latchOf_setLatch_other _ _ hne

/-- Settles O55: a packet by what holds it back, what its flits do and what its core does with it, and a tile by the turn of its load or of
its hand-on. -/
theorem arrivalsAndTiles : Obligations.ArrivalsAndTiles := ⟨packetsArrive, tilesMove⟩

end Sys2Proof.Machine

/-! ## The canonical form of the byte memory (R191, R397)

One fact per function of the model that carries the state: what it hands on has its byte memory in canonical form when what it was
given has. Only the stores write the byte memory, and `Laws/Memory` says that each keeps the form; every other function passes it on,
so its lemma follows its definition, branch by branch, and cites the lemmas of what it calls. Lemmas are named after the function:
`f_canonical` where `f` gives a state, `keepsMemory_f` where it is a meaning, `canonicalNext_f` where it is an outcome. -/

namespace Sys2Proof.Machine

/-! ### The state -/

theorem foldl_canonical {β : Type} {f : State → β → State} {l : List β} {s : State} (h : ∀ s b, MemoryCanonical s → MemoryCanonical (f s b))
    (hs : MemoryCanonical s) : MemoryCanonical (l.foldl f s) := by
  induction l generalizing s with
  | nil => exact hs
  | cons b l ih => exact ih (h s b hs)

theorem ite_canonical {p : Prop} [Decidable p] {s t : State} (hs : MemoryCanonical s) (ht : MemoryCanonical t) :
    MemoryCanonical (if p then s else t) := by
  split
  · exact hs
  · exact ht

theorem fst_ite_canonical {α : Type} {p : Prop} [Decidable p] {s t : State × α} (hs : MemoryCanonical s.1) (ht : MemoryCanonical t.1) :
    MemoryCanonical (if p then s else t).1 := by
  split
  · exact hs
  · exact ht

theorem fst_canonical {α : Type} {p : State × α} {t : State} {a : α} (hp : p = (t, a)) (h : MemoryCanonical p.1) : MemoryCanonical t := by
  subst hp
  exact h

/-- An update that leaves the store alone. -/
theorem of_store_canonical {s t : State} (h : MemoryCanonical s) (e : t.store = s.store) : MemoryCanonical t := by
  unfold MemoryCanonical
  rw [e]
  exact h

theorem withHub_canonical {s : State} {g : Hub} (h : MemoryCanonical s) : MemoryCanonical { s with hub := g } := h

theorem withFree_canonical {s : State} {n : Nat} (h : MemoryCanonical s) : MemoryCanonical { s with free := n } := h

theorem setCore_canonical {s : State} {c : CoreId} {k : Core} (h : MemoryCanonical s) : MemoryCanonical (setCore s c k) := h

theorem updCore_canonical {s : State} {c : CoreId} {f : Core → Core} (h : MemoryCanonical s) : MemoryCanonical (updCore s c f) := h

theorem putStoreLine_canonical {s : State} {line : Nat} {d : BitVec 1024} {mask : BitVec 128} {p : BitVec 32} (h : MemoryCanonical s) :
    MemoryCanonical (putStoreLine s line d mask p) :=
  putStoreLine_wf h _ _ _ _

theorem storePut_canonical {s : State} {pa n v : Nat} {bad : Bool} (h : MemoryCanonical s) : MemoryCanonical (storePut s pa n v bad) :=
  storePut_wf h _ _ _ _

theorem zeroScratch_canonical {s : State} {c : CoreId} (h : MemoryCanonical s) : MemoryCanonical (zeroScratch s c) := zeroScratch_wf h _

theorem resetKeeping_canonical {s : State} {keep : Nat → Bool} (h : MemoryCanonical s) : MemoryCanonical (resetKeeping s keep) :=
  resetKeeping_wf h _

theorem foldl_fst_canonical {α β : Type} {f : State × α → β → State × α} {l : List β} {p : State × α}
    (h : ∀ p b, MemoryCanonical p.1 → MemoryCanonical (f p b).1) (hp : MemoryCanonical p.1) : MemoryCanonical (l.foldl f p).1 := by
  induction l generalizing p with
  | nil => exact hp
  | cons b l ih => exact ih (h p b hp)

/-! ### Meanings -/

/-- The state in which a meaning ends, however it ends. -/
def endState {α : Type} : EStateM.Result Stop State α → State
  | .ok _ s => s
  | .error _ s => s

/-- A meaning that keeps the canonical form, whether it answers or stops. -/
def KeepsMemory {α : Type} (m : M α) : Prop := ∀ s, MemoryCanonical s → MemoryCanonical (endState (m s))

/-- An outcome whose next state, where there is one, has its memory in canonical form. -/
def CanonicalNext (o : Out) : Prop := ∀ t, o = .next t → MemoryCanonical t

section
variable {α β : Type}

theorem KeepsMemory.run {m : M α} (hm : KeepsMemory m) {s : State} (h : MemoryCanonical s) : MemoryCanonical (endState (m s)) := hm s h

theorem ok_canonical {r : EStateM.Result Stop State α} {a : α} {s : State} (h : r = .ok a s) (hr : MemoryCanonical (endState r)) :
    MemoryCanonical s := by
  subst h
  exact hr

theorem error_canonical {r : EStateM.Result Stop State α} {e : Stop} {s : State} (h : r = .error e s) (hr : MemoryCanonical (endState r)) :
    MemoryCanonical s := by
  subst h
  exact hr

theorem keepsMemory_getD {o : Option (M α)} {n : M α} (ho : ∀ m, o = some m → KeepsMemory m) (hn : KeepsMemory n) :
    KeepsMemory (o.getD n) := by
  cases o with
  | none => exact hn
  | some m => exact ho m rfl

theorem keepsMemory_pure {a : α} : KeepsMemory (pure a : M α) := fun _ h => h

theorem keepsMemory_raise {x : Cause} {v : DWord} : KeepsMemory (raise x v : M α) := fun _ h => h

theorem keepsMemory_wait : KeepsMemory (waitHere : M α) := fun _ h => h

theorem keepsMemory_throw {e : Stop} : KeepsMemory (throw e : M α) := fun _ h => h

theorem keepsMemory_get : KeepsMemory (get : M State) := fun _ h => h

theorem keepsMemory_theCore {c : CoreId} : KeepsMemory (theCore c) := fun _ h => h

theorem keepsMemory_modCore {c : CoreId} {f : Core → Core} : KeepsMemory (modCore c f) := fun _ h => h

theorem keepsMemory_modHub {f : Hub → Hub} : KeepsMemory (modHub f) := fun _ h => h

theorem keepsMemory_freshUse : KeepsMemory freshUse := fun _ h => h

theorem keepsMemory_modify {g : State → State} (h : ∀ s, MemoryCanonical s → MemoryCanonical (g s)) : KeepsMemory (modify g : M PUnit) := h

theorem keepsMemory_answer {g : State → State × α} (h : ∀ s, MemoryCanonical s → MemoryCanonical (g s).1) : KeepsMemory (answer g) := h

theorem KeepsMemory.bind {m : M α} {f : α → M β} (hm : KeepsMemory m) (hf : ∀ a, KeepsMemory (f a)) : KeepsMemory (m >>= f) := by
  intro s h
  have hs := hm s h
  cases hms : m s with
  | ok a t =>
    rw [hms] at hs
    rw [M.bind_ok hms]
    exact hf a t hs
  | error e t =>
    rw [hms] at hs
    rw [M.bind_error hms]
    exact hs

theorem keepsMemory_ite {p : Prop} [Decidable p] {m n : M α} (hm : KeepsMemory m) (hn : KeepsMemory n) :
    KeepsMemory (if p then m else n) := by
  split
  · exact hm
  · exact hn

theorem keepsMemory_require {b : Bool} {x : Cause} {v : DWord} : KeepsMemory (require b x v) :=
  keepsMemory_ite keepsMemory_pure keepsMemory_raise

theorem keepsMemory_awaitThat {b : Bool} : KeepsMemory (awaitThat b) := keepsMemory_ite keepsMemory_pure keepsMemory_wait

theorem keepsMemory_eachOf {f : α → M Unit} (h : ∀ a, KeepsMemory (f a)) {l : List α} : KeepsMemory (eachOf l f) := by
  induction l with
  | nil => exact keepsMemory_pure
  | cons a l ih => exact (h a).bind fun _ => ih

theorem keepsMemory_collect {f : α → M β} (h : ∀ a, KeepsMemory (f a)) {l : List α} : KeepsMemory (collect l f) := by
  induction l with
  | nil => exact keepsMemory_pure
  | cons a l ih => exact (h a).bind fun _ => ih.bind fun _ => keepsMemory_pure

theorem keepsMemory_tryCatch {m : M α} {f : Stop → M α} (hm : KeepsMemory m) (hf : ∀ e, KeepsMemory (f e)) :
    KeepsMemory (tryCatch m f) := by
  intro s h
  have hs := hm s h
  change MemoryCanonical (endState (EStateM.tryCatch m f s))
  unfold EStateM.tryCatch
  cases hms : m s with
  | ok a t =>
    rw [hms] at hs
    exact hs
  | error e t =>
    rw [hms] at hs
    exact hf e t hs

/-- What a vector instruction executes with keeps the canonical form: how it makes a row resident, and how it cuts a row's pin. -/
structure VxKeeps (x : Vx) : Prop where
  ens : ∀ r, KeepsMemory (x.ens r)
  cut : ∀ r, KeepsMemory (x.cut r)

theorem keepsMemory_vxEns {x : Vx} {r : BitVec 6} (h : VxKeeps x) : KeepsMemory (x.ens r) := h.ens r

theorem keepsMemory_vxCut {x : Vx} {r : BitVec 6} (h : VxKeeps x) : KeepsMemory (x.cut r) := h.cut r

theorem canonicalNext_next {s : State} (h : MemoryCanonical s) : CanonicalNext (.next s) := by
  rintro t ⟨⟩
  exact h

theorem canonicalNext_fault {f : Fault} : CanonicalNext (.fault f) := by
  intro t h
  cases h

theorem canonicalNext_refused {r : Refusal} : CanonicalNext (.refused r) := by
  intro t h
  cases h

theorem canonicalNext_ite {p : Prop} [Decidable p] {o q : Out} (ho : CanonicalNext o) (hq : CanonicalNext q) :
    CanonicalNext (if p then o else q) := by
  split
  · exact ho
  · exact hq

end

/-! ### The stores and the copies -/

theorem hubFlit_canonical {s : State} (h : MemoryCanonical s) : MemoryCanonical (hubFlit s).1 := by
  unfold hubFlit
  split <;> exact h

theorem queueErr_canonical {s : State} {e : ErrRec} (h : MemoryCanonical s) : MemoryCanonical (queueErr s e) := h

theorem evictErrors_canonical {s : State} {coord line : Nat} {bad : BitVec 4} {dirty : BitVec 128} {writer : Word} (h : MemoryCanonical s) :
    MemoryCanonical (evictErrors s coord line bad dirty writer) :=
  ite_canonical h (foldl_canonical (fun _ _ h1 => ite_canonical (queueErr_canonical h1) h1) h)

theorem notePort_canonical {s : State} {line : Nat} (h : MemoryCanonical s) : MemoryCanonical (notePort s line) :=
  ite_canonical h (ite_canonical h h)

theorem roomForRecord_canonical {s : State} {bits line : Nat} (h : MemoryCanonical s) : MemoryCanonical (roomForRecord s bits line) := by
  unfold roomForRecord
  refine ite_canonical h (ite_canonical h ?_)
  split <;> exact h

theorem countPage_canonical {s : State} {who : Who} {ac line : Nat} (h : MemoryCanonical s) :
    MemoryCanonical (countPage s who ac line) := by
  unfold countPage
  refine ite_canonical h ?_
  dsimp only
  split
  · split <;> exact roomForRecord_canonical h
  · split <;> exact roomForRecord_canonical h

theorem applyBack_canonical {s : State} {line : Nat} {p : Payload} (h : MemoryCanonical s) : MemoryCanonical (applyBack s line p) := by
  unfold applyBack
  dsimp only
  split <;> exact putStoreLine_canonical (evictErrors_canonical (ite_canonical h (notePort_canonical h)))

theorem dropL2_canonical {s : State} {line : Nat} (h : MemoryCanonical s) : MemoryCanonical (dropL2 s line) := by
  unfold dropL2
  split
  · exact ite_canonical h h
  · exact h

theorem writeBackL2_canonical {s : State} {line : Nat} (h : MemoryCanonical s) : MemoryCanonical (writeBackL2 s line) := by
  unfold writeBackL2
  split
  · exact ite_canonical h (applyBack_canonical h)
  · exact h

theorem evictL2_canonical {s : State} {line : Nat} (h : MemoryCanonical s) : MemoryCanonical (evictL2 s line) :=
  dropL2_canonical (writeBackL2_canonical h)

theorem replySpill_canonical {s : State} {m : Spill} (h : MemoryCanonical s) : MemoryCanonical (replySpill s m) :=
  ite_canonical (hubFlit_canonical h) (hubFlit_canonical h)

theorem issueSpill_canonical {s : State} {m : Spill} (h : MemoryCanonical s) : MemoryCanonical (issueSpill s m) :=
  ite_canonical (hubFlit_canonical h) (ite_canonical (replySpill_canonical (hubFlit_canonical h)) (replySpill_canonical (ite_canonical
      (dropL2_canonical (applyBack_canonical (hubFlit_canonical h))) (applyBack_canonical (hubFlit_canonical h)))))

theorem moveSpill_canonical {s : State} {m : Spill} (h : MemoryCanonical s) : MemoryCanonical (moveSpill s m) := by
  unfold moveSpill
  split
  · exact h
  · exact ite_canonical (queueErr_canonical h) (ite_canonical h (issueSpill_canonical h))

theorem moveSpills_canonical {s : State} (h : MemoryCanonical s) : MemoryCanonical (moveSpills s) :=
  foldl_canonical (fun _ _ h1 => moveSpill_canonical h1) h

theorem sendL2_canonical {s : State} {line : Nat} {drop : Bool} (h : MemoryCanonical s) : MemoryCanonical (sendL2 s line drop) := by
  unfold sendL2
  split
  · exact ite_canonical (ite_canonical (evictL2_canonical h) (writeBackL2_canonical h)) (ite_canonical h (issueSpill_canonical h))
  · exact h

theorem spillL2_canonical {s : State} {line : Nat} (h : MemoryCanonical s) : MemoryCanonical (spillL2 s line) := sendL2_canonical h

theorem renewL2_canonical {s : State} {line : Nat} (h : MemoryCanonical s) : MemoryCanonical (renewL2 s line) := by
  unfold renewL2
  split <;> exact h

theorem expireL2_canonical {s : State} {line : Nat} (h : MemoryCanonical s) : MemoryCanonical (expireL2 s line) := by
  unfold expireL2
  split
  · exact ite_canonical (renewL2_canonical (spillL2_canonical h)) h
  · exact h

theorem roomL2_canonical {s : State} {line : Nat} (h : MemoryCanonical s) : MemoryCanonical (roomL2 s line) := by
  unfold roomL2
  refine ite_canonical h ?_
  split
  · exact spillL2_canonical h
  · exact h

theorem meetErrors_canonical {s : State} {who : Who} {line : Nat} (h : MemoryCanonical s) : MemoryCanonical (meetErrors s who line) :=
  ite_canonical h (foldl_canonical (fun _ _ h1 => ite_canonical h1 (queueErr_canonical h1)) h)

theorem takeL2_canonical {s : State} {line : Nat} (h : MemoryCanonical s) : MemoryCanonical (takeL2 s line) :=
  ite_canonical h (notePort_canonical (roomL2_canonical h))

theorem writeL2_canonical {s : State} {who : Who} {line : Nat} {d : BitVec 1024} {mask : BitVec 128} {p : BitVec 32} {region : Byte}
    {writer : Word} (h : MemoryCanonical s) : MemoryCanonical (writeL2 s who line d mask p region writer) :=
  ite_canonical (putStoreLine_canonical (takeL2_canonical h)) (takeL2_canonical h)

theorem syncHost_canonical {s : State} {line : Nat} {drop : Bool} (h : MemoryCanonical s) : MemoryCanonical (syncHost s line drop) := by
  unfold syncHost
  split
  · exact ite_canonical (expireL2_canonical h) (writeL2_canonical (countPage_canonical (expireL2_canonical h)))
  · exact h

theorem foldOne_canonical {s : State} {line : Nat} {e : Nat × CoreId × Partial} (h : MemoryCanonical s) :
    MemoryCanonical (foldOne s line e) := by
  unfold foldOne
  split
  · exact writeL2_canonical h
  · exact h

theorem foldWords_canonical {s : State} {line : Nat} {words : Word} (h : MemoryCanonical s) : MemoryCanonical (foldWords s line words) :=
  ite_canonical h (foldl_canonical (fun _ _ h1 => foldOne_canonical h1) (syncHost_canonical (expireL2_canonical h)))

theorem foldLine_canonical {s : State} {line : Nat} (h : MemoryCanonical s) : MemoryCanonical (foldLine s line) := foldWords_canonical h

theorem roomForPartial_canonical {s : State} {line : Nat} (h : MemoryCanonical s) : MemoryCanonical (roomForPartial s line) := by
  unfold roomForPartial
  refine ite_canonical h (ite_canonical h ?_)
  split
  · exact foldLine_canonical h
  · exact h

theorem markWatched_canonical {s : State} {c : CoreId} {g : Byte} (h : MemoryCanonical s) : MemoryCanonical (markWatched s c g) := by
  unfold markWatched
  split
  · exact ite_canonical h h
  · exact h

theorem grantAt_canonical {s : State} {w : Nat} (h : MemoryCanonical s) : MemoryCanonical (grantAt s w) := by
  unfold grantAt
  split
  · exact markWatched_canonical (ite_canonical (evictL2_canonical (writeL2_canonical (syncHost_canonical (foldWords_canonical (expireL2_canonical
      h))))) (writeL2_canonical (syncHost_canonical (foldWords_canonical (expireL2_canonical h)))))
  · exact h

theorem grantZeros_canonical {s : State} {line : Nat} {mask : BitVec 128} (h : MemoryCanonical s) :
    MemoryCanonical (grantZeros s line mask) :=
  foldl_canonical (fun _ _ h1 => ite_canonical h1 (ite_canonical (grantAt_canonical h1) h1)) h

theorem noteLate_canonical {s : State} {line : Nat} (h : MemoryCanonical s) : MemoryCanonical (noteLate s line) := by
  unfold noteLate
  split
  · exact ite_canonical h h
  · exact h

theorem applyPush_canonical {s : State} {who met : Who} {ac line : Nat} {d : BitVec 1024} {mask : BitVec 128} {p : BitVec 32}
    {region : Byte} {writer : Word} (h : MemoryCanonical s) : MemoryCanonical (applyPush s who met ac line d mask p region writer) :=
  ite_canonical h (grantZeros_canonical (writeL2_canonical (countPage_canonical (foldWords_canonical (syncHost_canonical (meetErrors_canonical
      (expireL2_canonical (noteLate_canonical h))))))))

theorem passHome_canonical {s : State} {c : CoreId} {line : Nat} {d : BitVec 1024} {mask : BitVec 128} {p : BitVec 32}
    (h : MemoryCanonical s) : MemoryCanonical (passHome s c line d mask p) := by
  unfold passHome
  dsimp only
  split <;> exact h

theorem homePartial_canonical {s : State} {c : CoreId} {w : Nat} {p : Partial} (h : MemoryCanonical s) :
    MemoryCanonical (homePartial s c w p) := by
  have hc : MemoryCanonical (countPage (roomForPartial s (w / 32)) (.core c) p.ac (w / 32)) := countPage_canonical (roomForPartial_canonical h)
  exact hc

theorem fillL2_canonical {s : State} {who : Who} {line : Nat} {region : Byte} (h : MemoryCanonical s) :
    MemoryCanonical (fillL2 s who line region) :=
  ite_canonical h (ite_canonical (takeL2_canonical (meetErrors_canonical h)) (takeL2_canonical (meetErrors_canonical h)))

theorem useFree_canonical {s : State} {line : Nat} (h : MemoryCanonical s) : MemoryCanonical (useFree s line) := ite_canonical h h

theorem serveWords_canonical {s : State} {who : Who} {ac line : Nat} {region : Byte} {words : Word} (h : MemoryCanonical s) :
    MemoryCanonical (serveWords s who ac line region words).1 :=
  useFree_canonical (ite_canonical (fillL2_canonical (countPage_canonical (foldWords_canonical (syncHost_canonical (meetErrors_canonical
      (expireL2_canonical (noteLate_canonical h))))))) (countPage_canonical (foldWords_canonical (syncHost_canonical (meetErrors_canonical
      (expireL2_canonical (noteLate_canonical h)))))))

theorem homeServe_canonical {s : State} {who : Who} {ac line : Nat} {region : Byte} (h : MemoryCanonical s) :
    MemoryCanonical (homeServe s who ac line region).1 :=
  serveWords_canonical h

/-! ### Pushes, recalls and what the hub's engines read and write -/

theorem pinLine_canonical {s : State} {who : Who} {line : Nat} {region : Byte} (h : MemoryCanonical s) :
    MemoryCanonical (pinLine s who line region) := by
  unfold pinLine
  dsimp only
  split
  · exact ite_canonical h h
  · exact ite_canonical (queueErr_canonical (ite_canonical (takeL2_canonical (meetErrors_canonical h)) (takeL2_canonical (meetErrors_canonical
      h)))) (ite_canonical (takeL2_canonical (meetErrors_canonical h)) (takeL2_canonical (meetErrors_canonical h)))

theorem markDie_canonical {s : State} {c : CoreId} {b : Nat} (h : MemoryCanonical s) : MemoryCanonical (markDie s c b) := by
  unfold markDie
  dsimp only
  split
  · exact ite_canonical h h
  · exact h

theorem pushRefused_canonical {s : State} {c : CoreId} {p : Push} {r : Refused} (h : MemoryCanonical s) :
    MemoryCanonical (pushRefused s c p r) := by
  unfold pushRefused
  split
  · split <;> exact h
  · exact h
  · exact h
  · exact noteLate_canonical h

theorem applyL1_canonical {s : State} {cause c : CoreId} {line : Nat} {p : Payload} (h : MemoryCanonical s) :
    MemoryCanonical (applyL1 s cause c line p) :=
  ite_canonical (evictErrors_canonical h) (passHome_canonical (applyPush_canonical (ite_canonical (pinLine_canonical (evictErrors_canonical h))
      (evictErrors_canonical h))))

theorem dropL1_canonical {s : State} {c : CoreId} {line : Nat} (h : MemoryCanonical s) : MemoryCanonical (dropL1 s c line) := by
  unfold dropL1
  split
  · exact ite_canonical h h
  · exact h

theorem endOwn_canonical {s : State} {o : CoreId} {line : Nat} (h : MemoryCanonical s) : MemoryCanonical (endOwn s o line) := h

theorem applyHome_canonical {s : State} {cause hc : CoreId} {line : Nat} {drop : Bool} {p : Payload} (h : MemoryCanonical s) :
    MemoryCanonical (applyHome s cause hc line drop p) :=
  updCore_canonical (applyPush_canonical (evictErrors_canonical h))

theorem broadcastVersion_canonical {s : State} {g : Nat} (h : MemoryCanonical s) : MemoryCanonical (broadcastVersion s g) := h

theorem bumpRegion_canonical {s : State} {g : Nat} (h : MemoryCanonical s) : MemoryCanonical (bumpRegion s g) := by
  unfold bumpRegion
  split
  · exact broadcastVersion_canonical h
  · exact h

theorem makeRoomBy_canonical {push : State → CoreId → Push → State} {s : State} {c : CoreId} {line : Nat}
    (hpush : ∀ (t : State), MemoryCanonical t → ∀ (d : CoreId) (p : Push), MemoryCanonical (push t d p)) (h : MemoryCanonical s) :
    MemoryCanonical (makeRoomBy push s c line) := by
  unfold makeRoomBy
  refine ite_canonical h ?_
  split
  · exact hpush _ h _ _
  · exact h

theorem fillHome_canonical {s : State} {hc : CoreId} {line : Nat} {region : Byte} {ac : Nat} (h : MemoryCanonical s) :
    MemoryCanonical (fillHome s hc line region ac) := by
  unfold fillHome
  split
  · exact h
  · exact updCore_canonical (homeServe_canonical h)

theorem applyCluster_canonical {s : State} {c : CoreId} {line : Nat} {p : Payload} (h : MemoryCanonical s) :
    MemoryCanonical (applyCluster s c line p) :=
  updCore_canonical (fillHome_canonical (evictErrors_canonical h))

theorem PushMsg.perform_canonical {s : State} {m : PushMsg} (h : MemoryCanonical s) : MemoryCanonical (PushMsg.perform s m) := by
  unfold PushMsg.perform
  dsimp only
  split
  · split
    · exact homePartial_canonical h
    · exact h
  · exact updCore_canonical (applyL1_canonical h)
  · exact updCore_canonical (applyCluster_canonical h)
  · exact dropL1_canonical (updCore_canonical (applyL1_canonical h))
  · exact endOwn_canonical (updCore_canonical (applyL1_canonical h))
  · exact applyHome_canonical h
  · exact ite_canonical (evictL2_canonical h) (writeBackL2_canonical h)
  · exact bumpRegion_canonical h

theorem takePart_canonical {s : State} {c : CoreId} {p : Push} (h : MemoryCanonical s) : MemoryCanonical (takePart s c p) := by
  unfold takePart
  split <;> exact h

theorem returnPart_canonical {s : State} {m : PushMsg} (h : MemoryCanonical s) : MemoryCanonical (returnPart s m) := by
  unfold returnPart
  split
  · exact ite_canonical h h
  · exact h

theorem recordPush_canonical {s : State} {m : PushMsg} (h : MemoryCanonical s) : MemoryCanonical (recordPush s m) := by
  unfold recordPush
  split <;> exact h

theorem settleLine_canonical {s : State} {c : CoreId} {line : Nat} (h : MemoryCanonical s) : MemoryCanonical (settleLine s c line) := by
  refine foldl_canonical (fun s m hs => ?_) h
  have hp : MemoryCanonical (recordPush (m.perform s) m) := recordPush_canonical (PushMsg.perform_canonical hs)
  exact hp

theorem performNow_canonical {s : State} {cause c : CoreId} {p : Push} (h : MemoryCanonical s) : MemoryCanonical (performNow s cause c p) :=
  PushMsg.perform_canonical (takePart_canonical (settleLine_canonical h))

theorem recallNow_canonical {s : State} {cause o : CoreId} {line : Nat} (h : MemoryCanonical s) :
    MemoryCanonical (recallNow s cause o line) :=
  performNow_canonical h

theorem homePush_canonical {s : State} {who : Who} {ac line : Nat} {d : BitVec 1024} {mask : BitVec 128} {p : BitVec 32} {region : Byte}
    {writer : Word} {met : Who} (h : MemoryCanonical s) : MemoryCanonical (homePush s who ac line d mask p region writer met) := by
  unfold homePush
  refine ite_canonical h (applyPush_canonical ?_)
  split
  · exact recallNow_canonical h
  · exact h

theorem engineWrite_canonical {fuel : Nat} {s : State} {pa n v marks : Nat} (h : MemoryCanonical s) :
    MemoryCanonical (engineWrite fuel s pa n v marks) := by
  induction fuel generalizing s pa n v marks with
  | zero => exact h
  | succ fuel ih =>
    unfold engineWrite
    exact ite_canonical h (ih (ite_canonical h (ite_canonical (writeBackL2_canonical (homePush_canonical h)) (homePush_canonical h))))

theorem hubStore_canonical {s : State} {pa n v : Nat} (h : MemoryCanonical s) : MemoryCanonical (hubStore s pa n v) :=
  engineWrite_canonical h

theorem hubStoreMarked_canonical {s : State} {pa n v marks : Nat} (h : MemoryCanonical s) :
    MemoryCanonical (hubStoreMarked s pa n v marks) :=
  engineWrite_canonical h

theorem engineRead_canonical {who : Who} {fuel : Nat} {s : State} {pa n : Nat} (h : MemoryCanonical s) :
    MemoryCanonical (engineRead who fuel s pa n).1 := by
  induction fuel generalizing s pa n with
  | zero => exact h
  | succ fuel ih =>
    unfold engineRead
    exact fst_ite_canonical h (ih (serveWords_canonical h))

theorem hubLoad_canonical {s : State} {pa n : Nat} (h : MemoryCanonical s) : MemoryCanonical (hubLoad s pa n).1 :=
  engineRead_canonical h

theorem flushForeign_canonical {s : State} {r : Regions} {drop : Bool} (h : MemoryCanonical s) : MemoryCanonical (flushForeign s r drop) :=
  foldl_canonical (fun _ _ h1 => ite_canonical (evictL2_canonical h1) (writeBackL2_canonical h1)) h

theorem signalHost_canonical {s : State} {v : Nat} (h : MemoryCanonical s) : MemoryCanonical (signalHost s v) := h

theorem ringAppend_canonical {s : State} {r : Ring} {vector bytes rec : Nat} (h : MemoryCanonical s) :
    MemoryCanonical (ringAppend s r vector bytes rec).1 :=
  fst_ite_canonical h (signalHost_canonical (flushForeign_canonical (hubStore_canonical h)))

theorem report_canonical {s : State} {e : ErrRec} (h : MemoryCanonical s) : MemoryCanonical (report s e) := ringAppend_canonical h

theorem coreFlit_canonical {s : State} {c : CoreId} (h : MemoryCanonical s) : MemoryCanonical (coreFlit s c).1 := by
  unfold coreFlit
  split <;> exact h

theorem awaitPush_canonical {s : State} {m : PushMsg} (h : MemoryCanonical s) : MemoryCanonical (awaitPush s m) := h

theorem replyPush_canonical {s : State} {m : PushMsg} (h : MemoryCanonical s) : MemoryCanonical (replyPush s m) :=
  ite_canonical (coreFlit_canonical h) (awaitPush_canonical (coreFlit_canonical h))

theorem landPush_canonical {s : State} {m : PushMsg} (h : MemoryCanonical s) : MemoryCanonical (landPush s m) :=
  ite_canonical (awaitPush_canonical (noteLate_canonical h)) (replyPush_canonical (recordPush_canonical (PushMsg.perform_canonical h)))

theorem issuePush_canonical {land : State → PushMsg → State} {s : State} {m : PushMsg}
    (hland : ∀ (t : State), MemoryCanonical t → ∀ (p : PushMsg), MemoryCanonical (land t p)) (h : MemoryCanonical s) :
    MemoryCanonical (issuePush land s m) :=
  ite_canonical (hland _ (coreFlit_canonical h) _) (awaitPush_canonical (coreFlit_canonical h))

theorem startPush_canonical {land : State → PushMsg → State} {s : State} {cause c : CoreId} {p : Push}
    (hland : ∀ (t : State), MemoryCanonical t → ∀ (p : PushMsg), MemoryCanonical (land t p)) (h : MemoryCanonical s) :
    MemoryCanonical (startPush land s cause c p) :=
  ite_canonical h (issuePush_canonical (fun _ h1 _ => hland _ h1 _) (takePart_canonical h))

theorem recallLine_canonical {s : State} {keep : Option CoreId} {line : Nat} (h : MemoryCanonical s) :
    MemoryCanonical (recallLine s keep line) := by
  unfold recallLine
  split
  · exact h
  · exact ite_canonical h (startPush_canonical (fun _ h1 _ => landPush_canonical h1) h)

theorem evictPush_canonical {s : State} {c : CoreId} {p : Push} (h : MemoryCanonical s) : MemoryCanonical (evictPush s c p) := by
  unfold evictPush
  refine ite_canonical (performNow_canonical h) (startPush_canonical (fun _ h1 _ => landPush_canonical h1) ?_)
  split
  · exact h
  · exact markDie_canonical h

theorem arrivePush_canonical {s : State} {m : PushMsg} (h : MemoryCanonical s) : MemoryCanonical (arrivePush s m) := by
  unfold arrivePush
  refine landPush_canonical ?_
  split
  · exact ite_canonical (ite_canonical (recallLine_canonical h) h) (makeRoomBy_canonical (fun _ h1 _ _ => evictPush_canonical h1) (ite_canonical
      (recallLine_canonical h) h))
  · exact ite_canonical (recallLine_canonical h) h

theorem sendPush_canonical {s : State} {cause c : CoreId} {p : Push} (h : MemoryCanonical s) : MemoryCanonical (sendPush s cause c p) := by
  unfold sendPush
  refine ite_canonical (performNow_canonical h) (ite_canonical h ?_)
  extract_lets marked
  have hm : MemoryCanonical marked := by
    dsimp only [marked]
    split
    iterate 4 exact markDie_canonical h
    exact h
  split
  · exact startPush_canonical (fun _ h1 _ => arrivePush_canonical h1) hm
  · exact pushRefused_canonical hm
  · exact startPush_canonical (fun _ h1 _ => arrivePush_canonical h1) hm

theorem movePush_canonical {s : State} {m : PushMsg} (h : MemoryCanonical s) : MemoryCanonical (movePush s m) := by
  unfold movePush
  refine ite_canonical (awaitPush_canonical h) (ite_canonical (arrivePush_canonical h) ?_)
  split
  · exact awaitPush_canonical h
  · exact awaitPush_canonical (returnPart_canonical (report_canonical h))
  · exact ite_canonical (awaitPush_canonical (coreFlit_canonical h)) (ite_canonical (replyPush_canonical (recordPush_canonical
      (coreFlit_canonical h))) (arrivePush_canonical (coreFlit_canonical h)))

theorem movePushes_canonical {s : State} (h : MemoryCanonical s) : MemoryCanonical (movePushes s) :=
  foldl_canonical (fun _ _ h1 => movePush_canonical h1) h

theorem pushL1_canonical {s : State} {c : CoreId} {line : Nat} (h : MemoryCanonical s) : MemoryCanonical (pushL1 s c line) :=
  sendPush_canonical h

theorem pushHome_canonical {s : State} {hc : CoreId} {line : Nat} {drop : Bool} (h : MemoryCanonical s) :
    MemoryCanonical (pushHome s hc line drop) :=
  sendPush_canonical h

theorem evictL1_canonical {s : State} {c : CoreId} {line : Nat} (h : MemoryCanonical s) : MemoryCanonical (evictL1 s c line) :=
  sendPush_canonical h

theorem pushPartial_canonical {s : State} {c : CoreId} {w : Nat} (h : MemoryCanonical s) : MemoryCanonical (pushPartial s c w) :=
  sendPush_canonical h

theorem makeRoomL1_canonical {s : State} {c : CoreId} {line : Nat} (h : MemoryCanonical s) : MemoryCanonical (makeRoomL1 s c line) :=
  makeRoomBy_canonical (fun _ h1 _ _ => sendPush_canonical h1) h

theorem makeRoomLodge_canonical {s : State} {c : CoreId} {line : Nat} (h : MemoryCanonical s) :
    MemoryCanonical (makeRoomLodge s c line) := by
  unfold makeRoomLodge
  refine ite_canonical h ?_
  split
  · exact evictL1_canonical h
  · exact h

theorem roomL1_canonical {s : State} {c : CoreId} {line : Nat} {lodge : Bool} (h : MemoryCanonical s) :
    MemoryCanonical (roomL1 s c line lodge) :=
  ite_canonical h (ite_canonical (makeRoomLodge_canonical h) (makeRoomL1_canonical h))

theorem roomHome_canonical {s : State} {c : CoreId} {line : Nat} (h : MemoryCanonical s) : MemoryCanonical (roomHome s c line) :=
  ite_canonical h (makeRoomBy_canonical (fun _ h1 _ _ => evictPush_canonical h1) h)

theorem sendPushes_canonical {s : State} {cause : CoreId} {l : List (CoreId × Push)} (h : MemoryCanonical s) :
    MemoryCanonical (sendPushes s cause l) :=
  foldl_canonical (fun _ _ h1 => sendPush_canonical h1) h

theorem releaseCopies_canonical {s : State} {c : CoreId} {sc : Scope} {r : Regions} (h : MemoryCanonical s) :
    MemoryCanonical (releaseCopies s c sc r) :=
  ite_canonical (sendPushes_canonical (sendPushes_canonical h)) (sendPushes_canonical h)

theorem acquireCopies_canonical {s : State} {c : CoreId} {sc : Scope} {r : Regions} (h : MemoryCanonical s) :
    MemoryCanonical (acquireCopies s c sc r) := by
  unfold acquireCopies
  dsimp only
  split
  · exact h
  · exact ite_canonical (sendPushes_canonical (ite_canonical h (sendPushes_canonical h))) (ite_canonical h (sendPushes_canonical h))
  · exact ite_canonical (sendPushes_canonical (ite_canonical h (sendPushes_canonical h))) (ite_canonical h (sendPushes_canonical h))
  · exact ite_canonical (sendPushes_canonical (ite_canonical h (sendPushes_canonical h))) (ite_canonical h (sendPushes_canonical h))
  · exact ite_canonical (sendPushes_canonical (ite_canonical h (sendPushes_canonical h))) (ite_canonical h (sendPushes_canonical h))

/-! ### Translation, and reads and writes through the copies -/

theorem keepsMemory_freshWord : KeepsMemory freshWord := keepsMemory_freshUse.bind fun _ => keepsMemory_pure

theorem keepsMemory_freshDWord : KeepsMemory freshDWord :=
  keepsMemory_freshWord.bind fun _ => keepsMemory_freshWord.bind fun _ => keepsMemory_pure

theorem keepsMemory_reachHome {c : CoreId} {line : Nat} {va : DWord} : KeepsMemory (reachHome c line va) := by
  unfold reachHome
  refine (keepsMemory_modify fun _ h => markDie_canonical h).bind fun _ => keepsMemory_get.bind fun _ => ?_
  split
  · exact keepsMemory_raise
  · exact keepsMemory_raise
  · exact (keepsMemory_modify fun _ h => noteLate_canonical h).bind fun _ => keepsMemory_wait
  · exact keepsMemory_pure

theorem keepsMemory_recallFor {c : CoreId} {line : Nat} : KeepsMemory (recallFor c line) :=
  (keepsMemory_modify fun _ h => recallLine_canonical h).bind fun _ => keepsMemory_get.bind fun _ => keepsMemory_awaitThat

theorem keepsMemory_spillFor {line : Nat} : KeepsMemory (spillFor line) := keepsMemory_get.bind fun _ => keepsMemory_awaitThat

theorem keepsMemory_reachCore {c t : CoreId} {va : DWord} : KeepsMemory (reachCore c t va) := by
  unfold reachCore
  refine keepsMemory_get.bind fun _ => ?_
  dsimp only
  split
  · refine keepsMemory_raise.bind fun _ => keepsMemory_ite ?_ keepsMemory_pure
    split <;> exact keepsMemory_raise
  · refine keepsMemory_ite ?_ keepsMemory_pure
    split <;> exact keepsMemory_raise

theorem keepsMemory_setRemote {c : CoreId} {r : Option Remote} : KeepsMemory (setRemote c r) := keepsMemory_modCore

theorem keepsMemory_nextFlit {c : CoreId} : KeepsMemory (nextFlit c) := keepsMemory_answer fun _ h => coreFlit_canonical h

theorem keepsMemory_tryRequest {α : Type} {c : CoreId} {r : Remote} {m : M α} (hm : KeepsMemory m) : KeepsMemory (tryRequest c r m) :=
  keepsMemory_get.bind fun _ => keepsMemory_nextFlit.bind fun _ => keepsMemory_ite (keepsMemory_setRemote.bind fun _ => hm.bind fun _ =>
      keepsMemory_nextFlit.bind fun _ => keepsMemory_ite keepsMemory_pure (keepsMemory_setRemote.bind fun _ => keepsMemory_wait))
      (keepsMemory_setRemote.bind fun _ => keepsMemory_wait)

theorem keepsMemory_readRequest {α : Type} {c : CoreId} {pa : Nat} {long : Bool} {va : DWord} {pre : M Unit} {m : M α}
    (hpre : KeepsMemory pre) (hm : KeepsMemory m) : KeepsMemory (readRequest c pa long va pre m) := by
  unfold readRequest
  refine keepsMemory_theCore.bind fun _ => ?_
  dsimp only
  split
  · exact hpre.bind fun _ => keepsMemory_ite hm (keepsMemory_tryRequest hm)
  · exact keepsMemory_ite (hpre.bind fun _ => hm) (keepsMemory_ite (keepsMemory_setRemote.bind fun _ => (keepsMemory_modify fun _ h =>
      report_canonical h).bind fun _ => keepsMemory_raise) (keepsMemory_ite (hpre.bind fun _ => keepsMemory_tryRequest hm) keepsMemory_wait))

theorem keepsMemory_once {c : CoreId} {key : Nat} {m : M (Nat × Bool)} (hm : KeepsMemory m) : KeepsMemory (once c key m) := by
  unfold once
  refine keepsMemory_theCore.bind fun _ => ?_
  dsimp only
  split
  · exact keepsMemory_modCore.bind fun _ => keepsMemory_pure
  · exact hm.bind fun _ => keepsMemory_modCore.bind fun _ => keepsMemory_pure

theorem keepsMemory_onceAt {c : CoreId} {pa : Nat} {m : M Unit} (hm : KeepsMemory m) : KeepsMemory (onceAt c pa m) :=
  (keepsMemory_once (hm.bind fun _ => keepsMemory_pure)).bind fun _ => keepsMemory_pure

theorem keepsMemory_tryDevice {c : CoreId} {r : Remote} {m : M (Nat × Bool)} (hm : KeepsMemory m) : KeepsMemory (tryDevice c r m) := by
  unfold tryDevice
  refine keepsMemory_get.bind fun _ => keepsMemory_nextFlit.bind fun _ => keepsMemory_ite (keepsMemory_setRemote.bind fun _ => ?_)
      (keepsMemory_setRemote.bind fun _ => keepsMemory_wait)
  dsimp only
  split
  · exact keepsMemory_pure.bind fun _ => keepsMemory_nextFlit.bind fun _ => keepsMemory_ite keepsMemory_pure (keepsMemory_setRemote.bind fun _ =>
      keepsMemory_wait)
  · exact hm.bind fun _ => keepsMemory_nextFlit.bind fun _ => keepsMemory_ite keepsMemory_pure (keepsMemory_setRemote.bind fun _ =>
      keepsMemory_wait)

theorem keepsMemory_deviceRead {c : CoreId} {pa : Nat} {long : Bool} {va : DWord} {pre : M Unit} {m : M (Nat × Bool)}
    (hpre : KeepsMemory pre) (hm : KeepsMemory m) : KeepsMemory (deviceRead c pa long va pre m) := by
  unfold deviceRead
  refine keepsMemory_theCore.bind fun _ => ?_
  dsimp only
  split
  · exact hpre.bind fun _ => keepsMemory_ite hm (keepsMemory_tryDevice hm)
  · exact keepsMemory_ite (keepsMemory_setRemote.bind fun _ => (keepsMemory_modify fun _ h => report_canonical h).bind fun _ =>
      keepsMemory_raise) (keepsMemory_ite (hpre.bind fun _ => keepsMemory_tryDevice hm) keepsMemory_wait)

theorem keepsMemory_keepReply {c : CoreId} {seq : HWord} {home : Option Nat} {r : HomeReply} : KeepsMemory (keepReply c seq home r) :=
  keepsMemory_get.bind fun _ => keepsMemory_modHub

theorem keepsMemory_homeReplyAnswer {h : HomeReply} : KeepsMemory h.answer := by
  unfold HomeReply.answer
  split
  · exact keepsMemory_pure
  · exact keepsMemory_raise

theorem keepsMemory_applyOnce {c : CoreId} {seq : HWord} {home : Option Nat} {dup : M Unit} {apply : M DWord} (hdup : KeepsMemory dup)
    (happly : KeepsMemory apply) : KeepsMemory (applyOnce c seq home dup apply) := by
  unfold applyOnce
  refine keepsMemory_get.bind fun _ => ?_
  split
  · exact keepsMemory_get.bind fun _ => keepsMemory_modHub.bind fun _ => hdup.bind fun _ => keepsMemory_homeReplyAnswer
  · exact keepsMemory_get.bind fun _ => keepsMemory_awaitThat.bind fun _ => happly.bind fun _ => keepsMemory_keepReply.bind fun _ =>
      keepsMemory_pure

theorem keepsMemory_homeStops {c : CoreId} {r : Remote} {home : Option Nat} {lossy : Bool} {e : Stop} :
    KeepsMemory (homeStops c r home lossy e) := by
  unfold homeStops
  split
  · exact keepsMemory_get.bind fun _ => keepsMemory_setRemote.bind fun _ => keepsMemory_wait
  · exact keepsMemory_ite keepsMemory_throw (keepsMemory_nextFlit.bind fun _ => keepsMemory_ite (keepsMemory_setRemote.bind fun _ =>
      keepsMemory_throw) (keepsMemory_get.bind fun _ => keepsMemory_ite (keepsMemory_keepReply.bind fun _ => keepsMemory_setRemote.bind fun _ =>
      keepsMemory_wait) (keepsMemory_setRemote.bind fun _ => keepsMemory_wait)))
  · exact keepsMemory_throw

theorem keepsMemory_reachedHome {c : CoreId} {r : Remote} {home : Option Nat} {dup : M Unit} {apply : M DWord} (hdup : KeepsMemory dup)
    (happly : KeepsMemory apply) : KeepsMemory (reachedHome c r home dup apply) :=
  keepsMemory_theCore.bind fun _ => keepsMemory_setRemote.bind fun _ => (keepsMemory_tryCatch (keepsMemory_applyOnce hdup happly) fun _ =>
      keepsMemory_homeStops).bind fun _ => keepsMemory_ite keepsMemory_pure (keepsMemory_nextFlit.bind fun _ => keepsMemory_ite
      (keepsMemory_setRemote.bind fun _ => keepsMemory_pure) (keepsMemory_setRemote.bind fun _ => keepsMemory_wait))

theorem keepsMemory_issue {c : CoreId} {r : Remote} {home : Option Nat} {dup : M Unit} {apply : M DWord} (hdup : KeepsMemory dup)
    (happly : KeepsMemory apply) : KeepsMemory (issue c r home dup apply) :=
  keepsMemory_get.bind fun _ => keepsMemory_nextFlit.bind fun _ => keepsMemory_ite (keepsMemory_reachedHome hdup happly)
      (keepsMemory_setRemote.bind fun _ => keepsMemory_wait)

theorem keepsMemory_freeSeq {c : CoreId} {seq : HWord} : KeepsMemory (freeSeq c seq) :=
  keepsMemory_get.bind fun _ => keepsMemory_awaitThat.bind fun _ => keepsMemory_modHub

theorem keepsMemory_remoteWith {c : CoreId} {einfo : DWord} {det : Nat} {home : Option Nat} {pa : Nat} {prep : M Bool}
    {start reach dup : M Unit} {apply : M DWord} (hprep : KeepsMemory prep) (hstart : KeepsMemory start) (hreach : KeepsMemory reach)
    (hdup : KeepsMemory dup) (happly : KeepsMemory apply) : KeepsMemory (remoteWith c einfo det home pa prep start reach dup apply) := by
  unfold remoteWith
  refine keepsMemory_theCore.bind fun _ => ?_
  split
  · exact hprep.bind fun _ => hreach.bind fun _ => keepsMemory_get.bind fun _ => keepsMemory_awaitThat.bind fun _ => keepsMemory_theCore.bind fun
      _ => keepsMemory_freeSeq.bind fun _ => hstart.bind fun _ => keepsMemory_modCore.bind fun _ => keepsMemory_issue hdup happly
  · exact keepsMemory_ite (keepsMemory_setRemote.bind fun _ => (keepsMemory_modify fun _ h => report_canonical h).bind fun _ =>
      keepsMemory_raise) (keepsMemory_ite (hreach.bind fun _ => keepsMemory_issue hdup happly) (keepsMemory_ite (keepsMemory_reachedHome hdup
      happly) keepsMemory_wait))

theorem keepsMemory_tryWrite {c : CoreId} {r : Remote} {home : Option Nat} {m : M Unit} (hm : KeepsMemory m) :
    KeepsMemory (tryWrite c r home m) := by
  unfold tryWrite
  refine keepsMemory_get.bind fun _ => keepsMemory_nextFlit.bind fun _ => keepsMemory_ite (keepsMemory_ite (keepsMemory_ite
      (keepsMemory_modHub.bind fun _ => keepsMemory_keepReply.bind fun _ => keepsMemory_nextFlit.bind fun _ => keepsMemory_ite
      keepsMemory_setRemote (keepsMemory_setRemote.bind fun _ => keepsMemory_wait)) (keepsMemory_nextFlit.bind fun _ => keepsMemory_ite
      keepsMemory_setRemote (keepsMemory_setRemote.bind fun _ => keepsMemory_wait))) (keepsMemory_get.bind fun _ => keepsMemory_ite
      ((keepsMemory_setRemote.bind fun _ => keepsMemory_wait).bind fun _ => keepsMemory_ite (keepsMemory_modHub.bind fun _ =>
      keepsMemory_keepReply.bind fun _ => keepsMemory_nextFlit.bind fun _ => keepsMemory_ite keepsMemory_setRemote (keepsMemory_setRemote.bind
      fun _ => keepsMemory_wait)) (keepsMemory_nextFlit.bind fun _ => keepsMemory_ite keepsMemory_setRemote (keepsMemory_setRemote.bind fun _ =>
      keepsMemory_wait))) (keepsMemory_setRemote.bind fun _ => (keepsMemory_tryCatch hm fun e => ?_).bind fun _ => keepsMemory_ite
      (keepsMemory_modHub.bind fun _ => keepsMemory_keepReply.bind fun _ => keepsMemory_nextFlit.bind fun _ => keepsMemory_ite
      keepsMemory_setRemote (keepsMemory_setRemote.bind fun _ => keepsMemory_wait)) (keepsMemory_nextFlit.bind fun _ => keepsMemory_ite
      keepsMemory_setRemote (keepsMemory_setRemote.bind fun _ => keepsMemory_wait))))) (keepsMemory_setRemote.bind fun _ => keepsMemory_wait)
  split
  · exact keepsMemory_setRemote.bind fun _ => keepsMemory_wait
  · exact keepsMemory_throw

theorem keepsMemory_writeRequest {c : CoreId} {pa : Nat} {home : Option Nat} {long : Bool} {va : DWord} {pre m : M Unit}
    (hpre : KeepsMemory pre) (hm : KeepsMemory m) : KeepsMemory (writeRequest c pa home long va pre m) := by
  unfold writeRequest
  refine keepsMemory_theCore.bind fun _ => ?_
  dsimp only
  split
  · exact hpre.bind fun _ => keepsMemory_get.bind fun _ => keepsMemory_awaitThat.bind fun _ => keepsMemory_freeSeq.bind fun _ =>
      keepsMemory_modCore.bind fun _ => keepsMemory_tryWrite hm
  · exact keepsMemory_ite (hpre.bind fun _ => hm) (keepsMemory_ite (keepsMemory_setRemote.bind fun _ => (keepsMemory_modify fun _ h =>
      report_canonical h).bind fun _ => keepsMemory_raise) (keepsMemory_ite (keepsMemory_tryWrite hm) (keepsMemory_ite (hpre.bind fun _ =>
      keepsMemory_tryWrite hm) keepsMemory_wait)))

theorem keepsMemory_malformed {α : Type} {va : DWord} : KeepsMemory (malformed va : M α) := keepsMemory_throw

theorem keepsMemory_readEntry {c : CoreId} {pa : Nat} {va : DWord} : KeepsMemory (readEntry c pa va) :=
  keepsMemory_readRequest keepsMemory_reachHome ((keepsMemory_answer fun _ h => serveWords_canonical h).bind fun _ => keepsMemory_pure)

theorem keepsMemory_walkFrom {c : CoreId} {va : DWord} {fuel level node : Nat} : KeepsMemory (walkFrom c va fuel level node) := by
  induction fuel generalizing level node with
  | zero => exact keepsMemory_malformed
  | succ fuel ih =>
    refine keepsMemory_readEntry.bind fun e => keepsMemory_ite keepsMemory_throw (keepsMemory_ite ?_ ?_)
    · exact keepsMemory_ite keepsMemory_malformed keepsMemory_pure
    · exact keepsMemory_ite keepsMemory_malformed ih

theorem keepsMemory_findLeaf {c : CoreId} {va : DWord} : KeepsMemory (findLeaf c va) := by
  unfold findLeaf
  refine keepsMemory_theCore.bind fun _ => ?_
  split
  · exact keepsMemory_pure
  · exact keepsMemory_walkFrom.bind fun _ => keepsMemory_modCore.bind fun _ => keepsMemory_pure

theorem keepsMemory_checkScratch {c t : CoreId} {off n : Nat} {va : DWord} : KeepsMemory (checkScratch c t off n va) :=
  keepsMemory_reachCore.bind fun _ => keepsMemory_theCore.bind fun _ => keepsMemory_theCore.bind fun _ => keepsMemory_require.bind fun _ =>
      keepsMemory_require

theorem keepsMemory_translate {c : CoreId} {va : DWord} {n : Nat} {acc : Access} : KeepsMemory (translate c va n acc) :=
  keepsMemory_theCore.bind fun _ => keepsMemory_ite (keepsMemory_require.bind fun _ => keepsMemory_require.bind fun _ =>
      keepsMemory_checkScratch.bind fun _ => keepsMemory_pure) (keepsMemory_findLeaf.bind fun _ => keepsMemory_require.bind fun _ =>
      keepsMemory_ite (keepsMemory_checkScratch.bind fun _ => keepsMemory_pure) keepsMemory_pure)

theorem keepsMemory_pinFor {c : CoreId} {line : Nat} {pg : Page} : KeepsMemory (pinFor c line pg) :=
  keepsMemory_ite (keepsMemory_modify fun _ h => pinLine_canonical h) keepsMemory_pure

theorem lodgeLine_canonical {s : State} {c : CoreId} {line : Nat} {pg : Page} (h : MemoryCanonical s) :
    MemoryCanonical (lodgeLine s c line pg) := by
  unfold lodgeLine
  split
  · exact ite_canonical h (ite_canonical (ite_canonical (makeRoomLodge_canonical h) h) (updCore_canonical (ite_canonical (makeRoomLodge_canonical
      h) h)))
  · exact h

theorem keepsMemory_roomFor {c : CoreId} {line : Nat} {pg : Page} {va : DWord} : KeepsMemory (roomFor c line pg va) := by
  unfold roomFor
  refine (keepsMemory_modify fun _ h => lodgeLine_canonical h).bind fun _ => keepsMemory_get.bind fun _ => keepsMemory_ite keepsMemory_pure
      ((keepsMemory_modify fun _ h => roomL1_canonical h).bind fun _ => keepsMemory_get.bind fun _ => keepsMemory_ite keepsMemory_pure ?_)
  split
  · exact keepsMemory_raise
  · exact keepsMemory_raise
  · exact keepsMemory_wait

theorem keepsMemory_fetchLine {c : CoreId} {line : Nat} {pg : Page} {va : DWord} : KeepsMemory (fetchLine c line pg va) := by
  unfold fetchLine
  refine keepsMemory_theCore.bind fun _ => ?_
  split
  · exact keepsMemory_ite keepsMemory_pure (keepsMemory_readRequest keepsMemory_reachCore (keepsMemory_theCore.bind fun _ => keepsMemory_pure))
  · exact keepsMemory_readRequest keepsMemory_reachHome (keepsMemory_pinFor.bind fun _ => keepsMemory_answer fun _ h => homeServe_canonical h)

theorem keepsMemory_fillL1 {c : CoreId} {line : Nat} {pg : Page} {va : DWord} : KeepsMemory (fillL1 c line pg va) :=
  (keepsMemory_modify fun _ h => lodgeLine_canonical h).bind fun _ => keepsMemory_theCore.bind fun _ => keepsMemory_get.bind fun _ =>
      keepsMemory_ite keepsMemory_pure (keepsMemory_roomFor.bind fun _ => keepsMemory_fetchLine.bind fun _ => keepsMemory_get.bind fun _ =>
      keepsMemory_theCore.bind fun _ => keepsMemory_modCore.bind fun _ => keepsMemory_pure)

theorem keepsMemory_settleOutside {line : Nat} {words : Word} : KeepsMemory (settleOutside line words) :=
  (keepsMemory_modify fun _ h => expireL2_canonical (noteLate_canonical h)).bind fun _ => keepsMemory_spillFor.bind fun _ => keepsMemory_modify
      fun _ h => ite_canonical (writeBackL2_canonical (foldWords_canonical (notePort_canonical h))) (notePort_canonical h)

theorem keepsMemory_readLoc {c : CoreId} {loc : Loc} {n : Nat} {va : DWord} : KeepsMemory (readLoc c loc n va) := by
  unfold readLoc
  split
  · exact keepsMemory_ite (keepsMemory_get.bind fun _ => keepsMemory_pure)
      (keepsMemory_readRequest keepsMemory_reachCore (keepsMemory_get.bind fun _ => keepsMemory_pure))
  · refine keepsMemory_ite (keepsMemory_fillL1.bind fun _ => keepsMemory_pure) ?_
    split
    · exact keepsMemory_deviceRead keepsMemory_reachHome (keepsMemory_ite
        (keepsMemory_settleOutside.bind fun _ => keepsMemory_get.bind fun _ => keepsMemory_pure)
        (keepsMemory_pinFor.bind fun _ => (keepsMemory_answer fun _ h => serveWords_canonical h).bind fun _ => keepsMemory_pure))
    · exact keepsMemory_readRequest keepsMemory_reachHome (keepsMemory_ite
        (keepsMemory_settleOutside.bind fun _ => keepsMemory_get.bind fun _ => keepsMemory_pure)
        (keepsMemory_pinFor.bind fun _ => (keepsMemory_answer fun _ h => serveWords_canonical h).bind fun _ => keepsMemory_pure))

theorem writeL1_canonical {s : State} {c : CoreId} {line : Nat} {pg : Page} {d : BitVec 1024} {mask : BitVec 128} {p : BitVec 32}
    (h : MemoryCanonical s) : MemoryCanonical (writeL1 s c line pg d mask p) :=
  h

theorem keepsMemory_writeLoc {c : CoreId} {loc : Loc} {n v : Nat} {bad : Bool} {va : DWord} : KeepsMemory (writeLoc c loc n v bad va) := by
  unfold writeLoc
  split
  · exact keepsMemory_ite (keepsMemory_modify fun _ h => markWatched_canonical (storePut_canonical h)) (keepsMemory_writeRequest
      keepsMemory_reachCore (keepsMemory_modify fun _ h => markWatched_canonical (storePut_canonical h)))
  · exact keepsMemory_ite (keepsMemory_roomFor.bind fun _ => keepsMemory_modify fun _ h => markWatched_canonical (writeL1_canonical h))
      (keepsMemory_writeRequest keepsMemory_reachHome (keepsMemory_ite (keepsMemory_settleOutside.bind fun _ => keepsMemory_modify fun _ h =>
      markWatched_canonical (grantZeros_canonical (storePut_canonical h))) (keepsMemory_recallFor.bind fun _ => keepsMemory_get.bind fun _ =>
      keepsMemory_awaitThat.bind fun _ => keepsMemory_pinFor.bind fun _ => keepsMemory_modify fun _ h => markWatched_canonical
      (passHome_canonical (homePush_canonical h)))))

/-! ### The registers of a core -/

theorem writeScalar_canonical {s : State} {rd : BitVec 5} {v : DWord} (h : MemoryCanonical s) : MemoryCanonical (writeScalar s rd v) := h

theorem keepsMemory_areaLoc {c : CoreId} {va : DWord} {n : Nat} : KeepsMemory (areaLoc c va n) :=
  keepsMemory_findLeaf.bind fun _ => keepsMemory_require.bind fun _ => keepsMemory_ite (keepsMemory_checkScratch.bind fun _ => keepsMemory_pure)
      keepsMemory_pure

theorem keepsMemory_areaRead {c : CoreId} {fuel : Nat} {va : DWord} {n : Nat} : KeepsMemory (areaRead c fuel va n) := by
  induction fuel generalizing va n with
  | zero => exact keepsMemory_pure
  | succ fuel ih =>
    refine keepsMemory_ite keepsMemory_pure (keepsMemory_areaLoc.bind fun _ => keepsMemory_readLoc.bind fun _ => ?_)
    exact keepsMemory_get.bind fun _ => ih.bind fun _ => keepsMemory_pure

theorem keepsMemory_markWords {c : CoreId} {loc : Loc} {k v marks : Nat} {va : DWord} : KeepsMemory (markWords c loc k v marks va) :=
  keepsMemory_ite keepsMemory_pure (keepsMemory_eachOf fun _ => keepsMemory_writeLoc)

theorem keepsMemory_areaWrite {c : CoreId} {fuel : Nat} {va : DWord} {n v marks : Nat} : KeepsMemory (areaWrite c fuel va n v marks) := by
  induction fuel generalizing va n v marks with
  | zero => exact keepsMemory_pure
  | succ fuel ih =>
    refine keepsMemory_ite keepsMemory_pure (keepsMemory_areaLoc.bind fun _ => keepsMemory_writeLoc.bind fun _ => ?_)
    exact keepsMemory_markWords.bind fun _ => ih

theorem keepsMemory_areaProbe {c : CoreId} {va : DWord} {n : Nat} : KeepsMemory (areaProbe c va n) :=
  keepsMemory_eachOf fun _ => keepsMemory_areaLoc.bind fun _ => keepsMemory_pure

theorem keepsMemory_takeBlock {c : CoreId} : KeepsMemory (takeBlock c) := by
  unfold takeBlock
  refine keepsMemory_theCore.bind fun _ => ?_
  split
  · exact keepsMemory_pure
  · exact keepsMemory_modCore.bind fun _ => keepsMemory_throw

theorem keepsMemory_fillRow {c : CoreId} {n : BitVec 6} : KeepsMemory (fillRow c n) :=
  keepsMemory_theCore.bind fun _ => keepsMemory_ite (keepsMemory_takeBlock.bind fun _ => keepsMemory_areaRead.bind fun _ => keepsMemory_modCore)
      keepsMemory_pure

theorem keepsMemory_writeBackRow {c : CoreId} {n : BitVec 6} : KeepsMemory (writeBackRow c n) :=
  keepsMemory_theCore.bind fun _ => keepsMemory_ite (keepsMemory_areaProbe.bind fun _ => keepsMemory_areaWrite.bind fun _ => keepsMemory_modCore)
      keepsMemory_pure

theorem keepsMemory_fillScales {c : CoreId} {q : Nat} : KeepsMemory (fillScales c q) :=
  keepsMemory_theCore.bind fun _ => keepsMemory_ite (keepsMemory_takeBlock.bind fun _ => keepsMemory_areaRead.bind fun _ => keepsMemory_modCore)
      keepsMemory_pure

theorem keepsMemory_writeBackScales {c : CoreId} {q : Nat} : KeepsMemory (writeBackScales c q) :=
  keepsMemory_theCore.bind fun _ => keepsMemory_ite (keepsMemory_areaProbe.bind fun _ => keepsMemory_areaWrite.bind fun _ => keepsMemory_modCore)
      keepsMemory_pure

theorem keepsMemory_writeBackAll {c : CoreId} : KeepsMemory (writeBackAll c) :=
  (keepsMemory_eachOf fun _ => keepsMemory_theCore.bind fun _ => keepsMemory_ite keepsMemory_pure keepsMemory_writeBackRow).bind fun _ =>
      keepsMemory_eachOf fun _ => keepsMemory_writeBackScales

/-! ### The images of a context -/

theorem keepsMemory_faultingAt {α : Type} {va : DWord} {m : M α} (hm : KeepsMemory m) : KeepsMemory (faultingAt va m) := by
  unfold faultingAt
  refine keepsMemory_tryCatch hm fun e => ?_
  split <;> exact keepsMemory_throw

theorem keepsMemory_saveWrite {c : CoreId} {fuel : Nat} {va : DWord} {n v marks : Nat} : KeepsMemory (saveWrite c fuel va n v marks) := by
  induction fuel generalizing va n v marks with
  | zero => exact keepsMemory_pure
  | succ fuel ih =>
    refine keepsMemory_ite keepsMemory_pure ((keepsMemory_faultingAt ?_).bind fun _ => ih)
    refine keepsMemory_areaLoc.bind fun _ => keepsMemory_writeLoc.bind fun _ => keepsMemory_markWords.bind fun _ => ?_
    split
    · exact keepsMemory_reachHome.bind fun _ => (keepsMemory_modify fun _ h => pushL1_canonical h).bind fun _ =>
        keepsMemory_get.bind fun _ => keepsMemory_awaitThat
    · exact keepsMemory_pure

theorem keepsMemory_saveAt {c : CoreId} {base : DWord} {l : List Chunk} : KeepsMemory (saveAt c base l) :=
  keepsMemory_theCore.bind fun _ => keepsMemory_eachOf fun _ => keepsMemory_saveWrite

theorem keepsMemory_saveTimedOut {c : CoreId} : KeepsMemory (saveTimedOut c) := by
  unfold saveTimedOut
  refine keepsMemory_get.bind fun _ => ?_
  dsimp only
  split
  · exact keepsMemory_modHub.bind fun _ => keepsMemory_raise
  · exact keepsMemory_pure

theorem keepsMemory_saveContext {c : CoreId} : KeepsMemory (saveContext c) :=
  keepsMemory_saveTimedOut.bind fun _ => keepsMemory_theCore.bind fun _ => keepsMemory_saveAt.bind fun _ => keepsMemory_get.bind fun _ =>
      keepsMemory_awaitThat.bind fun _ => keepsMemory_modCore

theorem keepsMemory_areaItems {c : CoreId} : KeepsMemory (areaItems c) := by
  unfold areaItems
  refine (keepsMemory_eachOf fun _ => keepsMemory_theCore.bind fun _ => keepsMemory_ite keepsMemory_pure (keepsMemory_tryCatch
      keepsMemory_fillRow fun e => ?_)).bind fun _ => keepsMemory_eachOf fun _ => keepsMemory_tryCatch keepsMemory_fillScales fun e => ?_
  · split
    · exact keepsMemory_pure
    · exact keepsMemory_throw
  · split
    · exact keepsMemory_pure
    · exact keepsMemory_throw

theorem saveEmergency_canonical {s : State} {c : CoreId} {addr : DWord} {code : Nat} (h : MemoryCanonical s) :
    MemoryCanonical (saveEmergency s c addr code) := by
  unfold saveEmergency
  extract_lets k gone e undef item s1 s2 s3 s4
  have h1 : MemoryCanonical s1 := foldl_canonical (fun _ _ hs => hubStoreMarked_canonical hs) h
  have h3 : MemoryCanonical s3 := hubStore_canonical (foldl_canonical (fun _ _ hs => hubStore_canonical hs) h1)
  have h4 : MemoryCanonical s4 := ite_canonical h3 (of_store_canonical h3 rfl)
  exact updCore_canonical h4

theorem keepsMemory_keepRule {b : Bool} : KeepsMemory (keepRule b) := keepsMemory_require

theorem keepsMemory_restoreQueues {c : CoreId} {src : Source} {v : Nat} (hsrc : ∀ (o n : Nat), KeepsMemory (src o n)) :
    KeepsMemory (restoreQueues c src v) :=
  keepsMemory_keepRule.bind fun _ => (keepsMemory_collect fun _ => (hsrc _ _).bind fun _ => keepsMemory_pure).bind fun _ => (keepsMemory_collect
      fun _ => (hsrc _ _).bind fun _ => keepsMemory_keepRule.bind fun _ => keepsMemory_pure).bind fun _ => keepsMemory_modCore

theorem keepsMemory_restoreControl {c : CoreId} {pc : DWord} {v : Nat} : KeepsMemory (restoreControl c pc v) :=
  keepsMemory_theCore.bind fun _ => keepsMemory_keepRule.bind fun _ => keepsMemory_keepRule.bind fun _ => keepsMemory_modCore

theorem keepsMemory_restoreTiles {c : CoreId} {src : Source} (hsrc : ∀ (o n : Nat), KeepsMemory (src o n)) :
    KeepsMemory (restoreTiles c src) :=
  (keepsMemory_collect fun _ => (keepsMemory_collect fun _ => hsrc _ _).bind fun _ => (hsrc _ _).bind fun _ => keepsMemory_pure).bind fun _ =>
      (keepsMemory_collect fun _ => (hsrc _ _).bind fun _ => (hsrc _ _).bind fun _ => (hsrc _ _).bind fun _ => (hsrc _ _).bind fun _ =>
      keepsMemory_keepRule.bind fun _ => keepsMemory_pure).bind fun _ => keepsMemory_modCore

theorem keepsMemory_restoreFiles {c : CoreId} {src : Source} {v : Nat} {held : Bool} {marks : BitVec 256}
    (hsrc : ∀ (o n : Nat), KeepsMemory (src o n)) : KeepsMemory (restoreFiles c src v held marks) :=
  (hsrc _ _).bind fun _ => (hsrc _ _).bind fun _ => (hsrc _ _).bind fun _ => (keepsMemory_collect fun _ => hsrc _ _).bind fun _ =>
      keepsMemory_keepRule.bind fun _ => keepsMemory_ite ((keepsMemory_collect fun _ => hsrc _ _).bind fun _ => keepsMemory_ite
      ((keepsMemory_collect fun _ => hsrc _ _).bind fun _ => keepsMemory_modCore) (keepsMemory_pure.bind fun _ => keepsMemory_modCore))
      (keepsMemory_pure.bind fun _ => keepsMemory_ite ((keepsMemory_collect fun _ => hsrc _ _).bind fun _ => keepsMemory_modCore)
      (keepsMemory_pure.bind fun _ => keepsMemory_modCore))

theorem keepsMemory_restoreRepeat {c : CoreId} {src : Source} (hsrc : ∀ (o n : Nat), KeepsMemory (src o n)) :
    KeepsMemory (restoreRepeat c src) := by
  unfold restoreRepeat
  refine keepsMemory_theCore.bind fun _ => (hsrc _ _).bind fun _ => (hsrc _ _).bind fun _ => (keepsMemory_collect fun _ => hsrc _ _).bind fun
      a3 => (hsrc _ _).bind fun _ => (hsrc _ _).bind fun _ => (hsrc _ _).bind fun _ => keepsMemory_keepRule.bind fun _ =>
      keepsMemory_keepRule.bind fun _ => keepsMemory_keepRule.bind fun _ => ?_
  split
  · exact keepsMemory_raise
  · exact keepsMemory_keepRule.bind fun _ => keepsMemory_modCore

theorem keepsMemory_restoreBlock {src : Source} {b : Nat} {e : Entry} (hsrc : ∀ (o n : Nat), KeepsMemory (src o n)) :
    KeepsMemory (restoreBlock src b e) := by
  unfold restoreBlock
  split
  · exact keepsMemory_pure
  · exact (hsrc _ _).bind fun _ => (hsrc _ _).bind fun _ => keepsMemory_pure

theorem keepsMemory_restoreBlocks {src : Source} {b : Nat} {l : List Entry} (hsrc : ∀ a n, KeepsMemory (src a n)) :
    KeepsMemory (restoreBlocks src b l) := by
  induction l generalizing b with
  | nil => exact keepsMemory_pure
  | cons e r ih => exact (keepsMemory_restoreBlock hsrc).bind fun _ => ih.bind fun _ => keepsMemory_pure

theorem keepsMemory_restoreHead {src : Source} {eg : Byte} {e : Entry} (hsrc : ∀ (o n : Nat), KeepsMemory (src o n)) :
    KeepsMemory (restoreHead src eg e) := by
  unfold restoreHead
  refine (hsrc _ _).bind fun _ => (hsrc _ _).bind fun _ => (hsrc _ _).bind fun _ => keepsMemory_keepRule.bind fun _ => ?_
  dsimp only
  split
  · exact keepsMemory_pure
  · exact (hsrc _ _).bind fun _ => keepsMemory_keepRule.bind fun _ => (hsrc _ _).bind fun _ => (hsrc _ _).bind fun _ => keepsMemory_restoreBlock
      fun _ _ => hsrc _ _

theorem keepsMemory_restoreIssue {c : CoreId} {src : Source} {v : Nat} (hsrc : ∀ (o n : Nat), KeepsMemory (src o n)) :
    KeepsMemory (restoreIssue c src v) := by
  unfold restoreIssue
  refine keepsMemory_theCore.bind fun _ => keepsMemory_keepRule.bind fun _ => (keepsMemory_restoreBlocks fun _ _ => hsrc _ _).bind fun _ => ?_
  dsimp only
  split
  · exact keepsMemory_pure.bind fun _ => keepsMemory_modCore
  · exact keepsMemory_ite (keepsMemory_pure.bind fun _ => keepsMemory_modCore) (keepsMemory_ite ((keepsMemory_restoreHead fun _ _ => hsrc _
      _).bind fun _ => keepsMemory_pure.bind fun _ => keepsMemory_modCore) (keepsMemory_pure.bind fun _ => keepsMemory_modCore))

theorem keepsMemory_fromArea {c : CoreId} {base : DWord} {o n : Nat} : KeepsMemory (fromArea c base o n) :=
  keepsMemory_areaRead.bind fun _ => keepsMemory_pure

theorem keepsMemory_fromEmergency {e o n : Nat} : KeepsMemory (fromEmergency e o n) :=
  (keepsMemory_answer fun _ h => hubLoad_canonical h).bind fun _ => keepsMemory_pure

theorem keepsMemory_restoreSource {c : CoreId} {base : DWord} {e : Nat} {held : Bool} {o n : Nat} :
    KeepsMemory ((if held then fromEmergency e else fromArea c base) o n) := by
  cases held
  · exact keepsMemory_fromArea
  · exact keepsMemory_fromEmergency

theorem keepsMemory_restoreContext {c : CoreId} {pc : DWord} : KeepsMemory (restoreContext c pc) := by
  unfold restoreContext
  refine keepsMemory_theCore.bind fun k => ?_
  extract_lets e restoreFrom
  have h (held : Bool) : KeepsMemory (restoreFrom held) := by
    have hsrc : ∀ o n, KeepsMemory ((if held then fromEmergency e else fromArea c k.tregs.rbase) o n) := fun _ _ => keepsMemory_restoreSource
    exact keepsMemory_get.bind fun _ => keepsMemory_require.bind fun _ => (hsrc _ _).bind fun _ => keepsMemory_keepRule.bind fun _ =>
      keepsMemory_get.bind fun _ => (keepsMemory_restoreFiles hsrc).bind fun _ => (keepsMemory_restoreTiles hsrc).bind fun _ =>
      (keepsMemory_restoreQueues hsrc).bind fun _ => keepsMemory_restoreControl.bind fun _ => (keepsMemory_restoreRepeat hsrc).bind fun _ =>
      (keepsMemory_restoreIssue hsrc).bind fun _ => keepsMemory_modCore.bind fun _ =>
      keepsMemory_ite (keepsMemory_modify fun _ h => hubStore_canonical h) keepsMemory_pure
  clear_value restoreFrom e
  refine keepsMemory_ite (keepsMemory_pure.bind h) (keepsMemory_get.bind fun _ => keepsMemory_require.bind fun _ => ?_)
  refine KeepsMemory.bind (keepsMemory_answer ?_) fun _ => keepsMemory_pure.bind h
  intro s hs
  exact hubLoad_canonical hs

/-! ### Releases, sends, the end of a task and traps -/

theorem bumpMarks_canonical {s : State} {c : CoreId} {r : Regions} (h : MemoryCanonical s) : MemoryCanonical (bumpMarks s c r) := by
  unfold bumpMarks
  refine ite_canonical h (foldl_canonical (fun _ _ h1 => ?_) h)
  exact ite_canonical (sendPush_canonical h1) h1

theorem release_canonical {s : State} {c : CoreId} {sc : Scope} {r : Regions} (h : MemoryCanonical s) :
    MemoryCanonical (release s c sc r) :=
  ite_canonical (releaseCopies_canonical h) (bumpMarks_canonical (releaseCopies_canonical h))

theorem keepsMemory_pushReady {c : CoreId} {l : List (CoreId × Push)} : KeepsMemory (pushReady c l) := by
  unfold pushReady
  refine keepsMemory_get.bind fun _ => ?_
  split
  · exact keepsMemory_modHub.bind fun _ => keepsMemory_freshDWord.bind fun _ => keepsMemory_raise
  · split
    · exact (keepsMemory_modify fun _ h => markDie_canonical h).bind fun _ => keepsMemory_raise
    · exact keepsMemory_freshDWord.bind fun _ => keepsMemory_raise
    · split
      · exact keepsMemory_raise
      · exact keepsMemory_freshDWord.bind fun _ => keepsMemory_raise
    · exact (keepsMemory_modify fun _ h => noteLate_canonical h).bind fun _ => keepsMemory_wait
    · exact keepsMemory_ite keepsMemory_pure ((keepsMemory_modify fun _ h => sendPushes_canonical h).bind fun _ => keepsMemory_get.bind fun _ =>
        keepsMemory_awaitThat)

theorem keepsMemory_pushAll {c : CoreId} {l : List (CoreId × Push)} : KeepsMemory (pushAll c l) :=
  keepsMemory_pushReady.bind fun _ => (keepsMemory_modify fun _ h => sendPushes_canonical h).bind fun _ => keepsMemory_get.bind fun _ =>
      keepsMemory_awaitThat

theorem keepsMemory_releaseReady {c : CoreId} {sc : Scope} {r : Regions} : KeepsMemory (releaseReady c sc r) :=
  keepsMemory_get.bind fun _ => keepsMemory_pushReady

theorem keepsMemory_releaseNow {c : CoreId} {sc : Scope} {r : Regions} : KeepsMemory (releaseNow c sc r) :=
  keepsMemory_releaseReady.bind fun _ => (keepsMemory_modify fun _ h => release_canonical h).bind fun _ => keepsMemory_get.bind fun _ =>
      keepsMemory_awaitThat

theorem acquire_canonical {s : State} {c : CoreId} {sc : Scope} {r : Regions} (h : MemoryCanonical s) :
    MemoryCanonical (acquire s c sc r) :=
  updCore_canonical (acquireCopies_canonical h)

theorem pktDisc_canonical {s : State} {c : CoreId} {p : Packet} {reason : Nat} (h : MemoryCanonical s) :
    MemoryCanonical (pktDisc s c p reason) :=
  report_canonical h

theorem discardAll_canonical {s : State} {c : CoreId} {l : List Received} {reason : Nat} (h : MemoryCanonical s) :
    MemoryCanonical (discardAll s c l reason) :=
  foldl_canonical (fun _ _ h1 => pktDisc_canonical h1) h

theorem keepsMemory_placeSend {c : CoreId} {w : DWord} {p : Packet} : KeepsMemory (placeSend c w p) :=
  keepsMemory_reachCore.bind fun _ => keepsMemory_theCore.bind fun _ => keepsMemory_ite (keepsMemory_require.bind fun _ => keepsMemory_modCore)
      (keepsMemory_awaitThat.bind fun _ => keepsMemory_modCore)

theorem releaseSends_canonical {s : State} {c : CoreId} (h : MemoryCanonical s) : MemoryCanonical (releaseSends s c) := ite_canonical h h

theorem pumpSends_canonical {s : State} {c : CoreId} (h : MemoryCanonical s) : MemoryCanonical (pumpSends s c) :=
  ite_canonical (releaseSends_canonical h) (releaseSends_canonical (updCore_canonical (releaseSends_canonical h)))

theorem modLaunch_canonical {s : State} {lid : Word} {f : Launch → Launch} (h : MemoryCanonical s) : MemoryCanonical (modLaunch s lid f) :=
  h

theorem putStatus_canonical {s : State} {pa : DWord} {code : Nat} (h : MemoryCanonical s) : MemoryCanonical (putStatus s pa code) :=
  hubStore_canonical h

theorem signalEvent_canonical {s : State} {n : Nat} (h : MemoryCanonical s) : MemoryCanonical (signalEvent s n) := h

theorem settleSuspend_canonical {s : State} {lid : Word} (h : MemoryCanonical s) : MemoryCanonical (settleSuspend s lid) := by
  unfold settleSuspend
  split
  · exact ite_canonical (putStatus_canonical (modLaunch_canonical h)) h
  · exact h

theorem launchTaskEnded_canonical {s : State} {t : Task} (h : MemoryCanonical s) : MemoryCanonical (launchTaskEnded s t) :=
  ite_canonical h (settleSuspend_canonical (modLaunch_canonical h))

theorem writeRecordOf_canonical {s : State} {g : Lodge} {v : Nat} (h : MemoryCanonical s) : MemoryCanonical (writeRecordOf s g v) :=
  ite_canonical h (hubStore_canonical h)

theorem writeBackLodges_canonical {s : State} {c : CoreId} (h : MemoryCanonical s) : MemoryCanonical (writeBackLodges s c) :=
  foldl_canonical (fun _ _ h1 => writeRecordOf_canonical h1) h

theorem orphanWork_canonical {s : State} {c : CoreId} (h : MemoryCanonical s) : MemoryCanonical (orphanWork s c) := h

theorem leaveBarriers_canonical {s : State} {c : CoreId} (h : MemoryCanonical s) : MemoryCanonical (leaveBarriers s c) := h

theorem leaveLocks_canonical {s : State} {c : CoreId} (h : MemoryCanonical s) : MemoryCanonical (leaveLocks s c) := h

theorem dropChannels_canonical {s : State} {c : CoreId} (h : MemoryCanonical s) : MemoryCanonical (dropChannels s c) :=
  ite_canonical (discardAll_canonical h) h

theorem dropUnbound_canonical {s : State} {c : CoreId} (h : MemoryCanonical s) : MemoryCanonical (dropUnbound s c) :=
  ite_canonical h (discardAll_canonical h)

theorem abandonWaits_canonical {s : State} {c : CoreId} (h : MemoryCanonical s) : MemoryCanonical (abandonWaits s c) := by
  unfold abandonWaits
  extract_lets s1 s2
  have hs1 : MemoryCanonical s1 := leaveLocks_canonical (leaveBarriers_canonical h)
  have hs2 : MemoryCanonical s2 := hs1
  exact hs2

theorem endTask_canonical {s : State} {c : CoreId} (h : MemoryCanonical s) : MemoryCanonical (endTask s c) := by
  unfold endTask
  extract_lets s1 s2 k
  have h2 : MemoryCanonical s2 :=
    dropChannels_canonical (abandonWaits_canonical (orphanWork_canonical (release_canonical (writeBackLodges_canonical h))))
  split
  · exact h2
  · exact launchTaskEnded_canonical (releaseSends_canonical (dropUnbound_canonical (setCore_canonical h2)))

theorem discardTask_canonical {s : State} {c : CoreId} (h : MemoryCanonical s) : MemoryCanonical (discardTask s c) := by
  unfold discardTask
  exact endTask_canonical (discardAll_canonical h)

theorem sentAll_canonical {s : State} {c : CoreId} (h : MemoryCanonical s) : MemoryCanonical (sentAll s c).1 := release_canonical h

theorem finishTask_canonical {s : State} {c : CoreId} (h : MemoryCanonical s) : MemoryCanonical (finishTask s c) :=
  ite_canonical h (ite_canonical (endTask_canonical (sentAll_canonical h)) (sentAll_canonical h))

theorem haltCore_canonical {s : State} {c : CoreId} {pc : DWord} {cause : Cause} (h : MemoryCanonical s) :
    MemoryCanonical (haltCore s c pc cause) :=
  report_canonical h

theorem machineEntry_canonical {s : State} {c : CoreId} {t : TrapAt} {plev : Nat} {handler : Bool} (h : MemoryCanonical s) :
    MemoryCanonical (machineEntry s c t plev handler) :=
  ite_canonical (haltCore_canonical h) h

theorem stewardEntry_canonical {s : State} {c : CoreId} {t : TrapAt} {handler : Bool} (h : MemoryCanonical s) :
    MemoryCanonical (stewardEntry s c t handler) :=
  h

theorem appendFault_canonical {s : State} {c : CoreId} {rec : Nat} (h : MemoryCanonical s) : MemoryCanonical (appendFault s c rec) :=
  updCore_canonical (ringAppend_canonical h)

theorem writeRecord_canonical {s : State} {c : CoreId} {rec : Nat} (h : MemoryCanonical s) : MemoryCanonical (writeRecord s c rec) :=
  appendFault_canonical (ite_canonical h (hubStore_canonical h))

theorem parkAt_canonical {s : State} {c : CoreId} (h : MemoryCanonical s) : MemoryCanonical (parkAt s c) := h

theorem discardReturned_canonical {s : State} {c : CoreId} (h : MemoryCanonical s) : MemoryCanonical (discardReturned s c) :=
  ite_canonical (discardAll_canonical h) h

theorem stopTask_canonical {s : State} {c : CoreId} (h : MemoryCanonical s) : MemoryCanonical (stopTask s c).1 := by
  have hs : MemoryCanonical (endState (saveContext c (setCore s c (markInterrupted (getCore s c))))) := keepsMemory_saveContext.run h
  unfold stopTask
  refine fst_ite_canonical (discardReturned_canonical h) ?_
  split
  · exact parkAt_canonical (ok_canonical ‹_› hs)
  · exact error_canonical ‹_› hs
  · rename_i hsave
    have ht := error_canonical hsave hs
    have ha := (keepsMemory_areaItems (c := c)).run ht
    refine fst_ite_canonical ht ?_
    dsimp only
    split
    · exact error_canonical ‹_› ha
    · exact parkAt_canonical (saveEmergency_canonical (ok_canonical ‹_› ha))
    · exact parkAt_canonical (saveEmergency_canonical (error_canonical ‹_› ha))

theorem recordPoison_canonical {s : State} {c : CoreId} {n : Nat} {ipc : DWord} (h : MemoryCanonical s) :
    MemoryCanonical (recordPoison s c n ipc) := by
  unfold recordPoison
  split
  · exact ite_canonical h (report_canonical h)
  · exact h

theorem settlePoison_canonical {s : State} {c : CoreId} {st : Stream} {ipc : DWord} (h : MemoryCanonical s) :
    MemoryCanonical (settlePoison s c st ipc) :=
  ite_canonical (updCore_canonical (recordPoison_canonical h)) h

theorem settleHeads_canonical {s : State} {c : CoreId} {z : Streams} (h : MemoryCanonical s) : MemoryCanonical (settleHeads s c z) := by
  unfold settleHeads
  extract_lets settle
  have hs {s : State} {st : Stream} {l : List Entry} (h : MemoryCanonical s) : MemoryCanonical (settle s st l) := by
    dsimp only [settle]
    split
    · exact settlePoison_canonical h
    · exact h
  exact hs (hs h)

theorem takeTrap_canonical {s : State} {c : CoreId} {t : TrapAt} (h : MemoryCanonical s) : MemoryCanonical (takeTrap s c t) := by
  unfold takeTrap
  dsimp only
  split
  · exact haltCore_canonical h
  · exact ite_canonical (haltCore_canonical h) (machineEntry_canonical (updCore_canonical h))
  · have hp : MemoryCanonical (pumpSends s c) := pumpSends_canonical h
    have hs : MemoryCanonical (stopTask (pumpSends s c) c).1 := stopTask_canonical hp
    refine ite_canonical hp (ite_canonical (haltCore_canonical hp) ?_)
    split
    · exact fst_canonical ‹_› hs
    · exact haltCore_canonical (fst_canonical ‹_› hs)
    · exact ite_canonical (machineEntry_canonical (writeRecord_canonical (settleHeads_canonical (fst_canonical ‹_› hs))))
        (stewardEntry_canonical (writeRecord_canonical (settleHeads_canonical (fst_canonical ‹_› hs))))

theorem backOut_canonical {s s' : State} {c : CoreId} (_ : MemoryCanonical s) (hs' : MemoryCanonical s') :
    MemoryCanonical (backOut s s' c) :=
  hs'

theorem stopAt_canonical {s s' : State} {c : CoreId} {t : TrapAt} (h : MemoryCanonical s) (h' : MemoryCanonical s') :
    MemoryCanonical (stopAt s s' c t) := by
  unfold stopAt
  refine ite_canonical (pumpSends_canonical h) (ite_canonical ?_ (takeTrap_canonical h'))
  exact backOut_canonical (pumpSends_canonical h) (stopTask_canonical (pumpSends_canonical h))

theorem canonicalNext_finish {s : State} {done : Core → Core} {r : EStateM.Result Stop State Unit} (h : MemoryCanonical s)
    (hr : MemoryCanonical (endState r)) : CanonicalNext (finish s done r) := by
  unfold finish
  split
  · exact canonicalNext_next hr
  · exact canonicalNext_next hr
  · exact canonicalNext_next (stopAt_canonical h hr)
  · exact canonicalNext_fault
  · exact canonicalNext_refused

theorem canonicalNext_control {m : CoreId → M Unit} {s : State} (hm : ∀ (a : CoreId), KeepsMemory (m a)) (h : MemoryCanonical s) :
    CanonicalNext (control m s) :=
  canonicalNext_finish h (KeepsMemory.run (hm _) h)

theorem canonicalNext_controlTo {rd : BitVec 5} {m : CoreId → M DWord} {s : State} (hm : ∀ (a : CoreId), KeepsMemory (m a))
    (h : MemoryCanonical s) : CanonicalNext (controlTo rd m s) :=
  canonicalNext_control (fun _ => (hm _).bind fun _ => keepsMemory_modCore) h

theorem canonicalNext_trapNow {s : State} {cause : Cause} {einfo : DWord} (h : MemoryCanonical s) : CanonicalNext (trapNow s cause einfo) :=
  canonicalNext_next (stopAt_canonical h h)

theorem leaveHandler_canonical {s : State} {c : CoreId} (h : MemoryCanonical s) : MemoryCanonical (leaveHandler s c) := endTask_canonical h

theorem keepsMemory_restoreWhole {c : CoreId} {pc : DWord} : KeepsMemory (restoreWhole c pc) :=
  keepsMemory_theCore.bind fun _ => keepsMemory_tryCatch keepsMemory_restoreContext fun _ => keepsMemory_modCore.bind fun _ => keepsMemory_throw

theorem keepsMemory_resumeTask {c : CoreId} {pc : DWord} : KeepsMemory (resumeTask c pc) := by
  unfold resumeTask
  refine keepsMemory_theCore.bind fun _ => ?_
  split
  · exact keepsMemory_modCore
  · exact keepsMemory_ite ((keepsMemory_answer fun _ h => sentAll_canonical h).bind fun _ => keepsMemory_awaitThat.bind fun _ =>
      keepsMemory_modify fun _ h => leaveHandler_canonical h) (keepsMemory_restoreWhole.bind fun _ => keepsMemory_modCore)

theorem keepsMemory_returnFromTrap {c : CoreId} : KeepsMemory (returnFromTrap c) := by
  unfold returnFromTrap
  refine keepsMemory_theCore.bind fun _ => keepsMemory_get.bind fun _ => keepsMemory_require.bind fun _ => keepsMemory_awaitThat.bind fun _ =>
      ?_
  split
  · exact keepsMemory_resumeTask
  · exact keepsMemory_modCore

/-! ### Operands of the vector stream -/

theorem keepsMemory_vxGov {v : Vx} : KeepsMemory v.gov := keepsMemory_theCore.bind fun _ => keepsMemory_pure

theorem keepsMemory_vxMask {v : Vx} : KeepsMemory v.mask := by
  unfold Vx.mask
  split
  · exact keepsMemory_pure
  · exact keepsMemory_vxGov

theorem keepsMemory_formatUnless {b : Bool} : KeepsMemory (formatUnless b) := keepsMemory_require

theorem keepsMemory_sourceTag {k : Core} {vl : Nat} {popped : Option Row} {o : Opd} : KeepsMemory (sourceTag k vl popped o) := by
  unfold sourceTag
  split
  · exact keepsMemory_pure
  · exact keepsMemory_formatUnless.bind fun _ => keepsMemory_pure
  · exact keepsMemory_formatUnless.bind fun _ => keepsMemory_pure
  · exact keepsMemory_pure
  · exact keepsMemory_pure
  · exact keepsMemory_pure

theorem keepsMemory_operatingTag {k : Core} {a b : Option HWord} {d : Opd} : KeepsMemory (operatingTag k a b d) := by
  unfold operatingTag
  split
  · exact keepsMemory_formatUnless.bind fun _ => keepsMemory_pure
  · exact keepsMemory_formatUnless.bind fun _ => keepsMemory_pure
  · exact keepsMemory_formatUnless.bind fun _ => keepsMemory_pure
  · split <;> exact keepsMemory_pure

theorem keepsMemory_takePops {c : CoreId} {srcs : List Opd} {e : Entry} : KeepsMemory (takePops c srcs e) := by
  unfold takePops
  refine keepsMemory_ite keepsMemory_pure (keepsMemory_theCore.bind fun _ => ?_)
  split
  · exact keepsMemory_wait
  · refine (keepsMemory_modify fun _ h => ?_).bind fun _ => keepsMemory_pure
    exact h

theorem keepsMemory_vxEnsure {v : Vx} {o : Opd} (hv : VxKeeps v) : KeepsMemory (v.ensure o) :=
  keepsMemory_eachOf fun _ => keepsMemory_vxEns hv

theorem keepsMemory_vxWholeSource {v : Vx} {popped : Option Row} {o : Opd} (_ : VxKeeps v) : KeepsMemory (v.wholeSource popped o) := by
  unfold Vx.wholeSource
  refine keepsMemory_theCore.bind fun _ => ?_
  dsimp only
  split
  · refine keepsMemory_get.bind fun _ => (keepsMemory_modify fun _ h => ?_).bind fun _ => keepsMemory_pure
    exact h
  · refine keepsMemory_get.bind fun _ => (keepsMemory_modify fun _ h => ?_).bind fun _ => keepsMemory_pure
    exact h
  · exact keepsMemory_pure

theorem keepsMemory_ensureScales {v : Vx} {tag : HWord} : KeepsMemory (ensureScales v tag) :=
  keepsMemory_ite (keepsMemory_eachOf fun _ => keepsMemory_fillScales) keepsMemory_pure

theorem keepsMemory_checkScales {k : Core} {tag : HWord} {es : List Nat} : KeepsMemory (checkScales k tag es) :=
  keepsMemory_ite keepsMemory_formatUnless keepsMemory_pure

theorem keepsMemory_noteWord {c : CoreId} {pa : Nat} {va : DWord} : KeepsMemory (noteWord c pa va) := keepsMemory_modCore

theorem keepsMemory_notePoison {c : CoreId} {ipc : DWord} {bits : Nat} : KeepsMemory (notePoison c ipc bits) :=
  keepsMemory_ite keepsMemory_pure (keepsMemory_modify fun _ h => ite_canonical h (settlePoison_canonical h))

theorem keepsMemory_checkLine {k : Core} {vl : Nat} {tag : HWord} : KeepsMemory (checkLine k vl tag) := keepsMemory_formatUnless

theorem keepsMemory_checkDest {k : Core} {v : Vx} {d : Opd} {tag : HWord} : KeepsMemory (checkDest k v d tag) := by
  unfold checkDest
  split
  · exact keepsMemory_checkLine
  · exact keepsMemory_checkLine
  · exact keepsMemory_ite keepsMemory_awaitThat keepsMemory_awaitThat
  · dsimp only
    split
    · exact keepsMemory_reachCore.bind fun _ => keepsMemory_ite keepsMemory_require keepsMemory_awaitThat
    · exact keepsMemory_raise.bind fun _ => keepsMemory_ite keepsMemory_require keepsMemory_awaitThat
  · exact keepsMemory_pure

theorem keepsMemory_pushOut {c : CoreId} {n : BitVec 3} {r : Row} : KeepsMemory (pushOut c n r) :=
  keepsMemory_modify fun _ h => pumpSends_canonical h

theorem keepsMemory_vxCutRows {v : Vx} {l : List (BitVec 6)} (hv : VxKeeps v) : KeepsMemory (v.cutRows l) :=
  keepsMemory_eachOf fun _ => keepsMemory_vxCut hv

theorem keepsMemory_openRows {v : Vx} {l : List (BitVec 6)} (hv : VxKeeps v) : KeepsMemory (openRows v l) :=
  keepsMemory_eachOf fun _ => (keepsMemory_vxCut hv).bind fun _ => keepsMemory_theCore.bind fun _ => keepsMemory_ite (keepsMemory_takeBlock.bind
      fun _ => keepsMemory_vxEns hv) (keepsMemory_vxEns hv)

theorem keepsMemory_openDest {v : Vx} {d : Opd} (hv : VxKeeps v) : KeepsMemory (openDest v d) := keepsMemory_openRows hv

theorem keepsMemory_writeDest {v : Vx} {d : Opd} {tag : HWord} {g : Nat → Option Res} : KeepsMemory (writeDest v d tag g) := by
  unfold writeDest
  dsimp only
  split
  · exact keepsMemory_modCore
  · exact keepsMemory_modCore
  · exact keepsMemory_modCore
  · exact keepsMemory_modCore
  · exact keepsMemory_pushOut
  · exact keepsMemory_pure

theorem keepsMemory_noteMismatch {c : CoreId} {m : BitVec 5 × Bool} : KeepsMemory (noteMismatch c m) :=
  keepsMemory_modify fun _ h => ite_canonical (updCore_canonical (report_canonical h)) (report_canonical h)

theorem keepsMemory_protect {v : Vx} {f : Fmt} {g : Nat → Option Res} : KeepsMemory (protect v f g) :=
  keepsMemory_theCore.bind fun _ => keepsMemory_ite keepsMemory_pure (keepsMemory_modCore.bind fun _ => (keepsMemory_eachOf fun _ =>
      keepsMemory_noteMismatch).bind fun _ => keepsMemory_pure)

theorem keepsMemory_groupEnds {v : Vx} {g : Nat} : KeepsMemory (groupEnds v g) := keepsMemory_modCore

theorem keepsMemory_countGroups {v : Vx} : KeepsMemory (countGroups v) := keepsMemory_ite keepsMemory_pure keepsMemory_modCore

theorem keepsMemory_byGroups {v : Vx} {d : Opd} {srcs : List Opd} {w : Nat} {retags : Bool} {act : (Nat → Bool) → M Unit} (hv : VxKeeps v)
    (hact : ∀ (a : Nat → Bool), KeepsMemory (act a)) : KeepsMemory (byGroups v d srcs w retags act) :=
  keepsMemory_ite ((keepsMemory_vxCutRows hv).bind fun _ => keepsMemory_eachOf fun _ => (keepsMemory_eachOf fun _ => keepsMemory_eachOf fun _ =>
      keepsMemory_vxEns hv).bind fun _ => (keepsMemory_openRows hv).bind fun _ => (hact _).bind fun _ => keepsMemory_groupEnds)
      ((keepsMemory_eachOf fun _ => keepsMemory_vxEnsure hv).bind fun _ => (keepsMemory_openDest hv).bind fun _ => (hact _).bind fun _ =>
      keepsMemory_countGroups)

/-! ### Frame instructions -/

theorem keepsMemory_checkOldTag {k : Core} {vl : Nat} {d : Opd} {t : HWord} : KeepsMemory (checkOldTag k vl d t) := keepsMemory_formatUnless

theorem keepsMemory_commitResult {v : Vx} {d : Opd} {tag : HWord} {g : Nat → Option Res} : KeepsMemory (commitResult v d tag g) :=
  keepsMemory_writeDest.bind fun _ => keepsMemory_notePoison

theorem keepsMemory_commitComputed {v : Vx} {d : Opd} {tag : HWord} {g : Nat → Option Res} : KeepsMemory (commitComputed v d tag g) :=
  keepsMemory_protect.bind fun _ => keepsMemory_commitResult

theorem keepsMemory_runLane {v : Vx} {o : LaneOp} {d a b : Opd} (hv : VxKeeps v) : KeepsMemory (runLane v o d a b) :=
  keepsMemory_theCore.bind fun _ => keepsMemory_sourceTag.bind fun _ => keepsMemory_ite (keepsMemory_sourceTag.bind fun _ =>
      keepsMemory_operatingTag.bind fun _ => keepsMemory_formatUnless.bind fun _ => keepsMemory_ite (keepsMemory_checkOldTag.bind fun _ =>
      keepsMemory_checkDest.bind fun _ => keepsMemory_byGroups hv fun _ => keepsMemory_theCore.bind fun _ => keepsMemory_vxMask.bind fun _ =>
      keepsMemory_commitComputed) (keepsMemory_checkDest.bind fun _ => keepsMemory_byGroups hv fun _ => keepsMemory_theCore.bind fun _ =>
      keepsMemory_vxMask.bind fun _ => keepsMemory_commitComputed)) (keepsMemory_pure.bind fun _ => keepsMemory_operatingTag.bind fun _ =>
      keepsMemory_formatUnless.bind fun _ => keepsMemory_ite (keepsMemory_checkOldTag.bind fun _ => keepsMemory_checkDest.bind fun _ =>
      keepsMemory_byGroups hv fun _ => keepsMemory_theCore.bind fun _ => keepsMemory_vxMask.bind fun _ => keepsMemory_commitComputed)
      (keepsMemory_checkDest.bind fun _ => keepsMemory_byGroups hv fun _ => keepsMemory_theCore.bind fun _ => keepsMemory_vxMask.bind fun _ =>
      keepsMemory_commitComputed))

theorem keepsMemory_runCvt {v : Vx} {d a : Opd} {t : Fmt} {rz sat : Bool} (hv : VxKeeps v) : KeepsMemory (runCvt v d a t rz sat) :=
  keepsMemory_theCore.bind fun _ => keepsMemory_sourceTag.bind fun _ => keepsMemory_operatingTag.bind fun _ => keepsMemory_formatUnless.bind fun
      _ => keepsMemory_checkDest.bind fun _ => keepsMemory_ensureScales.bind fun _ => keepsMemory_vxMask.bind fun _ => keepsMemory_theCore.bind
      fun _ => keepsMemory_checkScales.bind fun _ => keepsMemory_ite (keepsMemory_byGroups hv fun _ => keepsMemory_theCore.bind fun _ =>
      keepsMemory_commitComputed) ((keepsMemory_vxEnsure hv).bind fun _ => (keepsMemory_openDest hv).bind fun _ => keepsMemory_theCore.bind fun _
      => keepsMemory_commitComputed)

theorem keepsMemory_retag {v : Vx} {n : BitVec 6} {tag : HWord} (hv : VxKeeps v) : KeepsMemory (retag v n tag) :=
  keepsMemory_formatUnless.bind fun _ => (keepsMemory_vxCut hv).bind fun _ => keepsMemory_modCore

theorem keepsMemory_loadScales {v : Vx} {n : BitVec 6} {q : Nat} (hv : VxKeeps v) : KeepsMemory (loadScales v n q) :=
  keepsMemory_theCore.bind fun _ => keepsMemory_formatUnless.bind fun _ => keepsMemory_fillScales.bind fun _ => (keepsMemory_vxEns hv).bind fun _
      => keepsMemory_theCore.bind fun _ => keepsMemory_vxMask.bind fun _ => keepsMemory_protect.bind fun _ => keepsMemory_modCore.bind fun _ =>
      keepsMemory_notePoison

theorem keepsMemory_readScales {v : Vx} {n : BitVec 6} {q : Nat} (hv : VxKeeps v) : KeepsMemory (readScales v n q) :=
  keepsMemory_fillScales.bind fun _ => (keepsMemory_openDest hv).bind fun _ => keepsMemory_theCore.bind fun _ => keepsMemory_vxMask.bind fun _ =>
      keepsMemory_commitComputed

theorem keepsMemory_runFmt {v : Vx} {n : BitVec 6} {a : BitVec 5} (hv : VxKeeps v) : KeepsMemory (runFmt v n a) :=
  keepsMemory_formatUnless.bind fun _ => keepsMemory_ite (keepsMemory_retag hv) (keepsMemory_ite (keepsMemory_loadScales hv)
      (keepsMemory_readScales hv))

theorem keepsMemory_runClr {v : Vx} {n : BitVec 6} (hv : VxKeeps v) : KeepsMemory (runClr v n) :=
  (keepsMemory_vxCut hv).bind fun _ => keepsMemory_modCore

theorem keepsMemory_runId {v : Vx} {d : Opd} (hv : VxKeeps v) : KeepsMemory (runId v d) :=
  keepsMemory_theCore.bind fun _ => keepsMemory_checkDest.bind fun _ => keepsMemory_vxMask.bind fun _ => keepsMemory_byGroups hv fun _ =>
      keepsMemory_commitComputed

theorem keepsMemory_runCmp {v : Vx} {o : CmpOp} {kd : BitVec 3} {a b : Opd} (hv : VxKeeps v) : KeepsMemory (runCmp v o kd a b) :=
  keepsMemory_theCore.bind fun _ => keepsMemory_sourceTag.bind fun _ => keepsMemory_sourceTag.bind fun _ => keepsMemory_operatingTag.bind fun _
      => keepsMemory_formatUnless.bind fun _ => (keepsMemory_vxEnsure hv).bind fun _ => (keepsMemory_vxEnsure hv).bind fun _ =>
      keepsMemory_theCore.bind fun _ => keepsMemory_vxMask.bind fun _ => keepsMemory_protect.bind fun _ => keepsMemory_modCore.bind fun _ =>
      keepsMemory_notePoison

theorem keepsMemory_runSel {v : Vx} {d a b : Opd} (hv : VxKeeps v) : KeepsMemory (runSel v d a b) :=
  keepsMemory_theCore.bind fun _ => keepsMemory_sourceTag.bind fun _ => keepsMemory_sourceTag.bind fun _ => keepsMemory_operatingTag.bind fun _
      => keepsMemory_checkDest.bind fun _ => keepsMemory_vxGov.bind fun _ => keepsMemory_byGroups hv fun _ => keepsMemory_theCore.bind fun _ =>
      keepsMemory_commitComputed

theorem keepsMemory_runBool {v : Vx} {kd ka kb : BitVec 3} {f : BitVec 4} : KeepsMemory (runBool v kd ka kb f) :=
  keepsMemory_modCore

theorem keepsMemory_runKset {v : Vx} {kd : BitVec 3} {rs1 : BitVec 5} : KeepsMemory (runKset v kd rs1) := keepsMemory_modCore

theorem keepsMemory_writeReduced {v : Vx} {d : Opd} {t : HWord} {l : List Res} : KeepsMemory (writeReduced v d t l) := by
  unfold writeReduced
  refine keepsMemory_protect.bind fun _ => ?_
  dsimp only
  split
  · exact keepsMemory_ite (keepsMemory_modCore.bind fun _ => keepsMemory_notePoison) (keepsMemory_writeDest.bind fun _ => keepsMemory_notePoison)
  · exact keepsMemory_writeDest.bind fun _ => keepsMemory_notePoison

theorem keepsMemory_runRed {v : Vx} {o : RedOp} {d a : Opd} (hv : VxKeeps v) : KeepsMemory (runRed v o d a) :=
  keepsMemory_theCore.bind fun _ => keepsMemory_sourceTag.bind fun _ => keepsMemory_operatingTag.bind fun _ => keepsMemory_formatUnless.bind fun
      _ => keepsMemory_checkDest.bind fun _ => (keepsMemory_vxEnsure hv).bind fun _ => (keepsMemory_openDest hv).bind fun _ =>
      keepsMemory_theCore.bind fun _ => keepsMemory_vxMask.bind fun _ => keepsMemory_writeReduced

theorem keepsMemory_runRedMinx {v : Vx} {d a : Opd} (hv : VxKeeps v) : KeepsMemory (runRedMinx v d a) :=
  keepsMemory_theCore.bind fun _ => keepsMemory_sourceTag.bind fun _ => keepsMemory_operatingTag.bind fun _ => keepsMemory_formatUnless.bind fun
      _ => keepsMemory_checkDest.bind fun _ => (keepsMemory_vxEnsure hv).bind fun _ => (keepsMemory_openDest hv).bind fun _ =>
      keepsMemory_theCore.bind fun _ => keepsMemory_vxMask.bind fun _ => keepsMemory_writeReduced

theorem keepsMemory_runSlide {v : Vx} {up : Bool} {d a b : Opd} (hv : VxKeeps v) : KeepsMemory (runSlide v up d a b) :=
  keepsMemory_theCore.bind fun _ => keepsMemory_sourceTag.bind fun _ => keepsMemory_operatingTag.bind fun _ => keepsMemory_formatUnless.bind fun
      _ => keepsMemory_checkDest.bind fun _ => (keepsMemory_vxEnsure hv).bind fun _ => (keepsMemory_openDest hv).bind fun _ =>
      keepsMemory_theCore.bind fun _ => keepsMemory_vxMask.bind fun _ => keepsMemory_commitComputed

theorem keepsMemory_runPerm {v : Vx} {d a b : Opd} (hv : VxKeeps v) : KeepsMemory (runPerm v d a b) :=
  keepsMemory_theCore.bind fun _ => keepsMemory_sourceTag.bind fun _ => keepsMemory_operatingTag.bind fun _ => keepsMemory_formatUnless.bind fun
      _ => keepsMemory_sourceTag.bind fun _ => keepsMemory_formatUnless.bind fun _ => keepsMemory_checkDest.bind fun _ => (keepsMemory_vxEnsure
      hv).bind fun _ => (keepsMemory_vxEnsure hv).bind fun _ => (keepsMemory_openDest hv).bind fun _ => keepsMemory_theCore.bind fun _ =>
      keepsMemory_vxMask.bind fun _ => keepsMemory_commitComputed

theorem keepsMemory_runPack {v : Vx} {n : BitVec 6} {a b : Opd} (hv : VxKeeps v) : KeepsMemory (runPack v n a b) :=
  keepsMemory_theCore.bind fun _ => keepsMemory_sourceTag.bind fun _ => keepsMemory_sourceTag.bind fun _ => keepsMemory_operatingTag.bind fun _
      => keepsMemory_formatUnless.bind fun _ => (keepsMemory_vxEnsure hv).bind fun _ => (keepsMemory_vxEnsure hv).bind fun _ =>
      (keepsMemory_openDest hv).bind fun _ => keepsMemory_theCore.bind fun _ => keepsMemory_vxMask.bind fun _ => (keepsMemory_vxWholeSource
      hv).bind fun _ => (keepsMemory_vxWholeSource hv).bind fun _ => keepsMemory_commitComputed

theorem keepsMemory_runUnpk {v : Vx} {d a : Opd} {p : Nat} (hv : VxKeeps v) : KeepsMemory (runUnpk v d a p) := by
  unfold runUnpk
  refine keepsMemory_theCore.bind fun _ => keepsMemory_sourceTag.bind fun _ => keepsMemory_operatingTag.bind fun _ => ?_
  split
  · exact keepsMemory_formatUnless
  · exact keepsMemory_formatUnless.bind fun _ => keepsMemory_checkDest.bind fun _ => keepsMemory_ensureScales.bind fun _ =>
      keepsMemory_vxMask.bind fun _ => keepsMemory_theCore.bind fun _ => keepsMemory_checkScales.bind fun _ => (keepsMemory_vxEnsure hv).bind fun
      _ => (keepsMemory_openDest hv).bind fun _ => keepsMemory_theCore.bind fun _ => (keepsMemory_vxWholeSource hv).bind fun _ =>
      keepsMemory_commitComputed

theorem keepsMemory_runDot {v : Vx} {d a b : Opd} (hv : VxKeeps v) : KeepsMemory (runDot v d a b) := by
  unfold runDot
  refine keepsMemory_theCore.bind fun _ => keepsMemory_sourceTag.bind fun _ => keepsMemory_sourceTag.bind fun _ =>
      keepsMemory_formatUnless.bind fun _ => ?_
  split
  · exact keepsMemory_formatUnless
  · exact keepsMemory_formatUnless.bind fun _ => keepsMemory_ensureScales.bind fun _ => keepsMemory_ensureScales.bind fun _ =>
      keepsMemory_vxMask.bind fun _ => keepsMemory_theCore.bind fun _ => keepsMemory_checkScales.bind fun _ => keepsMemory_theCore.bind fun _ =>
      keepsMemory_checkScales.bind fun _ => keepsMemory_byGroups hv fun _ => keepsMemory_theCore.bind fun _ => keepsMemory_commitComputed

theorem keepsMemory_runQnt {v : Vx} {n a : BitVec 6} {s : BitVec 8} (hv : VxKeeps v) : KeepsMemory (runQnt v n a s) :=
  keepsMemory_theCore.bind fun _ => keepsMemory_formatUnless.bind fun _ => keepsMemory_formatUnless.bind fun _ => keepsMemory_fillScales.bind fun
      _ => keepsMemory_fillScales.bind fun _ => (keepsMemory_eachOf fun _ => keepsMemory_vxEns hv).bind fun _ => (keepsMemory_openDest hv).bind
      fun _ => keepsMemory_theCore.bind fun _ => keepsMemory_vxMask.bind fun _ => keepsMemory_modCore.bind fun _ => keepsMemory_commitComputed

theorem keepsMemory_runDq {v : Vx} {n : BitVec 6} {a : Opd} (hv : VxKeeps v) : KeepsMemory (runDq v n a) :=
  keepsMemory_theCore.bind fun _ => keepsMemory_sourceTag.bind fun _ => keepsMemory_operatingTag.bind fun _ => keepsMemory_formatUnless.bind fun
      _ => keepsMemory_formatUnless.bind fun _ => keepsMemory_ensureScales.bind fun _ => keepsMemory_vxMask.bind fun _ =>
      keepsMemory_theCore.bind fun _ => keepsMemory_checkScales.bind fun _ => (keepsMemory_vxEnsure hv).bind fun _ => (keepsMemory_eachOf fun _
      => keepsMemory_openDest hv).bind fun _ => keepsMemory_theCore.bind fun _ => (keepsMemory_collect fun _ => keepsMemory_protect.bind fun _ =>
      keepsMemory_writeDest.bind fun _ => keepsMemory_pure).bind fun _ => keepsMemory_notePoison

/-! ### Collective groups -/

theorem setTrees_canonical {s : State} {n : Node} {l : List TreeEntry} (h : MemoryCanonical s) : MemoryCanonical (setTrees s n l) := by
  unfold setTrees
  split <;> exact h

theorem modTree_canonical {s : State} {n : Node} {gid : BitVec 12} {f : TreeEntry → TreeEntry} (h : MemoryCanonical s) :
    MemoryCanonical (modTree s n gid f) :=
  setTrees_canonical h

theorem blurDst_canonical {s : State} {c : CoreId} {n : CollSlot} (h : MemoryCanonical s) : MemoryCanonical (blurDst s c n) :=
  foldl_canonical (fun _ _ h1 => storePut_canonical h1) h

theorem modGroup_canonical {s : State} {gid : BitVec 12} {ctx : HWord} {f : TreeEntry → Option TreeEntry} (h : MemoryCanonical s) :
    MemoryCanonical (modGroup s gid ctx f) :=
  h

theorem sendSteps_canonical {s : State} {e : TreeEntry} {ports : List Nat} {step : AbortStep} (h : MemoryCanonical s) :
    MemoryCanonical (sendSteps s e ports step) :=
  h

theorem tellPeers_canonical {s : State} {gid : BitVec 12} {ctx : HWord} (h : MemoryCanonical s) :
    MemoryCanonical (tellPeers s gid ctx) := by
  unfold tellPeers
  split
  · exact ite_canonical h (modTree_canonical (sendSteps_canonical h))
  · exact h

theorem spreadAbort_canonical {s : State} {gid : BitVec 12} {ctx : HWord} {timedOut : Bool} (h : MemoryCanonical s) :
    MemoryCanonical (spreadAbort s gid ctx timedOut) := by
  unfold spreadAbort
  extract_lets s1 hub s2 s3
  have h1 : MemoryCanonical s1 := foldl_canonical (fun _ _ hs => foldl_canonical (fun _ _ hs => blurDst_canonical hs) hs) h
  have h2 : MemoryCanonical s2 := of_store_canonical h1 rfl
  have h3 : MemoryCanonical s3 := modGroup_canonical h2
  exact tellPeers_canonical (of_store_canonical h3 rfl)

theorem freeGroup_canonical {s : State} {gid : BitVec 12} {ctx : HWord} (h : MemoryCanonical s) : MemoryCanonical (freeGroup s gid ctx) :=
  modGroup_canonical h

theorem settleAbort_canonical {s : State} {gid : BitVec 12} {ctx : HWord} (h : MemoryCanonical s) :
    MemoryCanonical (settleAbort s gid ctx) := by
  unfold settleAbort
  split
  · exact freeGroup_canonical h
  · refine ite_canonical (freeGroup_canonical h) (ite_canonical h ?_)
    split
    · exact freeGroup_canonical (sendSteps_canonical h)
    · exact ite_canonical h (modTree_canonical (sendSteps_canonical h))

theorem abortGroup_canonical {s : State} {gid : BitVec 12} {ctx : HWord} (h : MemoryCanonical s) : MemoryCanonical (abortGroup s gid ctx) :=
  settleAbort_canonical (spreadAbort_canonical h)

theorem startAbort_canonical {s : State} {n : Node} {gid : BitVec 12} (h : MemoryCanonical s) : MemoryCanonical (startAbort s n gid) :=
  modTree_canonical h

theorem travelGroup_canonical {s : State} {gid : BitVec 12} {ctx : HWord} (h : MemoryCanonical s) :
    MemoryCanonical (travelGroup s gid ctx) :=
  ite_canonical h (ite_canonical (abortGroup_canonical h) (spreadAbort_canonical h))

theorem fabricAbort_canonical {s : State} {port : Nat} {gid : BitVec 12} {ctx tenant : HWord} {step : AbortStep} (h : MemoryCanonical s) :
    MemoryCanonical (fabricAbort s port gid ctx tenant step) := by
  unfold fabricAbort
  split
  · exact h
  · refine ite_canonical h ?_
    split
    · exact abortGroup_canonical h
    · exact ite_canonical (settleAbort_canonical (modTree_canonical h)) h
    · exact ite_canonical (freeGroup_canonical (sendSteps_canonical h)) h

theorem moveStep_canonical {s : State} {m : AbortMsg} (h : MemoryCanonical s) : MemoryCanonical (moveStep s m) := by
  unfold moveStep
  dsimp only
  split
  · exact h
  · exact report_canonical h
  · exact ite_canonical (hubFlit_canonical h) (ite_canonical (hubFlit_canonical (hubFlit_canonical h)) (hubFlit_canonical (hubFlit_canonical h)))

theorem moveSteps_canonical {s : State} (h : MemoryCanonical s) : MemoryCanonical (moveSteps s) :=
  foldl_canonical (fun _ _ h1 => moveStep_canonical h1) h

theorem abortContextGroups_canonical {s : State} {ctx : HWord} (h : MemoryCanonical s) : MemoryCanonical (abortContextGroups s ctx) :=
  foldl_canonical (fun _ _ h1 => abortGroup_canonical h1) h

theorem abortCoreGroups_canonical {s : State} {c : CoreId} (h : MemoryCanonical s) : MemoryCanonical (abortCoreGroups s c) :=
  foldl_canonical (fun _ _ h1 => abortGroup_canonical h1) h

theorem passThrough_canonical {s : State} {ctx : HWord} {l : List CoreId} (h : MemoryCanonical s) :
    MemoryCanonical (passThrough s ctx l) := by
  unfold passThrough
  refine foldl_canonical (fun _ _ h1 => ?_) h
  exact h1

theorem downFabric_canonical {s : State} {m : RelayMsg} {rows : List Row} (h : MemoryCanonical s) :
    MemoryCanonical (downFabric s m rows) := by
  unfold downFabric
  split
  · exact ite_canonical h h
  · exact h

theorem completeWave_canonical {s : State} {m : RelayMsg} {rows : List Row} (h : MemoryCanonical s) :
    MemoryCanonical (completeWave s m rows) := by
  unfold completeWave
  refine foldl_canonical (fun s1 _ h1 => ?_) (downFabric_canonical h)
  split
  · exact h1
  · exact ite_canonical (startAbort_canonical h1) (ite_canonical h1 h1)

theorem relayAt_canonical {s : State} {m : RelayMsg} {e : TreeEntry} (h : MemoryCanonical s) : MemoryCanonical (relayAt s m e) := by
  unfold relayAt
  refine ite_canonical (ite_canonical (completeWave_canonical (modTree_canonical h)) ?_) (modTree_canonical h)
  split <;> exact modTree_canonical h

theorem dropRow_canonical {s : State} {n : Node} {rows : Nat} (h : MemoryCanonical s) : MemoryCanonical (dropRow s n rows) := by
  unfold dropRow
  split <;> exact h

theorem rowFails_canonical {s : State} {gid : BitVec 12} {ctx tenant : HWord} {coord : Nat} {wave : HWord} (h : MemoryCanonical s) :
    MemoryCanonical (rowFails s gid ctx tenant coord wave) :=
  spreadAbort_canonical (report_canonical h)

theorem receiveRow_canonical {s : State} {m : RelayMsg} (h : MemoryCanonical s) : MemoryCanonical (receiveRow s m) := by
  unfold receiveRow
  dsimp only
  split
  · exact abortGroup_canonical (passThrough_canonical h)
  · exact ite_canonical (spreadAbort_canonical (passThrough_canonical h)) (ite_canonical (passThrough_canonical h) (ite_canonical (ite_canonical
      (dropRow_canonical (passThrough_canonical h)) (relayAt_canonical (passThrough_canonical h))) (dropRow_canonical (passThrough_canonical
      h))))

theorem keepRow_canonical {s : State} {k : Nat} {w : Transit} (h : MemoryCanonical s) : MemoryCanonical (keepRow s k w) := h

theorem relayRow_canonical {s : State} {k : Nat} (h : MemoryCanonical s) : MemoryCanonical (relayRow s k) := by
  unfold relayRow
  split
  · exact h
  · split
    · exact h
    · exact rowFails_canonical h
    · exact ite_canonical h (ite_canonical (ite_canonical h (receiveRow_canonical h)) (ite_canonical (keepRow_canonical (hubFlit_canonical h))
        (ite_canonical (ite_canonical (hubFlit_canonical (hubFlit_canonical h)) (keepRow_canonical (hubFlit_canonical (hubFlit_canonical h))))
        (receiveRow_canonical (ite_canonical (hubFlit_canonical (hubFlit_canonical h)) (keepRow_canonical (hubFlit_canonical (hubFlit_canonical
        h))))))))

theorem receivePiece_canonical {s : State} {m : DownMsg} (h : MemoryCanonical s) : MemoryCanonical (receivePiece s m) := by
  unfold receivePiece
  dsimp only
  split
  · exact updCore_canonical (passThrough_canonical h)
  · refine ite_canonical (updCore_canonical (passThrough_canonical h)) (ite_canonical ?_ (updCore_canonical (foldl_canonical (fun _ _ h1 =>
      storePut_canonical h1) (passThrough_canonical h))))
    split <;> exact updCore_canonical (passThrough_canonical h)

theorem keepPiece_canonical {s : State} {k : Nat} {w : Transit} (h : MemoryCanonical s) : MemoryCanonical (keepPiece s k w) := h

theorem deliverDown_canonical {s : State} {k : Nat} (h : MemoryCanonical s) : MemoryCanonical (deliverDown s k) := by
  unfold deliverDown
  split
  · exact h
  · split
    · exact h
    · exact rowFails_canonical h
    · exact ite_canonical h (ite_canonical (keepPiece_canonical (hubFlit_canonical h)) (ite_canonical (receivePiece_canonical (hubFlit_canonical
        (hubFlit_canonical h))) (receivePiece_canonical (keepPiece_canonical (hubFlit_canonical (hubFlit_canonical h))))))

theorem fabricRows_canonical {s : State} {port : Nat} {m : RelayMsg} (h : MemoryCanonical s) : MemoryCanonical (fabricRows s port m) := by
  unfold fabricRows
  split
  · exact h
  · exact ite_canonical h (ite_canonical (spreadAbort_canonical h) (ite_canonical h (ite_canonical (completeWave_canonical h) h)))

/-! ### The hub's registers and commands -/

theorem modRegs_canonical {s : State} {f : HubRegs → HubRegs} (h : MemoryCanonical s) : MemoryCanonical (modRegs s f) := h

theorem pushFifo_canonical {s : State} {pa : DWord} (h : MemoryCanonical s) : MemoryCanonical (pushFifo s pa) := modRegs_canonical h

theorem refillFifo_canonical {s : State} (h : MemoryCanonical s) : MemoryCanonical (refillFifo s) := by
  unfold refillFifo
  split
  · exact ite_canonical (pushFifo_canonical h) h
  · exact h

theorem launchPush_canonical {s : State} {v : DWord} (h : MemoryCanonical s) : MemoryCanonical (launchPush s v) :=
  ite_canonical (report_canonical h) (ite_canonical (pushFifo_canonical h) h)

theorem drainNotices_canonical {s : State} (h : MemoryCanonical s) : MemoryCanonical (drainNotices s) :=
  foldl_canonical (fun _ _ h1 => modRegs_canonical (ringAppend_canonical h1)) h

theorem drainErrors_canonical {s : State} (h : MemoryCanonical s) : MemoryCanonical (drainErrors s) :=
  foldl_canonical (fun _ _ h1 => modRegs_canonical (ringAppend_canonical h1)) h

theorem regCtx_canonical {s : State} {arg : DWord} (h : MemoryCanonical s) : MemoryCanonical (regCtx s arg).1 := by
  unfold regCtx
  dsimp only
  exact fst_ite_canonical h (fst_ite_canonical (hubLoad_canonical h) (hubLoad_canonical h))

theorem dropContext_canonical {s : State} {ctx : HWord} (h : MemoryCanonical s) : MemoryCanonical (dropContext s ctx) := h

theorem unregCtx_canonical {s : State} {ctx : HWord} (h : MemoryCanonical s) : MemoryCanonical (unregCtx s ctx).1 :=
  fst_ite_canonical h (fst_ite_canonical h (dropContext_canonical h))

theorem modCopy_canonical {s : State} {c : Copy} {f : Copy → Copy} (h : MemoryCanonical s) : MemoryCanonical (modCopy s c f) := h

theorem completeCopy_canonical {s : State} {c : Copy} {status : Nat} (h : MemoryCanonical s) : MemoryCanonical (completeCopy s c status) :=
  ite_canonical (modCopy_canonical (foldl_canonical (fun _ _ h1 => ite_canonical (bumpRegion_canonical h1) h1) h)) (updCore_canonical
      (modCopy_canonical (foldl_canonical (fun _ _ h1 => ite_canonical (bumpRegion_canonical h1) h1) h)))

theorem copyActive_canonical {s : State} {c : Copy} (h : MemoryCanonical s) : MemoryCanonical (copyActive s c) := h

theorem endCopy_canonical {s : State} {c : Copy} {status : Nat} (h : MemoryCanonical s) : MemoryCanonical (endCopy s c status) := by
  unfold endCopy
  extract_lets s1
  have hs1 : MemoryCanonical s1 := copyActive_canonical (completeCopy_canonical h)
  exact ite_canonical hs1 hs1

theorem endLaunch_canonical {s : State} {l : Launch} {code : Nat} (h : MemoryCanonical s) : MemoryCanonical (endLaunch s l code) := by
  have hp : MemoryCanonical (putStatus (hubStore s (l.pa.toNat + 72) 8 s.time.toNat) l.pa code) :=
    putStatus_canonical (hubStore_canonical h)
  exact withHub_canonical hp

theorem withdrawClaims_canonical {s : State} {lid : Word} (h : MemoryCanonical s) : MemoryCanonical (withdrawClaims s lid) :=
  modLaunch_canonical h

theorem clearEmergency_canonical {s : State} {c : CoreId} (h : MemoryCanonical s) : MemoryCanonical (clearEmergency s c) :=
  ite_canonical h (hubStore_canonical h)

theorem freeBarriers_canonical {s : State} {ctx : HWord} (h : MemoryCanonical s) : MemoryCanonical (freeBarriers s ctx) := h

theorem preemptLaunch_canonical {s : State} {lid : Word} (h : MemoryCanonical s) : MemoryCanonical (preemptLaunch s lid) :=
  settleSuspend_canonical (modLaunch_canonical (withdrawClaims_canonical h))

theorem modJob_canonical {s : State} {f : Job → Job} (h : MemoryCanonical s) : MemoryCanonical (modJob s f) := h

theorem setPhase_canonical {s : State} {p : JobPhase} (h : MemoryCanonical s) : MemoryCanonical (setPhase s p) := modJob_canonical h

theorem finishJob_canonical {s : State} {r : CmdResult} (h : MemoryCanonical s) : MemoryCanonical (finishJob s r) := by
  unfold finishJob
  split
  · exact h
  · exact signalHost_canonical (modRegs_canonical h)

theorem purgeReady_canonical {s : State} {ctx : HWord} (h : MemoryCanonical s) : MemoryCanonical (purgeReady s ctx) := h

theorem startKill_canonical {s : State} {ctx : HWord} (h : MemoryCanonical s) : MemoryCanonical (startKill s ctx) :=
  ite_canonical (finishJob_canonical h) (setPhase_canonical (purgeReady_canonical (foldl_canonical (fun _ _ h1 => withdrawClaims_canonical h1)
      h)))

theorem killAt_canonical {s : State} {ctx : HWord} {c : CoreId} (h : MemoryCanonical s) : MemoryCanonical (killAt s ctx c) :=
  ite_canonical (discardTask_canonical (clearEmergency_canonical h)) h

theorem endKill_canonical {s : State} {ctx : HWord} (h : MemoryCanonical s) : MemoryCanonical (endKill s ctx) :=
  finishJob_canonical (dropContext_canonical (foldl_canonical (fun _ _ h1 => endLaunch_canonical h1) (freeBarriers_canonical
      (abortContextGroups_canonical (purgeReady_canonical h)))))

theorem startPreempt_canonical {s : State} {lid : Word} (h : MemoryCanonical s) : MemoryCanonical (startPreempt s lid) :=
  ite_canonical (setPhase_canonical h) (ite_canonical (setPhase_canonical (preemptLaunch_canonical h)) (finishJob_canonical h))

theorem flushPageAt_canonical {s : State} {c : CoreId} {page : Nat} (h : MemoryCanonical s) : MemoryCanonical (flushPageAt s c page) :=
  foldl_canonical (fun _ _ h1 => performNow_canonical h1) h

theorem flushPage_canonical {s : State} {page : Nat} (h : MemoryCanonical s) : MemoryCanonical (flushPage s page) :=
  foldl_canonical (fun _ _ h1 => flushPageAt_canonical h1) (foldl_canonical (fun _ _ h1 => recallNow_canonical h1) h)

theorem moveLine_canonical {s : State} {src dst : Nat} (h : MemoryCanonical s) : MemoryCanonical (moveLine s src dst) :=
  ite_canonical (evictL2_canonical (homePush_canonical (useFree_canonical (evictL2_canonical (notePort_canonical (foldLine_canonical
      (syncHost_canonical h))))))) (homePush_canonical (useFree_canonical (evictL2_canonical (notePort_canonical (foldLine_canonical
      (syncHost_canonical h))))))

theorem movePage_canonical {s : State} {src dst : Nat} (h : MemoryCanonical s) : MemoryCanonical (movePage s src dst) := by
  have hl (l : List Nat) : MemoryCanonical
      (l.foldl (fun s i => moveLine s (lineOf src + i) (lineOf dst + i)) (flushPage s (src / 65536))) :=
    foldl_canonical (fun _ _ hs => moveLine_canonical hs) (flushPage_canonical h)
  exact withHub_canonical (hl _)

theorem startMigrate_canonical {s : State} {arg : DWord} (h : MemoryCanonical s) : MemoryCanonical (startMigrate s arg) := by
  unfold startMigrate
  dsimp only
  exact ite_canonical (finishJob_canonical h) (ite_canonical (finishJob_canonical (hubLoad_canonical h)) (setPhase_canonical (movePage_canonical
      (hubLoad_canonical h))))

theorem endMigrate_canonical {s : State} {src : Nat} (h : MemoryCanonical s) : MemoryCanonical (endMigrate s src) :=
  finishJob_canonical (modRegs_canonical (ringAppend_canonical h))

theorem startJob_canonical {s : State} {j : Job} (h : MemoryCanonical s) : MemoryCanonical (startJob s j) := by
  unfold startJob
  split
  · exact finishJob_canonical (regCtx_canonical h)
  · exact finishJob_canonical (unregCtx_canonical h)
  · exact startKill_canonical h
  · exact startPreempt_canonical h
  · exact startMigrate_canonical h
  · exact finishJob_canonical h

theorem serveJob_canonical {s : State} (h : MemoryCanonical s) : MemoryCanonical (serveJob s) := by
  unfold serveJob
  split
  · exact h
  · split
    · exact startJob_canonical h
    · exact ite_canonical h (endKill_canonical h)
    · exact ite_canonical (setPhase_canonical (killAt_canonical (fst_ite_canonical (sentAll_canonical h) h))) (fst_ite_canonical
        (sentAll_canonical h) h)
    · exact ite_canonical h (finishJob_canonical h)
    · exact ite_canonical (setPhase_canonical h) (endMigrate_canonical h)

theorem startCommand_canonical {s : State} {machine : Bool} {op : BitVec 4} (h : MemoryCanonical s) :
    MemoryCanonical (startCommand s machine op) := by
  unfold startCommand
  extract_lets pair mark s1 first hub s2
  have h2 : MemoryCanonical s2 := h
  exact ite_canonical h (ite_canonical (serveJob_canonical h2) h2)

theorem putArg_canonical {s : State} {machine : Bool} {arg : DWord} (h : MemoryCanonical s) : MemoryCanonical (putArg s machine arg) :=
  modRegs_canonical h

theorem regionWrite_canonical {s : State} {g : Nat} {v : DWord} (h : MemoryCanonical s) : MemoryCanonical (regionWrite s g v) :=
  ite_canonical (report_canonical h) (broadcastVersion_canonical (modRegs_canonical h))

theorem modCtrs_canonical {s : State} {c : CoreId} {f : CounterBlock → CounterBlock} (h : MemoryCanonical s) :
    MemoryCanonical (modCtrs s c f) :=
  h

theorem regWrite_canonical {s : State} {who : Asker} {r : Reg} {new ones : DWord} {low : Bool} (h : MemoryCanonical s) :
    MemoryCanonical (regWrite s who r new ones low) := by
  unfold regWrite
  dsimp only
  split
  iterate 8 exact h
  · exact launchPush_canonical h
  · exact ite_canonical (putArg_canonical h) h
  · exact ite_canonical (startCommand_canonical h) h
  · exact ite_canonical (modRegs_canonical h) h
  · exact modRegs_canonical h
  · exact ite_canonical (modRegs_canonical h) h
  · exact ite_canonical (modRegs_canonical h) h
  · exact ite_canonical (modRegs_canonical h) h
  · exact ite_canonical (regionWrite_canonical h) h
  · exact modRegs_canonical h
  · exact modRegs_canonical h
  iterate 8 exact modCtrs_canonical h
  · exact modCtrs_canonical h

theorem blockWrite_canonical {s : State} {who : Asker} {off n v : Nat} (h : MemoryCanonical s) :
    MemoryCanonical (blockWrite s who off n v) := by
  unfold blockWrite
  split
  · exact regWrite_canonical h
  · exact h

/-! ### Accesses of a task -/

theorem keepsMemory_strong {α : Type} {c : CoreId} {pa : Nat} {pg : Page} {m : M α} (hm : KeepsMemory m) : KeepsMemory (strong c pa pg m) :=
  keepsMemory_ite (keepsMemory_releaseNow.bind fun _ => keepsMemory_get.bind fun _ => keepsMemory_theCore.bind fun _ => keepsMemory_ite (hm.bind
      fun _ => (keepsMemory_modify fun _ h => acquire_canonical h).bind fun _ => keepsMemory_pure) (keepsMemory_awaitThat.bind fun _ =>
      (keepsMemory_modify fun _ h => modRegs_canonical h).bind fun _ => hm.bind fun _ => (keepsMemory_modify fun _ h => acquire_canonical h).bind
      fun _ => keepsMemory_pure)) hm

theorem keepsMemory_readAt {c : CoreId} {loc : Loc} {n : Nat} {va : DWord} : KeepsMemory (readAt c loc n va) := by
  unfold readAt
  split
  · exact keepsMemory_ite (keepsMemory_once (keepsMemory_strong (keepsMemory_ite (keepsMemory_deviceRead keepsMemory_pure (keepsMemory_get.bind
      fun _ => keepsMemory_pure)) keepsMemory_readLoc))) (keepsMemory_strong (keepsMemory_ite (keepsMemory_deviceRead keepsMemory_pure
      (keepsMemory_get.bind fun _ => keepsMemory_pure)) keepsMemory_readLoc))
  · exact keepsMemory_readLoc

theorem keepsMemory_writeAt {c : CoreId} {loc : Loc} {n v : Nat} {bad : Bool} {va : DWord} : KeepsMemory (writeAt c loc n v bad va) := by
  unfold writeAt
  split
  · exact keepsMemory_strong (keepsMemory_ite (keepsMemory_theCore.bind fun _ => keepsMemory_ite (keepsMemory_releaseNow.bind fun _ =>
      keepsMemory_writeRequest keepsMemory_pure (keepsMemory_modify fun _ h => markWatched_canonical (blockWrite_canonical h)))
      (keepsMemory_writeRequest keepsMemory_pure (keepsMemory_modify fun _ h => markWatched_canonical (blockWrite_canonical h))))
      keepsMemory_writeLoc)
  · exact keepsMemory_writeLoc

theorem keepsMemory_raisePoison {α : Type} {c : CoreId} {pa : Nat} {va : DWord} : KeepsMemory (raisePoison c pa va : M α) :=
  (keepsMemory_modify fun _ h => report_canonical h).bind fun _ => keepsMemory_raise

theorem keepsMemory_loadScalar {c : CoreId} {va : DWord} {n : Nat} : KeepsMemory (loadScalar c va n) :=
  keepsMemory_require.bind fun _ => keepsMemory_translate.bind fun _ => keepsMemory_readAt.bind fun _ => keepsMemory_ite (keepsMemory_get.bind
      fun _ => keepsMemory_raisePoison) keepsMemory_pure

theorem keepsMemory_storeScalar {c : CoreId} {va : DWord} {n : Nat} {v : DWord} : KeepsMemory (storeScalar c va n v) :=
  keepsMemory_require.bind fun _ => keepsMemory_translate.bind fun _ => keepsMemory_writeAt

theorem keepsMemory_probeRange {c : CoreId} {va : DWord} {n : Nat} {acc : Access} : KeepsMemory (probeRange c va n acc) :=
  keepsMemory_collect fun _ => keepsMemory_translate.bind fun _ => keepsMemory_pure

theorem keepsMemory_readPiece {c : CoreId} {p : Loc × DWord × Nat} : KeepsMemory (readPiece c p) := by
  unfold readPiece
  split
  · exact keepsMemory_ite ((keepsMemory_collect fun _ => keepsMemory_readAt).bind fun _ => keepsMemory_pure) keepsMemory_readAt
  · exact keepsMemory_readAt

theorem keepsMemory_readPieces {c : CoreId} {l : List (Loc × DWord × Nat)} : KeepsMemory (readPieces c l) := by
  induction l with
  | nil => exact keepsMemory_pure
  | cons p r ih => exact keepsMemory_readPiece.bind fun _ => keepsMemory_get.bind fun _ => ih.bind fun _ => keepsMemory_pure

theorem keepsMemory_readImage {c : CoreId} {va : DWord} {n : Nat} : KeepsMemory (readImage c va n) := by
  unfold readImage
  refine keepsMemory_probeRange.bind fun _ => keepsMemory_readPieces.bind fun _ => ?_
  split
  · exact keepsMemory_raisePoison
  · exact keepsMemory_pure

theorem keepsMemory_locReach {c : CoreId} {va : DWord} {l : Loc} : KeepsMemory (Loc.reach c va l) := by
  unfold Loc.reach
  split
  · exact keepsMemory_reachHome
  · exact keepsMemory_ite keepsMemory_pure keepsMemory_reachCore

theorem keepsMemory_remoteOp {c : CoreId} {einfo : DWord} {loc : Loc} {prep start : M Unit} {apply : M DWord} (hprep : KeepsMemory prep)
    (hstart : KeepsMemory start) (happly : KeepsMemory apply) : KeepsMemory (remoteOp c einfo loc prep start apply) :=
  keepsMemory_remoteWith (hprep.bind fun _ => keepsMemory_pure) hstart keepsMemory_locReach keepsMemory_pure happly

theorem keepsMemory_nodeOp {c : CoreId} {einfo : DWord} {reach : M Unit} {apply : M DWord} (hreach : KeepsMemory reach)
    (happly : KeepsMemory apply) : KeepsMemory (nodeOp c einfo reach apply) :=
  keepsMemory_remoteWith keepsMemory_pure keepsMemory_pure hreach keepsMemory_pure happly

theorem keepsMemory_addPartial {c : CoreId} {op : FoldOp} {opc : BitVec 3} {f : Fmt} {pa : Nat} {pg : Page} {v : Nat} :
    KeepsMemory (addPartial c op opc f pa pg v) :=
  keepsMemory_theCore.bind fun _ => keepsMemory_modCore.bind fun _ => keepsMemory_pure

theorem takeDirty_canonical {s : State} {c : CoreId} {pa n : Nat} (h : MemoryCanonical s) : MemoryCanonical (takeDirty s c pa n).1 := by
  unfold takeDirty
  dsimp only
  split
  · exact h
  · exact updCore_canonical (evictErrors_canonical h)

theorem keepsMemory_dropHome {c : CoreId} {line : Nat} : KeepsMemory (dropHome c line) :=
  (keepsMemory_modify fun _ h => ite_canonical (sendPush_canonical h) h).bind fun _ => keepsMemory_theCore.bind fun _ => keepsMemory_awaitThat

theorem keepsMemory_readyHome {c : CoreId} {pa n : Nat} {pg : Page} : KeepsMemory (readyHome c pa n pg) :=
  keepsMemory_dropHome.bind fun _ => (keepsMemory_answer fun _ h => takeDirty_canonical h).bind fun _ => keepsMemory_modify fun _ h =>
      homePush_canonical h

theorem openHome_canonical {s : State} {line : Nat} {words : Word} (h : MemoryCanonical s) : MemoryCanonical (openHome s line words) :=
  foldWords_canonical (syncHost_canonical h)

theorem keepsMemory_rmwHome {c : CoreId} {pa n : Nat} {pg : Page} {va : DWord} {f : Rmw} : KeepsMemory (rmwHome c pa n pg va f) := by
  unfold rmwHome
  refine keepsMemory_reachHome.bind fun _ => keepsMemory_recallFor.bind fun _ => (keepsMemory_modify fun _ h => meetErrors_canonical h).bind fun
      a2 => keepsMemory_pinFor.bind fun _ => keepsMemory_readyHome.bind fun _ => (keepsMemory_modify fun _ h => openHome_canonical h).bind fun
      a5 => (keepsMemory_answer fun _ h => serveWords_canonical h).bind fun _ => ?_
  dsimp only
  split
  · exact keepsMemory_pure
  · exact (keepsMemory_modify fun _ h => grantZeros_canonical (writeL2_canonical h)).bind fun _ => keepsMemory_pure

theorem keepsMemory_rmwOutside {c : CoreId} {pa n : Nat} {pg : Page} {va : DWord} {f : Rmw} : KeepsMemory (rmwOutside c pa n pg va f) := by
  unfold rmwOutside
  refine keepsMemory_reachHome.bind fun _ => keepsMemory_recallFor.bind fun _ => (keepsMemory_modify fun _ h => expireL2_canonical h).bind fun
      a2 => keepsMemory_readyHome.bind fun _ => (keepsMemory_modify fun _ h => spillL2_canonical (openHome_canonical h)).bind fun _ =>
      keepsMemory_get.bind fun _ => keepsMemory_awaitThat.bind fun _ => (keepsMemory_modify fun _ h => notePort_canonical (dropL2_canonical
      h)).bind fun _ => keepsMemory_get.bind fun _ => ?_
  dsimp only
  split
  · exact keepsMemory_pure
  · exact (keepsMemory_modify fun _ h => grantZeros_canonical (storePut_canonical h)).bind fun _ => keepsMemory_pure

theorem keepsMemory_rmwCluster {c : CoreId} {pa n : Nat} {pg : Page} {va : DWord} {f : Rmw} : KeepsMemory (rmwCluster c pa n pg va f) := by
  unfold rmwCluster
  refine keepsMemory_reachCore.bind fun _ => keepsMemory_theCore.bind fun _ => ?_
  extract_lets mask atHome
  have h (u : Unit) : KeepsMemory (atHome u) := by
    refine (keepsMemory_modify fun _ h => roomHome_canonical h).bind fun _ => keepsMemory_get.bind fun _ => keepsMemory_awaitThat.bind fun _ =>
      (keepsMemory_modify fun _ h => fillHome_canonical h).bind fun _ => (keepsMemory_answer fun _ h => takeDirty_canonical h).bind fun _ =>
      (keepsMemory_modify fun _ h => ?_).bind fun _ => keepsMemory_theCore.bind fun _ => ?_
    · exact ite_canonical h h
    split
    · exact keepsMemory_pure
    · dsimp only
      split
      · exact keepsMemory_pure
      · refine (keepsMemory_modify fun _ h => ?_).bind fun _ => keepsMemory_pure
        exact h
  exact keepsMemory_ite (keepsMemory_reachHome.bind h) (h ())

theorem keepsMemory_rmwL1 {c : CoreId} {pa n : Nat} {pg : Page} {va : DWord} {f : Rmw} : KeepsMemory (rmwL1 c pa n pg va f) := by
  unfold rmwL1
  refine keepsMemory_fillL1.bind fun _ => ?_
  dsimp only
  split
  · exact keepsMemory_pure
  · exact (keepsMemory_modify fun _ h => writeL1_canonical h).bind fun _ => keepsMemory_pure

theorem keepsMemory_rmwSram {t : CoreId} {off n : Nat} {f : Rmw} : KeepsMemory (rmwSram t off n f) := by
  unfold rmwSram
  refine keepsMemory_get.bind fun _ => ?_
  dsimp only
  split
  · exact keepsMemory_pure
  · exact (keepsMemory_modify fun _ h => storePut_canonical h).bind fun _ => keepsMemory_pure

theorem keepsMemory_rmwAt {c : CoreId} {loc : Loc} {sc : Scope} {n : Nat} {va : DWord} {f : Rmw} : KeepsMemory (rmwAt c loc sc n va f) := by
  unfold rmwAt
  refine keepsMemory_theCore.bind fun _ => ?_
  dsimp only
  split
  · exact keepsMemory_rmwSram.bind fun _ => keepsMemory_ite ((keepsMemory_modify fun _ h => markWatched_canonical h).bind fun _ =>
      keepsMemory_pure) keepsMemory_pure
  · split
    · exact keepsMemory_rmwL1.bind fun _ => keepsMemory_ite ((keepsMemory_modify fun _ h => markWatched_canonical h).bind fun _ =>
        keepsMemory_pure) keepsMemory_pure
    · exact keepsMemory_rmwCluster.bind fun _ => keepsMemory_ite ((keepsMemory_modify fun _ h => markWatched_canonical h).bind fun _ =>
        keepsMemory_pure) keepsMemory_pure
    · exact keepsMemory_rmwHome.bind fun _ => keepsMemory_ite ((keepsMemory_modify fun _ h => markWatched_canonical h).bind fun _ =>
        keepsMemory_pure) keepsMemory_pure
    · exact keepsMemory_rmwOutside.bind fun _ => keepsMemory_ite ((keepsMemory_modify fun _ h => markWatched_canonical h).bind fun _ =>
        keepsMemory_pure) keepsMemory_pure

theorem staleReply_canonical {s : State} {c : CoreId} {loc : Loc} {sc : Scope} (h : MemoryCanonical s) :
    MemoryCanonical (staleReply s c loc sc) := by
  unfold staleReply
  split
  · exact ite_canonical h h
  · exact h

theorem keepsMemory_rmwSend {c : CoreId} {va : DWord} {loc : Loc} {sc : Scope} {prep start : M Unit} {apply : M DWord}
    (hprep : KeepsMemory prep) (hstart : KeepsMemory start) (happly : KeepsMemory apply) :
    KeepsMemory (rmwSend c va loc sc prep start apply) := by
  unfold rmwSend
  refine keepsMemory_theCore.bind fun _ => keepsMemory_ite (hprep.bind fun _ => hstart.bind fun _ => happly) ?_
  split
  · exact keepsMemory_ite (keepsMemory_remoteWith (hprep.bind fun _ => keepsMemory_pure) hstart keepsMemory_reachCore keepsMemory_pure happly)
      (keepsMemory_remoteOp hprep hstart happly)
  · exact keepsMemory_remoteOp hprep hstart happly

theorem keepsMemory_rmwOp {c : CoreId} {va : DWord} {loc : Loc} {sc : Scope} {prep start : M Unit} {apply : M DWord}
    (hprep : KeepsMemory prep) (hstart : KeepsMemory start) (happly : KeepsMemory apply) :
    KeepsMemory (rmwOp c va loc sc prep start apply) :=
  (keepsMemory_rmwSend hprep hstart happly).bind fun _ => (keepsMemory_modify fun _ h => staleReply_canonical h).bind fun _ => keepsMemory_pure

/-! ### Carriers -/

theorem markContextDie_canonical {s : State} {ctx : HWord} {b : Nat} (h : MemoryCanonical s) : MemoryCanonical (markContextDie s ctx b) := h

theorem heldL2_canonical {s : State} {line : Nat} (h : MemoryCanonical s) : MemoryCanonical (heldL2 s line).1 := expireL2_canonical h

theorem fillFor_canonical {s : State} {c : CoreId} {had : Bool} {line : Nat} (h : MemoryCanonical s) :
    MemoryCanonical (fillFor s c had line) := by
  unfold fillFor
  split
  · exact ite_canonical h h
  · exact h

theorem engineWalk_canonical {x : Copy} {va : DWord} {fuel : Nat} {s : State} {level node : Nat} (h : MemoryCanonical s) :
    MemoryCanonical (engineWalk x va fuel s level node).1 := by
  induction fuel generalizing s level node with
  | zero => exact h
  | succ fuel ih =>
    unfold engineWalk
    dsimp only
    split
    · exact h
    · have hf (pa : Nat) : MemoryCanonical (fillFor (engineRead x.who 2 (heldL2 s (lineOf pa)).1 pa 8).1 x.core (heldL2 s (lineOf pa)).2 (lineOf
        pa)) :=
        fillFor_canonical (engineRead_canonical (heldL2_canonical h))
      exact fst_ite_canonical (hf _) (fst_ite_canonical (fst_ite_canonical (hf _) (hf _)) (fst_ite_canonical (hf _) (ih (hf _))))

theorem engineLeaf_canonical {s : State} {x : Copy} {va : DWord} (h : MemoryCanonical s) : MemoryCanonical (engineLeaf s x va).1 := by
  have hw (node : Nat) : MemoryCanonical (engineWalk x va 4 s 0 node).1 := engineWalk_canonical h
  unfold engineLeaf
  split
  · exact h
  · split
    · rename_i hx
      exact of_store_canonical (fst_canonical hx (hw _)) rfl
    · exact hw _

theorem carrierFind_canonical {s : State} {c : Copy} {va : DWord} {w rmw : Bool} (h : MemoryCanonical s) :
    MemoryCanonical (carrierFind s c va w rmw).1 := by
  unfold carrierFind
  refine fst_ite_canonical (fst_ite_canonical h (fst_ite_canonical h h)) ?_
  split
  · exact fst_canonical ‹_› (engineLeaf_canonical h)
  · refine fst_ite_canonical (fst_canonical ‹_› (engineLeaf_canonical h)) (fst_ite_canonical (fst_canonical ‹_› (engineLeaf_canonical h))
      (fst_ite_canonical (fst_canonical ‹_› (engineLeaf_canonical h)) ?_))
    split
    · exact fst_canonical ‹_› (engineLeaf_canonical h)
    · exact markContextDie_canonical (fst_canonical ‹_› (engineLeaf_canonical h))

theorem carrierBlocked_canonical {s : State} {p : Walked} {write : Bool} (h : MemoryCanonical s) :
    MemoryCanonical (carrierBlocked s p write).1 := by
  unfold carrierBlocked
  split
  · exact fst_ite_canonical h (fst_ite_canonical (expireL2_canonical h) (fst_ite_canonical (expireL2_canonical h) (recallLine_canonical
      (expireL2_canonical h))))
  · exact h

theorem carrierSettle_canonical {s : State} {line : Nat} {words : Word} (h : MemoryCanonical s) :
    MemoryCanonical (carrierSettle s line words) :=
  ite_canonical (writeBackL2_canonical (foldWords_canonical (notePort_canonical (noteLate_canonical h)))) (notePort_canonical (noteLate_canonical
      h))

theorem carrierTicket_canonical {s : State} {pg : Page} (h : MemoryCanonical s) : MemoryCanonical (carrierTicket s pg) :=
  ite_canonical (modRegs_canonical h) h

theorem carrierRead_canonical {s : State} {c : Copy} {p : Walked} {n : Nat} (h : MemoryCanonical s) :
    MemoryCanonical (carrierRead s c p n).1 := by
  unfold carrierRead
  split
  · exact fst_ite_canonical (carrierTicket_canonical h) (fst_ite_canonical (carrierSettle_canonical (carrierTicket_canonical h))
      (fillFor_canonical (serveWords_canonical (ite_canonical (pinLine_canonical (heldL2_canonical (carrierTicket_canonical h)))
      (heldL2_canonical (carrierTicket_canonical h))))))
  · exact h
  · exact h
  · exact h

theorem sramWrite_canonical {s : State} {key n v marks : Nat} (h : MemoryCanonical s) : MemoryCanonical (sramWrite s key n v marks) :=
  foldl_canonical (fun _ _ h1 => ite_canonical (storePut_canonical h1) h1) h

theorem carrierWrite_canonical {s : State} {c : Copy} {p : Walked} {n v marks : Nat} (h : MemoryCanonical s) :
    MemoryCanonical (carrierWrite s c p n v marks) := by
  unfold carrierWrite
  split
  · exact ite_canonical (blockWrite_canonical (carrierTicket_canonical h)) (ite_canonical (grantZeros_canonical (storePut_canonical
      (carrierSettle_canonical (carrierTicket_canonical h)))) (ite_canonical (writeBackL2_canonical (fillFor_canonical (homePush_canonical
      (ite_canonical (pinLine_canonical (heldL2_canonical (carrierTicket_canonical h))) (heldL2_canonical (carrierTicket_canonical h))))))
      (fillFor_canonical (homePush_canonical (ite_canonical (pinLine_canonical (heldL2_canonical (carrierTicket_canonical h))) (heldL2_canonical
      (carrierTicket_canonical h)))))))
  · exact updCore_canonical (sramWrite_canonical h)
  · exact h
  · exact h

theorem blurWritten_canonical {s : State} {c : Copy} (h : MemoryCanonical s) : MemoryCanonical (blurWritten s c) :=
  foldl_canonical (fun _ _ h1 => carrierWrite_canonical (carrierFind_canonical h1)) h

theorem timeoutCopy_canonical {s : State} {c : Copy} {p : Walked} {va : DWord} (h : MemoryCanonical s) :
    MemoryCanonical (timeoutCopy s c p va) :=
  endCopy_canonical (blurWritten_canonical (report_canonical h))

theorem abortCopies_canonical {s : State} {ctx : HWord} (h : MemoryCanonical s) : MemoryCanonical (abortCopies s ctx) :=
  foldl_canonical (fun _ _ h1 => endCopy_canonical (blurWritten_canonical h1)) h

theorem faultCopy_canonical {s : State} {c : Copy} {cause : Cause} {malf : Bool} {va : DWord} (h : MemoryCanonical s) :
    MemoryCanonical (faultCopy s c cause malf va) :=
  endCopy_canonical (appendFault_canonical h)

theorem sendCopy_canonical {s : State} {c : Copy} {p q : Walked} {va : DWord} {act : State → Copy → State} (h : MemoryCanonical s)
    (hact : ∀ (t : State), MemoryCanonical t → ∀ (x : Copy), MemoryCanonical (act t x)) : MemoryCanonical (sendCopy s c p q va act) := by
  unfold sendCopy
  split
  · exact h
  · exact timeoutCopy_canonical h
  · exact ite_canonical (modCopy_canonical (hubFlit_canonical h)) (ite_canonical (hubFlit_canonical (hact _ (hubFlit_canonical h) _))
      (modCopy_canonical (hubFlit_canonical (hact _ (hubFlit_canonical h) _))))

theorem recordClaim_canonical {s : State} {c : Copy} {line : Nat} (h : MemoryCanonical s) : MemoryCanonical (recordClaim s c line) := h

theorem recordWrite_canonical {s : State} {c : Copy} {p : Walked} (h : MemoryCanonical s) : MemoryCanonical (recordWrite s c p) := by
  unfold recordWrite
  split
  · exact ite_canonical h (recordClaim_canonical h)
  · exact h

theorem claimAt_canonical {s : State} {c : Copy} {pa : Nat} {pg : Page} (h : MemoryCanonical s) : MemoryCanonical (claimAt s c pa pg) := by
  unfold claimAt
  dsimp only
  exact ite_canonical (faultCopy_canonical (report_canonical (carrierRead_canonical (syncHost_canonical (modRegs_canonical h))))) (ite_canonical
      (modCopy_canonical (recordClaim_canonical (carrierWrite_canonical (carrierRead_canonical (syncHost_canonical (modRegs_canonical h))))))
      (endCopy_canonical (recordClaim_canonical (carrierRead_canonical (syncHost_canonical (modRegs_canonical h))))))

theorem claimRows_canonical {s : State} {c : Copy} (h : MemoryCanonical s) : MemoryCanonical (claimRows s c) := by
  unfold claimRows
  refine ite_canonical (faultCopy_canonical h) (ite_canonical (faultCopy_canonical h) ?_)
  split
  · split
    · exact fst_canonical ‹_› (carrierBlocked_canonical (fst_canonical ‹_› (carrierFind_canonical h)))
    · exact sendCopy_canonical (fst_canonical ‹_› (carrierBlocked_canonical (fst_canonical ‹_› (carrierFind_canonical h)))) fun _ h1 _ =>
        claimAt_canonical h1
  · exact faultCopy_canonical (fst_canonical ‹_› (carrierFind_canonical h))
  · exact faultCopy_canonical (fst_canonical ‹_› (carrierFind_canonical h))
  · exact noteLate_canonical (fst_canonical ‹_› (carrierFind_canonical h))

theorem blurOverlap_canonical {s : State} {c : Copy} {va : DWord} {n v : Nat} (h : MemoryCanonical s) :
    MemoryCanonical (blurOverlap s c va n v).1 :=
  h

theorem hinder_canonical {s : State} {c : Copy} {va : DWord} {h : Hindrance} (hs : MemoryCanonical s) :
    MemoryCanonical (hinder s c va h) := by
  unfold hinder
  split
  · exact faultCopy_canonical hs
  · exact endCopy_canonical hs
  · exact noteLate_canonical hs

theorem moveChunk_canonical {s : State} {c : Copy} {p q : Walked} {n : Nat} {va : DWord} (h : MemoryCanonical s) :
    MemoryCanonical (moveChunk s c p q n va) := by
  unfold moveChunk
  dsimp only
  exact ite_canonical (endCopy_canonical (copyActive_canonical (modCopy_canonical (recordWrite_canonical (carrierWrite_canonical
      (blurOverlap_canonical (carrierRead_canonical h))))))) (copyActive_canonical (modCopy_canonical (recordWrite_canonical
      (carrierWrite_canonical (blurOverlap_canonical (carrierRead_canonical h))))))

theorem copyChunk_canonical {s : State} {c : Copy} (h : MemoryCanonical s) : MemoryCanonical (copyChunk s c) := by
  unfold copyChunk
  dsimp only
  split
  · exact hinder_canonical (carrierFind_canonical h)
  · split
    · exact hinder_canonical (carrierFind_canonical (carrierFind_canonical h))
    · exact ite_canonical (carrierBlocked_canonical (carrierBlocked_canonical (carrierFind_canonical (carrierFind_canonical h))))
        (sendCopy_canonical (carrierBlocked_canonical (carrierBlocked_canonical (carrierFind_canonical (carrierFind_canonical h)))) fun _ h1 _ =>
        moveChunk_canonical h1)

theorem carrierTurn_canonical {s : State} {k : Nat} (h : MemoryCanonical s) : MemoryCanonical (carrierTurn s k) := by
  unfold carrierTurn
  split
  · exact h
  · exact ite_canonical h (ite_canonical (claimRows_canonical h) (ite_canonical (endCopy_canonical h) (copyChunk_canonical h)))

theorem destLines_canonical {s : State} {c : Copy} (h : MemoryCanonical s) : MemoryCanonical (destLines s c).1 := by
  unfold destLines
  refine foldl_fst_canonical (fun p _ h1 => ?_) h
  dsimp only
  split <;> exact fst_canonical ‹_› (carrierFind_canonical h1)

theorem staleDest_canonical {s : State} {c : Copy} (h : MemoryCanonical s) : MemoryCanonical (staleDest s c) :=
  updCore_canonical (sendPushes_canonical (destLines_canonical h))

/-! ### Vector accesses -/

theorem keepsMemory_probePage {v : Vx} {acc : Access} {va : DWord} {n : Nat} : KeepsMemory (probePage v acc va n) := by
  unfold probePage
  refine keepsMemory_tryCatch (keepsMemory_translate.bind fun _ => keepsMemory_require.bind fun _ => keepsMemory_pure) fun e => ?_
  split
  · exact keepsMemory_ite keepsMemory_pure keepsMemory_throw
  · exact keepsMemory_throw

theorem keepsMemory_missingPages {v : Vx} {acc : Access} {w : Nat} {l : List Elem} : KeepsMemory (missingPages v acc w l) :=
  (keepsMemory_collect fun _ => keepsMemory_collect fun _ => keepsMemory_probePage.bind fun _ => keepsMemory_pure).bind fun _ => keepsMemory_pure

theorem keepsMemory_checkElems {v : Vx} {acc : Access} {w : Nat} {l : List Elem} : KeepsMemory (checkElems v acc w l) := by
  unfold checkElems
  dsimp only
  split
  · refine keepsMemory_raise.bind fun _ => keepsMemory_missingPages.bind fun _ => ?_
    split
    · exact keepsMemory_pure
    · exact keepsMemory_throw
  · refine keepsMemory_missingPages.bind fun _ => ?_
    split
    · exact keepsMemory_pure
    · exact keepsMemory_throw

theorem keepsMemory_readParts {c : CoreId} {l : List (DWord × Nat)} : KeepsMemory (readParts c l) := by
  induction l with
  | nil => exact keepsMemory_pure
  | cons p r ih =>
    unfold readParts
    refine keepsMemory_translate.bind fun _ => keepsMemory_readAt.bind fun _ => keepsMemory_get.bind fun _ => keepsMemory_ite ?_ ?_
    · exact keepsMemory_noteWord.bind fun _ => ih.bind fun _ => keepsMemory_pure
    · exact ih.bind fun _ => keepsMemory_pure

theorem keepsMemory_readElem {c : CoreId} {w : Nat} {a : Elem} : KeepsMemory (readElem c w a) :=
  keepsMemory_readParts.bind fun _ => keepsMemory_pure

theorem keepsMemory_finishLoad {v : Vx} {f : Fmt} {s : Opd} {l : List Elem} {lost : List Nat} (hv : VxKeeps v) :
    KeepsMemory (finishLoad v f s l lost) := by
  unfold finishLoad
  exact keepsMemory_byGroups hv fun _ => (keepsMemory_collect fun _ => keepsMemory_readElem.bind fun _ => keepsMemory_pure).bind fun _ =>
      keepsMemory_commitResult

theorem keepsMemory_checkLoad {v : Vx} {f : Fmt} {s : Opd} : KeepsMemory (checkLoad v f s) :=
  keepsMemory_formatUnless.bind fun _ => keepsMemory_ite (keepsMemory_theCore.bind fun _ => keepsMemory_checkLine) keepsMemory_pure

theorem keepsMemory_runLoad {x : Vx} {f : Fmt} {v : Opd} {addr : Nat → Elem} (hx : VxKeeps x) : KeepsMemory (runLoad x f v addr) := by
  unfold runLoad
  exact keepsMemory_checkLoad.bind fun _ => keepsMemory_vxMask.bind fun _ => keepsMemory_checkElems.bind fun _ => keepsMemory_finishLoad hx

theorem keepsMemory_layElem {c : CoreId} {w : Nat} {a : Elem} {r : Res} {t : Tab WordBits} {n : Nat} :
    KeepsMemory (layElem c w a r t n) := by
  induction n with
  | zero => exact keepsMemory_pure
  | succ n ih =>
    exact ih.bind fun _ => keepsMemory_ite (keepsMemory_translate.bind fun _ => keepsMemory_pure)
      (keepsMemory_translate.bind fun _ => keepsMemory_pure)

theorem keepsMemory_writeRun {c : CoreId} {b : WordBits} {r : Nat × Nat} : KeepsMemory (writeRun c b r) :=
  keepsMemory_translate.bind fun _ => keepsMemory_onceAt (keepsMemory_ite keepsMemory_writeAt (keepsMemory_readAt.bind fun _ =>
      keepsMemory_writeAt))

theorem keepsMemory_writeWords {c : CoreId} {t : Tab WordBits} : KeepsMemory (writeWords c t) :=
  keepsMemory_eachOf fun _ => keepsMemory_eachOf fun _ => keepsMemory_writeRun

theorem keepsMemory_writeElems {c : CoreId} {w : Nat} {t : Tab WordBits} {l : List (Elem × Res)} : KeepsMemory (writeElems c w t l) := by
  induction l generalizing t with
  | nil => exact keepsMemory_writeWords
  | cons p l ih =>
    refine keepsMemory_translate.bind fun _ => keepsMemory_ite ?_ (keepsMemory_layElem.bind fun _ => ih)
    exact (keepsMemory_onceAt keepsMemory_writeAt).bind fun _ => ih

theorem keepsMemory_storeFmt {v : Vx} {f : Fmt} {s : Opd} : KeepsMemory (storeFmt v f s) :=
  keepsMemory_theCore.bind fun _ => keepsMemory_sourceTag.bind fun _ => keepsMemory_formatUnless.bind fun _ => keepsMemory_pure

theorem keepsMemory_storedElems {v : Vx} {f : Fmt} {s : Opd} {l : List Elem} : KeepsMemory (storedElems v f s l) :=
  keepsMemory_theCore.bind fun _ => keepsMemory_pure

theorem keepsMemory_finishStore {v : Vx} {f : Fmt} {s : Opd} {l : List Elem} (hv : VxKeeps v) : KeepsMemory (finishStore v f s l) :=
  keepsMemory_ite (keepsMemory_eachOf fun _ => (keepsMemory_eachOf fun _ => keepsMemory_vxEns hv).bind fun _ => (keepsMemory_storedElems.bind fun
      _ => keepsMemory_writeElems).bind fun _ => keepsMemory_groupEnds) ((keepsMemory_vxEnsure hv).bind fun _ => (keepsMemory_storedElems.bind
      fun _ => keepsMemory_writeElems).bind fun _ => keepsMemory_countGroups)

theorem keepsMemory_runStore {v : Vx} {f : Fmt} {s : Opd} {strided : Bool} {addr : Nat → Nat → Elem} (hv : VxKeeps v) :
    KeepsMemory (runStore v f s strided addr) :=
  keepsMemory_storeFmt.bind fun _ => keepsMemory_formatUnless.bind fun _ => keepsMemory_vxMask.bind fun _ => keepsMemory_checkElems.bind fun _ =>
      keepsMemory_finishStore hv

theorem keepsMemory_indexRow {v : Vx} {ix : BitVec 6} (hv : VxKeeps v) : KeepsMemory (indexRow v ix) :=
  keepsMemory_theCore.bind fun _ => keepsMemory_formatUnless.bind fun _ => (keepsMemory_vxEns hv).bind fun _ => keepsMemory_theCore.bind fun _ =>
      keepsMemory_pure

theorem keepsMemory_runGather {x : Vx} {f : Fmt} {v : Opd} {base : DWord} {ix : BitVec 6} (hx : VxKeeps x) :
    KeepsMemory (runGather x f v base ix) := by
  unfold runGather
  refine keepsMemory_formatUnless.bind fun _ => keepsMemory_checkLoad.bind fun _ => (keepsMemory_indexRow hx).bind fun _ => ?_
  exact keepsMemory_vxMask.bind fun _ => keepsMemory_checkElems.bind fun _ => keepsMemory_finishLoad hx

theorem keepsMemory_noteLost {v : Vx} {w : Nat} {lost : List Nat} : KeepsMemory (noteLost v w lost) := keepsMemory_notePoison

theorem keepsMemory_runScatter {v : Vx} {f : Fmt} {s : Opd} {base : DWord} {ix : BitVec 6} (hv : VxKeeps v) :
    KeepsMemory (runScatter v f s base ix) :=
  keepsMemory_storeFmt.bind fun _ => keepsMemory_formatUnless.bind fun _ => (keepsMemory_indexRow hv).bind fun _ => keepsMemory_vxMask.bind fun _
      => keepsMemory_checkElems.bind fun _ => (keepsMemory_finishStore hv).bind fun _ => keepsMemory_noteLost

theorem keepsMemory_timedOutAdd {e : Stop} : KeepsMemory (timedOutAdd e) := by
  unfold timedOutAdd
  split <;> exact keepsMemory_throw

theorem keepsMemory_addElem {c : CoreId} {sc : Scope} {f : Fmt} {a : Elem} {v : Res} : KeepsMemory (addElem c sc f a v) := by
  unfold addElem
  refine keepsMemory_translate.bind fun _ => keepsMemory_theCore.bind fun _ => ?_
  dsimp only
  split
  · exact (keepsMemory_modify fun _ h => markWatched_canonical h).bind fun _ => keepsMemory_addPartial.bind fun _ => keepsMemory_pure
  · exact keepsMemory_ite ((keepsMemory_tryCatch (keepsMemory_rmwOp keepsMemory_pure keepsMemory_pure (keepsMemory_rmwAt.bind fun _ =>
      keepsMemory_get.bind fun _ => keepsMemory_ite (keepsMemory_noteWord.bind fun _ => keepsMemory_pure) keepsMemory_pure)) fun e =>
      keepsMemory_timedOutAdd).bind fun _ => keepsMemory_pure) ((keepsMemory_rmwOp keepsMemory_pure keepsMemory_pure (keepsMemory_rmwAt.bind fun
      _ => keepsMemory_get.bind fun _ => keepsMemory_ite (keepsMemory_noteWord.bind fun _ => keepsMemory_pure) keepsMemory_pure)).bind fun _ =>
      keepsMemory_pure)

theorem keepsMemory_groupsOver {v : Vx} {g : Nat} : KeepsMemory (groupsOver v g) := keepsMemory_ite keepsMemory_pure keepsMemory_modCore

theorem keepsMemory_addElems {x : Vx} {sc : Scope} {f : Fmt} {v : Opd} {l : List Elem} (hx : VxKeeps x) :
    KeepsMemory (addElems x sc f v l) := by
  induction l with
  | nil => exact keepsMemory_pure
  | cons a l ih =>
    refine keepsMemory_theCore.bind fun _ => keepsMemory_ite ih (keepsMemory_groupsOver.bind fun _ => ?_)
    refine (keepsMemory_eachOf fun _ => keepsMemory_vxEns hx).bind fun _ => keepsMemory_storedElems.bind fun _ => ?_
    refine (keepsMemory_eachOf fun _ => ?_).bind fun _ => ih
    exact keepsMemory_addElem.bind fun _ => keepsMemory_modCore.bind fun _ => keepsMemory_notePoison

theorem keepsMemory_runVaadd {v : Vx} {sc : Scope} {s : Opd} {base : DWord} {ix : BitVec 6} (hv : VxKeeps v) :
    KeepsMemory (runVaadd v sc s base ix) :=
  keepsMemory_storeFmt.bind fun _ => keepsMemory_formatUnless.bind fun _ => (keepsMemory_indexRow hv).bind fun _ => keepsMemory_vxMask.bind fun _
      => keepsMemory_checkElems.bind fun _ => (keepsMemory_addElems hv).bind fun _ => keepsMemory_notePoison.bind fun _ => keepsMemory_groupsOver

/-! ### Entries of the vector queue -/

theorem keepsMemory_runFrame {x : Vx} {i : Instr} (hx : VxKeeps x) : ∀ m, runFrame x i = some m → KeepsMemory m := by
  intro m h
  unfold runFrame at h
  split at h <;> cases h
  all_goals simp only [hx, keepsMemory_runLane, keepsMemory_runCvt, keepsMemory_runFmt, keepsMemory_runClr, keepsMemory_runSel,
      keepsMemory_runCmp,
    keepsMemory_runId, keepsMemory_runRed, keepsMemory_runRedMinx, keepsMemory_runSlide, keepsMemory_runPerm, keepsMemory_runPack,
    keepsMemory_runUnpk, keepsMemory_runDot, keepsMemory_runQnt, keepsMemory_runDq, keepsMemory_runBool, keepsMemory_runKset]

theorem keepsMemory_runVecMem {x : Vx} {i : Instr} (hx : VxKeeps x) : ∀ m, runVecMem x i = some m → KeepsMemory m := by
  intro m h
  unfold runVecMem at h
  split at h <;> cases h
  case h_3 => exact keepsMemory_formatUnless.bind fun _ => keepsMemory_runLoad hx
  all_goals simp only [hx, keepsMemory_runLoad, keepsMemory_runStore, keepsMemory_runGather, keepsMemory_runScatter, keepsMemory_runVaadd]

theorem keepsMemory_runVec {x : Vx} {i : Instr} (hx : VxKeeps x) : ∀ m, runVec x i = some m → KeepsMemory m := by
  intro m h
  unfold runVec at h
  split at h
  · cases h
    exact keepsMemory_runFrame hx _ ‹_›
  · exact keepsMemory_runVecMem hx m h

/-! ### Pinned rows -/

theorem keepsMemory_runRecipe {c : CoreId} {ens : BitVec 6 → M Unit} {p : BitVec 512} {tag : HWord} {ipc : DWord} {replay : Bool}
    (hens : ∀ r, KeepsMemory (ens r)) : KeepsMemory (runRecipe c ens p tag ipc replay) := by
  unfold runRecipe
  refine keepsMemory_theCore.bind fun _ => keepsMemory_tryCatch ?_ fun _ => keepsMemory_modCore.bind fun _ => keepsMemory_throw
  refine keepsMemory_modCore.bind fun _ => (keepsMemory_eachOf fun _ => ?_).bind fun _ => keepsMemory_modCore
  refine keepsMemory_getD (keepsMemory_runVec ?_) keepsMemory_pure
  exact VxKeeps.mk (fun r => keepsMemory_ite keepsMemory_pure (hens r)) fun _ => keepsMemory_pure

theorem keepsMemory_residentRow {c : CoreId} {ipc : DWord} {depth : Nat} {n : BitVec 6} : KeepsMemory (residentRow c ipc depth n) := by
  induction depth generalizing n with
  | zero => exact keepsMemory_fillRow
  | succ depth ih =>
    refine keepsMemory_theCore.bind fun _ => keepsMemory_ite ?_ keepsMemory_fillRow
    exact (keepsMemory_tryCatch keepsMemory_takeBlock fun _ => keepsMemory_throw).bind fun _ => keepsMemory_runRecipe fun _ => ih

theorem keepsMemory_makeResident {c : CoreId} {ipc : DWord} {n : BitVec 6} : KeepsMemory (makeResident c ipc n) := keepsMemory_residentRow

theorem keepsMemory_cutPin {c : CoreId} {ipc : DWord} {p : BitVec 6} : KeepsMemory (cutPin c ipc p) :=
  keepsMemory_makeResident.bind fun _ => keepsMemory_modCore

theorem keepsMemory_cutRow {c : CoreId} {ipc : DWord} {r : BitVec 6} : KeepsMemory (cutRow c ipc r) :=
  keepsMemory_theCore.bind fun _ => (keepsMemory_eachOf fun _ => keepsMemory_cutPin).bind fun _ => keepsMemory_theCore.bind fun _ =>
      keepsMemory_ite keepsMemory_cutPin keepsMemory_pure

theorem keepsMemory_cutEvery {c : CoreId} {ipc : DWord} : KeepsMemory (cutEvery c ipc) :=
  keepsMemory_theCore.bind fun _ => keepsMemory_eachOf fun _ => keepsMemory_cutPin

theorem keepsMemory_runPin {c : CoreId} {n : BitVec 6} {e : Entry} : KeepsMemory (runPin c n e) :=
  keepsMemory_cutRow.bind fun _ => keepsMemory_theCore.bind fun _ => keepsMemory_formatUnless.bind fun _ => (keepsMemory_runRecipe fun _ =>
      keepsMemory_makeResident).bind fun _ => keepsMemory_modCore

/-! ### Conditional streams -/

theorem appendCells_canonical {s : State} {c : CoreId} {n : BitVec 2} {l : List Res} (h : MemoryCanonical s) :
    MemoryCanonical (appendCells s c n l) := by
  induction l generalizing s with
  | nil => exact h
  | cons r l ih => exact ih (updCore_canonical (storePut_canonical h))

theorem keepsMemory_runSpush {v : Vx} {n : BitVec 2} {d : Opd} (hv : VxKeeps v) : KeepsMemory (runSpush v n d) :=
  keepsMemory_theCore.bind fun _ => keepsMemory_sourceTag.bind fun _ => keepsMemory_formatUnless.bind fun _ => keepsMemory_formatUnless.bind fun
      _ => keepsMemory_vxMask.bind fun _ => keepsMemory_require.bind fun _ => (keepsMemory_vxEnsure hv).bind fun _ => keepsMemory_theCore.bind
      fun _ => (keepsMemory_modify fun _ h => appendCells_canonical h).bind fun _ => keepsMemory_ite keepsMemory_pure keepsMemory_modCore

theorem keepsMemory_runSpop {v : Vx} {n : BitVec 2} {d : Opd} (hv : VxKeeps v) : KeepsMemory (runSpop v n d) :=
  keepsMemory_theCore.bind fun _ => keepsMemory_checkDest.bind fun _ => (keepsMemory_openDest hv).bind fun _ => keepsMemory_theCore.bind fun _ =>
      keepsMemory_get.bind fun _ => keepsMemory_modCore.bind fun _ => keepsMemory_commitResult

/-! ### Entries of the matrix queue -/

theorem keepsMemory_faultHeld {α : Type} {c : CoreId} {cause : Cause} {einfo : DWord} : KeepsMemory (faultHeld c cause einfo : M α) :=
  keepsMemory_modCore.bind fun _ => keepsMemory_raise

theorem keepsMemory_faultEnds {α : Type} {c : CoreId} {cause : Cause} {einfo : DWord} : KeepsMemory (faultEnds c cause einfo : M α) :=
  keepsMemory_modCore.bind fun _ => keepsMemory_raise

theorem keepsMemory_readWords {c : CoreId} {va : DWord} {n : Nat} {area : optParam Bool false} : KeepsMemory (readWords c va n area) :=
  keepsMemory_collect fun _ => keepsMemory_translate.bind fun _ => keepsMemory_ite ((keepsMemory_once keepsMemory_readAt).bind fun _ =>
      keepsMemory_get.bind fun _ => keepsMemory_ite (keepsMemory_noteWord.bind fun _ => keepsMemory_pure) keepsMemory_pure)
      (keepsMemory_readAt.bind fun _ => keepsMemory_get.bind fun _ => keepsMemory_ite (keepsMemory_noteWord.bind fun _ => keepsMemory_pure)
      keepsMemory_pure)

theorem keepsMemory_writeWordsAt {c : CoreId} {va : DWord} {l : List Res} {area : optParam Bool false} :
    KeepsMemory (writeWordsAt c va l area) :=
  keepsMemory_eachOf fun _ => keepsMemory_translate.bind fun _ => keepsMemory_onceAt keepsMemory_writeAt

theorem keepsMemory_readTile {c : CoreId} {va : DWord} : KeepsMemory (readTile c va) :=
  keepsMemory_readWords.bind fun _ => keepsMemory_readWords.bind fun _ => keepsMemory_pure

theorem keepsMemory_probeTile {c : CoreId} {va : DWord} : KeepsMemory (probeTile c va) :=
  keepsMemory_require.bind fun _ => keepsMemory_probeRange.bind fun _ => keepsMemory_readWords.bind fun _ => keepsMemory_formatUnless.bind fun _
      => keepsMemory_pure

theorem keepsMemory_runMld {c : CoreId} {l : BitVec 1} {va : DWord} : KeepsMemory (runMld c l va) :=
  keepsMemory_theCore.bind fun _ => keepsMemory_awaitThat.bind fun _ => keepsMemory_probeTile.bind fun _ => keepsMemory_readTile.bind fun _ =>
      keepsMemory_modCore

theorem loadComplete_canonical {s : State} {c : CoreId} {l : BitVec 1} (h : MemoryCanonical s) : MemoryCanonical (loadComplete s c l) :=
  ite_canonical h h

theorem keepsMemory_waitStarted {α : Type} {c : CoreId} {e : Entry} {lost : State → CoreId → Bool} {ends : Cause → DWord → M α}
    (hends : ∀ (x : Cause) (v : DWord), KeepsMemory (ends x v)) : KeepsMemory (waitStarted c e lost ends : M α) := by
  unfold waitStarted
  refine keepsMemory_theCore.bind fun _ => keepsMemory_get.bind fun _ => ?_
  dsimp only
  split
  · exact keepsMemory_modCore.bind fun _ => hends _ _
  · exact keepsMemory_modCore.bind fun _ => hends _ _
  · exact keepsMemory_wait

theorem keepsMemory_runMpass {c : CoreId} {e : Entry} : KeepsMemory (runMpass c e) :=
  keepsMemory_ite keepsMemory_pure (keepsMemory_theCore.bind fun _ => keepsMemory_theCore.bind fun _ => keepsMemory_ite keepsMemory_wait
      (keepsMemory_ite keepsMemory_faultEnds keepsMemory_raise))

theorem keepsMemory_runMwait {c : CoreId} {l : BitVec 1} : KeepsMemory (runMwait c l) :=
  keepsMemory_theCore.bind fun _ => keepsMemory_awaitThat

theorem keepsMemory_checkA {c : CoreId} {va : DWord} {t : Fmt} {m kb : Nat} : KeepsMemory (checkA c va t m kb) :=
  keepsMemory_require.bind fun _ => keepsMemory_require.bind fun _ => keepsMemory_theCore.bind fun _ => keepsMemory_require.bind fun _ =>
      keepsMemory_pure

theorem keepsMemory_noteA {c : CoreId} {off : Nat} {t : Fmt} {m kb k : Nat} : KeepsMemory (noteA c off t m kb k) := by
  unfold noteA
  refine keepsMemory_get.bind fun _ => ?_
  dsimp only
  split
  · exact keepsMemory_noteWord
  · exact keepsMemory_pure

theorem keepsMemory_applyBlock {c : CoreId} {h : BitVec 2} {z : MmaSize} {off : Nat} {t : Latch} {k : Nat} {fresh : Bool} :
    KeepsMemory (applyBlock c h z off t k fresh) :=
  keepsMemory_noteA.bind fun _ => keepsMemory_modify fun _ h1 => h1

theorem keepsMemory_noteHoop {c : CoreId} {h : BitVec 2} {e : Entry} {z : MmaSize} : KeepsMemory (noteHoop c h e z) :=
  keepsMemory_theCore.bind fun _ => keepsMemory_notePoison

theorem keepsMemory_tileFormat {c : CoreId} {e : Entry} {b : Bool} : KeepsMemory (tileFormat c e b) :=
  keepsMemory_ite keepsMemory_pure (keepsMemory_ite keepsMemory_faultHeld keepsMemory_raise)

theorem keepsMemory_readLatch {c : CoreId} {e : Entry} {t : Latch} {ok : M Unit} {ends : Cause → DWord → M Unit} (hok : KeepsMemory ok)
    (hends : ∀ (x : Cause) (v : DWord), KeepsMemory (ends x v)) : KeepsMemory (readLatch c e t ok ends) := by
  unfold readLatch
  split
  · exact hok
  · exact hok.bind fun _ => keepsMemory_modCore.bind fun _ => keepsMemory_wait
  · exact keepsMemory_waitStarted fun _ _ => hends _ _

theorem keepsMemory_runMmaOne {c : CoreId} {e : Entry} {h : BitVec 2} {l : BitVec 1} {z : MmaSize} {off : Nat} {fresh : Bool} :
    KeepsMemory (runMmaOne c e h l z off fresh) :=
  keepsMemory_theCore.bind fun _ => keepsMemory_get.bind fun _ => (keepsMemory_readLatch keepsMemory_tileFormat fun _ _ =>
      keepsMemory_faultEnds).bind fun _ => keepsMemory_applyBlock.bind fun _ => keepsMemory_noteHoop

theorem keepsMemory_scrambleHoop {c : CoreId} {h : BitVec 2} {z : MmaSize} : KeepsMemory (scrambleHoop c h z) := by
  unfold scrambleHoop
  refine keepsMemory_freshUse.bind fun _ => (keepsMemory_modify fun _ h1 => ?_).bind fun _ => keepsMemory_modCore
  exact h1

theorem keepsMemory_ringStops {c : CoreId} {h : BitVec 2} {z : MmaSize} {e : Entry} {cause : Cause} {einfo : DWord} :
    KeepsMemory (ringStops c h z e cause einfo) :=
  keepsMemory_scrambleHoop.bind fun _ => keepsMemory_ite keepsMemory_faultEnds keepsMemory_raise

theorem keepsMemory_runMmaRing {c : CoreId} {e : Entry} {h : BitVec 2} {l : BitVec 1} {z : MmaSize} {off : Nat} {fresh : Bool} :
    KeepsMemory (runMmaRing c e h l z off fresh) :=
  keepsMemory_theCore.bind fun _ => keepsMemory_ite keepsMemory_noteHoop (keepsMemory_theCore.bind fun _ => keepsMemory_ite keepsMemory_ringStops
      (keepsMemory_ite (keepsMemory_waitStarted fun _ _ => keepsMemory_ringStops) (keepsMemory_theCore.bind fun _ => (keepsMemory_readLatch
      (keepsMemory_ite keepsMemory_tileFormat keepsMemory_pure) fun _ _ => keepsMemory_ringStops).bind fun _ => keepsMemory_get.bind fun _ =>
      keepsMemory_ite keepsMemory_ringStops (keepsMemory_applyBlock.bind fun _ => keepsMemory_modCore.bind fun _ => keepsMemory_wait))))

theorem keepsMemory_arrUndone {c : CoreId} {h : BitVec 2} {e : Entry} : KeepsMemory (arrUndone c h e) :=
  keepsMemory_modCore.bind fun _ => keepsMemory_faultHeld

theorem keepsMemory_runMmaArr {c : CoreId} {h : BitVec 2} {l : BitVec 1} {z : MmaSize} {off : Nat} {fresh fixk : Bool} {fuel : Nat} :
    KeepsMemory (runMmaArr c h l z off fresh fixk fuel) := by
  induction fuel with
  | zero => exact keepsMemory_pure
  | succ fuel ih =>
    refine keepsMemory_theCore.bind fun k => keepsMemory_ite keepsMemory_pure ?_
    split
    · exact keepsMemory_waitStarted fun _ _ => keepsMemory_faultEnds
    · refine keepsMemory_ite keepsMemory_faultHeld (keepsMemory_get.bind fun _ => keepsMemory_ite keepsMemory_arrUndone ?_)
      exact keepsMemory_applyBlock.bind fun _ => keepsMemory_modCore.bind fun _ => ih
    · exact keepsMemory_wait

theorem keepsMemory_runMma {c : CoreId} {e : Entry} {f : MmaForm} {h : BitVec 2} {rs1 : BitVec 5} {l : BitVec 1} {rs2 : BitVec 5} :
    KeepsMemory (runMma c e f h rs1 l rs2) := by
  unfold runMma
  split
  · exact keepsMemory_formatUnless
  · refine keepsMemory_ite keepsMemory_pure (keepsMemory_ite (keepsMemory_ite keepsMemory_modCore keepsMemory_pure) (keepsMemory_checkA.bind fun
      a => ?_))
    split
    · exact keepsMemory_runMmaOne
    · exact keepsMemory_runMmaOne
    · exact keepsMemory_runMmaRing
    · exact keepsMemory_theCore.bind fun _ => keepsMemory_runMmaArr.bind fun _ => keepsMemory_noteHoop

theorem handOn_canonical {s : State} {c : CoreId} {l : BitVec 1} (h : MemoryCanonical s) : MemoryCanonical (handOn s c l) := by
  unfold handOn
  dsimp only
  split
  · exact ite_canonical h (ite_canonical h (ite_canonical h h))
  · exact h

theorem keepsMemory_runHclr {c : CoreId} {h : BitVec 2} : KeepsMemory (runHclr c h) := keepsMemory_modCore

theorem keepsMemory_runHld {c : CoreId} {h : BitVec 2} {va : DWord} : KeepsMemory (runHld c h va) :=
  keepsMemory_require.bind fun _ => keepsMemory_probeRange.bind fun _ => (keepsMemory_collect fun _ => keepsMemory_readWords).bind fun _ =>
      keepsMemory_modCore

theorem keepsMemory_runHst {c : CoreId} {h : BitVec 2} {va : DWord} : KeepsMemory (runHst c h va) :=
  keepsMemory_require.bind fun _ => keepsMemory_probeRange.bind fun _ => keepsMemory_theCore.bind fun _ => keepsMemory_eachOf fun _ =>
      keepsMemory_writeWordsAt

theorem keepsMemory_runHmov {v : Vx} {seq : Word} {peek : Bool} {d : Opd} {h : BitVec 2} {dir : HDir} {ix : BitVec 7} (hv : VxKeeps v) :
    KeepsMemory (runHmov v seq peek d h dir ix) :=
  keepsMemory_theCore.bind fun _ => keepsMemory_awaitThat.bind fun _ => keepsMemory_checkDest.bind fun _ => (keepsMemory_openDest hv).bind fun _
      => keepsMemory_theCore.bind fun _ => keepsMemory_vxMask.bind fun _ => keepsMemory_commitResult

theorem keepsMemory_runMqpop {c : CoreId} {e : Entry} {acc : Bool} {h : BitVec 2} {ix : BitVec 7} {q : BitVec 4} :
    KeepsMemory (runMqpop c e acc h ix q) := by
  unfold runMqpop
  refine keepsMemory_theCore.bind fun _ => ?_
  dsimp only
  split
  · exact keepsMemory_wait
  · exact keepsMemory_formatUnless.bind fun _ => keepsMemory_modCore.bind fun _ => keepsMemory_notePoison

theorem keepsMemory_runMqpush {c : CoreId} {h : BitVec 2} {ix : BitVec 7} {q : BitVec 4} : KeepsMemory (runMqpush c h ix q) :=
  keepsMemory_theCore.bind fun _ => keepsMemory_awaitThat.bind fun _ => keepsMemory_modCore

theorem keepsMemory_runHdrain {c : CoreId} {e : Entry} {h : BitVec 2} {rs1 rs2 : BitVec 5} : KeepsMemory (runHdrain c e h rs1 rs2) := by
  unfold runHdrain
  refine keepsMemory_formatUnless.bind fun _ => keepsMemory_require.bind fun _ => keepsMemory_theCore.bind fun _ => keepsMemory_ite
      (keepsMemory_get.bind fun _ => ?_) (keepsMemory_reachCore.bind fun _ => keepsMemory_get.bind fun _ => keepsMemory_modHub.bind fun _ =>
      keepsMemory_modCore.bind fun _ => keepsMemory_wait)
  split
  · exact keepsMemory_wait
  · split
    · exact keepsMemory_wait
    · exact keepsMemory_modHub.bind fun _ => keepsMemory_ite keepsMemory_pure (keepsMemory_modCore.bind fun _ => keepsMemory_reachCore.bind fun _
        => keepsMemory_ite ((keepsMemory_modify fun _ h1 => report_canonical h1).bind fun _ => keepsMemory_raise) keepsMemory_raise)

/-! ### Lodges -/

theorem readHolder_canonical {s : State} {a : Nat} (h : MemoryCanonical s) : MemoryCanonical (readHolder s a).1 := by
  unfold readHolder
  exact hubLoad_canonical h

theorem keepsMemory_runLopen {c : CoreId} {d : BitVec 4} {va : DWord} : KeepsMemory (runLopen c d va) := by
  unfold runLopen
  refine keepsMemory_require.bind fun _ => keepsMemory_readImage.bind fun _ => keepsMemory_theCore.bind fun _ => ?_
  refine keepsMemory_formatUnless.bind fun _ => keepsMemory_get.bind fun _ => keepsMemory_ite keepsMemory_modCore ?_
  refine keepsMemory_reachHome.bind fun _ => (keepsMemory_answer fun _ h => readHolder_canonical h).bind fun _ => ?_
  exact keepsMemory_require.bind fun _ => (keepsMemory_modify fun _ h => hubStore_canonical h).bind fun _ => keepsMemory_modCore

theorem keepsMemory_needLodge {c : CoreId} {d : BitVec 5} : KeepsMemory (needLodge c d) := by
  unfold needLodge
  refine keepsMemory_theCore.bind fun _ => ?_
  split
  · exact keepsMemory_ite keepsMemory_raise keepsMemory_pure
  · exact keepsMemory_raise

theorem keepsMemory_runLset {c : CoreId} {d : BitVec 5} {f : BitVec 3} {v : DWord} : KeepsMemory (runLset c d f v) := by
  unfold runLset
  refine keepsMemory_needLodge.bind fun _ => ?_
  split
  · exact keepsMemory_modCore
  · exact keepsMemory_formatUnless

theorem keepsMemory_runLinval {c : CoreId} {d : BitVec 5} : KeepsMemory (runLinval c d) :=
  keepsMemory_needLodge.bind fun _ => keepsMemory_modCore

theorem keepsMemory_pushArea {c : CoreId} {g : Lodge} : KeepsMemory (pushArea c g) := keepsMemory_get.bind fun _ => keepsMemory_pushAll

theorem keepsMemory_writeLodge {c : CoreId} {g : Lodge} {image : Nat} {va : DWord} : KeepsMemory (writeLodge c g image va) :=
  keepsMemory_get.bind fun _ => keepsMemory_ite keepsMemory_pure (keepsMemory_reachHome.bind fun _ => keepsMemory_modify fun _ h =>
      hubStore_canonical h)

theorem keepsMemory_runLclose {c : CoreId} {d : BitVec 5} : KeepsMemory (runLclose c d) :=
  keepsMemory_needLodge.bind fun _ => keepsMemory_pushArea.bind fun _ => keepsMemory_writeLodge.bind fun _ => keepsMemory_modCore

theorem keepsMemory_probeArea {c : CoreId} {g : Lodge} : KeepsMemory (probeArea c g) := by
  unfold probeArea
  refine keepsMemory_eachOf fun _ => keepsMemory_translate.bind fun _ => ?_
  split
  · exact keepsMemory_require
  · exact keepsMemory_raise

theorem keepsMemory_readDarnBlock {c : CoreId} {g : Lodge} {off i k : Nat} : KeepsMemory (readDarnBlock c g off i k) :=
  keepsMemory_get.bind fun _ => keepsMemory_readWords.bind fun _ => keepsMemory_readWords.bind fun _ => keepsMemory_pure

theorem keepsMemory_darnLodge {c : CoreId} {d : BitVec 4} : KeepsMemory (darnLodge c d) := by
  unfold darnLodge
  refine keepsMemory_theCore.bind fun _ => ?_
  split
  · exact keepsMemory_raise
  · exact keepsMemory_require.bind fun _ => keepsMemory_require.bind fun _ => keepsMemory_formatUnless.bind fun _ => keepsMemory_pure

theorem keepsMemory_commitDarn {c : CoreId} {e : Entry} {h : BitVec 2} {l : BitVec 1} {g : Lodge} {ver : Word} {refresh : Bool}
    {tiles : List Latch} {bs : List (List DarnBlock)} {prev : List (List Res)} :
    KeepsMemory (commitDarn c e h l g ver refresh tiles bs prev) := by
  unfold commitDarn
  refine (keepsMemory_eachOf fun _ => ?_).bind fun _ => keepsMemory_modCore.bind fun _ => ?_
  · refine keepsMemory_writeWordsAt.bind fun _ => keepsMemory_eachOf fun _ => ?_
    exact keepsMemory_writeWordsAt.bind fun _ => keepsMemory_writeWordsAt
  · dsimp only
    split
    · refine (keepsMemory_modify fun _ h1 => ?_).bind fun _ => keepsMemory_theCore.bind fun _ => keepsMemory_notePoison
      exact h1
    · exact keepsMemory_theCore.bind fun _ => keepsMemory_notePoison

theorem keepsMemory_runMdarn {c : CoreId} {e : Entry} {h : BitVec 2} {rs1 : BitVec 5} {l : BitVec 1} {d : BitVec 4} :
    KeepsMemory (runMdarn c e h rs1 l d) :=
  keepsMemory_darnLodge.bind fun _ => keepsMemory_ite keepsMemory_pure (keepsMemory_checkA.bind fun _ => keepsMemory_get.bind fun _ =>
      keepsMemory_formatUnless.bind fun _ => keepsMemory_probeArea.bind fun _ => keepsMemory_theCore.bind fun _ => keepsMemory_awaitThat.bind fun
      _ => (keepsMemory_eachOf fun _ => keepsMemory_probeTile.bind fun _ => keepsMemory_formatUnless).bind fun _ => (keepsMemory_collect fun _ =>
      keepsMemory_readTile).bind fun _ => keepsMemory_formatUnless.bind fun _ => (keepsMemory_eachOf fun _ => keepsMemory_noteA).bind fun _ =>
      (keepsMemory_collect fun _ => keepsMemory_collect fun _ => keepsMemory_readDarnBlock).bind fun _ => (keepsMemory_collect fun _ =>
      keepsMemory_readWords).bind fun _ => keepsMemory_get.bind fun _ => keepsMemory_commitDarn)

/-! ### Fetch -/

theorem keepsMemory_fetchHalf {c : CoreId} {va : DWord} : KeepsMemory (fetchHalf c va) :=
  keepsMemory_require.bind fun _ => keepsMemory_translate.bind fun _ => keepsMemory_readLoc.bind fun _ => keepsMemory_pure

theorem keepsMemory_fetchWord {c : CoreId} {va : DWord} : KeepsMemory (fetchWord c va) :=
  keepsMemory_fetchHalf.bind fun _ => keepsMemory_ite keepsMemory_pure (keepsMemory_fetchHalf.bind fun _ => keepsMemory_pure)

theorem keepsMemory_fetchInstr {c : CoreId} {va : DWord} : KeepsMemory (fetchInstr c va) := by
  unfold fetchInstr
  refine keepsMemory_fetchWord.bind fun _ => ?_
  dsimp only
  split <;> exact keepsMemory_pure

theorem keepsMemory_fetchBlock {c : CoreId} {n : Nat} {va : DWord} : KeepsMemory (fetchBlock c n va) := by
  induction n generalizing va with
  | zero => exact keepsMemory_pure
  | succ n ih => exact keepsMemory_fetchWord.bind fun _ => ih.bind fun _ => keepsMemory_pure

/-! ### VP blocks -/

theorem keepsMemory_runVpInstr {c : CoreId} {e : Entry} {vp : Nat} {pc : DWord} {i : Instr} : KeepsMemory (runVpInstr c e vp pc i) := by
  unfold runVpInstr
  refine keepsMemory_theCore.bind fun _ => keepsMemory_formatUnless.bind fun _ => ?_
  refine (keepsMemory_getD (keepsMemory_runVec ?_) keepsMemory_pure).bind fun _ => keepsMemory_modCore
  exact VxKeeps.mk (fun _ => keepsMemory_makeResident) fun _ => keepsMemory_cutRow

theorem keepsMemory_setVpPc {c : CoreId} {vp : Nat} {pc : DWord} : KeepsMemory (setVpPc c vp pc) := keepsMemory_modCore

theorem keepsMemory_stepVp {c : CoreId} {e : Entry} {pc : DWord} {i : Instr} {len vp : Nat} : KeepsMemory (stepVp c e pc i len vp) := by
  unfold stepVp
  dsimp only
  split
  · exact keepsMemory_modCore
  · exact keepsMemory_theCore.bind fun _ => keepsMemory_setVpPc
  · exact keepsMemory_require.bind fun _ => keepsMemory_modCore.bind fun _ => keepsMemory_runVpInstr.bind fun _ => keepsMemory_modCore.bind fun _
      => keepsMemory_setVpPc

theorem keepsMemory_vpFetch {c : CoreId} {v : VpState} {pc : DWord} : KeepsMemory (vpFetch c v pc) := by
  unfold vpFetch
  dsimp only
  split
  · exact keepsMemory_pure
  · refine keepsMemory_fetchInstr.bind fun _ => ?_
    split
    · exact keepsMemory_pure
    · exact keepsMemory_raise
  · exact keepsMemory_raise

theorem keepsMemory_startBlock {c : CoreId} {e : Entry} : KeepsMemory (startBlock c e) :=
  keepsMemory_ite keepsMemory_pure keepsMemory_modCore

theorem keepsMemory_runBlock {c : CoreId} {e : Entry} : KeepsMemory (runBlock c e) := by
  unfold runBlock
  refine keepsMemory_startBlock.bind fun _ => keepsMemory_theCore.bind fun _ => ?_
  split
  · split
    · split
      · exact keepsMemory_pure
      · refine keepsMemory_vpFetch.bind fun _ => (keepsMemory_eachOf fun _ => keepsMemory_stepVp).bind fun _ => keepsMemory_modCore.bind fun _ =>
          keepsMemory_ite (keepsMemory_modCore.bind fun _ => (keepsMemory_modify fun _ h => updCore_canonical (recordPoison_canonical h)).bind
          fun _ => keepsMemory_theCore.bind fun _ => ?_) ((keepsMemory_modify fun _ h => updCore_canonical (recordPoison_canonical h)).bind fun _
          => keepsMemory_theCore.bind fun _ => ?_)
        · split
          · exact keepsMemory_awaitThat
          · exact keepsMemory_pure
        · split
          · exact keepsMemory_awaitThat
          · exact keepsMemory_pure
    · exact keepsMemory_pure
  · exact keepsMemory_pure

/-! ### The vector and matrix streams -/

theorem keepsMemory_notPosting {c : CoreId} : KeepsMemory (notPosting c) := keepsMemory_theCore.bind fun _ => keepsMemory_awaitThat

theorem keepsMemory_memGate {c : CoreId} : KeepsMemory (memGate c) :=
  keepsMemory_notPosting.bind fun _ => keepsMemory_theCore.bind fun _ => keepsMemory_awaitThat

theorem keepsMemory_gateSpans {c : CoreId} {l : List Span} : KeepsMemory (gateSpans c l) :=
  keepsMemory_memGate.bind fun _ => keepsMemory_get.bind fun _ => keepsMemory_awaitThat

theorem keepsMemory_gateRead {c : CoreId} {va : DWord} {n : Nat} : KeepsMemory (gateRead c va n) := keepsMemory_gateSpans

theorem keepsMemory_gateWrite {c : CoreId} {va : DWord} {n : Nat} : KeepsMemory (gateWrite c va n) :=
  keepsMemory_memGate.bind fun _ => keepsMemory_get.bind fun _ => keepsMemory_awaitThat

theorem keepsMemory_gateAll {c : CoreId} : KeepsMemory (gateAll c) :=
  keepsMemory_memGate.bind fun _ => keepsMemory_theCore.bind fun _ => keepsMemory_awaitThat

theorem keepsMemory_gateIdle {c : CoreId} : KeepsMemory (gateIdle c) :=
  keepsMemory_notPosting.bind fun _ => keepsMemory_theCore.bind fun _ => keepsMemory_awaitThat

theorem takeTicket_canonical {s : State} {c : CoreId} {sc : Scope} (h : MemoryCanonical s) : MemoryCanonical (takeTicket s c sc) := by
  unfold takeTicket
  split
  · exact h
  · exact h
  · exact modRegs_canonical h
  · exact modRegs_canonical h
  · exact modRegs_canonical h

theorem releaseTurn_canonical {s : State} {c : CoreId} {sc : Scope} {r : Regions} {op : SyncOp} (h : MemoryCanonical s) :
    MemoryCanonical (releaseTurn s c sc r op).1 :=
  release_canonical h

theorem acquireTurn_canonical {s : State} {c : CoreId} {sc : Scope} {r : Regions} (h : MemoryCanonical s) :
    MemoryCanonical (acquireTurn s c sc r).1 :=
  acquire_canonical h

theorem syncTurn_canonical {s : State} {c : CoreId} {op : SyncOp} (h : MemoryCanonical s) : MemoryCanonical (syncTurn s c op).1 := by
  unfold syncTurn
  split
  · exact releaseTurn_canonical h
  · exact acquireTurn_canonical h
  · exact acquireTurn_canonical h
  · exact releaseTurn_canonical h
  · split
    · exact acquireTurn_canonical (fst_canonical ‹_› (releaseTurn_canonical h))
    · exact releaseTurn_canonical h
  · split
    · exact acquireTurn_canonical (takeTicket_canonical (fst_canonical ‹_› (releaseTurn_canonical h)))
    · exact releaseTurn_canonical h
  · exact h

theorem setDeferred_canonical {s : State} {c : CoreId} {l : List Deferred} (h : MemoryCanonical s) : MemoryCanonical (setDeferred s c l) :=
  h

theorem runDeferred_canonical {n : Nat} {s : State} {c : CoreId} (h : MemoryCanonical s) : MemoryCanonical (runDeferred n s c) := by
  induction n generalizing s with
  | zero => exact h
  | succ n ih =>
    unfold runDeferred
    dsimp only
    split
    · exact h
    · refine ite_canonical h (ite_canonical (foldl_canonical (fun _ _ hs => noteLate_canonical hs) h) ?_)
      split
      · exact setDeferred_canonical (fst_canonical ‹_› (syncTurn_canonical h))
      · exact ih (setDeferred_canonical (fst_canonical ‹_› (syncTurn_canonical h)))

theorem joinSync_canonical {s : State} {c : CoreId} {op : SyncOp} (h : MemoryCanonical s) : MemoryCanonical (joinSync s c op) := by
  unfold joinSync
  refine ite_canonical ?_ (runDeferred_canonical h)
  split
  · exact fst_canonical ‹_› (syncTurn_canonical h)
  · exact updCore_canonical (fst_canonical ‹_› (syncTurn_canonical h))

theorem keepsMemory_commitSync {c : CoreId} {op : SyncOp} : KeepsMemory (commitSync c op) :=
  keepsMemory_notPosting.bind fun _ => keepsMemory_theCore.bind fun _ => keepsMemory_ite (keepsMemory_get.bind fun _ =>
      keepsMemory_pushReady.bind fun _ => keepsMemory_modify fun _ h => joinSync_canonical h) (keepsMemory_modify fun _ h => joinSync_canonical
      h)

theorem keepsMemory_acquireReady {c : CoreId} {sc : Scope} {r : Regions} : KeepsMemory (acquireReady c sc r) :=
  keepsMemory_get.bind fun _ => keepsMemory_pushReady

theorem keepsMemory_acquireAfter {c : CoreId} {sc : Scope} {r : Regions} : KeepsMemory (acquireAfter c sc r) :=
  keepsMemory_modify fun _ h => joinSync_canonical h

theorem keepsMemory_vecBody {c : CoreId} {e : Entry} : KeepsMemory (vecBody c e) := by
  unfold vecBody
  refine keepsMemory_takePops.bind fun _ => ?_
  dsimp only
  split
  · exact keepsMemory_runBlock
  · exact keepsMemory_runPin
  · exact keepsMemory_modCore
  · exact keepsMemory_runHmov (VxKeeps.mk (fun _ => keepsMemory_makeResident) fun _ => keepsMemory_cutRow)
  · exact keepsMemory_runHmov (VxKeeps.mk (fun _ => keepsMemory_makeResident) fun _ => keepsMemory_cutRow)
  · exact keepsMemory_runSpush (VxKeeps.mk (fun _ => keepsMemory_makeResident) fun _ => keepsMemory_cutRow)
  · exact keepsMemory_runSpop (VxKeeps.mk (fun _ => keepsMemory_makeResident) fun _ => keepsMemory_cutRow)
  · exact keepsMemory_modCore
  · exact keepsMemory_getD (keepsMemory_runVec (VxKeeps.mk (fun _ => keepsMemory_makeResident) fun _ => keepsMemory_cutRow)) keepsMemory_pure

theorem keepsMemory_matBody {c : CoreId} {e : Entry} : KeepsMemory (matBody c e) := by
  unfold matBody
  split
  · exact keepsMemory_runMma
  · exact keepsMemory_runMma
  · exact keepsMemory_runMma
  · exact keepsMemory_runMma
  · exact keepsMemory_runMdarn
  · exact keepsMemory_runHclr
  · exact keepsMemory_runHld
  · exact keepsMemory_runHst
  · exact keepsMemory_runHdrain
  · exact keepsMemory_runMqpop
  · exact keepsMemory_runMqpop
  · exact keepsMemory_runMqpush
  · exact keepsMemory_runMld
  · exact keepsMemory_runMpass
  · exact keepsMemory_runMwait
  · exact keepsMemory_runLopen
  · exact keepsMemory_runLset
  · exact keepsMemory_runLclose
  · exact keepsMemory_runLinval
  · exact keepsMemory_pure

theorem entryEnds_canonical {s : State} {c : CoreId} {st : Stream} {e : Entry} (h : MemoryCanonical s) :
    MemoryCanonical (entryEnds s c st e) :=
  updCore_canonical (settlePoison_canonical h)

theorem endTurn_canonical {s : State} {c : CoreId} {st : Stream} {e : Entry} {drop : Core → Core} {r : EStateM.Result Stop State Unit}
    (h : MemoryCanonical s) (hr : MemoryCanonical (endState r)) : MemoryCanonical (endTurn s c st e drop r) := by
  unfold endTurn
  split
  · exact updCore_canonical (entryEnds_canonical hr)
  · exact stopAt_canonical h (updCore_canonical (entryEnds_canonical hr))
  · exact hr

theorem turnOf_canonical {s : State} {c : CoreId} {st : Stream} {e : Entry} (h : MemoryCanonical s) : MemoryCanonical (turnOf s c st e) := h

theorem runVectorHead_canonical {s : State} {c : CoreId} (h : MemoryCanonical s) : MemoryCanonical (runVectorHead s c) := by
  unfold runVectorHead
  dsimp only
  split
  · exact h
  · exact ite_canonical (endTurn_canonical h (KeepsMemory.run keepsMemory_vecBody (turnOf_canonical h))) h

theorem runMatrixHead_canonical {s : State} {c : CoreId} (h : MemoryCanonical s) : MemoryCanonical (runMatrixHead s c) := by
  unfold runMatrixHead
  dsimp only
  split
  · exact h
  · exact ite_canonical (endTurn_canonical h (KeepsMemory.run keepsMemory_matBody (turnOf_canonical h))) h

theorem eagerVector_canonical {s : State} {c : CoreId} (h : MemoryCanonical s) : MemoryCanonical (eagerVector s c) :=
  ite_canonical (runVectorHead_canonical h) h

theorem eagerMatrix_canonical {s : State} {c : CoreId} (h : MemoryCanonical s) : MemoryCanonical (eagerMatrix s c) :=
  ite_canonical (runMatrixHead_canonical h) h

theorem canonicalNext_andThen {o : Out} {f : State → State} (ho : CanonicalNext o) (hf : ∀ s, MemoryCanonical s → MemoryCanonical (f s)) :
    CanonicalNext (andThen o f) := by
  unfold andThen
  split
  · exact canonicalNext_next (hf _ (ho _ rfl))
  · exact ho

theorem canonicalNext_finishPost {s : State} {len : Nat} {eager : State → CoreId → State} {r : EStateM.Result Stop State Unit}
    (h : MemoryCanonical s) (heager : ∀ t, MemoryCanonical t → ∀ c, MemoryCanonical (eager t c)) (hr : MemoryCanonical (endState r)) :
    CanonicalNext (finishPost s len eager r) := by
  unfold finishPost
  split
  · exact canonicalNext_next (heager _ (updCore_canonical hr) _)
  · exact canonicalNext_finish h hr

theorem canonicalNext_postVector {i : Instr} {len : Nat} {entry : CoreId → M Entry} {s : State}
    (hentry : ∀ (a : CoreId), KeepsMemory (entry a)) (h : MemoryCanonical s) : CanonicalNext (postVector i len entry s) :=
  canonicalNext_ite (canonicalNext_trapNow h) (canonicalNext_finishPost h (fun _ h1 _ => eagerVector_canonical h1) (KeepsMemory.run
      (keepsMemory_notPosting.bind fun _ => (hentry _).bind fun _ => keepsMemory_theCore.bind fun _ => keepsMemory_awaitThat.bind fun _ =>
      keepsMemory_modCore) h))

theorem canonicalNext_postMatrix {i : Instr} {check : CoreId → M Unit} {s : State} (hcheck : ∀ (a : CoreId), KeepsMemory (check a))
    (h : MemoryCanonical s) : CanonicalNext (postMatrix i check s) :=
  canonicalNext_ite (canonicalNext_trapNow h) (canonicalNext_finishPost h (fun _ h1 _ => eagerMatrix_canonical h1) (KeepsMemory.run
      (keepsMemory_notPosting.bind fun _ => (hcheck _).bind fun _ => keepsMemory_theCore.bind fun _ => keepsMemory_awaitThat.bind fun _ =>
      keepsMemory_modCore) h))

theorem canonicalNext_post4 {i : Instr} {s : State} (h : MemoryCanonical s) : CanonicalNext (post4 i s) :=
  canonicalNext_postVector (fun _ => keepsMemory_theCore.bind fun _ => keepsMemory_pure) h

theorem canonicalNext_post2 {i : Instr} {s : State} (h : MemoryCanonical s) : CanonicalNext (post2 i s) :=
  canonicalNext_postVector (fun _ => keepsMemory_theCore.bind fun _ => keepsMemory_pure) h

theorem canonicalNext_postM {i : Instr} {s : State} (h : MemoryCanonical s) : CanonicalNext (postM i s) :=
  canonicalNext_postMatrix (fun _ => keepsMemory_pure) h

theorem sequencerStep_canonical {s : State} {c : CoreId} (h : MemoryCanonical s) : MemoryCanonical (sequencerStep s c) := by
  unfold sequencerStep
  dsimp only
  split
  · exact h
  · split
    · exact h
    · exact ite_canonical h (ite_canonical (ite_canonical (eagerMatrix_canonical h) h) (ite_canonical (eagerVector_canonical h) h))

/-! ### Memory instructions of the control thread -/

theorem canonicalNext_checked {i : Instr} {m : State → Out} {s : State} (hm : ∀ (a : State), MemoryCanonical a → CanonicalNext (m a))
    (h : MemoryCanonical s) : CanonicalNext (checked i m s) :=
  canonicalNext_ite (hm _ h) (canonicalNext_trapNow h)

theorem canonicalNext_load {n : Nat} {signed : Bool} {rt rs1 : BitVec 5} {imm : BitVec 12} {s : State} (h : MemoryCanonical s) :
    CanonicalNext (load n signed rt rs1 imm s) :=
  canonicalNext_controlTo (fun _ => keepsMemory_theCore.bind fun _ => keepsMemory_gateRead.bind fun _ => keepsMemory_loadScalar.bind fun _ =>
      keepsMemory_pure) h

theorem canonicalNext_store {n : Nat} {rt rs1 : BitVec 5} {imm : BitVec 12} {s : State} (h : MemoryCanonical s) :
    CanonicalNext (store n rt rs1 imm s) :=
  canonicalNext_control (fun _ => keepsMemory_theCore.bind fun _ => keepsMemory_gateWrite.bind fun _ => keepsMemory_storeScalar) h

theorem keepsMemory_beforeAtomic {c : CoreId} {so : ScopeOrder} : KeepsMemory (beforeAtomic c so) :=
  keepsMemory_ite (keepsMemory_releaseNow.bind fun _ => (keepsMemory_modify fun _ h => bumpMarks_canonical h).bind fun _ => keepsMemory_get.bind
      fun _ => keepsMemory_awaitThat.bind fun _ => keepsMemory_ite keepsMemory_acquireReady keepsMemory_pure) (keepsMemory_ite
      keepsMemory_acquireReady keepsMemory_pure)

theorem keepsMemory_ticketAtomic {c : CoreId} {so : ScopeOrder} : KeepsMemory (ticketAtomic c so) :=
  keepsMemory_ite (keepsMemory_modify fun _ h => takeTicket_canonical h) keepsMemory_pure

theorem keepsMemory_afterAtomic {c : CoreId} {so : ScopeOrder} : KeepsMemory (afterAtomic c so) :=
  keepsMemory_ite keepsMemory_acquireAfter keepsMemory_pure

theorem keepsMemory_atomicRmw {c : CoreId} {loc : Loc} {so : ScopeOrder} {n : Nat} {va : DWord} {f : Nat → Nat} :
    KeepsMemory (atomicRmw c loc so n va f) := by
  unfold atomicRmw
  refine keepsMemory_rmwAt.bind fun _ => ?_
  exact keepsMemory_ite (keepsMemory_get.bind fun _ => keepsMemory_raisePoison) keepsMemory_pure

theorem keepsMemory_atomicAt {c : CoreId} {op : AtomOp} {dw : Bool} {so : ScopeOrder} {va : DWord} {v cmp : Nat} :
    KeepsMemory (atomicAt c op dw so va v cmp) := by
  unfold atomicAt
  extract_lets n f rest
  have h (u : Unit) : KeepsMemory (rest u) := by
    refine keepsMemory_require.bind fun _ => keepsMemory_translate.bind fun _ => keepsMemory_theCore.bind fun _ => ?_
    split
    · exact keepsMemory_ite (keepsMemory_beforeAtomic.bind fun _ => keepsMemory_ticketAtomic.bind fun _ =>
        (keepsMemory_modify fun _ h => markWatched_canonical h).bind fun _ => keepsMemory_addPartial.bind fun _ => keepsMemory_pure)
        (keepsMemory_rmwOp keepsMemory_beforeAtomic keepsMemory_ticketAtomic keepsMemory_atomicRmw)
    · exact keepsMemory_rmwOp keepsMemory_beforeAtomic keepsMemory_ticketAtomic keepsMemory_atomicRmw
  exact keepsMemory_ite (keepsMemory_gateAll.bind h) (keepsMemory_gateWrite.bind h)

theorem canonicalNext_atomic {op : AtomOp} {dw : Bool} {so : ScopeOrder} {rd : BitVec 5} {rs1 off : BitVec 3} {rs2 : BitVec 5} {s : State}
    (h : MemoryCanonical s) : CanonicalNext (atomic op dw so rd rs1 off rs2 s) :=
  canonicalNext_controlTo (fun _ => keepsMemory_theCore.bind fun _ => keepsMemory_atomicAt.bind fun _ => keepsMemory_afterAtomic.bind fun _ =>
      keepsMemory_pure) h

theorem keepsMemory_roomForOwner {line : Nat} : KeepsMemory (roomForOwner line) := by
  unfold roomForOwner
  refine (keepsMemory_modify fun _ h => ite_canonical h ?_).bind fun _ => keepsMemory_get.bind fun _ => keepsMemory_awaitThat
  split
  · exact recallLine_canonical h
  · exact h

theorem ownLine_canonical {s : State} {c : CoreId} {line : Nat} {pg : Page} (h : MemoryCanonical s) :
    MemoryCanonical (ownLine s c line pg) :=
  h

theorem keepsMemory_ownHome {c : CoreId} {sc : Scope} {line : Nat} {pg : Page} {va : DWord} : KeepsMemory (ownHome c sc line pg va) :=
  keepsMemory_recallFor.bind fun _ => keepsMemory_dropHome.bind fun _ => keepsMemory_roomForOwner.bind fun _ => keepsMemory_roomFor.bind fun _ =>
      keepsMemory_ite ((keepsMemory_modify fun _ h => spillL2_canonical h).bind fun _ => keepsMemory_get.bind fun _ => keepsMemory_awaitThat.bind
      fun _ => keepsMemory_modify fun _ h => ownLine_canonical h) (keepsMemory_modify fun _ h => ownLine_canonical h)

theorem pushOwn_canonical {s : State} {c : CoreId} {line : Nat} (h : MemoryCanonical s) : MemoryCanonical (pushOwn s c line) :=
  updCore_canonical (applyL1_canonical h)

theorem disownLine_canonical {s : State} {c : CoreId} {line : Nat} (h : MemoryCanonical s) : MemoryCanonical (disownLine s c line) :=
  ite_canonical h h

theorem keepsMemory_disownHome {c : CoreId} {sc : Scope} {line : Nat} : KeepsMemory (disownHome c sc line) :=
  keepsMemory_get.bind fun _ => keepsMemory_ite (keepsMemory_recallFor.bind fun _ => keepsMemory_get.bind fun _ => keepsMemory_awaitThat.bind fun
      _ => (keepsMemory_modify fun _ h => pushOwn_canonical h).bind fun _ => keepsMemory_ite ((keepsMemory_modify fun _ h => sendL2_canonical
      h).bind fun _ => keepsMemory_get.bind fun _ => keepsMemory_awaitThat.bind fun _ => keepsMemory_modify fun _ h => disownLine_canonical h)
      (keepsMemory_modify fun _ h => disownLine_canonical h)) (keepsMemory_get.bind fun _ => keepsMemory_awaitThat.bind fun _ =>
      (keepsMemory_modify fun _ h => pushOwn_canonical h).bind fun _ => keepsMemory_ite ((keepsMemory_modify fun _ h => sendL2_canonical h).bind
      fun _ => keepsMemory_get.bind fun _ => keepsMemory_awaitThat.bind fun _ => keepsMemory_modify fun _ h => disownLine_canonical h)
      (keepsMemory_modify fun _ h => disownLine_canonical h))

theorem keepsMemory_eachLine {f : DWord → M Unit} {n : Nat} {va : DWord} (hf : ∀ va, KeepsMemory (f va)) :
    KeepsMemory (eachLine f n va) := by
  induction n generalizing va with
  | zero => exact keepsMemory_pure
  | succ n ih => exact (hf va).bind fun _ => ih

theorem keepsMemory_ownAt {c : CoreId} {sc : Scope} {own : Bool} {va : DWord} : KeepsMemory (ownAt c sc own va) := by
  unfold ownAt
  refine keepsMemory_translate.bind fun _ => ?_
  split
  · exact keepsMemory_raise
  · exact keepsMemory_get.bind fun _ => keepsMemory_ite keepsMemory_pure ((keepsMemory_remoteOp keepsMemory_pure keepsMemory_pure
      (keepsMemory_ite (keepsMemory_ownHome.bind fun _ => keepsMemory_pure) (keepsMemory_disownHome.bind fun _ => keepsMemory_pure))).bind fun _
      => keepsMemory_pure)

theorem canonicalNext_ownRange {sc : Scope} {own : Bool} {rs1 rs2 : BitVec 5} {s : State} (h : MemoryCanonical s) :
    CanonicalNext (ownRange sc own rs1 rs2 s) :=
  canonicalNext_control (fun _ => keepsMemory_memGate.bind fun _ => keepsMemory_theCore.bind fun _ => keepsMemory_eachLine fun _ =>
      keepsMemory_ownAt) h

theorem keepsMemory_prefetch {c : CoreId} {l2 : Bool} {va : DWord} : KeepsMemory (prefetch c l2 va) := by
  unfold prefetch
  refine keepsMemory_tryCatch (keepsMemory_translate.bind fun _ => ?_) fun e => keepsMemory_setRemote
  split
  · exact keepsMemory_pure
  · exact keepsMemory_ite keepsMemory_pure (keepsMemory_ite (keepsMemory_ite keepsMemory_pure (keepsMemory_readRequest keepsMemory_reachHome
      (keepsMemory_pinFor.bind fun _ => keepsMemory_modify fun _ h => fillL2_canonical (homeServe_canonical h)))) (keepsMemory_ite
      (keepsMemory_fillL1.bind fun _ => keepsMemory_pure) keepsMemory_pure))

theorem openLock_canonical {s : State} {w : Nat} (h : MemoryCanonical s) : MemoryCanonical (openLock s w) :=
  foldWords_canonical (syncHost_canonical (expireL2_canonical h))

theorem keepsMemory_lockWord {c : CoreId} {va : DWord} : KeepsMemory (lockWord c va) := by
  unfold lockWord
  refine keepsMemory_require.bind fun _ => keepsMemory_translate.bind fun _ => ?_
  split
  · exact keepsMemory_pure
  · exact keepsMemory_raise

theorem waitForQueue_canonical {s : State} {c : CoreId} {w : Nat} (h : MemoryCanonical s) : MemoryCanonical (waitForQueue s c w) :=
  ite_canonical h h

theorem leaveQueue_canonical {s : State} {c : CoreId} {w : Nat} (h : MemoryCanonical s) : MemoryCanonical (leaveQueue s c w) := h

theorem keepsMemory_requestLock {c : CoreId} {sc : Scope} {loc : Loc} {pa : Nat} {va : DWord} :
    KeepsMemory (requestLock c sc loc pa va) := by
  have hjoin (ws : List (CoreId × Byte)) : KeepsMemory (do
      modify fun s => leaveQueue s c (pa / 4)
      modHub fun h => { h with qlocks := h.qlocks.put (pa / 4) (ws ++ [(c, loc.region)]) }
      modCore c fun k => setLock k (pa / 4) true false
      return 0 : M DWord) :=
    (keepsMemory_modify fun _ h => leaveQueue_canonical h).bind fun _ => keepsMemory_modHub.bind fun _ => keepsMemory_modCore.bind fun _ =>
      keepsMemory_pure
  unfold requestLock
  refine keepsMemory_get.bind fun _ => keepsMemory_rmwAt.bind fun _ => keepsMemory_get.bind fun _ => keepsMemory_ite keepsMemory_raisePoison ?_
  refine keepsMemory_ite ?granted (keepsMemory_ite keepsMemory_raise (keepsMemory_ite ?joins ?full))
  case granted =>
    exact (keepsMemory_modify fun _ h => leaveQueue_canonical h).bind fun _ => keepsMemory_modCore.bind fun _ => keepsMemory_pure
  case joins =>
    refine keepsMemory_get.bind fun _ => keepsMemory_ite ?_ (keepsMemory_pure.bind fun _ => hjoin _)
    exact (keepsMemory_modify fun _ h => waitForQueue_canonical h).bind fun _ => keepsMemory_wait.bind fun _ => hjoin _
  case full => exact keepsMemory_get.bind fun _ => keepsMemory_modCore.bind fun _ => keepsMemory_pure

theorem resumeLock_canonical {s : State} {c : CoreId} {w : Nat} (h : MemoryCanonical s) : MemoryCanonical (resumeLock s c w) :=
  ite_canonical h (updCore_canonical (openLock_canonical h))

theorem keepsMemory_lockFails {c : CoreId} {e : Stop} : KeepsMemory (lockFails c e) := by
  unfold lockFails
  dsimp only
  split
  · exact keepsMemory_throw
  · exact keepsMemory_modCore.bind fun _ => keepsMemory_throw

theorem keepsMemory_mustHold {c : CoreId} {pa : Nat} {va : DWord} {r : Nat × Bool} : KeepsMemory (mustHold c pa va r) :=
  keepsMemory_ite keepsMemory_raisePoison keepsMemory_require

theorem keepsMemory_readLock {c : CoreId} {sc : Scope} {loc : Loc} {pa : Nat} {va : DWord} : KeepsMemory (readLock c sc loc pa va) :=
  keepsMemory_readRequest keepsMemory_locReach keepsMemory_rmwAt

theorem keepsMemory_unlockAt {c : CoreId} {sc : Scope} {loc : Loc} {pa : Nat} {va : DWord} : KeepsMemory (unlockAt c sc loc pa va) := by
  unfold unlockAt
  exact keepsMemory_rmwAt.bind fun _ => keepsMemory_mustHold.bind fun _ => keepsMemory_pure

theorem keepsMemory_txWord {c : CoreId} {va : DWord} : KeepsMemory (txWord c va) := keepsMemory_require.bind fun _ => keepsMemory_translate

theorem keepsMemory_txReads {c : CoreId} {seen : List Nat} {l : List (DWord × Loc)} : KeepsMemory (txReads c seen l) := by
  induction l generalizing seen with
  | nil => exact keepsMemory_pure
  | cons p l ih =>
    exact keepsMemory_rmwAt.bind fun _ => keepsMemory_ite keepsMemory_raisePoison (ih.bind fun _ => keepsMemory_pure)

theorem keepsMemory_txCommit {c : CoreId} {words : List (DWord × Loc)} {expected : List Word} {values : List Nat} :
    KeepsMemory (txCommit c words expected values) :=
  keepsMemory_txReads.bind fun _ => keepsMemory_ite ((keepsMemory_eachOf fun _ => keepsMemory_rmwAt.bind fun _ => keepsMemory_pure).bind fun _ =>
      keepsMemory_pure) keepsMemory_pure

theorem keepsMemory_txDecide {c : CoreId} {t : Transaction} : KeepsMemory (txDecide c t) :=
  keepsMemory_require.bind fun _ => keepsMemory_readImage.bind fun _ => keepsMemory_ite keepsMemory_pure (keepsMemory_readImage.bind fun _ =>
      (keepsMemory_eachOf fun _ => keepsMemory_txWord.bind fun _ => keepsMemory_pure).bind fun _ => (keepsMemory_eachOf fun _ =>
      keepsMemory_txWord.bind fun _ => keepsMemory_pure).bind fun _ => keepsMemory_ite keepsMemory_pure ((keepsMemory_collect fun _ =>
      keepsMemory_txWord.bind fun _ => keepsMemory_pure).bind fun _ => keepsMemory_pure))

theorem keepsMemory_txSend {c : CoreId} {desc : DWord} {q : TxRequest} : KeepsMemory (txSend c desc q) :=
  keepsMemory_remoteWith keepsMemory_pure (keepsMemory_modify fun _ h => takeTicket_canonical h) (keepsMemory_eachOf fun _ =>
      keepsMemory_locReach) keepsMemory_pure keepsMemory_txCommit

theorem keepsMemory_txEnd {c : CoreId} {t : Transaction} : KeepsMemory (txEnd c t) := by
  unfold txEnd
  refine keepsMemory_theCore.bind fun _ => ?_
  split
  · exact keepsMemory_txSend
  · refine keepsMemory_releaseNow.bind fun _ => keepsMemory_acquireReady.bind fun _ => keepsMemory_txDecide.bind fun _ => ?_
    split
    · exact keepsMemory_pure
    · exact keepsMemory_modCore.bind fun _ => keepsMemory_txSend

/-! ### Barriers -/

theorem putBarrier_canonical {s : State} {home : CoreId} {b : Byte} {v : Barrier} (h : MemoryCanonical s) :
    MemoryCanonical (putBarrier s home b v) :=
  h

theorem endWaits_canonical {s : State} {home : CoreId} {b : Byte} {cores : List CoreId} {w : BarWait} (h : MemoryCanonical s) :
    MemoryCanonical (endWaits s home b cores w) := by
  unfold endWaits
  refine foldl_canonical (fun _ _ h1 => ?_) h
  exact h1

theorem breakBarrier_canonical {s : State} {home : CoreId} {b : Byte} {lost : CoreId} (h : MemoryCanonical s) :
    MemoryCanonical (breakBarrier s home b lost) :=
  endWaits_canonical (putBarrier_canonical h)

theorem completePhase_canonical {s : State} {home : CoreId} {b : Byte} {v : Barrier} (h : MemoryCanonical s) :
    MemoryCanonical (completePhase s home b v) :=
  endWaits_canonical (putBarrier_canonical h)

theorem keepsMemory_tenantCheck {k : Core} {v : Barrier} {w : DWord} : KeepsMemory (tenantCheck k v w) := keepsMemory_require

theorem keepsMemory_reachBarrier {c home : CoreId} {v : Barrier} {w : DWord} : KeepsMemory (reachBarrier c home v w) :=
  keepsMemory_ite keepsMemory_pure keepsMemory_reachCore

theorem keepsMemory_barrierOp {c home : CoreId} {b : Byte} {w : DWord} {prep : M Unit} {apply : M DWord} (hprep : KeepsMemory prep)
    (happly : KeepsMemory apply) : KeepsMemory (barrierOp c home b w prep apply) :=
  keepsMemory_remoteWith (hprep.bind fun _ => keepsMemory_pure) keepsMemory_pure (keepsMemory_get.bind fun _ => keepsMemory_reachBarrier)
      keepsMemory_modCore happly

theorem keepsMemory_serveSet {c home : CoreId} {b : Byte} {n : Nat} {w : DWord} : KeepsMemory (serveSet c home b n w) :=
  keepsMemory_get.bind fun _ => keepsMemory_theCore.bind fun _ => keepsMemory_tenantCheck.bind fun _ => keepsMemory_ite (keepsMemory_ite
      keepsMemory_pure (keepsMemory_require.bind fun _ => (keepsMemory_modify fun _ h => putBarrier_canonical h).bind fun _ => keepsMemory_pure))
      (keepsMemory_ite ((keepsMemory_modify fun _ h => putBarrier_canonical h).bind fun _ => keepsMemory_pure) (keepsMemory_require.bind fun _ =>
      keepsMemory_pure))

theorem keepsMemory_liveEntry {k : Core} {b : Byte} {v : Barrier} : KeepsMemory (liveEntry k b v) :=
  keepsMemory_require.bind fun _ => keepsMemory_require

theorem keepsMemory_serveArrival {c home : CoreId} {b : Byte} {drop : Bool} {w : DWord} : KeepsMemory (serveArrival c home b drop w) :=
  keepsMemory_get.bind fun _ => keepsMemory_theCore.bind fun _ => keepsMemory_tenantCheck.bind fun _ => keepsMemory_liveEntry.bind fun _ =>
      keepsMemory_require.bind fun _ => keepsMemory_require.bind fun _ => keepsMemory_require.bind fun _ => keepsMemory_modify fun _ h =>
      ite_canonical (completePhase_canonical h) (putBarrier_canonical h)

theorem keepsMemory_serveWait {c home : CoreId} {b : Byte} {w : DWord} : KeepsMemory (serveWait c home b w) :=
  keepsMemory_get.bind fun _ => keepsMemory_theCore.bind fun _ => keepsMemory_tenantCheck.bind fun _ => keepsMemory_liveEntry.bind fun _ =>
      keepsMemory_ite keepsMemory_pure ((keepsMemory_modify fun _ h => updCore_canonical (ite_canonical h (putBarrier_canonical h))).bind fun _
      => keepsMemory_pure)

theorem keepsMemory_atHome {α : Type} {c : CoreId} {rs1 : BitVec 5} {m : CoreId → DWord → M α}
    (hm : ∀ (d : CoreId) (v : DWord), KeepsMemory (m d v)) : KeepsMemory (atHome c rs1 m : M α) := by
  unfold atHome
  refine keepsMemory_theCore.bind fun _ => ?_
  dsimp only
  split
  · exact keepsMemory_raise
  · exact hm _ _

theorem keepsMemory_arrive {c : CoreId} : KeepsMemory (arrive c) := keepsMemory_releaseNow

theorem keepsMemory_endWait {c : CoreId} : KeepsMemory (endWait c) :=
  keepsMemory_acquireReady.bind fun _ => keepsMemory_modCore.bind fun _ => keepsMemory_acquireAfter

theorem keepsMemory_settleWait {c : CoreId} : KeepsMemory (settleWait c) := by
  unfold settleWait
  refine keepsMemory_theCore.bind fun _ => ?_
  split
  · exact keepsMemory_endWait
  · exact keepsMemory_modCore.bind fun _ => keepsMemory_raise
  · exact keepsMemory_wait

theorem keepsMemory_waitAt {c home : CoreId} {b : Byte} {w : DWord} {arrival : Bool} : KeepsMemory (waitAt c home b w arrival) :=
  keepsMemory_theCore.bind fun _ => keepsMemory_ite keepsMemory_settleWait (keepsMemory_ite (keepsMemory_gateAll.bind fun _ =>
      (keepsMemory_barrierOp (keepsMemory_ite keepsMemory_arrive keepsMemory_pure) (keepsMemory_ite (keepsMemory_serveArrival.bind fun _ =>
      keepsMemory_serveWait) keepsMemory_serveWait)).bind fun _ => keepsMemory_modCore.bind fun _ => keepsMemory_settleWait)
      ((keepsMemory_barrierOp (keepsMemory_ite keepsMemory_arrive keepsMemory_pure) (keepsMemory_ite (keepsMemory_serveArrival.bind fun _ =>
      keepsMemory_serveWait) keepsMemory_serveWait)).bind fun _ => keepsMemory_modCore.bind fun _ => keepsMemory_settleWait))

/-! ### Books and routes -/

theorem keepsMemory_bookEntry {c : CoreId} {e : BitVec 5} : KeepsMemory (bookEntry c e) := by
  unfold bookEntry
  refine keepsMemory_theCore.bind fun _ => ?_
  split
  · exact keepsMemory_pure
  · exact keepsMemory_get.bind fun _ => keepsMemory_ite (keepsMemory_pure.bind fun _ => keepsMemory_modCore.bind fun _ => keepsMemory_pure)
      (keepsMemory_reachHome.bind fun _ => (keepsMemory_answer fun _ h => hubLoad_canonical h).bind fun _ => keepsMemory_pure.bind fun _ =>
      keepsMemory_modCore.bind fun _ => keepsMemory_pure)

theorem keepsMemory_writeBook {c : CoreId} {e : BitVec 5} {v : BitVec 512} : KeepsMemory (writeBook c e v) :=
  keepsMemory_get.bind fun _ => keepsMemory_theCore.bind fun _ => keepsMemory_ite keepsMemory_modCore (keepsMemory_reachHome.bind fun _ =>
      (keepsMemory_modify fun _ h => hubStore_canonical h).bind fun _ => keepsMemory_modCore)

theorem keepsMemory_pinEntry {c : CoreId} {n : BitVec 6} {e : BitVec 5} : KeepsMemory (pinEntry c n e) :=
  keepsMemory_bookEntry.bind fun _ => keepsMemory_formatUnless.bind fun _ => keepsMemory_theCore.bind fun _ => keepsMemory_pure

theorem removeRoute_canonical {s : State} {c : CoreId} {key : RouteKey} (h : MemoryCanonical s) : MemoryCanonical (removeRoute s c key) :=
  dropUnbound_canonical h

theorem keepsMemory_reachNode {c : CoreId} {n : Node} {va : DWord} : KeepsMemory (reachNode c n va) := by
  unfold reachNode
  split
  · exact keepsMemory_reachCore
  · exact keepsMemory_pure

theorem keepsMemory_clearNode {n : Node} {gid : BitVec 12} : KeepsMemory (clearNode n gid) := by
  unfold clearNode
  refine keepsMemory_get.bind fun _ => ?_
  split
  · exact keepsMemory_pure
  · exact keepsMemory_ite ((keepsMemory_modify fun _ h => startAbort_canonical h).bind fun _ => keepsMemory_wait) ((keepsMemory_modify fun _ h =>
      setTrees_canonical h).bind fun _ => keepsMemory_pure)

/-! ### The concierge and the hub's work -/

theorem signalOf_canonical {s : State} {b : BitVec 1024} (h : MemoryCanonical s) : MemoryCanonical (signalOf s b) := by
  unfold signalOf
  split
  · exact signalEvent_canonical h
  · exact h

theorem acceptLaunch_canonical {s : State} {pa : DWord} {b : BitVec 1024} (h : MemoryCanonical s) : MemoryCanonical (acceptLaunch s pa b) :=
  putStatus_canonical (hubStore_canonical h)

theorem refuseLaunch_canonical {s : State} {pa : DWord} {b : BitVec 1024} {code : Nat} (h : MemoryCanonical s) :
    MemoryCanonical (refuseLaunch s pa b code) :=
  signalOf_canonical (hubStore_canonical (putStatus_canonical h))

theorem takeBlockImage_canonical {s : State} {pa : DWord} (h : MemoryCanonical s) : MemoryCanonical (takeBlockImage s pa) := by
  have h1 : MemoryCanonical (if isForeign (lineOf pa.toNat) then evictL2 s (lineOf pa.toNat) else s) :=
    ite_canonical (evictL2_canonical h) h
  have h2 := hubLoad_canonical (pa := pa.toNat) (n := 128) (notePort_canonical (line := lineOf pa.toNat) h1)
  unfold takeBlockImage
  refine ite_canonical (report_canonical h2) ?_
  dsimp only
  split
  · exact refuseLaunch_canonical h2
  · exact acceptLaunch_canonical h2

theorem readBlock_canonical {s : State} (h : MemoryCanonical s) : MemoryCanonical (readBlock s) := by
  unfold readBlock
  split
  · exact h
  · refine ite_canonical (report_canonical h) (ite_canonical (noteLate_canonical h) ?_)
    split
    · exact h
    · exact report_canonical h
    · exact ite_canonical (takeBlockImage_canonical (hubFlit_canonical h)) (hubFlit_canonical h)

theorem placeLaunch_canonical {s : State} (h : MemoryCanonical s) : MemoryCanonical (placeLaunch s) := by
  unfold placeLaunch
  dsimp only
  split
  · exact h
  · refine putStatus_canonical (withHub_canonical (modLaunch_canonical ?_))
    exact withHub_canonical h

theorem priorityPreempt_canonical {s : State} (h : MemoryCanonical s) : MemoryCanonical (priorityPreempt s) := by
  unfold priorityPreempt
  dsimp only
  split
  · exact h
  · exact preemptLaunch_canonical h

theorem postClaim_canonical {s : State} {lid : Word} {p : Nat} (h : MemoryCanonical s) : MemoryCanonical (postClaim s lid p) := by
  unfold postClaim
  split
  · exact h
  · refine ite_canonical h (modLaunch_canonical (foldl_canonical (fun _ _ h1 => ?_) h))
    exact h1

theorem flushPool_canonical {s : State} {c : CoreId} (h : MemoryCanonical s) : MemoryCanonical (flushPool s c) :=
  updCore_canonical (foldl_canonical (fun _ _ h1 => pushL1_canonical h1) h)

theorem giveUpHomes_canonical {s : State} {c : CoreId} (h : MemoryCanonical s) : MemoryCanonical (giveUpHomes s c) :=
  foldl_canonical (fun _ _ h1 => pushHome_canonical h1) h

theorem closeLodges_canonical {s : State} {c : CoreId} (h : MemoryCanonical s) : MemoryCanonical (closeLodges s c) :=
  updCore_canonical (foldl_canonical (fun _ _ h1 => writeRecordOf_canonical h1) h)

theorem tenantChange_canonical {s : State} {c : CoreId} (h : MemoryCanonical s) : MemoryCanonical (tenantChange s c) :=
  updCore_canonical (foldl_canonical (fun _ _ h1 => removeRoute_canonical h1) (zeroScratch_canonical (flushPool_canonical (closeLodges_canonical
      (giveUpHomes_canonical h)))))

theorem poolChange_canonical {s : State} {c : CoreId} (h : MemoryCanonical s) : MemoryCanonical (poolChange s c) :=
  zeroScratch_canonical (flushPool_canonical (giveUpHomes_canonical h))

theorem sendStarts_canonical {s : State} {l : List (CoreId × TaskRegs)} (h : MemoryCanonical s) : MemoryCanonical (sendStarts s l) :=
  foldl_canonical (fun _ _ h1 => sendPushes_canonical h1) h

theorem startTask_canonical {s : State} {c : CoreId} {st : Start} (h : MemoryCanonical s) : MemoryCanonical (startTask s c st) := by
  have ht : MemoryCanonical (if tenantMoves (getCore s c) st.tregs then tenantChange s c else s) := ite_canonical (tenantChange_canonical h) h
  refine markDie_canonical (withHub_canonical (updCore_canonical (acquire_canonical ?_)))
  exact ite_canonical (poolChange_canonical ht) ht

theorem startCores_canonical {l : Launch} {x : Context} {p n : Nat} {cs : List (Nat × CoreId)} {s : State} (h : MemoryCanonical s) :
    MemoryCanonical (startCores l x p n cs s) := by
  induction cs generalizing s with
  | nil => exact h
  | cons a r ih => exact ih (startTask_canonical (updCore_canonical h))

theorem gangStart_canonical {s : State} {lid : Word} {p : Nat} (h : MemoryCanonical s) : MemoryCanonical (gangStart s lid p) := by
  unfold gangStart
  split
  · exact h
  · split
    · exact ite_canonical h (ite_canonical (sendStarts_canonical h) (startCores_canonical (ite_canonical (modLaunch_canonical
        (sendStarts_canonical h)) (hubStore_canonical (modLaunch_canonical (sendStarts_canonical h))))))
    · exact h

theorem handlerStart_canonical {s : State} {c : CoreId} (h : MemoryCanonical s) : MemoryCanonical (handlerStart s c) := by
  unfold handlerStart
  refine ite_canonical h ?_
  split
  · split
    · exact h
    · split
      · exact h
      · exact ite_canonical (sendStarts_canonical h) (startTask_canonical (updCore_canonical (sendStarts_canonical h)))
  · exact h

theorem markPassage_canonical {s : State} {ctx : HWord} {a b : CoreId} (h : MemoryCanonical s) :
    MemoryCanonical (markPassage s ctx a b) := by
  unfold markPassage
  refine foldl_canonical (fun _ _ h1 => ?_) h
  split <;> exact h1

theorem clearActivity_canonical {s : State} {l : Launch} (h : MemoryCanonical s) : MemoryCanonical (clearActivity s l) := by
  unfold clearActivity
  refine foldl_canonical (fun _ _ h1 => ?_) h
  exact h1

theorem completeLaunch_canonical {s : State} {l : Launch} (h : MemoryCanonical s) : MemoryCanonical (completeLaunch s l) :=
  signalOf_canonical (endLaunch_canonical h)

theorem idleSample_canonical {s : State} {lid : Word} (h : MemoryCanonical s) : MemoryCanonical (idleSample s lid) := by
  unfold idleSample
  split
  · exact h
  · refine ite_canonical h ?_
    dsimp only
    split
    · exact ite_canonical h (ite_canonical (completeLaunch_canonical (clearActivity_canonical h)) (modLaunch_canonical (clearActivity_canonical
        h)))
    · exact modLaunch_canonical (clearActivity_canonical h)

/-! ### Launch events -/

theorem canonicalNext_event {ok : Bool} {f : State → State} {s : State} (hf : ∀ (a : State), MemoryCanonical a → MemoryCanonical (f a))
    (h : MemoryCanonical s) : CanonicalNext (event ok f s) :=
  canonicalNext_ite canonicalNext_fault (canonicalNext_next (ite_canonical (hf _ h) h))

theorem hostCommand_canonical {op : BitVec 4} {arg : DWord} {s : State} (h : MemoryCanonical s) : MemoryCanonical (hostCommand op arg s) :=
  startCommand_canonical (putArg_canonical h)

/-! ### Cache events -/

theorem keepsMemory_evictRow {c : CoreId} {n : BitVec 6} : KeepsMemory (evictRow c n) := by
  unfold evictRow
  refine keepsMemory_theCore.bind fun _ => keepsMemory_ite keepsMemory_modCore ?_
  split
  · exact keepsMemory_pure
  · exact keepsMemory_pure
  · exact keepsMemory_writeBackRow.bind fun _ => keepsMemory_modCore
  · exact keepsMemory_writeBackRow.bind fun _ => keepsMemory_modCore

theorem keepsMemory_evictScales {c : CoreId} {q : Nat} : KeepsMemory (evictScales c q) := by
  unfold evictScales
  refine keepsMemory_theCore.bind fun _ => ?_
  split
  · exact keepsMemory_pure
  · exact keepsMemory_pure
  · exact keepsMemory_writeBackScales.bind fun _ => keepsMemory_modCore
  · exact keepsMemory_writeBackScales.bind fun _ => keepsMemory_modCore

theorem evictItem_canonical {s : State} {c : CoreId} {item : BitVec 7} (h : MemoryCanonical s) : MemoryCanonical (evictItem s c item) := by
  have hr (n : Nat) : MemoryCanonical
      (endState (if n < 64 then evictRow c (item.setWidth 6) s else if n < 68 then evictScales c (n - 64) s else .ok () s)) := by
    split
    · exact keepsMemory_evictRow.run h
    · split
      · exact keepsMemory_evictScales.run h
      · exact h
  unfold evictItem
  dsimp only
  split
  · exact ok_canonical ‹_› (hr _)
  · exact h
  · exact h

theorem moveBumps_canonical {s : State} {c : CoreId} {g : Nat} (h : MemoryCanonical s) : MemoryCanonical (moveBumps s c g) :=
  foldl_canonical (fun _ _ h1 => movePush_canonical h1) h

theorem evictSlice_canonical {s : State} {line : Nat} (h : MemoryCanonical s) : MemoryCanonical (evictSlice s line) := by
  unfold evictSlice
  split
  · exact ite_canonical h (spillL2_canonical h)
  · exact h

theorem expireRecords_canonical {s : State} (h : MemoryCanonical s) : MemoryCanonical (expireRecords s) := h

/-! ### Collective instructions -/

theorem keepsMemory_readDescriptor {c : CoreId} {va : DWord} : KeepsMemory (readDescriptor c va) :=
  keepsMemory_require.bind fun _ => keepsMemory_readImage

theorem keepsMemory_checkRange {k : Core} {off : BitVec 42} {n : Nat} : KeepsMemory (checkRange k off n) := keepsMemory_require

theorem keepsMemory_cstoreEntry {c : CoreId} {sc : Scope} {va : DWord} {v : Nat} {wave : DWord} :
    KeepsMemory (cstoreEntry c sc va v wave) := by
  unfold cstoreEntry
  refine keepsMemory_theCore.bind fun _ => keepsMemory_get.bind fun _ => ?_
  split
  · exact keepsMemory_raise
  · exact keepsMemory_require.bind fun _ => keepsMemory_require.bind fun _ => keepsMemory_formatUnless.bind fun _ => keepsMemory_require.bind fun
      _ => keepsMemory_pure

theorem keepsMemory_waitSlot {c : CoreId} {va : DWord} {e i : Nat} {s : CollSlot} : KeepsMemory (waitSlot c va e i s) :=
  keepsMemory_ite (keepsMemory_modCore.bind fun _ => keepsMemory_raise) (keepsMemory_awaitThat.bind fun _ => keepsMemory_ite (keepsMemory_ite
      (keepsMemory_modCore.bind fun _ => keepsMemory_ite keepsMemory_pure (keepsMemory_acquireAfter.bind fun _ => keepsMemory_pure))
      (keepsMemory_ite keepsMemory_pure (keepsMemory_acquireAfter.bind fun _ => keepsMemory_pure))) (keepsMemory_acquireReady.bind fun _ =>
      keepsMemory_ite (keepsMemory_modCore.bind fun _ => keepsMemory_ite keepsMemory_pure (keepsMemory_acquireAfter.bind fun _ =>
      keepsMemory_pure)) (keepsMemory_ite keepsMemory_pure (keepsMemory_acquireAfter.bind fun _ => keepsMemory_pure))))

/-! ### Queue events -/

theorem receivePacket_canonical {s : State} {p : Packet} (h : MemoryCanonical s) : MemoryCanonical (receivePacket s p) := by
  unfold receivePacket
  refine ite_canonical (markPassage_canonical h) (ite_canonical (updCore_canonical (markPassage_canonical h)) ?_)
  split
  · exact pktDisc_canonical (markPassage_canonical h)
  · exact updCore_canonical (markPassage_canonical h)

theorem endPacket_canonical {s : State} {k : Nat} {p : Packet} (h : MemoryCanonical s) : MemoryCanonical (endPacket s k p) :=
  ite_canonical h h

theorem keepPacket_canonical {s : State} {k : Nat} (h : MemoryCanonical s) : MemoryCanonical (keepPacket s k) := h

theorem loseOutPacket_canonical {s : State} {k : Nat} {p : Packet} (h : MemoryCanonical s) : MemoryCanonical (loseOutPacket s k p) :=
  report_canonical (endPacket_canonical h)

theorem arrivePacket_canonical {s : State} {k : Nat} (h : MemoryCanonical s) : MemoryCanonical (arrivePacket s k) := by
  unfold arrivePacket
  split
  · exact h
  · split
    · exact h
    · exact loseOutPacket_canonical h
    · exact ite_canonical h (ite_canonical (keepPacket_canonical (hubFlit_canonical h)) (ite_canonical (endPacket_canonical
        (receivePacket_canonical (hubFlit_canonical (hubFlit_canonical h)))) (receivePacket_canonical (keepPacket_canonical (hubFlit_canonical
        (hubFlit_canonical h))))))

theorem writeHoop_canonical {s : State} {c : CoreId} {off : Nat} {h : Hoop} (hs : MemoryCanonical s) :
    MemoryCanonical (writeHoop s c off h) :=
  foldl_canonical (fun _ _ h1 => foldl_canonical (fun _ _ h2 => storePut_canonical h2) h1) hs

theorem replyDrain_canonical {s : State} {src : CoreId} {r : DrainReply} (h : MemoryCanonical s) : MemoryCanonical (replyDrain s src r) := h

theorem receiveDrain_canonical {s : State} {d : DrainMsg} (h : MemoryCanonical s) : MemoryCanonical (receiveDrain s d).1 := by
  unfold receiveDrain
  refine fst_ite_canonical (markPassage_canonical h) (fst_ite_canonical (updCore_canonical (markPassage_canonical h)) (fst_ite_canonical
      (updCore_canonical (markPassage_canonical h)) ?_))
  split
  · exact pktDisc_canonical (markPassage_canonical h)
  · exact updCore_canonical (ite_canonical (markPassage_canonical h) (writeHoop_canonical (markPassage_canonical h)))

theorem blurDrain_canonical {s : State} {d : DrainMsg} (h : MemoryCanonical s) : MemoryCanonical (blurDrain s d) := by
  have hl (l : List Nat) : MemoryCanonical (l.foldl (fun s' i =>
      storePut s' (sramKey d.dst (d.off.toNat + 4 * i)) 4 (Config.freeWord (s.free + i)).toNat false) s) :=
    foldl_canonical (fun _ _ hs => storePut_canonical hs) h
  unfold blurDrain
  exact ite_canonical h (withFree_canonical (hl _))

theorem keepDrain_canonical {s : State} {src : CoreId} (h : MemoryCanonical s) : MemoryCanonical (keepDrain s src) := h

theorem drainTurn_canonical {s : State} {d : DrainMsg} (h : MemoryCanonical s) : MemoryCanonical (drainTurn s d) := by
  unfold drainTurn
  split
  · exact h
  · exact replyDrain_canonical (blurDrain_canonical h)
  · exact ite_canonical h (ite_canonical (keepDrain_canonical (hubFlit_canonical h)) (ite_canonical (replyDrain_canonical (receiveDrain_canonical
      (hubFlit_canonical (hubFlit_canonical h)))) (keepDrain_canonical (receiveDrain_canonical (hubFlit_canonical (hubFlit_canonical h))))))

theorem travelAbort_canonical {s : State} {c : CoreId} {e : Nat} (h : MemoryCanonical s) : MemoryCanonical (travelAbort s c e) := by
  unfold travelAbort
  split
  · exact travelGroup_canonical h
  · exact h

/-! ### Posting to the matrix queue -/

theorem keepsMemory_needPlot {i : Instr} {c : CoreId} : KeepsMemory (needPlot i c) := keepsMemory_theCore.bind fun _ => keepsMemory_require

/-! ### Queue instructions -/

theorem keepsMemory_headValue {c : CoreId} {n : Nat} : KeepsMemory (headValue c n) := by
  unfold headValue
  refine keepsMemory_theCore.bind fun _ => keepsMemory_ite ?_ ?_
  · split
    · exact keepsMemory_pure
    · exact keepsMemory_wait
  · split
    · exact keepsMemory_ite keepsMemory_raisePoison keepsMemory_pure
    · exact keepsMemory_wait

theorem keepsMemory_sendRow {c : CoreId} {d : Opd} : KeepsMemory (sendRow c d) := by
  unfold sendRow
  refine keepsMemory_theCore.bind fun _ => keepsMemory_sourceTag.bind fun _ => keepsMemory_formatUnless.bind fun _ => (keepsMemory_eachOf fun _
      => keepsMemory_makeResident).bind fun _ => keepsMemory_theCore.bind fun _ => ?_
  split <;> exact keepsMemory_pure

theorem keepsMemory_readRepeatWord {c : CoreId} {va : DWord} : KeepsMemory (readRepeatWord c va) :=
  keepsMemory_readImage.bind fun _ => keepsMemory_ite keepsMemory_pure (keepsMemory_readImage.bind fun _ => keepsMemory_pure)

theorem keepsMemory_readRepeat {c : CoreId} {base : DWord} {flags n j : Nat} {va : DWord} :
    KeepsMemory (readRepeat c base flags n j va) := by
  induction n generalizing j va with
  | zero => exact keepsMemory_pure
  | succ n ih =>
    refine keepsMemory_readRepeatWord.bind fun _ => keepsMemory_theCore.bind fun _ => ?_
    split
    · exact keepsMemory_raise
    · exact ih.bind fun _ => keepsMemory_pure

theorem keepsMemory_sourceRegions {c : CoreId} {src : DWord} {len : Nat} : KeepsMemory (sourceRegions c src len) := by
  unfold sourceRegions
  refine (keepsMemory_collect fun _ => keepsMemory_ite keepsMemory_pure (keepsMemory_tryCatch (keepsMemory_findLeaf.bind fun _ =>
      keepsMemory_pure) fun e => ?_)).bind fun _ => keepsMemory_pure
  split
  · exact keepsMemory_ite keepsMemory_pure keepsMemory_throw
  · exact keepsMemory_throw

theorem keepsMemory_slotReady {c : CoreId} : KeepsMemory (slotReady c) :=
  keepsMemory_get.bind fun _ => keepsMemory_require.bind fun _ => keepsMemory_awaitThat

theorem popCompletion_canonical {s : State} {c : CoreId} {r : DWord} (h : MemoryCanonical s) : MemoryCanonical (popCompletion s c r) :=
  foldl_canonical (fun _ _ h1 => staleDest_canonical h1) h

theorem keepsMemory_blockAddr {c : CoreId} {va : DWord} : KeepsMemory (blockAddr c va) := by
  unfold blockAddr
  refine keepsMemory_require.bind fun _ => keepsMemory_translate.bind fun _ => ?_
  split
  · exact keepsMemory_require.bind fun _ => keepsMemory_pure
  · exact keepsMemory_require.bind fun _ => keepsMemory_translate.bind fun _ => keepsMemory_pure

/-! ### The turn of a core -/

theorem takeAsync_canonical {s : State} {c : CoreId} {t : TrapInfo} {st : Stream} {rest : Pending} (h : MemoryCanonical s) :
    MemoryCanonical (takeAsync s c t st rest) :=
  stopAt_canonical h h

theorem noteWait_canonical {before : State} {c : CoreId} {i : Instr} {s : State} (_ : MemoryCanonical before) (hs : MemoryCanonical s) :
    MemoryCanonical (noteWait before c i s) :=
  ite_canonical hs hs

theorem beginAgain_canonical {s : State} {c : CoreId} (h : MemoryCanonical s) : MemoryCanonical (beginAgain s c) := ite_canonical h h

theorem canonicalNext_fetchAndRun {run : Instr → State → Out} {s : State} {c : CoreId}
    (hrun : ∀ (i : Instr) (t : State), MemoryCanonical t → CanonicalNext (run i t)) (h : MemoryCanonical s) :
    CanonicalNext (fetchAndRun run s c) := by
  unfold fetchAndRun
  dsimp only
  split
  · exact canonicalNext_andThen (hrun _ _ (ok_canonical ‹_› (KeepsMemory.run keepsMemory_fetchInstr (beginAgain_canonical h)))) fun _ h1 =>
      noteWait_canonical (ok_canonical ‹_› (KeepsMemory.run keepsMemory_fetchInstr (beginAgain_canonical h))) h1
  · exact canonicalNext_trapNow (ok_canonical ‹_› (KeepsMemory.run keepsMemory_fetchInstr (beginAgain_canonical h)))
  · exact canonicalNext_next (stopAt_canonical h (error_canonical ‹_› (KeepsMemory.run keepsMemory_fetchInstr (beginAgain_canonical h))))
  · exact canonicalNext_next (error_canonical ‹_› (KeepsMemory.run keepsMemory_fetchInstr (beginAgain_canonical h)))
  · exact canonicalNext_fault
  · exact canonicalNext_refused

theorem canonicalNext_controlSlot {run : Instr → State → Out} {s : State} {c : CoreId}
    (hrun : ∀ (i : Instr) (t : State), MemoryCanonical t → CanonicalNext (run i t)) (h : MemoryCanonical s) :
    CanonicalNext (controlSlot run s c) := by
  unfold controlSlot
  dsimp only
  split
  · exact canonicalNext_next (takeAsync_canonical h)
  · exact canonicalNext_ite (canonicalNext_next h) (canonicalNext_fetchAndRun (fun _ _ h1 => hrun _ _ h1) h)

theorem elapse_canonical {s : State} {c : CoreId} (h : MemoryCanonical s) : MemoryCanonical (elapse s c) := ite_canonical h h

theorem streamWork_canonical {s : State} {c : CoreId} (h : MemoryCanonical s) : MemoryCanonical (streamWork s c) :=
  ite_canonical (ite_canonical h (runVectorHead_canonical h)) (runMatrixHead_canonical (ite_canonical h (runVectorHead_canonical h)))

theorem backgroundWork_canonical {s : State} {c : CoreId} (h : MemoryCanonical s) : MemoryCanonical (backgroundWork s c) :=
  ite_canonical h (finishTask_canonical (pumpSends_canonical (runDeferred_canonical (sequencerStep_canonical (streamWork_canonical h)))))

/-! ### Fault events -/

theorem takePending_canonical {s : State} {c : CoreId} {machine : Bool} (h : MemoryCanonical s) :
    MemoryCanonical (takePending s c machine) := by
  unfold takePending
  refine ite_canonical h ?_
  split
  · exact takeAsync_canonical h
  · exact h

theorem loseTask_canonical {s : State} {c : CoreId} (h : MemoryCanonical s) : MemoryCanonical (loseTask s c) := by
  unfold loseTask
  dsimp only
  split
  · exact launchTaskEnded_canonical (updCore_canonical (abandonWaits_canonical (orphanWork_canonical h)))
  · exact updCore_canonical (abandonWaits_canonical (orphanWork_canonical h))

theorem breakGang_canonical {s : State} {c : CoreId} {lost : Core} (h : MemoryCanonical s) : MemoryCanonical (breakGang s c lost) := by
  unfold breakGang
  refine foldl_canonical (fun _ _ h1 => ?_) h
  exact h1

theorem withdrawPlots_canonical {s : State} {c : CoreId} (h : MemoryCanonical s) : MemoryCanonical (withdrawPlots s c) := by
  unfold withdrawPlots
  refine foldl_canonical (fun _ _ h1 => ?_) h
  refine foldl_canonical (fun _ _ h2 => ?_) h1
  exact ite_canonical (modLaunch_canonical h2) h2

theorem loseCore_canonical {s : State} {c : CoreId} (h : MemoryCanonical s) : MemoryCanonical (loseCore s c) :=
  withdrawPlots_canonical (loseTask_canonical (abortCoreGroups_canonical (breakGang_canonical (foldl_canonical (fun _ _ h1 =>
      breakBarrier_canonical h1) h))))

theorem clearCluster_canonical {s : State} {c : CoreId} (h : MemoryCanonical s) : MemoryCanonical (clearCluster s c) := modRegs_canonical h

theorem forgetCopies_canonical {s : State} {c : CoreId} (h : MemoryCanonical s) : MemoryCanonical (forgetCopies s c) := h

theorem fencedPush_canonical {s : State} {c : CoreId} {p : Push} (h : MemoryCanonical s) : MemoryCanonical (fencedPush s c p) := by
  unfold fencedPush
  extract_lets s1
  have h1 : MemoryCanonical s1 := by
    dsimp only [s1]
    split
    · exact recallNow_canonical h
    · exact h
  split
  · exact performNow_canonical h1
  · exact performNow_canonical (noteLate_canonical h1)
  · exact h1

theorem writeBackPoisoned_canonical {s : State} {c : CoreId} (h : MemoryCanonical s) : MemoryCanonical (writeBackPoisoned s c) :=
  forgetCopies_canonical (foldl_canonical (fun _ _ h1 => fencedPush_canonical h1) h)

theorem fenceCore_canonical {s : State} {c : CoreId} (h : MemoryCanonical s) : MemoryCanonical (fenceCore s c) :=
  ite_canonical h (clearCluster_canonical (loseCore_canonical (report_canonical (writeBackPoisoned_canonical h))))

theorem raiseDieLost_canonical {s : State} {d : Nat} (h : MemoryCanonical s) : MemoryCanonical (raiseDieLost s d) := h

theorem loseDie_canonical {s : State} {d : Nat} (h : MemoryCanonical s) : MemoryCanonical (loseDie s d) :=
  ite_canonical h (raiseDieLost_canonical (ite_canonical (foldl_canonical (fun _ _ h1 => loseCore_canonical (forgetCopies_canonical h1))
      (modRegs_canonical (report_canonical h))) (modRegs_canonical (report_canonical h))))

theorem lineError_canonical {s : State} {site : LineSite} {block : BitVec 47} (h : MemoryCanonical s) :
    MemoryCanonical (lineError s site block) := by
  unfold lineError
  dsimp only
  split
  · split <;> exact h
  · exact h
  · exact h
  · exact h

theorem hbmError_canonical {s : State} {block : BitVec 47} (h : MemoryCanonical s) : MemoryCanonical (hbmError s block) := ite_canonical h h

theorem arrayError_canonical {s : State} {e : ErrSite} (h : MemoryCanonical s) : MemoryCanonical (arrayError s e) := by
  unfold arrayError
  split
  · exact hbmError_canonical h
  · exact lineError_canonical h
  · exact h
  · exact h
  · exact h
  · exact h
  · exact fenceCore_canonical h
  · exact h
  · exact h

theorem countCorrected_canonical {s : State} {e : CorrectedSite} (h : MemoryCanonical s) : MemoryCanonical (countCorrected s e) :=
  ite_canonical (report_canonical (modRegs_canonical h)) (modRegs_canonical h)

theorem coreReset_canonical {s : State} {c : CoreId} (h : MemoryCanonical s) : MemoryCanonical (coreReset s c) := by
  unfold coreReset
  extract_lets s1
  have hs1 : MemoryCanonical s1 := forgetCopies_canonical (zeroScratch_canonical (withdrawPlots_canonical (loseTask_canonical h)))
  exact foldl_canonical (fun _ _ h1 => pktDisc_canonical h1) hs1

/-! ### Host events -/

theorem bumpWatched_canonical {s : State} {g : Byte} (h : MemoryCanonical s) : MemoryCanonical (bumpWatched s g) := by
  unfold bumpWatched
  split
  · exact ite_canonical (bumpRegion_canonical h) h
  · exact h

theorem outsideWrite_canonical {s : State} {line off n v : Nat} (h : MemoryCanonical s) : MemoryCanonical (outsideWrite s line off n v) :=
  bumpWatched_canonical (homePush_canonical h)

theorem outsideAtomic_canonical {s : State} {op : AtomOp} {dw : Bool} {pa : Nat} {v expect : DWord} (h : MemoryCanonical s) :
    MemoryCanonical (outsideAtomic s op dw pa v expect) :=
  ite_canonical (serveWords_canonical (syncHost_canonical h)) (bumpWatched_canonical (grantZeros_canonical (writeL2_canonical
      (serveWords_canonical (syncHost_canonical h)))))

theorem giveOutside_canonical {s : State} {d : BitVec 1024} {p : BitVec 32} (h : MemoryCanonical s) : MemoryCanonical (giveOutside s d p) :=
  h

theorem outsideReadLine_canonical {s : State} {host : Bool} {line : Nat} {words : Word} (h : MemoryCanonical s) :
    MemoryCanonical (outsideReadLine s host line words) := by
  unfold outsideReadLine
  split
  · exact giveOutside_canonical h
  · exact giveOutside_canonical (serveWords_canonical h)

theorem roomForHost_canonical {s : State} (h : MemoryCanonical s) : MemoryCanonical (roomForHost s) := by
  unfold roomForHost
  refine ite_canonical h ?_
  split
  · exact syncHost_canonical h
  · exact h

theorem hostHold_canonical {s : State} {line : Nat} {byte : Option (BitVec 7 × Byte)} (h : MemoryCanonical s) :
    MemoryCanonical (hostHold s line byte) := by
  unfold hostHold
  dsimp only
  split
  · exact h
  · exact homeServe_canonical (roomForHost_canonical h)

theorem holdAccess_canonical {s : State} {host : Bool} {acc : OutsideAccess} (h : MemoryCanonical s) :
    MemoryCanonical (holdAccess s host acc) :=
  h

theorem atHbm_canonical {s : State} {host : Bool} {acc : OutsideAccess} {t : DWord} {n : Nat} {f : State → Nat → State}
    (h : MemoryCanonical s) (hf : ∀ (t : State), MemoryCanonical t → ∀ (n : Nat), MemoryCanonical (f t n)) :
    MemoryCanonical (atHbm s host acc t n f) := by
  unfold atHbm
  split
  · exact h
  · dsimp only
    split
    · exact noteLate_canonical (holdAccess_canonical h)
    · exact ite_canonical (holdAccess_canonical (ite_canonical (foldl_canonical (fun _ _ h1 => ite_canonical (recallLine_canonical h1) h1) h) h))
        (hf _ (ite_canonical (foldl_canonical (fun _ _ h1 => ite_canonical (recallLine_canonical h1) h1) h) h) _)

theorem eachPiece_canonical {s : State} {pa n : Nat} {f : State → Nat × Nat × Nat × Nat → State} (h : MemoryCanonical s)
    (hf : ∀ (t : State), MemoryCanonical t → ∀ (p : Nat × Nat × Nat × Nat), MemoryCanonical (f t p)) :
    MemoryCanonical (eachPiece s pa n f) :=
  foldl_canonical (fun _ _ h1 => ite_canonical (hf _ h1 _) h1) h

theorem outsideAccess_canonical {s : State} {host : Bool} {acc : OutsideAccess} (h : MemoryCanonical s) :
    MemoryCanonical (outsideAccess s host acc) := by
  unfold outsideAccess
  split
  · exact atHbm_canonical h fun _ h1 _ => eachPiece_canonical h1 fun _ h2 _ => outsideReadLine_canonical h2
  · exact atHbm_canonical h fun _ h1 _ => eachPiece_canonical h1 fun _ h2 _ => outsideWrite_canonical h2
  · exact atHbm_canonical h fun _ h1 _ => eachPiece_canonical h1 fun _ h2 _ => outsideAtomic_canonical h2
  · exact atHbm_canonical h fun _ h1 _ => eachPiece_canonical h1 fun _ h2 _ => ite_canonical (hostHold_canonical h2) (outsideReadLine_canonical
      h2)
  · exact storePut_canonical (foldl_canonical (fun _ _ h1 => expireL2_canonical h1) h)
  · exact ite_canonical h (fabricRows_canonical h)
  · exact ite_canonical h (fabricAbort_canonical h)

theorem performHeld_canonical {s : State} (h : MemoryCanonical s) : MemoryCanonical (performHeld s) :=
  ite_canonical h (foldl_canonical (fun _ _ h1 => outsideAccess_canonical h1) h)

theorem abortKilled_canonical {s : State} (h : MemoryCanonical s) : MemoryCanonical (abortKilled s) := by
  unfold abortKilled
  split
  · split
    · exact abortCopies_canonical h
    · exact h
  · exact h

theorem hubWork_canonical {s : State} (h : MemoryCanonical s) : MemoryCanonical (hubWork s) :=
  ite_canonical h (refillFifo_canonical (drainNotices_canonical (drainErrors_canonical (moveSteps_canonical (moveSpills_canonical
      (movePushes_canonical (performHeld_canonical (serveJob_canonical (abortKilled_canonical h)))))))))

theorem receiveImage_canonical {s : State} {img : FwImage} (h : MemoryCanonical s) : MemoryCanonical (receiveImage s img) := by
  unfold receiveImage
  split
  · exact report_canonical h
  · exact modRegs_canonical h

theorem resetPackage_canonical {s : State} (h : MemoryCanonical s) : MemoryCanonical (resetPackage s) := resetKeeping_canonical h

theorem hubReady_canonical {s : State} (h : MemoryCanonical s) : MemoryCanonical (hubReady s) := modRegs_canonical h

theorem powerUp_canonical {s : State} (h : MemoryCanonical s) : MemoryCanonical (powerUp s) :=
  ite_canonical (hubReady_canonical h) (hubReady_canonical (resetKeeping_canonical h))

theorem functionReady_canonical {s : State} {f : ReadyBit} (h : MemoryCanonical s) : MemoryCanonical (functionReady s f) := by
  unfold functionReady
  refine ite_canonical h ?_
  extract_lets s1
  have hs1 : MemoryCanonical s1 := modRegs_canonical h
  split <;> exact hs1

/-! ### Scalar instructions -/

theorem canonicalNext_alu {rd : BitVec 5} {f : Core → DWord} {s : State} (h : MemoryCanonical s) : CanonicalNext (alu rd f s) :=
  canonicalNext_next (writeScalar_canonical h)

theorem canonicalNext_alu2 {rd rs1 rs2 : BitVec 5} {f : DWord → DWord → DWord} {s : State} (h : MemoryCanonical s) :
    CanonicalNext (alu2 rd rs1 rs2 f s) :=
  canonicalNext_alu h

theorem canonicalNext_branch {rs1 rs2 : BitVec 5} {off : BitVec 12} {cond : DWord → DWord → Bool} {s : State} (h : MemoryCanonical s) :
    CanonicalNext (branch rs1 rs2 off cond s) :=
  canonicalNext_next h

theorem canonicalNext_fp2 {f : FpFmt} {rd rs1 rs2 : BitVec 5} {op : Rnd → Val → Val → Val × Bool} {s : State} (h : MemoryCanonical s) :
    CanonicalNext (fp2 f rd rs1 rs2 op s) :=
  canonicalNext_alu h

/-! ### System instructions -/

theorem keepsMemory_waitFor {c : CoreId} {r : Spr} : KeepsMemory (waitFor c r) := keepsMemory_ite keepsMemory_gateIdle keepsMemory_pure

theorem keepsMemory_needAccess {i : Instr} {ok : Bool} : KeepsMemory (needAccess i ok) := keepsMemory_require

theorem keepsMemory_beforeWrite {c : CoreId} {r : Spr} : KeepsMemory (beforeWrite c r) := by
  unfold beforeWrite
  split
  · exact keepsMemory_theCore.bind fun _ => keepsMemory_cutEvery.bind fun _ => keepsMemory_writeBackAll.bind fun _ => keepsMemory_modCore
  · exact keepsMemory_get.bind fun _ => (keepsMemory_eachOf fun _ => keepsMemory_reachHome).bind fun _ => keepsMemory_modify fun _ h =>
      writeBackLodges_canonical h
  · exact keepsMemory_pure

theorem lowerL2_canonical {s : State} {c : CoreId} {v : Word} (h : MemoryCanonical s) : MemoryCanonical (lowerL2 s c v) := h

theorem afterWrite_canonical {s : State} {c : CoreId} {r : Spr} {v : DWord} (h : MemoryCanonical s) :
    MemoryCanonical (afterWrite s c r v) := by
  unfold afterWrite
  split
  · exact lowerL2_canonical h
  · exact h

theorem canonicalNext_softTrap {i : Instr} {cause : Cause} {code : BitVec 10} {s : State} (h : MemoryCanonical s) :
    CanonicalNext (softTrap i cause code s) :=
  canonicalNext_ite (canonicalNext_trapNow h) (canonicalNext_next (stopAt_canonical h h))

theorem canonicalNext_readMask {rd : BitVec 5} {ka : BitVec 3} {f : DWord → DWord} {s : State} (h : MemoryCanonical s) :
    CanonicalNext (readMask rd ka f s) :=
  canonicalNext_controlTo (fun _ => keepsMemory_notPosting.bind fun _ => keepsMemory_theCore.bind fun _ => keepsMemory_awaitThat.bind fun _ =>
      keepsMemory_pure) h

/-! ### Posting of blocks -/

theorem keepsMemory_blockEntry {c : CoreId} {i : Instr} {n : BitVec 5} {off : BitVec 15} : KeepsMemory (blockEntry c i n off) := by
  unfold blockEntry
  exact keepsMemory_theCore.bind fun _ => keepsMemory_awaitThat.bind fun _ => keepsMemory_fetchBlock.bind fun _ => keepsMemory_pure

/-! ### The meanings of the instructions -/

theorem canonicalNext_execSget {rd : BitVec 5} {sel : Spr} {s : State} (h : MemoryCanonical s) : CanonicalNext (execSget rd sel s) :=
  canonicalNext_controlTo (fun _ => keepsMemory_theCore.bind fun _ => keepsMemory_needAccess.bind fun _ => keepsMemory_waitFor.bind fun _ =>
      keepsMemory_get.bind fun _ => keepsMemory_pure) h

theorem canonicalNext_execSset {sel : Spr} {rs1 : BitVec 5} {s : State} (h : MemoryCanonical s) : CanonicalNext (execSset sel rs1 s) :=
  canonicalNext_control (fun _ => keepsMemory_theCore.bind fun _ => keepsMemory_needAccess.bind fun _ => keepsMemory_waitFor.bind fun _ =>
      keepsMemory_beforeWrite.bind fun _ => keepsMemory_modCore.bind fun _ => keepsMemory_modify fun _ h1 => afterWrite_canonical h1) h

theorem canonicalNext_execTdone {s : State} (h : MemoryCanonical s) : CanonicalNext (execTdone s) := by
  unfold execTdone
  dsimp only
  split
  · exact canonicalNext_next h
  · exact canonicalNext_next (ite_canonical (discardTask_canonical (sentAll_canonical h)) (sentAll_canonical h))
  · exact canonicalNext_trapNow h

theorem canonicalNext_execDrain {kind : DrainKind} {s : State} (h : MemoryCanonical s) : CanonicalNext (execDrain kind s) :=
  canonicalNext_control (fun _ => keepsMemory_memGate.bind fun _ => keepsMemory_get.bind fun _ => keepsMemory_awaitThat.bind fun _ =>
      keepsMemory_get.bind fun _ => keepsMemory_pushAll.bind fun _ => (keepsMemory_modify fun _ h1 => foldl_canonical (fun _ _ h2 =>
      staleDest_canonical h2) h1).bind fun _ => keepsMemory_modHub) h

theorem canonicalNext_execPref {l2 : Bool} {rs1 : BitVec 5} {s : State} (h : MemoryCanonical s) : CanonicalNext (execPref l2 rs1 s) :=
  canonicalNext_control (fun _ => keepsMemory_memGate.bind fun _ => keepsMemory_theCore.bind fun _ => keepsMemory_prefetch) h

theorem canonicalNext_execQlock {sc : Scope} {rs1 : BitVec 5} {s : State} (h : MemoryCanonical s) : CanonicalNext (execQlock sc rs1 s) :=
  canonicalNext_checked (fun _ h1 => canonicalNext_control (fun _ => keepsMemory_theCore.bind fun _ => keepsMemory_gateWrite.bind fun _ =>
      keepsMemory_lockWord.bind fun _ => keepsMemory_theCore.bind fun _ => (keepsMemory_modify fun _ h2 => ite_canonical h2 (resumeLock_canonical
      h2)).bind fun _ => keepsMemory_theCore.bind fun _ => keepsMemory_ite (keepsMemory_theCore.bind fun _ => keepsMemory_get.bind fun _ =>
      keepsMemory_awaitThat.bind fun _ => (keepsMemory_tryCatch (keepsMemory_remoteOp keepsMemory_pure keepsMemory_pure keepsMemory_requestLock)
      fun _ => keepsMemory_lockFails).bind fun _ => keepsMemory_theCore.bind fun _ => keepsMemory_awaitThat.bind fun _ =>
      keepsMemory_acquireReady.bind fun _ => keepsMemory_modCore.bind fun _ => keepsMemory_acquireAfter) (keepsMemory_theCore.bind fun _ =>
      keepsMemory_awaitThat.bind fun _ => keepsMemory_acquireReady.bind fun _ => keepsMemory_modCore.bind fun _ => keepsMemory_acquireAfter)) h1)
      h

theorem canonicalNext_execQunlock {sc : Scope} {rs1 : BitVec 5} {s : State} (h : MemoryCanonical s) :
    CanonicalNext (execQunlock sc rs1 s) :=
  canonicalNext_checked (fun _ h1 => canonicalNext_control (fun _ => keepsMemory_gateAll.bind fun _ => keepsMemory_theCore.bind fun _ =>
      keepsMemory_lockWord.bind fun _ => keepsMemory_theCore.bind fun _ => keepsMemory_ite ((keepsMemory_remoteOp keepsMemory_pure
      keepsMemory_pure keepsMemory_unlockAt).bind fun _ => keepsMemory_modify fun _ h2 => staleReply_canonical h2) (keepsMemory_readLock.bind fun
      _ => keepsMemory_mustHold.bind fun _ => keepsMemory_releaseNow.bind fun _ => (keepsMemory_remoteOp keepsMemory_pure keepsMemory_pure
      keepsMemory_unlockAt).bind fun _ => keepsMemory_modify fun _ h2 => staleReply_canonical h2)) h1) h

theorem canonicalNext_execXend {rd : BitVec 5} {s : State} (h : MemoryCanonical s) : CanonicalNext (execXend rd s) :=
  canonicalNext_controlTo (fun _ => keepsMemory_theCore.bind fun _ => keepsMemory_ite (keepsMemory_notPosting.bind fun _ => keepsMemory_pure)
      (keepsMemory_gateAll.bind fun _ => keepsMemory_txEnd.bind fun _ => keepsMemory_acquireAfter.bind fun _ => keepsMemory_modCore.bind fun _ =>
      keepsMemory_pure)) h

theorem canonicalNext_execQpeekPop {rd : BitVec 5} {q : BitVec 4} {s : State} (h : MemoryCanonical s) :
    CanonicalNext (execQpeekPop rd q s) :=
  canonicalNext_checked (fun _ h1 => canonicalNext_controlTo (fun _ => keepsMemory_headValue.bind fun _ => keepsMemory_modCore.bind fun _ =>
      keepsMemory_pure) h1) h

theorem canonicalNext_execSend {rs1 rs2 : BitVec 5} {s : State} (h : MemoryCanonical s) : CanonicalNext (execSend rs1 rs2 s) := by
  unfold execSend
  refine canonicalNext_control (fun _ => keepsMemory_notPosting.bind fun _ => keepsMemory_theCore.bind fun _ => ?_) h
  dsimp only
  split
  · exact keepsMemory_awaitThat.bind fun _ => keepsMemory_modCore
  · exact keepsMemory_require.bind fun _ => keepsMemory_placeSend

theorem canonicalNext_execSendv {rs1 : BitVec 5} {v : Place} {s : State} (h : MemoryCanonical s) : CanonicalNext (execSendv rs1 v s) := by
  unfold execSendv
  refine canonicalNext_control (fun _ => keepsMemory_notPosting.bind fun _ => keepsMemory_theCore.bind fun _ => keepsMemory_require.bind fun _ =>
      keepsMemory_awaitThat.bind fun _ => keepsMemory_ite (keepsMemory_sendRow.bind fun _ => ?_) (keepsMemory_gateSpans.bind fun _ =>
      keepsMemory_sendRow.bind fun _ => ?_)) h
  · split
    · exact keepsMemory_awaitThat.bind fun _ => keepsMemory_modCore
    · exact keepsMemory_placeSend
  · split
    · exact keepsMemory_awaitThat.bind fun _ => keepsMemory_modCore
    · exact keepsMemory_placeSend

theorem canonicalNext_execLbuf {rs1 rs2 : BitVec 5} {s : State} (h : MemoryCanonical s) : CanonicalNext (execLbuf rs1 rs2 s) :=
  canonicalNext_control (fun _ => keepsMemory_memGate.bind fun _ => keepsMemory_theCore.bind fun _ => keepsMemory_require.bind fun _ =>
      keepsMemory_require.bind fun _ => keepsMemory_gateRead.bind fun _ => keepsMemory_readImage.bind fun _ => keepsMemory_readRepeat.bind fun _
      => keepsMemory_modCore) h

theorem canonicalNext_execLcfg {lv : BitVec 3} {rs1 rs2 : BitVec 5} {s : State} (h : MemoryCanonical s) :
    CanonicalNext (execLcfg lv rs1 rs2 s) :=
  canonicalNext_checked (fun _ h1 => canonicalNext_control (fun _ => keepsMemory_notPosting.bind fun _ => keepsMemory_modCore) h1) h

theorem canonicalNext_execLrun {s : State} (h : MemoryCanonical s) : CanonicalNext (execLrun s) :=
  canonicalNext_control (fun _ => keepsMemory_notPosting.bind fun _ => keepsMemory_theCore.bind fun _ => keepsMemory_require.bind fun _ =>
      keepsMemory_modCore) h

theorem canonicalNext_execCpost {sc : Scope} {rd rs1 : BitVec 5} {s : State} (h : MemoryCanonical s) :
    CanonicalNext (execCpost sc rd rs1 s) := by
  unfold execCpost
  refine canonicalNext_checked (fun _ h1 => ?_) h
  refine canonicalNext_controlTo (fun _ => ?_) h1
  refine keepsMemory_theCore.bind fun _ => keepsMemory_gateRead.bind fun _ => keepsMemory_require.bind fun _ => keepsMemory_readImage.bind fun _
      => keepsMemory_formatUnless.bind fun _ => keepsMemory_gateAll.bind fun _ => keepsMemory_slotReady.bind fun _ =>
      keepsMemory_sourceRegions.bind fun _ => keepsMemory_releaseNow.bind fun _ => (keepsMemory_modify fun _ h2 => ?_).bind fun _ =>
      keepsMemory_get.bind fun _ => keepsMemory_awaitThat.bind fun _ => keepsMemory_theCore.bind fun _ => keepsMemory_get.bind fun _ =>
      keepsMemory_get.bind fun _ => (keepsMemory_modify fun _ h2 => ?_).bind fun _ => keepsMemory_modCore.bind fun _ => keepsMemory_modHub.bind
      fun _ => keepsMemory_pure
  · exact bumpMarks_canonical h2
  · exact h2

theorem canonicalNext_execCpop {rd : BitVec 5} {s : State} (h : MemoryCanonical s) : CanonicalNext (execCpop rd s) := by
  unfold execCpop
  refine canonicalNext_controlTo (fun _ => keepsMemory_theCore.bind fun _ => ?_) h
  split
  · exact keepsMemory_get.bind fun _ => keepsMemory_pushAll.bind fun _ => keepsMemory_modCore.bind fun _ => (keepsMemory_modify fun _ h1 =>
      popCompletion_canonical h1).bind fun _ => keepsMemory_pure
  · exact keepsMemory_get.bind fun _ => keepsMemory_awaitThat.bind fun _ => keepsMemory_pure

theorem canonicalNext_execLaunch {rd rs1 : BitVec 5} {s : State} (h : MemoryCanonical s) : CanonicalNext (execLaunch rd rs1 s) :=
  canonicalNext_controlTo (fun _ => keepsMemory_gateAll.bind fun _ => keepsMemory_releaseNow.bind fun _ => keepsMemory_theCore.bind fun _ =>
      keepsMemory_blockAddr.bind fun _ => keepsMemory_readImage.bind fun _ => keepsMemory_get.bind fun _ => keepsMemory_require.bind fun _ =>
      keepsMemory_get.bind fun _ => keepsMemory_awaitThat.bind fun _ => (keepsMemory_modify fun _ h1 => pushFifo_canonical h1).bind fun _ =>
      keepsMemory_get.bind fun _ => keepsMemory_pure) h

theorem canonicalNext_execCstore {sc : Scope} {rs1 rs2 : BitVec 5} {s : State} (h : MemoryCanonical s) :
    CanonicalNext (execCstore sc rs1 rs2 s) :=
  canonicalNext_ite (canonicalNext_trapNow h) (canonicalNext_control (fun _ => keepsMemory_gateAll.bind fun _ => keepsMemory_releaseNow.bind fun
      _ => keepsMemory_theCore.bind fun _ => keepsMemory_readDescriptor.bind fun _ => keepsMemory_cstoreEntry.bind fun _ =>
      keepsMemory_theCore.bind fun _ => keepsMemory_checkRange.bind fun _ => keepsMemory_checkRange.bind fun _ => keepsMemory_require.bind fun _
      => keepsMemory_awaitThat.bind fun _ => keepsMemory_get.bind fun _ => (keepsMemory_modify fun _ h1 => modTree_canonical h1).bind fun _ =>
      keepsMemory_modCore.bind fun _ => keepsMemory_get.bind fun _ => keepsMemory_modHub) h)

theorem canonicalNext_execCwait {rd rs1 : BitVec 5} {s : State} (h : MemoryCanonical s) : CanonicalNext (execCwait rd rs1 s) := by
  unfold execCwait
  refine canonicalNext_controlTo (fun _ => keepsMemory_theCore.bind fun _ => keepsMemory_require.bind fun _ => keepsMemory_formatUnless.bind fun
      _ => ?_) h
  dsimp only
  split
  · exact keepsMemory_pure
  · exact keepsMemory_waitSlot

theorem canonicalNext_execCabort {rs1 : BitVec 5} {s : State} (h : MemoryCanonical s) : CanonicalNext (execCabort rs1 s) := by
  unfold execCabort
  refine canonicalNext_control (fun _ => keepsMemory_theCore.bind fun _ => keepsMemory_gateRead.bind fun _ => keepsMemory_readDescriptor.bind fun
      _ => keepsMemory_get.bind fun _ => ?_) h
  split
  · exact keepsMemory_raise
  · exact keepsMemory_require.bind fun _ => keepsMemory_modify fun _ h1 => startAbort_canonical h1

theorem canonicalNext_execPdef {e rs1 : BitVec 5} {s : State} (h : MemoryCanonical s) : CanonicalNext (execPdef e rs1 s) := by
  unfold execPdef
  refine canonicalNext_control (fun _ => keepsMemory_theCore.bind fun _ => keepsMemory_gateRead.bind fun _ => keepsMemory_require.bind fun _ =>
      keepsMemory_readImage.bind fun _ => ?_) h
  dsimp only
  split
  · exact keepsMemory_raise
  · split
    · exact keepsMemory_raise
    · exact keepsMemory_writeBook

theorem canonicalNext_execPdrop {e : BitVec 5} {s : State} (h : MemoryCanonical s) : CanonicalNext (execPdrop e s) :=
  canonicalNext_control (fun _ => keepsMemory_memGate.bind fun _ => keepsMemory_bookEntry.bind fun _ => keepsMemory_get.bind fun _ =>
      keepsMemory_theCore.bind fun _ => keepsMemory_ite keepsMemory_modCore (keepsMemory_reachHome.bind fun _ => (keepsMemory_answer fun _ h1 =>
      hubLoad_canonical h1).bind fun _ => (keepsMemory_modify fun _ h1 => hubStore_canonical h1).bind fun _ => keepsMemory_modCore)) h

theorem canonicalNext_execLstat {rd d : BitVec 5} {s : State} (h : MemoryCanonical s) : CanonicalNext (execLstat rd d s) :=
  canonicalNext_controlTo (fun _ => keepsMemory_notPosting.bind fun _ => keepsMemory_theCore.bind fun _ => keepsMemory_awaitThat.bind fun _ =>
      keepsMemory_pure) h

theorem canonicalNext_execBind {rs1 rs2 : BitVec 5} {s : State} (h : MemoryCanonical s) : CanonicalNext (execBind rs1 rs2 s) := by
  unfold execBind
  refine canonicalNext_control (fun _ => keepsMemory_theCore.bind fun _ => keepsMemory_gateRead.bind fun _ => keepsMemory_formatUnless.bind fun _
      => keepsMemory_require.bind fun _ => keepsMemory_readImage.bind fun _ => ?_) h
  split
  · exact keepsMemory_raise
  · refine keepsMemory_theCore.bind fun _ => keepsMemory_formatUnless.bind fun _ => keepsMemory_get.bind fun _ => ?_
    split
    · exact keepsMemory_raise
    · exact keepsMemory_require.bind fun _ => keepsMemory_require.bind fun _ => keepsMemory_modCore

theorem canonicalNext_execUnbind {rs1 : BitVec 5} {s : State} (h : MemoryCanonical s) : CanonicalNext (execUnbind rs1 s) := by
  unfold execUnbind
  refine canonicalNext_control (fun _ => keepsMemory_notPosting.bind fun _ => keepsMemory_theCore.bind fun _ => ?_) h
  split
  · exact keepsMemory_raise
  · split
    · exact keepsMemory_pure
    · exact keepsMemory_require.bind fun _ => keepsMemory_modify fun _ h1 => removeRoute_canonical h1

theorem canonicalNext_execGtset {rs1 rs2 : BitVec 5} {s : State} (h : MemoryCanonical s) : CanonicalNext (execGtset rs1 rs2 s) := by
  unfold execGtset
  refine canonicalNext_control (fun _ => keepsMemory_theCore.bind fun _ => keepsMemory_require.bind fun _ => keepsMemory_gateRead.bind fun _ =>
      ?_) h
  split
  · exact keepsMemory_raise
  · exact keepsMemory_require.bind fun _ => keepsMemory_readImage.bind fun _ => keepsMemory_theCore.bind fun _ => keepsMemory_formatUnless.bind
      fun _ => keepsMemory_get.bind fun _ => keepsMemory_require.bind fun _ => (keepsMemory_nodeOp keepsMemory_reachNode (keepsMemory_get.bind
      fun _ => keepsMemory_require.bind fun _ => (keepsMemory_modify fun _ h1 => setTrees_canonical h1).bind fun _ => keepsMemory_pure)).bind fun
      _ => keepsMemory_pure

theorem canonicalNext_execGtclr {rs1 : BitVec 5} {s : State} (h : MemoryCanonical s) : CanonicalNext (execGtclr rs1 s) := by
  unfold execGtclr
  refine canonicalNext_control (fun _ => keepsMemory_theCore.bind fun _ => keepsMemory_require.bind fun _ => keepsMemory_notPosting.bind fun _ =>
      ?_) h
  split
  · exact keepsMemory_raise
  · exact (keepsMemory_nodeOp keepsMemory_reachNode keepsMemory_clearNode).bind fun _ => keepsMemory_pure

theorem canonicalNext_execTlbinv {sc : Scope} {rs1 : BitVec 5} {s : State} (h : MemoryCanonical s) : CanonicalNext (execTlbinv sc rs1 s) :=
  canonicalNext_control (fun _ => keepsMemory_theCore.bind fun _ => keepsMemory_require.bind fun _ => keepsMemory_formatUnless.bind fun _ =>
      keepsMemory_gateAll.bind fun _ => keepsMemory_modify fun _ h1 => h1) h

theorem canonicalNext_execBset {n : BitVec 8} {rs1 rs2 : BitVec 5} {s : State} (h : MemoryCanonical s) :
    CanonicalNext (execBset n rs1 rs2 s) :=
  canonicalNext_control (fun _ => keepsMemory_atHome fun _ _ => keepsMemory_theCore.bind fun _ => keepsMemory_formatUnless.bind fun _ =>
      (keepsMemory_barrierOp keepsMemory_pure keepsMemory_serveSet).bind fun _ => keepsMemory_pure) h

theorem canonicalNext_execBarr {n : BitVec 8} {rs1 : BitVec 5} {s : State} (h : MemoryCanonical s) : CanonicalNext (execBarr n rs1 s) :=
  canonicalNext_control (fun _ => keepsMemory_atHome fun _ _ => keepsMemory_gateAll.bind fun _ => (keepsMemory_barrierOp keepsMemory_arrive
      (keepsMemory_serveArrival.bind fun _ => keepsMemory_pure)).bind fun _ => keepsMemory_pure) h

theorem canonicalNext_execBdrop {n : BitVec 8} {rs1 : BitVec 5} {s : State} (h : MemoryCanonical s) : CanonicalNext (execBdrop n rs1 s) :=
  canonicalNext_control (fun _ => keepsMemory_atHome fun _ _ => keepsMemory_gateAll.bind fun _ => (keepsMemory_barrierOp keepsMemory_arrive
      (keepsMemory_serveArrival.bind fun _ => keepsMemory_pure)).bind fun _ => keepsMemory_pure) h

theorem canonicalNext_execBquery {rd : BitVec 5} {n : BitVec 8} {rs1 : BitVec 5} {s : State} (h : MemoryCanonical s) :
    CanonicalNext (execBquery rd n rs1 s) :=
  canonicalNext_controlTo (fun _ => keepsMemory_atHome fun _ _ => keepsMemory_barrierOp keepsMemory_pure (keepsMemory_get.bind fun _ =>
      keepsMemory_pure)) h

theorem canonicalNext_execDrainReceive {k : Nat} {s : State} (h : MemoryCanonical s) : CanonicalNext (execDrainReceive k s) := by
  unfold execDrainReceive
  refine canonicalNext_event (fun _ h1 => ?_) h
  split
  · exact ite_canonical (drainTurn_canonical h1) h1
  · exact h1

theorem canonicalNext_execQlockGrant {w : BitVec 50} {s : State} (h : MemoryCanonical s) : CanonicalNext (execQlockGrant w s) :=
  canonicalNext_event (fun _ h1 => ite_canonical (grantAt_canonical (openLock_canonical h1)) (openLock_canonical h1)) h

theorem canonicalNext_execLinkFlit {c : Option CoreId} {good : Bool} {s : State} (h : MemoryCanonical s) :
    CanonicalNext (execLinkFlit c good s) := by
  unfold execLinkFlit
  split <;> exact canonicalNext_event (fun _ h1 => h1) h

theorem canonicalNext_exec {i : Instr} {s : State} (h : MemoryCanonical s) : CanonicalNext (exec i s) := by
  cases i <;> dsimp only [exec]
  case vaddC2 | vsubC2 | vmulC2 | vfmaC2 | vminC2 | vmaxC2 | vandC2 | vorC2 | vxorC2 | vshlC2 | vshrC2 | vsraC2 | vmovC2 | vabsC2 | vnegC2 |
      vpopcC2 =>
    exact canonicalNext_post2 h
  case vaddV3 | vsubV3 | vmulV3 | vfmaV3 | vminV3 | vmaxV3 | vandV3 | vorV3 | vxorV3 | vshlV3 | vshrV3 | vsraV3 | vmovV3 | vabsV3 | vnegV3 |
      vpopcV3 | vdiv | vsqrt | vclz | vnot | vcvt | vfmt | vclr | vsel | vceq | vcne | vclt | vcle | vid | vredsum | vredmin | vredmax | vredminx
      | vredand | vredor | vredxor | vslup | vsldn | vperm | vpack | vunpk | vdot | vqnt | vdq | vaddSat | vsubSat | vmulSat | vld | vldInt6 |
      vlds | vst | vstInt6 | vsts | vldx | vstx | vaadd | hmov | hmovPeek | spush | spop | sflush | unpick | kbool | kset =>
    exact canonicalNext_post4 h
  case mmaOvw | mmaAcc | mmaArr | mdarn | hclr | hld | hst | hdrain | mqpop | mqpopAcc | mqpush | mld | mwait | lopen | lset | lclose | linval =>
    exact canonicalNext_postM h
  case mmaRing | mpass => exact canonicalNext_postMatrix (fun _ => keepsMemory_needPlot) h
  case add | sub | mul | mulh | mulhu | div | divu | rem | remu | and | or | xor | andn | shl | shr | sra | min | max | minu | maxu | slt | sltu
      =>
    exact canonicalNext_alu2 h
  case clz | ctz | popc | csel | addi | andi | ori | xori | shli | shri | srai | slti | lim | apc | fma | fcvt | fcmp =>
    exact canonicalNext_alu h
  case beq | bne | blt | bge | bltu | bgeu => exact canonicalNext_branch h
  case jmp | kuse | vsetvl => exact canonicalNext_next h
  case jind => exact canonicalNext_ite (canonicalNext_trapNow h) (canonicalNext_next h)
  case fadd | fsub | fmul | fdiv | fsqrt | fmin | fmax => exact canonicalNext_fp2 h
  case sget => exact canonicalNext_execSget h
  case sset => exact canonicalNext_execSset h
  case trap | sysc => exact canonicalNext_softTrap h
  case eret => exact canonicalNext_ite (canonicalNext_trapNow h) (canonicalNext_finish h (KeepsMemory.run keepsMemory_returnFromTrap h))
  case isync | nop => exact canonicalNext_control (fun _ => keepsMemory_pure) h
  case tdone => exact canonicalNext_execTdone h
  case ldb | ldbu | ldh | ldhu | ldw | ldwu | ldd => exact canonicalNext_load h
  case stb | sth | stw | std => exact canonicalNext_store h
  case aadd | amin | amax | aminu | amaxu | aand | aor | axor | aswp | acas | aswpDw | acasDw | aaddDw => exact canonicalNext_atomic h
  case acq | rel | fence => exact canonicalNext_checked (fun _ h1 => canonicalNext_control (fun _ => keepsMemory_commitSync) h1) h
  case own | disown => exact canonicalNext_checked (fun _ h1 => canonicalNext_ownRange h1) h
  case drain => exact canonicalNext_execDrain h
  case pref => exact canonicalNext_execPref h
  case qlock => exact canonicalNext_execQlock h
  case qunlock => exact canonicalNext_execQunlock h
  case xbeg | xcmp => exact canonicalNext_control (fun _ => keepsMemory_notPosting.bind fun _ => keepsMemory_modCore) h
  case xend => exact canonicalNext_execXend h
  case qpeek => exact canonicalNext_checked (fun _ h1 => canonicalNext_controlTo (fun _ => keepsMemory_headValue) h1) h
  case qpeekPop => exact canonicalNext_execQpeekPop h
  case qcount => exact canonicalNext_controlTo (fun _ => keepsMemory_theCore.bind fun _ => keepsMemory_pure) h
  case send => exact canonicalNext_execSend h
  case sendv => exact canonicalNext_execSendv h
  case lbuf => exact canonicalNext_execLbuf h
  case lcfg => exact canonicalNext_execLcfg h
  case lrun => exact canonicalNext_execLrun h
  case lstop => exact canonicalNext_control (fun _ => keepsMemory_modCore) h
  case cpost => exact canonicalNext_execCpost h
  case cpop => exact canonicalNext_execCpop h
  case launch => exact canonicalNext_execLaunch h
  case cstore => exact canonicalNext_execCstore h
  case cwait => exact canonicalNext_execCwait h
  case cabort => exact canonicalNext_execCabort h
  case pdef => exact canonicalNext_execPdef h
  case pin => exact canonicalNext_postVector (fun _ => keepsMemory_pinEntry) h
  case pdrop => exact canonicalNext_execPdrop h
  case lstat => exact canonicalNext_execLstat h
  case bind => exact canonicalNext_execBind h
  case unbind => exact canonicalNext_execUnbind h
  case gtset => exact canonicalNext_execGtset h
  case gtclr => exact canonicalNext_execGtclr h
  case tlbinv => exact canonicalNext_execTlbinv h
  case bset => exact canonicalNext_execBset h
  case barr => exact canonicalNext_execBarr h
  case barw | bwait => exact canonicalNext_control (fun _ => keepsMemory_atHome fun _ _ => keepsMemory_waitAt) h
  case bdrop => exact canonicalNext_execBdrop h
  case bquery => exact canonicalNext_execBquery h
  case vfb => exact canonicalNext_postVector (fun _ => keepsMemory_blockEntry) h
  case vpb | vpend => exact canonicalNext_trapNow h
  case kpop | kfirst | kget => exact canonicalNext_readMask h
  case lpush => exact canonicalNext_event (fun _ h1 => launchPush_canonical h1) h
  case conciergeReadBlock => exact canonicalNext_event (fun _ h1 => readBlock_canonical h1) h
  case placeLaunch => exact canonicalNext_event (fun _ h1 => placeLaunch_canonical h1) h
  case priorityPreempt => exact canonicalNext_event (fun _ h1 => priorityPreempt_canonical h1) h
  case postClaim => exact canonicalNext_event (fun _ h1 => postClaim_canonical h1) h
  case gangStart => exact canonicalNext_event (fun _ h1 => gangStart_canonical h1) h
  case handlerStart => exact canonicalNext_event (fun _ h1 => handlerStart_canonical h1) h
  case agingPeriod | budgetExpiry | lease1Expiry | requestTimeout | qlockRetry | outChannelDrain | channelDelivery | timebaseHalt | tlbEvict |
      timebaseResume =>
    exact canonicalNext_event (fun _ h1 => h1) h
  case taskEnd => exact canonicalNext_event (fun _ h1 => finishTask_canonical h1) h
  case idleSample => exact canonicalNext_event (fun _ h1 => idleSample_canonical h1) h
  case latchLoadComplete => exact canonicalNext_event (fun _ h1 => loadComplete_canonical h1) h
  case handOn => exact canonicalNext_event (fun _ h1 => handOn_canonical h1) h
  case drainReceive => exact canonicalNext_execDrainReceive h
  case registerCacheEvict => exact canonicalNext_event (fun _ h1 => evictItem_canonical h1) h
  case l1Evict => exact canonicalNext_event (fun _ h1 => evictL1_canonical h1) h
  case clusterHomeEvict => exact canonicalNext_event (fun _ h1 => pushHome_canonical h1) h
  case lease2Expiry => exact canonicalNext_event (fun _ h1 => expireL2_canonical h1) h
  case recallOwner => exact canonicalNext_event (fun _ h1 => recallLine_canonical h1) h
  case partialPush => exact canonicalNext_event (fun _ h1 => pushPartial_canonical h1) h
  case versionBump => exact canonicalNext_event (fun _ h1 => moveBumps_canonical h1) h
  case regionTableWrite => exact canonicalNext_event (fun _ h1 => regionWrite_canonical h1) h
  case eventCounterWrite => exact canonicalNext_event (fun _ h1 => regWrite_canonical h1) h
  case duplicateRecordExpiry => exact canonicalNext_event (fun _ h1 => expireRecords_canonical h1) h
  case qlockGrant => exact canonicalNext_execQlockGrant h
  case relayRow => exact canonicalNext_event (fun _ h1 => relayRow_canonical h1) h
  case downWaveDelivery => exact canonicalNext_event (fun _ h1 => deliverDown_canonical h1) h
  case groupAbort => exact canonicalNext_event (fun _ h1 => travelAbort_canonical h1) h
  case carrierCopy => exact canonicalNext_event (fun _ h1 => carrierTurn_canonical h1) h
  case packetArrival => exact canonicalNext_event (fun _ h1 => arrivePacket_canonical h1) h
  case repeatSequencerPost => exact canonicalNext_event (fun _ h1 => ite_canonical h1 (sequencerStep_canonical h1)) h
  case trapEntry | machineTrapEntry => exact canonicalNext_event (fun _ h1 => takePending_canonical h1) h
  case uncorrectableError => exact canonicalNext_event (fun _ h1 => arrayError_canonical h1) h
  case coreFence => exact canonicalNext_event (fun _ h1 => fenceCore_canonical h1) h
  case dieLoss => exact canonicalNext_event (fun _ h1 => loseDie_canonical h1) h
  case regctx | unregctx | kill | preempt | migrate => exact canonicalNext_event (fun _ h1 => hostCommand_canonical h1) h
  case hostMemAccess | peerAccess => exact canonicalNext_event (fun _ h1 => outsideAccess_canonical h1) h
  case linkFlit => exact canonicalNext_execLinkFlit h
  case firmwareImage => exact canonicalNext_event (fun _ h1 => receiveImage_canonical h1) h
  case spdmRequest | powerCap | thermalTrip => exact canonicalNext_event (fun _ h1 => modRegs_canonical h1) h
  case powerUp => exact canonicalNext_next (powerUp_canonical h)
  case functionReady => exact canonicalNext_event (fun _ h1 => functionReady_canonical h1) h
  case coreReset => exact canonicalNext_event (fun _ h1 => coreReset_canonical h1) h
  case registerWrite => exact canonicalNext_event (fun _ h1 => blockWrite_canonical h1) h
  case l2Evict => exact canonicalNext_event (fun _ h1 => evictSlice_canonical h1) h
  case correctedError => exact canonicalNext_event (fun _ h1 => countCorrected_canonical h1) h
  case packageReset => exact canonicalNext_event (fun _ h1 => resetPackage_canonical h1) h

/-! ### The step -/

theorem canonicalNext_coreStep {s : State} (h : MemoryCanonical s) : CanonicalNext (coreStep s) := by
  unfold coreStep
  exact canonicalNext_ite (canonicalNext_next h) (canonicalNext_ite (canonicalNext_next (hubWork_canonical (elapse_canonical h)))
    (canonicalNext_andThen (canonicalNext_controlSlot (fun _ _ h1 => canonicalNext_exec h1) h) fun _ h1 =>
      hubWork_canonical (backgroundWork_canonical (elapse_canonical h1))))

theorem canonicalNext_slotStep {s : State} {e : Slot} (h : MemoryCanonical s) : CanonicalNext (slotStep s e) := by
  cases e with
  | core c => exact canonicalNext_coreStep h
  | vector c => exact canonicalNext_next (ite_canonical h (hubWork_canonical (finishTask_canonical (runVectorHead_canonical h))))
  | matrix c => exact canonicalNext_next (ite_canonical h (hubWork_canonical (finishTask_canonical (runMatrixHead_canonical h))))
  | event i => exact canonicalNext_ite (canonicalNext_next h) (canonicalNext_andThen (canonicalNext_exec h) fun _ h1 => hubWork_canonical h1)

theorem canonicalNext_step {s : State} (h : MemoryCanonical s) : CanonicalNext (step s) := by
  unfold step
  split
  · exact canonicalNext_coreStep h
  · exact canonicalNext_slotStep h

/-- Settles O58: a step writes the byte memory only by the stores of the model, each of which keeps its form, and every meaning, stop
and piece of background work is made of them. -/
theorem memoryCanonicalKept : Obligations.MemoryCanonicalKept := by
  intro s t h hst
  exact canonicalNext_step h t hst

end Sys2Proof.Machine

/-! ## Scalar accesses in the own window (R191, R219, R295) -/

namespace Sys2Proof.Machine

/-! ### Gates that no entry holds (R217, R230, R261) -/

theorem memGate_quiet {s : State} {c : CoreId} (h : Quiet (getCore s c)) : memGate c s = .ok () s := by
  rw [memGate, M.bind_ok (notPosting_ok h.noRun), M.theCore_bind, h.noSync]
  rfl

theorem conflicts_drained {s : State} {c : CoreId} (h : Drained (getCore s c)) (p : Entry → Bool) (reads writes : List Span) :
    conflicts s c p reads writes = false := by
  simp [conflicts, queued, h.noVector, h.noMatrix]

theorem gateRead_drained {s : State} {c : CoreId} (h : Drained (getCore s c)) (va : DWord) (n : Nat) : gateRead c va n s = .ok () s := by
  rw [gateRead, gateSpans, M.bind_ok (memGate_quiet h.toQuiet), M.get_bind, conflicts_drained h]
  rfl

theorem gateWrite_drained {s : State} {c : CoreId} (h : Drained (getCore s c)) (va : DWord) (n : Nat) : gateWrite c va n s = .ok () s := by
  rw [gateWrite, M.bind_ok (memGate_quiet h.toQuiet), M.get_bind, conflicts_drained h]
  rfl

/-! ### The forms of scalar accesses (R219) -/

/-- A doubleword fills its register, with or without its sign. -/
theorem extendTo_doubleword (v : Nat) : extendTo false 8 v = extendTo true 8 v := by
  rw [extendTo, extendTo, if_neg Bool.false_ne_true, if_pos rfl, signedOf]
  split
  · exact (BitVec.ofInt_natCast 64 v).symm
  · refine BitVec.eq_of_toNat_eq ?_
    simp only [BitVec.toNat_ofNat, BitVec.toNat_ofInt]
    omega

/-- Every form of a scalar load is the one meaning at its size. -/
theorem exec_of_mem_loads {rt rs1 : BitVec 5} {imm : BitVec 12} {f : Instr × Nat × Bool} (h : f ∈ Loads rt rs1 imm) :
    ElemBytes f.2.1 ∧ ∀ s, exec f.1 s = load f.2.1 f.2.2 rt rs1 imm s := by
  simp only [Loads, List.mem_cons, List.not_mem_nil, or_false] at h
  rcases h with rfl | rfl | rfl | rfl | rfl | rfl | rfl
  case inr.inr.inr.inr.inr.inr =>
    refine ⟨by simp [ElemBytes], fun s => ?_⟩
    change load 8 false rt rs1 imm s = load 8 true rt rs1 imm s
    simp only [load, extendTo_doubleword]
  all_goals exact ⟨by simp [ElemBytes], fun _ => rfl⟩

/-- Every form of a scalar store is the one meaning at its size. -/
theorem exec_of_mem_stores {rt rs1 : BitVec 5} {imm : BitVec 12} {f : Instr × Nat} (h : f ∈ Stores rt rs1 imm) :
    ElemBytes f.2 ∧ ∀ s, exec f.1 s = store f.2 rt rs1 imm s := by
  simp only [Stores, List.mem_cons, List.not_mem_nil, or_false] at h
  rcases h with rfl | rfl | rfl | rfl <;> exact ⟨by simp [ElemBytes], fun _ => rfl⟩

/-- The sign of a value of `n` bytes is that of its bit vector. -/
theorem extendTo_eq {n v : Nat} (hn : ElemBytes n) (hv : v < 2 ^ (8 * n)) (signed : Bool) :
    extendTo signed n v = if signed then BitVec.ofInt 64 (BitVec.ofNat (8 * n) v).toInt else BitVec.ofNat 64 v := by
  rw [extendTo, signedOf_eq_toInt (Nat.mul_pos (by decide) hn.pos) hv]

/-! ### What a mark leaves alone (R295) -/

/-- Whether the hub watches a region (R295). -/
def watches (h : Hub) (g : Byte) : Bool := (h.regs.regions.find g.toNat).any fun r => bitAt r 32

/-- A core with its marks replaced. -/
def withMarks (m : Regions) (k : Core) : Core := { k with tables := { k.tables with marks := m } }

/-- A core with its mark of a region set. -/
def withMark (g : Byte) (k : Core) : Core := withMarks (putBit k.tables.marks g.toNat true) k

section
variable (s : State) (c : CoreId) (g : Byte)

theorem markWatched_eq : markWatched s c g = if watches s.hub g then updCore s c (withMark g) else s := by
  rw [markWatched, watches]
  split
  · rename_i r hr
    rw [hr]
    rfl
  · rename_i hr
    rw [hr]
    rfl

@[simp] theorem markWatched_store : (markWatched s c g).store = s.store := by
  rw [markWatched_eq]; split <;> rfl

@[simp] theorem markWatched_l2 : (markWatched s c g).l2 = s.l2 := by
  rw [markWatched_eq]; split <;> rfl

@[simp] theorem markWatched_hub : (markWatched s c g).hub = s.hub := by
  rw [markWatched_eq]; split <;> rfl

theorem getCore_markWatched_self : getCore (markWatched s c g) c = if watches s.hub g then withMark g (getCore s c) else getCore s c := by
  rw [markWatched_eq]
  split
  · exact getCore_updCore_self ..
  · rfl

theorem getCore_markWatched_other {d : CoreId} (hd : d ≠ c) : getCore (markWatched s c g) d = getCore s d := by
  rw [markWatched_eq]
  split
  · exact getCore_updCore_other s c d _ hd
  · rfl

/-- A mark changes nothing of its core but the marks. -/
theorem getCore_markWatched : ∃ m, getCore (markWatched s c g) c = withMarks m (getCore s c) := by
  rw [getCore_markWatched_self]
  split
  · exact ⟨_, rfl⟩
  · exact ⟨(getCore s c).tables.marks, rfl⟩

end

/-! ### Bytes and marks of a store (R368) -/

theorem memByte_storePut (s : State) (a n v : Nat) (bad : Bool) (x : Nat) :
    memByte (storePut s a n v bad).store.bytes x =
      if a ≤ x ∧ x < a + n then BitVec.ofNat 8 (v / 2 ^ (8 * (x - a))) else memByte s.store.bytes x := by
  rw [pow_mul, show (2 : Nat) ^ 8 = 256 from rfl]
  exact memByte_memStore_any ..

/-- The bytes of a number, the lowest first, side by side. -/
theorem map_byte_range (n v : Nat) : (List.range n).map (fun i => (BitVec.ofNat 8 (v / 2 ^ (8 * i)) : Byte)) = leBytes n v := by
  induction n generalizing v with
  | zero => rfl
  | succ n ih =>
    have hnext (i : Nat) : v / 2 ^ (8 * (i + 1)) = v / 256 / 2 ^ (8 * i) := by
      rw [Nat.mul_succ, pow_add, Nat.mul_comm, Nat.div_div_eq_div_mul]
      rfl
    rw [List.range_succ_eq_map, List.map_cons, List.map_map, leBytes, ← ih, Nat.mul_zero, pow_zero, Nat.div_one]
    exact congrArg (_ :: ·) (List.map_congr_left fun i _ => congrArg (BitVec.ofNat 8) (hnext i))

/-- A store is read back at its size. -/
theorem bytesAt_storePut (s : State) (a n v : Nat) (bad : Bool) : bytesAt (storePut s a n v bad) a n = v % 2 ^ (8 * n) := by
  rw [bytesAt, pow_mul, show (2 : Nat) ^ 8 = 256 from rfl, ← leNat_leBytes, ← map_byte_range]
  refine congrArg leNat (List.map_congr_left fun i hi => ?_)
  rw [memByte_storePut, if_pos ⟨Nat.le_add_right .., Nat.add_lt_add_left (List.mem_range.1 hi) a⟩, Nat.add_sub_cancel_left]

/-- Clean bytes stay clean where clean bytes are stored. -/
theorem cleanAt_storePut {s : State} {a n : Nat} (h : CleanAt s a n) (v : Nat) : CleanAt (storePut s a n v false) a n := by
  have hload : psnLoad s.store.psn (a / 4) ((a + n + 3) / 4 - a / 4) = 0 := psnLoad_eq_zero fun p hlo hhi => h p hlo (by omega)
  intro w hlo hhi hw
  simp only [storePut, Bool.false_eq_true, if_false, hload, Nat.zero_and, psnStore, Nat.zero_testBit, List.mem_append, List.mem_filter,
    decide_eq_true_eq, List.filterMap_none, List.not_mem_nil, or_false] at hw
  omega

/-! ### Loads and stores -/

section
variable {s : State} {rt rs1 : BitVec 5} {imm : BitVec 12} {off n : Nat}

/-- The address of an access to the own window that is aligned there is a multiple of its size. -/
theorem aligned_of_ownScratch {va : DWord} (h : OwnScratch s va off n) (hn : ElemBytes n) : (va.toNat % n == 0) = true := by
  have hal := h.aligned
  rw [beq_iff_eq, h.addr, toNat_ownAddr (Nat.lt_of_le_of_lt (Nat.le_trans (Nat.le_add_right ..) h.fits) (scratchSize_lt _))]
  rcases hn with rfl | rfl | rfl | rfl <;> omega

theorem translate_of_ownScratch {va : DWord} {acc : Access} (h : OwnScratch s va off n) (hacc : acc ≠ .fetch) :
    translate s.cur va n acc s = .ok (ownLoc s.cur off) s := by
  rw [h.addr]
  exact translate_own h.alive hacc h.fits

theorem readAt_own (s : State) (c : CoreId) {off n : Nat} (va : DWord) (hc : CleanAt s (sramKey c off) n) :
    readAt c (ownLoc c off) n va s = .ok (bytesAt s (sramKey c off) n, false) s := by
  change (if c = c then _ else _ : M (Nat × Bool)) s = _
  rw [bytesAt_eq_memLoad, ← storeField_clean hc]
  exact congrFun (if_pos rfl) s

theorem writeAt_own (s : State) (c : CoreId) (off n v : Nat) (bad : Bool) (va : DWord) :
    writeAt c (ownLoc c off) n v bad va s = .ok () (markWatched (storePut s (sramKey c off) n v bad) c 0) := by
  change (if c = c then _ else _ : M Unit) s = _
  exact congrFun (if_pos rfl) s

/-- A load of clean bytes of the own window writes them, extended, to its register, and goes on. -/
theorem load_own (hd : Drained (here s)) (hn : ElemBytes n) (h : OwnScratch s (eaOf (here s) rs1 imm) off n)
    (hc : CleanAt s (sramKey s.cur off) n) (signed : Bool) :
    load n signed rt rs1 imm s = .next (writeScalar s rt (extendTo signed n (bytesAt s (sramKey s.cur off) n))) := by
  refine load_ok (gateRead_drained hd _ n) ?_ rfl
  rw [loadScalar, aligned_of_ownScratch h hn, require_true, M.pure_bind_run, M.bind_ok (translate_of_ownScratch h (by decide)),
    M.bind_ok (readAt_own s _ _ hc)]
  rfl

/-- What a store to the own window leaves: the bytes and the mark, before its core goes on. -/
def ownStored (s : State) (off n v : Nat) : State := markWatched (storePut s (sramKey s.cur off) n v false) s.cur 0

/-- What a store to the own window leaves: its core has gone on. -/
def pastOwnStore (s : State) (off n v : Nat) : State := updCore (ownStored s off n v) s.cur fun k => retire k 4

/-- A store to the own window writes the low bytes of its register there, and goes on. -/
theorem store_own (hd : Drained (here s)) (hn : ElemBytes n) (h : OwnScratch s (eaOf (here s) rs1 imm) off n) :
    store n rt rs1 imm s = .next (pastOwnStore s off n ((getS (here s) rt).toNat % 2 ^ (8 * n))) := by
  have hcur (v : Nat) : (ownStored s off n v).cur = s.cur := markWatched_cur ..
  rw [pastOwnStore, ← hcur]
  refine store_ok (gateWrite_drained hd _ n) ?_
  rw [storeScalar, aligned_of_ownScratch h hn, require_true, M.pure_bind_run, M.bind_ok (translate_of_ownScratch h (by decide)), writeAt_own]
  rfl

end

theorem here_ownStored (s : State) (off n v : Nat) : getCore (ownStored s off n v) s.cur = here (markWatched s s.cur 0) := by
  rw [here, markWatched_cur, ownStored, getCore_markWatched_self, getCore_markWatched_self]
  rfl

theorem getCore_ownStored_other (s : State) (off n v : Nat) {c : CoreId} (hc : c ≠ s.cur) : getCore (ownStored s off n v) c = getCore s c :=
  getCore_markWatched_other _ _ _ hc

theorem files_markWatched (s : State) (c : CoreId) (g : Byte) : (getCore (markWatched s c g) c).files = (getCore s c).files := by
  obtain ⟨m, hm⟩ := getCore_markWatched s c g
  rw [hm, withMarks]

/-! ### The two obligations -/

/-- R191, R219: the one meaning of a load, at each size. -/
theorem scratchLoads : Parts.ScratchLoads := by
  intro s rt rs1 imm off hd f hf h hc
  obtain ⟨hn, hexec⟩ := exec_of_mem_loads hf
  rw [hexec, load_own hd hn h hc, extendTo_eq hn (bytesAt_lt ..)]

/-- The byte of the low bytes of a value. -/
theorem byte_of_low_bytes {v n i : Nat} (hi : i < n) : BitVec.ofNat 8 (v % 2 ^ (8 * n) / 2 ^ (8 * i)) = BitVec.ofNat 8 (v / 2 ^ (8 * i)) := by
  refine BitVec.eq_of_getLsbD_eq fun j hj => ?_
  have hlt : j + 8 * i < 8 * n := by omega
  simp [BitVec.getLsbD_ofNat, Nat.testBit_div_two_pow, Nat.testBit_mod_two_pow, hlt]

/-- R191, R219, R295: the one meaning of a store, at each size. -/
theorem scratchStores : Parts.ScratchStores := by
  intro s rt rs1 imm off hd f hf h a
  obtain ⟨hn, hexec⟩ := exec_of_mem_stores hf
  refine ⟨_, (hexec s).trans (store_own hd hn h), fun x hlo hhi => ?_, fun x hx => ?_, ?_, ?_, fun c hc => ?_, ?_, ?_⟩
  · rw [pastOwnStore, updCore_store, ownStored, markWatched_store, memByte_storePut, if_pos ⟨hlo, hhi⟩]
    exact byte_of_low_bytes (by omega)
  · rw [pastOwnStore, updCore_store, ownStored, markWatched_store, memByte_storePut, if_neg (by omega)]
  · exact markWatched_l2 ..
  · exact markWatched_hub ..
  · rw [pastOwnStore, getCore_updCore_other _ _ _ _ hc, getCore_ownStored_other s _ _ _ hc]
  · rw [← here_ownStored s off f.2 ((getS (here s) rt).toNat % 2 ^ (8 * f.2)), here, pastOwnStore, updCore_cur, ownStored, markWatched_cur]
    exact getCore_updCore_self ..
  · rw [here, markWatched_cur, files_markWatched]

/-- Settles O20, by what the one meaning of a load and that of a store leave at each size. -/
theorem scratchAccesses : Obligations.ScratchAccesses := ⟨scratchLoads, scratchStores⟩

/-- A store to the own window leaves a core that may load the same bytes. -/
theorem loadable_after_store {s : State} {rs1 : BitVec 5} {imm : BitVec 12} {off n v : Nat} (hd : Drained (here s))
    (h : OwnScratch s (eaOf (here s) rs1 imm) off n) (hc : CleanAt s (sramKey s.cur off) n) :
    let t := pastOwnStore s off n v
    t.cur = s.cur ∧ Drained (here t) ∧ OwnScratch t (eaOf (here t) rs1 imm) off n ∧ CleanAt t (sramKey s.cur off) n := by
  intro t
  have hcur : t.cur = s.cur := markWatched_cur ..
  have hstore : t.store = (storePut s (sramKey s.cur off) n v false).store := markWatched_store ..
  have hhub : t.hub = s.hub := markWatched_hub ..
  obtain ⟨m, hm⟩ := getCore_markWatched s s.cur 0
  have hhere : here t = retire (withMarks m (here s)) 4 := by
    rw [here, hcur, ← hm]
    refine (getCore_updCore_self ..).trans (congrArg (retire · 4) ((here_ownStored s off n v).trans ?_))
    rw [here, markWatched_cur]
  have hea : eaOf (here t) rs1 imm = eaOf (here s) rs1 imm := by
    rw [hhere]
    simp [eaOf, getS, withMarks]
  refine ⟨hcur, ?_, ⟨hea.trans h.addr, h.aligned, ?_, ?_⟩, ?_⟩
  · rw [hhere]
    exact ⟨⟨by simp [withMarks, hd.noRun], by simp [withMarks, hd.noSync]⟩, by simp [withMarks, hd.noVector], by simp [withMarks, hd.noMatrix]⟩
  · rw [hhere]
    simpa [scratchSize, retire, retireTo_tregs, withMarks] using h.fits
  · rw [hcur]
    refine ⟨?_, hhub ▸ h.alive.dieUp⟩
    have hfenced : (here t).fenced = false := by
      rw [hhere, retire_fenced]
      exact h.alive.notFenced
    rwa [here, hcur] at hfenced
  · unfold CleanAt
    rw [hstore]
    exact cleanAt_storePut hc v

/-- Settles O60: the load meets the bytes that the store has left. -/
theorem readAfterWrite : Obligations.ReadAfterWrite := by
  intro s rt rd rs1 imm off i hd _ st ld hst hld h hc v
  obtain ⟨hn, hstore⟩ := exec_of_mem_stores (List.mem_of_getElem? hst)
  obtain ⟨hld, hsize⟩ := List.mem_filter.1 hld
  obtain ⟨-, hload⟩ := exec_of_mem_loads hld
  obtain ⟨hcur, hd', h', hc'⟩ := loadable_after_store (v := v) hd h hc
  refine ⟨_, (hstore s).trans (store_own hd hn h), ?_⟩
  have hv : v < 2 ^ (8 * st.2) := Nat.mod_lt _ (Nat.two_pow_pos _)
  have hbytes : bytesAt (pastOwnStore s off st.2 v) (sramKey s.cur off) st.2 = v := by
    have hread := bytesAt_storePut s (sramKey s.cur off) st.2 v false
    rw [Nat.mod_eq_of_lt hv, bytesAt] at hread
    rwa [bytesAt, pastOwnStore, updCore_store, ownStored, markWatched_store]
  have hc' : CleanAt (pastOwnStore s off st.2 v) (sramKey (pastOwnStore s off st.2 v).cur off) st.2 := hcur ▸ hc'
  rw [hload, beq_iff_eq.1 hsize, load_own hd' hn h' hc', hcur, hbytes, extendTo_eq hn hv]

end Sys2Proof.Machine

/-! ## Scalar accesses to lines of L1 (R182, R194, R219, log 53) -/

namespace Sys2Proof.Machine

/-! ### Bytes of a line -/

theorem testBit_spread (k n m j : Nat) : (spread k n m).testBit j = (decide (j < k * n) && m.testBit (j / k)) := by
  induction n with
  | zero => simp [spread]
  | succ n ih =>
    have hunit : (if m.testBit n then (2 ^ k - 1) <<< (k * n) else 0).testBit j =
        (decide (k * n ≤ j ∧ j < k * n + k) && m.testBit n) := by
      cases m.testBit n with
      | false => simp
      | true =>
        rw [if_pos rfl, Nat.testBit_shiftLeft, Nat.testBit_two_pow_sub_one, Bool.and_true, Bool.eq_iff_iff]
        simp only [Bool.and_eq_true, decide_eq_true_eq, ge_iff_le]
        omega
    rw [spread, Nat.testBit_or, ih, hunit, Nat.mul_succ]
    by_cases hj : j < k * n
    · simp [hj, Nat.lt_add_right k hj, Nat.not_le.2 hj]
    · by_cases hlt : j < k * n + k
      · have hdiv : j / k = n := Nat.div_eq_of_lt_le (by rw [Nat.mul_comm]; omega) (by rw [Nat.mul_comm, Nat.mul_succ]; omega)
        simp [hj, hlt, hdiv, Nat.not_lt.1 hj]
      · simp [hj, hlt]

/-- A byte of a line after new bytes have gone over it is the new one where the mask says so. -/
theorem slice_mergeBytes (old new : BitVec 1024) (mask : BitVec 128) {i : Nat} (hi : i < 128) :
    (slice (mergeBytes old new mask) (8 * i) 8 : Byte) = if bitAt mask i then slice new (8 * i) 8 else slice old (8 * i) 8 := by
  refine BitVec.eq_of_getLsbD_eq fun j hj => ?_
  have hin : 8 * i + j < 8 * 128 := by omega
  have hdiv : (8 * i + j) / 8 = i := by omega
  have hmask : (lineMask mask).getLsbD (8 * i + j) = bitAt mask i := by
    rw [lineMask, BitVec.getLsbD_ofNat, testBit_spread, hdiv, bitAt]
    simp [hin]
  rw [apply_ite (BitVec.getLsbD · j)]
  simp only [slice, mergeBytes, BitVec.getLsbD_extractLsb', BitVec.getLsbD_or, BitVec.getLsbD_and, BitVec.getLsbD_not, hmask, hj, decide_true,
    Bool.true_and]
  cases bitAt mask i <;> simp [show 8 * i + j < 1024 from hin]

theorem bitAt_byteMask {o n i : Nat} (hi : i < 128) : bitAt (byteMask o n) i = decide (o ≤ i ∧ i < o + n) := by
  rw [bitAt, byteMask, BitVec.toNat_ofNat, Nat.testBit_mod_two_pow, Nat.testBit_shiftLeft, Nat.testBit_two_pow_sub_one, Bool.eq_iff_iff]
  simp only [Bool.and_eq_true, decide_eq_true_eq, ge_iff_le]
  omega

theorem bitAt_or {n : Nat} (a b : BitVec n) (i : Nat) : bitAt (a ||| b) i = (bitAt a i || bitAt b i) := by
  rw [bitAt, BitVec.toNat_or, Nat.testBit_or, bitAt, bitAt]

theorem slice_placeBytes (v : Nat) {o i : Nat} (ho : o ≤ i) (hi : i < 128) :
    (slice (placeBytes o v) (8 * i) 8 : Byte) = BitVec.ofNat 8 (v / 2 ^ (8 * (i - o))) := by
  refine BitVec.eq_of_getLsbD_eq fun j hj => ?_
  have hin : 8 * i + j < 1024 := by omega
  have hge : 8 * o ≤ 8 * i + j := by omega
  have hsub : 8 * i + j - 8 * o = j + 8 * (i - o) := by omega
  rw [slice, placeBytes, BitVec.getLsbD_extractLsb', BitVec.getLsbD_ofNat, BitVec.getLsbD_ofNat, Nat.testBit_shiftLeft,
    Nat.testBit_div_two_pow, hsub]
  simp [hj, hin, hge]

/-! ### Places under a page of the TLB -/

section
variable {s : State} {va : DWord} {acc : Access} {pa : Nat} {pg : Page}

theorem translate_onPage (h : OnPage s va acc pa pg) (n : Nat) : translate s.cur va n acc s = .ok (.mem pa pg) s := by
  obtain ⟨⟨e, bits, hhit, rfl, rfl⟩, hallowed, hmemory⟩ := h
  exact translate_hit hhit hallowed hmemory

theorem lodge_onPage (h : OnPage s va acc pa pg) : pg.lodge = false := by
  obtain ⟨⟨e, bits, -, rfl, -⟩, -, -⟩ := h
  rfl

end

theorem cachedIn_iff {pa : Nat} {pg : Page} : cachedIn pa pg = true ↔ pg.mtype = 0 ∧ (pg.home = 0 ∨ pg.home = 3) ∧ aperture pa ≠ 2 := by
  simp [cachedIn, and_assoc]

/-- An access to a cached page is no strongly ordered one (R189). -/
theorem strong_cached {α : Type} {c : CoreId} {pa : Nat} {pg : Page} {m : M α} (h : cachedIn pa pg = true) : strong c pa pg m = m := by
  rw [strong, if_neg (by simp [(cachedIn_iff.1 h).1])]

theorem readAt_cached {c : CoreId} {pa n : Nat} {pg : Page} {va : DWord} (h : cachedIn pa pg = true) :
    readAt c (.mem pa pg) n va = readLoc c (.mem pa pg) n va := by
  obtain ⟨hm, -, ha⟩ := cachedIn_iff.1 h
  have hdevice : isDevice pa pg = false := by simp [isDevice, hm, ha]
  rw [readAt, strong_cached h, hdevice, if_neg ha]
  rfl

theorem writeAt_cached {c : CoreId} {pa n v : Nat} {pg : Page} {bad : Bool} {va : DWord} (h : cachedIn pa pg = true) :
    writeAt c (.mem pa pg) n v bad va = writeLoc c (.mem pa pg) n v bad va := by
  rw [writeAt, strong_cached h, if_neg (cachedIn_iff.1 h).2.2]

/-! ### Loads -/

/-- R194, R219: the field of the fresh line, at each size. -/
theorem cachedLoads : Parts.CachedLoads := by
  intro s rt rs1 imm pa pg l hd hp hc hl hf hpsn f hmem hal v
  obtain ⟨hn, hexec⟩ := exec_of_mem_loads hmem
  have hfield : lineField l.data l.psn (pa % 128) f.2.1 = (v, false) := by
    rw [lineField, hpsn, Nat.shiftRight_eq_div_pow]
    simp [v]
  have hload : loadScalar s.cur (eaOf (here s) rs1 imm) f.2.1 s = .ok v s := by
    rw [loadScalar, beq_iff_eq.2 hal, require_true, M.pure_bind_run, M.bind_ok (translate_onPage hp _), readAt_cached hc,
      M.bind_ok (readLoc_fresh hc (lodge_onPage hp) hl hf _ _), hfield]
    rfl
  rw [hexec, load_ok (gateRead_drained hd _ _) hload rfl, extendTo_eq hn (Nat.mod_lt _ (Nat.two_pow_pos _))]

/-! ### Room for a line (R38, R182) -/

/-- Whether a line that an access of a page without a lodge takes stands in the lodge partition. -/
def lodged (k : Core) (line : Nat) : Bool := match k.l1.find line with | some l => l.lodge | none => false

/-- A core whose L1 holds a line, or has room for one more, has its place. -/
theorem l1Place_of_room {k : Core} {line : Nat}
    (h : k.l1.length + k.homes.length < 32 * (256 - k.tregs.bndc.toNat) ∨ (k.l1.find line).isSome = true) :
    l1Place k line (lodged k line) = true := by
  rw [l1Place, lodged]
  cases hl : k.l1.find line with
  | some l => simp
  | none =>
    have hlen : (partLines k false).length ≤ k.l1.length := List.length_filter_le ..
    have hroom : k.l1.length + k.homes.length < 32 * (256 - k.tregs.bndc.toNat) := h.resolve_right (by simp [hl])
    have hplace : l1Room k = true := decide_eq_true (by rw [l1Capacity]; omega)
    simpa [inLodge] using hplace

section
variable {s : State} {c : CoreId} {line : Nat} {pg : Page}

theorem roomL1_place {lodge : Bool} (h : l1Place (getCore s c) line lodge = true) : roomL1 s c line lodge = s := if_pos h

/-- Room that an access of a page without a lodge finds, or that an eviction has made for it. -/
theorem roomFor_ok (hg : pg.lodge = false) (va : DWord)
    (h : l1Place (getCore (roomL1 s c line (lodged (getCore s c) line)) c) line (lodged (getCore s c) line) = true) :
    roomFor c line pg va s = .ok () (roomL1 s c line (lodged (getCore s c) line)) := by
  rw [roomFor, M.modify_bind, lodgeLine_off s c line hg, M.get_bind, hg]
  change (if l1Place (getCore s c) line (lodged (getCore s c) line) then _ else _ : M Unit) s = _
  split
  · rename_i hplace
    rw [roomL1_place hplace]
    rfl
  · rw [M.modify_bind, M.get_bind]
    exact congrFun (if_pos h) _

/-- An access that finds no room waits, where no home refuses for good (log 53). -/
theorem roomFor_wait (hg : pg.lodge = false) (va : DWord)
    (h : l1Place (getCore (roomL1 s c line (lodged (getCore s c) line)) c) line (lodged (getCore s c) line) = false)
    (hr : roomRefused (roomL1 s c line (lodged (getCore s c) line)) c (lodged (getCore s c) line) = none) :
    roomFor c line pg va s = .error .wait (roomL1 s c line (lodged (getCore s c) line)) := by
  rw [roomFor, M.modify_bind, lodgeLine_off s c line hg, M.get_bind, hg]
  change (if l1Place (getCore s c) line (lodged (getCore s c) line) then _ else _ : M Unit) s = _
  split
  · rename_i hplace
    rw [roomL1_place hplace, hplace] at h
    exact absurd h (by decide)
  · rw [M.modify_bind, M.get_bind]
    refine (congrFun (if_neg (Bool.eq_false_iff.1 h)) _).trans ?_
    change (match roomRefused (roomL1 s c line (lodged (getCore s c) line)) c (lodged (getCore s c) line) with
      | some (_, .die d) => raise .dieLost (BitVec.ofNat 64 d)
      | some (_, .notReady) => raise .protect va
      | _ => waitHere : M Unit) _ = _
    rw [hr]
    rfl

end

/-! ### A line written (R194) -/

/-- The line of a core's L1 as a write of some bytes leaves it. -/
def writtenLine (k : Core) (line : Nat) (pg : Page) (d : BitVec 1024) (mask : BitVec 128) (p : BitVec 32) : L1Line :=
  let l := (k.l1.find line).getD (L1Line.absent pg k.cregs.lease1 pg.lodge)
  { l with data := mergeBytes l.data d mask, dirty := l.dirty ||| mask, psn := mergePsn l.psn p mask, writer := ownerOf k
           bad := l.bad &&& ~~~(fullBlocks mask) }

/-- A core with a line of its L1 replaced. -/
def withLine (line : Nat) (l : L1Line) (k : Core) : Core := { k with l1 := k.l1.put line l }

theorem writeL1_eq (s : State) (c : CoreId) (line : Nat) (pg : Page) (d : BitVec 1024) (mask : BitVec 128) (p : BitVec 32) :
    writeL1 s c line pg d mask p = updCore s c (withLine line (writtenLine (getCore s c) line pg d mask p)) := rfl

theorem slice_writtenLine (k : Core) (line : Nat) (pg : Page) {o n v : Nat} (p : BitVec 32) {i : Nat} (hi : i < 128) :
    (slice (writtenLine k line pg (placeBytes o (v % 2 ^ (8 * n))) (byteMask o n) p).data (8 * i) 8 : Byte) =
      if o ≤ i ∧ i < o + n then BitVec.ofNat 8 (v / 2 ^ (8 * (i - o)))
      else match k.l1.find line with | some m => slice m.data (8 * i) 8 | none => 0 := by
  rw [writtenLine, slice_mergeBytes _ _ _ hi, bitAt_byteMask hi]
  by_cases h : o ≤ i ∧ i < o + n
  · simp only [decide_eq_true h, if_true, if_pos h]
    rw [slice_placeBytes _ h.1 hi, byte_of_low_bytes (by omega)]
  · simp only [decide_eq_false h, Bool.false_eq_true, if_false, if_neg h]
    cases k.l1.find line with
    | some m => rfl
    | none => simp [L1Line.absent, slice]

theorem dirty_writtenLine (k : Core) (line : Nat) (pg : Page) {o n : Nat} (d : BitVec 1024) (p : BitVec 32) {i : Nat} (hi : i < 128) :
    bitAt (writtenLine k line pg d (byteMask o n) p).dirty i = true ↔
      (o ≤ i ∧ i < o + n) ∨ ∃ m, k.l1.find line = some m ∧ bitAt m.dirty i = true := by
  rw [writtenLine, bitAt_or, bitAt_byteMask hi, Bool.or_eq_true, decide_eq_true_eq, or_comm]
  refine or_congr Iff.rfl ?_
  cases k.l1.find line with
  | some m => simp
  | none => simp [L1Line.absent, bitAt]

/-! ### Stores -/

/-- What a store to a line of L1 that has its place leaves, before its core goes on. -/
def lineStored (s : State) (c : CoreId) (pa n v : Nat) (pg : Page) : State :=
  markWatched (writeL1 s c (lineOf pa) pg (placeBytes (pa % 128) v) (byteMask (pa % 128) n) (fieldMarks (pa % 128) n false)) c pg.region

/-- What it leaves: its core has gone on. -/
def pastLineStore (s : State) (c : CoreId) (pa n v : Nat) (pg : Page) : State := updCore (lineStored s c pa n v pg) c fun k => retire k 4

section
variable {s s0 : State} {rt rs1 : BitVec 5} {imm : BitVec 12} {pa n : Nat} {pg : Page} (hal : (eaOf (here s) rs1 imm).toNat % n = 0)
  (hp : OnPage s (eaOf (here s) rs1 imm) .write pa pg) (hc : cachedIn pa pg = true)
include hal hp hc

/-- A store to a cached page does what its write to L1 does. -/
theorem storeScalar_cached {r : EStateM.Result Stop State Unit}
    (h : writeLoc s.cur (.mem pa pg) n ((getS (here s) rt).toNat % 2 ^ (8 * n)) false (eaOf (here s) rs1 imm) s = r) :
    storeScalar s.cur (eaOf (here s) rs1 imm) n (getS (here s) rt) s = r := by
  rw [storeScalar, beq_iff_eq.2 hal, require_true, M.pure_bind_run, M.bind_ok (translate_onPage hp _), writeAt_cached hc, h]

/-- A store to a cached page whose line has room goes on past the line that it has written. -/
theorem store_cached_ok (hd : Drained (here s)) (h : roomFor s.cur (lineOf pa) pg (eaOf (here s) rs1 imm) s = .ok () s0) (hcur : s0.cur = s.cur) :
    store n rt rs1 imm s = .next (pastLineStore s0 s.cur pa n ((getS (here s) rt).toNat % 2 ^ (8 * n)) pg) := by
  have hcur' (v : Nat) : (lineStored s0 s.cur pa n v pg).cur = s.cur := (markWatched_cur ..).trans hcur
  have hwrite : writeLoc s.cur (.mem pa pg) n ((getS (here s) rt).toNat % 2 ^ (8 * n)) false (eaOf (here s) rs1 imm) s =
      .ok () (lineStored s0 s.cur pa n ((getS (here s) rt).toNat % 2 ^ (8 * n)) pg) := by
    rw [writeLoc]
    dsimp only
    rw [if_pos hc, M.bind_ok h]
    rfl
  rw [store_ok (gateWrite_drained hd _ n) (storeScalar_cached hal hp hc hwrite), hcur']
  rfl

/-- A store to a cached page whose line finds no room waits. -/
theorem store_cached_wait (hd : Drained (here s)) (h : roomFor s.cur (lineOf pa) pg (eaOf (here s) rs1 imm) s = .error .wait s0) :
    store n rt rs1 imm s = .next s0 := by
  refine control_wait ?_
  rw [M.theCore_bind, M.bind_ok (gateWrite_drained hd _ n)]
  refine storeScalar_cached hal hp hc ?_
  rw [writeLoc]
  dsimp only
  rw [if_pos hc, M.bind_error h]

end

/-- The line that a store of a value leaves in a core. -/
def storedLine (k : Core) (pa n v : Nat) (pg : Page) : L1Line :=
  writtenLine k (lineOf pa) pg (placeBytes (pa % 128) v) (byteMask (pa % 128) n) (fieldMarks (pa % 128) n false)

/-- A store to a line of L1 changes the line, and its mark of the region, alone. -/
theorem getCore_pastLineStore (s : State) (c : CoreId) (pa n v : Nat) (pg : Page) :
    ∃ m, getCore (pastLineStore s c pa n v pg) c =
      retire (withMarks m (withLine (lineOf pa) (storedLine (getCore s c) pa n v pg) (getCore s c))) 4 := by
  obtain ⟨m, hm⟩ := getCore_markWatched
    (writeL1 s c (lineOf pa) pg (placeBytes (pa % 128) v) (byteMask (pa % 128) n) (fieldMarks (pa % 128) n false)) c pg.region
  refine ⟨m, (getCore_updCore_self ..).trans (congrArg (retire · 4) (hm.trans (congrArg (withMarks m) ?_)))⟩
  rw [writeL1_eq, getCore_updCore_self]
  rfl

theorem getCore_pastLineStore_other (s : State) {c d : CoreId} (pa n v : Nat) (pg : Page) (hd : d ≠ c) :
    getCore (pastLineStore s c pa n v pg) d = getCore s d := by
  rw [pastLineStore, getCore_updCore_other _ _ _ _ hd, lineStored, getCore_markWatched_other _ _ _ hd, writeL1_eq,
    getCore_updCore_other _ _ _ _ hd]

/-- R182, R194, R219: room, the wait without room, and the line written. -/
theorem cachedStores : Parts.CachedStores := by
  intro s rt rs1 imm pa pg hd hp hc f hf hal hpa o lodge s0 k0 old
  obtain ⟨-, hexec⟩ := exec_of_mem_stores hf
  refine ⟨fun h => roomL1_place (l1Place_of_room h), fun hplace hr => ?_, fun hcur hplace => ?_⟩
  · rw [hexec]
    exact store_cached_wait hal hp hc hd (roomFor_wait (lodge_onPage hp) _ hplace hr)
  let v := (getS (here s) rt).toNat % 2 ^ (8 * f.2)
  have hcur' : (pastLineStore s0 s.cur pa f.2 v pg).cur = s.cur := (markWatched_cur ..).trans hcur
  obtain ⟨m, hm⟩ := getCore_pastLineStore s0 s.cur pa f.2 v pg
  have hhere : here (pastLineStore s0 s.cur pa f.2 v pg) =
      retire (withMarks m (withLine (lineOf pa) (storedLine k0 pa f.2 v pg) k0)) 4 := by rw [here, hcur', hm]
  refine ⟨pastLineStore s0 s.cur pa f.2 v pg, storedLine k0 pa f.2 v pg,
    (hexec s).trans (store_cached_ok hal hp hc hd (roomFor_ok (lodge_onPage hp) _ hplace) hcur), ?_, fun i hi => ?_, fun i hi => ?_, fun n hne => ?_,
    ?_, ?_, ?_, fun c hne => getCore_pastLineStore_other s0 pa f.2 v pg hne, ?_, ?_, ?_⟩
  · rw [hhere, retire_l1]
    exact Tab.find_put_self ..
  · exact slice_writtenLine k0 (lineOf pa) pg _ hi
  · exact dirty_writtenLine k0 (lineOf pa) pg _ _ hi
  · rw [hhere, retire_l1]
    exact Tab.find_put_other _ _ _ _ hne
  · exact markWatched_store ..
  · exact markWatched_l2 ..
  · exact markWatched_hub ..
  · rw [hhere, retire_homes]; rfl
  · rw [hhere, retire_files]; rfl
  · rw [hhere, retire_pc]; rfl

/-- Settles O21, by the field of a fresh line and by the line that a store leaves. -/
theorem cachedAccesses : Obligations.CachedAccesses := ⟨cachedLoads, cachedStores⟩

end Sys2Proof.Machine

/-! ## An `aadd` on a partial wider than its word (R203, R227, R228) -/

namespace Sys2Proof.Machine

/-- The leaf of the page at 0x70000: R, W, X and U, HOME 00, MTYPE normal, region 0 (R184). -/
def wideLeaf : DWord := BitVec.ofNat 64 (1 + 2 + 4 + 8 + 16 + 2 ^ 11 + 7 * 2 ^ 20)

/-- That page in the TLB. -/
def wideTlb : TlbEntry := { asid := 0, tenant := 0, base := 0x70000, bits := 16, leaf := wideLeaf }

/-- A partial of region 0 whose value has bit 33 set. -/
def widePartial : Partial := { op := 0, fmt := 6, val := BitVec.ofNat 64 (2 ^ 33), region := 0, ac := 0, writer := 0 }

/-- A core that declares region 0 for add on INT32, and holds that partial of the word at 0x70088, to which `s3` points. -/
def widePartialCore : Core :=
  setS { Core.reset with
    level := .task
    tables := { Core.reset.tables with tlb := [wideTlb], decls := [(0, (0, 6))] }
    partials := [(0x70088 / 4, widePartial)] } 3 0x70088

/-- The package after reset with that core. -/
def widePartialState : State := setCore State.reset 0 widePartialCore

/-- What an `aadd` of `s2` to the word at `s3` writes to `s5`. -/
def aaddAnswer (s : State) : Option DWord :=
  match exec (.aadd ⟨.task, .rlx⟩ 5 3 0 2) s with
  | .next t => some (getS (here t) 5)
  | _ => none

theorem drained_widePartialState : Drained (here widePartialState) :=
  have h : (here widePartialState).streams.rep.run = none ∧ (here widePartialState).streams.deferred = [] ∧
      (here widePartialState).streams.vq = [] ∧ (here widePartialState).streams.mq = [] := by decide +kernel
  ⟨⟨h.1, h.2.1⟩, h.2.2.1, h.2.2.2⟩

/-- The address of the `aadd`. -/
theorem address_widePartialState : getS (here widePartialState) ((3 : BitVec 3).setWidth 5) + (0 : BitVec 3).setWidth 64 * 4 = 0x70088 := by
  decide +kernel

theorem tlb_widePartialState :
    (here widePartialState).tables.tlb.find? (fun t => t.covers (here widePartialState).tregs.asid 0x70088) = some wideTlb := by
  decide +kernel

theorem onPage_widePartialState : OnPage widePartialState 0x70088 .both 0x70088 (pageOf wideLeaf 16) where
  hit := ⟨wideLeaf, 16, ⟨by decide, wideTlb, tlb_widePartialState, rfl, rfl⟩, rfl, by decide +kernel⟩
  allowed := by decide +kernel
  memory := by decide +kernel

theorem declared_widePartialState : declared (here widePartialState) (.mem 0x70088 (pageOf wideLeaf 16)) = some (.add, 0, .int32) := by
  decide +kernel

theorem regions_widePartialState : widePartialState.hub.regs.regions.find (pageOf wideLeaf 16).region.toNat = none := by decide +kernel

theorem partial_widePartialState : (here widePartialState).partials.find (0x70088 / 4) = some widePartial := by decide +kernel

theorem aaddAnswer_widePartialState : aaddAnswer widePartialState = some (BitVec.ofNat 64 (2 ^ 32)) := by decide +kernel

/-- Settles O26 by its negation: a partial of the model has 64 bits, and nothing in the statement bounds the one that stands. The answer is
its value less 2^32 where that is not below 2^31, and so not the sign extension of its low word: with bit 33 alone set it is 2^32, where the
statement asks for 0. -/
theorem not_atomicsOnPartials : ¬ Obligations.AtomicsOnPartials := by
  unfold Obligations.AtomicsOnPartials
  intro h
  have hs := h widePartialState .task 5 3 0 2 0x70088 (pageOf wideLeaf 16) 0
  rw [address_widePartialState, partial_widePartialState] at hs
  obtain ⟨t, ht, -, hrd, -⟩ := hs drained_widePartialState (by decide) onPage_widePartialState declared_widePartialState
    (fun r hr => by rw [regions_widePartialState] at hr; cases hr)
  have hanswer : some (getS (here t) 5) = some (BitVec.ofNat 64 (2 ^ 32)) := by
    rw [← aaddAnswer_widePartialState, aaddAnswer, ht]
  have hclaim : getS (here t) 5 = 0 := (hrd (by decide)).trans (by decide)
  rw [hclaim] at hanswer
  exact absurd hanswer (by decide)

end Sys2Proof.Machine

/-! ## Pushes that find their way, or do not (R199, R374 to R377, R389, R393) -/

namespace Sys2Proof.Machine

/-! ### Before the pushes of an instruction -/

/-- No push that was made for a core, or by it, has failed. -/
def NoFailedPush (s : State) (c : CoreId) : Prop := ∀ m ∈ s.hub.pushes, m.failed = true → m.core ≠ c ∧ m.cause ≠ c

/-- The first failed push of a core (R377). -/
def failedPush (s : State) (c : CoreId) : Option PushMsg := s.hub.pushes.find? fun m => m.failed && (m.core == c || m.cause == c)

theorem failedPush_none {s : State} {c : CoreId} (h : NoFailedPush s c) : failedPush s c = none :=
  List.find?_eq_none.2 fun m hm => by
    by_cases hf : m.failed = true
    · obtain ⟨hcore, hcause⟩ := h m hm hf
      simp [hcore, hcause]
    · simp [hf]

/-- The push that a home refuses first. -/
def firstRefused (s : State) (l : List (CoreId × Push)) : Option (Nat × Option Refused) := (pushTargets s l).find? fun e => e.2.isSome

theorem firstRefused_none {s : State} {l : List (CoreId × Push)} (h : ∀ e ∈ pushTargets s l, e.2 = none) : firstRefused s l = none :=
  List.find?_eq_none.2 fun e he => by simp [h e he]

/-- A trap whose EINFO no rule names carries a free value (log 49). -/
theorem raise_fresh {α : Type} (x : Cause) (s : State) :
    ∃ n einfo, (freshDWord >>= fun v => raise x v : M α) s = .error (.trap (trapInfo x einfo)) { s with free := n } := ⟨_, _, rfl⟩

section
variable {s : State} {c : CoreId} {l : List (CoreId × Push)}

/-- A push whose third reissue has timed out ends the instruction, and is dropped. -/
theorem pushReady_failed {m : PushMsg} (h : failedPush s c = some m) :
    ∃ n einfo, pushReady c l s = .error (.trap (trapInfo .remoteTimeout einfo))
      { s with hub := { s.hub with pushes := s.hub.pushes.filter fun x => x != m }, free := n } := by
  rw [failedPush] at h
  simp only [pushReady, M.get_bind, h, M.modHub_bind]
  exact raise_fresh .remoteTimeout { s with hub := { s.hub with pushes := s.hub.pushes.filter fun x => x != m } }

section
variable (hf : failedPush s c = none)
include hf

theorem pushReady_die {line d : Nat} (h : firstRefused s l = some (line, some (.die d))) :
    pushReady c l s = .error (.trap (trapInfo .dieLost (BitVec.ofNat 64 d))) (markDie s c (16 + mdOf line)) := by
  rw [failedPush] at hf
  rw [firstRefused] at h
  simp only [pushReady, M.get_bind, hf, h, M.modify_bind, M.raise_run]

theorem pushReady_notReady {line : Nat} (h : firstRefused s l = some (line, some .notReady)) :
    ∃ n einfo, pushReady c l s = .error (.trap (trapInfo .protect einfo)) { s with free := n } := by
  rw [failedPush] at hf
  rw [firstRefused] at h
  simp only [pushReady, M.get_bind, hf, h]
  exact raise_fresh .protect s

theorem pushReady_gangBroken {line : Nat} {t : CoreId} (h : firstRefused s l = some (line, some (.fenced t)))
    (hg : fencedCause s c t = .gangBroken) :
    pushReady c l s = .error (.trap (trapInfo .gangBroken (BitVec.ofNat 64 (coordBits t)))) s := by
  rw [failedPush] at hf
  rw [firstRefused] at h
  simp only [pushReady, M.get_bind, hf, h, hg, M.raise_run]

theorem pushReady_fenced {line : Nat} {t : CoreId} (h : firstRefused s l = some (line, some (.fenced t)))
    (hg : fencedCause s c t ≠ .gangBroken) :
    ∃ n einfo, pushReady c l s = .error (.trap (trapInfo .protect einfo)) { s with free := n } := by
  rw [failedPush] at hf
  rw [firstRefused] at h
  simp only [pushReady, M.get_bind, hf, h]
  exact raise_fresh .protect s

theorem pushReady_held {line : Nat} (h : firstRefused s l = some (line, some .held)) :
    pushReady c l s = .error .wait (noteLate s line) := by
  rw [failedPush] at hf
  rw [firstRefused] at h
  simp only [pushReady, M.get_bind, hf, h, M.modify_bind, M.wait_run]

/-- Where links can lose flits the pushes are made, and the instruction waits while one is outstanding (R376). -/
theorem pushReady_lossy (h : firstRefused s l = none) (hq : linksQuiet s = false) (hp : pushPending (sendPushes s c l) c = true) :
    pushReady c l s = .error .wait (sendPushes s c l) := by
  rw [failedPush] at hf
  rw [firstRefused] at h
  simp only [pushReady, M.get_bind, hf, h, hq, Bool.false_eq_true, if_false, M.modify_bind, hp, Bool.not_true, Bool.false_and, awaitThat_false,
    M.wait_run]

end

theorem noFailedPush_of_quiet (h : linksQuiet s = true) : NoFailedPush s c := by
  intro m hm
  rw [linksQuiet, Bool.and_eq_true, List.isEmpty_iff] at h
  rw [h.1] at hm
  cases hm

/-- Free pushes hold nothing back. -/
theorem pushReady_ok (h : PushFree s l) : pushReady c l s = .ok () s := by
  have hf := failedPush_none (noFailedPush_of_quiet (c := c) h.quiet)
  have hr := firstRefused_none h.taken
  rw [failedPush] at hf
  rw [firstRefused] at hr
  simp only [pushReady, M.get_bind, hf, hr, h.quiet, if_true, M.pure_run]

theorem pushAll_ok (h : PushFree s l) (hl : pushesLeft (sendPushes s c l) c l = false) : pushAll c l s = .ok () (sendPushes s c l) := by
  rw [pushAll, M.bind_ok (pushReady_ok h), M.modify_bind, M.get_bind, hl]
  rfl

end

/-! ### Releases (R199, R230, R295) -/

theorem gateAll_drained {s : State} {c : CoreId} (h : Drained (getCore s c)) : gateAll c s = .ok () s := by
  rw [gateAll, M.bind_ok (memGate_quiet h.toQuiet), M.theCore_bind]
  simp [queued, h.noVector, h.noMatrix]

/-- What a turn leaves of a release is what is left of its pushes. -/
theorem releaseTurn_over {s : State} {c : CoreId} {sc : Scope} {r : Regions} {op : SyncOp} :
    (releaseTurn s c sc r op).2 = none ↔ releaseLeft (release s c sc r) c sc r = false := by
  rw [releaseTurn]
  cases releaseLeft (release s c sc r) c sc r <;> simp

/-- A free release is performed at once. -/
theorem releaseNow_ok {s : State} {c : CoreId} {sc : Scope} {r : Regions} (h : ReleaseFree s c sc r) :
    releaseNow c sc r s = .ok () (release s c sc r) := by
  have hready : releaseReady c sc r s = .ok () s := pushReady_ok h.toPushFree
  rw [releaseNow, M.bind_ok hready, M.modify_bind, M.get_bind, releaseTurn_over.1 h.done]
  rfl

@[simp] theorem sendPushes_cur (s : State) (c : CoreId) (l : List (CoreId × Push)) : (sendPushes s c l).cur = s.cur :=
  foldl_cur (f := fun s (p : CoreId × Push) => sendPush s c p.1 p.2) (fun s p => sendPush_cur s c p.1 p.2) l s

@[simp] theorem bumpMarks_cur (s : State) (c : CoreId) (r : Regions) : (bumpMarks s c r).cur = s.cur := by
  rw [bumpMarks]
  dsimp only
  split
  · rfl
  · exact foldl_cur (fun s g => by split <;> simp) _ s

@[simp] theorem release_cur (s : State) (c : CoreId) (sc : Scope) (r : Regions) : (release s c sc r).cur = s.cur := by
  have hcopies : (releaseCopies s c sc r).cur = s.cur := by
    rw [releaseCopies]
    split <;> simp
  rw [release]
  split <;> simp [hcopies]

end Sys2Proof.Machine

/-! ## Launches (R214, R269, R384, log 31) -/

namespace Sys2Proof.Machine

/-- Whether the context of a block belongs to another tenant than a core's. -/
def otherTenant (k : Core) : Option Context → Bool
  | some x => x.tenant != k.tregs.tenant
  | none => false

/-- What a `launch` of a block does once its release is over: the block is checked, and its address pushed (R269, R384). -/
def launchBlock (c : CoreId) (k : Core) (va : DWord) : M DWord := do
  let pa ← blockAddr c va
  let ctx ← readImage c (va + 16) 2
  require (!otherTenant k (findContext (← get) (BitVec.ofNat 16 ctx))) .protect va
  let s ← get
  awaitThat (fifoRoom s && s.hub.fifoHeld.isEmpty)
  modify fun s => pushFifo s (BitVec.ofNat 64 pa)
  return (← get).hub.regs.lcount

/-- A `launch` that nothing holds back releases first (R214, log 31). -/
theorem exec_launch {s : State} {rd rs1 : BitVec 5} (hd : Drained (here s)) (hr : ReleaseFree s s.cur .sys allRegions) :
    let s0 := release s s.cur .sys allRegions
    let k := getCore s0 s.cur
    ∃ m, exec (.launch rd rs1) s = controlTo rd m s ∧ m s.cur s = launchBlock s.cur k (getS k rs1) s0 := by
  intro s0 k
  have hexec : exec (.launch rd rs1) s = execLaunch rd rs1 s := rfl
  rw [hexec, execLaunch]
  refine ⟨_, rfl, ?_⟩
  rw [M.bind_ok (gateAll_drained hd), M.bind_ok (releaseNow_ok hr), M.theCore_bind]
  rfl

section
variable {s0 s1 s2 : State} {c : CoreId} {k : Core} {va : DWord} {pa ctx : Nat}

theorem launchBlock_misaligned (h : va.toNat % 128 ≠ 0) : launchBlock c k va s0 = .error (.trap (trapInfo .misalign va)) s0 := by
  have hblock : blockAddr c va s0 = .error (.trap (trapInfo .misalign va)) s0 := by
    rw [blockAddr, beq_eq_false_iff_ne.2 h, require_false, M.raise_bind]
  rw [launchBlock, M.bind_error hblock]

section
variable (hb : blockAddr c va s0 = .ok pa s1) (hi : readImage c (va + 16) 2 s1 = .ok ctx s2)
include hb hi

/-- A block of a context of another tenant (R269). -/
theorem launchBlock_foreign {x : Context} (hx : findContext s2 (BitVec.ofNat 16 ctx) = some x) (ht : x.tenant ≠ k.tregs.tenant) :
    launchBlock c k va s0 = .error (.trap (trapInfo .protect va)) s2 := by
  rw [launchBlock, M.bind_ok hb, M.bind_ok hi, M.get_bind, hx]
  simp only [otherTenant, bne_iff_ne.2 ht, Bool.not_true, require_false, M.raise_bind]

variable (ht : ∀ x, findContext s2 (BitVec.ofNat 16 ctx) = some x → x.tenant = k.tregs.tenant)
include ht

/-- A block of the own tenant goes into the FIFO as soon as that has room (R384). -/
theorem launchBlock_own : launchBlock c k va s0 =
    if fifoRoom s2 && s2.hub.fifoHeld.isEmpty then .ok (s2.hub.regs.lcount + 1) (pushFifo s2 (BitVec.ofNat 64 pa)) else .error .wait s2 := by
  have hother : otherTenant k (findContext s2 (BitVec.ofNat 16 ctx)) = false := by
    cases hx : findContext s2 (BitVec.ofNat 16 ctx) with
    | some x => simp [otherTenant, ht x hx]
    | none => rfl
  rw [launchBlock, M.bind_ok hb, M.bind_ok hi, M.get_bind, hother]
  rw [Bool.not_false, require_true, M.pure_bind_run, M.get_bind]
  cases fifoRoom s2 && s2.hub.fifoHeld.isEmpty <;> rfl

end
end

/-- Settles O43: the release, and then the block by its address, its owner and the room in the FIFO. -/
theorem launchPushes : Obligations.LaunchPushes := by
  intro s s1 s2 rd rs1 pa ctx hd hr s0 k va
  obtain ⟨m, hexec, hm⟩ := exec_launch (rd := rd) (rs1 := rs1) hd hr
  rw [hexec]
  refine ⟨fun hal => controlTo_trap (hm.trans (launchBlock_misaligned hal)), fun _ hb hi => ?_⟩
  refine ⟨fun ⟨x, hx, ht⟩ => controlTo_trap (hm.trans (launchBlock_foreign hb hi hx ht)), fun ht => ?_⟩
  have hrun := hm.trans (launchBlock_own hb hi ht)
  refine ⟨fun hroom hheld => ?_, fun hfull => ?_⟩
  · have hfree : (fifoRoom s2 && s2.hub.fifoHeld.isEmpty) = true := by simp [fifoRoom, hroom, hheld]
    rw [hfree, if_pos rfl] at hrun
    exact control_ok (M.bind_ok hrun)
  · have hfull : (fifoRoom s2 && s2.hub.fifoHeld.isEmpty) = false := by
      rcases hfull with h | h <;> simp [fifoRoom, h]
    rw [hfull, if_neg Bool.false_ne_true] at hrun
    exact controlTo_wait hrun

end Sys2Proof.Machine

/-! ## Drains and prefetches (R213, R233, R234) -/

namespace Sys2Proof.Machine

/-- R213, R233: the copies are all done, or one is not. -/
theorem drainWaitsForCopies : Parts.DrainWaitsForCopies := by
  intro s kind hq xs pushes s1
  change (_ → _ → _ → execDrain kind s = _) ∧ (_ → execDrain kind s = _)
  rw [execDrain]
  refine ⟨fun hdone hfree hleft => ?_, fun hdone => ?_⟩
  · refine control_ok ?_
    rw [M.bind_ok (memGate_quiet hq), M.get_bind, hdone, awaitThat_true, M.pure_bind_run, M.get_bind, M.bind_ok (pushAll_ok hfree hleft)]
    rfl
  · refine control_wait ?_
    rw [M.bind_ok (memGate_quiet hq), M.get_bind, hdone, awaitThat_false, M.wait_bind]

/-- An attempt that stops goes on with what catches the stop, in the state that it has left. -/
theorem M.tryCatch_error {α : Type} {m : M α} {f : Stop → M α} {s s' : State} {e : Stop} (h : m s = .error e s') : tryCatch m f s = f e s' := by
  change EStateM.tryCatch m f s = _
  rw [EStateM.tryCatch]
  simp only [h]
  rfl

section
variable {s s' : State} {c : CoreId} {l2 : Bool} {va : DWord}

/-- A prefetch always goes on (R234). -/
theorem prefetch_goes_on (c : CoreId) (l2 : Bool) (va : DWord) (s : State) : ∃ t, prefetch c l2 va s = .ok () t := by
  rw [prefetch]
  generalize hm : (translate c va 1 .read >>= _ : M Unit) = m
  cases h : m s with
  | ok a t => exact ⟨t, M.tryCatch_ok h⟩
  | error e t => exact ⟨_, M.tryCatch_error h⟩

/-! ### Checks that change nothing -/

/-- A meaning that changes nothing, whether it answers or stops. -/
def OnlyReads {α : Type} (m : M α) : Prop := ∀ s, (∃ a, m s = .ok a s) ∨ ∃ e, m s = .error e s

theorem onlyReads_pure {α : Type} (a : α) : OnlyReads (pure a : M α) := fun _ => .inl ⟨a, rfl⟩

theorem onlyReads_raise {α : Type} (x : Cause) (v : DWord) : OnlyReads (raise x v : M α) := fun _ => .inr ⟨_, rfl⟩

theorem onlyReads_get : OnlyReads (get : M State) := fun s => .inl ⟨s, rfl⟩

theorem onlyReads_theCore (c : CoreId) : OnlyReads (theCore c) := fun _ => .inl ⟨_, rfl⟩

theorem OnlyReads.bind {α β : Type} {m : M α} {f : α → M β} (hm : OnlyReads m) (hf : ∀ a, OnlyReads (f a)) : OnlyReads (m >>= f) := by
  intro s
  rcases hm s with ⟨a, h⟩ | ⟨e, h⟩
  · rw [M.bind_ok h]
    exact hf a s
  · exact .inr ⟨e, M.bind_error h⟩

theorem onlyReads_ite {α : Type} {p : Prop} [Decidable p] {m n : M α} (hm : OnlyReads m) (hn : OnlyReads n) : OnlyReads (if p then m else n) := by
  split
  · exact hm
  · exact hn

theorem onlyReads_require (b : Bool) (x : Cause) (v : DWord) : OnlyReads (require b x v) := onlyReads_ite (onlyReads_pure ()) (onlyReads_raise x v)

theorem onlyReads_reachCore (c t : CoreId) (va : DWord) : OnlyReads (reachCore c t va) := by
  refine onlyReads_get.bind fun s => ?_
  cases lostWay s c t with
  | some d => exact (onlyReads_raise _ _).bind fun _ => onlyReads_ite (by split <;> exact onlyReads_raise _ _) (onlyReads_pure ())
  | none => exact onlyReads_ite (by split <;> exact onlyReads_raise _ _) (onlyReads_pure ())

theorem onlyReads_checkScratch (c t : CoreId) (off n : Nat) (va : DWord) : OnlyReads (checkScratch c t off n va) :=
  (onlyReads_reachCore c t va).bind fun _ => (onlyReads_theCore c).bind fun _ => (onlyReads_theCore t).bind fun _ =>
    (onlyReads_require _ _ _).bind fun _ => onlyReads_require _ _ _

/-- A read of the own window is one of the core's own scratchpad, once that has passed its checks (R191, R192). -/
theorem translate_window (s : State) (c : CoreId) {off : Nat} (hoff : off < 2 ^ 42) (n : Nat) :
    translate c (ownAddr off) n .read s = (checkScratch c c off n (ownAddr off) >>= fun _ => pure (ownLoc c off)) s := by
  obtain ⟨hwin, hfield, hlow⟩ := slice_ownAddr hoff
  rw [translate, M.theCore_bind, if_pos hwin, hfield, hlow]
  rfl

/-! ### Prefetches -/

/-- A core without an outstanding operation is as it was where none is set. -/
theorem putRemote_none {k : Core} (h : LinkFree k) : putRemote k none = k := by
  have hkey : streamKey k = 0 := by simp [streamKey, h.control]
  rw [putRemote, if_pos hkey, ← h.noRemote]

/-- A prefetch that its translation stops leaves its core without an outstanding operation. -/
theorem prefetch_stopped {e : Stop} (h : translate c va 1 .read s = .error e s') :
    prefetch c l2 va s = .ok () (updCore s' c fun k => putRemote k none) := M.tryCatch_error (M.bind_error h)

theorem prefetch_window {t : CoreId} {off : Nat} {g : Byte} {pg : Option Page} (h : translate c va 1 .read s = .ok (.sram t off g pg) s') :
    prefetch c l2 va s = .ok () s' := M.tryCatch_ok (M.bind_ok h)

theorem exec_pref (hq : Quiet (here s)) {rs1 : BitVec 5} (h : prefetch s.cur l2 (getS (here s) rs1) s = .ok () s') :
    exec (.pref l2 rs1) s = .next (updCore s' s'.cur fun k => retire k 4) := by
  change execPref l2 rs1 s = _
  rw [execPref]
  refine control_ok ?_
  rw [M.bind_ok (memGate_quiet hq), M.theCore_bind, h]

/-- A `pref` that its translation stops, without having changed anything, only goes on. -/
theorem exec_pref_stopped (hq : Quiet (here s)) (hl : LinkFree (here s)) {rs1 : BitVec 5} {e : Stop}
    (h : translate s.cur (getS (here s) rs1) 1 .read s = .error e s) : exec (.pref l2 rs1) s = commits s id := by
  rw [exec_pref hq (prefetch_stopped h), updCore_cur, updCore_updCore]
  exact congrArg Host.Outcome.next (updCore_congr (by rw [putRemote_none hl]; rfl))

end

/-- A cached page is no device page (R189). -/
theorem isDevice_of_cachedIn {pa : Nat} {pg : Page} (h : cachedIn pa pg = true) : isDevice pa pg = false := by
  obtain ⟨hm, -, ha⟩ := cachedIn_iff.1 h
  simp [isDevice, hm, ha]

/-- R234: the window, the page that refuses, and the fresh line. -/
theorem prefetchNeverFaults : Parts.PrefetchNeverFaults := by
  intro s l2 rs1 hq va
  obtain ⟨t, ht⟩ := prefetch_goes_on s.cur l2 va s
  refine ⟨⟨t, ht, exec_pref hq ht⟩, fun off hl hva hoff => ?_, fun e bits hl hhit hp => ?_, fun pa pg l hl hp hc hfind hfresh => ?_⟩
  · have htr := translate_window s s.cur hoff 1
    rw [← hva] at htr
    rcases onlyReads_checkScratch s.cur s.cur off 1 va s with ⟨_, h⟩ | ⟨e, h⟩
    · exact exec_pref hq (prefetch_window (htr.trans (M.bind_ok h)))
    · exact exec_pref_stopped hq hl (htr.trans (M.bind_error h))
  · refine exec_pref_stopped hq hl (e := .trap (trapInfo .protect va)) ?_
    rw [translate, M.theCore_bind, if_neg hhit.1, M.bind_ok (findLeaf_hit hhit)]
    dsimp only
    rw [hp, require_false, M.raise_bind]
  · refine exec_pref hq (M.tryCatch_ok ?_)
    rw [M.bind_ok (translate_onPage hp 1)]
    dsimp only
    rw [if_neg (Bool.eq_false_iff.1 (isDevice_of_cachedIn hc)), if_neg Bool.false_ne_true, if_pos hc,
      M.bind_ok (fillL1_fresh (lodge_onPage hp) hfind hfresh _)]
    rfl

/-- Settles O29: the copies, and the prefetch by where its address leads. -/
theorem drainsAndPrefetches : Obligations.DrainsAndPrefetches := ⟨drainWaitsForCopies, prefetchNeverFaults⟩

end Sys2Proof.Machine

/-! ## Releases, acquires and fences (R209, R211, R230, R231) -/

namespace Sys2Proof.Machine

/-! ### What they are (R230) -/

theorem checked_ok {i : Instr} {m : State → Out} {s : State} (h : i.wellFormed = true) : checked i m s = m s := if_pos h

theorem regionSet_eq (all : Bool) (g : Byte) :
    regionSet all g = if all then BitVec.allOnes 256 else BitVec.ofNat 256 (2 ^ g.toNat) := by
  rw [regionSet, oneRegion, Nat.one_shiftLeft, allRegions]

/-- Every well-formed release, acquire or fence is one commit of what it does. -/
theorem exec_of_mem_syncs {sc : Scope} {all : Bool} {g : Byte} {p : Instr × SyncOp} (h : p ∈ Syncs sc all g) (hw : p.1.wellFormed = true)
    (s : State) : exec p.1 s = control (fun c => commitSync c p.2) s := by
  simp only [Syncs, List.mem_cons, List.not_mem_nil, or_false, ← regionSet_eq] at h
  rcases h with rfl | rfl | rfl | rfl | rfl | rfl <;> exact checked_ok hw

/-! ### When one is performed, and when it waits (R211, R230) -/

/-- An operation of a core as the newest of those that wait. -/
def newest (k : Core) (op : SyncOp) : Deferred := { op := op, seq := k.streams.nextSeq }

theorem syncReady_drained {k : Core} (h : Drained k) (d : Deferred) : syncReady k d = true := by
  simp [syncReady, queued, h.noVector, h.noMatrix]

/-- An entry that an operation waits for. -/
def awaits (k : Core) (op : SyncOp) (e : Entry) : Bool := if op.releases then touchesMemory k e else readsMemory k e

theorem syncReady_false {k : Core} {d : Deferred} {e : Entry} (he : e ∈ queued k) (hb : postedBefore e.seq d.seq = true)
    (ha : awaits k d.op e = true) : syncReady k d = false := by
  rw [syncReady, Bool.not_eq_false', List.any_eq_true]
  exact ⟨e, he, by rw [hb]; exact ha⟩

theorem syncHeld_free {s : State} {c : CoreId} {op : SyncOp} (h : ∀ e ∈ pushTargets s (op.pushes s c), e.2 = none) : syncHeld s c op = [] := by
  rw [syncHeld, List.map_eq_nil_iff, List.filter_eq_nil_iff]
  intro e he
  simp [h e he]

/-- The operations that wait do not change what the entries of a core access. -/
theorem awaits_enqueueSync (k : Core) (op op' : SyncOp) (e : Entry) : awaits (enqueueSync k op') op e = awaits k op e := by
  have hspans : spansOf (enqueueSync k op') e false = spansOf k e false := rfl
  rw [awaits, touchesMemory, readsMemory, hspans]
  rfl

section
variable {s : State} {c : CoreId} {op : SyncOp} (hn : (getCore s c).streams.deferred = [])
include hn

/-- An operation that nothing holds back is performed at once. -/
theorem joinSync_now (hr : syncReady (getCore s c) (newest (getCore s c) op) = true) (hs : SyncFree s c op) : joinSync s c op = runSync s c op := by
  have hready : ((getCore s c).streams.deferred.isEmpty && syncReady (getCore s c) (newest (getCore s c) op) && (syncHeld s c op).isEmpty) = true := by
    rw [hn, hr, syncHeld_free hs.taken]
    rfl
  rw [joinSync, runSync]
  refine (if_pos hready).trans ?_
  have hdone := hs.done
  generalize syncTurn s c op = t at hdone
  obtain ⟨t, left⟩ := t
  cases hdone
  rfl

/-- An operation behind an entry that it waits for joins those that wait. -/
theorem joinSync_waits {e : Entry} (he : e ∈ queued (getCore s c)) (hb : postedBefore e.seq (getCore s c).streams.nextSeq = true)
    (ha : awaits (getCore s c) op e = true) :
    joinSync s c op = updCore s c fun k => enqueueSync k op := by
  have hready : syncReady (getCore s c) (newest (getCore s c) op) = false := syncReady_false he hb ha
  have hjoined : (enqueueSync (getCore s c) op).streams.deferred = [newest (getCore s c) op] := congrArg (· ++ [newest (getCore s c) op]) hn
  have hstill : syncReady (enqueueSync (getCore s c) op) (newest (getCore s c) op) = false :=
    syncReady_false (e := e) he hb ((awaits_enqueueSync ..).trans ha)
  have hrun : runDeferred 1 (updCore s c fun k => enqueueSync k op) c = updCore s c fun k => enqueueSync k op := by
    rw [runDeferred, getCore_updCore_self]
    simp only [hjoined, hstill, Bool.not_false, if_true]
  have hnot : ¬ ((getCore s c).streams.deferred.isEmpty && syncReady (getCore s c) (newest (getCore s c) op) && (syncHeld s c op).isEmpty) = true := by
    simp [hready]
  rw [joinSync]
  refine (if_neg hnot).trans ?_
  dsimp only
  rw [getCore_updCore_self, hjoined]
  exact hrun

end

/-- A release, an acquire or a fence with nothing outstanding makes its pushes, and is performed. -/
theorem commitSync_drained {s : State} {c : CoreId} (h : Drained (getCore s c)) (op : SyncOp) :
    commitSync c op s = (pushReady c (op.pushes s c) >>= fun _ => modify fun s => joinSync s c op) s := by
  have hready : ((getCore s c).streams.deferred.isEmpty && syncReady (getCore s c) (newest (getCore s c) op)) = true := by
    rw [h.noSync, syncReady_drained h]
    rfl
  rw [commitSync, M.bind_ok (notPosting_ok h.noRun), M.theCore_bind]
  exact congrFun (if_pos hready) s

/-! ### How one ends (R230, R374 to R377) -/

section
variable {s s' : State} {sc : Scope} {all : Bool} {g : Byte} {p : Instr × SyncOp} (hd : Drained (here s)) (hp : p ∈ Syncs sc all g)
  (hw : p.1.wellFormed = true)
include hd hp hw

theorem exec_sync_now (hs : SyncFree s s.cur p.2) : exec p.1 s = .next (let t := runSync s s.cur p.2; updCore t t.cur fun k => retire k 4) := by
  rw [exec_of_mem_syncs hp hw]
  refine control_ok ?_
  rw [commitSync_drained hd, M.bind_ok (pushReady_ok hs.toPushFree), M.modify_run, joinSync_now hd.noSync (syncReady_drained hd _) hs]

theorem exec_sync_trap {x : TrapInfo} (h : pushReady s.cur (p.2.pushes s s.cur) s = .error (.trap x) s') :
    exec p.1 s = .next (stopAt s s' s.cur (controlTrap x (here s).pc)) := by
  rw [exec_of_mem_syncs hp hw]
  refine control_trap ?_
  rw [commitSync_drained hd, M.bind_error h]

theorem exec_sync_wait (h : pushReady s.cur (p.2.pushes s s.cur) s = .error .wait s') : exec p.1 s = .next s' := by
  rw [exec_of_mem_syncs hp hw]
  refine control_wait ?_
  rw [commitSync_drained hd, M.bind_error h]

end

/-- R209, R230, R231: performed at once, and as the events of its order. -/
theorem syncInstructions : Parts.SyncInstructions := by
  intro s sc all g hd c named
  refine ⟨fun p hp hw hs => exec_sync_now hd hp hw hs, rfl, rfl, rfl, rfl, ?_⟩
  intro r
  have hturn : releaseTurn s c sc allRegions = fun op => (r, if releaseLeft r c sc allRegions then some op else none) := rfl
  refine ⟨?_, ?_, fun hleft => ?_⟩
  · rw [runSync, syncTurn, hturn]
    cases releaseLeft r c sc allRegions <;> rfl
  · rw [runSync, syncTurn, hturn]
    cases releaseLeft r c sc allRegions <;> rfl
  · rw [syncTurn, hturn]
    simp only [hleft, if_true]

/-- R374, R375, R389, R393: by why the first home that takes no push takes none. -/
theorem refusedReleases : Parts.RefusedReleases := by
  intro s sc all g hd hfailed traps p hp hw line r hr
  have hnone := failedPush_none hfailed
  cases r with
  | die d => exact exec_sync_trap hd hp hw (pushReady_die hnone hr)
  | notReady =>
    obtain ⟨n, einfo, h⟩ := pushReady_notReady hnone hr
    exact ⟨n, einfo, exec_sync_trap hd hp hw h⟩
  | held => exact exec_sync_wait hd hp hw (pushReady_held hnone hr)
  | fenced t =>
    refine ⟨fun hg => exec_sync_trap hd hp hw (pushReady_gangBroken hnone hr hg), fun hg => ?_⟩
    obtain ⟨n, einfo, h⟩ := pushReady_fenced hnone hr hg
    exact ⟨n, einfo, exec_sync_trap hd hp hw h⟩

/-! ### Pushes that links lose (R376, R377) -/

/-- A die that is marked changes the view of the task and of its context alone (R101). -/
theorem markDie_cases (s : State) (c : CoreId) (b : Nat) : markDie s c b = s ∨ ∃ (f : TaskRegs → TaskRegs) (ctxs : List Context),
    markDie s c b = { updCore s c fun k => { k with tregs := f k.tregs } with hub := { s.hub with contexts := ctxs } } := by
  rw [markDie]
  dsimp only
  split
  · split
    · exact .inl rfl
    · exact .inr ⟨fun r => { r with tdies := putBit r.tdies b true }, _, rfl⟩
  · exact .inl rfl

section
variable (s : State) (c : CoreId) (b : Nat)

theorem getCore_markDie : ∃ r, getCore (markDie s c b) c = { getCore s c with tregs := r } := by
  rcases markDie_cases s c b with h | ⟨f, ctxs, h⟩
  · exact ⟨(getCore s c).tregs, by rw [h]⟩
  · exact ⟨f (getCore s c).tregs, by rw [h]; exact getCore_updCore_self s c fun k => { k with tregs := f k.tregs }⟩

@[simp] theorem markDie_seq : (getCore (markDie s c b) c).seq = (getCore s c).seq := by
  obtain ⟨r, h⟩ := getCore_markDie s c b
  rw [h]

@[simp] theorem markDie_flits : (getCore (markDie s c b) c).flits = (getCore s c).flits := by
  obtain ⟨r, h⟩ := getCore_markDie s c b
  rw [h]

@[simp] theorem markDie_time : (markDie s c b).time = s.time := by
  rcases markDie_cases s c b with h | ⟨f, ctxs, h⟩ <;> rw [h]
  rfl

@[simp] theorem homeRefuses_markDie (line : Nat) : homeRefuses (markDie s c b) line = homeRefuses s line := by
  rcases markDie_cases s c b with h | ⟨f, ctxs, h⟩ <;> rw [h]
  rfl

@[simp] theorem seqBusy_markDie (d : CoreId) (q : HWord) : seqBusy (markDie s c b) d q = seqBusy s d q := by
  rcases markDie_cases s c b with h | ⟨f, ctxs, h⟩ <;> rw [h]
  rfl

end

/-- A core one of whose flits is to be dropped is listed. -/
theorem linksQuiet_lossy {s : State} {c : CoreId} (h : (getCore s c).flits ≠ []) : linksQuiet s = false := by
  have hfind : ∀ t : Tab Core, ((t.find c.toNat).getD Core.reset).flits ≠ [] → t.all (fun e => e.2.flits.isEmpty) = false := by
    intro t
    induction t with
    | nil => exact fun h => absurd rfl h
    | cons e r ih =>
      rw [Tab.find, List.all_cons]
      intro h
      split at h
      · rw [Option.getD_some] at h
        simp [h]
      · rw [ih h, Bool.and_false]
  rw [linksQuiet, hfind s.cores h, Bool.and_false]

theorem linksQuiet_pending {s : State} {c : CoreId} (h : pushPending s c = true) : linksQuiet s = false := by
  rw [linksQuiet]
  cases hp : s.hub.pushes with
  | nil => simp [pushPending, hp] at h
  | cons m r => rfl

/-- A push at a line where another of its core awaits its reply is not made (R377). -/
theorem sendPushes_busy {s : State} {c : CoreId} {l : List (CoreId × Push)}
    (h : ∀ q ∈ l, q.2.sends s q.1 = true ∧ lineBusy s q.1 q.2.at = true) : sendPushes s c l = s := by
  induction l with
  | nil => rfl
  | cons q r ih =>
    obtain ⟨hsends, hbusy⟩ := h q List.mem_cons_self
    have hq : sendPush s c q.1 q.2 = s := by simp [sendPush, hsends, hbusy]
    exact (congrArg (sendPushes · c r) hq).trans (ih fun p hp => h p (List.mem_cons_of_mem q hp))

/-- The message of a core's push of an L1 line whose request is lost at once (R376). -/
def lostPush (s : State) (c d : CoreId) (q : Nat) : PushMsg :=
  { core := d, cause := c, push := .line q, load := (Push.line q).load (markDie s d (16 + mdOf q)) d, seq := (getCore s d).seq
    way := { sent := s.time, tries := 1 }, applied := false, held := false, failed := false }

/-- The package whose core's push of an L1 line has lost its request. -/
def withLostPush (s : State) (c d : CoreId) (q : Nat) (fs : List Bool) : State :=
  awaitPush (updCore (updCore (markDie s d (16 + mdOf q)) d fun k => { k with seq := (getCore s d).seq + 1 }) d fun k => { k with flits := fs })
    (lostPush s c d q)

theorem sendPush_lost {s : State} {c d : CoreId} {q : Nat} {fs : List Bool} (hs : (Push.line q).sends s d = true) (hb : lineBusy s d q = false)
    (hf : (getCore s d).flits = false :: fs) (hq : seqBusy s d (getCore s d).seq = false) (hr : homeRefuses s q = none) :
    sendPush s c d (.line q) = withLostPush s c d q fs := by
  have hrefused : (Push.line q).refused (markDie s d (16 + mdOf q)) d = none := (homeRefuses_markDie ..).trans hr
  have hat : (Push.line q).at = q := rfl
  rw [sendPush, hs, hat, hb]
  simp only [Bool.not_true, Bool.false_eq_true, if_false, hrefused]
  rw [startPush]
  simp only [markDie_seq, seqBusy_markDie, hq, Bool.false_eq_true, if_false, takePart, issuePush, coreFlit, getCore_updCore_self, markDie_flits, hf,
    markDie_time, updCore_time, Transit.first, Transit.lost]
  rfl

/-- R376, R377: a lost request, pushes that are outstanding, and a push that has failed. -/
theorem lostPushes : Parts.LostPushes := by
  intro s sc all g hd c p hp hw htaken
  have hnone := firstRefused_none htaken
  refine ⟨fun d q fs hpushes hone hsends hbusy hflits hseq => ?_, fun hfailed hpending hbusy => ?_, fun m hm => ?_⟩
  · have hfailed : failedPush s c = none := by rw [failedPush, hpushes]; rfl
    have hrefuses : homeRefuses s q = none := htaken (q, homeRefuses s q)
      (List.mem_map.2 ⟨(d, .line q), List.mem_filter.2 ⟨hone ▸ List.mem_singleton.2 rfl, hsends⟩, rfl⟩)
    have hsend : sendPushes s c (p.2.pushes s c) = withLostPush s c d q fs := by
      rw [hone]
      exact sendPush_lost hsends hbusy hflits hseq hrefuses
    have hpending : pushPending (sendPushes s c (p.2.pushes s c)) c = true := by
      rw [hsend, pushPending, List.any_eq_true]
      exact ⟨lostPush s c d q, List.mem_append_right _ (List.mem_singleton.2 rfl), by simp [lostPush]⟩
    rw [exec_sync_wait hd hp hw (pushReady_lossy hfailed hnone (linksQuiet_lossy (by rw [hflits]; exact List.cons_ne_nil _ _)) hpending), hsend]
    rfl
  · have hsame : sendPushes s c (p.2.pushes s c) = s := sendPushes_busy hbusy
    have hwait := exec_sync_wait hd hp hw
      (pushReady_lossy (failedPush_none hfailed) hnone (linksQuiet_pending hpending) (hsame.symm ▸ hpending))
    rwa [hsame] at hwait
  · obtain ⟨n, einfo, h⟩ := pushReady_failed (l := p.2.pushes s c) hm
    exact ⟨n, einfo, exec_sync_trap hd hp hw h⟩

/-! ### Operations that wait for accesses (R207, R211, R230) -/

theorem enqueueSync_first {k : Core} (h : k.streams.deferred = []) (op : SyncOp) :
    enqueueSync k op = { k with streams := { k.streams with deferred := [{ op := op, seq := k.streams.nextSeq }] } } := by
  rw [enqueueSync, h]
  rfl

/-- R230: a release behind a posted access. -/
theorem releaseWaitsForAccesses : Parts.ReleaseWaitsForAccesses := by
  rintro s sc hq ⟨e, he, hmem, hb⟩
  rw [exec_of_mem_syncs (all := true) (g := 0) (p := (.rel sc true 0, .rel sc allRegions)) List.mem_cons_self rfl]
  have hready : syncReady (here s) (newest (here s) (.rel sc allRegions)) = false := syncReady_false he hb hmem
  have hnot : ¬ ((here s).streams.deferred.isEmpty && syncReady (here s) (newest (here s) (.rel sc allRegions))) = true := by simp [hready]
  have hcommit : commitSync s.cur (.rel sc allRegions) s = .ok () (updCore s s.cur fun k => enqueueSync k (.rel sc allRegions)) := by
    rw [commitSync, M.bind_ok (notPosting_ok hq.noRun), M.theCore_bind]
    refine (congrFun (if_neg hnot) s).trans (congrArg (EStateM.Result.ok ()) ?_)
    exact joinSync_waits hq.noSync he hb hmem
  rw [control_ok hcommit, updCore_cur, updCore_updCore]
  exact congrArg Host.Outcome.next (updCore_congr (congrArg (retire · 4) (enqueueSync_first hq.noSync _)))

/-- R207, R211: an acquire with no posted read before it, and one behind a posted read. -/
theorem acquiresFollowReads : Parts.AcquiresFollowReads := by
  intro s c sc hn
  refine ⟨fun hreads hs => ?_, fun ⟨e, he, hread, hb⟩ => ?_⟩
  · have hready : syncReady (getCore s c) (newest (getCore s c) (.acq sc allRegions)) = true := by
      rw [syncReady, Bool.not_eq_true', List.any_eq_false]
      intro e he
      simp [newest, SyncOp.releases, hreads e he]
    exact joinSync_now hn hready hs
  · exact (joinSync_waits (op := .acq sc allRegions) hn he hb hread).trans (updCore_congr (enqueueSync_first hn _))

/-- Settles O27: each operation by whether its pushes are free, refused or lost, and whether an entry stands before it. -/
theorem synchronization : Obligations.Synchronization :=
  ⟨syncInstructions, refusedReleases, lostPushes, releaseWaitsForAccesses, acquiresFollowReads⟩

end Sys2Proof.Machine

/-! ## Remote operations that their home serves at the first issue (R229, R377, R378, log 8) -/

namespace Sys2Proof.Machine

/-! ### The number of a request (R377) -/

/-- The package with the records of a core's number gone. -/
def freedSeq (s : State) (c : CoreId) (q : HWord) : State :=
  { s with hub := { s.hub with dups := s.hub.dups.filter fun d => !(d.core == c && d.seq == q) } }

theorem dupOf_freedSeq (s : State) (c : CoreId) (q : HWord) : dupOf (freedSeq s c q) c q = none :=
  List.find?_eq_none.2 fun d hd => by
    have hkept := (List.mem_filter.1 hd).2
    rw [Bool.not_eq_true'] at hkept
    rw [hkept]
    simp

section
variable {s : State} {c : CoreId} {home : Option Nat}

theorem freeSeq_ok (h : HomeTakes s c home) : freeSeq c (getCore s c).seq s = .ok () (freedSeq s c (getCore s c).seq) := by
  have hbusy : seqBusy s c (getCore s c).seq = false := by
    rw [seqBusy, List.any_eq_false]
    intro d hd
    by_cases hc : d.core = c ∧ d.seq = (getCore s c).seq
    · simp [h.numberFree d hd hc.1 hc.2]
    · simp only [Bool.and_eq_true, beq_iff_eq]
      exact fun hall => hc hall.1.1
  rw [freeSeq, M.get_bind, hbusy]
  rfl

theorem dupRoom_freedSeq (h : home = none ∨ s.hub.dups.length < dupQuota) (q : HWord) : dupRoom (freedSeq s c q) home = true := by
  rcases h with hnone | hroom
  · simp [dupRoom, hnone]
  · have hlen : (freedSeq s c q).hub.dups.length < dupQuota := Nat.lt_of_le_of_lt (List.length_filter_le ..) hroom
    simp [dupRoom, hlen]

/-- No link drops the next flit of a core (R376). -/
theorem nextFlit_good (h : (getCore s c).flits = []) : nextFlit c s = .ok true s := by
  rw [nextFlit, M.answer_run, coreFlit]
  simp [h]

end

/-! ### The first issue -/

section
variable {s : State} {c : CoreId} {home : Option Nat} {dup : M Unit} {apply : M DWord} {sa : State} {v : DWord}

/-- A home without a record of a number does the operation, and keeps its reply (R378). -/
theorem applyOnce_new {q : HWord} (hnew : dupOf s c q = none) (hroom : dupRoom s home = true) (ha : apply s = .ok v sa) :
    applyOnce c q home dup apply s = .ok v (afterReply sa c home q v) := by
  rw [applyOnce, M.get_bind, hnew]
  dsimp only
  rw [M.get_bind, hroom, awaitThat_true, M.pure_bind_run, M.bind_ok ha]
  rfl

/-- An issue whose flits cross, and which its home serves. -/
theorem issue_ok {r : Remote} (hl : LinkFree (getCore s c))
    (hnew : dupOf s c r.seq = none) (hroom : dupRoom s home = true) (ha : apply (updCore s c fun k => { k with remote := none }) = .ok v sa) :
    issue c r home dup apply s = .ok v (afterReply sa c home r.seq v) := by
  have hkey : updCore s c (fun k => putRemote k none) = updCore s c fun k => { k with remote := none } :=
    updCore_congr (by rw [putRemote, if_pos (by simp [streamKey, hl.control])])
  have hset : setRemote c none s = .ok () (updCore s c fun k => { k with remote := none }) := congrArg (EStateM.Result.ok ()) hkey
  have hserved := M.tryCatch_ok (f := homeStops c { r with issued := s.time, due := false, held := false } home false)
    (applyOnce_new (dup := dup) (q := r.seq) (s := updCore s c fun k => { k with remote := none }) hnew hroom ha)
  rw [issue, M.get_bind, M.bind_ok (nextFlit_good hl.noDrop), if_pos rfl, reachedHome, M.theCore_bind, hl.noDrop]
  exact (M.bind_ok hset).trans ((M.bind_ok hserved).trans rfl)

/-- A remote operation that takes its number, reaches its home, and is served there at its first issue; what `start` does leaves the core and
the records of the homes alone. -/
theorem remoteWith_ok {einfo : DWord} {det pa : Nat} {long : Bool} {prep : M Bool} {start reach : M Unit} {sp sr st : State}
    (hl : LinkFree (getCore s c)) (hprep : prep s = .ok long sp) (hreach : reach sp = .ok () sr) (hlr : LinkFree (getCore sr c))
    (hh : HomeTakes sr c home) (hcore : getCore st c = getCore sr c) (hdups : st.hub.dups = sr.hub.dups)
    (hstart : start (freedSeq sr c (getCore sr c).seq) = .ok () (freedSeq st c (getCore sr c).seq)) (ha : apply (afterIssue st c) = .ok v sa) :
    remoteWith c einfo det home pa prep start reach dup apply s = .ok v (afterReply sa c home (getCore st c).seq v) := by
  have hnone : remoteOf (getCore s c) = none := by
    rw [remoteOf, if_pos (by simp [streamKey, hl.control]), hl.noRemote]
  have hline : (decide (noAddress ≤ pa) || !lineBusy sr c (lineOf pa)) = true := by simp [hh.lineFree]
  rw [remoteWith, M.theCore_bind, hnone, Option.filter_none]
  dsimp only
  rw [M.bind_ok hprep, M.bind_ok hreach, M.get_bind, hline, awaitThat_true, M.pure_bind_run, M.theCore_bind, M.bind_ok (freeSeq_ok hh),
    M.bind_ok hstart, M.modCore_bind, ← hcore]
  have hseq : updCore (freedSeq st c (getCore st c).seq) c (fun k => { k with seq := (getCore st c).seq + 1 }) =
      updCore (freedSeq st c (getCore st c).seq) c fun k => { k with seq := k.seq + 1 } := updCore_congr rfl
  rw [hseq]
  refine issue_ok ?_ (dupOf_freedSeq st c _) (dupRoom_freedSeq (hdups ▸ hh.room) _) ha
  rw [getCore_updCore_self]
  exact ⟨hcore ▸ hlr.control, hcore ▸ hlr.noRemote, hcore ▸ hlr.noDrop⟩

end

end Sys2Proof.Machine

/-! ## Atomics (R209, R227, R229, log 8) -/

namespace Sys2Proof.Machine

/-! ### What an atomic computes (R227) -/

section
variable {w : Nat} (a b : BitVec w)

theorem ofInt_min_toInt : BitVec.ofInt w (min a.toInt b.toInt) = if b.toInt < a.toInt then b else a := by
  split
  · rw [min_eq_right (le_of_lt ‹_›), BitVec.ofInt_toInt]
  · rw [min_eq_left (not_lt.1 ‹_›), BitVec.ofInt_toInt]

theorem ofInt_max_toInt : BitVec.ofInt w (max a.toInt b.toInt) = if a.toInt < b.toInt then b else a := by
  split
  · rw [max_eq_right (le_of_lt ‹_›), BitVec.ofInt_toInt]
  · rw [max_eq_left (not_lt.1 ‹_›), BitVec.ofInt_toInt]

theorem ofNat_min_toNat : BitVec.ofNat w (min a.toNat b.toNat) = if b.toNat < a.toNat then b else a := by
  split
  · rw [min_eq_right (le_of_lt ‹_›), BitVec.ofNat_toNat, BitVec.setWidth_eq]
  · rw [min_eq_left (not_lt.1 ‹_›), BitVec.ofNat_toNat, BitVec.setWidth_eq]

theorem ofNat_max_toNat : BitVec.ofNat w (max a.toNat b.toNat) = if a.toNat < b.toNat then b else a := by
  split
  · rw [max_eq_right (le_of_lt ‹_›), BitVec.ofNat_toNat, BitVec.setWidth_eq]
  · rw [max_eq_left (not_lt.1 ‹_›), BitVec.ofNat_toNat, BitVec.setWidth_eq]

/-- The value that an atomic writes, on the numbers of words of its width. -/
theorem atomNew_toNat (op : AtomOp) (hw : 0 < w) (x : BitVec w) : atomNew op w a.toNat b.toNat x.toNat = (atomicWrites op w a b x).toNat := by
  have hsigned (y : BitVec w) : signedOf w y.toNat = y.toInt := by
    rw [signedOf_eq_toInt hw y.isLt, BitVec.ofNat_toNat, BitVec.setWidth_eq]
  cases op with
  | add => exact (BitVec.toNat_add a b).symm
  | min => rw [atomNew, hsigned, hsigned, atomicWrites, ofInt_min_toInt, apply_ite BitVec.toNat]
  | max => rw [atomNew, hsigned, hsigned, atomicWrites, ofInt_max_toInt, apply_ite BitVec.toNat]
  | minu => rw [atomNew, atomicWrites, ofNat_min_toNat, apply_ite BitVec.toNat]
  | maxu => rw [atomNew, atomicWrites, ofNat_max_toNat, apply_ite BitVec.toNat]
  | and => exact (BitVec.toNat_and a b).symm
  | or => exact (BitVec.toNat_or a b).symm
  | xor => exact (BitVec.toNat_xor a b).symm
  | swp => rfl
  | cas =>
    rw [atomNew, atomicWrites, apply_ite BitVec.toNat]
    exact if_congr BitVec.toNat_inj rfl rfl

end

/-- The value that an atomic writes is that of the bit vectors of its width. -/
theorem atomNew_eq (op : AtomOp) {w old : Nat} (hw : 0 < w) (hold : old < 2 ^ w) (v x : Nat) :
    atomNew op w old (v % 2 ^ w) (x % 2 ^ w) = (atomicWrites op w (BitVec.ofNat w old) (BitVec.ofNat w v) (BitVec.ofNat w x)).toNat := by
  rw [← atomNew_toNat _ _ op hw, BitVec.toNat_ofNat, BitVec.toNat_ofNat, BitVec.toNat_ofNat, Nat.mod_eq_of_lt hold]

/-- The bytes of an atomic (R227). -/
def atomBytes (dw : Bool) : Nat := if dw then 8 else 4

theorem atomResult_eq (op : AtomOp) (dw : Bool) {old : Nat} (h : old < 2 ^ (8 * atomBytes dw)) :
    atomResult op dw old = atomicReturns op dw old := by
  cases dw with
  | true => simp [atomResult, atomicReturns]
  | false =>
    have hn : ElemBytes 4 := by simp [ElemBytes]
    rw [atomResult, if_neg Bool.false_ne_true, extendTo_eq hn h, atomicReturns]
    cases op <;> rfl

/-! ### What the order of an atomic does (R209, R231, R295) -/

theorem orderReleases_iff (o : Order) : orderReleases o = true ↔ o = .rel ∨ o = .ar ∨ o = .sc := by cases o <;> decide

theorem orderAcquires_iff (o : Order) : orderAcquires o = true ↔ o = .acq ∨ o = .ar ∨ o = .sc := by cases o <;> decide

@[simp] theorem takeTicket_cur (s : State) (c : CoreId) (sc : Scope) : (takeTicket s c sc).cur = s.cur := by cases sc <;> rfl

@[simp] theorem atomicReleased_cur (s : State) (so : ScopeOrder) : (atomicReleased s so).cur = s.cur := by
  rw [atomicReleased]
  split <;> simp

/-- What an order does before its atomic, where it is free. -/
theorem beforeAtomic_ok {s : State} {so : ScopeOrder} (h : OrderFree s so) : beforeAtomic s.cur so s = .ok () (atomicReleased s so) := by
  have hacquire : ∀ t, t = atomicReleased s so →
      (if orderAcquires so.order then acquireReady s.cur so.scope allRegions else pure () : M Unit) t = .ok () (atomicReleased s so) := by
    rintro t rfl
    by_cases ha : orderAcquires so.order = true
    · rw [if_pos ha]
      exact pushReady_ok (h.acquires ((orderAcquires_iff _).1 ha))
    · rw [if_neg ha]
      rfl
  rw [beforeAtomic]
  by_cases hr : orderReleases so.order = true
  · obtain ⟨hfree, hbumps⟩ := h.released ((orderReleases_iff _).1 hr)
    have hreleased : atomicReleased s so = bumpMarks (release s s.cur so.scope allRegions) s.cur allRegions :=
      if_pos ((orderReleases_iff _).1 hr)
    rw [if_pos hr, M.bind_ok (releaseNow_ok hfree), M.modify_bind, M.get_bind, ← hreleased, hbumps]
    exact hacquire _ rfl
  · have hreleased : atomicReleased s so = s := if_neg (mt (orderReleases_iff _).2 hr)
    rw [if_neg hr]
    exact hacquire s hreleased.symm

theorem ticketAtomic_run (s : State) (so : ScopeOrder) : ticketAtomic s.cur so s = .ok () (atomicTicket s so) := by
  rw [ticketAtomic, atomicTicket]
  split <;> rfl

theorem afterAtomic_run (s : State) (c : CoreId) (so : ScopeOrder) : afterAtomic c so s = .ok () (atomicEnd s c so) := by
  rw [afterAtomic, atomicEnd]
  by_cases h : orderAcquires so.order = true
  · rw [if_pos h, if_pos ((orderAcquires_iff _).1 h)]
    rfl
  · rw [if_neg h, if_neg (mt (orderAcquires_iff _).2 h)]
    rfl

end Sys2Proof.Machine

/-! ## Atomics at their places (R209, R227, R229, log 8) -/

namespace Sys2Proof.Machine

/-! ### The read-modify-write depends on the values that its place can hold -/

theorem lineField_lt (d : BitVec 1024) (p : BitVec 32) (off n : Nat) : (lineField d p off n).1 < 2 ^ (8 * n) := Nat.mod_lt _ (Nat.two_pow_pos _)

theorem storeField_lt (s : State) (pa n : Nat) : (storeField s pa n).1 < 2 ^ (8 * n) := by
  rw [storeField, ← bytesAt_eq_memLoad]
  exact bytesAt_lt s pa n

/-- Two read-modify-writes that do the same to every value of `n` bytes. -/
structure SameRmw (n : Nat) (f g : Rmw) : Prop where
  same : ∀ x < 2 ^ (8 * n), ∀ b, f x b = g x b
  writes : ∀ x b, (f x b).isSome = (g x b).isSome

theorem sameRmw_clean {n : Nat} {f g : Nat → Nat} (h : ∀ x < 2 ^ (8 * n), f x = g x) : SameRmw n (cleanRmw f) (cleanRmw g) where
  same x hx b := by rw [cleanRmw, cleanRmw, h x hx]
  writes x b := by cases b <;> rfl

section
variable {n : Nat} {f g : Rmw} (h : SameRmw n f g)
include h

theorem SameRmw.onLine (d : BitVec 1024) (p : BitVec 32) (off : Nat) :
    f (lineField d p off n).1 (lineField d p off n).2 = g (lineField d p off n).1 (lineField d p off n).2 := h.same _ (lineField_lt ..) _

theorem SameRmw.onStore (s : State) (pa : Nat) :
    f (storeField s pa n).1 (storeField s pa n).2 = g (storeField s pa n).1 (storeField s pa n).2 := h.same _ (storeField_lt ..) _

theorem rmwSram_congr (t : CoreId) (off : Nat) : rmwSram t off n f = rmwSram t off n g := by
  simp only [rmwSram, h.onStore]

theorem rmwL1_congr (c : CoreId) (pa : Nat) (pg : Page) (va : DWord) : rmwL1 c pa n pg va f = rmwL1 c pa n pg va g := by
  simp only [rmwL1, h.onLine]

theorem rmwHome_congr (c : CoreId) (pa : Nat) (pg : Page) (va : DWord) : rmwHome c pa n pg va f = rmwHome c pa n pg va g := by
  simp only [rmwHome, h.onLine]

theorem rmwOutside_congr (c : CoreId) (pa : Nat) (pg : Page) (va : DWord) : rmwOutside c pa n pg va f = rmwOutside c pa n pg va g := by
  simp only [rmwOutside, h.onStore]

theorem rmwCluster_congr (c : CoreId) (pa : Nat) (pg : Page) (va : DWord) : rmwCluster c pa n pg va f = rmwCluster c pa n pg va g := by
  simp only [rmwCluster, h.onLine]

theorem rmwAt_congr (c : CoreId) (loc : Loc) (sc : Scope) (va : DWord) : rmwAt c loc sc n va f = rmwAt c loc sc n va g := by
  simp only [rmwAt, rmwSram_congr h, rmwL1_congr h, rmwHome_congr h, rmwOutside_congr h, rmwCluster_congr h, h.writes]

end

/-! ### The request of an atomic (R229) -/

/-- An atomic that its core performs itself sends no request. -/
theorem rmwSend_near {s sp : State} {c : CoreId} {va : DWord} {loc : Loc} {sc : Scope} {prep start : M Unit} {apply : M DWord} {s1 : State}
    (h : rmwRemote (getCore s c) c loc sc = false) (hp : prep s = .ok () sp) (hs : start sp = .ok () s1) :
    rmwSend c va loc sc prep start apply s = apply s1 := by
  rw [rmwSend, M.theCore_bind, h]
  exact (M.bind_ok hp).trans (M.bind_ok hs)

/-- An atomic that another node performs is one remote operation, after the checks of `atomicReach`. -/
theorem rmwSend_far {s : State} {c : CoreId} {va : DWord} {loc : Loc} {sc : Scope} {prep start : M Unit} {apply : M DWord}
    (h : rmwRemote (getCore s c) c loc sc = true) :
    ∃ long : Bool, rmwSend c va loc sc prep start apply s =
      remoteWith c va 1 (atomicHome (getCore s c) loc sc) loc.pa (prep >>= fun _ => pure long) start (atomicReach (getCore s c) c loc sc va) (pure ())
        apply s := by
  rw [rmwSend, M.theCore_bind, h]
  cases loc with
  | sram t off g pg => exact ⟨false, rfl⟩
  | mem pa pg =>
    by_cases hcl : placeOf (getCore s c) pa pg sc = .cluster
    · refine ⟨false, ?_⟩
      simp only [atomicHome, atomicReach, hcl, if_true]
      rfl
    · refine ⟨isForeign (lineOf pa), ?_⟩
      simp only [atomicHome, atomicReach, hcl, if_false]
      rfl

/-! ### The ticket of an `.sc` atomic (R209, R231) -/

section
variable (s : State) (so : ScopeOrder) (c : CoreId)

@[simp] theorem takeTicket_core (d : CoreId) (sc : Scope) : getCore (takeTicket s d sc) c = getCore s c := by cases sc <;> rfl

@[simp] theorem takeTicket_hubDups (d : CoreId) (sc : Scope) : (takeTicket s d sc).hub.dups = s.hub.dups := by cases sc <;> rfl

@[simp] theorem takeTicket_hubPushes (d : CoreId) (sc : Scope) : (takeTicket s d sc).hub.pushes = s.hub.pushes := by cases sc <;> rfl

theorem takeTicket_freedSeq (d : CoreId) (sc : Scope) (q : HWord) : takeTicket (freedSeq s c q) d sc = freedSeq (takeTicket s d sc) c q := by
  cases sc <;> rfl

@[simp] theorem atomicTicket_core : getCore (atomicTicket s so) c = getCore s c := by
  rw [atomicTicket]
  split <;> simp

@[simp] theorem atomicTicket_cur : (atomicTicket s so).cur = s.cur := by
  rw [atomicTicket]
  split <;> simp

@[simp] theorem atomicTicket_dups : (atomicTicket s so).hub.dups = s.hub.dups := by
  rw [atomicTicket]
  split <;> simp

@[simp] theorem atomicTicket_pushes : (atomicTicket s so).hub.pushes = s.hub.pushes := by
  rw [atomicTicket]
  split <;> simp

/-- The ticket and the number of a request are taken in either order. -/
theorem atomicTicket_freedSeq (q : HWord) : atomicTicket (freedSeq s c q) so = freedSeq (atomicTicket s so) c q := by
  rw [atomicTicket, atomicTicket]
  split
  · exact takeTicket_freedSeq ..
  · rfl

end

/-! ### An atomic from its request to its reply (R227, R229) -/

section
variable {s0 sr s3 : State} {so : ScopeOrder} {c : CoreId} {loc : Loc} {va : DWord} {apply : M DWord} {v : DWord}

/-- An atomic that its core performs itself, between what its order does before it and the staleness of a copy. -/
theorem rmwOp_near (hc : s0.cur = c) (ho : OrderFree s0 so) (hnear : rmwRemote (getCore s0 c) c loc so.scope = false)
    (ha : apply (atomicTicket (atomicReleased s0 so) so) = .ok v s3) :
    rmwOp c va loc so.scope (beforeAtomic c so) (ticketAtomic c so) apply s0 = .ok v (staleReply s3 c loc so.scope) := by
  subst hc
  have hticket := ticketAtomic_run (atomicReleased s0 so) so
  rw [atomicReleased_cur] at hticket
  rw [rmwOp, M.bind_ok ((rmwSend_near hnear (beforeAtomic_ok ho) hticket).trans ha), M.modify_bind]
  rfl

/-- An atomic that another node performs is served there at its first issue. -/
theorem rmwOp_far (hc : s0.cur = c) (ho : OrderFree s0 so) (hfar : rmwRemote (getCore s0 c) c loc so.scope = true)
    (hreach : atomicReach (getCore s0 c) c loc so.scope va (atomicReleased s0 so) = .ok () sr) (hcur : sr.cur = c)
    (hl : LinkFree (getCore s0 c)) (hlr : LinkFree (getCore sr c)) (hh : HomeTakes sr c (atomicHome (getCore s0 c) loc so.scope))
    (ha : apply (afterIssue (atomicTicket sr so) c) = .ok v s3) :
    rmwOp c va loc so.scope (beforeAtomic c so) (ticketAtomic c so) apply s0 = .ok v
      (staleReply (afterReply s3 c (atomicHome (getCore s0 c) loc so.scope) (getCore (atomicTicket sr so) c).seq v) c loc so.scope) := by
  subst hc
  obtain ⟨long, hsend⟩ := rmwSend_far (va := va) (prep := beforeAtomic s0.cur so) (start := ticketAtomic s0.cur so) (apply := apply) hfar
  have hprep : (beforeAtomic s0.cur so >>= fun _ => pure long : M Bool) s0 = .ok long (atomicReleased s0 so) := M.bind_ok (beforeAtomic_ok ho)
  have hstart (q : HWord) : ticketAtomic s0.cur so (freedSeq sr s0.cur q) = .ok () (freedSeq (atomicTicket sr so) s0.cur q) := by
    rw [← atomicTicket_freedSeq, ← hcur]
    exact ticketAtomic_run (freedSeq sr sr.cur q) so
  rw [rmwOp, M.bind_ok (hsend.trans (remoteWith_ok hl hprep hreach hlr hh (by simp) (by simp) (hstart _) ha)), M.modify_bind]
  rfl

/-- The read-modify-write of an atomic at clean bytes answers the old value. -/
theorem atomicRmw_ok {n old : Nat} {f : Nat → Nat} {s2 : State} (h : rmwAt c loc so.scope n va (cleanRmw f) s2 = .ok (old, false) s3) :
    atomicRmw c loc so n va f s2 = .ok (BitVec.ofNat 64 old) s3 := by
  rw [atomicRmw, M.bind_ok h]
  rfl

end

/-! ### The instruction (R227 to R229) -/

section
variable {s s0 s4 : State} {so : ScopeOrder} {op : AtomOp} {dw : Bool} {va : DWord} {loc : Loc} {x : DWord} {v cmp : Nat}

/-- Where no gate of an atomic holds it back, it starts, whichever gate its order has. -/
theorem atomicGate_drained {α : Type} {c : CoreId} (hd : Drained (getCore s c)) (va : DWord) (n : Nat) (o : Order) (m : Unit → M α) :
    (if orderReleases o then gateAll c >>= m else gateWrite c va n >>= m) s = m () s := by
  split
  · exact M.bind_ok (gateAll_drained hd)
  · exact M.bind_ok (gateWrite_drained hd va n)

/-- An aligned atomic that forms no partial is the operation of its place. -/
theorem atomicAt_ok {c : CoreId} (hd : Drained (getCore s c)) (hal : va.toNat % atomBytes dw = 0) (ht : translate c va (atomBytes dw) .both s = .ok loc s0)
    (hno : ∀ d, declared (getCore s0 c) loc = some d → atomMatches op dw d.1 d.2.2 = false) :
    atomicAt c op dw so va v cmp s =
      rmwOp c va loc so.scope (beforeAtomic c so) (ticketAtomic c so)
        (atomicRmw c loc so (atomBytes dw) va fun old => atomNew op (8 * atomBytes dw) old v cmp) s0 := by
  rw [atomicAt]
  refine (atomicGate_drained hd va _ _ _).trans ?_
  change ((require (va.toNat % atomBytes dw == 0) .misalign va : M Unit) >>= _) s = _
  rw [hal, beq_self_eq_true, require_true, M.pure_bind_run]
  refine (M.bind_ok ht).trans ?_
  rw [M.theCore_bind]
  cases loc with
  | sram t off g pg => rfl
  | mem pa pg =>
    cases hdecl : declared (getCore s0 c) (.mem pa pg) with
    | none => rfl
    | some d => exact congrFun (if_neg (by rw [hno d hdecl]; exact Bool.false_ne_true)) s0

/-- An atomic answers the old value, after what its order does after it, and goes on. -/
theorem atomic_ok {rd : BitVec 5} {rs1 off : BitVec 3} {rs2 : BitVec 5} {old : Nat} (hold : old < 2 ^ (8 * atomBytes dw))
    (h : atomicAt s.cur op dw so (getS (here s) (rs1.setWidth 5) + off.setWidth 64 * 4)
      ((getS (here s) rs2).toNat % 2 ^ (8 * atomBytes dw)) ((getS (here s) rd).toNat % 2 ^ (8 * atomBytes dw)) s = .ok (BitVec.ofNat 64 old) s4) :
    let t := updCore (atomicEnd s4 s.cur so) s.cur fun k => setS k rd (atomicReturns op dw old)
    atomic op dw so rd rs1 off rs2 s = .next (updCore t t.cur fun k => retire k 4) := by
  have hwidth : (if dw then 64 else 32) = 8 * atomBytes dw := by cases dw <;> rfl
  have hsmall : (BitVec.ofNat 64 old).toNat = old := by
    have hbytes : 8 * atomBytes dw ≤ 64 := by cases dw <;> decide
    exact (BitVec.toNat_ofNat ..).trans (Nat.mod_eq_of_lt (Nat.lt_of_lt_of_le hold (Nat.pow_le_pow_right (by decide) hbytes)))
  intro t
  rw [atomic]
  refine control_ok ?_
  refine M.bind_ok (a := atomicReturns op dw old) (s' := atomicEnd s4 s.cur so) ?_
  beta_reduce
  rw [M.theCore_bind, hwidth, M.bind_ok h, M.bind_ok (afterAtomic_run s4 s.cur so), hsmall, atomResult_eq op dw hold]
  rfl

/-- The model's number of the value that an atomic writes is that of the bit vectors, on every value that its place can hold. -/
theorem sameRmw_atomNew (op : AtomOp) (dw : Bool) (v x : DWord) :
    SameRmw (atomBytes dw)
      (cleanRmw fun old => atomNew op (8 * atomBytes dw) old (v.toNat % 2 ^ (8 * atomBytes dw)) (x.toNat % 2 ^ (8 * atomBytes dw)))
      (cleanRmw fun old => (atomicWrites op (8 * atomBytes dw) (BitVec.ofNat _ old) (BitVec.ofNat _ v.toNat) (BitVec.ofNat _ x.toNat)).toNat) :=
  sameRmw_clean fun _ hold => atomNew_eq op (by cases dw <;> decide) hold _ _

/-- The instructions of the list are the model's atomics. -/
theorem exec_of_mem_atomics {so : ScopeOrder} {rd : BitVec 5} {rs1 off : BitVec 3} {rs2 : BitVec 5} {f : Instr × AtomOp × Bool}
    (hf : f ∈ atomics so rd rs1 off rs2) (s : State) : exec f.1 s = atomic f.2.1 f.2.2 so rd rs1 off rs2 s := by
  simp only [atomics, List.mem_cons, List.not_mem_nil, or_false] at hf
  rcases hf with rfl | rfl | rfl | rfl | rfl | rfl | rfl | rfl | rfl | rfl | rfl | rfl | rfl <;> rfl

end

/-- Settles O25: the operation of the place, near or far, with the write that the bit vectors say, and then the instruction's end. -/
theorem atomicsAnywhere : Obligations.AtomicsAnywhere := by
  rintro s s0 sr s3 so rd rs1 off3 rs2 loc old hd ⟨i, op, dw⟩ hf
  intro n va hal ht hcur ho hno far home hfar hnear s1 s2 hrmw hold s4 s5
  rw [exec_of_mem_atomics hf]
  refine atomic_ok hold ?_
  rw [atomicAt_ok hd hal ht hno]
  have happly := atomicRmw_ok ((congrFun (rmwAt_congr (sameRmw_atomNew op dw (getS (here s) rs2) (getS (here s) rd)) ..) s2).trans hrmw)
  by_cases h : far = true
  · obtain ⟨hreach, hsr, hl, hlr, hh⟩ := hfar h
    have hs2 : s2 = afterIssue s1 s.cur := if_pos h
    have hs4 : s4 = afterReply s3 s.cur home (getCore s1 s.cur).seq (BitVec.ofNat 64 old) := if_pos h
    rw [hs2] at happly
    exact (rmwOp_far hcur ho h hreach hsr hl hlr hh happly).trans (by rw [← hs4])
  · have hs2 : s2 = s1 := if_neg h
    have hs4 : s4 = s3 := if_neg h
    have hsr := hnear (Bool.not_eq_true _ ▸ h)
    rw [hs2] at happly
    subst hsr
    exact (rmwOp_near hcur ho (Bool.not_eq_true _ ▸ h) happly).trans (by rw [← hs4])

end Sys2Proof.Machine

/-! ## Atomics on the own scratchpad window (R227, R229, log 8) -/

namespace Sys2Proof.Machine

section
variable {s : State} {c : CoreId} {off n : Nat}

/-- A read-modify-write of clean bytes of the own window that writes a value writes it there, and answers the old one (R227). -/
theorem rmwAt_own (hc : CleanAt s (sramKey c off) n) (va : DWord) (sc : Scope) (f : Nat → Nat) :
    rmwAt c (ownLoc c off) sc n va (cleanRmw f) s = .ok (bytesAt s (sramKey c off) n, false)
      (markWatched (storePut s (sramKey c off) n (f (bytesAt s (sramKey c off) n)) false) c 0) := by
  have hsram : rmwSram c off n (cleanRmw f) s = .ok (bytesAt s (sramKey c off) n, false)
      (storePut s (sramKey c off) n (f (bytesAt s (sramKey c off) n)) false) := by
    rw [rmwSram, M.get_bind, storeField_clean hc, ← bytesAt_eq_memLoad]
    rfl
  rw [rmwAt, M.theCore_bind]
  exact (M.bind_ok hsram).trans rfl

/-- The scope alone decides whether an atomic on the own window is a request (R229). -/
theorem rmwRemote_own (k : Core) (c : CoreId) (off : Nat) (sc : Scope) : rmwRemote k c (ownLoc c off) sc = scopeRemote sc := by
  simp [rmwRemote, ownLoc]

theorem atomicReach_own (k : Core) (c : CoreId) (off : Nat) (sc : Scope) (va : DWord) (s : State) :
    atomicReach k c (ownLoc c off) sc va s = .ok () s :=
  congrFun (if_pos rfl) s

/-- A ticket leaves a home as ready as it was. -/
theorem homeTakes_of_ticket {so : ScopeOrder} {home : Option Nat} (h : HomeTakes (atomicTicket s so) c home) : HomeTakes s c home where
  numberFree := by simpa using h.numberFree
  room := by simpa using h.room
  lineFree line := by simpa [lineBusy] using h.lineFree line

end

/-- Settles O24: an atomic anywhere, at the bytes of the own window. -/
theorem scratchAtomics : Obligations.ScratchAtomics := by
  intro s so rd rs1 off3 rs2 off s1 far hd hl ho hl1 hcur hh f hf n key hown s2 hclean old new s3 s4 t
  have hn : ElemBytes n := by cases h : f.2.2 <;> simp [n, h, ElemBytes]
  have hcore : getCore s1 s.cur = getCore (atomicReleased s so) s.cur := atomicTicket_core ..
  have hfar : rmwRemote (here s) s.cur (ownLoc s.cur off) so.scope = far := rmwRemote_own ..
  have hany := atomicsAnywhere s s (atomicReleased s so) s3 so rd rs1 off3 rs2 (ownLoc s.cur off) old hd f hf
    (beq_iff_eq.1 (aligned_of_ownScratch hown hn)) (translate_of_ownScratch hown (by decide)) rfl ho (by simp [declared, ownLoc])
    (fun h => ⟨atomicReach_own .., atomicReleased_cur s so, hl, hcore ▸ hl1, homeTakes_of_ticket (hh (hfar ▸ h))⟩) (fun _ => rfl)
  simp only [hfar] at hany
  exact hany (rmwAt_own hclean _ _ _) (bytesAt_lt ..)

end Sys2Proof.Machine

/-! ## Scalar accesses that fault or wait (R156, R216, R217, R219, R230, R261, log 32) -/

namespace Sys2Proof.Machine

/-! ### Gates that hold a read back -/

/-- An access that comes after a waiting release, acquire or fence, or that a replay holds back (R230, R261). -/
theorem memGate_wait {s : State} {c : CoreId} (h : (getCore s c).streams.rep.run ≠ none ∨ (getCore s c).streams.deferred ≠ []) :
    memGate c s = .error .wait s := by
  rw [memGate]
  by_cases hrun : (getCore s c).streams.rep.run = none
  · have hsync : (getCore s c).streams.deferred.isEmpty = false := by
      simpa using h.resolve_left (not_not_intro hrun)
    rw [M.bind_ok (notPosting_ok hrun), M.theCore_bind, hsync]
    rfl
  · exact M.bind_error (notPosting_wait hrun)

/-- The memory gate lets an access through, or holds it back and changes nothing. -/
theorem memGate_cases (s : State) (c : CoreId) : memGate c s = .ok () s ∨ memGate c s = .error .wait s := by
  by_cases h : (getCore s c).streams.rep.run = none ∧ (getCore s c).streams.deferred = []
  · exact .inl (memGate_quiet ⟨h.1, h.2⟩)
  · exact .inr (memGate_wait (not_and_or.1 h))

/-- A read of bytes that a posted entry still has to write (R217). -/
theorem conflicts_of_posted_write {s : State} {c : CoreId} {e : Entry} {va a : DWord} {m n : Nat} (he : e ∈ queued (getCore s c))
    (hw : spansOf (getCore s c) e false = ([], [.bytes a m])) (hmeet : Span.meets c (.bytes va n) (.bytes a m) = true) :
    conflicts s c (fun _ => true) [.bytes va n] [] = true := by
  rw [conflicts, List.any_eq_true]
  refine ⟨e, by simpa using he, ?_⟩
  rw [mustFollow, hw]
  simp [spansMeet, hmeet]

theorem gateRead_wait {s : State} {c : CoreId} {va : DWord} {n : Nat}
    (h : (getCore s c).streams.rep.run ≠ none ∨ (getCore s c).streams.deferred ≠ [] ∨ conflicts s c (fun _ => true) [.bytes va n] [] = true) :
    gateRead c va n s = .error .wait s := by
  rw [gateRead, gateSpans]
  rcases memGate_cases s c with hok | hwait
  · have hconflict : conflicts s c (fun _ => true) [.bytes va n] [] = true := by
      rcases h with hrun | hsync | hconflict
      · exact absurd (hok.symm.trans (memGate_wait (.inl hrun))) (by simp)
      · exact absurd (hok.symm.trans (memGate_wait (.inr hsync))) (by simp)
      · exact hconflict
    rw [M.bind_ok hok, M.get_bind, hconflict]
    rfl
  · exact M.bind_error hwait

/-- R156, R217, R230, R261: a replay, a waiting release or acquire, and a posted write. -/
theorem loadsWait : Parts.LoadsWait := by
  intro s rt rs1 imm f hf h
  obtain ⟨-, hexec⟩ := exec_of_mem_loads hf
  rw [hexec]
  refine load_wait (gateRead_wait ?_)
  rcases h with hrun | hsync | ⟨e, he, a, m, hw, hmeet⟩
  · exact .inl hrun
  · exact .inr (.inl hsync)
  · exact .inr (.inr (conflicts_of_posted_write he hw hmeet))

/-! ### Addresses that fault (R216) -/

section
variable {s : State} {c : CoreId} {va : DWord} {n : Nat}

theorem loadScalar_misaligned (h : va.toNat % n ≠ 0) : loadScalar c va n s = .error (.trap (trapInfo .misalign va)) s := by
  rw [loadScalar, beq_eq_false_iff_ne.2 h, require_false, M.raise_bind]

theorem storeScalar_misaligned (h : va.toNat % n ≠ 0) (v : DWord) :
    storeScalar c va n v s = .error (.trap (trapInfo .misalign va)) s := by
  rw [storeScalar, beq_eq_false_iff_ne.2 h, require_false, M.raise_bind]

/-- An address of the own window beyond the partition raises SCRATCH_RANGE (R191, R216). -/
theorem translate_own_beyond {off : Nat} {acc : Access} (h : Alive s c) (hacc : acc ≠ .fetch) (hoff : off < 2 ^ 42)
    (hbeyond : scratchSize (getCore s c) < off + n) :
    translate c (ownAddr off) n acc s = .error (.trap (trapInfo .scratchRange (ownAddr off))) s := by
  obtain ⟨hwin, hfield, hlow⟩ := slice_ownAddr hoff
  have hscratch : checkScratch c c off n (ownAddr off) s = .error (.trap (trapInfo .scratchRange (ownAddr off))) s := by
    rw [checkScratch, M.bind_ok (reachCore_self h _), M.theCore_bind, M.theCore_bind, decide_eq_false (Nat.not_le.2 hbeyond), require_false,
      M.raise_bind]
  rw [translate, M.theCore_bind, if_pos hwin, hfield, hlow, bne_iff_ne.2 hacc]
  exact M.bind_error (f := fun _ => pure (ownLoc c off)) hscratch

/-- An offset of the own window that is a multiple of a size gives an address that is one. -/
theorem ownAddr_aligned {off : Nat} (hn : ElemBytes n) (hoff : off < 2 ^ 42) (hal : off % n = 0) : ((ownAddr off).toNat % n == 0) = true := by
  rw [beq_iff_eq, toNat_ownAddr hoff]
  rcases hn with rfl | rfl | rfl | rfl <;> omega

/-- A load and a store whose translation faults. -/
theorem loadScalar_untranslated {x : Stop} (hal : (va.toNat % n == 0) = true) (ht : translate c va n .read s = .error x s) :
    loadScalar c va n s = .error x s := by
  rw [loadScalar, hal, require_true, M.pure_bind_run, M.bind_error ht]

theorem storeScalar_untranslated {x : Stop} (hal : (va.toNat % n == 0) = true) (ht : translate c va n .write s = .error x s) (v : DWord) :
    storeScalar c va n v s = .error x s := by
  rw [storeScalar, hal, require_true, M.pure_bind_run, M.bind_error ht]

end

/-- R216, R219: the alignment comes first, then the range. -/
theorem scalarAccessFaults : Parts.ScalarAccessFaults := by
  intro s rt rs1 imm hd va faults
  have loads {f : Instr × Nat × Bool} {x : Cause} (hf : f ∈ Loads rt rs1 imm)
      (h : loadScalar s.cur va f.2.1 s = .error (.trap (trapInfo x va)) s) : faults f.1 x := by
    obtain ⟨-, hexec⟩ := exec_of_mem_loads hf
    exact (hexec s).trans (load_trap (gateRead_drained hd _ _) h)
  have stores {f : Instr × Nat} {x : Cause} (hf : f ∈ Stores rt rs1 imm)
      (h : storeScalar s.cur va f.2 (getS (here s) rt) s = .error (.trap (trapInfo x va)) s) : faults f.1 x := by
    obtain ⟨-, hexec⟩ := exec_of_mem_stores hf
    exact (hexec s).trans (store_trap (gateWrite_drained hd _ _) h)
  refine ⟨fun f hf hal => loads hf (loadScalar_misaligned hal), fun f hf hal => stores hf (storeScalar_misaligned hal _),
    fun off hva hoff halive => ⟨fun f hf hal hbeyond => loads hf ?_, fun f hf hal hbeyond => stores hf ?_⟩⟩
  · rw [hva]
    exact loadScalar_untranslated (ownAddr_aligned (exec_of_mem_loads hf).1 hoff hal) (translate_own_beyond halive (by decide) hoff hbeyond)
  · rw [hva]
    exact storeScalar_untranslated (ownAddr_aligned (exec_of_mem_stores hf).1 hoff hal) (translate_own_beyond halive (by decide) hoff hbeyond) _

/-- Settles O23: the faults by the check that raises each, and the waits by the gate that holds the load back. -/
theorem accessesThatStop : Obligations.AccessesThatStop := ⟨scalarAccessFaults, loadsWait⟩

end Sys2Proof.Machine

/-! ## Scalar accesses wherever their translation leads (R189, R217 to R219, R371) -/

namespace Sys2Proof.Machine

section
variable {s s1 s2 : State} {rt rs1 : BitVec 5} {imm : BitVec 12} {loc : Loc} {v n : Nat} (hd : Drained (here s))
  (hal : (eaOf (here s) rs1 imm).toNat % n = 0)
include hd hal

/-- A load whose translation and read succeed writes what it has read, extended, in the state that the read leaves (R217, R219). -/
theorem load_anywhere (ht : translate s.cur (eaOf (here s) rs1 imm) n .read s = .ok loc s1)
    (hr : readAt s.cur loc n (eaOf (here s) rs1 imm) s1 = .ok (v, false) s2) (signed : Bool) :
    load n signed rt rs1 imm s =
      .next (let t := updCore s2 s.cur fun k => setS k rt (extendTo signed n v); updCore t t.cur fun k => retire k 4) := by
  have hread : loadScalar s.cur (eaOf (here s) rs1 imm) n s = .ok v s2 := by
    rw [loadScalar, beq_iff_eq.2 hal, require_true, M.pure_bind_run, M.bind_ok ht, M.bind_ok hr]
    rfl
  rw [load]
  refine control_ok ?_
  refine M.bind_ok (a := extendTo signed n v) (s' := s2) ?_
  beta_reduce
  rw [M.theCore_bind, M.bind_ok (gateRead_drained hd _ n), M.bind_ok hread]
  rfl

/-- A load that reads a poisoned word raises POISON, after a CONSUMED record of the first one (R218, R371, R381). -/
theorem load_poisoned (ht : translate s.cur (eaOf (here s) rs1 imm) n .read s = .ok loc s1)
    (hr : readAt s.cur loc n (eaOf (here s) rs1 imm) s1 = .ok (v, true) s2) (signed : Bool) :
    let consumed := coreErr s2 s.cur 1 true (poisonedWord s2 s.cur loc n) (eaOf (here s) rs1 imm) (whereAt (getCore s2 s.cur)).toNat 0
    load n signed rt rs1 imm s =
      .next (stopAt s (report s2 consumed) s.cur (controlTrap (trapInfo .poison (eaOf (here s) rs1 imm)) (here s).pc)) := by
  refine load_trap (gateRead_drained hd _ n) ?_
  rw [loadScalar, beq_iff_eq.2 hal, require_true, M.pure_bind_run, M.bind_ok ht, M.bind_ok hr]
  rfl

/-- A store whose translation and write succeed goes on in the state that the write leaves (R217, R219). -/
theorem store_anywhere (ht : translate s.cur (eaOf (here s) rs1 imm) n .write s = .ok loc s1)
    (hw : writeAt s.cur loc n ((getS (here s) rt).toNat % 2 ^ (8 * n)) false (eaOf (here s) rs1 imm) s1 = .ok () s2) :
    store n rt rs1 imm s = .next (updCore s2 s2.cur fun k => retire k 4) := by
  refine store_ok (gateWrite_drained hd _ n) ?_
  rw [storeScalar, beq_iff_eq.2 hal, require_true, M.pure_bind_run, M.bind_ok ht, hw]

end

/-- The second part of `AccessesAnywhere` holds. -/
theorem poisonedLoads : Parts.PoisonedLoads := by
  intro s s1 s2 rt rs1 imm loc v hd f hf va hal ht hr
  obtain ⟨-, hexec⟩ := exec_of_mem_loads hf
  exact (hexec s).trans (load_poisoned hd hal ht hr _)

/-- The third part of `AccessesAnywhere` holds. -/
theorem storesAnywhere : Parts.StoresAnywhere := by
  intro s s1 s2 rt rs1 imm loc hd f hf va hal ht hw
  obtain ⟨-, hexec⟩ := exec_of_mem_stores hf
  exact (hexec s).trans (store_anywhere hd hal ht hw)

/-! ### A remembered answer wider than its load (R189) -/

/-- What an instruction did before it had to wait it does not do again (R189). -/
theorem once_replayed {s : State} {c : CoreId} {key : Nat} {m : M (Nat × Bool)} {a : Answer} {k : Core}
    (h : takeAnswer (getCore s c) (streamKey (getCore s c)) key = some (a, k)) :
    once c key m s = .ok (a.val, a.bad) (updCore s c fun _ => k) := by
  rw [once, M.theCore_bind, h]
  rfl

/-- The leaf of a page at 0x70000: R, W, X and U, HOME 00, MTYPE device (R184, R189). -/
def deviceLeaf : DWord := BitVec.ofNat 64 (1 + 2 + 4 + 8 + 16 + 2 * 2 ^ 7 + 2 ^ 11 + 7 * 2 ^ 20)

/-- That page in the TLB. -/
def deviceTlb : TlbEntry := { wideTlb with leaf := deviceLeaf }

/-- A device read at 0x70088 that has been answered with 512. -/
def wideAnswer : Answer := { key := 0x70088, val := 512, bad := false }

/-- A core whose control thread holds that answer, with 0x70088 in `s3`. -/
def wideAnswerCore : Core :=
  setS { Core.reset with tables := { Core.reset.tables with tlb := [deviceTlb] }, replays := [(0, [wideAnswer])] } 3 0x70088

/-- The package after reset with that core. -/
def wideAnswerState : State := setCore State.reset 0 wideAnswerCore

theorem drained_wideAnswerState : Drained (here wideAnswerState) := ⟨⟨rfl, rfl⟩, rfl, rfl⟩

theorem address_wideAnswerState : eaOf (here wideAnswerState) 3 0 = 0x70088 := by decide +kernel

theorem tlb_wideAnswerState :
    (here wideAnswerState).tables.tlb.find? (fun t => t.covers (here wideAnswerState).tregs.asid 0x70088) = some deviceTlb := by decide +kernel

theorem onPage_wideAnswerState : OnPage wideAnswerState 0x70088 .read 0x70088 (pageOf deviceLeaf 16) where
  hit := ⟨deviceLeaf, 16, ⟨by decide, deviceTlb, tlb_wideAnswerState, rfl, rfl⟩, rfl, by decide +kernel⟩
  allowed := by decide +kernel
  memory := by decide +kernel

theorem readAt_wideAnswerState : ∃ k, readAt 0 (.mem 0x70088 (pageOf deviceLeaf 16)) 1 0x70088 wideAnswerState =
    .ok (512, false) (updCore wideAnswerState 0 fun _ => k) := by
  have hdevice : isDevice 0x70088 (pageOf deviceLeaf 16) = true := by decide +kernel
  have htake : ∃ k, takeAnswer (here wideAnswerState) (streamKey (here wideAnswerState)) 0x70088 = some (wideAnswer, k) := ⟨_, rfl⟩
  obtain ⟨k, htake⟩ := htake
  refine ⟨k, ?_⟩
  rw [readAt, hdevice]
  exact once_replayed htake

/-- The register of the running core that an instruction has written as it goes on. -/
theorem getS_here_written {s : State} {c : CoreId} {rt : BitVec 5} {v : DWord} (hc : s.cur = c) (hrt : rt ≠ 0) :
    getS (here (let t := updCore s c fun k => setS k rt v; updCore t t.cur fun k => retire k 4)) rt = v := by
  subst hc
  have hretire (k : Core) : getS (retire k 4) rt = getS k rt := by simp [getS]
  rw [here, updCore_cur, getCore_updCore_self, hretire, updCore_cur, getCore_updCore_self, getS_setS, if_pos ⟨rfl, hrt⟩]

/-- Refutes O22: the statement speaks of every state, and nothing in a state bounds the answer of a device read that a core has kept, which a
load is given as it stands (R189). An `ldb` that is given 512 writes 256, where the statement asks for the sign extension of its low byte, 0.
The other two parts of the statement hold (`poisonedLoads`, `storesAnywhere`). -/
theorem not_accessesAnywhere : ¬ Obligations.AccessesAnywhere := by
  unfold Obligations.AccessesAnywhere
  rintro ⟨h, -⟩
  obtain ⟨k, hr⟩ := readAt_wideAnswerState
  have ht := translate_onPage onPage_wideAnswerState 1
  have hal : (eaOf (here wideAnswerState) 3 0).toNat % 1 = 0 := Nat.mod_one _
  rw [← address_wideAnswerState] at ht hr
  have hclaim := h wideAnswerState wideAnswerState _ 5 3 0 _ 512 drained_wideAnswerState (.ldb 5 3 0, 1, true) List.mem_cons_self hal ht hr
  have hmodel := load_anywhere (rt := 5) drained_wideAnswerState hal ht hr true
  have hwritten (v : DWord) := getS_here_written (s := updCore wideAnswerState 0 fun _ => k) (v := v) rfl (show (5 : BitVec 5) ≠ 0 by decide)
  have hregister := congrArg (fun t => getS (here t) 5) (Host.Outcome.next.inj (hmodel.symm.trans hclaim))
  exact absurd ((hwritten _).symm.trans (hregister.trans (hwritten _))) (by decide)

end Sys2Proof.Machine

/-! ## Transactions (R229, R236, R237, log 8) -/

namespace Sys2Proof.Machine

/-! ### `xbeg` and `xcmp` -/

/-- An instruction that replaces the transaction of its core. -/
theorem control_setTx {s : State} {f : Core → Transaction} {x : Transaction} (hr : (here s).streams.rep.run = none) (hx : f (here s) = x) :
    control (fun c => do notPosting c; modCore c fun k => setTx k (f k)) s =
      commits s fun k => { k with streams := { k.streams with tx := x } } := by
  refine (control_ok (s' := updCore s s.cur fun k => setTx k (f k)) ?_).trans ?_
  · rw [M.bind_ok (notPosting_ok hr)]
    rfl
  · rw [updCore_cur, updCore_updCore]
    exact congrArg Host.Outcome.next (updCore_congr (by rw [hx]; rfl))

/-- R237: a transaction begun, and what a pair adds to it. -/
theorem transactionState : Parts.TransactionState := by
  intro s rs1 rs2 hr t sets
  have hpair {x : Transaction} (h : addPair t (getS (here s) rs1) ((getS (here s) rs2).setWidth 32) = x) : sets (.xcmp rs1 rs2) x :=
    control_setTx (f := fun k => addPair k.streams.tx (getS k rs1) ((getS k rs2).setWidth 32)) hr h
  refine ⟨control_setTx (f := fun k => { isOpen := true, desc := getS k rs1, pairs := [], bad := false, request := none }) hr rfl,
    fun hopen => hpair ?_, fun hopen hlen => hpair ?_, fun hopen hlen => hpair ?_⟩
  · simp [addPair, hopen]
  · simp [addPair, hopen, hlen]
  · simp [addPair, hopen, Nat.not_lt.2 hlen]

/-! ### `xend` -/

/-- A core whose control thread executes and has no operation outstanding waits for no reply. -/
theorem remoteOf_free {k : Core} (hd : k.doing = none) (hr : k.remote = none) : remoteOf k = none := by
  rw [remoteOf, if_pos (by simp [streamKey, hd]), hr]

theorem opPending_free {k : Core} (hd : k.doing = none) (hr : k.remote = none) (key : DWord) : opPending k key = false := by
  rw [opPending, remoteOf_free hd hr]
  rfl

/-- What a transaction does once it has been decided: nothing, or its request. -/
def txFinish (c : CoreId) (t : Transaction) : Option TxRequest → M DWord
  | none => pure 2
  | some q => do
    modCore c fun k => setTx k { k.streams.tx with request := some q }
    txSend c t.desc q

section
variable {s s2 s3 : State} {c : CoreId} {t : Transaction}

/-- A transaction whose request does not await its reply releases, decides and commits. -/
theorem txEnd_eq (hp : opPending (getCore s c) t.desc = false) (hr : ReleaseFree s c .pkg allRegions)
    (ha : AcquireFree (release s c .pkg allRegions) c .pkg allRegions) :
    txEnd c t s = (txDecide c t >>= txFinish c t) (release s c .pkg allRegions) := by
  have hready : acquireReady c .pkg allRegions (release s c .pkg allRegions) = .ok () (release s c .pkg allRegions) := pushReady_ok ha
  rw [txEnd, M.theCore_bind, hp]
  refine (M.bind_ok (releaseNow_ok hr)).trans ((M.bind_ok hready).trans ?_)
  refine congrFun (congrArg (txDecide c t >>= ·) (funext fun q => ?_)) _
  cases q <;> rfl

theorem txFinish_some (q : TxRequest) :
    txFinish c t (some q) s2 = txSend c t.desc q (updCore s2 c fun k => setTx k { k.streams.tx with request := some q }) := rfl

end

section
variable {s s2 : State} {rd : BitVec 5} (hd : Drained (here s))
include hd

theorem exec_xend_closed (ho : (here s).streams.tx.isOpen = false) : exec (.xend rd) s = .next (writeScalar s rd 2) := by
  change execXend rd s = _
  rw [execXend]
  refine controlTo_ok ?_ rfl
  rw [M.theCore_bind, ho]
  exact M.bind_ok (notPosting_ok hd.noRun)

variable (ho : (here s).streams.tx.isOpen = true)
include ho

/-- An open transaction that has answered acquires, closes and writes its answer. -/
theorem exec_xend_ok {v : DWord} (h : txEnd s.cur (here s).streams.tx s = .ok v s2) :
    exec (.xend rd) s =
      .next (let u := updCore (joinSync s2 s.cur (.acq .pkg allRegions)) s.cur fun k =>
               setTx k { k.streams.tx with isOpen := false, request := none }
             let u := updCore u s.cur fun k => setS k rd v
             updCore u u.cur fun k => retire k 4) := by
  change execXend rd s = _
  rw [execXend, controlTo]
  refine control_ok ?_
  refine M.bind_ok (a := v) (s' := updCore (joinSync s2 s.cur (.acq .pkg allRegions)) s.cur fun k =>
    setTx k { k.streams.tx with isOpen := false, request := none }) ?_
  rw [M.theCore_bind, ho]
  exact (M.bind_ok (gateAll_drained hd)).trans (M.bind_ok h)

/-- One that traps stays open. -/
theorem exec_xend_trap {x : TrapInfo} (h : txEnd s.cur (here s).streams.tx s = .error (.trap x) s2) :
    exec (.xend rd) s = .next (stopAt s s2 s.cur (controlTrap x (here s).pc)) := by
  change execXend rd s = _
  rw [execXend]
  refine controlTo_trap ?_
  rw [M.theCore_bind, ho]
  exact (M.bind_ok (gateAll_drained hd)).trans (M.bind_error h)

end

/-- R237: the release, and then what is decided and sent. -/
theorem xendDecides : Parts.XendDecides := by
  intro s rd hd t
  refine ⟨exec_xend_closed hd, ?_⟩
  intro hopen hdoing hremote hr s1 ha ends traps
  have hend : txEnd s.cur t s = (txDecide s.cur t >>= txFinish s.cur t) s1 := txEnd_eq (opPending_free hdoing hremote _) hr ha
  refine ⟨fun s2 h => exec_xend_ok hd hopen (hend.trans (M.bind_ok h)), fun q s2 h => ?_,
    fun x s2 h => exec_xend_trap hd hopen (hend.trans (M.bind_error h))⟩
  have hsend := (hend.trans (M.bind_ok h)).trans (txFinish_some q)
  exact ⟨fun v s3 h => exec_xend_ok hd hopen (hsend.trans h), fun x s3 h => exec_xend_trap hd hopen (hsend.trans h)⟩

/-! ### Transactions that name no word -/

/-- An image of no byte is 0. -/
theorem readImage_zero (c : CoreId) (va : DWord) (s : State) : readImage c va 0 s = .ok 0 s := rfl

section
variable {s : State} {off n : Nat} {va : DWord}

/-- Bytes of the own window that lie within one line are one piece (R216). -/
theorem rangePieces_one (h0 : 0 < n) (hline : va.toNat % 128 + n ≤ 128) : rangePieces va n = [(va, n)] := by
  have hmin : min n (128 - va.toNat % 128) = n := by omega
  have hrest (fuel : Nat) (a : DWord) : pieces fuel a 0 = [] := by cases fuel <;> rfl
  rw [rangePieces, pieces, if_neg (by omega)]
  simp only [hmin, Nat.sub_self, hrest]

/-- An image of clean bytes of the own window that lie within one line is their number. -/
theorem readImage_own (h : OwnScratch s va off n) (hc : CleanAt s (sramKey s.cur off) n) (h0 : 0 < n) (hline : va.toNat % 128 + n ≤ 128) :
    readImage s.cur va n s = .ok (bytesAt s (sramKey s.cur off) n) s := by
  have hprobe : probeRange s.cur va n .read s = .ok [(ownLoc s.cur off, va, n)] s := by
    rw [probeRange, rangePieces_one h0 hline]
    refine collect_ok (g := fun p => (ownLoc s.cur off, p)) fun p hp => ?_
    rw [List.mem_singleton.1 hp, M.bind_ok (translate_of_ownScratch h (by decide))]
    rfl
  have hpieces : readPieces s.cur [(ownLoc s.cur off, va, n)] s = .ok (bytesAt s (sramKey s.cur off) n, none) s := by
    have hpiece : readPiece s.cur (ownLoc s.cur off, va, n) s = .ok (bytesAt s (sramKey s.cur off) n, false) s := readAt_own s s.cur va hc
    rw [readPieces, M.bind_ok hpiece]
    change EStateM.Result.ok (bytesAt s (sramKey s.cur off) n + 0 * _, none) s = _
    rw [Nat.zero_mul, Nat.add_zero]
  rw [readImage, M.bind_ok hprobe, M.bind_ok hpieces]
  rfl

/-- An address of 16 bytes of the own window, aligned there. -/
theorem aligned_descriptor (h : OwnScratch s va off 16) : va.toNat % 16 = 0 := by
  have hal := h.aligned
  rw [h.addr, toNat_ownAddr (Nat.lt_of_le_of_lt (Nat.le_trans (Nat.le_add_right ..) h.fits) (scratchSize_lt _))]
  omega

end

/-- A request of no word takes its ticket and answers 1, at no home (R237). -/
theorem txSend_empty {s : State} {c : CoreId} (hl : LinkFree (getCore s c)) (hh : HomeTakes s c none) (desc : DWord) :
    txSend c desc { words := [], expected := [], values := [] } s =
      .ok 1 (afterReply (afterIssue (takeTicket s c .pkg) c) c none (getCore (takeTicket s c .pkg) c).seq 1) :=
  remoteWith_ok (sp := s) (sr := s) (st := takeTicket s c .pkg) hl rfl rfl hl hh (takeTicket_core ..) (takeTicket_hubDups ..)
    rfl rfl

section
variable {s : State} {c : CoreId} {t : Transaction} {hdr : Nat} (hal : t.desc.toNat % 16 = 0) (hread : readImage c t.desc 16 s = .ok hdr s)
include hal hread

/-- A transaction that is BAD, or whose header has a count beyond 8 or a reserved bit, commits nothing (R236, R237). -/
theorem txDecide_none (h : t.bad = true ∨ hdr / 16 ≠ 0) : txDecide c t s = .ok none s := by
  have hbad : (t.bad || decide (8 < hdr % 16) || hdr / 16 != 0) = true := by
    rcases h with h | h <;> simp [h]
  rw [txDecide, beq_iff_eq.2 hal, require_true, M.pure_bind_run, M.bind_ok hread, hbad]
  rfl

/-- A transaction that compares nothing and names no word asks for the request of no word. -/
theorem txDecide_empty (hbad : t.bad = false) (hz : hdr = 0) (hp : t.pairs = []) :
    txDecide c t s = .ok (some { words := [], expected := [], values := [] }) s := by
  subst hz
  rw [txDecide, beq_iff_eq.2 hal, require_true, M.pure_bind_run, M.bind_ok hread, hbad, hp]
  exact (M.bind_ok (readImage_zero c (t.desc + 16) s)).trans rfl

end

/-- R237: the header decides, and an empty request takes a ticket. -/
theorem emptyTransactions : Parts.EmptyTransactions := by
  intro s t off hown hclean hl hdr q
  have hal := aligned_descriptor hown
  have hread : readImage s.cur t.desc 16 s = .ok hdr s := readImage_own hown hclean (by decide) (by omega)
  exact ⟨fun hbad => txDecide_none hal hread (.inl hbad), fun hn hne => txDecide_none hal hread (.inr (by omega)),
    txDecide_empty hal hread, fun hh => ⟨_, txSend_empty hl hh _, rfl, rfl, rfl⟩⟩

/-- Settles O31: what each instruction makes of the transaction, by what is decided and sent. -/
theorem transactions : Obligations.Transactions := ⟨transactionState, xendDecides, emptyTransactions⟩

end Sys2Proof.Machine

/-! ## Ownership of lines (R201, R202, R232, log 8) -/

namespace Sys2Proof.Machine

/-! ### Remote operations of a place in memory -/

/-- The checks before a request to a home that takes it (R101, R375, R393). -/
theorem reachHome_ok {s : State} {c : CoreId} {line : Nat} (h : homeRefuses s line = none) (va : DWord) :
    reachHome c line va s = .ok () (reached s c line) := by
  have hrefuses : homeRefuses (reached s c line) line = none := (homeRefuses_markDie ..).trans h
  rw [reachHome, M.modify_bind, M.get_bind]
  change (match homeRefuses (reached s c line) line with
    | some (.die d) => raise .dieLost (BitVec.ofNat 64 d)
    | some .notReady => raise .protect va
    | some .held => (do
      modify fun s => noteLate s line
      waitHere)
    | _ => pure () : M Unit) _ = _
  rw [hrefuses]
  rfl

/-- A core whose links are free has free links when its request has reached a home. -/
theorem linkFree_markDie {s : State} {c : CoreId} (b : Nat) : LinkFree (getCore (markDie s c b) c) ↔ LinkFree (getCore s c) := by
  obtain ⟨r, h⟩ := getCore_markDie s c b
  rw [h]
  exact ⟨fun ⟨h1, h2, h3⟩ => ⟨h1, h2, h3⟩, fun ⟨h1, h2, h3⟩ => ⟨h1, h2, h3⟩⟩

/-- A remote operation of a place in memory, which its home serves at its first issue. -/
theorem remoteOp_ok {s u : State} {c : CoreId} {va : DWord} {pa : Nat} {pg : Page} {apply : M DWord} {v : DWord} (hl : LinkFree (getCore s c))
    (hr : homeRefuses s (lineOf pa) = none) (hh : HomeTakes (reached s c (lineOf pa)) c (some (sliceOf (lineOf pa))))
    (ha : apply (afterIssue (reached s c (lineOf pa)) c) = .ok v u) :
    remoteOp c va (.mem pa pg) (pure ()) (pure ()) apply s =
      .ok v (afterReply u c (some (sliceOf (lineOf pa))) (getCore (reached s c (lineOf pa)) c).seq v) :=
  remoteWith_ok (home := some (sliceOf (lineOf pa))) (sp := s) (st := reached s c (lineOf pa)) hl rfl (reachHome_ok hr va)
    ((linkFree_markDie _).2 hl) hh rfl rfl rfl ha

/-! ### What the home does (R201, R202, R232) -/

section
variable {w : State} {c : CoreId} {sc : Scope} {line : Nat}

/-- A line that no other core owns is not recalled. -/
theorem recallFor_free (h : otherOwner w (some c) line = none) : recallFor c line w = .ok () w := by
  have hsame : recallLine w (some c) line = w := by rw [recallLine, h]
  rw [recallFor, M.modify_bind, hsame, M.get_bind, h]
  rfl

/-- A cluster home without a copy of a line has none to push. -/
theorem dropHome_absent (h : (getCore w (clusterHome c line)).homes.find line = none) : dropHome c line w = .ok () w := by
  have hsame : (if ((getCore w (clusterHome c line)).homes.find line).isSome then sendPush w c (clusterHome c line) (.home line true)
      else w) = w := by
    rw [h]
    rfl
  rw [dropHome, M.modify_bind, hsame, M.theCore_bind, h]
  rfl

/-- A slice with room for a registration keeps those that it has (R197). -/
theorem roomForOwner_free (h : (sliceOwners w line).length < 4096) : roomForOwner line w = .ok () w := by
  have hroom : (sliceOwners w line).length < ownQuota := h
  rw [roomForOwner, M.modify_bind, if_pos hroom, M.get_bind, decide_eq_true hroom]
  rfl

/-- The part of `own` and `disown` at the memory behind a host or peer line, where there is none. -/
theorem notForeign_sys {α : Type} (h : sc ≠ .sys ∨ isForeign line = false) (m n : M α) :
    (if sc = .sys ∧ isForeign line then m else n) = n :=
  if_neg fun hboth => h.elim (fun hsc => hsc hboth.1) fun hf => by simp [hf] at hboth

/-- `own` where no other core owns the line, no copy stands in the cluster home, and there is room (R232). -/
theorem ownHome_free {pg : Page} (hg : pg.lodge = false) (va : DWord) (ho : otherOwner w (some c) line = none)
    (hh : (getCore w (clusterHome c line)).homes.find line = none) (hq : (sliceOwners w line).length < 4096)
    (hp : l1Place (getCore w c) line (lodged (getCore w c) line) = true) (hs : sc ≠ .sys ∨ isForeign line = false) :
    ownHome c sc line pg va w = .ok () (ownLine w c line pg) := by
  have hroom : roomFor c line pg va w = .ok () w := by
    have hsame := roomL1_place hp
    have hok := roomFor_ok (s := w) (c := c) (line := line) hg va (by rwa [hsame])
    rwa [hsame] at hok
  rw [ownHome, M.bind_ok (recallFor_free ho), M.bind_ok (dropHome_absent hh), M.bind_ok (roomForOwner_free hq), M.bind_ok hroom,
    notForeign_sys hs]
  rfl

/-- `disown` where no other core owns the line (R232). -/
theorem disownHome_free (ho : otherOwner w (some c) line = none) (hout : homeOut w c line = false) (hs : sc ≠ .sys ∨ isForeign line = false) :
    disownHome c sc line w = .ok () (disownLine (pushOwn w c line) c line) := by
  have hrecall : (if (Push.line line).sends w c then recallFor c line else pure () : M Unit) w = .ok () w := by
    split
    · exact recallFor_free ho
    · rfl
  rw [disownHome, M.get_bind]
  refine (M.ite_bind_ok hrecall).trans ?_
  beta_reduce
  rw [M.get_bind, hout]
  exact (congrFun (notForeign_sys hs _ _) (pushOwn w c line)).trans rfl

end

/-! ### The instructions -/

/-- What `own` or `disown` does at the home of a line. -/
def ownWork (c : CoreId) (sc : Scope) (own : Bool) (line : Nat) (pg : Page) (va : DWord) : M Unit :=
  if own then ownHome c sc line pg va else disownHome c sc line

/-- `own` or `disown`. -/
def ownInstr (sc : Scope) (own : Bool) (rs1 rs2 : BitVec 5) : Instr := if own then .own sc rs1 rs2 else .disown sc rs1 rs2

/-- Whether `own` or `disown` has something to do at a line. -/
def ownNeeded (s : State) (c : CoreId) (own : Bool) (line : Nat) : Bool := if own then !ownsLine s c line else holdsLine s c line

section
variable {s : State} {sc : Scope} {own : Bool} {rs1 rs2 : BitVec 5} (hw : sc.isWide = true)
include hw

theorem exec_ownInstr : exec (ownInstr sc own rs1 rs2) s = ownRange sc own rs1 rs2 s := by
  cases own <;> exact checked_ok hw

variable (hq : Quiet (here s))
include hq

/-- Over no byte there is no line to do (R232). -/
theorem exec_ownInstr_empty (h : (getS (here s) rs2).toNat = 0) : exec (ownInstr sc own rs1 rs2) s = commits s id := by
  rw [exec_ownInstr hw, ownRange]
  refine control_ok ?_
  rw [M.bind_ok (memGate_quiet hq), M.theCore_bind, h]
  rfl

/-- Bytes of one line are one part (R232). -/
theorem exec_ownInstr_line {t : State} (h0 : 0 < (getS (here s) rs2).toNat)
    (hline : (getS (here s) rs1).toNat % 128 + (getS (here s) rs2).toNat ≤ 128) (h : ownAt s.cur sc own (getS (here s) rs1) s = .ok () t) :
    exec (ownInstr sc own rs1 rs2) s = .next (updCore t t.cur fun k => retire k 4) := by
  have hone : (if (getS (here s) rs2).toNat = 0 then 0 else ((getS (here s) rs1).toNat % 128 + (getS (here s) rs2).toNat + 127) / 128) = 1 := by
    rw [if_neg (by omega)]
    omega
  rw [exec_ownInstr hw, ownRange]
  refine control_ok ?_
  rw [M.bind_ok (memGate_quiet hq), M.theCore_bind, hone, eachLine, M.bind_ok h]
  rfl

end

section
variable {s u : State} {sc : Scope} {own : Bool} {va : DWord} {pa : Nat} {pg : Page} (hl : LinkFree (here s)) (hp : OnPage s va .both pa pg)
include hl

/-- Whether `own` or `disown` leaves a line alone, where its core has no operation outstanding. -/
theorem own_skips : (pg.home != 0 || (!opPending (here s) va && (if own then ownsLine s s.cur (lineOf pa) else !holdsLine s s.cur (lineOf pa)))) =
    (pg.home != 0 || !ownNeeded s s.cur own (lineOf pa)) := by
  rw [opPending_free hl.control hl.noRemote]
  cases own <;> simp [ownNeeded]

include hp

/-- A line of a page of another HOME, or one that is as asked, is left alone (R232). -/
theorem ownAt_left (h : pg.home ≠ 0 ∨ ownNeeded s s.cur own (lineOf pa) = false) : ownAt s.cur sc own va s = .ok () s := by
  have hskip : (pg.home != 0 || !ownNeeded s s.cur own (lineOf pa)) = true := by
    rcases h with h | h <;> simp [h]
  rw [ownAt, M.bind_ok (translate_onPage hp 1)]
  dsimp only
  rw [M.get_bind, own_skips hl, hskip]
  rfl

/-- Any other line is one remote operation, which its home serves (R232). -/
theorem ownAt_served (hh : pg.home = 0) (hn : ownNeeded s s.cur own (lineOf pa) = true) (hr : homeRefuses s (lineOf pa) = none)
    (ht : HomeTakes (reached s s.cur (lineOf pa)) s.cur (some (sliceOf (lineOf pa))))
    (hwork : ownWork s.cur sc own (lineOf pa) pg va (afterIssue (reached s s.cur (lineOf pa)) s.cur) = .ok () u) :
    ownAt s.cur sc own va s =
      .ok () (afterReply u s.cur (some (sliceOf (lineOf pa))) (getCore (reached s s.cur (lineOf pa)) s.cur).seq 0) := by
  have hskip : (pg.home != 0 || !ownNeeded s s.cur own (lineOf pa)) = false := by
    rw [hh, hn]
    rfl
  rw [ownAt, M.bind_ok (translate_onPage hp 1)]
  dsimp only
  rw [M.get_bind, own_skips hl, hskip, if_neg Bool.false_ne_true]
  refine M.bind_ok (f := fun _ => pure ()) (remoteOp_ok hl hr ht ?_)
  cases own <;> exact M.bind_ok hwork

end

/-- Settles O28: no byte, a line that is left alone, and a line that its home serves. -/
theorem ownershipOfLines : Obligations.OwnershipOfLines := by
  intro s sc rs1 rs2 hw hq hl va n
  refine ⟨fun hn => ⟨exec_ownInstr_empty (own := true) hw hq hn, exec_ownInstr_empty (own := false) hw hq hn⟩, ?_, ?_⟩
  · intro pa pg hp hh hline
    have left (own : Bool) : exec (ownInstr sc own rs1 rs2) s = commits s id := by
      rcases Nat.eq_zero_or_pos n with hn | hn
      · exact exec_ownInstr_empty hw hq hn
      · exact exec_ownInstr_line hw hq hn hline (ownAt_left hl hp (.inl hh))
    exact ⟨left true, left false⟩
  · intro pa pg hp hh hn hbytes line
    have left {own : Bool} (h : ownNeeded s s.cur own line = false) : exec (ownInstr sc own rs1 rs2) s = commits s id :=
      exec_ownInstr_line hw hq hn hbytes (ownAt_left hl hp (.inr h))
    refine ⟨fun h => left (own := true) (by simp [ownNeeded, h]), fun h => left (own := false) h, ?_⟩
    intro r hr ht w ends
    have hcur : r.cur = s.cur := markDie_cur ..
    have served {own : Bool} {u : State} (h : ownNeeded s s.cur own line = true) (hwork : ownWork s.cur sc own line pg va w = .ok () u) :
        ends (ownInstr sc own rs1 rs2) u := by
      have hexec := exec_ownInstr_line hw hq hn hbytes (ownAt_served hl hp hh h hr ht hwork)
      have hseq : (getCore (reached s s.cur (lineOf pa)) s.cur).seq = (here r).seq := by rw [here, hcur]
      rwa [hseq] at hexec
    refine ⟨fun h => ?_, fun h => ?_⟩
    · have hneeded : ownNeeded s s.cur true line = true := by simp [ownNeeded, h]
      exact ⟨fun u => served hneeded,
        fun ho hnone hroom hplace hs => served hneeded (ownHome_free (lodge_onPage hp) va ho hnone hroom hplace hs)⟩
    · exact ⟨fun u => served (own := false) h, fun ho hout hs => served (own := false) h (disownHome_free ho hout hs)⟩

end Sys2Proof.Machine

/-! ## A lock word granted at its home (R235, R295) -/

namespace Sys2Proof

/-- What was deleted at a key is found there no more. -/
theorem Tab.find_del_self {α : Type} (t : Tab α) (k : Nat) : (t.del k).find k = none := by
  induction t with
  | nil => rfl
  | cons e r ih =>
    by_cases he : e.1 = k
    · simpa [Tab.del, he] using ih
    · have hkept : Tab.del (e :: r) k = e :: Tab.del r k := by simp [Tab.del, he]
      rw [hkept, Tab.find, if_neg he, ih]

end Sys2Proof

namespace Sys2Proof.Machine

/-! ### Words of lines -/

/-- A bit of a line after new bytes have gone over it. -/
theorem getLsbD_mergeBytes (old new : BitVec 1024) (mask : BitVec 128) {j : Nat} (hj : j < 1024) :
    (mergeBytes old new mask).getLsbD j = if bitAt mask (j / 8) then new.getLsbD j else old.getLsbD j := by
  have hmask : (lineMask mask).getLsbD j = bitAt mask (j / 8) := by
    rw [lineMask, BitVec.getLsbD_ofNat, testBit_spread, bitAt]
    simp [hj]
  simp only [mergeBytes, BitVec.getLsbD_or, BitVec.getLsbD_and, BitVec.getLsbD_not, hmask]
  cases bitAt mask (j / 8) <;> simp [hj]

/-- A word of a line whose four bytes a mask covers is the new one. -/
theorem lineWord_mergeBytes (old new : BitVec 1024) {mask : BitVec 128} {i : Nat} (hi : i < 32)
    (hmask : ∀ b, 4 * i ≤ b → b < 4 * i + 4 → bitAt mask b = true) : lineWord (mergeBytes old new mask) i = lineWord new i := by
  refine BitVec.eq_of_getLsbD_eq fun j hj => ?_
  rw [lineWord, lineWord, slice, slice, BitVec.getLsbD_extractLsb', BitVec.getLsbD_extractLsb', getLsbD_mergeBytes _ _ _ (by omega),
    if_pos (hmask _ (by omega) (by omega))]

/-- A word that is defined is not blurred (R397). -/
theorem lineWord_blurWords (s : State) {keep : Word} (d : BitVec 1024) {i : Nat} (hi : i < 32) (hkeep : bitAt keep i = true) :
    lineWord (blurWords s keep d) i = lineWord d i := by
  rw [blurWords]
  split
  · rfl
  · refine lineWord_mergeBytes _ _ hi fun b hlo hhi => ?_
    have hb : b / 4 = i := by omega
    rw [bitAt, BitVec.toNat_ofNat, Nat.testBit_mod_two_pow, testBit_spread, hb]
    rw [bitAt] at hkeep
    simp [hkeep, show b < 128 by omega]

/-- The bytes of word `i` of a line. -/
def wordMask (i : Nat) : BitVec 128 := BitVec.ofNat 128 (15 <<< (4 * i))

theorem bitAt_wordMask {i b : Nat} (hi : i < 32) (hlo : 4 * i ≤ b) (hhi : b < 4 * i + 4) : bitAt (wordMask i) b = true := by
  rw [bitAt, wordMask, BitVec.toNat_ofNat, Nat.testBit_mod_two_pow, Nat.testBit_shiftLeft, show 15 = 2 ^ 4 - 1 from rfl,
    Nat.testBit_two_pow_sub_one]
  simp only [Bool.and_eq_true, decide_eq_true_eq]
  omega

/-- The bits that a fold sets by a test. -/
theorem testBit_foldl_or (p : Nat → Prop) [DecidablePred p] (l : List Nat) (a i : Nat) :
    (l.foldl (fun a i => if p i then a ||| (1 <<< i) else a) a).testBit i = (a.testBit i || decide (i ∈ l ∧ p i)) := by
  induction l generalizing a with
  | nil => simp
  | cons n l ih =>
    rw [List.foldl_cons, ih]
    by_cases hn : i = n
    · subst hn
      by_cases hp : p i <;> simp [hp]
    · have hone : (1 <<< n).testBit i = false := by
        rw [Nat.one_shiftLeft, Nat.testBit_two_pow]
        simp [Ne.symm hn]
      by_cases hp : p n <;> simp [hp, hn, hone]

/-- A word whose four bytes a mask covers is covered in full. -/
theorem bitAt_fullWords {mask : BitVec 128} {i : Nat} (hi : i < 32) (h : ∀ b, 4 * i ≤ b → b < 4 * i + 4 → bitAt mask b = true) :
    bitAt (fullWords mask) i = true := by
  have hfield : fieldOf mask.toNat (4 * i + 3) (4 * i) = 15 := by
    refine Nat.eq_of_testBit_eq fun j => ?_
    rw [testBit_fieldOf, show 15 = 2 ^ 4 - 1 from rfl, Nat.testBit_two_pow_sub_one, show 4 * i + 3 + 1 - 4 * i = 4 by omega]
    by_cases hj : j < 4
    · have hbit := h (4 * i + j) (by omega) (by omega)
      rw [bitAt] at hbit
      simp [hj, hbit]
    · simp [hj]
  rw [bitAt, fullWords, BitVec.toNat_ofNat, Nat.testBit_mod_two_pow, testBit_foldl_or]
  simp [hi, hfield]

/-! ### What a home of HBM changes for a line (R182) -/

/-- The line as a write of some bytes to its L2 copy leaves it. -/
def writtenL2 (l : L2Line) (d : BitVec 1024) (mask : BitVec 128) (p : BitVec 32) (region : Byte) (writer : Word) : L2Line :=
  { l with data := mergeBytes l.data d mask, dirty := l.dirty ||| mask, psn := mergePsn l.psn p mask
           writer := writer, region := region, bad := l.bad &&& ~~~(fullBlocks mask) }

section
variable {s : State} {line : Nat} (hf : isForeign line = false)
include hf

theorem notePort_near : notePort s line = s := by
  have hnear : aperture (128 * line) ≠ 3 ∧ ¬ 8 ≤ aperture (128 * line) := by
    simpa [isForeign, not_or] using hf
  rw [notePort, if_neg hnear.1, if_neg hnear.2]

theorem expireL2_near : expireL2 s line = s := by
  rw [expireL2]
  split
  · rw [hf]
    rfl
  · rfl

/-- A write to a line of HBM that has its place in L2 makes its bytes dirty there, and nothing else. -/
theorem writeL2_near (hp : l2Place s line = true) (who : Who) (d : BitVec 1024) (mask : BitVec 128) (p : BitVec 32) (region : Byte) (writer : Word) :
    writeL2 s who line d mask p region writer =
      { s with l2 := s.l2.put line (writtenL2 ((s.l2.find line).getD (newL2 s who line region)) d mask p region writer) } := by
  have htake : takeL2 s line = s := by
    rw [takeL2, roomL2, if_pos hp, notePort_near hf, ite_self]
  rw [writeL2, htake, hp]
  rfl

end

/-- A package that differs from `s` at most in what the home of a line holds and counts: its store, its locks and its regions are those of
`s`, and the line has its place in L2. -/
structure AtHomeOnly (s : State) (line : Nat) (t : State) : Prop where
  store : t.store = s.store
  qlocks : t.hub.qlocks = s.hub.qlocks
  regs : t.hub.regs = s.hub.regs
  place : l2Place t line = true

section
variable {s t : State} {line : Nat} (hf : isForeign line = false) (h : AtHomeOnly s line t)
include h

theorem AtHomeOnly.countPage (who : Who) (ac : Nat) : AtHomeOnly s line (countPage t who ac line) := by
  have hroom : AtHomeOnly s line (roomForRecord t ac line) := by
    rw [roomForRecord]
    split
    · exact h
    · dsimp only
      split
      · exact h
      · split
        · exact ⟨h.store, h.qlocks, h.regs, h.place⟩
        · exact h
  rw [Machine.countPage]
  split
  · exact h
  · dsimp only
    cases (roomForRecord t ac line).hub.pages.find (pageKey ac line) <;> dsimp only <;> split <;>
      exact ⟨hroom.store, hroom.qlocks, hroom.regs, hroom.place⟩

include hf

theorem AtHomeOnly.writeL2 (who : Who) (d : BitVec 1024) (mask : BitVec 128) (p : BitVec 32) (region : Byte) (writer : Word) :
    AtHomeOnly s line (writeL2 t who line d mask p region writer) := by
  rw [writeL2_near hf h.place]
  exact ⟨h.store, h.qlocks, h.regs, by simp [l2Place]⟩

theorem AtHomeOnly.syncHost (drop : Bool) : AtHomeOnly s line (syncHost t line drop) := by
  have hsync (b : BitVec 128) (ac : Nat) (d : BitVec 1024) (p : BitVec 32) : AtHomeOnly s line
      (if b = 0 then t else Machine.writeL2 (Machine.countPage t .outside ac line) .outside line d b p 0 0) := by
    split
    · exact h
    · exact (h.countPage .outside ac).writeL2 hf _ _ _ _ _ _
  rw [Machine.syncHost]
  split
  · rename_i l hl
    have hmid := hsync l.dirty l.ac l.data (l.psn &&& touchedWords l.dirty)
    rw [expireL2_near hf]
    exact ⟨hmid.store, hmid.qlocks, hmid.regs, hmid.place⟩
  · exact h

theorem AtHomeOnly.foldOne (e : Nat × CoreId × Partial) : AtHomeOnly s line (foldOne t line e) := by
  rw [Machine.foldOne]
  split
  · exact h.writeL2 hf _ _ _ _ _ _
  · exact h

theorem AtHomeOnly.foldWords (words : Word) : AtHomeOnly s line (foldWords t line words) := by
  have hfold (l : List (Nat × CoreId × Partial)) :
      ∀ u, AtHomeOnly s line u → AtHomeOnly s line (l.foldl (fun s e => Machine.foldOne s line e) u) := by
    induction l with
    | nil => exact fun u hu => hu
    | cons e l ih => exact fun u hu => ih _ (hu.foldOne hf e)
  rw [Machine.foldWords]
  dsimp only
  split
  · exact h
  · refine hfold _ _ (AtHomeOnly.syncHost hf ?_ true)
    rw [expireL2_near hf]
    exact ⟨h.store, h.qlocks, h.regs, h.place⟩

end

/-! ### The grant (R235, R295) -/

/-- The word by which a grant names its new holder, at its place in the line. -/
def holderWord (h : CoreId) (i : Nat) : BitVec 1024 := splice (0 : BitVec 1024) (32 * i) (BitVec.ofNat 32 (1 + h.toNat))

/-- A package with the waiters of a lock word replaced. -/
def withWaiters (s : State) (w : Nat) (l : List (CoreId × Byte)) : State :=
  { s with hub := { s.hub with qlocks := if l.isEmpty then s.hub.qlocks.del w else s.hub.qlocks.put w l } }

theorem getCore_withWaiters (s : State) (w : Nat) (l : List (CoreId × Byte)) (c : CoreId) : getCore (withWaiters s w l) c = getCore s c := rfl

theorem lockWaiters_withWaiters (s : State) (w : Nat) (l : List (CoreId × Byte)) : lockWaiters (withWaiters s w l) w = l := by
  cases l with
  | nil =>
    have hnone : (s.hub.qlocks.del w).find w = none := Tab.find_del_self ..
    exact congrArg (Option.getD · []) hnone
  | cons e r => exact congrArg (Option.getD · []) (Tab.find_put_self ..)

/-- A home about to grant a lock word of HBM: the word's partials are folded, and the host's bytes taken (R204, R387). -/
def grantReady (s : State) (w : Nat) : State := syncHost (foldWords s (w / 32) (touchedWords (wordMask (w % 32)))) (w / 32) true

/-- The home once it has written the new holder. -/
def grantWritten (s : State) (w : Nat) (h : CoreId) : State :=
  writeL2 (grantReady s w) (.core h) (w / 32) (holderWord h (w % 32)) (wordMask (w % 32)) 0 0 (ownerOf (getCore (grantReady s w) h))

section
variable {s : State} {w : Nat} {h : CoreId} {g : Byte} {rest : List (CoreId × Byte)}

theorem grantAt_near (hq : s.hub.qlocks.find w = some ((h, g) :: rest)) (hf : isForeign (w / 32) = false) :
    grantAt s w =
      withWaiters (updCore (markWatched (grantWritten s w h) h g) h fun k => grantLock k w) w rest := by
  rw [grantAt, hq]
  dsimp only
  rw [expireL2_near hf, hf]
  rfl

theorem grantWritten_cores : (grantWritten s w h).cores = s.cores := by
  simp [grantWritten, grantReady]

variable (hf : isForeign (w / 32) = false)
include hf

theorem grantReady_atHome (hroom : s.l2.length < 32768) : AtHomeOnly s (w / 32) (grantReady s w) :=
  have hplace : l2Place s (w / 32) = true := by simp [l2Place, sliceLines, hroom]
  ((AtHomeOnly.mk rfl rfl rfl hplace).foldWords hf _).syncHost hf true

theorem grantWritten_atHome (hroom : s.l2.length < 32768) : AtHomeOnly s (w / 32) (grantWritten s w h) :=
  (grantReady_atHome hf hroom).writeL2 hf _ _ _ _ _ _

/-- The home of the word serves the new holder. -/
theorem lineWord_grantWritten (hroom : s.l2.length < 32768) {t : State} (hl2 : t.l2 = (grantWritten s w h).l2) :
    lineWord (homeLine t (w / 32)).1 (w % 32) = BitVec.ofNat 32 (1 + h.toNat) := by
  have hi : w % 32 < 32 := Nat.mod_lt _ (by decide)
  have hmask : ∀ b, 4 * (w % 32) ≤ b → b < 4 * (w % 32) + 4 → bitAt (wordMask (w % 32)) b = true := fun b => bitAt_wordMask hi
  obtain ⟨l, hl⟩ : ∃ l, (grantWritten s w h).l2.find (w / 32) =
      some (writtenL2 l (holderWord h (w % 32)) (wordMask (w % 32)) 0 0 (ownerOf (getCore (grantReady s w) h))) := by
    rw [grantWritten, writeL2_near hf (grantReady_atHome hf hroom).place]
    exact ⟨_, Tab.find_put_self ..⟩
  have hdirty : bitAt (definedWords t (w / 32) ||| fullWords (l.dirty ||| wordMask (w % 32))) (w % 32) = true := by
    rw [bitAt_or, bitAt_fullWords hi fun b hlo hhi => by rw [bitAt_or, hmask b hlo hhi, Bool.or_true], Bool.or_true]
  rw [homeLine, hl2, hl]
  exact (lineWord_blurWords t _ hi hdirty).trans ((lineWord_mergeBytes _ _ hi hmask).trans (slice_splice_self _ _ _ (by omega)))

end

/-- R235, R295: the head waiter leaves the waiters, its word and its request say so, and its region is marked. -/
theorem zeroGrantsHeadWaiter : Parts.ZeroGrantsHeadWaiter := by
  intro s w h g rest hf hq hroom hqueued hword t
  have hat := grantWritten_atHome (h := h) hf hroom
  have ht : t = _ := grantAt_near hq hf
  have hcore (c : CoreId) : getCore (grantWritten s w h) c = getCore s c := by rw [getCore, grantWritten_cores, getCore]
  have hself : getCore t h = grantLock (getCore (markWatched (grantWritten s w h) h g) h) w := by
    rw [ht, getCore_withWaiters, getCore_updCore_self]
  refine ⟨by rw [ht, lockWaiters_withWaiters], ?_, ?_, fun r hr hbit => ?_, fun c hc => ?_, ?_⟩
  · exact lineWord_grantWritten hf hroom (by rw [ht]; exact markWatched_l2 ..)
  · obtain ⟨m, hm⟩ := getCore_markWatched (grantWritten s w h) h g
    rw [hself, hm, hcore]
    simp [grantLock, withMarks, hqueued, hword]
  · have hwatched : watches (grantWritten s w h).hub g = true := by
      rw [watches, hat.regs, hr]
      exact hbit
    rw [hself, getCore_markWatched_self, if_pos hwatched, hcore, bitAt]
    simp [grantLock, withMark, withMarks, hqueued, hword, testBit_putBit _ g.isLt]
  · rw [ht, getCore_withWaiters, getCore_updCore_other _ _ _ _ hc, getCore_markWatched_other _ _ _ hc, hcore]
  · rw [ht]
    exact (markWatched_store ..).trans hat.store

end Sys2Proof.Machine

/-! ## Remote operations that stop at their home (R229, R377, R378) -/

namespace Sys2Proof.Machine

section
variable {s sa : State} {c : CoreId}

/-- A home that stops an operation before it has answered records nothing (R378). -/
theorem applyOnce_stops {q : HWord} {home : Option Nat} {dup : M Unit} {apply : M DWord} {x : Stop} (hnew : dupOf s c q = none)
    (hroom : dupRoom s home = true) (ha : apply s = .error x sa) : applyOnce c q home dup apply s = .error x sa := by
  rw [applyOnce, M.get_bind, hnew]
  dsimp only
  rw [M.get_bind, hroom, awaitThat_true, M.pure_bind_run, M.bind_error ha]

/-- The control thread's outstanding operation is dropped. -/
theorem setRemote_none (hl : LinkFree (getCore s c)) : setRemote c none s = .ok () (updCore s c fun k => { k with remote := none }) :=
  congrArg (EStateM.Result.ok ()) (updCore_congr (by rw [putRemote, if_pos (by simp [streamKey, hl.control])]))

/-- An issue whose request crosses, and which its home stops, ends as the stop means for the requester. -/
theorem issue_stops {r : Remote} {home : Option Nat} {dup : M Unit} {apply : M DWord} {x y : Stop} {sb : Remote → State}
    (hl : LinkFree (getCore s c)) (hnew : dupOf s c r.seq = none) (hroom : dupRoom s home = true)
    (ha : apply (updCore s c fun k => { k with remote := none }) = .error x sa)
    (hx : ∀ r, homeStops c r home false x sa = .error y (sb r)) : ∃ r', issue c r home dup apply s = .error y (sb r') := by
  have hstopped := (M.tryCatch_error (f := homeStops c { r with issued := s.time, due := false, held := false } home false)
    (applyOnce_stops (dup := dup) (q := r.seq) (s := updCore s c fun k => { k with remote := none }) hnew hroom ha)).trans (hx _)
  refine ⟨{ r with issued := s.time, due := false, held := false }, ?_⟩
  rw [issue, M.get_bind, M.bind_ok (nextFlit_good hl.noDrop), if_pos rfl, reachedHome, M.theCore_bind, hl.noDrop]
  exact (M.bind_ok (setRemote_none hl)).trans (M.bind_error hstopped)

/-- A remote operation that its home stops at its first issue ends as the stop means for the requester. -/
theorem remoteOp_stops {va : DWord} {pa : Nat} {pg : Page} {apply : M DWord} {x y : Stop} {sb : Remote → State} (hl : LinkFree (getCore s c))
    (hr : homeRefuses s (lineOf pa) = none) (hh : HomeTakes (reached s c (lineOf pa)) c (some (sliceOf (lineOf pa))))
    (ha : apply (afterIssue (reached s c (lineOf pa)) c) = .error x sa)
    (hx : ∀ r, homeStops c r (some (sliceOf (lineOf pa))) false x sa = .error y (sb r)) :
    ∃ r, remoteOp c va (.mem pa pg) (pure ()) (pure ()) apply s = .error y (sb r) := by
  have hlr : LinkFree (getCore (reached s c (lineOf pa)) c) := (linkFree_markDie _).2 hl
  have hline : (decide (noAddress ≤ (Loc.mem pa pg).pa) || !lineBusy (reached s c (lineOf pa)) c (lineOf (Loc.mem pa pg).pa)) = true := by
    simp [hh.lineFree]
  have hreach : (Loc.mem pa pg).reach c va s = .ok () (reached s c (lineOf pa)) := reachHome_ok hr va
  have hprep : (pure () >>= fun _ => pure (Loc.mem pa pg).outside : M Bool) s = .ok (isForeign (lineOf pa)) s := rfl
  rw [remoteOp, remoteWith, M.theCore_bind, remoteOf_free hl.control hl.noRemote, Option.filter_none]
  dsimp only
  rw [M.bind_ok hprep, M.bind_ok hreach, M.get_bind, hline, awaitThat_true, M.pure_bind_run, M.theCore_bind,
    M.bind_ok (freeSeq_ok hh), M.pure_bind_run, M.modCore_bind]
  refine issue_stops ?_ (dupOf_freedSeq (reached s c (lineOf pa)) c _) (dupRoom_freedSeq hh.room _) ha hx
  rw [getCore_updCore_self]
  exact ⟨hlr.control, hlr.noRemote, hlr.noDrop⟩

end

end Sys2Proof.Machine

/-! ## Queued locks (R204, R207, R229, R235, R356, logs 8 and 55) -/

namespace Sys2Proof.Machine

/-! ### The request at the home (R197, R235) -/

/-- A package in which a request of a core has joined the waiters of a lock word, which are `l` from now. -/
def queuedLock (s : State) (c : CoreId) (w : Nat) (l : List (CoreId × Byte)) : State :=
  let s := leaveQueue s c w
  updCore { s with hub := { s.hub with qlocks := s.hub.qlocks.put w l } } c fun k => setLock k w true false

theorem getCore_queuedLock (s : State) (c : CoreId) (w : Nat) (l : List (CoreId × Byte)) :
    getCore (queuedLock s c w l) c = setLock (getCore s c) w true false := getCore_updCore_self ..

/-- A core whose request has found no place at a tick. -/
def refusedLock (t : DWord) (k : Core) : Core := { k with streams := { k.streams with qlockRefused := some t } }

/-- What a request of a lock word answers once its home has read the word: granted, refused as the holder's own, queued, or without a place. -/
def lockAnswer (c : CoreId) (w v : Nat) (free : Bool) (g : Byte) (ws : List (CoreId × Byte)) : M DWord :=
  if v = 0 ∧ free then do
    modify fun s => leaveQueue s c w
    modCore c fun k => setLock k w true true
    return 0
  else if v = lockValue c then raise .queueFault 0
  else if ws.length < 64 then do
    if lockBlocked (← get) c w then do
      modify fun s => waitForQueue s c w
      waitHere
    else pure ()
    modify fun s => leaveQueue s c w
    modHub fun h => { h with qlocks := h.qlocks.put w (ws ++ [(c, g)]) }
    modCore c fun k => setLock k w true false
    return 0
  else do
    let t := (← get).time
    modCore c fun k => { k with streams := { k.streams with qlockRefused := some t } }
    return 1

section
variable {s s2 : State} {c : CoreId} {sc : Scope} {pa v : Nat} {pg : Page} {va : DWord}

/-- A word of which no request waits for a queue has none before a core's. -/
theorem firstRequest_of_noWait {w : Nat} (h : ∀ e ∈ s.hub.lockWaits, e.1 ≠ w) : firstRequest s c w = true := by
  rw [firstRequest, Bool.not_eq_true', List.any_eq_false]
  intro e he
  simpa using h e (List.takeWhile_subset _ he)

theorem requestLock_eq (hwaits : ∀ e ∈ s.hub.lockWaits, e.1 ≠ pa / 4)
    (hrmw : rmwAt c (.mem pa pg) sc 4 va (grantRmw c (lockWaiters s (pa / 4)).isEmpty) s = .ok (v, false) s2) :
    requestLock c sc (.mem pa pg) pa va s =
      lockAnswer c (pa / 4) v (lockWaiters s (pa / 4)).isEmpty pg.region (lockWaiters s2 (pa / 4)) s2 := by
  have hcontains : s.hub.lockWaits.contains (pa / 4, c) = false := by
    rw [List.contains_eq_any_beq, List.any_eq_false]
    intro e he hbeq
    exact hwaits e he (congrArg Prod.fst (beq_iff_eq.1 hbeq)).symm
  rw [requestLock]
  dsimp only
  rw [M.get_bind, firstRequest_of_noWait hwaits, Bool.and_true, hcontains]
  exact (M.bind_ok hrmw).trans rfl

section
variable {w : Nat} {free : Bool} {g : Byte} {ws : List (CoreId × Byte)}

theorem lockAnswer_granted (h : v = 0 ∧ free = true) :
    lockAnswer c w v free g ws s2 = .ok 0 (updCore (leaveQueue s2 c w) c fun k => setLock k w true true) := by
  rw [lockAnswer, if_pos h]
  rfl

theorem lockAnswer_holder (h : v = lockValue c) : lockAnswer c w v free g ws s2 = .error (.trap (trapInfo .queueFault 0)) s2 := by
  rw [lockAnswer, if_neg (fun h0 => by rw [h0.1, lockValue] at h; omega), if_pos h, M.raise_run]

section
variable (hn : ¬ (v = 0 ∧ free = true)) (hme : v ≠ lockValue c)
include hn hme

theorem lockAnswer_queued (hlen : ws.length < 64) (hb : lockBlocked s2 c w = false) :
    lockAnswer c w v free g ws s2 = .ok 0 (queuedLock s2 c w (ws ++ [(c, g)])) := by
  rw [lockAnswer, if_neg hn, if_neg hme, if_pos hlen, M.get_bind, hb]
  rfl

theorem lockAnswer_blocked (hlen : ws.length < 64) (hb : lockBlocked s2 c w = true) :
    lockAnswer c w v free g ws s2 = .error .wait (waitForQueue s2 c w) := by
  rw [lockAnswer, if_neg hn, if_neg hme, if_pos hlen, M.get_bind, hb]
  rfl

theorem lockAnswer_refused (hlen : 64 ≤ ws.length) :
    lockAnswer c w v free g ws s2 = .ok 1 (updCore s2 c (refusedLock s2.time)) := by
  rw [lockAnswer, if_neg hn, if_neg hme, if_neg (Nat.not_lt.2 hlen)]
  rfl

end
end
end

/-! ### The grant at the core (R235) -/

/-- What a `qlock` does once it has no request to make: it waits for its grant, and completes with an acquire. -/
def takeGrant (c : CoreId) (sc : Scope) : M Unit := do
  awaitThat (← theCore c).streams.qlockGranted
  acquireReady c sc allRegions
  modCore c fun k => setLock k 0 false false
  acquireAfter c sc allRegions

section
variable {s : State} {c : CoreId} {sc : Scope}

theorem takeGrant_waits (h : (getCore s c).streams.qlockGranted = false) : takeGrant c sc s = .error .wait s := by
  rw [takeGrant, M.theCore_bind, h]
  rfl

theorem takeGrant_ok (h : (getCore s c).streams.qlockGranted = true) (ha : AcquireFree s c sc allRegions) :
    takeGrant c sc s = .ok () (joinSync (updCore s c fun k => setLock k 0 false false) c (.acq sc allRegions)) := by
  have hready : acquireReady c sc allRegions s = .ok () s := pushReady_ok ha
  rw [takeGrant, M.theCore_bind, h, awaitThat_true, M.pure_bind_run, M.bind_ok hready]
  rfl

end

/-! ### `qlock` -/

/-- What a `qlock` does of which no request awaits its reply: the request that it has queued is taken up again, or it makes one, and takes its
grant. -/
def lockTurn (c : CoreId) (sc : Scope) (loc : Loc) (pa : Nat) (va : DWord) : M Unit := do
  modify fun s => resumeLock s c (pa / 4)
  if !(← theCore c).streams.qlockQueued then do
    awaitThat (mayRetry (← theCore c) (← get).time)
    let _ ← tryCatch (remoteOp c va loc (pure ()) (pure ()) (requestLock c sc loc pa va)) (lockFails c)
  else pure ()
  takeGrant c sc

section
variable {s t : State} {c : CoreId} {sc : Scope} {pa : Nat} {pg : Page} {va : DWord}

/-- A request that is queued, and that the core still sees, is the core's request as it stands (R356). -/
theorem resumeLock_same (h : (getCore s c).streams.qlockQueued = false ∨ (getCore s c).streams.qlockWord = pa / 4) :
    resumeLock s c (pa / 4) = s := by
  have hsame : (!(getCore s c).streams.qlockQueued || (getCore s c).streams.qlockWord == pa / 4) = true := by
    rcases h with h | h <;> simp [h]
  exact if_pos hsame

/-- A request of which the core has lost sight, and which its home has granted (R356, log 55). -/
theorem resumeLock_granted (hq : (getCore s c).streams.qlockQueued = true) (hword : (getCore s c).streams.qlockWord ≠ pa / 4)
    (hmark : lockAt (openLock s (pa / 4)) (pa / 4) = lockValue c) :
    resumeLock s c (pa / 4) = updCore (openLock s (pa / 4)) c fun k => setLock k (pa / 4) true true := by
  have hlost : ¬ (!(getCore s c).streams.qlockQueued || (getCore s c).streams.qlockWord == pa / 4) = true := by simp [hq, hword]
  rw [resumeLock]
  refine (if_neg hlost).trans ?_
  dsimp only
  rw [hmark, beq_self_eq_true, Bool.true_or]

/-- A core that has not been refused may ask at once. -/
theorem mayRetry_fresh {k : Core} (h : k.streams.qlockRefused = none) (now : DWord) : mayRetry k now = true := by rw [mayRetry, h]

theorem lockTurn_queued (h : (getCore (resumeLock s c (pa / 4)) c).streams.qlockQueued = true) :
    lockTurn c sc (.mem pa pg) pa va s = takeGrant c sc (resumeLock s c (pa / 4)) := by
  rw [lockTurn, M.modify_bind, M.theCore_bind, h]
  rfl

section
variable (hq : (getCore s c).streams.qlockQueued = false) (hr : (getCore s c).streams.qlockRefused = none)
include hq hr

theorem lockTurn_requests {v : DWord}
    (h : remoteOp c va (.mem pa pg) (pure ()) (pure ()) (requestLock c sc (.mem pa pg) pa va) s = .ok v t) :
    lockTurn c sc (.mem pa pg) pa va s = takeGrant c sc t := by
  rw [lockTurn, M.modify_bind, resumeLock_same (.inl hq), M.theCore_bind, hq, Bool.not_false, if_pos rfl, M.theCore_bind, M.get_bind, mayRetry_fresh hr,
    awaitThat_true, M.pure_bind_run, M.bind_ok (M.tryCatch_ok h)]

theorem lockTurn_stops {x : Stop} {t' : State}
    (h : remoteOp c va (.mem pa pg) (pure ()) (pure ()) (requestLock c sc (.mem pa pg) pa va) s = .error x t)
    (hx : lockFails c x t = .error x t') : lockTurn c sc (.mem pa pg) pa va s = .error x t' := by
  rw [lockTurn, M.modify_bind, resumeLock_same (.inl hq), M.theCore_bind, hq, Bool.not_false, if_pos rfl, M.theCore_bind, M.get_bind, mayRetry_fresh hr,
    awaitThat_true, M.pure_bind_run, M.bind_error ((M.tryCatch_error h).trans hx)]

end
end

/-- A write that no replay and no waiting release holds back waits for the posted entries that access its bytes alone (R207). -/
theorem gateWrite_quiet {s : State} {c : CoreId} (h : Quiet (getCore s c)) (va : DWord) (n : Nat) :
    gateWrite c va n s = awaitThat (!conflicts s c (fun _ => true) [] [.bytes va n]) s := by
  rw [gateWrite, M.bind_ok (memGate_quiet h), M.get_bind]

/-- The place of a lock word in memory. -/
theorem lockWord_ok {s : State} {va : DWord} {pa : Nat} {pg : Page} (hal : va.toNat % 4 = 0) (hp : OnPage s va .both pa pg) :
    lockWord s.cur va s = .ok (pa, .mem pa pg) s := by
  rw [lockWord, beq_iff_eq.2 hal, require_true, M.pure_bind_run, M.bind_ok (translate_onPage hp 4)]
  rfl

section
variable {s : State} {sc : Scope} {rs1 : BitVec 5} (hw : sc.isWide = true) (hq : Quiet (here s))
include hw hq

/-- A `qlock` behind a posted entry that accesses its word (R207). -/
theorem exec_qlock_held (hc : conflicts s s.cur (fun _ => true) [] [.bytes (getS (here s) rs1) 4] = true) : exec (.qlock sc rs1) s = .next s := by
  have hgate : gateWrite s.cur (getS (here s) rs1) 4 s = .error .wait s := by
    rw [gateWrite_quiet hq, hc]
    rfl
  refine (checked_ok (i := .qlock sc rs1) hw).trans (control_wait ?_)
  rw [M.theCore_bind, M.bind_error hgate]

variable (hl : LinkFree (here s)) {pa : Nat} {pg : Page} (hal : (getS (here s) rs1).toNat % 4 = 0) (hp : OnPage s (getS (here s) rs1) .both pa pg)
  (hc : conflicts s s.cur (fun _ => true) [] [.bytes (getS (here s) rs1) 4] = false)
include hl hal hp hc

/-- A `qlock` that no posted entry holds back. -/
theorem exec_qlock : ∃ m, exec (.qlock sc rs1) s = control m s ∧ m s.cur s = lockTurn s.cur sc (.mem pa pg) pa (getS (here s) rs1) s := by
  have hgate : gateWrite s.cur (getS (here s) rs1) 4 s = .ok () s := by
    rw [gateWrite_quiet hq, hc]
    rfl
  refine ⟨_, checked_ok (i := .qlock sc rs1) hw, ?_⟩
  rw [M.theCore_bind, M.bind_ok hgate, M.bind_ok (lockWord_ok hal hp)]
  dsimp only
  rw [M.theCore_bind, opPending_free hl.control hl.noRemote]
  rfl

end

/-- R207, R235, R356: what the request of a `qlock` that has one is, and then its grant. -/
theorem qlockGrantCompletes : Parts.QlockGrantCompletes := by
  intro s sc rs1 pa pg hw hq hl hqueued hal hp
  refine ⟨exec_qlock_held hw hq, fun hc => ?_⟩
  obtain ⟨m, hexec, hm⟩ := exec_qlock hw hq hl hal hp hc
  rw [hexec]
  have hseen (hword : (here s).streams.qlockWord = pa / 4) : m s.cur s = takeGrant s.cur sc s := by
    have hsame := resumeLock_same (s := s) (c := s.cur) (.inr hword)
    rw [hm, lockTurn_queued (by rwa [hsame]), hsame]
  refine ⟨fun hword hg => control_wait ((hseen hword).trans (takeGrant_waits hg)),
    fun hword hg ha => control_ok ((hseen hword).trans (takeGrant_ok hg ha)), ?_⟩
  intro o hword hmark ha
  have hresume := resumeLock_granted hqueued hword hmark
  have hself : getCore (resumeLock s s.cur (pa / 4)) s.cur = setLock (getCore o s.cur) (pa / 4) true true := by
    rw [hresume, getCore_updCore_self]
  have hrun := (hm.trans (lockTurn_queued (by rw [hself]; rfl))).trans (takeGrant_ok (by rw [hself]; rfl) ha)
  rw [hresume, updCore_updCore] at hrun
  exact control_ok hrun

/-! ### What the ways of a request leave alone -/

section
variable (s : State) (c : CoreId) (w : Nat)

/-- A request that has reached a home and has been issued has met no lock yet. -/
theorem lockWaits_afterIssue (line : Nat) : (afterIssue (reached s c line) c).hub.lockWaits = s.hub.lockWaits := by
  change (markDie s c (16 + mdOf line)).hub.lockWaits = _
  rcases markDie_cases s c (16 + mdOf line) with h | ⟨f, ctxs, h⟩ <;> rw [h]

theorem lockWaiters_afterIssue (line : Nat) : lockWaiters (afterIssue (reached s c line) c) w = lockWaiters s w := by
  change lockWaiters (markDie s c (16 + mdOf line)) w = _
  rcases markDie_cases s c (16 + mdOf line) with h | ⟨f, ctxs, h⟩ <;> rw [h]
  rfl

/-- A request that waits for a queue changes the list of those that wait alone. -/
theorem waitForQueue_eq : ∃ l, waitForQueue s c w = { s with hub := { s.hub with lockWaits := l } } := by
  rw [waitForQueue]
  split
  · exact ⟨s.hub.lockWaits, rfl⟩
  · exact ⟨_, rfl⟩

/-- An operation set outstanding changes nothing else of its core. -/
theorem putRemote_streams (k : Core) (r : Option Remote) : (putRemote k r).streams = k.streams := by
  unfold putRemote
  split <;> rfl

theorem putRemote_pc (k : Core) (r : Option Remote) : (putRemote k r).pc = k.pc := by
  unfold putRemote
  split <;> rfl

end

/-! ### How the request of a `qlock` ends (R235) -/

/-- A request that its home has stopped with a wait is held there (R229). -/
def heldAtHome (s : State) (c : CoreId) (r : Remote) : State :=
  updCore s c fun k => putRemote k (some { r with held := true, issued := s.time })

/-- A `qlock` whose core makes its request, which reaches its home: the home reads `v` in the word and goes on in `s2` (R229, R235). -/
structure LockRequest (s : State) (sc : Scope) (rs1 : BitVec 5) (pa : Nat) (pg : Page) (v : Nat) (s2 : State) : Prop where
  wide : sc.isWide = true
  quiet : Quiet (here s)
  link : LinkFree (here s)
  notQueued : (here s).streams.qlockQueued = false
  notRefused : (here s).streams.qlockRefused = none
  noConflict : conflicts s s.cur (fun _ => true) [] [.bytes (getS (here s) rs1) 4] = false
  aligned : (getS (here s) rs1).toNat % 4 = 0
  page : OnPage s (getS (here s) rs1) .both pa pg
  ready : homeRefuses s (lineOf pa) = none
  takes : HomeTakes (reached s s.cur (lineOf pa)) s.cur (some (sliceOf (lineOf pa)))
  noWait : ∀ e ∈ s.hub.lockWaits, e.1 ≠ pa / 4
  read : rmwAt s.cur (.mem pa pg) sc 4 (getS (here s) rs1) (grantRmw s.cur (lockWaiters s (pa / 4)).isEmpty)
    (afterIssue (reached s s.cur (lineOf pa)) s.cur) = .ok (v, false) s2

section
variable {s s2 u : State} {sc : Scope} {rs1 : BitVec 5} {pa v : Nat} {pg : Page} (hreq : LockRequest s sc rs1 pa pg v s2)
include hreq

/-- The request meets the word as its home has read it. -/
theorem requestLock_first : requestLock s.cur sc (.mem pa pg) pa (getS (here s) rs1) (afterIssue (reached s s.cur (lineOf pa)) s.cur) =
    lockAnswer s.cur (pa / 4) v (lockWaiters s (pa / 4)).isEmpty pg.region (lockWaiters s2 (pa / 4)) s2 := by
  have hread := hreq.read
  have hsame := lockWaiters_afterIssue s s.cur (pa / 4) (lineOf pa)
  rw [← hsame] at hread ⊢
  exact requestLock_eq (by rw [lockWaits_afterIssue]; exact hreq.noWait) hread

theorem exec_qlock_turn :
    ∃ m, exec (.qlock sc rs1) s = control m s ∧ m s.cur s = lockTurn s.cur sc (.mem pa pg) pa (getS (here s) rs1) s :=
  exec_qlock hreq.wide hreq.quiet hreq.link hreq.aligned hreq.page hreq.noConflict

/-- A request that has been answered leaves the core to take its grant. -/
theorem exec_qlock_answered {x : DWord}
    (h : lockAnswer s.cur (pa / 4) v (lockWaiters s (pa / 4)).isEmpty pg.region (lockWaiters s2 (pa / 4)) s2 = .ok x u) :
    let t := afterReply u s.cur (some (sliceOf (lineOf pa))) (here (reached s s.cur (lineOf pa))).seq x
    ((getCore u s.cur).streams.qlockGranted = true → AcquireFree t s.cur sc allRegions →
      exec (.qlock sc rs1) s =
        .next (let t := joinSync (updCore t s.cur fun k => setLock k 0 false false) s.cur (.acq sc allRegions)
               updCore t t.cur fun k => retire k 4)) ∧
    ((getCore u s.cur).streams.qlockGranted = false → exec (.qlock sc rs1) s = .next t) := by
  intro t
  obtain ⟨m, hexec, hm⟩ := exec_qlock_turn hreq
  have hcur : (reached s s.cur (lineOf pa)).cur = s.cur := markDie_cur ..
  have hturn := hm.trans (lockTurn_requests hreq.notQueued hreq.notRefused
    (remoteOp_ok hreq.link hreq.ready hreq.takes ((requestLock_first hreq).trans h)))
  have ht : t = afterReply u s.cur (some (sliceOf (lineOf pa))) (getCore (reached s s.cur (lineOf pa)) s.cur).seq x := by
    change afterReply u s.cur _ (getCore (reached s s.cur (lineOf pa)) (reached s s.cur (lineOf pa)).cur).seq x = _
    rw [hcur]
  rw [← ht] at hturn
  exact ⟨fun hg ha => hexec.trans (control_ok (hturn.trans (takeGrant_ok hg ha))),
    fun hg => hexec.trans (control_wait (hturn.trans (takeGrant_waits hg)))⟩

/-- A request that waits at its home is held there, and so does the `qlock` wait. -/
theorem exec_qlock_blocked
    (h : lockAnswer s.cur (pa / 4) v (lockWaiters s (pa / 4)).isEmpty pg.region (lockWaiters s2 (pa / 4)) s2 = .error .wait u) :
    ∃ r, exec (.qlock sc rs1) s = .next (heldAtHome u s.cur r) := by
  obtain ⟨m, hexec, hm⟩ := exec_qlock_turn hreq
  obtain ⟨r, hstop⟩ := remoteOp_stops (va := getS (here s) rs1) (pg := pg) (sb := heldAtHome u s.cur) hreq.link hreq.ready hreq.takes
    ((requestLock_first hreq).trans h) fun _ => rfl
  exact ⟨r, hexec.trans (control_wait (hm.trans (lockTurn_stops hreq.notQueued hreq.notRefused hstop rfl)))⟩

/-- A request that its home refuses for good ends the `qlock` with a trap, and the core holds no request. -/
theorem exec_qlock_trap {x : TrapInfo}
    (h : lockAnswer s.cur (pa / 4) v (lockWaiters s (pa / 4)).isEmpty pg.region (lockWaiters s2 (pa / 4)) s2 = .error (.trap x) u) :
    exec (.qlock sc rs1) s =
      .next (stopAt s (updCore u s.cur fun k => setLock k 0 false false) s.cur (controlTrap x (here s).pc)) := by
  obtain ⟨m, hexec, hm⟩ := exec_qlock_turn hreq
  obtain ⟨r, hstop⟩ := remoteOp_stops (va := getS (here s) rs1) (pg := pg) (sb := fun _ => u) hreq.link hreq.ready hreq.takes
    ((requestLock_first hreq).trans h) fun _ => rfl
  exact hexec.trans (control_trap (hm.trans (lockTurn_stops hreq.notQueued hreq.notRefused hstop rfl)))

end

/-- R197, R235: the answers of the home, one by one. -/
theorem qlockAtHome : Parts.QlockAtHome := by
  intro s sc rs1 pa v pg s2 hw hq hl hn hnr c va me w home r hc hal hp hr hh hwaits hrmw ws taken
  have hnot (h : ¬ taken) : ¬ (v = 0 ∧ (lockWaiters s w).isEmpty = true) := by rwa [List.isEmpty_iff]
  have hreq : LockRequest s sc rs1 pa pg v s2 := ⟨hw, hq, hl, hn, hnr, hc, hal, hp, hr, hh, hwaits, hrmw⟩
  have answered {x : DWord} {u : State} := exec_qlock_answered (u := u) (x := x) hreq
  refine ⟨?_, fun h hme hlen => ?_, fun h hme hlen hg => ?_, fun hme => ?_⟩
  · intro h t ha
    exact (answered (lockAnswer_granted ⟨h.1, List.isEmpty_iff.2 h.2⟩)).1 (congrArg (·.streams.qlockGranted) (getCore_updCore_self ..)) ha
  · cases hb : lockBlocked s2 c w with
    | false =>
      have hexec := (answered (lockAnswer_queued (hnot h) hme hlen hb)).2 (congrArg (·.streams.qlockGranted) (getCore_updCore_self ..))
      have hself := getCore_queuedLock s2 c w (ws ++ [(c, pg.region)])
      exact ⟨_, hexec, rfl, rfl, (congrArg Core.pc hself).trans rfl, fun _ => ⟨congrArg (Option.getD · []) (Tab.find_put_self ..), rfl,
        congrArg (·.streams.qlockQueued) hself, congrArg (·.streams.qlockWord) hself, congrArg (·.streams.qlockGranted) hself⟩, by simp⟩
    | true =>
      obtain ⟨x, hexec⟩ := exec_qlock_blocked hreq (lockAnswer_blocked (hnot h) hme hlen hb)
      obtain ⟨l, hwait⟩ := waitForQueue_eq s2 c w
      rw [hwait] at hexec ⊢
      refine ⟨_, hexec, rfl, rfl, ?_, by simp, fun _ => ⟨rfl, rfl, ?_⟩⟩
      · rw [heldAtHome, getCore_updCore_self, putRemote_pc]
        rfl
      · rw [heldAtHome, getCore_updCore_self, putRemote_streams]
        rfl
  · have hself : getCore (updCore s2 c (refusedLock s2.time)) c = refusedLock s2.time (getCore s2 c) := getCore_updCore_self ..
    have hexec := (answered (lockAnswer_refused (hnot h) hme hlen)).2 ((congrArg (·.streams.qlockGranted) hself).trans hg)
    exact ⟨_, hexec, rfl, rfl, rfl, (congrArg Core.streams hself).trans rfl, (congrArg Core.pc hself).trans rfl⟩
  · exact exec_qlock_trap hreq (lockAnswer_holder hme)

/-! ### `qunlock` -/

section
variable {s s2 s3 : State} {c : CoreId} {sc : Scope} {pa v : Nat} {pg : Page} {va : DWord}

/-- The word is read at its home before the release (R235). -/
theorem readLock_ok {x : Nat × Bool} (hl : LinkFree (getCore s c)) (hr : homeRefuses s (lineOf pa) = none)
    (h : rmwAt c (.mem pa { pg with ac := 0 }) sc 4 va (fun _ _ => none) (reached s c (lineOf pa)) = .ok x s2) :
    readLock c sc (.mem pa pg) pa va s = .ok x s2 := by
  rw [readLock, readRequest, M.theCore_bind, remoteOf_free hl.control hl.noRemote]
  dsimp only
  rw [hl.noDrop]
  exact (M.bind_ok (reachHome_ok hr va)).trans h

theorem mustHold_own : mustHold c pa va (lockValue c, false) s = .ok () s := by
  simp [mustHold]

theorem mustHold_other (h : v ≠ lockValue c) : mustHold c pa va (v, false) s = .error (.trap (trapInfo .queueFault 0)) s := by
  rw [mustHold, if_neg Bool.false_ne_true, beq_eq_false_iff_ne.2 h, require_false, M.raise_run]

/-- An unlock at the home of a word that holds the core's mark. -/
theorem unlockAt_ok (h : rmwAt c (.mem pa pg) sc 4 va (freeRmw c) s = .ok (lockValue c, false) s3) :
    unlockAt c sc (.mem pa pg) pa va s = .ok 0 s3 := by
  rw [unlockAt, M.bind_ok h, M.bind_ok mustHold_own]
  rfl

end

/-- What a `qunlock` does of which no request awaits its reply: it checks the word, releases, and writes it. -/
def unlockTurn (c : CoreId) (sc : Scope) (loc : Loc) (pa : Nat) (va : DWord) : M Unit := do
  mustHold c pa va (← readLock c sc loc pa va)
  releaseNow c sc allRegions
  let _ ← remoteOp c va loc (pure ()) (pure ()) (unlockAt c sc loc pa va)
  modify fun s => staleReply s c loc sc

theorem exec_qunlock {s : State} {sc : Scope} {rs1 : BitVec 5} {pa : Nat} {pg : Page} (hw : sc.isWide = true) (hd : Drained (here s))
    (hl : LinkFree (here s)) (hal : (getS (here s) rs1).toNat % 4 = 0) (hp : OnPage s (getS (here s) rs1) .both pa pg) :
    ∃ m, exec (.qunlock sc rs1) s = control m s ∧ m s.cur s = unlockTurn s.cur sc (.mem pa pg) pa (getS (here s) rs1) s := by
  refine ⟨_, checked_ok (i := .qunlock sc rs1) hw, ?_⟩
  rw [M.bind_ok (gateAll_drained hd), M.theCore_bind, M.bind_ok (lockWord_ok hal hp)]
  dsimp only
  rw [M.theCore_bind, opPending_free hl.control hl.noRemote, if_neg Bool.false_ne_true, unlockTurn]

/-- R235: the word read, the release, and the word written. -/
theorem qunlockAtHome : Parts.QunlockAtHome := by
  intro s sc rs1 pa v pg s2 hw hd hl c va me line home hal hp hr hread
  obtain ⟨m, hexec, hm⟩ := exec_qunlock hw hd hl hal hp
  rw [hexec]
  have hturn := hm.trans (M.bind_ok (readLock_ok hl hr hread))
  refine ⟨?_, fun hme => control_trap (hturn.trans (M.bind_error (mustHold_other hme)))⟩
  intro hme hcur hfree r hrcur hr2 hl2 hh s3 hwrite
  have hlr : LinkFree (getCore (release s2 c sc allRegions) c) := by
    rw [here, hrcur] at hl2
    exact (linkFree_markDie _).1 hl2
  have hop := remoteOp_ok (va := va) (pg := pg) hlr hr2 hh (unlockAt_ok hwrite)
  have hseq : (here r).seq = (getCore r c).seq := by rw [here, hrcur]
  rw [hme] at hturn
  rw [hseq]
  exact control_ok (hturn.trans ((M.bind_ok mustHold_own).trans ((M.bind_ok (releaseNow_ok hfree)).trans (M.bind_ok hop))))

/-- Settles O30: the answers of a lock's home, the grant that a core takes, the unlock, and the grant by a write of 0. -/
theorem locks : Obligations.Locks := ⟨qlockAtHome, qlockGrantCompletes, qunlockAtHome, zeroGrantsHeadWaiter⟩

end Sys2Proof.Machine
